-- ==== Sys2Proof/Word.lean ====
section
/-! DEFINITION. The word types of the Nirjan N2 and their plainest arithmetic: bytes, 64-bit scalars, addresses, fields of a
number (R1: bit 0 is the least significant bit), and the one sparse-list form that every sparse store of the model uses. -/
namespace Sys2Proof

/-- A byte of memory (R2: memory is byte-addressed). -/
abbrev Byte := BitVec 8
/-- A scalar register's width (R32). -/
abbrev W64 := BitVec 64
/-- A virtual G address (R10: 52 bits). -/
abbrev GAddr := BitVec 52
/-- A code address, counted in halfwords (R23: 24 bits). -/
abbrev CAddr := BitVec 24
/-- A format code or format tag (R117). -/
abbrev Tag := BitVec 4
/-- The 64 lanes of a v register as one value (R118). -/
abbrev VBits := BitVec 2048
/-- One 384-byte row: an operand row, a weight row, or one element of the spill format (R165, R178). -/
abbrev Row := BitVec 3072
/-- A bundle (R26). -/
abbrev Bundle := BitVec 384

/-- Bits [lo+n-1:lo] of a number, as an n-bit field (R1). -/
def fld (w lo n : Nat) : BitVec n := BitVec.ofNat n (w / 2 ^ lo)

/-- Bit [lo] of a number (R1). -/
def bitAt (w lo : Nat) : Bool := w / 2 ^ lo % 2 == 1

/-- A field placed at bit lo of a number. -/
def put {n : Nat} (lo : Nat) (x : BitVec n) : Nat := x.toNat * 2 ^ lo

/-- A flag placed at bit lo of a number. -/
def putB (lo : Nat) (b : Bool) : Nat := b.toNat * 2 ^ lo

/-- Element e of width w of a value (R118). -/
def elem {n : Nat} (x : BitVec n) (w e : Nat) : BitVec w := x.extractLsb' (w * e) w

/-- A value with its element e of width w replaced (R118). -/
def setElem {n : Nat} (x : BitVec n) (w e : Nat) (y : BitVec w) : BitVec n :=
  (x &&& ~~~((BitVec.allOnes w).setWidth n <<< (w * e))) ||| (y.setWidth n <<< (w * e))

/-- The value whose element e of width w is f e, for e below k (R118). -/
def buildElems (n w : Nat) : Nat → (Nat → BitVec w) → BitVec n
  | 0, _ => 0
  | k + 1, f => buildElems n w k f ||| ((f k).setWidth n <<< (w * k))

/-- The numbers 0 to n-1 in ascending order. -/
def upto : Nat → List Nat
  | 0 => []
  | n + 1 => upto n ++ [n]

/-- The numbers a to a+n-1 in ascending order. -/
def span (a : Nat) : Nat → List Nat
  | 0 => []
  | n + 1 => a :: span (a + 1) n

/-- Sums a list of numbers. -/
def sumNat : List Nat → Nat
  | [] => 0
  | x :: xs => x + sumNat xs

/-! A sparse store: a list of key and value pairs with keys strictly rising, in which a key that is not listed
reads as the default. Memories and weight slices use it. -/

/-- Reads a key of a sparse store. -/
def sget {α : Type} (dflt : α) : List (Nat × α) → Nat → α
  | [], _ => dflt
  | (k, v) :: r, a => if k = a then v else sget dflt r a

/-- Drops a key of a sparse store. -/
def sdel {α : Type} : List (Nat × α) → Nat → List (Nat × α)
  | [], _ => []
  | (k, v) :: r, a => if k = a then sdel r a else (k, v) :: sdel r a

/-- Places a pair in a sparse store that does not list its key, keeping the keys rising. -/
def sins {α : Type} : List (Nat × α) → Nat → α → List (Nat × α)
  | [], a, x => [(a, x)]
  | (k, v) :: r, a, x => if a < k then (a, x) :: (k, v) :: r else (k, v) :: sins r a x

/-- Writes a key of a sparse store; writing the default removes the entry, so equal stores are equal lists. -/
def sset {α : Type} [DecidableEq α] (dflt : α) (m : List (Nat × α)) (a : Nat) (x : α) : List (Nat × α) :=
  if x = dflt then sdel m a else sins (sdel m a) a x

/-- The keys of a sparse store rise strictly, and no entry equals the default. -/
def swf {α : Type} [DecidableEq α] (dflt : α) : List (Nat × α) → Bool
  | [] => true
  | [(_, v)] => decide (v ≠ dflt)
  | (k, v) :: (k', v') :: r => decide (v ≠ dflt) && decide (k < k') && swf dflt ((k', v') :: r)

end Sys2Proof
end

