-- ==== Sys2Proof/Machine/Flags.lean ====
section
/-! DEFINITION. Number formats, roundings and the flags they raise: the values of the element formats, exact arithmetic on
them, the four roundings, conversions between formats, the special functions and the keyed hash (R117 to R131,
R143 to R152). Every computation is exact until one rounding. -/
namespace Sys2Proof.Machine

/-- A value: a NaN, an infinity, or (−1)^neg × m × 2^e. -/
inductive FV where
  | nan
  | inf (neg : Bool)
  | fin (neg : Bool) (m : Nat) (e : Int)
  deriving DecidableEq, Repr

/-- A binary format: exponent bits, fraction bits and bias (R120, R122). -/
structure Fmt where
  eb : Nat
  fb : Nat
  bias : Nat
  deriving DecidableEq, Repr

def fBF16 : Fmt := ⟨8, 7, 127⟩
def fF32 : Fmt := ⟨8, 23, 127⟩
def fX40 : Fmt := ⟨10, 29, 511⟩

/-- The exponent of the smallest subnormal of a format. -/
def Fmt.qmin (f : Fmt) : Int := 1 - (f.bias : Int) - f.fb
/-- The magnitude code of infinity. -/
def Fmt.infCode (f : Fmt) : Nat := (2 ^ f.eb - 1) * 2 ^ f.fb
/-- The sign bit of a code. -/
def Fmt.sign (f : Fmt) : Nat := 2 ^ (f.eb + f.fb)
/-- The canonical NaN of a format (R120, R122). -/
def Fmt.nanCode (f : Fmt) : Nat := f.infCode + 2 ^ (f.fb - 1)

/-- The value of a code (R120, R122). -/
def Fmt.val (f : Fmt) (c : Nat) : FV :=
  let neg := c / f.sign % 2 == 1
  let e := c / 2 ^ f.fb % 2 ^ f.eb
  let m := c % 2 ^ f.fb
  if e = 2 ^ f.eb - 1 then (if m = 0 then .inf neg else .nan)
  else if e = 0 then .fin neg m f.qmin
  else .fin neg (m + 2 ^ f.fb) (f.qmin + (e - 1 : Nat))

/-- The rounding modes (R5, R128): to nearest even, toward zero, stochastic with 24 random bits, and round-to-odd. -/
inductive Rnd where
  | rne
  | rz
  | sr (r : Nat)
  | odd
  deriving DecidableEq, Repr

/-- Whether a magnitude with quotient k and remainder rem of 2^d moves away from zero (R128). -/
def Rnd.up (mode : Rnd) (k rem d : Nat) : Bool :=
  match mode with
  | .rne => decide (2 ^ d < 2 * rem) || (2 * rem == 2 ^ d && k % 2 == 1)
  | .rz => false
  | .sr r => decide (r * 2 ^ d < rem * 2 ^ 24)
  | .odd => decide (rem ≠ 0) && k % 2 == 0

/-- A rounded result: its code, and the conditions of R128. -/
structure Rounded where
  code : Nat
  inv : Bool
  ovf : Bool
  unf : Bool
  sat : Bool
  inexact : Bool
  deriving DecidableEq, Repr

def Rounded.exact (c : Nat) : Rounded := ⟨c, false, false, false, false, false⟩

/-- The number of bits of a magnitude. -/
def bitLen (m : Nat) : Nat := if m = 0 then 0 else Nat.log2 m + 1

/-- A finite value rounded to a format (R128). The magnitude code of k units at ulp exponent q is k + (q − qmin) × 2^fb,
so a carry moves into the exponent by itself. -/
def Fmt.round (f : Fmt) (mode : Rnd) (neg : Bool) (m : Nat) (e : Int) : Rounded :=
  if m = 0 then .exact (neg.toNat * f.sign)
  else
    let q := max f.qmin (e + bitLen m - 1 - f.fb)
    let d := (q - e).toNat
    let k := if e ≥ q then m * 2 ^ (e - q).toNat else m / 2 ^ d
    let rem := if e ≥ q then 0 else m % 2 ^ d
    let base := (q - f.qmin).toNat * 2 ^ f.fb
    let c := k + base + (if mode.up k rem d then 1 else 0)
    let big := decide (f.infCode ≤ k + base) || (k + base == f.infCode - 1 && decide (rem ≠ 0))
    let c := match mode with
      | .rz => min c (f.infCode - 1)
      | .odd => min c (f.infCode - 1)
      | _ => min c f.infCode
    ⟨c + neg.toNat * f.sign, false, big, decide (rem ≠ 0) && decide (c < 2 ^ f.fb), false, decide (rem ≠ 0) || big⟩

/-- A value rounded to a format: NaN gives the canonical NaN, an infinity stays (R121, R128). -/
def Fmt.rnd (f : Fmt) (mode : Rnd) : FV → Rounded
  | .nan => .exact f.nanCode
  | .inf neg => .exact (f.infCode + neg.toNat * f.sign)
  | .fin neg m e => f.round mode neg m e

/-! Exact arithmetic on values. -/

/-- The signed integer of a finite magnitude in units of 2^u, where u is at most e. -/
def scaled (neg : Bool) (m : Nat) (e u : Int) : Int :=
  let x : Int := m * 2 ^ (e - u).toNat
  if neg then -x else x

/-- An integer in units of 2^u as a value; an exact zero is +0 (R121). -/
def ofScaled (x u : Int) : FV := .fin (decide (x < 0)) x.natAbs u

def FV.neg : FV → FV
  | .nan => .nan
  | .inf n => .inf (!n)
  | .fin n m e => .fin (!n) m e

/-- The exact sum; the flag says that infinities of opposite sign met (R143). An exact zero sum is +0 (R121). -/
def FV.add : FV → FV → FV × Bool
  | .nan, _ => (.nan, false)
  | _, .nan => (.nan, false)
  | .inf a, .inf b => if a = b then (.inf a, false) else (.nan, true)
  | .inf a, _ => (.inf a, false)
  | _, .inf b => (.inf b, false)
  | .fin n m e, .fin n' m' e' =>
    let u := min e e'
    (ofScaled (scaled n m e u + scaled n' m' e' u) u, false)

/-- The exact product; the flag says that zero met infinity (R143). -/
def FV.mul : FV → FV → FV × Bool
  | .nan, _ => (.nan, false)
  | _, .nan => (.nan, false)
  | .inf a, .inf b => (.inf (a != b), false)
  | .inf a, .fin n m _ => if m = 0 then (.nan, true) else (.inf (a != n), false)
  | .fin n m _, .inf a => if m = 0 then (.nan, true) else (.inf (a != n), false)
  | .fin n m e, .fin n' m' e' => (.fin (n != n') (m * m') (e + e'), false)

/-- Multiplication by a power of two. -/
def FV.scale (k : Int) : FV → FV
  | .fin n m e => .fin n m (e + k)
  | v => v

/-- The magnitude of a value. -/
def FV.abs : FV → FV
  | .nan => .nan
  | .inf _ => .inf false
  | .fin _ m e => .fin false m e
def FV.isNan : FV → Bool | .nan => true | _ => false
def FV.isInf : FV → Bool | .inf _ => true | _ => false
def FV.isZero : FV → Bool | .fin _ 0 _ => true | _ => false
def FV.isNeg : FV → Bool | .inf n => n | .fin n _ _ => n | .nan => false

/-- The order of two values that are not NaNs, with −0 below +0 (R144): true when the first is less. -/
def FV.lt : FV → FV → Bool
  | .nan, _ => false
  | _, .nan => false
  | .inf a, .inf b => a && !b
  | .inf a, _ => a
  | _, .inf b => !b
  | .fin n m e, .fin n' m' e' =>
    let u := min e e'
    let x := scaled n m e u
    let y := scaled n' m' e' u
    decide (x < y) || (x == y && n && !n')
/-- The numeric order, with −0 equal to +0 (R145). -/
def FV.ltNum (a b : FV) : Bool := FV.lt a b && !(a.isZero && b.isZero)
def FV.eqNum : FV → FV → Bool
  | .nan, _ => false
  | _, .nan => false
  | .inf a, .inf b => a == b
  | .fin n m e, .fin n' m' e' =>
    let u := min e e'
    scaled n m e u == scaled n' m' e' u
  | _, _ => false
/-- The lesser and the greater, a single NaN giving way (R144). -/
def FV.min : FV → FV → FV
  | .nan, y => y
  | x, .nan => x
  | x, y => if FV.lt y x then y else x
def FV.max : FV → FV → FV
  | .nan, y => y
  | x, .nan => x
  | x, y => if FV.lt x y then y else x

/-! Integers (R119). -/

/-- The width of a format's elements in bits (R117). -/
def tagWidth : Nat → Nat
  | 1 => 8 | 2 => 16 | 3 => 32 | 4 => 64 | 5 => 16 | 6 => 32 | 7 => 40 | 8 => 8 | 9 => 4 | 10 => 8 | _ => 32

/-- Reads w bits as two's complement. -/
def sInt (w x : Nat) : Int := if x % 2 ^ w < 2 ^ (w - 1) then (x % 2 ^ w : Nat) else ((x % 2 ^ w : Nat) : Int) - (2 ^ w : Nat)
/-- The two's complement code of an integer, modulo 2^w. -/
def uInt (w : Nat) (x : Int) : Nat := (x % (2 ^ w : Nat)).toNat
/-- Sat(x, f) and whether it clamped (R5, R119). -/
def satInt (w : Nat) (x : Int) : Int × Bool :=
  let hi : Int := (2 ^ (w - 1) : Nat) - 1
  let lo : Int := -(2 ^ (w - 1) : Nat)
  if hi < x then (hi, true) else if x < lo then (lo, true) else (x, false)

/-- A finite value rounded to an integer (R130). -/
def roundInt (mode : Rnd) (neg : Bool) (m : Nat) (e : Int) : Int × Bool :=
  let d := (-e).toNat
  let k := if 0 ≤ e then m * 2 ^ e.toNat else m / 2 ^ d
  let rem := if 0 ≤ e then 0 else m % 2 ^ d
  let k := k + (if mode.up k rem d then 1 else 0)
  (if neg then -(k : Int) else k, decide (rem ≠ 0))

/-- A value converted to a w-bit integer: NaN gives 0 and INV, an infinity the limit and SAT (R130); a nonzero value
rounded inexactly to zero sets UNF (R128, R132). -/
def toInt (w : Nat) (mode : Rnd) : FV → Rounded
  | .nan => ⟨0, true, false, false, false, true⟩
  | .inf neg => ⟨uInt w (if neg then -(2 ^ (w - 1) : Nat) else (2 ^ (w - 1) : Nat) - 1), false, false, false, true, true⟩
  | .fin neg m e =>
    let (x, ix) := roundInt mode neg m e
    let (y, s) := satInt w x
    ⟨uInt w y, false, false, ix && decide (x = 0), s, ix⟩

/-! PW8 and PW4 (R123, R124, R129). Values are integers in units of 2^−6. -/

/-- t(s, k) in units of 2^−6 (R123). -/
def pwTerm (c : Nat) : Int :=
  let k := c % 8
  if k = 7 then 0 else let x : Int := (2 ^ (6 - k) : Nat); if c / 8 % 2 = 1 then -x else x
def pw8Val (c : Nat) : Int := pwTerm (c / 16) + pwTerm c
def pw4Val (c : Nat) : Int := pwTerm c

/-- The canonical positive PW8 values with their codes and numbers of terms, in the order of R124: zero, one term, two
terms whose signs agree, two terms whose signs differ. -/
def pw8Table : List (Nat × Nat × Nat) :=
  (0, 0x77, 0) :: ((upto 7).map (fun k => (2 ^ (6 - k), 16 * k + 7, 1))) ++
  ((128, 0, 2) :: ((upto 7).flatMap (fun a => (span (a + 1) (6 - a)).map (fun b => (2 ^ (6 - a) + 2 ^ (6 - b), 16 * a + b, 2))))) ++
  ((upto 7).flatMap (fun a => (span (a + 1) (6 - a)).map (fun b => (2 ^ (6 - a) - 2 ^ (6 - b), 16 * a + 8 + b, 2))))
def pw4Table : List (Nat × Nat × Nat) := (0, 7, 0) :: (upto 7).map (fun k => (2 ^ (6 - k), k, 1))

/-- The canonical code of a value (R124), its sign applied to its terms. -/
def pw8Code (neg : Bool) (v : Nat) : Nat :=
  match pw8Table.find? (fun t => t.1 == v) with
  | none => 0x77
  | some t => if !neg || t.2.2 = 0 then t.2.1 else if t.2.2 = 1 then t.2.1 + 0x80 else t.2.1 ^^^ 0x88
def pw4Code (neg : Bool) (v : Nat) : Nat :=
  match pw4Table.find? (fun t => t.1 == v) with
  | none => 7
  | some t => if !neg || t.2.2 = 0 then t.2.1 else t.2.1 + 8

/-- The number of terms of the canonical code of a value. -/
def pwTerms (tab : List (Nat × Nat × Nat)) (v : Nat) : Nat := ((tab.find? (fun t => t.1 == v)).map (fun t => t.2.2)).getD 0

/-- A value rounded to PW8 or PW4 (R129). -/
def toPw (tab : List (Nat × Nat × Nat)) (top : Nat) (code : Bool → Nat → Nat) (mode : Rnd) : FV → Rounded
  | .nan => ⟨code false 0, true, false, false, false, true⟩
  | .inf neg => ⟨code neg top, false, true, false, false, true⟩
  | .fin neg m e =>
    -- the magnitude is x / 2^d in units of 2^−6
    let d := (-(e + 6)).toNat
    let x := if 0 ≤ e + 6 then m * 2 ^ (e + 6).toNat else m
    if top * 2 ^ d < x then ⟨code neg top, false, true, false, false, true⟩
    else
      let a := tab.foldl (fun b t => if t.1 * 2 ^ d ≤ x then max b t.1 else b) 0
      let b := tab.foldl (fun b t => if x < t.1 * 2 ^ d then min b t.1 else b) top
      if a * 2 ^ d = x then .exact (code neg a)
      else
        let up := match mode with
          | .rne => decide ((a + b) * 2 ^ d < 2 * x) ||
              ((a + b) * 2 ^ d == 2 * x && decide (pwTerms tab b < pwTerms tab a))
          | .sr r => decide (r * ((b - a) * 2 ^ d) < (x - a * 2 ^ d) * 2 ^ 24)
          | _ => false
        let v := if up then b else a
        ⟨code neg v, false, false, v == 0, false, true⟩

/-! Conversions (R130, R149). -/

/-- The value of an element of a format (R117 to R125). -/
def elemVal (tag c : Nat) : FV :=
  match tag with
  | 1 => ofScaled (sInt 8 c) 0
  | 2 => ofScaled (sInt 16 c) 0
  | 3 => ofScaled (sInt 32 c) 0
  | 4 => ofScaled (sInt 64 c) 0
  | 5 => fBF16.val c
  | 6 => fF32.val c
  | 7 => fX40.val c
  | 8 => ofScaled (pw8Val c) (-6)
  | 9 => ofScaled (pw4Val c) (-6)
  | _ => .nan

def isInt (tag : Nat) : Bool := tag == 1 || tag == 2 || tag == 3 || tag == 4

/-- Convert(x, fmt, rnd) of R129, R130 and R149. (DEDUCED, log entry 20.) (DEDUCED, log entry 21.) -/
def convert (src dst : Nat) (mode : Rnd) (c : Nat) : Rounded :=
  let v := elemVal src c
  match dst with
  | 5 => fBF16.rnd mode v
  | 6 => fF32.rnd mode v
  | 7 => fX40.rnd mode v
  | 8 => toPw pw8Table 128 pw8Code mode v
  | 9 => toPw pw4Table 64 pw4Code mode v
  | _ => toInt (tagWidth dst) mode v

/-- The code of zero in a format (R149). -/
def zeroCode (tag : Nat) : Nat := if tag = 8 then 0x77 else if tag = 9 then 7 else 0

/-! Special functions (R147, R148): computed far beyond the format and rounded once, with a last bit that stands for all that
lies below (DEDUCED, log entry 17). -/

/-- The integer square root by Newton's iteration from above. -/
def isqrtGo (n : Nat) : Nat → Nat → Nat
  | 0, x => x
  | fuel + 1, x => let y := (x + n / x) / 2; if y < x then isqrtGo n fuel y else x
def isqrt (n : Nat) : Nat := if n = 0 then 0 else isqrtGo n 600 (2 ^ (Nat.log2 n / 2 + 1))

/-- A magnitude with a sticky bit below it. -/
def sticky (neg : Bool) (m : Nat) (e : Int) (more : Bool) : FV := .fin neg (2 * m + more.toNat) (e - 1)

/-- The product of 2^(2^−i) over the set bits of a fraction of n bits, in units of 2^−320. -/
def exp2Go (f : Nat) : Nat → Nat → Nat → Nat
  | 0, _, acc => acc
  | n + 1, root, acc =>
    let root := isqrt (root * 2 ^ 320)
    exp2Go f n root (if f / 2 ^ n % 2 = 1 then acc * root / 2 ^ 320 else acc)

def vexp2 : FV → FV × Bool
  | .nan => (.nan, false)
  | .inf true => (.fin false 0 0, false)
  | .inf false => (.inf false, false)
  | .fin neg m e =>
    let d := (-e).toNat
    let x : Int := let y : Int := if 0 ≤ e then m * 2 ^ e.toNat else m; if neg then -y else y
    let n := x / (2 ^ d : Nat)
    let f := (x % (2 ^ d : Nat)).toNat
    if f = 0 then (.fin false 1 (max (-400) (min 400 n)), false)
    else if 400 < n then (.fin false 1 400, false)
    else if n < -400 then (.fin false 1 (-400), false)
    else (sticky false (exp2Go f d (2 * 2 ^ 320) (2 ^ 320)) (n - 320) true, false)

/-- n more bits of log2 of y, where y lies from 1 to 2 in units of 2^−320. -/
def log2Go : Nat → Nat → Nat → Nat
  | 0, _, acc => acc
  | n + 1, y, acc =>
    let z := y * y / 2 ^ 320
    if 2 * 2 ^ 320 ≤ z then log2Go n (z / 2) (2 * acc + 1) else log2Go n z (2 * acc)

def vlog2 : FV → FV × Bool
  | .nan => (.nan, false)
  | .inf neg => if neg then (.nan, true) else (.inf false, false)
  | .fin neg m e =>
    if m = 0 then (.inf true, false)
    else if neg then (.nan, true)
    else
      let l := Nat.log2 m
      let k : Int := e + l
      if m = 2 ^ l then (ofScaled k 0, false)
      else
        let y := m * 2 ^ (320 - l)
        let x : Int := k * (2 ^ 128 : Nat) + (log2Go 128 y 0 : Nat)
        -- the true value lies just above x / 2^128
        (ofScaled (2 * x + 1) (-129), false)

def vrcp : FV → FV × Bool
  | .nan => (.nan, false)
  | .inf neg => (.fin neg 0 0, false)
  | .fin neg m e =>
    if m = 0 then (.inf neg, false)
    else (sticky neg (2 ^ 200 / m) (-200 - e) (decide (2 ^ 200 % m ≠ 0)), false)

def vsqrt : FV → FV × Bool
  | .nan => (.nan, false)
  | .inf neg => if neg then (.nan, true) else (.inf false, false)
  | .fin neg m e =>
    if m = 0 then (.fin neg 0 0, false)
    else if neg then (.nan, true)
    else
      let m := if e % 2 = 0 then m else 2 * m
      let e := if e % 2 = 0 then e else e - 1
      let q := isqrt (m * 2 ^ 200)
      (sticky false q (e / 2 - 100) (decide (q * q ≠ m * 2 ^ 200)), false)

def vrsq : FV → FV × Bool
  | .nan => (.nan, false)
  | .inf neg => if neg then (.nan, true) else (.fin false 0 0, false)
  | .fin neg m e =>
    if m = 0 then (.inf neg, false)
    else if neg then (.nan, true)
    else
      let m := if e % 2 = 0 then m else 2 * m
      let e := if e % 2 = 0 then e else e - 1
      let q := isqrt (2 ^ 400 / m)
      (sticky false q (-(e / 2) - 200) (decide (q * q * m ≠ 2 ^ 400)), false)

/-! The keyed hash of stochastic rounding (R131). -/
def hash64 (key i : Nat) : Nat :=
  let m := 2 ^ 64
  let z := key % m ^^^ ((i + 1) * 0x9E3779B97F4A7C15 % m)
  let z := (z ^^^ (z / 2 ^ 30)) * 0xBF58476D1CE4E5B9 % m
  let z := (z ^^^ (z / 2 ^ 27)) * 0x94D049BB133111EB % m
  z ^^^ (z / 2 ^ 31)
/-- r := z[63:40] (R131). -/
def hash24 (key i : Nat) : Nat := hash64 key i / 2 ^ 40 % 2 ^ 24

/-- The rounding of an rnd field (R46, R128), with the hash for SR. -/
def rndOf (rnd key i : Nat) : Rnd := if rnd = 0 then .rne else if rnd = 1 then .rz else .sr (hash24 key i)

/-- The format record of BF16 or F32. -/
def fmtOf (tag : Nat) : Fmt := if tag = 5 then fBF16 else fF32

/-- RADD, ROWADD and RILL: one element's new code and its flags, by operator ADD, MIN or MAX and format (R213, R266). -/
def rillElem (tag op : Nat) (x v : Nat) : Rounded :=
  let w := tagWidth tag
  if isInt tag then
    let y := if op = 0 then sInt w x + sInt w v
      else if op = 1 then min (sInt w x) (sInt w v) else max (sInt w x) (sInt w v)
    .exact (uInt w y)
  else
    let f := fmtOf tag
    if op = 0 then
      let (y, inv) := FV.add (f.val x) (f.val v)
      let r := f.rnd .rne y
      { r with inv := inv }
    else f.rnd .rne (if op = 1 then FV.min (f.val x) (f.val v) else FV.max (f.val x) (f.val v))

/-- CRC-32C over bytes, reflected, with the usual preset and final inversion (R273; PRESUMED, log entry 35). -/
def crcBit : Nat → Nat → Nat
  | 0, c => c
  | n + 1, c => crcBit n (if c % 2 = 1 then (c / 2) ^^^ 0x82F63B78 else c / 2)
def crcGo (c : Nat) : List Byte → Nat
  | [] => c
  | b :: r => crcGo (crcBit 8 (c ^^^ b.toNat)) r
def crc32c (bs : List Byte) : Nat := crcGo 0xFFFFFFFF bs ^^^ 0xFFFFFFFF

end Sys2Proof.Machine
end

