-- ==== Sys2Proof/Syntax.lean ====
section
/-! DEFINITION. The instructions of the Nirjan N2 and the events between them, one constructor for each row of the
table of operations and events, with the operand structures of R41 to R52 and the data that events carry. -/
namespace Sys2Proof

/-- A module core number (R7). -/
abbrev CoreId := Fin 64
/-- A partition number (R284). -/
abbrev PartId := Fin 64
/-- A virtual function number (R284). -/
abbrev VfId := Fin 128

/-- Two-source ALU fields (R41, major 0x01): sd, sa with W, sb with W. -/
structure AluB where
  d : BitVec 6
  a : BitVec 6
  wa : Bool
  b : BitVec 6
  wb : Bool
  deriving DecidableEq, Repr

/-- One-source ALU fields (R42): sd, sa with W; sb and its W bit are zero. -/
structure AluU where
  d : BitVec 6
  a : BitVec 6
  wa : Bool
  deriving DecidableEq, Repr

/-- SEL fields (R41). -/
structure SelF where
  d : BitVec 6
  a : BitVec 6
  wa : Bool
  b : BitVec 6
  wb : Bool
  p : BitVec 5
  deriving DecidableEq, Repr

/-- ADDI fields: signed imm13 (R41). -/
structure AddiF where
  d : BitVec 6
  a : BitVec 6
  wa : Bool
  imm : BitVec 13
  deriving DecidableEq, Repr

/-- LEA fields: shift k (R41). -/
structure LeaF where
  d : BitVec 6
  a : BitVec 6
  wa : Bool
  b : BitVec 6
  wb : Bool
  k : BitVec 3
  deriving DecidableEq, Repr

/-- LI fields: signed imm20 (R41). -/
structure LiF where
  d : BitVec 6
  imm : BitVec 20
  deriving DecidableEq, Repr

/-- LIH fields: halfword h, imm16, W of sd (R41). -/
structure LihF where
  d : BitVec 6
  h : BitVec 2
  imm : BitVec 16
  wd : Bool
  deriving DecidableEq, Repr

/-- CMP fields (R41). -/
structure CmpF where
  p : BitVec 5
  a : BitVec 6
  wa : Bool
  b : BitVec 6
  wb : Bool
  cc : BitVec 4
  deriving DecidableEq, Repr

/-- CMPI fields: signed imm10 (R41). -/
structure CmpiF where
  p : BitVec 5
  a : BitVec 6
  wa : Bool
  cc : BitVec 4
  imm : BitVec 10
  deriving DecidableEq, Repr

/-- PLOG fields with the negate bits (R41). -/
structure PlogF where
  d : BitVec 5
  a : BitVec 5
  na : Bool
  b : BitVec 5
  nb : Bool
  deriving DecidableEq, Repr

/-- PREP form 0: signed offset in halfwords (R41). -/
structure PrepLF where
  b : BitVec 3
  off : BitVec 22
  deriving DecidableEq, Repr

/-- PREP form 1 (R41). -/
structure PrepRF where
  b : BitVec 3
  a : BitVec 6
  wa : Bool
  deriving DecidableEq, Repr

/-- GETC fields (R41, R43). -/
structure GetcF where
  d : BitVec 6
  c : BitVec 10
  deriving DecidableEq, Repr

/-- SETC fields (R41, R43). -/
structure SetcF where
  a : BitVec 6
  wa : Bool
  c : BitVec 10
  deriving DecidableEq, Repr

/-- LDL fields (R44). -/
structure LdF12 where
  z : BitVec 2
  d : BitVec 6
  u : Bool
  base : BitVec 6
  wb : Bool
  off : BitVec 12
  deriving DecidableEq, Repr

/-- STL fields (R44). -/
structure StF12 where
  z : BitVec 2
  v : BitVec 6
  wv : Bool
  base : BitVec 6
  wb : Bool
  off : BitVec 12
  deriving DecidableEq, Repr

/-- VLDL fields with Q = 0 (R44). -/
structure VldlF where
  t : BitVec 4
  d : BitVec 6
  base : BitVec 6
  wb : Bool
  off : BitVec 10
  deriving DecidableEq, Repr

/-- VLDL fields with Q = 1 (R44). -/
structure VldlQF where
  t : BitVec 4
  d : BitVec 6
  q : BitVec 4
  deriving DecidableEq, Repr

/-- VSTL fields with Q = 0 (R44). -/
structure VstlF where
  m : BitVec 3
  wv : Bool
  v : BitVec 6
  base : BitVec 6
  wb : Bool
  off : BitVec 10
  deriving DecidableEq, Repr

/-- VSTL fields with Q = 1 (R44). -/
structure VstlQF where
  m : BitVec 3
  wv : Bool
  v : BitVec 6
  q : BitVec 4
  deriving DecidableEq, Repr

/-- BIND fields (R44); wr is the direction bit. -/
structure BindF where
  q : BitVec 4
  a : BitVec 6
  wa : Bool
  wr : Bool
  deriving DecidableEq, Repr

/-- UNBIND field (R44). -/
structure UnbindF where
  q : BitVec 4
  deriving DecidableEq, Repr

/-- QSKIP fields (R44). -/
structure QskipF where
  q : BitVec 4
  a : BitVec 6
  wa : Bool
  deriving DecidableEq, Repr

/-- QSTAT fields (R44). -/
structure QstatF where
  q : BitVec 4
  d : BitVec 6
  deriving DecidableEq, Repr

/-- LDG fields (R45). -/
structure LdF11 where
  z : BitVec 2
  u : Bool
  d : BitVec 6
  base : BitVec 6
  wb : Bool
  off : BitVec 11
  deriving DecidableEq, Repr

/-- STG fields (R45). -/
structure StF11 where
  z : BitVec 2
  wv : Bool
  v : BitVec 6
  base : BitVec 6
  wb : Bool
  off : BitVec 11
  deriving DecidableEq, Repr

/-- VLDG fields (R45). -/
structure VldgF where
  t : BitVec 4
  d : BitVec 6
  base : BitVec 6
  wb : Bool
  m : BitVec 3
  off : BitVec 7
  deriving DecidableEq, Repr

/-- VSTG fields (R45). -/
structure VstgF where
  m : BitVec 3
  wv : Bool
  v : BitVec 6
  base : BitVec 6
  wb : Bool
  off : BitVec 10
  deriving DecidableEq, Repr

/-- VGATH fields (R45). -/
structure VgathF where
  t : BitVec 4
  d : BitVec 6
  base : BitVec 6
  wb : Bool
  i : BitVec 6
  wi : Bool
  m : BitVec 3
  deriving DecidableEq, Repr

/-- VSCAT fields (R45). -/
structure VscatF where
  m : BitVec 3
  wv : Bool
  v : BitVec 6
  base : BitVec 6
  wb : Bool
  i : BitVec 6
  wi : Bool
  deriving DecidableEq, Repr

/-- AMO fields for fn 0 to 8 (R45, R211). -/
structure AmoF where
  fn : BitVec 4
  wide : Bool
  d : BitVec 6
  base : BitVec 6
  wb : Bool
  o : BitVec 6
  wo : Bool
  deriving DecidableEq, Repr

/-- AMO.cas fields, with the W bit of sd (R45, R211). -/
structure CasF where
  wide : Bool
  d : BitVec 6
  base : BitVec 6
  wb : Bool
  o : BitVec 6
  wo : Bool
  wd : Bool
  deriving DecidableEq, Repr

/-- RADD fields (R45). -/
structure RaddF where
  fmt : BitVec 4
  op : BitVec 3
  v : BitVec 6
  wv : Bool
  base : BitVec 6
  wb : Bool
  deriving DecidableEq, Repr

/-- ROWADD fields (R45). -/
structure RowaddF where
  v : BitVec 6
  wv : Bool
  base : BitVec 6
  wb : Bool
  n : BitVec 4
  deriving DecidableEq, Repr

/-- ROWLD fields (R45). -/
structure RowldF where
  d : BitVec 6
  base : BitVec 6
  wb : Bool
  n : BitVec 4
  deriving DecidableEq, Repr

/-- PSMP fields (R45). -/
structure PsmpF where
  v : BitVec 6
  wv : Bool
  base : BitVec 6
  wb : Bool
  off : BitVec 12
  deriving DecidableEq, Repr

/-- PTAP fields (R45). -/
structure PtapF where
  d : BitVec 6
  tap : BitVec 2
  base : BitVec 6
  wb : Bool
  off : BitVec 11
  deriving DecidableEq, Repr

/-- PTAPS fields (R45). -/
structure PtapsF where
  d : BitVec 6
  base : BitVec 6
  wb : Bool
  off : BitVec 11
  deriving DecidableEq, Repr

/-- RTAP fields (R45). -/
structure RtapF where
  d : BitVec 6
  age : BitVec 6
  base : BitVec 6
  wb : Bool
  off : BitVec 7
  deriving DecidableEq, Repr

/-- PHASE field (R45). -/
structure PhaseF where
  scope : BitVec 3
  deriving DecidableEq, Repr

/-- PREF fields (R45). -/
structure PrefF where
  base : BitVec 6
  wb : Bool
  off : BitVec 20
  deriving DecidableEq, Repr

/-- Layout VA, two sources (R46). -/
structure VaF where
  fmt : BitVec 4
  rnd : BitVec 2
  d : BitVec 6
  a : BitVec 6
  wa : Bool
  b : BitVec 6
  wb : Bool
  m : BitVec 3
  deriving DecidableEq, Repr

/-- Layout VA, two sources and vd as a source with its W bit (R46, R137). -/
structure VaAccF where
  fmt : BitVec 4
  rnd : BitVec 2
  d : BitVec 6
  a : BitVec 6
  wa : Bool
  b : BitVec 6
  wb : Bool
  m : BitVec 3
  wd : Bool
  deriving DecidableEq, Repr

/-- Layout VA, one source (R46). -/
structure VaOneF where
  fmt : BitVec 4
  rnd : BitVec 2
  d : BitVec 6
  a : BitVec 6
  wa : Bool
  m : BitVec 3
  deriving DecidableEq, Repr

/-- Layout VC (R46). -/
structure VcF where
  fmt : BitVec 4
  cc : BitVec 4
  d : BitVec 3
  a : BitVec 6
  wa : Bool
  b : BitVec 6
  wb : Bool
  m : BitVec 3
  deriving DecidableEq, Repr

/-- Layout VM, two sources (R46). -/
structure VmF where
  d : BitVec 3
  a : BitVec 3
  b : BitVec 3
  deriving DecidableEq, Repr

/-- Layout VM, one source (R46). -/
structure VmOneF where
  d : BitVec 3
  a : BitVec 3
  deriving DecidableEq, Repr

/-- VRED and VSCAN: layout VA with the operator in [10:8] (R47). -/
structure VredF where
  fmt : BitVec 4
  rnd : BitVec 2
  d : BitVec 6
  a : BitVec 6
  wa : Bool
  op : BitVec 3
  m : BitVec 3
  deriving DecidableEq, Repr

/-- VMOVS: vd names an s register, [10:5] the lane (R47). -/
structure VmovsF where
  d : BitVec 6
  a : BitVec 6
  wa : Bool
  lane : BitVec 6
  m : BitVec 3
  deriving DecidableEq, Repr

/-- VCHKF fields (R47). -/
structure VchkfF where
  fmt : BitVec 4
  a : BitVec 6
  wa : Bool
  m : BitVec 3
  deriving DecidableEq, Repr

/-- No field. -/
structure NoF where
  deriving DecidableEq, Repr

/-- XPERM fields (R49). -/
structure XpermF where
  d : BitVec 6
  a : BitVec 6
  wa : Bool
  p : BitVec 6
  wp : Bool
  deriving DecidableEq, Repr

/-- XROT and XBCAST fields (R49). -/
structure XkF where
  d : BitVec 6
  a : BitVec 6
  wa : Bool
  k : BitVec 6
  deriving DecidableEq, Repr

/-- XSHUF fields (R49). -/
structure XshufF where
  d : BitVec 6
  a : BitVec 6
  wa : Bool
  c : BitVec 4
  deriving DecidableEq, Repr

/-- XREV and XCMPR fields (R49). -/
structure XgF where
  d : BitVec 6
  a : BitVec 6
  wa : Bool
  g : BitVec 3
  deriving DecidableEq, Repr

/-- WLD fields (R50). -/
structure WldF where
  imm : BitVec 10
  a : BitVec 6
  wa : Bool
  fmt : BitVec 4
  deriving DecidableEq, Repr

/-- BEAT fields (R50). -/
structure BeatF where
  z : BitVec 2
  cell : BitVec 2
  q : BitVec 4
  fmt : BitVec 4
  int : Bool
  zero : Bool
  sc : Bool
  sq : BitVec 4
  deriving DecidableEq, Repr

/-- DRAIN fields (R50). -/
structure DrainF where
  z : BitVec 2
  d : BitVec 6
  row : BitVec 6
  fmt : BitVec 4
  deriving DecidableEq, Repr

/-- ZCLR field (R50). -/
structure ZF where
  z : BitVec 2
  deriving DecidableEq, Repr

/-- ZROT fields (R50). -/
structure ZrotF where
  z : BitVec 2
  k : BitVec 6
  deriving DecidableEq, Repr

/-- ZSPILL and ZFILL fields (R50). -/
structure ZqF where
  z : BitVec 2
  q : BitVec 4
  deriving DecidableEq, Repr

/-- E-slot command fields: ticket register and sa (R51). -/
structure CmdF where
  j : BitVec 4
  a : BitVec 6
  wa : Bool
  deriving DecidableEq, Repr

/-- E-slot fields with sa only (R51). -/
structure EaF where
  a : BitVec 6
  wa : Bool
  deriving DecidableEq, Repr

/-- FOOT fields (R51). -/
structure FootF where
  a : BitVec 6
  wa : Bool
  b : BitVec 6
  wb : Bool
  eng : BitVec 3
  wr : Bool
  deriving DecidableEq, Repr

/-- JWAIT field (R51). -/
structure JwaitF where
  j : BitVec 4
  deriving DecidableEq, Repr

/-- JPOLL fields (R51). -/
structure JpollF where
  j : BitVec 4
  p : BitVec 5
  deriving DecidableEq, Repr

/-- JOIN fields (R51). -/
structure JoinF where
  a : BitVec 6
  wa : Bool
  d : BitVec 6
  deriving DecidableEq, Repr

/-- TREE fields: shape, four tests of predicate and negate bit, five leaf targets (R52). -/
structure TreeF where
  shape : BitVec 4
  t0 : BitVec 6
  t1 : BitVec 6
  t2 : BitVec 6
  t3 : BitVec 6
  l0 : BitVec 3
  l1 : BitVec 3
  l2 : BitVec 3
  l3 : BitVec 3
  l4 : BitVec 3
  deriving DecidableEq, Repr

/-- LOOP fields (R52). -/
structure LoopF where
  n : BitVec 12
  c : BitVec 32
  deriving DecidableEq, Repr

/-- LOOPR fields (R52). -/
structure LooprF where
  n : BitVec 12
  a : BitVec 6
  wa : Bool
  deriving DecidableEq, Repr

/-- CALL fields (R52). -/
structure CallF where
  t : BitVec 3
  l : BitVec 3
  deriving DecidableEq, Repr

/-- RET and SUSPEND field (R52). -/
structure BtF where
  b : BitVec 3
  deriving DecidableEq, Repr

/-- TRAP field (R52). -/
structure TrapF where
  code : BitVec 8
  deriving DecidableEq, Repr

/-- REPEAT count field (R19). -/
structure RepF where
  n : BitVec 8
  deriving DecidableEq, Repr

/-! Data that events carry. -/

/-- One relocation record of an image (R287). -/
structure Reloc where
  whr : BitVec 24
  isDict : Bool
  bit : BitVec 9
  width : BitVec 4
  kind : BitVec 2
  rsv : BitVec 24
  deriving DecidableEq, Repr

/-- The live-state list of one safe bundle, keyed by its code address (R57, R58). -/
structure SafeList where
  at_ : CAddr
  s : W64
  v : W64
  p : BitVec 32
  b : BitVec 8
  m : BitVec 8
  z : BitVec 4
  q : BitVec 16
  j : BitVec 16
  deriving DecidableEq, Repr

/-- A loader image from isld (R22, R68, R287, R344, R353): dictionary, code, data sections, relocations, the entries at which its
tasks start, the trap entry, safe lists, the SAFEMAX it was checked against (R67), and its key and signature as opaque names of
their bytes. -/
structure Image where
  dict : List Bundle
  code : List (BitVec 16)
  data : List (Nat × Byte)
  relocs : List Reloc
  entries : List CAddr
  trap : Option CAddr
  safe : List SafeList
  safemax : Nat
  key : List Byte
  sig : List Byte
  deriving DecidableEq, Repr

/-- A firmware image (R343, R344). -/
structure Firmware where
  body : List Byte
  version : BitVec 16
  floor : BitVec 16
  key : List Byte
  sig : List Byte
  malformed : Bool
  deriving DecidableEq, Repr

/-- The operands of DEADLINE (R299); rsv holds the reserved bits of the command. -/
structure DeadlineF where
  part : PartId
  d : BitVec 32
  margin : BitVec 3
  node : BitVec 16
  addr : GAddr
  ckpt : GAddr
  ckptn : BitVec 16
  rsv : W64
  deriving DecidableEq, Repr

/-- A packet of a collective as it reaches this participant (R270, R272): the chunk, the hop that made it, the
accumulator's codes and block scales, or the scales that participants agree at the start; and whether a hop has marked its
header RESCALED. -/
structure CflPkt where
  chunk : Nat
  hop : Nat
  final : Bool
  acc : List (BitVec 32)
  scales : List Byte
  rescaled : Bool
  deriving DecidableEq, Repr

/-- One entry of a message (R276): the message's number, the entry's index and the entries of the message. -/
structure MsgEntry where
  msg : Nat
  idx : Nat
  total : Nat
  data : Row
  deriving DecidableEq, Repr

/-- A forwarded mirrored write, sample or close as it reaches the buddy (R227, R248), the configuration of a mirrored
pan region, or the declaration of a mirrored region (R335). -/
inductive MirMsg where
  | write (m : BitVec 16) (dpa : BitVec 46) (data : List Byte)
  | sample (m : BitVec 16) (region mem intake el : Nat) (c : Int) (flags : BitVec 6)
  | close (m : BitVec 16) (region intake ch chans count : Nat)
  | config (m : BitVec 16) (region : Nat) (desc : BitVec 512) (dpa : BitVec 46) (table : List (List Int))
  | declare (m : BitVec 16) (dpa : BitVec 46) (len : Nat)
  deriving DecidableEq, Repr

/-- A flow of the fabric (R225): source agent, destination module and address-hash lane. -/
structure FlowId where
  src : Nat
  dst : BitVec 16
  lane : BitVec 4
  deriving DecidableEq, Repr

/-- What a flit carries (R213, R220, R225, R227): a write of bytes at a device-physical address of this module, whole in itself or
one of the n flits of a publication of its source; an operation that the Rill unit here performs on the elements from an address; the
acknowledgement of a mirrored or remote write; a sample for a pan member from another module; or what a mirrored region
forwards. -/
inductive FlitBody where
  | write (dpa : BitVec 46) (data : List Byte)
  | part (dpa : BitVec 46) (data : List Byte) (pub n : Nat)
  | rill (dpa : BitVec 46) (fmt op : Nat) (data : List Byte)
  | ack (id : Nat)
  | sample (dpa : BitVec 46) (v : BitVec 32)
  | mirror (k : MirMsg)
  deriving DecidableEq, Repr

/-- Who writes a command-window register (R342, R358). -/
inductive Writer where
  | hypervisor
  | host
  | tenant
  deriving DecidableEq, Repr

/-- A command-window register that has no row of its own (R358). -/
inductive WinReg where
  | rootbase (v : VfId) | s1root (v : VfId) | qcfg (v : VfId) (q : BitVec 6) | quant (v : VfId) | safemax (v : VfId)
  | prqbase (v : VfId) | prqcons (v : VfId) | prqprod (v : VfId) | prqxlat (v : VfId) | stalebnd (v : VfId)
  | srcnt (v : VfId) (k : BitVec 3) | rillflags (v : VfId) | engerr (v : VfId) | linktmo (v : VfId)
  | traperr (v : VfId) | watch (v : VfId) | errlog (v : VfId) | errthr (k : BitVec 3) | modesel
  | dlstat (p : PartId) | sluiceqv | retcore | retcnt | bootstat
  deriving DecidableEq, Repr

/-- The instructions and events of the part: one constructor for each row of spec/opcode_table.json. -/
inductive Instr where
  /-- ADD (R71): d := a + b. -/
  | add (o : AluB)
  /-- SUB (R71): d := a - b. -/
  | sub (o : AluB)
  /-- MUL (R71): low 64 bits of the product. -/
  | mul (o : AluB)
  /-- MULH (R71): high 64 bits of the signed product. -/
  | mulh (o : AluB)
  /-- MULHU (R71): high 64 bits of the unsigned product. -/
  | mulhu (o : AluB)
  /-- DIV (R72): signed quotient, truncated. -/
  | div (o : AluB)
  /-- DIVU (R72): unsigned quotient. -/
  | divu (o : AluB)
  /-- REM (R72): signed remainder. -/
  | rem (o : AluB)
  /-- REMU (R72): unsigned remainder. -/
  | remu (o : AluB)
  /-- AND (R71): bitwise AND. -/
  | and (o : AluB)
  /-- OR (R71): bitwise OR. -/
  | or (o : AluB)
  /-- XOR (R71): bitwise XOR. -/
  | xor (o : AluB)
  /-- ANDN (R71): a AND NOT b. -/
  | andn (o : AluB)
  /-- SHL (R71): shift left by b & 63. -/
  | shl (o : AluB)
  /-- SHR (R71): shift right, zero fill. -/
  | shr (o : AluB)
  /-- SAR (R71): shift right, sign fill. -/
  | sar (o : AluB)
  /-- ROL (R71): rotate left. -/
  | rol (o : AluB)
  /-- MIN (R71): signed minimum. -/
  | min (o : AluB)
  /-- MAX (R71): signed maximum. -/
  | max (o : AluB)
  /-- MINU (R71): unsigned minimum. -/
  | minu (o : AluB)
  /-- MAXU (R71): unsigned maximum. -/
  | maxu (o : AluB)
  /-- CLMULL (R73): low half of the carry-less product. -/
  | clmull (o : AluB)
  /-- CLMULH (R73): high half of the carry-less product. -/
  | clmulh (o : AluB)
  /-- CLZ (R71): leading zero bits. -/
  | clz (o : AluU)
  /-- CTZ (R71): trailing zero bits. -/
  | ctz (o : AluU)
  /-- POPC (R71): one bits. -/
  | popc (o : AluU)
  /-- MOV (R71): d := a. -/
  | mov (o : AluU)
  /-- SEXT_I8 (R71): sign-extend a[7:0]. -/
  | sextI8 (o : AluU)
  /-- SEXT_I16 (R71): sign-extend a[15:0]. -/
  | sextI16 (o : AluU)
  /-- SEXT_I32 (R71): sign-extend a[31:0]. -/
  | sextI32 (o : AluU)
  /-- ZEXT_I8 (R71): zero-extend a[7:0]. -/
  | zextI8 (o : AluU)
  /-- ZEXT_I16 (R71): zero-extend a[15:0]. -/
  | zextI16 (o : AluU)
  /-- ZEXT_I32 (R71): zero-extend a[31:0]. -/
  | zextI32 (o : AluU)
  /-- SEL (R74): d := a if p is true, else b. -/
  | sel (o : SelF)
  /-- ADDI (R74): d := a + imm. -/
  | addi (o : AddiF)
  /-- LEA (R74): d := a + (b << k). -/
  | lea (o : LeaF)
  /-- LI (R74): d := imm, sign-extended. -/
  | li (o : LiF)
  /-- LIH (R74): replace halfword h of sd. -/
  | lih (o : LihF)
  /-- CMP (R75): pd := a cc b. -/
  | cmp (o : CmpF)
  /-- CMPI (R75): pd := a cc imm. -/
  | cmpi (o : CmpiF)
  /-- PAND (R76): predicate logic with negate bits. -/
  | pand (o : PlogF)
  /-- POR (R76): predicate logic with negate bits. -/
  | por (o : PlogF)
  /-- PXOR (R76): predicate logic with negate bits. -/
  | pxor (o : PlogF)
  /-- PANDN (R76): predicate logic with negate bits. -/
  | pandn (o : PlogF)
  /-- PREP_LABEL (R78): b := unit address + offset. -/
  | prepLabel (o : PrepLF)
  /-- PREP_REG (R78): b := a[23:0]. -/
  | prepReg (o : PrepRF)
  /-- GETC (R77): read a control register. -/
  | getc (o : GetcF)
  /-- SETC (R77): write a control register. -/
  | setc (o : SetcF)
  /-- LDL (R202): load from local store. -/
  | ldl (o : LdF12)
  /-- STL (R202): store to local store. -/
  | stl (o : StF12)
  /-- VLDL (R203): load a v register from local store. -/
  | vldl (o : VldlF)
  /-- VLDL_STREAM (R101): load a v register from a stream. -/
  | vldlStream (o : VldlQF)
  /-- VSTL (R203): store a v register to local store. -/
  | vstl (o : VstlF)
  /-- VSTL_STREAM (R102): store a v register to a stream. -/
  | vstlStream (o : VstlQF)
  /-- BIND (R97): bind a stream register. -/
  | bind (o : BindF)
  /-- UNBIND (R98): end a binding. -/
  | unbind (o : UnbindF)
  /-- QSKIP (R99): advance a stream. -/
  | qskip (o : QskipF)
  /-- QSTAT (R100): read the state of a stream. -/
  | qstat (o : QstatF)
  /-- LDG (R206): load from global memory. -/
  | ldg (o : LdF11)
  /-- STG (R206): store to global memory. -/
  | stg (o : StF11)
  /-- VLDG (R207): load a v register from global memory. -/
  | vldg (o : VldgF)
  /-- VSTG (R207): store a v register to global memory. -/
  | vstg (o : VstgF)
  /-- VGATH (R208): gather 32-bit lanes. -/
  | vgath (o : VgathF)
  /-- VSCAT (R208): scatter 32-bit lanes. -/
  | vscat (o : VscatF)
  /-- AMO (R211): atomic read-modify-write. -/
  | amo (o : AmoF)
  /-- AMO_CAS (R211): atomic compare and swap. -/
  | amoCas (o : CasF)
  /-- RADD (R213): reduce on write. -/
  | radd (o : RaddF)
  /-- ROWADD (R249): add a row in one act. -/
  | rowadd (o : RowaddF)
  /-- ROWLD (R250): load a row in one act. -/
  | rowld (o : RowldF)
  /-- PSMP_SCALAR (R239): deliver one sample. -/
  | psmpScalar (o : PsmpF)
  /-- PSMP_VECTOR (R239): deliver 64 samples or a row of samples. -/
  | psmpVector (o : PsmpF)
  /-- PTAP_SCALAR (R240): read a tap into a scalar. -/
  | ptapScalar (o : PtapF)
  /-- PTAP_VECTOR (R240): read taps into a v register. -/
  | ptapVector (o : PtapF)
  /-- PTAPS (R242): read one word member in one act. -/
  | ptaps (o : PtapsF)
  /-- RTAP_SCALAR (R245): read a rated member and its age. -/
  | rtapScalar (o : RtapF)
  /-- RTAP_VECTOR (R245): read rated members and the largest age. -/
  | rtapVector (o : RtapF)
  /-- PHASE (R222): publish and refresh. -/
  | phase (o : PhaseF)
  /-- PREF (R215): prefetch hint. -/
  | pref (o : PrefF)
  /-- VADD (R139): a + b. -/
  | vadd (o : VaF)
  /-- VSUB (R139): a - b. -/
  | vsub (o : VaF)
  /-- VMUL (R139): a * b. -/
  | vmul (o : VaF)
  /-- VMULH (R139): high half of the signed product. -/
  | vmulh (o : VaF)
  /-- VMAD (R139): d + a * b. -/
  | vmad (o : VaAccF)
  /-- VAND (R139): bitwise AND. -/
  | vand (o : VaF)
  /-- VOR (R139): bitwise OR. -/
  | vor (o : VaF)
  /-- VXOR (R139): bitwise XOR. -/
  | vxor (o : VaF)
  /-- VSHL (R139): shift left. -/
  | vshl (o : VaF)
  /-- VSHR (R139): logical shift right. -/
  | vshr (o : VaF)
  /-- VSAR (R139): arithmetic shift right. -/
  | vsar (o : VaF)
  /-- VMIN (R139): signed minimum. -/
  | vmin (o : VaF)
  /-- VMAX (R139): signed maximum. -/
  | vmax (o : VaF)
  /-- VABS (R139): saturating absolute value. -/
  | vabs (o : VaOneF)
  /-- VWACC (R140): widening dot accumulate. -/
  | vwacc (o : VaAccF)
  /-- VCLMUL_LO (R141): low half of the carry-less product. -/
  | vclmulLo (o : VaF)
  /-- VCLMUL_HI (R141): high half of the carry-less product. -/
  | vclmulHi (o : VaF)
  /-- VPOPC (R142): one bits of each lane. -/
  | vpopc (o : VaOneF)
  /-- VFADD (R143): RND(a + b). -/
  | vfadd (o : VaF)
  /-- VFSUB (R143): RND(a - b). -/
  | vfsub (o : VaF)
  /-- VFMUL (R143): RND(a * b). -/
  | vfmul (o : VaF)
  /-- VFMA (R143): RND(a * b + d). -/
  | vfma (o : VaAccF)
  /-- VFMIN (R144): lesser of a and b. -/
  | vfmin (o : VaF)
  /-- VFMAX (R144): greater of a and b. -/
  | vfmax (o : VaF)
  /-- VFABS (R144): clear the sign. -/
  | vfabs (o : VaOneF)
  /-- VFNEG (R144): invert the sign. -/
  | vfneg (o : VaOneF)
  /-- VFCMP (R145): floating comparison into a mask. -/
  | vfcmp (o : VcF)
  /-- VMCMP (R145): integer comparison into a mask. -/
  | vmcmp (o : VcF)
  /-- MAND (R146): mask logic. -/
  | mand (o : VmF)
  /-- MOR (R146): mask logic. -/
  | mor (o : VmF)
  /-- MNOT (R146): mask complement. -/
  | mnot (o : VmOneF)
  /-- VEXP2 (R147): 2^a. -/
  | vexp2 (o : VaOneF)
  /-- VLOG2 (R147): log2 a. -/
  | vlog2 (o : VaOneF)
  /-- VRCP (R147): 1/a. -/
  | vrcp (o : VaOneF)
  /-- VRSQ (R147): 1/sqrt a. -/
  | vrsq (o : VaOneF)
  /-- VSQRT (R147): sqrt a. -/
  | vsqrt (o : VaOneF)
  /-- VCVT (R149): convert the low elements. -/
  | vcvt (o : VaOneF)
  /-- VSCALE (R152): apply E8 block scales. -/
  | vscale (o : VaF)
  /-- VPACK (R151): narrow two registers into one. -/
  | vpack (o : VaF)
  /-- VUNPACK (R150): convert the high elements. -/
  | vunpack (o : VaOneF)
  /-- VTAG (R153): copy bits and set the tag. -/
  | vtag (o : VaOneF)
  /-- VRED (R154): reduce the enabled elements. -/
  | vred (o : VredF)
  /-- VSCAN (R155): prefix reductions. -/
  | vscan (o : VredF)
  /-- VSPLAT (R156): splat an s register. -/
  | vsplat (o : VaOneF)
  /-- VMOVS (R156): move one lane to an s register. -/
  | vmovs (o : VmovsF)
  /-- VSEL (R156): select lanes by a mask. -/
  | vsel (o : VaF)
  /-- VLANE (R156): broadcast the lane an s register names. -/
  | vlane (o : VaF)
  /-- VCHKF (R157): set FLAGS.CHK on an infinity or NaN. -/
  | vchkf (o : VchkfF)
  /-- LSUPD (R135): update the loss scale. -/
  | lsupd
  /-- XPERM (R159): permute lanes by a pattern register. -/
  | xperm (o : XpermF)
  /-- XROT (R159): rotate lanes. -/
  | xrot (o : XkF)
  /-- XBCAST (R159): broadcast a lane. -/
  | xbcast (o : XkF)
  /-- XSHUF (R161): shuffle lanes by a code. -/
  | xshuf (o : XshufF)
  /-- XREV (R159): reverse within groups. -/
  | xrev (o : XgF)
  /-- XCMPR (R162): compress lanes; g is the mask register. -/
  | xcmpr (o : XgF)
  /-- WLD (R169): load the weight latch. -/
  | wld (o : WldF)
  /-- BEAT (R170): apply one operand row to a tile. -/
  | beat (o : BeatF)
  /-- DRAIN (R176): read a tile row. -/
  | drain (o : DrainF)
  /-- ZCLR (R177): clear a tile. -/
  | zclr (o : ZF)
  /-- ZROT (R177): move the cursor. -/
  | zrot (o : ZrotF)
  /-- ZSPILL (R179): write a tile to a stream. -/
  | zspill (o : ZqF)
  /-- ZFILL (R179): read a tile from a stream. -/
  | zfill (o : ZqF)
  /-- CPY (R260): copy command. -/
  | cpy (o : CmdF)
  /-- CPYW (R261): weight-die copy command. -/
  | cpyw (o : CmdF)
  /-- TQPUSH (R180): push a tile. -/
  | tqpush (o : EaF)
  /-- TQPOP (R180): pop a transposed tile. -/
  | tqpop (o : EaF)
  /-- RKGATH (R263): gather rows. -/
  | rkgath (o : CmdF)
  /-- RKSEG (R264): pool bags of rows. -/
  | rkseg (o : CmdF)
  /-- RILL (R267): raw column commands. -/
  | rill (o : CmdF)
  /-- CFL_AR (R270): all-reduce. -/
  | cflAr (o : CmdF)
  /-- CFL_RS (R270): reduce-scatter. -/
  | cflRs (o : CmdF)
  /-- CFL_AG (R270): all-gather. -/
  | cflAg (o : CmdF)
  /-- CFL_BC (R270): broadcast. -/
  | cflBc (o : CmdF)
  /-- SEND (R276): send a message. -/
  | send (o : CmdF)
  /-- RECV (R276): receive a message. -/
  | recv (o : CmdF)
  /-- PANCFG (R235): configure or release a pan region. -/
  | pancfg (o : CmdF)
  /-- TICK (R237): close an intake. -/
  | tick (o : CmdF)
  /-- FOOT (R230): declare a footprint range. -/
  | foot (o : FootF)
  /-- JWAIT (R256): wait on a ticket. -/
  | jwait (o : JwaitF)
  /-- JPOLL (R256): test a ticket. -/
  | jpoll (o : JpollF)
  /-- SPAWN (R90): hand a record to Delta. -/
  | spawn (o : CmdF)
  /-- JOIN (R91): join a group. -/
  | join (o : JoinF)
  /-- LEAVE (R92): leave a group. -/
  | leave (o : EaF)
  /-- BAR (R93): arrive at the barrier. -/
  | bar (o : EaF)
  /-- TREE (R80): multiway branch. -/
  | tree (o : TreeF)
  /-- LOOP (R86): open a loop. -/
  | loop (o : LoopF)
  /-- LOOPR (R86): open a loop with a register count. -/
  | loopr (o : LooprF)
  /-- CALL (R83): call. -/
  | call (o : CallF)
  /-- RET (R83): return. -/
  | ret (o : BtF)
  /-- SUSPEND (R84): suspend the task. -/
  | suspend (o : BtF)
  /-- HALT (R85): end the task. -/
  | halt
  /-- TRAP (R323): system call trap. -/
  | trap (o : TrapF)
  /-- RTE (R321): return from the handler. -/
  | rte
  /-- REPEAT (R25): repeat the following bundle. -/
  | repeat (o : RepF)
  /-- BUNDLE_ISSUE (R34): the core decodes, checks and issues a code unit, and closes it after its slots. -/
  | bundleIssue (c : CoreId)
  /-- RESULT_LANDS (R33): the long-latency result number n of the core lands. -/
  | resultLands (c : CoreId) (n : Nat)
  /-- DEFERRED_PAGE_TRAP (R200): a failed lane makes the core trap before its next unit. -/
  | deferredPageTrap (c : CoreId)
  /-- PAGE_REQUEST_POST (R294): the oldest unposted miss of the VF enters its queue. -/
  | pageRequestPost (v : VfId)
  /-- RANGE_RETIRE (R205): range number n of the core retires. -/
  | rangeRetire (c : CoreId) (n : Nat)
  /-- ENGINE_COMMAND_COMPLETE (R255): the engine command id of the core completes. -/
  | engineCommandComplete (c : CoreId) (id : Nat)
  /-- RILL_COLUMN_COMMAND (R266): a Rill unit performs the posted operation n of the core. -/
  | rillColumnCommand (c : CoreId) (n : Nat)
  /-- SAMPLE_PERFORMED (R236): the posted sample n of the core is performed. -/
  | samplePerformed (c : CoreId) (n : Nat)
  /-- TICK_CLOSE_ARRIVAL (R237): the next close of region r reaches channel ch. -/
  | tickCloseArrival (r : Nat) (ch : Nat)
  /-- STACK_REFRESH_DUE (R268): a refresh falls due on a bank, numbered over the module. -/
  | stackRefreshDue (bank : Nat) (train : Bool)
  /-- WEIGHT_DIE_REFRESH (R167): the calendar moves on to the next refresh window. -/
  | weightDieRefresh
  /-- CFL_HOP (R270): a collective packet is combined for the command id of the core. -/
  | cflHop (c : CoreId) (id : Nat) (k : CflPkt)
  /-- CFL_LATE_REPLACEMENT (R275): the backup replaces a late packet of a collective. -/
  | cflLateReplacement (c : CoreId) (id : Nat) (k : CflPkt)
  /-- RECV_ENTRY_ARRIVAL (R276): a message entry arrives at a receive queue. -/
  | recvEntryArrival (peer : BitVec 16) (flow : BitVec 8) (k : MsgEntry)
  /-- RECV_TIMEOUT (R277): a RECV has waited longer than LINKTMO.RECV. -/
  | recvTimeout (c : CoreId) (id : Nat)
  /-- SEND_ACK_TIMEOUT (R276): a SEND stayed unacknowledged for LINKTMO.ACK. -/
  | sendAckTimeout (c : CoreId) (id : Nat)
  /-- LINK_TIMEOUT (R223): the acknowledgements of a PHASE do not arrive in time. -/
  | linkTimeout (c : CoreId)
  /-- MIRROR_WRITE_ARRIVAL (R227): a forwarded mirrored write reaches the buddy. -/
  | mirrorWriteArrival (k : MirMsg)
  /-- TASK_PICKUP (R110): Delta gives an idle core its next READY task. -/
  | taskPickup (c : CoreId)
  /-- HELD_SPAWN_ENTRY (R108): the held spawn of a partition is tried again. -/
  | heldSpawnEntry (p : PartId)
  /-- QUANTUM_EXPIRY (R111): a READY task that waited QUANT makes Delta ask for a yield. -/
  | quantumExpiry (p : PartId)
  /-- LAUNCH (R59): a start-vector write. -/
  | launch (v : VfId) (vec : List (BitVec 32))
  /-- LAUNCH_PREAMBLE (R166): a start-vector write that keeps the weight gate open. -/
  | launchPreamble (v : VfId) (vec : List (BitVec 32))
  /-- IMAGE_LOAD (R344): verify and load an image. -/
  | imageLoad (v : VfId) (img : Image)
  /-- ATTEST (R345): write the signed attestation report. -/
  | attest (v : VfId) (nonce : BitVec 256) (a : GAddr)
  /-- HOST_SPAWN (R105): the host spawns a record. -/
  | hostSpawn (v : VfId) (a : GAddr)
  /-- RESTORE (R308): the host re-enters a checkpointed record. -/
  | restore (v : VfId) (a : GAddr)
  /-- QUEUE_TEARDOWN (R113): the host writes VALID = 0 to a queue. -/
  | queueTeardown (v : VfId) (q : BitVec 6)
  /-- PRQREPLY (R295): the hypervisor writes PRQREPLY. -/
  | prqreply (v : VfId) (x : W64)
  /-- PCREATE (R285): create a partition. -/
  | pcreate (p : PartId) (v : VfId) (mask : W64) (key : BitVec 256)
  /-- PDESTROY (R285): destroy a partition. -/
  | pdestroy (p : PartId)
  /-- S2ROOT (R285): set the second-stage root. -/
  | s2root (p : PartId) (x : W64)
  /-- CTXALLOT (R285): set the allotment of reduction contexts. -/
  | ctxallot (p : PartId) (n : Nat)
  /-- PORTW (R285): set the port weight of a core. -/
  | portw (c : CoreId) (w : BitVec 4)
  /-- INVAL (R291): invalidate cached translations from lo to hi of a kind. -/
  | inval (v : VfId) (kind : BitVec 2) (lo : GAddr) (hi : GAddr)
  /-- INVAL_COMPLETE (R292): the oldest INVAL completes. -/
  | invalComplete
  /-- DEADLINE (R299): post an eviction deadline. -/
  | deadline (k : DeadlineF)
  /-- SLUICE_EVALUATION (R304): the Sluice evaluates the queues of a partition. -/
  | sluiceEvaluation (p : PartId)
  /-- DEADLINE_CUT (R304): the cut of a deadline is reached. -/
  | deadlineCut (p : PartId)
  /-- VACANCY (R311): a partition becomes vacant. -/
  | vacancy (p : PartId)
  /-- SLUICE_RUN (R306): the host writes CHOICE 0 to SLUICECH. -/
  | sluiceRun (x : W64)
  /-- SLUICE_CHECKPOINT (R306): the host writes CHOICE 1 to SLUICECH. -/
  | sluiceCheckpoint (x : W64)
  /-- SLUICE_DISCARD (R306): the host writes CHOICE 2 to SLUICECH. -/
  | sluiceDiscard (x : W64)
  /-- SLUICE_QUERY (R306): the host writes CHOICE 3 to SLUICECH. -/
  | sluiceQuery (x : W64)
  /-- ERROR_WINDOW_EXPIRY (R332): the error-count window of a unit ends. -/
  | errorWindowExpiry (kind : BitVec 3) (unit : BitVec 16)
  /-- UNIT_RETIREMENT (R333): a retirement that is due takes effect. -/
  | unitRetirement (kind : BitVec 3) (unit : BitVec 16)
  /-- RETIRE (R333): the host retires a channel. -/
  | retire (kind : BitVec 3) (unit : BitVec 16)
  /-- RECORD (R336): the host adds one to a unit count. -/
  | record (x : W64)
  /-- MIRCFG (R335): declare a mirrored region. -/
  | mircfg (p : PartId) (base : GAddr) (len : BitVec 52) (m : BitVec 16) (dpa : BitVec 46)
  /-- MODULE_LOST (R335): a module stays unreachable for LINKTMO.ACK. -/
  | moduleLost (m : BitVec 16)
  /-- PROMOTE (R335): copies of a lost module become memory of a partition. -/
  | promote (p : PartId) (m : BitVec 16)
  /-- FATAL_ERROR (R338): a fatal error stops every core. -/
  | fatalError (cause : BitVec 8)
  /-- DUMPREAD (R338): read the fatal dump. -/
  | dumpread (off : Nat)
  /-- MODULE_RESET (R343): reset starts the boot ROM. -/
  | moduleReset
  /-- BOOT_ROM_VERIFY (R343): the boot ROM verifies the firmware. -/
  | bootRomVerify
  /-- FIRMWARE_INIT (R343): the firmware initialises the module. -/
  | firmwareInit
  /-- FWLOAD (R343): supply a firmware image in HALTED. -/
  | fwload (f : Firmware)
  /-- POWER_CAP (R346): lower the clock or insert issue stalls. -/
  | powerCap (mhz : Nat) (stall : Nat)
  /-- THERMTRIP (R346): power is removed from the compute dies. -/
  | thermtrip
  /-- REGISTER_WRITE (R358): write a command-window register. -/
  | registerWrite (w : Writer) (r : WinReg) (x : W64)
  /-- FLOW_FLIT_ARRIVAL (R225): a flit of a flow arrives. -/
  | flowFlitArrival (f : FlowId) (seq : BitVec 16) (k : FlitBody)
  deriving DecidableEq, Repr

end Sys2Proof
end

