-- ==== Sys2Proof/WellFormed.lean ====
section
/-! DEFINITION. Which instructions are well formed: every enumerated field holds a value that R41 to R52 list, so the
word is an instruction and not a reserved encoding (R39). -/
namespace Sys2Proof

/-- The integer formats I8, I16, I32, I64 (R117). -/
def intFmt (t : Tag) : Bool := t == 1 || t == 2 || t == 3 || t == 4
/-- The floating formats BF16 and F32 (R117). -/
def fpFmt (t : Tag) : Bool := t == 5 || t == 6
/-- The formats VCVT converts into (R47): I8 to F32, PW8 and PW4. -/
def cvtFmt (t : Tag) : Bool := intFmt t || fpFmt t || t == 8 || t == 9
/-- A tag that a load may give a v register (R126): 0x0 to 0x6 and 0x8 to 0xA. -/
def memTag (t : Tag) : Bool := decide (t.toNat < 11) && t != 7
/-- A row of more than 256 bytes names an even register (R45). -/
def rowPair (v : BitVec 6) (n : BitVec 4) : Bool := !(v.toNat % 2 == 1 && decide (7 < n.toNat))

/-- The instruction's fields hold values that make an instruction (R39); an event has no encoding to check. -/
def Instr.wf : Instr → Bool
  | .cmp o => decide (o.cc.toNat < 12)
  | .cmpi o => decide (o.cc.toNat < 12)
  | .getc o => decide (o.c.toNat < 24)
  | .setc o => decide (o.c.toNat < 24)
  | .vldl o => memTag o.t
  | .vldlStream o => memTag o.t
  | .vldg o => memTag o.t
  | .vgath o => memTag o.t
  | .amo o => decide (o.fn.toNat < 9)
  | .radd o => (o.fmt == 3 || o.fmt == 4 || o.fmt == 5 || o.fmt == 6) && decide (o.op.toNat < 3)
  | .rowadd o => rowPair o.v o.n
  | .rowld o => rowPair o.d o.n
  | .phase o => decide (o.scope.toNat < 5)
  | .vadd o => intFmt o.fmt && o.rnd == 0
  | .vsub o => intFmt o.fmt && o.rnd == 0
  | .vmul o => intFmt o.fmt && o.rnd == 0
  | .vmulh o => intFmt o.fmt && o.rnd == 0
  | .vmad o => intFmt o.fmt && o.rnd == 0
  | .vand o => (o.fmt == 0 || intFmt o.fmt) && o.rnd == 0
  | .vor o => (o.fmt == 0 || intFmt o.fmt) && o.rnd == 0
  | .vxor o => (o.fmt == 0 || intFmt o.fmt) && o.rnd == 0
  | .vshl o => intFmt o.fmt && o.rnd == 0
  | .vshr o => intFmt o.fmt && o.rnd == 0
  | .vsar o => intFmt o.fmt && o.rnd == 0
  | .vmin o => intFmt o.fmt && o.rnd == 0
  | .vmax o => intFmt o.fmt && o.rnd == 0
  | .vabs o => intFmt o.fmt && o.rnd == 0
  | .vwacc o => (o.fmt == 1 || o.fmt == 2) && o.rnd == 0
  | .vclmulLo o => o.fmt == 0 && o.rnd == 0
  | .vclmulHi o => o.fmt == 0 && o.rnd == 0
  | .vpopc o => o.fmt == 0 && o.rnd == 0
  | .vfadd o => fpFmt o.fmt && decide (o.rnd.toNat < 3)
  | .vfsub o => fpFmt o.fmt && decide (o.rnd.toNat < 3)
  | .vfmul o => fpFmt o.fmt && decide (o.rnd.toNat < 3)
  | .vfma o => fpFmt o.fmt && decide (o.rnd.toNat < 3)
  | .vfmin o => fpFmt o.fmt && o.rnd == 0
  | .vfmax o => fpFmt o.fmt && o.rnd == 0
  | .vfabs o => fpFmt o.fmt && o.rnd == 0
  | .vfneg o => fpFmt o.fmt && o.rnd == 0
  | .vfcmp o => fpFmt o.fmt && decide (o.cc.toNat < 8)
  | .vmcmp o => intFmt o.fmt && decide (o.cc.toNat < 10)
  | .vexp2 o => fpFmt o.fmt && o.rnd == 0
  | .vlog2 o => fpFmt o.fmt && o.rnd == 0
  | .vrcp o => fpFmt o.fmt && o.rnd == 0
  | .vrsq o => fpFmt o.fmt && o.rnd == 0
  | .vsqrt o => fpFmt o.fmt && o.rnd == 0
  | .vcvt o => cvtFmt o.fmt && decide (o.rnd.toNat < 3)
  | .vscale o => fpFmt o.fmt && decide (o.rnd.toNat < 3)
  | .vpack o => (o.fmt == 1 || o.fmt == 5 || o.fmt == 8 || o.fmt == 9) && decide (o.rnd.toNat < 3)
  | .vunpack o => (o.fmt == 2 || o.fmt == 3 || o.fmt == 5 || o.fmt == 6) && o.rnd == 0
  | .vtag o => decide (o.fmt.toNat < 11) && o.rnd == 0
  | .vred o => ((intFmt o.fmt && o.rnd == 0 && decide (o.op.toNat < 6)) || (fpFmt o.fmt && decide (o.rnd.toNat < 3) && decide (o.op.toNat < 3)))
  | .vscan o => ((intFmt o.fmt && o.rnd == 0) || (fpFmt o.fmt && decide (o.rnd.toNat < 3))) && decide (o.op.toNat < 3)
  | .vsplat o => decide (o.fmt.toNat < 7) && o.rnd == 0
  | .vsel o => o.fmt == 0 && o.rnd == 0
  | .vlane o => o.fmt == 0 && o.rnd == 0
  | .vchkf o => fpFmt o.fmt
  | .xshuf o => decide (o.c.toNat < 4)
  | .xrev o => o.g != 0 && o.g != 7
  | .wld o => o.fmt == 1 || o.fmt == 5 || o.fmt == 8 || o.fmt == 9
  | .beat o => (o.fmt == 1 || (o.fmt == 5 && !o.int) || o.fmt == 8) && (o.sc || o.sq == 0)
  | .drain o => o.fmt == 1 || o.fmt == 3 || o.fmt == 5 || o.fmt == 6
  | .foot o => decide (o.eng.toNat < 4)
  | .tree o => decide (o.shape.toNat < 14)
  | .loop o => o.n != 0
  | .loopr o => o.n != 0
  | .call o => o.l != 0
  | _ => true

end Sys2Proof
end

