-- ==== Sys2Proof/Decode.lean ====
section
/-! DEFINITION. The decoder of the ten slots and of the code stream, total on any bits, and after it an encoder written
from the same tables (R19 to R28, R38 to R52). -/
namespace Sys2Proof

/-- The slot classes of R38, with the code stream's own halfword as class c. -/
inductive SlotClass where
  | a | l | g | v | x | t | e | b | c
  deriving DecidableEq, Repr

/-- An instruction whose fixed bits hold and whose enumerated fields are listed values; a reserved encoding gives
none (R39). -/
def keep (fixed : Bool) (i : Instr) : Option Instr := if fixed && i.wf then some i else none

/-- ADD (R71): its fixed bits checked and its fields read. -/
def rdAdd (w : Nat) : Option Instr := keep (w / 2 ^ 26 % 2 ^ 6 == 1 && w / 2 ^ 0 % 2 ^ 6 == 0) (.add ⟨fld w 20 6, fld w 14 6, bitAt w 13, fld w 7 6, bitAt w 6⟩)
/-- SUB (R71): its fixed bits checked and its fields read. -/
def rdSub (w : Nat) : Option Instr := keep (w / 2 ^ 26 % 2 ^ 6 == 1 && w / 2 ^ 0 % 2 ^ 6 == 1) (.sub ⟨fld w 20 6, fld w 14 6, bitAt w 13, fld w 7 6, bitAt w 6⟩)
/-- MUL (R71): its fixed bits checked and its fields read. -/
def rdMul (w : Nat) : Option Instr := keep (w / 2 ^ 26 % 2 ^ 6 == 1 && w / 2 ^ 0 % 2 ^ 6 == 2) (.mul ⟨fld w 20 6, fld w 14 6, bitAt w 13, fld w 7 6, bitAt w 6⟩)
/-- MULH (R71): its fixed bits checked and its fields read. -/
def rdMulh (w : Nat) : Option Instr := keep (w / 2 ^ 26 % 2 ^ 6 == 1 && w / 2 ^ 0 % 2 ^ 6 == 3) (.mulh ⟨fld w 20 6, fld w 14 6, bitAt w 13, fld w 7 6, bitAt w 6⟩)
/-- MULHU (R71): its fixed bits checked and its fields read. -/
def rdMulhu (w : Nat) : Option Instr := keep (w / 2 ^ 26 % 2 ^ 6 == 1 && w / 2 ^ 0 % 2 ^ 6 == 4) (.mulhu ⟨fld w 20 6, fld w 14 6, bitAt w 13, fld w 7 6, bitAt w 6⟩)
/-- DIV (R72): its fixed bits checked and its fields read. -/
def rdDiv (w : Nat) : Option Instr := keep (w / 2 ^ 26 % 2 ^ 6 == 1 && w / 2 ^ 0 % 2 ^ 6 == 5) (.div ⟨fld w 20 6, fld w 14 6, bitAt w 13, fld w 7 6, bitAt w 6⟩)
/-- DIVU (R72): its fixed bits checked and its fields read. -/
def rdDivu (w : Nat) : Option Instr := keep (w / 2 ^ 26 % 2 ^ 6 == 1 && w / 2 ^ 0 % 2 ^ 6 == 6) (.divu ⟨fld w 20 6, fld w 14 6, bitAt w 13, fld w 7 6, bitAt w 6⟩)
/-- REM (R72): its fixed bits checked and its fields read. -/
def rdRem (w : Nat) : Option Instr := keep (w / 2 ^ 26 % 2 ^ 6 == 1 && w / 2 ^ 0 % 2 ^ 6 == 7) (.rem ⟨fld w 20 6, fld w 14 6, bitAt w 13, fld w 7 6, bitAt w 6⟩)
/-- REMU (R72): its fixed bits checked and its fields read. -/
def rdRemu (w : Nat) : Option Instr := keep (w / 2 ^ 26 % 2 ^ 6 == 1 && w / 2 ^ 0 % 2 ^ 6 == 8) (.remu ⟨fld w 20 6, fld w 14 6, bitAt w 13, fld w 7 6, bitAt w 6⟩)
/-- AND (R71): its fixed bits checked and its fields read. -/
def rdAnd (w : Nat) : Option Instr := keep (w / 2 ^ 26 % 2 ^ 6 == 1 && w / 2 ^ 0 % 2 ^ 6 == 9) (.and ⟨fld w 20 6, fld w 14 6, bitAt w 13, fld w 7 6, bitAt w 6⟩)
/-- OR (R71): its fixed bits checked and its fields read. -/
def rdOr (w : Nat) : Option Instr := keep (w / 2 ^ 26 % 2 ^ 6 == 1 && w / 2 ^ 0 % 2 ^ 6 == 10) (.or ⟨fld w 20 6, fld w 14 6, bitAt w 13, fld w 7 6, bitAt w 6⟩)
/-- XOR (R71): its fixed bits checked and its fields read. -/
def rdXor (w : Nat) : Option Instr := keep (w / 2 ^ 26 % 2 ^ 6 == 1 && w / 2 ^ 0 % 2 ^ 6 == 11) (.xor ⟨fld w 20 6, fld w 14 6, bitAt w 13, fld w 7 6, bitAt w 6⟩)
/-- ANDN (R71): its fixed bits checked and its fields read. -/
def rdAndn (w : Nat) : Option Instr := keep (w / 2 ^ 26 % 2 ^ 6 == 1 && w / 2 ^ 0 % 2 ^ 6 == 12) (.andn ⟨fld w 20 6, fld w 14 6, bitAt w 13, fld w 7 6, bitAt w 6⟩)
/-- SHL (R71): its fixed bits checked and its fields read. -/
def rdShl (w : Nat) : Option Instr := keep (w / 2 ^ 26 % 2 ^ 6 == 1 && w / 2 ^ 0 % 2 ^ 6 == 13) (.shl ⟨fld w 20 6, fld w 14 6, bitAt w 13, fld w 7 6, bitAt w 6⟩)
/-- SHR (R71): its fixed bits checked and its fields read. -/
def rdShr (w : Nat) : Option Instr := keep (w / 2 ^ 26 % 2 ^ 6 == 1 && w / 2 ^ 0 % 2 ^ 6 == 14) (.shr ⟨fld w 20 6, fld w 14 6, bitAt w 13, fld w 7 6, bitAt w 6⟩)
/-- SAR (R71): its fixed bits checked and its fields read. -/
def rdSar (w : Nat) : Option Instr := keep (w / 2 ^ 26 % 2 ^ 6 == 1 && w / 2 ^ 0 % 2 ^ 6 == 15) (.sar ⟨fld w 20 6, fld w 14 6, bitAt w 13, fld w 7 6, bitAt w 6⟩)
/-- ROL (R71): its fixed bits checked and its fields read. -/
def rdRol (w : Nat) : Option Instr := keep (w / 2 ^ 26 % 2 ^ 6 == 1 && w / 2 ^ 0 % 2 ^ 6 == 16) (.rol ⟨fld w 20 6, fld w 14 6, bitAt w 13, fld w 7 6, bitAt w 6⟩)
/-- MIN (R71): its fixed bits checked and its fields read. -/
def rdMin (w : Nat) : Option Instr := keep (w / 2 ^ 26 % 2 ^ 6 == 1 && w / 2 ^ 0 % 2 ^ 6 == 17) (.min ⟨fld w 20 6, fld w 14 6, bitAt w 13, fld w 7 6, bitAt w 6⟩)
/-- MAX (R71): its fixed bits checked and its fields read. -/
def rdMax (w : Nat) : Option Instr := keep (w / 2 ^ 26 % 2 ^ 6 == 1 && w / 2 ^ 0 % 2 ^ 6 == 18) (.max ⟨fld w 20 6, fld w 14 6, bitAt w 13, fld w 7 6, bitAt w 6⟩)
/-- MINU (R71): its fixed bits checked and its fields read. -/
def rdMinu (w : Nat) : Option Instr := keep (w / 2 ^ 26 % 2 ^ 6 == 1 && w / 2 ^ 0 % 2 ^ 6 == 19) (.minu ⟨fld w 20 6, fld w 14 6, bitAt w 13, fld w 7 6, bitAt w 6⟩)
/-- MAXU (R71): its fixed bits checked and its fields read. -/
def rdMaxu (w : Nat) : Option Instr := keep (w / 2 ^ 26 % 2 ^ 6 == 1 && w / 2 ^ 0 % 2 ^ 6 == 20) (.maxu ⟨fld w 20 6, fld w 14 6, bitAt w 13, fld w 7 6, bitAt w 6⟩)
/-- CLMULL (R73): its fixed bits checked and its fields read. -/
def rdClmull (w : Nat) : Option Instr := keep (w / 2 ^ 26 % 2 ^ 6 == 1 && w / 2 ^ 0 % 2 ^ 6 == 21) (.clmull ⟨fld w 20 6, fld w 14 6, bitAt w 13, fld w 7 6, bitAt w 6⟩)
/-- CLMULH (R73): its fixed bits checked and its fields read. -/
def rdClmulh (w : Nat) : Option Instr := keep (w / 2 ^ 26 % 2 ^ 6 == 1 && w / 2 ^ 0 % 2 ^ 6 == 22) (.clmulh ⟨fld w 20 6, fld w 14 6, bitAt w 13, fld w 7 6, bitAt w 6⟩)
/-- CLZ (R71): its fixed bits checked and its fields read. -/
def rdClz (w : Nat) : Option Instr := keep (w / 2 ^ 26 % 2 ^ 6 == 1 && w / 2 ^ 6 % 2 ^ 7 == 0 && w / 2 ^ 0 % 2 ^ 6 == 23) (.clz ⟨fld w 20 6, fld w 14 6, bitAt w 13⟩)
/-- CTZ (R71): its fixed bits checked and its fields read. -/
def rdCtz (w : Nat) : Option Instr := keep (w / 2 ^ 26 % 2 ^ 6 == 1 && w / 2 ^ 6 % 2 ^ 7 == 0 && w / 2 ^ 0 % 2 ^ 6 == 24) (.ctz ⟨fld w 20 6, fld w 14 6, bitAt w 13⟩)
/-- POPC (R71): its fixed bits checked and its fields read. -/
def rdPopc (w : Nat) : Option Instr := keep (w / 2 ^ 26 % 2 ^ 6 == 1 && w / 2 ^ 6 % 2 ^ 7 == 0 && w / 2 ^ 0 % 2 ^ 6 == 25) (.popc ⟨fld w 20 6, fld w 14 6, bitAt w 13⟩)
/-- MOV (R71): its fixed bits checked and its fields read. -/
def rdMov (w : Nat) : Option Instr := keep (w / 2 ^ 26 % 2 ^ 6 == 1 && w / 2 ^ 6 % 2 ^ 7 == 0 && w / 2 ^ 0 % 2 ^ 6 == 26) (.mov ⟨fld w 20 6, fld w 14 6, bitAt w 13⟩)
/-- SEXT_I8 (R71): its fixed bits checked and its fields read. -/
def rdSextI8 (w : Nat) : Option Instr := keep (w / 2 ^ 26 % 2 ^ 6 == 1 && w / 2 ^ 6 % 2 ^ 7 == 0 && w / 2 ^ 0 % 2 ^ 6 == 27) (.sextI8 ⟨fld w 20 6, fld w 14 6, bitAt w 13⟩)
/-- SEXT_I16 (R71): its fixed bits checked and its fields read. -/
def rdSextI16 (w : Nat) : Option Instr := keep (w / 2 ^ 26 % 2 ^ 6 == 1 && w / 2 ^ 6 % 2 ^ 7 == 0 && w / 2 ^ 0 % 2 ^ 6 == 28) (.sextI16 ⟨fld w 20 6, fld w 14 6, bitAt w 13⟩)
/-- SEXT_I32 (R71): its fixed bits checked and its fields read. -/
def rdSextI32 (w : Nat) : Option Instr := keep (w / 2 ^ 26 % 2 ^ 6 == 1 && w / 2 ^ 6 % 2 ^ 7 == 0 && w / 2 ^ 0 % 2 ^ 6 == 29) (.sextI32 ⟨fld w 20 6, fld w 14 6, bitAt w 13⟩)
/-- ZEXT_I8 (R71): its fixed bits checked and its fields read. -/
def rdZextI8 (w : Nat) : Option Instr := keep (w / 2 ^ 26 % 2 ^ 6 == 1 && w / 2 ^ 6 % 2 ^ 7 == 0 && w / 2 ^ 0 % 2 ^ 6 == 30) (.zextI8 ⟨fld w 20 6, fld w 14 6, bitAt w 13⟩)
/-- ZEXT_I16 (R71): its fixed bits checked and its fields read. -/
def rdZextI16 (w : Nat) : Option Instr := keep (w / 2 ^ 26 % 2 ^ 6 == 1 && w / 2 ^ 6 % 2 ^ 7 == 0 && w / 2 ^ 0 % 2 ^ 6 == 31) (.zextI16 ⟨fld w 20 6, fld w 14 6, bitAt w 13⟩)
/-- ZEXT_I32 (R71): its fixed bits checked and its fields read. -/
def rdZextI32 (w : Nat) : Option Instr := keep (w / 2 ^ 26 % 2 ^ 6 == 1 && w / 2 ^ 6 % 2 ^ 7 == 0 && w / 2 ^ 0 % 2 ^ 6 == 32) (.zextI32 ⟨fld w 20 6, fld w 14 6, bitAt w 13⟩)
/-- SEL (R74): its fixed bits checked and its fields read. -/
def rdSel (w : Nat) : Option Instr := keep (w / 2 ^ 26 % 2 ^ 6 == 2 && w / 2 ^ 0 % 2 ^ 1 == 0) (.sel ⟨fld w 20 6, fld w 14 6, bitAt w 13, fld w 7 6, bitAt w 6, fld w 1 5⟩)
/-- ADDI (R74): its fixed bits checked and its fields read. -/
def rdAddi (w : Nat) : Option Instr := keep (w / 2 ^ 26 % 2 ^ 6 == 3) (.addi ⟨fld w 20 6, fld w 14 6, bitAt w 13, fld w 0 13⟩)
/-- LEA (R74): its fixed bits checked and its fields read. -/
def rdLea (w : Nat) : Option Instr := keep (w / 2 ^ 26 % 2 ^ 6 == 4 && w / 2 ^ 0 % 2 ^ 3 == 0) (.lea ⟨fld w 20 6, fld w 14 6, bitAt w 13, fld w 7 6, bitAt w 6, fld w 3 3⟩)
/-- LI (R74): its fixed bits checked and its fields read. -/
def rdLi (w : Nat) : Option Instr := keep (w / 2 ^ 26 % 2 ^ 6 == 5) (.li ⟨fld w 20 6, fld w 0 20⟩)
/-- LIH (R74): its fixed bits checked and its fields read. -/
def rdLih (w : Nat) : Option Instr := keep (w / 2 ^ 26 % 2 ^ 6 == 6 && w / 2 ^ 0 % 2 ^ 1 == 0) (.lih ⟨fld w 20 6, fld w 18 2, fld w 2 16, bitAt w 1⟩)
/-- CMP (R75): its fixed bits checked and its fields read. -/
def rdCmp (w : Nat) : Option Instr := keep (w / 2 ^ 26 % 2 ^ 6 == 7 && w / 2 ^ 0 % 2 ^ 3 == 0) (.cmp ⟨fld w 21 5, fld w 15 6, bitAt w 14, fld w 8 6, bitAt w 7, fld w 3 4⟩)
/-- CMPI (R75): its fixed bits checked and its fields read. -/
def rdCmpi (w : Nat) : Option Instr := keep (w / 2 ^ 26 % 2 ^ 6 == 8) (.cmpi ⟨fld w 21 5, fld w 15 6, bitAt w 14, fld w 10 4, fld w 0 10⟩)
/-- PAND (R76): its fixed bits checked and its fields read. -/
def rdPand (w : Nat) : Option Instr := keep (w / 2 ^ 26 % 2 ^ 6 == 9 && w / 2 ^ 7 % 2 ^ 2 == 0 && w / 2 ^ 0 % 2 ^ 7 == 0) (.pand ⟨fld w 21 5, fld w 16 5, bitAt w 15, fld w 10 5, bitAt w 9⟩)
/-- POR (R76): its fixed bits checked and its fields read. -/
def rdPor (w : Nat) : Option Instr := keep (w / 2 ^ 26 % 2 ^ 6 == 9 && w / 2 ^ 7 % 2 ^ 2 == 1 && w / 2 ^ 0 % 2 ^ 7 == 0) (.por ⟨fld w 21 5, fld w 16 5, bitAt w 15, fld w 10 5, bitAt w 9⟩)
/-- PXOR (R76): its fixed bits checked and its fields read. -/
def rdPxor (w : Nat) : Option Instr := keep (w / 2 ^ 26 % 2 ^ 6 == 9 && w / 2 ^ 7 % 2 ^ 2 == 2 && w / 2 ^ 0 % 2 ^ 7 == 0) (.pxor ⟨fld w 21 5, fld w 16 5, bitAt w 15, fld w 10 5, bitAt w 9⟩)
/-- PANDN (R76): its fixed bits checked and its fields read. -/
def rdPandn (w : Nat) : Option Instr := keep (w / 2 ^ 26 % 2 ^ 6 == 9 && w / 2 ^ 7 % 2 ^ 2 == 3 && w / 2 ^ 0 % 2 ^ 7 == 0) (.pandn ⟨fld w 21 5, fld w 16 5, bitAt w 15, fld w 10 5, bitAt w 9⟩)
/-- PREP_LABEL (R78): its fixed bits checked and its fields read. -/
def rdPrepLabel (w : Nat) : Option Instr := keep (w / 2 ^ 26 % 2 ^ 6 == 10 && w / 2 ^ 22 % 2 ^ 1 == 0) (.prepLabel ⟨fld w 23 3, fld w 0 22⟩)
/-- PREP_REG (R78): its fixed bits checked and its fields read. -/
def rdPrepReg (w : Nat) : Option Instr := keep (w / 2 ^ 26 % 2 ^ 6 == 10 && w / 2 ^ 22 % 2 ^ 1 == 1 && w / 2 ^ 0 % 2 ^ 15 == 0) (.prepReg ⟨fld w 23 3, fld w 16 6, bitAt w 15⟩)
/-- GETC (R77): its fixed bits checked and its fields read. -/
def rdGetc (w : Nat) : Option Instr := keep (w / 2 ^ 26 % 2 ^ 6 == 11 && w / 2 ^ 18 % 2 ^ 2 == 0 && w / 2 ^ 0 % 2 ^ 8 == 0) (.getc ⟨fld w 20 6, fld w 8 10⟩)
/-- SETC (R77): its fixed bits checked and its fields read. -/
def rdSetc (w : Nat) : Option Instr := keep (w / 2 ^ 26 % 2 ^ 6 == 11 && w / 2 ^ 19 % 2 ^ 1 == 1 && w / 2 ^ 0 % 2 ^ 8 == 0) (.setc ⟨fld w 20 6, bitAt w 18, fld w 8 10⟩)
/-- LDL (R202): its fixed bits checked and its fields read. -/
def rdLdl (w : Nat) : Option Instr := keep (w / 2 ^ 28 % 2 ^ 4 == 1) (.ldl ⟨fld w 26 2, fld w 20 6, bitAt w 19, fld w 13 6, bitAt w 12, fld w 0 12⟩)
/-- STL (R202): its fixed bits checked and its fields read. -/
def rdStl (w : Nat) : Option Instr := keep (w / 2 ^ 28 % 2 ^ 4 == 2) (.stl ⟨fld w 26 2, fld w 20 6, bitAt w 19, fld w 13 6, bitAt w 12, fld w 0 12⟩)
/-- VLDL (R203): its fixed bits checked and its fields read. -/
def rdVldl (w : Nat) : Option Instr := keep (w / 2 ^ 28 % 2 ^ 4 == 3 && w / 2 ^ 17 % 2 ^ 1 == 0) (.vldl ⟨fld w 24 4, fld w 18 6, fld w 11 6, bitAt w 10, fld w 0 10⟩)
/-- VLDL_STREAM (R101): its fixed bits checked and its fields read. -/
def rdVldlStream (w : Nat) : Option Instr := keep (w / 2 ^ 28 % 2 ^ 4 == 3 && w / 2 ^ 17 % 2 ^ 1 == 1 && w / 2 ^ 15 % 2 ^ 2 == 0 && w / 2 ^ 0 % 2 ^ 11 == 0) (.vldlStream ⟨fld w 24 4, fld w 18 6, fld w 11 4⟩)
/-- VSTL (R203): its fixed bits checked and its fields read. -/
def rdVstl (w : Nat) : Option Instr := keep (w / 2 ^ 28 % 2 ^ 4 == 4 && w / 2 ^ 17 % 2 ^ 1 == 0) (.vstl ⟨fld w 25 3, bitAt w 24, fld w 18 6, fld w 11 6, bitAt w 10, fld w 0 10⟩)
/-- VSTL_STREAM (R102): its fixed bits checked and its fields read. -/
def rdVstlStream (w : Nat) : Option Instr := keep (w / 2 ^ 28 % 2 ^ 4 == 4 && w / 2 ^ 17 % 2 ^ 1 == 1 && w / 2 ^ 15 % 2 ^ 2 == 0 && w / 2 ^ 0 % 2 ^ 11 == 0) (.vstlStream ⟨fld w 25 3, bitAt w 24, fld w 18 6, fld w 11 4⟩)
/-- BIND (R97): its fixed bits checked and its fields read. -/
def rdBind (w : Nat) : Option Instr := keep (w / 2 ^ 28 % 2 ^ 4 == 5 && w / 2 ^ 0 % 2 ^ 16 == 0) (.bind ⟨fld w 24 4, fld w 18 6, bitAt w 17, bitAt w 16⟩)
/-- UNBIND (R98): its fixed bits checked and its fields read. -/
def rdUnbind (w : Nat) : Option Instr := keep (w / 2 ^ 28 % 2 ^ 4 == 6 && w / 2 ^ 0 % 2 ^ 24 == 0) (.unbind ⟨fld w 24 4⟩)
/-- QSKIP (R99): its fixed bits checked and its fields read. -/
def rdQskip (w : Nat) : Option Instr := keep (w / 2 ^ 28 % 2 ^ 4 == 7 && w / 2 ^ 0 % 2 ^ 17 == 0) (.qskip ⟨fld w 24 4, fld w 18 6, bitAt w 17⟩)
/-- QSTAT (R100): its fixed bits checked and its fields read. -/
def rdQstat (w : Nat) : Option Instr := keep (w / 2 ^ 28 % 2 ^ 4 == 8 && w / 2 ^ 0 % 2 ^ 18 == 0) (.qstat ⟨fld w 24 4, fld w 18 6⟩)
/-- LDG (R206): its fixed bits checked and its fields read. -/
def rdLdg (w : Nat) : Option Instr := keep (w / 2 ^ 27 % 2 ^ 5 == 1) (.ldg ⟨fld w 25 2, bitAt w 24, fld w 18 6, fld w 12 6, bitAt w 11, fld w 0 11⟩)
/-- STG (R206): its fixed bits checked and its fields read. -/
def rdStg (w : Nat) : Option Instr := keep (w / 2 ^ 27 % 2 ^ 5 == 2) (.stg ⟨fld w 25 2, bitAt w 24, fld w 18 6, fld w 12 6, bitAt w 11, fld w 0 11⟩)
/-- VLDG (R207): its fixed bits checked and its fields read. -/
def rdVldg (w : Nat) : Option Instr := keep (w / 2 ^ 27 % 2 ^ 5 == 3) (.vldg ⟨fld w 23 4, fld w 17 6, fld w 11 6, bitAt w 10, fld w 7 3, fld w 0 7⟩)
/-- VSTG (R207): its fixed bits checked and its fields read. -/
def rdVstg (w : Nat) : Option Instr := keep (w / 2 ^ 27 % 2 ^ 5 == 4) (.vstg ⟨fld w 24 3, bitAt w 23, fld w 17 6, fld w 11 6, bitAt w 10, fld w 0 10⟩)
/-- VGATH (R208): its fixed bits checked and its fields read. -/
def rdVgath (w : Nat) : Option Instr := keep (w / 2 ^ 27 % 2 ^ 5 == 5) (.vgath ⟨fld w 23 4, fld w 17 6, fld w 11 6, bitAt w 10, fld w 4 6, bitAt w 3, fld w 0 3⟩)
/-- VSCAT (R208): its fixed bits checked and its fields read. -/
def rdVscat (w : Nat) : Option Instr := keep (w / 2 ^ 27 % 2 ^ 5 == 6 && w / 2 ^ 0 % 2 ^ 3 == 0) (.vscat ⟨fld w 24 3, bitAt w 23, fld w 17 6, fld w 11 6, bitAt w 10, fld w 4 6, bitAt w 3⟩)
/-- AMO (R211): its fixed bits checked and its fields read. -/
def rdAmo (w : Nat) : Option Instr := keep (w / 2 ^ 27 % 2 ^ 5 == 7 && w / 2 ^ 0 % 2 ^ 2 == 0) (.amo ⟨fld w 23 4, bitAt w 22, fld w 16 6, fld w 10 6, bitAt w 9, fld w 3 6, bitAt w 2⟩)
/-- AMO_CAS (R211): its fixed bits checked and its fields read. -/
def rdAmoCas (w : Nat) : Option Instr := keep (w / 2 ^ 27 % 2 ^ 5 == 7 && w / 2 ^ 23 % 2 ^ 4 == 9 && w / 2 ^ 0 % 2 ^ 1 == 0) (.amoCas ⟨bitAt w 22, fld w 16 6, fld w 10 6, bitAt w 9, fld w 3 6, bitAt w 2, bitAt w 1⟩)
/-- RADD (R213): its fixed bits checked and its fields read. -/
def rdRadd (w : Nat) : Option Instr := keep (w / 2 ^ 27 % 2 ^ 5 == 8 && w / 2 ^ 0 % 2 ^ 6 == 0) (.radd ⟨fld w 23 4, fld w 20 3, fld w 14 6, bitAt w 13, fld w 7 6, bitAt w 6⟩)
/-- ROWADD (R249): its fixed bits checked and its fields read. -/
def rdRowadd (w : Nat) : Option Instr := keep (w / 2 ^ 27 % 2 ^ 5 == 9 && w / 2 ^ 0 % 2 ^ 9 == 0) (.rowadd ⟨fld w 21 6, bitAt w 20, fld w 14 6, bitAt w 13, fld w 9 4⟩)
/-- ROWLD (R250): its fixed bits checked and its fields read. -/
def rdRowld (w : Nat) : Option Instr := keep (w / 2 ^ 27 % 2 ^ 5 == 10 && w / 2 ^ 20 % 2 ^ 1 == 0 && w / 2 ^ 0 % 2 ^ 9 == 0) (.rowld ⟨fld w 21 6, fld w 14 6, bitAt w 13, fld w 9 4⟩)
/-- PSMP_SCALAR (R239): its fixed bits checked and its fields read. -/
def rdPsmpScalar (w : Nat) : Option Instr := keep (w / 2 ^ 27 % 2 ^ 5 == 11 && w / 2 ^ 26 % 2 ^ 1 == 0) (.psmpScalar ⟨fld w 20 6, bitAt w 19, fld w 13 6, bitAt w 12, fld w 0 12⟩)
/-- PSMP_VECTOR (R239): its fixed bits checked and its fields read. -/
def rdPsmpVector (w : Nat) : Option Instr := keep (w / 2 ^ 27 % 2 ^ 5 == 11 && w / 2 ^ 26 % 2 ^ 1 == 1) (.psmpVector ⟨fld w 20 6, bitAt w 19, fld w 13 6, bitAt w 12, fld w 0 12⟩)
/-- PTAP_SCALAR (R240): its fixed bits checked and its fields read. -/
def rdPtapScalar (w : Nat) : Option Instr := keep (w / 2 ^ 27 % 2 ^ 5 == 12 && w / 2 ^ 26 % 2 ^ 1 == 0) (.ptapScalar ⟨fld w 20 6, fld w 18 2, fld w 12 6, bitAt w 11, fld w 0 11⟩)
/-- PTAP_VECTOR (R240): its fixed bits checked and its fields read. -/
def rdPtapVector (w : Nat) : Option Instr := keep (w / 2 ^ 27 % 2 ^ 5 == 12 && w / 2 ^ 26 % 2 ^ 1 == 1) (.ptapVector ⟨fld w 20 6, fld w 18 2, fld w 12 6, bitAt w 11, fld w 0 11⟩)
/-- PTAPS (R242): its fixed bits checked and its fields read. -/
def rdPtaps (w : Nat) : Option Instr := keep (w / 2 ^ 27 % 2 ^ 5 == 13 && w / 2 ^ 26 % 2 ^ 1 == 0 && w / 2 ^ 18 % 2 ^ 2 == 0) (.ptaps ⟨fld w 20 6, fld w 12 6, bitAt w 11, fld w 0 11⟩)
/-- RTAP_SCALAR (R245): its fixed bits checked and its fields read. -/
def rdRtapScalar (w : Nat) : Option Instr := keep (w / 2 ^ 27 % 2 ^ 5 == 14 && w / 2 ^ 26 % 2 ^ 1 == 0) (.rtapScalar ⟨fld w 20 6, fld w 14 6, fld w 8 6, bitAt w 7, fld w 0 7⟩)
/-- RTAP_VECTOR (R245): its fixed bits checked and its fields read. -/
def rdRtapVector (w : Nat) : Option Instr := keep (w / 2 ^ 27 % 2 ^ 5 == 14 && w / 2 ^ 26 % 2 ^ 1 == 1) (.rtapVector ⟨fld w 20 6, fld w 14 6, fld w 8 6, bitAt w 7, fld w 0 7⟩)
/-- PHASE (R222): its fixed bits checked and its fields read. -/
def rdPhase (w : Nat) : Option Instr := keep (w / 2 ^ 27 % 2 ^ 5 == 15 && w / 2 ^ 0 % 2 ^ 24 == 0) (.phase ⟨fld w 24 3⟩)
/-- PREF (R215): its fixed bits checked and its fields read. -/
def rdPref (w : Nat) : Option Instr := keep (w / 2 ^ 27 % 2 ^ 5 == 16) (.pref ⟨fld w 21 6, bitAt w 20, fld w 0 20⟩)
/-- VADD (R139): its fixed bits checked and its fields read. -/
def rdVadd (w : Nat) : Option Instr := keep (w / 2 ^ 30 % 2 ^ 6 == 1 && w / 2 ^ 0 % 2 ^ 1 == 0) (.vadd ⟨fld w 26 4, fld w 24 2, fld w 18 6, fld w 12 6, bitAt w 11, fld w 5 6, bitAt w 4, fld w 1 3⟩)
/-- VSUB (R139): its fixed bits checked and its fields read. -/
def rdVsub (w : Nat) : Option Instr := keep (w / 2 ^ 30 % 2 ^ 6 == 2 && w / 2 ^ 0 % 2 ^ 1 == 0) (.vsub ⟨fld w 26 4, fld w 24 2, fld w 18 6, fld w 12 6, bitAt w 11, fld w 5 6, bitAt w 4, fld w 1 3⟩)
/-- VMUL (R139): its fixed bits checked and its fields read. -/
def rdVmul (w : Nat) : Option Instr := keep (w / 2 ^ 30 % 2 ^ 6 == 3 && w / 2 ^ 0 % 2 ^ 1 == 0) (.vmul ⟨fld w 26 4, fld w 24 2, fld w 18 6, fld w 12 6, bitAt w 11, fld w 5 6, bitAt w 4, fld w 1 3⟩)
/-- VMULH (R139): its fixed bits checked and its fields read. -/
def rdVmulh (w : Nat) : Option Instr := keep (w / 2 ^ 30 % 2 ^ 6 == 4 && w / 2 ^ 0 % 2 ^ 1 == 0) (.vmulh ⟨fld w 26 4, fld w 24 2, fld w 18 6, fld w 12 6, bitAt w 11, fld w 5 6, bitAt w 4, fld w 1 3⟩)
/-- VMAD (R139): its fixed bits checked and its fields read. -/
def rdVmad (w : Nat) : Option Instr := keep (w / 2 ^ 30 % 2 ^ 6 == 5) (.vmad ⟨fld w 26 4, fld w 24 2, fld w 18 6, fld w 12 6, bitAt w 11, fld w 5 6, bitAt w 4, fld w 1 3, bitAt w 0⟩)
/-- VAND (R139): its fixed bits checked and its fields read. -/
def rdVand (w : Nat) : Option Instr := keep (w / 2 ^ 30 % 2 ^ 6 == 6 && w / 2 ^ 0 % 2 ^ 1 == 0) (.vand ⟨fld w 26 4, fld w 24 2, fld w 18 6, fld w 12 6, bitAt w 11, fld w 5 6, bitAt w 4, fld w 1 3⟩)
/-- VOR (R139): its fixed bits checked and its fields read. -/
def rdVor (w : Nat) : Option Instr := keep (w / 2 ^ 30 % 2 ^ 6 == 7 && w / 2 ^ 0 % 2 ^ 1 == 0) (.vor ⟨fld w 26 4, fld w 24 2, fld w 18 6, fld w 12 6, bitAt w 11, fld w 5 6, bitAt w 4, fld w 1 3⟩)
/-- VXOR (R139): its fixed bits checked and its fields read. -/
def rdVxor (w : Nat) : Option Instr := keep (w / 2 ^ 30 % 2 ^ 6 == 8 && w / 2 ^ 0 % 2 ^ 1 == 0) (.vxor ⟨fld w 26 4, fld w 24 2, fld w 18 6, fld w 12 6, bitAt w 11, fld w 5 6, bitAt w 4, fld w 1 3⟩)
/-- VSHL (R139): its fixed bits checked and its fields read. -/
def rdVshl (w : Nat) : Option Instr := keep (w / 2 ^ 30 % 2 ^ 6 == 9 && w / 2 ^ 0 % 2 ^ 1 == 0) (.vshl ⟨fld w 26 4, fld w 24 2, fld w 18 6, fld w 12 6, bitAt w 11, fld w 5 6, bitAt w 4, fld w 1 3⟩)
/-- VSHR (R139): its fixed bits checked and its fields read. -/
def rdVshr (w : Nat) : Option Instr := keep (w / 2 ^ 30 % 2 ^ 6 == 10 && w / 2 ^ 0 % 2 ^ 1 == 0) (.vshr ⟨fld w 26 4, fld w 24 2, fld w 18 6, fld w 12 6, bitAt w 11, fld w 5 6, bitAt w 4, fld w 1 3⟩)
/-- VSAR (R139): its fixed bits checked and its fields read. -/
def rdVsar (w : Nat) : Option Instr := keep (w / 2 ^ 30 % 2 ^ 6 == 11 && w / 2 ^ 0 % 2 ^ 1 == 0) (.vsar ⟨fld w 26 4, fld w 24 2, fld w 18 6, fld w 12 6, bitAt w 11, fld w 5 6, bitAt w 4, fld w 1 3⟩)
/-- VMIN (R139): its fixed bits checked and its fields read. -/
def rdVmin (w : Nat) : Option Instr := keep (w / 2 ^ 30 % 2 ^ 6 == 12 && w / 2 ^ 0 % 2 ^ 1 == 0) (.vmin ⟨fld w 26 4, fld w 24 2, fld w 18 6, fld w 12 6, bitAt w 11, fld w 5 6, bitAt w 4, fld w 1 3⟩)
/-- VMAX (R139): its fixed bits checked and its fields read. -/
def rdVmax (w : Nat) : Option Instr := keep (w / 2 ^ 30 % 2 ^ 6 == 13 && w / 2 ^ 0 % 2 ^ 1 == 0) (.vmax ⟨fld w 26 4, fld w 24 2, fld w 18 6, fld w 12 6, bitAt w 11, fld w 5 6, bitAt w 4, fld w 1 3⟩)
/-- VABS (R139): its fixed bits checked and its fields read. -/
def rdVabs (w : Nat) : Option Instr := keep (w / 2 ^ 30 % 2 ^ 6 == 14 && w / 2 ^ 4 % 2 ^ 7 == 0 && w / 2 ^ 0 % 2 ^ 1 == 0) (.vabs ⟨fld w 26 4, fld w 24 2, fld w 18 6, fld w 12 6, bitAt w 11, fld w 1 3⟩)
/-- VWACC (R140): its fixed bits checked and its fields read. -/
def rdVwacc (w : Nat) : Option Instr := keep (w / 2 ^ 30 % 2 ^ 6 == 15) (.vwacc ⟨fld w 26 4, fld w 24 2, fld w 18 6, fld w 12 6, bitAt w 11, fld w 5 6, bitAt w 4, fld w 1 3, bitAt w 0⟩)
/-- VCLMUL_LO (R141): its fixed bits checked and its fields read. -/
def rdVclmulLo (w : Nat) : Option Instr := keep (w / 2 ^ 30 % 2 ^ 6 == 16 && w / 2 ^ 0 % 2 ^ 1 == 0) (.vclmulLo ⟨fld w 26 4, fld w 24 2, fld w 18 6, fld w 12 6, bitAt w 11, fld w 5 6, bitAt w 4, fld w 1 3⟩)
/-- VCLMUL_HI (R141): its fixed bits checked and its fields read. -/
def rdVclmulHi (w : Nat) : Option Instr := keep (w / 2 ^ 30 % 2 ^ 6 == 17 && w / 2 ^ 0 % 2 ^ 1 == 0) (.vclmulHi ⟨fld w 26 4, fld w 24 2, fld w 18 6, fld w 12 6, bitAt w 11, fld w 5 6, bitAt w 4, fld w 1 3⟩)
/-- VPOPC (R142): its fixed bits checked and its fields read. -/
def rdVpopc (w : Nat) : Option Instr := keep (w / 2 ^ 30 % 2 ^ 6 == 18 && w / 2 ^ 4 % 2 ^ 7 == 0 && w / 2 ^ 0 % 2 ^ 1 == 0) (.vpopc ⟨fld w 26 4, fld w 24 2, fld w 18 6, fld w 12 6, bitAt w 11, fld w 1 3⟩)
/-- VFADD (R143): its fixed bits checked and its fields read. -/
def rdVfadd (w : Nat) : Option Instr := keep (w / 2 ^ 30 % 2 ^ 6 == 19 && w / 2 ^ 0 % 2 ^ 1 == 0) (.vfadd ⟨fld w 26 4, fld w 24 2, fld w 18 6, fld w 12 6, bitAt w 11, fld w 5 6, bitAt w 4, fld w 1 3⟩)
/-- VFSUB (R143): its fixed bits checked and its fields read. -/
def rdVfsub (w : Nat) : Option Instr := keep (w / 2 ^ 30 % 2 ^ 6 == 20 && w / 2 ^ 0 % 2 ^ 1 == 0) (.vfsub ⟨fld w 26 4, fld w 24 2, fld w 18 6, fld w 12 6, bitAt w 11, fld w 5 6, bitAt w 4, fld w 1 3⟩)
/-- VFMUL (R143): its fixed bits checked and its fields read. -/
def rdVfmul (w : Nat) : Option Instr := keep (w / 2 ^ 30 % 2 ^ 6 == 21 && w / 2 ^ 0 % 2 ^ 1 == 0) (.vfmul ⟨fld w 26 4, fld w 24 2, fld w 18 6, fld w 12 6, bitAt w 11, fld w 5 6, bitAt w 4, fld w 1 3⟩)
/-- VFMA (R143): its fixed bits checked and its fields read. -/
def rdVfma (w : Nat) : Option Instr := keep (w / 2 ^ 30 % 2 ^ 6 == 22) (.vfma ⟨fld w 26 4, fld w 24 2, fld w 18 6, fld w 12 6, bitAt w 11, fld w 5 6, bitAt w 4, fld w 1 3, bitAt w 0⟩)
/-- VFMIN (R144): its fixed bits checked and its fields read. -/
def rdVfmin (w : Nat) : Option Instr := keep (w / 2 ^ 30 % 2 ^ 6 == 23 && w / 2 ^ 0 % 2 ^ 1 == 0) (.vfmin ⟨fld w 26 4, fld w 24 2, fld w 18 6, fld w 12 6, bitAt w 11, fld w 5 6, bitAt w 4, fld w 1 3⟩)
/-- VFMAX (R144): its fixed bits checked and its fields read. -/
def rdVfmax (w : Nat) : Option Instr := keep (w / 2 ^ 30 % 2 ^ 6 == 24 && w / 2 ^ 0 % 2 ^ 1 == 0) (.vfmax ⟨fld w 26 4, fld w 24 2, fld w 18 6, fld w 12 6, bitAt w 11, fld w 5 6, bitAt w 4, fld w 1 3⟩)
/-- VFABS (R144): its fixed bits checked and its fields read. -/
def rdVfabs (w : Nat) : Option Instr := keep (w / 2 ^ 30 % 2 ^ 6 == 25 && w / 2 ^ 4 % 2 ^ 7 == 0 && w / 2 ^ 0 % 2 ^ 1 == 0) (.vfabs ⟨fld w 26 4, fld w 24 2, fld w 18 6, fld w 12 6, bitAt w 11, fld w 1 3⟩)
/-- VFNEG (R144): its fixed bits checked and its fields read. -/
def rdVfneg (w : Nat) : Option Instr := keep (w / 2 ^ 30 % 2 ^ 6 == 26 && w / 2 ^ 4 % 2 ^ 7 == 0 && w / 2 ^ 0 % 2 ^ 1 == 0) (.vfneg ⟨fld w 26 4, fld w 24 2, fld w 18 6, fld w 12 6, bitAt w 11, fld w 1 3⟩)
/-- VFCMP (R145): its fixed bits checked and its fields read. -/
def rdVfcmp (w : Nat) : Option Instr := keep (w / 2 ^ 30 % 2 ^ 6 == 27 && w / 2 ^ 21 % 2 ^ 1 == 0 && w / 2 ^ 0 % 2 ^ 1 == 0) (.vfcmp ⟨fld w 26 4, fld w 22 4, fld w 18 3, fld w 12 6, bitAt w 11, fld w 5 6, bitAt w 4, fld w 1 3⟩)
/-- VMCMP (R145): its fixed bits checked and its fields read. -/
def rdVmcmp (w : Nat) : Option Instr := keep (w / 2 ^ 30 % 2 ^ 6 == 28 && w / 2 ^ 21 % 2 ^ 1 == 0 && w / 2 ^ 0 % 2 ^ 1 == 0) (.vmcmp ⟨fld w 26 4, fld w 22 4, fld w 18 3, fld w 12 6, bitAt w 11, fld w 5 6, bitAt w 4, fld w 1 3⟩)
/-- MAND (R146): its fixed bits checked and its fields read. -/
def rdMand (w : Nat) : Option Instr := keep (w / 2 ^ 30 % 2 ^ 6 == 29 && w / 2 ^ 21 % 2 ^ 9 == 0 && w / 2 ^ 0 % 2 ^ 12 == 0) (.mand ⟨fld w 18 3, fld w 15 3, fld w 12 3⟩)
/-- MOR (R146): its fixed bits checked and its fields read. -/
def rdMor (w : Nat) : Option Instr := keep (w / 2 ^ 30 % 2 ^ 6 == 30 && w / 2 ^ 21 % 2 ^ 9 == 0 && w / 2 ^ 0 % 2 ^ 12 == 0) (.mor ⟨fld w 18 3, fld w 15 3, fld w 12 3⟩)
/-- MNOT (R146): its fixed bits checked and its fields read. -/
def rdMnot (w : Nat) : Option Instr := keep (w / 2 ^ 30 % 2 ^ 6 == 31 && w / 2 ^ 21 % 2 ^ 9 == 0 && w / 2 ^ 12 % 2 ^ 3 == 0 && w / 2 ^ 0 % 2 ^ 12 == 0) (.mnot ⟨fld w 18 3, fld w 15 3⟩)
/-- VEXP2 (R147): its fixed bits checked and its fields read. -/
def rdVexp2 (w : Nat) : Option Instr := keep (w / 2 ^ 30 % 2 ^ 6 == 32 && w / 2 ^ 4 % 2 ^ 7 == 0 && w / 2 ^ 0 % 2 ^ 1 == 0) (.vexp2 ⟨fld w 26 4, fld w 24 2, fld w 18 6, fld w 12 6, bitAt w 11, fld w 1 3⟩)
/-- VLOG2 (R147): its fixed bits checked and its fields read. -/
def rdVlog2 (w : Nat) : Option Instr := keep (w / 2 ^ 30 % 2 ^ 6 == 33 && w / 2 ^ 4 % 2 ^ 7 == 0 && w / 2 ^ 0 % 2 ^ 1 == 0) (.vlog2 ⟨fld w 26 4, fld w 24 2, fld w 18 6, fld w 12 6, bitAt w 11, fld w 1 3⟩)
/-- VRCP (R147): its fixed bits checked and its fields read. -/
def rdVrcp (w : Nat) : Option Instr := keep (w / 2 ^ 30 % 2 ^ 6 == 34 && w / 2 ^ 4 % 2 ^ 7 == 0 && w / 2 ^ 0 % 2 ^ 1 == 0) (.vrcp ⟨fld w 26 4, fld w 24 2, fld w 18 6, fld w 12 6, bitAt w 11, fld w 1 3⟩)
/-- VRSQ (R147): its fixed bits checked and its fields read. -/
def rdVrsq (w : Nat) : Option Instr := keep (w / 2 ^ 30 % 2 ^ 6 == 35 && w / 2 ^ 4 % 2 ^ 7 == 0 && w / 2 ^ 0 % 2 ^ 1 == 0) (.vrsq ⟨fld w 26 4, fld w 24 2, fld w 18 6, fld w 12 6, bitAt w 11, fld w 1 3⟩)
/-- VSQRT (R147): its fixed bits checked and its fields read. -/
def rdVsqrt (w : Nat) : Option Instr := keep (w / 2 ^ 30 % 2 ^ 6 == 36 && w / 2 ^ 4 % 2 ^ 7 == 0 && w / 2 ^ 0 % 2 ^ 1 == 0) (.vsqrt ⟨fld w 26 4, fld w 24 2, fld w 18 6, fld w 12 6, bitAt w 11, fld w 1 3⟩)
/-- VCVT (R149): its fixed bits checked and its fields read. -/
def rdVcvt (w : Nat) : Option Instr := keep (w / 2 ^ 30 % 2 ^ 6 == 37 && w / 2 ^ 4 % 2 ^ 7 == 0 && w / 2 ^ 0 % 2 ^ 1 == 0) (.vcvt ⟨fld w 26 4, fld w 24 2, fld w 18 6, fld w 12 6, bitAt w 11, fld w 1 3⟩)
/-- VSCALE (R152): its fixed bits checked and its fields read. -/
def rdVscale (w : Nat) : Option Instr := keep (w / 2 ^ 30 % 2 ^ 6 == 38 && w / 2 ^ 0 % 2 ^ 1 == 0) (.vscale ⟨fld w 26 4, fld w 24 2, fld w 18 6, fld w 12 6, bitAt w 11, fld w 5 6, bitAt w 4, fld w 1 3⟩)
/-- VPACK (R151): its fixed bits checked and its fields read. -/
def rdVpack (w : Nat) : Option Instr := keep (w / 2 ^ 30 % 2 ^ 6 == 39 && w / 2 ^ 0 % 2 ^ 1 == 0) (.vpack ⟨fld w 26 4, fld w 24 2, fld w 18 6, fld w 12 6, bitAt w 11, fld w 5 6, bitAt w 4, fld w 1 3⟩)
/-- VUNPACK (R150): its fixed bits checked and its fields read. -/
def rdVunpack (w : Nat) : Option Instr := keep (w / 2 ^ 30 % 2 ^ 6 == 40 && w / 2 ^ 4 % 2 ^ 7 == 0 && w / 2 ^ 0 % 2 ^ 1 == 0) (.vunpack ⟨fld w 26 4, fld w 24 2, fld w 18 6, fld w 12 6, bitAt w 11, fld w 1 3⟩)
/-- VTAG (R153): its fixed bits checked and its fields read. -/
def rdVtag (w : Nat) : Option Instr := keep (w / 2 ^ 30 % 2 ^ 6 == 41 && w / 2 ^ 4 % 2 ^ 7 == 0 && w / 2 ^ 0 % 2 ^ 1 == 0) (.vtag ⟨fld w 26 4, fld w 24 2, fld w 18 6, fld w 12 6, bitAt w 11, fld w 1 3⟩)
/-- VRED (R154): its fixed bits checked and its fields read. -/
def rdVred (w : Nat) : Option Instr := keep (w / 2 ^ 30 % 2 ^ 6 == 42 && w / 2 ^ 4 % 2 ^ 4 == 0 && w / 2 ^ 0 % 2 ^ 1 == 0) (.vred ⟨fld w 26 4, fld w 24 2, fld w 18 6, fld w 12 6, bitAt w 11, fld w 8 3, fld w 1 3⟩)
/-- VSCAN (R155): its fixed bits checked and its fields read. -/
def rdVscan (w : Nat) : Option Instr := keep (w / 2 ^ 30 % 2 ^ 6 == 43 && w / 2 ^ 4 % 2 ^ 4 == 0 && w / 2 ^ 0 % 2 ^ 1 == 0) (.vscan ⟨fld w 26 4, fld w 24 2, fld w 18 6, fld w 12 6, bitAt w 11, fld w 8 3, fld w 1 3⟩)
/-- VSPLAT (R156): its fixed bits checked and its fields read. -/
def rdVsplat (w : Nat) : Option Instr := keep (w / 2 ^ 30 % 2 ^ 6 == 44 && w / 2 ^ 4 % 2 ^ 7 == 0 && w / 2 ^ 0 % 2 ^ 1 == 0) (.vsplat ⟨fld w 26 4, fld w 24 2, fld w 18 6, fld w 12 6, bitAt w 11, fld w 1 3⟩)
/-- VMOVS (R156): its fixed bits checked and its fields read. -/
def rdVmovs (w : Nat) : Option Instr := keep (w / 2 ^ 30 % 2 ^ 6 == 45 && w / 2 ^ 24 % 2 ^ 6 == 0 && w / 2 ^ 4 % 2 ^ 1 == 0 && w / 2 ^ 0 % 2 ^ 1 == 0) (.vmovs ⟨fld w 18 6, fld w 12 6, bitAt w 11, fld w 5 6, fld w 1 3⟩)
/-- VSEL (R156): its fixed bits checked and its fields read. -/
def rdVsel (w : Nat) : Option Instr := keep (w / 2 ^ 30 % 2 ^ 6 == 46 && w / 2 ^ 0 % 2 ^ 1 == 0) (.vsel ⟨fld w 26 4, fld w 24 2, fld w 18 6, fld w 12 6, bitAt w 11, fld w 5 6, bitAt w 4, fld w 1 3⟩)
/-- VLANE (R156): its fixed bits checked and its fields read. -/
def rdVlane (w : Nat) : Option Instr := keep (w / 2 ^ 30 % 2 ^ 6 == 47 && w / 2 ^ 0 % 2 ^ 1 == 0) (.vlane ⟨fld w 26 4, fld w 24 2, fld w 18 6, fld w 12 6, bitAt w 11, fld w 5 6, bitAt w 4, fld w 1 3⟩)
/-- VCHKF (R157): its fixed bits checked and its fields read. -/
def rdVchkf (w : Nat) : Option Instr := keep (w / 2 ^ 30 % 2 ^ 6 == 48 && w / 2 ^ 18 % 2 ^ 8 == 0 && w / 2 ^ 4 % 2 ^ 7 == 0 && w / 2 ^ 0 % 2 ^ 1 == 0) (.vchkf ⟨fld w 26 4, fld w 12 6, bitAt w 11, fld w 1 3⟩)
/-- LSUPD (R135): its fixed bits checked and its fields read. -/
def rdLsupd (w : Nat) : Option Instr := keep (w / 2 ^ 30 % 2 ^ 6 == 49 && w / 2 ^ 0 % 2 ^ 30 == 0) .lsupd
/-- XPERM (R159): its fixed bits checked and its fields read. -/
def rdXperm (w : Nat) : Option Instr := keep (w / 2 ^ 21 % 2 ^ 3 == 1 && w / 2 ^ 0 % 2 ^ 1 == 0) (.xperm ⟨fld w 15 6, fld w 9 6, bitAt w 8, fld w 2 6, bitAt w 1⟩)
/-- XROT (R159): its fixed bits checked and its fields read. -/
def rdXrot (w : Nat) : Option Instr := keep (w / 2 ^ 21 % 2 ^ 3 == 2 && w / 2 ^ 0 % 2 ^ 2 == 0) (.xrot ⟨fld w 15 6, fld w 9 6, bitAt w 8, fld w 2 6⟩)
/-- XBCAST (R159): its fixed bits checked and its fields read. -/
def rdXbcast (w : Nat) : Option Instr := keep (w / 2 ^ 21 % 2 ^ 3 == 3 && w / 2 ^ 0 % 2 ^ 2 == 0) (.xbcast ⟨fld w 15 6, fld w 9 6, bitAt w 8, fld w 2 6⟩)
/-- XSHUF (R161): its fixed bits checked and its fields read. -/
def rdXshuf (w : Nat) : Option Instr := keep (w / 2 ^ 21 % 2 ^ 3 == 4 && w / 2 ^ 0 % 2 ^ 4 == 0) (.xshuf ⟨fld w 15 6, fld w 9 6, bitAt w 8, fld w 4 4⟩)
/-- XREV (R159): its fixed bits checked and its fields read. -/
def rdXrev (w : Nat) : Option Instr := keep (w / 2 ^ 21 % 2 ^ 3 == 5 && w / 2 ^ 0 % 2 ^ 5 == 0) (.xrev ⟨fld w 15 6, fld w 9 6, bitAt w 8, fld w 5 3⟩)
/-- XCMPR (R162): its fixed bits checked and its fields read. -/
def rdXcmpr (w : Nat) : Option Instr := keep (w / 2 ^ 21 % 2 ^ 3 == 6 && w / 2 ^ 0 % 2 ^ 5 == 0) (.xcmpr ⟨fld w 15 6, fld w 9 6, bitAt w 8, fld w 5 3⟩)
/-- WLD (R169): its fixed bits checked and its fields read. -/
def rdWld (w : Nat) : Option Instr := keep (w / 2 ^ 28 % 2 ^ 4 == 1 && w / 2 ^ 0 % 2 ^ 7 == 0) (.wld ⟨fld w 18 10, fld w 12 6, bitAt w 11, fld w 7 4⟩)
/-- BEAT (R170): its fixed bits checked and its fields read. -/
def rdBeat (w : Nat) : Option Instr := keep (w / 2 ^ 28 % 2 ^ 4 == 2 && w / 2 ^ 0 % 2 ^ 9 == 0) (.beat ⟨fld w 26 2, fld w 24 2, fld w 20 4, fld w 16 4, bitAt w 15, bitAt w 14, bitAt w 13, fld w 9 4⟩)
/-- DRAIN (R176): its fixed bits checked and its fields read. -/
def rdDrain (w : Nat) : Option Instr := keep (w / 2 ^ 28 % 2 ^ 4 == 3 && w / 2 ^ 0 % 2 ^ 10 == 0) (.drain ⟨fld w 26 2, fld w 20 6, fld w 14 6, fld w 10 4⟩)
/-- ZCLR (R177): its fixed bits checked and its fields read. -/
def rdZclr (w : Nat) : Option Instr := keep (w / 2 ^ 28 % 2 ^ 4 == 4 && w / 2 ^ 0 % 2 ^ 26 == 0) (.zclr ⟨fld w 26 2⟩)
/-- ZROT (R177): its fixed bits checked and its fields read. -/
def rdZrot (w : Nat) : Option Instr := keep (w / 2 ^ 28 % 2 ^ 4 == 5 && w / 2 ^ 0 % 2 ^ 20 == 0) (.zrot ⟨fld w 26 2, fld w 20 6⟩)
/-- ZSPILL (R179): its fixed bits checked and its fields read. -/
def rdZspill (w : Nat) : Option Instr := keep (w / 2 ^ 28 % 2 ^ 4 == 6 && w / 2 ^ 0 % 2 ^ 22 == 0) (.zspill ⟨fld w 26 2, fld w 22 4⟩)
/-- ZFILL (R179): its fixed bits checked and its fields read. -/
def rdZfill (w : Nat) : Option Instr := keep (w / 2 ^ 28 % 2 ^ 4 == 7 && w / 2 ^ 0 % 2 ^ 22 == 0) (.zfill ⟨fld w 26 2, fld w 22 4⟩)
/-- CPY (R260): its fixed bits checked and its fields read. -/
def rdCpy (w : Nat) : Option Instr := keep (w / 2 ^ 27 % 2 ^ 5 == 1 && w / 2 ^ 0 % 2 ^ 16 == 0) (.cpy ⟨fld w 23 4, fld w 17 6, bitAt w 16⟩)
/-- CPYW (R261): its fixed bits checked and its fields read. -/
def rdCpyw (w : Nat) : Option Instr := keep (w / 2 ^ 27 % 2 ^ 5 == 2 && w / 2 ^ 0 % 2 ^ 16 == 0) (.cpyw ⟨fld w 23 4, fld w 17 6, bitAt w 16⟩)
/-- TQPUSH (R180): its fixed bits checked and its fields read. -/
def rdTqpush (w : Nat) : Option Instr := keep (w / 2 ^ 27 % 2 ^ 5 == 3 && w / 2 ^ 23 % 2 ^ 4 == 0 && w / 2 ^ 0 % 2 ^ 16 == 0) (.tqpush ⟨fld w 17 6, bitAt w 16⟩)
/-- TQPOP (R180): its fixed bits checked and its fields read. -/
def rdTqpop (w : Nat) : Option Instr := keep (w / 2 ^ 27 % 2 ^ 5 == 4 && w / 2 ^ 23 % 2 ^ 4 == 0 && w / 2 ^ 0 % 2 ^ 16 == 0) (.tqpop ⟨fld w 17 6, bitAt w 16⟩)
/-- RKGATH (R263): its fixed bits checked and its fields read. -/
def rdRkgath (w : Nat) : Option Instr := keep (w / 2 ^ 27 % 2 ^ 5 == 5 && w / 2 ^ 0 % 2 ^ 16 == 0) (.rkgath ⟨fld w 23 4, fld w 17 6, bitAt w 16⟩)
/-- RKSEG (R264): its fixed bits checked and its fields read. -/
def rdRkseg (w : Nat) : Option Instr := keep (w / 2 ^ 27 % 2 ^ 5 == 6 && w / 2 ^ 0 % 2 ^ 16 == 0) (.rkseg ⟨fld w 23 4, fld w 17 6, bitAt w 16⟩)
/-- RILL (R267): its fixed bits checked and its fields read. -/
def rdRill (w : Nat) : Option Instr := keep (w / 2 ^ 27 % 2 ^ 5 == 7 && w / 2 ^ 0 % 2 ^ 16 == 0) (.rill ⟨fld w 23 4, fld w 17 6, bitAt w 16⟩)
/-- CFL_AR (R270): its fixed bits checked and its fields read. -/
def rdCflAr (w : Nat) : Option Instr := keep (w / 2 ^ 27 % 2 ^ 5 == 8 && w / 2 ^ 0 % 2 ^ 16 == 0) (.cflAr ⟨fld w 23 4, fld w 17 6, bitAt w 16⟩)
/-- CFL_RS (R270): its fixed bits checked and its fields read. -/
def rdCflRs (w : Nat) : Option Instr := keep (w / 2 ^ 27 % 2 ^ 5 == 9 && w / 2 ^ 0 % 2 ^ 16 == 0) (.cflRs ⟨fld w 23 4, fld w 17 6, bitAt w 16⟩)
/-- CFL_AG (R270): its fixed bits checked and its fields read. -/
def rdCflAg (w : Nat) : Option Instr := keep (w / 2 ^ 27 % 2 ^ 5 == 10 && w / 2 ^ 0 % 2 ^ 16 == 0) (.cflAg ⟨fld w 23 4, fld w 17 6, bitAt w 16⟩)
/-- CFL_BC (R270): its fixed bits checked and its fields read. -/
def rdCflBc (w : Nat) : Option Instr := keep (w / 2 ^ 27 % 2 ^ 5 == 11 && w / 2 ^ 0 % 2 ^ 16 == 0) (.cflBc ⟨fld w 23 4, fld w 17 6, bitAt w 16⟩)
/-- SEND (R276): its fixed bits checked and its fields read. -/
def rdSend (w : Nat) : Option Instr := keep (w / 2 ^ 27 % 2 ^ 5 == 12 && w / 2 ^ 0 % 2 ^ 16 == 0) (.send ⟨fld w 23 4, fld w 17 6, bitAt w 16⟩)
/-- RECV (R276): its fixed bits checked and its fields read. -/
def rdRecv (w : Nat) : Option Instr := keep (w / 2 ^ 27 % 2 ^ 5 == 13 && w / 2 ^ 0 % 2 ^ 16 == 0) (.recv ⟨fld w 23 4, fld w 17 6, bitAt w 16⟩)
/-- PANCFG (R235): its fixed bits checked and its fields read. -/
def rdPancfg (w : Nat) : Option Instr := keep (w / 2 ^ 27 % 2 ^ 5 == 14 && w / 2 ^ 0 % 2 ^ 16 == 0) (.pancfg ⟨fld w 23 4, fld w 17 6, bitAt w 16⟩)
/-- TICK (R237): its fixed bits checked and its fields read. -/
def rdTick (w : Nat) : Option Instr := keep (w / 2 ^ 27 % 2 ^ 5 == 15 && w / 2 ^ 0 % 2 ^ 16 == 0) (.tick ⟨fld w 23 4, fld w 17 6, bitAt w 16⟩)
/-- FOOT (R230): its fixed bits checked and its fields read. -/
def rdFoot (w : Nat) : Option Instr := keep (w / 2 ^ 27 % 2 ^ 5 == 16 && w / 2 ^ 23 % 2 ^ 4 == 0 && w / 2 ^ 0 % 2 ^ 5 == 0) (.foot ⟨fld w 17 6, bitAt w 16, fld w 10 6, bitAt w 9, fld w 6 3, bitAt w 5⟩)
/-- JWAIT (R256): its fixed bits checked and its fields read. -/
def rdJwait (w : Nat) : Option Instr := keep (w / 2 ^ 27 % 2 ^ 5 == 17 && w / 2 ^ 0 % 2 ^ 23 == 0) (.jwait ⟨fld w 23 4⟩)
/-- JPOLL (R256): its fixed bits checked and its fields read. -/
def rdJpoll (w : Nat) : Option Instr := keep (w / 2 ^ 27 % 2 ^ 5 == 18 && w / 2 ^ 9 % 2 ^ 14 == 0 && w / 2 ^ 0 % 2 ^ 4 == 0) (.jpoll ⟨fld w 23 4, fld w 4 5⟩)
/-- SPAWN (R90): its fixed bits checked and its fields read. -/
def rdSpawn (w : Nat) : Option Instr := keep (w / 2 ^ 27 % 2 ^ 5 == 19 && w / 2 ^ 0 % 2 ^ 16 == 0) (.spawn ⟨fld w 23 4, fld w 17 6, bitAt w 16⟩)
/-- JOIN (R91): its fixed bits checked and its fields read. -/
def rdJoin (w : Nat) : Option Instr := keep (w / 2 ^ 27 % 2 ^ 5 == 20 && w / 2 ^ 23 % 2 ^ 4 == 0 && w / 2 ^ 0 % 2 ^ 10 == 0) (.join ⟨fld w 17 6, bitAt w 16, fld w 10 6⟩)
/-- LEAVE (R92): its fixed bits checked and its fields read. -/
def rdLeave (w : Nat) : Option Instr := keep (w / 2 ^ 27 % 2 ^ 5 == 21 && w / 2 ^ 23 % 2 ^ 4 == 0 && w / 2 ^ 0 % 2 ^ 16 == 0) (.leave ⟨fld w 17 6, bitAt w 16⟩)
/-- BAR (R93): its fixed bits checked and its fields read. -/
def rdBar (w : Nat) : Option Instr := keep (w / 2 ^ 27 % 2 ^ 5 == 22 && w / 2 ^ 23 % 2 ^ 4 == 0 && w / 2 ^ 0 % 2 ^ 16 == 0) (.bar ⟨fld w 17 6, bitAt w 16⟩)
/-- TREE (R80): its fixed bits checked and its fields read. -/
def rdTree (w : Nat) : Option Instr := keep (w / 2 ^ 45 % 2 ^ 3 == 1 && w / 2 ^ 0 % 2 ^ 2 == 0) (.tree ⟨fld w 41 4, fld w 35 6, fld w 29 6, fld w 23 6, fld w 17 6, fld w 14 3, fld w 11 3, fld w 8 3, fld w 5 3, fld w 2 3⟩)
/-- LOOP (R86): its fixed bits checked and its fields read. -/
def rdLoop (w : Nat) : Option Instr := keep (w / 2 ^ 45 % 2 ^ 3 == 2 && w / 2 ^ 0 % 2 ^ 1 == 0) (.loop ⟨fld w 33 12, fld w 1 32⟩)
/-- LOOPR (R86): its fixed bits checked and its fields read. -/
def rdLoopr (w : Nat) : Option Instr := keep (w / 2 ^ 45 % 2 ^ 3 == 3 && w / 2 ^ 0 % 2 ^ 26 == 0) (.loopr ⟨fld w 33 12, fld w 27 6, bitAt w 26⟩)
/-- CALL (R83): its fixed bits checked and its fields read. -/
def rdCall (w : Nat) : Option Instr := keep (w / 2 ^ 45 % 2 ^ 3 == 0 && w / 2 ^ 41 % 2 ^ 4 == 1 && w / 2 ^ 0 % 2 ^ 35 == 0) (.call ⟨fld w 38 3, fld w 35 3⟩)
/-- RET (R83): its fixed bits checked and its fields read. -/
def rdRet (w : Nat) : Option Instr := keep (w / 2 ^ 45 % 2 ^ 3 == 0 && w / 2 ^ 41 % 2 ^ 4 == 2 && w / 2 ^ 0 % 2 ^ 38 == 0) (.ret ⟨fld w 38 3⟩)
/-- SUSPEND (R84): its fixed bits checked and its fields read. -/
def rdSuspend (w : Nat) : Option Instr := keep (w / 2 ^ 45 % 2 ^ 3 == 0 && w / 2 ^ 41 % 2 ^ 4 == 3 && w / 2 ^ 0 % 2 ^ 38 == 0) (.suspend ⟨fld w 38 3⟩)
/-- HALT (R85): its fixed bits checked and its fields read. -/
def rdHalt (w : Nat) : Option Instr := keep (w / 2 ^ 45 % 2 ^ 3 == 0 && w / 2 ^ 41 % 2 ^ 4 == 4 && w / 2 ^ 0 % 2 ^ 41 == 0) .halt
/-- TRAP (R323): its fixed bits checked and its fields read. -/
def rdTrap (w : Nat) : Option Instr := keep (w / 2 ^ 45 % 2 ^ 3 == 0 && w / 2 ^ 41 % 2 ^ 4 == 5 && w / 2 ^ 0 % 2 ^ 33 == 0) (.trap ⟨fld w 33 8⟩)
/-- RTE (R321): its fixed bits checked and its fields read. -/
def rdRte (w : Nat) : Option Instr := keep (w / 2 ^ 45 % 2 ^ 3 == 0 && w / 2 ^ 41 % 2 ^ 4 == 6 && w / 2 ^ 0 % 2 ^ 41 == 0) .rte
/-- REPEAT (R25): its fixed bits checked and its fields read. -/
def rdRepeat (w : Nat) : Option Instr := keep (w / 2 ^ 8 % 2 ^ 8 == 240) (.repeat ⟨fld w 0 8⟩)

/-- The A slot's map (R41 to R52): a reserved word gives none. -/
def decA (w : Nat) : Option Instr :=
  match w / 2 ^ 26 % 2 ^ 6 with
  | 1 => match w / 2 ^ 0 % 2 ^ 6 with
    | 0 => rdAdd w
    | 1 => rdSub w
    | 2 => rdMul w
    | 3 => rdMulh w
    | 4 => rdMulhu w
    | 5 => rdDiv w
    | 6 => rdDivu w
    | 7 => rdRem w
    | 8 => rdRemu w
    | 9 => rdAnd w
    | 10 => rdOr w
    | 11 => rdXor w
    | 12 => rdAndn w
    | 13 => rdShl w
    | 14 => rdShr w
    | 15 => rdSar w
    | 16 => rdRol w
    | 17 => rdMin w
    | 18 => rdMax w
    | 19 => rdMinu w
    | 20 => rdMaxu w
    | 21 => rdClmull w
    | 22 => rdClmulh w
    | 23 => rdClz w
    | 24 => rdCtz w
    | 25 => rdPopc w
    | 26 => rdMov w
    | 27 => rdSextI8 w
    | 28 => rdSextI16 w
    | 29 => rdSextI32 w
    | 30 => rdZextI8 w
    | 31 => rdZextI16 w
    | 32 => rdZextI32 w
    | _ => none
  | 2 => rdSel w
  | 3 => rdAddi w
  | 4 => rdLea w
  | 5 => rdLi w
  | 6 => rdLih w
  | 7 => rdCmp w
  | 8 => rdCmpi w
  | 9 => match w / 2 ^ 7 % 2 ^ 2 with
    | 0 => rdPand w
    | 1 => rdPor w
    | 2 => rdPxor w
    | 3 => rdPandn w
    | _ => none
  | 10 => match w / 2 ^ 22 % 2 ^ 1 with
    | 0 => rdPrepLabel w
    | 1 => rdPrepReg w
    | _ => none
  | 11 => match w / 2 ^ 19 % 2 ^ 1 with
    | 1 => rdSetc w
    | _ => rdGetc w
  | _ => none

/-- The L slot's map (R41 to R52): a reserved word gives none. -/
def decL (w : Nat) : Option Instr :=
  match w / 2 ^ 28 % 2 ^ 4 with
  | 1 => rdLdl w
  | 2 => rdStl w
  | 3 => match w / 2 ^ 17 % 2 ^ 1 with
    | 0 => rdVldl w
    | 1 => rdVldlStream w
    | _ => none
  | 4 => match w / 2 ^ 17 % 2 ^ 1 with
    | 0 => rdVstl w
    | 1 => rdVstlStream w
    | _ => none
  | 5 => rdBind w
  | 6 => rdUnbind w
  | 7 => rdQskip w
  | 8 => rdQstat w
  | _ => none

/-- The G slot's map (R41 to R52): a reserved word gives none. -/
def decG (w : Nat) : Option Instr :=
  match w / 2 ^ 27 % 2 ^ 5 with
  | 1 => rdLdg w
  | 2 => rdStg w
  | 3 => rdVldg w
  | 4 => rdVstg w
  | 5 => rdVgath w
  | 6 => rdVscat w
  | 7 => match w / 2 ^ 23 % 2 ^ 4 with
    | 9 => rdAmoCas w
    | _ => rdAmo w
  | 8 => rdRadd w
  | 9 => rdRowadd w
  | 10 => rdRowld w
  | 11 => match w / 2 ^ 26 % 2 ^ 1 with
    | 0 => rdPsmpScalar w
    | 1 => rdPsmpVector w
    | _ => none
  | 12 => match w / 2 ^ 26 % 2 ^ 1 with
    | 0 => rdPtapScalar w
    | 1 => rdPtapVector w
    | _ => none
  | 13 => rdPtaps w
  | 14 => match w / 2 ^ 26 % 2 ^ 1 with
    | 0 => rdRtapScalar w
    | 1 => rdRtapVector w
    | _ => none
  | 15 => rdPhase w
  | 16 => rdPref w
  | _ => none

/-- The V slot's map (R41 to R52): a reserved word gives none. -/
def decV (w : Nat) : Option Instr :=
  match w / 2 ^ 30 % 2 ^ 6 with
  | 1 => rdVadd w
  | 2 => rdVsub w
  | 3 => rdVmul w
  | 4 => rdVmulh w
  | 5 => rdVmad w
  | 6 => rdVand w
  | 7 => rdVor w
  | 8 => rdVxor w
  | 9 => rdVshl w
  | 10 => rdVshr w
  | 11 => rdVsar w
  | 12 => rdVmin w
  | 13 => rdVmax w
  | 14 => rdVabs w
  | 15 => rdVwacc w
  | 16 => rdVclmulLo w
  | 17 => rdVclmulHi w
  | 18 => rdVpopc w
  | 19 => rdVfadd w
  | 20 => rdVfsub w
  | 21 => rdVfmul w
  | 22 => rdVfma w
  | 23 => rdVfmin w
  | 24 => rdVfmax w
  | 25 => rdVfabs w
  | 26 => rdVfneg w
  | 27 => rdVfcmp w
  | 28 => rdVmcmp w
  | 29 => rdMand w
  | 30 => rdMor w
  | 31 => rdMnot w
  | 32 => rdVexp2 w
  | 33 => rdVlog2 w
  | 34 => rdVrcp w
  | 35 => rdVrsq w
  | 36 => rdVsqrt w
  | 37 => rdVcvt w
  | 38 => rdVscale w
  | 39 => rdVpack w
  | 40 => rdVunpack w
  | 41 => rdVtag w
  | 42 => rdVred w
  | 43 => rdVscan w
  | 44 => rdVsplat w
  | 45 => rdVmovs w
  | 46 => rdVsel w
  | 47 => rdVlane w
  | 48 => rdVchkf w
  | 49 => rdLsupd w
  | _ => none

/-- The X slot's map (R41 to R52): a reserved word gives none. -/
def decX (w : Nat) : Option Instr :=
  match w / 2 ^ 21 % 2 ^ 3 with
  | 1 => rdXperm w
  | 2 => rdXrot w
  | 3 => rdXbcast w
  | 4 => rdXshuf w
  | 5 => rdXrev w
  | 6 => rdXcmpr w
  | _ => none

/-- The T slot's map (R41 to R52): a reserved word gives none. -/
def decT (w : Nat) : Option Instr :=
  match w / 2 ^ 28 % 2 ^ 4 with
  | 1 => rdWld w
  | 2 => rdBeat w
  | 3 => rdDrain w
  | 4 => rdZclr w
  | 5 => rdZrot w
  | 6 => rdZspill w
  | 7 => rdZfill w
  | _ => none

/-- The E slot's map (R41 to R52): a reserved word gives none. -/
def decE (w : Nat) : Option Instr :=
  match w / 2 ^ 27 % 2 ^ 5 with
  | 1 => rdCpy w
  | 2 => rdCpyw w
  | 3 => rdTqpush w
  | 4 => rdTqpop w
  | 5 => rdRkgath w
  | 6 => rdRkseg w
  | 7 => rdRill w
  | 8 => rdCflAr w
  | 9 => rdCflRs w
  | 10 => rdCflAg w
  | 11 => rdCflBc w
  | 12 => rdSend w
  | 13 => rdRecv w
  | 14 => rdPancfg w
  | 15 => rdTick w
  | 16 => rdFoot w
  | 17 => rdJwait w
  | 18 => rdJpoll w
  | 19 => rdSpawn w
  | 20 => rdJoin w
  | 21 => rdLeave w
  | 22 => rdBar w
  | _ => none

/-- The B slot's map (R41 to R52): a reserved word gives none. -/
def decB (w : Nat) : Option Instr :=
  match w / 2 ^ 45 % 2 ^ 3 with
  | 0 => match w / 2 ^ 41 % 2 ^ 4 with
    | 1 => rdCall w
    | 2 => rdRet w
    | 3 => rdSuspend w
    | 4 => rdHalt w
    | 5 => rdTrap w
    | 6 => rdRte w
    | _ => none
  | 1 => rdTree w
  | 2 => rdLoop w
  | 3 => rdLoopr w
  | _ => none

/-- The REPEAT prefix halfword (R19). -/
def decC (w : Nat) : Option Instr := rdRepeat w

/-- The decoder of a slot class. -/
def decodeClass : SlotClass → Nat → Option Instr
  | .a, w => decA w | .l, w => decL w | .g, w => decG w | .v, w => decV w | .x, w => decX w
  | .t, w => decT w | .e, w => decE w | .b, w => decB w | .c, w => decC w

/-! The bundle (R26 to R28). -/

/-- The lowest bit of slot n in the bundle (R26). -/
def slotLo : Nat → Nat
  | 0 => 48 | 1 => 80 | 2 => 112 | 3 => 144 | 4 => 176 | 5 => 212 | 6 => 248 | 7 => 272 | 8 => 304 | _ => 336

/-- The width of slot n (R26). -/
def slotWidth : Nat → Nat
  | 4 => 36 | 5 => 36 | 6 => 24 | 9 => 48 | _ => 32

/-- The class of slot n (R26). -/
def slotClass : Nat → SlotClass
  | 0 => .a | 1 => .a | 2 => .l | 3 => .g | 4 => .v | 5 => .v | 6 => .x | 7 => .t | 8 => .e | _ => .b

/-- The word in slot n of a bundle (R26). -/
def slotWord (b : Bundle) (n : Nat) : Nat := b.toNat / 2 ^ slotLo n % 2 ^ slotWidth n

/-- What a slot holds (R39). -/
inductive SlotHolds where
  | noop
  | ins (i : Instr)
  | reserved
  deriving DecidableEq, Repr

/-- What slot n of a bundle holds: all bits zero is a no-op, a listed encoding an instruction, anything else is
reserved (R28, R39). -/
def slotHolds (b : Bundle) (n : Nat) : SlotHolds :=
  let w := slotWord b n
  if w = 0 then .noop else match decodeClass (slotClass n) w with
    | some i => .ins i
    | none => .reserved

/-- The path tag of slot n; the B slot counts as always live (R27, R30, R36). -/
def slotTag (b : Bundle) (n : Nat) : Nat := if n < 9 then b.toNat / 2 ^ (5 * n) % 32 else 31

/-- Slot n is live on leaf k (R30). -/
def slotLive (b : Bundle) (n k : Nat) : Bool := slotTag b n / 2 ^ k % 2 == 1

/-- The SAFE flag of the header (R27). -/
def bundleSafe (b : Bundle) : Bool := bitAt b.toNat 45

/-- The reserved header bits are zero (R24, R27). -/
def headerOk (b : Bundle) : Bool := b.toNat / 2 ^ 46 % 4 == 0

/-- A bundle with the given header and slot words (R26). -/
def mkBundle (hdr : Nat) (ws : List (Nat × Nat)) : Bundle :=
  BitVec.ofNat 384 (hdr + sumNat (ws.map (fun p => p.2 * 2 ^ slotLo p.1)))

/-- The header that isas writes for slots that are all live (R27, R28). -/
def liveHeader : Nat := 2 ^ 45 - 1

/-! The code stream (R19 to R25). -/

/-- What the core finds at a code address: the bundle, the REPEAT count field where a prefix stands, and the unit's
length in halfwords (R20); none is a unit that traps ILLEGAL_CODE (R24). -/
structure CodeUnit where
  bundle : Bundle
  rep : Option (BitVec 8)
  len : Nat
  deriving DecidableEq, Repr

/-- The literal bundle in the next 24 halfwords, the first in bits [15:0] (R21). -/
def litBundle : Nat → List (BitVec 16) → Option Nat
  | 0, _ => some 0
  | _ + 1, [] => none
  | n + 1, h :: r => (litBundle n r).map (fun x => h.toNat + x * 65536)

/-- The bundle that an index or LIT halfword names, and the halfwords it takes (R19, R22). -/
def unitBody (dict : List Bundle) : List (BitVec 16) → Option (Bundle × Nat)
  | [] => none
  | h :: r =>
    if h.toNat < 0x2000 then (dict[h.toNat]?).map (fun b => (b, 1))
    else if h = 0xFFFF then (litBundle 24 r).map (fun x => (BitVec.ofNat 384 x, 25))
    else none

/-- The code unit that begins with the given halfwords (R19, R20, R24). A REPEAT governs only a bundle whose B slot is a
no-op, and a nonzero reserved header bit makes the unit illegal. -/
def unitOf (dict : List Bundle) (hs : List (BitVec 16)) : Option CodeUnit :=
  match hs with
  | [] => none
  | h :: r =>
    if 0xF000 ≤ h.toNat && h.toNat ≤ 0xF0FF then
      match decC h.toNat, unitBody dict r with
      | some (.repeat o), some (b, n) =>
        if headerOk b && slotWord b 9 == 0 then some ⟨b, some o.n, n + 1⟩ else none
      | _, _ => none
    else match unitBody dict (h :: r) with
      | some (b, n) => if headerOk b then some ⟨b, none, n⟩ else none
      | none => none

/-- The code unit at a code address of a segment (R20, R24): a unit that begins at or beyond the segment's end, or runs
past it, is illegal. -/
def unitAt (dict : List Bundle) (code : List (BitVec 16)) (a : CAddr) : Option CodeUnit :=
  unitOf dict (code.drop a.toNat)

/-! The encoder. -/

/-- The word of ADD (R71). -/
def encAdd (o : AluB) : Nat := 1 * 2 ^ 26 + put 20 o.d + put 14 o.a + putB 13 o.wa + put 7 o.b + putB 6 o.wb
/-- The word of SUB (R71). -/
def encSub (o : AluB) : Nat := 1 * 2 ^ 26 + put 20 o.d + put 14 o.a + putB 13 o.wa + put 7 o.b + putB 6 o.wb + 1 * 2 ^ 0
/-- The word of MUL (R71). -/
def encMul (o : AluB) : Nat := 1 * 2 ^ 26 + put 20 o.d + put 14 o.a + putB 13 o.wa + put 7 o.b + putB 6 o.wb + 2 * 2 ^ 0
/-- The word of MULH (R71). -/
def encMulh (o : AluB) : Nat := 1 * 2 ^ 26 + put 20 o.d + put 14 o.a + putB 13 o.wa + put 7 o.b + putB 6 o.wb + 3 * 2 ^ 0
/-- The word of MULHU (R71). -/
def encMulhu (o : AluB) : Nat := 1 * 2 ^ 26 + put 20 o.d + put 14 o.a + putB 13 o.wa + put 7 o.b + putB 6 o.wb + 4 * 2 ^ 0
/-- The word of DIV (R72). -/
def encDiv (o : AluB) : Nat := 1 * 2 ^ 26 + put 20 o.d + put 14 o.a + putB 13 o.wa + put 7 o.b + putB 6 o.wb + 5 * 2 ^ 0
/-- The word of DIVU (R72). -/
def encDivu (o : AluB) : Nat := 1 * 2 ^ 26 + put 20 o.d + put 14 o.a + putB 13 o.wa + put 7 o.b + putB 6 o.wb + 6 * 2 ^ 0
/-- The word of REM (R72). -/
def encRem (o : AluB) : Nat := 1 * 2 ^ 26 + put 20 o.d + put 14 o.a + putB 13 o.wa + put 7 o.b + putB 6 o.wb + 7 * 2 ^ 0
/-- The word of REMU (R72). -/
def encRemu (o : AluB) : Nat := 1 * 2 ^ 26 + put 20 o.d + put 14 o.a + putB 13 o.wa + put 7 o.b + putB 6 o.wb + 8 * 2 ^ 0
/-- The word of AND (R71). -/
def encAnd (o : AluB) : Nat := 1 * 2 ^ 26 + put 20 o.d + put 14 o.a + putB 13 o.wa + put 7 o.b + putB 6 o.wb + 9 * 2 ^ 0
/-- The word of OR (R71). -/
def encOr (o : AluB) : Nat := 1 * 2 ^ 26 + put 20 o.d + put 14 o.a + putB 13 o.wa + put 7 o.b + putB 6 o.wb + 10 * 2 ^ 0
/-- The word of XOR (R71). -/
def encXor (o : AluB) : Nat := 1 * 2 ^ 26 + put 20 o.d + put 14 o.a + putB 13 o.wa + put 7 o.b + putB 6 o.wb + 11 * 2 ^ 0
/-- The word of ANDN (R71). -/
def encAndn (o : AluB) : Nat := 1 * 2 ^ 26 + put 20 o.d + put 14 o.a + putB 13 o.wa + put 7 o.b + putB 6 o.wb + 12 * 2 ^ 0
/-- The word of SHL (R71). -/
def encShl (o : AluB) : Nat := 1 * 2 ^ 26 + put 20 o.d + put 14 o.a + putB 13 o.wa + put 7 o.b + putB 6 o.wb + 13 * 2 ^ 0
/-- The word of SHR (R71). -/
def encShr (o : AluB) : Nat := 1 * 2 ^ 26 + put 20 o.d + put 14 o.a + putB 13 o.wa + put 7 o.b + putB 6 o.wb + 14 * 2 ^ 0
/-- The word of SAR (R71). -/
def encSar (o : AluB) : Nat := 1 * 2 ^ 26 + put 20 o.d + put 14 o.a + putB 13 o.wa + put 7 o.b + putB 6 o.wb + 15 * 2 ^ 0
/-- The word of ROL (R71). -/
def encRol (o : AluB) : Nat := 1 * 2 ^ 26 + put 20 o.d + put 14 o.a + putB 13 o.wa + put 7 o.b + putB 6 o.wb + 16 * 2 ^ 0
/-- The word of MIN (R71). -/
def encMin (o : AluB) : Nat := 1 * 2 ^ 26 + put 20 o.d + put 14 o.a + putB 13 o.wa + put 7 o.b + putB 6 o.wb + 17 * 2 ^ 0
/-- The word of MAX (R71). -/
def encMax (o : AluB) : Nat := 1 * 2 ^ 26 + put 20 o.d + put 14 o.a + putB 13 o.wa + put 7 o.b + putB 6 o.wb + 18 * 2 ^ 0
/-- The word of MINU (R71). -/
def encMinu (o : AluB) : Nat := 1 * 2 ^ 26 + put 20 o.d + put 14 o.a + putB 13 o.wa + put 7 o.b + putB 6 o.wb + 19 * 2 ^ 0
/-- The word of MAXU (R71). -/
def encMaxu (o : AluB) : Nat := 1 * 2 ^ 26 + put 20 o.d + put 14 o.a + putB 13 o.wa + put 7 o.b + putB 6 o.wb + 20 * 2 ^ 0
/-- The word of CLMULL (R73). -/
def encClmull (o : AluB) : Nat := 1 * 2 ^ 26 + put 20 o.d + put 14 o.a + putB 13 o.wa + put 7 o.b + putB 6 o.wb + 21 * 2 ^ 0
/-- The word of CLMULH (R73). -/
def encClmulh (o : AluB) : Nat := 1 * 2 ^ 26 + put 20 o.d + put 14 o.a + putB 13 o.wa + put 7 o.b + putB 6 o.wb + 22 * 2 ^ 0
/-- The word of CLZ (R71). -/
def encClz (o : AluU) : Nat := 1 * 2 ^ 26 + put 20 o.d + put 14 o.a + putB 13 o.wa + 23 * 2 ^ 0
/-- The word of CTZ (R71). -/
def encCtz (o : AluU) : Nat := 1 * 2 ^ 26 + put 20 o.d + put 14 o.a + putB 13 o.wa + 24 * 2 ^ 0
/-- The word of POPC (R71). -/
def encPopc (o : AluU) : Nat := 1 * 2 ^ 26 + put 20 o.d + put 14 o.a + putB 13 o.wa + 25 * 2 ^ 0
/-- The word of MOV (R71). -/
def encMov (o : AluU) : Nat := 1 * 2 ^ 26 + put 20 o.d + put 14 o.a + putB 13 o.wa + 26 * 2 ^ 0
/-- The word of SEXT_I8 (R71). -/
def encSextI8 (o : AluU) : Nat := 1 * 2 ^ 26 + put 20 o.d + put 14 o.a + putB 13 o.wa + 27 * 2 ^ 0
/-- The word of SEXT_I16 (R71). -/
def encSextI16 (o : AluU) : Nat := 1 * 2 ^ 26 + put 20 o.d + put 14 o.a + putB 13 o.wa + 28 * 2 ^ 0
/-- The word of SEXT_I32 (R71). -/
def encSextI32 (o : AluU) : Nat := 1 * 2 ^ 26 + put 20 o.d + put 14 o.a + putB 13 o.wa + 29 * 2 ^ 0
/-- The word of ZEXT_I8 (R71). -/
def encZextI8 (o : AluU) : Nat := 1 * 2 ^ 26 + put 20 o.d + put 14 o.a + putB 13 o.wa + 30 * 2 ^ 0
/-- The word of ZEXT_I16 (R71). -/
def encZextI16 (o : AluU) : Nat := 1 * 2 ^ 26 + put 20 o.d + put 14 o.a + putB 13 o.wa + 31 * 2 ^ 0
/-- The word of ZEXT_I32 (R71). -/
def encZextI32 (o : AluU) : Nat := 1 * 2 ^ 26 + put 20 o.d + put 14 o.a + putB 13 o.wa + 32 * 2 ^ 0
/-- The word of SEL (R74). -/
def encSel (o : SelF) : Nat := 2 * 2 ^ 26 + put 20 o.d + put 14 o.a + putB 13 o.wa + put 7 o.b + putB 6 o.wb + put 1 o.p
/-- The word of ADDI (R74). -/
def encAddi (o : AddiF) : Nat := 3 * 2 ^ 26 + put 20 o.d + put 14 o.a + putB 13 o.wa + put 0 o.imm
/-- The word of LEA (R74). -/
def encLea (o : LeaF) : Nat := 4 * 2 ^ 26 + put 20 o.d + put 14 o.a + putB 13 o.wa + put 7 o.b + putB 6 o.wb + put 3 o.k
/-- The word of LI (R74). -/
def encLi (o : LiF) : Nat := 5 * 2 ^ 26 + put 20 o.d + put 0 o.imm
/-- The word of LIH (R74). -/
def encLih (o : LihF) : Nat := 6 * 2 ^ 26 + put 20 o.d + put 18 o.h + put 2 o.imm + putB 1 o.wd
/-- The word of CMP (R75). -/
def encCmp (o : CmpF) : Nat := 7 * 2 ^ 26 + put 21 o.p + put 15 o.a + putB 14 o.wa + put 8 o.b + putB 7 o.wb + put 3 o.cc
/-- The word of CMPI (R75). -/
def encCmpi (o : CmpiF) : Nat := 8 * 2 ^ 26 + put 21 o.p + put 15 o.a + putB 14 o.wa + put 10 o.cc + put 0 o.imm
/-- The word of PAND (R76). -/
def encPand (o : PlogF) : Nat := 9 * 2 ^ 26 + put 21 o.d + put 16 o.a + putB 15 o.na + put 10 o.b + putB 9 o.nb
/-- The word of POR (R76). -/
def encPor (o : PlogF) : Nat := 9 * 2 ^ 26 + put 21 o.d + put 16 o.a + putB 15 o.na + put 10 o.b + putB 9 o.nb + 1 * 2 ^ 7
/-- The word of PXOR (R76). -/
def encPxor (o : PlogF) : Nat := 9 * 2 ^ 26 + put 21 o.d + put 16 o.a + putB 15 o.na + put 10 o.b + putB 9 o.nb + 2 * 2 ^ 7
/-- The word of PANDN (R76). -/
def encPandn (o : PlogF) : Nat := 9 * 2 ^ 26 + put 21 o.d + put 16 o.a + putB 15 o.na + put 10 o.b + putB 9 o.nb + 3 * 2 ^ 7
/-- The word of PREP_LABEL (R78). -/
def encPrepLabel (o : PrepLF) : Nat := 10 * 2 ^ 26 + put 23 o.b + put 0 o.off
/-- The word of PREP_REG (R78). -/
def encPrepReg (o : PrepRF) : Nat := 10 * 2 ^ 26 + put 23 o.b + 1 * 2 ^ 22 + put 16 o.a + putB 15 o.wa
/-- The word of GETC (R77). -/
def encGetc (o : GetcF) : Nat := 11 * 2 ^ 26 + put 20 o.d + put 8 o.c
/-- The word of SETC (R77). -/
def encSetc (o : SetcF) : Nat := 11 * 2 ^ 26 + put 20 o.a + 1 * 2 ^ 19 + putB 18 o.wa + put 8 o.c
/-- The word of LDL (R202). -/
def encLdl (o : LdF12) : Nat := 1 * 2 ^ 28 + put 26 o.z + put 20 o.d + putB 19 o.u + put 13 o.base + putB 12 o.wb + put 0 o.off
/-- The word of STL (R202). -/
def encStl (o : StF12) : Nat := 2 * 2 ^ 28 + put 26 o.z + put 20 o.v + putB 19 o.wv + put 13 o.base + putB 12 o.wb + put 0 o.off
/-- The word of VLDL (R203). -/
def encVldl (o : VldlF) : Nat := 3 * 2 ^ 28 + put 24 o.t + put 18 o.d + put 11 o.base + putB 10 o.wb + put 0 o.off
/-- The word of VLDL_STREAM (R101). -/
def encVldlStream (o : VldlQF) : Nat := 3 * 2 ^ 28 + put 24 o.t + put 18 o.d + 1 * 2 ^ 17 + put 11 o.q
/-- The word of VSTL (R203). -/
def encVstl (o : VstlF) : Nat := 4 * 2 ^ 28 + put 25 o.m + putB 24 o.wv + put 18 o.v + put 11 o.base + putB 10 o.wb + put 0 o.off
/-- The word of VSTL_STREAM (R102). -/
def encVstlStream (o : VstlQF) : Nat := 4 * 2 ^ 28 + put 25 o.m + putB 24 o.wv + put 18 o.v + 1 * 2 ^ 17 + put 11 o.q
/-- The word of BIND (R97). -/
def encBind (o : BindF) : Nat := 5 * 2 ^ 28 + put 24 o.q + put 18 o.a + putB 17 o.wa + putB 16 o.wr
/-- The word of UNBIND (R98). -/
def encUnbind (o : UnbindF) : Nat := 6 * 2 ^ 28 + put 24 o.q
/-- The word of QSKIP (R99). -/
def encQskip (o : QskipF) : Nat := 7 * 2 ^ 28 + put 24 o.q + put 18 o.a + putB 17 o.wa
/-- The word of QSTAT (R100). -/
def encQstat (o : QstatF) : Nat := 8 * 2 ^ 28 + put 24 o.q + put 18 o.d
/-- The word of LDG (R206). -/
def encLdg (o : LdF11) : Nat := 1 * 2 ^ 27 + put 25 o.z + putB 24 o.u + put 18 o.d + put 12 o.base + putB 11 o.wb + put 0 o.off
/-- The word of STG (R206). -/
def encStg (o : StF11) : Nat := 2 * 2 ^ 27 + put 25 o.z + putB 24 o.wv + put 18 o.v + put 12 o.base + putB 11 o.wb + put 0 o.off
/-- The word of VLDG (R207). -/
def encVldg (o : VldgF) : Nat := 3 * 2 ^ 27 + put 23 o.t + put 17 o.d + put 11 o.base + putB 10 o.wb + put 7 o.m + put 0 o.off
/-- The word of VSTG (R207). -/
def encVstg (o : VstgF) : Nat := 4 * 2 ^ 27 + put 24 o.m + putB 23 o.wv + put 17 o.v + put 11 o.base + putB 10 o.wb + put 0 o.off
/-- The word of VGATH (R208). -/
def encVgath (o : VgathF) : Nat := 5 * 2 ^ 27 + put 23 o.t + put 17 o.d + put 11 o.base + putB 10 o.wb + put 4 o.i + putB 3 o.wi + put 0 o.m
/-- The word of VSCAT (R208). -/
def encVscat (o : VscatF) : Nat := 6 * 2 ^ 27 + put 24 o.m + putB 23 o.wv + put 17 o.v + put 11 o.base + putB 10 o.wb + put 4 o.i + putB 3 o.wi
/-- The word of AMO (R211). -/
def encAmo (o : AmoF) : Nat := 7 * 2 ^ 27 + put 23 o.fn + putB 22 o.wide + put 16 o.d + put 10 o.base + putB 9 o.wb + put 3 o.o + putB 2 o.wo
/-- The word of AMO_CAS (R211). -/
def encAmoCas (o : CasF) : Nat := 7 * 2 ^ 27 + 9 * 2 ^ 23 + putB 22 o.wide + put 16 o.d + put 10 o.base + putB 9 o.wb + put 3 o.o + putB 2 o.wo + putB 1 o.wd
/-- The word of RADD (R213). -/
def encRadd (o : RaddF) : Nat := 8 * 2 ^ 27 + put 23 o.fmt + put 20 o.op + put 14 o.v + putB 13 o.wv + put 7 o.base + putB 6 o.wb
/-- The word of ROWADD (R249). -/
def encRowadd (o : RowaddF) : Nat := 9 * 2 ^ 27 + put 21 o.v + putB 20 o.wv + put 14 o.base + putB 13 o.wb + put 9 o.n
/-- The word of ROWLD (R250). -/
def encRowld (o : RowldF) : Nat := 10 * 2 ^ 27 + put 21 o.d + put 14 o.base + putB 13 o.wb + put 9 o.n
/-- The word of PSMP_SCALAR (R239). -/
def encPsmpScalar (o : PsmpF) : Nat := 11 * 2 ^ 27 + put 20 o.v + putB 19 o.wv + put 13 o.base + putB 12 o.wb + put 0 o.off
/-- The word of PSMP_VECTOR (R239). -/
def encPsmpVector (o : PsmpF) : Nat := 11 * 2 ^ 27 + 1 * 2 ^ 26 + put 20 o.v + putB 19 o.wv + put 13 o.base + putB 12 o.wb + put 0 o.off
/-- The word of PTAP_SCALAR (R240). -/
def encPtapScalar (o : PtapF) : Nat := 12 * 2 ^ 27 + put 20 o.d + put 18 o.tap + put 12 o.base + putB 11 o.wb + put 0 o.off
/-- The word of PTAP_VECTOR (R240). -/
def encPtapVector (o : PtapF) : Nat := 12 * 2 ^ 27 + 1 * 2 ^ 26 + put 20 o.d + put 18 o.tap + put 12 o.base + putB 11 o.wb + put 0 o.off
/-- The word of PTAPS (R242). -/
def encPtaps (o : PtapsF) : Nat := 13 * 2 ^ 27 + put 20 o.d + put 12 o.base + putB 11 o.wb + put 0 o.off
/-- The word of RTAP_SCALAR (R245). -/
def encRtapScalar (o : RtapF) : Nat := 14 * 2 ^ 27 + put 20 o.d + put 14 o.age + put 8 o.base + putB 7 o.wb + put 0 o.off
/-- The word of RTAP_VECTOR (R245). -/
def encRtapVector (o : RtapF) : Nat := 14 * 2 ^ 27 + 1 * 2 ^ 26 + put 20 o.d + put 14 o.age + put 8 o.base + putB 7 o.wb + put 0 o.off
/-- The word of PHASE (R222). -/
def encPhase (o : PhaseF) : Nat := 15 * 2 ^ 27 + put 24 o.scope
/-- The word of PREF (R215). -/
def encPref (o : PrefF) : Nat := 16 * 2 ^ 27 + put 21 o.base + putB 20 o.wb + put 0 o.off
/-- The word of VADD (R139). -/
def encVadd (o : VaF) : Nat := 1 * 2 ^ 30 + put 26 o.fmt + put 24 o.rnd + put 18 o.d + put 12 o.a + putB 11 o.wa + put 5 o.b + putB 4 o.wb + put 1 o.m
/-- The word of VSUB (R139). -/
def encVsub (o : VaF) : Nat := 2 * 2 ^ 30 + put 26 o.fmt + put 24 o.rnd + put 18 o.d + put 12 o.a + putB 11 o.wa + put 5 o.b + putB 4 o.wb + put 1 o.m
/-- The word of VMUL (R139). -/
def encVmul (o : VaF) : Nat := 3 * 2 ^ 30 + put 26 o.fmt + put 24 o.rnd + put 18 o.d + put 12 o.a + putB 11 o.wa + put 5 o.b + putB 4 o.wb + put 1 o.m
/-- The word of VMULH (R139). -/
def encVmulh (o : VaF) : Nat := 4 * 2 ^ 30 + put 26 o.fmt + put 24 o.rnd + put 18 o.d + put 12 o.a + putB 11 o.wa + put 5 o.b + putB 4 o.wb + put 1 o.m
/-- The word of VMAD (R139). -/
def encVmad (o : VaAccF) : Nat := 5 * 2 ^ 30 + put 26 o.fmt + put 24 o.rnd + put 18 o.d + put 12 o.a + putB 11 o.wa + put 5 o.b + putB 4 o.wb + put 1 o.m + putB 0 o.wd
/-- The word of VAND (R139). -/
def encVand (o : VaF) : Nat := 6 * 2 ^ 30 + put 26 o.fmt + put 24 o.rnd + put 18 o.d + put 12 o.a + putB 11 o.wa + put 5 o.b + putB 4 o.wb + put 1 o.m
/-- The word of VOR (R139). -/
def encVor (o : VaF) : Nat := 7 * 2 ^ 30 + put 26 o.fmt + put 24 o.rnd + put 18 o.d + put 12 o.a + putB 11 o.wa + put 5 o.b + putB 4 o.wb + put 1 o.m
/-- The word of VXOR (R139). -/
def encVxor (o : VaF) : Nat := 8 * 2 ^ 30 + put 26 o.fmt + put 24 o.rnd + put 18 o.d + put 12 o.a + putB 11 o.wa + put 5 o.b + putB 4 o.wb + put 1 o.m
/-- The word of VSHL (R139). -/
def encVshl (o : VaF) : Nat := 9 * 2 ^ 30 + put 26 o.fmt + put 24 o.rnd + put 18 o.d + put 12 o.a + putB 11 o.wa + put 5 o.b + putB 4 o.wb + put 1 o.m
/-- The word of VSHR (R139). -/
def encVshr (o : VaF) : Nat := 10 * 2 ^ 30 + put 26 o.fmt + put 24 o.rnd + put 18 o.d + put 12 o.a + putB 11 o.wa + put 5 o.b + putB 4 o.wb + put 1 o.m
/-- The word of VSAR (R139). -/
def encVsar (o : VaF) : Nat := 11 * 2 ^ 30 + put 26 o.fmt + put 24 o.rnd + put 18 o.d + put 12 o.a + putB 11 o.wa + put 5 o.b + putB 4 o.wb + put 1 o.m
/-- The word of VMIN (R139). -/
def encVmin (o : VaF) : Nat := 12 * 2 ^ 30 + put 26 o.fmt + put 24 o.rnd + put 18 o.d + put 12 o.a + putB 11 o.wa + put 5 o.b + putB 4 o.wb + put 1 o.m
/-- The word of VMAX (R139). -/
def encVmax (o : VaF) : Nat := 13 * 2 ^ 30 + put 26 o.fmt + put 24 o.rnd + put 18 o.d + put 12 o.a + putB 11 o.wa + put 5 o.b + putB 4 o.wb + put 1 o.m
/-- The word of VABS (R139). -/
def encVabs (o : VaOneF) : Nat := 14 * 2 ^ 30 + put 26 o.fmt + put 24 o.rnd + put 18 o.d + put 12 o.a + putB 11 o.wa + put 1 o.m
/-- The word of VWACC (R140). -/
def encVwacc (o : VaAccF) : Nat := 15 * 2 ^ 30 + put 26 o.fmt + put 24 o.rnd + put 18 o.d + put 12 o.a + putB 11 o.wa + put 5 o.b + putB 4 o.wb + put 1 o.m + putB 0 o.wd
/-- The word of VCLMUL_LO (R141). -/
def encVclmulLo (o : VaF) : Nat := 16 * 2 ^ 30 + put 26 o.fmt + put 24 o.rnd + put 18 o.d + put 12 o.a + putB 11 o.wa + put 5 o.b + putB 4 o.wb + put 1 o.m
/-- The word of VCLMUL_HI (R141). -/
def encVclmulHi (o : VaF) : Nat := 17 * 2 ^ 30 + put 26 o.fmt + put 24 o.rnd + put 18 o.d + put 12 o.a + putB 11 o.wa + put 5 o.b + putB 4 o.wb + put 1 o.m
/-- The word of VPOPC (R142). -/
def encVpopc (o : VaOneF) : Nat := 18 * 2 ^ 30 + put 26 o.fmt + put 24 o.rnd + put 18 o.d + put 12 o.a + putB 11 o.wa + put 1 o.m
/-- The word of VFADD (R143). -/
def encVfadd (o : VaF) : Nat := 19 * 2 ^ 30 + put 26 o.fmt + put 24 o.rnd + put 18 o.d + put 12 o.a + putB 11 o.wa + put 5 o.b + putB 4 o.wb + put 1 o.m
/-- The word of VFSUB (R143). -/
def encVfsub (o : VaF) : Nat := 20 * 2 ^ 30 + put 26 o.fmt + put 24 o.rnd + put 18 o.d + put 12 o.a + putB 11 o.wa + put 5 o.b + putB 4 o.wb + put 1 o.m
/-- The word of VFMUL (R143). -/
def encVfmul (o : VaF) : Nat := 21 * 2 ^ 30 + put 26 o.fmt + put 24 o.rnd + put 18 o.d + put 12 o.a + putB 11 o.wa + put 5 o.b + putB 4 o.wb + put 1 o.m
/-- The word of VFMA (R143). -/
def encVfma (o : VaAccF) : Nat := 22 * 2 ^ 30 + put 26 o.fmt + put 24 o.rnd + put 18 o.d + put 12 o.a + putB 11 o.wa + put 5 o.b + putB 4 o.wb + put 1 o.m + putB 0 o.wd
/-- The word of VFMIN (R144). -/
def encVfmin (o : VaF) : Nat := 23 * 2 ^ 30 + put 26 o.fmt + put 24 o.rnd + put 18 o.d + put 12 o.a + putB 11 o.wa + put 5 o.b + putB 4 o.wb + put 1 o.m
/-- The word of VFMAX (R144). -/
def encVfmax (o : VaF) : Nat := 24 * 2 ^ 30 + put 26 o.fmt + put 24 o.rnd + put 18 o.d + put 12 o.a + putB 11 o.wa + put 5 o.b + putB 4 o.wb + put 1 o.m
/-- The word of VFABS (R144). -/
def encVfabs (o : VaOneF) : Nat := 25 * 2 ^ 30 + put 26 o.fmt + put 24 o.rnd + put 18 o.d + put 12 o.a + putB 11 o.wa + put 1 o.m
/-- The word of VFNEG (R144). -/
def encVfneg (o : VaOneF) : Nat := 26 * 2 ^ 30 + put 26 o.fmt + put 24 o.rnd + put 18 o.d + put 12 o.a + putB 11 o.wa + put 1 o.m
/-- The word of VFCMP (R145). -/
def encVfcmp (o : VcF) : Nat := 27 * 2 ^ 30 + put 26 o.fmt + put 22 o.cc + put 18 o.d + put 12 o.a + putB 11 o.wa + put 5 o.b + putB 4 o.wb + put 1 o.m
/-- The word of VMCMP (R145). -/
def encVmcmp (o : VcF) : Nat := 28 * 2 ^ 30 + put 26 o.fmt + put 22 o.cc + put 18 o.d + put 12 o.a + putB 11 o.wa + put 5 o.b + putB 4 o.wb + put 1 o.m
/-- The word of MAND (R146). -/
def encMand (o : VmF) : Nat := 29 * 2 ^ 30 + put 18 o.d + put 15 o.a + put 12 o.b
/-- The word of MOR (R146). -/
def encMor (o : VmF) : Nat := 30 * 2 ^ 30 + put 18 o.d + put 15 o.a + put 12 o.b
/-- The word of MNOT (R146). -/
def encMnot (o : VmOneF) : Nat := 31 * 2 ^ 30 + put 18 o.d + put 15 o.a
/-- The word of VEXP2 (R147). -/
def encVexp2 (o : VaOneF) : Nat := 32 * 2 ^ 30 + put 26 o.fmt + put 24 o.rnd + put 18 o.d + put 12 o.a + putB 11 o.wa + put 1 o.m
/-- The word of VLOG2 (R147). -/
def encVlog2 (o : VaOneF) : Nat := 33 * 2 ^ 30 + put 26 o.fmt + put 24 o.rnd + put 18 o.d + put 12 o.a + putB 11 o.wa + put 1 o.m
/-- The word of VRCP (R147). -/
def encVrcp (o : VaOneF) : Nat := 34 * 2 ^ 30 + put 26 o.fmt + put 24 o.rnd + put 18 o.d + put 12 o.a + putB 11 o.wa + put 1 o.m
/-- The word of VRSQ (R147). -/
def encVrsq (o : VaOneF) : Nat := 35 * 2 ^ 30 + put 26 o.fmt + put 24 o.rnd + put 18 o.d + put 12 o.a + putB 11 o.wa + put 1 o.m
/-- The word of VSQRT (R147). -/
def encVsqrt (o : VaOneF) : Nat := 36 * 2 ^ 30 + put 26 o.fmt + put 24 o.rnd + put 18 o.d + put 12 o.a + putB 11 o.wa + put 1 o.m
/-- The word of VCVT (R149). -/
def encVcvt (o : VaOneF) : Nat := 37 * 2 ^ 30 + put 26 o.fmt + put 24 o.rnd + put 18 o.d + put 12 o.a + putB 11 o.wa + put 1 o.m
/-- The word of VSCALE (R152). -/
def encVscale (o : VaF) : Nat := 38 * 2 ^ 30 + put 26 o.fmt + put 24 o.rnd + put 18 o.d + put 12 o.a + putB 11 o.wa + put 5 o.b + putB 4 o.wb + put 1 o.m
/-- The word of VPACK (R151). -/
def encVpack (o : VaF) : Nat := 39 * 2 ^ 30 + put 26 o.fmt + put 24 o.rnd + put 18 o.d + put 12 o.a + putB 11 o.wa + put 5 o.b + putB 4 o.wb + put 1 o.m
/-- The word of VUNPACK (R150). -/
def encVunpack (o : VaOneF) : Nat := 40 * 2 ^ 30 + put 26 o.fmt + put 24 o.rnd + put 18 o.d + put 12 o.a + putB 11 o.wa + put 1 o.m
/-- The word of VTAG (R153). -/
def encVtag (o : VaOneF) : Nat := 41 * 2 ^ 30 + put 26 o.fmt + put 24 o.rnd + put 18 o.d + put 12 o.a + putB 11 o.wa + put 1 o.m
/-- The word of VRED (R154). -/
def encVred (o : VredF) : Nat := 42 * 2 ^ 30 + put 26 o.fmt + put 24 o.rnd + put 18 o.d + put 12 o.a + putB 11 o.wa + put 8 o.op + put 1 o.m
/-- The word of VSCAN (R155). -/
def encVscan (o : VredF) : Nat := 43 * 2 ^ 30 + put 26 o.fmt + put 24 o.rnd + put 18 o.d + put 12 o.a + putB 11 o.wa + put 8 o.op + put 1 o.m
/-- The word of VSPLAT (R156). -/
def encVsplat (o : VaOneF) : Nat := 44 * 2 ^ 30 + put 26 o.fmt + put 24 o.rnd + put 18 o.d + put 12 o.a + putB 11 o.wa + put 1 o.m
/-- The word of VMOVS (R156). -/
def encVmovs (o : VmovsF) : Nat := 45 * 2 ^ 30 + put 18 o.d + put 12 o.a + putB 11 o.wa + put 5 o.lane + put 1 o.m
/-- The word of VSEL (R156). -/
def encVsel (o : VaF) : Nat := 46 * 2 ^ 30 + put 26 o.fmt + put 24 o.rnd + put 18 o.d + put 12 o.a + putB 11 o.wa + put 5 o.b + putB 4 o.wb + put 1 o.m
/-- The word of VLANE (R156). -/
def encVlane (o : VaF) : Nat := 47 * 2 ^ 30 + put 26 o.fmt + put 24 o.rnd + put 18 o.d + put 12 o.a + putB 11 o.wa + put 5 o.b + putB 4 o.wb + put 1 o.m
/-- The word of VCHKF (R157). -/
def encVchkf (o : VchkfF) : Nat := 48 * 2 ^ 30 + put 26 o.fmt + put 12 o.a + putB 11 o.wa + put 1 o.m
/-- The word of LSUPD (R135). -/
def encLsupd : Nat := 49 * 2 ^ 30
/-- The word of XPERM (R159). -/
def encXperm (o : XpermF) : Nat := 1 * 2 ^ 21 + put 15 o.d + put 9 o.a + putB 8 o.wa + put 2 o.p + putB 1 o.wp
/-- The word of XROT (R159). -/
def encXrot (o : XkF) : Nat := 2 * 2 ^ 21 + put 15 o.d + put 9 o.a + putB 8 o.wa + put 2 o.k
/-- The word of XBCAST (R159). -/
def encXbcast (o : XkF) : Nat := 3 * 2 ^ 21 + put 15 o.d + put 9 o.a + putB 8 o.wa + put 2 o.k
/-- The word of XSHUF (R161). -/
def encXshuf (o : XshufF) : Nat := 4 * 2 ^ 21 + put 15 o.d + put 9 o.a + putB 8 o.wa + put 4 o.c
/-- The word of XREV (R159). -/
def encXrev (o : XgF) : Nat := 5 * 2 ^ 21 + put 15 o.d + put 9 o.a + putB 8 o.wa + put 5 o.g
/-- The word of XCMPR (R162). -/
def encXcmpr (o : XgF) : Nat := 6 * 2 ^ 21 + put 15 o.d + put 9 o.a + putB 8 o.wa + put 5 o.g
/-- The word of WLD (R169). -/
def encWld (o : WldF) : Nat := 1 * 2 ^ 28 + put 18 o.imm + put 12 o.a + putB 11 o.wa + put 7 o.fmt
/-- The word of BEAT (R170). -/
def encBeat (o : BeatF) : Nat := 2 * 2 ^ 28 + put 26 o.z + put 24 o.cell + put 20 o.q + put 16 o.fmt + putB 15 o.int + putB 14 o.zero + putB 13 o.sc + put 9 o.sq
/-- The word of DRAIN (R176). -/
def encDrain (o : DrainF) : Nat := 3 * 2 ^ 28 + put 26 o.z + put 20 o.d + put 14 o.row + put 10 o.fmt
/-- The word of ZCLR (R177). -/
def encZclr (o : ZF) : Nat := 4 * 2 ^ 28 + put 26 o.z
/-- The word of ZROT (R177). -/
def encZrot (o : ZrotF) : Nat := 5 * 2 ^ 28 + put 26 o.z + put 20 o.k
/-- The word of ZSPILL (R179). -/
def encZspill (o : ZqF) : Nat := 6 * 2 ^ 28 + put 26 o.z + put 22 o.q
/-- The word of ZFILL (R179). -/
def encZfill (o : ZqF) : Nat := 7 * 2 ^ 28 + put 26 o.z + put 22 o.q
/-- The word of CPY (R260). -/
def encCpy (o : CmdF) : Nat := 1 * 2 ^ 27 + put 23 o.j + put 17 o.a + putB 16 o.wa
/-- The word of CPYW (R261). -/
def encCpyw (o : CmdF) : Nat := 2 * 2 ^ 27 + put 23 o.j + put 17 o.a + putB 16 o.wa
/-- The word of TQPUSH (R180). -/
def encTqpush (o : EaF) : Nat := 3 * 2 ^ 27 + put 17 o.a + putB 16 o.wa
/-- The word of TQPOP (R180). -/
def encTqpop (o : EaF) : Nat := 4 * 2 ^ 27 + put 17 o.a + putB 16 o.wa
/-- The word of RKGATH (R263). -/
def encRkgath (o : CmdF) : Nat := 5 * 2 ^ 27 + put 23 o.j + put 17 o.a + putB 16 o.wa
/-- The word of RKSEG (R264). -/
def encRkseg (o : CmdF) : Nat := 6 * 2 ^ 27 + put 23 o.j + put 17 o.a + putB 16 o.wa
/-- The word of RILL (R267). -/
def encRill (o : CmdF) : Nat := 7 * 2 ^ 27 + put 23 o.j + put 17 o.a + putB 16 o.wa
/-- The word of CFL_AR (R270). -/
def encCflAr (o : CmdF) : Nat := 8 * 2 ^ 27 + put 23 o.j + put 17 o.a + putB 16 o.wa
/-- The word of CFL_RS (R270). -/
def encCflRs (o : CmdF) : Nat := 9 * 2 ^ 27 + put 23 o.j + put 17 o.a + putB 16 o.wa
/-- The word of CFL_AG (R270). -/
def encCflAg (o : CmdF) : Nat := 10 * 2 ^ 27 + put 23 o.j + put 17 o.a + putB 16 o.wa
/-- The word of CFL_BC (R270). -/
def encCflBc (o : CmdF) : Nat := 11 * 2 ^ 27 + put 23 o.j + put 17 o.a + putB 16 o.wa
/-- The word of SEND (R276). -/
def encSend (o : CmdF) : Nat := 12 * 2 ^ 27 + put 23 o.j + put 17 o.a + putB 16 o.wa
/-- The word of RECV (R276). -/
def encRecv (o : CmdF) : Nat := 13 * 2 ^ 27 + put 23 o.j + put 17 o.a + putB 16 o.wa
/-- The word of PANCFG (R235). -/
def encPancfg (o : CmdF) : Nat := 14 * 2 ^ 27 + put 23 o.j + put 17 o.a + putB 16 o.wa
/-- The word of TICK (R237). -/
def encTick (o : CmdF) : Nat := 15 * 2 ^ 27 + put 23 o.j + put 17 o.a + putB 16 o.wa
/-- The word of FOOT (R230). -/
def encFoot (o : FootF) : Nat := 16 * 2 ^ 27 + put 17 o.a + putB 16 o.wa + put 10 o.b + putB 9 o.wb + put 6 o.eng + putB 5 o.wr
/-- The word of JWAIT (R256). -/
def encJwait (o : JwaitF) : Nat := 17 * 2 ^ 27 + put 23 o.j
/-- The word of JPOLL (R256). -/
def encJpoll (o : JpollF) : Nat := 18 * 2 ^ 27 + put 23 o.j + put 4 o.p
/-- The word of SPAWN (R90). -/
def encSpawn (o : CmdF) : Nat := 19 * 2 ^ 27 + put 23 o.j + put 17 o.a + putB 16 o.wa
/-- The word of JOIN (R91). -/
def encJoin (o : JoinF) : Nat := 20 * 2 ^ 27 + put 17 o.a + putB 16 o.wa + put 10 o.d
/-- The word of LEAVE (R92). -/
def encLeave (o : EaF) : Nat := 21 * 2 ^ 27 + put 17 o.a + putB 16 o.wa
/-- The word of BAR (R93). -/
def encBar (o : EaF) : Nat := 22 * 2 ^ 27 + put 17 o.a + putB 16 o.wa
/-- The word of TREE (R80). -/
def encTree (o : TreeF) : Nat := 1 * 2 ^ 45 + put 41 o.shape + put 35 o.t0 + put 29 o.t1 + put 23 o.t2 + put 17 o.t3 + put 14 o.l0 + put 11 o.l1 + put 8 o.l2 + put 5 o.l3 + put 2 o.l4
/-- The word of LOOP (R86). -/
def encLoop (o : LoopF) : Nat := 2 * 2 ^ 45 + put 33 o.n + put 1 o.c
/-- The word of LOOPR (R86). -/
def encLoopr (o : LooprF) : Nat := 3 * 2 ^ 45 + put 33 o.n + put 27 o.a + putB 26 o.wa
/-- The word of CALL (R83). -/
def encCall (o : CallF) : Nat := 1 * 2 ^ 41 + put 38 o.t + put 35 o.l
/-- The word of RET (R83). -/
def encRet (o : BtF) : Nat := 2 * 2 ^ 41 + put 38 o.b
/-- The word of SUSPEND (R84). -/
def encSuspend (o : BtF) : Nat := 3 * 2 ^ 41 + put 38 o.b
/-- The word of HALT (R85). -/
def encHalt : Nat := 4 * 2 ^ 41
/-- The word of TRAP (R323). -/
def encTrap (o : TrapF) : Nat := 5 * 2 ^ 41 + put 33 o.code
/-- The word of RTE (R321). -/
def encRte : Nat := 6 * 2 ^ 41
/-- The word of REPEAT (R25). -/
def encRepeat (o : RepF) : Nat := 240 * 2 ^ 8 + put 0 o.n

/-- The slot class in which an instruction stands; an event stands in none. -/
def slotOf : Instr → Option SlotClass
  | .add _ => some .a
  | .sub _ => some .a
  | .mul _ => some .a
  | .mulh _ => some .a
  | .mulhu _ => some .a
  | .div _ => some .a
  | .divu _ => some .a
  | .rem _ => some .a
  | .remu _ => some .a
  | .and _ => some .a
  | .or _ => some .a
  | .xor _ => some .a
  | .andn _ => some .a
  | .shl _ => some .a
  | .shr _ => some .a
  | .sar _ => some .a
  | .rol _ => some .a
  | .min _ => some .a
  | .max _ => some .a
  | .minu _ => some .a
  | .maxu _ => some .a
  | .clmull _ => some .a
  | .clmulh _ => some .a
  | .clz _ => some .a
  | .ctz _ => some .a
  | .popc _ => some .a
  | .mov _ => some .a
  | .sextI8 _ => some .a
  | .sextI16 _ => some .a
  | .sextI32 _ => some .a
  | .zextI8 _ => some .a
  | .zextI16 _ => some .a
  | .zextI32 _ => some .a
  | .sel _ => some .a
  | .addi _ => some .a
  | .lea _ => some .a
  | .li _ => some .a
  | .lih _ => some .a
  | .cmp _ => some .a
  | .cmpi _ => some .a
  | .pand _ => some .a
  | .por _ => some .a
  | .pxor _ => some .a
  | .pandn _ => some .a
  | .prepLabel _ => some .a
  | .prepReg _ => some .a
  | .getc _ => some .a
  | .setc _ => some .a
  | .ldl _ => some .l
  | .stl _ => some .l
  | .vldl _ => some .l
  | .vldlStream _ => some .l
  | .vstl _ => some .l
  | .vstlStream _ => some .l
  | .bind _ => some .l
  | .unbind _ => some .l
  | .qskip _ => some .l
  | .qstat _ => some .l
  | .ldg _ => some .g
  | .stg _ => some .g
  | .vldg _ => some .g
  | .vstg _ => some .g
  | .vgath _ => some .g
  | .vscat _ => some .g
  | .amo _ => some .g
  | .amoCas _ => some .g
  | .radd _ => some .g
  | .rowadd _ => some .g
  | .rowld _ => some .g
  | .psmpScalar _ => some .g
  | .psmpVector _ => some .g
  | .ptapScalar _ => some .g
  | .ptapVector _ => some .g
  | .ptaps _ => some .g
  | .rtapScalar _ => some .g
  | .rtapVector _ => some .g
  | .phase _ => some .g
  | .pref _ => some .g
  | .vadd _ => some .v
  | .vsub _ => some .v
  | .vmul _ => some .v
  | .vmulh _ => some .v
  | .vmad _ => some .v
  | .vand _ => some .v
  | .vor _ => some .v
  | .vxor _ => some .v
  | .vshl _ => some .v
  | .vshr _ => some .v
  | .vsar _ => some .v
  | .vmin _ => some .v
  | .vmax _ => some .v
  | .vabs _ => some .v
  | .vwacc _ => some .v
  | .vclmulLo _ => some .v
  | .vclmulHi _ => some .v
  | .vpopc _ => some .v
  | .vfadd _ => some .v
  | .vfsub _ => some .v
  | .vfmul _ => some .v
  | .vfma _ => some .v
  | .vfmin _ => some .v
  | .vfmax _ => some .v
  | .vfabs _ => some .v
  | .vfneg _ => some .v
  | .vfcmp _ => some .v
  | .vmcmp _ => some .v
  | .mand _ => some .v
  | .mor _ => some .v
  | .mnot _ => some .v
  | .vexp2 _ => some .v
  | .vlog2 _ => some .v
  | .vrcp _ => some .v
  | .vrsq _ => some .v
  | .vsqrt _ => some .v
  | .vcvt _ => some .v
  | .vscale _ => some .v
  | .vpack _ => some .v
  | .vunpack _ => some .v
  | .vtag _ => some .v
  | .vred _ => some .v
  | .vscan _ => some .v
  | .vsplat _ => some .v
  | .vmovs _ => some .v
  | .vsel _ => some .v
  | .vlane _ => some .v
  | .vchkf _ => some .v
  | .lsupd => some .v
  | .xperm _ => some .x
  | .xrot _ => some .x
  | .xbcast _ => some .x
  | .xshuf _ => some .x
  | .xrev _ => some .x
  | .xcmpr _ => some .x
  | .wld _ => some .t
  | .beat _ => some .t
  | .drain _ => some .t
  | .zclr _ => some .t
  | .zrot _ => some .t
  | .zspill _ => some .t
  | .zfill _ => some .t
  | .cpy _ => some .e
  | .cpyw _ => some .e
  | .tqpush _ => some .e
  | .tqpop _ => some .e
  | .rkgath _ => some .e
  | .rkseg _ => some .e
  | .rill _ => some .e
  | .cflAr _ => some .e
  | .cflRs _ => some .e
  | .cflAg _ => some .e
  | .cflBc _ => some .e
  | .send _ => some .e
  | .recv _ => some .e
  | .pancfg _ => some .e
  | .tick _ => some .e
  | .foot _ => some .e
  | .jwait _ => some .e
  | .jpoll _ => some .e
  | .spawn _ => some .e
  | .join _ => some .e
  | .leave _ => some .e
  | .bar _ => some .e
  | .tree _ => some .b
  | .loop _ => some .b
  | .loopr _ => some .b
  | .call _ => some .b
  | .ret _ => some .b
  | .suspend _ => some .b
  | .halt => some .b
  | .trap _ => some .b
  | .rte => some .b
  | .repeat _ => some .c
  | _ => none

/-- The word of an instruction; an event has none. -/
def encode : Instr → Option Nat
  | .add o => some (encAdd o)
  | .sub o => some (encSub o)
  | .mul o => some (encMul o)
  | .mulh o => some (encMulh o)
  | .mulhu o => some (encMulhu o)
  | .div o => some (encDiv o)
  | .divu o => some (encDivu o)
  | .rem o => some (encRem o)
  | .remu o => some (encRemu o)
  | .and o => some (encAnd o)
  | .or o => some (encOr o)
  | .xor o => some (encXor o)
  | .andn o => some (encAndn o)
  | .shl o => some (encShl o)
  | .shr o => some (encShr o)
  | .sar o => some (encSar o)
  | .rol o => some (encRol o)
  | .min o => some (encMin o)
  | .max o => some (encMax o)
  | .minu o => some (encMinu o)
  | .maxu o => some (encMaxu o)
  | .clmull o => some (encClmull o)
  | .clmulh o => some (encClmulh o)
  | .clz o => some (encClz o)
  | .ctz o => some (encCtz o)
  | .popc o => some (encPopc o)
  | .mov o => some (encMov o)
  | .sextI8 o => some (encSextI8 o)
  | .sextI16 o => some (encSextI16 o)
  | .sextI32 o => some (encSextI32 o)
  | .zextI8 o => some (encZextI8 o)
  | .zextI16 o => some (encZextI16 o)
  | .zextI32 o => some (encZextI32 o)
  | .sel o => some (encSel o)
  | .addi o => some (encAddi o)
  | .lea o => some (encLea o)
  | .li o => some (encLi o)
  | .lih o => some (encLih o)
  | .cmp o => some (encCmp o)
  | .cmpi o => some (encCmpi o)
  | .pand o => some (encPand o)
  | .por o => some (encPor o)
  | .pxor o => some (encPxor o)
  | .pandn o => some (encPandn o)
  | .prepLabel o => some (encPrepLabel o)
  | .prepReg o => some (encPrepReg o)
  | .getc o => some (encGetc o)
  | .setc o => some (encSetc o)
  | .ldl o => some (encLdl o)
  | .stl o => some (encStl o)
  | .vldl o => some (encVldl o)
  | .vldlStream o => some (encVldlStream o)
  | .vstl o => some (encVstl o)
  | .vstlStream o => some (encVstlStream o)
  | .bind o => some (encBind o)
  | .unbind o => some (encUnbind o)
  | .qskip o => some (encQskip o)
  | .qstat o => some (encQstat o)
  | .ldg o => some (encLdg o)
  | .stg o => some (encStg o)
  | .vldg o => some (encVldg o)
  | .vstg o => some (encVstg o)
  | .vgath o => some (encVgath o)
  | .vscat o => some (encVscat o)
  | .amo o => some (encAmo o)
  | .amoCas o => some (encAmoCas o)
  | .radd o => some (encRadd o)
  | .rowadd o => some (encRowadd o)
  | .rowld o => some (encRowld o)
  | .psmpScalar o => some (encPsmpScalar o)
  | .psmpVector o => some (encPsmpVector o)
  | .ptapScalar o => some (encPtapScalar o)
  | .ptapVector o => some (encPtapVector o)
  | .ptaps o => some (encPtaps o)
  | .rtapScalar o => some (encRtapScalar o)
  | .rtapVector o => some (encRtapVector o)
  | .phase o => some (encPhase o)
  | .pref o => some (encPref o)
  | .vadd o => some (encVadd o)
  | .vsub o => some (encVsub o)
  | .vmul o => some (encVmul o)
  | .vmulh o => some (encVmulh o)
  | .vmad o => some (encVmad o)
  | .vand o => some (encVand o)
  | .vor o => some (encVor o)
  | .vxor o => some (encVxor o)
  | .vshl o => some (encVshl o)
  | .vshr o => some (encVshr o)
  | .vsar o => some (encVsar o)
  | .vmin o => some (encVmin o)
  | .vmax o => some (encVmax o)
  | .vabs o => some (encVabs o)
  | .vwacc o => some (encVwacc o)
  | .vclmulLo o => some (encVclmulLo o)
  | .vclmulHi o => some (encVclmulHi o)
  | .vpopc o => some (encVpopc o)
  | .vfadd o => some (encVfadd o)
  | .vfsub o => some (encVfsub o)
  | .vfmul o => some (encVfmul o)
  | .vfma o => some (encVfma o)
  | .vfmin o => some (encVfmin o)
  | .vfmax o => some (encVfmax o)
  | .vfabs o => some (encVfabs o)
  | .vfneg o => some (encVfneg o)
  | .vfcmp o => some (encVfcmp o)
  | .vmcmp o => some (encVmcmp o)
  | .mand o => some (encMand o)
  | .mor o => some (encMor o)
  | .mnot o => some (encMnot o)
  | .vexp2 o => some (encVexp2 o)
  | .vlog2 o => some (encVlog2 o)
  | .vrcp o => some (encVrcp o)
  | .vrsq o => some (encVrsq o)
  | .vsqrt o => some (encVsqrt o)
  | .vcvt o => some (encVcvt o)
  | .vscale o => some (encVscale o)
  | .vpack o => some (encVpack o)
  | .vunpack o => some (encVunpack o)
  | .vtag o => some (encVtag o)
  | .vred o => some (encVred o)
  | .vscan o => some (encVscan o)
  | .vsplat o => some (encVsplat o)
  | .vmovs o => some (encVmovs o)
  | .vsel o => some (encVsel o)
  | .vlane o => some (encVlane o)
  | .vchkf o => some (encVchkf o)
  | .lsupd => some (encLsupd)
  | .xperm o => some (encXperm o)
  | .xrot o => some (encXrot o)
  | .xbcast o => some (encXbcast o)
  | .xshuf o => some (encXshuf o)
  | .xrev o => some (encXrev o)
  | .xcmpr o => some (encXcmpr o)
  | .wld o => some (encWld o)
  | .beat o => some (encBeat o)
  | .drain o => some (encDrain o)
  | .zclr o => some (encZclr o)
  | .zrot o => some (encZrot o)
  | .zspill o => some (encZspill o)
  | .zfill o => some (encZfill o)
  | .cpy o => some (encCpy o)
  | .cpyw o => some (encCpyw o)
  | .tqpush o => some (encTqpush o)
  | .tqpop o => some (encTqpop o)
  | .rkgath o => some (encRkgath o)
  | .rkseg o => some (encRkseg o)
  | .rill o => some (encRill o)
  | .cflAr o => some (encCflAr o)
  | .cflRs o => some (encCflRs o)
  | .cflAg o => some (encCflAg o)
  | .cflBc o => some (encCflBc o)
  | .send o => some (encSend o)
  | .recv o => some (encRecv o)
  | .pancfg o => some (encPancfg o)
  | .tick o => some (encTick o)
  | .foot o => some (encFoot o)
  | .jwait o => some (encJwait o)
  | .jpoll o => some (encJpoll o)
  | .spawn o => some (encSpawn o)
  | .join o => some (encJoin o)
  | .leave o => some (encLeave o)
  | .bar o => some (encBar o)
  | .tree o => some (encTree o)
  | .loop o => some (encLoop o)
  | .loopr o => some (encLoopr o)
  | .call o => some (encCall o)
  | .ret o => some (encRet o)
  | .suspend o => some (encSuspend o)
  | .halt => some (encHalt)
  | .trap o => some (encTrap o)
  | .rte => some (encRte)
  | .repeat o => some (encRepeat o)
  | _ => none

/-- The ones among the bits that the map fixes for an instruction of a 32-bit slot. -/
def fixedOnes : Instr → Nat
  | .add _ => 1
  | .sel _ => 1
  | .lea _ => 1
  | .cmpi _ => 1
  | .ldl _ => 1
  | .stl _ => 1
  | .vstl _ => 1
  | .qstat _ => 1
  | .ldg _ => 1
  | .stg _ => 1
  | .vstg _ => 1
  | .radd _ => 1
  | .pref _ => 1
  | .wld _ => 1
  | .beat _ => 1
  | .zclr _ => 1
  | .cpy _ => 1
  | .cpyw _ => 1
  | .tqpop _ => 1
  | .cflAr _ => 1
  | .foot _ => 1
  | .sub _ => 2
  | .mul _ => 2
  | .mulhu _ => 2
  | .remu _ => 2
  | .rol _ => 2
  | .zextI32 _ => 2
  | .addi _ => 2
  | .li _ => 2
  | .lih _ => 2
  | .pand _ => 2
  | .prepLabel _ => 2
  | .vldl _ => 2
  | .vstlStream _ => 2
  | .bind _ => 2
  | .unbind _ => 2
  | .vldg _ => 2
  | .vgath _ => 2
  | .vscat _ => 2
  | .rowadd _ => 2
  | .rowld _ => 2
  | .ptapScalar _ => 2
  | .drain _ => 2
  | .zrot _ => 2
  | .zspill _ => 2
  | .tqpush _ => 2
  | .rkgath _ => 2
  | .rkseg _ => 2
  | .cflRs _ => 2
  | .cflAg _ => 2
  | .send _ => 2
  | .jwait _ => 2
  | .jpoll _ => 2
  | .join _ => 2
  | .mulh _ => 3
  | .div _ => 3
  | .divu _ => 3
  | .and _ => 3
  | .or _ => 3
  | .andn _ => 3
  | .min _ => 3
  | .max _ => 3
  | .maxu _ => 3
  | .ctz _ => 3
  | .cmp _ => 3
  | .por _ => 3
  | .pxor _ => 3
  | .prepReg _ => 3
  | .getc _ => 3
  | .vldlStream _ => 3
  | .qskip _ => 3
  | .amo _ => 3
  | .psmpScalar _ => 3
  | .ptapVector _ => 3
  | .ptaps _ => 3
  | .rtapScalar _ => 3
  | .zfill _ => 3
  | .rill _ => 3
  | .cflBc _ => 3
  | .recv _ => 3
  | .pancfg _ => 3
  | .spawn _ => 3
  | .leave _ => 3
  | .bar _ => 3
  | .rem _ => 4
  | .xor _ => 4
  | .shl _ => 4
  | .shr _ => 4
  | .minu _ => 4
  | .clmull _ => 4
  | .clmulh _ => 4
  | .popc _ => 4
  | .mov _ => 4
  | .sextI16 _ => 4
  | .pandn _ => 4
  | .setc _ => 4
  | .psmpVector _ => 4
  | .rtapVector _ => 4
  | .phase _ => 4
  | .tick _ => 4
  | .sar _ => 5
  | .clz _ => 5
  | .sextI8 _ => 5
  | .sextI32 _ => 5
  | .zextI8 _ => 5
  | .amoCas _ => 5
  | .zextI16 _ => 6
  | _ => 0

/-- Of two readings of one word, the one whose map fixes more of its ones, else the first. -/
def closer : Option Instr → Option Instr → Option Instr
  | none, y => y
  | some x, none => some x
  | some x, some y => if fixedOnes x < fixedOnes y then some y else some x

/-- The instruction that the decoder reads from a row's word. The slot classes A, L, G, T and E all have 32-bit words and a
word alone does not name its slot, so of the classes whose map lists it the reading is taken whose operands hold the fewest
ones, and of equal ones the first in slot order (DESIGN CHOICE, log entry 7). -/
def decodeTableWord (nbits w : Nat) : Option Instr :=
  if nbits ≤ 16 then decC w
  else if nbits ≤ 24 then decX w
  else if nbits ≤ 32 then
    closer (decA w) (closer (decL w) (closer (decG w) (closer (decT w) (decE w))))
  else if nbits ≤ 40 then decV w
  else decB w

end Sys2Proof
end

