-- ==== Sys2Proof/Config.lean ====
section
/-! DEFINITION. What one module fixes and the manual does not: constants with no body, so that no proof can see a value.
Each is named in a log entry. -/
namespace Sys2Proof.Config

/-- The module's own number on the fabric (R269, R276). -/
opaque thisModule : BitVec 16
/-- The stack or backing channel, numbered over the module, that holds a device-physical byte (DESIGN CHOICE, log entry 23). -/
opaque channelOf : Nat → Nat
/-- The number of backing-memory channels fitted (R332). -/
opaque backChannels : Nat
/-- SLH-DSA verification (R344): public key, message, signature (DESIGN CHOICE, log entry 15). -/
opaque sigOk : List Byte → List Byte → List Byte → Bool
/-- SLH-DSA signing with the module's attestation key (R345; DESIGN CHOICE, log entry 15). -/
opaque attSign : List Byte → List Byte
/-- SHA-256 (R344, R345; DESIGN CHOICE, log entry 15). -/
opaque sha256 : List Byte → BitVec 256
/-- The bytes of an image over which its signature runs (R344; DESIGN CHOICE, log entry 15). -/
opaque imageBytes : Image → List Byte
/-- The attestation public key, 32 bytes, and its certificate, 7,856 bytes (R345; DESIGN CHOICE, log entry 15). -/
opaque attKey : List Byte
opaque attCert : List Byte
/-- The four key digests fused into the module (R344). -/
opaque fuseDigest : Nat → BitVec 256
/-- The lowest firmware version that the fuses accept (R343). -/
opaque fuseFloor : BitVec 16
/-- The firmware image that the boot ROM finds at reset (DESIGN CHOICE, log entry 16). -/
opaque romFirmware : List Byte
opaque romVersion : BitVec 16
opaque romFloor : BitVec 16
opaque romKey : List Byte
opaque romSig : List Byte
opaque romMalformed : Bool
/-- A value that the manual leaves undefined, numbered by the counter in State (R307, R310). -/
opaque freeByte : Nat → Nat → Byte
/-- The time of one advance over the members of a region at the floor clock, in µs (R300; DESIGN CHOICE, log entry 28). -/
opaque sweepTime : Nat → Nat → Nat
/-- The scale of a block of a backup copy of I8 elements, which no field of the command names (R269, R275; DESIGN CHOICE, log entry 43). -/
opaque backupScale : Nat → Nat → Byte
/-- What QSTAT shows as the count of a pattern of 2^48 elements none of which is taken, which its 48 bits cannot hold (R100; DESIGN CHOICE, log entry 44). -/
opaque fullLeft : BitVec 48

end Sys2Proof.Config
end

