-- ==== Sys2Proof/Machine/State.lean ====
section
/-! DEFINITION. The state of the module as plain data: the cores with every register the manual gives them, their
engines, the partitions and virtual functions with every window register, global memory with its publications, the
scheduler, the Sluice, the links and the boot state. State.reset is the module right after reset. -/
namespace Sys2Proof.Machine

/-- Memory as a sparse list in one canonical form: addresses strictly rising, no entry equal to 0, which is what an
unlisted address reads as (DESIGN CHOICE, log entry 5). -/
abbrev Mem := List Host.Cell

/-- The canonical form of a memory. -/
def Mem.wf (m : Mem) : Bool := swf (0 : Byte) m

/-- A scalar register with its full mark (R32). -/
structure SReg where
  val : W64
  full : Bool
  deriving DecidableEq, Repr

/-- A vector register with its tag and full mark (R32, R118, R126). -/
structure VReg where
  bits : VBits
  tag : Tag
  full : Bool
  deriving DecidableEq, Repr

/-- A tile (R163): each row holds 64 words of 48 bits, the code in [39:0] and the IX bit in [40] (R178). A tile's
full mark always reads full (R164). -/
structure Tile where
  rows : Vector Row 64
  tag : Tag
  cur : BitVec 6
  deriving DecidableEq, Repr

/-- A stream register (R95 to R103): its descriptor, its direction, its position, and whether a T-slot access has
checked its span in this phase (R232). The position may equal a total of 2^48 (R99), which 48 bits do not hold. -/
structure Stream where
  bound : Bool
  wr : Bool
  desc : BitVec 256
  pos : BitVec 49
  checked : Bool
  deriving DecidableEq, Repr

/-- The state of a ticket (R255). -/
inductive JState where
  | idle | pending | done | failed
  deriving DecidableEq, Repr

/-- A j register (R255, R359): its state, the command it names while pending, and the kept cause and address. -/
structure Ticket where
  st : JState
  id : Nat
  cause : BitVec 8
  asp : Bool
  av : Bool
  addr : BitVec 52
  deriving DecidableEq, Repr

/-- One hardware loop level (R87). -/
structure Loop where
  count : BitVec 32
  active : Bool
  end_ : CAddr
  deriving DecidableEq, Repr

/-- A register named in collision checks, result bookkeeping and the resume latch (R36, R320). -/
inductive RegId where
  | s (n : BitVec 6) | p (n : BitVec 5) | b (n : BitVec 3) | v (n : BitVec 6) | m (n : BitVec 3) | z (n : BitVec 2)
  | c (n : BitVec 10)
  deriving DecidableEq, Repr

/-- The register files that R29 reads at issue. For each b register, age counts the bundle executions since the PREP or CALL that
wrote it, up to 3 (R79). -/
structure Regs where
  s : Vector SReg 64
  p : BitVec 32
  b : Vector CAddr 8
  age : Vector (BitVec 2) 8
  v : Vector VReg 64
  m : Vector W64 8
  z : Vector Tile 4
  deriving DecidableEq, Repr

/-- One entry of the resume latch (R320). -/
inductive LatchE where
  | s (n : BitVec 6) (x : W64) | p (n : BitVec 5) (x : Bool) | b (n : BitVec 3) (x : CAddr)
  | v (n : BitVec 6) (x : VBits) (t : Tag) | m (n : BitVec 3) (x : W64) | z (n : BitVec 2) (x : Tile)
  | c (n : BitVec 10) (x : W64)
  deriving DecidableEq, Repr

/-- A range of L that the scoreboard holds for an engine command (R205). -/
structure Range where
  id : Nat
  wr : Bool
  lo : Nat
  hi : Nat
  deriving DecidableEq, Repr

/-- A footprint entry (R230). -/
structure FootE where
  eng : BitVec 3
  wr : Bool
  lo : Nat
  hi : Nat
  deriving DecidableEq, Repr

/-- One queued tile of the transpose queue with its issue cycle (R180). -/
structure TqE where
  tile : BitVec 16384
  at_ : Nat
  deriving DecidableEq, Repr

/-- Where a lane of a long-latency access stands: translated, waiting on the reply of a page request, or ended in a
failure that the core has yet to report (R199, R200). -/
inductive LaneSt where
  | ready (loc : Nat)
  | wait (tag : Option Nat) (ipa : Nat) (wr : Bool)
  | failed (cause : BitVec 8)
  deriving DecidableEq, Repr

/-- One lane of an access to G: its lane number with whether a frame shows it (R318), virtual address, length in bytes, the bytes a store gives or a load
has captured, and where it stands. -/
structure Lane where
  i : Nat
  lv : Bool
  va : Nat
  len : Nat
  st : LaneSt
  data : Option (List Byte)
  deriving DecidableEq, Repr

/-- What a pending result is (R33). -/
inductive PKind where
  | calc
  | load (scalar signed : Bool) (tag : Tag)
  | amo (fn : BitVec 4) (wide : Bool) (operand expect : W64)
  | tap (kind : Nat) (tap : BitVec 2) (vector : Bool) (region : Nat) (mem : Nat)
  | rowld (len : Nat)
  | join (addr : Nat)
  deriving DecidableEq, Repr

/-- A long-latency result in flight (R33): the registers it fills, the earliest cycle at which it lands, its value so
far (two v registers wide), a second scalar (the age of RTAP) and its lanes. -/
structure Pend where
  seq : Nat
  kind : PKind
  dst : List RegId
  due : Nat
  val : BitVec 4096
  val2 : W64
  lanes : List Lane
  deriving DecidableEq, Repr

/-- What a posted or held operation is (R199, R213, R238, R249). -/
inductive OKind where
  | store
  | radd (fmt : Tag) (op : BitVec 3) (v : W64)
  | rowadd (len : Nat) (v : BitVec 4096)
  | psmp (vector : Bool) (region : Nat) (mem : Nat) (v : BitVec 4096)
  deriving DecidableEq, Repr

/-- A posted or held operation of a core. -/
structure Post where
  seq : Nat
  kind : OKind
  lanes : List Lane
  deriving DecidableEq, Repr

/-- An own write to G since the last refresh, newest first, with its intermediate address and its place in program order: the
instruction and the lane (R208, R209, R217, R341). -/
structure OwnW where
  loc : Nat
  ipa : Nat
  val : Byte
  seq : Nat
  lane : Nat
  deriving DecidableEq, Repr

/-- What a collective keeps at a participant (R269 to R275): its place in the ring; the scales that the participants have sent and
the agreed ones once there are any; the chunks that are finished with their codes and scales, and those that the check's chains have
given; the chunks to which it has nothing to contribute; the packets that wait here, those held for a backup, and those asked of
one; the packets sent and received for the digests; the counters of STAT; and the router context that serves it, by the command
that took it. -/
structure CflSt where
  ring : List (Nat × Nat × Bool × Nat)
  pos : Nat
  heard : List (Nat × List Byte)
  agreed : Option (List Byte)
  done : List (Nat × List (BitVec 32) × List Byte)
  checks : List (Nat × List (BitVec 32) × List Byte)
  lacks : List Nat
  inbox : List CflPkt
  held : List CflPkt
  asked : List (Nat × Nat)
  sentP : List (Nat × Nat × List Byte)
  recvP : List (Nat × Nat × List Byte)
  rescale : Nat
  satblk : Nat
  late : Nat
  inv : Bool
  ctx : Option Nat
  deriving DecidableEq, Repr

/-- An engine command in flight (R253): its core, E opcode, ticket and block; whether its parts have been carried out; the
snapshot that its reads of G see (R224); its progress and the time of its last; the pages it waits on, each with the request's
tag and whether the reply failed; its first failure (R359); the L bytes it has taken; the G writes that it publishes at
completion; the acknowledgements it awaits; and a collective's state. -/
structure Cmd where
  id : Nat
  core : CoreId
  part : PartId
  op : Nat
  j : Option (BitVec 4)
  block : BitVec 512
  done : Bool
  incl : Nat
  task : Option Nat
  prog : Nat
  since : Nat
  waits : List (Nat × Nat × Bool)
  fail : Option (Nat × BitVec 8 × Bool × Bool × Nat)
  cap : List (Nat × Byte)
  out : List (Nat × Byte)
  acks : List Nat
  cfl : Option CflSt
  deriving DecidableEq, Repr

/-- Why a core does not issue (R84, R85, R93, R222, R326): it ends its task, first letting everything land and then awaiting
the acknowledgements of what it published; it saves its task, at the safe unit whose list it takes, to the unit at which the
task resumes, inside that unit or not, for a yield or for a SUSPEND; it arrives or waits at a barrier; or a PHASE awaits its
acknowledgements. What follows the wait comes last. -/
inductive Wait where
  | none
  | halt
  | haltAck (acks : List Nat)
  | save (unit resume : CAddr) (trapres yield : Bool)
  | saveAck (unit resume : CAddr) (trapres yield : Bool) (acks : List Nat)
  | bar (group : Nat) (next : Wait)
  | arrive (group : Nat) (next : Wait)
  | phase (scope : BitVec 3) (acks : List Nat) (next : Wait)
  deriving DecidableEq, Repr

/-- A wait that is followed by another. -/
def Wait.andThen : Wait → Wait → Wait
  | .none, w => w
  | .bar g n, w => .bar g (n.andThen w)
  | .arrive g n, w => .arrive g (n.andThen w)
  | .phase sc a n, w => .phase sc a (n.andThen w)
  | x, _ => x

/-- The wait is for one group's barrier. -/
def Wait.isBar (w : Wait) (g : Nat) : Bool := match w with | .bar h _ => h == g | _ => false

/-- The frame data of a trap (R318) with its cause and slot (R317). -/
structure TrapInfo where
  cause : BitVec 8
  slot : Nat
  addr : Option (Bool × Nat)
  code : BitVec 8
  lane : Option Nat
  j : Option (BitVec 4)
  deriving DecidableEq, Repr

/-- A trap whose entry waits for results to land (R314), or an event that handler mode holds (R322). -/
structure HeldTrap where
  info : TrapInfo
  unit : CAddr
  leaf : BitVec 3
  repc : BitVec 8
  latch : List LatchE
  deriving DecidableEq, Repr

/-- One bundle execution that the lead of a lock-step gang gives a member (R62, R94): the unit, the taken leaf, the lead's
issue cycle, and the target registers, loop levels and next unit that the lead is left with; whether the gang is
saved at this bundle, and whether lock-step ends with it. -/
structure Follow where
  unit : CAddr
  bundle : Bundle
  len : Nat
  leaf : BitVec 3
  t : Nat
  left : BitVec 8
  b : Vector CAddr 8
  loops : Vector Loop 4
  age : Vector (BitVec 2) 8
  next : CAddr
  save : Bool
  ends : Bool
  deriving DecidableEq, Repr

/-- The bundle that a core is committing slot by slot: its unit, its bundle, the next slot, the taken leaf, the
register files and L as they stood at issue (R29), the issue cycle, and what the committed slots have done; skip names the slot whose WATCH check a resumption leaves out (R324). -/
structure Issue where
  act : Bool
  core : CoreId
  unit : CAddr
  len : Nat
  bundle : Bundle
  slot : Nat
  leaf : BitVec 3
  regs : Regs
  l : Mem
  ctl : List (BitVec 10 × W64)
  t : Nat
  seq0 : Nat
  chkSet : Bool
  redirect : Option CAddr
  redirected : Bool
  bubble : Nat
  wrote : List RegId
  skip : Option Nat
  resumed : Bool
  handler : Bool
  mates : List (CoreId × Nat)
  fol : Bool
  stop : Wait
  deriving DecidableEq, Repr

/-- One core (R9, R32) with its control registers, local store, engines' per-core state and task. -/
structure Core where
  regs : Regs
  q : Vector Stream 16
  j : Vector Ticket 16
  loops : Vector Loop 4
  -- STATUS (R315) and EPC (R316)
  wskip : Bool
  lbase : BitVec 3
  h : Bool
  leaf : BitVec 3
  repc : BitVec 8
  slot : BitVec 4
  cause : BitVec 8
  epc : CAddr
  latch : List LatchE
  -- SKEW (R64), SRKEY (R131), LSCALE (R134), FLAGS (R132), the selector of REPLAY (R201)
  skew : BitVec 4
  skewNow : BitVec 4
  srkey : W64
  lscale : W64
  flags : BitVec 7
  sel : BitVec 8
  -- memories (R9, R22, R23, R165)
  l : Mem
  dict : List Bundle
  code : List (BitVec 16)
  trapEntry : Option CAddr
  safe : List SafeList
  wlatch : Vector Row 64
  wfmt : Tag
  wat : Nat
  wslice : List (Nat × Row)
  -- transpose queue, footprint table, scoreboard (R180, R230, R205)
  tq : List TqE
  tqAt : Option Nat
  foot : List FootE
  ranges : List Range
  -- results, posted operations and own writes to G (R33, R209)
  pend : List Pend
  posts : List Post
  seq : Nat
  own : List OwnW
  unpub : List OwnW
  incl : Nat
  mine : Nat
  -- sequencing: the next unit, the count of a prefix already decoded, the executions left, whether the unit is resumed by
  -- an RTE, whether it is a further execution with no B slot and the unit chosen for after it, the wait, the wait that a
  -- handler interrupted, and what still follows the interrupted bundle; asks holds the page requests that a stalled bundle waits on, each with whether its reply failed;
  -- phaseAt is the µs at which a PHASE began to await its acknowledgements
  pc : CAddr
  pfx : Option (BitVec 8)
  left : BitVec 8
  resume : Bool
  further : Bool
  nextUnit : Option CAddr
  wait : Wait
  kept : Wait
  keptStop : Wait
  keptFurther : Bool
  keptNext : Option CAddr
  pendTrap : Option HeldTrap
  failed : List TrapInfo
  asks : List (Nat × Bool)
  yieldReq : Bool
  phaseAt : Nat
  -- the task (R54, R60, R66)
  rank : BitVec 6
  running : Bool
  rec_ : Nat
  exec : Nat
  since : Nat
  pickedAt : Nat
  last : Nat
  busy : Nat
  group : Option Nat
  member : BitVec 4
  lock : Bool
  follow : List Follow
  -- port weight (R296) and retirement (R333); uncorrectable data (R330)
  portw : BitVec 4
  retired : Bool
  badL : List Nat
  badW : List Nat
  badCore : Bool
  deriving DecidableEq, Repr

/-- A queue of a partition (R104): QCFG and its READY tasks, oldest first, with the cycle each became READY. -/
structure Queue where
  valid : Bool
  tearing : Bool
  prio : BitVec 3
  ready : List (Nat × Nat)
  deriving DecidableEq, Repr

/-- A task that Delta tracks, by its record address: state, queue, priority, sets and dependants (R53, R107, R108); the page request it waits on (R356); its group with whether it is in lock-step (R64); and its
saved tickets whose commands run on (R57). -/
structure Task where
  rec_ : Nat
  st : BitVec 4
  queue : BitVec 6
  prio : BitVec 3
  sets : List (Nat × Nat × Bool)
  dep : Nat
  depn : List Nat
  depl : Nat
  cap : Nat
  cnt : Nat
  donep : Nat
  word : Option Nat
  gang : Option (Nat × Bool)
  tix : List Ticket
  core : Option CoreId
  deriving DecidableEq, Repr

/-- A write of Delta to a record or a list whose page is missing: it waits on a page request, and is made in its turn (R356). -/
structure LateW where
  va : Nat
  lo : Nat
  n : Nat
  x : Nat
  tag : Option Nat
  deriving DecidableEq, Repr

/-- A spawn on its way into Delta (R105 to R108). A packet of the host whose record cannot be read yet has no answer so far
(R105, R114): owed. -/
structure Spawn where
  rec_ : Nat
  cmd : Option (CoreId × Nat)
  restore : Bool
  owed : Bool
  wait : Option (Option Nat × Nat × Bool)
  deriving DecidableEq, Repr

/-- The Sluice's choice for a queue (R304). -/
inductive SChoice where
  | run | checkpoint | discard
  deriving DecidableEq, Repr

/-- What the Sluice keeps of a queue for a pending deadline (R304, R312). -/
structure SQueue where
  q : BitVec 6
  choice : SChoice
  saving : Bool
  held : Bool
  ended : Nat
  saved : Nat
  cut : Bool
  outcome : BitVec 2
  runest : BitVec 20
  ckest : BitVec 20
  dirty : BitVec 24
  torn : Bool
  deriving DecidableEq, Repr

/-- A pending deadline (R299 to R312): times in µs of the management controller's clock. -/
structure Deadline where
  d : Nat
  td : Nat
  cut : Nat
  start : Nat
  margin : BitVec 3
  node : BitVec 16
  addr : GAddr
  ckpt : GAddr
  ckptn : Nat
  used : Nat
  qs : List SQueue
  cutDone : Bool
  evalAt : Nat
  deriving DecidableEq, Repr

/-- A partition (R284, R285). late holds the record writes that wait on pages, launch a LAUNCH whose root records
do, and attest an ATTEST whose report does (R289, R356). -/
structure Part where
  exist : Bool
  vf : VfId
  mask : W64
  keydig : BitVec 256
  s2root : W64
  allot : Nat
  ctxUsed : Nat
  gateOpen : Bool
  running : Bool
  launchAt : Nat
  image : Option (BitVec 256)
  imgData : List (Nat × Byte)
  queues : Vector Queue 64
  lastq : Vector (BitVec 6) 8
  tasks : List Task
  spawns : List Spawn
  late : List LateW
  launch : Option (List (BitVec 32) × Bool)
  attest : Option (BitVec 256 × GAddr)
  dl : Option Deadline
  vacant : Bool
  complete : Bool
  deriving DecidableEq, Repr

/-- A page request of a VF (R294): the module's own number for it, and the TAG that its entry carries once it is posted. -/
structure PageReq where
  tag : Nat
  num : BitVec 16
  ipa : Nat
  wr : Bool
  tbl : Bool
  level : Nat
  core : CoreId
  va : Nat
  posted : Bool
  deriving DecidableEq, Repr

/-- A virtual function's window registers and page requests (R59, R67, R104, R246, R247, R252, R257, R277, R288, R293,
R319, R324, R331). -/
structure Vf where
  bound : Option PartId
  rootbase : W64
  s1root : W64
  quant : W64
  safemax : Nat
  prqbase : W64
  prqprod : BitVec 32
  prqcons : BitVec 32
  prqxlat : W64
  reqs : List PageReq
  nextTag : Nat
  nextNum : BitVec 16
  stale : BitVec 8
  srcnt : Vector (BitVec 48) 8
  rillflags : BitVec 5
  engerr : W64
  linktmo : W64
  traperr : W64
  watch : W64
  errlog : W64
  deriving DecidableEq, Repr

/-- A cached translation (R291): the VF, the page with its kind, whether it is of the second stage alone, as the hypervisor
gave it in PRQXLAT (R337), and the page it leads to; the second-stage pages that its walk touched, and whether the first stage
was walked. -/
structure Tlb where
  vf : VfId
  page : Nat
  wr : Bool
  s2 : Bool
  loc : Nat
  ipas : List Nat
  s1 : Bool
  deriving DecidableEq, Repr

/-- Who publishes (R216): a core, a ROWADD that a Rill unit performs for a core (R280), an engine command, the module's own hardware
(Delta, the Sweep engines, the firmware: number 0), or a host node or another module. -/
inductive Agent where
  | core (c : CoreId)
  | row (c : CoreId)
  | engine (c : CoreId) (id : Nat)
  | host (n : Nat)
  deriving DecidableEq, Repr

/-- A publication (R219): its agent, the cores entitled to it as a mask, the publications it requires, its writes. -/
structure Pub where
  agent : Agent
  dom : W64
  deps : Nat
  writes : List (Nat × Byte)
  deriving DecidableEq, Repr

/-- The state of one member or row element of a pan region (R186, R188, R191, R194, R236). Codes are held in the
state format; x1 is an integer in the sample type, and a slot holds its intake, its count of samples and their sum. -/
structure Elem where
  y : BitVec 32
  y1 : BitVec 32
  x1 : Int
  slots : List (Nat × Nat × Int)
  flags : BitVec 6
  slope : BitVec 64
  deriving DecidableEq, Repr

/-- A member of a pan region (R186, R194): its elements, rate, last advance, the advance its channel has passed, and
whether an uncorrectable granule stops it (R330). -/
structure Memb where
  els : List Elem
  r : Nat
  nlast : Nat
  n : Nat
  bad : Bool
  deriving DecidableEq, Repr

/-- A configured pan region (R234 to R237): the pages it lies on, its descriptor and catch-up table, the tick number N, the
channels that the running close has reached, the TICKs that wait for it in commit order, those that wait for the buddy
with the acknowledgement they wait for, and its members. -/
structure Region where
  id : Nat
  part : PartId
  base : Nat
  locs : List (Nat × Nat)
  desc : BitVec 512
  table : List (List Int)
  n : Nat
  passed : List Nat
  ticks : List (CoreId × Nat)
  late : List (CoreId × Nat × Nat)
  membs : List Memb
  mirror : Bool
  deriving DecidableEq, Repr

/-- A mirrored region declared by MIRCFG (R335), and a copy that this module keeps for another (R227). -/
structure Mirror where
  part : PartId
  base : Nat
  len : Nat
  buddy : BitVec 16
  dpa : Nat
  deriving DecidableEq, Repr

structure CopyPage where
  m : BitVec 16
  lo : Nat
  hi : Nat
  deriving DecidableEq, Repr

/-- A pan copy that the buddy keeps (R248): its region as it stands, whose slots hold the samples that no advance has taken,
the closes: intake, channel, the number of channels, and the sample count they state; and whether its configuration has arrived. Before
that, early holds what has come. -/
structure PanCopy where
  m : BitVec 16
  id : Nat
  reg : Region
  closes : List (Nat × Nat × Nat × Nat)
  known : Bool
  early : List MirMsg
  deriving DecidableEq, Repr

/-- An outstanding acknowledgement of a mirrored or remote write (R222, R228). -/
structure AckW where
  id : Nat
  m : BitVec 16
  part : PartId
  deriving DecidableEq, Repr

/-- A receive queue of a peer and flow (R116, R276): entries waiting, and messages to discard (R277). -/
structure RxQueue where
  peer : BitVec 16
  flow : BitVec 8
  entries : List MsgEntry
  early : List MsgEntry
  nextMsg : Nat
  nextIdx : Nat
  dropUpTo : Nat
  deriving DecidableEq, Repr

/-- A packet that this module has sent (R213, R225, R227, R270, R275, R276): an entry of a message, the acknowledgement that a
message has found room, a collective's packet, a question to a collective's backup, a remote write as one of the n flits of a
publication, an operation for a remote Rill unit, a forwarded write or sample, and the acknowledgements of what others have
sent. A flit carries its flow and its sequence number. -/
inductive Packet where
  | msg (m : BitVec 16) (flow : BitVec 8) (k : MsgEntry)
  | taken (m : BitVec 16) (flow : BitVec 8) (n : Nat)
  | cfl (m : BitVec 16) (rank : Nat) (k : CflPkt)
  | cflAsk (m : BitVec 16) (rank : Nat) (chunk hop : Nat)
  | write (f : FlowId) (seq : BitVec 16) (dpa : Nat) (data : List Byte) (pub n : Nat) (ack : Nat)
  | rill (f : FlowId) (seq : BitVec 16) (dpa : Nat) (fmt op : Nat) (data : List Byte) (ack : Nat)
  | mirror (f : FlowId) (seq : BitVec 16) (k : MirMsg)
  | ackMirror (m : BitVec 16) (k : MirMsg)
  | ackWrite (f : FlowId) (seq : BitVec 16)
  deriving DecidableEq, Repr

/-- A flow into this module (R225): the next sequence number and the flits held because they came early. -/
structure Flow where
  id : FlowId
  next : BitVec 16
  early : List (BitVec 16 × FlitBody)
  deriving DecidableEq, Repr

/-- The flits of a publication of another module that have come (R220): whose it is, its number, how many flits it has, and each
flit that waits for the others with its flow, its sequence number, its address and its bytes. -/
structure Partial where
  src : Nat
  pub : Nat
  n : Nat
  flits : List (FlowId × BitVec 16 × Nat × List Byte)
  deriving DecidableEq, Repr

/-- The error counting of a unit (R332), with the window that the count belongs to, and its retirement (R333). -/
structure UnitErr where
  kind : BitVec 3
  unit : BitVec 16
  count : Nat
  win : Nat
  due : Bool
  retired : Bool
  deriving DecidableEq, Repr

/-- An INVAL that has not completed (R292). -/
structure Inval where
  vf : VfId
  kind : BitVec 2
  lo : Nat
  hi : Nat
  deriving DecidableEq, Repr

/-- BOOTSTAT (R343) and the running firmware (R344). -/
structure Boot where
  st : BitVec 3
  fwver : BitVec 16
  failcode : BitVec 8
  floor : BitVec 16
  fw : List Byte
  deriving DecidableEq, Repr

/-- An answer of a command window (R342): positive or negative, with data where the command answers with some. -/
structure Ack where
  pos : Bool
  data : Nat
  deriving DecidableEq, Repr

/-- An event that a window raises. -/
inductive Event where
  | kernelComplete (p : PartId) | teardown (p : PartId) (q : BitVec 6) | invalDone (v : VfId) | vacancy (p : PartId)
  | sluiceq (p : PartId) | allot (p : PartId) (n : Nat) | retpend (kind : BitVec 3) (unit : BitVec 16) | lost (m : BitVec 16) | fatal | thermtrip
  | prq (v : VfId) | refused
  | errPosted (kind : BitVec 3) (unit : BitVec 16)
  deriving DecidableEq, Repr

/-- What the manual leaves to the hardware inside one step: the permitted publications that a refresh includes as a
mask (R220), whether a cached translation serves (R292), what the Sluice measures: bandwidth in bytes per µs and
acknowledgement time (R303), how many columns or trains of each command a cancellation finds performed (R310), and the node that a
window command comes from (R342). -/
structure Choice where
  picks : Nat
  cached : Bool
  bw : Nat
  tack : Nat
  parts : Nat
  node : Nat
  deriving DecidableEq, Repr

/-- What the world does besides an event: a granule becomes uncorrectable, a unit finds an error (R329 to R332), or others
write a byte of another module or of a host node. -/
inductive Strike where
  | g (loc : Nat) | l (c : CoreId) (granule : Nat) | core (c : CoreId)
  | far (loc : Nat) (x : Byte) | weight (c : CoreId) (key : Nat)
  | unit (kind : BitVec 3) (unit : BitVec 16)
  deriving DecidableEq, Repr

/-- One turn of the outside world and of time: cycles and µs that pass, the event that happens, the choices made
inside it, and the granules that went bad before it (DESIGN CHOICE, log entry 2). -/
structure Turn where
  dt : Nat
  dus : Nat
  ev : Instr
  ch : Choice
  strikes : List Strike
  deriving DecidableEq, Repr

/-- The module. runs counts the bundle executions of each µs, by core and by queue of the task, for the last 64 µs (R303). -/
structure State where
  now : Nat
  us : Nat
  cores : Vector Core 64
  parts : Vector Part 64
  vfs : Vector Vf 128
  mem : Mem
  pubs : List Pub
  cmds : List Cmd
  nextId : Nat
  regions : List Region
  mirrors : List Mirror
  copies : List CopyPage
  panCopies : List PanCopy
  ackWait : List AckW
  rx : List RxQueue
  sent : List Packet
  flows : List Flow
  outSeq : List (FlowId × BitVec 16)
  partials : List Partial
  tlb : List Tlb
  invals : List Inval
  units : List UnitErr
  errthr : Vector W64 7
  modesel : BitVec 5
  stackTop : Vector Nat 4
  debt : List (Nat × Nat)
  badG : List Nat
  boot : Boot
  fatal : Bool
  dead : Bool
  mhz : Nat
  stallFor : Nat
  queryP : PartId
  queryQ : BitVec 6
  iss : Issue
  agenda : List Turn
  ch : Choice
  runs : List (Nat × CoreId × BitVec 6 × Nat)
  rr : Nat
  free : Nat
  ack : Ack
  events : List Event
  deriving DecidableEq, Repr

/-- Why a step stops with a fault: none of the manual's behaviours does, since every trap and failure has a
next state. -/
inductive Fault where
  /-- Raised by no meaning today; kept so that a stuck machine has a name. Safe: the model stops. -/
  | stuck
  deriving DecidableEq, Repr

/-- Why a step has no meaning. -/
inductive Refusal where
  /-- Raised by the dispatch of an instruction that has no meaning yet. Safe: the model stops. -/
  | notModelled (mnemonic : String)
  deriving DecidableEq, Repr

/-- The outcome of a step of this machine. -/
abbrev Out := Host.Outcome State Fault Refusal

/-! The machine right after reset. -/

def SReg.reset : SReg := ⟨0, true⟩
def VReg.reset : VReg := ⟨0, 0, true⟩
def Tile.reset : Tile := ⟨Vector.replicate 64 0, 0, 0⟩
def Stream.reset : Stream := ⟨false, false, 0, 0, false⟩
def Ticket.reset : Ticket := ⟨.idle, 0, 0, false, false, 0⟩
def Loop.reset : Loop := ⟨0, false, 0⟩
/-- Every register reads zero, full and tagged NONE (R57; before a first pickup, DESIGN CHOICE, log entry 4); p0 and m0 are hard-wired
in their readers (R32). -/
def Regs.reset : Regs := ⟨Vector.replicate 64 SReg.reset, 0, Vector.replicate 8 0, Vector.replicate 8 3, Vector.replicate 64 VReg.reset,
  Vector.replicate 8 0, Vector.replicate 4 Tile.reset⟩

def Core.reset : Core where
  regs := Regs.reset
  q := Vector.replicate 16 Stream.reset
  j := Vector.replicate 16 Ticket.reset
  loops := Vector.replicate 4 Loop.reset
  wskip := false
  lbase := 0
  h := false
  leaf := 0
  repc := 0
  slot := 15
  cause := 0
  epc := 0
  latch := []
  skew := 1
  skewNow := 1
  srkey := 0
  lscale := 0
  flags := 0
  sel := 0x80
  l := []
  dict := []
  code := []
  trapEntry := none
  safe := []
  wlatch := Vector.replicate 64 0
  wfmt := 0
  wat := 0
  wslice := []
  tq := []
  tqAt := none
  foot := []
  ranges := []
  pend := []
  posts := []
  seq := 0
  own := []
  unpub := []
  incl := 0
  mine := 0
  pc := 0
  pfx := none
  left := 0
  resume := false
  further := false
  nextUnit := none
  wait := .none
  kept := .none
  keptStop := .none
  keptFurther := false
  keptNext := none
  pendTrap := none
  failed := []
  asks := []
  yieldReq := false
  phaseAt := 0
  rank := 0
  running := false
  rec_ := 0
  exec := 0
  since := 0
  pickedAt := 0
  last := 0
  busy := 0
  group := none
  member := 0
  lock := false
  follow := []
  portw := 1
  retired := false
  badL := []
  badW := []
  badCore := false

def Queue.reset : Queue := ⟨false, false, 0, []⟩

/-- QCFG at reset (R104): queue 0 is valid at priority 7. (DEDUCED, log entry 85.) -/
def queues0 : Vector Queue 64 := (Vector.replicate 64 Queue.reset).set 0 ⟨true, false, 7, []⟩

def Part.reset : Part where
  exist := false
  vf := 0
  mask := 0
  keydig := 0
  s2root := 0
  allot := 0
  ctxUsed := 0
  gateOpen := true
  running := false
  launchAt := 0
  image := none
  imgData := []
  queues := queues0
  lastq := Vector.replicate 8 63
  tasks := []
  spawns := []
  late := []
  launch := none
  attest := none
  dl := none
  vacant := false
  complete := false

def Vf.reset : Vf where
  bound := none
  rootbase := 0
  s1root := 0
  quant := 262144
  safemax := 4096
  prqbase := 0
  prqprod := 0
  prqcons := 0
  prqxlat := 0
  reqs := []
  nextTag := 0
  nextNum := 0
  stale := 255
  srcnt := Vector.replicate 8 0
  rillflags := 0
  engerr := 0
  linktmo := 0x3E8000186A0
  traperr := 0
  watch := 0
  errlog := 0

def Issue.reset : Issue where
  act := false
  core := 0
  unit := 0
  len := 0
  bundle := 0
  slot := 0
  leaf := 0
  regs := Regs.reset
  l := []
  ctl := []
  t := 0
  seq0 := 0
  chkSet := false
  redirect := none
  redirected := false
  bubble := 0
  wrote := []
  skip := none
  resumed := false
  handler := false
  mates := []
  fol := false
  stop := .none

/-- The choice that the model makes where no turn names one: a refresh includes only what it must, translations are
walked afresh, and the measured rates are one (DESIGN CHOICE, log entries 11, 12, 28). -/
def Choice.reset : Choice := ⟨0, false, 1, 0, 0, 0⟩

/-- The stack's top of each die before any channel is retired (R289). -/
def stackTop0 : Vector Nat 4 := #v[0xC00000000, 0x1800000000, 0x2400000000, 0x3000000000]

/-- ERRTHR of each kind at reset (R332): WINDOW in [47:16] and THRESH in [15:0]. -/
def errthr0 : Vector W64 7 := #v[0xF42400010, 0xF42400008, 0xF42400040, 0xF42400010, 0x186A00100, 0xF42400004,
  0xF42400040]

end Sys2Proof.Machine

namespace Sys2Proof.Machine

/-- The module right after reset: the boot ROM is about to verify the firmware (R343), no partition exists, memory
lists nothing, and every register holds its reset value. -/
def State.reset : State where
  now := 0
  us := 0
  cores := Vector.replicate 64 Core.reset
  parts := Vector.replicate 64 Part.reset
  vfs := Vector.replicate 128 Vf.reset
  mem := []
  pubs := []
  cmds := []
  nextId := 1
  regions := []
  mirrors := []
  copies := []
  panCopies := []
  ackWait := []
  rx := []
  sent := []
  flows := []
  outSeq := []
  partials := []
  tlb := []
  invals := []
  units := []
  errthr := errthr0
  modesel := 0
  stackTop := stackTop0
  debt := []
  badG := []
  boot := ⟨0, 0, 0, Config.fuseFloor, []⟩
  fatal := false
  dead := false
  mhz := 3600
  stallFor := 0
  queryP := 0
  queryQ := 0
  iss := Issue.reset
  agenda := []
  ch := Choice.reset
  runs := []
  rr := 0
  free := 0
  ack := ⟨true, 0⟩
  events := []

end Sys2Proof.Machine
end

