-- ==== Sys2Proof/Machine/Basic.lean ====
section
/-! DEFINITION. Accessors of the state: cores, partitions, registers, and L. Every read and write of a register goes through
them, so that s0, p0, b0 and m0 behave as R32 says in one place. -/
namespace Sys2Proof.Machine

/-- Core c. -/
def cr (s : State) (c : CoreId) : Core := s.cores[c]
def setCr (s : State) (c : CoreId) (k : Core) : State := { s with cores := s.cores.set c k }
def modCr (s : State) (c : CoreId) (f : Core → Core) : State := setCr s c (f (cr s c))
/-- Partition p. -/
def pt (s : State) (p : PartId) : Part := s.parts[p]
def setPt (s : State) (p : PartId) (k : Part) : State := { s with parts := s.parts.set p k }
def modPt (s : State) (p : PartId) (f : Part → Part) : State := setPt s p (f (pt s p))
/-- Virtual function v. -/
def vf (s : State) (v : VfId) : Vf := s.vfs[v]
def setVf (s : State) (v : VfId) (k : Vf) : State := { s with vfs := s.vfs.set v k }
def modVf (s : State) (v : VfId) (f : Vf → Vf) : State := setVf s v (f (vf s v))

/-- The core of the bundle that is committing, and its changes. -/
def me (s : State) : Core := cr s s.iss.core
def modMe (s : State) (f : Core → Core) : State := modCr s s.iss.core f
def modIss (s : State) (f : Issue → Issue) : State := { s with iss := f s.iss }

/-- The module's cores, partitions and virtual functions in ascending order. -/
def coreIds : List CoreId := List.finRange 64
def partIds : List PartId := List.finRange 64
def vfIds : List VfId := List.finRange 128

/-- A core belongs to a partition's set (R284). -/
def inMask (m : W64) (c : CoreId) : Bool := m.getLsbD c.val
/-- The partition that holds a core (R284). -/
def partOf (s : State) (c : CoreId) : Option PartId :=
  partIds.find? (fun p => (pt s p).exist && inMask (pt s p).mask c)
/-- The cores of a partition, in rank order (R284). -/
def coresOf (s : State) (p : PartId) : List CoreId := coreIds.filter (fun c => inMask (pt s p).mask c)
/-- The virtual function of a partition that exists (R284). -/
def vfOfPart (s : State) (p : PartId) : Option VfId := if (pt s p).exist then some (pt s p).vf else none
/-- The virtual function of a core. -/
def vfOf (s : State) (c : CoreId) : Option VfId := (partOf s c).bind (vfOfPart s)
/-- The partition's core of a rank. -/
def coreOfRank (s : State) (p : PartId) (r : Nat) : Option CoreId := (coresOf s p)[r]?
/-- The die of a core (R7). -/
def dieOf (c : CoreId) : Nat := c.val / 16
/-- CYCLE of a core (R66): cycles since its partition's launch; before any launch the calendar counts from boot (R167). -/
def cycleOf (s : State) (c : CoreId) : Nat :=
  match partOf s c with
  | some p => s.now - (pt s p).launchAt
  | none => s.now

def raise (s : State) (e : Event) : State := { s with events := s.events ++ [e] }
/-- A positive answer of a window with data, and a negative one that changes nothing (R342). -/
def ackOk (s : State) (d : Nat) : State := { s with ack := ⟨true, d⟩ }
def nack (s : State) : State := { s with ack := ⟨false, 0⟩ }
def nackData (s : State) (d : Nat) : State := { s with ack := ⟨false, d⟩ }

/-! Reading registers as R29 reads them, from the register files that stood at issue. -/

/-- s0 reads 0 (R32). -/
def rdS (r : Regs) (n : BitVec 6) : W64 := if n = 0 then 0 else (r.s[n.toFin]).val
/-- s0 is always full (R32). -/
def fullS (r : Regs) (n : BitVec 6) : Bool := n == 0 || (r.s[n.toFin]).full
/-- p0 reads true (R32). -/
def rdP (r : Regs) (n : BitVec 5) : Bool := n == 0 || r.p.getLsbD n.toNat
/-- b0 reads the fall-through address (R32). -/
def rdB (r : Regs) (fall : CAddr) (n : BitVec 3) : CAddr := if n = 0 then fall else r.b[n.toFin]
def rdV (r : Regs) (n : BitVec 6) : VReg := r.v[n.toFin]
/-- m0 reads all ones (R32). -/
def rdM (r : Regs) (n : BitVec 3) : W64 := if n = 0 then BitVec.allOnes 64 else r.m[n.toFin]
def rdZ (r : Regs) (n : BitVec 2) : Tile := r.z[n.toFin]

/-- Sources of the bundle that is committing. -/
def srcS (s : State) (n : BitVec 6) : W64 := rdS s.iss.regs n
def srcP (s : State) (n : BitVec 5) : Bool := rdP s.iss.regs n
/-- The fall-through address (R20); that of a unit which ends at 2^24 wraps to 0 (DESIGN CHOICE, log entry 90). -/
def fallOf (s : State) : CAddr := s.iss.unit + BitVec.ofNat 24 s.iss.len
def srcB (s : State) (n : BitVec 3) : CAddr := rdB s.iss.regs (fallOf s) n
def srcV (s : State) (n : BitVec 6) : VReg := rdV s.iss.regs n
def srcM (s : State) (n : BitVec 3) : W64 := rdM s.iss.regs n

/-! Writing registers at commit. A write is noted for the resume latch, and a handler's write drops the register's
latch entry (R320). -/

/-- The register a latch entry names. -/
def LatchE.reg : LatchE → RegId
  | .s n _ => .s n | .p n _ => .p n | .b n _ => .b n | .v n _ _ => .v n | .m n _ => .m n | .z n _ => .z n | .c n _ => .c n

def note (r : RegId) (s : State) : State :=
  let s := modIss s (fun i => { i with wrote := r :: i.wrote })
  if s.iss.handler then modMe s (fun k => { k with latch := k.latch.filter (fun e => e.reg ≠ r) }) else s

def Core.setS (k : Core) (n : BitVec 6) (x : SReg) : Core :=
  if n = 0 then k else { k with regs := { k.regs with s := k.regs.s.set n.toFin x } }
def Core.setV (k : Core) (n : BitVec 6) (x : VReg) : Core := { k with regs := { k.regs with v := k.regs.v.set n.toFin x } }
def Core.setP (k : Core) (n : BitVec 5) (x : Bool) : Core :=
  if n = 0 then k else
    { k with regs := { k.regs with p := if x then k.regs.p ||| BitVec.twoPow 32 n.toNat
                                        else k.regs.p &&& ~~~(BitVec.twoPow 32 n.toNat) } }
def Core.setB (k : Core) (n : BitVec 3) (x : CAddr) : Core :=
  if n = 0 then k else { k with regs := { k.regs with b := k.regs.b.set n.toFin x } }
def Core.setM (k : Core) (n : BitVec 3) (x : W64) : Core :=
  if n = 0 then k else { k with regs := { k.regs with m := k.regs.m.set n.toFin x } }
def Core.setZ (k : Core) (n : BitVec 2) (x : Tile) : Core := { k with regs := { k.regs with z := k.regs.z.set n.toFin x } }
def Core.setQ (k : Core) (n : BitVec 4) (x : Stream) : Core := { k with q := k.q.set n.toFin x }
def Core.setJ (k : Core) (n : BitVec 4) (x : Ticket) : Core := { k with j := k.j.set n.toFin x }

/-- Writes a register and leaves it full (R33); writes to s0, p0, b0 and m0 are ignored (R32). -/
def wrS (n : BitVec 6) (x : W64) (s : State) : State := note (.s n) (modMe s (fun k => k.setS n ⟨x, true⟩))
def wrP (n : BitVec 5) (x : Bool) (s : State) : State := note (.p n) (modMe s (fun k => k.setP n x))
/-- A b register has just been written (R79). -/
def Core.young (k : Core) (n : BitVec 3) : Core := { k with regs := { k.regs with age := k.regs.age.set n.toFin 0 } }
def wrB (n : BitVec 3) (x : CAddr) (s : State) : State := note (.b n) (modMe s (fun k => (k.setB n x).young n))
def wrV (n : BitVec 6) (x : VBits) (t : Tag) (s : State) : State := note (.v n) (modMe s (fun k => k.setV n ⟨x, t, true⟩))
def wrM (n : BitVec 3) (x : W64) (s : State) : State := note (.m n) (modMe s (fun k => k.setM n x))
def wrZ (n : BitVec 2) (x : Tile) (s : State) : State := note (.z n) (modMe s (fun k => k.setZ n x))

/-- Marks a destination empty (R33); a v register takes its tag at commit (R126). -/
def emptyS (n : BitVec 6) (s : State) : State :=
  note (.s n) (modMe s (fun k => k.setS n ⟨rdS k.regs n, false⟩))
def emptyV (n : BitVec 6) (t : Tag) (s : State) : State :=
  note (.v n) (modMe s (fun k => k.setV n ⟨(rdV k.regs n).bits, t, false⟩))

/-- The next v register of a pair (R239, R249). -/
def vNext (n : BitVec 6) : BitVec 6 := n + 1

/-! Sticky flags of the core (R132), as a 7-bit set. -/
def fINV : BitVec 7 := 1
def fOVF : BitVec 7 := 2
def fUNF : BitVec 7 := 4
def fSAT : BitVec 7 := 8
def fCHK : BitVec 7 := 16
def fLSF : BitVec 7 := 32
def fSKIP : BitVec 7 := 64
/-- Flags are ORed, never cleared by another slot (R37, R132). -/
def setFlags (f : BitVec 7) (s : State) : State := modMe s (fun k => { k with flags := k.flags ||| f })

/-! L (R196, R202). -/

/-- The byte of a memory at an address; an unlisted byte is 0 (DESIGN CHOICE, log entry 5). -/
def Mem.rd (m : Mem) (a : Nat) : Byte := sget 0 m a
def Mem.wr (m : Mem) (a : Nat) (x : Byte) : Mem := sset 0 m a x
/-- n bytes from an address, as a little-endian number (R2). -/
def Mem.rdN (m : Mem) (a : Nat) : Nat → Nat
  | 0 => 0
  | n + 1 => (m.rd a).toNat + 256 * m.rdN (a + 1) n
/-- The n low bytes of a number to an address, little-endian (R2). -/
def Mem.wrN (m : Mem) (a : Nat) : Nat → Nat → Mem
  | 0, _ => m
  | n + 1, x => (m.wr a (BitVec.ofNat 8 x)).wrN (a + 1) n (x / 256)
def Mem.rdBytes (m : Mem) (a : Nat) (n : Nat) : List Byte := (span a n).map m.rd
def Mem.wrBytes (m : Mem) (a : Nat) : List Byte → Mem
  | [] => m
  | x :: r => (m.wr a x).wrBytes (a + 1) r
/-- Pairs of an address and a byte, written in order. -/
def Mem.wrPairs (m : Mem) : List (Nat × Byte) → Mem
  | [] => m
  | (a, x) :: r => (m.wr a x).wrPairs r

/-- The bytes of a number, the least significant first (R2). -/
def bytesOf : Nat → Nat → List Byte
  | 0, _ => []
  | n + 1, x => BitVec.ofNat 8 x :: bytesOf n (x / 256)
/-- The number whose bytes these are (R2). -/
def ofBytes : List Byte → Nat
  | [] => 0
  | x :: r => x.toNat + 256 * ofBytes r

/-- Sign extension of the low n bits of a number, as an integer. -/
def sgn (n : Nat) (x : Nat) : Int := let y := x % 2 ^ n; if y < 2 ^ (n - 1) then (y : Int) else (y : Int) - (2 ^ n : Nat)

/-- A whole-granule write to L makes the granule correct again (R329): the 8-byte granules that lie wholly in it. -/
def healL (lo n : Nat) (bad : List Nat) : List Nat := bad.filter (fun g => !(decide (lo ≤ 8 * g) && decide (8 * g + 8 ≤ lo + n)))

/-- Writes n bytes of a number to the core's L (R202). -/
def wrL (a n x : Nat) (s : State) : State :=
  modMe s (fun k => { k with l := k.l.wrN a n x, badL := healL a n k.badL })

/-- The last address of L (R196). -/
def lTop : Nat := 0x7FFFFF
/-- A range lies in L (R197). -/
def inL (a : Int) (n : Nat) : Bool := decide (0 ≤ a) && decide (a + n ≤ (lTop : Int) + 1)
/-- Two byte ranges overlap. -/
def overlap (lo hi lo2 hi2 : Nat) : Bool := decide (lo ≤ hi2) && decide (lo2 ≤ hi)

/-- The bits of a field of a number, as a number. -/
def bits (x : Nat) (lo n : Nat) : Nat := x / 2 ^ lo % 2 ^ n

/-- Field access on 64-bit registers. -/
def w64 (x : Nat) : W64 := BitVec.ofNat 64 x

end Sys2Proof.Machine
end

