-- ==== Sys2Proof/Machine/Operands.lean ====
section
/-! DEFINITION. The operands of every instruction: which registers a slot reads, with the W bit that governs the read, and
which it writes (R29, R33, R34, R36, R320), and the readers of the operand forms that several instructions share. -/
namespace Sys2Proof.Machine

/-- The registers that an instruction reads, each with its W bit (R34). Predicates, targets, masks, tiles and control
registers are always full, so their W bit never matters. The pair register of R355 is found with its region. -/
def srcRegs : Instr → List (RegId × Bool)
  | .add o => [(.s o.a, o.wa), (.s o.b, o.wb)]
  | .sub o => [(.s o.a, o.wa), (.s o.b, o.wb)]
  | .mul o => [(.s o.a, o.wa), (.s o.b, o.wb)]
  | .mulh o => [(.s o.a, o.wa), (.s o.b, o.wb)]
  | .mulhu o => [(.s o.a, o.wa), (.s o.b, o.wb)]
  | .div o => [(.s o.a, o.wa), (.s o.b, o.wb)]
  | .divu o => [(.s o.a, o.wa), (.s o.b, o.wb)]
  | .rem o => [(.s o.a, o.wa), (.s o.b, o.wb)]
  | .remu o => [(.s o.a, o.wa), (.s o.b, o.wb)]
  | .and o => [(.s o.a, o.wa), (.s o.b, o.wb)]
  | .or o => [(.s o.a, o.wa), (.s o.b, o.wb)]
  | .xor o => [(.s o.a, o.wa), (.s o.b, o.wb)]
  | .andn o => [(.s o.a, o.wa), (.s o.b, o.wb)]
  | .shl o => [(.s o.a, o.wa), (.s o.b, o.wb)]
  | .shr o => [(.s o.a, o.wa), (.s o.b, o.wb)]
  | .sar o => [(.s o.a, o.wa), (.s o.b, o.wb)]
  | .rol o => [(.s o.a, o.wa), (.s o.b, o.wb)]
  | .min o => [(.s o.a, o.wa), (.s o.b, o.wb)]
  | .max o => [(.s o.a, o.wa), (.s o.b, o.wb)]
  | .minu o => [(.s o.a, o.wa), (.s o.b, o.wb)]
  | .maxu o => [(.s o.a, o.wa), (.s o.b, o.wb)]
  | .clmull o => [(.s o.a, o.wa), (.s o.b, o.wb)]
  | .clmulh o => [(.s o.a, o.wa), (.s o.b, o.wb)]
  | .clz o => [(.s o.a, o.wa)]
  | .ctz o => [(.s o.a, o.wa)]
  | .popc o => [(.s o.a, o.wa)]
  | .mov o => [(.s o.a, o.wa)]
  | .sextI8 o => [(.s o.a, o.wa)]
  | .sextI16 o => [(.s o.a, o.wa)]
  | .sextI32 o => [(.s o.a, o.wa)]
  | .zextI8 o => [(.s o.a, o.wa)]
  | .zextI16 o => [(.s o.a, o.wa)]
  | .zextI32 o => [(.s o.a, o.wa)]
  | .sel o => [(.s o.a, o.wa), (.s o.b, o.wb), (.p o.p, true)]
  | .addi o => [(.s o.a, o.wa)]
  | .lea o => [(.s o.a, o.wa), (.s o.b, o.wb)]
  | .lih o => [(.s o.d, o.wd)]
  | .cmp o => [(.s o.a, o.wa), (.s o.b, o.wb)]
  | .cmpi o => [(.s o.a, o.wa)]
  | .pand o => [(.p o.a, true), (.p o.b, true)]
  | .por o => [(.p o.a, true), (.p o.b, true)]
  | .pxor o => [(.p o.a, true), (.p o.b, true)]
  | .pandn o => [(.p o.a, true), (.p o.b, true)]
  | .prepReg o => [(.s o.a, o.wa)]
  | .getc o => [(.c o.c, true)]
  | .setc o => [(.s o.a, o.wa)]
  | .ldl o => [(.s o.base, o.wb)]
  | .stl o => [(.s o.v, o.wv), (.s o.base, o.wb)]
  | .vldl o => [(.s o.base, o.wb)]
  | .vstl o => [(.v o.v, o.wv), (.s o.base, o.wb), (.m o.m, true)]
  | .vstlStream o => [(.v o.v, o.wv), (.m o.m, true)]
  | .bind o => [(.s o.a, o.wa)]
  | .qskip o => [(.s o.a, o.wa)]
  | .ldg o => [(.s o.base, o.wb)]
  | .stg o => [(.s o.v, o.wv), (.s o.base, o.wb)]
  | .vldg o => [(.s o.base, o.wb), (.m o.m, true)]
  | .vstg o => [(.v o.v, o.wv), (.s o.base, o.wb), (.m o.m, true)]
  | .vgath o => [(.s o.base, o.wb), (.v o.i, o.wi), (.m o.m, true)]
  | .vscat o => [(.v o.v, o.wv), (.s o.base, o.wb), (.v o.i, o.wi), (.m o.m, true)]
  | .amo o => [(.s o.base, o.wb), (.s o.o, o.wo)]
  | .amoCas o => [(.s o.base, o.wb), (.s o.o, o.wo), (.s o.d, o.wd)]
  | .radd o => [(.s o.v, o.wv), (.s o.base, o.wb)]
  | .rowadd o => if o.n.toNat < 8 then [(.v o.v, o.wv), (.s o.base, o.wb)] else [(.v o.v, o.wv), (.v (vNext o.v), o.wv), (.s o.base, o.wb)]
  | .rowld o => [(.s o.base, o.wb)]
  | .psmpScalar o => [(.s o.v, o.wv), (.s o.base, o.wb)]
  | .psmpVector o => [(.v o.v, o.wv), (.s o.base, o.wb)]
  | .ptapScalar o => [(.s o.base, o.wb)]
  | .ptapVector o => [(.s o.base, o.wb)]
  | .ptaps o => [(.s o.base, o.wb)]
  | .rtapScalar o => [(.s o.base, o.wb)]
  | .rtapVector o => [(.s o.base, o.wb)]
  | .pref o => [(.s o.base, o.wb)]
  | .vadd o => [(.v o.a, o.wa), (.v o.b, o.wb), (.m o.m, true)]
  | .vsub o => [(.v o.a, o.wa), (.v o.b, o.wb), (.m o.m, true)]
  | .vmul o => [(.v o.a, o.wa), (.v o.b, o.wb), (.m o.m, true)]
  | .vmulh o => [(.v o.a, o.wa), (.v o.b, o.wb), (.m o.m, true)]
  | .vmad o => [(.v o.a, o.wa), (.v o.b, o.wb), (.m o.m, true), (.v o.d, o.wd)]
  | .vand o => [(.v o.a, o.wa), (.v o.b, o.wb), (.m o.m, true)]
  | .vor o => [(.v o.a, o.wa), (.v o.b, o.wb), (.m o.m, true)]
  | .vxor o => [(.v o.a, o.wa), (.v o.b, o.wb), (.m o.m, true)]
  | .vshl o => [(.v o.a, o.wa), (.v o.b, o.wb), (.m o.m, true)]
  | .vshr o => [(.v o.a, o.wa), (.v o.b, o.wb), (.m o.m, true)]
  | .vsar o => [(.v o.a, o.wa), (.v o.b, o.wb), (.m o.m, true)]
  | .vmin o => [(.v o.a, o.wa), (.v o.b, o.wb), (.m o.m, true)]
  | .vmax o => [(.v o.a, o.wa), (.v o.b, o.wb), (.m o.m, true)]
  | .vabs o => [(.v o.a, o.wa), (.m o.m, true)]
  | .vwacc o => [(.v o.a, o.wa), (.v o.b, o.wb), (.m o.m, true), (.v o.d, o.wd)]
  | .vclmulLo o => [(.v o.a, o.wa), (.v o.b, o.wb), (.m o.m, true)]
  | .vclmulHi o => [(.v o.a, o.wa), (.v o.b, o.wb), (.m o.m, true)]
  | .vpopc o => [(.v o.a, o.wa), (.m o.m, true)]
  | .vfadd o => [(.v o.a, o.wa), (.v o.b, o.wb), (.m o.m, true), (.c 5, true)]
  | .vfsub o => [(.v o.a, o.wa), (.v o.b, o.wb), (.m o.m, true), (.c 5, true)]
  | .vfmul o => [(.v o.a, o.wa), (.v o.b, o.wb), (.m o.m, true), (.c 5, true)]
  | .vfma o => [(.v o.a, o.wa), (.v o.b, o.wb), (.m o.m, true), (.v o.d, o.wd), (.c 5, true)]
  | .vfmin o => [(.v o.a, o.wa), (.v o.b, o.wb), (.m o.m, true)]
  | .vfmax o => [(.v o.a, o.wa), (.v o.b, o.wb), (.m o.m, true)]
  | .vfabs o => [(.v o.a, o.wa), (.m o.m, true)]
  | .vfneg o => [(.v o.a, o.wa), (.m o.m, true)]
  | .vfcmp o => [(.v o.a, o.wa), (.v o.b, o.wb), (.m o.m, true)]
  | .vmcmp o => [(.v o.a, o.wa), (.v o.b, o.wb), (.m o.m, true)]
  | .mand o => [(.m o.a, true), (.m o.b, true)]
  | .mor o => [(.m o.a, true), (.m o.b, true)]
  | .mnot o => [(.m o.a, true)]
  | .vexp2 o => [(.v o.a, o.wa), (.m o.m, true)]
  | .vlog2 o => [(.v o.a, o.wa), (.m o.m, true)]
  | .vrcp o => [(.v o.a, o.wa), (.m o.m, true)]
  | .vrsq o => [(.v o.a, o.wa), (.m o.m, true)]
  | .vsqrt o => [(.v o.a, o.wa), (.m o.m, true)]
  | .vcvt o => [(.v o.a, o.wa), (.m o.m, true), (.c 5, true)]
  | .vscale o => [(.v o.a, o.wa), (.v o.b, o.wb), (.m o.m, true), (.c 5, true)]
  | .vpack o => [(.v o.a, o.wa), (.v o.b, o.wb), (.m o.m, true), (.c 5, true)]
  | .vunpack o => [(.v o.a, o.wa), (.m o.m, true)]
  | .vtag o => [(.v o.a, o.wa), (.m o.m, true)]
  | .vred o => [(.v o.a, o.wa), (.m o.m, true), (.c 5, true)]
  | .vscan o => [(.v o.a, o.wa), (.m o.m, true), (.c 5, true)]
  | .vsplat o => [(.s o.a, o.wa), (.m o.m, true)]
  | .vmovs o => [(.v o.a, o.wa)]
  | .vsel o => [(.v o.a, o.wa), (.v o.b, o.wb), (.m o.m, true)]
  | .vlane o => [(.v o.a, o.wa), (.s o.b, o.wb), (.m o.m, true)]
  | .vchkf o => [(.v o.a, o.wa), (.m o.m, true)]
  | .lsupd => [(.c 6, true), (.c 7, true)]
  | .xperm o => [(.v o.a, o.wa), (.v o.p, o.wp)]
  | .xrot o => [(.v o.a, o.wa)]
  | .xbcast o => [(.v o.a, o.wa)]
  | .xshuf o => [(.v o.a, o.wa)]
  | .xrev o => [(.v o.a, o.wa)]
  | .xcmpr o => [(.v o.a, o.wa), (.m o.g, true)]
  | .wld o => [(.s o.a, o.wa)]
  | .beat o => [(.z o.z, true)]
  | .drain o => [(.z o.z, true)]
  | .zrot o => [(.z o.z, true)]
  | .zspill o => [(.z o.z, true)]
  | .cpy o => [(.s o.a, o.wa)]
  | .cpyw o => [(.s o.a, o.wa)]
  | .tqpush o => [(.s o.a, o.wa)]
  | .tqpop o => [(.s o.a, o.wa)]
  | .rkgath o => [(.s o.a, o.wa)]
  | .rkseg o => [(.s o.a, o.wa)]
  | .rill o => [(.s o.a, o.wa)]
  | .cflAr o => [(.s o.a, o.wa)]
  | .cflRs o => [(.s o.a, o.wa)]
  | .cflAg o => [(.s o.a, o.wa)]
  | .cflBc o => [(.s o.a, o.wa)]
  | .send o => [(.s o.a, o.wa)]
  | .recv o => [(.s o.a, o.wa)]
  | .pancfg o => [(.s o.a, o.wa)]
  | .tick o => [(.s o.a, o.wa)]
  | .foot o => [(.s o.a, o.wa), (.s o.b, o.wb)]
  | .spawn o => [(.s o.a, o.wa)]
  | .join o => [(.s o.a, o.wa)]
  | .leave o => [(.s o.a, o.wa)]
  | .bar o => [(.s o.a, o.wa)]
  | .tree o => [(.p (o.t0.extractLsb' 1 5), true), (.p (o.t1.extractLsb' 1 5), true), (.p (o.t2.extractLsb' 1 5), true), (.p (o.t3.extractLsb' 1 5), true), (.b o.l0, true), (.b o.l1, true), (.b o.l2, true), (.b o.l3, true), (.b o.l4, true)]
  | .loopr o => [(.s o.a, o.wa)]
  | .call o => [(.b o.t, true)]
  | .ret o => [(.b o.b, true)]
  | .suspend o => [(.b o.b, true)]
  | _ => []

/-- The registers that an instruction writes (R36); those of a long-latency producer are marked empty at commit (R33). -/
def dstRegs : Instr → List RegId
  | .add o => [.s o.d]
  | .sub o => [.s o.d]
  | .mul o => [.s o.d]
  | .mulh o => [.s o.d]
  | .mulhu o => [.s o.d]
  | .div o => [.s o.d]
  | .divu o => [.s o.d]
  | .rem o => [.s o.d]
  | .remu o => [.s o.d]
  | .and o => [.s o.d]
  | .or o => [.s o.d]
  | .xor o => [.s o.d]
  | .andn o => [.s o.d]
  | .shl o => [.s o.d]
  | .shr o => [.s o.d]
  | .sar o => [.s o.d]
  | .rol o => [.s o.d]
  | .min o => [.s o.d]
  | .max o => [.s o.d]
  | .minu o => [.s o.d]
  | .maxu o => [.s o.d]
  | .clmull o => [.s o.d]
  | .clmulh o => [.s o.d]
  | .clz o => [.s o.d]
  | .ctz o => [.s o.d]
  | .popc o => [.s o.d]
  | .mov o => [.s o.d]
  | .sextI8 o => [.s o.d]
  | .sextI16 o => [.s o.d]
  | .sextI32 o => [.s o.d]
  | .zextI8 o => [.s o.d]
  | .zextI16 o => [.s o.d]
  | .zextI32 o => [.s o.d]
  | .sel o => [.s o.d]
  | .addi o => [.s o.d]
  | .lea o => [.s o.d]
  | .li o => [.s o.d]
  | .lih o => [.s o.d]
  | .cmp o => [.p o.p]
  | .cmpi o => [.p o.p]
  | .pand o => [.p o.d]
  | .por o => [.p o.d]
  | .pxor o => [.p o.d]
  | .pandn o => [.p o.d]
  | .prepLabel o => [.b o.b]
  | .prepReg o => [.b o.b]
  | .getc o => [.s o.d]
  | .setc o => [.c o.c]
  | .ldl o => [.s o.d]
  | .vldl o => [.v o.d]
  | .vldlStream o => [.v o.d]
  | .qstat o => [.s o.d]
  | .ldg o => [.s o.d]
  | .vldg o => [.v o.d]
  | .vgath o => [.v o.d]
  | .amo o => [.s o.d]
  | .amoCas o => [.s o.d]
  | .rowld o => if o.n.toNat < 8 then [.v o.d] else [.v o.d, .v (vNext o.d)]
  | .ptapScalar o => [.s o.d]
  | .ptapVector o => [.v o.d]
  | .ptaps o => [.v o.d]
  | .rtapScalar o => [.s o.d, .s o.age]
  | .rtapVector o => [.v o.d, .s o.age]
  | .vadd o => [.v o.d]
  | .vsub o => [.v o.d]
  | .vmul o => [.v o.d]
  | .vmulh o => [.v o.d]
  | .vmad o => [.v o.d]
  | .vand o => [.v o.d]
  | .vor o => [.v o.d]
  | .vxor o => [.v o.d]
  | .vshl o => [.v o.d]
  | .vshr o => [.v o.d]
  | .vsar o => [.v o.d]
  | .vmin o => [.v o.d]
  | .vmax o => [.v o.d]
  | .vabs o => [.v o.d]
  | .vwacc o => [.v o.d]
  | .vclmulLo o => [.v o.d]
  | .vclmulHi o => [.v o.d]
  | .vpopc o => [.v o.d]
  | .vfadd o => [.v o.d]
  | .vfsub o => [.v o.d]
  | .vfmul o => [.v o.d]
  | .vfma o => [.v o.d]
  | .vfmin o => [.v o.d]
  | .vfmax o => [.v o.d]
  | .vfabs o => [.v o.d]
  | .vfneg o => [.v o.d]
  | .vfcmp o => [.m o.d]
  | .vmcmp o => [.m o.d]
  | .mand o => [.m o.d]
  | .mor o => [.m o.d]
  | .mnot o => [.m o.d]
  | .vexp2 o => [.v o.d]
  | .vlog2 o => [.v o.d]
  | .vrcp o => [.v o.d]
  | .vrsq o => [.v o.d]
  | .vsqrt o => [.v o.d]
  | .vcvt o => [.v o.d]
  | .vscale o => [.v o.d]
  | .vpack o => [.v o.d]
  | .vunpack o => [.v o.d]
  | .vtag o => [.v o.d]
  | .vred o => [.v o.d]
  | .vscan o => [.v o.d]
  | .vsplat o => [.v o.d]
  | .vmovs o => [.s o.d]
  | .vsel o => [.v o.d]
  | .vlane o => [.v o.d]
  | .lsupd => [.c 6, .c 7]
  | .xperm o => [.v o.d]
  | .xrot o => [.v o.d]
  | .xbcast o => [.v o.d]
  | .xshuf o => [.v o.d]
  | .xrev o => [.v o.d]
  | .xcmpr o => [.v o.d]
  | .beat o => [.z o.z]
  | .drain o => [.v o.d]
  | .zclr o => [.z o.z]
  | .zrot o => [.z o.z]
  | .zfill o => [.z o.z]
  | .jpoll o => [.p o.p]
  | .join o => [.s o.d]
  | .call o => [.b o.l]
  | _ => []

/-- A write to s0, p0, b0 or m0 never collides (R36). -/
def RegId.hard : RegId → Bool
  | .s n => n == 0 | .p n => n == 0 | .b n => n == 0 | .m n => n == 0 | _ => false

/-- The stream that an L-slot or T-slot instruction takes elements through (R101). -/
def streamsOf : Instr → List (BitVec 4)
  | .vldlStream o => [o.q] | .vstlStream o => [o.q] | .bind o => [o.q] | .unbind o => [o.q] | .qskip o => [o.q]
  | .qstat o => [o.q] | .beat o => if o.sc then [o.q, o.sq] else [o.q] | .zspill o => [o.q] | .zfill o => [o.q]
  | _ => []

/-- The address base + offset × scale, exactly (R197, R202). -/
def eaddr (s : State) (base : BitVec 6) {n : Nat} (off : BitVec n) (scale : Nat) : Int :=
  (srcS s base).toNat + off.toInt * scale

/-- A G address: the sum modulo 2^64, which must lie below 2^52 (R197). -/
def gAddr (a : Int) : Nat := (a % (2 ^ 64 : Nat)).toNat

/-- The bytes of a scalar access of size code z (R202). -/
def szBytes (z : BitVec 2) : Nat := 2 ^ z.toNat

/-- A loaded scalar: sign-extended or zero-extended (R202). -/
def extend (n : Nat) (unsigned : Bool) (x : Nat) : W64 :=
  if unsigned then w64 (x % 2 ^ (8 * n)) else BitVec.ofInt 64 (sgn (8 * n) x)

/-- The lanes that a mask enables, in ascending order (R207, R208). -/
def lanesOn (m : W64) : List Nat := (upto 64).filter (fun i => m.getLsbD i)

/-- Lane i of a v register (R118). -/
def laneOf (v : VBits) (i : Nat) : BitVec 32 := elem v 32 i

end Sys2Proof.Machine
end

