-- ==== Sys2Proof/Machine/Global.lean ====
section
/-! DEFINITION. Global memory: locations, the two-stage walk, page requests, publications and refreshes, and the reads
and writes of cores and engines that go through them (R196 to R200, R216 to R228, R284 to R295). -/
namespace Sys2Proof.Machine

/-! Locations. A byte of G is known by one number: a local device-physical address below 2^46, a byte of another module
above it, and a byte of a host node's memory above those. -/
def locRemote (m : Nat) (dpa : Nat) : Nat := 2 ^ 46 * (1 + m) + dpa
def locNode (node : Nat) (a : Nat) : Nat := 2 ^ 63 + 2 ^ 52 * node + a
def locIsLocal (x : Nat) : Bool := decide (x < 2 ^ 46)
def locIsRemote (x : Nat) : Bool := decide (2 ^ 46 ≤ x) && decide (x < 2 ^ 63)
def locModule (x : Nat) : Nat := x / 2 ^ 46 - 1
/-- The stack of this module, below the top that retired channels leave each die (R289, R333). -/
def dpaStack (s : State) (x : Nat) : Bool :=
  decide (x < 0x3000000000) && decide (x < s.stackTop[3]) &&
    (match x / 0xC00000000 with
      | 0 => decide (x < s.stackTop[0]) | 1 => decide (x < s.stackTop[1])
      | 2 => decide (x < s.stackTop[2]) | _ => decide (x < s.stackTop[3]))
/-- The backing memory (R289). -/
def dpaBacking (x : Nat) : Bool := decide (0x10000000000 ≤ x) && decide (x ≤ 0x1FFFFFFFFFF)
/-- A local address that exists (R289). -/
def dpaOk (s : State) (x : Nat) : Bool := dpaStack s x || dpaBacking x

/-! The walk (R288, R289). -/

inductive Xl where
  | ok (loc : Nat)
  | s1
  | denied
  | miss (ipa : Nat) (tbl : Bool) (level : Nat)
  deriving DecidableEq, Repr

def lvlLo : Nat → Nat | 0 => 39 | 1 => 30 | 2 => 21 | _ => 16
def lvlN : Nat → Nat | 0 => 13 | 1 => 9 | 2 => 9 | _ => 5
/-- The alignment in bits of the table below a level (R288): 4 KiB, 4 KiB, 256 bytes. -/
def nextAlign : Nat → Nat | 0 => 12 | 1 => 12 | _ => 8

inductive Ent where
  | invalid | bad | table (a : Nat) (wr : Bool) | leaf (a : Nat) (wr : Bool) (remote : Option Nat)

/-- A stage-1 entry (R288). -/
def ent1 (lvl : Nat) (e : Nat) : Ent :=
  if e % 2 = 0 then .invalid
  else
    let t := bitAt e 1; let wr := bitAt e 2; let a := bits e 8 44 * 256
    if bits e 4 4 ≠ 0 || bitAt e 3 then .bad
    else if t then (if 3 ≤ lvl || a % 2 ^ nextAlign lvl ≠ 0 then .bad else .table a wr)
    else if lvl = 0 || a % 2 ^ lvlLo lvl ≠ 0 then .bad else .leaf a wr none

/-- A stage-2 entry (R288): a table outside the local ranges is malformed. -/
def ent2 (s : State) (lvl : Nat) (e : Nat) : Ent :=
  if e % 2 = 0 then .invalid
  else
    let t := bitAt e 1; let wr := bitAt e 2; let rem := bitAt e 3; let a := bits e 8 38 * 256; let m := bits e 48 16
    if bits e 4 4 ≠ 0 || bits e 46 2 ≠ 0 then .bad
    else if t then (if 3 ≤ lvl || rem || m ≠ 0 || a % 2 ^ nextAlign lvl ≠ 0 || !dpaOk s a then .bad else .table a wr)
    else if lvl = 0 || a % 2 ^ lvlLo lvl ≠ 0 || (!rem && m ≠ 0) then .bad
    else .leaf a wr (if rem then some m else none)

/-- Where a second-stage leaf leads (R289). -/
def leafLoc (s : State) (remote : Option Nat) (dpa : Nat) : Xl :=
  match remote with
  | some m => .ok (locRemote m dpa)
  | none => if dpaOk s dpa then .ok dpa else .denied

/-- The second-stage walk from a level (R289). Each entry is read in one act at memory (R290); R330 names no reader of a table, so
an entry in an uncorrectable column is used as it stands (DESIGN CHOICE, log entry 91). -/
def walk2 (s : State) (x : Nat) (tbl wr : Bool) : Nat → Nat → Nat → Xl
  | 0, _, _ => .denied
  | fuel + 1, lvl, t =>
    match ent2 s lvl (s.mem.rdN (t + 8 * bits x (lvlLo lvl) (lvlN lvl)) 8) with
    | .invalid => .miss x tbl lvl
    | .bad => .denied
    | .table a w => if wr && !w then .denied else walk2 s x tbl wr fuel (lvl + 1) a
    | .leaf a w rm => if wr && !w then .denied else leafLoc s rm (a + x % 2 ^ lvlLo lvl)

/-- The second stage of a partition over an intermediate address (R289); with MODESEL.WALK the walk reads no table and
an uncached page misses (R337). -/
def stage2 (s : State) (p : Part) (x : Nat) (tbl wr : Bool) : Xl :=
  if !p.s2root.getLsbD 0 then .denied
  else if s.modesel.getLsbD 0 then
    match s.tlb.find? (fun e => e.vf == p.vf && e.s2 && e.page == x / 65536) with
    | some e =>
      if wr && !e.wr || (locIsLocal e.loc && !dpaOk s (e.loc + x % 65536)) then .denied else .ok (e.loc + x % 65536)
    | none => .miss x tbl 0
  else if !dpaOk s (bits p.s2root.toNat 16 30 * 65536) then .denied
  else walk2 s x tbl wr 4 0 (bits p.s2root.toNat 16 30 * 65536)

/-- The first-stage walk from a level (R289). -/
def walk1 (s : State) (p : Part) (va : Nat) (wr : Bool) : Nat → Nat → Nat → Xl
  | 0, _, _ => .s1
  | fuel + 1, lvl, t =>
    match stage2 s p (t + 8 * bits va (lvlLo lvl) (lvlN lvl)) true false with
    | .ok loc =>
      match ent1 lvl (s.mem.rdN loc 8) with
      | .invalid => .s1
      | .bad => .s1
      | .table a w => if wr && !w then .s1 else walk1 s p va wr fuel (lvl + 1) a
      | .leaf a w _ => if wr && !w then .s1 else stage2 s p (a + va % 2 ^ lvlLo lvl) false wr
    | r => r

/-- The translation of a virtual address by a fresh walk (R289). -/
def walkVa (s : State) (p : Part) (va : Nat) (wr : Bool) : Xl :=
  let r := (vf s p.vf).s1root
  if !r.getLsbD 0 then stage2 s p va false wr else walk1 s p va wr 4 0 (bits r.toNat 16 36 * 65536)

/-- The intermediate address of a virtual one: the first stage alone (R289). -/
def ipaGo (s : State) (p : Part) (va : Nat) : Nat → Nat → Nat → Option Nat
  | 0, _, _ => none
  | fuel + 1, lvl, t =>
    match stage2 s p (t + 8 * bits va (lvlLo lvl) (lvlN lvl)) true false with
    | .ok loc =>
      match ent1 lvl (s.mem.rdN loc 8) with
      | .table a _ => ipaGo s p va fuel (lvl + 1) a
      | .leaf a _ _ => some (a + va % 2 ^ lvlLo lvl)
      | _ => none
    | _ => none
/-- The first stage is on (R288). -/
def s1On (s : State) (p : Part) : Bool := (vf s p.vf).s1root.getLsbD 0
def s1Base (s : State) (p : Part) : Nat := bits (vf s p.vf).s1root.toNat 16 36 * 65536
def ipaOf (s : State) (p : Part) (va : Nat) : Nat := if s1On s p then (ipaGo s p va 4 0 (s1Base s p)).getD va else va
/-- The intermediate pages that the second stage serves in a walk: those of the tables, and the access's own (R289, R291). -/
def walkPages (s : State) (p : Part) (va : Nat) : Nat → Nat → Nat → List Nat
  | 0, _, _ => []
  | fuel + 1, lvl, t =>
    let a := t + 8 * bits va (lvlLo lvl) (lvlN lvl)
    a / 65536 :: (match stage2 s p a true false with
      | .ok loc => (match ent1 lvl (s.mem.rdN loc 8) with | .table b _ => walkPages s p va fuel (lvl + 1) b | _ => [])
      | _ => [])
def xlPages (s : State) (p : Part) (va : Nat) : List Nat :=
  (if s1On s p then walkPages s p va 4 0 (s1Base s p) else []) ++ [ipaOf s p va / 65536]

/-- The translation of an access (R289, R292): a cached translation serves where the choice says so, one is held and the second
stage is on (R288), otherwise the tables are walked. -/
def xlate (s : State) (p : PartId) (va : Nat) (wr : Bool) : Xl :=
  let q := pt s p
  match s.tlb.find? (fun e => s.ch.cached && q.s2root.getLsbD 0 && !e.s2 && e.vf == q.vf && e.page == va / 65536 && (e.wr || !wr)) with
  | some e => .ok (e.loc + va % 65536)
  | none => walkVa s q va wr

/-- Holds a translation that a walk gave (R291). -/
def tlbAdd (s : State) (p : PartId) (va : Nat) (wr : Bool) (loc : Nat) : State :=
  let q := pt s p
  let l := loc - va % 65536
  let same := fun (e : Tlb) => e.vf == q.vf && !e.s2 && e.page == va / 65536 && e.wr == wr
  if s.tlb.any (fun e => same e && e.loc == l) then s
  else { s with tlb := ⟨q.vf, va / 65536, wr, false, l, xlPages s q va, s1On s q⟩ :: s.tlb.filter (fun e => !same e) }

/-! Publications (R216 to R221). -/

/-- The members of a core's group, and the core itself (R216). -/
def gangMask (s : State) (c : CoreId) : W64 :=
  match (cr s c).group with
  | none => BitVec.twoPow 64 c.val
  | some g => BitVec.ofNat 64 (sumNat (coreIds.map (fun d =>
      if d = c || (decide ((cr s d).group = some g) && decide (partOf s d = partOf s c)) then 2 ^ d.val else 0)))

/-- The cores of a scope's domain (R216): 0 core, 1 gang, 2 die, 3 module, 4 fabric. -/
def domMask (s : State) (c : CoreId) (scope : Nat) : W64 :=
  match scope with
  | 0 => BitVec.twoPow 64 c.val
  | 1 => gangMask s c
  | 2 => BitVec.ofNat 64 (sumNat (coreIds.map (fun d =>
      if dieOf d = dieOf c && decide (partOf s d = partOf s c) then 2 ^ d.val else 0)))
  | _ => BitVec.allOnes 64

/-- Whole columns that a write covers become correct again (R329). -/
def healG (ws : List (Nat × Byte)) (bad : List Nat) : List Nat :=
  bad.filter (fun g => !((upto 32).all (fun i => ws.any (fun w => w.1 == 32 * g + i))))

/-- Two publications are of one agent (R216): a ROWADD is its core's. -/
def Agent.same : Agent → Agent → Bool
  | .core c, .core d => c == d
  | .core c, .row d => c == d
  | .row c, .core d => c == d
  | .row c, .row d => c == d
  | .engine c i, .engine d j => c == d && i == j
  | .host m, .host n => m == n
  | _, _ => false
/-- The earlier publications of an agent, as a mask (R220). -/
def agentMask (a : Agent) : List Pub → Nat → Nat
  | [], _ => 0
  | p :: r, b => (if p.agent.same a then b else 0) ||| agentMask a r (2 * b)

/-- Appends a publication at its instant (R218): the coherent memory takes its writes. It requires what its agent's snapshot
included, and the agent's earlier publications (R220). -/
def addPub (s : State) (a : Agent) (dom : W64) (deps : Nat) (ws : List (Nat × Byte)) : State :=
  { s with pubs := s.pubs ++ [⟨a, dom, deps ||| agentMask a s.pubs 1, ws⟩], mem := s.mem.wrPairs ws, badG := healG ws s.badG }

def pubBit (s : State) : Nat := 2 ^ s.pubs.length

/-- Publishes a core's unpublished writes at a scope (R219). -/
def publish (s : State) (c : CoreId) (scope : Nat) : State :=
  let k := cr s c
  let b := pubBit s
  let s := addPub s (.core c) (domMask s c scope) (k.incl ||| k.mine) (k.unpub.reverse.map (fun w => (w.loc, w.val)))
  modCr s c (fun k => { k with unpub := [], mine := k.mine ||| b })

/-- A write performed directly on memory for a core, published at .fab at its instant (R219): its own, or a ROWADD's. -/
def pubDirectAs (a : Agent) (s : State) (c : CoreId) (ws : List (Nat × Byte)) : State :=
  let k := cr s c
  let b := pubBit s
  let s := addPub s a (BitVec.allOnes 64) (k.incl ||| k.mine) ws
  modCr s c (fun k => { k with mine := k.mine ||| b })
def pubDirect (s : State) (c : CoreId) (ws : List (Nat × Byte)) : State := pubDirectAs (.core c) s c ws

/-- An agent lies in a core's domain at a scope (R216): the module's own hardware from .mod on, host nodes and other modules at .fab
alone. -/
def agentIn (dom : W64) (scope : Nat) : Agent → Bool
  | .core d => inMask dom d
  | .row d => inMask dom d
  | .engine d _ => inMask dom d
  | .host n => decide (3 ≤ scope) && (n == 0 || scope == 4)
/-- The publications that a refresh includes without a choice: those it held, and those of agents in the core's domain
that are entitled to it (R220, first row). -/
def mustMask (c : CoreId) (dom : W64) (scope : Nat) : List Pub → Nat → Nat
  | [], _ => 0
  | p :: r, b => (if agentIn dom scope p.agent && inMask p.dom c then b else 0) ||| mustMask c dom scope r (2 * b)

/-- The closure of a set of publications under what they require (R220, second row). -/
def closeMask : List Pub → Nat → Nat → Nat
  | [], _, acc => acc
  | p :: r, b, acc => closeMask r (2 * b) (if acc / b % 2 == 1 then acc ||| p.deps else acc)

/-- What a refresh at a scope must include (R220, first two rows). -/
def ownIncl (s : State) (c : CoreId) (scope : Nat) (more : Nat) : Nat :=
  let k := cr s c
  closeMask s.pubs 1 (k.incl ||| k.mine ||| mustMask c (domMask s c scope) scope s.pubs 1 ||| more)
/-- The publications in a snapshot refreshed now at a scope, with the permitted ones that the step's choice picks
(R220). -/
def inclAt (s : State) (c : CoreId) (scope : Nat) : Nat := ownIncl s c scope (s.ch.picks % 2 ^ s.pubs.length)
/-- The ROWADDs that have been performed, as a mask. -/
def rowMask : List Pub → Nat → Nat
  | [], _ => 0
  | p :: r, b => (match p.agent with | .row _ => b | _ => 0) ||| rowMask r (2 * b)
/-- What the reads of an engine command see (R224, R280): a refresh at core scope by the issuing core, and every ROWADD, which needs
neither a publication nor a refresh; stores of other cores only as this core's refreshes have included them. -/
def cmdIncl (s : State) (c : CoreId) : Nat := ownIncl s c 0 0 ||| rowMask s.pubs 1

/-- Refreshes a core's snapshot (R220); what it has not published stays in its own view (R217). -/
def refresh (s : State) (c : CoreId) (scope : Nat) : State :=
  let n := inclAt s c scope
  modCr s c (fun k => { k with incl := n, own := k.unpub })

/-- The byte that a set of publications shows (R220): the latest included write in coherence order, else the memory
at power-on, which reads 0 (DESIGN CHOICE, log entry 5). -/
def snapByte (incl loc : Nat) : List Pub → Nat → Byte → Byte
  | [], _, acc => acc
  | p :: r, b, acc =>
    snapByte incl loc r (2 * b)
      (if incl / b % 2 == 1 then (match (p.writes.reverse.find? (fun w => w.1 == loc)) with
        | some w => w.2 | none => acc) else acc)

/-- The byte of a core's snapshot (R217). -/
def snapOf (s : State) (c : CoreId) (loc : Nat) : Byte := snapByte (cr s c).incl loc s.pubs 1 0
/-- A place in program order stands before another: the instruction, then the lane (R208). -/
def before (seq lane seq2 lane2 : Nat) : Bool := decide (seq < seq2) || (seq == seq2 && decide (lane < lane2))
/-- The core's own write to a byte, the latest before a place in program order, with its place (R209, R217). -/
def ownByte (k : Core) (seq loc : Nat) : Option (Nat × Nat × Byte) :=
  (k.own.find? (fun w => w.loc == loc && decide (w.seq < seq))).map (fun w => (w.seq, w.lane, w.val))
/-- The later of two writes. -/
def laterW (a b : Option (Nat × Nat × Byte)) : Option (Nat × Nat × Byte) :=
  match a, b with
  | some x, some y => if before x.1 x.2.1 y.1 y.2.1 then b else a
  | none, y => y
  | x, none => x
/-- The data of a held store that covers a byte by its virtual address (R209), the latest in program order, with its place. -/
def heldByte (va seq : Nat) : List Post → Option (Nat × Nat × Byte)
  | [] => none
  | o :: r => laterW
      (if o.kind = .store && decide (o.seq < seq) then
        (o.lanes.reverse.findSome? (fun l =>
          if decide (l.va ≤ va) && decide (va < l.va + l.len) then ((l.data.getD [])[va - l.va]?).map (fun x => (o.seq, l.i, x)) else none))
      else none) (heldByte va seq r)

/-- The bytes of a load lane (R209, R217): of the core's stores before it the latest, held or performed, else the snapshot's.
(DEDUCED, log entry 8.) -/
def loadBytes (s : State) (c : CoreId) (seq va loc n : Nat) : List Byte :=
  (upto n).map (fun i =>
    match laterW (heldByte (va + i) seq (cr s c).posts) (ownByte (cr s c) seq (loc + i)) with
    | some x => x.2.2
    | none => snapOf s c (loc + i))

/-- Puts own writes in their place of an own view, newest first. -/
def ownPut (ws : List OwnW) (seq lane : Nat) (own : List OwnW) : List OwnW :=
  let young := fun (w : OwnW) => before seq lane w.seq w.lane
  own.takeWhile young ++ ws ++ own.dropWhile young
/-- The own writes of some bytes, the highest address first. -/
def ownBytes (seq lane loc ipa : Nat) (bs : List Byte) : List OwnW :=
  (upto bs.length).reverse.map (fun i => ⟨loc + i, ipa + i, bs.getD i 0, seq, lane⟩)
/-- A plain store takes effect in the core's own view at its place in program order: a store that was held goes below the
younger ones, and is not published over a younger one to the same byte (R209, R218). -/
def storeOwn (s : State) (c : CoreId) (seq lane loc ipa : Nat) (bs : List Byte) : State :=
  let ws := ownBytes seq lane loc ipa bs
  modCr s c (fun k =>
    let hidden := fun (w : OwnW) => k.own.any (fun y => before seq lane y.seq y.lane && y.loc == w.loc)
    { k with own := ownPut ws seq lane k.own, unpub := ownPut (ws.filter (fun w => !hidden w)) seq lane k.unpub })
/-- What an operation of the core on memory has written there stands in the core's own view at its place (R209, R217); a page that moves
takes it along in memory, so that no intermediate address is kept. -/
def memOwn (c : CoreId) (seq : Nat) (ws : List (Nat × Byte)) (s : State) : State :=
  modCr s c (fun k => { k with own := ownPut (ws.reverse.map (fun w => ⟨w.1, 2 ^ 64, w.2, seq, 0⟩)) seq 0 k.own })

/-- An uncorrectable column among some bytes of G (R330): its first address. -/
def badColumn (s : State) (loc n : Nat) : Option Nat :=
  (s.badG.find? (fun g => overlap loc (loc + n - 1) (32 * g) (32 * g + 31))).map (fun g => 32 * g)

/-- A region that holds a location (R210, R239, R283): by the pages its members lie on. -/
def regionAt (s : State) (loc : Nat) : Option Region :=
  s.regions.find? (fun r => r.locs.any (fun x => decide (x.1 ≤ loc) && decide (loc < x.1 + x.2)))

/-- A copy that another module mirrors here (R227). -/
def copyAt (s : State) (loc : Nat) : Bool := s.copies.any (fun k => decide (k.lo ≤ loc) && decide (loc ≤ k.hi))

/-! Publishing beyond this module (R213, R222, R225, R227, R228). -/

/-- The lane of a flow (R225): the hash of a device-physical address. -/
def laneHash (a : Nat) : BitVec 4 :=
  BitVec.ofNat 4 (a / 2 ^ 6) ^^^ BitVec.ofNat 4 (a / 2 ^ 10) ^^^ BitVec.ofNat 4 (a / 2 ^ 14) ^^^ BitVec.ofNat 4 (a / 2 ^ 18)
/-- An agent's number in the flows that leave this module (DESIGN CHOICE, log entry 87). -/
def Agent.no : Agent → Nat
  | .core c => c.val
  | .row c => c.val
  | .host n => 64 + n
  | .engine _ id => 2 ^ 32 + id
/-- The next sequence number of an outgoing flow (R225), and a flit that takes it. -/
def outNo (s : State) (f : FlowId) : BitVec 16 := ((s.outSeq.find? (fun x => x.1 == f)).map Prod.snd).getD 0
def sendFlit (f : FlowId) (k : BitVec 16 → Packet) (s : State) : State :=
  { s with sent := s.sent ++ [k (outNo s f)], outSeq := (f, outNo s f + 1) :: s.outSeq.filter (fun x => x.1 ≠ f) }
/-- A new acknowledgement of a module is awaited; its number is the state's next one. -/
def awaitAck (m : BitVec 16) (p : PartId) (s : State) : State :=
  { s with nextId := s.nextId + 1, ackWait := s.ackWait ++ [⟨s.nextId, m, p⟩] }

/-- The mirrored region and offset of a location, found by walking the region's pages (R227). -/
def mirrorPage (s : State) (m : Mirror) (loc : Nat) : Nat → Nat → Option Nat
  | 0, _ => none
  | n + 1, off =>
    match walkVa s (pt s m.part) (m.base + off) false with
    | .ok l => if l / 65536 = loc / 65536 then some (off + loc % 65536) else mirrorPage s m loc n (off + 65536)
    | _ => mirrorPage s m loc n (off + 65536)
/-- The mirrored region that a location lies in, whoever writes there (R227). -/
def mirrorOf (s : State) (loc : Nat) : Option (Mirror × Nat) :=
  s.mirrors.findSome? (fun m => (mirrorPage s m loc (m.len / 65536) 0).map (fun off => (m, off)))
/-- The declared mirrored region that a virtual address of a partition lies in (R335). -/
def mirrorAt (s : State) (p : PartId) (va : Nat) : Option Mirror :=
  s.mirrors.find? (fun m => m.part == p && decide (m.base ≤ va) && decide (va < m.base + m.len))
/-- Forwards to a buddy in the flow of the copy's line: the sender is this module's memory, so that writes to one line keep their
coherence order (R227). -/
def sendMirror (m : Mirror) (a : Nat) (k : MirMsg) (s : State) : State :=
  let f : FlowId := ⟨64, m.buddy, laneHash a⟩
  sendFlit f (fun n => .mirror f n k) (awaitAck m.buddy m.part s)

/-- Sends one written byte to the module that must hold it: a remote module, as one flit of the publication, or the buddy of a
mirrored region. The answer names the acknowledgement to wait for. -/
def forward (a : Agent) (p : PartId) (ws : List (Nat × Byte)) (s : State) (w : Nat × Byte) : State × List Nat :=
  if locIsRemote w.1 then
    let m : BitVec 16 := BitVec.ofNat 16 (locModule w.1)
    let f : FlowId := ⟨a.no, m, laneHash (w.1 % 2 ^ 46)⟩
    let n := ws.countP (fun x => locIsRemote x.1 && locModule x.1 == locModule w.1)
    (sendFlit f (fun q => .write f q (w.1 % 2 ^ 46) [w.2] s.pubs.length n s.nextId) (awaitAck m p s), [s.nextId])
  else match mirrorOf s w.1 with
    | none => (s, [])
    | some (m, off) => (sendMirror m (m.dpa + off) (.write Config.thisModule (BitVec.ofNat 46 (m.dpa + off)) [w.2]) s, [s.nextId])
def forwardGo (a : Agent) (p : PartId) (ws : List (Nat × Byte)) : List (Nat × Byte) → State → State × List Nat
  | [], s => (s, [])
  | w :: r, s =>
    let (s, x) := forward a p ws s w
    let (s, y) := forwardGo a p ws r s
    (s, x ++ y)
/-- Whether any write leaves the module: a fast answer where no region is mirrored and no page is remote. -/
def anyLeaves (s : State) (ws : List (Nat × Byte)) : Bool := !s.mirrors.isEmpty || ws.any (fun w => locIsRemote w.1)
/-- Sends the writes of a publication on (R222, R227). -/
def forwardAll (a : Agent) (p : PartId) (ws : List (Nat × Byte)) (s : State) : State × List Nat :=
  if anyLeaves s ws then forwardGo a p ws ws s else (s, [])

/-- Publishes a core's writes at a scope and sends them on; the answer lists the acknowledgements (R219, R222, R227). -/
def publishFwd (s : State) (c : CoreId) (scope : Nat) : State × List Nat :=
  let ws := (cr s c).unpub.reverse.map (fun w => (w.loc, w.val))
  forwardAll (.core c) ((partOf s c).getD 0) ws (publish s c scope)
/-- A write performed directly on memory for a core, sent on as R227 gives. -/
def directFwd (a : Agent) (s : State) (c : CoreId) (ws : List (Nat × Byte)) : State :=
  (forwardAll a ((partOf s c).getD 0) ws (pubDirectAs a s c ws)).1
/-- A core's own earlier stores to some bytes are performed on memory before an operation on them, and count as published
(R212, R219, R251); those to a mirrored region are forwarded (R210). -/
def flushOwn (s : State) (c : CoreId) (seq lo n : Nat) : State :=
  let hit := fun (w : OwnW) => decide (lo ≤ w.loc) && decide (w.loc < lo + n) && decide (w.seq < seq)
  let ws := ((cr s c).unpub.filter hit).reverse.map (fun w => (w.loc, w.val))
  if ws.isEmpty then s
  else directFwd (.core c) (modCr s c (fun k => { k with unpub := k.unpub.filter (fun w => !hit w) })) c ws

/-- The writes of an agent that is no core, made whole at one instant and sent on (R218, R227). -/
def pubBy (a : Agent) (s : State) (ws : List (Nat × Byte)) : State :=
  (forwardAll a 0 ws (addPub s a (BitVec.allOnes 64) 0 ws)).1
/-- The Y codes that the Rill units write to the members of a pan region: the buddy makes its own from the samples and closes that it is
sent (R227, R248). -/
def pubPan (s : State) (ws : List (Nat × Byte)) : State := addPub s (.host 0) (BitVec.allOnes 64) 0 ws
/-- The writes of this module's own hardware, Delta's and the firmware's among them: seen at once by what reads memory (R56). -/
def pubOther (s : State) (ws : List (Nat × Byte)) : State := pubBy (.host 0) s ws

/-- Writes the bytes of a number at a location on behalf of Delta or the firmware. -/
def poke (s : State) (loc n x : Nat) : State :=
  pubOther s ((upto n).map (fun i => (loc + i, (bytesOf n x).getD i 0)))

/-! Page requests (R293, R294). -/

/-- The entries of a VF's page-request queue. -/
def prqSize (v : Vf) : Nat := 2 ^ (bits v.prqbase.toNat 0 4 + 4)
/-- The 32 bytes of a request (R294). -/
def prqEntry (v : VfId) (r : PageReq) : List Byte :=
  bytesOf 8 (r.num.toNat + r.wr.toNat * 2 ^ 16 + r.tbl.toNat * 2 ^ 17 + r.level * 2 ^ 18 + v.val * 2 ^ 20 + r.core.val * 2 ^ 32) ++
  bytesOf 8 r.ipa ++ bytesOf 8 r.va ++ bytesOf 8 0
/-- The next TAG that no outstanding request carries (R294). -/
def freeTag (v : Vf) : BitVec 16 :=
  (((upto 4097).map (fun i => v.nextNum + BitVec.ofNat 16 i)).find? (fun n => !v.reqs.any (fun r => r.posted && r.num == n))).getD 0
/-- The requests with the first unposted one posted under a TAG. -/
def markPosted (n : BitVec 16) : List PageReq → List PageReq
  | [] => []
  | r :: l => if r.posted then r :: markPosted n l else { r with posted := true, num := n } :: l
/-- The oldest unposted miss of the VF enters its queue, when there is room and a tag is left (R294): a write to the node
that holds the queue. -/
def postRequest (v : VfId) (s : State) : State :=
  let k := vf s v
  match k.reqs.find? (fun r => !r.posted) with
  | none => s
  | some r =>
    if prqSize k ≤ (k.prqprod - k.prqcons).toNat || 4096 ≤ k.reqs.countP (fun r => r.posted) then s
    else
      let n := freeTag k
      let a := locNode (bits k.prqbase.toNat 48 16) (bits k.prqbase.toNat 12 36 * 4096 + 32 * (k.prqprod.toNat % prqSize k))
      let bs := prqEntry v { r with num := n }
      let s := { addPub s (.host 0) (BitVec.allOnes 64) 0 ((upto 32).map (fun i => (a + i, bs.getD i 0))) with badG := s.badG }
      raise (modVf s v (fun k => { k with prqprod := k.prqprod + 1, nextNum := n + 1, reqs := markPosted n k.reqs })) (.prq v)

/-- A miss joins a request of its page and kind, or makes a new one, which is posted at once when there is room and otherwise by
PAGE_REQUEST_POST; the answer is the module's number of the request. A page of a guest table is read. (DEDUCED, log entries 14
and 81.) -/
def pageMiss (s : State) (c : CoreId) (p : PartId) (ipa va : Nat) (tbl : Bool) (level : Nat) (wr : Bool) : State × Nat :=
  let v := vf s (pt s p).vf
  let wr := wr && !tbl
  match v.reqs.find? (fun r => r.ipa / 65536 == ipa / 65536 && (r.wr || !wr)) with
  | some r => (s, r.tag)
  | none =>
    (postRequest (pt s p).vf (modVf s (pt s p).vf (fun v => { v with
      reqs := v.reqs ++ [⟨v.nextTag, 0, ipa, wr, tbl, level, c, va, false⟩], nextTag := v.nextTag + 1 })), v.nextTag)

end Sys2Proof.Machine
end

