-- ==== Sys2Proof/Machine/Tasks.lean ====
section
/-! DEFINITION. The Delta scheduler: continuation records in memory, spawning, dependences, the end of a task, yield
requests, teardown and the completion of a kernel (R53 to R56, R90, R104 to R115, R305, R356). -/
namespace Sys2Proof.Machine

/-- Logs a failure in ENGERR (R257). -/
def engErr (v : VfId) (cause : BitVec 8) (asp : Bool) (addr : Nat) (s : State) : State :=
  modVf s v (fun k =>
    if k.engerr.getLsbD 63 then { k with engerr := k.engerr ||| BitVec.twoPow 64 62 }
    else { k with engerr := w64 (2 ^ 63 + (k.engerr.toNat / 2 ^ 62 % 2) * 2 ^ 62 + asp.toNat * 2 ^ 60 +
      cause.toNat * 2 ^ 52 + addr % 2 ^ 52) })

/-! The counts of errors (R332). -/

def unitOfErr (s : State) (kind : BitVec 3) (u : BitVec 16) : UnitErr :=
  (s.units.find? (fun x => x.kind == kind && x.unit == u)).getD ⟨kind, u, 0, 0, false, false⟩
def setUnit (x : UnitErr) (s : State) : State :=
  { s with units := x :: s.units.filter (fun y => !(y.kind == x.kind && y.unit == x.unit)) }
def threshOf (s : State) (kind : BitVec 3) : Nat := (s.errthr.getD kind.toNat 0).toNat % 2 ^ 16
def windowUs (s : State) (kind : BitVec 3) : Nat := bits (s.errthr.getD kind.toNat 0).toNat 16 32
/-- The window that a kind's counts belong to now. -/
def windowNow (s : State) (kind : BitVec 3) : Nat := s.us / windowUs s kind
/-- A unit's count in the window that stands (R332). -/
def countNow (s : State) (x : UnitErr) : Nat := if x.win = windowNow s x.kind then x.count else 0
/-- One more error in a unit's count of the window that stands; one above THRESH judges the fault lasting, which makes the unit due
(R332, R333). With MODESEL.ERR nothing is judged (R337). True where the unit has become due. -/
def bumpUnit (kind : BitVec 3) (u : BitVec 16) (s : State) : State × Bool :=
  let x := unitOfErr s kind u
  let n := countNow s x + 1
  let lasting := !s.modesel.getLsbD 2 && decide (threshOf s kind < n) && !x.due
  (setUnit { x with count := n, win := windowNow s kind, due := x.due || lasting } s, lasting)
/-- A unit has found an error: its count grows, and one that becomes due is reported (R332, R333). With MODESEL.ERR every error is posted
to the host instead (R337). -/
def foundError (kind : BitVec 3) (u : BitVec 16) (s : State) : State :=
  if (unitOfErr s kind u).retired then s
  else
    let x := bumpUnit kind u s
    if s.modesel.getLsbD 2 then raise x.1 (.errPosted kind u) else if x.2 then raise x.1 (.retpend kind u) else x.1
/-- A read has found an uncorrectable column of G, a granule of a core's stores or one of its weight dies: the channel, the core or the
column detects it (R329, R332). -/
def foundG (loc : Nat) (s : State) : State :=
  if dpaBacking loc then foundError 6 (BitVec.ofNat 16 (Config.channelOf loc)) s else foundError 2 (BitVec.ofNat 16 (Config.channelOf loc)) s
def foundL (c : CoreId) (s : State) : State := foundError 0 (BitVec.ofNat 16 c.val) s
def foundW (c : CoreId) (col : Nat) (s : State) : State := foundError 1 (BitVec.ofNat 16 (66 * c.val + col)) s

/-! Delta's accesses (R356). -/

/-- The location of bytes that Delta reaches through a partition's translation (R356). -/
def dloc (s : State) (p : PartId) (va : Nat) (wr : Bool) : Xl := xlate s p va wr

/-- The 64-bit word at an offset of a record, read by Delta. -/
def recWord (s : State) (p : PartId) (rec_ off : Nat) : Option Nat :=
  match dloc s p rec_ false with
  | .ok loc => some (s.mem.rdN (loc + off) 8)
  | _ => none

/-- Makes a write of Delta: n bits at bit lo of a word. A missing page is asked for, and the write waits on it and behind an earlier
one to its word (R356). A page that may not be written, and an
uncorrectable column, drops it (DESIGN CHOICE, log entry 92). -/
def latePut (p : PartId) (w : LateW) (s : State) : State :=
  let wait := fun (t : Option Nat) (s : State) => modPt s p (fun q => { q with late := q.late ++ [{ w with tag := t }] })
  if (pt s p).late.any (fun x => x.va == w.va) then wait none s
  else match dloc s p w.va true with
    | .ok loc =>
      let x := s.mem.rdN loc 8
      if (badColumn s loc 8).isSome then foundG loc s
      else poke s loc 8 (x - bits x w.lo w.n * 2 ^ w.lo + (w.x % 2 ^ w.n) * 2 ^ w.lo)
    | .miss ipa tbl lvl => let y := pageMiss s 0 p ipa w.va tbl lvl true; wait (some y.2) y.1
    | _ => s
/-- Replaces n bits at bit lo of the word at an offset of a record. -/
def recPut (p : PartId) (rec_ off lo n x : Nat) (s : State) : State := latePut p ⟨rec_ + off, lo, n, x, none⟩ s
/-- The writes that waited on a page request are made, or fail with its reply, and those behind them follow (R356). -/
def lateReply (p : PartId) (tag : Nat) (fail : Bool) (s : State) : State :=
  (pt s p).late.foldl (fun s w =>
    if w.tag == some tag && fail then s
    else if w.tag == some tag || w.tag.isNone then latePut p w s
    else modPt s p (fun q => { q with late := q.late ++ [w] })) (modPt s p (fun q => { q with late := [] }))

/-- The reserved fields of a record that software writes are zero, and LIVEP and DONEP are aligned (R54, R55). -/
def recFit (s : State) (p : PartId) (rec_ : Nat) : Bool :=
  match recWord s p rec_ 0, recWord s p rec_ 8, recWord s p rec_ 0x10, recWord s p rec_ 0x18, recWord s p rec_ 0x20,
      recWord s p rec_ 0x28 with
  | some a, some b, some c, some d, some e, some f =>
    bits a 44 20 == 0 && bits a 27 1 == 0 && bits a 43 1 == 0 && bits b 52 12 == 0 && bits c 52 12 == 0 && bits d 0 24 == 0 &&
    bits e 52 12 == 0 && bits f 52 12 == 0 && c % 64 == 0 && f % 8 == 0
  | _, _, _, _, _, _ => false

def taskOf (s : State) (p : PartId) (rec_ : Nat) : Option Task := (pt s p).tasks.find? (fun t => t.rec_ == rec_ && decide (t.st.toNat < 3))
def modTask (p : PartId) (rec_ : Nat) (f : Task → Task) (s : State) : State :=
  modPt s p (fun q => { q with tasks := q.tasks.map (fun t => if t.rec_ = rec_ && decide (t.st.toNat < 3) then f t else t) })

/-- The states of R53 as STATE codes. -/
def stWaiting : BitVec 4 := 0
def stReady : BitVec 4 := 1
def stRunning : BitVec 4 := 2
def stDone : BitVec 4 := 3
def stAborted : BitVec 4 := 4
def stAbortedDep : BitVec 4 := 5
def stCheckpointed : BitVec 4 := 6
def stDiscarded : BitVec 4 := 7

/-- A task is not in a final state (R53). -/
def Task.live (t : Task) : Bool := decide (t.st.toNat < 3)

def modQueue (p : PartId) (q : BitVec 6) (f : Queue → Queue) (s : State) : State :=
  modPt s p (fun k => { k with queues := k.queues.set q.toFin (f k.queues[q.toFin]) })
def queueOf (s : State) (p : PartId) (q : BitVec 6) : Queue := (pt s p).queues[q.toFin]

/-- A task becomes READY at the tail of its queue (R109, R110). -/
def makeReady (p : PartId) (rec_ : Nat) (s : State) : State :=
  match taskOf s p rec_ with
  | none => s
  | some t =>
    recPut p rec_ 0x18 24 4 1 (modQueue p t.queue (fun q => { q with ready := q.ready ++ [(rec_, s.now)] })
      (modTask p rec_ (fun t => { t with st := stReady, core := none }) s))

/-- The core that runs a task. -/
def coreRunning (s : State) (p : PartId) (rec_ : Nat) : Option CoreId :=
  (coresOf s p).find? (fun c => (cr s c).running && (cr s c).rec_ == rec_)

/-- The completion word receives the final status (R56); a word that waits on a page keeps the release waiting, a word
that cannot be written is logged (R356). True when dependants may be released. -/
def writeWord (p : PartId) (rec_ donep exec : Nat) (status : BitVec 4) (s : State) : State × Bool :=
  match dloc s p donep true with
  | .ok loc =>
    if (badColumn s loc 8).isSome then (engErr (pt s p).vf 0x0E false donep (foundG loc s), true)
    else (poke s loc 8 (status.toNat * 2 ^ 60 + exec % 2 ^ 32), true)
  | .miss ipa tbl lvl =>
    let c := (coreRunning s p rec_).getD 0
    let (s, tag) := pageMiss s c p ipa donep tbl lvl true
    (modPt s p (fun q => { q with tasks := q.tasks.map (fun t =>
      if t.rec_ = rec_ && decide (t.st = status) then { t with word := some tag } else t) }), false)
  | .s1 => (engErr (pt s p).vf 0x09 false donep s, true)
  | .denied => (engErr (pt s p).vf 0x08 false donep s, true)

/-- Marks a task final: its record's STATE and EXEC (the count of its run, or what the record holds of an earlier one), its place in a queue, its completion word (R53, R56). -/
def endOne (p : PartId) (rec_ : Nat) (status : BitVec 4) (exec : Nat) (s : State) : State × Bool :=
  match taskOf s p rec_ with
  | none => (s, false)
  | some t =>
    let exec := max exec (((recWord s p rec_ 0x38).getD 0) % 2 ^ 32)
    let s := modTask p rec_ (fun t => { t with st := status, core := none, word := none }) s
    let s := modQueue p t.queue (fun q => { q with ready := q.ready.filter (fun r => r.1 ≠ rec_) }) s
    let s := recPut p rec_ 0x38 0 32 exec (recPut p rec_ 0x18 24 4 status.toNat s)
    writeWord p rec_ t.donep exec status s

/-- The dependants of an ended task, in the order in which they were entered. -/
def dependants (s : State) (p : PartId) (rec_ : Nat) : List Nat :=
  ((pt s p).tasks.filter (fun t => decide (t.st = stWaiting) && t.depn.contains rec_)).map Task.rec_

/-- A predecessor that ended DONE is counted off (R109). -/
def countOff (p : PartId) (pred : Nat) (s : State) (rec_ : Nat) : State :=
  let s := modTask p rec_ (fun t => { t with depn := t.depn.erase pred }) s
  match taskOf s p rec_ with
  | none => s
  | some t =>
    let s := recPut p rec_ 0x30 52 12 t.depn.length s
    if t.depn.isEmpty then makeReady p rec_ s else s

/-- What the report makes of a queue in which a task has ended so (R305, R312): a teardown stands; a task behind one that was aborted keeps its
queue from DONE. (DEDUCED, log entry 93.) -/
def outcomeOf (x : SQueue) (status : BitVec 4) (root : Bool) : BitVec 2 :=
  if x.torn then 3
  else if status = stCheckpointed then 1 else if status = stDiscarded then 2
  else if status = stAborted || (status = stAbortedDep && !root) then 3 else x.outcome
/-- The report counts an ended task in a queue (R312); root: it ended behind a discarded task of that queue. -/
def noteEnded (p : PartId) (q : BitVec 6) (status : BitVec 4) (root : Bool) (s : State) : State :=
  modPt s p (fun k => { k with dl := k.dl.map (fun d => { d with qs := d.qs.map (fun x =>
    if x.q = q then { x with ended := x.ended + 1, outcome := outcomeOf x status root } else x) }) })
/-- A queue holds a task that is not over. -/
def queueHolds (s : State) (p : PartId) (q : BitVec 6) : Bool := (pt s p).tasks.any (fun t => t.queue == q && t.live)
/-- A queue has gained its first task or lost its last one while the host makes the Sluice's choices (R306). -/
def sluiceNote (p : PartId) (had : Bool) (q : BitVec 6) (s : State) : State :=
  if (pt s p).dl.isSome && s.modesel.getLsbD 1 && had != queueHolds s p q then raise s (.sluiceq p) else s
/-- The queue of a task. -/
def queueOfTask (s : State) (p : PartId) (rec_ : Nat) : BitVec 6 :=
  (((pt s p).tasks.find? (fun t => t.rec_ == rec_)).map (fun t => t.queue)).getD 0

/-- Releases or ends the dependants of a task that has ended (R109). Those that end behind a discarded task are counted in its
queue (R312). -/
def release (p : PartId) : Nat → Nat → BitVec 4 → Option (BitVec 6) → State → State
  | 0, _, _, _, s => s
  | fuel + 1, rec_, status, root, s =>
    if status = stCheckpointed then s
    else if status = stDone then (dependants s p rec_).foldl (countOff p rec_) s
    else (dependants s p rec_).foldl (fun s r =>
      let q := queueOfTask s p r
      let s := noteEnded p (root.getD q) stAbortedDep root.isSome s
      let had := queueHolds s p q
      let (s, ok) := endOne p r stAbortedDep 0 s
      let s := sluiceNote p had q s
      if ok then release p fuel r stAbortedDep root s else s) s
/-- The queue in which what ends behind a task is counted. -/
def rootQueue (s : State) (p : PartId) (rec_ : Nat) (status : BitVec 4) : Option (BitVec 6) :=
  if status = stDiscarded then some (queueOfTask s p rec_) else none

/-- Work of a partition that is not over (R115). -/
def partBusy (s : State) (p : PartId) : Bool :=
  (coresOf s p).any (fun c => (cr s c).running) || (pt s p).tasks.any Task.live || s.cmds.any (fun k => k.part == p)

/-! The weight gate (R166, R333). -/

/-- The columns of a core that are due retire at the opening of the weight gate, and a third one makes the core due, which is reported
(R333). -/
def dueCols (c : CoreId) (s : State) : State :=
  let mine := fun (x : UnitErr) => x.kind == 1 && x.unit.toNat / 66 == c.val
  let s := { s with units := s.units.map (fun x => if mine x && x.due then { x with retired := true, due := false } else x) }
  let u : BitVec 16 := BitVec.ofNat 16 c.val
  let x := unitOfErr s 0 u
  if 3 ≤ s.units.countP (fun x => mine x && x.retired) && !x.retired && !x.due then
    (let s := setUnit { x with due := true } s
     if (partOf s c).isSome then raise s (.retpend 0 u) else s)
  else s
/-- The weight gate of a partition opens (R166). -/
def openGate (p : PartId) (s : State) : State :=
  (coresOf s p).foldl (fun s c => dueCols c s) (modPt s p (fun q => { q with gateOpen := true }))

/-- A kernel completes when nothing of it is left (R115), and the weight gate opens (R166). -/
def kernelCheck (p : PartId) (s : State) : State :=
  if (pt s p).running && !partBusy s p then
    raise (openGate p (modPt s p (fun q => { q with running := false, complete := true }))) (.kernelComplete p)
  else s

/-- A teardown completes when every task of the queue has ended and their commands have completed (R113). -/
def teardownCheck (p : PartId) (s : State) : State :=
  (upto 64).foldl (fun s n =>
    let q : BitVec 6 := BitVec.ofNat 6 n
    if (queueOf s p q).tearing && !((pt s p).tasks.any (fun t => t.queue == q && t.live)) &&
       !(s.cmds.any (fun k => k.part == p && (pt s p).tasks.any (fun t => t.queue == q && some t.rec_ == k.task)))
    then raise (modQueue p q (fun k => { k with tearing := false }) s) (.teardown p q) else s) s

/-- The priority that a core's task has. -/
def runPrio (s : State) (p : PartId) (c : CoreId) : Nat := ((taskOf s p (cr s c).rec_).map (fun t => t.prio.toNat)).getD 7

/-- The running core that Delta asks, of those below a priority (R111): lowest priority, then the earliest pickup, then
the lowest rank. -/
def yieldVictim (s : State) (p : PartId) (ok : CoreId → Bool) : Option CoreId :=
  ((coresOf s p).filter (fun c => (cr s c).running && ok c)).foldl (fun best c =>
    match best with
    | none => some c
    | some b =>
      if runPrio s p c < runPrio s p b || (runPrio s p c = runPrio s p b && decide ((cr s c).pickedAt < (cr s b).pickedAt))
      then some c else some b) none

/-- The highest priority at which a valid queue holds a READY task (R110). -/
def topPrio (s : State) (p : PartId) (ok : BitVec 6 → Bool) : Option Nat :=
  ((upto 64).foldl (fun (b : Option Nat) n =>
    let q := queueOf s p (BitVec.ofNat 6 n)
    if ok (BitVec.ofNat 6 n) && (q.valid || q.tearing) && !q.ready.isEmpty then
      (match b with | none => some q.prio.toNat | some x => some (max x q.prio.toNat)) else b) none)

/-- Asks a task to yield when a READY task of higher priority finds no idle core (R111): the one of lowest priority, whether a
quantum has asked another or not (DEDUCED, log entry 34). -/
def askYield (p : PartId) (s : State) : State :=
  if (coresOf s p).any (fun c => !(cr s c).running) then s
  else match topPrio s p (fun _ => true) with
    | none => s
    | some top =>
      match yieldVictim s p (fun c => decide (runPrio s p c < top)) with
      | none => s
      | some c => modCr s c (fun k => { k with yieldReq := true })

/-- What follows the end of a task or of a command for the whole partition. -/
def settle (p : PartId) (s : State) : State := askYield p (kernelCheck p (teardownCheck p s))

/-- Ends a task with a status: record, completion word, its count in the report, dependants (R56, R109, R312). -/
def endHere (p : PartId) (rec_ : Nat) (status : BitVec 4) (exec : Nat) (s : State) : State :=
  let n := (pt s p).tasks.length
  let q := ((taskOf s p rec_).map (fun t => t.queue)).getD 0
  let root := rootQueue s p rec_ status
  let (s, ok) := endOne p rec_ status exec s
  let s := noteEnded p q status false s
  if ok then release p n rec_ status root s else s
/-- A task ends, and the partition with it where nothing else is left; one that is over stays as it ended. -/
def endTask (p : PartId) (rec_ : Nat) (status : BitVec 4) (exec : Nat) (s : State) : State :=
  match taskOf s p rec_ with
  | none => s
  | some t => let had := queueHolds s p t.queue; settle p (sluiceNote p had t.queue (endHere p rec_ status exec s))

/-! Spawning (R90, R105 to R108). -/

inductive SpawnRes where
  | entered
  | held
  | waiting (tag ipa : Nat) (wr : Bool)
  | failed (cause : BitVec 8) (addr : Nat)
  deriving DecidableEq, Repr

/-- The cut has passed (R304). -/
def pastCut (s : State) (d : Deadline) : Bool := d.cutDone || decide (d.cut ≤ s.us)
/-- A partition is past the cut of its deadline: nothing of it goes on (R304). -/
def cutPast (s : State) (p : PartId) : Bool := match (pt s p).dl with | some d => pastCut s d | none => false
/-- The Sluice's choice for a queue while a deadline is pending (R305); past the cut every queue is discarded (R304). -/
def sluiceChoice (s : State) (p : PartId) (q : BitVec 6) : SChoice :=
  match (pt s p).dl with
  | none => .run
  | some d => if pastCut s d then .discard else match d.qs.find? (fun x => x.q == q) with | some x => x.choice | none => .run

/-- Reads n 64-bit words at a virtual address for Delta, page by page. -/
def dwords (s : State) (p : PartId) (va : Nat) : Nat → Except Xl (List Nat)
  | 0 => .ok []
  | n + 1 =>
    match dloc s p va false with
    | .ok loc => if (badColumn s loc 8).isSome then .error .denied
      else match dwords s p (va + 8) n with
        | .ok r => .ok (s.mem.rdN loc 8 :: r)
        | .error e => .error e
    | e => .error e

/-- The footprint's sets from its descriptor's words (R106); none where the descriptor is unfit. -/
def footSets : List Nat → Option (List (Nat × Nat × Bool))
  | [] => some []
  | [_] => none
  | a :: b :: r =>
    if bits a 52 12 ≠ 0 || bits b 40 23 ≠ 0 then none
    else (footSets r).map (fun l => (bits a 0 52, bits b 0 40, bitAt b 63) :: l)

/-- Two footprint regions conflict (R107): they overlap and one of them is a write set. -/
def footClash (x y : Nat × Nat × Bool) : Bool :=
  (x.2.2 || y.2.2) && decide (0 < x.2.1) && decide (0 < y.2.1) && overlap x.1 (x.1 + x.2.1 - 1) y.1 (y.1 + y.2.1 - 1)

/-- The predecessors of a new task with the given sets, in spawn order (R107). -/
def predsOf (s : State) (p : PartId) (sets : List (Nat × Nat × Bool)) : List Task :=
  (pt s p).tasks.filter (fun u => u.live && u.sets.any (fun y => sets.any (fun x => footClash x y)))

/-- The record of a task that Delta has taken (R54, R55, R90): what a first spawn sets and what a restored task keeps. -/
def freshRecord (p : PartId) (sp : Spawn) (preds : Nat) (s : State) : State :=
  let s := recPut p sp.rec_ 0x18 28 7 p.val s
  let s := if sp.restore then s else
    recPut p sp.rec_ 0x18 44 4 0 <| recPut p sp.rec_ 0x18 48 16 0xFFFF <| recPut p sp.rec_ 0x38 0 32 0 (recPut p sp.rec_ 0 40 4 0
      (recPut p sp.rec_ 0 32 8 0 (recPut p sp.rec_ 0 28 4 15 (recPut p sp.rec_ 0 24 3 0 s))))
  recPut p sp.rec_ 0x18 24 4 0 (recPut p sp.rec_ 0x30 52 12 preds s)

/-- Ends a record that never became a task, with a status (R53): its hardware fields are written (R90), and no queue gains or loses a
task by it. -/
def endAtSpawn (p : PartId) (sp : Spawn) (donep : Nat) (q : BitVec 6) (prio : BitVec 3) (status : BitVec 4) (s : State) : State :=
  settle p (endHere p sp.rec_ status 0 (modPt (freshRecord p sp 0 s) p (fun k => { k with
    tasks := k.tasks ++ [⟨sp.rec_, stWaiting, q, prio, [], 0, [], 0, 0, 0, donep, none, none, [], none⟩] })))

/-- Appends a dependant to a predecessor's list in memory (R107, R108). -/
def appendDep (p : PartId) (rec_ : Nat) (s : State) (u : Task) : State :=
  let s := latePut p ⟨u.depl + 8 + 8 * u.cnt, 0, 64, rec_, none⟩ s
  let s := latePut p ⟨u.depl, 16, 16, u.cnt + 1, none⟩ s
  modTask p u.rec_ (fun u => { u with cnt := u.cnt + 1 }) s

/-- The words of a predecessor's list that a new dependant is written to: the header and the next entry (R108). -/
def depWords (u : Task) : List Nat := [u.depl, u.depl + 8 + 8 * u.cnt]
/-- A predecessor's list is full or missing, or it cannot be read or written (R108, R356). -/
def depFull (s : State) (p : PartId) (u : Task) : Bool :=
  u.depl == 0 || decide (u.cap ≤ u.cnt) ||
  (depWords u).any (fun a => match dloc s p a true with | .ok loc => (badColumn s loc 8).isSome | .miss _ _ _ => false | _ => true)
/-- The first page that a predecessor's list needs and that is missing (R356). -/
def depMiss (s : State) (p : PartId) (us : List Task) : Option (Xl × Nat) :=
  (us.flatMap depWords).findSome? (fun a => match dloc s p a true with | .miss i t l => some (.miss i t l, a) | _ => none)

/-- A task enters behind its predecessors, READY when it has none (R106, R107). -/
def enterSpawn (p : PartId) (sp : Spawn) (q : BitVec 6) (pr : BitVec 3) (donep : Nat) (sets : List (Nat × Nat × Bool)) (preds : List Task)
    (depl cap : Nat) (s : State) : State :=
  let rec_ := sp.rec_
  let s := preds.foldl (appendDep p rec_) s
  let old := ((pt s p).tasks.find? (fun t => sp.restore && t.rec_ == rec_)).bind (fun t => t.gang)
  let s := freshRecord p sp preds.length s
  let t : Task := ⟨rec_, stWaiting, q, pr, sets, preds.length, preds.map Task.rec_, depl, cap, 0, donep, none, old, [], none⟩
  let had := queueHolds s p q
  let s := sluiceNote p had q (modPt s p (fun k => { k with tasks := k.tasks ++ [t] }))
  askYield p (if preds.isEmpty then makeReady p rec_ s else s)

/-- Takes one spawn in its turn (R90, R105 to R108, R305, R356). A restored record keeps what its save wrote, its
group membership among it (R307, R308). (DEDUCED, log entry 58.) -/
def spawnTry (p : PartId) (sp : Spawn) (s : State) : State × SpawnRes :=
  let rec_ := sp.rec_
  let miss := fun (wr : Bool) (x : Xl) (va : Nat) (other : State × SpawnRes) =>
    match x with
    | .miss ipa tbl lvl => let (s, t) := pageMiss s ((sp.cmd.map Prod.fst).getD 0) p ipa va tbl lvl wr; (s, .waiting t ipa wr)
    | _ => other
  match dloc s p rec_ false with
  | .ok loc =>
    if (badColumn s loc 64).isSome then (foundG loc s, .failed 0x0E rec_) else
    let w := fun off => s.mem.rdN (loc + off) 8
    let q : BitVec 6 := BitVec.ofNat 6 (bits (w 0x18) 38 6)
    let pr : BitVec 3 := BitVec.ofNat 3 (bits (w 0x18) 35 3)
    let donep := bits (w 0x28) 0 52
    let footp := bits (w 0x20) 0 52
    let depl := bits (w 0x30) 0 52
    let fin := fun st => (endAtSpawn p sp donep q pr st s, SpawnRes.entered)
    let qu := queueOf s p q
    if !qu.valid || qu.tearing || qu.prio ≠ pr then fin stAborted
    else if sluiceChoice s p q = .checkpoint then fin stCheckpointed
    else if sluiceChoice s p q = .discard then fin stDiscarded
    else if depl % 8 ≠ 0 || footp % 8 ≠ 0 then fin stAborted
    else
      let foot : Except Xl (Option (List (Nat × Nat × Bool))) :=
        if footp = 0 then .ok (some []) else match dwords s p footp 1 with
          | .error e => .error e
          | .ok h =>
            let h := h.headD 0
            if h / 32 ≠ 0 || 16 < h % 32 then .ok none
            else match dwords s p (footp + 8) (2 * (h % 32)) with
              | .error e => .error e
              | .ok r => .ok (footSets r)
      match foot with
      | .error e => miss false e footp (fin stAborted)
      | .ok none => fin stAborted
      | .ok (some sets) =>
        let hdr : Except Xl Nat := if depl = 0 then .ok 0 else match dwords s p depl 1 with
          | .ok h => .ok (h.headD 0) | .error e => .error e
        match hdr with
        | .error e => miss false e depl (fin stAborted)
        | .ok h =>
          let preds := predsOf s p sets
          if 4095 < preds.length || preds.any (depFull s p) then (s, .held)
          else match depMiss s p preds with
          | some x => miss true x.1 x.2 (s, .held)
          | none => (enterSpawn p sp q pr donep sets preds depl (bits h 0 16) s, .entered)
  | .miss ipa tbl lvl => miss false (.miss ipa tbl lvl) rec_ (s, .held)
  | .s1 => (s, .failed 0x09 rec_)
  | .denied => (s, .failed 0x08 rec_)

/-- A pending ticket takes the end of its command (R255, R359). -/
def Ticket.ended (id : Nat) (fail : Option (BitVec 8 × Bool × Bool × Nat)) (t : Ticket) : Ticket :=
  if t.st = .pending && t.id = id then
    match fail with
    | none => { t with st := .done }
    | some (c, asp, av, a) => ⟨.failed, id, c, asp, av, BitVec.ofNat 52 a⟩
  else t

/-- A ticket of the partition still names a command: in a core's register, or saved with a task (R57). -/
def ticketNames (s : State) (p : PartId) (id : Nat) : Bool :=
  (coresOf s p).any (fun c => (cr s c).j.any (fun t => t.st == .pending && t.id == id)) ||
  (pt s p).tasks.any (fun k => k.tix.any (fun t => t.st == .pending && t.id == id))

/-- A command ends (R255): its ranges retire, its ticket becomes DONE or FAILED with the cause and address of R359, and a
failure that no ticket names is logged (R257). -/
def endCmd (id : Nat) (fail : Option (BitVec 8 × Bool × Bool × Nat)) (s : State) : State :=
  match s.cmds.find? (fun k => k.id == id) with
  | none => s
  | some k =>
    let named := ticketNames s k.part id
    let s := { s with cmds := s.cmds.filter (fun x => x.id ≠ id) }
    let s := modCr s k.core (fun x => { x with ranges := x.ranges.filter (fun r => r.id ≠ id) })
    let s := (coresOf s k.part).foldl (fun s c => modCr s c (fun x => { x with j := x.j.map (Ticket.ended id fail) })) s
    let s := modPt s k.part (fun q => { q with tasks := q.tasks.map (fun t => { t with tix := t.tix.map (Ticket.ended id fail) }) })
    let s := match fail with
      | some (c, asp, _, a) => if named then s else engErr (pt s k.part).vf c asp a s
      | none => s
    settle k.part s

/-- A packet that names a queue that is being torn down is dropped whole (R114). -/
def packetTorn (s : State) (p : PartId) (a : Nat) : Bool :=
  match recWord s p a 0x18 with | some w => (queueOf s p (BitVec.ofNat 6 (bits w 38 6))).tearing | none => false
/-- The next spawn of a partition in its turn: a packet of the host whose record can be read now is answered, or dropped where its queue
is torn down or no kernel runs any more (R105, R114, R115; DEDUCED, log entry 67). None where it is dropped. -/
def answerSpawn (p : PartId) (sp : Spawn) (s : State) : State × Option Spawn :=
  if sp.cmd.isSome then (s, some sp)
  else if !(pt s p).running then (if sp.owed then nack s else s, none)
  else if sp.owed && (recWord s p sp.rec_ 0x18).isSome then
    (if packetTorn s p sp.rec_ then (nack s, none) else (ackOk s 0, some { sp with owed := false }))
  else (s, some sp)
/-- Takes the spawns of a partition in the order in which they reached Delta, up to the first that is held or waits on a
page (R107, R108, R356). -/
def drainSpawns (p : PartId) : Nat → State → State
  | 0, s => s
  | fuel + 1, s =>
    match (pt s p).spawns with
    | [] => s
    | sp :: r =>
      match sp.wait with
      | some (some _, _, _) => s
      | _ =>
        match answerSpawn p sp s with
        | (s, none) => drainSpawns p fuel (modPt s p (fun k => { k with spawns := r }))
        | (s, some sp) =>
          let s := modPt s p (fun k => { k with spawns := sp :: r })
          match spawnTry p sp s with
          | (s, .held) => s
          | (s, .waiting t ipa w) => modPt s p (fun k => { k with spawns := { sp with wait := some (some t, ipa, w) } :: r })
          | (s, .entered) =>
            let s := modPt s p (fun k => { k with spawns := r })
            drainSpawns p fuel (match sp.cmd with | some (_, id) => endCmd id none s | none => s)
          | (s, .failed c a) =>
            let s := modPt s p (fun k => { k with spawns := r })
            drainSpawns p fuel (match sp.cmd with | some (_, id) => endCmd id (some (c, false, true, a)) s | none => nack s)

/-- A spawn reaches Delta (R90, R107). -/
def spawnArrive (p : PartId) (sp : Spawn) (s : State) : State :=
  let s := modPt s p (fun k => { k with spawns := k.spawns ++ [sp] })
  drainSpawns p ((pt s p).spawns.length) s

end Sys2Proof.Machine
end

