-- ==== Sys2Proof/Machine/Ops.lean ====
section
/-! DEFINITION. The named operations that meanings share: publishing with forwarding, groups and barriers, stopping and
ending a task on its core, taking a trap and returning from one, and committing a slot
(R56, R61, R92, R227, R228, R309, R314 to R322). -/
namespace Sys2Proof.Machine

/-! Acknowledgements, and the order of a core's own accesses. -/

/-- No listed acknowledgement is outstanding. -/
def acked (s : State) (ids : List Nat) : Bool := ids.all (fun i => !s.ackWait.any (fun a => a.id == i))

def Lane.loc (l : Lane) : Option Nat := match l.st with | .ready x => some x | _ => none
def Lane.isReady (l : Lane) : Bool := l.loc.isSome
/-- Two lanes touch a common byte, by their addresses or, once both have translated, where they lie (R209, R243, R251). -/
def laneMeets (a b : Lane) : Bool :=
  overlap a.va (a.va + a.len - 1) b.va (b.va + b.len - 1) ||
  (match a.loc, b.loc with | some x, some y => overlap x (x + a.len - 1) y (y + b.len - 1) | _, _ => false)
/-- A pending result that is performed on memory in the core's program order. -/
def PKind.onMem : PKind → Bool | .load _ _ _ => false | .calc => false | _ => true
/-- An earlier operation of the core on memory that is not yet performed touches these lanes (R209, R212, R251). -/
def earlierHit (k : Core) (seq : Nat) (ls : List Lane) : Bool :=
  k.posts.any (fun o => decide (o.seq < seq) && o.lanes.any (fun a => ls.any (laneMeets a))) ||
  k.pend.any (fun q => decide (q.seq < seq) && q.kind.onMem && q.lanes.any (fun a => ls.any (laneMeets a)))
/-- Operations that cannot go on before a page comes: those with a lane that waits or has failed, and those behind them at the same
bytes, up to a number of times. -/
def stuckOps (ops : List (Nat × List Lane)) : Nat → List (Nat × List Lane)
  | 0 => ops.filter (fun o => o.2.any (fun l => !l.isReady))
  | n + 1 =>
    let st := stuckOps ops n
    ops.filter (fun o => o.2.any (fun l => !l.isReady) || st.any (fun x => decide (x.1 < o.1) && x.2.any (fun a => o.2.any (laneMeets a))))
/-- The operations of a core on memory that wait on pages, directly or behind others. -/
def stuckOf (k : Core) : List Nat :=
  let ops := k.posts.map (fun o => (o.seq, o.lanes)) ++ (k.pend.filter (fun q => q.kind ≠ .calc)).map (fun q => (q.seq, q.lanes))
  (stuckOps ops ops.length).map Prod.fst

/-! Groups (R61, R62, R92, R93). Group records are read and written in memory, in one act. -/

def grpLoc (s : State) (c : CoreId) (a : Nat) (wr : Bool) : Xl :=
  match partOf s c with | some p => xlate s p a wr | none => .denied
def grpWord (s : State) (loc : Nat) : Nat := s.mem.rdN loc 8

/-- The cores whose tasks belong to a group. -/
def grpCores (s : State) (p : PartId) (g : Nat) : List CoreId :=
  (coresOf s p).filter (fun c => (cr s c).running && decide ((cr s c).group = some g))

/-- The member of lowest index of a lock-step gang (R62). -/
def gangLead (s : State) (p : PartId) (g : Nat) : Option CoreId :=
  ((grpCores s p g).filter (fun c => (cr s c).lock)).foldl (fun b c =>
    match b with | none => some c | some x => if (cr s c).member.toNat < (cr s x).member.toNat then some c else some x) none

/-- A member is released from a barrier with its snapshot refreshed at gang scope (R93); a LOCK group enters lock-step (R62). -/
def releaseMember (g : Nat) (enters : Bool) (s : State) (c : CoreId) : State :=
  modCr (refresh s c 1) c (fun k => { k with
    wait := match k.wait with | .bar h w => if h = g then w else k.wait | w => w
    skewNow := if enters then k.skew else k.skewNow
    lock := k.lock || enters })
/-- A barrier completes when ARRIVED covers MEMBERS (R61): EPOCH rises, ARRIVED clears, snapshots refresh at gang scope and
the waiting members are released (R93); a LOCK group of two or more that is not in lock-step enters it (R62). -/
def barrierCheck (p : PartId) (g loc : Nat) (s : State) : State :=
  let w := grpWord s loc
  let mem := bits w 0 16
  let arr := bits w 16 16
  let cs := grpCores s p g
  if mem ≠ 0 && mem &&& arr = mem && cs.any (fun c => (cr s c).wait.isBar g) then
    let enters := s.mem.rdN (loc + 8) 1 % 2 == 1 && decide (2 ≤ (upto 16).countP (fun i => mem / 2 ^ i % 2 == 1)) &&
      !cs.any (fun c => (cr s c).lock)
    cs.foldl (releaseMember g enters) (poke s loc 8 (mem + ((bits w 32 32 + 1) % 2 ^ 32) * 2 ^ 32))
  else s
/-- The barriers at which cores of a partition wait are looked at again, after a write to a group's record that had waited. -/
def barriersAgain (p : PartId) (s : State) : State :=
  (coresOf s p).foldl (fun s c => match (cr s c).wait with
    | .bar g _ => (match xlate s p g true with | .ok loc => barrierCheck p g loc s | _ => s)
    | _ => s) s

/-- Lock-step ends for a core: at once, or with the last bundle that the lead has given it (R62, R92). -/
def unlock (k : Core) : Core :=
  match k.follow with
  | [] => { k with lock := false }
  | _ => { k with follow := k.follow.modify (k.follow.length - 1) (fun f => { f with ends := true }) }
/-- A task leaves its group (R92): its bits clear, a pending barrier may complete, and lock-step ends for the group; where the
lead's own bundle holds the LEAVE, it ends for the others with that bundle (R94). The bits of a record whose page is missing clear when it
comes (R356); where the record does not translate, they stay (DESIGN CHOICE, log entry 94). -/
def leaveGroup (c : CoreId) (s : State) : State :=
  match (cr s c).group, partOf s c with
  | some g, some p =>
    let i := (cr s c).member.toNat
    let s := if s.iss.act && s.iss.core = c && !s.iss.mates.isEmpty then s
      else (grpCores s p g).foldl (fun s d => modCr s d unlock) s
    let s := modCr s c (fun k => { k with group := none, member := 0, lock := false })
    let s := recPut p (cr s c).rec_ 0x18 48 16 0xFFFF (recPut p (cr s c).rec_ 0x18 44 4 0 s)
    match xlate s p g true with
    | .ok loc =>
      let w := grpWord s loc
      let clr := fun x => if x / 2 ^ i % 2 = 1 then x - 2 ^ i else x
      barrierCheck p g loc (poke s loc 8 (clr (bits w 0 16) + clr (bits w 16 16) * 2 ^ 16 + bits w 32 32 * 2 ^ 32))
    | .miss _ _ _ => latePut p ⟨g, 16 + i, 1, 0, none⟩ (latePut p ⟨g, i, 1, 0, none⟩ s)
    | _ => s
  | _, _ => s

/-! A task leaves its core. -/

/-- The core becomes idle (R60): nothing of the task stays but what belongs to the core (R133, R164, R182). -/
def idleCore (c : CoreId) (s : State) : State :=
  let s := modCr s c (fun k => { k with
    running := false, wait := .none, pendTrap := none, failed := [], yieldReq := false, h := false, latch := []
    pend := [], posts := [], pfx := none, left := 0, resume := false, further := false, nextUnit := none, kept := .none, keptStop := .none, keptFurther := false, keptNext := none, tq := [], foot := [], asks := [], follow := []
    group := none, member := 0, lock := false, loops := Vector.replicate 4 Loop.reset, slot := 15, leaf := 0, wskip := false })
  if s.iss.act && s.iss.core = c then { s with iss := Issue.reset } else s

/-- Stops a task at once (R309, R319): results in flight, held operations and unpublished writes are dropped, the task
leaves its group, and it ends with a status. Its engine commands are left as they are. (DEDUCED, log entry 56.) -/
def stopTask (c : CoreId) (status : BitVec 4) (s : State) : State :=
  match partOf s c with
  | none => idleCore c s
  | some p =>
    let k := cr s c
    let s := modCr s c (fun k => { k with pend := [], posts := [], unpub := [], own := [] })
    let s := leaveGroup c s
    let s := idleCore c s
    endTask p k.rec_ status k.exec s

/-- Records a double trap in TRAPERR (R319). -/
def trapErr (v : VfId) (dbl : Bool) (cause : BitVec 8) (rank : BitVec 6) (epc : CAddr) (s : State) : State :=
  modVf s v (fun k =>
    if k.traperr.getLsbD 63 then { k with traperr := k.traperr ||| BitVec.twoPow 64 62 }
    else { k with traperr := w64 (2 ^ 63 + (k.traperr.toNat / 2 ^ 62 % 2) * 2 ^ 62 + dbl.toNat * 2 ^ 61 +
      cause.toNat * 2 ^ 48 + rank.toNat * 2 ^ 42 + epc.toNat) })

/-- A double trap (R319): the event is recorded and the task ends ABORTED. -/
def doubleTrap (c : CoreId) (cause : BitVec 8) (unit : CAddr) (s : State) : State :=
  let k := cr s c
  let s := match vfOf s c with | some v => trapErr v k.h cause k.rank unit s | none => s
  stopTask c stAborted s

/-! Traps (R314 to R320). -/

/-- Active loop levels (R86). -/
def activeLoops (k : Core) : Nat := (upto 4).countP (fun i => (k.loops.getD i Loop.reset).active)

/-- STATUS as a register (R315). -/
def statusReg (k : Core) : W64 :=
  w64 (k.cause.toNat + k.slot.toNat * 2 ^ 8 + (if k.h then k.repc else k.left).toNat * 2 ^ 12 + k.leaf.toNat * 2 ^ 20 + k.h.toNat * 2 ^ 23 +
    k.lbase.toNat * 2 ^ 24 + k.wskip.toNat * 2 ^ 27)

/-- The trap frame (R318). -/
def frameOf (t : TrapInfo) : Nat × Nat :=
  ((match t.addr with | none => 0 | some (asp, a) => a % 2 ^ 52 + asp.toNat * 2 ^ 52 + 2 ^ 53),
   t.code.toNat + (match t.lane with | none => 0 | some l => l * 2 ^ 8 + 2 ^ 14) +
     (match t.j with | none => 0 | some j => j.toNat * 2 ^ 15 + 2 ^ 19))

/-- Trap entry, when everything it waits for has landed (R314): the status registers, the frame at L 0x00 to 0x3F, the
selector, and the handler as the next unit. (DEDUCED, log entry 82.) -/
def enterTrap (c : CoreId) (h : HeldTrap) (s : State) : State :=
  modCr s c (fun k => { k with
    cause := h.info.cause, slot := BitVec.ofNat 4 h.info.slot, leaf := h.leaf, repc := h.repc
    lbase := BitVec.ofNat 3 (activeLoops k), h := true, wskip := false, epc := h.unit, sel := 0x80, latch := h.latch
    l := ((k.l.wrN 0 8 (frameOf h.info).1).wrN 8 8 (frameOf h.info).2).wrN 16 48 0
    badL := healL 0 64 k.badL
    j := match h.info.j with
      | some j => k.j.set j.toFin { k.j[j.toFin] with st := .done }
      | none => k.j
    pendTrap := none, pc := k.trapEntry.getD 0, pfx := none, left := 0, resume := false, further := false
    nextUnit := none, wait := .none, asks := [], last := s.now + 1, busy := s.now + 1 })

/-- What a trap entry waits for (R314): long-latency results, except those that wait on a page, themselves or behind another operation of
the core, whose other loads have their bytes; and L ranges over the frame. -/
def trapReady (k : Core) : Bool :=
  k.pend.all (fun p => (stuckOf k).contains p.seq &&
    (p.kind.onMem || p.lanes.all (fun l => !l.isReady || l.data.isSome || earlierHit k p.seq [l]))) &&
  k.ranges.all (fun r => !overlap r.lo r.hi 0 0x3F)

/-- Takes a trap on a core (R314): a double trap in handler mode or without a trap entry, else entry at once or as soon as
what it waits for has landed. -/
def trapCore (c : CoreId) (h : HeldTrap) (s : State) : State :=
  let k := cr s c
  let s := if s.iss.act && s.iss.core = c
    then { modCr s c (fun k => { k with keptStop := s.iss.stop }) with iss := Issue.reset } else s
  let s := if k.h then s else modCr s c (fun k => { k with keptFurther := k.further, keptNext := k.nextUnit })
  if k.h || k.trapEntry.isNone then doubleTrap c h.info.cause h.unit s
  else if trapReady k then enterTrap c h s
  else modCr s c (fun k => { k with pendTrap := some h })

/-- The value that the bundle's issue read of a register, as a latch entry (R320). -/
def latchEntry (s : State) : RegId → LatchE
  | .s n => .s n (rdS s.iss.regs n) | .p n => .p n (rdP s.iss.regs n) | .b n => .b n (srcB s n)
  | .v n => .v n (rdV s.iss.regs n).bits (rdV s.iss.regs n).tag | .m n => .m n (rdM s.iss.regs n)
  | .z n => .z n (rdZ s.iss.regs n)
  | .c n => .c n (((s.iss.ctl.find? (fun e => e.1 == n)).map Prod.snd).getD 0)

/-- The register that a PSMP may read besides its sources: the second of a pair (R355). -/
def pairOf : Instr → List RegId
  | .psmpVector o => [.v (vNext o.v)]
  | _ => []
/-- The registers that the live slots from a slot upward read (R320). -/
def readFrom (s : State) (slot : Nat) : List RegId :=
  ((span slot (10 - slot)).filter (fun n => slotLive s.iss.bundle n s.iss.leaf.toNat)).flatMap (fun n =>
    match slotHolds s.iss.bundle n with
    | .ins i => (srcRegs i).map Prod.fst ++ pairOf i
    | _ => [])

/-- The resume latch of a trap at a slot (R320): registers that committed slots wrote and later live slots read, and entries
kept from an earlier trap that are still needed. -/
def buildLatch (s : State) (slot : Nat) : List LatchE :=
  if slot = 0 || 9 < slot then []
  else
    let rd := readFrom s slot
    let old := (me s).latch.filter (fun e => rd.contains e.reg)
    old ++ ((s.iss.wrote.eraseDups.filter (fun r => rd.contains r && !(old.any (fun e => e.reg = r)) && !r.hard)).map
      (latchEntry s))

/-- The shared operation of taking an exception at the slot that is committing (R314): cause, frame data and slot are in
the trap's data; the unit, leaf and remaining executions are those of the bundle. -/
def takeTrap (t : TrapInfo) (s : State) : State :=
  trapCore s.iss.core ⟨t, s.iss.unit, s.iss.leaf, (me s).left, buildLatch s t.slot⟩ s

/-- A trap with no frame data at the committing slot. -/
def trapPlain (s : State) (cause : BitVec 8) : TrapInfo := ⟨cause, s.iss.slot, none, 0, none, none⟩

/-! Causes (R317). -/
def cIllegalCode : BitVec 8 := 0x01
def cIllegalSchedule : BitVec 8 := 0x02
def cEmptyRead : BitVec 8 := 0x03
def cTagMismatch : BitVec 8 := 0x04
def cFootprint : BitVec 8 := 0x05
def cTqOverflow : BitVec 8 := 0x06
def cAlign : BitVec 8 := 0x07
def cAccess : BitVec 8 := 0x08
def cXlateS1 : BitVec 8 := 0x09
def cXlateS2 : BitVec 8 := 0x0A
def cStreamFault : BitVec 8 := 0x0B
def cPanConfig : BitVec 8 := 0x0C
def cLinkTimeout : BitVec 8 := 0x0D
def cEcc : BitVec 8 := 0x0E
def cCheckMismatch : BitVec 8 := 0x0F
def cWatch : BitVec 8 := 0x10
def cSyscall : BitVec 8 := 0x11

/-! Committing a slot. -/

/-- The slot has committed; the next slot follows (R31). A commit that has left the bundle (a trap or a return) leaves
nothing to follow. -/
def nextSlot (s : State) : State := modIss s (fun i => { i with slot := if i.act then i.slot + 1 else i.slot })

/-- What a slot is due to do when its bundle issues (R34): trap, stall, or commit. -/
inductive Due where
  | trap (t : TrapInfo)
  | stall
  | go
  deriving DecidableEq, Repr

/-- A source register reads empty at issue (R32, R34). -/
def emptyReg (r : Regs) : RegId → Bool
  | .s n => !fullS r n
  | .v n => !(rdV r n).full
  | _ => false

/-- A destination whose long-latency result has not landed (R35). -/
def pendingDst (k : Core) (r : RegId) : Bool := !r.hard && k.pend.any (fun p => p.dst.contains r)

/-- What a slot is due to do (R34, R35, R127): a W-set empty source stalls; a W-clear empty source traps EMPTY_READ before any
trap but ILLEGAL_CODE; then come the slot's own faults in order, its own stalls, and a destination in flight. The sources
are those of the instruction and an extra pair register (R355). -/
def dueWith (i : Instr) (extra : List (RegId × Bool)) (fault : Option TrapInfo) (stall : Bool) (s : State) : Due :=
  let src := srcRegs i ++ extra
  if src.any (fun r => emptyReg s.iss.regs r.1 && r.2) then .stall
  else if src.any (fun r => emptyReg s.iss.regs r.1) then .trap (trapPlain s cEmptyRead)
  else match fault with
    | some t => .trap t
    | none => if stall || (dstRegs i).any (pendingDst (me s)) then .stall else .go

/-- One live slot in its turn (R31, R34): it traps, or it commits its effect and the next slot follows. A slot that is due
to stall leaves the state as it is. Outside an issuing bundle nothing happens. (DESIGN CHOICE, log entry 32.) -/
def runWith (i : Instr) (extra : List (RegId × Bool)) (fault : Option TrapInfo) (stall : Bool) (eff : State → State) (s : State) :
    Out :=
  if !s.iss.act then .next s
  else match dueWith i extra fault stall s with
    | .trap t => .next (takeTrap t s)
    | .stall => .next s
    | .go => .next (nextSlot (eff s))

/-- A slot whose sources are its instruction's own (R31, R34). -/
def runSlot (i : Instr) (fault : Option TrapInfo) (stall : Bool) (eff : State → State) (s : State) : Out :=
  runWith i [] fault stall eff s

/-- The B slot chooses the next unit (R31, R88). -/
def redirect (a : CAddr) (s : State) : State := modIss s (fun i => { i with redirect := some a, redirected := true })

/-! Uncorrectable data (R330, R331). -/

/-- Logs an event in ERRLOG (R331): RANK is given for sources 2 and 3. -/
def errLog (v : VfId) (src rank addr : Nat) (s : State) : State :=
  let rank := if 2 ≤ src then rank else 0
  modVf s v (fun k =>
    if k.errlog.getLsbD 63 then { k with errlog := k.errlog ||| BitVec.twoPow 64 62 }
    else { k with errlog := w64 (2 ^ 63 + (k.errlog.toNat / 2 ^ 62 % 2) * 2 ^ 62 + src * 2 ^ 59 + rank * 2 ^ 52 + addr % 2 ^ 52) })

/-- Uncorrectable state of a core or its weight slice stops the task (R330): source 2 or 3, and the address. -/
def coreUncorrectable (c : CoreId) (src addr : Nat) (s : State) : State :=
  let s := if src = 3 then foundW c (addr / 2 ^ 10) s else foundL c s
  let s := match vfOf s c with | some v => errLog v src (cr s c).rank.toNat addr s | none => s
  stopTask c stAborted s

end Sys2Proof.Machine
end

