-- ==== Sys2Proof/Machine/Results.lean ====
section
/-! DEFINITION. Long-latency results: putting one in flight at commit and landing it (R33, R35). -/
namespace Sys2Proof.Machine

/-- Puts a long-latency result in flight (R33). -/
def launchPend (kind : PKind) (dst : List RegId) (due : Nat) (val : BitVec 4096) (val2 : W64) (lanes : List Lane) (s : State) :
    State :=
  modMe s (fun k => { k with pend := k.pend ++ [⟨k.seq, kind, dst, due, val, val2, lanes⟩], seq := k.seq + 1 })

/-- A computed result that lands some cycles after its issue (R72, R147, R176). -/
def launchS (d : BitVec 6) (cycles : Nat) (x : W64) (s : State) : State :=
  if d = 0 then note (.s d) s
  else launchPend .calc [.s d] (s.iss.t + cycles) (x.setWidth 4096) 0 [] (emptyS d s)
def launchV (d : BitVec 6) (t : Tag) (cycles : Nat) (x : VBits) (s : State) : State :=
  launchPend .calc [.v d] (s.iss.t + cycles) (x.setWidth 4096) 0 [] (emptyV d t s)

/-- Fills the registers of a result: the first v register takes the low half of the value, the second the high half, the
first s register the low 64 bits, the second the other scalar (R33, R245). -/
def fillRegs (k : Core) (p : Pend) : List RegId → Bool → Core
  | [], _ => k
  | .v n :: r, first =>
    fillRegs (k.setV n ⟨if first then p.val.extractLsb' 0 2048 else p.val.extractLsb' 2048 2048, (rdV k.regs n).tag, true⟩) p r false
  | .s n :: r, first => fillRegs (k.setS n ⟨if first then p.val.extractLsb' 0 64 else p.val2, true⟩) p r false
  | _ :: r, first => fillRegs k p r first

/-- The result lands: its destinations are full and it leaves the list (R33, R35). -/
def landPend (c : CoreId) (n : Nat) (p : Pend) (s : State) : State :=
  modCr s c (fun k => fillRegs { k with pend := k.pend.eraseIdx n } p p.dst true)

end Sys2Proof.Machine
end

