-- ==== Sys2Proof/Machine/Rewalk.lean ====
section
/-! DEFINITION. Lanes of accesses to G: what an access asks of its memory, lanes that take or give their bytes, and lanes that
walk again after a reply or an RTE (R199, R200, R206, R209, R210, R213, R227, R249, R330, R341). -/
namespace Sys2Proof.Machine

/-- What an access asks of the memory it reaches: whether it writes, whether it reads (for WATCH), whether it must lie in
the stack, and whether a copy kept for another module refuses it. -/
structure Want where
  wr : Bool
  rdWatch : Bool
  wrWatch : Bool
  stack : Bool
  copyDenied : Bool
  deriving DecidableEq, Repr

def wLoad : Want := ⟨false, true, false, false, false⟩
def wStore : Want := ⟨true, false, true, false, true⟩
def wAmo : Want := ⟨true, true, true, false, true⟩
def wRadd : Want := ⟨true, false, true, true, true⟩
def wRowadd : Want := ⟨true, false, true, true, false⟩
def wRowld : Want := ⟨false, true, false, true, false⟩

/-- A location refuses an access: a pan region (R210), backing memory where Rill units are needed (R213, R249), or a copy
(R227). -/
def locDenied (s : State) (w : Want) (loc : Nat) : Bool :=
  (regionAt s loc).isSome || (w.stack && locIsLocal loc && dpaBacking loc) || (w.copyDenied && copyAt s loc)

/-- The lane number that a frame shows for a lane (R318). -/
def Lane.shown (l : Lane) : Option Nat := if l.lv then some l.i else none

/-- Records a lane that failed for the trap before the next unit (R200, R330). -/
def failLane (c : CoreId) (t : TrapInfo) (s : State) : State := modCr s c (fun k => { k with failed := k.failed ++ [t] })

/-- A byte of memory is hidden by an own store, or by a lane of a store that is being performed. -/
def byteCovered (k : Core) (ls : List Lane) (a : Nat) : Bool :=
  k.own.any (fun w => w.loc == a) || ls.any (fun l => match l.loc with | some x => decide (x ≤ a) && decide (a < x + l.len) | none => false)
/-- The first uncorrectable column among some bytes that the core would have to read: one that its stores have replaced whole is not
read (R329, R330). -/
def readColumn (s : State) (c : CoreId) (ls : List Lane) (loc n : Nat) : Option Nat :=
  (s.badG.find? (fun g => overlap loc (loc + n - 1) (32 * g) (32 * g + 31) &&
    !(upto 32).all (fun i => byteCovered (cr s c) ls (32 * g + i)))).map (fun g => 32 * g)
/-- A lane meets an uncorrectable column: it stays waiting or held, and the core traps before its next unit (R330). -/
def eccLane (c : CoreId) (l : Lane) (loc g : Nat) (s : State) : State :=
  failLane c ⟨cEcc, 0, some (false, l.va - (loc - g)), 0, l.shown, none⟩ (foundG g s)
/-- An earlier atomic or row addition of the core meets a load's lane: the load waits for it (R209, R212). -/
def loadWaits (k : Core) (seq : Nat) (l : Lane) : Bool :=
  k.posts.any (fun o => decide (o.seq < seq) && o.kind ≠ .store && o.lanes.any (laneMeets l)) ||
  k.pend.any (fun q => decide (q.seq < seq) && (match q.kind with | .amo _ _ _ _ => true | _ => false) && q.lanes.any (laneMeets l))
/-- A load lane that is translated takes its bytes (R206, R209, R217); an uncorrectable column fails it (R330). -/
def captureLane (c : CoreId) (seq : Nat) (l : Lane) (s : State) : State × Lane :=
  match l.st, l.data with
  | .ready loc, none =>
    if loadWaits (cr s c) seq l then (s, l)
    else match readColumn s c [] loc l.len with
      | some g => (eccLane c l loc g s, { l with st := .failed cEcc })
      | none => (s, { l with data := some (loadBytes s c seq l.va loc l.len) })
  | _, _ => (s, l)

def captureLanes (c : CoreId) (seq : Nat) : List Lane → State → State × List Lane
  | [], s => (s, [])
  | l :: r, s =>
    let (s, l) := captureLane c seq l s
    let (s, ls) := captureLanes c seq r s
    (s, l :: ls)

/-- A store lane that is translated takes effect in the core's own view and leaves the list (R209); an uncorrectable column that the
store covers in part keeps it held (R329, R330). -/
def performStore (c : CoreId) (seq : Nat) (ls : List Lane) (l : Lane) (s : State) : State × Option Lane :=
  match l.st with
  | .ready loc =>
    match readColumn s c ls loc l.len with
    | some g => (eccLane c l loc g s, some { l with st := .failed cEcc })
    | none => (storeOwn s c seq l.i loc (((partOf s c).map (fun p => ipaOf s (pt s p) l.va)).getD l.va) (l.data.getD []), none)
  | _ => (s, some l)

/-- The lanes of a store, one after the other; ls holds all of them. -/
def performGo (c : CoreId) (seq : Nat) (ls : List Lane) : List Lane → State → State × List Lane
  | [], s => (s, [])
  | l :: r, s =>
    let (s, o) := performStore c seq ls l s
    let (s, ls) := performGo c seq ls r s
    (s, match o with | some l => l :: ls | none => ls)
def performStores (c : CoreId) (seq : Nat) (ls : List Lane) (s : State) : State × List Lane := performGo c seq ls ls s

/-! Lanes that walk again (R199, R200, R341). -/

/-- What a pending access asks of memory, where it is one that may not reach a pan region (R210). -/
def PKind.want : PKind → Option Want
  | .load _ _ _ => some wLoad
  | .amo _ _ _ _ => some wAmo
  | .rowld _ => some wRowld
  | _ => none
def OKind.want : OKind → Option Want
  | .store => some wStore
  | .radd _ _ _ => some wRadd
  | .rowadd _ _ => some wRowadd
  | .psmp _ _ _ _ => none
/-- A pending access writes. -/
def PKind.writes : PKind → Bool
  | .amo _ _ _ _ => true
  | .join _ => true
  | _ => false

/-- A lane walks from its first stage with the tables as they stand (R292, R295). -/
def rewalkLane (c : CoreId) (p : PartId) (wr : Bool) (w : Option Want) (l : Lane) (s : State) : State × Lane :=
  let bad := fun (cause : BitVec 8) =>
    (failLane c ⟨cause, 0, some (false, l.va), 0, l.shown, none⟩ s, { l with st := .failed cause })
  match walkVa s (pt s p) l.va wr with
  | .ok loc => if w.any (fun w => locDenied s w loc) then bad cAccess else (s, { l with st := .ready loc })
  | .miss ipa tbl lvl =>
    let x := pageMiss s c p ipa l.va tbl lvl wr
    (x.1, { l with st := .wait (some x.2) ipa wr })
  | .s1 => bad cXlateS1
  | .denied => bad cAccess

/-- The lanes that a test picks walk again. -/
def rewalkLanes (c : CoreId) (p : PartId) (wr : Bool) (w : Option Want) (pick : LaneSt → Bool) : List Lane → State → State × List Lane
  | [], s => (s, [])
  | l :: r, s =>
    let x := if pick l.st then rewalkLane c p wr w l s else (s, l)
    let y := rewalkLanes c p wr w pick r x.1
    (y.1, x.2 :: y.2)

/-- The pending result of a core at a place in program order: picked lanes walk again, and load lanes that are translated take their bytes. -/
def rewalkPends (c : CoreId) (p : PartId) (n : Nat) (pick : LaneSt → Bool) : List Pend → State → State × List Pend
  | [], s => (s, [])
  | q :: r, s =>
    let x := if q.seq = n then rewalkLanes c p q.kind.writes q.kind.want pick q.lanes s else (s, q.lanes)
    let x := if q.seq = n then (match q.kind with | .load _ _ _ => captureLanes c q.seq x.2 x.1 | _ => x) else x
    let y := rewalkPends c p n pick r x.1
    (y.1, { q with lanes := x.2 } :: y.2)

/-- The held or posted operation of a core at a place in program order: a store's translated lanes take effect (R209). -/
def rewalkPosts (c : CoreId) (p : PartId) (n : Nat) (pick : LaneSt → Bool) : List Post → State → State × List Post
  | [], s => (s, [])
  | o :: r, s =>
    let x := if o.seq = n then rewalkLanes c p true o.kind.want pick o.lanes s else (s, o.lanes)
    let x := if o.seq = n && o.kind = .store then performStores c o.seq x.2 x.1 else x
    let y := rewalkPosts c p n pick r x.1
    (y.1, if x.2.isEmpty then y.2 else { o with lanes := x.2 } :: y.2)

/-- Puts a number in its place in an ascending list. -/
def insertNat (n : Nat) : List Nat → List Nat
  | [] => [n]
  | m :: r => if n < m then n :: m :: r else if n = m then m :: r else m :: insertNat n r
/-- The places in program order of a core's operations on memory that are not over. -/
def opSeqs (k : Core) : List Nat := (k.pend.map (fun q => q.seq) ++ k.posts.map (fun o => o.seq)).foldr insertNat []
/-- The picked lanes of the operation at a place in program order walk again. -/
def rewalkSeq (c : CoreId) (p : PartId) (pick : LaneSt → Bool) (s : State) (n : Nat) : State :=
  let x := rewalkPends c p n pick (cr s c).pend s
  let s := modCr x.1 c (fun k => { k with pend := x.2 })
  let y := rewalkPosts c p n pick (cr s c).posts s
  modCr y.1 c (fun k => { k with posts := y.2 })
/-- Every picked lane of a core walks again, in program order. -/
def rewalkCore (c : CoreId) (p : PartId) (pick : LaneSt → Bool) (s : State) : State :=
  (opSeqs (cr s c)).foldl (rewalkSeq c p pick) s

/-- The lanes that have failed: RTE walks them again (R200). -/
def LaneSt.hasFailed : LaneSt → Bool
  | .failed _ => true
  | _ => false
def rewalkFailed (c : CoreId) (s : State) : State :=
  match partOf s c with
  | some p => rewalkCore c p LaneSt.hasFailed s
  | none => s

end Sys2Proof.Machine
end

