-- ==== Sys2Proof/Machine/Control.lean ====
section
/-! DEFINITION. Control registers, branch targets, and the B slot: GETC, SETC, PREP, TREE, LOOP, CALL, RET, SUSPEND, HALT,
TRAP, RTE and REPEAT (R77 to R89, R201, R315, R316, R321 to R323). -/
namespace Sys2Proof.Machine

/-! Control registers (R43, R77). -/

/-- A lane still waits on the hypervisor (R340), or has failed and stays waiting (R200). -/
def laneWaits (l : Lane) : Bool := match l.st with | .ready _ => false | _ => true
/-- The 32-bit lanes of a v register that a lane of an access fills: of a row, the eight lanes of its 32-byte column, the columns from 8
on in the second register of a pair (R118, R239, R250). -/
def lanesOf (dst : List RegId) (n : BitVec 6) (l : Lane) : Nat :=
  if l.len ≠ 32 then (if dst.contains (.v n) then 2 ^ l.i else 0)
  else if dst.head? = some (.v n) then (if l.i < 8 then 255 * 2 ^ (8 * l.i) else 0)
  else if dst.contains (.v n) && 8 ≤ l.i then 255 * 2 ^ (8 * (l.i - 8)) else 0
/-- The lanes of a v register that wait, as a mask (R201). -/
def waitMask (k : Core) (n : BitVec 6) : Nat :=
  k.pend.foldl (fun a p => p.lanes.foldl (fun a l => if laneWaits l then a ||| lanesOf p.dst n l else a) a) 0
/-- An s register waits (R201). -/
def waitS (k : Core) (n : BitVec 6) : Bool := k.pend.any (fun p => p.dst.contains (.s n) && p.lanes.any laneWaits)
/-- A pending result is an atomic's; one is a scalar load's or an atomic's. -/
def PKind.isAmo : PKind → Bool | .amo _ _ _ _ => true | _ => false
def PKind.isScalar : PKind → Bool | .amo _ _ _ _ => true | .load _ _ _ => true | _ => false
/-- An s register waits for an LDG or an AMO result (R201). -/
def waitLdg (k : Core) (n : BitVec 6) : Bool :=
  k.pend.any (fun p => p.kind.isScalar && p.dst.contains (.s n) && p.lanes.any laneWaits)
/-- A held operation that R201 counts: a store, a scatter or a RADD. -/
def OKind.counted : OKind → Bool | .store => true | .radd _ _ _ => true | _ => false
/-- The view that SEL selects (R201). -/
def replayView (k : Core) : W64 :=
  let n := k.sel.toNat
  if n < 0x40 then w64 (waitMask k (BitVec.ofNat 6 n))
  else if n < 0x80 then w64 (waitS k (BitVec.ofNat 6 (n - 0x40))).toNat
  else if n = 0x80 then w64 (sumNat ((upto 64).map (fun i => if waitMask k (BitVec.ofNat 6 i) ≠ 0 then 2 ^ i else 0)))
  else if n = 0x81 then w64 (sumNat ((upto 64).map (fun i => if i ≠ 0 && waitLdg k (BitVec.ofNat 6 i) then 2 ^ i else 0)))
  else if n = 0x82 then w64 (sumNat ((k.posts.filter (fun o => o.kind.counted)).map (fun o => o.lanes.countP laneWaits)) +
    k.pend.countP (fun p => p.kind.isAmo && p.lanes.any laneWaits))
  else 0

/-- WCAL (R168) at a cycle. -/
def wcal (t : Nat) : W64 :=
  let p := t % 65536
  let act := decide (65024 ≤ p)
  w64 ((if act then 65536 - p else 65024 - p) + (t / 65536 % 4) * 2 ^ 17 + act.toNat * 2 ^ 19)
/-- COREID (R66). -/
def coreidReg (c : CoreId) (k : Core) : W64 :=
  w64 (k.rank.toNat + c.val * 2 ^ 6 + (if k.group.isSome then k.member.toNat else 0) * 2 ^ 12 + k.group.isSome.toNat * 2 ^ 16 +
    k.lock.toNat * 2 ^ 17)
/-- PARTID (R286). -/
def partidReg (s : State) (c : CoreId) : W64 :=
  match partOf s c with
  | none => 0
  | some p => w64 (p.val + (pt s p).vf.val * 2 ^ 8 + (coresOf s p).length * 2 ^ 16)

/-- The value of a control register of a core now (R43). -/
def ctlVal (s : State) (c : CoreId) (n : Nat) : W64 :=
  let k := cr s c
  match n with
  | 0 => statusReg k
  | 1 => k.epc.setWidth 64
  | 2 => w64 k.dict.length
  | 3 => w64 k.code.length
  | 4 => k.skew.setWidth 64
  | 5 => k.srkey
  | 6 => k.lscale
  | 7 => k.flags.setWidth 64
  | 8 => replayView k
  | 9 => wcal (cycleOf s c)
  | 10 => w64 (cycleOf s c)
  | 11 => coreidReg c k
  | 12 => partidReg s c
  | 13 => w64 k.rec_
  | 14 => s.modesel.setWidth 64
  | 15 => ((vfOf s c).map (fun v => (vf s v).stale.setWidth 64)).getD 0
  | 16 => (k.loops[0]).count.setWidth 64
  | 17 => (k.loops[1]).count.setWidth 64
  | 18 => (k.loops[2]).count.setWidth 64
  | 19 => (k.loops[3]).count.setWidth 64
  | 20 => w64 ((k.loops[0]).end_.toNat + (k.loops[0]).active.toNat * 2 ^ 24)
  | 21 => w64 ((k.loops[1]).end_.toNat + (k.loops[1]).active.toNat * 2 ^ 24)
  | 22 => w64 ((k.loops[2]).end_.toNat + (k.loops[2]).active.toNat * 2 ^ 24)
  | 23 => w64 ((k.loops[3]).end_.toNat + (k.loops[3]).active.toNat * 2 ^ 24)
  | _ => 0

/-- The control registers as R29 reads them at issue (R77). -/
def ctlAll (s : State) (c : CoreId) : List (BitVec 10 × W64) := (upto 24).map (fun n => (BitVec.ofNat 10 n, ctlVal s c n))
/-- The value of a control register at the issue of the bundle. -/
def srcC (s : State) (n : BitVec 10) : W64 := ((s.iss.ctl.find? (fun e => e.1 == n)).map Prod.snd).getD 0

def execGetc (o : GetcF) (s : State) : Out := runSlot (.getc o) none false (fun s => wrS o.d (srcC s o.c) s) s

/-- A write of LSCALE (R134): ignored where LO is above HI, and E is clamped to its bounds. -/
def lscaleWrite (x : W64) (old : W64) : W64 :=
  let lo := sInt 8 (bits x.toNat 8 8); let hi := sInt 8 (bits x.toNat 16 8); let e := sInt 8 (bits x.toNat 0 8)
  if hi < lo then old
  else w64 (x.toNat / 256 * 256 + uInt 8 (if e < lo then lo else if hi < e then hi else e))

/-- A SETC of STATUS in handler mode (R315). -/
def statusWrite (x : W64) (k : Core) : Core :=
  if !k.h then k
  else { k with
    wskip := x.getLsbD 27
    leaf := if bits x.toNat 20 3 < 5 then BitVec.ofNat 3 (bits x.toNat 20 3) else k.leaf
    repc := BitVec.ofNat 8 (bits x.toNat 12 8)
    slot := if bits x.toNat 8 4 < 10 || bits x.toNat 8 4 = 15 then BitVec.ofNat 4 (bits x.toNat 8 4) else k.slot }

/-- A SETC of LCNT (R87): ignored while the level is not active. -/
def lcntWrite (n : Fin 4) (x : W64) (k : Core) : Core :=
  if (k.loops[n]).active then { k with loops := k.loops.set n { k.loops[n] with count := x.setWidth 32 } } else k

/-- SETC at commit (R77): RW fields take the bits of sa, everything else is ignored. -/
def setCtl (n : Nat) (x : W64) (k : Core) : Core :=
  match n with
  | 0 => statusWrite x k
  | 1 => if k.h then { k with epc := x.setWidth 24, latch := [], keptFurther := false, keptNext := none } else k
  | 4 => if x.getLsbD 0 || x.getLsbD 1 || x.getLsbD 2 || x.getLsbD 3 then
      (if k.lock then k else { k with skew := x.setWidth 4 }) else k
  | 5 => { k with srkey := x }
  | 6 => { k with lscale := lscaleWrite x k.lscale }
  | 7 => { k with flags := x.setWidth 7 }
  | 8 => { k with sel := x.setWidth 8 }
  | 16 => lcntWrite 0 x k
  | 17 => lcntWrite 1 x k
  | 18 => lcntWrite 2 x k
  | 19 => lcntWrite 3 x k
  | _ => k

def execSetc (o : SetcF) (s : State) : Out :=
  runSlot (.setc o) none false (fun s => note (.c o.c) (modMe s (setCtl o.c.toNat (srcS s o.a)))) s

/-! Branch targets (R78). -/
def execPrepLabel (o : PrepLF) (s : State) : Out :=
  runSlot (.prepLabel o) none false (fun s => wrB o.b (s.iss.unit + o.off.signExtend 24) s) s
def execPrepReg (o : PrepRF) (s : State) : Out :=
  runSlot (.prepReg o) none false (fun s => wrB o.b ((srcS s o.a).setWidth 24) s) s

/-! The multiway branch (R80, R81). -/

/-- A binary tree with tests at its nodes in preorder. -/
inductive Tr where
  | leaf
  | node (l r : Tr)
  deriving DecidableEq, Repr

def Tr.nodes : Tr → Nat | .leaf => 0 | .node l r => l.nodes + r.nodes + 1
def Tr.leaves : Tr → Nat | .leaf => 1 | .node l r => l.leaves + r.leaves

/-- The 14 shapes of R80. -/
def treeShape : Nat → Tr
  | 0 => .node .leaf (.node .leaf (.node .leaf (.node .leaf .leaf)))
  | 1 => .node .leaf (.node .leaf (.node (.node .leaf .leaf) .leaf))
  | 2 => .node .leaf (.node (.node .leaf .leaf) (.node .leaf .leaf))
  | 3 => .node .leaf (.node (.node .leaf (.node .leaf .leaf)) .leaf)
  | 4 => .node .leaf (.node (.node (.node .leaf .leaf) .leaf) .leaf)
  | 5 => .node (.node .leaf .leaf) (.node .leaf (.node .leaf .leaf))
  | 6 => .node (.node .leaf .leaf) (.node (.node .leaf .leaf) .leaf)
  | 7 => .node (.node .leaf (.node .leaf .leaf)) (.node .leaf .leaf)
  | 8 => .node (.node (.node .leaf .leaf) .leaf) (.node .leaf .leaf)
  | 9 => .node (.node .leaf (.node .leaf (.node .leaf .leaf))) .leaf
  | 10 => .node (.node .leaf (.node (.node .leaf .leaf) .leaf)) .leaf
  | 11 => .node (.node (.node .leaf .leaf) (.node .leaf .leaf)) .leaf
  | 12 => .node (.node (.node .leaf (.node .leaf .leaf)) .leaf) .leaf
  | 13 => .node (.node (.node (.node .leaf .leaf) .leaf) .leaf) .leaf
  | _ => .leaf

/-- The leaf that the tests select: a false test goes left, a true test right; t numbers the subtree's first test and k its
first leaf (R80). -/
def Tr.pick : Tr → (Nat → Bool) → Nat → Nat → Nat
  | .leaf, _, _, k => k
  | .node l r, f, t, k => if f t then r.pick f (t + 1 + l.nodes) (k + l.leaves) else l.pick f (t + 1) k

/-- A test: the predicate XOR the negate bit (R52, R80). -/
def treeTest (r : Regs) (t : BitVec 6) : Bool := rdP r (t.extractLsb' 1 5) ^^ t.getLsbD 0
/-- The taken leaf of a TREE (R30, R80). -/
def treeLeaf (r : Regs) (o : TreeF) : Nat :=
  (treeShape o.shape.toNat).pick (fun n => treeTest r (match n with | 0 => o.t0 | 1 => o.t1 | 2 => o.t2 | _ => o.t3)) 0 0
/-- The target register of a leaf (R80). -/
def treeTarget (o : TreeF) (k : Nat) : BitVec 3 := match k with | 0 => o.l0 | 1 => o.l1 | 2 => o.l2 | 3 => o.l3 | _ => o.l4

/-- The stall cycles of a branch through a b register (R79). -/
def bubbleOf (r : Regs) (b : BitVec 3) : Nat := if b = 0 then 0 else min 2 (3 - (r.age[b.toFin]).toNat)
/-- A branch through a b register redirects fetch (R79). -/
def branchTo (b : BitVec 3) (s : State) : State :=
  redirect (srcB s b) (modIss s (fun i => { i with bubble := bubbleOf i.regs b }))

/-- TREE commits last and goes to the taken leaf's target; through b0 it falls through and redirects nothing (R81, R88). -/
def execTree (o : TreeF) (s : State) : Out :=
  runSlot (.tree o) none false (fun s =>
    let b := treeTarget o s.iss.leaf.toNat
    if b = 0 then s else branchTo b s) s

/-! Hardware loops (R86 to R88). -/

/-- The length of the unit at an address, as far as it can be located (R20). -/
def unitLen (code : List (BitVec 16)) (a : Nat) : Nat :=
  let body := fun (x : Nat) => if code.getD x 0 = 0xFFFF then 25 else 1
  let h := (code.getD a 0).toNat
  if 0xF000 ≤ h && h ≤ 0xF0FF then 1 + body (a + 1) else body a

/-- The address of the n-th unit laid out from an address, n at least 1; none where a unit begins at or beyond the end of
the segment (R86). -/
def nthUnit (code : List (BitVec 16)) : Nat → Nat → Option Nat
  | 0, _ => none
  | n + 1, a => if code.length ≤ a then none else if n = 0 then some a else nthUnit code n (a + unitLen code a)

/-- Opening a loop with a count: trap, skip, or a new innermost level (R86). -/
def loopFault (n : BitVec 12) (c : BitVec 32) (s : State) : Option TrapInfo :=
  match nthUnit (me s).code n.toNat (fallOf s).toNat with
  | none => some (trapPlain s cIllegalCode)
  | some _ => if c ≠ 0 && 4 ≤ activeLoops (me s) then some (trapPlain s cIllegalSchedule) else none
def loopOpen (n : BitVec 12) (c : BitVec 32) (s : State) : State :=
  if c = 0 then
    match nthUnit (me s).code n.toNat (fallOf s).toNat with
    | none => s
    | some last => redirect (BitVec.ofNat 24 (last + unitLen (me s).code last)) s
  else
    redirect (fallOf s) (modMe s (fun k =>
      { k with loops := k.loops.setIfInBounds (activeLoops k) ⟨c, true, s.iss.unit⟩ }))
def execLoop (o : LoopF) (s : State) : Out := runSlot (.loop o) (loopFault o.n o.c s) false (loopOpen o.n o.c) s
def execLoopr (o : LooprF) (s : State) : Out :=
  runSlot (.loopr o) (loopFault o.n ((srcS s o.a).setWidth 32) s) false (loopOpen o.n ((srcS s o.a).setWidth 32)) s

/-- The body length that the B slot of the unit at a loop's end anchor names (R87). -/
def bodyLen (dict : List Bundle) (code : List (BitVec 16)) (a : CAddr) : Nat :=
  match unitAt dict code a with
  | none => 0
  | some u => match slotHolds u.bundle 9 with
    | .ins (.loop o) => o.n.toNat
    | .ins (.loopr o) => o.n.toNat
    | _ => 0
def loopStart (code : List (BitVec 16)) (a : CAddr) : Nat := a.toNat + unitLen code a.toNat
def loopLast (k : Core) (a : CAddr) : Option Nat := nthUnit k.code (bodyLen k.dict k.code a) (loopStart k.code a)

/-- The end test of R88 on a completed unit, from the innermost level outward. -/
def endTest (u : CAddr) (fall : CAddr) : Nat → Core → CAddr × Core
  | 0, k => (fall, k)
  | fuel + 1, k =>
    let n := activeLoops k
    if n = 0 then (fall, k)
    else
      let l := k.loops.getD (n - 1) Loop.reset
      if loopLast k l.end_ ≠ some u.toNat then (fall, k)
      else if l.count.toNat ≤ 1 then endTest u fall fuel { k with loops := k.loops.setIfInBounds (n - 1) Loop.reset }
      else (BitVec.ofNat 24 (loopStart k.code l.end_), { k with loops := k.loops.setIfInBounds (n - 1) { l with count := l.count - 1 } })

/-! Calls, suspension, the end of a task, traps and returns (R83 to R85, R321, R323). -/

def execCall (o : CallF) (s : State) : Out :=
  runSlot (.call o) none false (fun s => branchTo o.t (wrB o.l (fallOf s) s)) s
def execRet (o : BtF) (s : State) : Out := runSlot (.ret o) none false (branchTo o.b) s

/-- The resume latch, waiting lanes, held operations or lock-step forbid a SUSPEND in handler mode (R325). -/
def suspendDouble (s : State) : Bool :=
  let k := me s
  !k.latch.isEmpty || k.pend.any (fun p => p.lanes.any laneWaits) || k.posts.any (fun o => o.lanes.any laneWaits) || k.lock
/-- SUSPEND (R84, R325): without SAFE it traps; otherwise the core saves once the bundle has ended. -/
def execSuspend (o : BtF) (s : State) : Out :=
  runSlot (.suspend o) (if bundleSafe s.iss.bundle && !((me s).h && suspendDouble s) then none else some (trapPlain s cIllegalSchedule)) false
    (fun s => modIss s (fun i => { i with
      redirected := true
      stop := i.stop.andThen (if (me s).h then .save i.unit (me s).epc true false else .save i.unit (srcB s o.b) false false) })) s

/-- HALT (R85): the core ends the task once everything it waits for has happened. -/
def execHalt (s : State) : Out :=
  runSlot .halt none false (fun s => modIss s (fun i => { i with redirected := true, stop := i.stop.andThen .halt })) s

/-- A bundle execution counts in EXEC, which saturates (R54). -/
def Core.counted (k : Core) : Core := { k with exec := min (k.exec + 1) (2 ^ 32 - 1), since := k.since + 1 }
/-- TRAP commits by trapping: SLOT reads 15 and LEAF 0, and the frame holds the code (R323). Its execution is complete, and counts, when
the RTE returns (R54, R321). -/
def execTrap (o : TrapF) (s : State) : Out :=
  runSlot (.trap o) none false (fun s =>
    trapCore s.iss.core ⟨⟨cSyscall, 15, none, o.code, none, none⟩, s.iss.unit, 0, 0, []⟩ s) s

/-- What a trap that was held leaves of the held events: the lanes that failed stay waiting and are walked again by the RTE
after it (R200), so only a link timeout stays. -/
def heldRest (l : List TrapInfo) : List TrapInfo := l.filter (fun t => t.cause == cLinkTimeout)

/-- RTE leaves handler mode (R321): an event that was held is taken as a trap, else the failed lanes walk again (R200) and the
interrupted unit is resumed, after the wait that the handler interrupted (R223). (DEDUCED, log entry 52.) -/
def rteReturn (s : State) : State :=
  let c := s.iss.core
  let k := me s
  let s := modMe s (fun k => { k with h := false })
  match k.failed with
  | t :: r =>
    let s := modMe s (fun k => { k.counted with failed := heldRest r })
    modCr (trapCore c ⟨{ t with slot := k.slot.toNat }, k.epc, k.leaf, k.repc, k.latch⟩ s) c (fun x => { x with
      keptStop := k.keptStop, keptFurther := k.keptFurther, keptNext := k.keptNext })
  | [] =>
    let w := k.kept
    let s := rewalkFailed c s
    redirect k.epc (modIss (modMe s (fun k => { k with
      regs := { k.regs with age := Vector.replicate 8 3 }, resume := true, kept := .none, phaseAt := s.us, further := k.keptFurther, nextUnit := k.keptNext })) (fun i => { i with stop := i.stop.andThen w }))

def execRte (s : State) : Out :=
  runSlot .rte (if (me s).h then none else some (trapPlain s cIllegalSchedule)) false (fun s =>
    if activeLoops (me s) ≠ (me s).lbase.toNat then doubleTrap s.iss.core cIllegalSchedule s.iss.unit s
    else rteReturn s) s

end Sys2Proof.Machine
end

