-- ==== Sys2Proof/Machine/Local.lean ====
section
/-! DEFINITION. The L slot: loads and stores of the local store, and stream registers (R95 to R103, R197, R202 to R205,
R232). -/
namespace Sys2Proof.Machine

/-! Checks that several slots share. -/

/-- A fault at an L address (R197, R318). -/
def lFault (s : State) (cause : BitVec 8) (a : Int) : TrapInfo := ⟨cause, s.iss.slot, some (true, (a % (2 ^ 52 : Nat)).toNat), 0, none, none⟩
/-- A fault at a G address, with its lane where the access has lanes (R318). -/
def gFault (s : State) (cause : BitVec 8) (a : Int) (lane : Option Nat) : TrapInfo :=
  ⟨cause, s.iss.slot, some (false, (a % (2 ^ 52 : Nat)).toNat), 0, lane, none⟩

/-- An L access of n bytes aligned to al: ALIGN, then ACCESS (R197). -/
def lCheck (s : State) (a : Int) (n al : Nat) : Option TrapInfo :=
  if a % (al : Int) ≠ 0 then some (lFault s cAlign a)
  else if !inL a n then some (lFault s cAccess a) else none

/-- A core access waits for the scoreboard (R205): a read for write ranges, a write for all ranges. -/
def rangeHit (k : Core) (wr : Bool) (lo n : Nat) : Bool :=
  k.ranges.any (fun r => (wr || r.wr) && overlap lo (lo + n - 1) r.lo r.hi)

/-! Streams (R95, R96, R101). -/

/-- A stream descriptor's fields (R95). -/
structure Desc where
  base : Nat
  len : Nat
  tag : Nat
  wrap : Bool
  c0 : Nat
  c1 : Nat
  c2 : Nat
  s0 : Int
  s1 : Int
  s2 : Int
  rsvOk : Bool
  deriving DecidableEq, Repr

def descOf (x : BitVec 256) : Desc :=
  let w := fun n => bits x.toNat (64 * n) 64
  ⟨bits (w 0) 0 23, (bits (w 0) 23 5 + 1) * 32, bits (w 0) 28 4, bitAt (w 0) 32,
   bits (w 1) 0 16 + 1, bits (w 2) 0 16 + 1, bits (w 3) 0 16 + 1,
   sInt 24 (bits (w 1) 16 24), sInt 24 (bits (w 2) 16 24), sInt 24 (bits (w 3) 16 24),
   bits (w 0) 33 31 == 0 && bits (w 1) 40 24 == 0 && bits (w 2) 40 24 == 0 && bits (w 3) 40 24 == 0⟩

def Desc.total (d : Desc) : Nat := d.c0 * d.c1 * d.c2
/-- addr(e) (R96). -/
def Desc.addr (d : Desc) (e : Nat) : Int :=
  d.base + (if d.c0 = 1 then 0 else (e % d.c0 : Nat) * d.s0) + (if d.c1 = 1 then 0 else (e / d.c0 % d.c1 : Nat) * d.s1) +
    (if d.c2 = 1 then 0 else (e / (d.c0 * d.c1) : Nat) * d.s2)
/-- The lowest and the highest element address of the pattern (R232). -/
def Desc.loAddr (d : Desc) : Int :=
  d.base + min 0 ((d.c0 - 1 : Nat) * d.s0) + min 0 ((d.c1 - 1 : Nat) * d.s1) + min 0 ((d.c2 - 1 : Nat) * d.s2)
def Desc.hiAddr (d : Desc) : Int :=
  d.base + max 0 ((d.c0 - 1 : Nat) * d.s0) + max 0 ((d.c1 - 1 : Nat) * d.s1) + max 0 ((d.c2 - 1 : Nat) * d.s2)
/-- A valid descriptor (R96). -/
def Desc.valid (d : Desc) : Bool :=
  d.rsvOk && (d.tag < 7 || (7 < d.tag && d.tag < 11)) && d.base % 32 == 0 && d.s0 % 32 == 0 && d.s1 % 32 == 0 && d.s2 % 32 == 0 &&
  decide (0 ≤ d.loAddr) && decide (d.hiAddr + d.len - 1 ≤ (lTop : Int))

def qOf (s : State) (q : BitVec 4) : Stream := (me s).q[q.toFin]
/-- The L address of the element n places after the position, with WRAP (R96). -/
def elAddr (st : Stream) (n : Nat) : Nat :=
  let d := descOf st.desc
  (d.addr ((st.pos.toNat + n) % d.total)).toNat
/-- Advances a stream (R101). -/
def advance (n : Nat) (st : Stream) : Stream :=
  let d := descOf st.desc
  { st with pos := BitVec.ofNat 49 (if d.wrap then (st.pos.toNat + n) % d.total else st.pos.toNat + n) }
def advQ (q : BitVec 4) (n : Nat) (s : State) : State := modMe s (fun k => k.setQ q (advance n k.q[q.toFin]))

/-- The cases of a stream access in the order of R101, for n consecutive elements. -/
def streamCause (st : Stream) (wr : Bool) (tag len n : Nat) : Option (BitVec 8) :=
  let d := descOf st.desc
  if !st.bound || st.wr ≠ wr then some cStreamFault
  else if d.tag ≠ tag then some cTagMismatch
  else if d.len ≠ len then some cStreamFault
  else if !d.wrap && d.total < st.pos.toNat + n then some cStreamFault
  else none
def streamFault (s : State) (q : BitVec 4) (wr : Bool) (tag len n : Nat) : Option TrapInfo :=
  (streamCause (qOf s q) wr tag len n).map (trapPlain s)

/-- A stream element waits for an L range of the core's engines (R103, R205). -/
def streamStall (s : State) (q : BitVec 4) (wr : Bool) (n : Nat) : Bool :=
  (upto n).any (fun i => rangeHit (me s) wr (elAddr (qOf s q) i) (descOf (qOf s q).desc).len)

/-- Every byte of a range lies in entries of a class, write entries for a write (R231): entries are used up from the low
end. -/
def footGo (fs : List FootE) : Nat → Nat → Nat → Bool
  | 0, _, _ => false
  | n + 1, lo, hi =>
    match fs.find? (fun e => decide (e.lo ≤ lo) && decide (lo ≤ e.hi)) with
    | none => false
    | some e => if hi ≤ e.hi then true else footGo fs n (e.hi + 1) hi
def footCovers (foot : List FootE) (eng : BitVec 3) (wr : Bool) (lo hi : Nat) : Bool :=
  footGo (foot.filter (fun e => e.eng == eng && (e.wr || !wr))) (foot.length + 1) lo hi

/-- A T-slot access must find the stream's span covered at its first access in a phase (R232). -/
def spanFault (s : State) (q : BitVec 4) : Option TrapInfo :=
  let st := qOf s q
  let d := descOf st.desc
  if st.checked then none
  else if footCovers (me s).foot 3 st.wr d.loAddr.toNat ((d.hiAddr + d.len - 1).toNat) then none
  else some (lFault s cFootprint d.loAddr)

/-! Scalar loads and stores (R202). -/

def execLdl (o : LdF12) (s : State) : Out :=
  let n := szBytes o.z
  let a := eaddr s o.base o.off n
  runSlot (.ldl o) (lCheck s a n n) (rangeHit (me s) false a.toNat n)
    (fun s => wrS o.d (extend n o.u ((me s).l.rdN a.toNat n)) s) s
def execStl (o : StF12) (s : State) : Out :=
  let n := szBytes o.z
  let a := eaddr s o.base o.off n
  runSlot (.stl o) (lCheck s a n n) (rangeHit (me s) true a.toNat n)
    (fun s => wrL a.toNat n (srcS s o.v).toNat s) s

/-! Vector loads and stores (R203). -/

def execVldl (o : VldlF) (s : State) : Out :=
  let a := eaddr s o.base o.off 256
  runSlot (.vldl o) (lCheck s a 256 32) (rangeHit (me s) false a.toNat 256)
    (fun s => wrV o.d (BitVec.ofNat 2048 ((me s).l.rdN a.toNat 256)) o.t s) s

/-- Both lanes of a granule are stored, so the granule is correct again (R329). -/
def healPairs (a : Nat) (on : List Nat) (s : State) : State :=
  modMe s (fun k => { k with badL := k.badL.filter (fun g =>
    !(decide (a ≤ 8 * g) && on.contains ((8 * g - a) / 4) && on.contains ((8 * g - a) / 4 + 1))) })
/-- The lanes of a register whose bits are set go to memory (R203). -/
def storeLanes (a : Nat) (v : VBits) : List Nat → State → State
  | [], s => s
  | i :: r, s => storeLanes a v r (wrL (a + 4 * i) 4 (laneOf v i).toNat s)
def execVstl (o : VstlF) (s : State) : Out :=
  let a := eaddr s o.base o.off 256
  runSlot (.vstl o) (lCheck s a 256 32) (rangeHit (me s) true a.toNat 256)
    (fun s => healPairs a.toNat (lanesOn (srcM s o.m)) (storeLanes a.toNat (srcV s o.v).bits (lanesOn (srcM s o.m)) s)) s

/-- VLDL through a stream takes the next element (R101, R102, R203). -/
def execVldlStream (o : VldlQF) (s : State) : Out :=
  runSlot (.vldlStream o) (streamFault s o.q false o.t.toNat 256 1) (streamStall s o.q false 1)
    (fun s => advQ o.q 1 (wrV o.d (BitVec.ofNat 2048 ((me s).l.rdN (elAddr (qOf s o.q) 0) 256)) o.t s)) s
def execVstlStream (o : VstlQF) (s : State) : Out :=
  runSlot (.vstlStream o) (streamFault s o.q true (srcV s o.v).tag.toNat 256 1) (streamStall s o.q true 1)
    (fun s => advQ o.q 1 (healPairs (elAddr (qOf s o.q) 0) (lanesOn (srcM s o.m))
      (storeLanes (elAddr (qOf s o.q) 0) (srcV s o.v).bits (lanesOn (srcM s o.m)) s))) s

/-! The stream instructions (R97 to R100). -/

/-- The descriptor that BIND reads from L at issue (R97). -/
def bindDesc (s : State) (a : Nat) : BitVec 256 := BitVec.ofNat 256 (s.iss.l.rdN a 32)
/-- BIND's faults; a descriptor that an engine has still to write is read once its range has retired (R97, R205). -/
def bindFault (s : State) (a : Nat) : Option TrapInfo :=
  match lCheck s a 32 32 with
  | some t => some t
  | none => if rangeHit (me s) false a 32 || (descOf (bindDesc s a)).valid then none else some (trapPlain s cStreamFault)
def execBind (o : BindF) (s : State) : Out :=
  let a := (srcS s o.a).toNat
  runSlot (.bind o) (bindFault s a) (rangeHit (me s) false a 32)
    (fun s => modMe s (fun k => k.setQ o.q ⟨true, o.wr, bindDesc s a, 0, false⟩)) s
def execUnbind (o : UnbindF) (s : State) : Out :=
  runSlot (.unbind o) none false (fun s => modMe s (fun k => k.setQ o.q Stream.reset)) s

/-- QSKIP (R99): only bits [47:0] count; skipping beyond the end of a pattern without WRAP, or an unbound q, faults. -/
def qskipFault (s : State) (q : BitVec 4) (k : Nat) : Option TrapInfo :=
  let st := qOf s q
  let d := descOf st.desc
  if !st.bound then some (trapPlain s cStreamFault)
  else if !d.wrap && d.total < st.pos.toNat + k then some (trapPlain s cStreamFault) else none
def execQskip (o : QskipF) (s : State) : Out :=
  let k := (srcS s o.a).toNat % 2 ^ 48
  runSlot (.qskip o) (qskipFault s o.q k) false (advQ o.q k) s

/-- QSTAT's value (R100; DESIGN CHOICE, log entry 44). A stream of this model always has its element or its room, unless a range holds it back. -/
def qstatVal (s : State) (q : BitVec 4) : W64 :=
  let st := qOf s q
  let d := descOf st.desc
  if !st.bound then 0
  else
    let left := d.total - st.pos.toNat
    let ready := (decide (0 < left) || d.wrap) && !streamStall s q st.wr 1
    let shown := if left < 2 ^ 48 then left else Config.fullLeft.toNat
    w64 (shown + 2 ^ 48 + st.wr.toNat * 2 ^ 49 + d.wrap.toNat * 2 ^ 50 + ready.toNat * 2 ^ 51)
def execQstat (o : QstatF) (s : State) : Out :=
  runSlot (.qstat o) none false (fun s => wrS o.d (qstatVal s o.q) s) s

end Sys2Proof.Machine
end

