-- ==== Sys2Proof/Machine/Access.lean ====
section
/-! DEFINITION. The G slot's accesses to ordinary memory: loads, stores, gathers, scatters, atomics, reduce-on-write, rows,
PHASE and PREF (R197 to R215, R222, R249, R250, R324, R339). -/
namespace Sys2Proof.Machine

/-- The partition of the committing core. -/
def myPart (s : State) : PartId := (partOf s s.iss.core).getD 0

/-- A watched access touches the partition's line (R324); the slot that WSKIP resumes skips the check once. (DEDUCED, log entry 61.) -/
def watched (s : State) (w : Want) (va n : Nat) : Bool :=
  let x := match vfOf s s.iss.core with | some v => (vf s v).watch | none => 0
  x.getLsbD 0 && s.iss.skip != some s.iss.slot && ((w.rdWatch && x.getLsbD 2) || (w.wrWatch && x.getLsbD 1)) &&
    overlap va (va + n - 1) (bits x.toNat 6 46 * 64) (bits x.toNat 6 46 * 64 + 63)

/-- The translation of the committing core's access; a core in no partition reaches nothing (R284, R288). -/
def xlMe (s : State) (va : Nat) (wr : Bool) : Xl :=
  match partOf s s.iss.core with
  | some p => xlate s p va wr
  | none => .denied

/-- A request of a kind that serves an access to the page is outstanding (R294, R339). -/
def askedPage (s : State) (va : Nat) (wr : Bool) : Option PageReq :=
  (vf s (pt s (myPart s)).vf).reqs.find? (fun r => r.va / 65536 == va / 65536 && (r.wr || r.tbl || !wr))
/-- The translation of a lane at issue: a gather or scatter makes no walk for a page that has been asked for (R339). -/
def xlLane (s : State) (gath : Bool) (va : Nat) (wr : Bool) : Xl :=
  match (if gath then askedPage s va wr else none) with
  | some r => .miss r.ipa r.tbl r.level
  | none => xlMe s va wr

/-- The fault of one lane, in the order of R197: ALIGN, ACCESS, WATCH, translation. -/
def laneFault (s : State) (w : Want) (al : Nat) (lane : Option Nat) (a : Int) (n : Nat) : Option TrapInfo :=
  let va := gAddr a
  if a % (al : Int) ≠ 0 then some (gFault s cAlign va lane)
  else if 2 ^ 52 ≤ va then some (gFault s cAccess va lane)
  else
    let x := xlLane s lane.isSome va w.wr
    let den := match x with | .ok loc => locDenied s w loc | _ => false
    if den then some (gFault s cAccess va lane)
    else if watched s w va n then some (gFault s cWatch va lane)
    else match x with
      | .s1 => some (gFault s cXlateS1 va lane)
      | .denied => some (gFault s cAccess va lane)
      | _ => none

/-- The first fault among lanes in ascending order (R197). -/
def lanesFault (s : State) (w : Want) (al n : Nat) (showLane : Bool) : List (Nat × Int) → Option TrapInfo
  | [] => none
  | (i, a) :: r =>
    match laneFault s w al (if showLane then some i else none) a n with
    | some t => some t
    | none => lanesFault s w al n showLane r

/-- Translates one lane at commit: it is ready, or it joins or posts a page request (R199, R339). -/
def openLane (lv wr : Bool) (i n : Nat) (a : Int) (data : Option (List Byte)) (s : State) : State × Lane :=
  let va := gAddr a
  let lane := fun (st : LaneSt) => (⟨i, lv, va, n, st, data⟩ : Lane)
  match (if lv then askedPage s va wr else none) with
  | some r => (s, lane (.wait (some r.tag) r.ipa wr))
  | none =>
    match xlMe s va wr with
    | .ok loc => (tlbAdd s (myPart s) va wr loc, lane (.ready loc))
    | .miss ipa tbl lvl =>
      let x := pageMiss s s.iss.core (myPart s) ipa va tbl lvl wr
      (x.1, lane (.wait (some x.2) ipa wr))
    | .s1 => (s, lane (.failed cXlateS1))
    | .denied => (s, lane (.failed cAccess))

def openLanes (lv wr : Bool) (n : Nat) : List (Nat × Int × Option (List Byte)) → State → State × List Lane
  | [], s => (s, [])
  | (i, a, d) :: r, s =>
    let (s, l) := openLane lv wr i n a d s
    let (s, ls) := openLanes lv wr n r s
    (s, l :: ls)

/-- The next place in program order of the committing core. -/
def mySeq (s : State) : Nat := (me s).seq
def bumpSeq (s : State) : State := modMe s (fun k => { k with seq := k.seq + 1 })

/-- Issues the lanes of a load into its registers (R199, R206 to R208). -/
def issueLoad (lv : Bool) (kind : PKind) (dst : List RegId) (val : BitVec 4096) (n : Nat) (lanes : List (Nat × Int)) (s : State) : State :=
  let (s, ls) := openLanes lv false n (lanes.map (fun l => (l.1, l.2, none))) s
  let (s, ls) := captureLanes s.iss.core (mySeq s) ls s
  launchPend kind dst (s.iss.t + 1) val 0 ls s

/-- Issues the lanes of a store (R199, R206 to R209): translated lanes take effect, the others are held. -/
def issueStore (lv : Bool) (n : Nat) (lanes : List (Nat × Int × List Byte)) (s : State) : State :=
  let (s, ls) := openLanes lv true n (lanes.map (fun l => (l.1, l.2.1, some l.2.2))) s
  let q := mySeq s
  let (s, ls) := performStores s.iss.core q ls s
  let s := if ls.isEmpty then s else modMe s (fun k => { k with posts := k.posts ++ [⟨q, .store, ls⟩] })
  bumpSeq s

/-! Scalar and vector accesses (R206, R207). -/

def execLdg (o : LdF11) (s : State) : Out :=
  let n := szBytes o.z
  let a := eaddr s o.base o.off n
  runSlot (.ldg o) (lanesFault s wLoad n n false [(0, a)]) false
    (fun s => issueLoad false (.load true (!o.u) 0) [.s o.d] 0 n [(0, a)] (emptyS o.d s)) s
def execStg (o : StF11) (s : State) : Out :=
  let n := szBytes o.z
  let a := eaddr s o.base o.off n
  runSlot (.stg o) (lanesFault s wStore n n false [(0, a)]) false
    (fun s => issueStore false n [(0, a, bytesOf n (srcS s o.v).toNat)] s) s

/-- The lanes of a 256-byte access (R207): the address must be a multiple of 32, and lane i lies 4i above it. -/
def vecLanes (a : Int) (on : List Nat) : List (Nat × Int) := on.map (fun i => (i, a + 4 * i))
/-- The faults of a 256-byte access: ALIGN of the address, then those of its enabled lanes (R197, R207). -/
def vecFault (s : State) (w : Want) (a : Int) (on : List Nat) : Option TrapInfo :=
  if a % 32 ≠ 0 then some (gFault s cAlign (gAddr a) none) else lanesFault s w 4 4 false (vecLanes a on)

/-- A vector load: with no lane enabled the register keeps its bits under the new tag and stays full (R207). -/
def loadV (lv : Bool) (d : BitVec 6) (t : Tag) (lanes : List (Nat × Int)) (s : State) : State :=
  if lanes.isEmpty then wrV d (rdV (me s).regs d).bits t s
  else issueLoad lv (.load false false t) [.v d] ((rdV (me s).regs d).bits.setWidth 4096) 4 lanes (emptyV d t s)

def execVldg (o : VldgF) (s : State) : Out :=
  let a := eaddr s o.base o.off 256
  let on := lanesOn (srcM s o.m)
  runSlot (.vldg o) (if on.isEmpty then none else vecFault s wLoad a on) false (loadV false o.d o.t (vecLanes a on)) s
def execVstg (o : VstgF) (s : State) : Out :=
  let a := eaddr s o.base o.off 256
  let on := lanesOn (srcM s o.m)
  runSlot (.vstg o) (vecFault s wStore a on) false
    (fun s => issueStore false 4 ((vecLanes a on).map (fun l => (l.1, l.2, bytesOf 4 (laneOf (srcV s o.v).bits l.1).toNat))) s) s

/-! Gather and scatter (R208). -/

def gathLanes (s : State) (base : BitVec 6) (i : BitVec 6) (on : List Nat) : List (Nat × Int) :=
  on.map (fun n => (n, ((srcS s base).toNat : Int) + (laneOf (srcV s i).bits n).toInt * 4))
/-- vi must carry I32, the base must be a multiple of 4, then the lanes' own faults (R197, R208). A gather with no lane
enabled reads nothing, so its base cannot fault (R207, R208). (DEDUCED, log entry 54.) -/
def gathFault (s : State) (w : Want) (base i : BitVec 6) (on : List Nat) : Option TrapInfo :=
  if (srcV s i).tag ≠ 3 then some (trapPlain s cTagMismatch)
  else if on.isEmpty && !w.wr then none
  else if (srcS s base).toNat % 4 ≠ 0 then some (gFault s cAlign (srcS s base).toNat none)
  else lanesFault s w 4 4 true (gathLanes s base i on)
def execVgath (o : VgathF) (s : State) : Out :=
  let on := lanesOn (srcM s o.m)
  runSlot (.vgath o) (gathFault s wLoad o.base o.i on) false (loadV true o.d o.t (gathLanes s o.base o.i on)) s
/-- Enabled lanes are performed in ascending order, so the highest lane's bytes stay (R208). -/
def execVscat (o : VscatF) (s : State) : Out :=
  let on := lanesOn (srcM s o.m)
  runSlot (.vscat o) (gathFault s wStore o.base o.i on) false
    (fun s => issueStore true 4 ((gathLanes s o.base o.i on).map (fun l => (l.1, l.2, bytesOf 4 (laneOf (srcV s o.v).bits l.1).toNat))) s) s

/-! Atomics (R211, R212). The operation is performed when its result lands (DESIGN CHOICE, log entry 10). -/

/-- The new word of an AMO (R211), on w-bit words. -/
def amoNew (fn w x v e : Nat) : Nat :=
  match fn with
  | 0 => v
  | 1 => (x + v) % 2 ^ w
  | 2 => x &&& v
  | 3 => x ||| v
  | 4 => x ^^^ v
  | 5 => if sInt w v < sInt w x then v else x
  | 6 => if sInt w x < sInt w v then v else x
  | 7 => min x v
  | 8 => max x v
  | _ => if x = e then v else x

def amoBytes (wide : Bool) : Nat := if wide then 8 else 4
def issueAmo (fn : BitVec 4) (wide : Bool) (d base op : BitVec 6) (expect : W64) (s : State) : State :=
  let a : Int := (srcS s base).toNat
  let v := srcS s op
  let s := emptyS d s
  let x := openLanes false true (amoBytes wide) [(0, a, none)] s
  launchPend (.amo fn wide v expect) [.s d] (x.1.iss.t + 1) 0 0 x.2 x.1
def execAmo (o : AmoF) (s : State) : Out :=
  let n := amoBytes o.wide
  runSlot (.amo o) (lanesFault s wAmo n n false [(0, ((srcS s o.base).toNat : Int))]) false
    (issueAmo o.fn o.wide o.d o.base o.o 0) s
def execAmoCas (o : CasF) (s : State) : Out :=
  let n := amoBytes o.wide
  runSlot (.amoCas o) (lanesFault s wAmo n n false [(0, ((srcS s o.base).toNat : Int))]) false
    (fun s => issueAmo 9 o.wide o.d o.base o.o (srcS s o.d) s) s

/-! Posted operations (R213, R249): performed later by a Rill unit. -/

/-- Posts an operation of one lane. -/
def issuePost (kind : OKind) (n : Nat) (a : Int) (s : State) : State :=
  let x := openLanes false true n [(0, a, none)] s
  let q := mySeq x.1
  bumpSeq (modMe x.1 (fun k => { k with posts := k.posts ++ [⟨q, kind, x.2⟩] }))

def raddBytes (t : Tag) : Nat := tagWidth t.toNat / 8
def execRadd (o : RaddF) (s : State) : Out :=
  let n := raddBytes o.fmt
  let a : Int := (srcS s o.base).toNat
  runSlot (.radd o) (lanesFault s wRadd n n false [(0, a)]) false
    (fun s => issuePost (.radd o.fmt o.op (srcS s o.v)) n a s) s

/-- The length of a row instruction in bytes (R249). -/
def rowBytes (n : BitVec 4) : Nat := 32 * (n.toNat + 1)
/-- A register, or a register and the next as one 4096-bit value (R239, R249). -/
def pairBits (s : State) (v : BitVec 6) : BitVec 4096 := (srcV s (vNext v)).bits ++ (srcV s v).bits
/-- TAG_MISMATCH of a row's data registers comes before the address faults (R127, R249). -/
def rowTagFault (s : State) (v : BitVec 6) (n : BitVec 4) : Bool :=
  (srcV s v).tag ≠ 5 || (decide (7 < n.toNat) && (srcV s (vNext v)).tag ≠ 5)
/-- A row may cross a page: its columns are checked one by one (R249). -/
def rowFault (s : State) (w : Want) (base : BitVec 6) (n : BitVec 4) : Option TrapInfo :=
  lanesFault s w 32 32 false ((upto (n.toNat + 1)).map (fun i => (i, ((srcS s base).toNat : Int) + 32 * i)))
def execRowadd (o : RowaddF) (s : State) : Out :=
  runSlot (.rowadd o) (if rowTagFault s o.v o.n then some (trapPlain s cTagMismatch) else rowFault s wRowadd o.base o.n) false
    (fun s =>
      let x := openLanes false true 32 ((upto (o.n.toNat + 1)).map (fun i => (i, ((srcS s o.base).toNat : Int) + 32 * i, none))) s
      let q := mySeq x.1
      let v := pairBits s o.v
      bumpSeq (modMe x.1 (fun k => { k with posts := k.posts ++ [⟨q, .rowadd (rowBytes o.n) v, x.2⟩] }))) s

/-- The destinations of a row load (R250). -/
def rowDst (d : BitVec 6) (n : BitVec 4) : List RegId := if n.toNat < 8 then [.v d] else [.v d, .v (vNext d)]
def emptyAll (t : Tag) : List RegId → State → State
  | [], s => s
  | .v n :: r, s => emptyAll t r (emptyV n t s)
  | .s n :: r, s => emptyAll t r (emptyS n s)
  | _ :: r, s => emptyAll t r s
def execRowld (o : RowldF) (s : State) : Out :=
  runSlot (.rowld o) (rowFault s wRowld o.base o.n) false
    (fun s =>
      let s := emptyAll 5 (rowDst o.d o.n) s
      let x := openLanes false false 32 ((upto (o.n.toNat + 1)).map (fun i => (i, ((srcS s o.base).toNat : Int) + 32 * i, none))) s
      launchPend (.rowld (rowBytes o.n)) (rowDst o.d o.n) (x.1.iss.t + 1) 0 0 x.2 x.1) s

/-! PHASE and PREF (R215, R222). -/

/-- What a PHASE and a BAR wait for before they issue (R93, R222): held and posted operations, AMOs and waiting load lanes of
earlier bundles, and the L ranges of the core's engines. -/
def phaseStall (s : State) : Bool :=
  let k := me s
  k.posts.any (fun o => decide (o.seq < s.iss.seq0)) ||
  k.pend.any (fun p => decide (p.seq < s.iss.seq0) && (match p.kind with | .amo _ _ _ _ => true | _ => p.lanes.any laneWaits)) ||
  !k.ranges.isEmpty

/-- The footprint table is cleared, and every stream is checked again (R232, R233). -/
def clearFoot (k : Core) : Core := { k with foot := [], q := k.q.map (fun st => { st with checked := false }) }

/-- PHASE commits in slot 3: the table is cleared and the writes are published; the refresh follows once the bundle has
ended and the acknowledgements have come: at a wide scope all that the partition awaits, among them those of the samples that
the PHASE follows (R222, R228, R248). -/
def execPhase (o : PhaseF) (s : State) : Out :=
  runSlot (.phase o) none (phaseStall s) (fun s =>
    let (s, ids) := publishFwd (modMe s clearFoot) s.iss.core o.scope.toNat
    let ids := if 2 < o.scope.toNat then (s.ackWait.filter (fun a => a.part == myPart s)).map (fun a => a.id)
      else ids.filter (fun i => s.sent.any (fun p => match p with | .write _ _ _ _ _ _ a => a == i | _ => false))
    modIss s (fun i => { i with stop := i.stop.andThen (.phase o.scope ids .none) })) s

/-- PREF has no architectural effect (R215). -/
def execPref (o : PrefF) (s : State) : Out := runSlot (.pref o) none false id s

end Sys2Proof.Machine
end

