-- ==== Sys2Proof/Machine/Scalar.lean ====
section
/-! DEFINITION. The scalar instructions of the A slots (R70 to R74). -/
namespace Sys2Proof.Machine

/-- An A-slot instruction that writes one scalar at commit (R70). -/
def scalarOut (i : Instr) (d : BitVec 6) (x : State → W64) (s : State) : Out :=
  runSlot i none false (fun s => wrS d (x s) s) s

/-- A division: its result lands 24 cycles after commit (R72). -/
def divOut (i : Instr) (d : BitVec 6) (x : State → W64) (s : State) : Out :=
  runSlot i none false (fun s => launchS d 24 (x s) s) s

def execAdd (o : AluB) (s : State) : Out := scalarOut (.add o) o.d (fun s => srcS s o.a + srcS s o.b) s
def execSub (o : AluB) (s : State) : Out := scalarOut (.sub o) o.d (fun s => srcS s o.a - srcS s o.b) s
def execMul (o : AluB) (s : State) : Out := scalarOut (.mul o) o.d (fun s => srcS s o.a * srcS s o.b) s
/-- floor(S(a) × S(b) / 2^64) (R71). -/
def mulhs (a b : W64) : W64 := BitVec.ofInt 64 (a.toInt * b.toInt / (2 ^ 64 : Nat))
def execMulh (o : AluB) (s : State) : Out := scalarOut (.mulh o) o.d (fun s => mulhs (srcS s o.a) (srcS s o.b)) s
def execMulhu (o : AluB) (s : State) : Out :=
  scalarOut (.mulhu o) o.d (fun s => w64 ((srcS s o.a).toNat * (srcS s o.b).toNat / 2 ^ 64)) s

/-- The quotient of DIV, truncated toward zero (R72). -/
def divS (a b : W64) : W64 :=
  if b = 0 then BitVec.allOnes 64 else BitVec.ofInt 64 (a.toInt.tdiv b.toInt)
/-- The remainder of REM, with the sign of the dividend (R72). -/
def remS (a b : W64) : W64 := if b = 0 then a else BitVec.ofInt 64 (a.toInt.tmod b.toInt)
def divU (a b : W64) : W64 := if b = 0 then BitVec.allOnes 64 else w64 (a.toNat / b.toNat)
def remU (a b : W64) : W64 := if b = 0 then a else w64 (a.toNat % b.toNat)
def execDiv (o : AluB) (s : State) : Out := divOut (.div o) o.d (fun s => divS (srcS s o.a) (srcS s o.b)) s
def execDivu (o : AluB) (s : State) : Out := divOut (.divu o) o.d (fun s => divU (srcS s o.a) (srcS s o.b)) s
def execRem (o : AluB) (s : State) : Out := divOut (.rem o) o.d (fun s => remS (srcS s o.a) (srcS s o.b)) s
def execRemu (o : AluB) (s : State) : Out := divOut (.remu o) o.d (fun s => remU (srcS s o.a) (srcS s o.b)) s

def execAnd (o : AluB) (s : State) : Out := scalarOut (.and o) o.d (fun s => srcS s o.a &&& srcS s o.b) s
def execOr (o : AluB) (s : State) : Out := scalarOut (.or o) o.d (fun s => srcS s o.a ||| srcS s o.b) s
def execXor (o : AluB) (s : State) : Out := scalarOut (.xor o) o.d (fun s => srcS s o.a ^^^ srcS s o.b) s
def execAndn (o : AluB) (s : State) : Out := scalarOut (.andn o) o.d (fun s => srcS s o.a &&& ~~~(srcS s o.b)) s

/-- A shift amount: b & 63 (R71). -/
def shAmt (b : W64) : Nat := b.toNat % 64
def execShl (o : AluB) (s : State) : Out := scalarOut (.shl o) o.d (fun s => srcS s o.a <<< shAmt (srcS s o.b)) s
def execShr (o : AluB) (s : State) : Out := scalarOut (.shr o) o.d (fun s => srcS s o.a >>> shAmt (srcS s o.b)) s
def execSar (o : AluB) (s : State) : Out := scalarOut (.sar o) o.d (fun s => (srcS s o.a).sshiftRight (shAmt (srcS s o.b))) s
def execRol (o : AluB) (s : State) : Out := scalarOut (.rol o) o.d (fun s => (srcS s o.a).rotateLeft (shAmt (srcS s o.b))) s

def execMin (o : AluB) (s : State) : Out :=
  scalarOut (.min o) o.d (fun s => if (srcS s o.a).slt (srcS s o.b) then srcS s o.a else srcS s o.b) s
def execMax (o : AluB) (s : State) : Out :=
  scalarOut (.max o) o.d (fun s => if (srcS s o.a).slt (srcS s o.b) then srcS s o.b else srcS s o.a) s
def execMinu (o : AluB) (s : State) : Out :=
  scalarOut (.minu o) o.d (fun s => if (srcS s o.a).ult (srcS s o.b) then srcS s o.a else srcS s o.b) s
def execMaxu (o : AluB) (s : State) : Out :=
  scalarOut (.maxu o) o.d (fun s => if (srcS s o.a).ult (srcS s o.b) then srcS s o.b else srcS s o.a) s

/-- The carry-less product over n bits of b (R73). -/
def clmul (a b : Nat) : Nat → Nat
  | 0 => 0
  | n + 1 => clmul a b n ^^^ (if b / 2 ^ n % 2 = 1 then a * 2 ^ n else 0)
def execClmull (o : AluB) (s : State) : Out :=
  scalarOut (.clmull o) o.d (fun s => w64 (clmul (srcS s o.a).toNat (srcS s o.b).toNat 64)) s
def execClmulh (o : AluB) (s : State) : Out :=
  scalarOut (.clmulh o) o.d (fun s => w64 (clmul (srcS s o.a).toNat (srcS s o.b).toNat 64 / 2 ^ 64)) s

/-- Trailing zero bits of a number below 2^n; n when it is zero (R71). -/
def ctzN : Nat → Nat → Nat
  | 0, _ => 0
  | n + 1, x => if x % 2 = 1 then 0 else ctzN n (x / 2) + 1
/-- One bits of the low n bits. -/
def popN : Nat → Nat → Nat
  | 0, _ => 0
  | n + 1, x => x % 2 + popN n (x / 2)
def execClz (o : AluU) (s : State) : Out := scalarOut (.clz o) o.d (fun s => w64 (64 - bitLen (srcS s o.a).toNat)) s
def execCtz (o : AluU) (s : State) : Out := scalarOut (.ctz o) o.d (fun s => w64 (ctzN 64 (srcS s o.a).toNat)) s
def execPopc (o : AluU) (s : State) : Out := scalarOut (.popc o) o.d (fun s => w64 (popN 64 (srcS s o.a).toNat)) s
def execMov (o : AluU) (s : State) : Out := scalarOut (.mov o) o.d (fun s => srcS s o.a) s
def execSextI8 (o : AluU) (s : State) : Out := scalarOut (.sextI8 o) o.d (fun s => ((srcS s o.a).setWidth 8).signExtend 64) s
def execSextI16 (o : AluU) (s : State) : Out := scalarOut (.sextI16 o) o.d (fun s => ((srcS s o.a).setWidth 16).signExtend 64) s
def execSextI32 (o : AluU) (s : State) : Out := scalarOut (.sextI32 o) o.d (fun s => ((srcS s o.a).setWidth 32).signExtend 64) s
def execZextI8 (o : AluU) (s : State) : Out := scalarOut (.zextI8 o) o.d (fun s => ((srcS s o.a).setWidth 8).setWidth 64) s
def execZextI16 (o : AluU) (s : State) : Out := scalarOut (.zextI16 o) o.d (fun s => ((srcS s o.a).setWidth 16).setWidth 64) s
def execZextI32 (o : AluU) (s : State) : Out := scalarOut (.zextI32 o) o.d (fun s => ((srcS s o.a).setWidth 32).setWidth 64) s

def execSel (o : SelF) (s : State) : Out := scalarOut (.sel o) o.d (fun s => if srcP s o.p then srcS s o.a else srcS s o.b) s
def execAddi (o : AddiF) (s : State) : Out := scalarOut (.addi o) o.d (fun s => srcS s o.a + o.imm.signExtend 64) s
def execLea (o : LeaF) (s : State) : Out := scalarOut (.lea o) o.d (fun s => srcS s o.a + (srcS s o.b <<< o.k.toNat)) s
def execLi (o : LiF) (s : State) : Out := scalarOut (.li o) o.d (fun _ => o.imm.signExtend 64) s
/-- d := (old sd AND NOT (0xFFFF << 16h)) OR (imm << 16h) (R74). -/
def execLih (o : LihF) (s : State) : Out :=
  scalarOut (.lih o) o.d (fun s =>
    (srcS s o.d &&& ~~~((0xFFFF : W64) <<< (16 * o.h.toNat))) ||| (o.imm.setWidth 64 <<< (16 * o.h.toNat))) s

end Sys2Proof.Machine
end

