-- ==== Sys2Proof/Machine/Vector.lean ====
section
/-! DEFINITION. The V slots: integer and floating-point arithmetic on elements, comparisons and masks, special functions,
conversions, reductions, moves and the loss-scale checks (R134 to R157). -/
namespace Sys2Proof.Machine

/-! Rules common to the V slots (R136 to R138). -/

/-- An element is enabled when every lane that it occupies is (R136). -/
def enabled (m : W64) (w e : Nat) : Bool := m.getLsbD (w * e / 32) && m.getLsbD ((w * e + w - 1) / 32)

/-- The flags of a rounded result (R128, R132). -/
def flagsOf (r : Rounded) : BitVec 7 :=
  (if r.inv then fINV else 0) ||| (if r.ovf then fOVF else 0) ||| (if r.unf then fUNF else 0) ||| (if r.sat then fSAT else 0)

/-- The merge of R136 over the elements below n: an enabled element takes its result and gives its flags, a disabled
element keeps its bits. -/
def mergeGo (old : VBits) (w : Nat) (m : W64) (f : Nat → Rounded) : Nat → VBits × BitVec 7
  | 0 => (0, 0)
  | e + 1 =>
    let x := mergeGo old w m f e
    if enabled m w e then
      let r := f e
      (x.1 ||| ((BitVec.ofNat w r.code).setWidth 2048 <<< (w * e)), x.2 ||| flagsOf r)
    else (x.1 ||| ((elem old w e).setWidth 2048 <<< (w * e)), x.2)

/-- The merged register and its flags. -/
def merged (d : BitVec 6) (w : Nat) (m : W64) (f : Nat → Rounded) (s : State) : VBits × BitVec 7 :=
  mergeGo (rdV (me s).regs d).bits w m f (2048 / w)

/-- A V-slot result at commit (R136): the merged bits, the destination's tag, and the flags. -/
def vOut (d : BitVec 6) (t : Tag) (m : BitVec 3) (f : Nat → Rounded) (s : State) : State :=
  let x := merged d (tagWidth t.toNat) (srcM s m) f s
  setFlags x.2 (wrV d x.1 t s)

/-- Element e of a source register, as a code. -/
def el (s : State) (v : BitVec 6) (w e : Nat) : Nat := (elem (srcV s v).bits w e).toNat

/-- TAG_MISMATCH unless every named source carries the tag (R127, R137). -/
def tagsAre (s : State) (t : Tag) (vs : List (BitVec 6)) : Option TrapInfo :=
  if vs.all (fun v => (srcV s v).tag == t) then none else some (trapPlain s cTagMismatch)

/-- The rounding of destination element e under an rnd field (R138). -/
def vRnd (s : State) (rnd : BitVec 2) (e : Nat) : Rnd := rndOf rnd.toNat (srcC s 5).toNat (s.iss.slot * 65536 + e)

/-! Integer arithmetic (R139 to R142). -/

/-- A two-source integer instruction (R139). -/
def vInt (i : Instr) (o : VaF) (f : Nat → Nat → Nat → Nat) (s : State) : Out :=
  let w := tagWidth o.fmt.toNat
  runSlot i (tagsAre s o.fmt [o.a, o.b]) false
    (fun s => vOut o.d o.fmt o.m (fun e => .exact (f w (el s o.a w e) (el s o.b w e))) s) s

def execVadd (o : VaF) (s : State) : Out := vInt (.vadd o) o (fun w a b => (a + b) % 2 ^ w) s
def execVsub (o : VaF) (s : State) : Out := vInt (.vsub o) o (fun w a b => (a + 2 ^ w - b) % 2 ^ w) s
def execVmul (o : VaF) (s : State) : Out := vInt (.vmul o) o (fun w a b => a * b % 2 ^ w) s
def execVmulh (o : VaF) (s : State) : Out :=
  vInt (.vmulh o) o (fun w a b => uInt w (sInt w a * sInt w b / (2 ^ w : Nat))) s
def execVmad (o : VaAccF) (s : State) : Out :=
  let w := tagWidth o.fmt.toNat
  runSlot (.vmad o) (tagsAre s o.fmt [o.a, o.b, o.d]) false
    (fun s => vOut o.d o.fmt o.m (fun e => .exact ((el s o.d w e + el s o.a w e * el s o.b w e) % 2 ^ w)) s) s

/-- A bitwise instruction: fmt 0x0 accepts any tags (R139). -/
def vBit (i : Instr) (o : VaF) (f : Nat → Nat → Nat) (s : State) : Out :=
  let w := tagWidth o.fmt.toNat
  runSlot i (if o.fmt = 0 then none else tagsAre s o.fmt [o.a, o.b]) false
    (fun s => vOut o.d o.fmt o.m (fun e => .exact (f (el s o.a w e) (el s o.b w e))) s) s
def execVand (o : VaF) (s : State) : Out := vBit (.vand o) o (fun a b => a &&& b) s
def execVor (o : VaF) (s : State) : Out := vBit (.vor o) o (fun a b => a ||| b) s
def execVxor (o : VaF) (s : State) : Out := vBit (.vxor o) o (fun a b => a ^^^ b) s

def execVshl (o : VaF) (s : State) : Out := vInt (.vshl o) o (fun w a b => a * 2 ^ (b % w) % 2 ^ w) s
def execVshr (o : VaF) (s : State) : Out := vInt (.vshr o) o (fun w a b => a / 2 ^ (b % w)) s
def execVsar (o : VaF) (s : State) : Out := vInt (.vsar o) o (fun w a b => uInt w (sInt w a / (2 ^ (b % w) : Nat))) s
def execVmin (o : VaF) (s : State) : Out := vInt (.vmin o) o (fun w a b => if sInt w b < sInt w a then b else a) s
def execVmax (o : VaF) (s : State) : Out := vInt (.vmax o) o (fun w a b => if sInt w a < sInt w b then b else a) s

/-- Sat of an exact integer, with FLAGS.SAT (R119). -/
def satCode (w : Nat) (x : Int) : Rounded := let y := satInt w x; ⟨uInt w y.1, false, false, false, y.2, y.2⟩
def execVabs (o : VaOneF) (s : State) : Out :=
  let w := tagWidth o.fmt.toNat
  runSlot (.vabs o) (tagsAre s o.fmt [o.a]) false
    (fun s => vOut o.d o.fmt o.m (fun e => satCode w (sInt w (el s o.a w e)).natAbs) s) s

/-- The exact sum of products of the elements that occupy one lane (R140). -/
def dotGo (w : Nat) (a b : Nat → Nat) : Nat → Int
  | 0 => 0
  | j + 1 => dotGo w a b j + sInt w (a j) * sInt w (b j)
def execVwacc (o : VaAccF) (s : State) : Out :=
  let w := tagWidth o.fmt.toNat
  let p := 32 / w
  runSlot (.vwacc o) (match tagsAre s o.fmt [o.a, o.b] with | some t => some t | none => tagsAre s 3 [o.d]) false
    (fun s => vOut o.d 3 o.m (fun i =>
      satCode 32 (sInt 32 (el s o.d 32 i) + dotGo w (fun j => el s o.a w (p * i + j)) (fun j => el s o.b w (p * i + j)) p)) s) s

def execVclmulLo (o : VaF) (s : State) : Out :=
  runSlot (.vclmulLo o) none false
    (fun s => vOut o.d 0 o.m (fun i => .exact (clmul (el s o.a 32 i) (el s o.b 32 i) 32 % 2 ^ 32)) s) s
def execVclmulHi (o : VaF) (s : State) : Out :=
  runSlot (.vclmulHi o) none false
    (fun s => vOut o.d 0 o.m (fun i => .exact (clmul (el s o.a 32 i) (el s o.b 32 i) 32 / 2 ^ 32)) s) s
def execVpopc (o : VaOneF) (s : State) : Out :=
  runSlot (.vpopc o) none false (fun s => vOut o.d 3 o.m (fun i => .exact (popN 32 (el s o.a 32 i))) s) s

/-! Floating-point arithmetic (R143, R144). -/

/-- Element e of a source register, as a value of a floating-point format. -/
def fel (s : State) (t : Tag) (v : BitVec 6) (e : Nat) : FV := (fmtOf t.toNat).val (el s v (tagWidth t.toNat) e)

/-- A two-source floating-point instruction that rounds once, with the invalid condition of its row (R143). -/
def vFp (i : Instr) (o : VaF) (f : FV → FV → FV × Bool) (s : State) : Out :=
  runSlot i (tagsAre s o.fmt [o.a, o.b]) false
    (fun s => vOut o.d o.fmt o.m (fun e =>
      let y := f (fel s o.fmt o.a e) (fel s o.fmt o.b e)
      { (fmtOf o.fmt.toNat).rnd (vRnd s o.rnd e) y.1 with inv := y.2 }) s) s
def execVfadd (o : VaF) (s : State) : Out := vFp (.vfadd o) o FV.add s
def execVfsub (o : VaF) (s : State) : Out := vFp (.vfsub o) o (fun a b => FV.add a b.neg) s
def execVfmul (o : VaF) (s : State) : Out := vFp (.vfmul o) o FV.mul s
/-- The exact a × b + d: an invalid product counts whatever d is (R143). -/
def fmaVal (a b d : FV) : FV × Bool :=
  let p := FV.mul a b
  let t := FV.add p.1 d
  (t.1, p.2 || t.2)
def execVfma (o : VaAccF) (s : State) : Out :=
  runSlot (.vfma o) (tagsAre s o.fmt [o.a, o.b, o.d]) false
    (fun s => vOut o.d o.fmt o.m (fun e =>
      let y := fmaVal (fel s o.fmt o.a e) (fel s o.fmt o.b e) (fel s o.fmt o.d e)
      { (fmtOf o.fmt.toNat).rnd (vRnd s o.rnd e) y.1 with inv := y.2 }) s) s

/-- A two-source floating-point instruction whose result is one of its operands (R144). -/
def vPick (i : Instr) (o : VaF) (f : FV → FV → FV) (s : State) : Out :=
  runSlot i (tagsAre s o.fmt [o.a, o.b]) false
    (fun s => vOut o.d o.fmt o.m (fun e => .exact ((fmtOf o.fmt.toNat).rnd .rne (f (fel s o.fmt o.a e) (fel s o.fmt o.b e))).code) s) s
def execVfmin (o : VaF) (s : State) : Out := vPick (.vfmin o) o FV.min s
def execVfmax (o : VaF) (s : State) : Out := vPick (.vfmax o) o FV.max s
/-- A one-source instruction on signs (R144). -/
def vSign (i : Instr) (o : VaOneF) (f : FV → FV) (s : State) : Out :=
  runSlot i (tagsAre s o.fmt [o.a]) false
    (fun s => vOut o.d o.fmt o.m (fun e => .exact ((fmtOf o.fmt.toNat).rnd .rne (f (fel s o.fmt o.a e))).code) s) s
def execVfabs (o : VaOneF) (s : State) : Out := vSign (.vfabs o) o FV.abs s
def execVfneg (o : VaOneF) (s : State) : Out := vSign (.vfneg o) o FV.neg s

/-! Comparisons and masks (R145, R146). -/

/-- The conditions of VFCMP (R48, R145). -/
def condF (cc : BitVec 4) (a b : FV) : Bool :=
  if a.isNan || b.isNan then cc.toNat == 1 || cc.toNat == 6
  else match cc.toNat with
    | 0 => FV.eqNum a b
    | 1 => !FV.eqNum a b
    | 2 => FV.ltNum a b
    | 3 => !FV.ltNum a b
    | 4 => !FV.ltNum b a
    | 5 => FV.ltNum b a
    | 6 => false
    | _ => true
/-- The conditions of VMCMP on w-bit elements (R48, R145). -/
def condV (cc : BitVec 4) (w a b : Nat) : Bool :=
  match cc.toNat with
  | 0 => a == b
  | 1 => a != b
  | 2 => decide (sInt w a < sInt w b)
  | 3 => decide (sInt w b ≤ sInt w a)
  | 4 => decide (sInt w a ≤ sInt w b)
  | 5 => decide (sInt w b < sInt w a)
  | 6 => decide (a < b)
  | 7 => decide (b ≤ a)
  | 8 => decide (a ≤ b)
  | _ => decide (b < a)

/-- The elements that occupy a lane (R118). -/
def elemsOfLane (w i : Nat) : List Nat := if w ≤ 32 then span (32 / w * i) (32 / w) else [i / 2]
/-- The mask of a comparison: a lane's bit is set when the lane is enabled and every element on it meets the condition. -/
def laneMask (m : W64) (w : Nat) (f : Nat → Bool) : W64 :=
  w64 (sumNat ((upto 64).map (fun i => if m.getLsbD i && (elemsOfLane w i).all f then 2 ^ i else 0)))
def execVfcmp (o : VcF) (s : State) : Out :=
  runSlot (.vfcmp o) (tagsAre s o.fmt [o.a, o.b]) false
    (fun s => wrM o.d (laneMask (srcM s o.m) (tagWidth o.fmt.toNat)
      (fun e => condF o.cc (fel s o.fmt o.a e) (fel s o.fmt o.b e))) s) s
def execVmcmp (o : VcF) (s : State) : Out :=
  let w := tagWidth o.fmt.toNat
  runSlot (.vmcmp o) (tagsAre s o.fmt [o.a, o.b]) false
    (fun s => wrM o.d (laneMask (srcM s o.m) w (fun e => condV o.cc w (el s o.a w e) (el s o.b w e))) s) s

def execMand (o : VmF) (s : State) : Out := runSlot (.mand o) none false (fun s => wrM o.d (srcM s o.a &&& srcM s o.b) s) s
def execMor (o : VmF) (s : State) : Out := runSlot (.mor o) none false (fun s => wrM o.d (srcM s o.a ||| srcM s o.b) s) s
def execMnot (o : VmOneF) (s : State) : Out := runSlot (.mnot o) none false (fun s => wrM o.d (~~~(srcM s o.a)) s) s

/-! Special functions (R147, R148). -/

/-- Tag and flags at commit; the result lands 16 cycles later (R147). -/
def vSpecial (i : Instr) (o : VaOneF) (f : FV → FV × Bool) (s : State) : Out :=
  runSlot i (tagsAre s o.fmt [o.a]) false
    (fun s =>
      let x := merged o.d (tagWidth o.fmt.toNat) (srcM s o.m) (fun e =>
        let y := f (fel s o.fmt o.a e)
        { (fmtOf o.fmt.toNat).rnd .rne y.1 with inv := y.2 }) s
      setFlags x.2 (launchV o.d o.fmt 16 x.1 s)) s
def execVexp2 (o : VaOneF) (s : State) : Out := vSpecial (.vexp2 o) o vexp2 s
def execVlog2 (o : VaOneF) (s : State) : Out := vSpecial (.vlog2 o) o vlog2 s
def execVrcp (o : VaOneF) (s : State) : Out := vSpecial (.vrcp o) o vrcp s
def execVrsq (o : VaOneF) (s : State) : Out := vSpecial (.vrsq o) o vrsq s
def execVsqrt (o : VaOneF) (s : State) : Out := vSpecial (.vsqrt o) o vsqrt s

/-! Conversion, scaling and packing (R149 to R153). -/

/-- Element e of a register in the register's own format. -/
def tel (s : State) (v : BitVec 6) (e : Nat) : Nat := el s v (tagWidth (srcV s v).tag.toNat) e
def nElems (t : Tag) : Nat := 2048 / tagWidth t.toNat

def execVcvt (o : VaOneF) (s : State) : Out :=
  let t := (srcV s o.a).tag
  runSlot (.vcvt o) (if t = 0 || t = 10 then some (trapPlain s cTagMismatch) else none) false
    (fun s => vOut o.d o.fmt o.m (fun e =>
      if e < nElems t then convert t.toNat o.fmt.toNat (vRnd s o.rnd e) (tel s o.a e)
      else .exact (zeroCode o.fmt.toNat)) s) s

/-- The source tags that VUNPACK takes (R150). -/
def unpackOk (fmt t : Tag) : Bool :=
  match fmt.toNat with
  | 2 => t == 1
  | 3 => t == 1 || t == 2
  | 5 => t == 1 || t == 8 || t == 9
  | _ => t == 1 || t == 2 || t == 5 || t == 8 || t == 9
def execVunpack (o : VaOneF) (s : State) : Out :=
  let t := (srcV s o.a).tag
  runSlot (.vunpack o) (if unpackOk o.fmt t then none else some (trapPlain s cTagMismatch)) false
    (fun s => vOut o.d o.fmt o.m (fun e =>
      convert t.toNat o.fmt.toNat .rne (tel s o.a (nElems t - nElems o.fmt + e))) s) s

/-- The source tag of VPACK (R151). -/
def packSrc (fmt : Tag) : Tag := match fmt.toNat with | 1 => 2 | 5 => 6 | 8 => 5 | _ => 8
def execVpack (o : VaF) (s : State) : Out :=
  let t := packSrc o.fmt
  runSlot (.vpack o) (tagsAre s t [o.a, o.b]) false
    (fun s => vOut o.d o.fmt o.m (fun e =>
      convert t.toNat o.fmt.toNat (vRnd s o.rnd e)
        (if e < nElems t then el s o.a (tagWidth t.toNat) e else el s o.b (tagWidth t.toNat) (e - nElems t))) s) s

/-- A value under an E8 scale (R125, R152). -/
def scaleVal (sc : Nat) (v : FV) : FV := if sc = 0xFF then .nan else v.scale ((sc : Int) - 127)
def execVscale (o : VaF) (s : State) : Out :=
  runSlot (.vscale o) (match tagsAre s o.fmt [o.a] with | some t => some t | none => tagsAre s 10 [o.b]) false
    (fun s => vOut o.d o.fmt o.m (fun e =>
      let sc := el s o.b 8 (e / 32)
      { (fmtOf o.fmt.toNat).rnd (vRnd s o.rnd e) (scaleVal sc (fel s o.fmt o.a e)) with inv := sc == 0xFF }) s) s

/-- VTAG copies bits; VTAG.x40 always traps (R153). -/
def execVtag (o : VaOneF) (s : State) : Out :=
  runSlot (.vtag o) (if o.fmt = 7 then some (trapPlain s cTagMismatch) else none) false
    (fun s => vOut o.d o.fmt o.m (fun e => .exact (el s o.a (tagWidth o.fmt.toNat) e)) s) s

/-! Reductions and scans (R154, R155). -/

/-- The enabled elements below n, in ascending order. -/
def enabledBelow (m : W64) (w n : Nat) : List Nat := (upto n).filter (enabled m w)

/-- The integer reduction of some codes (R154). -/
def redInt (op w : Nat) (xs : List Nat) : Nat :=
  match op with
  | 0 => xs.foldl (fun a x => (a + x) % 2 ^ w) 0
  | 1 => xs.foldl (fun a x => if sInt w x < sInt w a then x else a) (2 ^ (w - 1) - 1)
  | 2 => xs.foldl (fun a x => if sInt w a < sInt w x then x else a) (2 ^ (w - 1))
  | 3 => xs.foldl (fun a x => a &&& x) (2 ^ w - 1)
  | 4 => xs.foldl (fun a x => a ||| x) 0
  | _ => xs.foldl (fun a x => a ^^^ x) 0

/-- The floating-point reduction of some values before rounding (R154; DEDUCED, log entry 19): the sum is exact, and INV says that it
holds both infinities. -/
def redFp (op : Nat) (xs : List FV) : FV × Bool :=
  match op with
  | 0 =>
    let both := xs.contains (.inf false) && xs.contains (.inf true)
    (if both || xs.any FV.isNan then .nan else xs.foldl (fun a x => (FV.add a x).1) (.fin false 0 0), both)
  | 1 => (match xs with | [] => .inf false | x :: r => r.foldl FV.min x, false)
  | _ => (match xs with | [] => .inf true | x :: r => r.foldl FV.max x, false)

/-- The reduction of the enabled elements of a register below n, rounded under an element's mode (R154). -/
def redVal (s : State) (o : VredF) (n : Nat) (mode : Rnd) : Rounded :=
  let w := tagWidth o.fmt.toNat
  let es := enabledBelow (srcM s o.m) w n
  if isInt o.fmt.toNat then .exact (redInt o.op.toNat w (es.map (el s o.a w)))
  else
    let y := redFp o.op.toNat (es.map (fel s o.fmt o.a))
    { (fmtOf o.fmt.toNat).rnd (if o.op = 0 then mode else .rne) y.1 with inv := y.2 }

/-- VRED writes every element: element 0 takes the result, the others zero bits (R154). -/
def execVred (o : VredF) (s : State) : Out :=
  runSlot (.vred o) (tagsAre s o.fmt [o.a]) false
    (fun s =>
      let r := redVal s o (nElems o.fmt) (vRnd s o.rnd 0)
      setFlags (flagsOf r) (wrV o.d (BitVec.ofNat 2048 r.code) o.fmt s)) s
def execVscan (o : VredF) (s : State) : Out :=
  runSlot (.vscan o) (tagsAre s o.fmt [o.a]) false
    (fun s => vOut o.d o.fmt o.m (fun e => redVal s o (e + 1) (vRnd s o.rnd e)) s) s

/-! Moving data (R156). -/

def execVsplat (o : VaOneF) (s : State) : Out :=
  runSlot (.vsplat o) none false
    (fun s => vOut o.d o.fmt o.m (fun _ => .exact ((srcS s o.a).toNat % 2 ^ tagWidth o.fmt.toNat)) s) s
def execVmovs (o : VmovsF) (s : State) : Out :=
  runSlot (.vmovs o) none false (fun s => wrS o.d ((laneOf (srcV s o.a).bits o.lane.toNat).setWidth 64) s) s
def execVsel (o : VaF) (s : State) : Out :=
  runSlot (.vsel o) none false
    (fun s => wrV o.d (buildElems 2048 32 64 (fun i => laneOf (if (srcM s o.m).getLsbD i then srcV s o.a else srcV s o.b).bits i))
      (if (srcV s o.a).tag = (srcV s o.b).tag then (srcV s o.a).tag else 0) s) s
/-- VLANE works on lanes and keeps the tag of va (R156). -/
def execVlane (o : VaF) (s : State) : Out :=
  runSlot (.vlane o) none false
    (fun s =>
      let x := merged o.d 32 (srcM s o.m) (fun _ => .exact (el s o.a 32 ((srcS s o.b).toNat % 64))) s
      wrV o.d x.1 (srcV s o.a).tag s) s

/-! Loss-scale checks (R135, R157). -/

def execVchkf (o : VchkfF) (s : State) : Out :=
  runSlot (.vchkf o) (tagsAre s o.fmt [o.a]) false
    (fun s =>
      if (enabledBelow (srcM s o.m) (tagWidth o.fmt.toNat) (nElems o.fmt)).any (fun e =>
        (fel s o.fmt o.a e).isNan || (fel s o.fmt o.a e).isInf)
      then modIss (setFlags fCHK s) (fun i => { i with chkSet := true }) else s) s

/-- The new LSCALE and the new SKIP and LS_FLOOR of LSUPD (R135). -/
def lsStep (chk : Bool) (x : W64) (fl : BitVec 7) : W64 × BitVec 7 :=
  let e := sInt 8 (bits x.toNat 0 8); let lo := sInt 8 (bits x.toNat 8 8); let hi := sInt 8 (bits x.toNat 16 8)
  let n := bits x.toNat 24 8; let clean := bits x.toNat 32 16; let floor := bits x.toNat 48 16
  let mk := fun (e : Int) (clean floor : Nat) =>
    w64 (uInt 8 e + bits x.toNat 8 24 * 2 ^ 8 + clean * 2 ^ 32 + floor * 2 ^ 48)
  if chk then
    if lo < e then (mk (e - 1) 0 floor, fl ||| fSKIP) else (mk e 0 (min (floor + 1) 65535), fl ||| fSKIP ||| fLSF)
  else
    let clean := min (clean + 1) 65535
    (if n ≠ 0 && decide (n ≤ clean) && decide (e < hi) then mk (e + 1) 0 floor else mk e clean floor, fl &&& ~~~fSKIP)

/-- LSUPD (R135): CHK is the one that stood at issue, and a CHK set by VCHKF in the same bundle survives. -/
def execLsupd (s : State) : Out :=
  runSlot .lsupd none false
    (fun s =>
      let s := note (.c 7) (note (.c 6) s)
      let chk := (srcC s 7).getLsbD 4
      let keep := s.iss.chkSet
      modMe s (fun k =>
        let x := lsStep chk k.lscale k.flags
        { k with lscale := x.1, flags := if keep then x.2 else x.2 &&& ~~~fCHK })) s

end Sys2Proof.Machine
end

