-- ==== Sys2Proof/Machine/Matrix.lean ====
section
/-! DEFINITION. The T slot: the weight latch, beats through the fixed tree, draining, clearing, rotating, spilling and
refilling tiles (R163 to R179). -/
namespace Sys2Proof.Machine

/-! Time (R66, R167). -/

/-- CYCLE of a core at an absolute cycle. -/
def cycleAt (s : State) (c : CoreId) (t : Nat) : Nat :=
  match partOf s c with
  | some p => t - (pt s p).launchAt
  | none => t

/-- A row's quarter refreshes at a cycle, or within the 4 cycles before (R167). -/
def refreshing (t row : Nat) : Bool := decide (65020 ≤ t % 65536) && row / 256 == t / 65536 % 4

/-! Weights (R165, R166, R169). -/

/-- The key of a row of a column in a core's slice. -/
def sliceKey (col row : Nat) : Nat := 1024 * col + row
def sliceRow (k : Core) (col row : Nat) : Row := sget 0 k.wslice (sliceKey col row)

/-- The weight gate of the core's partition (R166). -/
def gateOf (s : State) : Bool := match partOf s s.iss.core with | some p => (pt s p).gateOpen | none => true
/-- The row index that a WLD forms, exactly (R169). -/
def wldIndex (s : State) (o : WldF) : Nat := o.imm.toNat + (srcS s o.a).toNat
def wldRow (s : State) (o : WldF) : Nat := if o.fmt = 9 then wldIndex s o / 2 else wldIndex s o
def wldFault (s : State) (o : WldF) : Option TrapInfo :=
  if gateOf s || (if o.fmt = 9 then 2048 else 1024) ≤ wldIndex s o then some (trapPlain s cAccess) else none
/-- The latched row of a column: half a row for PW4 (R169). -/
def latchRow (fmt : Tag) (h : Nat) (x : Row) : Row :=
  if fmt = 9 then (x >>> (1536 * (h % 2))) &&& ((BitVec.allOnes 1536).setWidth 3072) else x

/-- The 32-byte granules of a row that a WLD reads: all of it, or half for PW4 (R169, R329). -/
def wldGranules (s : State) (o : WldF) : List Nat := if o.fmt = 9 then (upto 6).map (fun i => 6 * (wldIndex s o % 2) + i) else upto 12
/-- The key of a granule of a row of a column in a core's slice (R329). -/
def granuleKey (col row i : Nat) : Nat := 12 * sliceKey col row + i

def execWld (o : WldF) (s : State) : Out :=
  runSlot (.wld o) (wldFault s o) (refreshing (cycleAt s s.iss.core s.iss.t) (wldRow s o))
    (fun s =>
      match (upto 64).find? (fun c => (wldGranules s o).any (fun i => (me s).badW.contains (granuleKey c (wldRow s o) i))) with
      | some c => coreUncorrectable s.iss.core 3 (sliceKey c (wldRow s o)) s
      | none => modMe s (fun k => { k with
          wlatch := Vector.ofFn (fun c => latchRow o.fmt (wldIndex s o) (sliceRow k c.val (wldRow s o)))
          wfmt := o.fmt, wat := s.iss.t })) s

/-! Tiles (R163, R178). -/

/-- The 48-bit word of a tile element: its code and its IX bit (R178). -/
def tileWord (z : Tile) (r c : Nat) : Nat := (elem (z.rows.getD r 0) 48 c).toNat
def tileCode (z : Tile) (r c : Nat) : Nat := tileWord z r c % 2 ^ 40
def tileIx (z : Tile) (r c : Nat) : Bool := bitAt (tileWord z r c) 40
def srcZ (s : State) (n : BitVec 2) : Tile := rdZ s.iss.regs n

/-! The beat (R170 to R175). -/

/-- What a beat does to one column: the element's code, whether a step was inexact, and the flags. -/
structure Col where
  code : Nat
  inexact : Bool
  flags : BitVec 7
  deriving DecidableEq, Repr

/-- The mode of a beat: 0 not allowed, 1 floating, 2 integer (R170). -/
def beatMode (row latch : Tag) (int : Bool) : Nat :=
  match row.toNat, latch.toNat with
  | 5, 5 => if int then 0 else 1
  | 1, 1 => if int then 2 else 1
  | 1, 8 => if int then 0 else 1
  | 1, 9 => if int then 0 else 1
  | 8, 1 => if int then 0 else 1
  | 8, 8 => if int then 0 else 1
  | 8, 9 => if int then 0 else 1
  | _, _ => 0
/-- The number of products (R170). -/
def beatK (row : Tag) : Nat := if row = 5 then 192 else 384
/-- The width of a latched weight. -/
def weightAt (fmt : Tag) (x : Row) (k : Nat) : Nat := (elem x (tagWidth fmt.toNat) k).toNat

/-- The scaled operand (R172): the value and whether an E8 scale of 0xFF was applied. -/
def scaledOp (sc : Nat) (a : FV) : FV × Bool := (scaleVal sc a, sc == 0xFF)

/-- A leaf before rounding, and whether it is an invalid operation (R172, R174). -/
def leafVal (op : Nat) (a w : FV) : FV × Bool :=
  match op with
  | 0 => FV.mul a w
  | 1 => let x := FV.add a w.neg; (x.1.abs, x.2)
  | _ => FV.add a w

/-- A value rounded to odd in X40, with the inexact mark and OVF (R172 to R174). (DEDUCED, log entry 18.) -/
def oddVal (v : FV) : FV × Bool × Bool := let r := fX40.rnd .odd v; (fX40.val r.code, r.inexact, r.ovf)

/-- A node of the tree (R173). -/
def nodeVal (op : Nat) (x y : FV) : FV × Bool × Bool :=
  match op with
  | 2 => (FV.max x y, false, false)
  | 3 => (FV.min x y, false, false)
  | _ => oddVal (FV.add x y).1

/-- One pass over the list (R173): pairs are combined, an odd last element is passed up. -/
def treePass (op : Nat) : List FV → List FV × Bool × Bool
  | x :: y :: r =>
    let n := nodeVal op x y
    let t := treePass op r
    (n.1 :: t.1, n.2.1 || t.2.1, n.2.2 || t.2.2)
  | l => (l, false, false)

/-- Passes until at most two values are left (R173). -/
def treeFold (op : Nat) : Nat → List FV → List FV × Bool × Bool
  | 0, l => (l, false, false)
  | fuel + 1, l =>
    if l.length ≤ 2 then (l, false, false)
    else
      let t := treePass op l
      let u := treeFold op fuel t.1
      (u.1, t.2.1 || u.2.1, t.2.2 || u.2.2)

/-- The root (R173): the three are combined at once. -/
def rootVal (op : Nat) (l : List FV) (c : FV) : FV × Bool × Bool :=
  match op with
  | 2 => (l.foldl FV.max c, false, false)
  | 3 => (l.foldl FV.min c, false, false)
  | _ => oddVal (l.foldl (fun a x => (FV.add a x).1) c)

/-- The sign of an infinite result (R174): that of the infinity there is; where CSMAX or CSMIN meets both, the one its
order takes. (DEDUCED, log entry 18.) -/
def infSign (op : Nat) (l : List FV) : Bool := if op = 2 then !l.contains (.inf false) else l.contains (.inf true)

/-- One column of a floating beat (R172 to R174): the scaled operands, the weights and C. -/
def floatCol (op : Nat) (as : List (FV × Bool)) (ws : List FV) (c : FV) : Col :=
  let leaves := (as.zip ws).map (fun p => leafVal op p.1.1 p.2)
  let scBad := as.any Prod.snd
  let vals := leaves.map Prod.fst
  let opp := decide (op < 2) && (c :: vals).contains (.inf false) && (c :: vals).contains (.inf true)
  let inv := scBad || leaves.any Prod.snd || opp
  let nan := c.isNan || vals.any FV.isNan || opp
  let fl : BitVec 7 := if inv then fINV else 0
  if nan then ⟨fX40.nanCode, false, fl⟩
  else if (c :: vals).any FV.isInf then ⟨fX40.infCode + (if infSign op (c :: vals) then fX40.sign else 0), false, fl⟩
  else
    let ls := vals.map oddVal
    let t := treeFold op 16 (ls.map (fun x => x.1))
    let r := rootVal op t.1 c
    let code := (fX40.rnd .rne r.1).code
    let ovf := ls.any (fun x => x.2.2) || t.2.2 || r.2.2
    let ix := ls.any (fun x => x.2.1) || t.2.1 || r.2.1
    if r.1.isInf then ⟨code, false, fl⟩ else ⟨code, ix, fl ||| (if ovf then fOVF else 0)⟩

/-- A leaf of an integer beat (R175). -/
def intLeaf (op : Nat) (a w : Int) : Int := match op with | 0 => a * w | 1 => (a - w).natAbs | _ => a + w
/-- One column of an integer beat (R175): exact, then clamped to 40 bits. -/
def intCol (op : Nat) (as ws : List Int) (c : Int) : Col :=
  let ls := (as.zip ws).map (fun p => intLeaf op p.1 p.2)
  let v := match op with
    | 2 => ls.foldl max c
    | 3 => ls.foldl min c
    | _ => ls.foldl (fun a x => a + x) c
  let r := satInt 40 v
  ⟨uInt 40 r.1, false, if r.2 then fSAT else 0⟩

/-- The bytes of a stream's next element, as the bundle's issue reads them (R102). -/
def streamElem (s : State) (q : BitVec 4) (n : Nat) : Nat :=
  s.iss.l.rdN (elAddr (qOf s q) n) (descOf (qOf s q).desc).len

/-- The operands of a beat, scaled (R172). -/
def beatOps (s : State) (o : BeatF) : List (FV × Bool) :=
  let x := streamElem s o.q 0
  let sc := if o.sc then streamElem s o.sq 0 else 0
  (upto (beatK o.fmt)).map (fun k =>
    scaledOp (if o.sc then bits sc (8 * (k / 32)) 8 else 127) (elemVal o.fmt.toNat (bits x (tagWidth o.fmt.toNat * k) (tagWidth o.fmt.toNat))))

/-- One column of a beat (R172 to R175). -/
def beatCol (s : State) (o : BeatF) (mode : Nat) (ops : List (FV × Bool)) (c : Nat) : Col :=
  let k := me s
  let z := srcZ s o.z
  let cur := z.cur.toNat
  let fresh := o.zero || z.tag == 0
  let lat := k.wlatch.getD c 0
  if mode = 2 then
    let x := streamElem s o.q 0
    intCol o.cell.toNat ((upto 384).map (fun i => sInt 8 (bits x (8 * i) 8))) ((upto 384).map (fun i => sInt 8 (weightAt k.wfmt lat i)))
      (if fresh then 0 else sInt 40 (tileCode z cur c))
  else floatCol o.cell.toNat ops ((upto (beatK o.fmt)).map (fun i => elemVal k.wfmt.toNat (weightAt k.wfmt lat i)))
    (if fresh then .fin false 0 0 else fX40.val (tileCode z cur c))

/-- The tile after a beat (R173, R175): the cursor's row, the tag and the cursor. (DEDUCED, log entry 46.) -/
def beatTile (o : BeatF) (mode : Nat) (z : Tile) (cols : List Col) : Tile :=
  let cur := z.cur.toNat
  let word := fun (c : Nat) =>
    let x := cols.getD c ⟨0, false, 0⟩
    let ix := if mode = 2 then false else (tileIx z cur c && !o.zero) || x.inexact
    BitVec.ofNat 48 (x.code + ix.toNat * 2 ^ 40)
  ⟨z.rows.setIfInBounds cur (buildElems 3072 48 64 word), if z.tag = 0 then (if mode = 2 then 4 else 7) else z.tag, z.cur + 1⟩

/-- The checks of the streams of a beat in the order of R101 (R171): every stream's binding, then every tag, then
lengths and exhaustion. -/
def beatStreams (s : State) (o : BeatF) : Option (BitVec 8) :=
  let qs := (o.q, o.fmt.toNat, 384) :: (if o.sc then [(o.sq, 10, 32)] else [])
  if qs.any (fun x => !(qOf s x.1).bound || (qOf s x.1).wr) then some cStreamFault
  else if qs.any (fun x => (descOf (qOf s x.1).desc).tag ≠ x.2.1) then some cTagMismatch
  else if qs.any (fun x => (streamCause (qOf s x.1) false x.2.1 x.2.2 1).isSome) then some cStreamFault
  else none

/-- The checks of R171, then the span checks of R232. (DEDUCED, log entry 45.) -/
def beatFault (s : State) (o : BeatF) : Option TrapInfo :=
  let mode := beatMode o.fmt (me s).wfmt o.int
  let tag := (srcZ s o.z).tag
  if mode = 0 || !(tag == 0 || (mode == 1 && tag == 7) || (mode == 2 && tag == 4)) || (mode == 2 && o.sc) then
    some (trapPlain s cTagMismatch)
  else match beatStreams s o with
    | some c => some (trapPlain s c)
    | none => match spanFault s o.q with
      | some t => some t
      | none => if o.sc then spanFault s o.sq else none

/-- The latch fills within 4 cycles of the WLD (R169), and the elements wait for L ranges (R103). -/
def beatStall (s : State) (o : BeatF) : Bool :=
  decide (s.iss.t < (me s).wat + 4) || streamStall s o.q false 1 || (o.sc && streamStall s o.sq false 1)

/-- The stream's span has been checked in this phase (R232). -/
def markQ (q : BitVec 4) (s : State) : State := modMe s (fun k => k.setQ q { k.q[q.toFin] with checked := true })

def execBeat (o : BeatF) (s : State) : Out :=
  runSlot (.beat o) (beatFault s o) (beatStall s o)
    (fun s =>
      let mode := beatMode o.fmt (me s).wfmt o.int
      let ops := if mode = 2 then [] else beatOps s o
      let cols := (upto 64).map (beatCol s o mode ops)
      let s := setFlags (cols.foldl (fun a x => a ||| x.flags) 0) (wrZ o.z (beatTile o mode (srcZ s o.z) cols) s)
      let s := markQ o.q (advQ o.q 1 s)
      if o.sc then markQ o.sq (advQ o.sq 1 s) else s) s

/-! Draining, clearing and rotating (R176, R177). -/

/-- One drained element (R176): rounded once by RNE; an IX bit makes a tiny result count as inexact. -/
def drainElem (tag fmt : Tag) (code : Nat) (ix : Bool) : Rounded :=
  let v := if tag = 4 then ofScaled (sInt 40 code) 0 else fX40.val code
  match fmt.toNat with
  | 1 => toInt 8 .rne v
  | 3 => toInt 32 .rne v
  | _ =>
    let f := fmtOf fmt.toNat
    let r := f.rnd .rne v
    let tiny := match v with | .fin _ m _ => decide (m ≠ 0) && decide (r.code % f.sign < 2 ^ f.fb) | _ => false
    { r with unf := r.unf || (ix && tiny && tag == 7) }

/-- All elements of the drained row: those of fmt above 63 are zero (R176). -/
def drainGo (z : Tile) (row : Nat) (fmt : Tag) : Nat → VBits × BitVec 7
  | 0 => (0, 0)
  | c + 1 =>
    let x := drainGo z row fmt c
    let r := drainElem z.tag fmt (tileCode z row c) (tileIx z row c)
    (x.1 ||| ((BitVec.ofNat (tagWidth fmt.toNat) r.code).setWidth 2048 <<< (tagWidth fmt.toNat * c)), x.2 ||| flagsOf r)
def execDrain (o : DrainF) (s : State) : Out :=
  runSlot (.drain o) (if (srcZ s o.z).tag = 0 then some (trapPlain s cTagMismatch) else none) false
    (fun s =>
      let x := drainGo (srcZ s o.z) o.row.toNat o.fmt 64
      setFlags x.2 (launchV o.d o.fmt 10 x.1 s)) s

def execZclr (o : ZF) (s : State) : Out := runSlot (.zclr o) none false (fun s => wrZ o.z Tile.reset s) s
def execZrot (o : ZrotF) (s : State) : Out :=
  runSlot (.zrot o) none false
    (fun s => wrZ o.z { srcZ s o.z with cur := (srcZ s o.z).cur + o.k } s) s

/-! Spill and refill (R178, R179). -/

/-- Element n of the spill format (R178). -/
def spillElem (z : Tile) (n : Nat) : Row :=
  if n < 64 then z.rows.getD n 0 else BitVec.ofNat 3072 (z.tag.toNat + z.cur.toNat * 2 ^ 4)
/-- An element word without its reserved bits (R178, R179). -/
def cleanRow (x : Row) : Row := buildElems 3072 48 64 (fun c => BitVec.ofNat 48 ((elem x 48 c).toNat % 2 ^ 41))
/-- The tile that 65 elements give, and whether the tag is one that no tile can hold (R179). -/
def fillTile (f : Nat → Row) : Tile × Bool :=
  let t := (f 64).toNat % 16
  if t = 4 || t = 7 then
    (⟨Vector.ofFn (fun r => cleanRow (f r.val)), BitVec.ofNat 4 t, BitVec.ofNat 6 ((f 64).toNat / 16)⟩, false)
  else (Tile.reset, t != 0)

def zqFault (s : State) (q : BitVec 4) (wr : Bool) : Option TrapInfo :=
  match streamFault s q wr 0 384 65 with
  | some t => some t
  | none => spanFault s q
/-- Writes the spill format through a stream in order, from element n on. -/
def spillGo (z : Tile) (q : BitVec 4) : Nat → Nat → State → State
  | 0, _, s => s
  | k + 1, n, s => spillGo z q k (n + 1) (wrL (elAddr (qOf s q) n) 384 (spillElem z n).toNat s)
def execZspill (o : ZqF) (s : State) : Out :=
  runSlot (.zspill o) (zqFault s o.q true) (streamStall s o.q true 65)
    (fun s => markQ o.q (advQ o.q 65 (spillGo (srcZ s o.z) o.q 65 0 s))) s
def execZfill (o : ZqF) (s : State) : Out :=
  runSlot (.zfill o) (zqFault s o.q false) (streamStall s o.q false 65)
    (fun s =>
      let x := fillTile (fun n => BitVec.ofNat 3072 (streamElem s o.q n))
      let s := setFlags (if x.2 then fINV else 0) (wrZ o.z x.1 s)
      markQ o.q (advQ o.q 65 s)) s

end Sys2Proof.Machine
end

