-- ==== Sys2Proof/Machine/Pan.lean ====
section
/-! DEFINITION. Pan regions: descriptors, samples, advances, visits and taps, and the G-slot instructions that reach them
(R183 to R195, R234 to R245, R355). -/
namespace Sys2Proof.Machine

/-! Region parameters (R183, R234). -/

/-- A pan region's descriptor by fields. -/
structure PanD where
  base : Nat
  nmem : Nat
  row : Bool
  msize : Nat
  sfmt : Nat
  order2 : Bool
  rnd : Nat
  sfrac : Nat
  rated : Bool
  extrap : Bool
  rinit : Nat
  cls : Nat
  b0 : Int
  b1 : Int
  a1 : Int
  a2 : Int
  key : Nat
  lo : Nat
  hi : Nat
  ctab : Nat
  rel : Bool
  rsvOk : Bool
  deriving DecidableEq, Repr

def panDesc (x : BitVec 512) : PanD :=
  let w := fun n => bits x.toNat (64 * n) 64
  let row := bitAt (w 1) 24
  ⟨bits (w 0) 0 52, bits (w 1) 0 24 + 1, row, if row then (bits (w 1) 25 4 + 1) * 32 else 4, bits (w 1) 29 2, bitAt (w 1) 31,
   bits (w 1) 32 2, bits (w 1) 34 5, bitAt (w 1) 39, bitAt (w 1) 40, bits (w 1) 41 3, bits (w 1) 44 3,
   sInt 32 (bits (w 2) 0 32), sInt 32 (bits (w 2) 32 32), sInt 32 (bits (w 3) 0 32), sInt 32 (bits (w 3) 32 32),
   bits (w 4) 0 40, bits (w 5) 0 32, bits (w 5) 32 32, bits (w 6) 0 52, bitAt (w 7) 0,
   bits (w 0) 52 12 == 0 && bits (w 1) 47 17 == 0 && bits (w 4) 40 24 == 0 && bits (w 6) 52 12 == 0 && bits (w 7) 1 63 == 0 &&
     (row || bits (w 1) 25 4 == 0)⟩

/-- The elements of a member (R183): one for a word, the BF16 elements of a row. -/
def PanD.nEl (d : PanD) : Nat := if d.row then d.msize / 2 else 1
def PanD.size (d : PanD) : Nat := d.nmem * d.msize
/-- A row too long for one register (R239, R355). -/
def PanD.long (d : PanD) : Bool := d.row && decide (256 < d.msize)

/-- The value of a state code (R184). -/
def stVal (sfmt c : Nat) : FV :=
  match sfmt with
  | 0 => ofScaled (sInt 32 c) (-16)
  | 1 => fF32.val c
  | _ => fBF16.val c

/-- The value of a threshold (R183, R234). -/
def thVal (d : PanD) (c : Nat) : FV := if d.sfmt = 0 then ofScaled (sInt 32 c) (-16) else fF32.val c

/-- The limits of R183 and R234. -/
def PanD.fits (d : PanD) (catchup : Bool) : Bool :=
  d.rsvOk && d.base % 65536 == 0 && (if d.row then d.sfmt == 2 else decide (d.sfmt < 2)) && decide (d.rnd < 3) && decide (d.sfrac < 31) &&
  (d.order2 || d.a2 == 0) &&
  (if d.rated then
     !(thVal d d.lo).isNan && !(thVal d d.lo).isInf && !(thVal d d.hi).isNan && !(thVal d d.hi).isInf &&
     !FV.ltNum (thVal d d.lo) (.fin false 0 0) && !FV.ltNum (thVal d d.hi) (thVal d d.lo)
   else !d.extrap && d.rinit == 0 && d.lo == 0 && d.hi == 0) &&
  (if catchup then !d.rated || d.ctab % 32 == 0 else d.ctab == 0)

/-! The catch-up table (R192). -/

/-- An exact sum of products of Q2.29 codes, rounded by RNE to Q2.29. -/
def q229 (x : Int) : Int := (roundInt .rne (decide (x < 0)) x.natAbs (-29)).1
def sqTab (order2 : Bool) : List Int → List Int
  | [a] => [q229 (a * a)]
  | [c11, c12, c21, c22] =>
    if order2 then [q229 (c11 * c11 + c12 * c21), q229 (c11 * c12 + c12 * c22), q229 (c21 * c11 + c22 * c21), q229 (c21 * c12 + c22 * c22)]
    else []
  | l => l
def tabGo (order2 : Bool) : Nat → List Int → List (List Int)
  | 0, _ => []
  | n + 1, x => x :: tabGo order2 n (sqTab order2 x)
def catchTab (d : PanD) : List (List Int) :=
  tabGo d.order2 8 (if d.order2 then [d.a1, d.a2, 2 ^ 29, 0] else [d.a1])
/-- Every entry lies in the Q2.29 range (R192). -/
def tabFits (t : List (List Int)) : Bool := t.all (fun e => e.all (fun x => decide (-(2 ^ 31) ≤ x) && decide (x < 2 ^ 31)))
/-- The host's table at CTAB (R337). -/
def hostTab (l : Mem) (d : PanD) : List (List Int) :=
  (upto 8).map (fun j => (upto (if d.order2 then 4 else 1)).map (fun i => sInt 32 (l.rdN (d.ctab + 16 * j + 4 * i) 4)))

/-! Samples (R185). Flags of a member: SSAT, YSAT, OVF, UNF, INV, LC in bits 0 to 5 (R188, R241). -/

def sampleCode (d : PanD) (c : Nat) : Int × BitVec 6 :=
  match (stVal d.sfmt c).scale d.sfrac with
  | .nan => (0, 16)
  | .inf neg => (if neg then -(2 ^ 31) else 2 ^ 31 - 1, 1)
  | .fin neg m e =>
    let y := satInt 32 (roundInt .rne neg m e).1
    (y.1, if y.2 then 1 else 0)

/-- Adds one sample to an element's slot of an intake (R185, R236). -/
def slotAdd (k : Nat) (c : Int) : List (Nat × Nat × Int) → List (Nat × Nat × Int)
  | [] => [(k, 1, c)]
  | (j, n, x) :: r => if j = k then (j, n + 1, x + c) :: r else (j, n, x) :: slotAdd k c r
/-- The samples not yet taken by an advance (R240). -/
def pendingOf (e : Elem) : Int := e.slots.foldl (fun a x => a + x.2.2) 0
/-- The sum and the count of the samples that advance n takes (R185, R236). -/
def closedOf (n : Nat) (e : Elem) : Int × Nat :=
  ((e.slots.filter (fun x => decide (x.1 ≤ n))).foldl (fun a x => a + x.2.2) 0,
   (e.slots.filter (fun x => decide (x.1 ≤ n))).foldl (fun a x => a + x.2.1) 0)

/-! Rounding of a member (R186). -/

/-- SR's key and index (R186): the step n, member m, element e and the number t of the rounding. -/
def panRnd (d : PanD) (n m e t : Nat) : Rnd :=
  rndOf d.rnd (d.key * 2 ^ 24 + n % 2 ^ 24) ((if d.row then m * 256 + e else m) + 2 ^ 40 * t)

/-- Round to SFMT, with the member's flags (R186). -/
def roundSt (d : PanD) (mode : Rnd) (v : FV) : Nat × BitVec 6 :=
  match d.sfmt, v with
  | 0, .fin neg m e =>
    let y := satInt 32 (roundInt mode neg m (e + 16)).1
    (uInt 32 y.1, if y.2 then 2 else 0)
  | 0, _ => (0, 0)
  | f, v =>
    let r := (if f = 1 then fF32 else fBF16).rnd mode v
    (r.code, (if r.ovf then 4 else 0) ||| (if r.unf then 8 else 0))

/-- The exact sum of coefficient times state over the terms, with INV (R187): terms with a zero coefficient are left out. -/
def termSum (ts : List (Int × FV)) : FV × Bool :=
  let ts := (ts.filter (fun t => t.1 ≠ 0)).map (fun t => (FV.mul (ofScaled t.1 (-29)) t.2).1)
  if ts.any FV.isNan then (.nan, false)
  else if ts.contains (.inf false) && ts.contains (.inf true) then (.nan, true)
  else (ts.foldl (fun a x => (FV.add a x).1) (.fin false 0 0), false)

/-! The advance of one element (R186 to R189, R193, R194). -/

/-- One element after an advance to n with interval exponent j, and Δ for the rate (R186, R193, R194). Where the table's
second row is [1, 0], as at j = 0, the visit moves Y to Y1 as a tick does (R193). (DEDUCED, log entry 25.) -/
def advEl (d : PanD) (tab : List (List Int)) (n m j i : Nat) (e : Elem) : Elem × FV :=
  let sl := satInt 64 (closedOf n e).1
  let x := ofScaled sl.1 (-d.sfrac)
  let x1 := ofScaled e.x1 (-d.sfrac)
  let y := stVal d.sfmt e.y.toNat
  let y1 := stVal d.sfmt e.y1.toNat
  let c := fun (k : Nat) => (tab.getD j []).getD k 0
  let fb := if d.rated then (if d.order2 then [(c 0, y), (c 1, y1)] else [(c 0, y)]) else [(d.a1, y), (d.a2, y1)]
  let t := termSum ([(d.b0, x), (d.b1, x1)] ++ fb)
  let yn := roundSt d (panRnd d n m i 0) t.1
  let t1 := termSum [(c 2, y), (c 3, y1)]
  let shift := !(d.rated && d.order2) || (c 2 == 2 ^ 29 && c 3 == 0)
  let y1n : Nat × BitVec 6 := if shift then (e.y.toNat, 0) else roundSt d (panRnd d n m i 1) t1.1
  let inv := t.2 || (!shift && t1.2)
  let yv := stVal d.sfmt yn.1
  let lc := sl.1 == 0 && e.x1 == 0 && FV.eqNum yv y && FV.eqNum y y1 && !yv.isZero
  let delta := (FV.add yv y.neg).1
  let dc := satInt 40 ((sInt 32 yn.1 - sInt 32 e.y.toNat) * (2 ^ (7 - j) : Nat))
  let fs := fF32.rnd (panRnd d n m i 2) (delta.scale (-(j : Int)))
  let float := d.rated && d.sfmt != 0
  let slope : BitVec 64 := if float then BitVec.ofNat 64 fs.code else if d.rated then BitVec.ofInt 64 dc.1 else 0
  (⟨BitVec.ofNat 32 yn.1, BitVec.ofNat 32 y1n.1, sl.1, e.slots.filter (fun x => decide (n < x.1)),
    e.flags ||| yn.2 ||| y1n.2 ||| (if sl.2 then 1 else 0) ||| (if d.rated && d.sfmt == 0 && dc.2 then 2 else 0) |||
      (if float && fs.ovf then 4 else 0) ||| (if float && fs.unf then 8 else 0) |||
      (if inv then 16 else 0) ||| (if lc then 32 else 0), slope⟩, delta)

/-- The new rate exponent (R194). -/
def newRate (d : PanD) (r : Nat) (ds : List FV) : Nat :=
  if ds.any (fun x => x.isNan || FV.ltNum (thVal d d.hi) x.abs) then r - 1
  else if ds.all (fun x => FV.ltNum x.abs (thVal d d.lo)) then min (r + 1) 7 else r

/-- A member is due on an advance (R244). -/
def dueOn (d : PanD) (n m : Nat) (k : Memb) : Bool := !d.rated || n % 2 ^ k.r == m % 2 ^ k.r

/-- A member after advance n has reached its channel (R186, R193, R244); a member that an uncorrectable granule stopped
keeps its state (R330). -/
def advMemb (d : PanD) (tab : List (List Int)) (n m : Nat) (k : Memb) : Memb :=
  if k.bad || !dueOn d n m k then { k with n := n }
  else
    let j := if d.rated then Nat.log2 (n - k.nlast) else 0
    let es := (List.range k.els.length).map (fun i => advEl d tab n m j i (k.els.getD i ⟨0, 0, 0, [], 0, 0⟩))
    { k with els := es.map Prod.fst, nlast := n, n := n, r := if d.rated then newRate d k.r (es.map Prod.snd) else k.r }

/-! A region in the module. -/

def regionOf (s : State) (id : Nat) : Option Region := s.regions.find? (fun r => r.id == id)
def modRegion (id : Nat) (f : Region → Region) (s : State) : State :=
  { s with regions := s.regions.map (fun r => if r.id = id then f r else r) }

/-- The location of an offset of a region. -/
def locOfOff : List (Nat × Nat) → Nat → Nat
  | [], _ => 0
  | (l, n) :: r, off => if off < n then l + off else locOfOff r (off - n)
/-- The offset of a location in a region. -/
def offOfLoc : List (Nat × Nat) → Nat → Nat → Option Nat
  | [], _, _ => none
  | (l, n) :: r, base, loc => if l ≤ loc && decide (loc < l + n) then some (base + (loc - l)) else offOfLoc r (base + n) loc
/-- The channel of a member: that of its first byte (DESIGN CHOICE, log entry 23). -/
def chanOf (r : Region) (m : Nat) : Nat := Config.channelOf (locOfOff r.locs (m * (panDesc r.desc).msize))
/-- The channels that hold members of a region. -/
def chansOf (r : Region) : List Nat := ((upto r.membs.length).map (chanOf r)).eraseDups
/-- The intake that is open at a channel (R236). -/
def openIntake (r : Region) (ch : Nat) : Nat := if r.passed.contains ch then r.n + 2 else r.n + 1

/-- The bytes of a member: its Y codes (R234). -/
def membBytes (d : PanD) (k : Memb) : List Byte := k.els.flatMap (fun e => bytesOf (if d.row then 2 else 4) e.y.toNat)
/-- Writes the Y codes of a member to its bytes. -/
def membWrites (r : Region) (m : Nat) (k : Memb) : List (Nat × Byte) :=
  let d := panDesc r.desc
  let bs := membBytes d k
  (upto bs.length).map (fun i => (locOfOff r.locs (m * d.msize + i), bs.getD i 0))

/-! Finding a region (R239, R283; DEDUCED, log entry 24). -/

inductive PanFind where
  | none
  | fault (cause : BitVec 8)
  | ask (ipa : Nat) (tbl : Bool) (level : Nat)
  | at_ (r : Region) (off : Nat)
  deriving DecidableEq, Repr

/-- The region that holds a virtual address (R239, R283): one that the core's partition configured there, or, for a tap, the one that the
address translates to. -/
def panFind (s : State) (sample : Bool) (va : Nat) : PanFind :=
  match s.regions.find? (fun r => decide (partOf s s.iss.core = some r.part) && decide (r.base ≤ va) &&
      decide (va < r.base + (panDesc r.desc).size)) with
  | some r => .at_ r (va - r.base)
  | none =>
    if sample || 2 ^ 52 ≤ va then .none
    else match xlMe s va false with
      | .s1 => .fault cXlateS1
      | .denied => .fault cAccess
      | .miss ipa tbl lvl => .ask ipa tbl lvl
      | .ok loc => match regionAt s loc with
        | none => .none
        | some r => match offOfLoc r.locs 0 loc with
          | none => .none
          | some off => .at_ r off

/-- What a pan instruction is, for the checks of R239. -/
structure PanOp where
  sample : Bool
  v : BitVec 6
  vec : Bool
  wv : Bool
  /-- The region makes the instruction trap PAN_CONFIG (R239, R240, R242). -/
  cfg : PanD → Bool
  /-- The tag that the data register must carry, where it must (R239). -/
  tag : PanD → Option Tag

/-- The pair register is an operand (R355). -/
def panPair (d : PanD) (k : PanOp) : Bool := k.vec && d.long && k.v.toNat % 2 == 0
/-- The region of the base, where one is found. -/
def panAt (s : State) (sample : Bool) (base : BitVec 6) : Option (Region × Nat) :=
  match panFind s sample (srcS s base).toNat with | .at_ r off => some (r, off) | _ => none
/-- The pair register of a PSMP as a further source (R355). -/
def panSrc (s : State) (base : BitVec 6) (k : PanOp) : List (RegId × Bool) :=
  match panAt s k.sample base with
  | some (r, _) => if k.sample && panPair (panDesc r.desc) k then [(.v (vNext k.v), k.wv)] else []
  | none => []
/-- Another slot with a shared path tag writes the pair register of a tap (R355). -/
def pairClash (s : State) (d : PanD) (k : PanOp) : Bool :=
  !k.sample && panPair d k && (upto 10).any (fun n => n ≠ 3 && (n == 9 || (slotTag s.iss.bundle n &&& slotTag s.iss.bundle 3) ≠ 0) &&
    (match slotHolds s.iss.bundle n with | .ins i => (dstRegs i).contains (.v (vNext k.v)) | _ => false))

/-- The first member's index, exactly (R239). -/
def panIndex (d : PanD) (off : Nat) {n : Nat} (o : BitVec n) : Int := (off / d.msize : Nat) + o.toInt
/-- The members that an access touches: 64 for a vector access of a word region, else one. -/
def panCount (d : PanD) (k : PanOp) : Nat := if k.vec && !d.row then 64 else 1

/-- The lanes of an access: for words one for each member, for rows one for each 32-byte column. Each has its number,
its virtual address and its length. -/
def panLanes (d : PanD) (k : PanOp) (baseVa off : Nat) (m : Nat) : List (Nat × Nat × Nat) :=
  let va := baseVa + m * d.msize - off
  if d.row then (upto (d.msize / 32)).map (fun i => (i, va + 32 * i, 32)) else (upto (panCount d k)).map (fun i => (i, va + 4 * i, 4))

/-- Translation of the lanes in ascending order (R198, R239). -/
def panXl (s : State) (k : PanOp) : List (Nat × Nat × Nat) → Option TrapInfo
  | [] => none
  | (i, va, _) :: r =>
    let lane := if k.sample && k.vec then some i else none
    match xlMe s va k.sample with
    | .s1 => some (gFault s cXlateS1 va lane)
    | .denied => some (gFault s cAccess va lane)
    | _ => panXl s k r

/-- The data register or its pair carries another tag than the region asks for (R239). -/
def panTagBad (s : State) (d : PanD) (k : PanOp) : Bool :=
  match k.tag d with
  | none => false
  | some t => (srcV s k.v).tag != t || (panPair d k && (srcV s (vNext k.v)).tag != t)

/-- The faults of a pan instruction in the order of R239. -/
def panFault {n : Nat} (s : State) (k : PanOp) (base : BitVec 6) (o : BitVec n) : Option TrapInfo :=
  let va := (srcS s base).toNat
  let at0 := fun c => some (gFault s c va none)
  match panFind s k.sample va with
  | .none => at0 cAccess
  | .fault c => at0 c
  | .ask _ _ _ => none
  | .at_ r off =>
    let d := panDesc r.desc
    let m := panIndex d off o
    if k.cfg d || (k.vec && d.long && k.v.toNat % 2 == 1) then at0 cPanConfig
    else if pairClash s d k then some (trapPlain s cIllegalSchedule)
    else if panTagBad s d k then some (trapPlain s cTagMismatch)
    else if off % d.msize ≠ 0 then at0 cAlign
    else if m < 0 || (d.nmem : Int) < m + panCount d k then
      some (gFault s cAccess va (if k.sample && k.vec && !d.row then some (if m < 0 then 0 else d.nmem - m.toNat) else none))
    else
      let ls := panLanes d k va off m.toNat
      let w : Want := ⟨k.sample, !k.sample, k.sample, false, false⟩
      match ls.find? (fun l => watched s w l.2.1 l.2.2) with
      | some l => some (gFault s cWatch l.2.1 (if k.sample && k.vec then some l.1 else none))
      | none => panXl s k ls

/-- A tap stalls while the pair register is in flight (R355). -/
def panStall (s : State) (k : PanOp) (base : BitVec 6) : Bool :=
  match panFind s k.sample (srcS s base).toNat with
  | .at_ r _ => !k.sample && panPair (panDesc r.desc) k && pendingDst (me s) (.v (vNext k.v))
  | _ => false

/-- Opens the lanes of an access with their own lengths. -/
def openPan (lv wr : Bool) : List (Nat × Nat × Nat) → State → State × List Lane
  | [], s => (s, [])
  | (i, va, n) :: r, s =>
    let x := openLane false wr i n va none s
    let y := openPan lv wr r x.1
    (y.1, { x.2 with lv := lv } :: y.2)

/-! PSMP (R239). -/

/-- Posts the samples of one PSMP (R238). -/
def panPost {n : Nat} (k : PanOp) (base : BitVec 6) (o : BitVec n) (x : PanD → BitVec 4096) (s : State) : State :=
  match panAt s k.sample base with
  | none => s
  | some (r, off) =>
    let d := panDesc r.desc
    let m := (panIndex d off o).toNat
    let y := openPan k.vec true (panLanes d k (srcS s base).toNat off m) s
    let q := mySeq y.1
    bumpSeq (modMe y.1 (fun c => { c with posts := c.posts ++ [⟨q, .psmp k.vec r.id m (x d), y.2⟩] }))

def psmpS (o : PsmpF) : PanOp := ⟨true, o.v, false, o.wv, fun d => d.row, fun _ => none⟩
def psmpV (o : PsmpF) : PanOp :=
  ⟨true, o.v, true, o.wv, fun _ => false, fun d => some (if d.row then 5 else if d.sfmt = 0 then 3 else 6)⟩
def execPsmpScalar (o : PsmpF) (s : State) : Out :=
  runWith (.psmpScalar o) [] (panFault s (psmpS o) o.base o.off) (panStall s (psmpS o) o.base)
    (panPost (psmpS o) o.base o.off (fun _ => (srcS s o.v).setWidth 4096)) s
def execPsmpVector (o : PsmpF) (s : State) : Out :=
  runWith (.psmpVector o) (panSrc s o.base (psmpV o)) (panFault s (psmpV o) o.base o.off) (panStall s (psmpV o) o.base)
    (panPost (psmpV o) o.base o.off (fun d => if panPair d (psmpV o) then pairBits s o.v else (srcV s o.v).bits.setWidth 4096)) s

/-! Taps (R240 to R243, R245). -/

/-- Puts a tap read in flight: kind 0 PTAP, 1 PTAPS, 2 RTAP (R243). Where the base's page waits, and with it the region, the slot commits
(R198, R283): region 0 says that the members are still to be found, and the index keeps the offset. -/
def panTap {n : Nat} (k : PanOp) (base : BitVec 6) (o : BitVec n) (kind : Nat) (tap : BitVec 2) (dst : PanD → List RegId)
    (tag : PanD → Tag) (s : State) : State :=
  match panFind s k.sample (srcS s base).toNat with
  | .at_ r off =>
    let d := panDesc r.desc
    let m := (panIndex d off o).toNat
    let s := emptyAll (tag d) (dst d) s
    let y := openPan false false (panLanes d k (srcS s base).toNat off m) s
    launchPend (.tap kind tap k.vec r.id m) (dst d) (y.1.iss.t + 1) 0 0 y.2 y.1
  | .ask _ _ _ =>
    let d := panDesc 0
    let s := emptyAll (tag d) (dst d) s
    let y := openPan false false [(0, (srcS s base).toNat, 4)] s
    launchPend (.tap kind tap k.vec 0 (uInt 64 o.toInt)) (dst d) (y.1.iss.t + 1) 0 0 y.2 y.1
  | _ => s

/-- The region makes a tap trap PAN_CONFIG (R240, R242, R245). -/
def tapCfg (kind : Nat) (tap : BitVec 2) (vec : Bool) (d : PanD) : Bool :=
  match kind, vec with
  | 0, true => tap == 3
  | 0, false => d.row && decide (tap.toNat < 2)
  | 2, true => false
  | _, _ => d.row
def ptapS (o : PtapF) : PanOp := ⟨false, o.d, false, true, tapCfg 0 o.tap false, fun _ => none⟩
def ptapV (o : PtapF) : PanOp := ⟨false, o.d, true, true, tapCfg 0 o.tap true, fun _ => none⟩
/-- The tag of a vector tap (R240). -/
def tapTag (d : PanD) (tap : BitVec 2) : Tag := if d.row then 5 else if tap = 2 || d.sfmt = 0 then 3 else 6
def tapDst (d : PanD) (k : PanOp) : List RegId := if panPair d k then [.v k.v, .v (vNext k.v)] else [.v k.v]
def execPtapScalar (o : PtapF) (s : State) : Out :=
  runWith (.ptapScalar o) [] (panFault s (ptapS o) o.base o.off) (panStall s (ptapS o) o.base)
    (panTap (ptapS o) o.base o.off 0 o.tap (fun _ => [.s o.d]) (fun _ => 0)) s
def execPtapVector (o : PtapF) (s : State) : Out :=
  runWith (.ptapVector o) [] (panFault s (ptapV o) o.base o.off) (panStall s (ptapV o) o.base)
    (panTap (ptapV o) o.base o.off 0 o.tap (fun d => tapDst d (ptapV o)) (fun d => tapTag d o.tap)) s

def ptapsOp (o : PtapsF) : PanOp := ⟨false, o.d, false, true, tapCfg 1 0 false, fun _ => none⟩
def execPtaps (o : PtapsF) (s : State) : Out :=
  runWith (.ptaps o) [] (panFault s (ptapsOp o) o.base o.off) (panStall s (ptapsOp o) o.base)
    (panTap (ptapsOp o) o.base o.off 1 0 (fun _ => [.v o.d]) (fun _ => 0)) s

def rtapS (o : RtapF) : PanOp := ⟨false, o.d, false, true, tapCfg 2 0 false, fun _ => none⟩
def rtapV (o : RtapF) : PanOp := ⟨false, o.d, true, true, tapCfg 2 0 true, fun _ => none⟩
def execRtapScalar (o : RtapF) (s : State) : Out :=
  runWith (.rtapScalar o) [] (panFault s (rtapS o) o.base o.off) (panStall s (rtapS o) o.base)
    (panTap (rtapS o) o.base o.off 2 0 (fun _ => [.s o.d, .s o.age]) (fun _ => 0)) s
def execRtapVector (o : RtapF) (s : State) : Out :=
  runWith (.rtapVector o) [] (panFault s (rtapV o) o.base o.off) (panStall s (rtapV o) o.base)
    (panTap (rtapV o) o.base o.off 2 0 (fun d => tapDst d (rtapV o) ++ [.s o.age]) (fun d => tapTag d 0)) s

/-! What a tap read returns (R240 to R242, R195). -/

def elOf (k : Memb) (i : Nat) : Elem := k.els.getD i ⟨0, 0, 0, [], 0, 0⟩
def membOf (r : Region) (m : Nat) : Memb := r.membs.getD m ⟨[], 0, 0, 0, false⟩
/-- The metadata word (R241). -/
def metaWord (k : Memb) : Nat :=
  (k.els.foldl (fun (a : BitVec 6) e => a ||| e.flags) 0).toNat + k.r * 2 ^ 16 + k.nlast % 2 ^ 24 * 2 ^ 24

/-- PTAP of one member into a scalar (R240); the pending value of a row is the sum over its elements (DEDUCED, log entry 36). -/
def tapScalar (k : Memb) (tap : BitVec 2) : Nat :=
  match tap.toNat with
  | 0 => (elOf k 0).y.toNat
  | 1 => (elOf k 0).y1.toNat
  | 2 => uInt 64 (satInt 64 (k.els.foldl (fun a e => a + pendingOf e) 0)).1
  | _ => metaWord k
/-- One 32-bit lane or 16-bit element of a vector PTAP (R240). -/
def tapElem (d : PanD) (e : Elem) (tap : BitVec 2) : Nat :=
  match tap.toNat with
  | 0 => e.y.toNat
  | 1 => e.y1.toNat
  | _ => if d.row then (fBF16.rnd .rne (ofScaled (pendingOf e) (-d.sfrac))).code else uInt 32 (satInt 32 (pendingOf e)).1
/-- Packs codes of a width into one value (R118). -/
def packN (w : Nat) : List Nat → Nat
  | [] => 0
  | x :: r => x % 2 ^ w + 2 ^ w * packN w r
/-- PTAPS (R242). -/
def tapWhole (k : Memb) : Nat :=
  let e := elOf k 0
  e.y.toNat + e.y1.toNat * 2 ^ 32 + uInt 64 (satInt 64 (pendingOf e)).1 * 2 ^ 64 + metaWord k * 2 ^ 128 + e.slope.toNat * 2 ^ 192 +
    k.n % 2 ^ 64 * 2 ^ 256 + uInt 64 e.x1 * 2 ^ 320

/-- The age of a member's state (R195, R245). -/
def ageOf (d : PanD) (k : Memb) : Nat := if d.rated then k.n - k.nlast else 0
/-- The value that RTAP returns for one element (R195). -/
def rtapElem (d : PanD) (m i : Nat) (k : Memb) : Nat :=
  let e := elOf k i
  let a := ageOf d k
  if !d.extrap || a = 0 then e.y.toNat
  else
    let sl := if d.sfmt = 0 then ofScaled e.slope.toInt (-23) else fF32.val e.slope.toNat
    (roundSt d (panRnd d k.n m i 3) (FV.add (stVal d.sfmt e.y.toNat) (FV.mul sl (ofScaled a 0)).1).1).1

/-- The value and the age of a tap read of some members (R240 to R245). -/
def tapOf (r : Region) (kind : Nat) (tap : BitVec 2) (vec : Bool) (ms : List Nat) : Nat × Nat :=
  let d := panDesc r.desc
  let m := ms.headD 0
  let k := membOf r m
  let rowW := fun (f : Nat → Nat) => packN 16 ((upto d.nEl).map f)
  match kind with
  | 0 =>
    (if !vec then tapScalar k tap
     else if d.row then rowW (fun i => tapElem d (elOf k i) tap)
     else packN 32 (ms.map (fun x => tapElem d (elOf (membOf r x) 0) tap)), 0)
  | 1 => (tapWhole k, 0)
  | _ =>
    (if d.row then rowW (fun i => rtapElem d m i k)
     else packN 32 (ms.map (fun x => rtapElem d x 0 (membOf r x))),
     ms.foldl (fun a x => max a (ageOf d (membOf r x))) 0)
/-- The members that a tap reads from a first one on: 64 for a vector tap of a word region (R240). -/
def tapMembs (d : PanD) (vec : Bool) (m : Nat) : List Nat := if vec && !d.row then span m 64 else [m]

/-- The value, the age and the members of a tap read from a first member on (R240 to R245). -/
def tapRead (r : Region) (kind : Nat) (tap : BitVec 2) (vec : Bool) (m : Nat) : Nat × Nat × List Nat :=
  let ms := tapMembs (panDesc r.desc) vec m
  let x := tapOf r kind tap vec ms
  (x.1, x.2, ms)

/-- Counts the stale reads of an RTAP (R247). -/
def countStale (c : CoreId) (r : Region) (ms : List Nat) (s : State) : State :=
  let d := panDesc r.desc
  match vfOf s c with
  | none => s
  | some v =>
    let bound := (vf s v).stale.toNat
    let n := ms.countP (fun x => d.rated && decide (bound < ageOf d (membOf r x)))
    let x : BitVec 48 := BitVec.ofNat 48 (min (2 ^ 48 - 1) (((vf s v).srcnt.getD d.cls 0).toNat + n))
    modVf s v (fun k => { k with srcnt := k.srcnt.setIfInBounds d.cls x })

end Sys2Proof.Machine
end

