-- ==== Sys2Proof/Machine/Engine.lean ====
section
/-! DEFINITION. The E slot: command blocks and their checks, tickets, the transpose queue, footprints, spawning, groups and
barriers (R90 to R93, R180, R229 to R233, R235, R237, R253 to R257, R260 to R269, R276). -/
namespace Sys2Proof.Machine

/-! Command blocks (R260 to R262, R267, R269, R276). A block is its 32 or 64 bytes as one number; word n is 64 bits. -/

def bw (b : BitVec 512) (n : Nat) : Nat := bits b.toNat (64 * n) 64

/-- The E opcodes of the commands (R51). -/
def opCpy : Nat := 0x01
def opCpyw : Nat := 0x02
def opRkgath : Nat := 0x05
def opRkseg : Nat := 0x06
def opRill : Nat := 0x07
def opAr : Nat := 0x08
def opRs : Nat := 0x09
def opAg : Nat := 0x0A
def opBc : Nat := 0x0B
def opSend : Nat := 0x0C
def opRecv : Nat := 0x0D
def opPancfg : Nat := 0x0E
def opTick : Nat := 0x0F
def opSpawn : Nat := 0x13
/-- The collectives take a block of 64 bytes, the others 32 (R253, R269). -/
def isCfl (op : Nat) : Bool := op == opAr || op == opRs || op == opAg || op == opBc
def blockLen (op : Nat) : Nat := if isCfl op then 64 else 32

/-! CPY (R260). -/
def cpySrc (b : BitVec 512) : Nat := bits (bw b 0) 0 52
def cpyDst (b : BitVec 512) : Nat := bits (bw b 1) 0 52
def cpyLen (b : BitVec 512) : Nat := (bits (bw b 2) 0 18 + 1) * 32
def cpyDir (b : BitVec 512) : Nat := bits (bw b 2) 18 2
def cpyRows (b : BitVec 512) : Nat := bits (bw b 3) 0 16 + 1
def cpyStr (b : BitVec 512) : Int := sInt 40 (bits (bw b 3) 16 40)
/-! CPYW (R261). -/
def cpywRank (b : BitVec 512) : Nat := bits (bw b 1) 0 6
def cpywCol0 (b : BitVec 512) : Nat := bits (bw b 1) 6 6
def cpywCols (b : BitVec 512) : Nat := bits (bw b 1) 12 6 + 1
def cpywRow0 (b : BitVec 512) : Nat := bits (bw b 1) 18 10
def cpywRows (b : BitVec 512) : Nat := bits (bw b 1) 28 10 + 1
/-! The Rake (R262). -/
def rkTable (b : BitVec 512) : Nat := bits (bw b 0) 0 52
def rkLen (b : BitVec 512) : Nat := (bits (bw b 1) 0 4 + 1) * 32
def rkF32 (b : BitVec 512) : Bool := bitAt (bw b 1) 4
def rkRows (b : BitVec 512) : Nat := bits (bw b 1) 8 24 + 1
def rkIdx (b : BitVec 512) : Nat := bits (bw b 1) 32 16 + 1
def rkBags (b : BitVec 512) : Nat := bits (bw b 1) 48 16 + 1
def rkIdxAt (b : BitVec 512) : Nat := bits (bw b 2) 0 23
def rkOffAt (b : BitVec 512) : Nat := bits (bw b 2) 23 23
def rkDst (b : BitVec 512) : Nat := bits (bw b 3) 0 23
/-- The bytes of one output row (R263, R264). -/
def rkOut (op : Nat) (b : BitVec 512) : Nat := if op = opRkseg && rkF32 b then 2 * rkLen b else rkLen b
/-! RILL (R267). -/
def rillN (b : BitVec 512) : Nat := bits (bw b 0) 0 16 + 1
def rillList (b : BitVec 512) : Nat := bits (bw b 1) 0 23
def rillData (b : BitVec 512) : Nat := bits (bw b 2) 0 23
/-! Collectives (R269). -/
def cflSrc (b : BitVec 512) : Nat := bits (bw b 0) 0 52
def cflDst (b : BitVec 512) : Nat := bits (bw b 1) 0 52
def cflRing (b : BitVec 512) : Nat := bits (bw b 2) 0 52
def cflCount (b : BitVec 512) : Nat := bits (bw b 3) 0 32 + 1
def cflFmt (b : BitVec 512) : Nat := bits (bw b 3) 32 4
def cflRnd (b : BitVec 512) : Nat := bits (bw b 3) 36 2
def cflOp (b : BitVec 512) : Nat := bits (bw b 3) 38 2
def cflChk (b : BitVec 512) : Nat := bits (bw b 3) 40 4
def cflSscl (b : BitVec 512) : Nat := bits (bw b 4) 0 52
def cflDscl (b : BitVec 512) : Nat := bits (bw b 5) 0 52
def cflBksrc (b : BitVec 512) : Nat := bits (bw b 6) 0 52
def cflStat (b : BitVec 512) : Nat := bits (bw b 7) 0 23
def cflCkey (b : BitVec 512) : Nat := bits (bw b 7) 24 40
/-! SEND and RECV (R276). -/
def msgPeer (b : BitVec 512) : BitVec 16 := BitVec.ofNat 16 (bits (bw b 0) 0 16)
def msgFlow (b : BitVec 512) : BitVec 8 := BitVec.ofNat 8 (bits (bw b 0) 16 8)
def msgN (b : BitVec 512) : Nat := bits (bw b 0) 32 16 + 1
def msgL (b : BitVec 512) : Nat := bits (bw b 1) 0 23
def msgBk (b : BitVec 512) : Nat := bits (bw b 2) 0 52

/-- The L ranges of a command: write or read, base and length (R254). -/
def cmdRanges (op : Nat) (b : BitVec 512) : List (Bool × Nat × Nat) :=
  if op = opCpy then
    (if cpyDir b = 0 then [(true, bits (cpyDst b) 0 23, cpyLen b * cpyRows b)]
     else if cpyDir b = 1 then [(false, bits (cpySrc b) 0 23, cpyLen b * cpyRows b)] else [])
  else if op = opRkgath then [(false, rkIdxAt b, 4 * rkIdx b), (true, rkDst b, rkOut op b * rkIdx b)]
  else if op = opRkseg then
    [(false, rkIdxAt b, 4 * rkIdx b), (false, rkOffAt b, 4 * (rkBags b + 1)), (true, rkDst b, rkOut op b * rkBags b)]
  else if op = opRill then [(false, rillList b, 16 * rillN b), (true, rillData b, 32 * rillN b)]
  else if isCfl op then (if cflStat b = 0 then [] else [(true, cflStat b, 64)])
  else if op = opSend then [(false, msgL b, 384 * msgN b)]
  else if op = opRecv then [(true, msgL b, 384 * msgN b)]
  else []

/-- The footprint class of a command (R229): the Rake's commands are class 1, the copy engine's class 0. -/
def cmdClass (op : Nat) : BitVec 3 := if op = opRkgath || op = opRkseg || op = opRill then 1 else 0

/-- The addresses of a block with the alignment of each, G or L, in the order of its fields (R253). -/
def cmdAligns (op : Nat) (b : BitVec 512) : List (Bool × Nat × Nat) :=
  if op = opCpy then
    [(cpyDir b == 1, cpySrc b, 32), (cpyDir b == 0, cpyDst b, 32), (false, bits (bw b 3) 16 40, 32)]
  else if op = opCpyw then [(false, bits (bw b 0) 0 52, 32)]
  else if op = opRkgath then [(false, rkTable b, 32), (true, rkIdxAt b, 32), (true, rkDst b, 32)]
  else if op = opRkseg then [(false, rkTable b, 32), (true, rkIdxAt b, 32), (true, rkOffAt b, 32), (true, rkDst b, 32)]
  else if op = opSend || op = opRecv then [(true, msgL b, 32)]
  else []

/-- Reserved fields are zero, enumerated fields hold listed values, and counts lie within their limits (R253). -/
def cmdFits (op : Nat) (b : BitVec 512) (cores : Nat) : Bool :=
  if op = opCpy then
    bits (bw b 0) 52 12 == 0 && bits (bw b 1) 52 12 == 0 && bits (bw b 2) 20 44 == 0 && bits (bw b 3) 56 8 == 0 && decide (cpyDir b < 3) &&
    (cpyDir b != 0 || decide (cpyDst b < 2 ^ 23)) && (cpyDir b != 1 || decide (cpySrc b < 2 ^ 23))
  else if op = opCpyw then
    bits (bw b 0) 52 12 == 0 && bits (bw b 1) 38 26 == 0 && bw b 2 == 0 && bw b 3 == 0 && decide (cpywRank b < cores) &&
    decide (cpywCol0 b + cpywCols b ≤ 64) && decide (cpywRow0 b + cpywRows b ≤ 1024)
  else if op = opRkgath then
    bits (bw b 0) 52 12 == 0 && bits (bw b 1) 5 3 == 0 && bits (bw b 2) 46 18 == 0 && bits (bw b 3) 23 41 == 0 && !rkF32 b &&
    bits (bw b 1) 48 16 == 0 && rkOffAt b == 0
  else if op = opRkseg then
    bits (bw b 0) 52 12 == 0 && bits (bw b 1) 5 3 == 0 && bits (bw b 2) 46 18 == 0 && bits (bw b 3) 23 41 == 0
  else if op = opRill then
    bits (bw b 0) 16 48 == 0 && bits (bw b 1) 23 41 == 0 && bits (bw b 2) 23 41 == 0 && bw b 3 == 0
  else if isCfl op then
    (upto 3).all (fun n => bits (bw b n) 52 12 == 0) && bits (bw b 3) 44 20 == 0 && (span 4 3).all (fun n => bits (bw b n) 52 12 == 0) &&
    bits (bw b 7) 23 1 == 0 && (cflFmt b == 3 || cflFmt b == 5 || cflFmt b == 6 || cflFmt b == 1) && decide (cflRnd b < 3) &&
    decide (cflOp b < 3) && ((op != opAg && op != opBc) || cflOp b == 0) &&
    (cflFmt b == 1 || (cflSscl b == 0 && cflDscl b == 0))
  else
    bits (bw b 0) 24 8 == 0 && bits (bw b 0) 48 16 == 0 && bits (bw b 1) 23 41 == 0 && bits (bw b 2) 52 12 == 0 && bw b 3 == 0 &&
    (op != opSend || msgBk b == 0)

/-- The block that the bundle reads at issue, in the order of an L load (R205, R253). -/
def cmdBlock (s : State) (op a : Nat) : BitVec 512 := BitVec.ofNat 512 (s.iss.l.rdN a (blockLen op))

/-- The first misaligned address of a block (R253). -/
def alignFault (s : State) (a : Nat) : List (Bool × Nat × Nat) → Option TrapInfo
  | [] => none
  | (l, x, n) :: r => if x % n = 0 then alignFault s a r else some (if l then lFault s cAlign x else gFault s cAlign x none)
/-- The first L range beyond L, and the first that its class does not cover (R253, R231). -/
def rangeFault (s : State) : List (Bool × Nat × Nat) → Option TrapInfo
  | [] => none
  | (_, lo, n) :: r => if inL lo n then rangeFault s r else some (lFault s cAccess lo)
def coverFault (s : State) (cls : BitVec 3) : List (Bool × Nat × Nat) → Option TrapInfo
  | [] => none
  | (wr, lo, n) :: r => if footCovers (me s).foot cls wr lo (lo + n - 1) then coverFault s cls r else some (lFault s cFootprint lo)

/-- The first of several faults. -/
def firstFault : List (Option TrapInfo) → Option TrapInfo
  | [] => none
  | some t :: _ => some t
  | none :: r => firstFault r

/-- The checks of R253 in their order; a block that an engine has still to write is read once its range has retired (R205). -/
def cmdFault (s : State) (op a : Nat) : Option TrapInfo :=
  let n := blockLen op
  if a % n ≠ 0 then some (lFault s cAlign a)
  else if !inL a n then some (lFault s cAccess a)
  else if rangeHit (me s) false a n then none
  else
    let b := cmdBlock s op a
    firstFault [alignFault s a (cmdAligns op b), rangeFault s (cmdRanges op b),
      if cmdFits op b (coresOf s (myPart s)).length then none else some (lFault s cAccess a),
      if op = opCpyw && !gateOf s then some (lFault s cAccess a) else none,
      coverFault s (cmdClass op) (cmdRanges op b)]

/-- A command stalls on L ranges over its block, on a full scoreboard, and on 64 commands in flight (R205, R253). -/
def cmdStall (s : State) (op a : Nat) : Bool :=
  rangeHit (me s) false a (blockLen op) ||
  decide (64 < (me s).ranges.length + (cmdRanges op (cmdBlock s op a)).length) ||
  decide (64 ≤ s.cmds.countP (fun k => k.core == s.iss.core))

/-- Puts a command in flight (R253): its ranges enter the scoreboard, j takes its ticket, and its reads of G see a refresh
at core scope made now (R224). -/
def newCmd (op : Nat) (j : BitVec 4) (b : BitVec 512) (cfl : Option CflSt) (s : State) : State :=
  let c := s.iss.core
  let id := s.nextId
  let rs := (cmdRanges op b).map (fun r => (⟨id, r.1, r.2.1, r.2.1 + r.2.2 - 1⟩ : Range))
  let k : Cmd := ⟨id, c, myPart s, op, some j, b, false, cmdIncl s c, some (me s).rec_, 0, s.us, [], none, [], [], [], cfl⟩
  let s := { s with cmds := s.cmds ++ [k], nextId := id + 1 }
  modMe s (fun x => { x.setJ j ⟨.pending, id, 0, false, false, 0⟩ with ranges := x.ranges ++ rs })

/-- A command with a block (R253). -/
def cmdOut (i : Instr) (op : Nat) (o : CmdF) (cfl : State → Option CflSt) (s : State) : Out :=
  let a := (srcS s o.a).toNat
  runSlot i (cmdFault s op a) (cmdStall s op a) (fun s => newCmd op o.j (cmdBlock s op a) (cfl s) s) s

def execCpy (o : CmdF) (s : State) : Out := cmdOut (.cpy o) opCpy o (fun _ => none) s
def execCpyw (o : CmdF) (s : State) : Out := cmdOut (.cpyw o) opCpyw o (fun _ => none) s
def execRkgath (o : CmdF) (s : State) : Out := cmdOut (.rkgath o) opRkgath o (fun _ => none) s
def execRkseg (o : CmdF) (s : State) : Out := cmdOut (.rkseg o) opRkseg o (fun _ => none) s
def execRill (o : CmdF) (s : State) : Out := cmdOut (.rill o) opRill o (fun _ => none) s
def execSend (o : CmdF) (s : State) : Out := cmdOut (.send o) opSend o (fun _ => none) s
def execRecv (o : CmdF) (s : State) : Out := cmdOut (.recv o) opRecv o (fun _ => none) s

/-- A collective before its ring is read. -/
def cflStart : CflSt := ⟨[], 0, [], none, [], [], [], [], [], [], [], [], 0, 0, 0, false, none⟩
def cflOut (i : Instr) (op : Nat) (o : CmdF) (s : State) : Out := cmdOut i op o (fun _ => some cflStart) s
def execCflAr (o : CmdF) (s : State) : Out := cflOut (.cflAr o) opAr o s
def execCflRs (o : CmdF) (s : State) : Out := cflOut (.cflRs o) opRs o s
def execCflAg (o : CmdF) (s : State) : Out := cflOut (.cflAg o) opAg o s
def execCflBc (o : CmdF) (s : State) : Out := cflOut (.cflBc o) opBc o s

/-! The transpose queue (R180 to R182). -/

/-- The address faults of a tile (R180); a push needs entries of either set, a pop write entries. -/
def tileFault (s : State) (a : Nat) (wr : Bool) : Option TrapInfo :=
  if a % 64 ≠ 0 then some (lFault s cAlign a)
  else if !inL a 2048 then some (lFault s cAccess a)
  else if footCovers (me s).foot 2 wr a (a + 2047) then none else some (lFault s cFootprint a)
/-- The last push is less than 4 cycles old (R180). -/
def tqSoon (s : State) : Bool := match (me s).tqAt with | none => false | some t => decide (s.iss.t < t + 4)
/-- The range of a tile enters the scoreboard under the number 0, which no command has, until ENGINE_RANGE_RETIRE takes it off
(R180, R205). -/
def tileRange (wr : Bool) (a : Nat) (k : Core) : Core := { k with ranges := k.ranges ++ [⟨0, wr, a, a + 2047⟩] }
/-- A further range does not fit the scoreboard (R205). -/
def rangesFull (k : Core) : Bool := decide (64 < k.ranges.length + 1)
/-- A push into a full queue overflows; it stalls within 4 cycles of the last push (R180), and on a full scoreboard. (DEDUCED, log entry 49.) -/
def execTqpush (o : EaF) (s : State) : Out :=
  let a := (srcS s o.a).toNat
  runSlot (.tqpush o)
    (firstFault [tileFault s a false, if (me s).tq.length < 8 then none else some (trapPlain s cTqOverflow)])
    (tqSoon s || rangesFull (me s) || rangeHit (me s) false a 2048)
    (fun s => modMe s (fun k => tileRange false a { k with tq := k.tq ++ [⟨BitVec.ofNat 16384 (k.l.rdN a 2048), s.iss.t⟩], tqAt := some s.iss.t })) s

/-- Element (i, j) of a tile (R180). -/
def tileEl (x : BitVec 16384) (i j : Nat) : Nat := (elem x 16 (32 * i + j)).toNat
/-- The transposed tile as bytes. -/
def tileT (x : BitVec 16384) : List Byte := (upto 1024).flatMap (fun n => bytesOf 2 (tileEl x (n % 32) (n / 32)))
def tqReady (s : State) : Bool := match (me s).tq with | [] => false | e :: _ => decide (e.at_ + 40 ≤ s.iss.t)
def execTqpop (o : EaF) (s : State) : Out :=
  let a := (srcS s o.a).toNat
  runSlot (.tqpop o)
    (firstFault [tileFault s a true, if tqReady s then none else some (trapPlain s cIllegalSchedule)])
    (rangesFull (me s) || rangeHit (me s) true a 2048)
    (fun s => match (me s).tq with
      | [] => s
      | e :: r => modMe s (fun k => tileRange true a { k with tq := r, l := k.l.wrBytes a (tileT e.tile), badL := healL a 2048 k.badL })) s

/-! Footprints (R230). -/

def footFault (s : State) (o : FootF) : Option TrapInfo :=
  let b := (srcS s o.a).toNat
  let n := (srcS s o.b).toNat
  if n = 0 then none
  else if !inL b n then some (lFault s cAccess b)
  else if (me s).foot.any (fun e => e.eng != o.eng && overlap b (b + n - 1) e.lo e.hi && (o.wr || e.wr)) then some (lFault s cFootprint b)
  else if 32 ≤ (me s).foot.length then some (lFault s cAccess b) else none
def execFoot (o : FootF) (s : State) : Out :=
  runSlot (.foot o) (footFault s o) false (fun s =>
    let b := (srcS s o.a).toNat
    let n := (srcS s o.b).toNat
    if n = 0 then s else modMe s (fun k => { k with foot := k.foot ++ [⟨o.eng, o.wr, b, b + n - 1⟩] })) s

/-! Tickets (R256). -/

def jOf (s : State) (j : BitVec 4) : Ticket := (me s).j[j.toFin]
/-- A FAILED ticket traps with its kept cause and address (R256, R318). -/
def jwaitFault (s : State) (j : BitVec 4) : Option TrapInfo :=
  let t := jOf s j
  if t.st = .failed then some ⟨t.cause, s.iss.slot, if t.av then some (t.asp, t.addr.toNat) else none, 0, none, some j⟩ else none
def execJwait (o : JwaitF) (s : State) : Out := runSlot (.jwait o) (jwaitFault s o.j) ((jOf s o.j).st == .pending) id s
def execJpoll (o : JpollF) (s : State) : Out :=
  runSlot (.jpoll o) none false (fun s => wrP o.p ((jOf s o.j).st != .pending) s) s

/-! SPAWN (R90). -/

/-- An E-slot G address with its alignment; one of 2^52 or more traps ACCESS as a G access does (DEDUCED, log entry 95). -/
def eFault (s : State) (a n : Nat) : Option TrapInfo :=
  if a % n ≠ 0 then some (gFault s cAlign a none) else if 2 ^ 52 ≤ a then some (gFault s cAccess a none) else none
/-- SPAWN waits at issue as PHASE.mod does, publishes at module scope without a refresh, and hands the record over once the buddies have acknowledged what it
published (R90, R228). (DEDUCED, log entry 80.) -/
def execSpawn (o : CmdF) (s : State) : Out :=
  let a := (srcS s o.a).toNat
  runSlot (.spawn o) (eFault s a 64) (phaseStall s || decide (64 ≤ s.cmds.countP (fun k => k.core == s.iss.core)))
    (fun s =>
      let x := publishFwd s s.iss.core 3
      let s := newCmd opSpawn o.j (BitVec.ofNat 512 a) none x.1
      { s with cmds := s.cmds.map (fun k => if k.id + 1 = s.nextId then { k with acks := x.2 } else k) }) s

/-! Groups (R91 to R93). -/

/-- A JOIN of the core that has not reached its record. -/
def joinPending (k : Core) : Bool := k.pend.any (fun p => match p.kind with | .join _ => true | _ => false)
/-- The fault of a group record's translation (R198). -/
def grpXlate (s : State) (a : Nat) : Option TrapInfo :=
  match xlMe s a true with
  | .s1 => some (gFault s cXlateS1 a none)
  | .denied => some (gFault s cAccess a none)
  | _ => none
/-- The fault of a JOIN's record: its address, then its translation (R91). -/
def grpFault (s : State) (a : Nat) : Option TrapInfo :=
  match eFault s a 64 with
  | some t => some t
  | none => grpXlate s a
/-- The page of a group record is missing. -/
def grpMiss (s : State) (a : Nat) : Bool := match xlMe s a true with | .miss _ _ _ => true | _ => false

/-- JOIN is a long-latency producer: sd is empty until the record answers (R91). -/
def execJoin (o : JoinF) (s : State) : Out :=
  let a := (srcS s o.a).toNat
  runSlot (.join o) (grpFault s a) false (fun s =>
    let s := emptyS o.d s
    let x := openLane false true 0 64 a none s
    launchPend (.join a) [.s o.d] (x.1.iss.t + 1) 0 0 [x.2] x.1) s

/-- LEAVE clears the task's bits (R92); of another group it has no effect, whatever its address. -/
def execLeave (o : EaF) (s : State) : Out :=
  let a := (srcS s o.a).toNat
  let mine := decide ((me s).group = some a)
  runSlot (.leave o) (if mine then grpXlate s a else none) (joinPending (me s) || (mine && grpMiss s a))
    (fun s => if (me s).group = some a then leaveGroup s.iss.core s else s) s

/-- BAR (R93): in handler mode it traps ILLEGAL_SCHEDULE (R319), and a task outside the group traps ACCESS, whatever the address. The
footprint table is cleared; the arrival follows once the bundle's own writes have been performed. -/
def barFault (s : State) (a : Nat) : Option TrapInfo :=
  if (me s).h then some (trapPlain s cIllegalSchedule)
  else if joinPending (me s) then none
  else if (me s).group = some a then grpXlate s a else some (gFault s cAccess a none)
def execBar (o : EaF) (s : State) : Out :=
  let a := (srcS s o.a).toNat
  runSlot (.bar o) (barFault s a) (phaseStall s || joinPending (me s) || grpMiss s a)
    (fun s => modIss (modMe s clearFoot) (fun i => { i with
      stop := i.stop.andThen (.arrive a .none) })) s

/-! PANCFG and TICK (R235, R237). -/

/-- The pages of a region: virtual address and length of each. -/
def panPages (base size : Nat) : List (Nat × Nat) :=
  (upto ((size + 65535) / 65536)).map (fun i => (base + 65536 * i, min 65536 (size - 65536 * i)))

inductive PageSt where
  | ok (locs : List (Nat × Nat))
  | bad
  | ask (ipa : Nat) (tbl : Bool) (level : Nat) (va : Nat)
  deriving DecidableEq, Repr

/-- Every byte of a region translates to a writable stack page of the partition (R235); a page without a second-stage mapping is
asked for, unless its reply has failed. -/
def pagesGo (s : State) : List (Nat × Nat) → List (Nat × Nat) → PageSt
  | [], acc => .ok acc.reverse
  | (va, n) :: r, acc =>
    match xlMe s va true with
    | .ok loc => if locIsLocal loc && dpaStack s loc then pagesGo s r ((loc, n) :: acc) else .bad
    | .miss ipa tbl lvl => if (me s).asks.contains (ipa / 65536, true) then .bad else .ask ipa tbl lvl va
    | _ => .bad

/-- The descriptor that the bundle reads at issue (R235). -/
def panBlock (s : State) (a : Nat) : BitVec 512 := BitVec.ofNat 512 (s.iss.l.rdN a 64)
/-- The configured region of the partition with a base. -/
def regionBase (s : State) (base : Nat) : Option Region :=
  s.regions.find? (fun r => r.part == myPart s && r.base == base)
/-- A region of another partition at the location of a base. -/
def foreignBase (s : State) (base : Nat) : Bool :=
  match xlMe s base false with
  | .ok loc => match regionAt s loc with | some r => r.part != myPart s | none => false
  | _ => false
/-- The table of a region (R192, R337): none for an unrated one. -/
def panTable (s : State) (d : PanD) : List (List Int) :=
  if !d.rated then [] else if s.modesel.getLsbD 4 then hostTab s.iss.l d else catchTab d
/-- Two ranges of bytes in the partition's space, or in memory, meet. -/
def panClash (s : State) (d : PanD) (locs : List (Nat × Nat)) : Bool :=
  s.regions.any (fun r =>
    let e := panDesc r.desc
    !(r.part == myPart s && r.base == d.base && e.nmem == d.nmem) &&
    ((r.part == myPart s && overlap d.base (d.base + d.size - 1) r.base (r.base + e.size - 1)) ||
     locs.any (fun x => r.locs.any (fun y => overlap x.1 (x.1 + x.2 - 1) y.1 (y.1 + y.2 - 1)))))

/-- The longest time of one advance over any region of a partition, but one base's, in µs (R300). -/
def tSweep (s : State) (p : PartId) (skip : Option Nat) : Nat :=
  ((s.regions.filter (fun r => r.part == p && !(some r.base == skip))).map (fun r =>
    let d := panDesc r.desc
    Config.sweepTime d.nmem d.msize)).foldl max 0
/-- A configuration would lengthen the partition's time of a sweep while a deadline is pending (R301). -/
def longerSweep (s : State) (d : PanD) : Bool :=
  (pt s (myPart s)).dl.isSome && decide (tSweep s (myPart s) none < max (tSweep s (myPart s) (some d.base)) (Config.sweepTime d.nmem d.msize))

/-- An engine has still to write what PANCFG reads of L: the descriptor, or a host's table (R205, R235, R337). -/
def panRange (s : State) (a : Nat) : Bool :=
  let d := panDesc (panBlock s a)
  rangeHit (me s) false a 64 || (!d.rel && d.rated && s.modesel.getLsbD 4 && rangeHit (me s) false d.ctab 128)
/-- The traps of PANCFG (R235). -/
def pancfgFault (s : State) (a : Nat) : Option TrapInfo :=
  if a % 64 ≠ 0 then some (lFault s cAlign a)
  else if !inL a 64 then some (lFault s cAccess a)
  else if panRange s a then none
  else
    let d := panDesc (panBlock s a)
    let cfg := some (trapPlain s cPanConfig)
    if d.rel then (if (regionBase s d.base).isSome then none else if foreignBase s d.base then some (gFault s cAccess d.base none) else cfg)
    else if !d.fits (s.modesel.getLsbD 4) then cfg
    else if d.rated && s.modesel.getLsbD 4 && !inL d.ctab 128 then some (lFault s cAccess d.ctab)
    else if !tabFits (panTable s d) then cfg
    else if foreignBase s d.base then some (gFault s cAccess d.base none)
    else match pagesGo s (panPages d.base d.size) [] with
      | .bad => cfg
      | .ask _ _ _ _ => none
      | .ok locs =>
        if panClash s d locs || longerSweep s d then cfg
        else if (regionBase s d.base).isNone && 64 ≤ s.regions.countP (fun r => r.part == myPart s) then cfg
        else none

/-- PANCFG waits for L ranges over what it reads, for a page, for the region's TICKs, and for room (R205, R235, R253). (DEDUCED, log entry 47.) -/
def pancfgStall (s : State) (a : Nat) : Bool :=
  let d := panDesc (panBlock s a)
  panRange s a || decide (64 ≤ s.cmds.countP (fun k => k.core == s.iss.core)) ||
  (match regionBase s d.base with | some r => !r.ticks.isEmpty || !r.late.isEmpty | none => false) ||
  (!d.rel && (match pagesGo s (panPages d.base d.size) [] with | .ask _ _ _ _ => true | _ => false))

/-- A fresh member (R235). -/
def newMemb (d : PanD) : Memb := ⟨List.replicate d.nEl ⟨0, 0, 0, [], 0, 0⟩, d.rinit, 0, 0, false⟩
/-- A region holds samples that no advance has taken. -/
def holdsSamples (r : Region) : Bool := r.membs.any (fun k => k.els.any (fun e => !e.slots.isEmpty))
/-- Sets RILLFLAGS.DROP where samples are discarded (R235, R252). -/
def dropFlag (r : Region) (s : State) : State :=
  if holdsSamples r then modVf s (pt s r.part).vf (fun v => { v with rillflags := v.rillflags ||| 16 }) else s
/-- Writes the Y codes of all members to their bytes (R235). -/
def regionWrites (r : Region) : List (Nat × Byte) := (upto r.membs.length).flatMap (fun m => membWrites r m (membOf r m))

/-- A region as PANCFG configures it (R235). -/
def freshRegion (s : State) (x : BitVec 512) (locs : List (Nat × Nat)) (id : Nat) : Region :=
  let d := panDesc x
  ⟨id, myPart s, d.base, locs, x, panTable s d, 0, [], [], [], List.replicate d.nmem (newMemb d), (mirrorAt s (myPart s) d.base).isSome⟩
/-- The region that a base had ends, with its samples discarded (R235). -/
def endOld (base : Nat) (s : State) : State := match regionBase s base with | some r => dropFlag r s | none => s
/-- The region stands in the module, in place of one of its number. -/
def placeRegion (r : Region) (s : State) : State :=
  { s with regions := s.regions.filter (fun x => x.id ≠ r.id) ++ [r], nextId := s.nextId + 1 }
/-- The buddy of a mirrored region learns its configuration (R227; DESIGN CHOICE, log entry 37). -/
def mirrorConfig (r : Region) (s : State) : State :=
  match mirrorAt s r.part r.base with
  | some m =>
    let dpa := m.dpa + (r.base - m.base)
    sendFlit ⟨64, m.buddy, laneHash dpa⟩ (fun n => .mirror ⟨64, m.buddy, laneHash dpa⟩ n
      (.config Config.thisModule r.id r.desc (BitVec.ofNat 46 dpa) r.table)) s
  | none => s
/-- Configures a region (R235), in place of an old one of the same base. -/
def panConfig (a : Nat) (s : State) : State :=
  let x := panBlock s a
  match pagesGo s (panPages (panDesc x).base (panDesc x).size) [] with
  | .ok locs =>
    let id := match regionBase s (panDesc x).base with | some r => r.id | none => s.nextId
    let r := freshRegion s x locs id
    pubPan (mirrorConfig r (placeRegion r (endOld (panDesc x).base s))) (regionWrites r)
  | _ => s
/-- Releases a region (R235): its members' bytes keep their last Y codes. -/
def panRelease (a : Nat) (s : State) : State :=
  match regionBase s (panDesc (panBlock s a)).base with
  | none => s
  | some r => { dropFlag r s with regions := s.regions.filter (fun x => x.id ≠ r.id) }
def execPancfg (o : CmdF) (s : State) : Out :=
  let a := (srcS s o.a).toNat
  runSlot (.pancfg o) (pancfgFault s a) (pancfgStall s a)
    (fun s =>
      let b := panBlock s a
      let s := if (panDesc b).rel then panRelease a s else panConfig a s
      newCmd opPancfg o.j b none (modMe s (fun k => { k with asks := [] }))) s

/-- TICK (R237): a base of no configured region traps PAN_CONFIG, of another partition's ACCESS; a fifth waiting TICK
stalls. -/
def tickFault (s : State) (base : Nat) : Option TrapInfo :=
  if (regionBase s base).isSome then none
  else if foreignBase s base then some (gFault s cAccess base none) else some (gFault s cPanConfig base none)
def tickStall (s : State) (base : Nat) : Bool :=
  decide (64 ≤ s.cmds.countP (fun k => k.core == s.iss.core)) ||
  (match regionBase s base with | some r => decide (4 ≤ r.ticks.length + r.late.length) | none => false)
def execTick (o : CmdF) (s : State) : Out :=
  let a := (srcS s o.a).toNat
  runSlot (.tick o) (tickFault s a) (tickStall s a)
    (fun s =>
      match regionBase s a with
      | none => s
      | some r =>
        let id := s.nextId
        modRegion r.id (fun r => { r with ticks := r.ticks ++ [(s.iss.core, id)] }) (newCmd opTick o.j (BitVec.ofNat 512 a) none s)) s

end Sys2Proof.Machine
end

