-- ==== Sys2Proof/Machine/Context.lean ====
section
/-! DEFINITION. Context: the live-state area and the record at a save, the end of a task at HALT, and the pickup of a READY
task with the restoration of its context (R57, R58, R84, R85, R110, R307, R308, R326 to R328, R356). -/
namespace Sys2Proof.Machine

/-! Bytes of a partition's space that hardware reads and writes for a task. -/

/-- Where n bytes from a virtual address lie, page by page; the first page that does not translate ends it. -/
def vaSpan (s : State) (p : PartId) (wr : Bool) : Nat → Nat → Nat → Except (Nat × Xl) (List (Nat × Nat))
  | 0, _, _ => .ok []
  | fuel + 1, va, n =>
    if n = 0 then .ok []
    else
      let m := min n (65536 - va % 65536)
      match xlate s p va wr with
      | .ok loc => match vaSpan s p wr fuel (va + m) (n - m) with
        | .ok r => .ok ((loc, m) :: r)
        | .error e => .error e
      | x => .error (va, x)
def vaMap (s : State) (p : PartId) (wr : Bool) (va n : Nat) : Except (Nat × Xl) (List (Nat × Nat)) := vaSpan s p wr (n / 65536 + 2) va n
def spanRead (s : State) (l : List (Nat × Nat)) : List Byte := l.flatMap (fun x => s.mem.rdBytes x.1 x.2)
def spanBad (s : State) (l : List (Nat × Nat)) : Bool := l.any (fun x => (badColumn s x.1 x.2).isSome)
def spanWrites : List (Nat × Nat) → List Byte → List (Nat × Byte)
  | [], _ => []
  | (a, n) :: r, bs => (upto (min n bs.length)).map (fun i => (a + i, bs.getD i 0)) ++ spanWrites r (bs.drop n)

/-- The pieces of n bytes from a virtual address, page by page. -/
def piecesGo : Nat → Nat → Nat → List (Nat × Nat)
  | 0, _, _ => []
  | fuel + 1, va, n => if n = 0 then [] else (va, min n (65536 - va % 65536)) :: piecesGo fuel (va + (65536 - va % 65536)) (n - (65536 - va % 65536))
def pieces (va n : Nat) : List (Nat × Nat) := piecesGo (n / 65536 + 2) va n
/-- The first of some pieces whose page is missing. -/
def pieceMiss (s : State) (p : PartId) (wr : Bool) (l : List (Nat × Nat)) : Option (Nat × Nat × Bool × Nat) :=
  l.findSome? (fun x => match xlate s p x.1 wr with | .miss ipa tbl lvl => some (x.1, ipa, tbl, lvl) | _ => none)
/-- The writes of some bytes to the pieces that translate. -/
def pieceWrites (s : State) (p : PartId) : List (Nat × Nat) → List Byte → List (Nat × Byte)
  | [], _ => []
  | (va, n) :: r, bs =>
    (match xlate s p va true with | .ok loc => spanWrites [(loc, n)] bs | _ => []) ++ pieceWrites s p r (bs.drop n)

/-- A read of some pieces finds what is uncorrectable in them (R332). -/
def spanFound (s : State) (p : PartId) (l : List (Nat × Nat)) : State :=
  l.foldl (fun t x => match xlate s p x.1 false with
    | .ok loc => (match badColumn s loc x.2 with | some g => foundG g t | none => t)
    | _ => t) s

/-- Writes bytes of a partition's space for the partition's hardware, which has waited for missing pages before (R289, R326). Bytes
whose page is denied or lies in no guest table are left as they are (DEDUCED, log entry 39). -/
def vaPut (p : PartId) (va : Nat) (bs : List Byte) (s : State) : State := pubOther s (pieceWrites s p (pieces va bs.length) bs)
/-- The hardware asks for a missing page before it writes; true where it waits (R289). -/
def askPieces (c : CoreId) (p : PartId) (l : List (Nat × Nat)) (s : State) : State × Bool :=
  match pieceMiss s p true l with
  | some (va, ipa, tbl, lvl) => ((pageMiss s c p ipa va tbl lvl true).1, true)
  | none => (s, false)

/-! The live-state area (R58). -/

/-- The set bits of a mask below n, ascending. -/
def onBits (n x : Nat) : List Nat := (upto n).filter (fun i => bitAt x i)

/-- The masks and tags of a live-state header. -/
structure LiveHead where
  s : Nat
  v : Nat
  p : Nat
  b : Nat
  m : Nat
  z : Nat
  l : Nat
  q : Nat
  j : Nat
  zt : Nat
  vt : Nat
  deriving DecidableEq, Repr

/-- The header as a number of 64 bytes. -/
def LiveHead.num (h : LiveHead) : Nat :=
  h.s + h.v * 2 ^ 64 + (h.p + h.b * 2 ^ 32 + h.m * 2 ^ 40 + h.z * 2 ^ 48 + h.l * 2 ^ 52) * 2 ^ 128 +
    (h.q + h.j * 2 ^ 16 + h.zt * 2 ^ 32) * 2 ^ 192 + h.vt * 2 ^ 256
def liveHead (x : Nat) : LiveHead :=
  ⟨bits x 0 64, bits x 64 64, bits x 128 32, bits x 160 8, bits x 168 8, bits x 176 4, bits x 180 4, bits x 192 16, bits x 208 16,
   bits x 224 16, bits x 256 256⟩

/-- The header of a save: the list's masks, the active loop levels, and the tags of what is saved (R57, R58). -/
def saveHead (l : SafeList) (k : Core) : LiveHead :=
  ⟨l.s.toNat / 2 * 2, l.v.toNat, l.p.toNat, l.b.toNat / 2 * 2, l.m.toNat / 2 * 2, l.z.toNat, 2 ^ activeLoops k - 1, l.q.toNat, l.j.toNat,
   sumNat ((onBits 4 l.z.toNat).map (fun n => (k.regs.z.getD n Tile.reset).tag.toNat * 2 ^ (4 * n))),
   sumNat ((onBits 64 l.v.toNat).map (fun n => (k.regs.v.getD n VReg.reset).tag.toNat * 2 ^ (4 * n)))⟩

/-- 64 bytes of stream state (R103): 48 bits hold the position (DEDUCED, log entry 103). -/
def saveStream (q : Stream) : List Byte :=
  bytesOf 32 q.desc.toNat ++ bytesOf 32 (q.pos.toNat % 2 ^ 48 + q.wr.toNat * 2 ^ 48 + q.bound.toNat * 2 ^ 49)
def loadStream (x : Nat) : Stream :=
  ⟨bitAt x 305, bitAt x 304, BitVec.ofNat 256 x, BitVec.ofNat 49 (bits x 256 48), false⟩
/-- A saved ticket (R308); a pending one keeps its command's number in the address bits (DESIGN CHOICE, log entry 40). -/
def saveTicket (t : Ticket) : Nat :=
  match t.st with
  | .idle => 0
  | .pending => 1 + t.id * 2 ^ 12
  | .done => 2
  | .failed => 3 + t.cause.toNat * 4 + t.asp.toNat * 2 ^ 10 + t.av.toNat * 2 ^ 11 + t.addr.toNat * 2 ^ 12
def loadTicket (x : Nat) : Ticket :=
  match x % 4 with
  | 0 => Ticket.reset
  | 1 => ⟨.pending, x / 2 ^ 12, 0, false, false, 0⟩
  | 2 => ⟨.done, 0, 0, false, false, 0⟩
  | _ => ⟨.failed, 0, BitVec.ofNat 8 (x / 4), bitAt x 10, bitAt x 11, BitVec.ofNat 52 (x / 2 ^ 12)⟩
/-- A tile in the spill format (R178). -/
def saveTile (z : Tile) : List Byte := (upto 65).flatMap (fun n => bytesOf 384 (spillElem z n).toNat)
/-- A tile of a live-state area, with every bit, tag and cursor (R327, R328). -/
def loadTile (f : Nat → Row) : Tile :=
  ⟨Vector.ofFn (fun r => cleanRow (f r.val)), BitVec.ofNat 4 (f 64).toNat, BitVec.ofNat 6 ((f 64).toNat / 16)⟩

/-- The saved registers in the order of R58. -/
def saveBody (h : LiveHead) (k : Core) : List Byte :=
  (onBits 64 h.s).flatMap (fun n => bytesOf 8 (rdS k.regs (BitVec.ofNat 6 n)).toNat) ++
  (if h.p = 0 then [] else bytesOf 8 (k.regs.p.toNat / 2 * 2 + 1)) ++
  (onBits 8 h.b).flatMap (fun n => bytesOf 8 (k.regs.b.getD n 0).toNat) ++
  (onBits 8 h.m).flatMap (fun n => bytesOf 8 (k.regs.m.getD n 0).toNat) ++
  (onBits 4 h.l).reverse.flatMap (fun n =>
    bytesOf 8 ((k.loops.getD n Loop.reset).count.toNat + (k.loops.getD n Loop.reset).end_.toNat * 2 ^ 32)) ++
  (onBits 16 h.q).flatMap (fun n => saveStream (k.q.getD n Stream.reset)) ++
  (onBits 16 h.j).flatMap (fun n => bytesOf 8 (saveTicket (k.j.getD n Ticket.reset))) ++
  (onBits 64 h.v).flatMap (fun n => bytesOf 256 (k.regs.v.getD n VReg.reset).bits.toNat) ++
  (onBits 4 h.z).flatMap (fun n => saveTile (k.regs.z.getD n Tile.reset))

/-- The number at an offset of some bytes. -/
def fieldAt (bs : List Byte) (o n : Nat) : Nat := ofBytes ((bs.drop o).take n)
/-- Folds over the entries of a kind: the register's number and the entry's offset. -/
def eachEntry (o step : Nat) (l : List Nat) (f : Core → Nat → Nat → Core) (k : Core) : Core :=
  (l.zip (upto l.length)).foldl (fun k x => f k x.1 (o + step * x.2)) k

def LiveHead.oP (h : LiveHead) : Nat := 64 + 8 * (onBits 64 (h.s / 2 * 2)).length
def LiveHead.oB (h : LiveHead) : Nat := h.oP + (if h.p = 0 then 0 else 8)
def LiveHead.oM (h : LiveHead) : Nat := h.oB + 8 * (onBits 8 h.b).length
def LiveHead.oL (h : LiveHead) : Nat := h.oM + 8 * (onBits 8 h.m).length
def LiveHead.oQ (h : LiveHead) : Nat := h.oL + 8 * (onBits 4 h.l).length
def LiveHead.oJ (h : LiveHead) : Nat := h.oQ + 64 * (onBits 16 h.q).length
def LiveHead.oV (h : LiveHead) : Nat := h.oJ + 8 * (onBits 16 h.j).length
def LiveHead.oZ (h : LiveHead) : Nat := h.oV + 256 * (onBits 64 h.v).length
/-- Where the withdrawn commands begin: the size of the area without them. -/
def LiveHead.oC (h : LiveHead) : Nat := h.oZ + 24960 * (onBits 4 h.z).length

/-- Loads the saved registers with their tags (R327). -/
def loadBody (h : LiveHead) (bs : List Byte) (k : Core) : Core :=
  let k := eachEntry 64 8 (onBits 64 (h.s / 2 * 2)) (fun k n o => k.setS (BitVec.ofNat 6 n) ⟨w64 (fieldAt bs o 8), true⟩) k
  let k := (onBits 32 h.p).foldl (fun k n => k.setP (BitVec.ofNat 5 n) (bitAt (fieldAt bs h.oP 8) n)) k
  let k := eachEntry h.oB 8 (onBits 8 h.b) (fun k n o => k.setB (BitVec.ofNat 3 n) (BitVec.ofNat 24 (fieldAt bs o 8))) k
  let k := eachEntry h.oM 8 (onBits 8 h.m) (fun k n o => k.setM (BitVec.ofNat 3 n) (w64 (fieldAt bs o 8))) k
  let k := eachEntry h.oL 8 (onBits 4 h.l).reverse (fun k n o => { k with
    loops := k.loops.setIfInBounds n ⟨BitVec.ofNat 32 (fieldAt bs o 8), true, BitVec.ofNat 24 (fieldAt bs o 8 / 2 ^ 32)⟩ }) k
  let k := eachEntry h.oQ 64 (onBits 16 h.q) (fun k n o => k.setQ (BitVec.ofNat 4 n) (loadStream (fieldAt bs o 64))) k
  let k := eachEntry h.oJ 8 (onBits 16 h.j) (fun k n o => k.setJ (BitVec.ofNat 4 n) (loadTicket (fieldAt bs o 8))) k
  let k := eachEntry h.oV 256 (onBits 64 h.v) (fun k n o =>
    k.setV (BitVec.ofNat 6 n) ⟨BitVec.ofNat 2048 (fieldAt bs o 256), BitVec.ofNat 4 (h.vt / 2 ^ (4 * n)), true⟩) k
  eachEntry h.oZ 24960 (onBits 4 h.z) (fun k n o =>
    k.setZ (BitVec.ofNat 2 n) (loadTile (fun r => BitVec.ofNat 3072 (fieldAt bs (o + 384 * r) 384)))) k

/-! Saving (R57, R307, R326). -/

/-- The live-state list of a safe unit; a unit with no list saves nothing. -/
def safeList (k : Core) (unit : CAddr) : SafeList :=
  (k.safe.find? (fun l => l.at_ == unit)).getD ⟨unit, 0, 0, 0, 0, 0, 0, 0, 0⟩

/-- The queue of the task on a core. -/
def queueOfCore (s : State) (p : PartId) (c : CoreId) : BitVec 6 := ((taskOf s p (cr s c).rec_).map (fun t => t.queue)).getD 0
/-- The save is a checkpoint: the Sluice has chosen CHECKPOINT for the queue (R305). -/
def ckptSave (s : State) (p : PartId) (c : CoreId) : Bool := decide (sluiceChoice s p (queueOfCore s p c) = .checkpoint)

/-- A command that no engine has begun and that a checkpoint withdraws (R307, R308). -/
def withdrawable (s : State) (k : Cmd) : Bool :=
  k.prog == 0 && !k.done && ((k.op == opCpy && cpyDir k.block == 2) || (isCfl k.op && cflStat k.block == 0) ||
    (k.op == opTick && s.regions.any (fun r => r.passed.isEmpty && r.ticks.contains (k.core, k.id)) ) ||
    (k.op == opTick && s.regions.any (fun r => r.ticks.tail.contains (k.core, k.id))))
/-- The commands of a task in flight, and those that a checkpoint withdraws now, in commit order. -/
def taskCmds (s : State) (p : PartId) (rec_ : Nat) : List Cmd := s.cmds.filter (fun k => k.part == p && k.task == some rec_)
def toWithdraw (s : State) (p : PartId) (rec_ : Nat) : List Cmd := (taskCmds s p rec_).filter (withdrawable s)

/-- The room of the checkpoint area that is left, in blocks (R299, R308). -/
def ckptRoom (s : State) (p : PartId) : Nat := match (pt s p).dl with | some d => d.ckptn - d.used | none => 0
/-- Every command of a task that a checkpoint does not withdraw has ended, and the others have room: in the checkpoint area, and in a
live-state area, which holds the 64 commands of a core (R253, R307, R308). -/
def cmdsFit (s : State) (p : PartId) (rec_ : Nat) : Bool :=
  (taskCmds s p rec_).all (withdrawable s) && decide ((toWithdraw s p rec_).length ≤ min 64 (ckptRoom s p))
/-- The commands that would have to end before the save have ended. -/
def saveCmdsDone (s : State) (p : PartId) (c : CoreId) : Bool := !ckptSave s p c || cmdsFit s p (cr s c).rec_

/-- A save waits for results, held and posted operations, and the engines' ranges (R57, R233, R326). -/
def saveReady (s : State) (p : PartId) (c : CoreId) : Bool :=
  let k := cr s c
  k.pend.isEmpty && k.posts.isEmpty && k.ranges.isEmpty && saveCmdsDone s p c

/-- Withdraws the commands of a checkpoint: their blocks go to the checkpoint area, and the answer is their entries (R308). -/
def withdraw (p : PartId) : List Cmd → State → State × List Byte
  | [], s => (s, [])
  | k :: r, s =>
    match (pt s p).dl with
    | none => (s, [])
    | some d =>
      let a := d.ckpt.toNat + 64 * d.used
      let s := vaPut p a (bytesOf 64 k.block.toNat) s
      let s := modPt s p (fun q => { q with dl := q.dl.map (fun d => { d with used := d.used + 1 }) })
      let s := { s with
        cmds := s.cmds.filter (fun x => x.id ≠ k.id)
        regions := s.regions.map (fun g => { g with ticks := g.ticks.filter (fun t => t.2 ≠ k.id) }) }
      let y := withdraw p r s
      (y.1, bytesOf 8 (k.op + (k.j.getD 0).toNat * 2 ^ 5) ++ bytesOf 8 a ++ bytesOf 16 0 ++ y.2)
/-- What follows the entries of withdrawn commands: one whose opcode is 0 ends a list that is not full (DEDUCED, log entry 41). -/
def wdEnd (n : Nat) : List Byte := if n = 0 || 64 ≤ n then [] else bytesOf 32 0
/-- Where a checkpoint of n commands writes: an area of some bytes with their entries, and their blocks. -/
def ckptPieces (s : State) (p : PartId) (livep size n : Nat) : List (Nat × Nat) :=
  pieces livep (size + 32 * n + (wdEnd n).length) ++
  (match (pt s p).dl with | some d => pieces (d.ckpt.toNat + 64 * d.used) (64 * n) | none => [])

/-- What the Sluice notes of a save (R304, R312). -/
def noteSaved (p : PartId) (q : BitVec 6) (n : Nat) (s : State) : State :=
  modPt s p (fun k => { k with dl := k.dl.map (fun d => { d with
    qs := d.qs.map (fun x => if x.q = q then { x with saving := true, saved := x.saved + n } else x) }) })

/-- The address of a task's live-state area. -/
def livepOf (s : State) (p : PartId) (rec_ : Nat) : Nat := ((recWord s p rec_ 0x10).getD 0) % 2 ^ 52
/-- The header in an area that a suspended task has saved. -/
def areaHead (s : State) (p : PartId) (livep : Nat) : LiveHead :=
  match vaMap s p false livep 64 with | .ok l => liveHead (ofBytes (spanRead s l)) | .error _ => liveHead 0
/-- A task that does not run ends CHECKPOINTED (R307). The commands behind its saved tickets are withdrawn into its area once the others
have ended, and the tickets are written as they then stand (R308); a missing page is waited for. -/
def ckptOne (p : PartId) (s : State) (t : Task) : State :=
  if (taskCmds s p t.rec_).isEmpty && t.tix.isEmpty then endTask p t.rec_ stCheckpointed 0 s
  else if !cmdsFit s p t.rec_ then s
  else
    let livep := livepOf s p t.rec_
    let wd := toWithdraw s p t.rec_
    let h := areaHead s p livep
    match askPieces 0 p (pieces livep 64 ++ ckptPieces s p livep h.oC wd.length) s with
    | (s, true) => s
    | (s, false) =>
      let x := withdraw p wd s
      let s := vaPut p (livep + h.oJ) (t.tix.flatMap (fun j => bytesOf 8 (saveTicket j))) x.1
      let s := if wd.isEmpty then s else recPut p t.rec_ 0 42 1 1 (vaPut p (livep + h.oC) (x.2 ++ wdEnd wd.length) s)
      endTask p t.rec_ stCheckpointed 0 (noteSaved p t.queue (x.2.length + 64 * wd.length) s)
/-- When every RUNNING task of a CHECKPOINT queue has been saved, its other tasks end CHECKPOINTED (R307). -/
def ckptRest (p : PartId) (q : BitVec 6) (s : State) : State :=
  if sluiceChoice s p q ≠ .checkpoint || (pt s p).tasks.any (fun t => t.queue == q && t.st == stRunning) then s
  else ((pt s p).tasks.filter (fun t => t.queue == q && t.live)).foldl (ckptOne p) s

/-- The hardware fields of the record at a save (R54, R326). -/
def putRecord (p : PartId) (rec_ : Nat) (resume : CAddr) (slot leaf repc : Nat) (flags exec : Nat) (s : State) : State :=
  recPut p rec_ 0x38 0 32 exec <| recPut p rec_ 0 40 4 flags <| recPut p rec_ 0 32 8 repc <| recPut p rec_ 0 28 4 slot <|
    recPut p rec_ 0 24 3 leaf <| recPut p rec_ 0 0 24 resume.toNat s

/-- The area and the record of a save are written, with the commands that it withdraws, and the core becomes idle (R326). -/
def saveWrite (c : CoreId) (p : PartId) (h : LiveHead) (wd : List Cmd) (resume : CAddr) (trapres : Bool) (s : State) : State :=
  let k := cr s c
  let x := withdraw p wd s
  let s := vaPut p (livepOf s p k.rec_) (bytesOf 64 h.num ++ saveBody h k ++ x.2 ++ wdEnd wd.length) x.1
  let flags := trapres.toNat + (if h.z = 0 then 0 else 2) + (if wd.isEmpty then 0 else 4)
  let s := if trapres then putRecord p k.rec_ resume k.slot.toNat k.leaf.toNat k.repc.toNat flags k.exec s
    else putRecord p k.rec_ resume 15 0 0 flags k.exec s
  let tix := (onBits 16 h.j).map (fun n => k.j.getD n Ticket.reset)
  idleCore c (modTask p k.rec_ (fun t => { t with gang := k.group.map (fun g => (g, k.lock)), tix := tix, core := none }) s)
/-- The live-state area and the record are written. The task is READY again, or it ends CHECKPOINTED (R84, R111, R307). A page that is
missing is asked for, and the save waits; so does one that has become a checkpoint, for the commands of its task. -/
def saveDone (c : CoreId) (unit resume : CAddr) (trapres : Bool) (s : State) : State :=
  match partOf s c with
  | none => idleCore c s
  | some p =>
    let k := cr s c
    let ck := ckptSave s p c
    let h := saveHead (safeList k unit) k
    let wd := if ck then toWithdraw s p k.rec_ else []
    if !saveCmdsDone s p c then s
    else match askPieces c p (ckptPieces s p (livepOf s p k.rec_) h.oC wd.length) s with
    | (s, true) => s
    | (s, false) =>
      let q := queueOfCore s p c
      let s := saveWrite c p h wd resume trapres s
      if ck then ckptRest p q (endTask p k.rec_ stCheckpointed k.exec (noteSaved p q (h.oC + 96 * wd.length) s))
      else askYield p (makeReady p k.rec_ s)

/-- The progress of a core that saves its task (R326): what is in flight lands, the task's writes are published at module scope
and acknowledged (R228), then the area and the record are written. -/
def saveStep (c : CoreId) (unit resume : CAddr) (trapres yield : Bool) (s : State) : State :=
  match partOf s c with
  | none => idleCore c s
  | some p =>
    if !saveReady s p c then s
    else
      let s := if ckptSave s p c then noteSaved p (queueOfCore s p c) 0 s else s
      let x := publishFwd s c 3
      modCr x.1 c (fun k => { k with wait := .saveAck unit resume trapres yield x.2, tq := [], foot := [] })
def saveAckStep (c : CoreId) (unit resume : CAddr) (trapres : Bool) (acks : List Nat) (s : State) : State :=
  if acked s acks then saveDone c unit resume trapres s else s

/-! The end of a task at HALT (R85). -/

/-- Everything that HALT waits for has happened: results, held and posted operations, and every command of the task. -/
def haltReady (s : State) (p : PartId) (c : CoreId) : Bool :=
  let k := cr s c
  k.pend.isEmpty && k.posts.isEmpty && s.cmds.all (fun x => !(x.part == p && x.task == some k.rec_))
/-- HALT leaves the group as LEAVE does, for whose page it waits, and publishes the task's stores (R56, R85, R92). -/
def haltStep (c : CoreId) (s : State) : State :=
  match partOf s c with
  | none => idleCore c s
  | some p =>
    if !haltReady s p c then s
    else match askPieces c p ((cr s c).group.toList.map (fun g => (g, 64))) s with
      | (s, true) => s
      | (s, false) =>
        let x := publishFwd (leaveGroup c s) c 3
        modCr x.1 c (fun k => { k with wait := .haltAck x.2 })
def haltAckStep (c : CoreId) (acks : List Nat) (s : State) : State :=
  match partOf s c with
  | none => idleCore c s
  | some p =>
    if !acked s acks then s
    else
      let k := cr s c
      let q := queueOfCore s p c
      ckptRest p q (endTask p k.rec_ stDone k.exec (idleCore c s))

/-! Pickup (R110, R327). -/

/-- The queues that Delta serves: valid ones, or ones torn down, that the Sluice runs (R110, R305). -/
def servable (s : State) (p : PartId) (q : BitVec 6) : Bool :=
  (queueOf s p q).valid && decide (sluiceChoice s p q = .run)
/-- The oldest READY task of a queue whose pickup does not wait on a page (R110, R356). -/
def headReady (s : State) (p : PartId) (q : BitVec 6) : Option Task :=
  (queueOf s p q).ready.findSome? (fun r => (taskOf s p r.1).bind (fun t => if t.word.isNone then some t else none))
/-- The queues of a priority in the order in which they are served: from the one after the last (R110). -/
def serveOrder (s : State) (p : PartId) (prio : Nat) : List (BitVec 6) :=
  let l := ((pt s p).lastq.getD prio 63).toNat
  (upto 64).map (fun i => BitVec.ofNat 6 (l + 1 + i))
/-- The next choice of Delta: the first queue of the highest priority that holds a READY task, and its oldest task. -/
def nextChoice (s : State) (p : PartId) : Option (BitVec 6 × Task) :=
  let cand := fun (prio : Nat) => (serveOrder s p prio).findSome? (fun q =>
    if servable s p q && (queueOf s p q).prio.toNat == prio then (headReady s p q).map (fun t => (q, t)) else none)
  (upto 8).reverse.findSome? cand

/-- The idle cores of a partition in rank order. -/
def idleCores (s : State) (p : PartId) : List CoreId := (coresOf s p).filter (fun c => !(cr s c).running)
/-- The tasks of a suspended lock-step gang, in order of member index (R64). -/
def gangTasks (s : State) (p : PartId) (g : Nat) : List Task :=
  let mem := fun (t : Task) => bits ((recWord s p t.rec_ 0x18).getD 0) 44 4
  let ts := (pt s p).tasks.filter (fun t => t.live && t.gang == some (g, true))
  (upto 16).flatMap (fun i => ts.filter (fun t => mem t == i))

/-- The state that belongs to the core at a pickup (R133, R164, R182, R201, R233, R327), and empty registers (R57). SKEW, which R327 does
not name, stays (DESIGN CHOICE, log entry 97). -/
def freshCore (k : Core) : Core :=
  { k with
    regs := Regs.reset, q := Vector.replicate 16 Stream.reset, j := Vector.replicate 16 Ticket.reset
    loops := Vector.replicate 4 Loop.reset, wskip := false, lbase := 0, h := false, leaf := 0, repc := 0, slot := 15, cause := 0
    latch := [], srkey := 0, lscale := 0, flags := 0, sel := 0x80, wfmt := 0, tq := [], tqAt := none, foot := [], ranges := []
    pend := [], posts := [], own := [], unpub := [], pfx := none, left := 0, resume := false, further := false, nextUnit := none
    wait := .none, kept := .none, keptStop := .none, keptFurther := false, keptNext := none, pendTrap := none, failed := [], asks := [],
    yieldReq := false, follow := [], last := 0, busy := 0 }

/-- The tickets that are still pending take the end that their commands have come to since the save (R57). -/
def settleTickets (tix : List Ticket) (k : Core) : Core :=
  { k with j := k.j.map (fun t => if t.st = .pending then ((tix.find? (fun x => x.id == t.id)).getD t) else t) }

/-- The committing context of a command that is reissued (R308). -/
def asCore (c : CoreId) (s : State) : State := { s with iss := { Issue.reset with core := c } }

/-- The cause of a page that cannot be read (R198, R289). -/
def xlCause : Xl → BitVec 8 | .s1 => cXlateS1 | _ => cAccess
/-- The block of a withdrawn command, or the cause for which it cannot be read. -/
def readBlock (s : State) (p : PartId) (a : Nat) : Except (BitVec 8) (BitVec 512) :=
  match vaMap s p false a 64 with
  | .ok l => if spanBad s l then .error cEcc else .ok (BitVec.ofNat 512 (ofBytes (spanRead s l)))
  | .error e => .error (xlCause e.2)
/-- The check that a reissued command fails (R253, R308). -/
def reissueFault (c : CoreId) (p : PartId) (op a : Nat) (s : State) : Except TrapInfo (BitVec 512) :=
  match readBlock s p a with
  | .error e => .error (gFault (asCore c s) e a none)
  | .ok b =>
    let t := asCore c s
    match (if op = opTick then tickFault t (bits (bw b 0) 0 52)
      else firstFault [alignFault t a (cmdAligns op b), if cmdFits op b (coresOf s p).length then none else some (lFault t cAccess a)]) with
    | some x => .error x
    | none => .ok b
/-- Reissues one withdrawn command: its block is read from memory and committed into its ticket; a check that fails makes the
ticket FAILED (R308). -/
def reissueOne (c : CoreId) (p : PartId) (s : State) (e : Nat × Nat × Nat) : State :=
  let jj : BitVec 4 := BitVec.ofNat 4 e.2.1
  match reissueFault c p e.1 e.2.2 s with
  | .error x =>
    let ad := x.addr.getD (false, 0)
    modCr (if x.cause = cEcc then spanFound s p (pieces e.2.2 64) else s) c (fun k =>
      k.setJ jj ⟨.failed, 0, x.cause, ad.1, x.addr.isSome, BitVec.ofNat 52 ad.2⟩)
  | .ok b =>
    let keep := s.iss
    let t := asCore c s
    let u := newCmd e.1 jj b (if isCfl e.1 then some cflStart else none) t
    let u := if e.1 = opTick then
        (match regionBase t (bits (bw b 0) 0 52) with
          | some r => modRegion r.id (fun r => { r with ticks := r.ticks ++ [(c, t.nextId)] }) u
          | none => u)
      else u
    { u with iss := keep }

/-- The entries of the withdrawn commands in an area (R308): opcode, ticket and block of each, to the first whose opcode is 0 and 64 at
most (DEDUCED, log entry 41). -/
def savedCmds (s : State) (p : PartId) : Nat → Nat → Except (Nat × Xl) (List (Nat × Nat × Nat))
  | 0, _ => .ok []
  | fuel + 1, a =>
    match vaMap s p false a 32 with
    | .error e => .error e
    | .ok l =>
      let x := ofBytes (spanRead s l)
      if spanBad s l then .error (a, .denied)
      else if bits x 0 5 = 0 then .ok []
      else match savedCmds s p fuel (a + 32) with
        | .ok r => .ok ((bits x 0 5, bits x 5 4, bits x 64 52) :: r)
        | .error e => .error e

/-- The registers of a task that starts or resumes: s1 = ARGP at its first pickup, the saved state and the withdrawn commands at a later
one (R54, R57, R308). Or else what keeps it from starting: a missing page, a write to its record that waits on one, or an unfit record. -/
inductive Restore where
  | miss (va ipa : Nat) (tbl : Bool) (lvl : Nat) (wr : Bool)
  | behind (tag : Nat)
  | unfit
  | start (argp : Nat)
  | area (bs : List Byte) (cmds : List (Nat × Nat × Nat))
  deriving DecidableEq, Repr

/-- A page that a pickup cannot have (R356); an area that does not translate makes the record unfit (DESIGN CHOICE, log entry 96). -/
def noPage (wr : Bool) : Nat × Xl → Restore
  | (va, .miss ipa tbl lvl) => .miss va ipa tbl lvl wr
  | _ => .unfit
/-- The live-state area of a record, as a pickup finds it (R55, R327, R356): one that is uncorrectable makes the record unfit (DESIGN
CHOICE, log entry 96). -/
def readArea (s : State) (p : PartId) (a : Nat) (cmds : Bool) : Restore :=
  match vaMap s p false a 64 with
  | .error e => noPage false e
  | .ok l =>
    let h := liveHead (ofBytes (spanRead s l))
    match vaMap s p false a h.oC with
    | .error e => noPage false e
    | .ok l =>
      if spanBad s l then .unfit
      else match (if cmds then savedCmds s p 64 (a + h.oC) else .ok []) with
        | .error e => noPage false e
        | .ok cs =>
          match pieceMiss s p false (cs.flatMap (fun e => pieces e.2.2 64)) with
          | some (va, ipa, tbl, lvl) => .miss va ipa tbl lvl false
          | none => .area (spanRead s l) cs
/-- What a pickup finds in memory (R55, R327, R356). A record whose EXEC is 0 has never run (DEDUCED, log entry 42). -/
def readTask (s : State) (p : PartId) (rec_ : Nat) : Restore :=
  match vaMap s p true rec_ 64 with
  | .error e => noPage true e
  | .ok l =>
    let w := fun o => (recWord s p rec_ o).getD 0
    match (pt s p).late.findSome? (fun x => if x.va / 64 = rec_ / 64 then x.tag else none) with
    | some t => .behind t
    | none =>
      if spanBad s l || !recFit s p rec_ || bits (w 0x18) 28 7 ≠ p.val then .unfit
      else if bits (w 0x38) 0 32 = 0 then .start (w 8 % 2 ^ 52)
      else readArea s p (w 0x10 % 2 ^ 52) (bitAt (w 0) 42)

/-- Places a task on an idle core and restores what its pickup has found (R327). A gang resumes with the skew of its cores (R64). -/
def startTask (c : CoreId) (p : PartId) (t : Task) (r : Restore) (s : State) : State :=
  let s := refresh s c 3
  let w := fun o => (recWord s p t.rec_ o).getD 0
  let s := modQueue p t.queue (fun q => { q with ready := q.ready.filter (fun x => x.1 ≠ t.rec_) }) s
  let s := modTask p t.rec_ (fun t => { t with st := stRunning, core := some c, tix := [] }) s
  let trapres := bitAt (w 0) 40
  let k := freshCore (cr s c)
  let k := match r with
    | .start argp => k.setS 1 ⟨w64 argp, true⟩
    | .area bs _ => settleTickets t.tix (loadBody (liveHead (fieldAt bs 0 64)) bs k)
    | _ => k
  let k := { k with
    running := true, rec_ := t.rec_, exec := bits (w 0x38) 0 32, since := 0, pickedAt := s.now
    pc := BitVec.ofNat 24 (w 0), resume := trapres
    slot := if trapres then BitVec.ofNat 4 (bits (w 0) 28 4) else 15
    leaf := if trapres then BitVec.ofNat 3 (bits (w 0) 24 3) else 0
    repc := if trapres then BitVec.ofNat 8 (bits (w 0) 32 8) else 0
    group := t.gang.map Prod.fst
    member := if t.gang.isSome then BitVec.ofNat 4 (bits (w 0x18) 44 4) else 0
    skewNow := k.skew
    lock := (t.gang.map Prod.snd).getD false }
  let s := recPut p t.rec_ 0x18 24 4 2 (setCr s c k)
  match r with
  | .area _ cs => cs.foldl (reissueOne c p) s
  | _ => s

/-- Starts the members of a gang on cores in rank order (R64, R110). -/
def startGang (p : PartId) : List (Task × Restore) → List CoreId → State → State
  | t :: ts, c :: cs, s => startGang p ts cs (startTask c p t.1 t.2 s)
  | _, _, s => s
/-- The tasks wait on a page request, and Delta makes its next choice (R356). -/
def deferTasks (p : PartId) (tag : Nat) (ts : List Task) (s : State) : State :=
  ts.foldl (fun s t => modTask p t.rec_ (fun t => { t with word := some tag }) s) s
/-- A page or an earlier write that keeps a pickup waiting. -/
def Restore.waits : Restore → Bool | .miss _ _ _ _ _ => true | .behind _ => true | _ => false
/-- Takes up a task, or the members of a gang together (R55, R64, R356): records that are unfit end ABORTED; while one has to wait, all
do; otherwise all start. -/
def takeUp (p : PartId) (ts : List Task) (cs : List CoreId) (served : State → State) (s : State) : State :=
  let rs := ts.map (fun t => (t, readTask s p t.rec_))
  if rs.any (fun x => x.2 == .unfit) then
    (rs.filter (fun x => x.2 == .unfit)).foldl (fun s x =>
      endTask p x.1.rec_ stAborted 0 (spanFound s p (pieces x.1.rec_ 64 ++ pieces (livepOf s p x.1.rec_) (areaHead s p (livepOf s p x.1.rec_)).oC))) (served s)
  else match rs.find? (fun x => x.2.waits) with
    | some (_, .miss va ipa tbl lvl wr) => let x := pageMiss s (cs.headD 0) p ipa va tbl lvl wr; deferTasks p x.2 ts x.1
    | some (_, .behind tag) => deferTasks p tag ts s
    | _ => startGang p rs cs (served s)

/-- TASK_PICKUP (R110): the idle core of lowest rank takes Delta's next choice; a gang takes one idle core for each member
once they are all READY. -/
def pickup (c : CoreId) (p : PartId) (s : State) : State :=
  match nextChoice s p with
  | none => s
  | some (q, t) =>
    let prio := (queueOf s p q).prio.toNat
    let served := fun (s : State) => modPt s p (fun k => { k with lastq := k.lastq.setIfInBounds prio q })
    match t.gang with
    | some (g, true) =>
      let ts := gangTasks s p g
      let idle := idleCores s p
      if ts.all (fun t => t.st == stReady) && decide (ts.length ≤ idle.length) then takeUp p ts idle served s else s
    | _ => askYield p (takeUp p [t] [c] served s)
def execTaskPickup (c : CoreId) (s : State) : Out :=
  match partOf s c with
  | none => .next s
  | some p =>
    if s.fatal || s.dead || !(pt s p).running || (idleCores s p).head? ≠ some c then .next s else .next (pickup c p s)

end Sys2Proof.Machine
end

