-- ==== Sys2Proof/Machine/Crossbar.lean ====
section
/-! DEFINITION. The X slot: whole lanes moved among the lanes of a register (R158 to R162). -/
namespace Sys2Proof.Machine

/-- All 64 lanes of vd at commit, with the tag of va (R158); lane i takes the lane of va that the function names. -/
def moveLanes (d a : BitVec 6) (f : Nat → Nat) (s : State) : State :=
  wrV d (buildElems 2048 32 64 (fun i => laneOf (srcV s a).bits (f i))) (srcV s a).tag s

/-- The lane of the pattern register that XPERM follows (R159). -/
def permLane (s : State) (p : BitVec 6) (i : Nat) : Nat := (laneOf (srcV s p).bits i).toNat % 64
/-- Two lanes of the pattern hold the same value (R160). -/
def permClash (s : State) (p : BitVec 6) : Bool := !decide ((upto 64).map (permLane s p)).Nodup
def execXperm (o : XpermF) (s : State) : Out :=
  runSlot (.xperm o) (if permClash s o.p then some (trapPlain s cIllegalSchedule) else none) false
    (fun s => moveLanes o.d o.a (permLane s o.p) s) s
def execXrot (o : XkF) (s : State) : Out :=
  runSlot (.xrot o) none false (fun s => moveLanes o.d o.a (fun i => (i + o.k.toNat) % 64) s) s
def execXbcast (o : XkF) (s : State) : Out :=
  runSlot (.xbcast o) none false (fun s => moveLanes o.d o.a (fun _ => o.k.toNat) s) s
def execXrev (o : XgF) (s : State) : Out :=
  runSlot (.xrev o) none false (fun s => moveLanes o.d o.a (fun i => i ^^^ (2 ^ o.g.toNat - 1)) s) s

/-- The shuffles of R161. -/
def shufLane (c i : Nat) : Nat :=
  let j := i / 2
  match c with
  | 0 => if i % 2 = 0 then j else 32 + j
  | 1 => if i % 2 = 0 then 32 + j else j
  | 2 => if i < 32 then 2 * i else 2 * (i - 32) + 1
  | _ => if i < 32 then 2 * i + 1 else 2 * (i - 32)
def execXshuf (o : XshufF) (s : State) : Out :=
  runSlot (.xshuf o) none false (fun s => moveLanes o.d o.a (shufLane o.c.toNat) s) s

/-- XCMPR (R162): the lanes whose mask bits are set, packed to the low end; the lanes above are zero. -/
def execXcmpr (o : XgF) (s : State) : Out :=
  runSlot (.xcmpr o) none false
    (fun s =>
      let on := lanesOn (srcM s o.g)
      wrV o.d (buildElems 2048 32 64 (fun i => match on[i]? with | some l => laneOf (srcV s o.a).bits l | none => 0))
        (srcV s o.a).tag s) s

end Sys2Proof.Machine
end

