-- ==== Sys2Proof/Machine/Predicate.lean ====
section
/-! DEFINITION. The predicate instructions of the A slots (R75, R76). -/
namespace Sys2Proof.Machine

/-- The conditions of R42 and R75. -/
def condS (cc : BitVec 4) (a b : W64) : Bool :=
  match cc.toNat with
  | 0 => a == b
  | 1 => a != b
  | 2 => a.slt b
  | 3 => !a.slt b
  | 4 => !b.slt a
  | 5 => b.slt a
  | 6 => a.ult b
  | 7 => !a.ult b
  | 8 => !b.ult a
  | 9 => b.ult a
  | 10 => (a &&& b) != 0
  | _ => (a &&& b) == 0

/-- An A-slot instruction that writes one predicate (R75, R76). -/
def predOut (i : Instr) (d : BitVec 5) (x : State → Bool) (s : State) : Out := runSlot i none false (fun s => wrP d (x s) s) s

def execCmp (o : CmpF) (s : State) : Out := predOut (.cmp o) o.p (fun s => condS o.cc (srcS s o.a) (srcS s o.b)) s
def execCmpi (o : CmpiF) (s : State) : Out := predOut (.cmpi o) o.p (fun s => condS o.cc (srcS s o.a) (o.imm.signExtend 64)) s

/-- A tested predicate with its negate bit (R76). -/
def tst (s : State) (p : BitVec 5) (n : Bool) : Bool := srcP s p ^^ n
def execPand (o : PlogF) (s : State) : Out := predOut (.pand o) o.d (fun s => tst s o.a o.na && tst s o.b o.nb) s
def execPor (o : PlogF) (s : State) : Out := predOut (.por o) o.d (fun s => tst s o.a o.na || tst s o.b o.nb) s
def execPxor (o : PlogF) (s : State) : Out := predOut (.pxor o) o.d (fun s => tst s o.a o.na ^^ tst s o.b o.nb) s
def execPandn (o : PlogF) (s : State) : Out := predOut (.pandn o) o.d (fun s => tst s o.a o.na && !tst s o.b o.nb) s

end Sys2Proof.Machine
end

