-- ==== Sys2Proof/Machine/Issue.lean ====
section
/-! DEFINITION. Issuing a code unit: what a core decodes and checks before any slot commits, the bundle's end after its slots,
safe points, lock-step, and the steps of a core that waits (R19 to R37, R57, R62 to R64, R79, R84, R88, R93, R113, R222,
R314, R321, R326, R330, R357). -/
namespace Sys2Proof.Machine

/-- The meaning of an instruction of a slot; an event belongs to no slot. -/
def slotRun (i : Instr) (s : State) : Out :=
  match i with
  | .add o => execAdd o s
  | .sub o => execSub o s
  | .mul o => execMul o s
  | .mulh o => execMulh o s
  | .mulhu o => execMulhu o s
  | .div o => execDiv o s
  | .divu o => execDivu o s
  | .rem o => execRem o s
  | .remu o => execRemu o s
  | .and o => execAnd o s
  | .or o => execOr o s
  | .xor o => execXor o s
  | .andn o => execAndn o s
  | .shl o => execShl o s
  | .shr o => execShr o s
  | .sar o => execSar o s
  | .rol o => execRol o s
  | .min o => execMin o s
  | .max o => execMax o s
  | .minu o => execMinu o s
  | .maxu o => execMaxu o s
  | .clmull o => execClmull o s
  | .clmulh o => execClmulh o s
  | .clz o => execClz o s
  | .ctz o => execCtz o s
  | .popc o => execPopc o s
  | .mov o => execMov o s
  | .sextI8 o => execSextI8 o s
  | .sextI16 o => execSextI16 o s
  | .sextI32 o => execSextI32 o s
  | .zextI8 o => execZextI8 o s
  | .zextI16 o => execZextI16 o s
  | .zextI32 o => execZextI32 o s
  | .sel o => execSel o s
  | .addi o => execAddi o s
  | .lea o => execLea o s
  | .li o => execLi o s
  | .lih o => execLih o s
  | .cmp o => execCmp o s
  | .cmpi o => execCmpi o s
  | .pand o => execPand o s
  | .por o => execPor o s
  | .pxor o => execPxor o s
  | .pandn o => execPandn o s
  | .prepLabel o => execPrepLabel o s
  | .prepReg o => execPrepReg o s
  | .getc o => execGetc o s
  | .setc o => execSetc o s
  | .ldl o => execLdl o s
  | .stl o => execStl o s
  | .vldl o => execVldl o s
  | .vldlStream o => execVldlStream o s
  | .vstl o => execVstl o s
  | .vstlStream o => execVstlStream o s
  | .bind o => execBind o s
  | .unbind o => execUnbind o s
  | .qskip o => execQskip o s
  | .qstat o => execQstat o s
  | .ldg o => execLdg o s
  | .stg o => execStg o s
  | .vldg o => execVldg o s
  | .vstg o => execVstg o s
  | .vgath o => execVgath o s
  | .vscat o => execVscat o s
  | .amo o => execAmo o s
  | .amoCas o => execAmoCas o s
  | .radd o => execRadd o s
  | .rowadd o => execRowadd o s
  | .rowld o => execRowld o s
  | .psmpScalar o => execPsmpScalar o s
  | .psmpVector o => execPsmpVector o s
  | .ptapScalar o => execPtapScalar o s
  | .ptapVector o => execPtapVector o s
  | .ptaps o => execPtaps o s
  | .rtapScalar o => execRtapScalar o s
  | .rtapVector o => execRtapVector o s
  | .phase o => execPhase o s
  | .pref o => execPref o s
  | .vadd o => execVadd o s
  | .vsub o => execVsub o s
  | .vmul o => execVmul o s
  | .vmulh o => execVmulh o s
  | .vmad o => execVmad o s
  | .vand o => execVand o s
  | .vor o => execVor o s
  | .vxor o => execVxor o s
  | .vshl o => execVshl o s
  | .vshr o => execVshr o s
  | .vsar o => execVsar o s
  | .vmin o => execVmin o s
  | .vmax o => execVmax o s
  | .vabs o => execVabs o s
  | .vwacc o => execVwacc o s
  | .vclmulLo o => execVclmulLo o s
  | .vclmulHi o => execVclmulHi o s
  | .vpopc o => execVpopc o s
  | .vfadd o => execVfadd o s
  | .vfsub o => execVfsub o s
  | .vfmul o => execVfmul o s
  | .vfma o => execVfma o s
  | .vfmin o => execVfmin o s
  | .vfmax o => execVfmax o s
  | .vfabs o => execVfabs o s
  | .vfneg o => execVfneg o s
  | .vfcmp o => execVfcmp o s
  | .vmcmp o => execVmcmp o s
  | .mand o => execMand o s
  | .mor o => execMor o s
  | .mnot o => execMnot o s
  | .vexp2 o => execVexp2 o s
  | .vlog2 o => execVlog2 o s
  | .vrcp o => execVrcp o s
  | .vrsq o => execVrsq o s
  | .vsqrt o => execVsqrt o s
  | .vcvt o => execVcvt o s
  | .vscale o => execVscale o s
  | .vpack o => execVpack o s
  | .vunpack o => execVunpack o s
  | .vtag o => execVtag o s
  | .vred o => execVred o s
  | .vscan o => execVscan o s
  | .vsplat o => execVsplat o s
  | .vmovs o => execVmovs o s
  | .vsel o => execVsel o s
  | .vlane o => execVlane o s
  | .vchkf o => execVchkf o s
  | .lsupd => execLsupd s
  | .xperm o => execXperm o s
  | .xrot o => execXrot o s
  | .xbcast o => execXbcast o s
  | .xshuf o => execXshuf o s
  | .xrev o => execXrev o s
  | .xcmpr o => execXcmpr o s
  | .wld o => execWld o s
  | .beat o => execBeat o s
  | .drain o => execDrain o s
  | .zclr o => execZclr o s
  | .zrot o => execZrot o s
  | .zspill o => execZspill o s
  | .zfill o => execZfill o s
  | .cpy o => execCpy o s
  | .cpyw o => execCpyw o s
  | .tqpush o => execTqpush o s
  | .tqpop o => execTqpop o s
  | .rkgath o => execRkgath o s
  | .rkseg o => execRkseg o s
  | .rill o => execRill o s
  | .cflAr o => execCflAr o s
  | .cflRs o => execCflRs o s
  | .cflAg o => execCflAg o s
  | .cflBc o => execCflBc o s
  | .send o => execSend o s
  | .recv o => execRecv o s
  | .pancfg o => execPancfg o s
  | .tick o => execTick o s
  | .foot o => execFoot o s
  | .jwait o => execJwait o s
  | .jpoll o => execJpoll o s
  | .spawn o => execSpawn o s
  | .join o => execJoin o s
  | .leave o => execLeave o s
  | .bar o => execBar o s
  | .tree o => execTree o s
  | .loop o => execLoop o s
  | .loopr o => execLoopr o s
  | .call o => execCall o s
  | .ret o => execRet o s
  | .suspend o => execSuspend o s
  | .halt => execHalt s
  | .trap o => execTrap o s
  | .rte => execRte s
  | _ => .next s

/-! Decoding (R19 to R25, R36). -/

/-- The halfword at a code address is a REPEAT prefix (R19). -/
def prefixAt (k : Core) (a : CAddr) : Option (BitVec 8) :=
  match k.code[a.toNat]? with
  | none => none
  | some h => if 0xF000 ≤ h.toNat && h.toNat ≤ 0xF0FF then some (BitVec.ofNat 8 h.toNat) else none
/-- A member of a lock-step gang takes its units from the lead, but a handler runs from its own code stream (R62, R63). -/
def follows (k : Core) : Option Follow := if k.h then none else k.follow.head?
/-- The next unit has a prefix that has not been decoded: REPEAT is the next step of the core. -/
def needsPrefix (k : Core) : Bool :=
  (follows k).isNone && !k.resume && k.pfx.isNone && !k.further && (prefixAt k k.pc).isSome

/-- The executions that remain after the one that is about to issue (R25). -/
def leftAt (k : Core) : BitVec 8 :=
  match follows k with
  | some f => f.left
  | none => if k.resume then k.repc else if k.pfx.isSome || k.further then k.left else (prefixAt k k.pc).getD 0

/-- The bundle of the next unit, its address and its length. -/
def nextUnitOf (k : Core) : Option (CAddr × Bundle × Nat) :=
  match follows k with
  | some f => some (f.unit, f.bundle, f.len)
  | none => (unitAt k.dict k.code k.pc).map (fun u => (k.pc, u.bundle, u.len))

/-- The destinations of a slot that can collide (R36). -/
def slotDst (b : Bundle) (n : Nat) : List RegId :=
  match slotHolds b n with | .ins i => (dstRegs i).filter (fun r => !r.hard) | _ => []
/-- The streams that a slot names (R101). -/
def slotStreams (b : Bundle) (n : Nat) : List (BitVec 4) := match slotHolds b n with | .ins i => streamsOf i | _ => []
/-- Two slots whose path tags share a bit write one register, or name one stream (R36, R101). -/
def collides (b : Bundle) : Bool :=
  (upto 10).any (fun n => (upto n).any (fun m =>
    (slotTag b m &&& slotTag b n) ≠ 0 && ((slotDst b m).any (fun r => (slotDst b n).contains r) ||
      (slotStreams b m).any (fun q => (slotStreams b n).contains q))))

/-- A bundle whose B slot is a no-op (R24, R321). -/
def withoutB (b : Bundle) : Bundle := BitVec.ofNat 384 (b.toNat % 2 ^ 336)
/-- The lead evaluates the branch slot: a member commits it only where it ends the member's own turn; branches, loops, links and
traps come from the lead (R62, R94; DEDUCED, log entry 26). -/
def memberB (b : Bundle) : Bundle :=
  match slotHolds b 9 with
  | .ins .halt => b
  | .ins (.suspend _) => b
  | _ => withoutB b

/-- The taken leaf (R30). -/
def leafOf (r : Regs) (b : Bundle) : BitVec 3 :=
  match slotHolds b 9 with
  | .ins (.tree o) => BitVec.ofNat 3 (treeLeaf r o)
  | _ => 0

/-! Lock-step (R62 to R64, R94). -/

/-- The other members of a core's lock-step gang. -/
def gangMates (s : State) (c : CoreId) : List CoreId :=
  match (cr s c).group, partOf s c with
  | some g, some p => if (cr s c).lock then (grpCores s p g).filter (fun d => d ≠ c && (cr s d).lock) else []
  | _, _ => []
/-- The core leads its gang, and no bundle of an earlier lead is left for it. -/
def leads (s : State) (c : CoreId) : Bool :=
  match (cr s c).group, partOf s c with
  | some g, some p => (cr s c).lock && (cr s c).follow.isEmpty && gangLead s p g == some c
  | _, _ => false
/-- A member's trap freezes its gang until the cycle after its RTE (R63). -/
def freezes (s : State) (k : Core) : Bool := k.h || k.pendTrap.isSome || (k.resume && decide (s.now < k.last))
/-- A trap in one member freezes the others (R63). -/
def frozen (s : State) (c : CoreId) : Bool := !(cr s c).h && (gangMates s c).any (fun d => freezes s (cr s d))
/-- Where the gang's bundle goes: each other member with its delay behind the lead (R62). -/
def matesOf (s : State) (c : CoreId) : List (CoreId × Nat) :=
  let k := cr s c
  if k.h || !leads s c then []
  else (gangMates s c).map (fun d => (d, ((cr s d).member.toNat - k.member.toNat) * k.skewNow.toNat))

/-! What a core reads of L at issue (R330). -/

/-- The L bytes that a slot reads: base and length. -/
def slotReads (s : State) : Instr → List (Nat × Nat)
  | .ldl o => [((eaddr s o.base o.off (szBytes o.z)).toNat, szBytes o.z)]
  | .stl o => if szBytes o.z = 8 then [] else [((eaddr s o.base o.off (szBytes o.z)).toNat, szBytes o.z)]
  | .vldl o => [((eaddr s o.base o.off 256).toNat, 256)]
  | .vstl o =>
    let on := lanesOn (srcM s o.m)
    (on.filter (fun i => !on.contains (if i % 2 = 0 then i + 1 else i - 1))).map (fun i => ((eaddr s o.base o.off 256).toNat + 4 * i, 4))
  | .vldlStream o => [(elAddr (qOf s o.q) 0, 256)]
  | .vstlStream o =>
    let on := lanesOn (srcM s o.m)
    (on.filter (fun i => !on.contains (if i % 2 = 0 then i + 1 else i - 1))).map (fun i => (elAddr (qOf s o.q) 0 + 4 * i, 4))
  | .bind o => [((srcS s o.a).toNat, 32)]
  | .beat o => (elAddr (qOf s o.q) 0, (descOf (qOf s o.q).desc).len) ::
      (if o.sc then [(elAddr (qOf s o.sq) 0, (descOf (qOf s o.sq).desc).len)] else [])
  | .zfill o => (upto 65).map (fun i => (elAddr (qOf s o.q) i, 384))
  | .cpy o => [((srcS s o.a).toNat, 32)]
  | .cpyw o => [((srcS s o.a).toNat, 32)]
  | .rkgath o => [((srcS s o.a).toNat, 32)]
  | .rkseg o => [((srcS s o.a).toNat, 32)]
  | .rill o => [((srcS s o.a).toNat, 32)]
  | .cflAr o => [((srcS s o.a).toNat, 64)]
  | .cflRs o => [((srcS s o.a).toNat, 64)]
  | .cflAg o => [((srcS s o.a).toNat, 64)]
  | .cflBc o => [((srcS s o.a).toNat, 64)]
  | .send o => [((srcS s o.a).toNat, 32)]
  | .recv o => [((srcS s o.a).toNat, 32)]
  | .pancfg o =>
    let a := (srcS s o.a).toNat
    let d := panDesc (panBlock s a)
    (a, 64) :: (if d.rated && !d.rel && s.modesel.getLsbD 4 then [(d.ctab, 128)] else [])
  | .tqpush o => [((srcS s o.a).toNat, 2048)]
  | _ => []
/-- The first granule of L in a range that cannot be corrected. -/
def badL (k : Core) (lo n : Nat) : Option Nat :=
  (k.badL.find? (fun g => overlap lo (lo + n - 1) (8 * g) (8 * g + 7))).map (fun g => 8 * g)
def badRead (k : Core) : List (Nat × Nat) → Option Nat
  | [] => none
  | (lo, n) :: r => match badL k lo n with | some g => some g | none => badRead k r

/-! Whether a bundle may issue (R34). -/

/-- The pair register that a PSMP of a long row reads (R355). -/
def pairSrc (s : State) : Instr → List (RegId × Bool)
  | .psmpVector o => panSrc s o.base (psmpV o)
  | _ => []
/-- The live slots that have not committed hold an instruction of a kind. -/
def anySlot (s : State) (f : Instr → Bool) : Bool :=
  (span s.iss.slot (10 - s.iss.slot)).any (fun n => slotLive s.iss.bundle n s.iss.leaf.toNat &&
    (match slotHolds s.iss.bundle n with | .ins i => f i | _ => false))
/-- A live slot has an empty source whose W bit is set (R34). -/
def waitsSource (s : State) : Bool := anySlot s (fun i => (srcRegs i ++ pairSrc s i).any (fun r => emptyReg s.iss.regs r.1 && r.2))
/-- The requests to G of a core that are outstanding (R9). -/
def requestsOut (k : Core) : Nat := sumNat (k.pend.map (fun p => p.lanes.length)) + sumNat (k.posts.map (fun o => o.lanes.length))
/-- A live G slot might take a core beyond 8192 outstanding requests (R9; DEDUCED, log entry 99). -/
def requestsFull (s : State) : Bool :=
  decide (8192 < requestsOut (me s) + 64) && slotLive s.iss.bundle 3 s.iss.leaf.toNat && decide (s.iss.slot ≤ 3) &&
    (match slotHolds s.iss.bundle 3 with | .ins (.phase _) => false | .ins (.pref _) => false | .ins _ => true | _ => false)

/-- What the check of the slots finds. -/
inductive Check where
  | go
  | stall (i : Instr)
  | ecc (a : Nat)
  deriving DecidableEq, Repr

/-- The live slots in slot order, each tried in the state that those below it leave: a slot that is due to stall, a slot whose
L read meets an uncorrectable granule, or neither before the first trap (R34, R330). (DEDUCED, log entry 53.) -/
def tryE : Nat → State → Check
  | 0, _ => .go
  | fuel + 1, s =>
    let n := s.iss.slot
    if !s.iss.act || 10 ≤ n then .go
    else if !slotLive s.iss.bundle n s.iss.leaf.toNat then tryE fuel (nextSlot s)
    else match slotHolds s.iss.bundle n with
      | .noop => tryE fuel (nextSlot s)
      | .reserved => .go
      | .ins i => match slotRun i s with
        | .next t =>
          if t.iss.act && t.iss.slot == n then .stall i
          else match (if t.iss.act then badRead (me s) (slotReads s i) else none) with
            | some g => .ecc g
            | none => tryE fuel t
        | _ => .go

/-- The page that a stalled slot needs before its meaning can be told: virtual address, page, kind and level. -/
def pageWanted (s : State) (i : Instr) : Option (Nat × Nat × Bool × Nat × Bool) :=
  let grp := fun (a : BitVec 6) => match xlMe s (srcS s a).toNat true with
    | .miss ipa tbl lvl => if decide ((me s).group = some (srcS s a).toNat) then some ((srcS s a).toNat, ipa, tbl, lvl, true) else none
    | _ => none
  match i with
  | .pancfg o =>
    let d := panDesc (panBlock s (srcS s o.a).toNat)
    match pagesGo s (panPages d.base d.size) [] with
    | .ask ipa tbl lvl va => some (va, ipa, tbl, lvl, true) | _ => none
  | .leave o => grp o.a
  | .bar o => grp o.a
  | _ => none

/-- A trap before any slot of the next unit commits (R24, R36, R200, R330): SLOT 0, and the unit's remaining count. A unit that
an RTE resumes keeps its slot, leaf, count and latch where its own decoding is not at fault (R321). -/
def trapBefore (c : CoreId) (t : TrapInfo) (keepSlot : Bool) (s : State) : State :=
  let k := cr s c
  let u := match follows k with | some f => f.unit | none => k.pc
  if k.resume && keepSlot then trapCore c ⟨{ t with slot := k.slot.toNat }, u, k.leaf, k.repc, k.latch⟩ s
  else trapCore c ⟨t, u, 0, leftAt k, []⟩ s

/-- A stalled bundle changes nothing but the page requests that it needs; a request that has failed traps (R200, R235). -/
def stallAsk (c : CoreId) (t : State) (i : Instr) (s : State) : State :=
  match pageWanted t i, partOf s c with
  | some (va, ipa, tbl, lvl, wr), some p =>
    if (cr s c).asks.contains (ipa / 65536, true) then trapBefore c ⟨cXlateS2, 0, some (false, va), 0, none, none⟩ true s
    else if (cr s c).asks.contains (ipa / 65536, false) then s
    else modCr (pageMiss s c p ipa va tbl lvl wr).1 c (fun k => { k with asks := k.asks ++ [(ipa / 65536, false)] })
  | _, _ => s

/-- The registers with the values that the resume latch holds (R320). -/
def latched (l : List LatchE) (k : Core) : Core :=
  l.foldl (fun k e => match e with
    | .s n x => k.setS n ⟨x, true⟩
    | .p n x => k.setP n x
    | .b n x => k.setB n x
    | .v n x t => k.setV n ⟨x, t, true⟩
    | .m n x => k.setM n x
    | .z n x => k.setZ n x
    | .c _ _ => k) k
def latchedCtl (l : List LatchE) (ctl : List (BitVec 10 × W64)) : List (BitVec 10 × W64) :=
  ctl.map (fun e => (e.1, (l.findSome? (fun x => match x with | .c n v => if n = e.1 then some v else none | _ => none)).getD e.2))

/-- The state in which the slots of a unit commit (R29, R30): what every slot reads is fixed here. -/
def openIssue (c : CoreId) (u : CAddr) (b : Bundle) (len : Nat) (s : State) : State :=
  let k := cr s c
  let fol := follows k
  let b := if k.further then withoutB b else if fol.isSome then memberB b else b
  let regs := (if k.resume then latched k.latch k else k).regs
  let ctl := ctlAll (setCr s c { k with left := leftAt k, slot := if k.h then k.slot else 15, leaf := if k.h then k.leaf else 0 }) c
  let i : Issue := { Issue.reset with
    act := true, core := c, unit := u, len := len, bundle := b
    slot := if k.resume then (if k.slot = 15 then 10 else k.slot.toNat) else 0
    leaf := if k.resume then k.leaf else match fol with | some f => f.leaf | none => leafOf regs b
    regs := regs, l := k.l, ctl := if k.resume then latchedCtl k.latch ctl else ctl
    t := s.now, seq0 := k.seq, skip := if k.resume && k.wskip && k.slot ≠ 15 then some k.slot.toNat else none, resumed := k.resume, handler := k.h
    mates := matesOf s c, fol := fol.isSome
    stop := if k.resume then k.keptStop else .none }
  let k := { k with left := leftAt k, slot := if k.resume then 15 else k.slot, leaf := if k.resume then 0 else k.leaf }
  { setCr s c k with iss := i }

/-- What issue settles in the core once the bundle does issue. -/
def enterIssue (c : CoreId) (s : State) : State :=
  modCr s c (fun k => { k with
    resume := false, wskip := if k.resume then false else k.wskip, lbase := if k.resume then 0 else k.lbase
    keptStop := if k.resume then .none else k.keptStop })

/-- The computed results of a core that are due land: each is in its register the stated number of cycles after its issue (R72, R147,
R176; DEDUCED, log entry 105). -/
def landDue (c : CoreId) (s : State) : State :=
  let due := fun (p : Pend) => decide (p.kind = .calc) && decide (p.due ≤ s.now)
  modCr s c (fun k => (k.pend.filter due).foldl (fun k p => fillRegs k p p.dst true) { k with pend := k.pend.filter (fun p => !due p) })

/-- A stalled bundle waits for the reply of a page request (R235). -/
def asksPage (k : Core) : Bool := k.asks.any (fun a => !a.2)
/-- The next unit of a core would stall at its issue (R34, R63). -/
def unitStalls (s : State) (c : CoreId) : Bool :=
  if asksPage (cr s c) then true
  else match nextUnitOf (cr s c) with
  | none => false
  | some (u, b, len) =>
    if collides b then false
    else
      let t := openIssue c u b len (landDue c s)
      waitsSource t || requestsFull t || (match tryE 11 t with | .stall _ => true | _ => false)
/-- A member of a gang is due in this cycle and cannot issue (R63): the lead in a PHASE, in a branch's stall cycles or at a unit
that stalls, another member at a unit that stalls. -/
def memberStalls (s : State) (d : CoreId) : Bool :=
  let k := cr s d
  if k.h || !k.running then false
  else
    let due := match k.follow with | f :: _ => decide (f.t ≤ s.now) | [] => leads s d && decide (k.last ≤ s.now)
    due && (match k.wait with
      | .phase _ _ _ => true
      | .none => decide (s.now < k.busy) || unitStalls s d
      | _ => false)
/-- When a core may issue in its gang: the lead at its own pace, a member at the time that the lead's bundle gives it, and
neither while a member of the gang stalls (R62, R63; DEDUCED, log entry 26). -/
def gangTurn (s : State) (c : CoreId) : Bool :=
  let k := cr s c
  if k.h then true
  else (match k.follow with
      | f :: _ => decide (f.t ≤ s.now)
      | [] => !k.lock || leads s c) && !(gangMates s c).any (memberStalls s)
/-- A gang is held in the cycle that ends: a member is in a handler, one that was due has not issued, or the lead stalls (R63). -/
def gangHeld (s : State) (c : CoreId) : Bool :=
  (c :: gangMates s c).any (fun d =>
    let k := cr s d
    freezes s k || (match k.follow with | f :: _ => decide (f.t ≤ s.now) | [] => leads s d && memberStalls s d))
/-- In a cycle in which a gang is held, the times of its members move on by one (R63). -/
def shiftGangs (s : State) : State :=
  (coreIds.filter (fun c => ((cr s c).lock || !(cr s c).follow.isEmpty) && gangHeld s c)).foldl (fun t c =>
    modCr t c (fun k =>
      let n := (leads s c && !freezes s k).toNat
      { k with follow := k.follow.map (fun f => { f with t := f.t + 1 }), last := k.last + n, busy := k.busy + n })) s

/-- The core decodes its next unit, checks it, and issues it when nothing it waits for is outstanding (R24, R34, R36). -/
def issueUnit (c : CoreId) (s : State) : State :=
  let k := cr s c
  let whole := k.resume && k.slot == 15
  if asksPage k then s
  else match nextUnitOf k with
  | none =>
    if whole then enterIssue c (openIssue c k.pc 0 (unitLen k.code k.pc.toNat) s)
    else trapBefore c ⟨cIllegalCode, 0, none, 0, none, none⟩ false s
  | some (u, b, len) =>
    if collides b && !whole then trapBefore c ⟨cIllegalSchedule, 0, none, 0, none, none⟩ false s
    else
      let t := openIssue c u b len s
      if waitsSource t || requestsFull t then s
      else match tryE 11 t with
        | .stall i => stallAsk c t i s
        | .ecc a => trapBefore c ⟨cEcc, 0, some (true, a), 0, none, none⟩ true (foundL c s)
        | .go => enterIssue c t

/-! The end of a bundle (R25, R57, R88, R321). -/

/-- Something asks the task to stop at a safe point: Delta, a teardown, or a checkpoint (R111, R113, R305). -/
def askedStop (s : State) (c : CoreId) : Bool :=
  match partOf s c with
  | none => false
  | some p => (cr s c).yieldReq || (queueOf s p (queueOfCore s p c)).tearing || ckptSave s p c

/-- The b registers grow older by a bundle (R79). -/
def olderB (k : Core) : Core := { k with regs := { k.regs with age := k.regs.age.map (fun a => if a = 3 then 3 else a + 1) } }
/-- The core has issued at a cycle, and issues no other unit in it or in a branch's stall cycles (R33, R79); a PHASE begins to await its
acknowledgements (R223). -/
def issuedAt (t bubble us : Nat) (k : Core) : Core := { k with last := t + 1, busy := t + 1 + bubble, phaseAt := us }
/-- The counts of bundle executions of the last 64 µs with one more (R303). -/
def countRun (us : Nat) (c : CoreId) (q : BitVec 6) (l : List (Nat × CoreId × BitVec 6 × Nat)) : List (Nat × CoreId × BitVec 6 × Nat) :=
  let same := fun (x : Nat × CoreId × BitVec 6 × Nat) => decide (x.1 = us) && x.2.1 == c && x.2.2.1 == q
  (us, c, q, ((l.find? same).map (fun x => x.2.2.2)).getD 0 + 1) :: l.filter (fun x => decide (us < x.1 + 64) && !same x)
/-- A completed execution counts once: in the task, and for the rates of its core and queue (R54, R303). -/
def countExec (c : CoreId) (s : State) : State :=
  modCr { s with runs := countRun s.us c (queueOfCore s ((partOf s c).getD 0) c) s.runs } c Core.counted

/-- The core's turn in the round of the cores is over (DESIGN CHOICE, log entry 3). -/
def endTurn (c : CoreId) (s : State) : State := { s with rr := c.val + 1 }

/-- The lead hands a completed execution to the other members (R62). -/
def handOn (i : Issue) (lead : Core) (left : BitVec 8) (next : CAddr) (save : Bool) (s : State) : State :=
  i.mates.foldl (fun s d => modCr s d.1 (fun k => { k with
    follow := k.follow ++ [⟨i.unit, i.bundle, i.len, i.leaf, i.t + d.2, left, lead.regs.b, lead.loops, lead.regs.age, next, save,
      !lead.lock⟩] })) s

/-- The wait ends the task or saves it in its SUSPEND. -/
def Wait.leaves : Wait → Bool
  | .halt => true
  | .save _ _ _ y => !y
  | .bar _ n => n.leaves
  | .arrive _ n => n.leaves
  | .phase _ _ n => n.leaves
  | _ => false

/-- The safe bundle of a queue that is torn down ends its task ABORTED without a save (R113). -/
def tornDown (s : State) (c : CoreId) : Bool :=
  match partOf s c with
  | none => false
  | some p => (queueOf s p (queueOfCore s p c)).tearing

/-- No bundle is committing any more. -/
def shutUnit (s : State) : State :=
  endTurn s.iss.core (modCr { s with iss := Issue.reset } s.iss.core (fun k => issuedAt s.iss.t s.iss.bubble s.us (olderB { k with asks := [] })))
/-- The execution of the bundle counts, and no bundle is committing. -/
def closeUnit (s : State) : State := countExec s.iss.core (shutUnit s)
/-- A resumed bundle has used its latch, and a member has taken its turn from the lead. -/
def settledUnit (i : Issue) (k : Core) : Core :=
  let k := if i.resumed then { k with latch := [], slot := 15, leaf := 0 } else k
  if i.fol then { k with follow := k.follow.tail, lock := k.lock && !(k.follow.head?.any (fun f => f.ends)) } else k
/-- A member's target registers and loop levels are the lead's (R94). -/
def asLead (fol : Option Follow) (k : Core) : Core :=
  match fol with
  | some f => { k with regs := { k.regs with b := f.b, age := f.age }, loops := f.loops }
  | none => k
/-- The unit at which a wait's save resumes its task, and the wait with another (R94). -/
def Wait.resumeAt : Wait → Option CAddr
  | .save _ r _ _ => some r
  | .bar _ n => n.resumeAt
  | .arrive _ n => n.resumeAt
  | .phase _ _ n => n.resumeAt
  | _ => Option.none
def Wait.setResume (a : CAddr) : Wait → Wait
  | .save u _ t y => .save u a t y
  | .bar g n => .bar g (n.setResume a)
  | .arrive g n => .arrive g (n.setResume a)
  | .phase sc ids n => .phase sc ids (n.setResume a)
  | w => w
/-- HALT or SUSPEND: the B slot waits, and a failure in the wait traps at slot 9 (R357). The execution counts when the wait is over. A
member resumes where its lead does (R94). -/
def stayUnit (i : Issue) (fol : Option Follow) (latch9 : List LatchE) (k : Core) (s : State) : State :=
  let k := asLead fol (if k.h then k else { k with latch := latch9, leaf := i.leaf })
  let stop := match fol with | some f => i.stop.setResume f.next | none => i.stop
  handOn i k k.left (stop.resumeAt.getD i.unit) false (setCr s i.core { k with wait := stop, pc := i.unit })
/-- REPEAT: the unit executes again (R25). -/
def againUnit (i : Issue) (k : Core) (s : State) : State :=
  let k := { k with
    left := k.left - 1, further := true, pc := i.unit, wait := i.stop
    nextUnit := if i.redirected then i.redirect else k.nextUnit }
  handOn i k (k.left + 1) i.unit false (setCr s i.core k)
/-- Where the core goes on, and the core then: where the lead went, to the unit that the bundle has chosen, or by the end test (R31, R88). -/
def goesTo (i : Issue) (fol : Option Follow) (k : Core) : CAddr × Core :=
  match fol with
  | some f => (f.next, asLead fol k)
  | none => match (if i.redirected then i.redirect else k.nextUnit) with
    | some a => (a, k)
    | none => endTest i.unit (i.unit + BitVec.ofNat 24 i.len) 5 k
/-- The bundle is a safe point of the task (R57). -/
def safePoint (i : Issue) (k : Core) : Bool := bundleSafe i.bundle && !k.h && !i.handler && k.left = 0
/-- The task is saved at its safe point: a member with its lead, another when Delta, a teardown or a checkpoint asks (R62, R111). -/
def savesHere (i : Issue) (fol : Option Follow) (k : Core) (s : State) : Bool :=
  safePoint i k && (match fol with
    | some f => f.save
    | none => askedStop s i.core || i.mates.any (fun d => askedStop s d.1))
/-- The core as its next unit finds it. -/
def goneOn (i : Issue) (k : Core) (e : CAddr × Core) (save : Bool) : Core :=
  { e.2 with
    pc := e.1, pfx := none, left := 0, further := k.resume && k.further, nextUnit := if k.resume then k.nextUnit else none
    since := if safePoint i k then 0 else k.since
    wait := if save then i.stop.andThen (.save i.unit e.1 false true) else i.stop }
/-- The unit is over: the next one, or the save, is settled. -/
def onUnit (i : Issue) (fol : Option Follow) (k : Core) (s : State) : State :=
  let e := goesTo i fol k
  let save := savesHere i fol k s
  let n := goneOn i k e save
  let s := handOn i n 0 e.1 save (setCr s i.core n)
  if save && tornDown s i.core && n.wait = .save i.unit e.1 false true then stopTask i.core stAborted s else s

/-- A bundle has committed its last slot: the execution counts, REPEAT goes on, the end test runs, and the next unit, or what
the core waits for, is settled. -/
def finishUnit (s : State) : State :=
  let fol := if s.iss.fol then (cr s s.iss.core).follow.head? else none
  if s.iss.stop.leaves then stayUnit s.iss fol (buildLatch s 9) (settledUnit s.iss (cr (shutUnit s) s.iss.core)) (shutUnit s)
  else
    let k := settledUnit s.iss (cr (closeUnit s) s.iss.core)
    if k.left ≠ 0 && fol.isNone then againUnit s.iss k (closeUnit s)
    else onUnit s.iss fol k (closeUnit s)

/-! The steps of a core that waits (R84, R85, R93, R222, R314). -/

/-- The arrival at a barrier (R93): the bundle's own writes have been performed, the core's writes are published at gang scope,
and the ARRIVED bit is set; the barrier may complete at once (DEDUCED, log entry 51). Where the record has come not to translate, the
task goes on without arriving (DESIGN CHOICE, log entry 98). -/
def arriveStep (c : CoreId) (g : Nat) (next : Wait) (s : State) : State :=
  let k := cr s c
  if !k.posts.isEmpty || k.pend.any (fun q => q.kind.isAmo) then s
  else match partOf s c with
    | none => s
    | some p =>
      if k.group ≠ some g then modCr s c (fun k => { k with wait := next })
      else match xlate s p g true with
        | .ok loc =>
          let s := (publishFwd s c 1).1
          let w := grpWord s loc
          let i := k.member.toNat
          let s := poke s loc 8 (if bitAt w (16 + i) then w else w + 2 ^ (16 + i))
          barrierCheck p g loc (modCr s c (fun k => { k with wait := .bar g next }))
        | .miss ipa tbl lvl => (pageMiss s c p ipa g tbl lvl true).1
        | _ => modCr s c (fun k => { k with wait := next })

/-- A wait that ends a bundle in its B slot is over once the core has gone from it: its execution counts (R54, R357). -/
def countWait (c : CoreId) (w : Wait) (s : State) : State :=
  match w, (cr s c).wait with
  | .halt, .haltAck _ => countExec c s
  | .save _ _ _ false, .saveAck _ _ _ _ _ => countExec c s
  | _, _ => s
/-- The time within which an acknowledgement must come, in µs (R277). -/
def linkAck (s : State) (p : PartId) : Nat := bits (vf s (pt s p).vf).linktmo.toNat 32 32
/-- LINK_TIMEOUT (R223, R277): the acknowledgements of a PHASE have
not arrived within LINKTMO.ACK (DEDUCED, log entry 59). The core traps before its next unit, and the wait goes on after RTE; in handler mode the event is held
(R322). -/
def linkTimeoutStep (c : CoreId) (s : State) : State :=
  let k := cr s c
  let t : TrapInfo := ⟨cLinkTimeout, 0, none, 0, none, none⟩
  match k.wait with
  | .phase _ ids _ =>
    if !k.running || acked s ids || k.failed.contains t || s.us < k.phaseAt + linkAck s ((partOf s c).getD 0) || s.fatal || s.dead then s
    else if k.h then failLane c t s
    else trapBefore c t true (modCr s c (fun k => { k with kept := k.wait, wait := .none }))
  | _ => s
def execLinkTimeout (c : CoreId) (s : State) : Out := .next (linkTimeoutStep c s)

/-- One step of a wait. A save of a queue that is torn down ends its task ABORTED, with nothing saved (R113). -/
def waitStep (c : CoreId) (s : State) : State :=
  match (cr s c).wait with
  | .none => s
  | .halt => countWait c .halt (haltStep c s)
  | .haltAck ids => haltAckStep c ids s
  | .save u r t y =>
    if tornDown s c then stopTask c stAborted (if y then s else countExec c s) else countWait c (.save u r t y) (saveStep c u r t y s)
  | .saveAck u r t _ ids => if tornDown s c then stopTask c stAborted s else saveAckStep c u r t ids s
  | .bar _ _ => s
  | .arrive g n => arriveStep c g n s
  | .phase sc ids n =>
    if acked s ids then modCr (refresh s c sc.toNat) c (fun k => { k with wait := n }) else linkTimeoutStep c s

/-- The core's partition is past the cut of its deadline: issue stops at the bundle boundary (R304, R309). -/
def cutOff (s : State) (c : CoreId) : Bool := match partOf s c with | some p => cutPast s p | none => false
/-- A core may take its next unit: it runs, waits for nothing, reports nothing first, and its gang, the clock and the Sluice let it. -/
def mayIssue (s : State) (c : CoreId) : Bool :=
  let k := cr s c
  k.running && k.wait == .none && k.pendTrap.isNone && (k.h || k.failed.isEmpty) && gangTurn s c && !frozen s c && !cutOff s c &&
    decide (s.stallFor ≤ s.now) && decide (k.busy ≤ s.now) && !s.fatal && !s.dead

/-- BUNDLE_ISSUE (R34): the core decodes, checks and issues its next unit; after the unit's slots it closes the bundle, or a
reserved encoding in a live slot traps (R39). A core that waits takes the next step of its wait, and a trap whose results have
landed is entered. -/
def issueStep (c : CoreId) (s : State) : State :=
  if s.iss.act then
    if s.iss.core ≠ c then s
    else if s.iss.slot < 10 then
      match slotHolds s.iss.bundle s.iss.slot with
      | .reserved => if slotLive s.iss.bundle s.iss.slot s.iss.leaf.toNat then takeTrap (trapPlain s cIllegalCode) s else s
      | _ => s
    else finishUnit s
  else if s.fatal || s.dead || !(cr s c).running || cutOff s c then s
  else if (cr s c).badCore then coreUncorrectable c 2 0 (modCr s c (fun k => { k with badCore := false }))
  else match (cr s c).pendTrap with
    | some h => if trapReady (cr s c) then enterTrap c h s else s
    | none =>
      if (cr s c).wait ≠ .none then
        (if (cr s c).h || (cr s c).failed.isEmpty || !(cr s c).wait.leaves then waitStep c s else s)
      else if !mayIssue s c || needsPrefix (cr s c) then s
      else issueUnit c (landDue c s)
def execBundleIssue (c : CoreId) (s : State) : Out := .next (issueStep c s)

/-! REPEAT (R19, R25). -/

/-- The cores in turn, from the one after the last that completed a bundle, then those before it. -/
def rotation (s : State) : List CoreId := coreIds.filter (fun c => decide (s.rr ≤ c.val)) ++ coreIds.filter (fun c => decide (c.val < s.rr))
/-- The core whose next halfword is the prefix with this count. -/
def prefixCore (s : State) (n : BitVec 8) : Option CoreId :=
  (rotation s).find? (fun c => mayIssue s c && needsPrefix (cr s c) && prefixAt (cr s c) (cr s c).pc == some n)
/-- REPEAT decodes the prefix of its unit: the bundle that follows executes n + 1 times; an illegal unit traps (R24). -/
def execRepeat (o : RepF) (s : State) : Out :=
  if s.iss.act then .next s
  else match prefixCore s o.n with
    | none => .next s
    | some c =>
      if (nextUnitOf (cr s c)).isNone then .next (trapBefore c ⟨cIllegalCode, 0, none, 0, none, none⟩ false s)
      else .next (modCr s c (fun k => { k with pfx := some o.n, left := o.n }))

end Sys2Proof.Machine
end

