-- ==== Sys2Proof/Machine/Events.lean ====
section
/-! DEFINITION. Events of the cores and of memory: results that land, posted operations and samples that are performed, page
requests and replies, timeouts, and the calendars of refresh (R33, R91, R108, R111, R167, R199, R200, R211 to R214, R223,
R236, R243, R249 to R252, R268, R293 to R295, R330, R340, R341). -/
namespace Sys2Proof.Machine

/-! Results that land (R33, R199). -/

/-- The uncorrectable granule of the first lane that touches one: the lane, the granule's virtual address and its location (R330). -/
def badLane (s : State) : List Lane → Option (Lane × Nat × Nat)
  | [] => none
  | l :: r => match l.loc.bind (fun x => (badColumn s x l.len).map (fun g => (l.va - (x - g), g))) with
    | some a => some (l, a)
    | none => badLane s r
/-- A lane of a pending access fails: it stays waiting, and the core traps before its next unit (R200, R330). -/
def failPend (c : CoreId) (n : Nat) (l : Lane) (cause : BitVec 8) (a : Nat) (s : State) : State :=
  modCr (failLane c ⟨cause, 0, some (false, a), 0, l.shown, none⟩ s) c (fun k => { k with
    pend := k.pend.modify n (fun q => { q with lanes := q.lanes.map (fun x => if x = l then { x with st := .failed cause } else x) }) })
/-- An access that meets an uncorrectable granule: the lane, and the granule's addresses (R330). -/
def eccPend (c : CoreId) (n : Nat) (x : Lane × Nat × Nat) (s : State) : State := failPend c n x.1 cEcc x.2.1 (foundG x.2.2 s)

/-- The value of a load whose lanes have their bytes (R202, R207). -/
def loadValue (q : Pend) (scalar signed : Bool) : BitVec 4096 :=
  if scalar then
    match q.lanes with
    | l :: _ => (extend l.len (!signed) (ofBytes (l.data.getD []))).setWidth 4096
    | [] => q.val
  else q.lanes.foldl (fun v l => setElem v 32 l.i (BitVec.ofNat 32 (ofBytes (l.data.getD [])))) q.val

/-- The core's own earlier stores to the bytes of some lanes are performed first (R212, R251). -/
def flushLanes (c : CoreId) (seq : Nat) (ls : List Lane) (s : State) : State :=
  ls.foldl (fun s l => match l.loc with | some x => flushOwn s c seq x l.len | none => s) s
/-- An AMO is performed on memory and its old word lands (R211, R212). (DEDUCED, log entry 9.) -/
def landAmo (c : CoreId) (n : Nat) (q : Pend) (fn : BitVec 4) (wide : Bool) (v e : W64) (loc : Nat) (s : State) : State :=
  let w := amoBytes wide
  let x := s.mem.rdN loc w
  let y := amoNew fn.toNat (8 * w) x (v.toNat % 2 ^ (8 * w)) (e.toNat % 2 ^ (8 * w))
  let ws := (upto w).map (fun i => (loc + i, (bytesOf w y).getD i 0))
  landPend c n { q with val := BitVec.ofNat 4096 x } (memOwn c q.seq ws (directFwd (.core c) s c ws))

/-- A ROWLD reads its row in one act from memory (R250). -/
def landRowld (c : CoreId) (n : Nat) (q : Pend) (s : State) : State :=
  let x := ofBytes (q.lanes.flatMap (fun l => match l.loc with | some x => s.mem.rdBytes x l.len | none => []))
  landPend c n { q with val := BitVec.ofNat 4096 x } s

/-- A value that the manual leaves open: bytes numbered by the state's counter, which the use advances. (DESIGN CHOICE, log entry 88.) -/
def freeValue (n : Nat) (s : State) : State × Nat :=
  ({ s with free := s.free + 1 }, ofBytes ((upto n).map (Config.freeByte s.free)))

/-- The member that a lane of a tap reaches in a region, found from where the lane lies (R283). -/
def laneMemb (r : Region) (l : Lane) : Option Nat := l.loc.bind (fun x => (offOfLoc r.locs 0 x).map (· / (panDesc r.desc).msize))
/-- The first lane of a tap that lies in no member of the region, or in another member of a row (R239, R283). -/
def strayLane (r : Region) (ls : List Lane) : Option Lane :=
  ls.find? (fun l => match laneMemb r l with
    | none => true
    | some m => (panDesc r.desc).row && !((ls.head?).bind (laneMemb r) == some m))
/-- The members that the lanes of a tap reach. -/
def lanesMembs (r : Region) (ls : List Lane) : List Nat :=
  if (panDesc r.desc).row then (((ls.head?).bind (laneMemb r)).toList) else ls.filterMap (laneMemb r)
/-- The granule of the first member that an uncorrectable one stopped (R330): its lane and its virtual address. -/
def stoppedLane (r : Region) (ls : List Lane) : Option (Lane × Nat) :=
  (ls.find? (fun l => (laneMemb r l).any (fun m => (membOf r m).bad))).map (fun l => (l, l.va / 32 * 32))

/-- The registers of a tap of a region: a row of more than 256 bytes takes a pair (R239, R355). -/
def tapRegs (d : PanD) (vec : Bool) : List RegId → List RegId
  | .v n :: r => if vec && d.long then .v n :: .v (vNext n) :: r else .v n :: r
  | l => l
/-- The cause for which a tap traps once its base's region is known (R239), with the first member. -/
def tapCheck (d : PanD) (kind : Nat) (tap : BitVec 2) (vec : Bool) (dst : List RegId) (off : Nat) (i : Int) : BitVec 8 :=
  let m := (off / d.msize : Nat) + i
  if tapCfg kind tap vec d || (vec && d.long && dst.any (fun r => match r with | .v n => n.toNat % 2 == 1 | _ => false)) then cPanConfig
  else if off % d.msize ≠ 0 then cAlign
  else if m < 0 || (d.nmem : Int) < m + ((tapMembs d vec 0).length : Int) then cAccess else 0
/-- The base of a tap whose region was not known at issue has translated: the region is found where it lies, the checks of R239 are made,
and the lanes of the members walk (R198, R283). -/
def tapFind (c : CoreId) (n : Nat) (q : Pend) (kind : Nat) (tap : BitVec 2) (vec : Bool) (i : Int) (l : Lane) (s : State) : State :=
  match partOf s c, l.loc.bind (regionAt s) with
  | some p, some r =>
    let d := panDesc r.desc
    let off := (l.loc.bind (offOfLoc r.locs 0)).getD 0
    let cause := tapCheck d kind tap vec q.dst off i
    if cause ≠ 0 then failPend c n l cause l.va s
    else
      let m := ((off / d.msize : Nat) + i).toNat
      let va := l.va + m * d.msize - off
      let ls := if d.row then (upto (d.msize / 32)).map (fun j => (⟨j, false, va + 32 * j, 32, .failed 0, none⟩ : Lane))
        else (upto (tapMembs d vec m).length).map (fun j => ⟨j, false, va + 4 * j, 4, .failed 0, none⟩)
      let x := rewalkLanes c p false none (fun _ => true) ls s
      let dst := tapRegs d vec q.dst
      let t := if vec then tapTag d (if kind = 2 then 0 else tap) else 0
      modCr x.1 c (fun k =>
        let k := dst.foldl (fun k g => match g with | .v n => k.setV n ⟨(rdV k.regs n).bits, t, false⟩ | _ => k) k
        { k with pend := k.pend.modify n (fun q => { q with kind := .tap kind tap vec r.id m, dst := dst, lanes := x.2 }) })
  | _, _ => failPend c n l cAccess l.va s

/-- A tap read is performed at its members (R240 to R247); a member that an uncorrectable granule stopped traps (R330). A region
that has been released since gives open values (DESIGN CHOICE, log entry 10). -/
def landTap (c : CoreId) (n : Nat) (q : Pend) (kind : Nat) (tap : BitVec 2) (vec : Bool) (region mem : Nat) (s : State) : State :=
  if region = 0 then (match q.lanes with | l :: _ => tapFind c n q kind tap vec (sInt 64 mem) l s | [] => s)
  else match regionOf s region with
  | none =>
    let x := freeValue 512 s
    let y := freeValue 8 x.1
    landPend c n { q with val := BitVec.ofNat 4096 x.2, val2 := w64 y.2 } y.1
  | some r =>
    match strayLane r q.lanes with
    | some l => failPend c n l cAccess l.va s
    | none => match stoppedLane r q.lanes with
      | some (l, a) => failPend c n l cEcc a s
      | none =>
        let ms := lanesMembs r q.lanes
        let t := tapOf r kind tap vec ms
        landPend c n { q with val := BitVec.ofNat 4096 t.1, val2 := w64 t.2 } (if kind = 2 then countStale c r ms s else s)

/-- A group record's reserved fields (R61). -/
def grpReserved (s : State) (loc : Nat) : Bool :=
  bits (s.mem.rdN (loc + 8) 8) 5 59 ≠ 0 || s.mem.rdN (loc + 16) 48 ≠ 0
/-- The lowest member index that is free (R61). -/
def freeMember (w : Nat) : Nat := ((upto 16).find? (fun i => !bitAt w i)).getD 0

/-- A JOIN reaches its record (R91). -/
def landJoin (c : CoreId) (n : Nat) (q : Pend) (a loc : Nat) (s : State) : State :=
  let k := cr s c
  let w := grpWord s loc
  let cap := bits (s.mem.rdN (loc + 8) 8) 1 4 + 1
  let answer := fun (x : Int) (s : State) => landPend c n { q with val := (BitVec.ofInt 64 x).setWidth 4096 } s
  if k.group.isSome then answer (-2) s
  else if grpReserved s loc then answer (-3) s
  else if cap ≤ (onBits 16 w).length then answer (-1) s
  else
    let i := freeMember w
    let s := poke s loc 8 (w + 2 ^ i - (if bitAt w (16 + i) then 2 ^ (16 + i) else 0))
    let s := modCr s c (fun k => { k with group := some a, member := BitVec.ofNat 4 i })
    let s := match partOf s c with
      | some p => recPut p k.rec_ 0x18 48 16 a (recPut p k.rec_ 0x18 44 4 i s)
      | none => s
    answer i s

/-- A load takes what bytes it still can, and lands once it has them all (R33, R199). -/
def landLoad (c : CoreId) (n : Nat) (q : Pend) (scalar signed : Bool) (s : State) : State :=
  let x := captureLanes c q.seq q.lanes s
  if x.2.all (fun l => l.data.isSome) then landPend c n { q with val := loadValue { q with lanes := x.2 } scalar signed } x.1
  else modCr x.1 c (fun k => { k with pend := k.pend.modify n (fun q => { q with lanes := x.2 }) })
/-- RESULT_LANDS (R33): the long-latency result n of the core lands once it is due and all its lanes are there. Operations on
memory are performed then, in the core's program order where their bytes meet (DESIGN CHOICE, log entry 10). (DESIGN CHOICE, log entry 89.) -/
def landStep (c : CoreId) (n : Nat) (s : State) : State :=
  match (cr s c).pend[n]? with
  | none => s
  | some q =>
    if s.now < q.due || s.fatal || s.dead then s
    else match q.kind with
      | .calc => landPend c n q s
      | .load scalar signed _ => landLoad c n q scalar signed s
      | k =>
        if !q.lanes.all Lane.isReady || earlierHit (cr s c) q.seq q.lanes then s
        else
          let s := match k with | .amo _ _ _ _ => flushLanes c q.seq q.lanes s | .rowld _ => flushLanes c q.seq q.lanes s | _ => s
          match badLane s q.lanes with
          | some x => eccPend c n x s
          | none =>
            match k, q.lanes with
            | .amo fn wide v e, l :: _ => landAmo c n q fn wide v e (l.loc.getD 0) s
            | .rowld _, _ => landRowld c n q s
            | .tap kind tap vec region mem, _ => landTap c n q kind tap vec region mem s
            | .join a, l :: _ => landJoin c n q a (l.loc.getD 0) s
            | _, _ => s
def execResultLands (c : CoreId) (n : Nat) (s : State) : Out := .next (landStep c n s)

/-! Posted operations (R213, R214, R238, R249, R266). -/

/-- Sets Rill flags of a core's partition (R252): OVF, UNF, INV in bits 0 to 2, MIXOP in bit 3. -/
def rillFlag (c : CoreId) (f : BitVec 5) (s : State) : State :=
  match vfOf s c with | some v => modVf s v (fun k => { k with rillflags := k.rillflags ||| f }) | none => s
def rillBits (r : Rounded) : BitVec 5 := (if r.ovf then 1 else 0) ||| (if r.unf then 2 else 0) ||| (if r.inv then 4 else 0)
/-- The element operation at a location: the new bytes and the flags (R213). -/
def rillAt (s : State) (tag op loc v : Nat) : List (Nat × Byte) × BitVec 5 :=
  let n := tagWidth tag / 8
  let r := rillElem tag op (s.mem.rdN loc n) (v % 2 ^ (8 * n))
  ((upto n).map (fun i => (loc + i, (bytesOf n r.code).getD i 0)), rillBits r)
/-- Takes a post off its core's list. -/
def dropPost (c : CoreId) (n : Nat) (s : State) : State := modCr s c (fun k => { k with posts := k.posts.eraseIdx n })
/-- Another RADD of a different operator or format to the word waits at the same Rill unit (R214). (DEDUCED, log entry 50.) -/
def mixedOp (s : State) (c : CoreId) (n : Nat) (fmt : Tag) (op : BitVec 3) (loc : Nat) : Bool :=
  coreIds.any (fun d => ((cr s d).posts.zip (upto (cr s d).posts.length)).any (fun o =>
    !(d == c && o.2 == n) && (match o.1.kind with | .radd f p _ => f != fmt || p != op | _ => false) &&
      o.1.lanes.any (fun l => l.loc.any (fun x => x / 8 == loc / 8))))

/-- The bytes that a posted operation hands to a Rill unit at some lanes, the lowest first (R213, R249). -/
def rillBytes (k : OKind) (ls : List Lane) : List Byte :=
  match k with
  | .radd fmt _ v => bytesOf (raddBytes fmt) v.toNat
  | .rowadd _ v => ls.flatMap (fun l => bytesOf l.len (bits v.toNat (256 * l.i) 256))
  | _ => []
/-- The format and operator of a posted operation. -/
def rillCode : OKind → Nat × Nat
  | .radd fmt op _ => (fmt.toNat, op.toNat)
  | _ => (5, 0)
/-- The operation goes to the Rill unit of the module that holds the bytes, page by page (R213). -/
def sendRill (c : CoreId) (k : OKind) (ls : List Lane) (s : State) : State :=
  let far := ls.filter (fun l => l.loc.any locIsRemote)
  ((far.map (fun l => (l.loc.getD 0) / 65536)).eraseDups).foldl (fun s pg =>
    let here := far.filter (fun l => (l.loc.getD 0) / 65536 == pg)
    let x := ((here.head?).bind Lane.loc).getD 0
    let m : BitVec 16 := BitVec.ofNat 16 (locModule x)
    let f : FlowId := ⟨c.val, m, laneHash (x % 2 ^ 46)⟩
    sendFlit f (fun n => .rill f n (x % 2 ^ 46) (rillCode k).1 (rillCode k).2 (rillBytes k here) s.nextId)
      (awaitAck m ((partOf s c).getD 0) s)) s
/-- The elements that a posted operation leaves, and its flags: over what the memory holds here of them (R213, R249). -/
def rillWrites (s : State) (k : OKind) (ls : List Lane) : List (Nat × Byte) × BitVec 5 :=
  match k with
  | .radd fmt op v => rillAt s fmt.toNat op.toNat (((ls.head?).bind Lane.loc).getD 0) v.toNat
  | .rowadd len v =>
    let xs := ls.flatMap (fun l => (upto (l.len / 2)).map (fun e => rillAt s 5 0 (l.loc.getD 0 + 2 * e) (elem v 16 (16 * l.i + e)).toNat))
    ((xs.flatMap Prod.fst).take len, xs.foldl (fun f x => f ||| x.2) 0)
  | _ => ([], 0)
/-- A posted operation is performed: its elements are written in one act and stand in the core's own view, its flags are the partition's
whichever unit sets them (R213, R249, R252), and what lies in another module goes there. -/
def rillGo (c : CoreId) (n : Nat) (o : Post) (s : State) : State :=
  let a : Agent := match o.kind with | .rowadd _ _ => .row c | _ => .core c
  let x := rillWrites s o.kind o.lanes
  let s := memOwn c o.seq x.1 (pubDirectAs a s c x.1)
  let s := sendRill c o.kind o.lanes (forwardAll a ((partOf s c).getD 0) (x.1.filter (fun w => locIsLocal w.1)) s).1
  dropPost c n (rillFlag c x.2 s)

/-- RILL_COLUMN_COMMAND (R266): a Rill unit performs the posted RADD or ROWADD n of the core in one act; uncorrectable data
drops it and is logged (R330). (DESIGN CHOICE, log entry 57.) -/
def rillStep (c : CoreId) (n : Nat) (s : State) : State :=
  match (cr s c).posts[n]? with
  | none => s
  | some o =>
    if !(match o.kind with | .radd _ _ _ => true | .rowadd _ _ => true | _ => false) || !o.lanes.all Lane.isReady ||
        earlierHit (cr s c) o.seq o.lanes || s.fatal || s.dead then s
    else
      let s := flushLanes c o.seq o.lanes s
      match badLane s o.lanes with
      | some x =>
        let s := foundG x.2.2 s
        dropPost c n (match vfOf s c with | some v => errLog v 0 0 x.2.1 s | none => s)
      | none =>
        let s := match o.kind with
          | .radd fmt op _ => if mixedOp s c n fmt op (((o.lanes.head?).bind Lane.loc).getD 0) then rillFlag c 8 s else s
          | _ => s
        rillGo c n o s
def execRillColumnCommand (c : CoreId) (n : Nat) (s : State) : Out := .next (rillStep c n s)

/-! Samples (R185, R236, R248). -/

/-- The codes that one lane of a PSMP delivers: element number and code. -/
def laneCodes (d : PanD) (vec : Bool) (v : BitVec 4096) (i : Nat) : List (Nat × Nat) :=
  if d.row then (upto 16).map (fun e => (16 * i + e, (elem v 16 (16 * i + e)).toNat))
  else if vec then [(0, (elem v 32 i).toNat)] else [(0, v.toNat % 2 ^ 32)]

/-- A sample joins the intake that is open at its member's channel (R236). -/
def sampleElem (d : PanD) (intake : Nat) (k : Memb) (x : Nat × Nat) : Memb :=
  let y := sampleCode d x.2
  { k with els := k.els.modify x.1 (fun e => { e with slots := slotAdd intake y.1 e.slots, flags := e.flags ||| y.2 }) }

/-- Forwards a sample of a mirrored region with the number of its intake (R248). -/
def forwardSample (r : Region) (m intake : Nat) (d : PanD) (s : State) (x : Nat × Nat) : State :=
  match mirrorAt s r.part r.base with
  | none => s
  | some b =>
    let y := sampleCode d x.2
    sendMirror b (b.dpa + (r.base - b.base) + m * d.msize) (.sample Config.thisModule r.id m intake x.1 y.1 y.2) s

/-- Performs one translated lane of a PSMP (DEDUCED, log entry 60). One whose region has been released since it was posted is discarded,
which RILLFLAGS.DROP shows (R16, R252; DESIGN CHOICE, log entry 100). -/
def sampleLane (c : CoreId) (region mem : Nat) (vec : Bool) (v : BitVec 4096) (s : State) (l : Lane) : State :=
  match regionOf s region with
  | none => rillFlag c 16 s
  | some r =>
    let d := panDesc r.desc
    let m := if d.row then mem else mem + l.i
    match badLane s [l] with
    | some x =>
      let s := modRegion region (fun r => { r with membs := r.membs.modify m (fun k => { k with bad := true }) }) (foundG x.2.2 s)
      (match vfOf s c with | some f => errLog f 0 0 x.2.1 s | none => s)
    | none =>
      let intake := openIntake r (chanOf r m)
      let xs := laneCodes d vec v l.i
      let s := modRegion region (fun r => { r with membs := r.membs.modify m (fun k => xs.foldl (sampleElem d intake) k) }) s
      if r.mirror then xs.foldl (forwardSample r m intake d) s else s

/-- SAMPLE_PERFORMED (R236): the translated lanes of the posted PSMP n of the core are performed together, after the core's earlier
accesses to their members (R239); a row is one sample, and waits for all its columns. -/
def sampleStep (c : CoreId) (n : Nat) (s : State) : State :=
  match (cr s c).posts[n]? with
  | none => s
  | some o =>
    match o.kind with
    | .psmp vec region mem v =>
      let row := (regionOf s region).any (fun r => (panDesc r.desc).row)
      let go := if row && !o.lanes.all Lane.isReady then [] else o.lanes.filter Lane.isReady
      if go.isEmpty || earlierHit (cr s c) o.seq go || s.fatal || s.dead then s
      else
        let rest := o.lanes.filter (fun l => !l.isReady)
        let s := go.foldl (sampleLane c region mem vec v) s
        modCr s c (fun k => { k with
          posts := if rest.isEmpty then k.posts.eraseIdx n else k.posts.modify n (fun o => { o with lanes := rest }) })
    | _ => s
def execSamplePerformed (c : CoreId) (n : Nat) (s : State) : Out := .next (sampleStep c n s)

/-! Traps before the next unit (R200, R223, R357). -/

/-- DEFERRED_PAGE_TRAP (R200): the earliest failure is reported; the other failed lanes stay waiting, and RTE walks them again. A
core that waits in a HALT or a SUSPEND traps at slot 9, one that saves at a safe point at the unit it would resume at (R357), and one
whose own writes a BAR awaits before it goes on, which it does after the RTE (R93); in handler mode the event is held, except that no RTE
follows a HALT or a SUSPEND (R322, R357). -/
def deferredStep (c : CoreId) (s : State) : State :=
  let k := cr s c
  match k.failed with
  | [] => s
  | t :: r =>
    if !k.running || (s.iss.act && s.iss.core == c) || k.pendTrap.isSome || s.fatal || s.dead then s
    else
      let s1 := modCr s c (fun k => { k with failed := heldRest r })
      match k.wait with
      | .none => if k.h then s else trapBefore c t true s1
      | .arrive _ _ => if k.h then s else trapBefore c t true (modCr s1 c (fun k => { k with kept := k.wait, wait := .none }))
      | .halt =>
        if k.h then doubleTrap c t.cause k.pc s1
        else trapCore c ⟨{ t with slot := 9 }, k.pc, k.leaf, k.left, k.latch⟩ s1
      | .save u x _ yield =>
        if yield then trapCore c ⟨t, x, 0, (prefixAt k x).getD 0, []⟩ s1
        else if k.h then doubleTrap c t.cause u s1
        else trapCore c ⟨{ t with slot := 9 }, u, k.leaf, k.left, k.latch⟩ s1
      | _ => s
def execDeferredPageTrap (c : CoreId) (s : State) : Out := .next (deferredStep c s)

/-! Page requests (R293 to R295). -/

/-- PAGE_REQUEST_POST (R294): a miss that found no room in the queue enters it. -/
def execPageRequestPost (v : VfId) (s : State) : Out := .next (postRequest v s)

/-- The publications of others beyond the module that lie wholly in a page of memory: what a pager has copied there (R341; DEDUCED, log
entry 13). -/
def pagerMask (page : Nat) : List Pub → Nat → Nat
  | [], _ => 0
  | p :: r, b =>
    (match p.agent with
      | .host n => if n ≠ 0 && p.writes.all (fun w => w.1 / 65536 == page) then b else 0
      | _ => 0) + pagerMask page r (2 * b)
/-- Own writes to a page of intermediate addresses lie where the page lies now (R341). -/
def movedOwn (page loc : Nat) (ws : List OwnW) : List OwnW :=
  ws.map (fun w => if w.ipa / 65536 = page then { w with loc := loc + w.ipa % 65536 } else w)
/-- A page has come to a place: the snapshots of the partition and of its commands hold what the pager has copied there, which is what they
held of the page before, and the cores' own writes move with it (R341). -/
def pageIn (p : PartId) (page loc : Nat) (s : State) : State :=
  let m := pagerMask (loc / 65536) s.pubs 1
  let s := (coresOf s p).foldl (fun s c => modCr s c (fun k => { k with
    incl := k.incl ||| m, own := movedOwn page loc k.own, unpub := movedOwn page loc k.unpub })) s
  { s with cmds := s.cmds.map (fun k => if k.part = p then { k with incl := k.incl ||| m } else k) }

/-- Lanes that wait on a tag. -/
def LaneSt.waitsTag (tag : Nat) : LaneSt → Bool
  | .wait t _ _ => t == some tag
  | _ => false
/-- The lanes of a core that wait on a tag fail with XLATE_S2 (R200, R295). (DEDUCED, log entry 83.) -/
def failTag (c : CoreId) (tag : Nat) (s : State) : State :=
  let k := cr s c
  let hit := (opSeqs k).flatMap (fun n => ((k.pend.filter (fun q => q.seq == n)).flatMap (fun q => q.lanes) ++
    (k.posts.filter (fun o => o.seq == n)).flatMap (fun o => o.lanes)).filter (fun l => l.st.waitsTag tag))
  let s := hit.foldl (fun s l => failLane c ⟨cXlateS2, 0, some (false, l.va), 0, l.shown, none⟩ s) s
  let f := fun (l : Lane) => if l.st.waitsTag tag then { l with st := .failed cXlateS2 } else l
  modCr s c (fun k => { k with
    pend := k.pend.map (fun q => { q with lanes := q.lanes.map f }), posts := k.posts.map (fun o => { o with lanes := o.lanes.map f }) })

/-- A task whose word or pickup waited on a page goes on, or ends its wait with the failure (R356). -/
def wordReply (p : PartId) (fail : Bool) (s : State) (t : Task) : State :=
  if t.live then (if fail then endTask p t.rec_ stAborted 0 s else s)
  else
    let n := (pt s p).tasks.length
    let exec := ((recWord s p t.rec_ 0x38).getD 0) % 2 ^ 32
    let x := if fail then (engErr (pt s p).vf cXlateS2 false t.donep s, true) else writeWord p t.rec_ t.donep exec t.st s
    settle p (if x.2 then release p n t.rec_ t.st (rootQueue s p t.rec_ t.st) x.1 else x.1)
/-- A spawn whose page has failed: without its record its command fails, and otherwise its task ends (R356). -/
def failSpawn (p : PartId) (sp : Spawn) (s : State) : State :=
  match dloc s p sp.rec_ false with
  | .miss _ _ _ => (match sp.cmd with
    | some (_, id) => endCmd id (some (cXlateS2, false, true, sp.rec_)) s
    | none => nack s)
  | _ =>
    let s := match sp.cmd with | some (_, id) => endCmd id none s | none => s
    let w := fun o => (recWord s p sp.rec_ o).getD 0
    endAtSpawn p sp (bits (w 0x28) 0 52) (BitVec.ofNat 6 (bits (w 0x18) 38 6)) (BitVec.ofNat 3 (bits (w 0x18) 35 3)) stAborted s
/-- The spawns of a partition go on once a reply has come: the first fails with it, or they are tried in their order. -/
def spawnReply (p : PartId) (fail : Bool) (s : State) : State :=
  match (pt s p).spawns with
  | [] => s
  | sp :: r =>
    let s := if fail && (match sp.wait with | some (none, _, _) => true | _ => false) then
        failSpawn p sp (modPt s p (fun q => { q with spawns := r })) else s
    drainSpawns p ((pt s p).spawns.length + 1) s
/-- Work of Delta that waited on a tag goes on (R356): completion words, deferred pickups and spawns. -/
def deltaReply (p : PartId) (tag : Nat) (fail : Bool) (s : State) : State :=
  let ts := (pt s p).tasks.filter (fun t => t.word == some tag)
  let s := modPt s p (fun q => { q with tasks := q.tasks.map (fun t => if t.word = some tag then { t with word := none } else t) })
  let s := ts.foldl (wordReply p fail) s
  let waits := fun (sp : Spawn) => match sp.wait with | some (some t, _, _) => t == tag | _ => false
  spawnReply p fail (modPt s p (fun q => { q with spawns := q.spawns.map (fun sp =>
    if waits sp then { sp with wait := sp.wait.map (fun x => (none, x.2)) } else sp) }))

/-- The stage-2 translation that the hypervisor gives in PRQXLAT (R337). -/
def xlatEntry (v : VfId) (ipa : Nat) (x : W64) : Tlb :=
  let dpa := bits x.toNat 16 30 * 65536
  ⟨v, ipa / 65536, bitAt x.toNat 46, true, if bitAt x.toNat 47 then locRemote (bits x.toNat 48 16) dpa else dpa, [ipa / 65536], false⟩

/-- The cores' lanes and stalled bundles that wait on a request walk again, or fail. -/
def coresReply (p : PartId) (r : PageReq) (fail : Bool) (s : State) : State :=
  let page := r.ipa / 65536
  (coresOf s p).foldl (fun s c =>
    let s := if fail then failTag c r.tag s else rewalkCore c p (LaneSt.waitsTag r.tag) s
    modCr s c (fun k => { k with
      asks := if fail then k.asks.map (fun a => if a.1 = page then (page, true) else a) else k.asks.filter (fun a => a.1 ≠ page) })) s
/-- The engine commands that wait on a request go on, or fail. -/
def cmdsReply (p : PartId) (r : PageReq) (fail : Bool) (s : State) : State :=
  { s with cmds := s.cmds.map (fun k => if k.part = p then { k with
    waits := if fail then k.waits.map (fun w => if w.1 = r.tag then (w.1, w.2.1, true) else w) else k.waits.filter (fun w => w.1 ≠ r.tag) } else k) }
/-- Every waiter of a request walks again, or fails with XLATE_S2 (R295). -/
def waitersReply (p : PartId) (r : PageReq) (fail : Bool) (s : State) : State :=
  deltaReply p r.tag fail (barriersAgain p (lateReply p r.tag fail (cmdsReply p r fail (coresReply p r fail s))))
/-- PRQREPLY (R295): the request that carries the tag is answered. (DEDUCED, log entry 22.) -/
def replyStep (v : VfId) (x : W64) (s : State) : State :=
  let fail := x.getLsbD 16
  match (vf s v).reqs.find? (fun r => r.posted && r.num == BitVec.ofNat 16 x.toNat), (vf s v).bound with
  | some r, some p =>
    if x.toNat / 2 ^ 17 ≠ 0 then nack s
    else
      let page := r.ipa / 65536
      let s := modVf s v (fun k => { k with reqs := k.reqs.filter (fun q => q.tag ≠ r.tag) })
      let s := if s.modesel.getLsbD 0 && !fail
        then { s with tlb := xlatEntry v r.ipa (vf s v).prqxlat :: s.tlb.filter (fun e => !(e.vf == v && e.s2 && e.page == page)) } else s
      let s := if fail then s else match stage2 s (pt s p) (page * 65536) false false with
        | .ok loc => pageIn p page loc s
        | _ => s
      ackOk (waitersReply p r fail s) 0
  | _, _ => nack s

/-! Delta's own events (R108, R111). -/

/-- HELD_SPAWN_ENTRY (R108): the spawns of a partition that wait are tried in their order. -/
def execHeldSpawnEntry (p : PartId) (s : State) : Out := .next (drainSpawns p ((pt s p).spawns.length + 1) s)

/-- QUANTUM_EXPIRY (R111): a READY task has waited QUANT.CYCLES, and every running task of at most its priority that has run as long
is asked to yield. -/
def quantumStep (p : PartId) (s : State) : State :=
  let q := bits (vf s (pt s p).vf).quant.toNat 0 32
  let waited := fun (n : Nat) => let k := queueOf s p (BitVec.ofNat 6 n); k.ready.any (fun r => decide (r.2 + q ≤ s.now))
  let prios := ((upto 64).filter waited).map (fun n => (queueOf s p (BitVec.ofNat 6 n)).prio.toNat)
  ((coresOf s p).filter (fun c => (cr s c).running && !prios.isEmpty && decide (runPrio s p c ≤ prios.foldl max 0) &&
    decide ((cr s c).pickedAt + q ≤ s.now))).foldl (fun s c => modCr s c (fun k => { k with yieldReq := true })) s
def execQuantumExpiry (p : PartId) (s : State) : Out := .next (quantumStep p s)

/-! Refresh (R167, R268). -/

/-- STACK_REFRESH_DUE (R268): a refresh is postponed while an all-bank train holds the channel, at most eight times, or the bank
refreshes until its debt is 0. -/
def refreshDue (bank : Nat) (train : Bool) (s : State) : State :=
  let d := ((s.debt.find? (fun x => x.1 == bank)).map Prod.snd).getD 0
  let rest := s.debt.filter (fun x => x.1 ≠ bank)
  if train then { s with debt := (bank, min 8 (d + 1)) :: rest } else { s with debt := rest }
def execStackRefreshDue (bank : Nat) (train : Bool) (s : State) : Out := .next (refreshDue bank train s)

/-- WEIGHT_DIE_REFRESH (R167): the calendar comes to its next refresh window. -/
def nextWindow (t : Nat) : Nat := if t % 65536 < 65024 then t - t % 65536 + 65024 else t - t % 65536 + 65536 + 65024
def execWeightDieRefresh (s : State) : Out := .next { s with now := nextWindow s.now }

end Sys2Proof.Machine
end

