-- ==== Sys2Proof/Machine/EngineRun.lean ====
section
/-! DEFINITION. The engines at work: the parts of a command and their failures, copies, the Rake, RILL, messages, and the
completion of commands (R116, R205, R224, R233, R253 to R267, R276, R277, R330, R359). -/
namespace Sys2Proof.Machine

/-! Failures (R359). A failure is its place in the command's order, its cause, its space, whether an address is kept, and the
address. -/

abbrev CmdFail := Nat × BitVec 8 × Bool × Bool × Nat

/-- The failure that stands first in the command's order; within a part the lowest address (R359). -/
def firstOf (a b : Option CmdFail) : Option CmdFail :=
  match a, b with
  | none, x => x
  | x, none => x
  | some x, some y => if y.1 < x.1 || (y.1 == x.1 && decide (y.2.2.2.2 < x.2.2.2.2)) then some y else some x
/-- A failure at a G address, and at an L address (R359). -/
def failG (n : Nat) (cause : BitVec 8) (va : Nat) : CmdFail := (n, cause, false, true, va)
def failL (n : Nat) (cause : BitVec 8) (a : Nat) : CmdFail := (n, cause, true, true, a)
/-- A timeout keeps no address (R359). -/
def failLate (n : Nat) : CmdFail := (n, cLinkTimeout, false, false, 0)

/-! The G side (R224, R255, R260, R262, R330). -/

/-- Where bytes of G lie for a command: their pieces; the lowest failure with its address, and whether the engine itself may not go
there; or a page that is asked for. -/
inductive Reach where
  | ok (l : List (Nat × Nat))
  | bad (cause : BitVec 8) (va : Nat) (shut : Bool)
  | miss (ipa va : Nat) (tbl : Bool) (level : Nat)
  deriving DecidableEq, Repr

/-- The offset of the first byte that an engine may not reach: of a pan region, and for the Rake of the backing memory too (R210, R260,
R262, R267). (DEDUCED, log entry 64.) -/
def shutAt (s : State) (rake : Bool) (loc n : Nat) : Option Nat :=
  if rake && locIsLocal loc && dpaBacking loc then some 0
  else ((s.regions.flatMap Region.locs).filter (fun x => overlap loc (loc + n - 1) x.1 (x.1 + x.2 - 1))).foldl (fun b x =>
    some (min (b.getD (x.1 - loc)) (x.1 - loc))) none
/-- One page's part of some bytes. A page whose reply has failed is a failure (R255). -/
def pageReach (s : State) (k : Cmd) (wr rake : Bool) (x : Nat × Nat) : Reach :=
  match xlate s k.part x.1 wr with
  | .ok loc => match shutAt s rake loc x.2 with | some o => .bad cAccess (x.1 + o) true | none => .ok [(loc, x.2)]
  | .s1 => .bad cXlateS1 x.1 false
  | .denied => .bad cAccess x.1 false
  | .miss ipa tbl lvl =>
    if k.waits.any (fun w => w.2.1 == ipa / 65536 && w.2.2) then .bad cXlateS2 x.1 false else .miss ipa x.1 tbl lvl
/-- Two parts of some bytes, the lower first: a missing page is asked for before anything else is known, and of two failures the lower
is kept (R359). -/
def Reach.join (a b : Reach) : Reach :=
  match a, b with
  | .miss _ _ _ _, _ => a
  | _, .miss _ _ _ _ => b
  | .bad _ _ _, _ => a
  | _, .bad _ _ _ => b
  | .ok x, .ok y => .ok (x ++ y)
/-- n bytes of G from an address. -/
def reachG (s : State) (k : Cmd) (wr rake : Bool) (a : Int) (n : Nat) : Reach :=
  if a < 0 || (2 ^ 52 : Int) < a + n then .bad cAccess (uInt 52 a) false
  else ((pieces a.toNat n).map (pageReach s k wr rake)).foldr Reach.join (.ok [])
/-- What the command reads there: the snapshot of its commit (R224). -/
def readG (s : State) (k : Cmd) (l : List (Nat × Nat)) : List Byte :=
  l.flatMap (fun x => (span x.1 x.2).map (fun a => snapByte k.incl a s.pubs 1 0))
/-- The 32-byte columns of some bytes that cannot be corrected: the virtual address of each and where it lies (R330). -/
def badCols (s : State) : Nat → List (Nat × Nat) → List (Nat × Nat)
  | _, [] => []
  | va, (loc, n) :: r =>
    ((upto ((loc % 32 + n + 31) / 32)).filter (fun i => s.badG.contains (loc / 32 + i))).map (fun i => (32 * (va / 32 + i), 32 * (loc / 32 + i))) ++
      badCols s (va + n) r
/-- The uncorrectable columns on the pages that some bytes reach, with what lies elsewhere left out. -/
def badReach (s : State) (k : Cmd) (rake : Bool) (a : Int) (n : Nat) : List (Nat × Nat) :=
  if a < 0 then [] else (pieces a.toNat n).flatMap (fun x => match pageReach s k false rake x with
    | .ok l => badCols s x.1 l
    | _ => [])

/-! The L side (R205, R330). -/

/-- The byte of L that a command sees: what it has taken of a retired read range, else what L holds. -/
def cmdL (s : State) (k : Cmd) (a : Nat) : Byte :=
  match k.cap.find? (fun x => x.1 == a) with | some x => x.2 | none => (cr s k.core).l.rd a
def cmdLN (s : State) (k : Cmd) (a n : Nat) : Nat := ofBytes ((span a n).map (cmdL s k))
/-- The first granule among some bytes of L that cannot be corrected, unless the command has its bytes already. -/
def cmdBadL (s : State) (k : Cmd) (a n : Nat) : Option Nat :=
  if k.cap.any (fun x => x.1 == a) then none else badL (cr s k.core) a n

/-- The first granule that a write to some bytes of L reads first because it covers only a part of it, and that cannot be corrected
(R329). -/
def partBadL (k : Core) (a n : Nat) : Option Nat :=
  (k.badL.find? (fun g => overlap a (a + n - 1) (8 * g) (8 * g + 7) && !(decide (a ≤ 8 * g) && decide (8 * g + 8 ≤ a + n)))).map (8 * ·)

/-! The parts of a command. -/

/-- What one part gives: bytes of L, bytes of G, rows of a weight slice, flags of the Rill units, its failure, the pages it
asks for, and the uncorrectable granules that it has found: columns of G, or the core's own (R332). -/
structure PartRes where
  lw : List (Nat × Byte)
  gw : List (Nat × Byte)
  ww : List (Nat × Row)
  flags : BitVec 5
  fail : Option CmdFail
  miss : List (Nat × Nat × Bool × Nat × Bool)
  found : List (Option Nat)
  deriving DecidableEq, Repr
def PartRes.nothing : PartRes := ⟨[], [], [], 0, none, [], []⟩
def PartRes.failed (f : CmdFail) : PartRes := { PartRes.nothing with fail := some f }
/-- A part that meets an uncorrectable granule of L (R330). -/
def PartRes.eccL (n g : Nat) : PartRes := { PartRes.nothing with fail := some (failL n cEcc g), found := [none] }
def PartRes.asks (ipa va : Nat) (tbl : Bool) (lvl : Nat) (wr : Bool) : PartRes :=
  { PartRes.nothing with miss := [(ipa, va, tbl, lvl, wr)] }
def PartRes.join (a b : PartRes) : PartRes :=
  ⟨a.lw ++ b.lw, a.gw ++ b.gw, a.ww ++ b.ww, a.flags ||| b.flags, firstOf a.fail b.fail, a.miss ++ b.miss, a.found ++ b.found⟩
/-- Bytes placed from an address of L. -/
def placeL (a : Nat) (bs : List Byte) : List (Nat × Byte) := (bs.zip (upto bs.length)).map (fun x => (a + x.2, x.1))

/-! CPY (R260) and CPYW (R261). -/

/-- A row's G side. -/
def rowAddr (base : Nat) (k : Cmd) (i : Nat) : Int := (base : Int) + cpyStr k.block * i
/-- The failure of a read of some bytes at place i: of its failing page and its first uncorrectable column the lower (R359). -/
def readFail (i : Nat) (page : Option (BitVec 8 × Nat)) (bad : List (Nat × Nat)) : PartRes :=
  { PartRes.nothing with
    fail := firstOf (page.map (fun x => failG i x.1 x.2)) (bad.head?.map (fun o => failG i cEcc o.1)), found := bad.map (fun o => some o.2) }
/-- The bytes of a source row, or why there are none. -/
def srcRow (s : State) (k : Cmd) (i : Nat) (a : Int) (n : Nat) : Except PartRes (List Byte) :=
  match reachG s k false false a n with
  | .bad c va _ => .error (readFail i (some (c, va)) (badReach s k false a n))
  | .miss ipa va tbl lvl => .error (.asks ipa va tbl lvl false)
  | .ok l => match badCols s a.toNat l with
    | [] => .ok (readG s k l)
    | b => .error (readFail i none b)
/-- A row's destination in G. -/
def dstRow (s : State) (k : Cmd) (i : Nat) (a : Int) (bs : List Byte) : PartRes :=
  match reachG s k true false a bs.length with
  | .bad c va _ => .failed (failG i c va)
  | .miss ipa va tbl lvl => .asks ipa va tbl lvl true
  | .ok l => { PartRes.nothing with gw := spanWrites l bs }
/-- Row i of a copy; a failing row leaves its destination as it was. -/
def cpyPart (s : State) (k : Cmd) (i : Nat) : PartRes :=
  let b := k.block
  let n := cpyLen b
  match cpyDir b with
  | 0 => match srcRow s k i (rowAddr (cpySrc b) k i) n with
    | .error e => e
    | .ok bs => { PartRes.nothing with lw := placeL (cpyDst b + i * n) bs }
  | 1 =>
    let a := cpySrc b + i * n
    match cmdBadL s k a n with
    | some g => .eccL i g
    | none => dstRow s k i (rowAddr (cpyDst b) k i) ((span a n).map (cmdL s k))
  | _ => match srcRow s k i (rowAddr (cpySrc b) k i) n with
    | .error e => e.join (let d := dstRow s k i (rowAddr (cpyDst b) k i) (List.replicate n 0); { d with gw := [] })
    | .ok bs => dstRow s k i (rowAddr (cpyDst b) k i) bs
/-- Row i of a weight write, in ascending source offset (R261). -/
def cpywPart (s : State) (k : Cmd) (i : Nat) : PartRes :=
  let b := k.block
  match srcRow s k i ((bits (bw b 0) 0 52 : Int) + 384 * i) 384 with
  | .error e => e
  | .ok bs => { PartRes.nothing with
      ww := [(sliceKey (cpywCol0 b + i / cpywRows b) (cpywRow0 b + i % cpywRows b), BitVec.ofNat 3072 (ofBytes bs))] }

/-! The Rake (R262 to R264). -/

/-- A row that the Rake reads: its bytes, the columns and whether any of it could be read, and its failure, page and finds. -/
structure RkRow where
  data : List Byte
  badC : List Nat
  lost : Bool
  res : PartRes
  deriving DecidableEq, Repr
/-- The row of index position i; ord is the place of position 0 in the command's order. A row that no page or table entry serves counts
as a zero row, as one outside the table does (DEDUCED, log entry 64). -/
def rkRow (s : State) (k : Cmd) (ord i : Nat) : RkRow :=
  let b := k.block
  let n := rkLen b
  let zero := List.replicate n (0 : Byte)
  match cmdBadL s k (rkIdxAt b + 4 * i) 4 with
  | some g => ⟨zero, [], true, .eccL (ord + i) g⟩
  | none =>
    let x := sInt 32 (cmdLN s k (rkIdxAt b + 4 * i) 4)
    if x = -1 then ⟨zero, [], false, .nothing⟩
    else if x < 0 || (rkRows b : Int) ≤ x then ⟨zero, [], false, .failed (failL (ord + i) cAccess (rkIdxAt b + 4 * i))⟩
    else
      let a := (rkTable b : Int) + x * n
      match reachG s k false true a n with
      | .bad c va _ => ⟨zero, [], false, readFail (ord + i) (some (c, va)) (badReach s k true a n)⟩
      | .miss ipa va tbl lvl => ⟨zero, [], false, .asks ipa va tbl lvl false⟩
      | .ok l => let bc := badCols s a.toNat l; ⟨readG s k l, bc.map (fun x => x.1 - a.toNat), false, readFail (ord + i) none bc⟩
/-- RKGATH of index position i (R263); what could not be read is not written (R330). -/
def rkgathPart (s : State) (k : Cmd) (i : Nat) : PartRes :=
  let r := rkRow s k 0 i
  let ws := (placeL (rkDst k.block + i * rkLen k.block) r.data).zip (upto r.data.length)
  { r.res with lw := if r.lost then [] else (ws.filter (fun w => !r.badC.contains (w.2 / 32 * 32))).map Prod.fst }

/-- One pooled element (R264). -/
def poolElem (f32 : Bool) (l : List FV) : Rounded :=
  let f := if f32 then fF32 else fBF16
  if l.any FV.isNan then f.rnd .rne .nan
  else if l.contains (.inf false) && l.contains (.inf true) then { f.rnd .rne .nan with inv := true }
  else match l.find? FV.isInf with
    | some x => f.rnd .rne x
    | none =>
      let t := l.foldl (fun a x => (FV.add a x).1) (.fin false 0 0)
      f.rnd .rne (if t.isZero then .fin false 0 0 else t)
/-- The offset list (R264): the entries, and the lowest entry that breaks the rules or cannot be read. -/
def rkOffs (s : State) (k : Cmd) : List Nat := (upto (rkBags k.block + 1)).map (fun i => cmdLN s k (rkOffAt k.block + 4 * i) 4)
def rkOffFault (s : State) (k : Cmd) : Option PartRes :=
  let b := k.block
  let o := rkOffs s k
  let n := rkBags b
  match cmdBadL s k (rkOffAt b) (4 * (n + 1)) with
  | some g => some (.eccL 0 g)
  | none => ((upto (n + 1)).find? (fun i => (i == 0 && o.getD 0 0 != 0) || (decide (0 < i) && decide (o.getD i 0 < o.getD (i - 1) 0)) ||
      (i == n && o.getD n 0 != rkIdx b))).map (fun i => .failed (failL 0 cAccess (rkOffAt b + 4 * i)))
/-- RKSEG of bag j: the pooled row, without the elements that a bad column hides. -/
def rksegPart (s : State) (k : Cmd) (j : Nat) : PartRes :=
  let b := k.block
  let o := rkOffs s k
  let rows := (span (o.getD j 0) (o.getD (j + 1) 0 - o.getD j 0)).map (rkRow s k 1)
  let w := if rkF32 b then 4 else 2
  let es := (upto (rkLen b / 2)).filter (fun e => rows.all (fun r => !r.lost && !r.badC.contains (2 * e / 32 * 32)))
  let out := es.map (fun e => (e, poolElem (rkF32 b) (rows.map (fun r => fBF16.val (fieldAt r.data (2 * e) 2)))))
  { (rows.map RkRow.res).foldl PartRes.join .nothing with
    lw := out.flatMap (fun x => placeL (rkDst b + j * rkOut opRkseg b + w * x.1) (bytesOf w x.2.code))
    flags := out.foldl (fun f x => f ||| rillBits x.2) 0 }

/-- The parts of a command that reads G through the snapshot and L, and places what it reads. -/
def cmdParts (s : State) (k : Cmd) : List PartRes :=
  if k.op = opCpy then (upto (cpyRows k.block)).map (cpyPart s k)
  else if k.op = opCpyw then (upto (cpywCols k.block * cpywRows k.block)).map (cpywPart s k)
  else if k.op = opRkgath then (upto (rkIdx k.block)).map (rkgathPart s k)
  else match rkOffFault s k with
    | some f => [f]
    | none => (upto (rkBags k.block)).map (rksegPart s k)

/-! Carrying out. -/

def modCmd (id : Nat) (f : Cmd → Cmd) (s : State) : State :=
  { s with cmds := s.cmds.map (fun k => if k.id = id then f k else k) }
def cmdOf (s : State) (c : CoreId) (id : Nat) : Option Cmd := s.cmds.find? (fun k => k.id == id && k.core == c)
/-- Posts the page requests of a command and notes that it waits on them (R255). -/
def askPages (k : Cmd) : List (Nat × Nat × Bool × Nat × Bool) → State → State
  | [], s => s
  | (ipa, va, tbl, lvl, wr) :: r, s =>
    let x := pageMiss s k.core k.part ipa va tbl lvl wr
    askPages k r (modCmd k.id (fun k =>
      { k with waits := if k.waits.any (fun w => w.1 == x.2) then k.waits else k.waits ++ [(x.2, ipa / 65536, false)] }) x.1)
/-- The L ranges of a command retire (R205). -/
def retireRanges (k : Cmd) (s : State) : State := modCr s k.core (fun c => { c with ranges := c.ranges.filter (fun r => r.id ≠ k.id) })
/-- Bytes land in L; a granule that they cover whole is correct again (R329). -/
def landL (c : CoreId) (ws : List (Nat × Byte)) (s : State) : State :=
  modCr s c (fun k => { k with
    l := k.l.wrPairs ws, badL := k.badL.filter (fun g => !(upto 8).all (fun i => ws.any (fun w => w.1 == 8 * g + i))) })
/-- Rows land in the weight slice of the core of a rank, and make their granules correct (R261, R329). -/
def landW (k : Cmd) (ws : List (Nat × Row)) (s : State) : State :=
  match coreOfRank s k.part (cpywRank k.block) with
  | none => s
  | some d => modCr s d (fun x => { x with
      wslice := ws.foldl (fun m w => sset (0 : Row) m w.1 w.2) x.wslice, badW := x.badW.filter (fun g => !ws.any (fun w => w.1 == g / 12)) })

/-- What the parts have found uncorrectable adds to the counts of the units (R332). -/
def countFound (c : CoreId) (l : List (Option Nat)) (s : State) : State :=
  l.foldl (fun s x => match x with | some loc => foundG loc s | none => foundL c s) s
/-- G writes leave the module where R227 and R259 say; the command awaits their acknowledgements. -/
def cmdForward (k : Cmd) (ws : List (Nat × Byte)) (s : State) : State :=
  let x := forwardAll (.engine k.core k.id) k.part ws s
  modCmd k.id (fun k => { k with acks := k.acks ++ x.2 }) x.1
/-- Everything that the parts give happens; the G writes are kept for the publication at completion, and those of mirrored
regions and other modules are sent on (R227, R259). -/
def carryOut (k : Cmd) (r : PartRes) (s : State) : State :=
  let s := countFound k.core r.found (retireRanges k (landL k.core r.lw s))
  let s := if r.ww.isEmpty then s else landW k r.ww s
  let s := if r.flags = 0 then s else rillFlag k.core r.flags s
  modCmd k.id (fun k => { k with done := true, out := r.gw, fail := firstOf k.fail r.fail, waits := [] }) (cmdForward k r.gw s)

/-- An earlier command of the same core and class still works on overlapping bytes of L (R233). (DEDUCED, log entry 84.) -/
def earlierRange (s : State) (k : Cmd) : Bool :=
  let rs := (cr s k.core).ranges
  rs.any (fun r => decide (r.id < k.id) &&
    (match s.cmds.find? (fun x => x.id == r.id) with | some x => cmdClass x.op == cmdClass k.op | none => false) &&
    rs.any (fun q => q.id == k.id && (q.wr || r.wr) && overlap q.lo q.hi r.lo r.hi))

/-- A command of parts is carried out once its pages are there. -/
def performParts (k : Cmd) (s : State) : State :=
  let r := (cmdParts s k).foldl PartRes.join PartRes.nothing
  if r.miss.isEmpty then carryOut k r s else askPages k r.miss s

/-! RILL (R266, R267). -/

/-- The format and operator of a code from 2 to 13 (R266). -/
def codeOp : Nat → Nat × Nat
  | 2 => (3, 0) | 3 => (4, 0) | 4 => (6, 0) | 5 => (5, 0) | 6 => (3, 1) | 7 => (3, 2) | 8 => (4, 1) | 9 => (4, 2)
  | 10 => (6, 1) | 11 => (6, 2) | 12 => (5, 1) | _ => (5, 2)
def rillEls (code : Nat) : Nat := 256 / tagWidth (codeOp code).1
/-- Entry i of the list: its first and second 8 bytes. -/
def rillEntry (s : State) (k : Cmd) (i : Nat) : Nat × Nat :=
  (cmdLN s k (rillList k.block + 16 * i) 8, cmdLN s k (rillList k.block + 16 * i + 8) 8)
/-- An entry that is carried out (R267). -/
def rillFit (e : Nat × Nat) : Bool :=
  let code := e.1 % 32
  bits e.1 52 12 == 0 && decide (code < 15) &&
    (if 2 ≤ code && code ≤ 13 then decide (e.2 < 2 ^ rillEls code) else e.2 == 0) && (code != 14 || e.1 / 32 == 0)
/-- Where an entry's column lies. -/
def rillReach (s : State) (k : Cmd) (e : Nat × Nat) : Reach :=
  reachG s k (e.1 % 32 != 0) true ((e.1 / 32 * 32 : Nat) : Int) 32
/-- The page that an entry asks for. -/
def rillMiss (s : State) (k : Cmd) (i : Nat) : Option (Nat × Nat × Bool × Nat × Bool) :=
  let e := rillEntry s k i
  if !rillFit e || e.1 % 32 = 14 then none
  else match rillReach s k e with
    | .miss ipa va tbl lvl => some (ipa, va, tbl, lvl, e.1 % 32 != 0)
    | _ => none
/-- Bytes that a Rill unit of this module writes for a command: performed directly on memory, and sent on where they leave the module
(R219, R227, R259). -/
def rillDirect (k : Cmd) (ws : List (Nat × Byte)) (s : State) : State :=
  cmdForward k ws (addPub s (.engine k.core k.id) (BitVec.allOnes 64) k.incl ws)
/-- An element operation goes to the Rill unit of the module that holds the column (R213, R266); what is held here of that module's
bytes follows. -/
def rillFar (k : Cmd) (t : Nat × Nat) (bs : List Byte) (r : List (Nat × Byte)) (s : State) (loc : Nat) : State :=
  let m : BitVec 16 := BitVec.ofNat 16 (locModule loc)
  let f : FlowId := ⟨(Agent.engine k.core k.id).no, m, laneHash (loc % 2 ^ 46)⟩
  let id := s.nextId
  let s := addPub s (.engine k.core k.id) (BitVec.allOnes 64) k.incl r
  modCmd k.id (fun k => { k with acks := k.acks ++ [id] })
    (sendFlit f (fun n => .rill f n (loc % 2 ^ 46) t.1 t.2 bs id) (awaitAck m k.part s))
/-- A masked operation on a column: its elements, with the data slot's values (R266). -/
def rillMask (k : Cmd) (code mask loc slot : Nat) (s : State) : State :=
  let t := codeOp code
  let w := tagWidth t.1 / 8
  let es := onBits (rillEls code) mask
  let v := fun n => cmdLN s k (slot + w * n) w
  let xs := es.map (fun n => rillAt s t.1 t.2 (loc + w * n) (v n))
  rillFlag k.core (xs.foldl (fun f x => f ||| x.2) 0)
    (if locIsRemote loc then (es.zip xs).foldl (fun s y => rillFar k t (bytesOf w (v y.1)) y.2.1 s (loc + w * y.1)) s
     else rillDirect k (xs.flatMap Prod.fst) s)
/-- A failure of an entry, with the granule that it found uncorrectable. -/
def rillFail (k : Cmd) (f : CmdFail) (found : List (Option Nat)) (s : State) : State :=
  countFound k.core found (modCmd k.id (fun k => { k with fail := firstOf k.fail (some f) }) s)
/-- One entry is performed. An entry that goes where RILL may not is skipped as one that is unfit is; a page that may not be reached fails
at its G address (R267, R359). -/
def rillDo (k : Cmd) (s : State) (i : Nat) : State :=
  let e := rillEntry s k i
  let code := e.1 % 32
  let slot := rillData k.block + 32 * i
  let put := fun (n x : Nat) (s : State) => match partBadL (cr s k.core) slot n with
    | some g => rillFail k (failL i cEcc g) [none] s
    | none => landL k.core (placeL slot (bytesOf n x)) s
  match cmdBadL s k (rillList k.block + 16 * i) 16 with
  | some g => rillFail k (failL i cEcc g) [none] s
  | none =>
    if !rillFit e then rillFail k (failL i cAccess (rillList k.block + 16 * i)) [] s
    else if code = 14 then put 8 (match vfOf s k.core with | some v => (vf s v).rillflags.toNat | none => 0) s
    else match rillReach s k e with
      | .miss _ _ _ _ => s
      | .bad c va shut => rillFail k (if shut then failL i cAccess (rillList k.block + 16 * i) else failG i c va) [] s
      | .ok l =>
        let loc := (l.head?.map Prod.fst).getD 0
        if code = 1 then
          (match cmdBadL s k slot 32 with
            | some g => rillFail k (failL i cEcc g) [none] s
            | none => rillDirect k (placeL loc ((span slot 32).map (cmdL s k))) s)
        else if (badColumn s loc 32).isSome then rillFail k (failG i cEcc (e.1 / 32 * 32)) [some loc] s
        else if code = 0 then put 32 (s.mem.rdN loc 32) s
        else match cmdBadL s k slot 32 with
          | some g => rillFail k (failL i cEcc g) [none] s
          | none => rillMask k code e.2 loc slot s
/-- The entries in list order from one on; one whose page is missing waits for it, with those after it. -/
def rillGoOn (k : Cmd) : Nat → Nat → State → State
  | 0, _, s => modCmd k.id (fun k => { k with done := true, waits := [] }) (retireRanges k s)
  | n + 1, i, s => match rillMiss s k i with
    | some m => askPages k [m] (modCmd k.id (fun k => { k with prog := i }) s)
    | none => rillGoOn k n (i + 1) (rillDo k s i)
def performRill (k : Cmd) (s : State) : State := rillGoOn k (rillN k.block - k.prog) k.prog s

/-! SEND and RECV (R116, R276, R277). -/

/-- The number of the next message of a flow to a peer. -/
def nextMsgOut (s : State) (m : BitVec 16) (f : BitVec 8) : Nat :=
  s.sent.foldl (fun x p => match p with | .msg n g e => if n = m && g = f then max x (e.msg + 1) else x | _ => x) 0
/-- Another command of the core that stands before this one in the same flow. -/
def earlierMsg (s : State) (k : Cmd) : Bool :=
  s.cmds.any (fun x => x.core == k.core && x.op == k.op && decide (x.id < k.id) && !x.done && x.prog == 0 &&
    msgPeer x.block == msgPeer k.block && msgFlow x.block == msgFlow k.block)
/-- SEND puts its entries into the flow; it completes at the peer's acknowledgement of the last. An entry with uncorrectable data is not
sent (R330); the others are (R255; DEDUCED, log entry 38). -/
def performSend (k : Cmd) (s : State) : State :=
  if earlierMsg s k then s
  else
    let b := k.block
    let n := msgN b
    let msg := nextMsgOut s (msgPeer b) (msgFlow b)
    let bad := (upto n).filterMap (fun i => (cmdBadL s k (msgL b + 384 * i) 384).map (fun g => (i, g)))
    let es := ((upto n).filter (fun i => !bad.any (fun x => x.1 == i))).map (fun i => Packet.msg (msgPeer b) (msgFlow b)
      ⟨msg, i, n, BitVec.ofNat 3072 (cmdLN s k (msgL b + 384 * i) 384)⟩)
    let id := s.nextId
    let s := countFound k.core (bad.map (fun _ => none)) (awaitAck (msgPeer b) k.part { s with sent := s.sent ++ es })
    modCmd k.id (fun k => { k with done := true, acks := [id], since := s.us, fail := bad.head?.map (fun x => failL x.1 cEcc x.2) })
      (retireRanges k s)

def emptyQueue (m : BitVec 16) (f : BitVec 8) : RxQueue := ⟨m, f, [], [], 0, 0, 0⟩
def rxOf (s : State) (m : BitVec 16) (f : BitVec 8) : RxQueue :=
  (s.rx.find? (fun q => q.peer == m && q.flow == f)).getD (emptyQueue m f)
def setRx (q : RxQueue) (s : State) : State :=
  { s with rx := q :: s.rx.filter (fun x => !(x.peer == q.peer && x.flow == q.flow)) }
/-- The RECV that takes the next message of a flow: the earliest one that is not over. -/
def headRecv (s : State) (m : BitVec 16) (f : BitVec 8) : Option Cmd :=
  s.cmds.find? (fun k => k.op == opRecv && !k.done && msgPeer k.block == m && msgFlow k.block == f)
/-- The room of a receive queue (R116). -/
def rxRoom : Nat := 64
/-- An entry in its turn: discarded, or placed at the end of the queue; its message is acknowledged with its last entry (R116, R276). -/
def rxTake (q : RxQueue) (e : MsgEntry) (s : State) : RxQueue × State :=
  let last := decide (e.idx + 1 = e.total)
  let q := { q with nextMsg := if last then e.msg + 1 else e.msg, nextIdx := if last then 0 else e.idx + 1 }
  (if e.msg < q.dropUpTo then q else { q with entries := q.entries ++ [e] },
   if last then { s with sent := s.sent ++ [.taken q.peer q.flow e.msg] } else s)
/-- The entries that have come and are due, while the queue has room. -/
def rxDrain : Nat → RxQueue → State → RxQueue × State
  | 0, q, s => (q, s)
  | fuel + 1, q, s =>
    match q.early.find? (fun e => e.msg == q.nextMsg && e.idx == q.nextIdx) with
    | some e =>
      if rxRoom ≤ q.entries.length && q.dropUpTo ≤ e.msg then (q, s)
      else let x := rxTake { q with early := q.early.filter (fun x => x ≠ e) } e s; rxDrain fuel x.1 x.2
    | none => (q, s)
/-- A queue as it stands, with what has come and finds room in it. -/
def settleRx (q : RxQueue) (s : State) : State := let x := rxDrain q.early.length q s; setRx x.1 x.2
/-- The message is over for the RECV: all that it takes of it has come, and the rest is discarded as it comes. dropUpTo counts the
messages of the flow that RECVs have done with. -/
def recvOver (k : Cmd) (q : RxQueue) (msg : Nat) (s : State) : State :=
  modCmd k.id (fun k => { k with done := true }) (retireRanges k
    (settleRx { q with dropUpTo := max q.dropUpTo (msg + 1), entries := q.entries.filter (fun e => msg < e.msg) } s))
/-- The entries that wait go to the RECVs in their order (R276), each once no earlier command of its class stands before it (R233).
(DEDUCED, log entry 62.) -/
def feedRecv (m : BitVec 16) (f : BitVec 8) : Nat → State → State
  | 0, s => s
  | fuel + 1, s =>
    let q := rxOf s m f
    match headRecv s m f, q.entries with
    | some k, e :: r =>
      if earlierRange s k then s
      else
        let s := landL k.core (placeL (msgL k.block + 384 * e.idx) (bytesOf 384 e.data.toNat)) s
        let q := { q with entries := r }
        let s := settleRx q (modCmd k.id (fun k => { k with prog := e.idx + 1, since := s.us }) s)
        feedRecv m f fuel (if e.idx + 1 = min e.total (msgN k.block) then recvOver k (rxOf s m f) e.msg s else s)
    | _, _ => s
/-- As many turns as entries of a flow can be handed over now. -/
def feedAll (m : BitVec 16) (f : BitVec 8) (s : State) : State :=
  let q := rxOf s m f
  feedRecv m f (q.entries.length + q.early.length) s

/-- RECV_ENTRY_ARRIVAL (R276): entries are applied strictly in sequence; those that come early, or find no room, are held. -/
def recvArrive (m : BitVec 16) (f : BitVec 8) (e : MsgEntry) (s : State) : State :=
  let q := rxOf s m f
  let past := decide (e.msg < q.nextMsg) || (e.msg == q.nextMsg && decide (e.idx < q.nextIdx))
  if past || e.total = 0 || e.total ≤ e.idx || q.early.any (fun x => x.msg == e.msg && x.idx == e.idx) || s.fatal || s.dead then s
  else feedAll m f (settleRx { q with early := q.early ++ [e] } s)
def execRecvEntryArrival (peer : BitVec 16) (flow : BitVec 8) (k : MsgEntry) (s : State) : Out := .next (recvArrive peer flow k s)

/-- The timeouts of a partition (R277). -/
def linkRecv (s : State) (p : PartId) : Nat := bits (vf s (pt s p).vf).linktmo.toNat 0 32
def recvLate (s : State) (k : Cmd) : Bool := decide (linkRecv s k.part ≠ 0) && decide (k.since + linkRecv s k.part < s.us)

/-- SEND_ACK_TIMEOUT (R276): the peer has been unreachable for LINKTMO.ACK. -/
def sendTimeout (c : CoreId) (id : Nat) (s : State) : State :=
  match cmdOf s c id with
  | none => s
  | some k =>
    if k.op ≠ opSend || !k.done || acked s k.acks || s.us < k.since + linkAck s k.part || s.fatal || s.dead then s
    else endCmd id ((firstOf k.fail (some (failLate (msgN k.block)))).map Prod.snd) { s with ackWait := s.ackWait.filter (fun a => !k.acks.contains a.id) }
def execSendAckTimeout (c : CoreId) (id : Nat) (s : State) : Out := .next (sendTimeout c id s)

/-- What a late RECV takes from its backup copy: entry i (R277). -/
def bkPart (s : State) (k : Cmd) (i : Nat) : PartRes :=
  match srcRow s k i ((msgBk k.block : Int) + 384 * i) 384 with
  | .error e => e
  | .ok bs => { PartRes.nothing with lw := placeL (msgL k.block + 384 * i) bs }
/-- A RECV that waits too long (R277): it reads the rest from its backup copy, or it fails; the message's late entries are
discarded. -/
def recvTimeoutStep (k : Cmd) (s : State) : State :=
  let m := msgPeer k.block
  let f := msgFlow k.block
  let q := rxOf s m f
  let drop := fun s => settleRx { rxOf s m f with dropUpTo := q.dropUpTo + 1 } s
  if (headRecv s m f).map Cmd.id ≠ some k.id || !q.entries.isEmpty || earlierRange s k then s
  else if msgBk k.block = 0 then
    modCmd k.id (fun k => { k with done := true, fail := some (failLate k.prog) }) (retireRanges k (drop s))
  else
    let r := ((span k.prog (msgN k.block - k.prog)).map (bkPart s k)).foldl PartRes.join PartRes.nothing
    if r.miss.isEmpty then carryOut k r (drop s) else askPages k r.miss s

/-! Completion (R255, R259). -/

/-- The router context of a collective is given back with the last command of it in this module (R271, R298). -/
def freeCtx (k : Cmd) (s : State) : State :=
  match k.cfl.bind CflSt.ctx with
  | none => s
  | some n =>
    if s.cmds.any (fun x => x.id != k.id && x.part == k.part && x.cfl.any (fun y => y.ctx == some n)) then s
    else modPt s k.part (fun p => { p with ctxUsed := p.ctxUsed - 1 })
/-- What remains of a command whose parts have been carried out: once the acknowledgements are there its G writes form one
publication at module scope, and its ticket leaves PENDING; a queue whose checkpoint awaited it goes on (R307). -/
def completeCmd (k : Cmd) (s : State) : State :=
  if !acked s k.acks then s
  else
    let s := if k.out.isEmpty then s else addPub s (.engine k.core k.id) (BitVec.allOnes 64) k.incl k.out
    let s := endCmd k.id (k.fail.map Prod.snd) (freeCtx k s)
    ((upto 64).map (BitVec.ofNat 6)).foldl (fun s q => ckptRest k.part q s) s

/-- An earlier SPAWN of the core has not yet been handed over (R90, R107). -/
def earlierSpawn (s : State) (k : Cmd) : Bool :=
  s.cmds.any (fun x => x.core == k.core && x.op == opSpawn && decide (x.id < k.id) && x.prog == 0)
/-- SPAWN hands its record to Delta once what it published is acknowledged (R90, R228). -/
def performSpawn (k : Cmd) (s : State) : State :=
  if k.prog ≠ 0 || !acked s k.acks || earlierSpawn s k then s
  else spawnArrive k.part ⟨k.block.toNat % 2 ^ 52, some (k.core, k.id), false, false, none⟩ (modCmd k.id (fun k => { k with prog := 1 }) s)

end Sys2Proof.Machine
end

