-- ==== Sys2Proof/Machine/Confluence.lean ====
section
/-! DEFINITION. Confluence collectives: the ring, chunks, hops and scales, checks, backups and statistics; and the events in
which engines finish with L ranges and complete their commands (R205, R255, R269 to R275, R277). -/
namespace Sys2Proof.Machine

/-! Chunks (R269, R270). -/

/-- Bytes of one element. -/
def cflW (b : BitVec 512) : Nat := tagWidth (cflFmt b) / 8
def cflI8 (b : BitVec 512) : Bool := cflFmt b == 1
def chunkLen (b : BitVec 512) (p : Nat) : Nat := (cflCount b + 32 * p - 1) / (32 * p) * 32
def chunkLo (b : BitVec 512) (p c : Nat) : Nat := min (cflCount b) (c * chunkLen b p)
def chunkN (b : BitVec 512) (p c : Nat) : Nat := chunkLo b p (c + 1) - chunkLo b p c
/-- The chunks that hold elements. -/
def chunksOf (b : BitVec 512) (p : Nat) : List Nat := (upto p).filter (fun c => chunkN b p c != 0)
def CflSt.size (x : CflSt) : Nat := x.ring.length
/-- The hop that the participant performs on a chunk: hop h is performed at participant c + 1 + h (R270). -/
def CflSt.hopOf (x : CflSt) (c : Nat) : Nat := (x.pos + 2 * x.size - c - 1) % x.size
/-- The command reduces. -/
def cflReduces (op : Nat) : Bool := op == opAr || op == opRs
/-- The participant that makes a chunk's final bytes (R270). -/
def cflMaker (op c : Nat) : Nat := if op = opBc then 0 else c
/-- The chunks that this participant receives at DST (R270). -/
def cflGets (k : Cmd) (x : CflSt) : List Nat :=
  if k.op = opRs then (chunksOf k.block x.size).filter (fun c => c == x.pos) else chunksOf k.block x.size
/-- Where a chunk goes in DST, in elements. -/
def cflDstAt (k : Cmd) (x : CflSt) (c : Nat) : Nat := if k.op = opRs then 0 else chunkLo k.block x.size c

/-! What a participant contributes (R269, R272). -/

/-- The failures of a read or a write of some bytes from an address take their places among the elements: e0 is the first, and each
num bytes hold den elements (R359). -/
def PartRes.atElems (e0 den num a : Nat) (r : PartRes) : PartRes :=
  { r with fail := r.fail.map (fun f => (e0 + (f.2.2.2.2 - a) * den / num, f.2)) }
/-- Bytes of G that the command reads, or why there are none. -/
def cflRead (s : State) (k : Cmd) (e0 den num a n : Nat) : Except PartRes (List Byte) :=
  match srcRow s k 0 a n with
  | .ok bs => .ok bs
  | .error r => .error (r.atElems e0 den num a)
/-- The codes of a chunk of an array. -/
def cflCodes (s : State) (k : Cmd) (base p c : Nat) : Except PartRes (List Nat) :=
  let w := cflW k.block
  let lo := chunkLo k.block p c
  let n := chunkN k.block p c
  match cflRead s k lo 1 w (base + w * lo) (w * n) with
  | .ok bs => .ok ((upto n).map (fun i => fieldAt bs (w * i) w))
  | .error r => .error r
def cflBlocks (b : BitVec 512) : Nat := (cflCount b + 31) / 32
/-- An I8 value at one scale, as an integer at another, rounded by SR; a block whose scale is NaN is 0 (R272). -/
def rescale (key e : Nat) (src dst : Nat) (v : Int) : Int :=
  if dst = 0xFF then 0 else (roundInt (.sr (hash24 key e)) (decide (v < 0)) v.natAbs ((src : Int) - dst)).1
def hopKey (b : BitVec 512) (h : Nat) : Nat := cflCkey b * 2 ^ 24 + 2 * h
/-- The contribution to a chunk: codes as they are, or I8 re-encoded to the agreed scales at hop 0 (R272). -/
def cflGive (k : Cmd) (x : CflSt) (codes : List Nat) (scale : Nat → Nat) (c : Nat) : List (BitVec 32) :=
  let lo := chunkLo k.block x.size c
  let ag := fun (e : Nat) => ((x.agreed.getD []).getD (e / 32) 0).toNat
  (codes.zip (span lo codes.length)).map (fun y => BitVec.ofNat 32
    (if cflI8 k.block then uInt 8 (rescale (hopKey k.block 0) y.2 (scale (y.2 / 32)) (ag y.2) (sInt 8 y.1)) else y.1))
/-- The participant's own scale of a block. -/
def CflSt.ownScale (x : CflSt) (n : Nat) : Nat := ((((x.heard.find? (fun h => h.1 == x.pos)).map Prod.snd).getD []).getD n 0).toNat
def cflOwn (s : State) (k : Cmd) (x : CflSt) (c : Nat) : Except PartRes (List (BitVec 32)) :=
  (cflCodes s k (cflSrc k.block) x.size c).map (fun l => cflGive k x l x.ownScale c)
/-- A backup's copy of the contribution of the participant that it backs up (R275). -/
def cflCopy (s : State) (k : Cmd) (x : CflSt) (c : Nat) : Except PartRes (List (BitVec 32)) :=
  (cflCodes s k (cflBksrc k.block) x.size c).map (fun l => cflGive k x l (fun n => (Config.backupScale k.id n).toNat) c)
/-- The agreed scales of a chunk's blocks. (DEDUCED, log entry 63.) -/
def cflAgreed (k : Cmd) (x : CflSt) (c : Nat) : List Byte :=
  if cflI8 k.block then ((x.agreed.getD []).drop (chunkLo k.block x.size c / 32)).take ((chunkN k.block x.size c + 31) / 32) else []

/-! One hop (R270, R272). -/

/-- One float or I32 element of a hop, with INV. -/
def cflElem (b : BitVec 512) (h e x y : Nat) : Nat × Bool :=
  if cflFmt b = 3 then ((rillElem 3 (cflOp b) x y).code, false)
  else
    let f := fmtOf (cflFmt b)
    if cflOp b = 0 then
      let t := FV.add (f.val x) (f.val y)
      ((f.rnd (rndOf (cflRnd b) (hopKey b h) e) t.1).code, t.2)
    else ((f.rnd .rne (if cflOp b = 1 then FV.min (f.val x) (f.val y) else FV.max (f.val x) (f.val y))).code, false)

/-- What a hop makes: the accumulator, its scales, the blocks rescaled and saturated, and INV. -/
structure HopRes where
  acc : List (BitVec 32)
  scales : List Byte
  resc : Nat
  sat : Nat
  inv : Bool
  deriving DecidableEq, Repr
def HopRes.join (a b : HopRes) : HopRes := ⟨a.acc ++ b.acc, a.scales ++ b.scales, a.resc + b.resc, a.sat + b.sat, a.inv || b.inv⟩
def i8Code (v : Int) : BitVec 32 := BitVec.ofNat 32 (uInt 8 v)
/-- One I8 block: acc at scale sa, x at scale sx, the block's first element e (R272). -/
def hopBlock (b : BitVec 512) (h e sa sx : Nat) (acc x : List (BitVec 32)) : HopRes :=
  if sa = 0xFF then ⟨acc.map (fun _ => 0), [0xFF], 0, 0, true⟩
  else
    let ys := ((acc.zip x).zip (span e acc.length)).map (fun t =>
      let a := sInt 8 t.1.1.toNat
      let v := rescale (hopKey b h) t.2 sx sa (sInt 8 t.1.2.toNat)
      (t.2, if cflOp b = 0 then a + v else if cflOp b = 1 then min a v else max a v))
    if ys.all (fun y => decide (-128 ≤ y.2) && decide (y.2 ≤ 127)) then ⟨ys.map (fun y => i8Code y.2), [BitVec.ofNat 8 sa], 0, 0, false⟩
    else if sa < 0xFE then
      ⟨ys.map (fun y => i8Code (rescale (hopKey b h + 1) y.1 0 1 y.2)), [BitVec.ofNat 8 (sa + 1)], 1, 0, false⟩
    else ⟨ys.map (fun y => i8Code (satInt 8 y.2).1), [BitVec.ofNat 8 sa], 1, 1, false⟩
/-- The hop on a chunk. -/
def hopChunk (k : Cmd) (x : CflSt) (c h : Nat) (acc : List (BitVec 32)) (scales : List Byte) (own : List (BitVec 32)) : HopRes :=
  let lo := chunkLo k.block x.size c
  if cflI8 k.block then
    (upto ((acc.length + 31) / 32)).foldl (fun r n => r.join
      (hopBlock k.block h (lo + 32 * n) (scales.getD n 0).toNat ((cflAgreed k x c).getD n 0).toNat
        ((acc.drop (32 * n)).take 32) ((own.drop (32 * n)).take 32))) ⟨[], [], 0, 0, false⟩
  else
    let ys := ((acc.zip own).zip (span lo acc.length)).map (fun t => cflElem k.block h t.2 t.1.1.toNat t.1.2.toNat)
    ⟨ys.map (fun y => BitVec.ofNat 32 y.1), [], 0, 0, ys.any Prod.snd⟩

/-! Packets and the participant's state. A packet without codes carries the scales of the participant that its chunk field numbers; one
whose hop is P or more belongs to a check's chain, P hops on (DESIGN CHOICE, log entry 27). -/

/-- The bytes of a packet for the digests of R273 (PRESUMED, log entry 35). -/
def pktBytes (b : BitVec 512) (p : CflPkt) : List Byte := p.acc.flatMap (fun v => bytesOf (cflW b) v.toNat) ++ p.scales
/-- Where a packet stands among those of its chunk: the scales, then the hops. -/
def pktKey (p : CflPkt) : Nat := if p.acc.isEmpty then 0 else p.hop + 1
def modCfl (id : Nat) (f : CflSt → CflSt) (s : State) : State := modCmd id (fun k => { k with cfl := k.cfl.map f, since := s.us }) s
/-- The collective of a command that is at work. -/
def cflOf (s : State) (id : Nat) : Option (Cmd × CflSt) :=
  match s.cmds.find? (fun k => k.id == id) with
  | some k => if isCfl k.op && !k.done && k.prog == 1 && !s.fatal && !s.dead then k.cfl.map (fun x => (k, x)) else none
  | none => none
/-- Puts a packet for a participant into the fabric. -/
def cflTo (x : CflSt) (n : Nat) (p : CflPkt) (s : State) : State :=
  let d := x.ring.getD (n % x.size) (0, 0, false, 0)
  { s with sent := s.sent ++ [.cfl (BitVec.ofNat 16 d.1) d.2.1 p] }
/-- Sends a packet to the next participant of the ring, and holds it for a backup (R270, R275). -/
def cflSend (k : Cmd) (x : CflSt) (p : CflPkt) (s : State) : State :=
  modCfl k.id (fun x => { x with sentP := x.sentP ++ [(p.chunk, pktKey p, pktBytes k.block p)], held := x.held ++ [p] }) (cflTo x (x.pos + 1) p s)
def cflNote (k : Cmd) (p : CflPkt) (s : State) : State :=
  modCfl k.id (fun x => { x with recvP := x.recvP ++ [(p.chunk, pktKey p, pktBytes k.block p)] }) s
def CflSt.got (x : CflSt) (c h : Nat) : Bool := x.recvP.any (fun r => r.1 == c && r.2.1 == h + 1)
def CflSt.gave (x : CflSt) (c h : Nat) : Bool := x.sentP.any (fun r => r.1 == c && r.2.1 == h + 1)
def CflSt.isDone (x : CflSt) (c : Nat) : Bool := x.done.any (fun d => d.1 == c)
def CflSt.isChecked (x : CflSt) (c : Nat) : Bool := x.checks.any (fun d => d.1 == c)
/-- The participants pass a chunk's final bytes on up to the one before the maker (R270). -/
def cflPass (k : Cmd) (x : CflSt) (p : CflPkt) (s : State) : State :=
  if k.op = opRs || (x.pos + 1) % x.size = cflMaker k.op p.chunk then s else cflSend k x { p with final := true } s
/-- A chunk is final at this participant, or the chain of its check is (R270, R274). -/
def cflDone (k : Cmd) (x : CflSt) (p : CflPkt) (s : State) : State :=
  cflPass k x p (modCfl k.id (fun y =>
    if p.hop < x.size then { y with done := y.done ++ [(p.chunk, p.acc, p.scales)] }
    else { y with checks := y.checks ++ [(p.chunk, p.acc, p.scales)] }) s)

/-- An element is checked (R274). -/
def cflChecked (b : BitVec 512) (e : Nat) : Bool :=
  cflChk b != 0 && hash64 (cflCkey b * 2 ^ 24 + 0xFFFFFF) e % 2 ^ cflChk b == 0
def chunkChecked (b : BitVec 512) (p c : Nat) : List Nat := (span (chunkLo b p c) (chunkN b p c)).filter (cflChecked b)
/-- A chain is recomputed for a chunk that holds a checked element (R274). -/
def cflChain (k : Cmd) (x : CflSt) (c : Nat) : Bool := !(chunkChecked k.block x.size c).isEmpty

/-! Starting (R269 to R272). -/

/-- A failing part of the participant's contribution: the chunk goes without it, and the others go on (R255). -/
def cflLack (k : Cmd) (cs : List Nat) (r : PartRes) (s : State) : State :=
  countFound k.core r.found (modCfl k.id (fun x => { x with lacks := x.lacks ++ cs })
    (modCmd k.id (fun k => { k with fail := firstOf k.fail r.fail }) s))
/-- What is left once some bytes could not be read: their pages are asked for, or the chunks lack the contribution. -/
def cflWant (k : Cmd) (cs : List Nat) (r : PartRes) (wait s : State) : State :=
  if r.miss.isEmpty then cflLack k cs r s else askPages k r.miss wait
/-- The participant starts a chunk, at hop 0 or with its final bytes, and the chain of its check (R270, R274). -/
def cflStart1 (id : Nat) (s : State) (c : Nat) : State :=
  match cflOf s id with
  | none => s
  | some (k, x) => match cflOwn s k x c with
    | .error r => cflWant k [c] r s s
    | .ok own =>
      let go := fun (hop : Nat) (s : State) =>
        let p : CflPkt := ⟨c, hop, false, own, cflAgreed k x c, false⟩
        if cflReduces k.op then cflSend k x p s else cflDone k x p s
      let s := go 0 s
      if cflChain k x c then go x.size s else s
/-- The chunks that the participant has still to start. -/
def cflStarts (k : Cmd) (x : CflSt) : List Nat :=
  (chunksOf k.block x.size).filter (fun c => !x.lacks.contains c &&
    if cflReduces k.op then x.hopOf c == 0 && !x.gave c 0 else cflMaker k.op c == x.pos && !x.isDone c)
/-- The scales are agreed once every participant's are there: for each block the largest code (R272). -/
def cflAgree (k : Cmd) (s : State) : State :=
  modCfl k.id (fun x =>
    if (upto x.size).all (fun n => x.heard.any (fun h => h.1 == n)) then
      let ag := (upto (cflBlocks k.block)).map (fun n => (x.heard.map (fun h => h.2.getD n 0)).foldl (fun a b => if a.toNat < b.toNat then b else a) 0)
      { x with agreed := some ag, inv := x.inv || ag.contains 0xFF }
    else x) s
/-- The participant's own scales go round the ring (R272). -/
def cflHello (k : Cmd) (x : CflSt) (s : State) : State :=
  match cflRead s k 0 32 1 (cflSscl k.block) (cflBlocks k.block) with
  | .error r => cflWant k (chunksOf k.block x.size) r s s
  | .ok bs => cflAgree k (cflSend k x ⟨x.pos, 0, false, [], bs, false⟩ (modCfl k.id (fun x => { x with heard := (x.pos, bs) :: x.heard }) s))
/-- What a participant has to send of its own. -/
def cflBegin (id : Nat) (s : State) : State :=
  match cflOf s id with
  | none => s
  | some (k, x) =>
    if cflI8 k.block && !x.heard.any (fun h => h.1 == x.pos) && x.lacks.isEmpty then cflHello k x s
    else if cflI8 k.block && x.agreed.isNone then s
    else (cflStarts k x).foldl (cflStart1 id) s

/-! Arrivals (R270, R272, R274, R275). -/

/-- Scales of another participant are kept and passed on round the ring (R272). -/
def cflHear (k : Cmd) (x : CflSt) (p : CflPkt) (s : State) : State :=
  if !cflI8 k.block || x.size ≤ p.chunk || p.chunk = x.pos || x.heard.any (fun h => h.1 == p.chunk) || p.scales.length ≠ cflBlocks k.block then s
  else
    let s := cflNote k p (modCfl k.id (fun x => { x with heard := x.heard ++ [(p.chunk, p.scales)] }) s)
    cflAgree k (if (x.pos + 1) % x.size = p.chunk then s else cflSend k x p s)
/-- The participant performs its hop on an accumulator and sends the result on; the hops of a check's chain count nothing in STAT. -/
def cflCombine (k : Cmd) (x : CflSt) (p : CflPkt) (s : State) : State :=
  match cflOwn s k x p.chunk with
  | .error r => cflWant k [p.chunk] r (modCfl k.id (fun x => { x with inbox := x.inbox ++ [p] }) s) (cflNote k p s)
  | .ok own =>
    let h := p.hop % x.size + 1
    let r := hopChunk k x p.chunk h p.acc p.scales own
    let s := if x.size ≤ p.hop then cflNote k p s else modCfl k.id (fun x => { x with
      rescale := x.rescale + r.resc, satblk := x.satblk + r.sat, inv := x.inv || r.inv }) (cflNote k p s)
    let q : CflPkt := ⟨p.chunk, p.hop + 1, false, r.acc, r.scales, p.rescaled || decide (r.resc ≠ 0)⟩
    if h + 1 = x.size then cflDone k x q s else cflSend k x q s
/-- A packet with codes reaches a participant (R270, R274); one that it has, or that is not for it, is discarded. -/
def cflCodesIn (k : Cmd) (x : CflSt) (p : CflPkt) (s : State) : State :=
  if x.size ≤ p.chunk || p.acc.length ≠ chunkN k.block x.size p.chunk || 2 * x.size ≤ p.hop then s
  else if cflI8 k.block && x.agreed.isNone then modCfl k.id (fun x => { x with inbox := x.inbox ++ [p] }) s
  else if x.size ≤ p.hop && !cflChain k x p.chunk then s
  else if p.final then
    (if k.op = opRs || (if p.hop < x.size then x.isDone p.chunk else x.isChecked p.chunk) then s else cflDone k x p (cflNote k p s))
  else if cflReduces k.op && p.hop % x.size + 1 == x.hopOf p.chunk && !x.got p.chunk p.hop then cflCombine k x p s
  else s
/-- A packet reaches a participant. -/
def cflTake (id : Nat) (s : State) (p : CflPkt) : State :=
  match cflOf s id with
  | none => s
  | some (k, x) => if p.acc.isEmpty then cflHear k x p s else cflCodesIn k x p s
/-- The packets that have waited here are looked at again, and what the participant has to send goes out. -/
def cflTurn (id : Nat) (s : State) : State :=
  match cflOf s id with
  | none => s
  | some (_, x) =>
    let s := cflBegin id s
    if x.inbox.isEmpty then s else x.inbox.foldl (cflTake id) (modCfl id (fun x => { x with inbox := [] }) s)
/-- The command is a collective at work for a core. -/
def cflActive (s : State) (c : CoreId) (id : Nat) : Option (Cmd × CflSt) := (cflOf s id).bind (fun y => if y.1.core = c then some y else none)
/-- CFL_HOP (R270): the hop is the same in a router context and at the endpoint (R271). -/
def execCflHop (c : CoreId) (id : Nat) (k : CflPkt) (s : State) : Out :=
  match cflActive s c id with
  | none => .next s
  | some _ => .next (cflTurn id (cflTake id s k))

/-! Completion (R270, R273, R274). -/

/-- The checked elements that differ from what the check's chain gives (R274). -/
def cflWrong (k : Cmd) (x : CflSt) : List Nat :=
  (cflGets k x).flatMap (fun c =>
    match x.done.find? (fun d => d.1 == c), x.checks.find? (fun d => d.1 == c) with
    | some d, some q =>
      let lo := chunkLo k.block x.size c
      (chunkChecked k.block x.size c).filter (fun e => d.2.1.getD (e - lo) 0 != q.2.1.getD (e - lo) 0 ||
        (cflI8 k.block && d.2.2.getD ((e - lo) / 32) 0 != q.2.2.getD ((e - lo) / 32) 0))
    | _, _ => [])
/-- STAT (R273): the digests leave out the checks' chains, which pass over other links (R336; DEDUCED, log entry 104). -/
def cflStatBytes (k : Cmd) (x : CflSt) : List Byte :=
  let crc := fun (l : List (Nat × Nat × List Byte)) =>
    crc32c ((upto x.size).flatMap (fun c => (upto (x.size + 1)).flatMap (fun h =>
      (l.filter (fun r => r.1 == c && r.2.1 == h)).flatMap (fun r => r.2.2))))
  let checked := (((cflGets k x).filter x.isChecked).flatMap (chunkChecked k.block x.size)).length
  bytesOf 8 (x.rescale % 2 ^ 32 + x.satblk % 2 ^ 32 * 2 ^ 32) ++
  bytesOf 8 (x.late % 2 ^ 16 + checked % 2 ^ 16 * 2 ^ 16 + putB 32 (cflReduces k.op && x.ctx.isNone) + putB 33 x.inv +
    putB 34 (!(cflWrong k x).isEmpty)) ++
  bytesOf 8 (crc x.sentP) ++ bytesOf 8 (crc x.recvP) ++ bytesOf 32 0
/-- STAT lands in L; a granule that it covers in part is read first (R329). -/
def cflStatPart (s : State) (k : Cmd) (x : CflSt) : PartRes :=
  let a := cflStat k.block
  if a = 0 then .nothing
  else match partBadL (cr s k.core) a 64 with
    | some g => .eccL (cflCount k.block) g
    | none => { PartRes.nothing with lw := placeL a (cflStatBytes k x) }
/-- One page's part of what the command writes to G: a column that it covers in part is read first (R329). -/
def putPage (s : State) (k : Cmd) (a : Nat) (bs : List Byte) (x : Nat × Nat) : PartRes :=
  match pageReach s k true false x with
  | .bad c va _ => .failed (failG 0 c va)
  | .miss ipa va tbl lvl => .asks ipa va tbl lvl true
  | .ok l =>
    let bad := (badCols s x.1 l).filter (fun g => decide (g.1 < a) || decide (a + bs.length < g.1 + 32))
    { readFail 0 none bad with
      gw := (spanWrites l (bs.drop (x.1 - a))).filter (fun w => !bad.any (fun g => decide (g.2 ≤ w.1) && decide (w.1 < g.2 + 32))) }
/-- Bytes of the result, whose failures take their places among the elements. -/
def cflPut (s : State) (k : Cmd) (e0 den num a : Nat) (bs : List Byte) : PartRes :=
  if 2 ^ 52 < a + bs.length then .failed (failG e0 cAccess a)
  else (((pieces a bs.length).map (fun x => (putPage s k a bs x).atElems e0 den num a)).foldl PartRes.join .nothing)
/-- What the command writes: the finished chunks, their scales, and STAT. -/
def cflResult (s : State) (k : Cmd) (x : CflSt) (fail : Option CmdFail) : PartRes :=
  let b := k.block
  let w := cflW b
  let ds := x.done.filter (fun d => (cflGets k x).contains d.1)
  let gs := ds.flatMap (fun d =>
    let lo := chunkLo b x.size d.1
    cflPut s k lo 1 w (cflDst b + w * cflDstAt k x d.1) (d.2.1.flatMap (fun v => bytesOf w v.toNat)) ::
      (if cflI8 b then [cflPut s k lo 32 1 (cflDscl b + cflDstAt k x d.1 / 32) d.2.2] else []))
  let mis := (cflWrong k x).foldl (fun (m : Option CmdFail) e =>
    firstOf m (some (failG e cCheckMismatch (cflDst b + w * (if k.op = opRs then e - chunkLo b x.size x.pos else e))))) none
  let r := (cflStatPart s k x :: gs).foldl PartRes.join .nothing
  { r with fail := firstOf (firstOf mis fail) r.fail }
/-- A collective is carried out once the pages of its result are there. -/
def cflFinish (k : Cmd) (x : CflSt) (fail : Option CmdFail) (s : State) : State :=
  let r := cflResult s k x fail
  if r.miss.isEmpty then carryOut k r s else askPages k r.miss s
/-- Everything that this participant receives is there, its checks included, but for the chunks that lack its contribution. -/
def cflReady (k : Cmd) (x : CflSt) : Bool :=
  (cflGets k x).all (fun c => x.lacks.contains c || (x.isDone c && (!cflChain k x c || x.isChecked c)))
/-- The participant has sent all that others await of it. -/
def cflServed (k : Cmd) (x : CflSt) : Bool :=
  !cflReduces k.op || (chunksOf k.block x.size).all (fun c => x.lacks.contains c ||
    ((x.isDone c || (if x.hopOf c = 0 then x.gave c 0 else x.got c (x.hopOf c - 1))) &&
     (!cflChain k x c || x.isChecked c || (if x.hopOf c = 0 then x.gave c x.size else x.got c (x.size + x.hopOf c - 1)))))

/-! The start (R269, R271). -/

def ringEntry (x : Nat) : Nat × Nat × Bool × Nat := (bits x 0 16, bits x 16 6, bitAt x 22, bits x 24 8)
/-- Two commands of this module belong to one collective (R269). -/
def sameCfl (k y : Cmd) : Bool :=
  y.core != k.core && y.part == k.part && y.op == k.op && cflRing y.block == cflRing k.block && bw y.block 3 == bw k.block 3 &&
  cflCkey y.block == cflCkey k.block
/-- The collective takes one reduction context of this module's router from the partition's allotment: with the first of its commands
here, which the others share (R271, R298). -/
def takeCtx (k : Cmd) (s : State) : State × Option Nat :=
  match s.cmds.find? (fun y => y.prog == 1 && sameCfl k y) with
  | some y => (s, y.cfl.bind CflSt.ctx)
  | none =>
    if cflReduces k.op && decide ((pt s k.part).ctxUsed < (pt s k.part).allot) then
      (modPt s k.part (fun p => { p with ctxUsed := p.ctxUsed + 1 }), some k.id)
    else (s, none)
/-- A participant reads its ring and finds itself in it, and starts. -/
def cflOpen (k : Cmd) (st : CflSt) (s : State) : State :=
  let ring := cflRing k.block
  let halt := fun (r : PartRes) => if r.miss.isEmpty then carryOut k (r.join (cflStatPart s k st)) s else askPages k r.miss s
  match cflRead s k 0 0 1 ring 8 with
  | .error r => halt r
  | .ok h =>
    let p := bits (ofBytes h) 0 8 + 1
    match cflRead s k 0 0 1 ring (8 + 8 * p) with
    | .error r => halt r
    | .ok bs =>
      let es := (upto p).map (fun i => fieldAt bs (8 + 8 * i) 8)
      let clean := fieldAt bs 0 8 < 256 && decide (2 ≤ p) && es.all (fun e => bits e 23 1 == 0 && bits e 32 32 == 0)
      let mine := fun (e : Nat) => bits e 0 16 == Config.thisModule.toNat && bits e 16 6 == (cr s k.core).rank.toNat
      match clean, (upto p).find? (fun i => mine (es.getD i 0)) with
      | true, some pos =>
        let t := takeCtx k s
        let x := { st with ring := es.map ringEntry, pos := pos, ctx := t.2 }
        cflTurn k.id (modCmd k.id (fun k => { k with cfl := some x, prog := 1, since := s.us, waits := [] }) t.1)
      | _, _ => halt (.failed (failG 0 cAccess ring))
/-- An engine works on a collective. -/
def cflStep (k : Cmd) (x : CflSt) (s : State) : State :=
  if k.prog = 0 then cflOpen k x s
  else
    let s := cflTurn k.id s
    match cflOf s k.id with
    | none => s
    | some (k, x) => if k.waits.all (fun w => w.2.2) && cflReady k x && cflServed k x then cflFinish k x none s else s

/-! Late contributions (R275). The questions and answers about them travel as packets: one without codes asks for the packet that its chunk
and hop name (DESIGN CHOICE, log entry 27). -/

/-- The participant that makes a packet. -/
def cflFrom (x : CflSt) (c h : Nat) : Nat := (c + 1 + h) % x.size
def CflSt.entry (x : CflSt) (n : Nat) : Nat × Nat × Bool × Nat := x.ring.getD (n % x.size) (0, 0, false, 0)
/-- This participant backs another up, and has a copy of its contribution. -/
def cflBacks (k : Cmd) (x : CflSt) (n : Nat) : Bool := (x.entry n).2.2.1 && (x.entry n).2.2.2 == x.pos && cflBksrc k.block != 0
/-- Asks a participant for a packet. -/
def cflAsk (x : CflSt) (n c h : Nat) (s : State) : State :=
  let d := x.entry n
  { s with sent := s.sent ++ [.cflAsk (BitVec.ofNat 16 d.1) d.2.1 c h] }
/-- The packets that this participant awaits of the one before it: each chunk with its hop, or with P for its final bytes. -/
def cflAwaits (k : Cmd) (x : CflSt) : List (Nat × Nat) :=
  (chunksOf k.block x.size).filterMap (fun c =>
    if x.isDone c || x.lacks.contains c then none
    else if cflReduces k.op && x.hopOf c != 0 && !x.got c (x.hopOf c - 1) then some (c, x.hopOf c - 1)
    else if (cflGets k x).contains c && cflMaker k.op c != x.pos then some (c, x.size) else none)
/-- A collective whose packet does not come, nor a replacement for it: the chunks that are finished are written. -/
def cflTimeout (k : Cmd) (x : CflSt) (s : State) : State :=
  let first := (((cflGets k x).filter (fun c => !x.isDone c)).head?.map (chunkLo k.block x.size)).getD 0
  cflFinish k x (some (failLate first)) s
/-- The wait for a packet is over: the backup of the participant before this one is asked, once for each packet, and where there is none,
or it is late itself, the command ends. -/
def cflLate (k : Cmd) (x : CflSt) (s : State) : State :=
  let p := x.entry (x.pos + x.size - 1)
  let new := (cflAwaits k x).filter (fun a => !x.asked.contains a)
  if earlierRange s k then s
  else if p.2.2.1 && !new.isEmpty then
    modCfl k.id (fun x => { x with asked := x.asked ++ new }) (new.foldl (fun s a => cflAsk x p.2.2.2 a.1 a.2 s) s)
  else cflTimeout k x s
/-- The backup makes the packet of hop h of a chunk from its copy and the accumulator of the hop before, and sends it to the participant
after the late one; a last hop gives the final bytes. -/
def cflMake (k : Cmd) (x : CflSt) (c h : Nat) (acc : Option CflPkt) (s : State) : State :=
  match cflCopy s k x c with
  | .error r => if r.miss.isEmpty then s else askPages k r.miss s
  | .ok copy =>
    let next := cflFrom x c h + 1
    match acc with
    | none => cflTo x (if cflReduces k.op then next else cflMaker k.op c + 1) ⟨c, 0, !cflReduces k.op, copy, cflAgreed k x c, false⟩ s
    | some p =>
      let r := hopChunk k x c h p.acc p.scales copy
      cflTo x next ⟨c, h, decide (h + 1 = x.size), r.acc, r.scales, p.rescaled || decide (r.resc ≠ 0)⟩ (modCfl k.id (fun x => { x with
        rescale := x.rescale + r.resc, satblk := x.satblk + r.sat, inv := x.inv || r.inv }) s)
/-- The final bytes of a chunk go to those after the participants that this one backs up, and to the backup of the next one. -/
def cflFinals (k : Cmd) (x : CflSt) (p : CflPkt) (s : State) : State :=
  let next := x.entry (x.pos + 1)
  let ns := ((upto x.size).filter (fun n => cflBacks k x n && n != cflMaker k.op p.chunk)).map (· + 1) ++ (if next.2.2.1 then [next.2.2.2] else [])
  ns.foldl (fun s n => cflTo x n p s) s
/-- Someone asks for the packet of a hop, or for the final bytes: the backup of the one that should have made it makes it, or fetches the
accumulator that the participant before that one holds; and who holds the packet gives it to the backup of the next one. -/
def cflAsked (k : Cmd) (x : CflSt) (p : CflPkt) (s : State) : State :=
  let hold := fun h => x.held.find? (fun q => q.chunk == p.chunk && q.hop == h && !q.acc.isEmpty && !q.final)
  let late := if cflReduces k.op then cflFrom x p.chunk p.hop else cflMaker k.op p.chunk
  if x.size ≤ p.hop then
    (match x.done.find? (fun d => d.1 == p.chunk) with
      | some d => cflFinals k x ⟨p.chunk, x.size - 1, true, d.2.1, d.2.2, false⟩ s
      | none => s)
  else if cflBacks k x late then
    (if p.hop = 0 then cflMake k x p.chunk 0 none s
     else match hold (p.hop - 1) with
       | some q => cflMake k x p.chunk p.hop (some q) s
       | none => cflAsk x (late + x.size - 1) p.chunk (p.hop - 1) s)
  else match hold p.hop with
    | some q => if (x.entry (x.pos + 1)).2.2.1 then cflTo x (x.entry (x.pos + 1)).2.2.2 q s else s
    | none => s
/-- An answer: the packet that this participant has asked for, an accumulator that it has fetched as a backup, or its own packet as its
backup has made it, which ends its command. -/
def cflAnswer (k : Cmd) (x : CflSt) (p : CflPkt) (s : State) : State :=
  if x.asked.contains (p.chunk, p.hop) || (p.final && x.asked.contains (p.chunk, x.size)) then
    cflTurn k.id (cflTake k.id (modCfl k.id (fun x =>
      { x with late := x.late + 1, asked := x.asked.filter (fun a => a.1 ≠ p.chunk) }) s) p)
  else if p.final then cflFinals k x p s
  else if cflReduces k.op && cflBacks k x (cflFrom x p.chunk (p.hop + 1)) && decide (p.hop + 1 < x.size) then
    cflMake k x p.chunk (p.hop + 1) (some p) s
  else if x.hopOf p.chunk == p.hop then cflTimeout k x s
  else s
/-- CFL_LATE_REPLACEMENT (R275): a question or an answer about a late participant's packet. -/
def execCflLateReplacement (c : CoreId) (id : Nat) (k : CflPkt) (s : State) : Out :=
  match cflActive s c id with
  | none => .next s
  | some (m, x) =>
    if x.size ≤ k.chunk || (cflI8 m.block && x.agreed.isNone) || earlierRange s m then .next s
    else if k.acc.isEmpty then .next (cflAsked m x k s)
    else if k.acc.length ≠ chunkN m.block x.size k.chunk then .next s
    else .next (cflAnswer m x k s)

/-- RECV_TIMEOUT (R275, R277). -/
def execRecvTimeout (c : CoreId) (id : Nat) (s : State) : Out :=
  match cmdOf s c id with
  | none => .next s
  | some k =>
    if k.done || !recvLate s k || s.fatal || s.dead then .next s
    else if k.op = opRecv then .next (recvTimeoutStep k s)
    else match cflActive s c id with
      | some (k, x) => if cflReady k x && cflServed k x then .next s else .next (cflLate k x s)
      | none => .next s

/-! The events of the engines (R205, R255). -/

/-- An engine works on a command: nothing of it has been carried out before, and no earlier command of its class stands in its
way (R233). -/
def engineStep (k : Cmd) (s : State) : State :=
  if k.done || earlierRange s k || k.waits.any (fun w => !w.2.2) then s
  else if k.op = opCpy || k.op = opCpyw || k.op = opRkgath || k.op = opRkseg then performParts k s
  else if k.op = opRill then performRill k s
  else if k.op = opSend then performSend k s
  else if k.op = opRecv then feedAll (msgPeer k.block) (msgFlow k.block) s
  else match k.cfl with
    | some x => cflStep k x s
    | none => s

/-- RANGE_RETIRE (R205): a read range retires once the engine has taken its bytes, a write range once the command's bytes have
landed in it; the ranges of the transpose queue are done with at once. -/
def rangeRetire (c : CoreId) (n : Nat) (s : State) : State :=
  match (cr s c).ranges[n]? with
  | none => s
  | some r =>
    if r.id = 0 then modCr s c (fun x => { x with ranges := x.ranges.eraseIdx n })
    else match cmdOf s c r.id with
    | none => s
    | some k =>
      if s.fatal || s.dead || earlierRange s k then s
      else if r.wr then (if isCfl k.op then s else engineStep k s)
      else if (badL (cr s c) r.lo (r.hi + 1 - r.lo)).isSome then s
      else
        let s1 := modCmd k.id (fun k => { k with cap := k.cap ++ (span r.lo (r.hi + 1 - r.lo)).map (fun a => (a, (cr s c).l.rd a)) }) s
        modCr s1 c (fun x => { x with ranges := x.ranges.eraseIdx n })
def execRangeRetire (c : CoreId) (n : Nat) (s : State) : Out := .next (rangeRetire c n s)

/-- ENGINE_COMMAND_COMPLETE (R255): the command is carried out, where that has not been done, and completes once nothing is
outstanding. A TICK completes with its last close (R237). -/
def engineComplete (c : CoreId) (id : Nat) (s : State) : State :=
  match cmdOf s c id with
  | none => s
  | some k =>
    if s.fatal || s.dead || k.op = opTick then s
    else if k.op = opSpawn then performSpawn k s
    else if k.op = opPancfg then endCmd id none s
    else
      let s := engineStep k s
      match cmdOf s c id with
      | some k => if k.done then completeCmd k s else s
      | none => s
def execEngineCommandComplete (c : CoreId) (id : Nat) (s : State) : Out := .next (engineComplete c id s)

end Sys2Proof.Machine
end

