-- ==== Sys2Proof/Machine/Fabric.lean ====
section
/-! DEFINITION. Closes and advances of pan regions, mirrored copies at the buddy, and flits of the fabric (R225 to R228, R234 to
R238, R244, R248, R330). -/
namespace Sys2Proof.Machine

/-! Closes (R236, R237, R244). -/

/-- The members of a region that lie on a channel. -/
def membsOn (r : Region) (ch : Nat) : List Nat := (upto r.membs.length).filter (fun m => chanOf r m == ch)
/-- The first uncorrectable column under a member's bytes: its virtual address and its location. -/
def membBadAt (s : State) (r : Region) (m : Nat) : Option (Nat × Nat) :=
  let d := panDesc r.desc
  (upto ((d.msize + 31) / 32)).findSome? (fun i =>
    let o := m * d.msize + 32 * i
    let loc := locOfOff r.locs o
    (badColumn s loc (min 32 d.msize)).map (fun _ => (r.base + o, loc)))
/-- One member meets the close of intake n: it advances or is visited if due, its Y code goes to its bytes, and an uncorrectable
granule stops it (R330). -/
def closeMemb (id n : Nat) (s : State) (m : Nat) : State :=
  match regionOf s id with
  | none => s
  | some r =>
    let d := panDesc r.desc
    let k := membOf r m
    let set := fun (k : Memb) => modRegion id (fun r => { r with membs := r.membs.set m k })
    if k.bad || !dueOn d n m k then set { k with n := n } s
    else match membBadAt s r m with
      | some a => errLog (pt s r.part).vf 1 0 (a.1 / 32 * 32) (foundG a.2 (set { k with bad := true, n := n } s))
      | none =>
        let k := advMemb d r.table n m k
        let s := set k s
        pubPan s (membWrites r m k)
/-- The samples that a close takes on a channel (R248). -/
def closeCount (r : Region) (n : Nat) (ms : List Nat) : Nat :=
  sumNat (ms.map (fun m => let k := membOf r m
    if dueOn (panDesc r.desc) n m k then sumNat (k.els.map (fun e => (closedOf n e).2)) else 0))
/-- The region has been passed by the close on every channel: N rises, and its TICK completes, or waits for the buddy (R237). -/
def closeAll (id : Nat) (s : State) : State :=
  match regionOf s id with
  | none => s
  | some r =>
    if !(chansOf r).all (fun c => r.passed.contains c) then s
    else
      let s := modRegion id (fun r => { r with n := r.n + 1, passed := [], ticks := r.ticks.tail }) s
      match r.ticks.head? with
      | none => s
      | some t =>
        match (if r.mirror then mirrorAt s r.part r.base else none) with
        | none => endCmd t.2 none s
        | some b =>
          let a := s.nextId
          modRegion id (fun r => { r with late := r.late ++ [(t.1, t.2, a)] }) (awaitAck b.buddy r.part s)
/-- TICK_CLOSE_ARRIVAL (R237): the close of the running TICK reaches a channel, and the members there advance. (DESIGN CHOICE, log entry 48.) -/
def closeArrive (id ch : Nat) (s : State) : State :=
  match regionOf s id with
  | none => s
  | some r =>
    if r.ticks.isEmpty || r.passed.contains ch || !(chansOf r).contains ch || s.fatal || s.dead then s
    else
      let ms := membsOn r ch
      let s := match (if r.mirror then mirrorAt s r.part r.base else none) with
        | none => s
        | some b =>
          let f : FlowId := ⟨64, b.buddy, laneHash (b.dpa + (r.base - b.base))⟩
          sendFlit f (fun q => .mirror f q
            (.close Config.thisModule id (r.n + 1) ch (chansOf r).length (closeCount r (r.n + 1) ms))) s
      let s := ms.foldl (closeMemb id (r.n + 1)) s
      closeAll id (modRegion id (fun r => { r with passed := r.passed ++ [ch] }) s)
def execTickCloseArrival (r : Nat) (ch : Nat) (s : State) : Out := .next (closeArrive r ch s)

/-! The buddy's side (R227, R248). -/

def modCopy (m : BitVec 16) (id : Nat) (f : PanCopy → PanCopy) (s : State) : State :=
  { s with panCopies := s.panCopies.map (fun k => if k.m = m && k.id = id then f k else k) }
def copyOf (s : State) (m : BitVec 16) (id : Nat) : Option PanCopy := s.panCopies.find? (fun k => k.m == m && k.id == id)
/-- The 64 KiB pages of some bytes are known as copies of another module's region, which its own cores may only read (R227). -/
def noteCopy (m : BitVec 16) (lo n : Nat) (s : State) : State :=
  let c : CopyPage := ⟨m, lo / 65536 * 65536, (lo + n - 1) / 65536 * 65536 + 65535⟩
  if n = 0 || s.copies.contains c then s else { s with copies := s.copies ++ [c] }
/-- A member of a copy meets an advance; one under an uncorrectable column stops, as at the primary (R330). -/
def copyMemb (r : Region) (n : Nat) (x : State × List Memb) (m : Nat) : State × List Memb :=
  let k := membOf r m
  match membBadAt x.1 r m with
  | some a => (foundG a.2 x.1, x.2 ++ [{ k with bad := true, n := n }])
  | none => (x.1, x.2 ++ [if k.bad then { k with n := n } else advMemb (panDesc r.desc) r.table n m k])
/-- The Y codes of a copy's members that are not stopped. -/
def copyWrites (r : Region) : List (Nat × Byte) :=
  (upto r.membs.length).flatMap (fun m => if (membOf r m).bad then [] else membWrites r m (membOf r m))
/-- The buddy advances an intake once it has the closes of all its channels and every sample that they count (R248), and
acknowledges the advance. -/
def copyAdvance (m : BitVec 16) (id : Nat) : Nat → State → State
  | 0, s => s
  | fuel + 1, s =>
    match copyOf s m id with
    | none => s
    | some k =>
      let n := k.reg.n + 1
      let cs := k.closes.filter (fun c => c.1 == n)
      let all := upto k.reg.membs.length
      if cs.isEmpty || cs.any (fun c => cs.length ≠ c.2.2.1) || closeCount k.reg n all < sumNat (cs.map (fun c => c.2.2.2)) then s
      else
        let x := all.foldl (copyMemb k.reg n) (s, [])
        let r := { k.reg with n := n, membs := x.2 }
        let s := modCopy m id (fun k => { k with reg := r, closes := k.closes.filter (fun c => c.1 ≠ n) }) x.1
        let s := pubPan s (copyWrites r)
        copyAdvance m id fuel { s with sent := s.sent ++ [.ackMirror m (.close m id n 0 0 0)] }
def copyOn (m : BitVec 16) (id : Nat) (s : State) : State := copyAdvance m id ((((copyOf s m id).map (fun k => k.closes.length)).getD 0) + 1) s
/-- What has come for a copy before its configuration is kept (R248). -/
def copyEarly (m : BitVec 16) (id : Nat) (k : MirMsg) (s : State) : State :=
  match copyOf s m id with
  | some _ => modCopy m id (fun c => { c with early := c.early ++ [k] }) s
  | none => { s with panCopies := s.panCopies ++ [⟨m, id, ⟨id, 0, 0, [], 0, [], 0, [], [], [], [], false⟩, [], false, [k]⟩] }
def copyKnown (s : State) (m : BitVec 16) (id : Nat) : Bool := (copyOf s m id).any PanCopy.known
/-- A sample or a close for a copy, in whatever order they come (R248). -/
def copyTake (s : State) (k : MirMsg) : State :=
  match k with
  | .sample m id mem intake el c fl =>
    if !copyKnown s m id then copyEarly m id k s
    else
      let s := modCopy m id (fun k => { k with reg := { k.reg with membs := k.reg.membs.modify mem (fun b => { b with
        els := b.els.modify el (fun e => { e with slots := slotAdd intake c e.slots, flags := e.flags ||| fl }) }) } }) s
      copyOn m id { s with sent := s.sent ++ [.ackMirror m k] }
  | .close m id n ch chans count =>
    if !copyKnown s m id then copyEarly m id k s
    else copyOn m id (modCopy m id (fun k => { k with closes := k.closes ++ [(n, ch, chans, count)] }) s)
  | _ => s
/-- Bytes that another module or host writes here: a column that they cover in part is read first, and one that is uncorrectable keeps what it
holds (R329; DESIGN CHOICE, log entry 101). -/
def farWrite (a : Agent) (ws : List (Nat × Byte)) (s : State) : State :=
  let lost := fun (w : Nat × Byte) => s.badG.contains (w.1 / 32) && !(span (w.1 / 32 * 32) 32).all (fun i => ws.any (fun v => v.1 == i))
  let bad := ((ws.filter lost).map (fun w => w.1 / 32)).eraseDups
  pubBy a (bad.foldl (fun s g => foundG (32 * g) s) s) (ws.filter (fun w => !lost w))
/-- A forwarded write, sample, close, configuration or declaration at the buddy. -/
def mirrorArrive (k : MirMsg) (s : State) : State :=
  match k with
  | .write m dpa data =>
    let s := farWrite (.host 0) (placeL dpa.toNat data) (noteCopy m dpa.toNat data.length s)
    { s with sent := s.sent ++ [.ackMirror m k] }
  | .config m id desc dpa table =>
    let d := panDesc desc
    let r : Region := ⟨id, 0, dpa.toNat, [(dpa.toNat, d.size)], desc, table, 0, [], [], [], List.replicate d.nmem (newMemb d), false⟩
    let old := copyOf s m id
    let early := (old.map (fun c => if c.known then [] else c.early)).getD []
    let s := noteCopy m dpa.toNat d.size { s with
      panCopies := s.panCopies.filter (fun c => !(c.m == m && c.id == id)) ++ [⟨m, id, r, [], true, []⟩] }
    early.foldl copyTake { pubPan s (regionWrites r) with sent := s.sent ++ [.ackMirror m k] }
  | .declare m dpa len => noteCopy m dpa.toNat len s
  | k => copyTake s k
/-- MIRROR_WRITE_ARRIVAL (R227): the buddy publishes what is forwarded at module scope and acknowledges it. -/
def execMirrorWriteArrival (k : MirMsg) (s : State) : Out := .next (if s.fatal || s.dead then s else mirrorArrive k s)

/-! Flows (R225). -/

def flowOf (s : State) (f : FlowId) : Flow := (s.flows.find? (fun x => x.id == f)).getD ⟨f, 0, []⟩
def setFlow (x : Flow) (s : State) : State := { s with flows := x :: s.flows.filter (fun y => y.id ≠ x.id) }
/-- An acknowledgement arrives; a TICK that waits for the buddy completes (R223, R237). -/
def ackArrive (id : Nat) (s : State) : State :=
  let s := { s with ackWait := s.ackWait.filter (fun a => a.id ≠ id) }
  let done := s.regions.flatMap (fun r => r.late.filter (fun t => t.2.2 == id))
  let s := { s with regions := s.regions.map (fun r => { r with late := r.late.filter (fun t => t.2.2 ≠ id) }) }
  done.foldl (fun s t => endCmd t.2.1 none s) s
/-- A sample from another module joins the intake that is open at its word member's channel (R236); on an uncorrectable column it is not
performed (R330). -/
def flitSample (dpa : Nat) (v : BitVec 32) (s : State) : State :=
  match regionAt s dpa with
  | none => s
  | some r =>
    let d := panDesc r.desc
    match offOfLoc r.locs 0 dpa with
    | none => s
    | some o =>
      if d.row || d.size ≤ o || o % 4 ≠ 0 then s
      else
        let m := o / 4
        match badColumn s dpa 4 with
        | some g => errLog (pt s r.part).vf 0 0 ((r.base + o) / 32 * 32)
            (modRegion r.id (fun r => { r with membs := r.membs.modify m (fun k => { k with bad := true }) }) (foundG g s))
        | none =>
          let intake := openIntake r (chanOf r m)
          let s := modRegion r.id (fun r => { r with membs := r.membs.modify m (fun k => sampleElem d intake k (0, v.toNat)) }) s
          if r.mirror then forwardSample r m intake d s (0, v.toNat) else s
/-- Bytes of this module's memory that another module may write: none of a pan region (R210). -/
def farFits (s : State) (a n : Nat) : Bool := (span a n).all (fun b => dpaOk s b && (regionAt s b).isNone)
/-- One flit of a publication waits for the others, and with the last the publication is made whole (R220). -/
def flitPart (f : FlowId) (seq : BitVec 16) (a : Nat) (data : List Byte) (pub n : Nat) (s : State) : State :=
  let old := (s.partials.find? (fun p => p.src == f.src && p.pub == pub)).getD ⟨f.src, pub, n, []⟩
  let new := { old with flits := old.flits ++ [(f, seq, a, data)] }
  let s := { s with partials := s.partials.filter (fun p => !(p.src == f.src && p.pub == pub)) }
  if new.flits.length < new.n then { s with partials := s.partials ++ [new] }
  else
    let ws := (new.flits.filter (fun x => farFits s x.2.2.1 x.2.2.2.length)).flatMap (fun x => placeL x.2.2.1 x.2.2.2)
    let s := farWrite (.host (1 + f.src)) ws s
    { s with sent := s.sent ++ new.flits.map (fun x => .ackWrite x.1 x.2.1) }
/-- The Rill unit here performs what another module posts: its elements in one act, its flags with the partition that posted it (R213; DESIGN CHOICE,
log entry 57); on an uncorrectable column it is not performed (R330). -/
def flitRill (src a fmt op : Nat) (data : List Byte) (s : State) : State :=
  let w := tagWidth fmt / 8
  match badColumn s a data.length with
  | some g => foundG g s
  | none =>
    if !(farFits s a data.length && dpaStack s a) then s
    else pubBy (.host (1 + src)) s ((upto (data.length / w)).flatMap (fun i => (rillAt s fmt op (a + w * i) (fieldAt data (w * i) w)).1))
/-- What a flit does in its turn. A write that reaches a pan region or no memory of this module is dropped (R210). -/
def flitDo (f : FlowId) (s : State) (x : BitVec 16 × FlitBody) : State :=
  let done := fun (s : State) => { s with sent := s.sent ++ [.ackWrite f x.1] }
  match x.2 with
  | .write dpa data =>
    done (if farFits s dpa.toNat data.length then farWrite (.host (1 + f.src)) (placeL dpa.toNat data) s else s)
  | .part dpa data pub n => flitPart f x.1 dpa.toNat data pub n s
  | .rill dpa fmt op data => done (flitRill f.src dpa.toNat fmt op data s)
  | .ack id => ackArrive id s
  | .sample dpa v => done (flitSample dpa.toNat v s)
  | .mirror k => mirrorArrive k s
/-- The address that a flit's lane is the hash of (R225). -/
def flitAddr : FlitBody → Option Nat
  | .write dpa _ => some dpa.toNat
  | .part dpa _ _ _ => some dpa.toNat
  | .rill dpa _ _ _ => some dpa.toNat
  | .sample dpa _ => some dpa.toNat
  | .mirror (.write _ dpa _) => some dpa.toNat
  | _ => none
/-- The flits of a flow that have become due, in sequence-number order. -/
def flitDrain (f : FlowId) : Nat → State → State
  | 0, s => s
  | fuel + 1, s =>
    let x := flowOf s f
    match x.early.find? (fun e => e.1 == x.next) with
    | none => s
    | some e => flitDrain f fuel (flitDo f (setFlow { x with next := x.next + 1, early := x.early.filter (fun y => y.1 ≠ e.1) } s) e)
/-- FLOW_FLIT_ARRIVAL (R225): a flit that comes early is held; the others are applied strictly in sequence. (DESIGN CHOICE, log entry 87.) -/
def flitArrive (f : FlowId) (seq : BitVec 16) (k : FlitBody) (s : State) : State :=
  let x := flowOf s f
  if s.fatal || s.dead || (flitAddr k).any (fun a => laneHash a != f.lane) || 0x8000 ≤ (seq - x.next).toNat || x.early.any (fun e => e.1 == seq) then s
  else flitDrain f (x.early.length + 1) (setFlow { x with early := x.early ++ [(seq, k)] } s)
def execFlowFlitArrival (f : FlowId) (seq : BitVec 16) (k : FlitBody) (s : State) : Out := .next (flitArrive f seq k s)

end Sys2Proof.Machine
end

