-- ==== Sys2Proof/Machine/Paths.lean ====
section
/-! DEFINITION. The count of bundle executions along the paths of an image, by which IMAGE_LOAD refuses what R68 rejects (R67, R68,
R287). (DEDUCED, log entry 65.) -/
namespace Sys2Proof.Machine

/-- What is known of a branch register: an address that PREP or reset gave it, a register's value, or the link of a CALL (R78, R83). -/
inductive BVal where
  | addr (a : Nat) | dyn | link (a : Nat)
  deriving DecidableEq, Repr
/-- A loop level on a path (R86): where its body starts and ends, its count, the iterations left, and whether exactly so many are: past
a safe point inside the body, any number up to the count may be. -/
structure PLevel where
  start : Nat
  last : Nat
  full : Nat
  left : Nat
  exact : Bool
  deriving DecidableEq, Repr
/-- A point of a path: the next unit, the branch registers, and the loop levels, the innermost first. -/
structure PPoint where
  pc : Nat
  b : List BVal
  lv : List PLevel
  deriving DecidableEq, Repr

/-- What is known of a test: only p0's value (R32, R80). -/
def testKnown (t : BitVec 6) : Option Bool := if t.toNat / 2 = 0 then some (!t.getLsbD 0) else none
/-- The leaves that a tree can reach; t numbers the subtree's first test and k its first leaf (R80). -/
def Tr.reach : Tr → (Nat → Option Bool) → Nat → Nat → List Nat
  | .leaf, _, _, k => [k]
  | .node l r, f, t, k =>
    (if f t = some true then [] else l.reach f (t + 1) k) ++ (if f t = some false then [] else r.reach f (t + 1 + l.nodes) (k + l.leaves))
/-- The leaves that a bundle can take (R30, R81). -/
def leavesOf (b : Bundle) : List Nat :=
  match slotHolds b 9 with
  | .ins (.tree o) => (treeShape o.shape.toNat).reach (fun n => testKnown (match n with | 0 => o.t0 | 1 => o.t1 | 2 => o.t2 | _ => o.t3)) 0 0
  | _ => [0]

def PPoint.at_ (x : PPoint) (fall : Nat) (n : BitVec 3) : BVal := if n = 0 then .addr fall else x.b.getD n.toNat (.addr 0)
def setB (l : List BVal) (n : BitVec 3) (v : BVal) : List BVal := if n = 0 then l else l.set n.toNat v
/-- The branch registers once the A slots that are live on a leaf have committed (R78). -/
def prepsOf (u : Nat) (b : Bundle) (leaf : Nat) (l : List BVal) : List BVal :=
  (upto 2).foldl (fun l n =>
    if !slotLive b n leaf then l
    else match slotHolds b n with
      | .ins (.prepLabel o) => setB l o.b (.addr (BitVec.ofNat 24 u + o.off.signExtend 24).toNat)
      | .ins (.prepReg o) => setB l o.b .dyn
      | _ => l) l
/-- The end test of R88 on a path: each unit that may follow, with the levels that are then active. -/
def pathEnds (u fall : Nat) : List PLevel → List (Nat × List PLevel)
  | [] => [(fall, [])]
  | l :: r =>
    if l.last ≠ u then [(fall, l :: r)]
    else (if l.left ≤ 1 then [] else [(l.start, { l with left := l.left - 1 } :: r)]) ++
      (if l.left ≤ 1 || !l.exact then pathEnds u fall r else [])
/-- A branch goes on at the address of its register; one that a register gave must stand in a safe bundle, and where it leads is not
followed (R68). None rejects the image. -/
def pathJump (safe : Bool) (v : BVal) (b : List BVal) (lv : List PLevel) : Option (List PPoint) :=
  match v with
  | .addr a => some [⟨a, b, lv⟩]
  | .link a => some [⟨a, b, lv⟩]
  | .dyn => if safe then some [] else none
/-- A loop opens, or is skipped where its count is or may be 0 (R86); more than four levels, and a body beyond the segment, trap. -/
def pathLoop (code : List (BitVec 16)) (fall n count : Nat) (exact : Bool) (b : List BVal) (lv : List PLevel) : List PPoint :=
  match nthUnit code n fall with
  | none => []
  | some last =>
    (if count = 0 || !exact then [⟨last + unitLen code last, b, lv⟩] else []) ++
    (if count = 0 || 4 ≤ lv.length then [] else [⟨fall, b, ⟨fall, last, count, count, exact⟩ :: lv⟩])
/-- Where a bundle leads on one of its leaves; none where R68 rejects it. -/
def pathLeaf (code : List (BitVec 16)) (x : PPoint) (len : Nat) (b : Bundle) (leaf : Nat) : Option (List PPoint) :=
  let fall := (x.pc + len) % 2 ^ 24
  let bs := prepsOf x.pc b leaf x.b
  let safe := bundleSafe b
  let on := some ((pathEnds x.pc fall x.lv).map (fun e => (⟨e.1, bs, e.2⟩ : PPoint)))
  match slotHolds b 9 with
  | .ins (.tree o) => if treeTarget o leaf = 0 then on else pathJump safe (x.at_ fall (treeTarget o leaf)) bs x.lv
  | .ins (.call o) => pathJump safe (x.at_ fall o.t) (setB bs o.l (.link fall)) x.lv
  | .ins (.ret o) => pathJump safe (x.at_ fall o.b) bs x.lv
  | .ins (.loop o) => some (pathLoop code fall o.n.toNat o.c.toNat true bs x.lv)
  | .ins (.loopr o) => some (pathLoop code fall o.n.toNat (2 ^ 32) false bs x.lv)
  | .ins (.suspend o) => if safe then pathJump true (x.at_ fall o.b) bs x.lv else none
  | .ins (.trap _) => some [⟨fall, bs, x.lv⟩]
  | .ins .halt => some []
  | .ins .rte => some []
  | .ins _ => on
  | _ => on
/-- Several answers together, none where one of them rejects. -/
def joinAll : List (Option (List PPoint)) → Option (List PPoint)
  | [] => some []
  | none :: _ => none
  | some l :: r => (joinAll r).map (l ++ ·)
/-- Past a safe point any number of iterations may be left. -/
def PLevel.fresh (l : PLevel) : PLevel := { l with left := l.full, exact := false }
/-- One unit of a path whose count so far is given: what follows, each with its count; none where the image is rejected. A unit that cannot be
decoded ends the path, as it traps (R24). -/
def pathUnit (dict : List Bundle) (code : List (BitVec 16)) (limit : Nat) (x : PPoint) (n : Nat) : Option (List (PPoint × Nat)) :=
  match unitAt dict code (BitVec.ofNat 24 x.pc) with
  | none => some []
  | some u =>
    let n := n + ((u.rep.map BitVec.toNat).getD 0 + 1)
    if limit < n then none
    else (joinAll ((leavesOf u.bundle).map (pathLeaf code x u.len u.bundle))).map (fun l => l.map (fun y =>
      if bundleSafe u.bundle then ({ y with lv := y.lv.map PLevel.fresh }, 0) else (y, n)))
/-- Follows every path: the points to go on from, and those that have been seen, each with the largest count. -/
def pathsGo (dict : List Bundle) (code : List (BitVec 16)) (limit : Nat) : Nat → List (PPoint × Nat) → List (PPoint × Nat) → Bool
  | 0, _, _ => false
  | _ + 1, [], _ => true
  | fuel + 1, x :: r, seen =>
    if seen.any (fun y => y.1 == x.1 && decide (x.2 ≤ y.2)) then pathsGo dict code limit fuel r seen
    else match pathUnit dict code limit x.1 x.2 with
      | none => false
      | some l => pathsGo dict code limit fuel (l ++ r) (x :: seen.filter (fun y => y.1 != x.1))
/-- No path of the image from its entries breaks R68; the trap entry is one of them. -/
def pathsFit (img : Image) : Bool :=
  pathsGo img.dict img.code img.safemax (2 ^ 64)
    ((img.entries ++ img.trap.toList).map (fun a => (⟨a.toNat, List.replicate 8 (.addr 0), []⟩, 0))) []

end Sys2Proof.Machine
end

