-- ==== Sys2Proof/Machine/Host.lean ====
section
/-! DEFINITION. The command windows: partitions, second stages, invalidation, image loads, launches, host spawns, attestation
and register writes (R22, R59, R60, R67, R104, R105, R113, R114, R166, R246, R247, R252, R257, R277, R284 to R298, R308, R324,
R331, R332, R334, R337, R342 to R345, R356, R358). -/
namespace Sys2Proof.Machine

/-! Windows (R342, R343). -/

/-- The module answers commands. -/
def winOpen (s : State) : Bool := s.boot.st == 2 && !s.fatal && !s.dead
/-- The partition that a VF's window serves (R284). -/
def winPart (s : State) (v : VfId) : Option PartId := if winOpen s then (vf s v).bound else none
/-- A management command on a partition that exists. -/
def mgmt (s : State) (p : PartId) : Bool := winOpen s && (pt s p).exist
/-- Some partition runs. -/
def anyRuns (s : State) : Bool := partIds.any (fun p => (pt s p).exist && (pt s p).running)

/-! Retirements (R333, R334). -/

def unitGone (s : State) (kind : BitVec 3) (u : Nat) : Bool :=
  s.units.any (fun x => x.kind == kind && x.unit.toNat == u && x.retired)
def unitsGone (s : State) (kind : BitVec 3) : Nat := s.units.countP (fun x => x.kind == kind && x.retired)
def retCore (s : State) : Nat := sumNat (coreIds.map (fun c => putB c.val (cr s c).retired))
/-- The spare columns of a core that stand in for retired ones (R165, R334): columns 64 and 65 are the spares. -/
def sparesUsed (s : State) (c : CoreId) : Nat :=
  let gone := fun (lo n : Nat) => (span lo n).countP (fun i => unitGone s 1 (66 * c.val + i))
  min (gone 0 64) (2 - gone 64 2)
def retCnt (s : State) : Nat :=
  sumNat (coreIds.map (sparesUsed s)) % 2 ^ 8 + unitsGone s 4 % 2 ^ 5 * 2 ^ 8 + unitsGone s 5 % 2 ^ 9 * 2 ^ 13 + unitsGone s 3 % 2 ^ 11 * 2 ^ 22 +
    unitsGone s 2 % 2 ^ 8 * 2 ^ 33
/-- Marks a unit retired. -/
def goneUnit (kind : BitVec 3) (u : BitVec 16) (s : State) : State :=
  { s with units := s.units.map (fun x => if x.kind = kind && x.unit = u then { x with retired := true, due := false } else x) }
/-- A core retires, and its port takes no share any more (R296, R333). -/
def goneCore (c : CoreId) (s : State) : State :=
  modCr (goneUnit 0 (BitVec.ofNat 16 c.val) s) c (fun k => { k with retired := true, portw := 0 })
/-- The cores of a set that are due to retire do so (R333). -/
def dueCores (cs : List CoreId) (s : State) : State :=
  cs.foldl (fun s c => if s.units.any (fun x => x.kind == 0 && x.unit.toNat == c.val && x.due) then goneCore c s else s) s
/-! Partitions (R284, R285, R298). -/

/-- A core that is scrubbed (R285, R311): everything but what outlives a tenant. -/
def scrubCore (c : CoreId) (keepW : Bool) (s : State) : State :=
  modCr s c (fun k => { Core.reset with
    retired := k.retired, wslice := if keepW then k.wslice else [], badW := if keepW then k.badW else [], rank := k.rank
    portw := if keepW || k.retired then k.portw else 1 })

/-- PCREATE (R285). (DEDUCED, log entry 86.) -/
def execPcreate (p : PartId) (v : VfId) (mask : W64) (key : BitVec 256) (s : State) : Out :=
  let busy := coreIds.any (fun c => inMask mask c && ((cr s c).retired || (partOf s c).isSome))
  if !winOpen s || (pt s p).exist || (vf s v).bound.isSome || mask = 0 || busy then .next (nack s)
  else
    let s := setPt s p { Part.reset with exist := true, vf := v, mask := mask, keydig := key }
    let s := modVf s v (fun k => { k with bound := some p })
    .next (ackOk ((coresOf s p).foldl (fun s c => modCr s c (fun k => { k with portw := 1 })) s) 0)

/-- PDESTROY (R285): the cores are scrubbed, the VF and the contexts are free, and no page request is left. (DEDUCED, log entry 68.) -/
def execPdestroy (p : PartId) (s : State) : Out :=
  let q := pt s p
  if !mgmt s p || ((q.running || partBusy s p) && !q.vacant) then .next (nack s)
  else
    let cs := coresOf s p
    let s := cs.foldl (fun s c => scrubCore c false s) s
    let s := setVf s q.vf { Vf.reset with nextTag := (vf s q.vf).nextTag }
    let s := { setPt s p Part.reset with
      regions := s.regions.filter (fun r => r.part ≠ p), mirrors := s.mirrors.filter (fun m => m.part ≠ p)
      tlb := s.tlb.filter (fun e => e.vf ≠ q.vf), cmds := s.cmds.filter (fun k => k.part ≠ p)
      ackWait := s.ackWait.filter (fun a => a.part ≠ p) }
    .next (ackOk (dueCores cs s) 0)

/-- S2ROOT (R285, R288). -/
def execS2root (p : PartId) (x : W64) (s : State) : Out :=
  if !mgmt s p || (pt s p).running || bits x.toNat 46 18 ≠ 0 || bits x.toNat 1 15 ≠ 0 then .next (nack s)
  else .next (ackOk (modPt s p (fun q => { q with s2root := x })) 0)
/-- CTXALLOT (R285, R298). -/
def execCtxallot (p : PartId) (n : Nat) (s : State) : Out :=
  let others := sumNat (partIds.map (fun q => if q ≠ p && (pt s q).exist then (pt s q).allot else 0))
  if !mgmt s p || (pt s p).running || 256 < others + n then .next (nack s)
  else .next (ackOk (modPt s p (fun q => { q with allot := n })) 0)
/-- PORTW (R285, R296); the port of a retired core has no weight. (DEDUCED, log entry 68.) -/
def execPortw (c : CoreId) (w : BitVec 4) (s : State) : Out :=
  let runs := match partOf s c with | some p => (pt s p).running | none => false
  if !winOpen s || w = 0 || runs || (cr s c).retired then .next (nack s) else .next (ackOk (modCr s c (fun k => { k with portw := w })) 0)

/-! Invalidation (R291, R292). -/

/-- INVAL (R285, R291): it is never refused, and a completion event follows. (DEDUCED, log entry 69.) -/
def execInval (v : VfId) (kind : BitVec 2) (lo hi : GAddr) (s : State) : Out :=
  if !winOpen s then .next (nack s)
  else .next (ackOk { s with invals := s.invals ++ [⟨v, kind, lo.toNat, hi.toNat⟩] } 0)
/-- A translation that an INVAL drops (R291): every one of the VF, one whose first-stage walk shares an entry with the range, or one whose
second-stage walks touched the range. -/
def invalDrops (i : Inval) (e : Tlb) : Bool :=
  e.vf == i.vf && match i.kind.toNat with
    | 0 => true
    | 1 => !e.s2 && e.s1 && overlap (65536 * e.page / 2 ^ 39) (65536 * e.page / 2 ^ 39) (i.lo / 2 ^ 39) (i.hi / 2 ^ 39)
    | 2 => e.ipas.any (fun p => overlap (65536 * p) (65536 * p + 65535) i.lo i.hi)
    | _ => false
/-- An access of the VF that has been translated and not performed (R292). -/
def inFlight (s : State) (v : VfId) : Bool :=
  match (vf s v).bound with
  | none => false
  | some p => (coresOf s p).any (fun c =>
      (cr s c).pend.any (fun q => q.lanes.any (fun l => l.isReady && l.data.isNone)) || (cr s c).posts.any (fun o => o.lanes.any Lane.isReady)) ||
      s.cmds.any (fun k => k.part == p && !k.out.isEmpty)
/-- INVAL_COMPLETE (R292): the oldest INVAL completes. -/
def execInvalComplete (s : State) : Out :=
  match s.invals with
  | [] => .next s
  | i :: r =>
    if inFlight s i.vf || s.fatal || s.dead then .next s
    else .next (raise { s with invals := r, tlb := s.tlb.filter (fun e => !invalDrops i e) } (.invalDone i.vf))

/-! Image loads (R22, R287, R344). -/

/-- What a marked field becomes (R287). -/
def relocVal (s : State) (p : PartId) (k : BitVec 2) (rank : Nat) : Option Nat :=
  (coreOfRank s p rank).map (fun c => if k = 1 then dieOf c else c.val)
/-- A field of a bundle is rewritten. -/
def relocBits (s : State) (p : PartId) (r : Reloc) (b : Nat) : Option Nat :=
  let lo := r.bit.toNat
  let w := r.width.toNat + 1
  if 384 < lo + w || r.kind = 3 || r.rsv ≠ 0 then none
  else match relocVal s p r.kind (bits b lo w) with
    | none => none
    | some x => if 2 ^ w ≤ x then none else some (b - bits b lo w * 2 ^ lo + x * 2 ^ lo)
/-- The address of a unit's LIT halfword: a REPEAT prefix stands before it (R20, R287). -/
def litUnit (code : List (BitVec 16)) (a : Nat) : Nat :=
  match code[a]? with | some h => if 0xF000 ≤ h.toNat && h.toNat ≤ 0xF0FF then a + 1 else a | none => a
/-- The literal bundle at a code address, as a number. -/
def litAt (code : List (BitVec 16)) (a : Nat) : Option Nat :=
  if (code[a]?).map BitVec.toNat = some 0xFFFF && decide (a + 25 ≤ code.length)
  then some (((code.drop (a + 1)).take 24).foldr (fun h x => h.toNat + 65536 * x) 0) else none
def litPut (code : List (BitVec 16)) (a x : Nat) : List (BitVec 16) :=
  code.take (a + 1) ++ (upto 24).map (fun i => BitVec.ofNat 16 (x / 65536 ^ i)) ++ code.drop (a + 25)
/-- The records of an image in order, for one core's copy; none where one is reserved, names no bundle or does not fit. -/
def relocAll (s : State) (p : PartId) : List Reloc → List Bundle × List (BitVec 16) → Option (List Bundle × List (BitVec 16))
  | [], x => some x
  | r :: l, (d, k) =>
    let a := r.whr.toNat
    if r.isDict then
      match d[a]? with
      | none => none
      | some b => match relocBits s p r b.toNat with
        | none => none
        | some y => relocAll s p l (d.set a (BitVec.ofNat 384 y), k)
    else match litAt k (litUnit k a) with
      | none => none
      | some b => match relocBits s p r b with
        | none => none
        | some y => relocAll s p l (d, litPut k (litUnit k a) y)
/-- The data sections lie in L (R353). -/
def dataFits (img : Image) : Bool := img.data.all (fun x => decide (x.1 ≤ lTop))

/-- IMAGE_LOAD (R344): signature, key, relocation, the SAFEMAX that the image was checked against, and that check (R67, R68, R287). -/
def execImageLoad (v : VfId) (img : Image) (s : State) : Out :=
  match winPart s v with
  | none => .next (nack s)
  | some p =>
    let q := pt s p
    let ok := !q.running && Config.sigOk img.key (Config.imageBytes img) img.sig && (q.keydig == 0 || Config.sha256 img.key == q.keydig) &&
      decide (img.dict.length ≤ 8192) && decide (img.code.length ≤ 2 ^ 24) && dataFits img && decide (img.safemax ≤ (vf s v).safemax) && pathsFit img
    match (if ok then relocAll s p img.relocs (img.dict, img.code) else none) with
    | none => .next (nack s)
    | some x =>
      let s := modPt s p (fun q => { q with
        image := some (Config.sha256 (Config.imageBytes img)), imgData := img.data })
      .next (ackOk ((coresOf s p).foldl (fun s c => modCr s c (fun k =>
        { k with dict := x.1, code := x.2, trapEntry := img.trap, safe := img.safe })) s) 0)

/-! Launches (R59, R60, R166, R301, R356). -/

/-- What a launch finds of the root records. -/
inductive Roots where
  | ok
  | refused
  | ask (c : CoreId) (ipa va : Nat) (tbl : Bool) (level : Nat)
  deriving DecidableEq, Repr
def rootAddr (s : State) (v : VfId) (i : Nat) : Nat := ((vf s v).rootbase.toNat + 64 * i) % 2 ^ 52
/-- The root records of the cores that run, in rank order (R59, R356). A page whose reply has failed refuses the launch. (DEDUCED, log entry 66.)
A record that can be read and not written refuses it too (DESIGN CHOICE, log entry 102). -/
def rootsOk (s : State) (v : VfId) (p : PartId) (c0 : CoreId) : List Nat → Roots
  | [] => .ok
  | i :: r =>
    let a := rootAddr s v i
    match xlate s p a true with
    | .ok loc => if (badColumn s loc 64).isSome || !recFit s p a then .refused else rootsOk s v p c0 r
    | .miss ipa tbl lvl => if (cr s c0).asks.contains (ipa / 65536, true) then .refused else .ask c0 ipa a tbl lvl
    | _ => .refused
def vecRun (vec : List (BitVec 32)) (i : Nat) : Bool := (vec.getD i 0).getLsbD 31
/-- The start vector's own faults (R59). -/
def vecFits (n : Nat) (vec : List (BitVec 32)) : Bool :=
  vec.length == 64 && vec.all (fun x => bits x.toNat 24 7 == 0) && (vec.drop n).all (fun x => x == 0)

/-- The hardware fields of a root record (R60), with RESUME at ENTRY. -/
def putRoot (p : PartId) (a : Nat) (entry : Nat) (s : State) : State :=
  recPut p a 0x38 0 32 0 <| recPut p a 0x30 52 12 0 <| recPut p a 0x18 48 16 0xFFFF <| recPut p a 0x18 44 4 0 <| recPut p a 0x18 38 6 0 <|
    recPut p a 0x18 35 3 7 <| recPut p a 0x18 28 7 p.val <| recPut p a 0x18 24 4 2 <| recPut p a 0 40 4 0 <| recPut p a 0 32 8 0 <|
    recPut p a 0 28 4 15 <| recPut p a 0 24 3 0 <| recPut p a 0 0 24 entry s
/-- One core of a launch: its data sections, its registers, and its root task if it runs. -/
def launchCore (v : VfId) (p : PartId) (vec : List (BitVec 32)) (s : State) (x : CoreId × Nat) : State :=
  let c := x.1
  let s := modCr s c (fun k => { freshCore k with
    rank := BitVec.ofNat 6 x.2, running := false, group := none, member := 0, lock := false, exec := 0, since := 0, pc := 0 })
  let s := landL c (pt s p).imgData s
  if !vecRun vec x.2 then s
  else
    let a := rootAddr s v x.2
    let entry := (vec.getD x.2 0).toNat % 2 ^ 24
    let w := fun o => (recWord s p a o).getD 0
    let t : Task := ⟨a, stRunning, 0, 7, [], 0, [], 0, 0, 0, w 0x28 % 2 ^ 52, none, none, [], some c⟩
    let argp := w 8 % 2 ^ 52
    let s := putRoot p a entry (modPt s p (fun q => { q with tasks := q.tasks ++ [t] }))
    modCr s c (fun k => { k.setS 1 ⟨w64 argp, true⟩ with running := true, rec_ := a, pickedAt := s.now, pc := BitVec.ofNat 24 entry })

/-- A launch that is accepted: the kernel runs from cycle 0 (R59). -/
def launchGo (v : VfId) (p : PartId) (vec : List (BitVec 32)) (gate : Bool) (s : State) : State :=
  let cs := coresOf s p
  let s := modPt s p (fun q => { q with
    running := true, complete := false, vacant := false, launchAt := s.now, gateOpen := gate, spawns := [], lastq := Vector.replicate 8 63
    tasks := q.tasks.filter (fun t => t.st == stCheckpointed || t.word.isSome)
    queues := (q.queues.map (fun k => { k with ready := [] })).set 0 ⟨true, false, 7, []⟩ })
  let s := (cs.zip (upto cs.length)).foldl (launchCore v p vec) s
  let s := cs.foldl (fun s c => refresh s c 3) s
  kernelCheck p (ackOk s 0)
/-- A launch, with the weight gate as it is to stand (R59, R166). A root record whose page is missing is asked for, and the
command waits (R356); its answer comes with the reply. -/
def launchTry (v : VfId) (p : PartId) (vec : List (BitVec 32)) (gate : Bool) (s : State) : State :=
  let q := pt s p
  let cs := coresOf s p
  let c0 := cs.head?.getD 0
  if q.running || q.image.isNone || !vecFits cs.length vec || q.dl.isSome then nack s
  else match rootsOk s v p c0 ((upto cs.length).filter (vecRun vec)) with
    | .refused => nack (modCr s c0 (fun k => { k with asks := [] }))
    | .ask c ipa va tbl lvl =>
      let s := (pageMiss s c p ipa va tbl lvl true).1
      modPt (modCr s c (fun k => { k with asks := if k.asks.contains (ipa / 65536, false) then k.asks else k.asks ++ [(ipa / 65536, false)] })) p
        (fun q => { q with launch := some (vec, gate) })
    | .ok => launchGo v p vec gate s
/-- While a launch waits, the commands behind it in its window do too (R342). -/
def launchStep (v : VfId) (vec : List (BitVec 32)) (gate : Bool) (s : State) : State :=
  match winPart s v with
  | none => nack s
  | some p => if (pt s p).launch.isSome then s else launchTry v p vec gate s
/-- LAUNCH (R59): the gate closes at cycle 0. -/
def execLaunch (v : VfId) (vec : List (BitVec 32)) (s : State) : Out := .next (launchStep v vec false s)
/-- LAUNCH_PREAMBLE (R166): the gate stays open. -/
def execLaunchPreamble (v : VfId) (vec : List (BitVec 32)) (s : State) : Out := .next (launchStep v vec true s)

/-! Host spawns (R105, R114, R308). -/

/-- A spawn packet (R105, R114); one whose record cannot be read yet is answered once it can. -/
def packet (v : VfId) (a : GAddr) (again : Bool) (s : State) : State :=
  match winPart s v with
  | none => nack s
  | some p =>
    if !(pt s p).running || a.toNat % 64 ≠ 0 || packetTorn s p a.toNat then nack s
    else if (recWord s p a.toNat 0x18).isSome then spawnArrive p ⟨a.toNat, none, again, false, none⟩ (ackOk s 0)
    else spawnArrive p ⟨a.toNat, none, again, true, none⟩ s
def execHostSpawn (v : VfId) (a : GAddr) (s : State) : Out := .next (packet v a false s)
/-- RESTORE (R308): the record keeps RESUME, FLAGS and EXEC. (DEDUCED, log entry 67.) -/
def execRestore (v : VfId) (a : GAddr) (s : State) : Out := .next (packet v a true s)

/-! Teardown (R113). -/

/-- A queue is torn down: its WAITING and READY tasks end at once, and those that wait at a barrier leave their groups. A pending deadline's
report will say so (R305). -/
def tearDown (p : PartId) (q : BitVec 6) (s : State) : State :=
  let s := modQueue p q (fun k => { k with valid := false, tearing := true }) s
  let s := modPt s p (fun k => { k with dl := k.dl.map (fun d => { d with qs := d.qs.map (fun x => if x.q = q then { x with torn := true } else x) }) })
  let s := ((pt s p).tasks.filter (fun t => t.queue == q && t.live && t.st != stRunning)).reverse.foldl
    (fun s t => endTask p t.rec_ stAborted 0 s) s
  let s := (coresOf s p).foldl (fun s c =>
    if (cr s c).running && queueOfCore s p c == q &&
       (match (cr s c).wait with | .bar _ _ => true | .arrive _ _ => true | _ => false) then stopTask c stAborted s else s) s
  settle p s
def execQueueTeardown (v : VfId) (q : BitVec 6) (s : State) : Out :=
  match winPart s v with
  | none => .next (nack s)
  | some p => if (queueOf s p q).valid then .next (tearDown p q (ackOk s 0)) else .next (ackOk s 0)

/-! Attestation (R345). -/

def fixLen (n : Nat) (l : List Byte) : List Byte := (upto n).map (fun i => l.getD i 0)
def attestBody (s : State) (v : VfId) (p : PartId) (nonce : BitVec 256) : List Byte :=
  bytesOf 8 (1 + p.val * 2 ^ 16 + v.val * 2 ^ 22) ++ bytesOf 32 nonce.toNat ++ bytesOf 32 (Config.sha256 s.boot.fw).toNat ++
  bytesOf 32 (((pt s p).image.map BitVec.toNat).getD 0) ++ bytesOf 8 (retCore s) ++ bytesOf 8 (retCnt s) ++
  bytesOf 8 (vf s v).safemax ++ bytesOf 8 (vf s v).stale.toNat ++ bytesOf 8 s.modesel.toNat ++
  fixLen 32 Config.attKey ++ fixLen 7856 Config.attCert ++ bytesOf 32 0
/-- The report with its signature. -/
def attestReport (s : State) (v : VfId) (p : PartId) (nonce : BitVec 256) : List Byte :=
  attestBody s v p nonce ++ fixLen 7856 (Config.attSign (attestBody s v p nonce))
/-- ATTEST: the report is published before the acknowledgement; a missing page of its place is asked for, and the command waits.
(DEDUCED, log entry 31.) -/
def attestTry (v : VfId) (p : PartId) (nonce : BitVec 256) (a : GAddr) (s : State) : State :=
  let bs := attestReport s v p nonce
  let c0 := (coresOf s p).head?.getD 0
  if a.toNat % 64 ≠ 0 then nack s
  else match vaMap s p true a.toNat bs.length with
    | .ok l => ackOk (pubOther s (spanWrites l bs)) 0
    | .error (va, .miss ipa tbl lvl) =>
      if (cr s c0).asks.contains (ipa / 65536, true) then nack (modCr s c0 (fun k => { k with asks := [] }))
      else
        let s := (pageMiss s c0 p ipa va tbl lvl true).1
        modPt (modCr s c0 (fun k => { k with asks := if k.asks.contains (ipa / 65536, false) then k.asks else k.asks ++ [(ipa / 65536, false)] })) p
          (fun q => { q with attest := some (nonce, a) })
    | .error _ => nack s
def execAttest (v : VfId) (nonce : BitVec 256) (a : GAddr) (s : State) : Out :=
  match winPart s v with
  | none => .next (nack s)
  | some p => .next (if (pt s p).attest.isSome then s else attestTry v p nonce a s)

/-! Replies (R295). -/

/-- The commands of a window that wait on pages are tried again after a reply; the answer that stands is then theirs (R289, R356). -/
def windowAgain (v : VfId) (s : State) : State :=
  match winPart s v with
  | none => s
  | some p =>
    let s := match (pt s p).launch with
      | some (vec, gate) => launchTry v p vec gate (modPt s p (fun q => { q with launch := none }))
      | none => s
    match (pt s p).attest with
      | some (nonce, a) => attestTry v p nonce a (modPt s p (fun q => { q with attest := none }))
      | none => s
/-- PRQREPLY (R295): what waits on the page goes on, and then the commands of the window that wait; a reply that is refused moves
nothing. -/
def execPrqreply (v : VfId) (x : W64) (s : State) : Out :=
  let t := if s.fatal || s.dead then nack s else replyStep v x s
  .next (if t.ack.pos then windowAgain v t else t)

/-! Register writes (R358). -/

/-- A register that its writer may write: the accepted value's effect, or a refusal. -/
def regIf (ok : Bool) (f : State → State) (s : State) : State := if ok then ackOk (f s) 0 else nack s
/-- No bit outside a mask is set. (DEDUCED, log entry 70.) -/
def within (x : W64) (mask : Nat) : Bool := x &&& ~~~(w64 mask) == 0
/-- Writes of 1 clear. -/
def w1c (old x : W64) : W64 := old &&& ~~~x
def mVO : Nat := 2 ^ 63 + 2 ^ 62

/-- QCFG (R104, R301): VALID = 0 of a valid queue starts its teardown; PRIO of a queue that holds a task stays. -/
def writeQcfg (p : PartId) (q : BitVec 6) (x : W64) (s : State) : State :=
  let k := queueOf s p q
  let holds := (pt s p).tasks.any (fun t => t.queue == q && t.live)
  if !within x 0x107 || (x.getLsbD 8 && (k.tearing || (pt s p).dl.isSome)) then nack s
  else
    let s := ackOk (modQueue p q (fun k => { k with
      prio := if holds then k.prio else BitVec.ofNat 3 x.toNat, valid := k.valid || x.getLsbD 8 }) s) 0
    if !x.getLsbD 8 && k.valid then tearDown p q s else s

/-- A write to a register of a VF window by the host or the tenant. (DEDUCED, log entry 55.) -/
def writeVf (w : Writer) (v : VfId) (p : PartId) (r : WinReg) (x : W64) (s : State) : State :=
  let host := w = .host
  let ten := w = .tenant
  let stopped := !(pt s p).running
  match r with
  | .rootbase _ => regIf (host && stopped && within x (2 ^ 52 - 64)) (fun s => modVf s v (fun k => { k with rootbase := x })) s
  | .s1root _ => regIf (ten && stopped && within x (2 ^ 52 - 2 ^ 16 + 1)) (fun s => modVf s v (fun k => { k with s1root := x })) s
  | .qcfg _ q => if host then writeQcfg p q x s else nack s
  | .quant _ => regIf (host && decide (1024 ≤ x.toNat) && decide (x.toNat ≤ 2 ^ 24)) (fun s => modVf s v (fun k => { k with quant := x })) s
  | .safemax _ => regIf (host && decide (256 ≤ x.toNat) && decide (x.toNat ≤ 65536)) (fun s => modVf s v (fun k => { k with safemax := x.toNat })) s
  | .stalebnd _ => regIf (host && within x 0xFF) (fun s => modVf s v (fun k => { k with stale := BitVec.ofNat 8 x.toNat })) s
  | .srcnt _ n => regIf host (fun s => modVf s v (fun k => { k with srcnt := k.srcnt.set n.toFin (BitVec.ofNat 48 x.toNat) })) s
  | .rillflags _ => regIf (host && within x 0x1F) (fun s => modVf s v (fun k => { k with rillflags := k.rillflags &&& ~~~(BitVec.ofNat 5 x.toNat) })) s
  | .engerr _ => regIf (host && within x mVO) (fun s => modVf s v (fun k => { k with engerr := w1c k.engerr x })) s
  | .linktmo _ => regIf (host && decide (2 ^ 32 ≤ x.toNat)) (fun s => modVf s v (fun k => { k with linktmo := x })) s
  | .traperr _ => regIf (host && within x mVO) (fun s => modVf s v (fun k => { k with traperr := w1c k.traperr x })) s
  | .watch _ => regIf (ten && within x (2 ^ 52 - 64 + 7)) (fun s => modVf s v (fun k => { k with watch := x })) s
  | .errlog _ => regIf (host && within x mVO) (fun s => modVf s v (fun k => { k with errlog := w1c k.errlog x })) s
  | _ => nack s
/-- A write by the hypervisor through the management window. -/
def writeMgmt (r : WinReg) (x : W64) (s : State) : State :=
  match r with
  | .prqbase v => regIf (within x (2 ^ 64 - 2 ^ 12 + 15)) (fun s => modVf s v (fun k => { k with prqbase := x })) s
  | .prqcons v => regIf (within x (2 ^ 32 - 1)) (fun s => modVf s v (fun k => { k with prqcons := BitVec.ofNat 32 x.toNat })) s
  | .prqxlat v => regIf (within x (2 ^ 64 - 2 ^ 16)) (fun s => modVf s v (fun k => { k with prqxlat := x })) s
  | .errthr k => regIf (within x (2 ^ 48 - 1) && bits x.toNat 16 32 != 0 && k != 7) (fun s => { s with errthr := s.errthr.setIfInBounds k.toNat x }) s
  | .modesel => regIf (within x 0x1F && !anyRuns s) (fun s => { s with modesel := BitVec.ofNat 5 x.toNat }) s
  | _ => nack s
/-- The VF whose window holds a register. -/
def windowOf : WinReg → Option VfId
  | .rootbase v => some v | .s1root v => some v | .qcfg v _ => some v | .quant v => some v | .safemax v => some v
  | .stalebnd v => some v | .srcnt v _ => some v | .rillflags v => some v | .engerr v => some v | .linktmo v => some v
  | .traperr v => some v | .watch v => some v | .errlog v => some v
  | _ => none
/-- REGISTER_WRITE (R358): a refused write changes no field. -/
def execRegisterWrite (w : Writer) (r : WinReg) (x : W64) (s : State) : Out :=
  if !winOpen s then .next (nack s)
  else match windowOf r with
    | some v => match winPart s v with
      | some p => .next (writeVf w v p r x s)
      | none => .next (nack s)
    | none => if w = .hypervisor then .next (writeMgmt r x s) else .next (nack s)

end Sys2Proof.Machine
end

