-- ==== Sys2Proof/Machine/Sluice.lean ====
section
/-! DEFINITION. The Sluice: deadlines, its estimates and choices, checkpoint and discard, the cut, and vacancy with its report
(R299 to R312). -/
namespace Sys2Proof.Machine

/-! Times (R299, R300), in µs of the management controller's clock. -/

/-- T_discard of a partition (R300): T_stop, T_eng and T_scrub. -/
def tDiscard (s : State) (p : PartId) : Nat := 1 + max 4 (tSweep s p none) + 7

/-! Discard (R309, R310). -/

/-- The first n of the 32-byte columns that some writes touch, in their order. -/
def firstCols (n : Nat) (ws : List (Nat × Byte)) : List (Nat × Byte) :=
  let cs := ((ws.map (fun w => w.1 / 32)).eraseDups).take n
  ws.filter (fun w => cs.contains (w.1 / 32))
/-- The first n 32-byte columns of some rows of a weight slice; a row that they cover in part keeps its rest. -/
def firstRows (k : Cmd) : Nat → List (Nat × Row) → State → State
  | _, [], s => s
  | n, (key, x) :: r, s =>
    if n = 0 then s
    else if 12 ≤ n then firstRows k (n - 12) r (landW k [(key, x)] s)
    else match coreOfRank s k.part (cpywRank k.block) with
      | none => s
      | some d => modCr s d (fun c =>
          let old := sget (0 : Row) c.wslice key
          { c with
            wslice := sset (0 : Row) c.wslice key (BitVec.ofNat 3072 (x.toNat % 2 ^ (256 * n) + old.toNat / 2 ^ (256 * n) * 2 ^ (256 * n)))
            badW := c.badW.filter (fun g => !(decide (12 * key ≤ g) && decide (g < 12 * key + n))) })
/-- G writes that are published for all (R310), and sent on where they leave the module. -/
def cutPublish (k : Cmd) (ws : List (Nat × Byte)) (s : State) : State :=
  if ws.isEmpty then s else (forwardAll (.engine k.core k.id) k.part ws (addPub s (.engine k.core k.id) (BitVec.allOnes 64) k.incl ws)).1
/-- The parts that a command which stops has begun: the columns of a copy, the trains of 64 columns of the Rake, and the entries of a
RILL (R310). How far it is shows in the turn's choice (DEDUCED, log entry 72). -/
def cutShort (k : Cmd) (s : State) : State :=
  let n := s.ch.parts
  if k.op = opRill then
    ((span k.prog (min (64 * n) (rillN k.block - k.prog))).takeWhile (fun i => (rillMiss s k i).isNone)).foldl (rillDo k) s
  else if k.op = opCpy || k.op = opCpyw || k.op = opRkgath || k.op = opRkseg then
    let r := (cmdParts s k).foldl PartRes.join PartRes.nothing
    let m := if k.op = opRkgath || k.op = opRkseg then 64 * n else n
    cutPublish k (firstCols m r.gw) (firstRows k m r.ww (landL k.core (firstCols m r.lw) s))
  else s
/-- A TICK whose close has been sent (R310). -/
def closeSent (s : State) (k : Cmd) : Bool :=
  s.regions.any (fun r => (!r.passed.isEmpty && r.ticks.head? == some (k.core, k.id)) || r.late.any (fun t => t.2.1 == k.id))
/-- A command stops at its cancellation point (R310): PANCFG and SPAWN complete, and so does a TICK whose close has been sent; what a
command that has been carried out gives is published. -/
def cancelCmd (s : State) (k : Cmd) : State :=
  if k.op = opSpawn then s
  else if k.op = opTick then
    (if closeSent s k then s
     else endCmd k.id none { s with regions := s.regions.map (fun r => { r with ticks := r.ticks.filter (fun t => t.2 ≠ k.id) }) })
  else endCmd k.id none (freeCtx k (if k.done then (if k.out.isEmpty then s else addPub s (.engine k.core k.id) (BitVec.allOnes 64) k.incl k.out) else cutShort k s))
/-- The commands of a queue's tasks stop. -/
def cancelOf (p : PartId) (f : Option Nat → Bool) (s : State) : State :=
  (s.cmds.filter (fun k => k.part == p && f k.task)).foldl cancelCmd s
/-- A task is of a queue. -/
def taskIn (s : State) (p : PartId) (q : BitVec 6) (t : Option Nat) : Bool :=
  match t with | some r => (pt s p).tasks.any (fun x => x.rec_ == r && x.queue == q) | none => false
/-- A queue is discarded (R309): its running tasks stop at once, and all its tasks end DISCARDED, those that wait for another first. -/
def discardQueue (p : PartId) (q : BitVec 6) (s : State) : State :=
  let s := ((pt s p).tasks.filter (fun t => t.queue == q && t.live && t.st != stRunning)).reverse.foldl
    (fun s t => endTask p t.rec_ stDiscarded 0 s) s
  let s := (coresOf s p).foldl (fun s c => if (cr s c).running && queueOfCore s p c == q then stopTask c stDiscarded s else s) s
  cancelOf p (taskIn s p q) s

/-! What the Sluice tracks (R303). -/

/-- EXPECT − EXEC of a task, none where EXPECT is 0 (R54). -/
def remOf (s : State) (p : PartId) (t : Task) : Option Nat :=
  let w := (recWord s p t.rec_ 0x38).getD 0
  let exec := match t.core with | some c => (cr s c).exec | none => w % 2 ^ 32
  if w / 2 ^ 32 = 0 then none else some (w / 2 ^ 32 - exec)
/-- REM of a queue (R303). -/
def remQ (s : State) (p : PartId) (q : BitVec 6) : Option Nat :=
  ((pt s p).tasks.filter (fun t => t.queue == q && t.live)).foldl (fun a t =>
    match a, remOf s p t with | some x, some y => some (x + y) | _, _ => none) (some 0)
/-- The cores that run a queue's tasks. -/
def coresQ (s : State) (p : PartId) (q : BitVec 6) : List CoreId :=
  (coresOf s p).filter (fun c => (cr s c).running && queueOfCore s p c == q)
/-- The next bundle of a core waits on a ticket. -/
def atJwait (k : Core) : Bool :=
  match nextUnitOf k with
  | some (_, b, _) => (match slotHolds b 8 with | .ins (.jwait o) => (k.j[o.j.toFin]).st == .pending | _ => false)
  | none => false
/-- A core's task stalls at BAR, on a JWAIT or on a page request (R303). -/
def stallsLong (k : Core) : Bool :=
  (match k.wait with | .bar _ _ => true | .arrive _ _ => true | _ => false) || atJwait k || !k.asks.isEmpty ||
  (k.pend.flatMap (fun q => q.lanes) ++ k.posts.flatMap (fun o => o.lanes)).any (fun l => match l.st with | .wait _ _ _ => true | _ => false)
/-- The bundle executions that are counted of the last 64 µs, of a partition's cores and of some queues (R303). -/
def runCount (s : State) (p : PartId) (ok : CoreId → BitVec 6 → Bool) : Nat :=
  sumNat ((s.runs.filter (fun x => decide (s.us < x.1 + 64) && inMask (pt s p).mask x.2.1 && ok x.2.1 x.2.2.1)).map (fun x => x.2.2.2))
/-- ρ of a queue (R303): the larger of its own rate and the mean rate of the partition's cores, as a fraction in bundles per µs. -/
def rateQ (s : State) (p : PartId) (q : BitVec 6) : Nat × Nat :=
  let n := (coresOf s p).length
  (max (runCount s p (fun _ x => x == q) * n) (runCount s p (fun _ _ => true)), 64 * n)
/-- A time in µs as a fraction; none where it is infinite. -/
abbrev Span := Option (Nat × Nat)
def Span.max (a b : Span) : Span :=
  match a, b with
  | some x, some y => if x.1 * y.2 ≤ y.1 * x.2 then some y else some x
  | _, _ => Option.none
/-- What is left of a task's safe-point bound, at its core's rate (R303). -/
def safeC (s : State) (p : PartId) (c : CoreId) : Span :=
  let n := runCount s p (fun x _ => x == c)
  if stallsLong (cr s c) || n = 0 then none else some (64 * ((vf s (pt s p).vf).safemax - (cr s c).since), n)
/-- TSAFE of a queue (R303). -/
def safeQ (s : State) (p : PartId) (q : BitVec 6) : Span := (coresQ s p q).foldl (fun a c => a.max (safeC s p c)) (some (0, 1))
/-- The size of a core's live-state area at its next safe point: the first of its image at or after the next unit, else the largest (R58;
DESIGN CHOICE, log entry 28). -/
def areaNext (k : Core) : Nat :=
  match (k.safe.filter (fun l => decide (k.pc.toNat ≤ l.at_.toNat))).foldl (fun (b : Option SafeList) l =>
      match b with | some x => if l.at_.toNat < x.at_.toNat then some l else b | none => some l) none with
  | some l => (saveHead l k).oC
  | none => (k.safe.map (fun l => (saveHead l k).oC)).foldl max 64
/-- The commands that a checkpoint of the queue would withdraw (R308). -/
def withdrawQ (s : State) (p : PartId) (q : BitVec 6) : Nat :=
  sumNat (((pt s p).tasks.filter (fun t => t.queue == q && t.live)).map (fun t => (toWithdraw s p t.rec_).length))
/-- DIRTY of a queue in bytes (R303). -/
def dirtyQ (s : State) (p : PartId) (q : BitVec 6) : Nat :=
  sumNat ((coresQ s p q).map (fun c => areaNext (cr s c) + (cr s c).unpub.length)) + 96 * withdrawQ s p q
/-- TACK of a queue (R303): what the turn measures where a live-state area is mirrored, and 0 otherwise. -/
def tackQ (s : State) (p : PartId) (q : BitVec 6) : Nat :=
  if (coresQ s p q).any (fun c => (mirrorAt s p (livepOf s p (cr s c).rec_)).isSome) then s.ch.tack else 0

/-! The choice (R304 to R306). -/

def SChoice.rank : SChoice → Nat | .run => 0 | .checkpoint => 1 | .discard => 2
def SChoice.down (a b : SChoice) : SChoice := if a.rank < b.rank then b else a
/-- n/d rounded up, at most a limit, which also stands for what is infinite. -/
def ceilTo (lim : Nat) (n d : Nat) : Nat := min lim ((n + d - 1) / d)
/-- TSAFE + DIRTY/BW + TACK of a queue (R303), at the bandwidth that the turn names (DESIGN CHOICE, log entry 28). -/
def ckTime (s : State) (p : PartId) (q : BitVec 6) : Span :=
  let bw := max 1 s.ch.bw
  (safeQ s p q).map (fun x => (x.1 * bw + (dirtyQ s p q + tackQ s p q * bw) * x.2, x.2 * bw))
/-- The evaluation of a queue (R303, R304): the choice, and RUNEST, CKEST and DIRTY. -/
def evalQ (s : State) (p : PartId) (d : Deadline) (q : BitVec 6) : SChoice × Nat × Nat × Nat :=
  let r := rateQ s p q
  let left := d.cut - s.us
  let m := 8 + d.margin.toNat
  let fitRun := match remQ s p q with | some n => decide (n * r.2 * m ≤ left * 8 * r.1) | none => false
  let fitCk := match ckTime s p q with
    | some x => decide (x.1 * m ≤ left * 8 * x.2) && decide (withdrawQ s p q ≤ d.ckptn - d.used)
    | none => false
  (if fitRun then .run else if fitCk then .checkpoint else .discard,
   match remQ s p q with
     | some n => if n = 0 then 0 else if r.1 = 0 then 0xFFFFF else ceilTo 0xFFFFF (n * r.2) r.1
     | none => 0xFFFFF,
   match ckTime s p q with | some x => ceilTo 0xFFFFF x.1 x.2 | none => 0xFFFFF,
   ceilTo 0xFFFFFF (dirtyQ s p q) 64)
/-- The queues that hold a task. -/
def heldQueues (s : State) (p : PartId) : List (BitVec 6) := ((upto 64).map (BitVec.ofNat 6)).filter (queueHolds s p)
/-- A queue's entry with its evaluation. With MODESEL.SLUICE the host chooses (R306); a queue that has begun saving keeps its
choice. -/
def evalEntry (s : State) (p : PartId) (d : Deadline) (x : SQueue) : SQueue :=
  if !queueHolds s p x.q then x
  else
    let e := evalQ s p d x.q
    { x with
      choice := if x.saving || s.modesel.getLsbD 1 then x.choice else x.choice.down e.1
      runest := BitVec.ofNat 20 e.2.1, ckest := BitVec.ofNat 20 e.2.2.1, dirty := BitVec.ofNat 24 e.2.2.2 }
/-- Delta acts on a queue's choice (R305). -/
def actChoice (p : PartId) (s : State) (q : BitVec 6) : State :=
  match sluiceChoice s p q with
  | .run => s
  | .checkpoint => ckptRest p q s
  | .discard => if queueHolds s p q then discardQueue p q s else s
/-- The entry of a queue that the deadline does not know yet. -/
def newEntry (s : State) (p : PartId) (held : Bool) (q : BitVec 6) : SQueue := ⟨q, .run, false, held, 0, 0, false, 0, 0, 0, 0, (queueOf s p q).tearing⟩
/-- Every queue is evaluated, and Delta acts on the choices. -/
def evalAll (p : PartId) (held : Bool) (s : State) : State :=
  match (pt s p).dl with
  | none => s
  | some d =>
    let qs := heldQueues s p
    let new := (qs.filter (fun q => !d.qs.any (fun x => x.q == q))).map (newEntry s p held)
    let d := { d with qs := (d.qs ++ new).map (evalEntry s p d), evalAt := s.us }
    qs.foldl (actChoice p) (modPt s p (fun k => { k with dl := some d }))
/-- SLUICE_EVALUATION (R304): once in each µs until the cut. -/
def execSluiceEvaluation (p : PartId) (s : State) : Out :=
  match (pt s p).dl with
  | none => .next s
  | some d => if s.us ≤ d.evalAt || pastCut s d || s.fatal || s.dead then .next s else .next (evalAll p false s)

/-! The deadline (R299). -/

/-- A pending deadline ends at or before a new one. -/
def endsBefore (s : State) (p : PartId) (n : Nat) : Bool :=
  match (pt s p).dl with | some d => decide (d.start + d.d ≤ s.us + n) | none => false
/-- DEADLINE (R299): the answer holds T_discard either way. A new deadline takes the choices of the one that it replaces, and the clock does not
stay below 1.8 GHz (R301). (DEDUCED, log entry 74.) -/
def execDeadline (k : DeadlineF) (s : State) : Out :=
  let p := k.part
  let td := tDiscard s p
  let n := k.d.toNat
  if !mgmt s p || n < max 1 td || k.addr.toNat % 64 ≠ 0 || k.ckpt.toNat % 64 ≠ 0 || k.rsv ≠ 0 || endsBefore s p n then
    .next (nackData s td)
  else
    let old := match (pt s p).dl with | some d => d.qs | none => []
    let d : Deadline := ⟨n, td, s.us + n - td, s.us, k.margin, k.node, k.addr, k.ckpt, k.ckptn.toNat, 0,
      old.map (fun x => { x with held := queueHolds s p x.q }), false, s.us⟩
    let s := evalAll p true { modPt s p (fun q => { q with dl := some d }) with mhz := max s.mhz 1800 }
    .next (ackOk (if s.modesel.getLsbD 1 then raise s (.sluiceq p) else s) td)

/-! The cut (R304, R310). -/

/-- What is left at the cut is discarded: every unfinished queue, every command, every spawn that waits (R305). -/
def cutAll (p : PartId) (s : State) : State :=
  let qs := heldQueues s p
  let s := modPt s p (fun k => { k with dl := k.dl.map (fun d => { d with
    cutDone := true, qs := d.qs.map (fun x => if qs.contains x.q then { x with cut := true } else x) }) })
  let s := qs.foldl (fun s q => discardQueue p q s) s
  let s := (s.cmds.filter (fun k => k.part == p && k.op == opSpawn && k.prog == 0)).foldl (fun s k =>
    spawnArrive p ⟨k.block.toNat % 2 ^ 52, some (k.core, k.id), false, false, none⟩ (modCmd k.id (fun k => { k with prog := 1 }) s)) s
  let s := drainSpawns p ((pt s p).spawns.length + 1) s
  let left := (pt s p).spawns
  let s := modPt s p (fun k => { k with spawns := [] })
  let s := left.foldl (fun s sp => match sp.cmd with | some x => endCmd x.2 none s | none => if sp.owed then nack s else s) s
  cancelOf p (fun _ => true) s
/-- DEADLINE_CUT (R304). -/
def execDeadlineCut (p : PartId) (s : State) : Out :=
  match (pt s p).dl with
  | none => .next s
  | some d => if d.cutDone || s.us < d.cut || s.fatal || s.dead then .next s else .next (cutAll p s)

/-! Vacancy (R311, R312). -/

/-- One entry of the report. -/
def repEntry (x : SQueue) : List Byte :=
  bytesOf 8 (x.q.toNat + x.choice.rank * 2 ^ 6 + x.outcome.toNat * 2 ^ 8 + putB 11 x.cut + x.ended % 2 ^ 32 * 2 ^ 32) ++ bytesOf 8 (x.saved % 2 ^ 40)
/-- The report (R312). -/
def repBytes (s : State) (p : PartId) (d : Deadline) : List Byte :=
  let qs := d.qs.filter (fun x => x.held)
  bytesOf 8 (d.d % 2 ^ 32 + d.td % 2 ^ 32 * 2 ^ 32) ++
  bytesOf 8 ((s.us - d.start) % 2 ^ 32 + putB 32 (!s.ackWait.any (fun a => a.part == p))) ++
  bytesOf 8 qs.length ++ bytesOf 8 0 ++ qs.flatMap repEntry
/-- A command that only awaits acknowledgements does not delay vacancy (R311). -/
def onlyAcks (s : State) (k : Cmd) : Bool :=
  (k.done && k.op != opSend) || s.regions.any (fun r => r.late.any (fun t => t.2.1 == k.id))
/-- Nothing of the partition is left to end (R311). -/
def mayVacate (s : State) (p : PartId) : Bool :=
  !(pt s p).tasks.any Task.live && (pt s p).spawns.isEmpty && !s.cmds.any (fun k => k.part == p && !onlyAcks s k) &&
  !(coresOf s p).any (fun c => (cr s c).running)
/-- The commands that only await acknowledgements end with what they have written. -/
def endAcks (p : PartId) (s : State) : State :=
  (s.cmds.filter (fun k => k.part == p)).foldl (fun s k =>
    endCmd k.id none (freeCtx k (if k.out.isEmpty then s else addPub s (.engine k.core k.id) (BitVec.allOnes 64) k.incl k.out))) s
/-- VACANCY (R311): the cores are scrubbed, the report is published, and the event is raised. (DEDUCED, log entry 73.) -/
def execVacancy (p : PartId) (s : State) : Out :=
  match (pt s p).dl with
  | none => .next s
  | some _ =>
    if !mayVacate s p || s.fatal || s.dead then .next s
    else
      let s := endAcks p s
      let bs := match (pt s p).dl with | some d => repBytes s p d | none => []
      let s := (coresOf s p).foldl (fun s c => scrubCore c true s) s
      let s := match (pt s p).dl with | some d => pubOther s (placeL (locNode d.node.toNat d.addr.toNat) bs) | none => s
      let s := openGate p (modPt s p (fun q => { q with running := false, image := none, imgData := [], vacant := true, dl := none }))
      .next (raise s (.vacancy p))

/-! Host-assisted choices (R306). -/

/-- A write of SLUICECH that is not refused: the partition, the deadline, and the queue's entry. -/
def sluiceCh (s : State) (code : Nat) (x : W64) : Option (PartId × BitVec 6) :=
  let p : PartId := Fin.ofNat 64 (bits x.toNat 0 6)
  let q : BitVec 6 := BitVec.ofNat 6 (bits x.toNat 6 6)
  match (pt s p).dl with
  | none => none
  | some d =>
    if !mgmt s p || bits x.toNat 14 50 ≠ 0 || bits x.toNat 12 2 ≠ code || pastCut s d || !queueHolds s p q then none else some (p, q)
/-- The host's choice acts at once (R305, R306). (DEDUCED, log entry 71.) -/
def hostChoice (code : Nat) (ch : SChoice) (x : W64) (s : State) : State :=
  match sluiceCh s code x with
  | none => nack s
  | some (p, q) =>
    match (pt s p).dl with
    | none => nack s
    | some d =>
      let e := (d.qs.find? (fun y => y.q == q)).getD (newEntry s p false q)
      if !s.modesel.getLsbD 1 || ch.rank < e.choice.rank || e.saving ||
         (ch == .checkpoint && decide (d.ckptn - d.used < withdrawQ s p q)) then nack s
      else
        let qs := if d.qs.any (fun y => y.q == q) then d.qs.map (fun y => if y.q = q then { y with choice := ch } else y)
          else d.qs ++ [{ e with choice := ch }]
        ackOk (actChoice p (modPt s p (fun k => { k with dl := some { d with qs := qs } })) q) 0
def execSluiceRun (x : W64) (s : State) : Out := .next (hostChoice 0 .run x s)
def execSluiceCheckpoint (x : W64) (s : State) : Out := .next (hostChoice 1 .checkpoint x s)
def execSluiceDiscard (x : W64) (s : State) : Out := .next (hostChoice 2 .discard x s)
/-- QUERY selects the queue that SLUICEQV shows. -/
def execSluiceQuery (x : W64) (s : State) : Out :=
  match sluiceCh s 3 x with
  | none => .next (nack s)
  | some (p, q) => .next (ackOk { s with queryP := p, queryQ := q } 0)

/-! Registers that the window shows (R302, R306). -/

/-- DLSTAT of a partition. -/
def dlstat (s : State) (p : PartId) : Nat :=
  match (pt s p).dl with
  | some d => 2 ^ 63 + putB 62 (pt s p).vacant + (if pastCut s d then 0 else d.cut - s.us)
  | none => putB 62 (pt s p).vacant
/-- SLUICEQV. -/
def sluiceqv (s : State) : Nat :=
  match (pt s s.queryP).dl.bind (fun d => d.qs.find? (fun x => x.q == s.queryQ)) with
  | some x => x.runest.toNat + x.ckest.toNat * 2 ^ 20 + x.dirty.toNat * 2 ^ 40
  | none => 0

end Sys2Proof.Machine
end

