-- ==== Sys2Proof/Machine/Faults.lean ====
section
/-! DEFINITION. Lasting faults and retirement, mirrored regions and restart from the buddy, and the fatal dump (R329, R332 to
R338, R346). -/
namespace Sys2Proof.Machine

/-! Error counts (R332, R336, R337). -/

/-- The units of a kind (R332, R336). -/
def unitCount (kind : Nat) : Nat :=
  match kind with
  | 0 => 64 | 1 => 66 * 64 | 2 => 256 | 3 => 1024 | 4 => 24 | 5 => 256 | 6 => Config.backChannels | _ => 0
def unitValid (kind : BitVec 3) (u : BitVec 16) : Bool := decide (u.toNat < unitCount kind.toNat)
/-- The allotments are lowered, the largest first, until their sum fits the contexts that are left (R298). -/
def lowerAllot : Nat → State → State
  | 0, s => s
  | fuel + 1, s =>
    if sumNat (partIds.map (fun p => (pt s p).allot)) ≤ 256 - unitsGone s 5 then s
    else
      let top := partIds.foldl (fun (b : PartId) p => if (pt s b).allot < (pt s p).allot then p else b) 0
      lowerAllot fuel (modPt s top (fun q => { q with allot := q.allot - 1 }))
/-- The allotments that have changed are reported (R298). -/
def reportAllot (old s : State) : State :=
  partIds.foldl (fun s p => if (pt s p).allot = (pt old p).allot then s else raise s (.allot p (pt s p).allot)) s
/-- A unit is due to retire; the window reports one that cannot retire yet (R333). -/
def makeDue (kind : BitVec 3) (u : BitVec 16) (s : State) : State := setUnit { unitOfErr s kind u with due := true } s
/-- A Rill unit's channel is due once its four units are retired (R333). -/
def rillChannel (u : BitVec 16) (s : State) : State :=
  let ch := u.toNat / 4
  if (upto 4).all (fun i => unitGone s 3 (4 * ch + i)) then raise (makeDue 2 (BitVec.ofNat 16 ch) s) (.retpend 2 (BitVec.ofNat 16 ch)) else s
/-- The core of a unit of kind 0 or 1. -/
def unitCore (kind : BitVec 3) (u : BitVec 16) : CoreId := Fin.ofNat 64 (if kind = 0 then u.toNat else u.toNat / 66)
/-- A retirement may take effect now (R333): at once for links, contexts and Rill units; for cores and columns, when the core
is in no partition. Channels retire at RETIRE, and columns otherwise at the opening of the gate. (DEDUCED, log entry 76.) -/
def mayRetire (s : State) (kind : BitVec 3) (u : BitVec 16) : Bool :=
  if kind = 3 || kind = 4 || kind = 5 then true
  else if kind = 0 || kind = 1 then (partOf s (unitCore kind u)).isNone
  else false
/-- A unit that is due retires (R333). -/
def retireUnit (kind : BitVec 3) (u : BitVec 16) (s : State) : State :=
  match kind.toNat with
  | 0 => goneCore (unitCore kind u) s
  | 1 =>
    let c := unitCore kind u
    let s := dueCols c s
    if (partOf s c).isNone then dueCores [c] s else s
  | 3 => rillChannel u (goneUnit 3 u s)
  | 5 => reportAllot s (lowerAllot (64 * 256 + 1) (goneUnit 5 u s))
  | _ => goneUnit kind u s
/-- The retirement of a unit that is due, or its report. -/
def settleUnit (kind : BitVec 3) (u : BitVec 16) (s : State) : State :=
  if mayRetire s kind u then retireUnit kind u s else raise s (.retpend kind u)
/-- One error of a unit is counted; a count above THRESH judges the fault lasting (R332). With MODESEL.ERR every error is posted to
the host, and only RETIRE retires (R337). (DEDUCED, log entry 75.) -/
def countError (kind : BitVec 3) (u : BitVec 16) (s : State) : State :=
  if (unitOfErr s kind u).retired || !unitValid kind u then s
  else
    let x := bumpUnit kind u s
    if s.modesel.getLsbD 2 then raise x.1 (.errPosted kind u) else if x.2 then settleUnit kind u x.1 else x.1

/-- ERROR_WINDOW_EXPIRY (R332): a count of a window that has ended starts again; one above THRESH has judged the fault lasting. -/
def windowEnds (kind : BitVec 3) (u : BitVec 16) (s : State) : State :=
  let x := unitOfErr s kind u
  if x.count = 0 || x.win = windowNow s kind || s.fatal || s.dead then s
  else
    let lasting := !s.modesel.getLsbD 2 && decide (threshOf s kind < x.count) && !x.retired && !x.due
    let s := setUnit { x with count := 0, win := windowNow s kind, due := x.due || lasting } s
    if lasting then settleUnit kind u s else s
def execErrorWindowExpiry (kind : BitVec 3) (unit : BitVec 16) (s : State) : Out := .next (windowEnds kind unit s)

/-- UNIT_RETIREMENT (R333): a retirement that is due takes effect at its point. -/
def execUnitRetirement (kind : BitVec 3) (unit : BitVec 16) (s : State) : Out :=
  let x := unitOfErr s kind unit
  if !x.due || x.retired || !mayRetire s kind unit || s.fatal || s.dead then .next s else .next (retireUnit kind unit s)

/-- The dies' stacks shrink by 768 MiB from the top of their ranges for each retired channel (R289, R333). -/
def shrinkStack (u : BitVec 16) (s : State) : State :=
  let i := u.toNat / 64 % 4
  { s with stackTop := s.stackTop.setIfInBounds i (s.stackTop.getD i 0 - 0x30000000) }
/-- RETIRE (R333, R337): a channel retires where no partition runs; a unit of another kind retires as its kind gives. -/
def execRetire (kind : BitVec 3) (unit : BitVec 16) (s : State) : Out :=
  let x := unitOfErr s kind unit
  if !winOpen s || kind = 7 || !unitValid kind unit || x.retired then .next (nack s)
  else if kind = 2 || kind = 6 then
    (if anyRuns s then .next (nack s)
     else
       let s := goneUnit kind unit (makeDue kind unit s)
       .next (ackOk (if kind = 2 then shrinkStack unit s else s) 0))
  else .next (ackOk (settleUnit kind unit (makeDue kind unit s)) 0)

/-- RECORD (R336). -/
def execRecord (x : W64) (s : State) : Out :=
  let kind : BitVec 3 := BitVec.ofNat 3 x.toNat
  let u : BitVec 16 := BitVec.ofNat 16 (x.toNat / 2 ^ 8)
  if !winOpen s || bits x.toNat 24 40 ≠ 0 || bits x.toNat 3 5 ≠ 0 || kind = 7 || !unitValid kind u || (unitOfErr s kind u).retired then
    .next (nack s)
  else .next (ackOk (countError kind u s) 0)

/-! Mirroring (R227, R335). -/

/-- A region is declared to its buddy, whose copies are read-only for the buddy's own cores from then on (R227; DEDUCED, log entry 64). -/
def declareMirror (m : Mirror) (s : State) : State :=
  sendFlit ⟨64, m.buddy, laneHash m.dpa⟩ (fun n => .mirror ⟨64, m.buddy, laneHash m.dpa⟩ n (.declare Config.thisModule (BitVec.ofNat 46 m.dpa) m.len)) s
/-- MIRCFG (R335): the region is declared, in place of one of the same base. -/
def execMircfg (p : PartId) (base : GAddr) (len : BitVec 52) (m : BitVec 16) (dpa : BitVec 46) (s : State) : Out :=
  if !mgmt s p || (pt s p).running || base.toNat % 65536 ≠ 0 || len.toNat % 65536 ≠ 0 then .next (nack s)
  else
    let rest := s.mirrors.filter (fun x => !(x.part == p && x.base == base.toNat))
    let new : Mirror := ⟨p, base.toNat, len.toNat, m, dpa.toNat⟩
    .next (ackOk (if len = 0 then { s with mirrors := rest } else declareMirror new { s with mirrors := rest ++ [new] }) 0)

/-- MODULE_LOST (R335): this module is a buddy of a module that no path reaches any more. -/
def execModuleLost (m : BitVec 16) (s : State) : Out :=
  if s.fatal || s.dead then .next s else .next (raise s (.lost m))

/-- A pan copy becomes a configured region of a partition: N is its last advance, its samples stay in their intakes, and the
closes that lack samples are discarded (R335). (DEDUCED, log entry 77.) -/
def promotePan (p : PartId) (s : State) (k : PanCopy) : State :=
  let id := s.nextId
  { s with nextId := id + 1, regions := s.regions ++ [{ k.reg with id := id, part := p, base := (panDesc k.reg.desc).base }] }
/-- PROMOTE (R335): copies become ordinary memory of the partition. What has come for a copy whose configuration has not is lost with its
module. -/
def execPromote (p : PartId) (m : BitVec 16) (s : State) : Out :=
  if !mgmt s p then .next (nack s)
  else
    let ks := s.panCopies.filter (fun k => k.m == m && k.known)
    let s := ks.foldl (promotePan p) s
    .next (ackOk { s with copies := s.copies.filter (fun k => k.m ≠ m), panCopies := s.panCopies.filter (fun k => k.m ≠ m) } 0)

/-! The fatal dump (R338). -/

def dumpBase : Nat := 0x2F80000000
def dumpRoom : Nat := 2 ^ 31
/-- The header and the directory (R338; DESIGN CHOICE, log entry 29). -/
def dumpHead (s : State) (cause : BitVec 8) (secs : List (Nat × Nat × Nat)) : List Byte :=
  fixLen 64 (bytesOf 8 (2 + cause.toNat * 2 ^ 16) ++ bytesOf 8 s.us ++ bytesOf 8 secs.length) ++
  secs.flatMap (fun x => bytesOf 4 x.1 ++ bytesOf 8 x.2.1 ++ bytesOf 4 x.2.2)
/-- Core state (R338): STATUS, EPC, the full marks, and every register with its tag in the format of a live-state area that lists them all. -/
def dumpCore (k : Core) : List Byte :=
  let h := saveHead ⟨k.pc, BitVec.allOnes 64, BitVec.allOnes 64, BitVec.allOnes 32, BitVec.allOnes 8, BitVec.allOnes 8, BitVec.allOnes 4,
    BitVec.allOnes 16, BitVec.allOnes 16⟩ k
  bytesOf 8 (statusReg k).toNat ++ bytesOf 8 k.epc.toNat ++
  bytesOf 8 (sumNat ((upto 64).map (fun n => putB n (k.regs.s.getD n SReg.reset).full))) ++
  bytesOf 8 (sumNat ((upto 64).map (fun n => putB n (k.regs.v.getD n VReg.reset).full))) ++ bytesOf 64 h.num ++ saveBody h k
/-- The command windows. -/
def dumpWindow (v : Vf) : List Byte :=
  bytesOf 8 v.rootbase.toNat ++ bytesOf 8 v.s1root.toNat ++ bytesOf 8 v.quant.toNat ++ bytesOf 8 v.safemax ++ bytesOf 8 v.stale.toNat ++
  bytesOf 8 v.linktmo.toNat ++ bytesOf 8 v.watch.toNat ++ bytesOf 8 v.prqbase.toNat ++ bytesOf 8 v.prqprod.toNat ++ bytesOf 8 v.prqcons.toNat ++
  bytesOf 8 v.prqxlat.toNat
/-- The counters and logs. -/
def dumpLogs (v : Vf) : List Byte :=
  v.srcnt.toList.flatMap (fun x => bytesOf 8 x.toNat) ++ bytesOf 8 v.rillflags.toNat ++ bytesOf 8 v.engerr.toNat ++ bytesOf 8 v.traperr.toNat ++
  bytesOf 8 v.errlog.toNat
/-- The retirements, with the counts of errors. -/
def dumpRetired (s : State) : List Byte :=
  bytesOf 8 (retCore s) ++ bytesOf 8 (retCnt s) ++ s.units.flatMap (fun x => bytesOf 8 (x.kind.toNat + x.unit.toNat * 2 ^ 8 + putB 24 x.retired + putB 25 x.due) ++ bytesOf 8 x.count)
/-- The state of Delta and the Sluice. -/
def dumpSched (p : Part) : List Byte :=
  bytesOf 8 (putB 0 p.exist + putB 1 p.running + p.vf.val * 2 ^ 8) ++ bytesOf 8 p.mask.toNat ++
  p.queues.toList.flatMap (fun q => bytesOf 8 (q.prio.toNat + putB 8 q.valid + putB 9 q.tearing)) ++
  p.tasks.flatMap (fun t => bytesOf 8 (t.rec_ + t.st.toNat * 2 ^ 56)) ++
  (match p.dl with | some d => bytesOf 8 d.cut ++ d.qs.flatMap (fun x => bytesOf 8 (x.q.toNat + x.choice.rank * 2 ^ 6)) | none => [])
/-- The sections of the dump with their kinds. -/
def dumpSecs (s : State) : List (Nat × List Byte) :=
  [(0, s.cores.toList.flatMap dumpCore), (1, s.vfs.toList.flatMap dumpWindow), (2, s.vfs.toList.flatMap dumpLogs), (3, dumpRetired s),
   (4, s.parts.toList.flatMap dumpSched)]
/-- The directory's entries of sections from an offset on. -/
def dumpDir : Nat → List (Nat × List Byte) → List (Nat × Nat × Nat)
  | _, [] => []
  | o, (k, b) :: r => (o, b.length, k) :: dumpDir (o + b.length) r
/-- The dump: header, directory, sections and signature. -/
def dumpBytes (s : State) (cause : BitVec 8) : List Byte :=
  let secs := dumpSecs s
  let body := dumpHead s cause (dumpDir (64 + 16 * secs.length) secs) ++ secs.flatMap Prod.snd
  (body ++ fixLen 7856 (Config.attSign body)).take dumpRoom
/-- FATAL_ERROR (R338): issue stops on every core, the dump is written, and the event is raised. -/
def execFatalError (cause : BitVec 8) (s : State) : Out :=
  if s.fatal || s.dead || cause = 0 || 3 < cause.toNat then .next s
  else .next (raise { pubOther s (placeL dumpBase (dumpBytes s cause)) with fatal := true } .fatal)
/-- DUMPREAD (R338): 8 bytes of the dump, after FATAL. -/
def execDumpread (off : Nat) (s : State) : Out :=
  if !s.fatal || s.dead || dumpRoom < off + 8 then .next (nack s) else .next (ackOk s (s.mem.rdN (dumpBase + off) 8))

end Sys2Proof.Machine
end

