-- ==== Sys2Proof/Machine/Boot.lean ====
section
/-! DEFINITION. Reset, boot, firmware loads, power and cooling (R8, R167, R301, R343, R344, R346). -/
namespace Sys2Proof.Machine

/-! Boot (R343, R344). -/

def bootRom : BitVec 3 := 0
def bootFw : BitVec 3 := 1
def bootReady : BitVec 3 := 2
def bootHalted : BitVec 3 := 3
/-- BOOTSTAT. -/
def bootstat (s : State) : Nat :=
  s.boot.st.toNat + s.boot.floor.toNat * 2 ^ 24 + s.boot.failcode.toNat * 2 ^ 40 + s.boot.fwver.toNat * 2 ^ 48

/-- A core as reset leaves it; a retired one's port takes no share (R296). -/
def bareCore (k : Core) : Core := { Core.reset with retired := k.retired, portw := if k.retired then 0 else 1 }
/-- Every store of this module is zero: what other modules and the host nodes hold stands, as one publication before all others.
(DEDUCED, log entry 79.) -/
def scrubStores (s : State) : State :=
  addPub { s with mem := [], pubs := [], badG := [] } (.host 0) (BitVec.allOnes 64) 0 (s.mem.filter (fun x => !locIsLocal x.1)).reverse
/-- MODULE_RESET (R343): the boot ROM starts. What firmware recorded of retirements and the floor of versions outlive the reset. (DEDUCED, log entry 79.) -/
def resetState (s : State) : State :=
  { State.reset with
    mem := (scrubStores s).mem, pubs := (scrubStores s).pubs
    cores := s.cores.map bareCore
    units := s.units.map (fun x => { x with count := 0, win := 0 }), stackTop := s.stackTop
    boot := { State.reset.boot with floor := s.boot.floor }
    agenda := s.agenda, ch := s.ch, free := s.free, events := s.events }
def execModuleReset (s : State) : Out := .next (resetState s)

/-- What the ROM finds of a firmware image (R344): 0, or the FAILCODE. -/
def verifyFw (s : State) (f : Firmware) : BitVec 8 :=
  if f.malformed then 3
  else if !Config.sigOk f.key f.body f.sig || !(upto 4).any (fun i => Config.fuseDigest i == Config.sha256 f.key) then 1
  else if f.version.toNat < s.boot.floor.toNat then 2 else 0
/-- The image runs as firmware; its version may raise FLOOR and never lowers it (R344). -/
def runFw (f : Firmware) (s : State) : State :=
  { s with boot := ⟨bootFw, f.version, 0, if s.boot.floor.toNat < f.floor.toNat then f.floor else s.boot.floor, f.body⟩ }
def failFw (code : BitVec 8) (s : State) : State := { s with boot := { s.boot with st := bootHalted, failcode := code } }
/-- The image that the ROM finds at reset (DESIGN CHOICE, log entry 16). -/
def romImage : Firmware :=
  ⟨Config.romFirmware, Config.romVersion, Config.romFloor, Config.romKey, Config.romSig, Config.romMalformed⟩
/-- BOOT_ROM_VERIFY (R343). -/
def execBootRomVerify (s : State) : Out :=
  if s.boot.st ≠ bootRom || s.dead then .next s
  else
    let e := verifyFw s romImage
    .next (if e = 0 then runFw romImage s else failFw e s)

/-- Everything that is due and can retire with no partition in being does so at boot (R333, R343). -/
def applyRetirements (s : State) : State :=
  (s.units.filter (fun x => x.due && !x.retired)).foldl (fun s x => if mayRetire s x.kind x.unit then retireUnit x.kind x.unit s else s) s
/-- FIRMWARE_INIT (R343): links are trained, every store is scrubbed, retirements are applied, and the module is ready with every
weight gate open and no partition. -/
def execFirmwareInit (s : State) : Out :=
  if s.boot.st ≠ bootFw || s.dead then .next s
  else
    let s := applyRetirements { scrubStores s with boot := { s.boot with st := bootReady } }
    .next { s with cores := s.cores.map bareCore }

/-- FWLOAD (R343): in HALTED a firmware image is verified, and on success it runs. -/
def execFwload (f : Firmware) (s : State) : Out :=
  if s.boot.st ≠ bootHalted || s.fatal || s.dead then .next (nack s)
  else
    let e := verifyFw s f
    .next (if e = 0 then ackOk (runFw f s) 0 else nack (failFw e s))

/-! Power and cooling (R8, R346). -/

/-- The lowest clock that the controller runs, in MHz: the weight die's refresh sets one floor (R167), a pending deadline another
(R301). (DEDUCED, log entry 78.) -/
def clockFloor (s : State) : Nat := if partIds.any (fun p => (pt s p).dl.isSome) then 1800 else 1100
/-- POWER_CAP (R8): the clock is lowered, or issue stalls are inserted. Only time changes. -/
def execPowerCap (mhz : Nat) (stall : Nat) (s : State) : Out :=
  if s.dead then .next s else .next { s with mhz := max (clockFloor s) (min 3600 mhz), stallFor := s.now + stall }
/-- THERMTRIP (R346): the compute dies lose power without a dump, and the endpoint leaves the fabric until reset. (DEDUCED, log entry 30.) -/
def execThermtrip (s : State) : Out := if s.dead then .next s else .next (raise { s with dead := true } .thermtrip)

end Sys2Proof.Machine
end

