-- ==== Sys2Proof/Machine/Dispatch.lean ====
section
/-! DEFINITION. One arm for each instruction and event: its meaning. -/
namespace Sys2Proof.Machine
open Sys2Proof

def exec (i : Instr) (s : State) : Host.Outcome State Fault Refusal :=
  match i with
  | .add o => Sys2Proof.Machine.execAdd o s
  | .sub o => Sys2Proof.Machine.execSub o s
  | .mul o => Sys2Proof.Machine.execMul o s
  | .mulh o => Sys2Proof.Machine.execMulh o s
  | .mulhu o => Sys2Proof.Machine.execMulhu o s
  | .div o => Sys2Proof.Machine.execDiv o s
  | .divu o => Sys2Proof.Machine.execDivu o s
  | .rem o => Sys2Proof.Machine.execRem o s
  | .remu o => Sys2Proof.Machine.execRemu o s
  | .and o => Sys2Proof.Machine.execAnd o s
  | .or o => Sys2Proof.Machine.execOr o s
  | .xor o => Sys2Proof.Machine.execXor o s
  | .andn o => Sys2Proof.Machine.execAndn o s
  | .shl o => Sys2Proof.Machine.execShl o s
  | .shr o => Sys2Proof.Machine.execShr o s
  | .sar o => Sys2Proof.Machine.execSar o s
  | .rol o => Sys2Proof.Machine.execRol o s
  | .min o => Sys2Proof.Machine.execMin o s
  | .max o => Sys2Proof.Machine.execMax o s
  | .minu o => Sys2Proof.Machine.execMinu o s
  | .maxu o => Sys2Proof.Machine.execMaxu o s
  | .clmull o => Sys2Proof.Machine.execClmull o s
  | .clmulh o => Sys2Proof.Machine.execClmulh o s
  | .clz o => Sys2Proof.Machine.execClz o s
  | .ctz o => Sys2Proof.Machine.execCtz o s
  | .popc o => Sys2Proof.Machine.execPopc o s
  | .mov o => Sys2Proof.Machine.execMov o s
  | .sextI8 o => Sys2Proof.Machine.execSextI8 o s
  | .sextI16 o => Sys2Proof.Machine.execSextI16 o s
  | .sextI32 o => Sys2Proof.Machine.execSextI32 o s
  | .zextI8 o => Sys2Proof.Machine.execZextI8 o s
  | .zextI16 o => Sys2Proof.Machine.execZextI16 o s
  | .zextI32 o => Sys2Proof.Machine.execZextI32 o s
  | .sel o => Sys2Proof.Machine.execSel o s
  | .addi o => Sys2Proof.Machine.execAddi o s
  | .lea o => Sys2Proof.Machine.execLea o s
  | .li o => Sys2Proof.Machine.execLi o s
  | .lih o => Sys2Proof.Machine.execLih o s
  | .cmp o => Sys2Proof.Machine.execCmp o s
  | .cmpi o => Sys2Proof.Machine.execCmpi o s
  | .pand o => Sys2Proof.Machine.execPand o s
  | .por o => Sys2Proof.Machine.execPor o s
  | .pxor o => Sys2Proof.Machine.execPxor o s
  | .pandn o => Sys2Proof.Machine.execPandn o s
  | .prepLabel o => Sys2Proof.Machine.execPrepLabel o s
  | .prepReg o => Sys2Proof.Machine.execPrepReg o s
  | .getc o => Sys2Proof.Machine.execGetc o s
  | .setc o => Sys2Proof.Machine.execSetc o s
  | .ldl o => Sys2Proof.Machine.execLdl o s
  | .stl o => Sys2Proof.Machine.execStl o s
  | .vldl o => Sys2Proof.Machine.execVldl o s
  | .vldlStream o => Sys2Proof.Machine.execVldlStream o s
  | .vstl o => Sys2Proof.Machine.execVstl o s
  | .vstlStream o => Sys2Proof.Machine.execVstlStream o s
  | .bind o => Sys2Proof.Machine.execBind o s
  | .unbind o => Sys2Proof.Machine.execUnbind o s
  | .qskip o => Sys2Proof.Machine.execQskip o s
  | .qstat o => Sys2Proof.Machine.execQstat o s
  | .ldg o => Sys2Proof.Machine.execLdg o s
  | .stg o => Sys2Proof.Machine.execStg o s
  | .vldg o => Sys2Proof.Machine.execVldg o s
  | .vstg o => Sys2Proof.Machine.execVstg o s
  | .vgath o => Sys2Proof.Machine.execVgath o s
  | .vscat o => Sys2Proof.Machine.execVscat o s
  | .amo o => Sys2Proof.Machine.execAmo o s
  | .amoCas o => Sys2Proof.Machine.execAmoCas o s
  | .radd o => Sys2Proof.Machine.execRadd o s
  | .rowadd o => Sys2Proof.Machine.execRowadd o s
  | .rowld o => Sys2Proof.Machine.execRowld o s
  | .psmpScalar o => Sys2Proof.Machine.execPsmpScalar o s
  | .psmpVector o => Sys2Proof.Machine.execPsmpVector o s
  | .ptapScalar o => Sys2Proof.Machine.execPtapScalar o s
  | .ptapVector o => Sys2Proof.Machine.execPtapVector o s
  | .ptaps o => Sys2Proof.Machine.execPtaps o s
  | .rtapScalar o => Sys2Proof.Machine.execRtapScalar o s
  | .rtapVector o => Sys2Proof.Machine.execRtapVector o s
  | .phase o => Sys2Proof.Machine.execPhase o s
  | .pref o => Sys2Proof.Machine.execPref o s
  | .vadd o => Sys2Proof.Machine.execVadd o s
  | .vsub o => Sys2Proof.Machine.execVsub o s
  | .vmul o => Sys2Proof.Machine.execVmul o s
  | .vmulh o => Sys2Proof.Machine.execVmulh o s
  | .vmad o => Sys2Proof.Machine.execVmad o s
  | .vand o => Sys2Proof.Machine.execVand o s
  | .vor o => Sys2Proof.Machine.execVor o s
  | .vxor o => Sys2Proof.Machine.execVxor o s
  | .vshl o => Sys2Proof.Machine.execVshl o s
  | .vshr o => Sys2Proof.Machine.execVshr o s
  | .vsar o => Sys2Proof.Machine.execVsar o s
  | .vmin o => Sys2Proof.Machine.execVmin o s
  | .vmax o => Sys2Proof.Machine.execVmax o s
  | .vabs o => Sys2Proof.Machine.execVabs o s
  | .vwacc o => Sys2Proof.Machine.execVwacc o s
  | .vclmulLo o => Sys2Proof.Machine.execVclmulLo o s
  | .vclmulHi o => Sys2Proof.Machine.execVclmulHi o s
  | .vpopc o => Sys2Proof.Machine.execVpopc o s
  | .vfadd o => Sys2Proof.Machine.execVfadd o s
  | .vfsub o => Sys2Proof.Machine.execVfsub o s
  | .vfmul o => Sys2Proof.Machine.execVfmul o s
  | .vfma o => Sys2Proof.Machine.execVfma o s
  | .vfmin o => Sys2Proof.Machine.execVfmin o s
  | .vfmax o => Sys2Proof.Machine.execVfmax o s
  | .vfabs o => Sys2Proof.Machine.execVfabs o s
  | .vfneg o => Sys2Proof.Machine.execVfneg o s
  | .vfcmp o => Sys2Proof.Machine.execVfcmp o s
  | .vmcmp o => Sys2Proof.Machine.execVmcmp o s
  | .mand o => Sys2Proof.Machine.execMand o s
  | .mor o => Sys2Proof.Machine.execMor o s
  | .mnot o => Sys2Proof.Machine.execMnot o s
  | .vexp2 o => Sys2Proof.Machine.execVexp2 o s
  | .vlog2 o => Sys2Proof.Machine.execVlog2 o s
  | .vrcp o => Sys2Proof.Machine.execVrcp o s
  | .vrsq o => Sys2Proof.Machine.execVrsq o s
  | .vsqrt o => Sys2Proof.Machine.execVsqrt o s
  | .vcvt o => Sys2Proof.Machine.execVcvt o s
  | .vscale o => Sys2Proof.Machine.execVscale o s
  | .vpack o => Sys2Proof.Machine.execVpack o s
  | .vunpack o => Sys2Proof.Machine.execVunpack o s
  | .vtag o => Sys2Proof.Machine.execVtag o s
  | .vred o => Sys2Proof.Machine.execVred o s
  | .vscan o => Sys2Proof.Machine.execVscan o s
  | .vsplat o => Sys2Proof.Machine.execVsplat o s
  | .vmovs o => Sys2Proof.Machine.execVmovs o s
  | .vsel o => Sys2Proof.Machine.execVsel o s
  | .vlane o => Sys2Proof.Machine.execVlane o s
  | .vchkf o => Sys2Proof.Machine.execVchkf o s
  | .lsupd => Sys2Proof.Machine.execLsupd s
  | .xperm o => Sys2Proof.Machine.execXperm o s
  | .xrot o => Sys2Proof.Machine.execXrot o s
  | .xbcast o => Sys2Proof.Machine.execXbcast o s
  | .xshuf o => Sys2Proof.Machine.execXshuf o s
  | .xrev o => Sys2Proof.Machine.execXrev o s
  | .xcmpr o => Sys2Proof.Machine.execXcmpr o s
  | .wld o => Sys2Proof.Machine.execWld o s
  | .beat o => Sys2Proof.Machine.execBeat o s
  | .drain o => Sys2Proof.Machine.execDrain o s
  | .zclr o => Sys2Proof.Machine.execZclr o s
  | .zrot o => Sys2Proof.Machine.execZrot o s
  | .zspill o => Sys2Proof.Machine.execZspill o s
  | .zfill o => Sys2Proof.Machine.execZfill o s
  | .cpy o => Sys2Proof.Machine.execCpy o s
  | .cpyw o => Sys2Proof.Machine.execCpyw o s
  | .tqpush o => Sys2Proof.Machine.execTqpush o s
  | .tqpop o => Sys2Proof.Machine.execTqpop o s
  | .rkgath o => Sys2Proof.Machine.execRkgath o s
  | .rkseg o => Sys2Proof.Machine.execRkseg o s
  | .rill o => Sys2Proof.Machine.execRill o s
  | .cflAr o => Sys2Proof.Machine.execCflAr o s
  | .cflRs o => Sys2Proof.Machine.execCflRs o s
  | .cflAg o => Sys2Proof.Machine.execCflAg o s
  | .cflBc o => Sys2Proof.Machine.execCflBc o s
  | .send o => Sys2Proof.Machine.execSend o s
  | .recv o => Sys2Proof.Machine.execRecv o s
  | .pancfg o => Sys2Proof.Machine.execPancfg o s
  | .tick o => Sys2Proof.Machine.execTick o s
  | .foot o => Sys2Proof.Machine.execFoot o s
  | .jwait o => Sys2Proof.Machine.execJwait o s
  | .jpoll o => Sys2Proof.Machine.execJpoll o s
  | .spawn o => Sys2Proof.Machine.execSpawn o s
  | .join o => Sys2Proof.Machine.execJoin o s
  | .leave o => Sys2Proof.Machine.execLeave o s
  | .bar o => Sys2Proof.Machine.execBar o s
  | .tree o => Sys2Proof.Machine.execTree o s
  | .loop o => Sys2Proof.Machine.execLoop o s
  | .loopr o => Sys2Proof.Machine.execLoopr o s
  | .call o => Sys2Proof.Machine.execCall o s
  | .ret o => Sys2Proof.Machine.execRet o s
  | .suspend o => Sys2Proof.Machine.execSuspend o s
  | .halt => Sys2Proof.Machine.execHalt s
  | .trap o => Sys2Proof.Machine.execTrap o s
  | .rte => Sys2Proof.Machine.execRte s
  | .repeat o => Sys2Proof.Machine.execRepeat o s
  | .bundleIssue c => Sys2Proof.Machine.execBundleIssue c s
  | .resultLands c n => Sys2Proof.Machine.execResultLands c n s
  | .deferredPageTrap c => Sys2Proof.Machine.execDeferredPageTrap c s
  | .pageRequestPost v => Sys2Proof.Machine.execPageRequestPost v s
  | .rangeRetire c n => Sys2Proof.Machine.execRangeRetire c n s
  | .engineCommandComplete c id => Sys2Proof.Machine.execEngineCommandComplete c id s
  | .rillColumnCommand c n => Sys2Proof.Machine.execRillColumnCommand c n s
  | .samplePerformed c n => Sys2Proof.Machine.execSamplePerformed c n s
  | .tickCloseArrival r ch => Sys2Proof.Machine.execTickCloseArrival r ch s
  | .stackRefreshDue bank train => Sys2Proof.Machine.execStackRefreshDue bank train s
  | .weightDieRefresh => Sys2Proof.Machine.execWeightDieRefresh s
  | .cflHop c id k => Sys2Proof.Machine.execCflHop c id k s
  | .cflLateReplacement c id k => Sys2Proof.Machine.execCflLateReplacement c id k s
  | .recvEntryArrival peer flow k => Sys2Proof.Machine.execRecvEntryArrival peer flow k s
  | .recvTimeout c id => Sys2Proof.Machine.execRecvTimeout c id s
  | .sendAckTimeout c id => Sys2Proof.Machine.execSendAckTimeout c id s
  | .linkTimeout c => Sys2Proof.Machine.execLinkTimeout c s
  | .mirrorWriteArrival k => Sys2Proof.Machine.execMirrorWriteArrival k s
  | .taskPickup c => Sys2Proof.Machine.execTaskPickup c s
  | .heldSpawnEntry p => Sys2Proof.Machine.execHeldSpawnEntry p s
  | .quantumExpiry p => Sys2Proof.Machine.execQuantumExpiry p s
  | .launch v vec => Sys2Proof.Machine.execLaunch v vec s
  | .launchPreamble v vec => Sys2Proof.Machine.execLaunchPreamble v vec s
  | .imageLoad v img => Sys2Proof.Machine.execImageLoad v img s
  | .attest v nonce a => Sys2Proof.Machine.execAttest v nonce a s
  | .hostSpawn v a => Sys2Proof.Machine.execHostSpawn v a s
  | .restore v a => Sys2Proof.Machine.execRestore v a s
  | .queueTeardown v q => Sys2Proof.Machine.execQueueTeardown v q s
  | .prqreply v x => Sys2Proof.Machine.execPrqreply v x s
  | .pcreate p v mask key => Sys2Proof.Machine.execPcreate p v mask key s
  | .pdestroy p => Sys2Proof.Machine.execPdestroy p s
  | .s2root p x => Sys2Proof.Machine.execS2root p x s
  | .ctxallot p n => Sys2Proof.Machine.execCtxallot p n s
  | .portw c w => Sys2Proof.Machine.execPortw c w s
  | .inval v kind lo hi => Sys2Proof.Machine.execInval v kind lo hi s
  | .invalComplete => Sys2Proof.Machine.execInvalComplete s
  | .deadline k => Sys2Proof.Machine.execDeadline k s
  | .sluiceEvaluation p => Sys2Proof.Machine.execSluiceEvaluation p s
  | .deadlineCut p => Sys2Proof.Machine.execDeadlineCut p s
  | .vacancy p => Sys2Proof.Machine.execVacancy p s
  | .sluiceRun x => Sys2Proof.Machine.execSluiceRun x s
  | .sluiceCheckpoint x => Sys2Proof.Machine.execSluiceCheckpoint x s
  | .sluiceDiscard x => Sys2Proof.Machine.execSluiceDiscard x s
  | .sluiceQuery x => Sys2Proof.Machine.execSluiceQuery x s
  | .errorWindowExpiry kind unit => Sys2Proof.Machine.execErrorWindowExpiry kind unit s
  | .unitRetirement kind unit => Sys2Proof.Machine.execUnitRetirement kind unit s
  | .retire kind unit => Sys2Proof.Machine.execRetire kind unit s
  | .record x => Sys2Proof.Machine.execRecord x s
  | .mircfg p base len m dpa => Sys2Proof.Machine.execMircfg p base len m dpa s
  | .moduleLost m => Sys2Proof.Machine.execModuleLost m s
  | .promote p m => Sys2Proof.Machine.execPromote p m s
  | .fatalError cause => Sys2Proof.Machine.execFatalError cause s
  | .dumpread off => Sys2Proof.Machine.execDumpread off s
  | .moduleReset => Sys2Proof.Machine.execModuleReset s
  | .bootRomVerify => Sys2Proof.Machine.execBootRomVerify s
  | .firmwareInit => Sys2Proof.Machine.execFirmwareInit s
  | .fwload f => Sys2Proof.Machine.execFwload f s
  | .powerCap mhz stall => Sys2Proof.Machine.execPowerCap mhz stall s
  | .thermtrip => Sys2Proof.Machine.execThermtrip s
  | .registerWrite w r x => Sys2Proof.Machine.execRegisterWrite w r x s
  | .flowFlitArrival f seq k => Sys2Proof.Machine.execFlowFlitArrival f seq k s

end Sys2Proof.Machine
end

