-- ==== Sys2Proof/Machine/Sequence.lean ====
section
/-! DEFINITION. What the machine does next: the bundle that is committing, the turns of the outside world, and the order that the
model takes among the events that are due (DESIGN CHOICE, log entries 1 to 3). -/
namespace Sys2Proof.Machine

/-! The bundle that is committing (R29 to R31). -/

/-- The first slot from n upward that is live and holds something: a slot that is not live, or a no-op, does nothing. -/
def slotFrom (b : Bundle) (leaf : Nat) : Nat → Nat → Nat
  | 0, n => n
  | fuel + 1, n => if slotHolds b n = .noop || !slotLive b n leaf then slotFrom b leaf fuel (n + 1) else n
/-- The slot whose turn it is. -/
def nextSlotNo (s : State) : Nat := slotFrom s.iss.bundle s.iss.leaf.toNat (10 - s.iss.slot) s.iss.slot
/-- The bundle stands at a slot. -/
def atSlot (n : Nat) (s : State) : State := { s with iss := { s.iss with slot := n } }
/-- The next live slot commits; after the last one, or at a reserved encoding, the core closes the bundle or traps. -/
def commitStep (s : State) : Out :=
  let n := nextSlotNo s
  match (if n < 10 then slotHolds s.iss.bundle n else .noop) with
  | .ins i => exec i (atSlot n s)
  | _ => exec (.bundleIssue s.iss.core) (atSlot n s)

/-! The outside world (DESIGN CHOICE, log entry 2). -/

/-- What the world does besides an event (R329 to R332): data that becomes uncorrectable, an error of a unit, a byte that others
write in another module or a host node. (DESIGN CHOICE, log entry 33.) -/
def strike (s : State) : Strike → State
  | .g x => { s with badG := x :: s.badG }
  | .l c x => modCr s c (fun k => { k with badL := x :: k.badL })
  | .core c => modCr s c (fun k => { k with badCore := true })
  | .far x b => if locIsLocal x then s else pubOther s [(x, b)]
  | .weight c x => modCr s c (fun k => { k with badW := x :: k.badW })
  | .unit k u => countError k u s
/-- Time passes in which no core issues: lock-step gangs stand still with it (R63). -/
def elapse (dt dus : Nat) (s : State) : State :=
  { s with
    now := s.now + dt, us := s.us + dus
    cores := s.cores.map (fun k => { k with follow := k.follow.map (fun f => { f with t := f.t + dt }) }) }
/-- Time passes, the world does what the turn says, and its choices hold. -/
def turnState (t : Turn) (rest : List Turn) (s : State) : State :=
  t.strikes.foldl strike (elapse t.dt t.dus { s with agenda := rest, ch := t.ch })

/-! The events that are due, in the order that the model takes them (DESIGN CHOICE, log entry 2). -/

/-- What a core's memory operations, results and task may do. -/
def coreEvents (s : State) (c : CoreId) : List Instr :=
  let k := cr s c
  (if k.failed.isEmpty then [] else [.deferredPageTrap c]) ++
  (upto k.pend.length).map (.resultLands c) ++
  (upto k.posts.length).map (.rillColumnCommand c) ++ (upto k.posts.length).map (.samplePerformed c) ++
  (upto k.ranges.length).map (.rangeRetire c) ++
  (match partOf s c with
    | some p => if k.running || (pt s p).queues.all (fun q => q.ready.isEmpty) then [] else [.taskPickup c]
    | none => [])
/-- What an engine command may do. -/
def cmdEvents (k : Cmd) : List Instr :=
  [.engineCommandComplete k.core k.id, .recvTimeout k.core k.id, .sendAckTimeout k.core k.id]
/-- The closes of the TICK that a region runs. -/
def regionEvents (r : Region) : List Instr := if r.ticks.isEmpty then [] else (chansOf r).map (.tickCloseArrival r.id)
/-- What Delta and the Sluice may do for a partition. -/
def partEvents (s : State) (p : PartId) : List Instr :=
  let k := pt s p
  if !k.exist then []
  else (if k.spawns.isEmpty then [] else [.heldSpawnEntry p]) ++ [.quantumExpiry p] ++
    (if k.dl.isSome then [.deadlineCut p, .sluiceEvaluation p, .vacancy p] else [])
/-- The error windows and retirements of a unit. -/
def unitEvents (x : UnitErr) : List Instr := [.errorWindowExpiry x.kind x.unit, .unitRetirement x.kind x.unit]
/-- Booting. -/
def bootEvents (s : State) : List Instr :=
  if s.boot.st = bootRom then [.bootRomVerify] else if s.boot.st = bootFw then [.firmwareInit] else []
/-- The next unit of a core that has a turn left in this round: a prefix first. -/
def issueEvents (s : State) (c : CoreId) : List Instr :=
  let k := cr s c
  if !k.running then []
  else (match prefixAt k k.pc with | some n => if needsPrefix k then [.repeat ⟨n⟩] else [] | none => []) ++ [.bundleIssue c]
/-- Every event that may be due, in order. -/
def dueEvents (s : State) : List Instr :=
  bootEvents s ++ coreIds.flatMap (coreEvents s) ++ s.cmds.flatMap cmdEvents ++ s.regions.flatMap regionEvents ++
  (if s.invals.isEmpty then [] else [.invalComplete]) ++
  vfIds.flatMap (fun v => if (vf s v).reqs.isEmpty then [] else [.pageRequestPost v]) ++
  partIds.flatMap (partEvents s) ++ s.units.flatMap unitEvents ++
  (coreIds.filter (fun c => decide (s.rr ≤ c.val))).flatMap (issueEvents s)

/-- The first event that changes the machine happens. -/
def firstDue (s : State) : List Instr → Option Out
  | [] => none
  | i :: r => match exec i s with
    | .next t => if t = s then firstDue s r else some (.next t)
    | x => some x
/-- The round of the cores is over: a cycle passes, and a µs with each `mhz` cycles (DESIGN CHOICE, log entry 3). -/
def tick (s : State) : State :=
  let s := shiftGangs s
  { s with rr := 0, now := s.now + 1, us := if (s.now + 1) % s.mhz = 0 then s.us + 1 else s.us }
/-- With nothing named by the outside world, the first event that is due happens, or a cycle passes. -/
def idleStep (s : State) : Out :=
  let s := { s with ch := Choice.reset }
  (firstDue s (dueEvents s)).getD (.next (tick s))

/-- A command of a command window (R342). -/
def isWindow : Instr → Bool
  | .launch _ _ | .launchPreamble _ _ | .imageLoad _ _ | .attest _ _ _ | .hostSpawn _ _ | .restore _ _ | .queueTeardown _ _ | .prqreply _ _
  | .pcreate _ _ _ _ | .pdestroy _ | .s2root _ _ | .ctxallot _ _ | .portw _ _ | .inval _ _ _ _ | .deadline _ | .sluiceRun _
  | .sluiceCheckpoint _ | .sluiceDiscard _ | .sluiceQuery _ | .retire _ _ | .record _ | .mircfg _ _ _ _ _ | .promote _ _ | .dumpread _
  | .fwload _ | .registerWrite _ _ _ => true
  | _ => false
/-- Writes that a node sent earlier have come and are not performed: a flit before them is missing, or another part of their
publication (R220, R225). -/
def nodeWaits (s : State) (n : Nat) : Bool :=
  s.flows.any (fun f => f.id.src == n && !f.early.isEmpty) || s.partials.any (fun p => p.src == n)
/-- The VF window that a command goes to; the others go to the management window (R342). -/
def commandVf : Instr → Option VfId
  | .launch v _ | .launchPreamble v _ | .imageLoad v _ | .attest v _ _ | .hostSpawn v _ | .restore v _ | .queueTeardown v _ => some v
  | .registerWrite _ r _ => windowOf r
  | _ => none
/-- A LAUNCH or an ATTEST of the window waits for a page, and the commands behind it are not performed (R342, R356). (DEDUCED, log
entry 106.) -/
def windowWaits (s : State) (i : Instr) : Bool :=
  match (commandVf i).bind (winPart s) with
  | some p => (pt s p).launch.isSome || (pt s p).attest.isSome
  | none => false
/-- The turn at the head of the agenda. A command of a window is performed only after the earlier writes of the node that sent it (R290)
and the commands before it (R342): until then its turn leaves the machine as time has left it. -/
def turnStep (t : Turn) (rest : List Turn) (s : State) : Out :=
  let s := turnState t rest s
  if (isWindow t.ev && nodeWaits s s.ch.node) || windowWaits s t.ev then .next s else exec t.ev s

/-! Placing an instruction (DESIGN CHOICE, log entry 6). -/

/-- The slot in which a word's instruction stands. -/
def slotOfClass : SlotClass → Nat
  | .a => 0 | .l => 2 | .g => 3 | .v => 4 | .x => 6 | .t => 7 | .e => 8 | _ => 9
/-- A bundle whose one instruction, in the given slot, has the word. -/
def oneSlot (n w : Nat) : Bundle := mkBundle liveHeader [(n, w)]
/-- Core 0 issues a bundle. -/
def placeBundle (b : Bundle) (s : State) : State :=
  { s with iss := { Issue.reset with
    act := true, bundle := b, regs := (cr s 0).regs, l := (cr s 0).l, ctl := ctlAll s 0, t := s.now, seq0 := (cr s 0).seq
    leaf := leafOf (cr s 0).regs b } }
/-- Core 0 stands at a prefix, and the bundle of no-ops follows it. -/
def placePrefix (w : Nat) (s : State) : State :=
  { s with iss := Issue.reset, agenda := [], rr := 0, fatal := false, dead := false, stallFor := 0,
           boot := { s.boot with st := bootReady },
           cores := (s.cores.map (fun k => { k with running := false, failed := [] })).set 0
             { Core.reset with running := true, dict := [0], code := [BitVec.ofNat 16 w, 0] } }

end Sys2Proof.Machine
end

