-- ==== Sys2Proof/Machine/Step.lean ====
section
/-! DEFINITION. One step of the machine, and where the host places an instruction. -/
namespace Sys2Proof.Machine

/-- One step: the bundle that is committing goes on, else the turn at the head of the agenda is taken, else the first event that
is due happens (DESIGN CHOICE, log entries 1 and 2). -/
def step (s : State) : Host.Outcome State Fault Refusal :=
  if s.iss.act then commitStep s
  else match s.agenda with
    | t :: r => turnStep t r s
    | [] => idleStep s

/-- The machine about to run the instruction whose bits are w: alone in its slot of a bundle that core 0 has issued, or a
prefix at core 0's next unit (DESIGN CHOICE, log entry 6). -/
def State.withFetchWord (s : State) (nbits w : Nat) : State :=
  match (decodeTableWord nbits w).bind slotOf with
  | none => s
  | some .c => placePrefix w s
  | some k => placeBundle (oneSlot (slotOfClass k) w) s

end Sys2Proof.Machine
end

