-- ==== Sys2Proof/Safety.lean ====
section
/-! DEFINITION. The terms in which claims about the machine are stated: when a slot is ready, what a slot changes and what it
leaves, and the invariant of memory. -/
namespace Sys2Proof.Machine

/-! When a slot commits (R34, R35). -/

/-- A bundle is committing, every register that the slot reads is full, and no destination of it is in flight. -/
def Ready (i : Instr) (s : State) : Prop :=
  s.iss.act = true ∧ (srcRegs i).any (fun r => emptyReg s.iss.regs r.1) = false ∧ (dstRegs i).any (pendingDst (me s)) = false

/-! What a slot leaves. -/

/-- Nothing outside the committing core and the record of the committing bundle has changed: no byte of global memory, no
other core, partition, window, engine command, region, queue or link. -/
def OnlyCore (s t : State) : Prop := t = { s with cores := s.cores.set s.iss.core (me t), iss := t.iss }
/-- The slot has committed and the next slot follows: of the bundle's record only the slot number and the list of registers
that the bundle has written have changed. -/
def SlotDone (s t : State) : Prop := t.iss = { s.iss with slot := s.iss.slot + 1, wrote := t.iss.wrote }
/-- A register that a handler writes loses its entry of the resume latch (R320). -/
def Noted (r : RegId) (s t : State) : Prop :=
  (me t).latch = if s.iss.handler then (me s).latch.filter (fun e => e.reg ≠ r) else (me s).latch

/-- The next state writes the scalar d: it is full and holds x, s0 reads 0 (R32, R33); every other register, every control
register, L and all else keep their values. -/
def WritesS (s : State) (out : Out) (d : BitVec 6) (x : W64) : Prop :=
  ∃ t, out = .next t ∧ OnlyCore s t ∧ SlotDone s t ∧ Noted (.s d) s t ∧
    rdS (me t).regs d = (if d = 0 then 0 else x) ∧ fullS (me t).regs d = true ∧
    (∀ n, n ≠ d → rdS (me t).regs n = rdS (me s).regs n ∧ fullS (me t).regs n = fullS (me s).regs n) ∧
    me t = { me s with regs := { (me s).regs with s := (me t).regs.s }, latch := (me t).latch }

/-- The next state writes the predicate d; p0 reads true (R32). -/
def WritesP (s : State) (out : Out) (d : BitVec 5) (x : Bool) : Prop :=
  ∃ t, out = .next t ∧ OnlyCore s t ∧ SlotDone s t ∧ Noted (.p d) s t ∧
    rdP (me t).regs d = (if d = 0 then true else x) ∧ (∀ n, n ≠ d → rdP (me t).regs n = rdP (me s).regs n) ∧
    me t = { me s with regs := { (me s).regs with p := (me t).regs.p }, latch := (me t).latch }

/-- The next state writes the branch target d, which becomes young (R79); a write to b0 is ignored (R32). -/
def WritesB (s : State) (out : Out) (d : BitVec 3) (x : CAddr) : Prop :=
  ∃ t, out = .next t ∧ OnlyCore s t ∧ SlotDone s t ∧ Noted (.b d) s t ∧
    (∀ f, rdB (me t).regs f d = if d = 0 then f else x) ∧ (∀ n, n ≠ d → ∀ f, rdB (me t).regs f n = rdB (me s).regs f n) ∧
    (me t).regs.age = (me s).regs.age.set d.toFin 0 ∧
    me t = { me s with regs := { (me s).regs with b := (me t).regs.b, age := (me t).regs.age }, latch := (me t).latch }

/-- The next state writes the mask d; m0 reads all ones (R32). -/
def WritesM (s : State) (out : Out) (d : BitVec 3) (x : W64) : Prop :=
  ∃ t, out = .next t ∧ OnlyCore s t ∧ SlotDone s t ∧ Noted (.m d) s t ∧
    rdM (me t).regs d = (if d = 0 then BitVec.allOnes 64 else x) ∧ (∀ n, n ≠ d → rdM (me t).regs n = rdM (me s).regs n) ∧
    me t = { me s with regs := { (me s).regs with m := (me t).regs.m }, latch := (me t).latch }

/-- The next state writes the v register d whole, with a tag, and leaves it full. -/
def WritesV (s : State) (out : Out) (d : BitVec 6) (x : VBits) (t : Tag) : Prop :=
  ∃ u, out = .next u ∧ OnlyCore s u ∧ SlotDone s u ∧ Noted (.v d) s u ∧
    rdV (me u).regs d = ⟨x, t, true⟩ ∧ (∀ n, n ≠ d → rdV (me u).regs n = rdV (me s).regs n) ∧
    me u = { me s with regs := { (me s).regs with v := (me u).regs.v }, latch := (me u).latch }

/-- The next state writes the tile d. -/
def WritesZ (s : State) (out : Out) (d : BitVec 2) (x : Tile) : Prop :=
  ∃ u, out = .next u ∧ OnlyCore s u ∧ SlotDone s u ∧ Noted (.z d) s u ∧
    rdZ (me u).regs d = x ∧ (∀ n, n ≠ d → rdZ (me u).regs n = rdZ (me s).regs n) ∧
    me u = { me s with regs := { (me s).regs with z := (me u).regs.z }, latch := (me u).latch }

/-- The next state merges results into the elements of the v register d (R136): an enabled element holds its result, a
disabled one its old bits; the register is full and carries the tag; the flags of the enabled elements are ORed into FLAGS
(R132), and nothing else changes. -/
def MergesV (s : State) (out : Out) (d : BitVec 6) (t : Tag) (m : BitVec 3) (f : Nat → Rounded) : Prop :=
  ∃ u, out = .next u ∧ OnlyCore s u ∧ SlotDone s u ∧ Noted (.v d) s u ∧
    (rdV (me u).regs d).tag = t ∧ (rdV (me u).regs d).full = true ∧
    (∀ e, e < 2048 / tagWidth t.toNat → elem (rdV (me u).regs d).bits (tagWidth t.toNat) e =
      if enabled (srcM s m) (tagWidth t.toNat) e then BitVec.ofNat _ (f e).code
      else elem (rdV (me s).regs d).bits (tagWidth t.toNat) e) ∧
    (∀ b, (me u).flags.getLsbD b = ((me s).flags.getLsbD b ||
      (upto (2048 / tagWidth t.toNat)).any (fun e => enabled (srcM s m) (tagWidth t.toNat) e && (flagsOf (f e)).getLsbD b))) ∧
    (∀ n, n ≠ d → rdV (me u).regs n = rdV (me s).regs n) ∧
    me u = { me s with regs := { (me s).regs with v := (me u).regs.v }, flags := (me u).flags, latch := (me u).latch }

/-- Element e of a source register as bits of the width of a format (R118). -/
def elemOf (s : State) (t : Tag) (v : BitVec 6) (e : Nat) : BitVec (tagWidth t.toNat) := elem (srcV s v).bits (tagWidth t.toNat) e
/-- Sat of an exact integer as a w-bit element, and whether it clamped (R5, R119). -/
def clamped (w : Nat) (x : Int) : Rounded :=
  let hi : Int := 2 ^ (w - 1) - 1
  let lo : Int := -2 ^ (w - 1)
  ⟨(BitVec.ofInt w (max lo (min hi x))).toNat, false, false, false, decide (hi < x) || decide (x < lo), decide (hi < x) || decide (x < lo)⟩

/-- The next state puts the scalar d in flight (R33): it is empty, and x lands in it from a cycle on; a write to s0 is ignored. -/
def FlightS (s : State) (out : Out) (d : BitVec 6) (due : Nat) (x : W64) : Prop :=
  ∃ t, out = .next t ∧ OnlyCore s t ∧ SlotDone s t ∧ Noted (.s d) s t ∧
    (d ≠ 0 → fullS (me t).regs d = false ∧
      (me t).pend = (me s).pend ++ [⟨(me s).seq, .calc, [.s d], due, x.setWidth 4096, 0, []⟩]) ∧
    (d = 0 → (me t).pend = (me s).pend) ∧
    (∀ n, n ≠ d → rdS (me t).regs n = rdS (me s).regs n ∧ fullS (me t).regs n = fullS (me s).regs n) ∧
    me t = { me s with regs := { (me s).regs with s := (me t).regs.s }, pend := (me t).pend, seq := (me t).seq, latch := (me t).latch }

/-- The next state puts the v register d in flight (R33, R147, R176): it is empty under its new tag, x lands in it from a cycle
on, and flags are ORed into FLAGS at commit. -/
def FlightV (s : State) (out : Out) (d : BitVec 6) (t : Tag) (due : Nat) (x : VBits) (flags : BitVec 7) : Prop :=
  ∃ u, out = .next u ∧ OnlyCore s u ∧ SlotDone s u ∧ Noted (.v d) s u ∧
    rdV (me u).regs d = ⟨(rdV (me s).regs d).bits, t, false⟩ ∧
    (me u).pend = (me s).pend ++ [⟨(me s).seq, .calc, [.v d], due, x.setWidth 4096, 0, []⟩] ∧
    (me u).flags = (me s).flags ||| flags ∧
    (∀ n, n ≠ d → rdV (me u).regs n = rdV (me s).regs n) ∧
    me u = { me s with
      regs := { (me s).regs with v := (me u).regs.v }, pend := (me u).pend, seq := (me u).seq, flags := (me u).flags, latch := (me u).latch }

/-- The next state leaves the committing core as k; the slot has committed, and nothing else changes. -/
def Becomes (s : State) (out : Out) (k : Core) : Prop :=
  ∃ t, out = .next t ∧ OnlyCore s t ∧ SlotDone s t ∧ me t = k
/-- The next state holds x in the n bytes of L at a (R202); every other byte of L reads as before, and of the rest only the record of
the uncorrectable granules of L, which a store can heal (R329), may change. -/
def StoresL (s : State) (out : Out) (a n x : Nat) : Prop :=
  ∃ t, out = .next t ∧ OnlyCore s t ∧ SlotDone s t ∧ (me t).l.rdN a n = x % 256 ^ n ∧
    (∀ b, b < a ∨ a + n ≤ b → (me t).l.rd b = (me s).l.rd b) ∧ me t = { me s with l := (me t).l, badL := (me t).badL }

/-! Accesses to G. -/

/-- Memory after some more publications. -/
def Mem.after (m : Mem) (l : List Pub) : Mem := l.foldl (fun m p => m.wrPairs p.writes) m
/-- Translating an access changes nothing but the cached translations and the page requests of the VFs (R291, R293), with the entries of
those that are posted, which are written to host nodes, and their events (R294); and a read that meets an uncorrectable column counts it
(R332). -/
def WalksOnly (s t : State) : Prop :=
  ∃ more, t = { s with tlb := t.tlb, vfs := t.vfs, pubs := s.pubs ++ more, mem := s.mem.after more, events := t.events, units := t.units } ∧
    (∀ p ∈ more, ∀ w ∈ p.writes, locNode 0 0 ≤ w.1) ∧
    ∀ v, vf t v = { vf s v with
      reqs := (vf t v).reqs, nextTag := (vf t v).nextTag, nextNum := (vf t v).nextNum, prqprod := (vf t v).prqprod }
/-- Besides what the translation may change, only the committing core and the bundle's record have changed. -/
def OnlyCoreAndWalks (s t : State) : Prop := ∃ u, WalksOnly s u ∧ OnlyCore u t
/-- A lane of an access: its number, its virtual address and its length. -/
def IsLane (l : Lane) (x : Nat × Nat × Nat) : Prop := l.i = x.1 ∧ l.va = x.2.1 ∧ l.len = x.2.2
/-- A load lane that is translated and waits for no earlier atomic or row addition holds the bytes that the core's view gives (R209, R212,
R217): of this module and of others; what a host node holds may have changed with the entries of page requests. -/
def Loaded (s : State) (l : Lane) : Prop :=
  ∀ loc, l.st = .ready loc → loadWaits (me s) (me s).seq l = false → loc + l.len ≤ locNode 0 0 →
    l.data = some (loadBytes s s.iss.core (me s).seq l.va loc l.len)
/-- The next state puts an access of a kind in flight (R33, R199): its lanes stand at the end of the list of results in flight
under the next place in program order, and its registers wait for it. -/
def InFlight (s t : State) (kind : PKind) (dst : List RegId) (val : BitVec 4096) (lanes : List (Nat × Nat × Nat)) (ls : List Lane) : Prop :=
  (me t).pend = (me s).pend ++ [⟨(me s).seq, kind, dst, s.iss.t + 1, val, 0, ls⟩] ∧ (me t).seq = (me s).seq + 1 ∧
  List.Forall₂ IsLane ls lanes
/-- A core of which an access in flight with a scalar destination leaves all but that scalar, the list of results, the record of
failed lanes and the resume latch. -/
def FrameS (s t : State) (d : BitVec 6) : Prop :=
  (d ≠ 0 → fullS (me t).regs d = false) ∧
  (∀ n, n ≠ d → rdS (me t).regs n = rdS (me s).regs n ∧ fullS (me t).regs n = fullS (me s).regs n) ∧
  me t = { me s with
    regs := { (me s).regs with s := (me t).regs.s }, pend := (me t).pend, seq := (me t).seq, failed := (me t).failed, latch := (me t).latch }
/-- The same with a vector destination, which takes its tag (R126). -/
def FrameV (s t : State) (d : BitVec 6) (tag : Tag) : Prop :=
  rdV (me t).regs d = ⟨(rdV (me s).regs d).bits, tag, false⟩ ∧
  (∀ n, n ≠ d → rdV (me t).regs n = rdV (me s).regs n) ∧
  me t = { me s with
    regs := { (me s).regs with v := (me t).regs.v }, pend := (me t).pend, seq := (me t).seq, failed := (me t).failed, latch := (me t).latch }
/-- The same with the registers of a list, v registers and scalars, as destinations: each v register takes the tag, all but s0 are empty,
and every register that is not in the list stays as it was. -/
def FrameAll (s t : State) (tag : Tag) (l : List RegId) : Prop :=
  (∀ n, RegId.v n ∈ l → (rdV (me t).regs n).tag = tag ∧ (rdV (me t).regs n).full = false) ∧
  (∀ n, RegId.v n ∉ l → rdV (me t).regs n = rdV (me s).regs n) ∧
  (∀ n, RegId.s n ∈ l → n ≠ 0 → fullS (me t).regs n = false) ∧
  (∀ n, RegId.s n ∉ l → rdS (me t).regs n = rdS (me s).regs n ∧ fullS (me t).regs n = fullS (me s).regs n) ∧
  me t = { me s with
    regs := { (me s).regs with s := (me t).regs.s, v := (me t).regs.v }, pend := (me t).pend, seq := (me t).seq, latch := (me t).latch }
/-- The next state puts a tap read of a member of a region in flight, with its destinations emptied under a tag (R243). -/
def Taps (s : State) (out : Out) (kind : PKind) (dst : List RegId) (tag : Tag) (lanes : List (Nat × Nat × Nat)) : Prop :=
  ∃ t ls, out = .next t ∧ OnlyCoreAndWalks s t ∧ SlotDone s t ∧ FrameAll s t tag dst ∧
    InFlight s t kind dst 0 (lanes.map (fun x => (x.1, gAddr x.2.1, x.2.2))) ls
/-- A byte of G as the core's view gives it to a later load of the core, held stores apart (R209, R217). -/
def viewByte (t : State) (loc : Nat) : Byte :=
  match ownByte (me t) (me t).seq loc with | some x => x.2.2 | none => snapOf t t.iss.core loc
/-- A core of which a store to G leaves all but its own view, its writes that are not published, its held stores, its place in program
order and the record of failed lanes: memory, the registers and every other core stay as they are until a publication (R209, R219). -/
def FrameStore (s t : State) : Prop :=
  OnlyCoreAndWalks s t ∧ SlotDone s t ∧ (me t).seq = (me s).seq + 1 ∧ me t = { me s with
    own := (me t).own, unpub := (me t).unpub, posts := (me t).posts, seq := (me t).seq, failed := (me t).failed }

/-- The next state branches (R31, R79): the bundle's record names the unit at a as the next, the stall cycles of the branch are n, the
slot has committed, and nothing else changes. -/
def BranchesTo (s : State) (out : Out) (a : CAddr) (n : Nat) : Prop :=
  out = .next { s with iss := { s.iss with slot := s.iss.slot + 1, redirect := some a, redirected := true, bubble := n } }

/-- The next state stops the core once the bundle has ended: nothing but the slot number and what follows the bundle changes. -/
def StopsWith (s : State) (out : Out) (w : Wait) : Prop :=
  out = .next { s with iss := { s.iss with slot := s.iss.slot + 1, redirected := true, stop := s.iss.stop.andThen w } }

/-- Core c has entered its trap handler (R314 to R318): the cause, the slot, the leaf and the remaining executions stand in STATUS with
the number of active loops, EPC holds the unit, WSKIP is clear, the selector of REPLAY is 0x80, the handler's entry is the next unit,
and the frame stands at the bottom of L: the address word, the data word and 48 bytes of zeros. -/
def Entered (s t : State) (c : CoreId) (info : TrapInfo) (unit : CAddr) (leaf : BitVec 3) (repc : BitVec 8) : Prop :=
  (cr t c).h = true ∧ (cr t c).cause = info.cause ∧ (cr t c).slot = BitVec.ofNat 4 info.slot ∧ (cr t c).leaf = leaf ∧
  (cr t c).repc = repc ∧ (cr t c).lbase = BitVec.ofNat 3 (activeLoops (cr s c)) ∧ (cr t c).wskip = false ∧ (cr t c).epc = unit ∧
  (cr t c).sel = 0x80 ∧ some (cr t c).pc = (cr s c).trapEntry ∧ (cr t c).wait = .none ∧
  (cr t c).l.rdN 0 8 = (frameOf info).1 % 2 ^ 64 ∧ (cr t c).l.rdN 8 8 = (frameOf info).2 % 2 ^ 64 ∧ (cr t c).l.rdN 16 48 = 0 ∧
  (∀ a, 64 ≤ a → (cr t c).l.rd a = (cr s c).l.rd a)
/-- Taking a trap leaves the task's registers, streams, loops and flags, memory, the other cores and all of the module alone; the bundle
that was committing is gone. -/
def TrapFrame (s t : State) (c : CoreId) : Prop :=
  t = { s with cores := s.cores.set c (cr t c), iss := Issue.reset } ∧
  (cr t c).regs = (cr s c).regs ∧ (cr t c).q = (cr s c).q ∧ (cr t c).loops = (cr s c).loops ∧ (cr t c).flags = (cr s c).flags ∧
  (cr t c).srkey = (cr s c).srkey ∧ (cr t c).lscale = (cr s c).lscale ∧ (cr t c).skew = (cr s c).skew ∧
  (cr t c).pend = (cr s c).pend ∧ (cr t c).posts = (cr s c).posts ∧ (cr t c).own = (cr s c).own ∧ (cr t c).unpub = (cr s c).unpub ∧
  (cr t c).foot = (cr s c).foot ∧ (cr t c).tq = (cr s c).tq ∧ (cr t c).wlatch = (cr s c).wlatch

/-- The next state has a command of an opcode in flight with its block (R253 to R255): it stands last in the list of commands under the next
number, its ticket is PENDING, its ranges of L stand in the scoreboard, and the rest of the machine is as it was. -/
def Queues (s : State) (out : Out) (op : Nat) (j : BitVec 4) (b : BitVec 512) : Prop :=
  ∃ t k, out = .next t ∧ SlotDone s t ∧
    k.id = s.nextId ∧ k.core = s.iss.core ∧ k.op = op ∧ k.j = some j ∧ k.block = b ∧ k.done = false ∧ k.fail = none ∧
    t = { s with cores := s.cores.set s.iss.core (me t), iss := t.iss, cmds := s.cmds ++ [k], nextId := s.nextId + 1 } ∧
    me t = { (me s).setJ j ⟨.pending, s.nextId, 0, false, false, 0⟩ with
      ranges := (me s).ranges ++ (cmdRanges op b).map (fun r => (⟨s.nextId, r.1, r.2.1, r.2.1 + r.2.2 - 1⟩ : Range)) }
/-- The slot commits: the instruction answers a next state, the next slot follows, and the effect holds there. -/
def Commits (s : State) (i : Instr) (effect : State → Prop) : Prop :=
  ∃ t, exec i s = .next t ∧ t.iss.slot = s.iss.slot + 1 ∧ effect t
/-- The event answers a next state in which the effect holds. -/
def Acts (s : State) (i : Instr) (effect : State → Prop) : Prop := ∃ t, exec i s = .next t ∧ effect t
/-- The slot has committed and has changed nothing. -/
def CommitsOnly (s : State) (out : Out) : Prop := out = .next { s with iss := { s.iss with slot := s.iss.slot + 1 } }

/-- x is the truth of a comparison of R42 and R75, by its condition's number. -/
def Holds (cc : Nat) (a b : W64) (x : Bool) : Prop :=
  match cc with
  | 0 => (x = true ↔ a = b)
  | 1 => (x = true ↔ a ≠ b)
  | 2 => (x = true ↔ a.toInt < b.toInt)
  | 3 => (x = true ↔ b.toInt ≤ a.toInt)
  | 4 => (x = true ↔ a.toInt ≤ b.toInt)
  | 5 => (x = true ↔ b.toInt < a.toInt)
  | 6 => (x = true ↔ a.toNat < b.toNat)
  | 7 => (x = true ↔ b.toNat ≤ a.toNat)
  | 8 => (x = true ↔ a.toNat ≤ b.toNat)
  | 9 => (x = true ↔ b.toNat < a.toNat)
  | 10 => (x = true ↔ a &&& b ≠ 0)
  | _ => (x = true ↔ a &&& b = 0)

/-! The invariant of memory (R218). -/

/-- Memory after some publications, in their order, from the memory at power-on that lists nothing. -/
def replay : List Pub → Mem
  | l => l.foldl (fun m p => m.wrPairs p.writes) []
/-- Every byte of memory is what the publications, taken in their one order, leave there. -/
def Coherent (s : State) : Prop := s.mem = replay s.pubs

end Sys2Proof.Machine
end

