-- ==== Sys2Proof/Certificates/Slice0/Obligations.lean ====
section
/-! DEFINITION. The statements for the provers. Each docstring names the numbered rules of spec/ that its statement formalises; the
hypotheses speak of the state and the operands alone, and the words they use stand in Sys2Proof/Safety.lean. -/
open Sys2Proof Sys2Proof.Machine

/-- R71: every operation of the ALU group but the carry-less products and divisions completes when ready and writes its result to sd:
the sums, differences and products modulo 2^64, the halves of the products, the bitwise forms, the shifts and the rotation by b &
63 bits, the signed and unsigned minimum and maximum, the counts of leading zeros, trailing zeros (64 of a zero) and one bits, the
move, and the sign and zero extensions. Nothing else changes. -/
def Obligations.ScalarAluOperations : Prop :=
  ∀ s : State,
    (∀ o, Ready (.add o) s → WritesS s (exec (.add o) s) o.d (srcS s o.a + srcS s o.b)) ∧
    (∀ o, Ready (.sub o) s → WritesS s (exec (.sub o) s) o.d (srcS s o.a - srcS s o.b)) ∧
    (∀ o, Ready (.mul o) s → WritesS s (exec (.mul o) s) o.d (srcS s o.a * srcS s o.b)) ∧
    (∀ o, Ready (.mulh o) s → WritesS s (exec (.mulh o) s) o.d
      (BitVec.ofInt 64 ((srcS s o.a).toInt * (srcS s o.b).toInt / 18446744073709551616))) ∧
    (∀ o, Ready (.mulhu o) s → WritesS s (exec (.mulhu o) s) o.d
      (BitVec.ofNat 64 ((srcS s o.a).toNat * (srcS s o.b).toNat / 18446744073709551616))) ∧
    (∀ o, Ready (.and o) s → WritesS s (exec (.and o) s) o.d (srcS s o.a &&& srcS s o.b)) ∧
    (∀ o, Ready (.or o) s → WritesS s (exec (.or o) s) o.d (srcS s o.a ||| srcS s o.b)) ∧
    (∀ o, Ready (.xor o) s → WritesS s (exec (.xor o) s) o.d (srcS s o.a ^^^ srcS s o.b)) ∧
    (∀ o, Ready (.andn o) s → WritesS s (exec (.andn o) s) o.d (srcS s o.a &&& ~~~(srcS s o.b))) ∧
    (∀ o, Ready (.shl o) s → WritesS s (exec (.shl o) s) o.d (srcS s o.a <<< ((srcS s o.b).toNat % 64))) ∧
    (∀ o, Ready (.shr o) s → WritesS s (exec (.shr o) s) o.d (srcS s o.a >>> ((srcS s o.b).toNat % 64))) ∧
    (∀ o, Ready (.sar o) s → WritesS s (exec (.sar o) s) o.d ((srcS s o.a).sshiftRight ((srcS s o.b).toNat % 64))) ∧
    (∀ o, Ready (.rol o) s → WritesS s (exec (.rol o) s) o.d ((srcS s o.a).rotateLeft ((srcS s o.b).toNat % 64))) ∧
    (∀ o, Ready (.min o) s → ∃ x, WritesS s (exec (.min o) s) o.d x ∧ x.toInt = min (srcS s o.a).toInt (srcS s o.b).toInt) ∧
    (∀ o, Ready (.max o) s → ∃ x, WritesS s (exec (.max o) s) o.d x ∧ x.toInt = max (srcS s o.a).toInt (srcS s o.b).toInt) ∧
    (∀ o, Ready (.minu o) s → ∃ x, WritesS s (exec (.minu o) s) o.d x ∧ x.toNat = min (srcS s o.a).toNat (srcS s o.b).toNat) ∧
    (∀ o, Ready (.maxu o) s → ∃ x, WritesS s (exec (.maxu o) s) o.d x ∧ x.toNat = max (srcS s o.a).toNat (srcS s o.b).toNat) ∧
    (∀ o, Ready (.clz o) s → ∃ n, n ≤ 64 ∧ WritesS s (exec (.clz o) s) o.d (BitVec.ofNat 64 n) ∧
      (∀ i, i < n → (srcS s o.a).getLsbD (63 - i) = false) ∧ (n < 64 → (srcS s o.a).getLsbD (63 - n) = true)) ∧
    (∀ o, Ready (.ctz o) s → ∃ n, n ≤ 64 ∧ WritesS s (exec (.ctz o) s) o.d (BitVec.ofNat 64 n) ∧
      (∀ i, i < n → (srcS s o.a).getLsbD i = false) ∧ (n < 64 → (srcS s o.a).getLsbD n = true)) ∧
    (∀ o, Ready (.popc o) s → WritesS s (exec (.popc o) s) o.d
      (BitVec.ofNat 64 ((List.range 64).countP (fun i => (srcS s o.a).getLsbD i)))) ∧
    (∀ o, Ready (.mov o) s → WritesS s (exec (.mov o) s) o.d (srcS s o.a)) ∧
    (∀ o, Ready (.sextI8 o) s → WritesS s (exec (.sextI8 o) s) o.d (((srcS s o.a).setWidth 8).signExtend 64)) ∧
    (∀ o, Ready (.sextI16 o) s → WritesS s (exec (.sextI16 o) s) o.d (((srcS s o.a).setWidth 16).signExtend 64)) ∧
    (∀ o, Ready (.sextI32 o) s → WritesS s (exec (.sextI32 o) s) o.d (((srcS s o.a).setWidth 32).signExtend 64)) ∧
    (∀ o, Ready (.zextI8 o) s → WritesS s (exec (.zextI8 o) s) o.d (((srcS s o.a).setWidth 8).setWidth 64)) ∧
    (∀ o, Ready (.zextI16 o) s → WritesS s (exec (.zextI16 o) s) o.d (((srcS s o.a).setWidth 16).setWidth 64)) ∧
    (∀ o, Ready (.zextI32 o) s → WritesS s (exec (.zextI32 o) s) o.d (((srcS s o.a).setWidth 32).setWidth 64))

/-- R74: ADDI, LI, LIH, LEA and SEL complete when ready; each writes its value to sd, LIH replacing the quarter of the old sd that h
names, and nothing else changes. -/
def Obligations.ScalarImmediatesAndSelection : Prop :=
  ∀ s : State,
    (∀ o, Ready (.addi o) s → WritesS s (exec (.addi o) s) o.d (srcS s o.a + o.imm.signExtend 64)) ∧
    (∀ o, Ready (.li o) s → WritesS s (exec (.li o) s) o.d (o.imm.signExtend 64)) ∧
    (∀ o, Ready (.lih o) s → ∃ x, WritesS s (exec (.lih o) s) o.d x ∧ ∀ k, k < 64 →
      x.getLsbD k = if k / 16 = o.h.toNat then o.imm.getLsbD (k % 16) else (srcS s o.d).getLsbD k) ∧
    (∀ o, Ready (.lea o) s → WritesS s (exec (.lea o) s) o.d (srcS s o.a + (srcS s o.b <<< o.k.toNat))) ∧
    (∀ o, Ready (.sel o) s → WritesS s (exec (.sel o) s) o.d (if srcP s o.p then srcS s o.a else srcS s o.b))

/-- R73: CLMULL and CLMULH complete when ready and write the low and the high half of the carry-less product of a and b, bit by bit:
bit k of the product is the parity of the pairs of one bits whose numbers sum to k. Nothing else changes. -/
def Obligations.CarrylessProducts : Prop :=
  ∀ s : State,
    (∀ o, Ready (.clmull o) s → ∃ x, WritesS s (exec (.clmull o) s) o.d x ∧ ∀ k, k < 64 →
      x.getLsbD k = ((List.range 64).countP (fun i => decide (i ≤ k) && (srcS s o.a).getLsbD (k - i) && (srcS s o.b).getLsbD i) % 2 == 1)) ∧
    (∀ o, Ready (.clmulh o) s → ∃ x, WritesS s (exec (.clmulh o) s) o.d x ∧ ∀ k, k < 64 →
      x.getLsbD k = ((List.range 64).countP (fun i => (srcS s o.a).getLsbD (k + 64 - i) && (srcS s o.b).getLsbD i) % 2 == 1))

/-- R72: DIV, DIVU, REM and REMU never trap for their operands: when ready each puts its quotient or remainder in flight, to land 24
cycles after the bundle's issue; a division by zero gives all ones and the dividend. -/
def Obligations.DivisionsLandAfter24Cycles : Prop :=
  ∀ s : State,
    (∀ o, Ready (.div o) s → ∃ q, FlightS s (exec (.div o) s) o.d (s.iss.t + 24) q ∧
      q.toInt = if srcS s o.b = 0 then -1
        else if (srcS s o.a).toInt = -9223372036854775808 ∧ (srcS s o.b).toInt = -1 then -9223372036854775808
        else (srcS s o.a).toInt.tdiv (srcS s o.b).toInt) ∧
    (∀ o, Ready (.rem o) s → ∃ r, FlightS s (exec (.rem o) s) o.d (s.iss.t + 24) r ∧
      r.toInt = if srcS s o.b = 0 then (srcS s o.a).toInt
        else if (srcS s o.a).toInt = -9223372036854775808 ∧ (srcS s o.b).toInt = -1 then 0
        else (srcS s o.a).toInt - (srcS s o.b).toInt * (srcS s o.a).toInt.tdiv (srcS s o.b).toInt) ∧
    (∀ o, Ready (.divu o) s → ∃ q, FlightS s (exec (.divu o) s) o.d (s.iss.t + 24) q ∧
      q.toNat = if srcS s o.b = 0 then 18446744073709551615 else (srcS s o.a).toNat / (srcS s o.b).toNat) ∧
    (∀ o, Ready (.remu o) s → ∃ r, FlightS s (exec (.remu o) s) o.d (s.iss.t + 24) r ∧
      r.toNat = if srcS s o.b = 0 then (srcS s o.a).toNat
        else (srcS s o.a).toNat - (srcS s o.b).toNat * ((srcS s o.a).toNat / (srcS s o.b).toNat))

/-- R75, R76: CMP and CMPI set pd to the truth of the comparison under each of the twelve conditions, and PAND, POR, PXOR and PANDN to
the logic of their tested predicates; all complete when ready, write only pd, and p0 stays true. -/
def Obligations.ComparesAndPredicateLogic : Prop :=
  ∀ s : State,
    (∀ o, Ready (.cmp o) s → o.cc.toNat < 12 → ∃ x, WritesP s (exec (.cmp o) s) o.p x ∧
      Holds o.cc.toNat (srcS s o.a) (srcS s o.b) x) ∧
    (∀ o, Ready (.cmpi o) s → o.cc.toNat < 12 → ∃ x, WritesP s (exec (.cmpi o) s) o.p x ∧
      Holds o.cc.toNat (srcS s o.a) (o.imm.signExtend 64) x) ∧
    (∀ o, Ready (.pand o) s → WritesP s (exec (.pand o) s) o.d ((srcP s o.a ^^ o.na) && (srcP s o.b ^^ o.nb))) ∧
    (∀ o, Ready (.por o) s → WritesP s (exec (.por o) s) o.d ((srcP s o.a ^^ o.na) || (srcP s o.b ^^ o.nb))) ∧
    (∀ o, Ready (.pxor o) s → WritesP s (exec (.pxor o) s) o.d ((srcP s o.a ^^ o.na) ^^ (srcP s o.b ^^ o.nb))) ∧
    (∀ o, Ready (.pandn o) s → WritesP s (exec (.pandn o) s) o.d ((srcP s o.a ^^ o.na) && !(srcP s o.b ^^ o.nb)))

/-- R77, R78, R79: PREP writes b := its label or the low 24 bits of sa; GETC writes the value that the control register had at issue;
SETC writes the fields marked RW of the register that it names, with the bounds and conditions of each, and nothing else. -/
def Obligations.TargetsAndControlRegisters : Prop :=
  ∀ s : State,
    (∀ o, Ready (.prepLabel o) s → WritesB s (exec (.prepLabel o) s) o.b (s.iss.unit + o.off.signExtend 24)) ∧
    (∀ o, Ready (.prepReg o) s → WritesB s (exec (.prepReg o) s) o.b ((srcS s o.a).setWidth 24)) ∧
    (∀ o, Ready (.getc o) s → WritesS s (exec (.getc o) s) o.d (srcC s o.c)) ∧
    (∀ o x, Ready (.setc o) s → x = srcS s o.a → ∃ t, exec (.setc o) s = .next t ∧ OnlyCore s t ∧ SlotDone s t ∧
      (∀ n : Fin 4, (me t).loops[n] = if o.c.toNat = 16 + n.val ∧ ((me s).loops[n]).active = true
        then { (me s).loops[n] with count := x.setWidth 32 } else (me s).loops[n]) ∧
      (let h := (me s).h = true
       let lo := (x.extractLsb' 8 8).toInt
       let hi := (x.extractLsb' 16 8).toInt
       let e := (x.extractLsb' 0 8).toInt
       me t = { me s with
        srkey := if o.c = 5 then x else (me s).srkey
        flags := if o.c = 7 then x.setWidth 7 else (me s).flags
        sel := if o.c = 8 then x.setWidth 8 else (me s).sel
        skew := if o.c = 4 ∧ x.setWidth 4 ≠ 0#4 ∧ (me s).lock = false then x.setWidth 4 else (me s).skew
        lscale := if o.c = 6 ∧ lo ≤ hi then x.extractLsb' 8 56 ++ BitVec.ofInt 8 (max lo (min hi e)) else (me s).lscale
        epc := if o.c = 1 ∧ h then x.setWidth 24 else (me s).epc
        wskip := if o.c = 0 ∧ h then x.getLsbD 27 else (me s).wskip
        repc := if o.c = 0 ∧ h then x.extractLsb' 12 8 else (me s).repc
        leaf := if o.c = 0 ∧ h ∧ (x.extractLsb' 20 3).toNat < 5 then x.extractLsb' 20 3 else (me s).leaf
        slot := if o.c = 0 ∧ h ∧ ((x.extractLsb' 8 4).toNat < 10 ∨ x.extractLsb' 8 4 = 15#4) then x.extractLsb' 8 4 else (me s).slot
        loops := (me t).loops, latch := (me t).latch, keptFurther := (me t).keptFurther, keptNext := (me t).keptNext }))

/-- R80, R81, R83, R88: TREE goes to the target of the leaf that its tests selected at issue, or falls through on b0; CALL writes the
return address to its link register and branches; RET branches; a branch through a register written less than three bundles ago
stalls up to two cycles (R79). -/
def Obligations.BranchesCallsAndReturns : Prop :=
  ∀ s : State,
    (∀ o, Ready (.tree o) s → treeTarget o s.iss.leaf.toNat = 0 →
      exec (.tree o) s = .next { s with iss := { s.iss with slot := s.iss.slot + 1 } }) ∧
    (∀ o, Ready (.tree o) s → treeTarget o s.iss.leaf.toNat ≠ 0 →
      BranchesTo s (exec (.tree o) s) (s.iss.regs.b[(treeTarget o s.iss.leaf.toNat).toFin])
        (min 2 (3 - (s.iss.regs.age[(treeTarget o s.iss.leaf.toNat).toFin]).toNat))) ∧
    (∀ o, Ready (.ret o) s → BranchesTo s (exec (.ret o) s) (srcB s o.b) (bubbleOf s.iss.regs o.b)) ∧
    (∀ o, Ready (.call o) s → ∃ t, exec (.call o) s = .next t ∧ OnlyCore s t ∧
      t.iss = { s.iss with
        slot := s.iss.slot + 1, wrote := t.iss.wrote, redirect := some (srcB s o.t), redirected := true, bubble := bubbleOf s.iss.regs o.t } ∧
      (∀ f, rdB (me t).regs f o.l = if o.l = 0 then f else s.iss.unit + BitVec.ofNat 24 s.iss.len) ∧
      (∀ n, n ≠ o.l → ∀ f, rdB (me t).regs f n = rdB (me s).regs f n) ∧
      (me t).regs.s = (me s).regs.s ∧ (me t).regs.p = (me s).regs.p ∧ (me t).loops = (me s).loops ∧ (me t).l = (me s).l)

/-- R86: LOOP and LOOPR with a count open a new innermost level and go on with the next unit; with the count 0 they skip the body;
beyond four levels they trap ILLEGAL_SCHEDULE, and with a body that leaves the segment ILLEGAL_CODE. -/
def Obligations.LoopsOpenSkipAndTrap : Prop :=
  ∀ (s : State) (i : Instr) (n : BitVec 12) (count : BitVec 32), Ready i s →
    ((∃ o, i = .loop o ∧ o.n = n ∧ o.c = count) ∨ (∃ o, i = .loopr o ∧ o.n = n ∧ (srcS s o.a).setWidth 32 = count)) →
    (∀ last, nthUnit (me s).code n.toNat (fallOf s).toNat = some last →
      (count = 0 → exec i s = .next { s with iss := { s.iss with
        slot := s.iss.slot + 1, redirected := true, redirect := some (BitVec.ofNat 24 (last + unitLen (me s).code last)) } }) ∧
      (count ≠ 0 → activeLoops (me s) < 4 → ∃ t, exec i s = .next t ∧ OnlyCore s t ∧
        t.iss = { s.iss with slot := s.iss.slot + 1, redirected := true, redirect := some (s.iss.unit + BitVec.ofNat 24 s.iss.len) } ∧
        me t = { me s with loops := (me s).loops.setIfInBounds (activeLoops (me s)) ⟨count, true, s.iss.unit⟩ }) ∧
      (count ≠ 0 → 4 ≤ activeLoops (me s) → exec i s = .next (takeTrap (trapPlain s cIllegalSchedule) s))) ∧
    (nthUnit (me s).code n.toNat (fallOf s).toNat = none → exec i s = .next (takeTrap (trapPlain s cIllegalCode) s))

/-- R84, R85: HALT and a SUSPEND in a SAFE bundle commit in the B slot, and the core ends or saves its task once the bundle has ended;
a SUSPEND elsewhere traps ILLEGAL_SCHEDULE. -/
def Obligations.HaltsAndSuspends : Prop :=
  ∀ s : State,
    (Ready .halt s → StopsWith s (exec .halt s) .halt) ∧
    (∀ o, Ready (.suspend o) s → bundleSafe s.iss.bundle = true → (me s).h = false →
      StopsWith s (exec (.suspend o) s) (.save s.iss.unit (srcB s o.b) false false)) ∧
    (∀ o, Ready (.suspend o) s → bundleSafe s.iss.bundle = false →
      exec (.suspend o) s = .next (takeTrap (trapPlain s cIllegalSchedule) s))

/-- R314 to R318, R323: TRAP enters the handler with the cause SYSCALL, SLOT 15, LEAF 0, no remaining executions, its code in the
frame's data word and EPC at its unit; registers, streams, loops, flags and memory stay. -/
def Obligations.TrapEntersTheHandlerWithItsCode : Prop :=
  ∀ (s : State) (o : TrapF), Ready (.trap o) s → (me s).h = false → (me s).trapEntry.isSome = true → trapReady (me s) = true →
    ∃ t, exec (.trap o) s = .next t ∧ Entered s t s.iss.core ⟨cSyscall, 15, none, o.code, none, none⟩ s.iss.unit 0 0 ∧
      TrapFrame s t s.iss.core ∧ (cr t s.iss.core).l.rdN 8 8 = o.code.toNat ∧ (cr t s.iss.core).l.rdN 0 8 = 0

/-- R321: RTE outside a handler traps ILLEGAL_SCHEDULE; in a handler whose loops are those of the entry, with nothing held, it leaves
handler mode and the unit at EPC is the next, as a resumed one. -/
def Obligations.RteReturnsToEpc : Prop :=
  ∀ s : State, Ready .rte s →
    ((me s).h = false → exec .rte s = .next (takeTrap (trapPlain s cIllegalSchedule) s)) ∧
    ((me s).h = true → activeLoops (me s) = (me s).lbase.toNat → (me s).failed = [] →
      ∃ t, exec .rte s = .next t ∧ (me t).h = false ∧ (me t).resume = true ∧ (me t).kept = .none ∧
        t.iss.act = true ∧ t.iss.slot = s.iss.slot + 1 ∧ t.iss.redirect = some (me s).epc ∧ t.iss.redirected = true ∧
        t.mem = s.mem ∧ t.pubs = s.pubs ∧
        ((me s).pend = [] → (me s).posts = [] → OnlyCore s t ∧ (me t).l = (me s).l ∧
          (me t).regs = { (me s).regs with age := (me t).regs.age } ∧ (me t).flags = (me s).flags ∧ (me t).loops = (me s).loops))

/-- R197, R202, R203, R205: LDL loads the 1, 2, 4 or 8 bytes of L at base + offset times the size, extended by their signedness, and
VLDL 256 bytes with a tag; STL stores the low bytes of its value, and VSTL the lanes that its mask enables, each to its word,
every other byte of L staying as it was. -/
def Obligations.LocalLoadsAndStores : Prop :=
  ∀ (s : State) (a : Nat),
    (∀ o, Ready (.ldl o) s → eaddr s o.base o.off (szBytes o.z) = a → a % szBytes o.z = 0 → a + szBytes o.z ≤ 8388608 →
      rangeHit (me s) false a (szBytes o.z) = false →
      WritesS s (exec (.ldl o) s) o.d (extend (szBytes o.z) o.u ((me s).l.rdN a (szBytes o.z)))) ∧
    (∀ o, Ready (.stl o) s → eaddr s o.base o.off (szBytes o.z) = a → a % szBytes o.z = 0 → a + szBytes o.z ≤ 8388608 →
      rangeHit (me s) true a (szBytes o.z) = false →
      StoresL s (exec (.stl o) s) a (szBytes o.z) (srcS s o.v).toNat) ∧
    (∀ o, Ready (.vldl o) s → eaddr s o.base o.off 256 = a → a % 32 = 0 → a + 256 ≤ 8388608 →
      rangeHit (me s) false a 256 = false →
      WritesV s (exec (.vldl o) s) o.d (BitVec.ofNat 2048 ((me s).l.rdN a 256)) o.t) ∧
    (∀ o, Ready (.vstl o) s → eaddr s o.base o.off 256 = a → a % 32 = 0 → a + 256 ≤ 8388608 →
      rangeHit (me s) true a 256 = false →
      ∃ t, exec (.vstl o) s = .next t ∧ OnlyCore s t ∧ SlotDone s t ∧ me t = { me s with l := (me t).l, badL := (me t).badL } ∧
        (∀ i, i < 64 → (srcM s o.m).getLsbD i = true → (me t).l.rdN (a + 4 * i) 4 = (laneOf (srcV s o.v).bits i).toNat) ∧
        (∀ b, (∀ i, i < 64 → (srcM s o.m).getLsbD i = true → b < a + 4 * i ∨ a + 4 * i + 4 ≤ b) →
          (me t).l.rd b = (me s).l.rd b))

/-- R197, R202, R206, R314: a scalar access of L or of G whose address is no multiple of its size traps ALIGN at its slot; one that is
aligned and does not lie in L, or lies at or above 2^52 in G, traps ACCESS; in each case the address is the trap's data. -/
def Obligations.AccessesTrapAlignAndAccess : Prop :=
  (∀ s : State,
    (∀ o, Ready (.ldl o) s → ¬ eaddr s o.base o.off (szBytes o.z) % (szBytes o.z : Nat) = 0 →
      exec (.ldl o) s = .next (takeTrap (lFault s cAlign (eaddr s o.base o.off (szBytes o.z))) s)) ∧
    (∀ o, Ready (.stl o) s → ¬ eaddr s o.base o.off (szBytes o.z) % (szBytes o.z : Nat) = 0 →
      exec (.stl o) s = .next (takeTrap (lFault s cAlign (eaddr s o.base o.off (szBytes o.z))) s)) ∧
    (∀ o, Ready (.ldl o) s → eaddr s o.base o.off (szBytes o.z) % (szBytes o.z : Nat) = 0 →
      (eaddr s o.base o.off (szBytes o.z) < 0 ∨ 8388608 < eaddr s o.base o.off (szBytes o.z) + (szBytes o.z : Nat)) →
      exec (.ldl o) s = .next (takeTrap (lFault s cAccess (eaddr s o.base o.off (szBytes o.z))) s)) ∧
    (∀ o, Ready (.stl o) s → eaddr s o.base o.off (szBytes o.z) % (szBytes o.z : Nat) = 0 →
      (eaddr s o.base o.off (szBytes o.z) < 0 ∨ 8388608 < eaddr s o.base o.off (szBytes o.z) + (szBytes o.z : Nat)) →
      exec (.stl o) s = .next (takeTrap (lFault s cAccess (eaddr s o.base o.off (szBytes o.z))) s))) ∧
  (∀ s : State,
    (∀ o, Ready (.ldg o) s → ¬ eaddr s o.base o.off (szBytes o.z) % (szBytes o.z : Nat) = 0 →
      exec (.ldg o) s = .next (takeTrap (gFault s cAlign (gAddr (eaddr s o.base o.off (szBytes o.z))) none) s)) ∧
    (∀ o, Ready (.stg o) s → ¬ eaddr s o.base o.off (szBytes o.z) % (szBytes o.z : Nat) = 0 →
      exec (.stg o) s = .next (takeTrap (gFault s cAlign (gAddr (eaddr s o.base o.off (szBytes o.z))) none) s)) ∧
    (∀ o, Ready (.ldg o) s → eaddr s o.base o.off (szBytes o.z) % (szBytes o.z : Nat) = 0 →
      4503599627370496 ≤ gAddr (eaddr s o.base o.off (szBytes o.z)) →
      exec (.ldg o) s = .next (takeTrap (gFault s cAccess (gAddr (eaddr s o.base o.off (szBytes o.z))) none) s)) ∧
    (∀ o, Ready (.stg o) s → eaddr s o.base o.off (szBytes o.z) % (szBytes o.z : Nat) = 0 →
      4503599627370496 ≤ gAddr (eaddr s o.base o.off (szBytes o.z)) →
      exec (.stg o) s = .next (takeTrap (gFault s cAccess (gAddr (eaddr s o.base o.off (szBytes o.z))) none) s)))

/-- R97 to R101: BIND at a valid descriptor binds q with its position 0, for writing if WR is set; UNBIND clears q; QSKIP advances q
by the low 48 bits of its operand, modulo the pattern where it wraps; QSTAT writes 0 for an unbound q, else the elements left,
with the bits of a bound q, its direction and its wrapping. -/
def Obligations.StreamsBindSkipAndCount : Prop :=
  ∀ s : State,
    (∀ o, Ready (.bind o) s → (srcS s o.a).toNat % 32 = 0 → (srcS s o.a).toNat + 32 ≤ 8388608 →
      (descOf (BitVec.ofNat 256 (s.iss.l.rdN (srcS s o.a).toNat 32))).valid = true →
      rangeHit (me s) false (srcS s o.a).toNat 32 = false →
      Becomes s (exec (.bind o) s) ((me s).setQ o.q ⟨true, o.wr, BitVec.ofNat 256 (s.iss.l.rdN (srcS s o.a).toNat 32), 0, false⟩)) ∧
    (∀ o, Ready (.unbind o) s → Becomes s (exec (.unbind o) s) ((me s).setQ o.q ⟨false, false, 0, 0, false⟩)) ∧
    (∀ o n, Ready (.qskip o) s → n = (srcS s o.a).toNat % 281474976710656 → (qOf s o.q).bound = true →
      ((descOf (qOf s o.q).desc).wrap = true ∨ (qOf s o.q).pos.toNat + n ≤ (descOf (qOf s o.q).desc).total) →
      Becomes s (exec (.qskip o) s) ((me s).setQ o.q { qOf s o.q with
        pos := BitVec.ofNat 49 (if (descOf (qOf s o.q).desc).wrap then ((qOf s o.q).pos.toNat + n) % (descOf (qOf s o.q).desc).total
          else (qOf s o.q).pos.toNat + n) })) ∧
    (∀ o, Ready (.qskip o) s → (qOf s o.q).bound = false →
      exec (.qskip o) s = .next (takeTrap (trapPlain s cStreamFault) s)) ∧
    (∀ o, Ready (.qstat o) s → ∃ x, WritesS s (exec (.qstat o) s) o.d x ∧
      ((qOf s o.q).bound = false → x = 0) ∧
      ((qOf s o.q).bound = true → (qOf s o.q).pos.toNat ≤ (descOf (qOf s o.q).desc).total →
        (descOf (qOf s o.q).desc).total < 281474976710656 + (qOf s o.q).pos.toNat →
        x.toNat % 281474976710656 = (descOf (qOf s o.q).desc).total - (qOf s o.q).pos.toNat ∧ x.getLsbD 48 = true ∧
        x.getLsbD 49 = (qOf s o.q).wr ∧ x.getLsbD 50 = (descOf (qOf s o.q).desc).wrap))

/-- R101, R102, R203: through a bound stream of 256-byte elements, a vector load takes the next element under its tag, and a vector
store puts the enabled lanes of a register of that tag into the next element; each advances the stream by one element; beyond the
end of a pattern that does not wrap, both trap STREAM_FAULT. -/
def Obligations.StreamsCarryVectors : Prop :=
  ∀ (s : State) (q : BitVec 4) (d : Desc) (a : Nat), (qOf s q).bound = true → d = descOf (qOf s q).desc → d.len = 256 →
    a = (d.addr ((qOf s q).pos.toNat % d.total)).toNat →
    (∀ o, o.q = q → Ready (.vldlStream o) s → (qOf s q).wr = false → d.tag = o.t.toNat →
      (d.wrap = true ∨ (qOf s q).pos.toNat + 1 ≤ d.total) → rangeHit (me s) false a 256 = false →
      ∃ t, exec (.vldlStream o) s = .next t ∧ OnlyCore s t ∧ SlotDone s t ∧ Noted (.v o.d) s t ∧
        rdV (me t).regs o.d = ⟨BitVec.ofNat 2048 ((me s).l.rdN a 256), o.t, true⟩ ∧
        (∀ n, n ≠ o.d → rdV (me t).regs n = rdV (me s).regs n) ∧
        me t = { (me s).setQ q (advance 1 (qOf s q)) with
          regs := { (me s).regs with v := (me t).regs.v }, latch := (me t).latch }) ∧
    (∀ o, o.q = q → Ready (.vstlStream o) s → (qOf s q).wr = true → d.tag = (srcV s o.v).tag.toNat →
      (d.wrap = true ∨ (qOf s q).pos.toNat + 1 ≤ d.total) → rangeHit (me s) true a 256 = false →
      ∃ t, exec (.vstlStream o) s = .next t ∧ OnlyCore s t ∧ SlotDone s t ∧
        me t = { (me s).setQ q (advance 1 (qOf s q)) with l := (me t).l, badL := (me t).badL } ∧
        (∀ i, i < 64 → (srcM s o.m).getLsbD i = true → (me t).l.rdN (a + 4 * i) 4 = (laneOf (srcV s o.v).bits i).toNat) ∧
        (∀ b, (∀ i, i < 64 → (srcM s o.m).getLsbD i = true → b < a + 4 * i ∨ a + 4 * i + 4 ≤ b) →
          (me t).l.rd b = (me s).l.rd b)) ∧
    (∀ o, o.q = q → Ready (.vldlStream o) s → (qOf s q).wr = false → d.tag = o.t.toNat → d.wrap = false →
      d.total < (qOf s q).pos.toNat + 1 → exec (.vldlStream o) s = .next (takeTrap (trapPlain s cStreamFault) s)) ∧
    (∀ o, o.q = q → Ready (.vstlStream o) s → (qOf s q).wr = true → d.tag = (srcV s o.v).tag.toNat → d.wrap = false →
      d.total < (qOf s q).pos.toNat + 1 → exec (.vstlStream o) s = .next (takeTrap (trapPlain s cStreamFault) s))

/-- R33, R199, R206, R217: an LDG whose lane has no fault is put in flight: its register is empty, its lane stands among the results
in flight, and where the page translates and the column is correct the lane holds the bytes of the core's view, unless an earlier
atomic or row addition of the core to them is still to be performed; memory, the other registers and the rest of the machine stay
as they were. -/
def Obligations.ScalarLoadsOfGlobalMemory : Prop :=
  ∀ (s : State) (o : LdF11), Ready (.ldg o) s →
    lanesFault s wLoad (szBytes o.z) (szBytes o.z) false [(0, eaddr s o.base o.off (szBytes o.z))] = none →
    ∃ t ls, exec (.ldg o) s = .next t ∧ OnlyCoreAndWalks s t ∧ SlotDone s t ∧ Noted (.s o.d) s t ∧ FrameS s t o.d ∧
      InFlight s t (.load true (!o.u) 0) [.s o.d] 0 [(0, gAddr (eaddr s o.base o.off (szBytes o.z)), szBytes o.z)] ls ∧
      (∀ l ∈ ls, Loaded s l) ∧
      (∀ loc, xlMe s (gAddr (eaddr s o.base o.off (szBytes o.z))) false = .ok loc → badColumn s loc (szBytes o.z) = none →
        ∀ l ∈ ls, l.st = .ready loc)

/-- R33, R126, R199, R207, R208: a VLDG or a gather with an enabled lane and no fault is put in flight with one lane of four bytes for
each bit of its mask, in ascending order; its register is empty and takes its tag; with no lane enabled the register keeps its
bits under the tag and is full. Nothing else but translations changes. -/
def Obligations.VectorLoadsOfGlobalMemory : Prop :=
  ∀ s : State,
    (∀ o, Ready (.vldg o) s → lanesOn (srcM s o.m) ≠ [] →
      vecFault s wLoad (eaddr s o.base o.off 256) (lanesOn (srcM s o.m)) = none →
      ∃ t ls, exec (.vldg o) s = .next t ∧ OnlyCoreAndWalks s t ∧ SlotDone s t ∧ Noted (.v o.d) s t ∧ FrameV s t o.d o.t ∧
        InFlight s t (.load false false o.t) [.v o.d] ((rdV (me s).regs o.d).bits.setWidth 4096)
          ((lanesOn (srcM s o.m)).map (fun i => (i, gAddr (eaddr s o.base o.off 256 + 4 * i), 4))) ls ∧
        (∀ l ∈ ls, Loaded s l)) ∧
    (∀ o, Ready (.vldg o) s → lanesOn (srcM s o.m) = [] → WritesV s (exec (.vldg o) s) o.d (rdV (me s).regs o.d).bits o.t) ∧
    (∀ o, Ready (.vgath o) s → lanesOn (srcM s o.m) ≠ [] →
      gathFault s wLoad o.base o.i (lanesOn (srcM s o.m)) = none →
      ∃ t ls, exec (.vgath o) s = .next t ∧ OnlyCoreAndWalks s t ∧ SlotDone s t ∧ Noted (.v o.d) s t ∧ FrameV s t o.d o.t ∧
        InFlight s t (.load false false o.t) [.v o.d] ((rdV (me s).regs o.d).bits.setWidth 4096)
          ((lanesOn (srcM s o.m)).map (fun i => (i, gAddr ((srcS s o.base).toNat + (laneOf (srcV s o.i).bits i).toInt * 4), 4))) ls ∧
        (∀ l ∈ ls, Loaded s l)) ∧
    (∀ o, Ready (.vgath o) s → lanesOn (srcM s o.m) = [] → (srcV s o.i).tag = 3 →
      WritesV s (exec (.vgath o) s) o.d (rdV (me s).regs o.d).bits o.t)

/-- R199, R206 to R209, R219: a store to G whose lanes have no fault completes at once: it changes only the core's own view, its
unpublished writes, its held lanes, and cached translations and page requests; memory and every register stay as they were. The
translated STG gives its bytes to the core's view, and every other byte of the view stays. -/
def Obligations.StoresToGlobalMemory : Prop :=
  ∀ s : State,
    (∀ o, Ready (.stg o) s → lanesFault s wStore (szBytes o.z) (szBytes o.z) false [(0, eaddr s o.base o.off (szBytes o.z))] = none →
      ∃ t, exec (.stg o) s = .next t ∧ FrameStore s t ∧
        ∀ loc, xlMe s (gAddr (eaddr s o.base o.off (szBytes o.z))) true = .ok loc → badColumn s loc (szBytes o.z) = none →
          (∀ w ∈ (me s).own, w.seq < (me s).seq) → (me t).posts = (me s).posts ∧
          (∀ i, i < szBytes o.z → viewByte t (loc + i) = BitVec.ofNat 8 ((srcS s o.v).toNat / 256 ^ i)) ∧
          (∀ a, a < loc ∨ loc + szBytes o.z ≤ a → viewByte t a = viewByte s a)) ∧
    (∀ o, Ready (.vstg o) s → vecFault s wStore (eaddr s o.base o.off 256) (lanesOn (srcM s o.m)) = none →
      ∃ t, exec (.vstg o) s = .next t ∧ FrameStore s t) ∧
    (∀ o, Ready (.vscat o) s → gathFault s wStore o.base o.i (lanesOn (srcM s o.m)) = none →
      ∃ t, exec (.vscat o) s = .next t ∧ FrameStore s t)

/-- R33, R211, R212: AMO and AMO_CAS with no fault are put in flight with their function, width and operands, and their scalar is
empty; the word itself is read and written where the result lands, so the instruction leaves memory as it is. -/
def Obligations.AtomicsGoInFlight : Prop :=
  ∀ s : State,
    (∀ o, Ready (.amo o) s → lanesFault s wAmo (amoBytes o.wide) (amoBytes o.wide) false [(0, ((srcS s o.base).toNat : Int))] = none →
      ∃ t ls, exec (.amo o) s = .next t ∧ OnlyCoreAndWalks s t ∧ SlotDone s t ∧ Noted (.s o.d) s t ∧ FrameS s t o.d ∧
        InFlight s t (.amo o.fn o.wide (srcS s o.o) 0) [.s o.d] 0 [(0, gAddr (srcS s o.base).toNat, amoBytes o.wide)] ls) ∧
    (∀ o, Ready (.amoCas o) s →
      lanesFault s wAmo (amoBytes o.wide) (amoBytes o.wide) false [(0, ((srcS s o.base).toNat : Int))] = none →
      ∃ t ls, exec (.amoCas o) s = .next t ∧ OnlyCoreAndWalks s t ∧ SlotDone s t ∧ Noted (.s o.d) s t ∧ FrameS s t o.d ∧
        InFlight s t (.amo 9 o.wide (srcS s o.o) (srcS s o.d)) [.s o.d] 0 [(0, gAddr (srcS s o.base).toNat, amoBytes o.wide)] ls)

/-- R213, R249, R250: RADD and ROWADD post their operation, with its data and lanes, at the end of the core's posted operations, and
ROWLD is put in flight with one lane for each 32-byte column; each leaves memory and the rest of the machine as they were. -/
def Obligations.ReductionsAndRows : Prop :=
  ∀ s : State,
    (∀ o, Ready (.radd o) s → lanesFault s wRadd (raddBytes o.fmt) (raddBytes o.fmt) false [(0, ((srcS s o.base).toNat : Int))] = none →
      ∃ t ls, exec (.radd o) s = .next t ∧ OnlyCoreAndWalks s t ∧ SlotDone s t ∧
        me t = { me s with posts := (me s).posts ++ [⟨(me s).seq, .radd o.fmt o.op (srcS s o.v), ls⟩], seq := (me s).seq + 1 } ∧
        List.Forall₂ IsLane ls [(0, gAddr (srcS s o.base).toNat, raddBytes o.fmt)]) ∧
    (∀ o, Ready (.rowadd o) s → rowTagFault s o.v o.n = false → rowFault s wRowadd o.base o.n = none →
      ∃ t ls, exec (.rowadd o) s = .next t ∧ OnlyCoreAndWalks s t ∧ SlotDone s t ∧
        me t = { me s with posts := (me s).posts ++ [⟨(me s).seq, .rowadd (rowBytes o.n) (pairBits s o.v), ls⟩], seq := (me s).seq + 1 } ∧
        List.Forall₂ IsLane ls ((upto (o.n.toNat + 1)).map (fun i => (i, gAddr ((srcS s o.base).toNat + 32 * i), 32)))) ∧
    (∀ o, Ready (.rowadd o) s → rowTagFault s o.v o.n = true → exec (.rowadd o) s = .next (takeTrap (trapPlain s cTagMismatch) s)) ∧
    (∀ o, Ready (.rowld o) s → rowFault s wRowld o.base o.n = none →
      ∃ t ls, exec (.rowld o) s = .next t ∧ OnlyCoreAndWalks s t ∧ SlotDone s t ∧
        InFlight s t (.rowld (rowBytes o.n)) (rowDst o.d o.n) 0
          ((upto (o.n.toNat + 1)).map (fun i => (i, gAddr ((srcS s o.base).toNat + 32 * i), 32))) ls ∧
        FrameAll s t 5 (rowDst o.d o.n))

/-- R236, R238, R239, R355: a PSMP whose region is found, whose registers are full and that has no fault posts its sample with one
lane for each member or column that it touches, at the end of the core's posted operations, and changes nothing else but
translations; the region itself changes where the sample is performed. R239 to R245: a tap read whose region is found and that has
no fault is put in flight for its first member, with its destinations empty, a v register or a pair under its tag, and the age of
an RTAP in a scalar; it changes no region and no memory. -/
def Obligations.SamplesAndTaps : Prop :=
  (∀ (s : State) (r : Region) (off : Nat),
    (∀ o, Ready (.psmpScalar o) s → panFind s true (srcS s o.base).toNat = .at_ r off →
      panFault s (psmpS o) o.base o.off = none → panStall s (psmpS o) o.base = false →
      ∃ t ls, exec (.psmpScalar o) s = .next t ∧ OnlyCoreAndWalks s t ∧ SlotDone s t ∧
        me t = { me s with
          posts := (me s).posts ++
            [⟨(me s).seq, .psmp false r.id (panIndex (panDesc r.desc) off o.off).toNat ((srcS s o.v).setWidth 4096), ls⟩]
          seq := (me s).seq + 1 } ∧
        List.Forall₂ IsLane ls ((panLanes (panDesc r.desc) (psmpS o) (srcS s o.base).toNat off
          (panIndex (panDesc r.desc) off o.off).toNat).map (fun x => (x.1, gAddr x.2.1, x.2.2)))) ∧
    (∀ o, Ready (.psmpVector o) s → panFind s true (srcS s o.base).toNat = .at_ r off →
      (panPair (panDesc r.desc) (psmpV o) = true → (rdV s.iss.regs (vNext o.v)).full = true) →
      panFault s (psmpV o) o.base o.off = none → panStall s (psmpV o) o.base = false →
      ∃ t ls, exec (.psmpVector o) s = .next t ∧ OnlyCoreAndWalks s t ∧ SlotDone s t ∧
        me t = { me s with
          posts := (me s).posts ++
            [⟨(me s).seq, .psmp true r.id (panIndex (panDesc r.desc) off o.off).toNat
              (if panPair (panDesc r.desc) (psmpV o) then pairBits s o.v else (srcV s o.v).bits.setWidth 4096), ls⟩]
          seq := (me s).seq + 1 } ∧
        List.Forall₂ IsLane ls ((panLanes (panDesc r.desc) (psmpV o) (srcS s o.base).toNat off
          (panIndex (panDesc r.desc) off o.off).toNat).map (fun x => (x.1, gAddr x.2.1, x.2.2))))) ∧
  (∀ (s : State) (r : Region) (off : Nat),
    (∀ o, Ready (.ptapScalar o) s → panFind s false (srcS s o.base).toNat = .at_ r off →
      panFault s (ptapS o) o.base o.off = none → panStall s (ptapS o) o.base = false →
      Taps s (exec (.ptapScalar o) s) (.tap 0 o.tap false r.id (panIndex (panDesc r.desc) off o.off).toNat) [.s o.d] 0
        (panLanes (panDesc r.desc) (ptapS o) (srcS s o.base).toNat off (panIndex (panDesc r.desc) off o.off).toNat)) ∧
    (∀ o, Ready (.ptapVector o) s → panFind s false (srcS s o.base).toNat = .at_ r off →
      panFault s (ptapV o) o.base o.off = none → panStall s (ptapV o) o.base = false →
      Taps s (exec (.ptapVector o) s) (.tap 0 o.tap true r.id (panIndex (panDesc r.desc) off o.off).toNat)
        (tapDst (panDesc r.desc) (ptapV o)) (tapTag (panDesc r.desc) o.tap)
        (panLanes (panDesc r.desc) (ptapV o) (srcS s o.base).toNat off (panIndex (panDesc r.desc) off o.off).toNat)) ∧
    (∀ o, Ready (.ptaps o) s → panFind s false (srcS s o.base).toNat = .at_ r off →
      panFault s (ptapsOp o) o.base o.off = none → panStall s (ptapsOp o) o.base = false →
      Taps s (exec (.ptaps o) s) (.tap 1 0 false r.id (panIndex (panDesc r.desc) off o.off).toNat) [.v o.d] 0
        (panLanes (panDesc r.desc) (ptapsOp o) (srcS s o.base).toNat off (panIndex (panDesc r.desc) off o.off).toNat)) ∧
    (∀ o, Ready (.rtapScalar o) s → panFind s false (srcS s o.base).toNat = .at_ r off →
      panFault s (rtapS o) o.base o.off = none → panStall s (rtapS o) o.base = false →
      Taps s (exec (.rtapScalar o) s) (.tap 2 0 false r.id (panIndex (panDesc r.desc) off o.off).toNat) [.s o.d, .s o.age] 0
        (panLanes (panDesc r.desc) (rtapS o) (srcS s o.base).toNat off (panIndex (panDesc r.desc) off o.off).toNat)) ∧
    (∀ o, Ready (.rtapVector o) s → panFind s false (srcS s o.base).toNat = .at_ r off →
      panFault s (rtapV o) o.base o.off = none → panStall s (rtapV o) o.base = false →
      Taps s (exec (.rtapVector o) s) (.tap 2 0 true r.id (panIndex (panDesc r.desc) off o.off).toNat)
        (tapDst (panDesc r.desc) (rtapV o) ++ [.s o.age]) (tapTag (panDesc r.desc) 0)
        (panLanes (panDesc r.desc) (rtapV o) (srcS s o.base).toNat off (panIndex (panDesc r.desc) off o.off).toNat)))

/-- R239: a pan instruction whose base lies in no configured region traps ACCESS at its slot; a PSMP's region is one of its own
partition, and a tap's may be another's that its base translates to. -/
def Obligations.PansOutsideRegionsTrap : Prop :=
  ∀ (s : State) (i : Instr) (base : BitVec 6), Ready i s →
    (panFind s true (srcS s base).toNat = .none ∧ ∃ o, o.base = base ∧ (i = .psmpScalar o ∨ i = .psmpVector o)) ∨
      (panFind s false (srcS s base).toNat = .none ∧
        ((∃ o, o.base = base ∧ (i = .ptapScalar o ∨ i = .ptapVector o)) ∨ (∃ o, o.base = base ∧ i = .ptaps o) ∨
          (∃ o, o.base = base ∧ (i = .rtapScalar o ∨ i = .rtapVector o)))) →
    exec i s = .next (takeTrap (gFault s cAccess (srcS s base).toNat none) s)

/-- R215, R219, R222, R232, R233: a PHASE that has nothing to wait for clears the footprint table and the streams' checks and
publishes the core's writes at its scope, as one publication that requires what the core has seen and published; memory takes
these writes; the registers stay, and the core waits once the bundle has ended. PREF changes nothing. -/
def Obligations.PhasePublishesAndPrefDoesNothing : Prop :=
  ∀ s : State,
    (∀ o, Ready (.phase o) s → phaseStall s = false →
      ∃ t ids, exec (.phase o) s = .next t ∧
        me t = { me s with
          foot := [], q := (me s).q.map (fun st => { st with checked := false }), unpub := [], mine := (me s).mine ||| 2 ^ s.pubs.length } ∧
        t.iss = { s.iss with slot := s.iss.slot + 1, stop := s.iss.stop.andThen (.phase o.scope ids .none) } ∧
        t.pubs = s.pubs ++ [⟨.core s.iss.core, domMask s s.iss.core o.scope.toNat,
          ((me s).incl ||| (me s).mine) ||| agentMask (.core s.iss.core) s.pubs 1,
          (me s).unpub.reverse.map (fun w => (w.loc, w.val))⟩] ∧
        t.mem = s.mem.wrPairs ((me s).unpub.reverse.map (fun w => (w.loc, w.val))) ∧
        t = { s with
          cores := s.cores.set s.iss.core (me t), iss := t.iss, pubs := t.pubs, mem := t.mem, badG := t.badG, nextId := t.nextId
          ackWait := t.ackWait, sent := t.sent, outSeq := t.outSeq }) ∧
    (∀ o, Ready (.pref o) s → exec (.pref o) s = .next { s with iss := { s.iss with slot := s.iss.slot + 1 } })

/-- R205, R253 to R255, R260 to R269, R276: a command whose block passes the checks and that has room is put in flight, with its block
as L stood when the bundle issued, its ranges recorded and its ticket PENDING; nothing else changes. R253, R314: a command whose
block address is no multiple of the block's length traps ALIGN at its slot with that address, before any other check. -/
def Obligations.EngineCommandsAreGiven : Prop :=
  (∀ (s : State) (o : CmdF) (i : Instr) (op : Nat),
    ((i = .cpy o ∧ op = 0x01) ∨ (i = .cpyw o ∧ op = 0x02) ∨ (i = .rkgath o ∧ op = 0x05) ∨ (i = .rkseg o ∧ op = 0x06) ∨
      (i = .rill o ∧ op = 0x07) ∨ (i = .cflAr o ∧ op = 0x08) ∨ (i = .cflRs o ∧ op = 0x09) ∨ (i = .cflAg o ∧ op = 0x0A) ∨
      (i = .cflBc o ∧ op = 0x0B) ∨ (i = .send o ∧ op = 0x0C) ∨ (i = .recv o ∧ op = 0x0D)) →
    Ready i s → cmdFault s op (srcS s o.a).toNat = none → cmdStall s op (srcS s o.a).toNat = false →
    Queues s (exec i s) op o.j (BitVec.ofNat 512 (s.iss.l.rdN (srcS s o.a).toNat (if 0x08 ≤ op ∧ op ≤ 0x0B then 64 else 32)))) ∧
  (∀ (s : State) (o : CmdF) (i : Instr), Ready i s →
    (i ∈ [.cpy o, .cpyw o, .rkgath o, .rkseg o, .rill o, .send o, .recv o] ∧ (srcS s o.a).toNat % 32 ≠ 0) ∨
      (i ∈ [.cflAr o, .cflRs o, .cflAg o, .cflBc o] ∧ (srcS s o.a).toNat % 64 ≠ 0) →
    exec i s = .next (takeTrap (lFault s cAlign (srcS s o.a).toNat) s))

/-- R180 to R182, R205, R232: TQPUSH puts the 2,048 bytes at its address at the tail of the transpose queue with the cycle of its
push, and TQPOP takes the head, whose age is at least 40 cycles, and stores it transposed: element (i, j) of the 32 by 32 tile of
16-bit elements goes to place (j, i); L is otherwise as it was. Each needs room in the scoreboard and puts its range there. A push
into a full queue traps TQ_OVERFLOW. R230, R255, R256: FOOT with a length adds its entry to the footprint table where it fits and
clashes with no other engine's, and with length 0 does nothing; JWAIT of a ticket that is not PENDING commits or, of a FAILED one,
traps with the kept cause; JWAIT of a PENDING ticket stalls; JPOLL writes whether the ticket is not PENDING. -/
def Obligations.TransposesFootprintsAndTickets : Prop :=
  (∀ (s : State) (o : EaF) (a : Nat), a = (srcS s o.a).toNat → a % 64 = 0 → a + 2048 ≤ 8388608 →
    (Ready (.tqpush o) s → footCovers (me s).foot 2 false a (a + 2047) = true → (me s).tq.length < 8 →
      (∀ c, (me s).tqAt = some c → c + 4 ≤ s.iss.t) → (me s).ranges.length < 64 → rangeHit (me s) false a 2048 = false →
      Becomes s (exec (.tqpush o) s) { me s with
        tq := (me s).tq ++ [⟨BitVec.ofNat 16384 ((me s).l.rdN a 2048), s.iss.t⟩], tqAt := some s.iss.t
        ranges := (me s).ranges ++ [⟨0, false, a, a + 2047⟩] }) ∧
    (Ready (.tqpush o) s → footCovers (me s).foot 2 false a (a + 2047) = true → 8 ≤ (me s).tq.length →
      exec (.tqpush o) s = .next (takeTrap (trapPlain s cTqOverflow) s)) ∧
    (∀ e r, Ready (.tqpop o) s → footCovers (me s).foot 2 true a (a + 2047) = true → (me s).tq = e :: r → e.at_ + 40 ≤ s.iss.t →
      (me s).ranges.length < 64 → rangeHit (me s) true a 2048 = false →
      ∃ t, exec (.tqpop o) s = .next t ∧ OnlyCore s t ∧ SlotDone s t ∧
        me t = { me s with tq := r, l := (me t).l, badL := (me t).badL, ranges := (me s).ranges ++ [⟨0, true, a, a + 2047⟩] } ∧
        (∀ i j, i < 32 → j < 32 → (me t).l.rdN (a + 2 * (32 * j + i)) 2 = (elem e.tile 16 (32 * i + j)).toNat) ∧
        (∀ b, b < a ∨ a + 2048 ≤ b → (me t).l.rd b = (me s).l.rd b))) ∧
  (∀ s : State,
    (∀ o, Ready (.foot o) s → (srcS s o.b).toNat ≠ 0 → (srcS s o.a).toNat + (srcS s o.b).toNat ≤ 8388608 → (me s).foot.length < 32 →
      (∀ e ∈ (me s).foot, e.eng ≠ o.eng → (srcS s o.a).toNat + (srcS s o.b).toNat ≤ e.lo ∨ e.hi < (srcS s o.a).toNat ∨ (o.wr = false ∧ e.wr = false)) →
      Becomes s (exec (.foot o) s) { me s with
        foot := (me s).foot ++ [⟨o.eng, o.wr, (srcS s o.a).toNat, (srcS s o.a).toNat + (srcS s o.b).toNat - 1⟩] }) ∧
    (∀ o, Ready (.foot o) s → (srcS s o.b).toNat = 0 → CommitsOnly s (exec (.foot o) s)) ∧
    (∀ o, Ready (.jwait o) s → (jOf s o.j).st ≠ .pending → (jOf s o.j).st ≠ .failed → CommitsOnly s (exec (.jwait o) s)) ∧
    (∀ o, Ready (.jwait o) s → (jOf s o.j).st = .pending → exec (.jwait o) s = .next s) ∧
    (∀ o, Ready (.jwait o) s → (jOf s o.j).st = .failed → exec (.jwait o) s = .next (takeTrap
      ⟨(jOf s o.j).cause, s.iss.slot, if (jOf s o.j).av then some ((jOf s o.j).asp, (jOf s o.j).addr.toNat) else none, 0, none, some o.j⟩ s)) ∧
    (∀ o, Ready (.jpoll o) s → WritesP s (exec (.jpoll o) s) o.p (decide ((jOf s o.j).st ≠ .pending))))

/-- R90 to R93, R228, R233: SPAWN publishes the core's writes at module scope and puts its record in flight under a PENDING ticket;
JOIN is put in flight with its scalar empty; LEAVE of another group does nothing, whatever its address, and of the task's own
group ends its membership and its lock-step; BAR clears the footprint table, and the task arrives once the bundle has ended. R183,
R235, R237: a PANCFG that passes the checks configures its region with fresh members, tick number 0 and no waiting TICK, in place
of one of the same base; a RELEASE ends the region of its base; each has a PENDING ticket. A TICK of a configured region waits at
the region and has a PENDING ticket. A PANCFG whose descriptor address is no multiple of 64 traps ALIGN. -/
def Obligations.GroupsRegionsAndTicks : Prop :=
  (∀ s : State,
    (∀ o, Ready (.spawn o) s → (srcS s o.a).toNat % 64 = 0 → (srcS s o.a).toNat < 4503599627370496 → phaseStall s = false →
      s.cmds.countP (fun k => k.core == s.iss.core) < 64 →
      ∃ t k n, exec (.spawn o) s = .next t ∧ SlotDone s t ∧ t.cmds = s.cmds.map (fun c => if c.id = n then { c with acks := k.acks } else c) ++ [k] ∧
        k.id = n ∧ k.op = 0x13 ∧ k.j = some o.j ∧ k.core = s.iss.core ∧ k.block = BitVec.ofNat 512 (srcS s o.a).toNat ∧ k.done = false ∧
        me t = { (me s).setJ o.j ⟨.pending, n, 0, false, false, 0⟩ with unpub := [], mine := (me s).mine ||| 2 ^ s.pubs.length } ∧
        t.pubs = s.pubs ++ [⟨.core s.iss.core, domMask s s.iss.core 3, ((me s).incl ||| (me s).mine) ||| agentMask (.core s.iss.core) s.pubs 1,
          (me s).unpub.reverse.map (fun w => (w.loc, w.val))⟩] ∧
        t.mem = s.mem.wrPairs ((me s).unpub.reverse.map (fun w => (w.loc, w.val)))) ∧
    (∀ o, Ready (.join o) s → grpFault s (srcS s o.a).toNat = none →
      ∃ t ls, exec (.join o) s = .next t ∧ OnlyCoreAndWalks s t ∧ SlotDone s t ∧ Noted (.s o.d) s t ∧ FrameS s t o.d ∧
        InFlight s t (.join (srcS s o.a).toNat) [.s o.d] 0 [(0, gAddr (srcS s o.a).toNat, 64)] ls) ∧
    (∀ o, Ready (.leave o) s → joinPending (me s) = false →
      ((me s).group ≠ some (srcS s o.a).toNat → CommitsOnly s (exec (.leave o) s)) ∧
      ((me s).group = some (srcS s o.a).toNat → grpXlate s (srcS s o.a).toNat = none → grpMiss s (srcS s o.a).toNat = false →
        (partOf s s.iss.core).isSome = true →
        ∃ t, exec (.leave o) s = .next t ∧ SlotDone s t ∧ (me t).group = none ∧ (me t).lock = false ∧ (me t).regs = (me s).regs ∧
          (me t).l = (me s).l)) ∧
    (∀ o, Ready (.bar o) s → barFault s (srcS s o.a).toNat = none → phaseStall s = false → joinPending (me s) = false →
      grpMiss s (srcS s o.a).toNat = false →
      ∃ t, exec (.bar o) s = .next t ∧ OnlyCore s t ∧
        t.iss = { s.iss with slot := s.iss.slot + 1, stop := s.iss.stop.andThen (.arrive (srcS s o.a).toNat .none) } ∧
        me t = { me s with foot := [], q := (me s).q.map (fun st => { st with checked := false }) }) ∧
    (∀ o, Ready (.bar o) s → (me s).h = true → exec (.bar o) s = .next (takeTrap (trapPlain s cIllegalSchedule) s))) ∧
  (∀ (s : State) (o : CmdF) (b : BitVec 512), b = BitVec.ofNat 512 (s.iss.l.rdN (srcS s o.a).toNat 64) →
    (Ready (.pancfg o) s → pancfgFault s (srcS s o.a).toNat = none → pancfgStall s (srcS s o.a).toNat = false → (panDesc b).rel = false →
      ∃ t r, exec (.pancfg o) s = .next t ∧ SlotDone s t ∧ r ∈ t.regions ∧ r.part = myPart s ∧ r.base = (panDesc b).base ∧ r.desc = b ∧ r.n = 0 ∧ r.ticks = [] ∧
        r.membs = List.replicate (panDesc b).nmem ⟨List.replicate (panDesc b).nEl ⟨0, 0, 0, [], 0, 0⟩, (panDesc b).rinit, 0, 0, false⟩ ∧
        (∀ x ∈ t.regions, x = r ∨ x ∈ s.regions) ∧ (jOf t o.j).st = .pending ∧
        me t = { (me s).setJ o.j (jOf t o.j) with asks := [] }) ∧
    (Ready (.pancfg o) s → pancfgFault s (srcS s o.a).toNat = none → pancfgStall s (srcS s o.a).toNat = false → (panDesc b).rel = true →
      ∃ t r, exec (.pancfg o) s = .next t ∧ SlotDone s t ∧ regionBase s (panDesc b).base = some r ∧ t.regions = s.regions.filter (fun x => x.id ≠ r.id) ∧
        (jOf t o.j).st = .pending ∧ me t = { (me s).setJ o.j (jOf t o.j) with asks := [] }) ∧
    (Ready (.pancfg o) s → (srcS s o.a).toNat % 64 ≠ 0 → exec (.pancfg o) s = .next (takeTrap (lFault s cAlign (srcS s o.a).toNat) s)) ∧
    (∀ r, Ready (.tick o) s → regionBase s (srcS s o.a).toNat = some r → s.cmds.countP (fun k => k.core == s.iss.core) < 64 →
      r.ticks.length + r.late.length < 4 →
      ∃ t, exec (.tick o) s = .next t ∧ SlotDone s t ∧ (jOf t o.j).st = .pending ∧
        t.regions = s.regions.map (fun x => if x.id = r.id then { x with ticks := x.ticks ++ [(s.iss.core, s.nextId)] } else x) ∧
        me t = (me s).setJ o.j (jOf t o.j)))

/-- R139, R140: VADD, VSUB, VMUL, VMULH and VMAD merge their results modulo 2^w, element by element, and VWACC the clamped exact sum
of the products of a lane, when the sources carry their tags; nothing else changes. -/
def Obligations.VectorSumsAndProducts : Prop :=
  ∀ s : State,
    (∀ o : VaF, (srcV s o.a).tag = o.fmt → (srcV s o.b).tag = o.fmt →
      (Ready (.vadd o) s → MergesV s (exec (.vadd o) s) o.d o.fmt o.m (fun e => .exact (elemOf s o.fmt o.a e + elemOf s o.fmt o.b e).toNat)) ∧
      (Ready (.vsub o) s → MergesV s (exec (.vsub o) s) o.d o.fmt o.m (fun e => .exact (elemOf s o.fmt o.a e - elemOf s o.fmt o.b e).toNat)) ∧
      (Ready (.vmul o) s → MergesV s (exec (.vmul o) s) o.d o.fmt o.m (fun e => .exact (elemOf s o.fmt o.a e * elemOf s o.fmt o.b e).toNat)) ∧
      (Ready (.vmulh o) s → MergesV s (exec (.vmulh o) s) o.d o.fmt o.m (fun e => .exact (BitVec.ofInt (tagWidth o.fmt.toNat)
        ((elemOf s o.fmt o.a e).toInt * (elemOf s o.fmt o.b e).toInt / 2 ^ tagWidth o.fmt.toNat)).toNat))) ∧
    (∀ o : VaAccF, (srcV s o.a).tag = o.fmt → (srcV s o.b).tag = o.fmt →
      (Ready (.vmad o) s → (srcV s o.d).tag = o.fmt → MergesV s (exec (.vmad o) s) o.d o.fmt o.m
        (fun e => .exact (elemOf s o.fmt o.d e + elemOf s o.fmt o.a e * elemOf s o.fmt o.b e).toNat)) ∧
      (Ready (.vwacc o) s → (srcV s o.d).tag = 3 → MergesV s (exec (.vwacc o) s) o.d 3 o.m
        (fun i => clamped 32 ((elem (srcV s o.d).bits 32 i).toInt +
          ((List.range (32 / tagWidth o.fmt.toNat)).map (fun j =>
            (elemOf s o.fmt o.a (32 / tagWidth o.fmt.toNat * i + j)).toInt *
            (elemOf s o.fmt o.b (32 / tagWidth o.fmt.toNat * i + j)).toInt)).sum))))

/-- R139, R141, R142: the bitwise forms (any tags under fmt 0x0), the shifts by b mod w, the signed minimum and maximum, VABS, which
clamps, the halves of the carry-less product of lanes and VPOPC merge their results; nothing else changes. -/
def Obligations.VectorBitsShiftsAndLimits : Prop :=
  ∀ s : State,
    (∀ o : VaF, o.fmt = 0 ∨ ((srcV s o.a).tag = o.fmt ∧ (srcV s o.b).tag = o.fmt) →
      (Ready (.vand o) s → MergesV s (exec (.vand o) s) o.d o.fmt o.m (fun e => .exact (elemOf s o.fmt o.a e &&& elemOf s o.fmt o.b e).toNat)) ∧
      (Ready (.vor o) s → MergesV s (exec (.vor o) s) o.d o.fmt o.m (fun e => .exact (elemOf s o.fmt o.a e ||| elemOf s o.fmt o.b e).toNat)) ∧
      (Ready (.vxor o) s → MergesV s (exec (.vxor o) s) o.d o.fmt o.m (fun e => .exact (elemOf s o.fmt o.a e ^^^ elemOf s o.fmt o.b e).toNat))) ∧
    (∀ o : VaF, (srcV s o.a).tag = o.fmt → (srcV s o.b).tag = o.fmt →
      (Ready (.vshl o) s → MergesV s (exec (.vshl o) s) o.d o.fmt o.m
        (fun e => .exact (elemOf s o.fmt o.a e <<< ((elemOf s o.fmt o.b e).toNat % tagWidth o.fmt.toNat)).toNat)) ∧
      (Ready (.vshr o) s → MergesV s (exec (.vshr o) s) o.d o.fmt o.m
        (fun e => .exact (elemOf s o.fmt o.a e >>> ((elemOf s o.fmt o.b e).toNat % tagWidth o.fmt.toNat)).toNat)) ∧
      (Ready (.vsar o) s → MergesV s (exec (.vsar o) s) o.d o.fmt o.m
        (fun e => .exact ((elemOf s o.fmt o.a e).sshiftRight ((elemOf s o.fmt o.b e).toNat % tagWidth o.fmt.toNat)).toNat)) ∧
      (Ready (.vmin o) s → MergesV s (exec (.vmin o) s) o.d o.fmt o.m (fun e => .exact (BitVec.ofInt (tagWidth o.fmt.toNat)
        (min (elemOf s o.fmt o.a e).toInt (elemOf s o.fmt o.b e).toInt)).toNat)) ∧
      (Ready (.vmax o) s → MergesV s (exec (.vmax o) s) o.d o.fmt o.m (fun e => .exact (BitVec.ofInt (tagWidth o.fmt.toNat)
        (max (elemOf s o.fmt o.a e).toInt (elemOf s o.fmt o.b e).toInt)).toNat))) ∧
    (∀ o, Ready (.vabs o) s → (srcV s o.a).tag = o.fmt → MergesV s (exec (.vabs o) s) o.d o.fmt o.m
      (fun e => clamped (tagWidth o.fmt.toNat) |(elemOf s o.fmt o.a e).toInt|)) ∧
    (∀ o, Ready (.vclmulLo o) s → MergesV s (exec (.vclmulLo o) s) o.d 0 o.m
      (fun i => .exact (clmul (elemOf s 0 o.a i).toNat (elemOf s 0 o.b i).toNat 32 % 2 ^ 32))) ∧
    (∀ o, Ready (.vclmulHi o) s → MergesV s (exec (.vclmulHi o) s) o.d 0 o.m
      (fun i => .exact (clmul (elemOf s 0 o.a i).toNat (elemOf s 0 o.b i).toNat 32 / 2 ^ 32))) ∧
    (∀ o, Ready (.vpopc o) s → MergesV s (exec (.vpopc o) s) o.d 3 o.m
      (fun i => .exact ((List.range 32).countP (fun j => (elemOf s 0 o.a i).getLsbD j))))

/-- R143, R144: VFADD, VFSUB, VFMUL and VFMA round the exact result once by their mode, with INV for an invalid operation; VFMIN,
VFMAX, VFABS and VFNEG set no flag; each merges under the tags of its sources, and nothing else changes. -/
def Obligations.VectorFloatsRoundOnce : Prop :=
  ∀ s : State,
    (∀ o : VaF, (srcV s o.a).tag = o.fmt → (srcV s o.b).tag = o.fmt →
      (Ready (.vfadd o) s → MergesV s (exec (.vfadd o) s) o.d o.fmt o.m (fun e =>
        { (fmtOf o.fmt.toNat).rnd (vRnd s o.rnd e) (FV.add (fel s o.fmt o.a e) (fel s o.fmt o.b e)).1 with
          inv := (FV.add (fel s o.fmt o.a e) (fel s o.fmt o.b e)).2 })) ∧
      (Ready (.vfsub o) s → MergesV s (exec (.vfsub o) s) o.d o.fmt o.m (fun e =>
        { (fmtOf o.fmt.toNat).rnd (vRnd s o.rnd e) (FV.add (fel s o.fmt o.a e) (fel s o.fmt o.b e).neg).1 with
          inv := (FV.add (fel s o.fmt o.a e) (fel s o.fmt o.b e).neg).2 })) ∧
      (Ready (.vfmul o) s → MergesV s (exec (.vfmul o) s) o.d o.fmt o.m (fun e =>
        { (fmtOf o.fmt.toNat).rnd (vRnd s o.rnd e) (FV.mul (fel s o.fmt o.a e) (fel s o.fmt o.b e)).1 with
          inv := (FV.mul (fel s o.fmt o.a e) (fel s o.fmt o.b e)).2 })) ∧
      (Ready (.vfmin o) s → MergesV s (exec (.vfmin o) s) o.d o.fmt o.m (fun e =>
        .exact ((fmtOf o.fmt.toNat).rnd .rne (FV.min (fel s o.fmt o.a e) (fel s o.fmt o.b e))).code)) ∧
      (Ready (.vfmax o) s → MergesV s (exec (.vfmax o) s) o.d o.fmt o.m (fun e =>
        .exact ((fmtOf o.fmt.toNat).rnd .rne (FV.max (fel s o.fmt o.a e) (fel s o.fmt o.b e))).code))) ∧
    (∀ o : VaAccF, (srcV s o.a).tag = o.fmt → (srcV s o.b).tag = o.fmt → (srcV s o.d).tag = o.fmt → Ready (.vfma o) s →
      MergesV s (exec (.vfma o) s) o.d o.fmt o.m (fun e =>
        let p := FV.mul (fel s o.fmt o.a e) (fel s o.fmt o.b e)
        { (fmtOf o.fmt.toNat).rnd (vRnd s o.rnd e) (FV.add p.1 (fel s o.fmt o.d e)).1 with inv := p.2 || (FV.add p.1 (fel s o.fmt o.d e)).2 })) ∧
    (∀ o : VaOneF, (srcV s o.a).tag = o.fmt →
      (Ready (.vfabs o) s → MergesV s (exec (.vfabs o) s) o.d o.fmt o.m (fun e =>
        .exact ((fmtOf o.fmt.toNat).rnd .rne (fel s o.fmt o.a e).abs).code)) ∧
      (Ready (.vfneg o) s → MergesV s (exec (.vfneg o) s) o.d o.fmt o.m (fun e =>
        .exact ((fmtOf o.fmt.toNat).rnd .rne (fel s o.fmt o.a e).neg).code)))

/-- R145, R146: VMCMP and VFCMP set a bit of md exactly when its lane is enabled and every element on the lane meets the condition,
signed for .lt to .gt, and MAND, MOR and MNOT combine masks; each writes only md, and m0 stays all ones. -/
def Obligations.VectorComparisonsAndMasks : Prop :=
  ∀ s : State,
    (∀ o, Ready (.vmcmp o) s → (srcV s o.a).tag = o.fmt → (srcV s o.b).tag = o.fmt → o.fmt.toNat ∈ [1, 2, 3, 4] → o.cc.toNat < 10 →
      ∃ x, WritesM s (exec (.vmcmp o) s) o.d x ∧ ∀ i, i < 64 → (x.getLsbD i = true ↔ (srcM s o.m).getLsbD i = true ∧
        ∀ e, e < 2048 / tagWidth o.fmt.toNat →
          32 * i < tagWidth o.fmt.toNat * (e + 1) → tagWidth o.fmt.toNat * e < 32 * (i + 1) →
          let a := elemOf s o.fmt o.a e
          let b := elemOf s o.fmt o.b e
          match o.cc.toNat with
          | 0 => a = b
          | 1 => a ≠ b
          | 2 => a.toInt < b.toInt
          | 3 => b.toInt ≤ a.toInt
          | 4 => a.toInt ≤ b.toInt
          | 5 => b.toInt < a.toInt
          | 6 => a.toNat < b.toNat
          | 7 => b.toNat ≤ a.toNat
          | 8 => a.toNat ≤ b.toNat
          | _ => b.toNat < a.toNat)) ∧
    (∀ o, Ready (.vfcmp o) s → (srcV s o.a).tag = o.fmt → (srcV s o.b).tag = o.fmt → o.fmt.toNat ∈ [5, 6] → o.cc.toNat < 8 →
      ∃ x, WritesM s (exec (.vfcmp o) s) o.d x ∧ ∀ i, i < 64 → (x.getLsbD i = true ↔ (srcM s o.m).getLsbD i = true ∧
        ∀ e, e < 2048 / tagWidth o.fmt.toNat →
          32 * i < tagWidth o.fmt.toNat * (e + 1) → tagWidth o.fmt.toNat * e < 32 * (i + 1) →
          let a := fel s o.fmt o.a e
          let b := fel s o.fmt o.b e
          if a.isNan ∨ b.isNan then o.cc.toNat = 1 ∨ o.cc.toNat = 6
          else match o.cc.toNat with
          | 0 => FV.eqNum a b
          | 1 => ¬ FV.eqNum a b
          | 2 => FV.ltNum a b
          | 3 => ¬ FV.ltNum a b
          | 4 => ¬ FV.ltNum b a
          | 5 => FV.ltNum b a
          | 6 => False
          | _ => True)) ∧
    (∀ o, Ready (.mand o) s → WritesM s (exec (.mand o) s) o.d (srcM s o.a &&& srcM s o.b)) ∧
    (∀ o, Ready (.mor o) s → WritesM s (exec (.mor o) s) o.d (srcM s o.a ||| srcM s o.b)) ∧
    (∀ o, Ready (.mnot o) s → WritesM s (exec (.mnot o) s) o.d (~~~(srcM s o.a)))

/-- R147, R148: VEXP2, VLOG2, VRCP, VRSQ and VSQRT empty vd under the tag fmt and set their flags at commit; 16 cycles after issue the
enabled elements land as their function rounded by RNE, the others with their old bits. The flags are those of the enabled
elements. -/
def Obligations.SpecialFunctionsLandAfter16Cycles : Prop :=
  ∀ (s : State) (o : VaOneF), (srcV s o.a).tag = o.fmt →
    let lands := fun (out : Out) (f : FV → FV × Bool) => ∃ x fl, FlightV s out o.d o.fmt (s.iss.t + 16) x fl ∧
      (∀ e, e < 2048 / tagWidth o.fmt.toNat → elem x (tagWidth o.fmt.toNat) e =
        if enabled (srcM s o.m) (tagWidth o.fmt.toNat) e
        then BitVec.ofNat _ ((fmtOf o.fmt.toNat).rnd .rne (f (fel s o.fmt o.a e)).1).code
        else elem (rdV (me s).regs o.d).bits (tagWidth o.fmt.toNat) e) ∧
      ∀ b, fl.getLsbD b = (upto (2048 / tagWidth o.fmt.toNat)).any (fun e => enabled (srcM s o.m) (tagWidth o.fmt.toNat) e &&
        (flagsOf { (fmtOf o.fmt.toNat).rnd .rne (f (fel s o.fmt o.a e)).1 with inv := (f (fel s o.fmt o.a e)).2 }).getLsbD b)
    (Ready (.vexp2 o) s → lands (exec (.vexp2 o) s) vexp2) ∧ (Ready (.vlog2 o) s → lands (exec (.vlog2 o) s) vlog2) ∧
    (Ready (.vrcp o) s → lands (exec (.vrcp o) s) vrcp) ∧ (Ready (.vrsq o) s → lands (exec (.vrsq o) s) vrsq) ∧
    (Ready (.vsqrt o) s → lands (exec (.vsqrt o) s) vsqrt)

/-- R149 to R153: VCVT converts the low elements and fills the rest with zero codes, VUNPACK converts the high elements, VPACK narrows
two registers into one, VSCALE applies the scale byte of each 32 elements, and VTAG keeps the bits; each merges under its new tag. -/
def Obligations.VectorConversions : Prop :=
  ∀ s : State,
    (∀ o, Ready (.vcvt o) s → (srcV s o.a).tag ≠ 0 → (srcV s o.a).tag ≠ 10 → MergesV s (exec (.vcvt o) s) o.d o.fmt o.m (fun e =>
      if e < 2048 / tagWidth (srcV s o.a).tag.toNat
      then convert (srcV s o.a).tag.toNat o.fmt.toNat (vRnd s o.rnd e) (elemOf s (srcV s o.a).tag o.a e).toNat
      else .exact (match o.fmt.toNat with | 8 => 119 | 9 => 7 | _ => 0))) ∧
    (∀ o, Ready (.vunpack o) s → ((srcV s o.a).tag.toNat, o.fmt.toNat) ∈
        [(1, 2), (1, 3), (2, 3), (1, 5), (8, 5), (9, 5), (1, 6), (2, 6), (5, 6), (8, 6), (9, 6)] →
      MergesV s (exec (.vunpack o) s) o.d o.fmt o.m (fun e => convert (srcV s o.a).tag.toNat o.fmt.toNat .rne
        (elemOf s (srcV s o.a).tag o.a (2048 / tagWidth (srcV s o.a).tag.toNat - 2048 / tagWidth o.fmt.toNat + e)).toNat)) ∧
    (∀ o t, Ready (.vpack o) s → (t.toNat, o.fmt.toNat) ∈ [(2, 1), (6, 5), (5, 8), (8, 9)] → (srcV s o.a).tag = t → (srcV s o.b).tag = t →
      MergesV s (exec (.vpack o) s) o.d o.fmt o.m (fun e => convert t.toNat o.fmt.toNat (vRnd s o.rnd e)
        (if e < 2048 / tagWidth t.toNat then (elemOf s t o.a e).toNat else (elemOf s t o.b (e - 2048 / tagWidth t.toNat)).toNat))) ∧
    (∀ o, Ready (.vscale o) s → (srcV s o.a).tag = o.fmt → (srcV s o.b).tag = 10 → MergesV s (exec (.vscale o) s) o.d o.fmt o.m (fun e =>
      let k := elem (srcV s o.b).bits 8 (e / 32)
      if k = 255 then { Rounded.exact (fmtOf o.fmt.toNat).nanCode with inv := true }
      else (fmtOf o.fmt.toNat).rnd (vRnd s o.rnd e) ((fel s o.fmt o.a e).scale ((k.toNat : Int) - 127)))) ∧
    (∀ o, Ready (.vtag o) s → o.fmt ≠ 7 → MergesV s (exec (.vtag o) s) o.d o.fmt o.m (fun e => .exact (elemOf s o.fmt o.a e).toNat))

/-- R154, R155: VRED writes the reduction of the enabled elements to element 0 and zero bits to every other element, whatever the mask
holds; an integer sum is taken modulo 2^w, and the reduction of no element is the operator's neutral value; VSCAN merges the
reduction of the enabled elements up to each element. -/
def Obligations.ReductionsAndScans : Prop :=
  ∀ (s : State) (o : VredF), (srcV s o.a).tag = o.fmt →
    let es := fun n => (List.range n).filter (fun e => enabled (srcM s o.m) (tagWidth o.fmt.toNat) e)
    (Ready (.vred o) s → ∃ t r, exec (.vred o) s = .next t ∧ OnlyCore s t ∧ SlotDone s t ∧ Noted (.v o.d) s t ∧
      r = redVal s o (2048 / tagWidth o.fmt.toNat) (vRnd s o.rnd 0) ∧
      rdV (me t).regs o.d = ⟨BitVec.ofNat 2048 r.code, o.fmt, true⟩ ∧ (me t).flags = (me s).flags ||| flagsOf r ∧
      (∀ n, n ≠ o.d → rdV (me t).regs n = rdV (me s).regs n) ∧
      me t = { me s with regs := { (me s).regs with v := (me t).regs.v }, flags := (me t).flags, latch := (me t).latch }) ∧
    (Ready (.vscan o) s → MergesV s (exec (.vscan o) s) o.d o.fmt o.m (fun e => redVal s o (e + 1) (vRnd s o.rnd e))) ∧
    (∀ n mode, o.fmt.toNat ∈ [1, 2, 3, 4] →
      let w := tagWidth o.fmt.toNat
      let xs := (es n).map (fun e => (elemOf s o.fmt o.a e).toInt)
      (o.op = 0 → redVal s o n mode = .exact (BitVec.ofInt w xs.sum).toNat) ∧
      (o.op = 1 → redVal s o n mode = .exact (BitVec.ofInt w (xs.foldl min (2 ^ (w - 1) - 1))).toNat) ∧
      (o.op = 2 → redVal s o n mode = .exact (BitVec.ofInt w (xs.foldl max (-2 ^ (w - 1)))).toNat)) ∧
    (∀ n mode, o.fmt.toNat ∈ [5, 6] → es n = [] →
      (o.op = 0 → redVal s o n mode = .exact 0) ∧
      (o.op = 1 → redVal s o n mode = .exact (fmtOf o.fmt.toNat).infCode) ∧
      (o.op = 2 → redVal s o n mode = .exact ((fmtOf o.fmt.toNat).infCode + (fmtOf o.fmt.toNat).sign)))

/-- R156: VSPLAT puts the low bits of a scalar into every enabled element, VMOVS a lane into a scalar, zero-extended, VSEL each lane
from the register that its mask bit selects, and VLANE the lane that a scalar names into every enabled lane, under the tag of va. -/
def Obligations.VectorMoves : Prop :=
  ∀ s : State,
    (∀ o, Ready (.vsplat o) s → MergesV s (exec (.vsplat o) s) o.d o.fmt o.m
      (fun _ => .exact ((srcS s o.a).toNat % 2 ^ tagWidth o.fmt.toNat))) ∧
    (∀ o, Ready (.vmovs o) s → WritesS s (exec (.vmovs o) s) o.d ((laneOf (srcV s o.a).bits o.lane.toNat).setWidth 64)) ∧
    (∀ o, Ready (.vsel o) s → ∃ x, WritesV s (exec (.vsel o) s) o.d x (if (srcV s o.a).tag = (srcV s o.b).tag then (srcV s o.a).tag else 0) ∧
      ∀ i, i < 64 → laneOf x i = if (srcM s o.m).getLsbD i then laneOf (srcV s o.a).bits i else laneOf (srcV s o.b).bits i) ∧
    (∀ o, Ready (.vlane o) s → ∃ x, WritesV s (exec (.vlane o) s) o.d x (srcV s o.a).tag ∧
      ∀ i, i < 64 → laneOf x i = if (srcM s o.m).getLsbD i then laneOf (srcV s o.a).bits ((srcS s o.b).toNat % 64)
        else laneOf (rdV (me s).regs o.d).bits i)

/-- R135, R157: VCHKF sets CHK at commit exactly when an enabled element is infinite or a NaN, and changes nothing else; LSUPD moves
the loss scale one step by CHK as it stood at issue, and of FLAGS it changes only SKIP, LS_FLOOR and CHK. R137: a V slot one of
whose sources carries another tag than its form requires traps TAG_MISMATCH at its slot: another than fmt for the arithmetic, the
comparisons, the special functions, the reductions and VCHKF; than I32 for the sum of VWACC; than E8 for the scales of VSCALE;
than those that R149 to R151 list for VCVT, VUNPACK and VPACK; and VTAG.x40 always. -/
def Obligations.TagsAndLossScale : Prop :=
  (∀ s : State,
    (∀ o hit, Ready (.vchkf o) s → (srcV s o.a).tag = o.fmt →
      hit = (List.range (2048 / tagWidth o.fmt.toNat)).any (fun e => enabled (srcM s o.m) (tagWidth o.fmt.toNat) e &&
        ((fel s o.fmt o.a e).isNan || (fel s o.fmt o.a e).isInf)) →
      ∃ t, exec (.vchkf o) s = .next t ∧ OnlyCore s t ∧
        t.iss = { s.iss with slot := s.iss.slot + 1, chkSet := s.iss.chkSet || hit } ∧
        me t = { me s with flags := if hit then (me s).flags ||| fCHK else (me s).flags }) ∧
    (Ready .lsupd s → s.iss.chkSet = false → ∃ t, exec .lsupd s = .next t ∧ OnlyCore s t ∧ SlotDone s t ∧
      me t = { me s with lscale := (me t).lscale, flags := (me t).flags, latch := (me t).latch } ∧
      (me t).flags.getLsbD 4 = false ∧ (me t).flags.getLsbD 6 = (srcC s 7).getLsbD 4 ∧
      (∀ i, i < 4 → (me t).flags.getLsbD i = (me s).flags.getLsbD i) ∧
      let x := (me s).lscale
      let y := (me t).lscale
      let e := (x.setWidth 8).toInt
      let lo := ((x >>> 8).setWidth 8).toInt
      let hi := ((x >>> 16).setWidth 8).toInt
      let n := ((x >>> 24).setWidth 8).toNat
      let clean := ((x >>> 32).setWidth 16).toNat
      let floor := ((x >>> 48).setWidth 16).toNat
      (y >>> 8).setWidth 24 = (x >>> 8).setWidth 24 ∧
      ((srcC s 7).getLsbD 4 = true → (y >>> 32).setWidth 16 = 0 ∧
        (lo < e → y.setWidth 8 = x.setWidth 8 - 1 ∧ (y >>> 48).setWidth 16 = (x >>> 48).setWidth 16 ∧
          (me t).flags.getLsbD 5 = (me s).flags.getLsbD 5) ∧
        (e ≤ lo → y.setWidth 8 = x.setWidth 8 ∧ ((y >>> 48).setWidth 16).toNat = min (floor + 1) 65535 ∧ (me t).flags.getLsbD 5 = true)) ∧
      ((srcC s 7).getLsbD 4 = false → (y >>> 48).setWidth 16 = (x >>> 48).setWidth 16 ∧ (me t).flags.getLsbD 5 = (me s).flags.getLsbD 5 ∧
        (n ≠ 0 → n ≤ min (clean + 1) 65535 → e < hi → y.setWidth 8 = x.setWidth 8 + 1 ∧ (y >>> 32).setWidth 16 = 0) ∧
        (n = 0 ∨ min (clean + 1) 65535 < n ∨ hi ≤ e → y.setWidth 8 = x.setWidth 8 ∧
          ((y >>> 32).setWidth 16).toNat = min (clean + 1) 65535)))) ∧
  (∀ (s : State) (i : Instr), Ready i s →
    (∃ (t : Tag) (l : List (BitVec 6)), (∃ v ∈ l, (srcV s v).tag ≠ t) ∧
      ((∃ o : VaF, t = o.fmt ∧ l = [o.a, o.b] ∧ (i ∈ [.vadd o, .vsub o, .vmul o, .vmulh o, .vshl o, .vshr o, .vsar o, .vmin o, .vmax o,
          .vfadd o, .vfsub o, .vfmul o, .vfmin o, .vfmax o] ∨ (t ≠ 0 ∧ i ∈ [.vand o, .vor o, .vxor o]))) ∨
        (∃ o : VaAccF, t = o.fmt ∧ l = [o.a, o.b, o.d] ∧ i ∈ [.vmad o, .vfma o]) ∨
        (∃ o : VaAccF, i = .vwacc o ∧ ((t = o.fmt ∧ l = [o.a, o.b]) ∨ (t = 3 ∧ l = [o.d]))) ∨
        (∃ o : VaOneF, t = o.fmt ∧ l = [o.a] ∧ i ∈ [.vabs o, .vfabs o, .vfneg o, .vexp2 o, .vlog2 o, .vrcp o, .vrsq o, .vsqrt o]) ∨
        (∃ o : VcF, t = o.fmt ∧ l = [o.a, o.b] ∧ i ∈ [.vmcmp o, .vfcmp o]) ∨
        (∃ o : VredF, t = o.fmt ∧ l = [o.a] ∧ i ∈ [.vred o, .vscan o]) ∨
        (∃ o : VchkfF, t = o.fmt ∧ l = [o.a] ∧ i = .vchkf o) ∨
        (∃ o : VaF, i = .vscale o ∧ ((t = o.fmt ∧ l = [o.a]) ∨ (t = 10 ∧ l = [o.b]))) ∨
        (∃ o : VaF, i = .vpack o ∧ (o.fmt.toNat, t.toNat) ∈ [(1, 2), (5, 6), (8, 5), (9, 8)] ∧ l = [o.a, o.b]))) ∨
    (∃ o : VaOneF, i = .vcvt o ∧ ((srcV s o.a).tag = 0 ∨ (srcV s o.a).tag = 10)) ∨
    (∃ o : VaOneF, i = .vunpack o ∧ o.fmt.toNat ∈ [2, 3, 5, 6] ∧ ((srcV s o.a).tag.toNat, o.fmt.toNat) ∉
      [(1, 2), (1, 3), (2, 3), (1, 5), (8, 5), (9, 5), (1, 6), (2, 6), (5, 6), (8, 6), (9, 6)]) ∨
    (∃ o : VaOneF, i = .vtag o ∧ o.fmt = 7) →
    exec i s = .next (takeTrap (trapPlain s cTagMismatch) s))

/-- R158 to R162: XPERM, XROT, XBCAST, XREV, XSHUF and XCMPR write every lane of vd with the lane of va that their rule names, under
the tag of va; an XPERM two of whose pattern lanes agree in bits 5 to 0 traps ILLEGAL_SCHEDULE. -/
def Obligations.CrossbarMovesLanes : Prop :=
  ∀ (s : State),
    let moves := fun (out : Out) (d a : BitVec 6) (f : Nat → Nat) =>
      ∃ x, WritesV s out d x (srcV s a).tag ∧ ∀ i, i < 64 → laneOf x i = laneOf (srcV s a).bits (f i)
    (∀ o, Ready (.xperm o) s →
      (∀ i j, i < j → j < 64 → (laneOf (srcV s o.p).bits i).toNat % 64 ≠ (laneOf (srcV s o.p).bits j).toNat % 64) →
      moves (exec (.xperm o) s) o.d o.a (fun i => (laneOf (srcV s o.p).bits i).toNat % 64)) ∧
    (∀ o i j, Ready (.xperm o) s → i < j → j < 64 →
      (laneOf (srcV s o.p).bits i).toNat % 64 = (laneOf (srcV s o.p).bits j).toNat % 64 →
      exec (.xperm o) s = .next (takeTrap (trapPlain s cIllegalSchedule) s)) ∧
    (∀ o, Ready (.xrot o) s → moves (exec (.xrot o) s) o.d o.a (fun i => (i + o.k.toNat) % 64)) ∧
    (∀ o, Ready (.xbcast o) s → moves (exec (.xbcast o) s) o.d o.a (fun _ => o.k.toNat)) ∧
    (∀ o, Ready (.xrev o) s → moves (exec (.xrev o) s) o.d o.a (fun i => i ^^^ (2 ^ o.g.toNat - 1))) ∧
    (∀ o, Ready (.xshuf o) s → o.c.toNat < 4 → moves (exec (.xshuf o) s) o.d o.a (fun i =>
      match o.c.toNat with
      | 0 => if i % 2 = 0 then i / 2 else 32 + i / 2
      | 1 => if i % 2 = 0 then 32 + i / 2 else i / 2
      | 2 => if i < 32 then 2 * i else 2 * (i - 32) + 1
      | _ => if i < 32 then 2 * i + 1 else 2 * (i - 32))) ∧
    (∀ o, Ready (.xcmpr o) s → ∃ x, WritesV s (exec (.xcmpr o) s) o.d x (srcV s o.a).tag ∧
      (∀ i, i < 64 → (srcM s o.g).getLsbD i = true →
        laneOf x ((List.range i).countP (fun j => (srcM s o.g).getLsbD j)) = laneOf (srcV s o.a).bits i) ∧
      (∀ k, k < 64 → (List.range 64).countP (fun j => (srcM s o.g).getLsbD j) ≤ k → laneOf x k = 0))

/-- R165 to R169, R176, R177: while the gate is closed, WLD of a row in range loads the latch from the core's slice, half a row for
PW4; with the gate open, or beyond the range, it traps ACCESS; ZCLR and ZROT act on their tile alone, and DRAIN puts one row of a
tagged tile in flight for 10 cycles, with its flags at commit. -/
def Obligations.WeightLatchAndTiles : Prop :=
  ∀ s : State,
    (∀ o h row, Ready (.wld o) s → gateOf s = false → h = o.imm.toNat + (srcS s o.a).toNat → row = (if o.fmt = 9 then h / 2 else h) →
      row < 1024 → refreshing (cycleAt s s.iss.core s.iss.t) row = false →
      (∀ c i, c < 64 → i < 12 → (me s).badW.contains (granuleKey c row i) = false) →
      ∃ t, exec (.wld o) s = .next t ∧ OnlyCore s t ∧ SlotDone s t ∧
        me t = { me s with wlatch := (me t).wlatch, wfmt := o.fmt, wat := s.iss.t } ∧
        ∀ c, c < 64 → (me t).wlatch.getD c 0 = if o.fmt = 9 then ((sliceRow (me s) c row >>> (1536 * (h % 2))).setWidth 1536).setWidth 3072
          else sliceRow (me s) c row) ∧
    (∀ o, Ready (.wld o) s → gateOf s = true ∨ (if o.fmt = 9 then 2048 else 1024) ≤ o.imm.toNat + (srcS s o.a).toNat →
      exec (.wld o) s = .next (takeTrap (trapPlain s cAccess) s)) ∧
    (∀ o, Ready (.zclr o) s → WritesZ s (exec (.zclr o) s) o.z ⟨Vector.replicate 64 0, 0, 0⟩) ∧
    (∀ o, Ready (.zrot o) s → WritesZ s (exec (.zrot o) s) o.z
      ⟨(srcZ s o.z).rows, (srcZ s o.z).tag, BitVec.ofNat 6 (((srcZ s o.z).cur.toNat + o.k.toNat) % 64)⟩) ∧
    (∀ o, Ready (.drain o) s → (srcZ s o.z).tag ≠ 0 →
      let el := fun (e : Nat) => drainElem (srcZ s o.z).tag o.fmt (tileCode (srcZ s o.z) o.row.toNat e) (tileIx (srcZ s o.z) o.row.toNat e)
      ∃ x fl, FlightV s (exec (.drain o) s) o.d o.fmt (s.iss.t + 10) x fl ∧
        (∀ e, e < 2048 / tagWidth o.fmt.toNat → elem x (tagWidth o.fmt.toNat) e = if e < 64 then BitVec.ofNat _ (el e).code else 0) ∧
        ∀ b, fl.getLsbD b = (upto 64).any (fun e => (flagsOf (el e)).getLsbD b)) ∧
    (∀ o, Ready (.drain o) s → (srcZ s o.z).tag = 0 → exec (.drain o) s = .next (takeTrap (trapPlain s cTagMismatch) s))

/-- R170 to R175, R178, R179: a BEAT whose checks pass and whose streams are ready writes the cursor's row of its tile, moves the
cursor and advances its streams; in integer mode a MULADD column is the clamped exact sum of its products and C. ZSPILL writes the
65 elements of the spill format through its stream and leaves the tile, and ZFILL reads them back. -/
def Obligations.BeatsAndTileTransfers : Prop :=
  ∀ s : State,
    (∀ o : BeatF, Ready (.beat o) s → beatFault s o = none → beatStall s o = false →
      ∃ t cols, exec (.beat o) s = .next t ∧ OnlyCore s t ∧ SlotDone s t ∧ Noted (.z o.z) s t ∧
        cols = (upto 64).map (beatCol s o (beatMode o.fmt (me s).wfmt o.int) (if beatMode o.fmt (me s).wfmt o.int = 2 then [] else beatOps s o)) ∧
        rdZ (me t).regs o.z = beatTile o (beatMode o.fmt (me s).wfmt o.int) (srcZ s o.z) cols ∧
        (me t).flags = (me s).flags ||| cols.foldl (fun a x => a ||| x.flags) 0 ∧
        (∀ n, n ≠ o.z → rdZ (me t).regs n = rdZ (me s).regs n) ∧
        (∀ n, qOf t n = if n = o.q ∨ (o.sc = true ∧ n = o.sq) then { advance 1 (qOf s n) with checked := true } else qOf s n) ∧
        me t = { me s with regs := { (me s).regs with z := (me t).regs.z }, flags := (me t).flags, q := (me t).q, latch := (me t).latch }) ∧
    (∀ (o : BeatF) (c : Nat) (v : Int), c < 64 → o.cell = 0 →
      v = ((List.range 384).map (fun k => (BitVec.ofNat 8 (streamElem s o.q 0 / 2 ^ (8 * k))).toInt *
          (BitVec.ofNat 8 (weightAt (me s).wfmt ((me s).wlatch.getD c 0) k)).toInt)).sum +
        (if o.zero = true ∨ (srcZ s o.z).tag = 0 then 0 else (BitVec.ofNat 40 (tileCode (srcZ s o.z) (srcZ s o.z).cur.toNat c)).toInt) →
      beatCol s o 2 [] c = ⟨(clamped 40 v).code, false, if (clamped 40 v).sat then fSAT else 0⟩) ∧
    (∀ o, Ready (.zspill o) s → zqFault s o.q true = none → streamStall s o.q true 65 = false →
      ∃ t, exec (.zspill o) s = .next t ∧ OnlyCore s t ∧ SlotDone s t ∧ (me t).regs = (me s).regs ∧
        me t = { me s with l := (me t).l, badL := (me t).badL, q := (me t).q } ∧
        (me t).l = (List.range 65).foldl (fun l n => l.wrN (elAddr (qOf s o.q) n) 384
          (if n < 64 then ((srcZ s o.z).rows.getD n 0).toNat else (srcZ s o.z).tag.toNat + (srcZ s o.z).cur.toNat * 2 ^ 4)) (me s).l ∧
        (∀ n, qOf t n = if n = o.q then { advance 65 (qOf s n) with checked := true } else qOf s n)) ∧
    (∀ o, Ready (.zfill o) s → zqFault s o.q false = none → streamStall s o.q false 65 = false →
      ∃ t, exec (.zfill o) s = .next t ∧ OnlyCore s t ∧ SlotDone s t ∧ Noted (.z o.z) s t ∧
        rdZ (me t).regs o.z = (fillTile (fun n => BitVec.ofNat 3072 (streamElem s o.q n))).1 ∧
        (me t).flags = (me s).flags ||| (if (fillTile (fun n => BitVec.ofNat 3072 (streamElem s o.q n))).2 = true then fINV else 0) ∧
        (∀ n, n ≠ o.z → rdZ (me t).regs n = rdZ (me s).regs n) ∧
        (∀ n, qOf t n = if n = o.q then { advance 65 (qOf s n) with checked := true } else qOf s n) ∧
        me t = { me s with regs := { (me s).regs with z := (me t).regs.z }, flags := (me t).flags, q := (me t).q, latch := (me t).latch })

/-- R284, R285, R288, R291, R292, R296, R298: in their windows PCREATE gives a free VF and cores that no partition holds to a new
partition, PDESTROY of one that holds nothing frees and scrubs them, S2ROOT, CTXALLOT and PORTW set their registers while nothing
runs, a retired core's port keeping no weight, and INVAL is held until INVAL_COMPLETE drops what it names and raises its event:
all of a VF, the first-stage translations whose walk shares an entry with the range, or those whose walk touched a page of it;
nothing else of the module changes. When such an event takes its turn is the model's agenda (log entry 2). -/
def Obligations.PartitionCommands : Prop :=
  ∀ s : State,
    (∀ p v mask key, winOpen s = true → (pt s p).exist = false → (vf s v).bound = none → mask ≠ 0 →
      (∀ c, inMask mask c = true → (cr s c).retired = false ∧ partOf s c = none) →
      ∃ t, exec (.pcreate p v mask key) s = .next t ∧ t.ack = ⟨true, 0⟩ ∧
        pt t p = { Part.reset with exist := true, vf := v, mask := mask, keydig := key } ∧
        vf t v = { vf s v with bound := some p } ∧
        (∀ c, cr t c = if inMask mask c then { cr s c with portw := 1 } else cr s c) ∧
        (∀ x, x ≠ p → pt t x = pt s x) ∧ (∀ x, x ≠ v → vf t x = vf s x) ∧
        t = { s with cores := t.cores, parts := t.parts, vfs := t.vfs, ack := t.ack }) ∧
    (∀ p, winOpen s = true → (pt s p).exist = true → (pt s p).vacant = true ∨ ((pt s p).running = false ∧ partBusy s p = false) →
      ∃ t, exec (.pdestroy p) s = .next t ∧ t.ack = ⟨true, 0⟩ ∧ pt t p = Part.reset ∧
        vf t (pt s p).vf = { Vf.reset with nextTag := (vf s (pt s p).vf).nextTag } ∧
        (∀ c, inMask (pt s p).mask c = true → ∃ r w, cr t c = { Core.reset with retired := r, rank := (cr s c).rank, portw := w }) ∧
        (∀ c, inMask (pt s p).mask c = false → cr t c = cr s c) ∧
        (∀ x, x ≠ p → pt t x = pt s x) ∧ (∀ x, x ≠ (pt s p).vf → vf t x = vf s x) ∧ t.mem = s.mem ∧ t.pubs = s.pubs) ∧
    (∀ p x, winOpen s = true → (pt s p).exist = true → (pt s p).running = false → x.toNat / 2 ^ 46 = 0 → x.toNat / 2 % 2 ^ 15 = 0 →
      exec (.s2root p x) s = .next { s with parts := s.parts.set p { pt s p with s2root := x }, ack := ⟨true, 0⟩ }) ∧
    (∀ p n, winOpen s = true → (pt s p).exist = true → (pt s p).running = false →
      (partIds.map (fun q => if q ≠ p ∧ (pt s q).exist = true then (pt s q).allot else 0)).sum + n ≤ 256 →
      exec (.ctxallot p n) s = .next { s with parts := s.parts.set p { pt s p with allot := n }, ack := ⟨true, 0⟩ }) ∧
    (∀ c w, winOpen s = true → w ≠ 0 → (cr s c).retired = false → (∀ p, partOf s c = some p → (pt s p).running = false) →
      exec (.portw c w) s = .next { s with cores := s.cores.set c { cr s c with portw := w }, ack := ⟨true, 0⟩ }) ∧
    (∀ v kind lo hi, winOpen s = true →
      exec (.inval v kind lo hi) s = .next { s with invals := s.invals ++ [⟨v, kind, lo.toNat, hi.toNat⟩], ack := ⟨true, 0⟩ }) ∧
    (∀ i r, s.invals = i :: r → inFlight s i.vf = false → s.fatal = false → s.dead = false →
      ∃ t, exec .invalComplete s = .next t ∧ t = { s with invals := r, tlb := t.tlb, events := s.events ++ [.invalDone i.vf] } ∧
        (∀ e, e ∈ t.tlb ↔ e ∈ s.tlb ∧ ¬ (e.vf = i.vf ∧ (i.kind = 0 ∨
          (i.kind = 1 ∧ e.s2 = false ∧ e.s1 = true ∧ i.lo / 2 ^ 39 ≤ 65536 * e.page / 2 ^ 39 ∧ 65536 * e.page / 2 ^ 39 ≤ i.hi / 2 ^ 39) ∨
          (i.kind = 2 ∧ ∃ n ∈ e.ipas, 65536 * n ≤ i.hi ∧ i.lo ≤ 65536 * n + 65535)))))

/-- R358: a write that its writer may make is taken and acknowledged; a write by the wrong writer, of a value outside the register's
range or at the wrong time is refused, and a refused write changes no field. Logs clear by a write of 1, and SRCNT takes 48 bits. -/
def Obligations.RegisterWritesAndRefusals : Prop :=
  ∀ s : State, winOpen s = true →
    (∀ v p x, (vf s v).bound = some p →
      let sets := fun (w : Writer) (r : WinReg) (k : Vf) =>
        exec (.registerWrite w r x) s = .next { s with vfs := s.vfs.set v k, ack := ⟨true, 0⟩ }
      let refused := fun (w : Writer) (r : WinReg) => exec (.registerWrite w r x) s = .next { s with ack := ⟨false, 0⟩ }
      ((pt s p).running = false → x &&& 0xFFF000000000003F#64 = 0 → sets .host (.rootbase v) { vf s v with rootbase := x }) ∧
      ((pt s p).running = true → refused .host (.rootbase v)) ∧
      refused .tenant (.rootbase v) ∧
      ((pt s p).running = false → x &&& 0xFFF000000000FFFE#64 = 0 → sets .tenant (.s1root v) { vf s v with s1root := x }) ∧
      refused .host (.s1root v) ∧
      (1024 ≤ x.toNat → x.toNat ≤ 2 ^ 24 → sets .host (.quant v) { vf s v with quant := x }) ∧
      (x.toNat < 1024 ∨ 2 ^ 24 < x.toNat → refused .host (.quant v)) ∧
      (256 ≤ x.toNat → x.toNat ≤ 65536 → sets .host (.safemax v) { vf s v with safemax := x.toNat }) ∧
      (x.toNat < 256 ∨ 65536 < x.toNat → refused .host (.safemax v)) ∧
      (∀ n, sets .host (.srcnt v n) { vf s v with srcnt := (vf s v).srcnt.set n.toFin (x.setWidth 48) }) ∧
      (x &&& 0x3FFFFFFFFFFFFFFF#64 = 0 → sets .host (.errlog v) { vf s v with errlog := (vf s v).errlog &&& ~~~x }) ∧
      (x &&& 0x3FFFFFFFFFFFFFFF#64 = 0 → sets .host (.engerr v) { vf s v with engerr := (vf s v).engerr &&& ~~~x }) ∧
      (x &&& 0x3FFFFFFFFFFFFFFF#64 = 0 → sets .host (.traperr v) { vf s v with traperr := (vf s v).traperr &&& ~~~x })) ∧
    (∀ v w r x, windowOf r = some v → (vf s v).bound = none →
      exec (.registerWrite w r x) s = .next { s with ack := ⟨false, 0⟩ }) ∧
    (∀ w r x, windowOf r = none → w ≠ .hypervisor → exec (.registerWrite w r x) s = .next { s with ack := ⟨false, 0⟩ }) ∧
    (∀ v x, x &&& 0xFFFFFFFF00000000#64 = 0 → exec (.registerWrite .hypervisor (.prqcons v) x) s =
      .next { s with vfs := s.vfs.set v { vf s v with prqcons := x.setWidth 32 }, ack := ⟨true, 0⟩ }) ∧
    (∀ x, x &&& 0xFFFFFFFFFFFFFFE0#64 = 0 → (∀ p, (pt s p).exist = true → (pt s p).running = false) →
      exec (.registerWrite .hypervisor .modesel x) s = .next { s with modesel := x.setWidth 5, ack := ⟨true, 0⟩ }) ∧
    (∀ x p, (pt s p).exist = true → (pt s p).running = true →
      exec (.registerWrite .hypervisor .modesel x) s = .next { s with ack := ⟨false, 0⟩ })

/-- R8, R338, R343, R344, R346: MODULE_RESET starts the boot ROM; the ROM runs an image only if it verifies, in the order of FAILCODE,
and a version below FLOOR is refused; firmware then leaves every store of this module zero, what other modules and the host nodes
hold as it was (log entry 79), and the module ready; FWLOAD does as the ROM in HALTED; POWER_CAP changes only time; a fatal error
writes the dump, whose header holds its format and cause, the µs since reset and the count of sections in the widths of log entry
29, and DUMPREAD reads it; THERMTRIP takes the module off. When such an event takes its turn is the model's agenda (log entry 2). -/
def Obligations.BootPowerAndFatalErrors : Prop :=
  ∀ s : State,
    (∃ t, exec .moduleReset s = .next t ∧ t.boot.st = 0 ∧ t.boot.floor = s.boot.floor ∧
      (∀ a, t.mem.rd a = if locIsLocal a = true then 0 else s.mem.rd a) ∧ t.fatal = false ∧
      t.dead = false ∧ (∀ p, pt t p = Part.reset) ∧ (∀ v, vf t v = Vf.reset) ∧
      (∀ c, cr t c = { Core.reset with retired := (cr s c).retired, portw := if (cr s c).retired then 0 else 1 })) ∧
    (∀ f : Firmware, verifyFw s f = (if f.malformed then 3 else if (Config.sigOk f.key f.body f.sig &&
      (List.range 4).any (fun i => Config.fuseDigest i == Config.sha256 f.key)) = false then 1 else if f.version.toNat < s.boot.floor.toNat then 2 else 0)) ∧
    (s.boot.st = 0 → s.dead = false → ∃ t, exec .bootRomVerify s = .next t ∧ t = { s with boot := t.boot } ∧
      (verifyFw s romImage = 0 → t.boot.st = 1 ∧ t.boot.fwver = romImage.version ∧ t.boot.failcode = 0 ∧
        t.boot.floor.toNat = max s.boot.floor.toNat romImage.floor.toNat) ∧
      (verifyFw s romImage ≠ 0 → t.boot = { s.boot with st := 3, failcode := verifyFw s romImage })) ∧
    (s.boot.st = 1 → s.dead = false → ∃ t, exec .firmwareInit s = .next t ∧ t.boot = { s.boot with st := 2 } ∧
      (∀ a, t.mem.rd a = if locIsLocal a = true then 0 else s.mem.rd a) ∧ t.badG = [] ∧ (∀ c, ∃ r : Bool, cr t c = { Core.reset with retired := r, portw := if r then 0 else 1 })) ∧
    (∀ f, s.boot.st = 3 → s.fatal = false → s.dead = false → ∃ t, exec (.fwload f) s = .next t ∧ t = { s with boot := t.boot, ack := t.ack } ∧
      (verifyFw s f = 0 → t.ack = ⟨true, 0⟩ ∧ t.boot.st = 1 ∧ t.boot.fwver = f.version ∧ t.boot.fw = f.body ∧
        t.boot.floor.toNat = max s.boot.floor.toNat f.floor.toNat) ∧
      (verifyFw s f ≠ 0 → t.ack = ⟨false, 0⟩ ∧ t.boot = { s.boot with st := 3, failcode := verifyFw s f })) ∧
    (∀ f, s.boot.st ≠ 3 → exec (.fwload f) s = .next { s with ack := ⟨false, 0⟩ }) ∧
    (∀ mhz stall, s.dead = false → ∃ t, exec (.powerCap mhz stall) s = .next t ∧ t = { s with mhz := t.mhz, stallFor := s.now + stall } ∧
      1100 ≤ t.mhz ∧ t.mhz ≤ 3600) ∧
    (s.dead = false → exec .thermtrip s = .next { s with dead := true, events := s.events ++ [.thermtrip] }) ∧
    (∀ cause, s.fatal = false → s.dead = false → cause ≠ 0 → cause.toNat ≤ 3 → ∃ t ws, exec (.fatalError cause) s = .next t ∧
      t.fatal = true ∧ t.events = s.events ++ [.fatal] ∧ t.pubs = s.pubs ++ [⟨.host 0, BitVec.allOnes 64, agentMask (.host 0) s.pubs 1, ws⟩] ∧
      (∀ w, w ∈ ws → 0x2F80000000 ≤ w.1 ∧ w.1 < 0x2F80000000 + 2147483648) ∧
      t.mem.rdN 0x2F80000000 8 = 2 + cause.toNat * 2 ^ 16 ∧ t.mem.rdN 0x2F80000008 8 = s.us % 2 ^ 64 ∧ t.mem.rdN 0x2F80000010 8 = 5 ∧
      t.mem = s.mem.wrPairs ws ∧ t = { s with
        fatal := true, events := t.events, pubs := t.pubs, mem := t.mem, badG := t.badG, nextId := t.nextId, ackWait := t.ackWait
        sent := t.sent, outSeq := t.outSeq }) ∧
    (∀ off, s.fatal = true → s.dead = false → off + 8 ≤ 2 ^ 31 →
      exec (.dumpread off) s = .next { s with ack := ⟨true, s.mem.rdN (0x2F80000000 + off) 8⟩ })

/-- R299: the DEADLINE command is answered with T_discard either way; accepted, it stands with its cut D − T_discard after acceptance,
takes over the choices of the one it replaces, every queue is evaluated at once, and the clock is at 1.8 GHz or more (R301);
refused, it changes nothing. R303 to R306, R310: until the cut, once in each µs, each queue with tasks is evaluated at the rates
of the last 64 µs and Delta acts on its choice; a queue whose remaining time fits runs on, otherwise it is checkpointed if that
fits, otherwise discarded, and a choice never moves back up; the host's choices act at once; at the cut what is unfinished is
discarded, and where nothing is, only the cut is noted; a command that stops publishes what it has written, and a SPAWN, and a
TICK whose close has been sent, go on. When such an event takes its turn is the model's agenda (log entry 2). -/
def Obligations.SluiceRunsDeadlines : Prop :=
  (∀ (s : State) (k : DeadlineF),
    let td := 1 + max 4 (tSweep s k.part none) + 7
    let fits := mgmt s k.part = true ∧ 1 ≤ k.d.toNat ∧ td ≤ k.d.toNat ∧ k.addr.toNat % 64 = 0 ∧ k.ckpt.toNat % 64 = 0 ∧ k.rsv = 0 ∧
      (∀ d, (pt s k.part).dl = some d → s.us + k.d.toNat < d.start + d.d)
    (∀ x, (pt s k.part).dl = none → s.modesel.getLsbD 1 = false →
      x = (⟨k.d.toNat, td, s.us + k.d.toNat - td, s.us, k.margin, k.node, k.addr, k.ckpt, k.ckptn.toNat, 0, [], false, s.us⟩ : Deadline) →
      (∀ q, queueHolds s k.part q = false) → fits →
      exec (.deadline k) s = .next { s with parts := s.parts.set k.part { pt s k.part with dl := some x }, mhz := max s.mhz 1800, ack := ⟨true, td⟩ }) ∧
    (∀ (x : Deadline) (w : State), fits →
      x = ⟨k.d.toNat, td, s.us + k.d.toNat - td, s.us, k.margin, k.node, k.addr, k.ckpt, k.ckptn.toNat, 0,
        (match (pt s k.part).dl with | some d => d.qs | none => []).map (fun y : SQueue => { y with held := queueHolds s k.part y.q }), false, s.us⟩ →
      w = evalAll k.part true { s with parts := s.parts.set k.part { pt s k.part with dl := some x }, mhz := max s.mhz 1800 } →
      exec (.deadline k) s = .next { w with
        ack := ⟨true, td⟩, events := if w.modesel.getLsbD 1 then w.events ++ [.sluiceq k.part] else w.events }) ∧
    (¬ fits → exec (.deadline k) s = .next { s with ack := ⟨false, td⟩ })) ∧
  (∀ (s : State) (p : PartId) (d : Deadline), (pt s p).dl = some d → s.fatal = false → s.dead = false →
    (s.us ≤ d.evalAt → exec (.sluiceEvaluation p) s = .next s) ∧
    (d.cutDone = false → s.us < d.cut → d.evalAt < s.us →
      exec (.sluiceEvaluation p) s = .next ((heldQueues s p).foldl (actChoice p)
        { s with parts := s.parts.set p { pt s p with dl := some { d with
          qs := (d.qs ++ ((heldQueues s p).filter (fun q => !d.qs.any (fun x => x.q == q))).map (fun q => (⟨q, .run, false, false, 0, 0, false, 0, 0, 0, 0, (queueOf s p q).tearing⟩ : SQueue))).map (evalEntry s p d)
          evalAt := s.us } } })) ∧
    (∀ x : SQueue, queueHolds s p x.q = true → x.saving = false → s.modesel.getLsbD 1 = false →
      let left := d.cut - s.us
      let cores := (coresOf s p).length
      let bw := max 1 s.ch.bw
      let runs := ∃ n, remQ s p x.q = some n ∧ n * (64 * cores) * (8 + d.margin.toNat) ≤
        left * 8 * max (runCount s p (fun _ y => y == x.q) * cores) (runCount s p (fun _ _ => true))
      let fits := ∃ a b, safeQ s p x.q = some (a, b) ∧ withdrawQ s p x.q ≤ d.ckptn - d.used ∧
        (a * bw + (dirtyQ s p x.q + tackQ s p x.q * bw) * b) * (8 + d.margin.toNat) ≤ left * 8 * (b * bw)
      (runs → (evalEntry s p d x).choice = x.choice) ∧
      (¬ runs → fits → (evalEntry s p d x).choice = if x.choice = .discard then .discard else .checkpoint) ∧
      (¬ runs → ¬ fits → (evalEntry s p d x).choice = .discard)) ∧
    (∀ q, sluiceChoice s p q = .run → actChoice p s q = s) ∧
    (∀ (x : W64) (q : BitVec 6) (c : SChoice), x.toNat % 64 = p.val → x.toNat / 64 % 64 = q.toNat → x.toNat / 2 ^ 14 = 0 →
      mgmt s p = true → d.cutDone = false → s.us < d.cut → queueHolds s p q = true →
      (x.toNat / 4096 % 4 = 3 → exec (.sluiceQuery x) s = .next { s with queryP := p, queryQ := q, ack := ⟨true, 0⟩ }) ∧
      (∀ e, s.modesel.getLsbD 1 = true → d.qs.find? (fun y => y.q == q) = some e → e.saving = false →
        let chosen := fun (ch : SChoice) => { s with parts := s.parts.set p { pt s p with dl := some { d with
          qs := d.qs.map (fun y => if y.q = q then { y with choice := ch } else y) } } }
        (x.toNat / 4096 % 4 = 0 → e.choice = .run → exec (.sluiceRun x) s = .next { chosen .run with ack := ⟨true, 0⟩ }) ∧
        (x.toNat / 4096 % 4 = 0 → e.choice ≠ .run → exec (.sluiceRun x) s = .next { s with ack := ⟨false, 0⟩ }) ∧
        (x.toNat / 4096 % 4 = 1 → e.choice ≠ .discard → withdrawQ s p q ≤ d.ckptn - d.used →
          exec (.sluiceCheckpoint x) s = .next { ckptRest p q (chosen .checkpoint) with ack := ⟨true, 0⟩ }) ∧
        (x.toNat / 4096 % 4 = 1 → e.choice = .discard ∨ d.ckptn - d.used < withdrawQ s p q →
          exec (.sluiceCheckpoint x) s = .next { s with ack := ⟨false, 0⟩ }) ∧
        (x.toNat / 4096 % 4 = 2 → exec (.sluiceDiscard x) s = .next { discardQueue p q (chosen .discard) with ack := ⟨true, 0⟩ }))) ∧
    (d.cutDone = false → d.cut ≤ s.us →
      ((∀ q, queueHolds s p q = false) → (pt s p).spawns = [] → (∀ k ∈ s.cmds, k.part ≠ p) →
        exec (.deadlineCut p) s = .next { s with parts := s.parts.set p { pt s p with dl := some { d with cutDone := true } } }) ∧
      exec (.deadlineCut p) s = .next (cutAll p s)) ∧
    (∀ k : Cmd,
      (k.op = opSpawn → cancelCmd s k = s) ∧ (k.op = opTick → closeSent s k = true → cancelCmd s k = s) ∧
      (k.op ≠ opSpawn → k.op ≠ opTick → k.done = true → cancelCmd s k = endCmd k.id none (freeCtx k (if k.out = [] then s else
        { s with
          mem := s.mem.wrPairs k.out, badG := healG k.out s.badG
          pubs := s.pubs ++ [⟨.engine k.core k.id, BitVec.allOnes 64, k.incl ||| agentMask (.engine k.core k.id) s.pubs 1, k.out⟩] })))))

/-- R311, R312: when every task has ended and no command is left but those that await acknowledgements only, these end, the cores are
scrubbed but for what outlives a deadline, the report is published at its address, the partition is vacant, its gate opens, and
the event is raised, after the events of what becomes due at the gate (R333). When such an event takes its turn is the model's
agenda (log entry 2). -/
def Obligations.VacancyScrubsAndReports : Prop :=
  ∀ (s : State) (p : PartId) (e d : Deadline) (u : State), (pt s p).dl = some e → s.fatal = false → s.dead = false → mayVacate s p = true →
    u = endAcks p s →
    ((∀ k ∈ s.cmds, k.part ≠ p) → u = s) ∧
    ((pt u p).dl = some d →
    ∃ t more, exec (.vacancy p) s = .next t ∧ t.events = u.events ++ more ++ [.vacancy p] ∧ (∀ x ∈ more, ∃ k n, x = Event.retpend k n) ∧
      pt t p = { pt u p with running := false, image := none, imgData := [], vacant := true, dl := none, gateOpen := true } ∧
      (∀ x, x ≠ p → pt t x = pt u x) ∧ t.vfs = u.vfs ∧ t.regions = u.regions ∧
      (∀ c, inMask (pt u p).mask c = true → cr t c = { Core.reset with
        retired := (cr u c).retired, wslice := (cr u c).wslice, badW := (cr u c).badW, rank := (cr u c).rank, portw := (cr u c).portw }) ∧
      (∀ c, inMask (pt u p).mask c = false → cr t c = cr u c) ∧
      (let a := 2 ^ 63 + 2 ^ 52 * d.node.toNat + d.addr.toNat
       let qs := d.qs.filter (fun x => x.held)
       t.mem.rdN a 8 = d.d % 2 ^ 32 + d.td % 2 ^ 32 * 2 ^ 32 ∧
       t.mem.rdN (a + 8) 8 = (u.us - d.start) % 2 ^ 32 + (if u.ackWait.any (fun k => k.part == p) then 0 else 2 ^ 32) ∧
       t.mem.rdN (a + 16) 8 = qs.length % 2 ^ 64 ∧ t.mem.rdN (a + 24) 8 = 0 ∧
       (∀ i x, qs[i]? = some x →
         t.mem.rdN (a + 32 + 16 * i) 8 = x.q.toNat + x.choice.rank * 2 ^ 6 + x.outcome.toNat * 2 ^ 8 + (if x.cut then 2 ^ 11 else 0) + x.ended % 2 ^ 32 * 2 ^ 32 ∧
         t.mem.rdN (a + 40 + 16 * i) 8 = x.saved % 2 ^ 40) ∧
       (∀ b, b < a ∨ a + 32 + 16 * qs.length ≤ b → t.mem.rd b = u.mem.rd b)) ∧
      ∃ w, t.pubs = u.pubs ++ [w])

/-- R332, R333, R336, R337: RECORD adds one to a unit's count, past THRESH the fault is lasting, and with MODESEL.ERR the count goes
to the host; each window of WINDOW µs counts by itself; a unit that is due retires at its point, RETIRE retires at once what can
retire, refuses a channel while a partition runs, and shrinks the die's stack by 768 MiB for a channel. When such an event takes
its turn is the model's agenda (log entry 2). -/
def Obligations.ErrorsAreCountedAndUnitsRetire : Prop :=
  ∀ (s : State) (kind : BitVec 3) (u : BitVec 16), winOpen s = true → unitValid kind u = true →
    let x := unitOfErr s kind u
    let thresh := (s.errthr.getD kind.toNat 0).toNat % 2 ^ 16
    let window := (s.errthr.getD kind.toNat 0).toNat / 2 ^ 16 % 2 ^ 32
    let n := (if x.win = s.us / window then x.count else 0) + 1
    let counted := { x with kind := kind, unit := u, count := n, win := s.us / window }
    let set := fun (y : UnitErr) => y :: s.units.filter (fun z => !(z.kind == kind && z.unit == u))
    let gone := fun (t : State) => ∃ y ∈ t.units, y.kind = kind ∧ y.unit = u ∧ y.retired = true
    (∀ w : W64, w.toNat / 2 ^ 24 = 0 → w.toNat / 2 ^ 3 % 2 ^ 5 = 0 → w.toNat % 2 ^ 3 = kind.toNat → w.toNat / 2 ^ 8 % 2 ^ 16 = u.toNat →
      (x.retired = false → s.modesel.getLsbD 2 = false → n ≤ thresh ∨ x.due = true →
        exec (.record w) s = .next { s with units := set counted, ack := ⟨true, 0⟩ }) ∧
      (x.retired = false → s.modesel.getLsbD 2 = true →
        exec (.record w) s = .next { s with
          units := set counted, events := s.events ++ [.errPosted kind u], ack := ⟨true, 0⟩ }) ∧
      (x.retired = false → s.modesel.getLsbD 2 = false → thresh < n → x.due = false → mayRetire s kind u = true →
        ∃ t, exec (.record w) s = .next t ∧ gone t ∧ t.ack = ⟨true, 0⟩) ∧
      (x.retired = true → exec (.record w) s = .next { s with ack := ⟨false, 0⟩ })) ∧
    (x.count = 0 ∨ x.win = s.us / window → exec (.errorWindowExpiry kind u) s = .next s) ∧
    (x.count ≠ 0 → x.win ≠ s.us / window → s.modesel.getLsbD 2 = true ∨ x.count ≤ thresh ∨ x.retired = true ∨ x.due = true →
      exec (.errorWindowExpiry kind u) s = .next { s with units := set { x with kind := kind, unit := u, count := 0, win := s.us / window } }) ∧
    (x.count ≠ 0 → x.win ≠ s.us / window → s.modesel.getLsbD 2 = false → thresh < x.count → x.retired = false → x.due = false →
      mayRetire s kind u = true → ∃ t, exec (.errorWindowExpiry kind u) s = .next t ∧ gone t) ∧
    (x.due = true → x.retired = false → mayRetire s kind u = true → ∃ t, exec (.unitRetirement kind u) s = .next t ∧ gone t ∧
      t = { s with cores := t.cores, units := t.units, parts := t.parts, events := t.events } ∧
      (kind = 0 → (cr t (Fin.ofNat 64 u.toNat)).retired = true)) ∧
    (x.retired = false → kind = 0 → (partOf s (Fin.ofNat 64 u.toNat)).isSome = true →
      exec (.retire kind u) s = .next { s with
        units := set { x with kind := kind, unit := u, due := true }, events := s.events ++ [.retpend kind u], ack := ⟨true, 0⟩ }) ∧
    (x.retired = false → mayRetire s kind u = true → ∃ t, exec (.retire kind u) s = .next t ∧ gone t ∧ t.ack = ⟨true, 0⟩) ∧
    (x.retired = false → kind = 2 ∨ kind = 6 → (∀ p, (pt s p).exist = true → (pt s p).running = false) →
      ∃ t, exec (.retire kind u) s = .next t ∧ gone t ∧ t.ack = ⟨true, 0⟩ ∧ t = { s with units := t.units, stackTop := t.stackTop, ack := t.ack } ∧
        t.stackTop = if kind = 2 then s.stackTop.setIfInBounds (u.toNat / 64 % 4) (s.stackTop.getD (u.toNat / 64 % 4) 0 - 805306368)
          else s.stackTop) ∧
    (∀ p, kind = 2 ∨ kind = 6 → (pt s p).exist = true → (pt s p).running = true → exec (.retire kind u) s = .next { s with ack := ⟨false, 0⟩ })

/-- R335, R227, R167, R268: MIRCFG declares a mirrored region to its buddy while its partition does not run; the buddy raises LOST for
a module, and PROMOTE makes its copies memory and its pan copies configured regions at their last advance; the weight die
refreshes in the last 512 cycles of each 65,536, and a bank's refresh is postponed at most eight times. When such an event takes
its turn is the model's agenda (log entry 2). -/
def Obligations.MirrorsAndRefreshCalendars : Prop :=
  ∀ s : State,
    (∀ (p : PartId) (base : GAddr) (len : BitVec 52) (m : BitVec 16) (dpa : BitVec 46), mgmt s p = true → (pt s p).running = false →
      base.toNat % 65536 = 0 → len.toNat % 65536 = 0 →
      let rest := s.mirrors.filter (fun x => !(x.part == p && x.base == base.toNat))
      let f : FlowId := ⟨64, m, laneHash dpa.toNat⟩
      let k := ((s.outSeq.find? (fun x => x.1 == f)).map Prod.snd).getD 0
      (len = 0 → exec (.mircfg p base len m dpa) s = .next { s with mirrors := rest, ack := ⟨true, 0⟩ }) ∧
      (len ≠ 0 → exec (.mircfg p base len m dpa) s = .next { s with
        mirrors := rest ++ [⟨p, base.toNat, len.toNat, m, dpa.toNat⟩]
        sent := s.sent ++ [.mirror f k (.declare Config.thisModule dpa len.toNat)]
        outSeq := (f, k + 1) :: s.outSeq.filter (fun x => x.1 ≠ f)
        ack := ⟨true, 0⟩ })) ∧
    (∀ (p : PartId) (base : GAddr) (len : BitVec 52) (m : BitVec 16) (dpa : BitVec 46), (pt s p).running = true ∨ base.toNat % 65536 ≠ 0 →
      exec (.mircfg p base len m dpa) s = .next { s with ack := ⟨false, 0⟩ }) ∧
    (∀ m, s.fatal = false → s.dead = false → exec (.moduleLost m) s = .next { s with events := s.events ++ [.lost m] }) ∧
    (∀ p m, mgmt s p = true →
      let ks := s.panCopies.filter (fun k => k.m == m && k.known)
      exec (.promote p m) s = .next { s with
        nextId := s.nextId + ks.length
        regions := s.regions ++ ks.zipIdx.map (fun x => { x.1.reg with id := s.nextId + x.2, part := p, base := (panDesc x.1.reg.desc).base })
        copies := s.copies.filter (fun k => k.m ≠ m)
        panCopies := s.panCopies.filter (fun k => k.m ≠ m)
        ack := ⟨true, 0⟩ }) ∧
    (∃ n, exec .weightDieRefresh s = .next { s with now := n } ∧ n % 65536 = 65024 ∧ s.now < n ∧ n ≤ s.now + 65536) ∧
    (∀ bank, (∃ l, exec (.stackRefreshDue bank false) s = .next { s with debt := l } ∧ (∀ x ∈ l, x.1 ≠ bank) ∧ ∀ x, x.1 ≠ bank → (x ∈ l ↔ x ∈ s.debt)) ∧
      ∃ l d, exec (.stackRefreshDue bank true) s = .next { s with debt := (bank, d) :: l } ∧ d ≤ 8 ∧ (∀ x ∈ l, x.1 ≠ bank) ∧
        (∀ x, x.1 ≠ bank → (x ∈ l ↔ x ∈ s.debt)) ∧
        (∀ n, s.debt.find? (fun x => x.1 == bank) = some (bank, n) → n < 8 → d = n + 1) ∧ (s.debt.find? (fun x => x.1 == bank) = none → d = 1))

/-- R22, R59, R60, R68, R166, R344, R345: an image that verifies, fits, keeps the safe-point bound and relocates stands in every core
of the partition; a launch of a loaded partition that does not run places the root task of each rank whose bit is set, at its
entry with only s1 full, and leaves the other cores idle; the weight gate closes, or with a preamble stays open; a running
partition refuses both, and behind a launch that waits on a page both wait; the attestation report is published before the answer. -/
def Obligations.ImagesLaunchesAndAttestation : Prop :=
  ∀ (s : State) (v : VfId) (p : PartId), winOpen s = true → (vf s v).bound = some p →
    (∀ (img : Image) (d : List Bundle) (code : List (BitVec 16)), (pt s p).running = false →
      Config.sigOk img.key (Config.imageBytes img) img.sig = true → (pt s p).keydig = 0 ∨ Config.sha256 img.key = (pt s p).keydig →
      img.dict.length ≤ 8192 → img.code.length ≤ 2 ^ 24 → dataFits img = true → img.safemax ≤ (vf s v).safemax → pathsFit img = true →
      relocAll s p img.relocs (img.dict, img.code) = some (d, code) →
      ∃ t, exec (.imageLoad v img) s = .next t ∧ t.ack = ⟨true, 0⟩ ∧
        pt t p = { pt s p with image := some (Config.sha256 (Config.imageBytes img)), imgData := img.data } ∧
        (∀ c, inMask (pt s p).mask c = true → cr t c = { cr s c with dict := d, code := code, trapEntry := img.trap, safe := img.safe }) ∧
        (∀ c, inMask (pt s p).mask c = false → cr t c = cr s c) ∧
        t = { s with cores := t.cores, parts := s.parts.set p (pt t p), ack := t.ack }) ∧
    (∀ img : Image, (pt s p).running = true ∨ Config.sigOk img.key (Config.imageBytes img) img.sig = false ∨ (vf s v).safemax < img.safemax ∨
        pathsFit img = false →
      exec (.imageLoad v img) s = .next { s with ack := ⟨false, 0⟩ }) ∧
    (∀ vec : List (BitVec 32), (pt s p).launch ≠ none → exec (.launch v vec) s = .next s ∧ exec (.launchPreamble v vec) s = .next s) ∧
    (∀ vec : List (BitVec 32), (pt s p).launch = none → (pt s p).running = true ∨ (pt s p).image = none ∨ (pt s p).dl.isSome = true ∨ vec.length ≠ 64 →
      exec (.launch v vec) s = .next { s with ack := ⟨false, 0⟩ } ∧ exec (.launchPreamble v vec) s = .next { s with ack := ⟨false, 0⟩ }) ∧
    (∀ vec : List (BitVec 32), (pt s p).launch = none → (pt s p).running = false → (pt s p).image ≠ none → (pt s p).dl = none →
      vecFits (coresOf s p).length vec = true →
      rootsOk s v p ((coresOf s p).head?.getD 0) ((upto (coresOf s p).length).filter (vecRun vec)) = .ok →
      ∀ pre : Bool, ∃ t, exec (if pre then .launchPreamble v vec else .launch v vec) s = .next t ∧ t.ack = ⟨true, 0⟩ ∧
        (pt t p).launchAt = s.now ∧ ((pt t p).running = true → (pt t p).gateOpen = pre) ∧
        (∀ c i, (coresOf s p)[i]? = some c → (cr t c).rank = BitVec.ofNat 6 i ∧ (cr t c).h = false ∧ (cr t c).flags = 0 ∧
          (cr t c).dict = (cr s c).dict ∧ (cr t c).code = (cr s c).code ∧ (cr t c).wslice = (cr s c).wslice ∧
          (vecRun vec i = false → (cr t c).running = false ∧ (cr t c).regs = Regs.reset) ∧
          (vecRun vec i = true → (cr t c).running = true ∧ (cr t c).pc.toNat = (vec.getD i 0).toNat % 2 ^ 24 ∧
            (cr t c).rec_ = ((vf s v).rootbase.toNat + 64 * i) % 2 ^ 52 ∧
            ∃ argp, (cr t c).regs = { Regs.reset with s := Regs.reset.s.set 1 ⟨argp, true⟩ })) ∧
        (∀ c, inMask (pt s p).mask c = false → cr t c = cr s c)) ∧
    (∀ (nonce : BitVec 256) (a : GAddr), (pt s p).attest = none → a.toNat % 64 ≠ 0 → exec (.attest v nonce a) s = .next { s with ack := ⟨false, 0⟩ }) ∧
    (∀ (nonce : BitVec 256) (a : GAddr) (b : List Byte) (l : List (Nat × Nat)), (pt s p).attest = none → a.toNat % 64 = 0 → b = attestBody s v p nonce →
      vaMap s p true a.toNat (b.length + 7856) = .ok l →
      ∃ t ws, exec (.attest v nonce a) s = .next t ∧ ws = spanWrites l (b ++ fixLen 7856 (Config.attSign b)) ∧
        t = { s with
          pubs := s.pubs ++ [⟨.host 0, BitVec.allOnes 64, agentMask (.host 0) s.pubs 1, ws⟩], mem := s.mem.wrPairs ws, badG := healG ws s.badG
          nextId := t.nextId, ackWait := t.ackWait, sent := t.sent, outSeq := t.outSeq, ack := ⟨true, 0⟩ })

/-- R105, R108, R113, R114, R295, R308: a host spawn or a restore joins the end of the partition's spawns, which Delta takes in their
order, answered at once where its record can be read and later where its page is missing, and is refused when the partition does
not run, the record is misaligned or its queue is being torn down; tearing down a queue with no task and no command raises its
event at once; a page reply takes its request off, lets what waited walk again, or fails it, and then the commands of the window
that wait are tried again. When such an event takes its turn is the model's agenda (log entry 2). -/
def Obligations.SpawnsTeardownsAndPageReplies : Prop :=
  ∀ (s : State) (v : VfId) (p : PartId), winOpen s = true → (vf s v).bound = some p →
    (∀ (a : GAddr) (again : Bool),
      let i := if again then Instr.restore v a else .hostSpawn v a
      (∀ u, (pt s p).running = true → a.toNat % 64 = 0 → packetTorn s p a.toNat = false →
        u = (if (recWord s p a.toNat 0x18).isSome
          then { s with ack := ⟨true, 0⟩, parts := s.parts.set p { pt s p with spawns := (pt s p).spawns ++ [⟨a.toNat, none, again, false, none⟩] } }
          else { s with parts := s.parts.set p { pt s p with spawns := (pt s p).spawns ++ [⟨a.toNat, none, again, true, none⟩] } }) →
        exec i s = .next (drainSpawns p ((pt s p).spawns.length + 1) u) ∧
        (∀ sp r x y, (pt s p).spawns = sp :: r → sp.wait = some (some x, y) → exec i s = .next u)) ∧
      ((pt s p).running = false ∨ a.toNat % 64 ≠ 0 ∨ packetTorn s p a.toNat = true → exec i s = .next { s with ack := ⟨false, 0⟩ })) ∧
    (∀ q : BitVec 6, (queueOf s p q).valid = false → exec (.queueTeardown v q) s = .next { s with ack := ⟨true, 0⟩ }) ∧
    (∀ q : BitVec 6, (queueOf s p q).valid = true → (∀ x ∈ (pt s p).tasks, x.queue ≠ q) →
      (∀ c, inMask (pt s p).mask c = true → (cr s c).running = true → queueOfCore s p c ≠ q) →
      ∃ t, exec (.queueTeardown v q) s = .next t ∧ t.ack = ⟨true, 0⟩ ∧ Event.teardown p q ∈ t.events ∧ (queueOf t p q).valid = false ∧
        (queueOf t p q).tearing = false ∧ t.mem = s.mem ∧ t.pubs = s.pubs) ∧
    (∀ (x : W64), (vf s v).reqs.find? (fun r => r.posted && r.num == BitVec.ofNat 16 x.toNat) = none →
      exec (.prqreply v x) s = .next { s with ack := ⟨false, 0⟩ }) ∧
    (∀ (x : W64) (r : PageReq), (vf s v).reqs.find? (fun r => r.posted && r.num == BitVec.ofNat 16 x.toNat) = some r → x.toNat / 2 ^ 17 = 0 →
      (pt s p).spawns = [] → (∀ y ∈ (pt s p).tasks, y.word ≠ some r.tag) → (pt s p).late = [] → (pt s p).launch = none → (pt s p).attest = none →
      (∀ c g n, inMask (pt s p).mask c = true → (cr s c).wait ≠ .bar g n) → x.getLsbD 16 = true →
      ∃ t, exec (.prqreply v x) s = .next t ∧ t.ack = ⟨true, 0⟩ ∧
        t = { s with cores := t.cores, vfs := t.vfs, cmds := t.cmds, ack := t.ack } ∧
        vf t v = { vf s v with reqs := (vf s v).reqs.filter (fun q => q.tag ≠ r.tag) } ∧
        (∀ c, inMask (pt s p).mask c = true →
          (∀ l ∈ ((cr t c).pend.flatMap (fun q => q.lanes)) ++ ((cr t c).posts.flatMap (fun o => o.lanes)), l.st.waitsTag r.tag = false) ∧
          (∀ a ∈ (cr t c).asks, a.1 = r.ipa / 65536 → a.2 = true)) ∧
        (∀ c, inMask (pt s p).mask c = false → cr t c = cr s c)) ∧
    (∀ (x : W64) (r : PageReq), (vf s v).reqs.find? (fun r => r.posted && r.num == BitVec.ofNat 16 x.toNat) = some r → x.toNat / 2 ^ 17 = 0 →
      ∃ u, exec (.prqreply v x) s = .next (windowAgain v u) ∧ u.ack = ⟨true, 0⟩) ∧
    ((pt s p).launch = none → (pt s p).attest = none → windowAgain v s = s)

/-- R33, R202, R207, R211, R212, R250, R91, R245: a result that is due lands in its registers and leaves the list: a computed one as
it was computed, a load with the bytes that its lanes hold, an AMO with the old word after it has stored the new one in memory, a
row with its bytes, a tap with its value, a JOIN with the member index or a negative code; a translated lane takes its bytes then,
and one that is not translated keeps the result in flight. R213, R252, R266, R236, R294, R200, R223, R314: a posted RADD changes
its element in memory in one act and ORs its flags into the VF's Rill flags; a translated sample joins the intake that is open at
its channel, and one whose region is released sets DROP; a page miss is posted as one entry with a tag that no outstanding request
carries; a failed lane, or acknowledgements that do not come in LINKTMO.ACK, trap the core before its next unit, or are held in
handler mode. When such an event takes its turn is the model's agenda (log entry 2). -/
def Obligations.ResultsLandAndPostsAct : Prop :=
  (∀ (s : State) (c : CoreId) (n : Nat) (q : Pend), (cr s c).pend[n]? = some q → q.due ≤ s.now → s.fatal = false → s.dead = false →
    let off := fun (k : Core) => { k with pend := k.pend.eraseIdx n }
    let lands := fun (f : Core → Core) => exec (.resultLands c n) s = .next { s with cores := s.cores.set c (f (off (cr s c))) }
    (∀ d, q.kind = .calc → q.dst = [.s d] → lands (fun k => k.setS d ⟨q.val.extractLsb' 0 64, true⟩)) ∧
    (∀ d, q.kind = .calc → q.dst = [.v d] → lands (fun k => k.setV d ⟨q.val.extractLsb' 0 2048, (rdV (cr s c).regs d).tag, true⟩)) ∧
    (∀ d sg tag l bs, q.kind = .load true sg tag → q.dst = [.s d] → q.lanes = [l] → l.data = some bs → 1 ≤ l.len → l.len ≤ 8 →
      lands (fun k => k.setS d ⟨if sg then (BitVec.ofNat (8 * l.len) (ofBytes bs)).signExtend 64 else (BitVec.ofNat (8 * l.len) (ofBytes bs)).zeroExtend 64, true⟩)) ∧
    (∀ d tag, q.kind = .load false false tag → q.dst = [.v d] → (∀ l ∈ q.lanes, l.data.isSome = true) → (q.lanes.map (fun l => l.i)).Nodup →
      (∀ l ∈ q.lanes, l.i < 64) →
      ∃ x, lands (fun k => k.setV d ⟨x, (rdV (cr s c).regs d).tag, true⟩) ∧
        (∀ l bs, l ∈ q.lanes → l.data = some bs → laneOf x l.i = BitVec.ofNat 32 (ofBytes bs)) ∧
        (∀ i, i < 64 → (∀ l ∈ q.lanes, l.i ≠ i) → laneOf x i = laneOf (q.val.extractLsb' 0 2048) i)) ∧
    (∀ d sg tag l loc, q.kind = .load true sg tag → q.dst = [.s d] → q.lanes = [l] → l.data = none → l.st = .ready loc →
      loadWaits (cr s c) q.seq l = false → badColumn s loc l.len = none → 1 ≤ l.len → l.len ≤ 8 →
      let bs := loadBytes s c q.seq l.va loc l.len
      lands (fun k => k.setS d ⟨if sg then (BitVec.ofNat (8 * l.len) (ofBytes bs)).signExtend 64 else (BitVec.ofNat (8 * l.len) (ofBytes bs)).zeroExtend 64, true⟩)) ∧
    (∀ sc sg tag, q.kind = .load sc sg tag → (∃ l ∈ q.lanes, l.data = none ∧ l.isReady = false) → ∃ t ls, exec (.resultLands c n) s = .next t ∧
      (cr t c).pend[n]? = some { q with lanes := ls } ∧ ls.length = q.lanes.length ∧ (cr t c).regs = (cr s c).regs ∧
      (∀ b, b ≠ c → cr t b = cr s b)) ∧
    (∀ fn wide v e d l loc s1 x, q.kind = .amo fn wide v e → q.dst = [.s d] → q.lanes = [l] → l.st = .ready loc →
      earlierHit (cr s c) q.seq [l] = false → s1 = flushOwn s c q.seq loc l.len → badColumn s1 loc l.len = none →
      let w := if wide then 8 else 4
      x = s1.mem.rdN loc w →
      let y := amoNew fn.toNat (8 * w) x (v.toNat % 2 ^ (8 * w)) (e.toNat % 2 ^ (8 * w))
      ∃ t, exec (.resultLands c n) s = .next t ∧ t.mem.rdN loc w = y % 256 ^ w ∧
        (∀ b, b < loc ∨ loc + w ≤ b → t.mem.rd b = s1.mem.rd b) ∧
        (∃ p, t.pubs = s1.pubs ++ [p] ∧ p.agent = .core c) ∧
        (cr t c).pend = (cr s c).pend.eraseIdx n ∧ (cr t c).regs = ((cr s c).setS d ⟨BitVec.ofNat 64 x, true⟩).regs ∧
        (∀ b, b ≠ c → cr t b = cr s b)) ∧
    (∀ len d l loc s1, q.kind = .rowld len → q.dst = [.v d] → q.lanes = [l] → l.st = .ready loc → earlierHit (cr s c) q.seq [l] = false →
      s1 = flushOwn s c q.seq loc l.len → badColumn s1 loc l.len = none →
      exec (.resultLands c n) s = .next { s1 with
        cores := s1.cores.set c ((off (cr s1 c)).setV d ⟨BitVec.ofNat 2048 (ofBytes (s1.mem.rdBytes loc l.len)), (rdV (cr s1 c).regs d).tag, true⟩) }) ∧
    (∀ tap vec region mem r, q.kind = .tap 0 tap vec region mem → region ≠ 0 → q.lanes.all Lane.isReady = true → earlierHit (cr s c) q.seq q.lanes = false →
      badLane s q.lanes = none → regionOf s region = some r → strayLane r q.lanes = none → stoppedLane r q.lanes = none →
      let x := (tapOf r 0 tap vec (lanesMembs r q.lanes)).1
      (∀ d, q.dst = [.s d] → lands (fun k => k.setS d ⟨BitVec.ofNat 64 x, true⟩)) ∧
      (∀ d, q.dst = [.v d] → lands (fun k => k.setV d ⟨BitVec.ofNat 2048 x, (rdV (cr s c).regs d).tag, true⟩))) ∧
    (∀ a d l loc, q.kind = .join a → q.dst = [.s d] → q.lanes = [l] → l.st = .ready loc → earlierHit (cr s c) q.seq [l] = false →
      badColumn s loc l.len = none →
      let w := s.mem.rdN loc 8
      let members := (upto 16).filter (fun i => w.testBit i)
      let cap := s.mem.rdN (loc + 8) 8 / 2 % 16 + 1
      let answers := fun (x : Int) => lands (fun k => k.setS d ⟨BitVec.ofInt 64 x, true⟩)
      ((cr s c).group ≠ none → answers (-2)) ∧
      ((cr s c).group = none → grpReserved s loc = true → answers (-3)) ∧
      ((cr s c).group = none → grpReserved s loc = false → cap ≤ members.length → answers (-1)) ∧
      ((cr s c).group = none → grpReserved s loc = false → members.length < cap → ∃ t i, exec (.resultLands c n) s = .next t ∧
        i < 16 ∧ w.testBit i = false ∧ (∀ j, j < i → w.testBit j = true) ∧ (cr t c).group = some a ∧ (cr t c).member.toNat = i ∧
        (cr t c).regs = ((cr s c).setS d ⟨BitVec.ofNat 64 i, true⟩).regs ∧ (cr t c).pend = (cr s c).pend.eraseIdx n ∧
        (∀ b, b ≠ c → cr t b = cr s b)))) ∧
  (∀ (s : State) (c : CoreId), s.fatal = false → s.dead = false →
    (∀ n o (fmt : Tag) (op : BitVec 3) (x : W64) l loc s1, (cr s c).posts[n]? = some o → o.kind = .radd fmt op x → o.lanes = [l] → l.st = .ready loc →
      earlierHit (cr s c) o.seq [l] = false → s1 = flushOwn s c o.seq loc l.len → badColumn s1 loc l.len = none →
      let w := tagWidth fmt.toNat / 8
      let r := rillElem fmt.toNat op.toNat (s1.mem.rdN loc w) (x.toNat % 2 ^ (8 * w))
      ∃ t, exec (.rillColumnCommand c n) s = .next t ∧ t.mem.rdN loc w = r.code % 256 ^ w ∧
        (∀ b, b < loc ∨ loc + w ≤ b → t.mem.rd b = s1.mem.rd b) ∧ (∃ p, t.pubs = s1.pubs ++ [p] ∧ p.agent = .core c) ∧
        (cr t c).posts = (cr s c).posts.eraseIdx n ∧ (cr t c).regs = (cr s c).regs ∧ (∀ b, b ≠ c → cr t b = cr s b) ∧
        (∀ v, vfOf s c = some v → (vf t v).rillflags = (vf s v).rillflags ||| rillBits r ||| (if mixedOp s1 c n fmt op loc then 8 else 0))) ∧
    (∀ n o region mem x l loc r, (cr s c).posts[n]? = some o → o.kind = .psmp false region mem x → o.lanes = [l] → l.st = .ready loc → l.i = 0 →
      earlierHit (cr s c) o.seq [l] = false → badColumn s loc l.len = none → regionOf s region = some r → (panDesc r.desc).row = false →
      r.mirror = false →
      let y := sampleCode (panDesc r.desc) (x.toNat % 2 ^ 32)
      let intake := if r.passed.contains (chanOf r mem) then r.n + 2 else r.n + 1
      let join := fun (e : Elem) => { e with slots := slotAdd intake y.1 e.slots, flags := e.flags ||| y.2 }
      exec (.samplePerformed c n) s = .next { s with
        regions := s.regions.map (fun r => if r.id = region then
          { r with membs := r.membs.modify mem (fun k => { k with els := k.els.modify 0 join }) } else r)
        cores := s.cores.set c { cr s c with posts := (cr s c).posts.eraseIdx n } }) ∧
    (∀ n o region mem x l loc, (cr s c).posts[n]? = some o → o.kind = .psmp false region mem x → o.lanes = [l] → l.st = .ready loc →
      earlierHit (cr s c) o.seq [l] = false → regionOf s region = none →
      ∃ t, exec (.samplePerformed c n) s = .next t ∧ t = { s with vfs := t.vfs, cores := s.cores.set c { cr s c with posts := (cr s c).posts.eraseIdx n } } ∧
        (∀ v, vfOf s c = some v → (vf t v).rillflags = (vf s v).rillflags ||| 16)) ∧
    (∀ f fs, (cr s c).failed = f :: fs → (cr s c).running = true → s.iss.act = false → (cr s c).pendTrap = none → (cr s c).wait = .none →
      ((cr s c).h = true → exec (.deferredPageTrap c) s = .next s) ∧
      ((cr s c).h = false → (cr s c).trapEntry.isSome = true → trapReady (cr s c) = true → (cr s c).resume = false → follows (cr s c) = none →
        ∃ t, exec (.deferredPageTrap c) s = .next t ∧ Entered s t c f (cr s c).pc 0 (leftAt (cr s c)) ∧
          (cr t c).failed = fs.filter (fun x => x.cause == cLinkTimeout) ∧ t = { s with cores := s.cores.set c (cr t c) })) ∧
    (∀ a ids b, (cr s c).wait = .phase a ids b → (cr s c).running = true → acked s ids = false → s.iss.act = false →
      (∀ x ∈ (cr s c).failed, x.cause ≠ cLinkTimeout) →
      (s.us < (cr s c).phaseAt + linkAck s ((partOf s c).getD 0) → exec (.linkTimeout c) s = .next s) ∧
      ((cr s c).phaseAt + linkAck s ((partOf s c).getD 0) ≤ s.us →
      ((cr s c).h = true → exec (.linkTimeout c) s = .next { s with
        cores := s.cores.set c { cr s c with failed := (cr s c).failed ++ [⟨cLinkTimeout, 0, none, 0, none, none⟩] } }) ∧
      ((cr s c).h = false → (cr s c).trapEntry.isSome = true → trapReady (cr s c) = true → (cr s c).resume = false → follows (cr s c) = none →
        ∃ t, exec (.linkTimeout c) s = .next t ∧ Entered s t c ⟨cLinkTimeout, 0, none, 0, none, none⟩ (cr s c).pc 0 (leftAt (cr s c)) ∧
          (cr t c).kept = .phase a ids b ∧ t = { s with cores := s.cores.set c (cr t c) }))) ∧
    (∀ (v : VfId) (r : PageReq), r.level < 4 → (vf s v).reqs.find? (fun r => !r.posted) = some r → (vf s v).reqs.countP (fun r => r.posted) < 4096 →
      ((vf s v).prqprod - (vf s v).prqcons).toNat < 2 ^ ((vf s v).prqbase.toNat % 16 + 4) →
      let size := 2 ^ ((vf s v).prqbase.toNat % 16 + 4)
      let a := 2 ^ 63 + 2 ^ 52 * ((vf s v).prqbase.toNat / 2 ^ 48) + ((vf s v).prqbase.toNat / 2 ^ 12 % 2 ^ 36 * 4096 + 32 * ((vf s v).prqprod.toNat % size))
      ∃ (t : State) (n : BitVec 16), exec (.pageRequestPost v) s = .next t ∧ t.events = s.events ++ [.prq v] ∧ (vf t v).prqprod = (vf s v).prqprod + 1 ∧
        (∃ p, t.pubs = s.pubs ++ [p]) ∧
        (∀ q ∈ (vf s v).reqs, q.posted = true → q.num ≠ n) ∧
        t.mem.rdN a 8 = n.toNat + r.wr.toNat * 2 ^ 16 + r.tbl.toNat * 2 ^ 17 + r.level * 2 ^ 18 + v.val * 2 ^ 20 + r.core.val * 2 ^ 32 ∧
        t.mem.rdN (a + 8) 8 = r.ipa % 2 ^ 64 ∧ t.mem.rdN (a + 16) 8 = r.va % 2 ^ 64 ∧ t.mem.rdN (a + 24) 8 = 0 ∧
        (∃ i : Nat, (vf s v).reqs[i]? = some r ∧ (vf t v).reqs[i]? = some { r with posted := true, num := n }) ∧
        t = { s with vfs := s.vfs.set v (vf t v), mem := t.mem, pubs := t.pubs, events := t.events }))

/-- R33, R205, R255, R257, R270 to R277, R359: a read range retires with its bytes taken; a command whose work is done publishes its G
writes as one publication and ends its ticket, DONE or with its failure; a message entry in its turn lands at its place in L; a
RECV without a backup copy that waits too long fails where it stands; a SEND whose peer stays silent fails; a participant performs
its hop on a packet and sends it on; a late packet's replacement is taken and counted, and the late one's backup, when asked,
makes the packet from its copy. When such an event takes its turn is the model's agenda (log entry 2). -/
def Obligations.EngineCommandsComplete : Prop :=
  ∀ (s : State) (c : CoreId) (id : Nat) (k : Cmd), cmdOf s c id = some k → s.fatal = false → s.dead = false →
    (∀ (f : Option (BitVec 8 × Bool × Bool × Nat)) (m : Cmd), s.cmds.find? (fun x => x.id == id) = some m →
      f = none ∨ ticketNames s m.part id = true →
      ∃ u, endCmd id f s = settle m.part u ∧ u.cmds = s.cmds.filter (fun x => x.id ≠ id) ∧ u.mem = s.mem ∧ u.pubs = s.pubs ∧
        (∀ d, (cr u d).j = if inMask (pt s m.part).mask d = true then (cr s d).j.map (Ticket.ended id f) else (cr s d).j) ∧
        ∀ d, (cr u d).ranges = if d = m.core then (cr s d).ranges.filter (fun r => r.id ≠ id) else (cr s d).ranges) ∧
    (∀ (n : Nat) (r : Range), (cr s c).ranges[n]? = some r → r.id = 0 →
      exec (.rangeRetire c n) s = .next { s with cores := s.cores.set c { cr s c with ranges := (cr s c).ranges.eraseIdx n } }) ∧
    (∀ (n : Nat) (r : Range), (cr s c).ranges[n]? = some r → r.id = id → r.id ≠ 0 → r.wr = false → earlierRange s k = false →
      (badL (cr s c) r.lo (r.hi + 1 - r.lo)).isSome = false →
      exec (.rangeRetire c n) s = .next { s with
        cores := s.cores.set c { cr s c with ranges := (cr s c).ranges.eraseIdx n }
        cmds := s.cmds.map (fun x => if x.id = k.id then
          { x with cap := x.cap ++ (span r.lo (r.hi + 1 - r.lo)).map (fun a => (a, (cr s c).l.rd a)) } else x) }) ∧
    (k.done = true → k.op ≠ opTick → k.op ≠ opSpawn → k.op ≠ opPancfg → acked s k.acks = true → k.cfl = none →
      let goesOn := fun (u : State) => ((upto 64).map (BitVec.ofNat 6)).foldl (fun s q => ckptRest k.part q s) (endCmd k.id (k.fail.map Prod.snd) u)
      (k.out = [] → exec (.engineCommandComplete c id) s = .next (goesOn s)) ∧
      (k.out ≠ [] → exec (.engineCommandComplete c id) s = .next (goesOn { s with
        pubs := s.pubs ++ [⟨.engine k.core k.id, BitVec.allOnes 64, k.incl ||| agentMask (.engine k.core k.id) s.pubs 1, k.out⟩]
        mem := s.mem.wrPairs k.out, badG := healG k.out s.badG }))) ∧
    (∀ e : MsgEntry, headRecv s (msgPeer k.block) (msgFlow k.block) = some k → k.op = opRecv → earlierRange s k = false →
      (let q := rxOf s (msgPeer k.block) (msgFlow k.block)
       q.entries = [] ∧ q.early = [] ∧ e.msg = q.nextMsg ∧ e.idx = q.nextIdx ∧ q.dropUpTo ≤ e.msg ∧ e.idx + 1 < min e.total (msgN k.block)) →
      ∃ t, exec (.recvEntryArrival (msgPeer k.block) (msgFlow k.block) e) s = .next t ∧
        (cr t k.core).l.rdN (msgL k.block + 384 * e.idx) 384 = e.data.toNat ∧
        (∀ b, b < msgL k.block + 384 * e.idx ∨ msgL k.block + 384 * e.idx + 384 ≤ b → (cr t k.core).l.rd b = (cr s k.core).l.rd b) ∧
        (∀ d, d ≠ k.core → cr t d = cr s d) ∧
        t.cmds = s.cmds.map (fun x => if x.id = k.id then { x with prog := e.idx + 1, since := s.us } else x) ∧
        t = { s with cores := t.cores, cmds := t.cmds, rx := t.rx }) ∧
    (k.op = opRecv → k.done = false → linkRecv s k.part ≠ 0 → k.since + linkRecv s k.part < s.us →
      (headRecv s (msgPeer k.block) (msgFlow k.block)).map Cmd.id = some k.id → earlierRange s k = false →
      (rxOf s (msgPeer k.block) (msgFlow k.block)).entries = [] → msgBk k.block = 0 →
      ∃ t, exec (.recvTimeout c id) s = .next t ∧
        t.cmds = s.cmds.map (fun x => if x.id = k.id then { x with done := true, fail := some (x.prog, cLinkTimeout, false, false, 0) } else x) ∧
        (∀ d, cr t d = if d = k.core then { cr s d with ranges := (cr s d).ranges.filter (fun r => r.id ≠ k.id) } else cr s d) ∧
        (rxOf t (msgPeer k.block) (msgFlow k.block)).dropUpTo = (rxOf s (msgPeer k.block) (msgFlow k.block)).dropUpTo + 1 ∧
        t = { s with cores := t.cores, cmds := t.cmds, rx := t.rx, sent := t.sent }) ∧
    (k.op = opSend → k.done = true → acked s k.acks = false → k.since + linkAck s k.part ≤ s.us →
      exec (.sendAckTimeout c id) s =
        .next (endCmd id ((firstOf k.fail (some (msgN k.block, cLinkTimeout, false, false, 0))).map Prod.snd) { s with ackWait := s.ackWait.filter (fun a => !k.acks.contains a.id) })) ∧
    (∀ (x : CflSt) (p : CflPkt), s.cmds.find? (fun x => x.id == id) = some k → isCfl k.op = true → k.done = false → k.prog = 1 → k.cfl = some x →
      cflFmt k.block ≠ 1 → p.chunk < x.size → x.inbox = [] → cflStarts k x = [] →
      (∀ own, k.op = opAr ∨ k.op = opRs → p.final = false → p.acc ≠ [] → p.acc.length = chunkN k.block x.size p.chunk → p.hop + 2 < x.size →
        p.hop + 1 = x.hopOf p.chunk → x.got p.chunk p.hop = false → cflOwn s k x p.chunk = .ok own →
        ∃ t q, exec (.cflHop c id p) s = .next t ∧
          t.sent = s.sent ++ [.cfl (BitVec.ofNat 16 (x.entry (x.pos + 1)).1) (x.entry (x.pos + 1)).2.1 q] ∧
          q.chunk = p.chunk ∧ q.hop = p.hop + 1 ∧ q.final = false ∧ q.scales = [] ∧ q.rescaled = p.rescaled ∧
          (∀ i a o, p.acc[i]? = some a → own[i]? = some o →
            q.acc[i]? = some (BitVec.ofNat 32 (cflElem k.block (p.hop + 1) (chunkLo k.block x.size p.chunk + i) a.toNat o.toNat).1)) ∧
          t = { s with sent := t.sent, cmds := t.cmds }) ∧
      (p.final = true → k.op ≠ opRs → p.acc ≠ [] → p.acc.length = chunkN k.block x.size p.chunk → p.hop < x.size →
        x.isDone p.chunk = false → (p.chunk, x.size) ∈ x.asked → earlierRange s k = false →
        ∃ t m y, exec (.cflLateReplacement c id p) s = .next t ∧ cmdOf t c id = some m ∧ m.cfl = some y ∧ y.late = x.late + 1 ∧
          y.done = x.done ++ [(p.chunk, p.acc, p.scales)] ∧ y.asked = x.asked.filter (fun a => a.1 ≠ p.chunk) ∧
          t = { s with sent := t.sent, cmds := t.cmds }) ∧
      (∀ copy, p.acc = [] → p.hop = 0 → k.op = opAr ∨ k.op = opRs → cflBacks k x (cflFrom x p.chunk 0) = true → cflCopy s k x p.chunk = .ok copy →
        earlierRange s k = false →
        let d := x.entry (cflFrom x p.chunk 0 + 1)
        exec (.cflLateReplacement c id p) s = .next { s with
          sent := s.sent ++ [.cfl (BitVec.ofNat 16 d.1) d.2.1 ⟨p.chunk, 0, false, copy, [], false⟩] }))

/-- R225, R227, R236, R237: what another module forwards is published and acknowledged; a write of a flow is applied in its turn, held
while it comes early and discarded when it has been applied or its lane is not its address's; and a close that reaches a channel
advances the members there that are due, with the others only noting it, and completes its TICK once it has reached every channel.
When such an event takes its turn is the model's agenda (log entry 2). -/
def Obligations.LinkArrivalsAndCloses : Prop :=
  ∀ s : State, s.fatal = false → s.dead = false →
    (∀ (m : BitVec 16) (dpa : BitVec 46) (data : List Byte), (∀ b, dpa.toNat ≤ b → b < dpa.toNat + data.length → b / 32 ∉ s.badG) →
      ∃ t more, exec (.mirrorWriteArrival (.write m dpa data)) s = .next t ∧
        t.mem = s.mem.wrPairs (placeL dpa.toNat data) ∧
        (∃ d, t.pubs = s.pubs ++ [⟨.host 0, d, agentMask (.host 0) s.pubs 1, placeL dpa.toNat data⟩]) ∧
        t.sent = s.sent ++ more ++ [.ackMirror m (.write m dpa data)] ∧
        t = { s with copies := t.copies, badG := t.badG, mem := t.mem, pubs := t.pubs, sent := t.sent, nextId := t.nextId
                     ackWait := t.ackWait, outSeq := t.outSeq }) ∧
    (∀ (f : FlowId) (seq : BitVec 16) (dpa : BitVec 46) (data : List Byte),
      let x := flowOf s f
      laneHash dpa.toNat = f.lane →
      (seq = x.next → x.early = [] → (∀ b, dpa.toNat ≤ b → b < dpa.toNat + data.length → dpaOk s b = true ∧ regionAt s b = none ∧ b / 32 ∉ s.badG) →
        ∃ t more, exec (.flowFlitArrival f seq (.write dpa data)) s = .next t ∧
          t.mem = s.mem.wrPairs (placeL dpa.toNat data) ∧ (flowOf t f).next = x.next + 1 ∧ (flowOf t f).early = [] ∧
          t.sent = s.sent ++ more ++ [.ackWrite f seq] ∧
          (∃ d, t.pubs = s.pubs ++ [⟨.host (1 + f.src), d, agentMask (.host (1 + f.src)) s.pubs 1, placeL dpa.toNat data⟩]) ∧
          t = { s with flows := t.flows, badG := t.badG, mem := t.mem, pubs := t.pubs, sent := t.sent, nextId := t.nextId
                       ackWait := t.ackWait, outSeq := t.outSeq }) ∧
      (seq ≠ x.next → (seq - x.next).toNat < 0x8000 → x.early = [] →
        ∃ t, exec (.flowFlitArrival f seq (.write dpa data)) s = .next t ∧ t = { s with flows := t.flows } ∧
          flowOf t f = ⟨f, x.next, [(seq, .write dpa data)]⟩) ∧
      (0x8000 ≤ (seq - x.next).toNat → exec (.flowFlitArrival f seq (.write dpa data)) s = .next s)) ∧
    (∀ (f : FlowId) (seq : BitVec 16) (dpa : BitVec 46) (data : List Byte), laneHash dpa.toNat ≠ f.lane →
      exec (.flowFlitArrival f seq (.write dpa data)) s = .next s) ∧
    (∀ (r : Region) (ch : Nat), regionOf s r.id = some r → r.mirror = false → r.ticks ≠ [] → ch ∉ r.passed → ch ∈ chansOf r →
      (∀ m, m < r.membs.length → membBadAt s r m = none) →
      (∀ o, o ∈ chansOf r → o ≠ ch → o ∉ r.passed →
        ∃ t y, exec (.tickCloseArrival r.id ch) s = .next t ∧ regionOf t r.id = some y ∧ y.passed = r.passed ++ [ch] ∧ y.n = r.n ∧
          y.membs.length = r.membs.length ∧
          (∀ m, m < r.membs.length → membOf y m =
            if chanOf r m = ch then
              (if (membOf r m).bad = true ∨ dueOn (panDesc r.desc) (r.n + 1) m (membOf r m) = false then { membOf r m with n := r.n + 1 }
               else advMemb (panDesc r.desc) r.table (r.n + 1) m (membOf r m))
            else membOf r m) ∧
          t = { s with regions := t.regions, badG := t.badG, mem := t.mem, pubs := t.pubs }) ∧
      (∀ k ks, r.ticks = k :: ks → (∀ o, o ∈ chansOf r → o ≠ ch → o ∈ r.passed) →
        ∃ w y, exec (.tickCloseArrival r.id ch) s = .next (endCmd k.2 none w) ∧ regionOf w r.id = some y ∧
          y.n = r.n + 1 ∧ y.passed = [] ∧ y.ticks = ks ∧
          w = { s with regions := w.regions, badG := w.badG, mem := w.mem, pubs := w.pubs }))

/-- R19, R24, R25, R29, R31, R34, R36, R39, R54, R79: a core that may issue takes the results that are due and opens its next unit
with the registers and the L that it then has, at its first slot, or traps before any slot commits where the unit does not decode
or two of its slots collide; a reserved word in a live slot traps; a bundle that has committed its slots counts once and is
followed by its branch's target, the next unit in order, or its own next execution; and a prefix gives the unit after it its
count. When such an event takes its turn is the model's agenda (log entry 2). -/
def Obligations.BundlesIssueAndEnd : Prop :=
  ∀ (s : State) (c : CoreId), s.fatal = false → s.dead = false →
    (s.iss.act = false → (cr s c).running = true → (cr s c).badCore = false → (cr s c).pendTrap = none → (cr s c).wait = .none →
      mayIssue s c = true → needsPrefix (cr s c) = false → asksPage (cr s c) = false → (cr s c).resume = false →
      let r := landDue c s
      ((∃ g p, cr r c = { cr s c with regs := g, pend := p }) ∧ (∀ d, d ≠ c → cr r d = cr s d) ∧ r = { s with cores := r.cores }) ∧
      ((∀ q ∈ (cr s c).pend, q.kind = .calc → s.now < q.due) → r = s) ∧
      (∀ u b len, nextUnitOf (cr s c) = some (u, b, len) → collides b = false → waitsSource (openIssue c u b len r) = false →
        requestsFull (openIssue c u b len r) = false → tryE 11 (openIssue c u b len r) = .go →
        ∃ w, exec (.bundleIssue c) s = .next w ∧ w.iss.act = true ∧ w.iss.core = c ∧ w.iss.unit = u ∧ w.iss.len = len ∧ w.iss.slot = 0 ∧
          w.iss.t = s.now ∧ w.iss.regs = (cr r c).regs ∧ w.iss.l = (cr s c).l ∧
          (follows (cr s c) = none → (cr s c).further = false → w.iss.bundle = b ∧ w.iss.leaf = leafOf (cr r c).regs b) ∧
          cr w c = { cr r c with left := leftAt (cr s c) } ∧
          (∀ d, d ≠ c → cr w d = cr s d) ∧ w = { s with cores := w.cores, iss := w.iss }) ∧
      (follows (cr s c) = none → (cr s c).h = false → (cr s c).trapEntry.isSome = true → trapReady (cr r c) = true →
        (nextUnitOf (cr s c) = none → ∃ t, exec (.bundleIssue c) s = .next t ∧
          Entered r t c ⟨cIllegalCode, 0, none, 0, none, none⟩ (cr s c).pc 0 (leftAt (cr s c))) ∧
        (∀ u b len, nextUnitOf (cr s c) = some (u, b, len) → collides b = true → ∃ t, exec (.bundleIssue c) s = .next t ∧
          Entered r t c ⟨cIllegalSchedule, 0, none, 0, none, none⟩ (cr s c).pc 0 (leftAt (cr s c))))) ∧
    (s.iss.act = true → s.iss.core = c → s.iss.slot < 10 → slotHolds s.iss.bundle s.iss.slot = .reserved →
      slotLive s.iss.bundle s.iss.slot s.iss.leaf.toNat = true →
      exec (.bundleIssue c) s = .next (takeTrap (trapPlain s cIllegalCode) s)) ∧
    (s.iss.act = true → s.iss.core = c → 10 ≤ s.iss.slot → s.iss.stop = .none → s.iss.fol = false → s.iss.resumed = false →
      s.iss.mates = [] → bundleSafe s.iss.bundle = false → (cr s c).resume = false →
      ∃ w, exec (.bundleIssue c) s = .next w ∧ w.iss = Issue.reset ∧ (∀ d, d ≠ c → cr w d = cr s d) ∧
        w = { s with cores := w.cores, iss := w.iss, rr := w.rr, runs := w.runs } ∧
        w.runs = countRun s.us c (queueOfCore s ((partOf s c).getD 0) c) s.runs ∧
        (cr w c).exec = min ((cr s c).exec + 1) (2 ^ 32 - 1) ∧ (cr w c).wait = .none ∧ (cr w c).busy = s.iss.t + 1 + s.iss.bubble ∧
        (cr w c).regs = { (cr s c).regs with age := (cr w c).regs.age } ∧ (cr w c).l = (cr s c).l ∧
        ((cr s c).left ≠ 0 → (cr w c).pc = s.iss.unit ∧ (cr w c).left = (cr s c).left - 1 ∧ (cr w c).further = true) ∧
        ((cr s c).left = 0 → (cr w c).left = 0 ∧ (cr w c).further = false ∧
          (∀ a, s.iss.redirected = true → s.iss.redirect = some a → (cr w c).pc = a) ∧
          (s.iss.redirected = false → (cr s c).nextUnit = none →
            (activeLoops (cr s c) = 0 → (cr w c).pc = s.iss.unit + BitVec.ofNat 24 s.iss.len) ∧
            (∀ l, activeLoops (cr s c) ≠ 0 → l = (cr s c).loops.getD (activeLoops (cr s c) - 1) Loop.reset →
              (loopLast (cr s c) l.end_ ≠ some s.iss.unit.toNat → (cr w c).pc = s.iss.unit + BitVec.ofNat 24 s.iss.len ∧
                (cr w c).loops = (cr s c).loops) ∧
              (loopLast (cr s c) l.end_ = some s.iss.unit.toNat → 1 < l.count.toNat →
                (cr w c).pc = BitVec.ofNat 24 (loopStart (cr s c).code l.end_) ∧
                (cr w c).loops = (cr s c).loops.setIfInBounds (activeLoops (cr s c) - 1) { l with count := l.count - 1 }))))) ∧
    (∀ n : BitVec 8, s.iss.act = false → prefixCore s n = some c → (nextUnitOf (cr s c)).isSome = true →
      exec (.repeat ⟨n⟩) s = .next { s with cores := s.cores.set c { cr s c with pfx := some n, left := n } })

/-- R106 to R108, R110, R111: an idle core takes Delta's next choice, the task's entry and its argument in s1, all other registers
reset; a spawn that has waited enters as READY when it has no predecessor, and a packet's is dropped once the kernel is over; and
a queue that has waited a quantum has every core asked to yield that has run as long at no higher priority, and no other. When
such an event takes its turn is the model's agenda (log entry 2). -/
def Obligations.DeltaServesQueues : Prop :=
  ∀ (s : State) (p : PartId), s.fatal = false → s.dead = false →
    (∀ (c : CoreId) (q : BitVec 6) (t : Task) (argp : Nat), partOf s c = some p → (pt s p).running = true →
      (idleCores s p).head? = some c → nextChoice s p = some (q, t) → t.gang = none →
      readTask s p t.rec_ = .start argp →
      ∃ u, exec (.taskPickup c) s = .next (askYield p (recPut p t.rec_ 0x18 24 4 2 u)) ∧
        (cr u c).running = true ∧ (cr u c).rec_ = t.rec_ ∧ (cr u c).pickedAt = s.now ∧ (cr u c).wait = .none ∧ (cr u c).h = false ∧
        (cr u c).regs = { Regs.reset with s := (cr u c).regs.s } ∧
        (∀ n, rdS (cr u c).regs n = if n = 1 then w64 argp else rdS Regs.reset n) ∧
        (cr u c).l = (cr s c).l ∧ (∀ d, d ≠ c → cr u d = cr s d) ∧
        (queueOf u p t.queue).ready = (queueOf s p t.queue).ready.filter (fun x => x.1 ≠ t.rec_) ∧
        u = { s with cores := u.cores, parts := u.parts }) ∧
    (∀ (sp : Spawn) (r : List Spawn), (pt s p).spawns = sp :: r →
      (∀ x y, sp.wait = some (some x, y) → exec (.heldSpawnEntry p) s = .next s) ∧
      (sp.wait = none → sp.cmd = none → (pt s p).running = false → r = [] → exec (.heldSpawnEntry p) s =
        .next { s with parts := s.parts.set p { pt s p with spawns := [] }, ack := if sp.owed then ⟨false, 0⟩ else s.ack }) ∧
      (∀ loc : Nat, sp.wait = none → sp.cmd = none → sp.owed = false → (pt s p).running = true → sp.restore = false → r = [] → dloc s p sp.rec_ false = .ok loc →
        badColumn s loc 64 = none → (pt s p).dl = none → (∀ t ∈ (pt s p).tasks, t.rec_ ≠ sp.rec_) →
        let q := BitVec.ofNat 6 (s.mem.rdN (loc + 0x18) 8 / 2 ^ 38)
        let pr := BitVec.ofNat 3 (s.mem.rdN (loc + 0x18) 8 / 2 ^ 35)
        (queueOf s p q).valid = true → (queueOf s p q).tearing = false → (queueOf s p q).prio = pr →
        s.mem.rdN (loc + 0x20) 8 % 2 ^ 52 = 0 → s.mem.rdN (loc + 0x30) 8 % 2 ^ 52 = 0 →
        ∃ u, exec (.heldSpawnEntry p) s = .next u ∧ (pt u p).spawns = [] ∧
          (pt u p).tasks = (pt s p).tasks ++ [⟨sp.rec_, stReady, q, pr, [], 0, [], 0, 0, 0, s.mem.rdN (loc + 0x28) 8 % 2 ^ 52, none, none, [], none⟩] ∧
          (queueOf u p q).ready = (queueOf s p q).ready ++ [(sp.rec_, s.now)] ∧
          ∀ c, cr u c = { cr s c with yieldReq := (cr u c).yieldReq })) ∧
    (let quant := (vf s (pt s p).vf).quant.toNat % 2 ^ 32
     ∃ t, exec (.quantumExpiry p) s = .next t ∧ t = { s with cores := t.cores } ∧
       ∀ c, ((inMask (pt s p).mask c = true ∧ (cr s c).running = true ∧ (cr s c).pickedAt + quant ≤ s.now ∧
           ∃ q, runPrio s p c ≤ (queueOf s p q).prio.toNat ∧ ∃ r ∈ (queueOf s p q).ready, r.2 + quant ≤ s.now) →
         cr t c = { cr s c with yieldReq := true }) ∧
         (¬ (inMask (pt s p).mask c = true ∧ (cr s c).running = true ∧ (cr s c).pickedAt + quant ≤ s.now ∧
           ∃ q, runPrio s p c ≤ (queueOf s p q).prio.toNat ∧ ∃ r ∈ (queueOf s p q).ready, r.2 + quant ≤ s.now) → cr t c = cr s c))

/-- R38 to R52: encoding and decoding agree. The word of every well-formed instruction, laid out from the encoding tables with every
operand at every value that they admit, decodes in the instruction's slot class to that instruction with that operand. -/
def Obligations.EncodedInstructionsDecode : Prop :=
  ∀ (i : Instr) (k : SlotClass) (w : Nat), i.wf = true → slotOf i = some k → encode i = some w → decodeClass k w = some i

/-- R39, R40 to R52: a word that decodes is an instruction of its slot class whose enumerated fields hold listed values, and it is
that instruction's one encoding: no bit of a word is ignored, and a word with any other value in a field or in a reserved bit is
refused. -/
def Obligations.ReservedWordsAreRefused : Prop :=
  ∀ (n w : Nat) (i : Instr), n < 10 → w < 2 ^ slotWidth n → decodeClass (slotClass n) w = some i →
    i.wf = true ∧ slotOf i = some (slotClass n) ∧ encode i = some w

/-- R19, R40 to R52: words written out from the encoding tables, at least one of each slot class, decode to the instructions that they
stand for, and the same words with a reserved bit set or in another class do not. -/
def Obligations.WordsOfTheTablesDecode : Prop :=
  decodeClass .a 0x0C61A001 = some (.addi ⟨6, 6, true, 1⟩) ∧
  decodeClass .a 0x28800006 = some (.prepLabel ⟨1, 6⟩) ∧
  decodeClass .l 0x18511003 = some (.ldl ⟨2, 5, false, 8, true, 3⟩) ∧
  decodeClass .l 0x2C693FFE = some (.stl ⟨3, 6, true, 9, true, 0xFFE⟩) ∧
  decodeClass .g 0x0E28C808 = some (.ldg ⟨3, false, 10, 12, true, 8⟩) ∧
  decodeClass .g 0x38C53234 = some (.amo ⟨1, true, 5, 12, true, 6, true⟩) ∧
  decodeClass .v 0x3C43048B1 = some (.vwacc ⟨1, 0, 12, 4, true, 5, true, 0, true⟩) ∧
  decodeClass .v 0x70C8C48B4 = some (.vmcmp ⟨3, 2, 3, 4, true, 5, true, 2⟩) ∧
  decodeClass .x 0x448714 = some (.xrot ⟨9, 3, true, 5⟩) ∧
  decodeClass .t 0x20212600 = some (.beat ⟨0, 0, 2, 1, false, false, true, 3⟩) ∧
  decodeClass .t 0x34931800 = some (.drain ⟨1, 9, 12, 6⟩) ∧
  decodeClass .e 0x71090000 = some (.pancfg ⟨2, 4, true⟩) ∧
  decodeClass .b 0x202040828800 = some (.tree ⟨0, 4, 2, 1, 1, 2, 1, 0, 0, 0⟩) ∧
  decodeClass .b 0x0A0E00000000 = some (.trap ⟨7⟩) ∧
  decodeClass .b 0x0C0000000000 = some .rte ∧
  decodeClass .c 0xF005 = some (.repeat ⟨5⟩) ∧
  decodeClass .b 0x0C0000000001 = none ∧ decodeClass .e 0x180D0001 = none ∧ decodeClass .c 0xF100 = none

/-- R19, R26, R29, R30: the next slot to commit is the first live one that is no no-op; where it holds an instruction, a step of the
machine is that instruction's meaning with the bundle at that slot, and after the last slot it is the core's own next event. A
halfword below 0x2000 is the unit of that dictionary index. Between bundles a step takes the turn at the head of the agenda, but
for a window's command whose node's earlier writes are not performed yet, or behind a launch or a report of its VF window that
waits for a page (log entry 106), and with none it takes the first event that is due, or lets a cycle pass (the model's own order,
log entries 1 to 3). -/
def Obligations.StepsRunTheDecodedInstruction : Prop :=
  ∀ s : State,
    (s.iss.act = true →
      (∀ n i, s.iss.slot ≤ n → n < 10 → slotLive s.iss.bundle n s.iss.leaf.toNat = true →
        slotWord s.iss.bundle n ≠ 0 → decodeClass (slotClass n) (slotWord s.iss.bundle n) = some i →
        (∀ m, s.iss.slot ≤ m → m < n → slotLive s.iss.bundle m s.iss.leaf.toNat = true → slotWord s.iss.bundle m = 0) →
        step s = exec i { s with iss := { s.iss with slot := n } }) ∧
      (s.iss.slot ≤ 10 → (∀ m, s.iss.slot ≤ m → m < 10 → slotLive s.iss.bundle m s.iss.leaf.toNat = true → slotWord s.iss.bundle m = 0) →
        step s = exec (.bundleIssue s.iss.core) { s with iss := { s.iss with slot := 10 } })) ∧
    (∀ (k : Core) (h : BitVec 16) (b : Bundle), k.follow = [] → k.code[k.pc.toNat]? = some h → h.toNat < 0x2000 → k.dict[h.toNat]? = some b →
      b.toNat / 2 ^ 46 % 4 = 0 → nextUnitOf k = some (k.pc, b, 1)) ∧
    (∀ t r, s.iss.act = false → s.agenda = t :: r →
      ((isWindow t.ev = false ∨ nodeWaits (turnState t r s) (turnState t r s).ch.node = false ∧ windowWaits (turnState t r s) t.ev = false) →
        step s = exec t.ev (turnState t r s)) ∧
      (isWindow t.ev = true → nodeWaits (turnState t r s) (turnState t r s).ch.node = true ∨ windowWaits (turnState t r s) t.ev = true →
        step s = .next (turnState t r s))) ∧
    (∀ i, windowWaits s i = true ↔ ∃ v p, commandVf i = some v ∧ winOpen s = true ∧ (vf s v).bound = some p ∧
      ((pt s p).launch ≠ none ∨ (pt s p).attest ≠ none)) ∧
    (s.iss.act = false → s.agenda = [] → (∀ i ∈ dueEvents { s with ch := Choice.reset }, exec i { s with ch := Choice.reset } = .next { s with ch := Choice.reset }) →
      step s = .next (tick { s with ch := Choice.reset }))

/-- R32, R57, R104, R111, R133, R201, R243, R277, R315, R332, R343: right after reset no partition exists, no core runs, the boot ROM
is at work, memory lists nothing, and the registers to which the manual gives a reset value hold it. -/
def Obligations.ResetHoldsItsValues : Prop :=
  State.reset.boot.st = 0 ∧ State.reset.fatal = false ∧ State.reset.mem = [] ∧ State.reset.pubs = [] ∧ State.reset.cmds = [] ∧
  State.reset.modesel = 0 ∧ State.reset.errthr.getD 0 0 = 0xF42400010 ∧ State.reset.errthr.getD 6 0 = 0xF42400040 ∧
  (∀ p, (pt State.reset p).exist = false ∧ (pt State.reset p).gateOpen = true ∧
    (queueOf State.reset p 0).valid = true ∧ (queueOf State.reset p 0).prio = 7) ∧
  (∀ c, (cr State.reset c).running = false ∧ (cr State.reset c).h = false ∧ (cr State.reset c).slot = 15 ∧ (cr State.reset c).sel = 0x80 ∧
    (cr State.reset c).srkey = 0 ∧ (cr State.reset c).lscale = 0 ∧ (cr State.reset c).flags = 0 ∧ (cr State.reset c).wfmt = 0 ∧
    (∀ m, rdM (cr State.reset c).regs m = if m = 0 then BitVec.allOnes 64 else 0) ∧ rdP (cr State.reset c).regs 0 = true) ∧
  (∀ v, (vf State.reset v).quant = 262144 ∧ (vf State.reset v).safemax = 4096 ∧ (vf State.reset v).linktmo = 0x3E8000186A0 ∧
    (vf State.reset v).errlog = 0) ∧
  Coherent State.reset

/-- R218, R219: memory is the one order of its publications. In every state in which each byte of memory is what the publications,
taken in their order, leave there, every step, of whatever instruction or event, leaves that so: no meaning writes memory but by a
publication, and none takes one back but a reset, which clears memory with them. -/
def Obligations.MemoryIsTheOrderOfPublications : Prop :=
  ∀ s t : State, Coherent s → step s = .next t → Coherent t

/-- R77, R78, R90 to R93, R147, R165 to R183, R228, R230, R233, R253: whatever the state, a slot of these forms whose sources are full
and whose destinations await nothing commits, the next slot follows, and its own effect is there: the branch target, the scalar or
the control register is written; the results of the five special functions and of DRAIN are in flight for 16 and 10 cycles; WLD
has set the latch's format, ZCLR and ZROT their tile, BEAT and ZFILL theirs and ZSPILL has moved its stream on; a command is with
its engine; TQPUSH and TQPOP have moved the transpose queue, FOOT the footprint table, and JWAIT lets the task go on; JPOLL has
its answer; a SPAWN's ticket is PENDING, a JOIN's scalar is awaited, LEAVE has ended the membership, BAR awaits the bundle's end,
PANCFG has its region or has ended it, and a TICK waits at its region. -/
def Obligations.SlotFormsCommitWhenReady : Prop :=
  ∀ s : State,
    (∀ o, Ready (.prepLabel o) s → Commits s (.prepLabel o) (fun t => ∀ f, rdB (me t).regs f o.b = if o.b = 0 then f else s.iss.unit + o.off.signExtend 24)) ∧
    (∀ o, Ready (.prepReg o) s → Commits s (.prepReg o) (fun t => ∀ f, rdB (me t).regs f o.b = if o.b = 0 then f else (srcS s o.a).setWidth 24)) ∧
    (∀ o, Ready (.getc o) s → Commits s (.getc o) (fun t => rdS (me t).regs o.d = if o.d = 0 then 0 else srcC s o.c)) ∧
    (∀ o, Ready (.setc o) s → Commits s (.setc o) (fun t =>
      (o.c = 5 → (me t).srkey = srcS s o.a) ∧ (o.c = 7 → (me t).flags = (srcS s o.a).setWidth 7) ∧ (o.c = 8 → (me t).sel = (srcS s o.a).setWidth 8))) ∧
    (∀ (o : VaOneF) (i : Instr), i ∈ [.vexp2 o, .vlog2 o, .vrcp o, .vrsq o, .vsqrt o] → Ready i s → (srcV s o.a).tag = o.fmt →
      Commits s i (fun t => ∃ x, (me t).pend = (me s).pend ++ [⟨(me s).seq, .calc, [.v o.d], s.iss.t + 16, x, 0, []⟩])) ∧
    (∀ o h, Ready (.wld o) s → gateOf s = false → h = o.imm.toNat + (srcS s o.a).toNat → h < (if o.fmt = 9 then 2048 else 1024) →
      refreshing (cycleAt s s.iss.core s.iss.t) (if o.fmt = 9 then h / 2 else h) = false →
      (∀ c i, c < 64 → i < 12 → (me s).badW.contains (granuleKey c (if o.fmt = 9 then h / 2 else h) i) = false) →
      Commits s (.wld o) (fun t => (me t).wfmt = o.fmt ∧ (me t).wat = s.iss.t)) ∧
    (∀ o, Ready (.drain o) s → (srcZ s o.z).tag ≠ 0 →
      Commits s (.drain o) (fun t => ∃ x, (me t).pend = (me s).pend ++ [⟨(me s).seq, .calc, [.v o.d], s.iss.t + 10, x, 0, []⟩])) ∧
    (∀ o, Ready (.zclr o) s → Commits s (.zclr o) (fun t => rdZ (me t).regs o.z = ⟨Vector.replicate 64 0, 0, 0⟩)) ∧
    (∀ o, Ready (.zrot o) s → Commits s (.zrot o) (fun t => (rdZ (me t).regs o.z).cur = BitVec.ofNat 6 (((srcZ s o.z).cur.toNat + o.k.toNat) % 64))) ∧
    (∀ o : BeatF, Ready (.beat o) s → beatFault s o = none → beatStall s o = false → Commits s (.beat o) (fun t =>
      rdZ (me t).regs o.z = beatTile o (beatMode o.fmt (me s).wfmt o.int) (srcZ s o.z)
        ((upto 64).map (beatCol s o (beatMode o.fmt (me s).wfmt o.int) (if beatMode o.fmt (me s).wfmt o.int = 2 then [] else beatOps s o))))) ∧
    (∀ o, Ready (.zspill o) s → zqFault s o.q true = none → streamStall s o.q true 65 = false →
      Commits s (.zspill o) (fun t => qOf t o.q = { advance 65 (qOf s o.q) with checked := true })) ∧
    (∀ o, Ready (.zfill o) s → zqFault s o.q false = none → streamStall s o.q false 65 = false →
      Commits s (.zfill o) (fun t => rdZ (me t).regs o.z = (fillTile (fun n => BitVec.ofNat 3072 (streamElem s o.q n))).1)) ∧
    (∀ (o : CmdF) (x : Instr × Nat), x ∈ [(.cpy o, 0x01), (.cpyw o, 0x02), (.rkgath o, 0x05), (.rkseg o, 0x06), (.rill o, 0x07),
        (.cflAr o, 0x08), (.cflRs o, 0x09), (.cflAg o, 0x0A), (.cflBc o, 0x0B), (.send o, 0x0C), (.recv o, 0x0D)] →
      Ready x.1 s → cmdFault s x.2 (srcS s o.a).toNat = none → cmdStall s x.2 (srcS s o.a).toNat = false →
      Commits s x.1 (fun t => (jOf t o.j).st = .pending ∧ ∃ k, t.cmds = s.cmds ++ [k] ∧ k.op = x.2 ∧ k.core = s.iss.core ∧ k.done = false)) ∧
    (∀ (o : EaF) (a : Nat), a = (srcS s o.a).toNat → a % 64 = 0 → a + 2048 ≤ 8388608 → (me s).ranges.length < 64 →
      (Ready (.tqpush o) s → footCovers (me s).foot 2 false a (a + 2047) = true → (me s).tq.length < 8 →
        (∀ c, (me s).tqAt = some c → c + 4 ≤ s.iss.t) → rangeHit (me s) false a 2048 = false →
        Commits s (.tqpush o) (fun t => (me t).tq = (me s).tq ++ [⟨BitVec.ofNat 16384 ((me s).l.rdN a 2048), s.iss.t⟩])) ∧
      (∀ e r, Ready (.tqpop o) s → footCovers (me s).foot 2 true a (a + 2047) = true → (me s).tq = e :: r → e.at_ + 40 ≤ s.iss.t →
        rangeHit (me s) true a 2048 = false → Commits s (.tqpop o) (fun t => (me t).tq = r))) ∧
    (∀ o, Ready (.foot o) s → (srcS s o.b).toNat ≠ 0 → (srcS s o.a).toNat + (srcS s o.b).toNat ≤ 8388608 → (me s).foot.length < 32 →
      (∀ e ∈ (me s).foot, e.eng ≠ o.eng → (srcS s o.a).toNat + (srcS s o.b).toNat ≤ e.lo ∨ e.hi < (srcS s o.a).toNat ∨ (o.wr = false ∧ e.wr = false)) →
      Commits s (.foot o) (fun t => (me t).foot.length = (me s).foot.length + 1)) ∧
    (∀ o, Ready (.jwait o) s → (jOf s o.j).st ≠ .pending → (jOf s o.j).st ≠ .failed → Commits s (.jwait o) (fun t => me t = me s)) ∧
    (∀ o, Ready (.jpoll o) s → Commits s (.jpoll o) (fun t => rdP (me t).regs o.p = if o.p = 0 then true else decide ((jOf s o.j).st ≠ .pending))) ∧
    (∀ o, Ready (.spawn o) s → (srcS s o.a).toNat % 64 = 0 → (srcS s o.a).toNat < 4503599627370496 → phaseStall s = false →
      s.cmds.countP (fun k => k.core == s.iss.core) < 64 → Commits s (.spawn o) (fun t => (jOf t o.j).st = .pending ∧ (me t).unpub = [])) ∧
    (∀ o, Ready (.join o) s → grpFault s (srcS s o.a).toNat = none → Commits s (.join o) (fun t =>
      ∃ q, (me t).pend = (me s).pend ++ [q] ∧ q.kind = .join (srcS s o.a).toNat ∧ q.dst = [.s o.d])) ∧
    (∀ o, Ready (.leave o) s → joinPending (me s) = false → (me s).group = some (srcS s o.a).toNat → grpXlate s (srcS s o.a).toNat = none →
      grpMiss s (srcS s o.a).toNat = false → (partOf s s.iss.core).isSome = true → Commits s (.leave o) (fun t => (me t).group = none ∧ (me t).lock = false)) ∧
    (∀ o, Ready (.bar o) s → barFault s (srcS s o.a).toNat = none → phaseStall s = false → joinPending (me s) = false →
      grpMiss s (srcS s o.a).toNat = false →
      Commits s (.bar o) (fun t => (me t).foot = [] ∧ t.iss.stop = s.iss.stop.andThen (.arrive (srcS s o.a).toNat .none))) ∧
    (∀ (o : CmdF), Ready (.pancfg o) s → pancfgFault s (srcS s o.a).toNat = none → pancfgStall s (srcS s o.a).toNat = false →
      Commits s (.pancfg o) (fun t => (jOf t o.j).st = .pending)) ∧
    (∀ (o : CmdF) r, Ready (.tick o) s → regionBase s (srcS s o.a).toNat = some r → s.cmds.countP (fun k => k.core == s.iss.core) < 64 →
      r.ticks.length + r.late.length < 4 → Commits s (.tick o) (fun t => (jOf t o.j).st = .pending))

/-- R33, R105 to R113, R200, R205, R213, R225 to R227, R236, R237, R255 to R277, R284 to R306, R311, R332 to R338, R343 to R345:
whatever the state, where the conditions of such an event hold it has its effect, and that effect is named: what lands, retires,
completes, arrives, is posted, taken up, launched, torn down, answered, evaluated, cut, vacated, counted, retired or started. When
such an event takes its turn is the model's agenda (log entry 2). -/
def Obligations.EventsActWhenDue : Prop :=
  (∀ s : State, s.fatal = false → s.dead = false →
    (∀ (c : CoreId) (n : Nat) (q : Pend) d, (cr s c).pend[n]? = some q → q.due ≤ s.now → q.kind = .calc → q.dst = [.s d] →
      Acts s (.resultLands c n) (fun t => (cr t c).pend = (cr s c).pend.eraseIdx n ∧ (cr t c).regs = ((cr s c).setS d ⟨q.val.extractLsb' 0 64, true⟩).regs)) ∧
    (∀ (c : CoreId) f fs, (cr s c).failed = f :: fs → (cr s c).running = true → s.iss.act = false → (cr s c).pendTrap = none → (cr s c).wait = .none →
      (cr s c).h = false → (cr s c).trapEntry.isSome = true → trapReady (cr s c) = true → (cr s c).resume = false → follows (cr s c) = none →
      Acts s (.deferredPageTrap c) (fun t => Entered s t c f (cr s c).pc 0 (leftAt (cr s c)))) ∧
    (∀ (v : VfId) (r : PageReq), r.level < 4 → (vf s v).reqs.find? (fun r => !r.posted) = some r → (vf s v).reqs.countP (fun r => r.posted) < 4096 →
      ((vf s v).prqprod - (vf s v).prqcons).toNat < 2 ^ ((vf s v).prqbase.toNat % 16 + 4) →
      Acts s (.pageRequestPost v) (fun t => t.events = s.events ++ [.prq v] ∧ (vf t v).prqprod = (vf s v).prqprod + 1)) ∧
    (∀ (c : CoreId) (n : Nat) (r : Range) (k : Cmd), (cr s c).ranges[n]? = some r → cmdOf s c r.id = some k → r.id ≠ 0 → r.wr = false →
      earlierRange s k = false → (badL (cr s c) r.lo (r.hi + 1 - r.lo)).isSome = false →
      Acts s (.rangeRetire c n) (fun t => (cr t c).ranges = (cr s c).ranges.eraseIdx n)) ∧
    (∀ (c : CoreId) (id : Nat) (k : Cmd), cmdOf s c id = some k → k.done = true → k.op ≠ opTick → k.op ≠ opSpawn → k.op ≠ opPancfg →
      acked s k.acks = true → k.cfl = none → k.out = [] →
      Acts s (.engineCommandComplete c id) (fun t => t = ((upto 64).map (BitVec.ofNat 6)).foldl (fun s q => ckptRest k.part q s) (endCmd k.id (k.fail.map Prod.snd) s))) ∧
    (∀ (c : CoreId) n o (fmt : Tag) (op : BitVec 3) (x : W64) l loc s1, (cr s c).posts[n]? = some o → o.kind = .radd fmt op x → o.lanes = [l] →
      l.st = .ready loc → earlierHit (cr s c) o.seq [l] = false → s1 = flushOwn s c o.seq loc l.len → badColumn s1 loc l.len = none →
      Acts s (.rillColumnCommand c n) (fun t => (cr t c).posts = (cr s c).posts.eraseIdx n ∧ t.mem.rdN loc (tagWidth fmt.toNat / 8) =
        (rillElem fmt.toNat op.toNat (s1.mem.rdN loc (tagWidth fmt.toNat / 8)) (x.toNat % 2 ^ (8 * (tagWidth fmt.toNat / 8)))).code % 256 ^ (tagWidth fmt.toNat / 8))) ∧
    (∀ (c : CoreId) n o region mem x l loc, (cr s c).posts[n]? = some o → o.kind = .psmp false region mem x → o.lanes = [l] → l.st = .ready loc →
      earlierHit (cr s c) o.seq [l] = false → regionOf s region = none →
      Acts s (.samplePerformed c n) (fun t => (cr t c).posts = (cr s c).posts.eraseIdx n)) ∧
    (∀ (r : Region) (ch o : Nat), regionOf s r.id = some r → r.mirror = false → r.ticks ≠ [] → ch ∉ r.passed → ch ∈ chansOf r →
      (∀ m, m < r.membs.length → membBadAt s r m = none) → o ∈ chansOf r → o ≠ ch → o ∉ r.passed →
      Acts s (.tickCloseArrival r.id ch) (fun t => ∃ y, regionOf t r.id = some y ∧ y.passed = r.passed ++ [ch])) ∧
    (∀ (c : CoreId) (id : Nat) (k : Cmd) (x : CflSt) (p : CflPkt), cmdOf s c id = some k → s.cmds.find? (fun x => x.id == id) = some k →
      isCfl k.op = true → k.done = false → k.prog = 1 → k.cfl = some x → cflFmt k.block ≠ 1 → p.chunk < x.size → x.inbox = [] → cflStarts k x = [] →
      (∀ own, k.op = opAr ∨ k.op = opRs → p.final = false → p.acc ≠ [] → p.acc.length = chunkN k.block x.size p.chunk → p.hop + 2 < x.size →
        p.hop + 1 = x.hopOf p.chunk → x.got p.chunk p.hop = false → cflOwn s k x p.chunk = .ok own →
        Acts s (.cflHop c id p) (fun t => ∃ m f q, t.sent = s.sent ++ [.cfl m f q] ∧ q.chunk = p.chunk ∧ q.hop = p.hop + 1)) ∧
      (p.final = true → k.op ≠ opRs → p.acc ≠ [] → p.acc.length = chunkN k.block x.size p.chunk → p.hop < x.size →
        x.isDone p.chunk = false → (p.chunk, x.size) ∈ x.asked → earlierRange s k = false →
        Acts s (.cflLateReplacement c id p) (fun t => ∃ m y, cmdOf t c id = some m ∧ m.cfl = some y ∧ y.late = x.late + 1))) ∧
    (∀ (c : CoreId) (id : Nat) (k : Cmd) (e : MsgEntry), cmdOf s c id = some k → headRecv s (msgPeer k.block) (msgFlow k.block) = some k → k.op = opRecv →
      earlierRange s k = false → (rxOf s (msgPeer k.block) (msgFlow k.block)).entries = [] → (rxOf s (msgPeer k.block) (msgFlow k.block)).early = [] →
      e.msg = (rxOf s (msgPeer k.block) (msgFlow k.block)).nextMsg → e.idx = (rxOf s (msgPeer k.block) (msgFlow k.block)).nextIdx →
      (rxOf s (msgPeer k.block) (msgFlow k.block)).dropUpTo ≤ e.msg → e.idx + 1 < min e.total (msgN k.block) →
      Acts s (.recvEntryArrival (msgPeer k.block) (msgFlow k.block) e) (fun t => (cr t k.core).l.rdN (msgL k.block + 384 * e.idx) 384 = e.data.toNat)) ∧
    (∀ (c : CoreId) (id : Nat) (k : Cmd), cmdOf s c id = some k →
      (k.op = opRecv → k.done = false → linkRecv s k.part ≠ 0 → k.since + linkRecv s k.part < s.us →
        (headRecv s (msgPeer k.block) (msgFlow k.block)).map Cmd.id = some k.id → earlierRange s k = false →
        (rxOf s (msgPeer k.block) (msgFlow k.block)).entries = [] → msgBk k.block = 0 → Acts s (.recvTimeout c id) (fun t =>
          t.cmds = s.cmds.map (fun x => if x.id = k.id then { x with done := true, fail := some (x.prog, cLinkTimeout, false, false, 0) } else x))) ∧
      (k.op = opSend → k.done = true → acked s k.acks = false → k.since + linkAck s k.part ≤ s.us →
        Acts s (.sendAckTimeout c id) (fun t => t = endCmd id ((firstOf k.fail (some (msgN k.block, cLinkTimeout, false, false, 0))).map Prod.snd)
          { s with ackWait := s.ackWait.filter (fun a => !k.acks.contains a.id) }))) ∧
    (∀ (c : CoreId) a ids b, (cr s c).wait = .phase a ids b → (cr s c).running = true → acked s ids = false → s.iss.act = false →
      (∀ x ∈ (cr s c).failed, x.cause ≠ cLinkTimeout) → (cr s c).phaseAt + linkAck s ((partOf s c).getD 0) ≤ s.us → (cr s c).h = true →
      Acts s (.linkTimeout c) (fun t => (cr t c).failed = (cr s c).failed ++ [⟨cLinkTimeout, 0, none, 0, none, none⟩])) ∧
    (∀ (m : BitVec 16) (dpa : BitVec 46) (data : List Byte), (∀ b, dpa.toNat ≤ b → b < dpa.toNat + data.length → b / 32 ∉ s.badG) →
      Acts s (.mirrorWriteArrival (.write m dpa data)) (fun t => t.mem = s.mem.wrPairs (placeL dpa.toNat data))) ∧
    (∀ (f : FlowId) (dpa : BitVec 46) (data : List Byte), laneHash dpa.toNat = f.lane → (flowOf s f).early = [] →
      (∀ b, dpa.toNat ≤ b → b < dpa.toNat + data.length → dpaOk s b = true ∧ regionAt s b = none ∧ b / 32 ∉ s.badG) →
      Acts s (.flowFlitArrival f (flowOf s f).next (.write dpa data)) (fun t => t.mem = s.mem.wrPairs (placeL dpa.toNat data) ∧
        (flowOf t f).next = (flowOf s f).next + 1)) ∧
    (∀ (p : PartId) (sp : Spawn) (r : List Spawn), (pt s p).spawns = sp :: r → sp.wait = none → sp.cmd = none → (pt s p).running = false → r = [] →
      Acts s (.heldSpawnEntry p) (fun t => (pt t p).spawns = [])) ∧
    (∀ p : PartId, Acts s (.quantumExpiry p) (fun t => t = { s with cores := t.cores })) ∧
    (∀ (p : PartId) (d : Deadline), (pt s p).dl = some d → d.cutDone = false →
      (s.us < d.cut → d.evalAt < s.us → heldQueues s p = [] → Acts s (.sluiceEvaluation p) (fun t => ∃ e, (pt t p).dl = some e ∧ e.evalAt = s.us)) ∧
      (d.cut ≤ s.us → Acts s (.deadlineCut p) (fun t => t = cutAll p s))) ∧
    (∀ (p : PartId) (d : Deadline), (pt s p).dl = some d → mayVacate s p = true → (∀ k ∈ s.cmds, k.part ≠ p) →
      Acts s (.vacancy p) (fun t => (pt t p).vacant = true ∧ (pt t p).dl = none ∧ (pt t p).running = false)) ∧
    (∀ (i : Inval) r, s.invals = i :: r → inFlight s i.vf = false → Acts s .invalComplete (fun t => t.events = s.events ++ [.invalDone i.vf] ∧ t.invals = r)) ∧
    (∀ cause, cause ≠ 0 → cause.toNat ≤ 3 → Acts s (.fatalError cause) (fun t => t.fatal = true ∧ t.events = s.events ++ [.fatal])) ∧
    (∀ (p : PartId) (c : CoreId) (q : BitVec 6) (t : Task) (argp : Nat), partOf s c = some p → (pt s p).running = true →
      (idleCores s p).head? = some c → nextChoice s p = some (q, t) → t.gang = none → readTask s p t.rec_ = .start argp →
      Acts s (.taskPickup c) (fun v => ∃ u, v = askYield p (recPut p t.rec_ 0x18 24 4 2 u) ∧ (cr u c).running = true ∧ (cr u c).rec_ = t.rec_ ∧
        rdS (cr u c).regs 1 = w64 argp)) ∧
    (∀ c : CoreId, s.iss.act = false → (cr s c).running = true → (cr s c).badCore = false → (cr s c).pendTrap = none → (cr s c).wait = .none →
      mayIssue s c = true → needsPrefix (cr s c) = false → asksPage (cr s c) = false → (cr s c).resume = false →
      ∀ u b len, nextUnitOf (cr s c) = some (u, b, len) → collides b = false → waitsSource (openIssue c u b len (landDue c s)) = false →
        requestsFull (openIssue c u b len (landDue c s)) = false → tryE 11 (openIssue c u b len (landDue c s)) = .go →
        Acts s (.bundleIssue c) (fun w => w.iss.act = true ∧ w.iss.core = c ∧ w.iss.unit = u ∧ w.iss.slot = 0)) ∧
    (∀ (c : CoreId) (n : BitVec 8), s.iss.act = false → prefixCore s n = some c → (nextUnitOf (cr s c)).isSome = true →
      Acts s (.repeat ⟨n⟩) (fun t => t = { s with cores := s.cores.set c { cr s c with pfx := some n, left := n } })) ∧
    Acts s .moduleReset (fun t => t.boot.st = 0 ∧ ∀ a, t.mem.rd a = if locIsLocal a = true then 0 else s.mem.rd a) ∧
    (s.boot.st = 0 → verifyFw s romImage = 0 → Acts s .bootRomVerify (fun t => t.boot.st = 1)) ∧
    (s.boot.st = 1 → Acts s .firmwareInit (fun t => t.boot.st = 2)) ∧
    (∀ f, s.boot.st = 3 → verifyFw s f = 0 → Acts s (.fwload f) (fun t => t.ack = ⟨true, 0⟩ ∧ t.boot.st = 1))) ∧
  (∀ s : State, winOpen s = true →
    (∀ (v : VfId) (p : PartId), (vf s v).bound = some p →
      (∀ (vec : List (BitVec 32)) (pre : Bool), (pt s p).launch = none → (pt s p).running = false → (pt s p).image ≠ none → (pt s p).dl = none →
        vecFits (coresOf s p).length vec = true → rootsOk s v p ((coresOf s p).head?.getD 0) ((upto (coresOf s p).length).filter (vecRun vec)) = .ok →
        Acts s (if pre then .launchPreamble v vec else .launch v vec) (fun t => t.ack = ⟨true, 0⟩ ∧ (pt t p).launchAt = s.now)) ∧
      (∀ (img : Image) (d : List Bundle) (code : List (BitVec 16)), (pt s p).running = false →
        Config.sigOk img.key (Config.imageBytes img) img.sig = true → (pt s p).keydig = 0 ∨ Config.sha256 img.key = (pt s p).keydig →
        img.dict.length ≤ 8192 → img.code.length ≤ 2 ^ 24 → dataFits img = true → img.safemax ≤ (vf s v).safemax → pathsFit img = true →
        relocAll s p img.relocs (img.dict, img.code) = some (d, code) →
        Acts s (.imageLoad v img) (fun t => t.ack = ⟨true, 0⟩ ∧ (pt t p).image = some (Config.sha256 (Config.imageBytes img)))) ∧
      (∀ (nonce : BitVec 256) (a : GAddr) (l : List (Nat × Nat)), (pt s p).attest = none → a.toNat % 64 = 0 →
        vaMap s p true a.toNat ((attestBody s v p nonce).length + 7856) = .ok l → Acts s (.attest v nonce a) (fun t => t.ack = ⟨true, 0⟩)) ∧
      (∀ (a : GAddr) (again : Bool) sp r x y, (pt s p).running = true → a.toNat % 64 = 0 → packetTorn s p a.toNat = false →
        (pt s p).spawns = sp :: r → sp.wait = some (some x, y) → (recWord s p a.toNat 0x18).isSome = true →
        Acts s (if again then .restore v a else .hostSpawn v a) (fun t => t.ack = ⟨true, 0⟩ ∧ (pt t p).spawns = (pt s p).spawns ++ [⟨a.toNat, none, again, false, none⟩])) ∧
      (∀ q : BitVec 6, (queueOf s p q).valid = false → Acts s (.queueTeardown v q) (fun t => t.ack = ⟨true, 0⟩)) ∧
      (∀ (x : W64) (r : PageReq), (vf s v).reqs.find? (fun r => r.posted && r.num == BitVec.ofNat 16 x.toNat) = some r → x.toNat / 2 ^ 17 = 0 →
        (pt s p).spawns = [] → (∀ y ∈ (pt s p).tasks, y.word ≠ some r.tag) → (pt s p).late = [] → (pt s p).launch = none → (pt s p).attest = none →
        (∀ c g n, inMask (pt s p).mask c = true → (cr s c).wait ≠ .bar g n) → x.getLsbD 16 = true →
        Acts s (.prqreply v x) (fun t => t.ack = ⟨true, 0⟩ ∧ (vf t v).reqs = (vf s v).reqs.filter (fun q => q.tag ≠ r.tag)))) ∧
    (∀ p v mask key, (pt s p).exist = false → (vf s v).bound = none → mask ≠ 0 → (∀ c, inMask mask c = true → (cr s c).retired = false ∧ partOf s c = none) →
      Acts s (.pcreate p v mask key) (fun t => t.ack = ⟨true, 0⟩ ∧ (pt t p).exist = true ∧ (vf t v).bound = some p)) ∧
    (∀ p, (pt s p).exist = true → (pt s p).running = false → partBusy s p = false → Acts s (.pdestroy p) (fun t => t.ack = ⟨true, 0⟩ ∧ pt t p = Part.reset)) ∧
    (∀ (kind : BitVec 3) (u : BitVec 16), unitValid kind u = true → (unitOfErr s kind u).retired = false → mayRetire s kind u = true →
      Acts s (.retire kind u) (fun t => t.ack = ⟨true, 0⟩ ∧ ∃ y ∈ t.units, y.kind = kind ∧ y.unit = u ∧ y.retired = true) ∧
      ((unitOfErr s kind u).due = true → Acts s (.unitRetirement kind u) (fun t => ∃ y ∈ t.units, y.kind = kind ∧ y.unit = u ∧ y.retired = true))) ∧
    (∀ (k : DeadlineF) (x : Deadline), (pt s k.part).dl = none → s.modesel.getLsbD 1 = false → (∀ q, queueHolds s k.part q = false) →
      mgmt s k.part = true → 1 ≤ k.d.toNat → 1 + max 4 (tSweep s k.part none) + 7 ≤ k.d.toNat → k.addr.toNat % 64 = 0 → k.ckpt.toNat % 64 = 0 → k.rsv = 0 →
      Acts s (.deadline k) (fun t => t.ack = ⟨true, 1 + max 4 (tSweep s k.part none) + 7⟩ ∧ (pt t k.part).dl.isSome = true)) ∧
    (∀ (kind : BitVec 3) (u : BitVec 16) (w : W64), unitValid kind u = true → w.toNat / 2 ^ 24 = 0 → w.toNat / 2 ^ 3 % 2 ^ 5 = 0 →
      w.toNat % 2 ^ 3 = kind.toNat → w.toNat / 2 ^ 8 % 2 ^ 16 = u.toNat → (unitOfErr s kind u).retired = false → s.modesel.getLsbD 2 = true →
      Acts s (.record w) (fun t => t.ack = ⟨true, 0⟩ ∧ t.events = s.events ++ [.errPosted kind u]) ∧
      ((unitOfErr s kind u).count ≠ 0 → (unitOfErr s kind u).win ≠ s.us / ((s.errthr.getD kind.toNat 0).toNat / 2 ^ 16 % 2 ^ 32) →
        Acts s (.errorWindowExpiry kind u) (fun t => (unitOfErr t kind u).count = 0))))
end

