-- ==== Sys2Proof/Laws/Memory.lean ====
section
/-! SUPPORT. The laws of the sparse stores and of memory: what is read after a write, and that every write keeps the canonical
form (R2, R196, R202, R218). -/
namespace Sys2Proof

/-- The canonical form as a pair of plain properties. -/
theorem swf_iff {α : Type} [DecidableEq α] (dflt : α) : ∀ m : List (Nat × α),
    swf dflt m = true ↔ m.Pairwise (fun x y => x.1 < y.1) ∧ ∀ e ∈ m, e.2 ≠ dflt
  | [] => by simp [swf]
  | [(k, v)] => by simp [swf]
  | (k, v) :: (k', v') :: r => by
    have ih := swf_iff dflt ((k', v') :: r)
    simp only [swf, Bool.and_eq_true, decide_eq_true_eq, ih, List.pairwise_cons, List.mem_cons, forall_eq_or_imp]
    constructor
    · rintro ⟨⟨hv, hk⟩, ⟨⟨h1, h2⟩, h3, h4⟩⟩
      exact ⟨⟨⟨hk, fun e he => Nat.lt_trans hk (h1 e he)⟩, h1, h2⟩, hv, h3, h4⟩
    · rintro ⟨⟨⟨hk, _⟩, h1, h2⟩, hv, h3, h4⟩
      exact ⟨⟨hv, hk⟩, ⟨h1, h2⟩, h3, h4⟩

/-- A dropped key reads the default, the others as before. -/
theorem sget_sdel {α : Type} (dflt : α) (a b : Nat) : ∀ m : List (Nat × α),
    sget dflt (sdel m a) b = if a = b then dflt else sget dflt m b
  | [] => by simp [sdel, sget]
  | (k, v) :: r => by
    have ih := sget_sdel dflt a b r
    unfold sdel
    by_cases hk : k = a
    · simp only [hk, if_true, ih, sget]
      split <;> rfl
    · simp only [hk, if_false, sget, ih]
      by_cases hb : k = b
      · have : a ≠ b := fun e => hk (hb.trans e.symm)
        simp [hb, this]
      · simp [hb]
/-- A key is not listed. -/
theorem not_mem_sdel {α : Type} (a : Nat) : ∀ m : List (Nat × α), ∀ e ∈ sdel m a, e.1 ≠ a
  | [] => by simp [sdel]
  | (k, v) :: r => by
    have ih := not_mem_sdel a r
    unfold sdel
    split
    · exact ih
    · intro e he
      rcases List.mem_cons.1 he with rfl | he
      · assumption
      · exact ih e he
/-- A placed pair reads its value, the others as before. -/
theorem sget_sins {α : Type} (dflt : α) (a b : Nat) (x : α) : ∀ m : List (Nat × α), (∀ e ∈ m, e.1 ≠ a) →
    sget dflt (sins m a x) b = if a = b then x else sget dflt m b
  | [], _ => by simp [sins, sget]
  | (k, v) :: r, h => by
    have hk : k ≠ a := h (k, v) (by simp)
    have ih := sget_sins dflt a b x r (fun e he => h e (by simp [he]))
    unfold sins
    split
    · simp [sget]
    · simp only [sget, ih]
      by_cases hb : k = b
      · have : a ≠ b := fun e => hk (hb.trans e.symm)
        simp [hb, this]
      · simp [hb]
/-- A written key reads what was written, every other key as before. -/
theorem sget_sset {α : Type} [DecidableEq α] (dflt : α) (m : List (Nat × α)) (a b : Nat) (x : α) :
    sget dflt (sset dflt m a x) b = if a = b then x else sget dflt m b := by
  unfold sset
  split
  · next h => rw [sget_sdel]; simp [h]
  · rw [sget_sins _ _ _ _ _ (not_mem_sdel a m), sget_sdel]; split <;> rfl

theorem sdel_sub {α : Type} (a : Nat) : ∀ m : List (Nat × α), (sdel m a).Sublist m
  | [] => by simp [sdel]
  | (k, v) :: r => by
    unfold sdel
    split
    · exact (sdel_sub a r).cons _
    · exact (sdel_sub a r).cons_cons _
theorem mem_sins {α : Type} (a : Nat) (x : α) : ∀ (m : List (Nat × α)) (e : Nat × α), e ∈ sins m a x → e = (a, x) ∨ e ∈ m
  | [], e, h => by simpa [sins] using h
  | (k, v) :: r, e, h => by
    unfold sins at h
    split at h
    · simpa using h
    · rcases List.mem_cons.1 h with rfl | h
      · simp
      · rcases mem_sins a x r e h with rfl | h
        · simp
        · simp [h]
theorem sins_sorted {α : Type} (a : Nat) (x : α) : ∀ m : List (Nat × α), m.Pairwise (fun x y => x.1 < y.1) → (∀ e ∈ m, e.1 ≠ a) →
    (sins m a x).Pairwise (fun x y => x.1 < y.1)
  | [], _, _ => by simp [sins]
  | (k, v) :: r, hs, h => by
    have hk : k ≠ a := h (k, v) (by simp)
    rw [List.pairwise_cons] at hs
    unfold sins
    split
    · next hlt =>
      rw [List.pairwise_cons, List.pairwise_cons]
      refine ⟨?_, hs⟩
      intro e he
      rcases List.mem_cons.1 he with rfl | he
      · exact hlt
      · exact Nat.lt_trans hlt (hs.1 e he)
    · next hge =>
      rw [List.pairwise_cons]
      refine ⟨?_, sins_sorted a x r hs.2 (fun e he => h e (by simp [he]))⟩
      intro e he
      rcases mem_sins a x r e he with rfl | he
      · show k < a; omega
      · exact hs.1 e he
/-- Every write keeps the canonical form. -/
theorem swf_sset {α : Type} [DecidableEq α] (dflt : α) (m : List (Nat × α)) (a : Nat) (x : α) (h : swf dflt m = true) :
    swf dflt (sset dflt m a x) = true := by
  rw [swf_iff] at h ⊢
  have hd : (sdel m a).Pairwise (fun x y => x.1 < y.1) := h.1.sublist (sdel_sub a m)
  unfold sset
  split
  · exact ⟨hd, fun e he => h.2 e ((sdel_sub a m).subset he)⟩
  · next hx =>
    refine ⟨sins_sorted a x _ hd (not_mem_sdel a m), fun e he => ?_⟩
    rcases mem_sins a x _ e he with rfl | he
    · exact hx
    · exact h.2 e ((sdel_sub a m).subset he)

namespace Machine

/-- A byte written is the byte read, and every other byte reads as before. -/
theorem rd_wr (m : Mem) (a b : Nat) (x : Byte) : (m.wr a x).rd b = if a = b then x else m.rd b := sget_sset 0 m a b x
theorem wf_wr (m : Mem) (a : Nat) (x : Byte) (h : m.wf = true) : (m.wr a x).wf = true := swf_sset 0 m a x h

/-- Bytes outside the ones written read as before. -/
theorem rd_wrN_out (a b : Nat) : ∀ (n x : Nat) (m : Mem), (b < a ∨ a + n ≤ b) → (m.wrN a n x).rd b = m.rd b := by
  intro n
  induction n generalizing a with
  | zero => intro x m _; rfl
  | succ n ih =>
    intro x m h
    unfold Mem.wrN
    rw [ih (a + 1) _ _ (by omega), rd_wr, if_neg (by omega)]
/-- The bytes written are the little-endian bytes of the number. -/
theorem rd_wrN_in (a b : Nat) : ∀ (n x : Nat) (m : Mem), a ≤ b → b < a + n →
    (m.wrN a n x).rd b = BitVec.ofNat 8 (x / 256 ^ (b - a)) := by
  intro n
  induction n generalizing a with
  | zero => intro x m h1 h2; omega
  | succ n ih =>
    intro x m h1 h2
    unfold Mem.wrN
    by_cases hb : b = a
    · subst hb
      rw [rd_wrN_out _ _ _ _ _ (by omega), rd_wr]; simp
    · rw [ih (a + 1) _ _ (by omega) (by omega), Nat.div_div_eq_div_mul]
      congr 2
      rw [show b - a = (b - (a + 1)) + 1 by omega, Nat.pow_succ, Nat.mul_comm]
theorem wf_wrN (a : Nat) : ∀ (n x : Nat) (m : Mem), m.wf = true → (m.wrN a n x).wf = true := by
  intro n
  induction n generalizing a with
  | zero => intro x m h; exact h
  | succ n ih => intro x m h; exact ih _ _ _ (wf_wr _ _ _ h)
theorem wf_wrBytes : ∀ (l : List Byte) (a : Nat) (m : Mem), m.wf = true → (m.wrBytes a l).wf = true
  | [], _, _, h => h
  | x :: r, a, m, h => wf_wrBytes r (a + 1) _ (wf_wr m a x h)
theorem wf_wrPairs : ∀ (l : List (Nat × Byte)) (m : Mem), m.wf = true → (m.wrPairs l).wf = true
  | [], _, h => h
  | (a, x) :: r, m, h => wf_wrPairs r _ (wf_wr m a x h)
/-- A list of writes leaves every other byte as it was. -/
theorem rd_wrPairs_out (b : Nat) : ∀ (l : List (Nat × Byte)) (m : Mem), (∀ w ∈ l, w.1 ≠ b) → (m.wrPairs l).rd b = m.rd b
  | [], _, _ => rfl
  | (a, x) :: r, m, h => by
    unfold Mem.wrPairs
    rw [rd_wrPairs_out b r _ (fun w hw => h w (by simp [hw])), rd_wr, if_neg (h (a, x) (by simp))]
theorem wrPairs_append (m : Mem) : ∀ (l r : List (Nat × Byte)), m.wrPairs (l ++ r) = (m.wrPairs l).wrPairs r := by
  intro l
  induction l generalizing m with
  | nil => intro r; rfl
  | cons x l ih => intro r; exact ih _ r
/-- Bytes written back from a list, the last first, read as the list gave them. -/
theorem rd_wrPairs_reverse (b : Nat) : ∀ (l : Mem), (Mem.wrPairs [] l.reverse).rd b = l.rd b
  | [] => rfl
  | (a, x) :: r => by
    rw [List.reverse_cons, wrPairs_append]
    show ((Mem.wrPairs [] r.reverse).wr a x).rd b = _
    rw [rd_wr, rd_wrPairs_reverse b r]
    show _ = sget 0 ((a, x) :: r) b
    by_cases h : a = b <;> simp [sget, h, Mem.rd]
/-- A list of which only some addresses are kept reads as before at those, and as zero elsewhere. -/
theorem rd_filter (f : Nat → Bool) (b : Nat) : ∀ (l : Mem), Mem.rd (l.filter (fun x => f x.1)) b = if f b then l.rd b else 0
  | [] => by simp [Mem.rd, sget]
  | (a, x) :: r => by
    have ih := rd_filter f b r
    unfold Mem.rd at ih ⊢
    rw [List.filter_cons]
    by_cases h : a = b
    · subst h
      by_cases hf : f a = true
      · simp [hf, sget]
      · simp only [hf] at ih ⊢; simpa using ih
    · by_cases hf : f a = true
      · simp only [hf, if_true, sget, h]; simpa using ih
      · simp only [hf, sget, h]; simpa using ih

/-- A number of n bytes is read back as it was written, below 2^(8n) (R2). -/
theorem rdN_wrN (a : Nat) : ∀ (n x : Nat) (m : Mem), (m.wrN a n x).rdN a n = x % 256 ^ n := by
  intro n
  induction n generalizing a with
  | zero => intro x m; simp [Mem.rdN, Nat.mod_one]
  | succ n ih =>
    intro x m
    unfold Mem.wrN Mem.rdN
    rw [rd_wrN_out _ _ _ _ _ (by omega), rd_wr, if_pos rfl, ih (a + 1)]
    rw [BitVec.toNat_ofNat, show 256 ^ (n + 1) = 256 * 256 ^ n by rw [Nat.pow_succ, Nat.mul_comm], Nat.mod_mul]

/-- Written bytes leave every byte outside them as it was. -/
theorem rd_wrBytes_out (b : Nat) : ∀ (l : List Byte) (a : Nat) (m : Mem), (b < a ∨ a + l.length ≤ b) → (m.wrBytes a l).rd b = m.rd b
  | [], _, _, _ => rfl
  | x :: r, a, m, h => by
    simp only [List.length_cons] at h
    unfold Mem.wrBytes
    rw [rd_wrBytes_out b r (a + 1) _ (by omega), rd_wr, if_neg (by omega)]
/-- A written byte reads as it was written. -/
theorem rd_wrBytes_in : ∀ (l : List Byte) (a i : Nat) (m : Mem), i < l.length → (m.wrBytes a l).rd (a + i) = l.getD i 0
  | [], _, _, _, h => by simp at h
  | x :: r, a, 0, m, _ => by
    unfold Mem.wrBytes
    rw [rd_wrBytes_out _ r (a + 1) _ (by omega), rd_wr, if_pos (by omega)]; rfl
  | x :: r, a, i + 1, m, h => by
    simp only [List.length_cons] at h
    unfold Mem.wrBytes
    rw [show a + (i + 1) = a + 1 + i by omega, rd_wrBytes_in r (a + 1) i _ (by omega)]; rfl

end Machine
end Sys2Proof
end

