-- ==== Sys2Proof/Laws/State.lean ====
section
/-! SUPPORT. What each update of the state leaves as it was, one lemma for each field, and what it changes. Later proofs cite
these and unfold no record update. -/
namespace Sys2Proof.Machine

/-! modCr. -/
@[simp] theorem modCr_now (s : State) (c : CoreId) (f : Core → Core) : (modCr s c f).now = s.now := rfl
@[simp] theorem modCr_us (s : State) (c : CoreId) (f : Core → Core) : (modCr s c f).us = s.us := rfl
@[simp] theorem modCr_parts (s : State) (c : CoreId) (f : Core → Core) : (modCr s c f).parts = s.parts := rfl
@[simp] theorem modCr_vfs (s : State) (c : CoreId) (f : Core → Core) : (modCr s c f).vfs = s.vfs := rfl
@[simp] theorem modCr_mem (s : State) (c : CoreId) (f : Core → Core) : (modCr s c f).mem = s.mem := rfl
@[simp] theorem modCr_pubs (s : State) (c : CoreId) (f : Core → Core) : (modCr s c f).pubs = s.pubs := rfl
@[simp] theorem modCr_cmds (s : State) (c : CoreId) (f : Core → Core) : (modCr s c f).cmds = s.cmds := rfl
@[simp] theorem modCr_nextId (s : State) (c : CoreId) (f : Core → Core) : (modCr s c f).nextId = s.nextId := rfl
@[simp] theorem modCr_regions (s : State) (c : CoreId) (f : Core → Core) : (modCr s c f).regions = s.regions := rfl
@[simp] theorem modCr_mirrors (s : State) (c : CoreId) (f : Core → Core) : (modCr s c f).mirrors = s.mirrors := rfl
@[simp] theorem modCr_copies (s : State) (c : CoreId) (f : Core → Core) : (modCr s c f).copies = s.copies := rfl
@[simp] theorem modCr_panCopies (s : State) (c : CoreId) (f : Core → Core) : (modCr s c f).panCopies = s.panCopies := rfl
@[simp] theorem modCr_ackWait (s : State) (c : CoreId) (f : Core → Core) : (modCr s c f).ackWait = s.ackWait := rfl
@[simp] theorem modCr_rx (s : State) (c : CoreId) (f : Core → Core) : (modCr s c f).rx = s.rx := rfl
@[simp] theorem modCr_sent (s : State) (c : CoreId) (f : Core → Core) : (modCr s c f).sent = s.sent := rfl
@[simp] theorem modCr_flows (s : State) (c : CoreId) (f : Core → Core) : (modCr s c f).flows = s.flows := rfl
@[simp] theorem modCr_outSeq (s : State) (c : CoreId) (f : Core → Core) : (modCr s c f).outSeq = s.outSeq := rfl
@[simp] theorem modCr_partials (s : State) (c : CoreId) (f : Core → Core) : (modCr s c f).partials = s.partials := rfl
@[simp] theorem modCr_tlb (s : State) (c : CoreId) (f : Core → Core) : (modCr s c f).tlb = s.tlb := rfl
@[simp] theorem modCr_invals (s : State) (c : CoreId) (f : Core → Core) : (modCr s c f).invals = s.invals := rfl
@[simp] theorem modCr_units (s : State) (c : CoreId) (f : Core → Core) : (modCr s c f).units = s.units := rfl
@[simp] theorem modCr_errthr (s : State) (c : CoreId) (f : Core → Core) : (modCr s c f).errthr = s.errthr := rfl
@[simp] theorem modCr_modesel (s : State) (c : CoreId) (f : Core → Core) : (modCr s c f).modesel = s.modesel := rfl
@[simp] theorem modCr_stackTop (s : State) (c : CoreId) (f : Core → Core) : (modCr s c f).stackTop = s.stackTop := rfl
@[simp] theorem modCr_debt (s : State) (c : CoreId) (f : Core → Core) : (modCr s c f).debt = s.debt := rfl
@[simp] theorem modCr_badG (s : State) (c : CoreId) (f : Core → Core) : (modCr s c f).badG = s.badG := rfl
@[simp] theorem modCr_boot (s : State) (c : CoreId) (f : Core → Core) : (modCr s c f).boot = s.boot := rfl
@[simp] theorem modCr_fatal (s : State) (c : CoreId) (f : Core → Core) : (modCr s c f).fatal = s.fatal := rfl
@[simp] theorem modCr_dead (s : State) (c : CoreId) (f : Core → Core) : (modCr s c f).dead = s.dead := rfl
@[simp] theorem modCr_mhz (s : State) (c : CoreId) (f : Core → Core) : (modCr s c f).mhz = s.mhz := rfl
@[simp] theorem modCr_stallFor (s : State) (c : CoreId) (f : Core → Core) : (modCr s c f).stallFor = s.stallFor := rfl
@[simp] theorem modCr_queryP (s : State) (c : CoreId) (f : Core → Core) : (modCr s c f).queryP = s.queryP := rfl
@[simp] theorem modCr_queryQ (s : State) (c : CoreId) (f : Core → Core) : (modCr s c f).queryQ = s.queryQ := rfl
@[simp] theorem modCr_iss (s : State) (c : CoreId) (f : Core → Core) : (modCr s c f).iss = s.iss := rfl
@[simp] theorem modCr_agenda (s : State) (c : CoreId) (f : Core → Core) : (modCr s c f).agenda = s.agenda := rfl
@[simp] theorem modCr_ch (s : State) (c : CoreId) (f : Core → Core) : (modCr s c f).ch = s.ch := rfl
@[simp] theorem modCr_runs (s : State) (c : CoreId) (f : Core → Core) : (modCr s c f).runs = s.runs := rfl
@[simp] theorem modCr_rr (s : State) (c : CoreId) (f : Core → Core) : (modCr s c f).rr = s.rr := rfl
@[simp] theorem modCr_free (s : State) (c : CoreId) (f : Core → Core) : (modCr s c f).free = s.free := rfl
@[simp] theorem modCr_ack (s : State) (c : CoreId) (f : Core → Core) : (modCr s c f).ack = s.ack := rfl
@[simp] theorem modCr_events (s : State) (c : CoreId) (f : Core → Core) : (modCr s c f).events = s.events := rfl

/-! modPt. -/
@[simp] theorem modPt_now (s : State) (p : PartId) (f : Part → Part) : (modPt s p f).now = s.now := rfl
@[simp] theorem modPt_us (s : State) (p : PartId) (f : Part → Part) : (modPt s p f).us = s.us := rfl
@[simp] theorem modPt_cores (s : State) (p : PartId) (f : Part → Part) : (modPt s p f).cores = s.cores := rfl
@[simp] theorem modPt_vfs (s : State) (p : PartId) (f : Part → Part) : (modPt s p f).vfs = s.vfs := rfl
@[simp] theorem modPt_mem (s : State) (p : PartId) (f : Part → Part) : (modPt s p f).mem = s.mem := rfl
@[simp] theorem modPt_pubs (s : State) (p : PartId) (f : Part → Part) : (modPt s p f).pubs = s.pubs := rfl
@[simp] theorem modPt_cmds (s : State) (p : PartId) (f : Part → Part) : (modPt s p f).cmds = s.cmds := rfl
@[simp] theorem modPt_nextId (s : State) (p : PartId) (f : Part → Part) : (modPt s p f).nextId = s.nextId := rfl
@[simp] theorem modPt_regions (s : State) (p : PartId) (f : Part → Part) : (modPt s p f).regions = s.regions := rfl
@[simp] theorem modPt_mirrors (s : State) (p : PartId) (f : Part → Part) : (modPt s p f).mirrors = s.mirrors := rfl
@[simp] theorem modPt_copies (s : State) (p : PartId) (f : Part → Part) : (modPt s p f).copies = s.copies := rfl
@[simp] theorem modPt_panCopies (s : State) (p : PartId) (f : Part → Part) : (modPt s p f).panCopies = s.panCopies := rfl
@[simp] theorem modPt_ackWait (s : State) (p : PartId) (f : Part → Part) : (modPt s p f).ackWait = s.ackWait := rfl
@[simp] theorem modPt_rx (s : State) (p : PartId) (f : Part → Part) : (modPt s p f).rx = s.rx := rfl
@[simp] theorem modPt_sent (s : State) (p : PartId) (f : Part → Part) : (modPt s p f).sent = s.sent := rfl
@[simp] theorem modPt_flows (s : State) (p : PartId) (f : Part → Part) : (modPt s p f).flows = s.flows := rfl
@[simp] theorem modPt_outSeq (s : State) (p : PartId) (f : Part → Part) : (modPt s p f).outSeq = s.outSeq := rfl
@[simp] theorem modPt_partials (s : State) (p : PartId) (f : Part → Part) : (modPt s p f).partials = s.partials := rfl
@[simp] theorem modPt_tlb (s : State) (p : PartId) (f : Part → Part) : (modPt s p f).tlb = s.tlb := rfl
@[simp] theorem modPt_invals (s : State) (p : PartId) (f : Part → Part) : (modPt s p f).invals = s.invals := rfl
@[simp] theorem modPt_units (s : State) (p : PartId) (f : Part → Part) : (modPt s p f).units = s.units := rfl
@[simp] theorem modPt_errthr (s : State) (p : PartId) (f : Part → Part) : (modPt s p f).errthr = s.errthr := rfl
@[simp] theorem modPt_modesel (s : State) (p : PartId) (f : Part → Part) : (modPt s p f).modesel = s.modesel := rfl
@[simp] theorem modPt_stackTop (s : State) (p : PartId) (f : Part → Part) : (modPt s p f).stackTop = s.stackTop := rfl
@[simp] theorem modPt_debt (s : State) (p : PartId) (f : Part → Part) : (modPt s p f).debt = s.debt := rfl
@[simp] theorem modPt_badG (s : State) (p : PartId) (f : Part → Part) : (modPt s p f).badG = s.badG := rfl
@[simp] theorem modPt_boot (s : State) (p : PartId) (f : Part → Part) : (modPt s p f).boot = s.boot := rfl
@[simp] theorem modPt_fatal (s : State) (p : PartId) (f : Part → Part) : (modPt s p f).fatal = s.fatal := rfl
@[simp] theorem modPt_dead (s : State) (p : PartId) (f : Part → Part) : (modPt s p f).dead = s.dead := rfl
@[simp] theorem modPt_mhz (s : State) (p : PartId) (f : Part → Part) : (modPt s p f).mhz = s.mhz := rfl
@[simp] theorem modPt_stallFor (s : State) (p : PartId) (f : Part → Part) : (modPt s p f).stallFor = s.stallFor := rfl
@[simp] theorem modPt_queryP (s : State) (p : PartId) (f : Part → Part) : (modPt s p f).queryP = s.queryP := rfl
@[simp] theorem modPt_queryQ (s : State) (p : PartId) (f : Part → Part) : (modPt s p f).queryQ = s.queryQ := rfl
@[simp] theorem modPt_iss (s : State) (p : PartId) (f : Part → Part) : (modPt s p f).iss = s.iss := rfl
@[simp] theorem modPt_agenda (s : State) (p : PartId) (f : Part → Part) : (modPt s p f).agenda = s.agenda := rfl
@[simp] theorem modPt_ch (s : State) (p : PartId) (f : Part → Part) : (modPt s p f).ch = s.ch := rfl
@[simp] theorem modPt_runs (s : State) (p : PartId) (f : Part → Part) : (modPt s p f).runs = s.runs := rfl
@[simp] theorem modPt_rr (s : State) (p : PartId) (f : Part → Part) : (modPt s p f).rr = s.rr := rfl
@[simp] theorem modPt_free (s : State) (p : PartId) (f : Part → Part) : (modPt s p f).free = s.free := rfl
@[simp] theorem modPt_ack (s : State) (p : PartId) (f : Part → Part) : (modPt s p f).ack = s.ack := rfl
@[simp] theorem modPt_events (s : State) (p : PartId) (f : Part → Part) : (modPt s p f).events = s.events := rfl

/-! modVf. -/
@[simp] theorem modVf_now (s : State) (v : VfId) (f : Vf → Vf) : (modVf s v f).now = s.now := rfl
@[simp] theorem modVf_us (s : State) (v : VfId) (f : Vf → Vf) : (modVf s v f).us = s.us := rfl
@[simp] theorem modVf_cores (s : State) (v : VfId) (f : Vf → Vf) : (modVf s v f).cores = s.cores := rfl
@[simp] theorem modVf_parts (s : State) (v : VfId) (f : Vf → Vf) : (modVf s v f).parts = s.parts := rfl
@[simp] theorem modVf_mem (s : State) (v : VfId) (f : Vf → Vf) : (modVf s v f).mem = s.mem := rfl
@[simp] theorem modVf_pubs (s : State) (v : VfId) (f : Vf → Vf) : (modVf s v f).pubs = s.pubs := rfl
@[simp] theorem modVf_cmds (s : State) (v : VfId) (f : Vf → Vf) : (modVf s v f).cmds = s.cmds := rfl
@[simp] theorem modVf_nextId (s : State) (v : VfId) (f : Vf → Vf) : (modVf s v f).nextId = s.nextId := rfl
@[simp] theorem modVf_regions (s : State) (v : VfId) (f : Vf → Vf) : (modVf s v f).regions = s.regions := rfl
@[simp] theorem modVf_mirrors (s : State) (v : VfId) (f : Vf → Vf) : (modVf s v f).mirrors = s.mirrors := rfl
@[simp] theorem modVf_copies (s : State) (v : VfId) (f : Vf → Vf) : (modVf s v f).copies = s.copies := rfl
@[simp] theorem modVf_panCopies (s : State) (v : VfId) (f : Vf → Vf) : (modVf s v f).panCopies = s.panCopies := rfl
@[simp] theorem modVf_ackWait (s : State) (v : VfId) (f : Vf → Vf) : (modVf s v f).ackWait = s.ackWait := rfl
@[simp] theorem modVf_rx (s : State) (v : VfId) (f : Vf → Vf) : (modVf s v f).rx = s.rx := rfl
@[simp] theorem modVf_sent (s : State) (v : VfId) (f : Vf → Vf) : (modVf s v f).sent = s.sent := rfl
@[simp] theorem modVf_flows (s : State) (v : VfId) (f : Vf → Vf) : (modVf s v f).flows = s.flows := rfl
@[simp] theorem modVf_outSeq (s : State) (v : VfId) (f : Vf → Vf) : (modVf s v f).outSeq = s.outSeq := rfl
@[simp] theorem modVf_partials (s : State) (v : VfId) (f : Vf → Vf) : (modVf s v f).partials = s.partials := rfl
@[simp] theorem modVf_tlb (s : State) (v : VfId) (f : Vf → Vf) : (modVf s v f).tlb = s.tlb := rfl
@[simp] theorem modVf_invals (s : State) (v : VfId) (f : Vf → Vf) : (modVf s v f).invals = s.invals := rfl
@[simp] theorem modVf_units (s : State) (v : VfId) (f : Vf → Vf) : (modVf s v f).units = s.units := rfl
@[simp] theorem modVf_errthr (s : State) (v : VfId) (f : Vf → Vf) : (modVf s v f).errthr = s.errthr := rfl
@[simp] theorem modVf_modesel (s : State) (v : VfId) (f : Vf → Vf) : (modVf s v f).modesel = s.modesel := rfl
@[simp] theorem modVf_stackTop (s : State) (v : VfId) (f : Vf → Vf) : (modVf s v f).stackTop = s.stackTop := rfl
@[simp] theorem modVf_debt (s : State) (v : VfId) (f : Vf → Vf) : (modVf s v f).debt = s.debt := rfl
@[simp] theorem modVf_badG (s : State) (v : VfId) (f : Vf → Vf) : (modVf s v f).badG = s.badG := rfl
@[simp] theorem modVf_boot (s : State) (v : VfId) (f : Vf → Vf) : (modVf s v f).boot = s.boot := rfl
@[simp] theorem modVf_fatal (s : State) (v : VfId) (f : Vf → Vf) : (modVf s v f).fatal = s.fatal := rfl
@[simp] theorem modVf_dead (s : State) (v : VfId) (f : Vf → Vf) : (modVf s v f).dead = s.dead := rfl
@[simp] theorem modVf_mhz (s : State) (v : VfId) (f : Vf → Vf) : (modVf s v f).mhz = s.mhz := rfl
@[simp] theorem modVf_stallFor (s : State) (v : VfId) (f : Vf → Vf) : (modVf s v f).stallFor = s.stallFor := rfl
@[simp] theorem modVf_queryP (s : State) (v : VfId) (f : Vf → Vf) : (modVf s v f).queryP = s.queryP := rfl
@[simp] theorem modVf_queryQ (s : State) (v : VfId) (f : Vf → Vf) : (modVf s v f).queryQ = s.queryQ := rfl
@[simp] theorem modVf_iss (s : State) (v : VfId) (f : Vf → Vf) : (modVf s v f).iss = s.iss := rfl
@[simp] theorem modVf_agenda (s : State) (v : VfId) (f : Vf → Vf) : (modVf s v f).agenda = s.agenda := rfl
@[simp] theorem modVf_ch (s : State) (v : VfId) (f : Vf → Vf) : (modVf s v f).ch = s.ch := rfl
@[simp] theorem modVf_runs (s : State) (v : VfId) (f : Vf → Vf) : (modVf s v f).runs = s.runs := rfl
@[simp] theorem modVf_rr (s : State) (v : VfId) (f : Vf → Vf) : (modVf s v f).rr = s.rr := rfl
@[simp] theorem modVf_free (s : State) (v : VfId) (f : Vf → Vf) : (modVf s v f).free = s.free := rfl
@[simp] theorem modVf_ack (s : State) (v : VfId) (f : Vf → Vf) : (modVf s v f).ack = s.ack := rfl
@[simp] theorem modVf_events (s : State) (v : VfId) (f : Vf → Vf) : (modVf s v f).events = s.events := rfl

/-! modMe. -/
@[simp] theorem modMe_now (s : State) (f : Core → Core) : (modMe s f).now = s.now := rfl
@[simp] theorem modMe_us (s : State) (f : Core → Core) : (modMe s f).us = s.us := rfl
@[simp] theorem modMe_parts (s : State) (f : Core → Core) : (modMe s f).parts = s.parts := rfl
@[simp] theorem modMe_vfs (s : State) (f : Core → Core) : (modMe s f).vfs = s.vfs := rfl
@[simp] theorem modMe_mem (s : State) (f : Core → Core) : (modMe s f).mem = s.mem := rfl
@[simp] theorem modMe_pubs (s : State) (f : Core → Core) : (modMe s f).pubs = s.pubs := rfl
@[simp] theorem modMe_cmds (s : State) (f : Core → Core) : (modMe s f).cmds = s.cmds := rfl
@[simp] theorem modMe_nextId (s : State) (f : Core → Core) : (modMe s f).nextId = s.nextId := rfl
@[simp] theorem modMe_regions (s : State) (f : Core → Core) : (modMe s f).regions = s.regions := rfl
@[simp] theorem modMe_mirrors (s : State) (f : Core → Core) : (modMe s f).mirrors = s.mirrors := rfl
@[simp] theorem modMe_copies (s : State) (f : Core → Core) : (modMe s f).copies = s.copies := rfl
@[simp] theorem modMe_panCopies (s : State) (f : Core → Core) : (modMe s f).panCopies = s.panCopies := rfl
@[simp] theorem modMe_ackWait (s : State) (f : Core → Core) : (modMe s f).ackWait = s.ackWait := rfl
@[simp] theorem modMe_rx (s : State) (f : Core → Core) : (modMe s f).rx = s.rx := rfl
@[simp] theorem modMe_sent (s : State) (f : Core → Core) : (modMe s f).sent = s.sent := rfl
@[simp] theorem modMe_flows (s : State) (f : Core → Core) : (modMe s f).flows = s.flows := rfl
@[simp] theorem modMe_outSeq (s : State) (f : Core → Core) : (modMe s f).outSeq = s.outSeq := rfl
@[simp] theorem modMe_partials (s : State) (f : Core → Core) : (modMe s f).partials = s.partials := rfl
@[simp] theorem modMe_tlb (s : State) (f : Core → Core) : (modMe s f).tlb = s.tlb := rfl
@[simp] theorem modMe_invals (s : State) (f : Core → Core) : (modMe s f).invals = s.invals := rfl
@[simp] theorem modMe_units (s : State) (f : Core → Core) : (modMe s f).units = s.units := rfl
@[simp] theorem modMe_errthr (s : State) (f : Core → Core) : (modMe s f).errthr = s.errthr := rfl
@[simp] theorem modMe_modesel (s : State) (f : Core → Core) : (modMe s f).modesel = s.modesel := rfl
@[simp] theorem modMe_stackTop (s : State) (f : Core → Core) : (modMe s f).stackTop = s.stackTop := rfl
@[simp] theorem modMe_debt (s : State) (f : Core → Core) : (modMe s f).debt = s.debt := rfl
@[simp] theorem modMe_badG (s : State) (f : Core → Core) : (modMe s f).badG = s.badG := rfl
@[simp] theorem modMe_boot (s : State) (f : Core → Core) : (modMe s f).boot = s.boot := rfl
@[simp] theorem modMe_fatal (s : State) (f : Core → Core) : (modMe s f).fatal = s.fatal := rfl
@[simp] theorem modMe_dead (s : State) (f : Core → Core) : (modMe s f).dead = s.dead := rfl
@[simp] theorem modMe_mhz (s : State) (f : Core → Core) : (modMe s f).mhz = s.mhz := rfl
@[simp] theorem modMe_stallFor (s : State) (f : Core → Core) : (modMe s f).stallFor = s.stallFor := rfl
@[simp] theorem modMe_queryP (s : State) (f : Core → Core) : (modMe s f).queryP = s.queryP := rfl
@[simp] theorem modMe_queryQ (s : State) (f : Core → Core) : (modMe s f).queryQ = s.queryQ := rfl
@[simp] theorem modMe_iss (s : State) (f : Core → Core) : (modMe s f).iss = s.iss := rfl
@[simp] theorem modMe_agenda (s : State) (f : Core → Core) : (modMe s f).agenda = s.agenda := rfl
@[simp] theorem modMe_ch (s : State) (f : Core → Core) : (modMe s f).ch = s.ch := rfl
@[simp] theorem modMe_runs (s : State) (f : Core → Core) : (modMe s f).runs = s.runs := rfl
@[simp] theorem modMe_rr (s : State) (f : Core → Core) : (modMe s f).rr = s.rr := rfl
@[simp] theorem modMe_free (s : State) (f : Core → Core) : (modMe s f).free = s.free := rfl
@[simp] theorem modMe_ack (s : State) (f : Core → Core) : (modMe s f).ack = s.ack := rfl
@[simp] theorem modMe_events (s : State) (f : Core → Core) : (modMe s f).events = s.events := rfl

/-! modIss. -/
@[simp] theorem modIss_now (s : State) (f : Issue → Issue) : (modIss s f).now = s.now := rfl
@[simp] theorem modIss_us (s : State) (f : Issue → Issue) : (modIss s f).us = s.us := rfl
@[simp] theorem modIss_cores (s : State) (f : Issue → Issue) : (modIss s f).cores = s.cores := rfl
@[simp] theorem modIss_parts (s : State) (f : Issue → Issue) : (modIss s f).parts = s.parts := rfl
@[simp] theorem modIss_vfs (s : State) (f : Issue → Issue) : (modIss s f).vfs = s.vfs := rfl
@[simp] theorem modIss_mem (s : State) (f : Issue → Issue) : (modIss s f).mem = s.mem := rfl
@[simp] theorem modIss_pubs (s : State) (f : Issue → Issue) : (modIss s f).pubs = s.pubs := rfl
@[simp] theorem modIss_cmds (s : State) (f : Issue → Issue) : (modIss s f).cmds = s.cmds := rfl
@[simp] theorem modIss_nextId (s : State) (f : Issue → Issue) : (modIss s f).nextId = s.nextId := rfl
@[simp] theorem modIss_regions (s : State) (f : Issue → Issue) : (modIss s f).regions = s.regions := rfl
@[simp] theorem modIss_mirrors (s : State) (f : Issue → Issue) : (modIss s f).mirrors = s.mirrors := rfl
@[simp] theorem modIss_copies (s : State) (f : Issue → Issue) : (modIss s f).copies = s.copies := rfl
@[simp] theorem modIss_panCopies (s : State) (f : Issue → Issue) : (modIss s f).panCopies = s.panCopies := rfl
@[simp] theorem modIss_ackWait (s : State) (f : Issue → Issue) : (modIss s f).ackWait = s.ackWait := rfl
@[simp] theorem modIss_rx (s : State) (f : Issue → Issue) : (modIss s f).rx = s.rx := rfl
@[simp] theorem modIss_sent (s : State) (f : Issue → Issue) : (modIss s f).sent = s.sent := rfl
@[simp] theorem modIss_flows (s : State) (f : Issue → Issue) : (modIss s f).flows = s.flows := rfl
@[simp] theorem modIss_outSeq (s : State) (f : Issue → Issue) : (modIss s f).outSeq = s.outSeq := rfl
@[simp] theorem modIss_partials (s : State) (f : Issue → Issue) : (modIss s f).partials = s.partials := rfl
@[simp] theorem modIss_tlb (s : State) (f : Issue → Issue) : (modIss s f).tlb = s.tlb := rfl
@[simp] theorem modIss_invals (s : State) (f : Issue → Issue) : (modIss s f).invals = s.invals := rfl
@[simp] theorem modIss_units (s : State) (f : Issue → Issue) : (modIss s f).units = s.units := rfl
@[simp] theorem modIss_errthr (s : State) (f : Issue → Issue) : (modIss s f).errthr = s.errthr := rfl
@[simp] theorem modIss_modesel (s : State) (f : Issue → Issue) : (modIss s f).modesel = s.modesel := rfl
@[simp] theorem modIss_stackTop (s : State) (f : Issue → Issue) : (modIss s f).stackTop = s.stackTop := rfl
@[simp] theorem modIss_debt (s : State) (f : Issue → Issue) : (modIss s f).debt = s.debt := rfl
@[simp] theorem modIss_badG (s : State) (f : Issue → Issue) : (modIss s f).badG = s.badG := rfl
@[simp] theorem modIss_boot (s : State) (f : Issue → Issue) : (modIss s f).boot = s.boot := rfl
@[simp] theorem modIss_fatal (s : State) (f : Issue → Issue) : (modIss s f).fatal = s.fatal := rfl
@[simp] theorem modIss_dead (s : State) (f : Issue → Issue) : (modIss s f).dead = s.dead := rfl
@[simp] theorem modIss_mhz (s : State) (f : Issue → Issue) : (modIss s f).mhz = s.mhz := rfl
@[simp] theorem modIss_stallFor (s : State) (f : Issue → Issue) : (modIss s f).stallFor = s.stallFor := rfl
@[simp] theorem modIss_queryP (s : State) (f : Issue → Issue) : (modIss s f).queryP = s.queryP := rfl
@[simp] theorem modIss_queryQ (s : State) (f : Issue → Issue) : (modIss s f).queryQ = s.queryQ := rfl
@[simp] theorem modIss_agenda (s : State) (f : Issue → Issue) : (modIss s f).agenda = s.agenda := rfl
@[simp] theorem modIss_ch (s : State) (f : Issue → Issue) : (modIss s f).ch = s.ch := rfl
@[simp] theorem modIss_runs (s : State) (f : Issue → Issue) : (modIss s f).runs = s.runs := rfl
@[simp] theorem modIss_rr (s : State) (f : Issue → Issue) : (modIss s f).rr = s.rr := rfl
@[simp] theorem modIss_free (s : State) (f : Issue → Issue) : (modIss s f).free = s.free := rfl
@[simp] theorem modIss_ack (s : State) (f : Issue → Issue) : (modIss s f).ack = s.ack := rfl
@[simp] theorem modIss_events (s : State) (f : Issue → Issue) : (modIss s f).events = s.events := rfl

/-! raise. -/
@[simp] theorem raise_now (s : State) (e : Event) : (raise s e).now = s.now := rfl
@[simp] theorem raise_us (s : State) (e : Event) : (raise s e).us = s.us := rfl
@[simp] theorem raise_cores (s : State) (e : Event) : (raise s e).cores = s.cores := rfl
@[simp] theorem raise_parts (s : State) (e : Event) : (raise s e).parts = s.parts := rfl
@[simp] theorem raise_vfs (s : State) (e : Event) : (raise s e).vfs = s.vfs := rfl
@[simp] theorem raise_mem (s : State) (e : Event) : (raise s e).mem = s.mem := rfl
@[simp] theorem raise_pubs (s : State) (e : Event) : (raise s e).pubs = s.pubs := rfl
@[simp] theorem raise_cmds (s : State) (e : Event) : (raise s e).cmds = s.cmds := rfl
@[simp] theorem raise_nextId (s : State) (e : Event) : (raise s e).nextId = s.nextId := rfl
@[simp] theorem raise_regions (s : State) (e : Event) : (raise s e).regions = s.regions := rfl
@[simp] theorem raise_mirrors (s : State) (e : Event) : (raise s e).mirrors = s.mirrors := rfl
@[simp] theorem raise_copies (s : State) (e : Event) : (raise s e).copies = s.copies := rfl
@[simp] theorem raise_panCopies (s : State) (e : Event) : (raise s e).panCopies = s.panCopies := rfl
@[simp] theorem raise_ackWait (s : State) (e : Event) : (raise s e).ackWait = s.ackWait := rfl
@[simp] theorem raise_rx (s : State) (e : Event) : (raise s e).rx = s.rx := rfl
@[simp] theorem raise_sent (s : State) (e : Event) : (raise s e).sent = s.sent := rfl
@[simp] theorem raise_flows (s : State) (e : Event) : (raise s e).flows = s.flows := rfl
@[simp] theorem raise_outSeq (s : State) (e : Event) : (raise s e).outSeq = s.outSeq := rfl
@[simp] theorem raise_partials (s : State) (e : Event) : (raise s e).partials = s.partials := rfl
@[simp] theorem raise_tlb (s : State) (e : Event) : (raise s e).tlb = s.tlb := rfl
@[simp] theorem raise_invals (s : State) (e : Event) : (raise s e).invals = s.invals := rfl
@[simp] theorem raise_units (s : State) (e : Event) : (raise s e).units = s.units := rfl
@[simp] theorem raise_errthr (s : State) (e : Event) : (raise s e).errthr = s.errthr := rfl
@[simp] theorem raise_modesel (s : State) (e : Event) : (raise s e).modesel = s.modesel := rfl
@[simp] theorem raise_stackTop (s : State) (e : Event) : (raise s e).stackTop = s.stackTop := rfl
@[simp] theorem raise_debt (s : State) (e : Event) : (raise s e).debt = s.debt := rfl
@[simp] theorem raise_badG (s : State) (e : Event) : (raise s e).badG = s.badG := rfl
@[simp] theorem raise_boot (s : State) (e : Event) : (raise s e).boot = s.boot := rfl
@[simp] theorem raise_fatal (s : State) (e : Event) : (raise s e).fatal = s.fatal := rfl
@[simp] theorem raise_dead (s : State) (e : Event) : (raise s e).dead = s.dead := rfl
@[simp] theorem raise_mhz (s : State) (e : Event) : (raise s e).mhz = s.mhz := rfl
@[simp] theorem raise_stallFor (s : State) (e : Event) : (raise s e).stallFor = s.stallFor := rfl
@[simp] theorem raise_queryP (s : State) (e : Event) : (raise s e).queryP = s.queryP := rfl
@[simp] theorem raise_queryQ (s : State) (e : Event) : (raise s e).queryQ = s.queryQ := rfl
@[simp] theorem raise_iss (s : State) (e : Event) : (raise s e).iss = s.iss := rfl
@[simp] theorem raise_agenda (s : State) (e : Event) : (raise s e).agenda = s.agenda := rfl
@[simp] theorem raise_ch (s : State) (e : Event) : (raise s e).ch = s.ch := rfl
@[simp] theorem raise_runs (s : State) (e : Event) : (raise s e).runs = s.runs := rfl
@[simp] theorem raise_rr (s : State) (e : Event) : (raise s e).rr = s.rr := rfl
@[simp] theorem raise_free (s : State) (e : Event) : (raise s e).free = s.free := rfl
@[simp] theorem raise_ack (s : State) (e : Event) : (raise s e).ack = s.ack := rfl

/-! ackOk. -/
@[simp] theorem ackOk_now (s : State) (d : Nat) : (ackOk s d).now = s.now := rfl
@[simp] theorem ackOk_us (s : State) (d : Nat) : (ackOk s d).us = s.us := rfl
@[simp] theorem ackOk_cores (s : State) (d : Nat) : (ackOk s d).cores = s.cores := rfl
@[simp] theorem ackOk_parts (s : State) (d : Nat) : (ackOk s d).parts = s.parts := rfl
@[simp] theorem ackOk_vfs (s : State) (d : Nat) : (ackOk s d).vfs = s.vfs := rfl
@[simp] theorem ackOk_mem (s : State) (d : Nat) : (ackOk s d).mem = s.mem := rfl
@[simp] theorem ackOk_pubs (s : State) (d : Nat) : (ackOk s d).pubs = s.pubs := rfl
@[simp] theorem ackOk_cmds (s : State) (d : Nat) : (ackOk s d).cmds = s.cmds := rfl
@[simp] theorem ackOk_nextId (s : State) (d : Nat) : (ackOk s d).nextId = s.nextId := rfl
@[simp] theorem ackOk_regions (s : State) (d : Nat) : (ackOk s d).regions = s.regions := rfl
@[simp] theorem ackOk_mirrors (s : State) (d : Nat) : (ackOk s d).mirrors = s.mirrors := rfl
@[simp] theorem ackOk_copies (s : State) (d : Nat) : (ackOk s d).copies = s.copies := rfl
@[simp] theorem ackOk_panCopies (s : State) (d : Nat) : (ackOk s d).panCopies = s.panCopies := rfl
@[simp] theorem ackOk_ackWait (s : State) (d : Nat) : (ackOk s d).ackWait = s.ackWait := rfl
@[simp] theorem ackOk_rx (s : State) (d : Nat) : (ackOk s d).rx = s.rx := rfl
@[simp] theorem ackOk_sent (s : State) (d : Nat) : (ackOk s d).sent = s.sent := rfl
@[simp] theorem ackOk_flows (s : State) (d : Nat) : (ackOk s d).flows = s.flows := rfl
@[simp] theorem ackOk_outSeq (s : State) (d : Nat) : (ackOk s d).outSeq = s.outSeq := rfl
@[simp] theorem ackOk_partials (s : State) (d : Nat) : (ackOk s d).partials = s.partials := rfl
@[simp] theorem ackOk_tlb (s : State) (d : Nat) : (ackOk s d).tlb = s.tlb := rfl
@[simp] theorem ackOk_invals (s : State) (d : Nat) : (ackOk s d).invals = s.invals := rfl
@[simp] theorem ackOk_units (s : State) (d : Nat) : (ackOk s d).units = s.units := rfl
@[simp] theorem ackOk_errthr (s : State) (d : Nat) : (ackOk s d).errthr = s.errthr := rfl
@[simp] theorem ackOk_modesel (s : State) (d : Nat) : (ackOk s d).modesel = s.modesel := rfl
@[simp] theorem ackOk_stackTop (s : State) (d : Nat) : (ackOk s d).stackTop = s.stackTop := rfl
@[simp] theorem ackOk_debt (s : State) (d : Nat) : (ackOk s d).debt = s.debt := rfl
@[simp] theorem ackOk_badG (s : State) (d : Nat) : (ackOk s d).badG = s.badG := rfl
@[simp] theorem ackOk_boot (s : State) (d : Nat) : (ackOk s d).boot = s.boot := rfl
@[simp] theorem ackOk_fatal (s : State) (d : Nat) : (ackOk s d).fatal = s.fatal := rfl
@[simp] theorem ackOk_dead (s : State) (d : Nat) : (ackOk s d).dead = s.dead := rfl
@[simp] theorem ackOk_mhz (s : State) (d : Nat) : (ackOk s d).mhz = s.mhz := rfl
@[simp] theorem ackOk_stallFor (s : State) (d : Nat) : (ackOk s d).stallFor = s.stallFor := rfl
@[simp] theorem ackOk_queryP (s : State) (d : Nat) : (ackOk s d).queryP = s.queryP := rfl
@[simp] theorem ackOk_queryQ (s : State) (d : Nat) : (ackOk s d).queryQ = s.queryQ := rfl
@[simp] theorem ackOk_iss (s : State) (d : Nat) : (ackOk s d).iss = s.iss := rfl
@[simp] theorem ackOk_agenda (s : State) (d : Nat) : (ackOk s d).agenda = s.agenda := rfl
@[simp] theorem ackOk_ch (s : State) (d : Nat) : (ackOk s d).ch = s.ch := rfl
@[simp] theorem ackOk_runs (s : State) (d : Nat) : (ackOk s d).runs = s.runs := rfl
@[simp] theorem ackOk_rr (s : State) (d : Nat) : (ackOk s d).rr = s.rr := rfl
@[simp] theorem ackOk_free (s : State) (d : Nat) : (ackOk s d).free = s.free := rfl
@[simp] theorem ackOk_events (s : State) (d : Nat) : (ackOk s d).events = s.events := rfl

/-! nack. -/
@[simp] theorem nack_now (s : State) : (nack s).now = s.now := rfl
@[simp] theorem nack_us (s : State) : (nack s).us = s.us := rfl
@[simp] theorem nack_cores (s : State) : (nack s).cores = s.cores := rfl
@[simp] theorem nack_parts (s : State) : (nack s).parts = s.parts := rfl
@[simp] theorem nack_vfs (s : State) : (nack s).vfs = s.vfs := rfl
@[simp] theorem nack_mem (s : State) : (nack s).mem = s.mem := rfl
@[simp] theorem nack_pubs (s : State) : (nack s).pubs = s.pubs := rfl
@[simp] theorem nack_cmds (s : State) : (nack s).cmds = s.cmds := rfl
@[simp] theorem nack_nextId (s : State) : (nack s).nextId = s.nextId := rfl
@[simp] theorem nack_regions (s : State) : (nack s).regions = s.regions := rfl
@[simp] theorem nack_mirrors (s : State) : (nack s).mirrors = s.mirrors := rfl
@[simp] theorem nack_copies (s : State) : (nack s).copies = s.copies := rfl
@[simp] theorem nack_panCopies (s : State) : (nack s).panCopies = s.panCopies := rfl
@[simp] theorem nack_ackWait (s : State) : (nack s).ackWait = s.ackWait := rfl
@[simp] theorem nack_rx (s : State) : (nack s).rx = s.rx := rfl
@[simp] theorem nack_sent (s : State) : (nack s).sent = s.sent := rfl
@[simp] theorem nack_flows (s : State) : (nack s).flows = s.flows := rfl
@[simp] theorem nack_outSeq (s : State) : (nack s).outSeq = s.outSeq := rfl
@[simp] theorem nack_partials (s : State) : (nack s).partials = s.partials := rfl
@[simp] theorem nack_tlb (s : State) : (nack s).tlb = s.tlb := rfl
@[simp] theorem nack_invals (s : State) : (nack s).invals = s.invals := rfl
@[simp] theorem nack_units (s : State) : (nack s).units = s.units := rfl
@[simp] theorem nack_errthr (s : State) : (nack s).errthr = s.errthr := rfl
@[simp] theorem nack_modesel (s : State) : (nack s).modesel = s.modesel := rfl
@[simp] theorem nack_stackTop (s : State) : (nack s).stackTop = s.stackTop := rfl
@[simp] theorem nack_debt (s : State) : (nack s).debt = s.debt := rfl
@[simp] theorem nack_badG (s : State) : (nack s).badG = s.badG := rfl
@[simp] theorem nack_boot (s : State) : (nack s).boot = s.boot := rfl
@[simp] theorem nack_fatal (s : State) : (nack s).fatal = s.fatal := rfl
@[simp] theorem nack_dead (s : State) : (nack s).dead = s.dead := rfl
@[simp] theorem nack_mhz (s : State) : (nack s).mhz = s.mhz := rfl
@[simp] theorem nack_stallFor (s : State) : (nack s).stallFor = s.stallFor := rfl
@[simp] theorem nack_queryP (s : State) : (nack s).queryP = s.queryP := rfl
@[simp] theorem nack_queryQ (s : State) : (nack s).queryQ = s.queryQ := rfl
@[simp] theorem nack_iss (s : State) : (nack s).iss = s.iss := rfl
@[simp] theorem nack_agenda (s : State) : (nack s).agenda = s.agenda := rfl
@[simp] theorem nack_ch (s : State) : (nack s).ch = s.ch := rfl
@[simp] theorem nack_runs (s : State) : (nack s).runs = s.runs := rfl
@[simp] theorem nack_rr (s : State) : (nack s).rr = s.rr := rfl
@[simp] theorem nack_free (s : State) : (nack s).free = s.free := rfl
@[simp] theorem nack_events (s : State) : (nack s).events = s.events := rfl

@[simp] theorem modIss_iss (s : State) (f : Issue → Issue) : (modIss s f).iss = f s.iss := rfl
@[simp] theorem raise_events (s : State) (e : Event) : (raise s e).events = s.events ++ [e] := rfl
@[simp] theorem ackOk_ack (s : State) (d : Nat) : (ackOk s d).ack = ⟨true, d⟩ := rfl
@[simp] theorem nack_ack (s : State) : (nack s).ack = ⟨false, 0⟩ := rfl

/-! The core, partition or virtual function that an update changes, and the others. -/
theorem cr_modCr (s : State) (c d : CoreId) (f : Core → Core) : cr (modCr s c f) d = if c = d then f (cr s c) else cr s d := by
  unfold cr modCr setCr
  by_cases h : c = d
  · subst h; simp [cr]
  · have : c.val ≠ d.val := fun e => h (Fin.ext e)
    simp [h, this]
@[simp] theorem cr_modCr_same (s : State) (c : CoreId) (f : Core → Core) : cr (modCr s c f) c = f (cr s c) := by simp [cr_modCr]
theorem cr_modCr_ne (s : State) {c d : CoreId} (h : c ≠ d) (f : Core → Core) : cr (modCr s c f) d = cr s d := by simp [cr_modCr, h]
theorem pt_modPt (s : State) (p q : PartId) (f : Part → Part) : pt (modPt s p f) q = if p = q then f (pt s p) else pt s q := by
  unfold pt modPt setPt
  by_cases h : p = q
  · subst h; simp [pt]
  · have : p.val ≠ q.val := fun e => h (Fin.ext e)
    simp [h, this]
@[simp] theorem pt_modPt_same (s : State) (p : PartId) (f : Part → Part) : pt (modPt s p f) p = f (pt s p) := by simp [pt_modPt]
theorem vf_modVf (s : State) (v w : VfId) (f : Vf → Vf) : vf (modVf s v f) w = if v = w then f (vf s v) else vf s w := by
  unfold vf modVf setVf
  by_cases h : v = w
  · subst h; simp [vf]
  · have : v.val ≠ w.val := fun e => h (Fin.ext e)
    simp [h, this]
@[simp] theorem vf_modVf_same (s : State) (v : VfId) (f : Vf → Vf) : vf (modVf s v f) v = f (vf s v) := by simp [vf_modVf]
@[simp] theorem me_modMe (s : State) (f : Core → Core) : me (modMe s f) = f (me s) := by unfold me modMe; simp
@[simp] theorem cr_modPt (s : State) (p : PartId) (f : Part → Part) (c : CoreId) : cr (modPt s p f) c = cr s c := rfl
@[simp] theorem cr_modVf (s : State) (v : VfId) (f : Vf → Vf) (c : CoreId) : cr (modVf s v f) c = cr s c := rfl
@[simp] theorem cr_modIss (s : State) (f : Issue → Issue) (c : CoreId) : cr (modIss s f) c = cr s c := rfl
@[simp] theorem pt_modCr (s : State) (c : CoreId) (f : Core → Core) (p : PartId) : pt (modCr s c f) p = pt s p := rfl
@[simp] theorem vf_modCr (s : State) (c : CoreId) (f : Core → Core) (v : VfId) : vf (modCr s c f) v = vf s v := rfl

/-- Setting a core twice keeps the second. -/
theorem setCr_setCr (s : State) (c : CoreId) (k l : Core) : setCr (setCr s c k) c l = setCr s c l := by
  unfold setCr
  congr 1
  apply Vector.ext
  intro i hi
  simp only [Vector.getElem_set]
  split <;> rfl
/-- Two changes of one core are one change. -/
theorem modCr_modCr (s : State) (c : CoreId) (f g : Core → Core) : modCr (modCr s c f) c g = modCr s c (fun k => g (f k)) := by
  show setCr (modCr s c f) c (g (cr (modCr s c f) c)) = _
  rw [cr_modCr_same]
  exact setCr_setCr s c _ _

end Sys2Proof.Machine
end

