-- ==== Sys2Proof/Laws/Slots.lean ====
section
/-! SUPPORT. What the shared operations of a slot can do, each said once: whether it commits, stalls or traps, and what a write
of a register changes and leaves (R29 to R37). -/
namespace Sys2Proof.Machine

/-! Committing a slot. -/

/-- A ready slot with no fault and no stall of its own is due to commit. -/
theorem due_go {i : Instr} {s : State} (h : Ready i s) : dueWith i [] none false s = .go := by
  obtain ⟨_, h2, h3⟩ := h
  have h4 : (srcRegs i).any (fun r => emptyReg s.iss.regs r.1 && r.2) = false := by
    rw [List.any_eq_false] at h2 ⊢
    intro r hr
    simp [h2 r hr]
  simp [dueWith, h2, h3, h4]
/-- A ready slot commits its effect, and the next slot follows. -/
theorem runSlot_go {i : Instr} {s : State} (h : Ready i s) (eff : State → State) :
    runSlot i none false eff s = .next (nextSlot (eff s)) := by
  unfold runSlot runWith
  rw [due_go h, h.1]
  rfl
/-- A ready slot with a fault of its own traps. -/
theorem runSlot_trap {i : Instr} {s : State} (h : Ready i s) (t : TrapInfo) (st : Bool) (eff : State → State) :
    runSlot i (some t) st eff s = .next (takeTrap t s) := by
  obtain ⟨h1, h2, h3⟩ := h
  have h4 : (srcRegs i).any (fun r => emptyReg s.iss.regs r.1 && r.2) = false := by
    rw [List.any_eq_false] at h2 ⊢
    intro r hr
    simp [h2 r hr]
  simp [runSlot, runWith, dueWith, h1, h2, h4]
/-- A slot that is due to stall leaves the state as it is. -/
theorem runSlot_stall {i : Instr} {s : State} (h : Ready i s) (eff : State → State) : runSlot i none true eff s = .next s := by
  obtain ⟨h1, h2, h3⟩ := h
  have h4 : (srcRegs i).any (fun r => emptyReg s.iss.regs r.1 && r.2) = false := by
    rw [List.any_eq_false] at h2 ⊢
    intro r hr
    simp [h2 r hr]
  simp [runSlot, runWith, dueWith, h1, h2, h4]
/-- Outside a committing bundle a slot does nothing. -/
theorem runWith_idle {i : Instr} {x : List (RegId × Bool)} {f : Option TrapInfo} {b : Bool} {eff : State → State} {s : State}
    (h : s.iss.act = false) : runWith i x f b eff s = .next s := by simp [runWith, h]
/-- A slot always answers a next state. -/
theorem runWith_next (i : Instr) (x : List (RegId × Bool)) (f : Option TrapInfo) (b : Bool) (eff : State → State) (s : State) :
    ∃ t, runWith i x f b eff s = .next t := by
  unfold runWith
  split
  · exact ⟨_, rfl⟩
  · split <;> exact ⟨_, rfl⟩

/-! Marks on a write. -/

/-- A core whose register r a bundle has written: in a handler its latch entry goes (R320). -/
def noted (s : State) (r : RegId) (k : Core) : Core :=
  { k with latch := if s.iss.handler then k.latch.filter (fun e => e.reg ≠ r) else k.latch }
/-- A note changes the committing core's latch and the list of written registers, and nothing else. -/
theorem note_eq (r : RegId) (s : State) :
    note r s = modIss (modMe s (noted s r)) (fun i => { i with wrote := r :: i.wrote }) := by
  by_cases h : s.iss.handler = true
  · have e : noted s r = fun k => { k with latch := k.latch.filter (fun e => e.reg ≠ r) } := by
      funext k; simp [noted, h]
    rw [e]
    unfold note
    rw [if_pos (by exact h)]
    rfl
  · have e : noted s r = fun k => k := by funext k; simp [noted, h]
    have e2 : modMe s (fun k => k) = s := by simp [modMe, modCr, setCr, cr]
    rw [e, e2]
    unfold note
    rw [if_neg (by exact h)]
/-- A change of the committing core with a note, as one record. -/
theorem note_modMe (r : RegId) (f : Core → Core) (s : State) : note r (modMe s f) =
    modIss (modMe s (fun k => noted s r (f k))) (fun i => { i with wrote := r :: i.wrote }) := by
  rw [note_eq]
  congr 1
  exact modCr_modCr _ _ _ _
theorem nextSlot_act {s : State} (h : s.iss.act = true) : nextSlot s = { s with iss := { s.iss with slot := s.iss.slot + 1 } } := by
  simp [nextSlot, modIss, h]

/-- Outside a committing bundle there is no slot to follow. -/
theorem nextSlot_idle {s : State} (h : s.iss.act = false) : nextSlot s = s := by
  have e : (if s.iss.act then s.iss.slot + 1 else s.iss.slot) = s.iss.slot := if_neg (by rw [h]; decide)
  show { s with iss := { s.iss with slot := if s.iss.act then s.iss.slot + 1 else s.iss.slot } } = s
  rw [e]

/-- A state that differs in the committing core and in the bundle's record alone. -/
theorem onlyCore_of (s : State) (k : Core) (i : Issue) (h : i.core = s.iss.core) :
    OnlyCore s { s with cores := s.cores.set s.iss.core k, iss := i } ∧
    me { s with cores := s.cores.set s.iss.core k, iss := i } = k := by
  have e : me { s with cores := s.cores.set s.iss.core k, iss := i } = k := by simp [me, cr, h]
  refine ⟨?_, e⟩
  unfold OnlyCore
  rw [e]

/-- The state after a slot that changes only its core's own record and notes one register. -/
theorem next_note_modMe (r : RegId) (f : Core → Core) (s : State) (h : s.iss.act = true) :
    OnlyCore s (nextSlot (note r (modMe s f))) ∧ SlotDone s (nextSlot (note r (modMe s f))) ∧
    me (nextSlot (note r (modMe s f))) = noted s r (f (me s)) := by
  have ha : (modIss (modMe s (fun k => noted s r (f k))) (fun i => { i with wrote := r :: i.wrote })).iss.act = true := h
  rw [note_modMe, nextSlot_act ha]
  have hm : me (modMe s (fun k => noted s r (f k))) = noted s r (f (me s)) := me_modMe _ _
  exact ⟨(onlyCore_of s (noted s r (f (me s))) { s.iss with wrote := r :: s.iss.wrote, slot := s.iss.slot + 1 } rfl).1, rfl, hm⟩

/-! What each register write does. -/

theorem toFin_ne {n : Nat} {a b : BitVec n} (h : a ≠ b) : a.toNat ≠ b.toNat := fun e => h (BitVec.eq_of_toNat_eq e)

/-! A core's registers after one of them is set. -/
theorem setS_eq (k : Core) (d : BitVec 6) (x : SReg) :
    k.setS d x = { k with regs := { k.regs with s := if d = 0 then k.regs.s else k.regs.s.set d.toFin x } } := by
  unfold Core.setS; by_cases h : d = 0 <;> simp only [h, if_true, if_false]
theorem setP_eq (k : Core) (d : BitVec 5) (x : Bool) : k.setP d x = { k with regs := { k.regs with
    p := if d = 0 then k.regs.p else if x then k.regs.p ||| BitVec.twoPow 32 d.toNat else k.regs.p &&& ~~~(BitVec.twoPow 32 d.toNat) } } := by
  unfold Core.setP; by_cases h : d = 0 <;> simp only [h, if_true, if_false]
theorem setB_eq (k : Core) (d : BitVec 3) (x : CAddr) :
    k.setB d x = { k with regs := { k.regs with b := if d = 0 then k.regs.b else k.regs.b.set d.toFin x } } := by
  unfold Core.setB; by_cases h : d = 0 <;> simp only [h, if_true, if_false]
theorem setM_eq (k : Core) (d : BitVec 3) (x : W64) :
    k.setM d x = { k with regs := { k.regs with m := if d = 0 then k.regs.m else k.regs.m.set d.toFin x } } := by
  unfold Core.setM; by_cases h : d = 0 <;> simp only [h, if_true, if_false]

/-- A write of a scalar (R32, R33). -/
theorem writesS (d : BitVec 6) (x : W64) (s : State) (h : s.iss.act = true) : WritesS s (.next (nextSlot (wrS d x s))) d x := by
  obtain ⟨h1, h2, h3⟩ := next_note_modMe (.s d) (fun k => k.setS d ⟨x, true⟩) s h
  rw [setS_eq] at h3
  refine ⟨_, rfl, h1, h2, ?_⟩
  rw [wrS, Noted, h3]
  refine ⟨rfl, ?_, ?_, ?_, rfl⟩
  · by_cases hd : d = 0#6 <;> simp [noted, rdS, hd]
  · by_cases hd : d = 0#6 <;> simp [noted, fullS, hd]
  · intro n hn
    have := Ne.symm (toFin_ne hn)
    by_cases hd : d = 0#6 <;> simp [noted, rdS, fullS, hd, Vector.getElem_set_ne _ _ this]
/-- A write of a predicate (R32). -/
theorem writesP (d : BitVec 5) (x : Bool) (s : State) (h : s.iss.act = true) : WritesP s (.next (nextSlot (wrP d x s))) d x := by
  obtain ⟨h1, h2, h3⟩ := next_note_modMe (.p d) (fun k => k.setP d x) s h
  rw [setP_eq] at h3
  refine ⟨_, rfl, h1, h2, ?_⟩
  rw [wrP, Noted, h3]
  refine ⟨rfl, ?_, ?_, rfl⟩
  · by_cases hd : d = 0#5
    · simp [noted, rdP, hd]
    · have := d.isLt
      cases x <;> simp [noted, rdP, hd] <;> omega
  · intro n hn
    have hne : n.toNat ≠ d.toNat := fun e => hn (BitVec.eq_of_toNat_eq e)
    by_cases hd : d = 0#5
    · simp [noted, rdP, hd]
    · have h5 : n.toNat < 32 := n.isLt
      cases x <;> simp [noted, rdP, hd, hne, Ne.symm hne, h5]
/-- A write of a branch target (R32, R79). -/
theorem writesB (d : BitVec 3) (x : CAddr) (s : State) (h : s.iss.act = true) : WritesB s (.next (nextSlot (wrB d x s))) d x := by
  obtain ⟨h1, h2, h3⟩ := next_note_modMe (.b d) (fun k => (k.setB d x).young d) s h
  simp only [setB_eq, Core.young] at h3
  refine ⟨_, rfl, h1, h2, ?_⟩
  rw [wrB, Noted]
  simp only [setB_eq, Core.young, h3]
  refine ⟨rfl, ?_, ?_, rfl, rfl⟩
  · intro f; by_cases hd : d = 0#3 <;> simp [noted, rdB, hd]
  · intro n hn f
    have := Ne.symm (toFin_ne hn)
    by_cases hd : d = 0#3 <;> simp [noted, rdB, hd, Vector.getElem_set_ne _ _ this]
/-- A write of a mask (R32). -/
theorem writesM (d : BitVec 3) (x : W64) (s : State) (h : s.iss.act = true) : WritesM s (.next (nextSlot (wrM d x s))) d x := by
  obtain ⟨h1, h2, h3⟩ := next_note_modMe (.m d) (fun k => k.setM d x) s h
  rw [setM_eq] at h3
  refine ⟨_, rfl, h1, h2, ?_⟩
  rw [wrM, Noted, h3]
  refine ⟨rfl, ?_, ?_, rfl⟩
  · by_cases hd : d = 0#3 <;> simp [noted, rdM, hd]
  · intro n hn
    have := Ne.symm (toFin_ne hn)
    by_cases hd : d = 0#3 <;> simp [noted, rdM, hd, Vector.getElem_set_ne _ _ this]
/-- A write of a v register (R32, R33). -/
theorem writesV (d : BitVec 6) (x : VBits) (t : Tag) (s : State) (h : s.iss.act = true) :
    WritesV s (.next (nextSlot (wrV d x t s))) d x t := by
  obtain ⟨h1, h2, h3⟩ := next_note_modMe (.v d) (fun k => k.setV d ⟨x, t, true⟩) s h
  unfold Core.setV at h3
  refine ⟨_, rfl, h1, h2, ?_⟩
  rw [wrV, Noted]
  unfold Core.setV
  rw [h3]
  refine ⟨rfl, ?_, ?_, rfl⟩
  · simp [noted, rdV]
  · intro n hn
    have := Ne.symm (toFin_ne hn)
    simp [noted, rdV, Vector.getElem_set_ne _ _ this]
/-- A write of a tile (R32). -/
theorem writesZ (d : BitVec 2) (x : Tile) (s : State) (h : s.iss.act = true) : WritesZ s (.next (nextSlot (wrZ d x s))) d x := by
  obtain ⟨h1, h2, h3⟩ := next_note_modMe (.z d) (fun k => k.setZ d x) s h
  unfold Core.setZ at h3
  refine ⟨_, rfl, h1, h2, ?_⟩
  rw [wrZ, Noted]
  unfold Core.setZ
  rw [h3]
  refine ⟨rfl, ?_, ?_, rfl⟩
  · simp [noted, rdZ]
  · intro n hn
    have := Ne.symm (toFin_ne hn)
    simp [noted, rdZ, Vector.getElem_set_ne _ _ this]

end Sys2Proof.Machine
end

