-- ==== Sys2Proof/Laws/Vectors.lean ====
section
/-! SUPPORT. What the merge of V-slot results does, element by element, and what a result in flight is (R33, R118, R132, R136). -/
namespace Sys2Proof.Machine

/-- Bit i of a value packed from elements of width w. -/
theorem getLsbD_place {w : Nat} (x : VBits) (y : BitVec w) (e i : Nat) (hx : ∀ j, w * e ≤ j → x.getLsbD j = false) :
    (x ||| (y.setWidth 2048 <<< (w * e))).getLsbD i =
      if i < w * e then x.getLsbD i else (decide (i < 2048) && y.getLsbD (i - w * e)) := by
  by_cases h : i < w * e
  · simp [h, BitVec.getLsbD_or, BitVec.getLsbD_shiftLeft]
  · have h2 : w * e ≤ i := by omega
    by_cases h3 : i < 2048
    · rw [BitVec.getLsbD_or, hx i h2, BitVec.getLsbD_shiftLeft, BitVec.getLsbD_setWidth]
      simp [h, h3, show i - w * e < 2048 by omega]
    · simp [h, hx i h2, BitVec.getLsbD_or, BitVec.getLsbD_shiftLeft, BitVec.getLsbD_setWidth, h3]

/-- The value that element e takes in a merge (R136). -/
def mergeVal (old : VBits) (w : Nat) (m : W64) (f : Nat → Rounded) (e : Nat) : BitVec w :=
  if enabled m w e then BitVec.ofNat w (f e).code else elem old w e
theorem mergeGo_succ (old : VBits) (w : Nat) (m : W64) (f : Nat → Rounded) (n : Nat) :
    (mergeGo old w m f (n + 1)).1 = (mergeGo old w m f n).1 ||| ((mergeVal old w m f n).setWidth 2048 <<< (w * n)) := by
  by_cases h : enabled m w n = true
  · simp [mergeGo, mergeVal, h]
  · simp [mergeGo, mergeVal, h]
/-- Every bit of a merged register. -/
theorem mergeGo_bit (old : VBits) {w : Nat} (hw : 0 < w) (m : W64) (f : Nat → Rounded) : ∀ n i,
    (mergeGo old w m f n).1.getLsbD i =
      (decide (i < w * n) && (decide (i < 2048) && (mergeVal old w m f (i / w)).getLsbD (i % w)))
  | 0, i => by simp [mergeGo]
  | n + 1, i => by
    rw [mergeGo_succ, getLsbD_place _ _ _ _ (fun j hj => by rw [mergeGo_bit old hw m f n j]; simp [show ¬ j < w * n by omega])]
    split
    · next h =>
      rw [mergeGo_bit old hw m f n i]
      have : i < w * (n + 1) := by rw [Nat.mul_succ]; omega
      simp [h, this]
    · next h =>
      by_cases h2 : i < w * (n + 1)
      · have hd : i / w = n := by
          rw [Nat.mul_succ] at h2
          apply Nat.div_eq_of_lt_le
          · rw [Nat.mul_comm]; omega
          · rw [Nat.succ_mul, Nat.mul_comm]; omega
        have hm : i % w = i - w * n := by
          have := Nat.div_add_mod i w
          rw [hd] at this; omega
        rw [hd, hm]; simp [h2]
      · have : (mergeVal old w m f n).getLsbD (i - w * n) = false := by
          apply BitVec.getLsbD_of_ge
          rw [Nat.mul_succ] at h2; omega
        simp [h2, this]
/-- An element of a merged register (R136). -/
theorem elem_mergeGo (old : VBits) {w : Nat} (hw : 0 < w) (m : W64) (f : Nat → Rounded) {n e : Nat} (he : e < n) (hn : w * n ≤ 2048) :
    elem (mergeGo old w m f n).1 w e = mergeVal old w m f e := by
  apply BitVec.eq_of_getLsbD_eq
  intro j hj
  have h1 : w * e + j < w * n := by
    have : w * (e + 1) ≤ w * n := Nat.mul_le_mul_left w he
    rw [Nat.mul_succ] at this; omega
  have h2 : (w * e + j) / w = e := by
    rw [Nat.mul_add_div hw, Nat.div_eq_of_lt hj]; rfl
  have h3 : (w * e + j) % w = j := by
    rw [Nat.mul_add_mod]; exact Nat.mod_eq_of_lt hj
  rw [elem, BitVec.getLsbD_extractLsb', mergeGo_bit old hw, h2, h3]
  simp [h1, hj, show w * e + j < 2048 by omega]
/-- The flags of a merge: those of its enabled elements (R132). -/
theorem mergeGo_flag (old : VBits) (w : Nat) (m : W64) (f : Nat → Rounded) (b : Nat) : ∀ n,
    (mergeGo old w m f n).2.getLsbD b = (upto n).any (fun e => enabled m w e && (flagsOf (f e)).getLsbD b)
  | 0 => by simp [mergeGo, upto]
  | n + 1 => by
    have ih := mergeGo_flag old w m f b n
    by_cases h : enabled m w n = true
    · simp [mergeGo, upto, h, ih, BitVec.getLsbD_or]
    · simp [mergeGo, upto, h, ih]

/-- Every format's elements tile the register, and 2048 bits hold them. -/
theorem tagWidth_pos (t : Nat) : 0 < tagWidth t := by
  unfold tagWidth; split <;> decide
theorem width_fits (t : Nat) : tagWidth t * (2048 / tagWidth t) ≤ 2048 := Nat.mul_div_le 2048 _

/-- A V-slot result at commit merges (R136). -/
theorem mergesV (d : BitVec 6) (t : Tag) (m : BitVec 3) (f : Nat → Rounded) (s : State) (h : s.iss.act = true) :
    MergesV s (.next (nextSlot (vOut d t m f s))) d t m f := by
  have e : vOut d t m f s = note (.v d) (modMe s (fun k => { k.setV d ⟨(merged d (tagWidth t.toNat) (srcM s m) f s).1, t, true⟩ with
      flags := k.flags ||| (merged d (tagWidth t.toNat) (srcM s m) f s).2 })) := by
    rw [note_modMe]
    show setFlags (merged d (tagWidth t.toNat) (srcM s m) f s).2
      (note (.v d) (modMe s (fun k => k.setV d ⟨(merged d (tagWidth t.toNat) (srcM s m) f s).1, t, true⟩))) = _
    rw [note_modMe]
    exact congrArg (fun x => modIss x (fun i => { i with wrote := .v d :: i.wrote })) (modCr_modCr s s.iss.core
      (fun k => noted s (.v d) (k.setV d ⟨(merged d (tagWidth t.toNat) (srcM s m) f s).1, t, true⟩))
      (fun k => { k with flags := k.flags ||| (merged d (tagWidth t.toNat) (srcM s m) f s).2 }))
  rw [e]
  obtain ⟨h1, h2, h3⟩ := next_note_modMe (.v d) (fun k => { k.setV d ⟨(merged d (tagWidth t.toNat) (srcM s m) f s).1, t, true⟩ with
      flags := k.flags ||| (merged d (tagWidth t.toNat) (srcM s m) f s).2 }) s h
  refine ⟨_, rfl, h1, h2, ?_⟩
  rw [Noted, h3]
  unfold Core.setV
  refine ⟨rfl, ?_, ?_, ?_, ?_, ?_, rfl⟩
  · simp [noted, rdV]
  · simp [noted, rdV]
  · intro e he
    have := elem_mergeGo (rdV (me s).regs d).bits (tagWidth_pos t.toNat) (srcM s m) f he (width_fits t.toNat)
    simpa [noted, rdV, merged, mergeVal] using this
  · intro b
    simp [noted, merged, BitVec.getLsbD_or, mergeGo_flag]
  · intro n hn
    have := Ne.symm (toFin_ne hn)
    simp [noted, rdV, Vector.getElem_set_ne _ _ this]

/-! Results in flight (R33). -/

/-- A note followed by a change of the committing core that touches neither its latch nor the list of written registers. -/
theorem noted_then (r : RegId) (f g : Core → Core) (s : State) (hg : ∀ k, g (noted s r (f k)) = noted s r (g (f k))) :
    modMe (note r (modMe s f)) g = note r (modMe s (fun k => g (f k))) := by
  rw [note_modMe, note_modMe]
  have e : (fun k => noted s r (g (f k))) = fun k => g (noted s r (f k)) := funext (fun k => (hg k).symm)
  rw [e]
  exact congrArg (fun x => modIss x (fun i => { i with wrote := r :: i.wrote })) (modCr_modCr s s.iss.core (fun k => noted s r (f k)) g)

/-- A scalar result put in flight (R33, R72). -/
theorem flightS (d : BitVec 6) (n : Nat) (x : W64) (s : State) (h : s.iss.act = true) :
    FlightS s (.next (nextSlot (launchS d n x s))) d (s.iss.t + n) x := by
  by_cases hd : d = 0
  · have e : launchS d n x s = note (.s d) (modMe s (fun k => k)) := by
      have e2 : modMe s (fun k => k) = s := by simp [modMe, modCr, setCr, cr]
      unfold launchS; rw [if_pos hd, e2]
    rw [e]
    obtain ⟨h1, h2, h3⟩ := next_note_modMe (.s d) (fun k => k) s h
    refine ⟨_, rfl, h1, h2, ?_⟩
    rw [Noted, h3]
    refine ⟨rfl, fun h => absurd hd h, fun _ => rfl, fun n _ => ⟨rfl, rfl⟩, rfl⟩
  · have e : launchS d n x s = note (.s d) (modMe s (fun k => (fun k : Core => { k with
        pend := k.pend ++ [⟨k.seq, .calc, [.s d], s.iss.t + n, x.setWidth 4096, 0, []⟩], seq := k.seq + 1 }) (k.setS d ⟨rdS k.regs d, false⟩))) := by
      unfold launchS; rw [if_neg hd]
      exact noted_then (.s d) (fun k => k.setS d ⟨rdS k.regs d, false⟩) _ s (fun k => rfl)
    rw [e]
    obtain ⟨h1, h2, h3⟩ := next_note_modMe (.s d) (fun k => (fun k : Core => { k with
        pend := k.pend ++ [⟨k.seq, .calc, [.s d], s.iss.t + n, x.setWidth 4096, 0, []⟩], seq := k.seq + 1 }) (k.setS d ⟨rdS k.regs d, false⟩)) s h
    simp only [setS_eq] at h3
    refine ⟨_, rfl, h1, h2, ?_⟩
    simp only [setS_eq, Noted, h3]
    refine ⟨rfl, fun _ => ⟨?_, rfl⟩, fun h => absurd h hd, ?_, rfl⟩
    · have hd' : ¬ d = 0#6 := hd
      simp [noted, fullS, hd']
    · intro m hm
      have := Ne.symm (toFin_ne hm)
      have hd' : ¬ d = 0#6 := hd
      simp [noted, rdS, fullS, hd', Vector.getElem_set_ne _ _ this]

/-- A v register put in flight, with flags at commit (R33, R147, R176). -/
theorem flightV (d : BitVec 6) (t : Tag) (n : Nat) (x : VBits) (f : BitVec 7) (s : State) (h : s.iss.act = true) :
    FlightV s (.next (nextSlot (setFlags f (launchV d t n x s)))) d t (s.iss.t + n) x f := by
  have e : setFlags f (launchV d t n x s) = note (.v d) (modMe s (fun k => (fun k : Core => { k with flags := k.flags ||| f }) ((fun k : Core => { k with
      pend := k.pend ++ [⟨k.seq, .calc, [.v d], s.iss.t + n, x.setWidth 4096, 0, []⟩], seq := k.seq + 1 }) (k.setV d ⟨(rdV k.regs d).bits, t, false⟩)))) := by
    have e1 : launchV d t n x s = _ := noted_then (.v d) (fun k => k.setV d ⟨(rdV k.regs d).bits, t, false⟩) (fun k => { k with
      pend := k.pend ++ [⟨k.seq, .calc, [.v d], s.iss.t + n, x.setWidth 4096, 0, []⟩], seq := k.seq + 1 }) s (fun k => rfl)
    rw [e1]
    exact noted_then (.v d) _ (fun k : Core => { k with flags := k.flags ||| f }) s (fun k => rfl)
  rw [e]
  obtain ⟨h1, h2, h3⟩ := next_note_modMe (.v d) (fun k => (fun k : Core => { k with flags := k.flags ||| f }) ((fun k : Core => { k with
      pend := k.pend ++ [⟨k.seq, .calc, [.v d], s.iss.t + n, x.setWidth 4096, 0, []⟩], seq := k.seq + 1 }) (k.setV d ⟨(rdV k.regs d).bits, t, false⟩))) s h
  simp only [Core.setV] at h3
  refine ⟨_, rfl, h1, h2, ?_⟩
  simp only [Core.setV, Noted, h3]
  refine ⟨rfl, ?_, rfl, rfl, ?_, rfl⟩
  · simp [noted, rdV]
  · intro m hm
    have := Ne.symm (toFin_ne hm)
    simp [noted, rdV, Vector.getElem_set_ne _ _ this]

/-! The shared forms of the A and V slots, each said once. -/

theorem scalarOut_writes {i : Instr} {s : State} (h : Ready i s) (d : BitVec 6) (x : State → W64) : WritesS s (scalarOut i d x s) d (x s) := by
  unfold scalarOut
  rw [runSlot_go h]
  exact writesS d (x s) s h.1
theorem divOut_flight {i : Instr} {s : State} (h : Ready i s) (d : BitVec 6) (x : State → W64) :
    FlightS s (divOut i d x s) d (s.iss.t + 24) (x s) := by
  unfold divOut
  rw [runSlot_go h]
  exact flightS d 24 (x s) s h.1
theorem predOut_writes {i : Instr} {s : State} (h : Ready i s) (d : BitVec 5) (x : State → Bool) : WritesP s (predOut i d x s) d (x s) := by
  unfold predOut
  rw [runSlot_go h]
  exact writesP d (x s) s h.1
/-- A slot that merges with no fault of its own. -/
theorem runSlot_merges {i : Instr} {s : State} (h : Ready i s) (d : BitVec 6) (t : Tag) (m : BitVec 3) (f : State → Nat → Rounded) :
    MergesV s (runSlot i none false (fun s => vOut d t m (f s) s) s) d t m (f s) := by
  rw [runSlot_go h]
  exact mergesV d t m (f s) s h.1
theorem runSlot_writesV {i : Instr} {s : State} (h : Ready i s) (d : BitVec 6) (t : State → Tag) (x : State → VBits) :
    WritesV s (runSlot i none false (fun s => wrV d (x s) (t s) s) s) d (x s) (t s) := by
  rw [runSlot_go h]
  exact writesV d (x s) (t s) s h.1
theorem runSlot_writesM {i : Instr} {s : State} (h : Ready i s) (d : BitVec 3) (x : State → W64) :
    WritesM s (runSlot i none false (fun s => wrM d (x s) s) s) d (x s) := by
  rw [runSlot_go h]
  exact writesM d (x s) s h.1
theorem runSlot_writesS {i : Instr} {s : State} (h : Ready i s) (d : BitVec 6) (x : State → W64) :
    WritesS s (runSlot i none false (fun s => wrS d (x s) s) s) d (x s) := by
  rw [runSlot_go h]
  exact writesS d (x s) s h.1
theorem runSlot_writesP {i : Instr} {s : State} (h : Ready i s) (d : BitVec 5) (x : State → Bool) :
    WritesP s (runSlot i none false (fun s => wrP d (x s) s) s) d (x s) := by
  rw [runSlot_go h]
  exact writesP d (x s) s h.1
theorem runSlot_writesB {i : Instr} {s : State} (h : Ready i s) (d : BitVec 3) (x : State → CAddr) :
    WritesB s (runSlot i none false (fun s => wrB d (x s) s) s) d (x s) := by
  rw [runSlot_go h]
  exact writesB d (x s) s h.1
theorem runSlot_writesZ {i : Instr} {s : State} (h : Ready i s) (d : BitVec 2) (x : State → Tile) :
    WritesZ s (runSlot i none false (fun s => wrZ d (x s) s) s) d (x s) := by
  rw [runSlot_go h]
  exact writesZ d (x s) s h.1
theorem runSlot_flightV {i : Instr} {s : State} (h : Ready i s) (d : BitVec 6) (t : Tag) (n : Nat) (x : State → VBits) (f : State → BitVec 7) :
    FlightV s (runSlot i none false (fun s => setFlags (f s) (launchV d t n (x s) s)) s) d t (s.iss.t + n) (x s) (f s) := by
  rw [runSlot_go h]
  exact flightV d t n (x s) (f s) s h.1

end Sys2Proof.Machine
end

