-- ==== Sys2Proof/Laws/Numbers.lean ====
section
/-! SUPPORT. Small laws of the model's lists, numbers, codes and vectors of elements. -/
namespace Sys2Proof.Machine

/-- The model's counting list is the library's. -/
theorem upto_range : ∀ n, upto n = List.range n
  | 0 => rfl
  | n + 1 => by rw [upto, List.range_succ, upto_range n]
/-- The model's sum is the library's. -/
theorem sumNat_eq : ∀ l : List Nat, sumNat l = l.sum
  | [] => rfl
  | x :: l => by simp [sumNat, sumNat_eq l]
/-- What a span holds. -/
theorem span_mem (x : Nat) : ∀ a n, x ∈ span a n ↔ a ≤ x ∧ x < a + n
  | a, 0 => by simp [span]
  | a, n + 1 => by simp [span, span_mem x (a + 1) n]; omega
/-- The little-endian bytes of a number: how many, and which. -/
theorem bytesOf_len : ∀ (n x : Nat), (bytesOf n x).length = n
  | 0, _ => rfl
  | n + 1, x => by simp [bytesOf, bytesOf_len n]
theorem bytesOf_get : ∀ (n x i : Nat), i < n → (bytesOf n x).getD i 0 = BitVec.ofNat 8 (x / 256 ^ i)
  | 0, _, _, h => by omega
  | n + 1, x, 0, _ => by simp [bytesOf]
  | n + 1, x, i + 1, h => by
    have := bytesOf_get n (x / 256) i (by omega)
    simp only [bytesOf, List.getD_cons_succ, this]
    rw [Nat.div_div_eq_div_mul, Nat.pow_succ, Nat.mul_comm]
/-- Counting bits by bits. -/
theorem pop_spec : ∀ (n x : Nat), popN n x = (List.range n).countP (fun i => x.testBit i)
  | 0, x => by simp [popN]
  | n + 1, x => by
    have ih := pop_spec n (x / 2)
    unfold popN
    rw [List.range_succ_eq_map, List.countP_cons, List.countP_map, ih]
    have : ((fun i => x.testBit i) ∘ Nat.succ) = fun i => (x / 2).testBit i := by
      funext i; simp [Nat.testBit_succ]
    rw [this]
    have h2 : x % 2 = if x.testBit 0 = true then 1 else 0 := by
      rw [Nat.testBit_zero]
      by_cases h : x % 2 = 1 <;> simp [h]; omega
    rw [h2, Nat.add_comm]
/-- Counting trailing zeros by the bits it counts. -/
theorem ctz_spec : ∀ (n x : Nat), ctzN n x ≤ n ∧ (∀ i, i < ctzN n x → x.testBit i = false) ∧ (ctzN n x < n → x.testBit (ctzN n x) = true)
  | 0, x => by simp [ctzN]
  | n + 1, x => by
    have ih := ctz_spec n (x / 2)
    unfold ctzN
    split
    · next h => simp [Nat.testBit_zero, h]
    · next h =>
      refine ⟨by omega, ?_, ?_⟩
      · intro i hi
        cases i with
        | zero => simp [Nat.testBit_zero]; omega
        | succ i => rw [Nat.testBit_succ]; exact ih.2.1 i (by omega)
      · intro hi; rw [Nat.testBit_succ]; exact ih.2.2 (by omega)
/-- A bit of a carry-less product is the parity of its partial products. -/
theorem clmul_spec (a b : Nat) : ∀ (n k : Nat), (clmul a b n).testBit k = ((List.range n).countP (fun i => decide (i ≤ k) && a.testBit (k - i) && b.testBit i) % 2 == 1)
  | 0, k => by simp [clmul]
  | n + 1, k => by
    have ih := clmul_spec a b n k
    unfold clmul
    rw [Nat.testBit_xor, ih, List.range_succ, List.countP_append, List.countP_singleton]
    have hb : b.testBit n = decide (b / 2 ^ n % 2 = 1) := by rw [Nat.testBit_eq_decide_div_mod_eq]
    by_cases h : b / 2 ^ n % 2 = 1
    · simp only [h, if_true, hb, decide_true, Bool.and_true]
      rw [Nat.testBit_mul_two_pow]
      generalize (List.range n).countP _ = c
      by_cases h2 : n ≤ k <;> by_cases h3 : a.testBit (k - n) = true <;> simp [h2, h3] <;> rcases Nat.mod_two_eq_zero_or_one c with h4 | h4 <;> simp [h4, Nat.add_mod]
    · simp [h, hb]
/-- A number put together from bits has those bits. -/
theorem sum_bits (f : Nat → Bool) : ∀ n, sumNat ((upto n).map (fun i => if f i then 2 ^ i else 0)) < 2 ^ n ∧
    ∀ i, (sumNat ((upto n).map (fun i => if f i then 2 ^ i else 0))).testBit i = (decide (i < n) && f i)
  | 0 => by simp [upto, sumNat]
  | n + 1 => by
    obtain ⟨h1, h2⟩ := sum_bits f n
    have happ : ∀ l r : List Nat, sumNat (l ++ r) = sumNat l + sumNat r := by
      intro l r; induction l with
      | nil => simp [sumNat]
      | cons x l ih => simp [sumNat, ih]; omega
    rw [upto, List.map_append, happ]
    generalize sumNat ((upto n).map (fun i => if f i then 2 ^ i else 0)) = x at h1 h2
    simp only [List.map_cons, List.map_nil, sumNat, Nat.add_zero]
    constructor
    · rw [Nat.pow_succ]; split <;> omega
    · intro i
      by_cases hf : f n
      · rw [if_pos hf, Nat.add_comm]
        by_cases hi : i < n
        · rw [Nat.testBit_two_pow_add_gt hi, h2]; simp [hi, Nat.lt_succ_of_lt hi]
        · by_cases hi2 : i = n
          · subst hi2; rw [Nat.testBit_two_pow_add_eq, h2]; simp [hf]
          · have : 2 ^ n + x < 2 ^ i := by
              have : 2 ^ (n + 1) ≤ 2 ^ i := Nat.pow_le_pow_right (by decide) (by omega)
              rw [Nat.pow_succ] at this; omega
            rw [Nat.testBit_lt_two_pow this]
            simp; omega
      · rw [if_neg hf, Nat.add_zero, h2]
        by_cases hi2 : i = n
        · subst hi2; simp [hf]
        · have : (i < n) = (i < n + 1) := by simp; omega
          simp [this]
/-- The elements that a lane holds a part of. -/
theorem elems_of {w i e : Nat} (hw : w = 8 ∨ w = 16 ∨ w = 32 ∨ w = 64) (hi : i < 64) :
    e ∈ elemsOfLane w i ↔ e < 2048 / w ∧ 32 * i < w * (e + 1) ∧ w * e < 32 * (i + 1) := by
  unfold elemsOfLane
  rcases hw with rfl | rfl | rfl | rfl <;> simp [span_mem] <;> omega
/-- A bit of a lane mask holds for a lane when it holds for every element of the lane. -/
theorem laneMask_bit (m : W64) (w : Nat) (f : Nat → Bool) (i : Nat) (hi : i < 64) :
    (laneMask m w f).getLsbD i = (m.getLsbD i && (elemsOfLane w i).all f) := by
  unfold laneMask w64
  have := (sum_bits (fun i => m.getLsbD i && (elemsOfLane w i).all f) 64).2 i
  rw [BitVec.getLsbD_ofNat, this]; simp [hi]
/-- The same in terms of elements. -/
theorem mask_iff {m : W64} {w : Nat} {f : Nat → Bool} {i : Nat} (hw : w = 8 ∨ w = 16 ∨ w = 32 ∨ w = 64) (hi : i < 64) :
    (laneMask m w f).getLsbD i = true ↔ m.getLsbD i = true ∧ ∀ e, e < 2048 / w → 32 * i < w * (e + 1) → w * e < 32 * (i + 1) → f e = true := by
  rw [laneMask_bit _ _ _ _ hi, Bool.and_eq_true, List.all_eq_true]
  constructor
  · exact fun h => ⟨h.1, fun e h1 h2 h3 => h.2 e ((elems_of hw hi).2 ⟨h1, h2, h3⟩)⟩
  · exact fun h => ⟨h.1, fun e he => let ⟨h1, h2, h3⟩ := (elems_of hw hi).1 he; h.2 e h1 h2 h3⟩
/-- A bit of a vector built from elements. -/
theorem build_bit {n w : Nat} (hw : 0 < w) (f : Nat → BitVec w) : ∀ k i,
    (buildElems n w k f).getLsbD i = (decide (i < w * k) && (decide (i < n) && (f (i / w)).getLsbD (i % w)))
  | 0, i => by simp [buildElems]
  | k + 1, i => by
    rw [buildElems, BitVec.getLsbD_or, build_bit hw f k i, BitVec.getLsbD_shiftLeft, BitVec.getLsbD_setWidth]
    by_cases h : i < w * k
    · have : i < w * (k + 1) := by rw [Nat.mul_succ]; omega
      simp [h, this]
    · by_cases h2 : i < w * (k + 1)
      · have hd : i / w = k := by
          rw [Nat.mul_succ] at h2
          apply Nat.div_eq_of_lt_le
          · rw [Nat.mul_comm]; omega
          · rw [Nat.succ_mul, Nat.mul_comm]; omega
        have hm : i % w = i - w * k := by
          have := Nat.div_add_mod i w
          rw [hd] at this; omega
        rw [hd, hm]
        by_cases h3 : i < n
        · simp [h, h2, h3, show i - w * k < n by omega]
        · simp [h, h3]
      · have : (f k).getLsbD (i - w * k) = false := by
          apply BitVec.getLsbD_of_ge
          rw [Nat.mul_succ] at h2; omega
        simp [h, h2, this]
/-- An element of a vector built from elements. -/
theorem elem_build {n w : Nat} (hw : 0 < w) (f : Nat → BitVec w) {k e : Nat} (he : e < k) (hn : w * k ≤ n) : elem (buildElems n w k f) w e = f e := by
  apply BitVec.eq_of_getLsbD_eq
  intro j hj
  have h1 : w * e + j < w * k := by
    have : w * (e + 1) ≤ w * k := Nat.mul_le_mul_left w he
    rw [Nat.mul_succ] at this; omega
  have h2 : (w * e + j) / w = e := by
    rw [Nat.mul_add_div hw, Nat.div_eq_of_lt hj]; rfl
  have h3 : (w * e + j) % w = j := by
    rw [Nat.mul_add_mod]; exact Nat.mod_eq_of_lt hj
  rw [elem, BitVec.getLsbD_extractLsb', build_bit hw, h2, h3]
  simp [h1, hj, show w * e + j < n by omega]
/-- A lane of a vector built from lanes. -/
theorem lane_build (f : Nat → BitVec 32) (i : Nat) (hi : i < 64) : laneOf (buildElems 2048 32 64 f) i = f i := elem_build (by decide) f hi (by decide)
/-- A code as a signed number. -/
theorem sInt_toNat {w : Nat} (hw : 0 < w) (x : BitVec w) : sInt w x.toNat = x.toInt := by
  have h := x.isLt
  have h2 : 2 ^ w = 2 * 2 ^ (w - 1) := by rw [← Nat.pow_succ']; congr 1; omega
  unfold sInt
  rw [Nat.mod_eq_of_lt h, BitVec.toInt_eq_toNat_cond]
  split <;> split <;> first | rfl | omega
/-- A signed number as a code. -/
theorem uInt_eq (w : Nat) (x : Int) : uInt w x = (BitVec.ofInt w x).toNat := by
  simp [uInt, BitVec.toNat_ofInt]
/-- Saturation is clamping to the range. -/
theorem satCode_eq {w : Nat} (hw : 0 < w) (x : Int) : satCode w x = clamped w x := by
  unfold satCode clamped satInt
  have e : ((2 ^ (w - 1) : Nat) : Int) = 2 ^ (w - 1) := by norm_cast
  have hp : (1 : Int) ≤ 2 ^ (w - 1) := by rw [← e]; exact_mod_cast Nat.one_le_two_pow
  simp only [e]
  generalize (2 : Int) ^ (w - 1) = p at hp
  by_cases h1 : p - 1 < x
  · simp only [h1, if_true, uInt_eq, decide_true, Bool.true_or]
    congr 2
    rw [congrArg (BitVec.ofInt w) (show max (-p) (min (p - 1) x) = p - 1 by omega)]
  · by_cases h2 : x < -p
    · simp only [h1, h2, if_true, if_false, uInt_eq, decide_true, Bool.or_true]
      rw [show max (-p) (min (p - 1) x) = -p by omega]
    · simp only [h1, h2, if_false, uInt_eq, decide_false, Bool.or_false]
      rw [show max (-p) (min (p - 1) x) = x by omega]
/-- The least of a list of signed codes. -/
theorem fold_min {w : Nat} (hw : 0 < w) (f : Nat → BitVec w) : ∀ (l : List Nat) (y : BitVec w),
    (l.map (fun e => (f e).toNat)).foldl (fun a x => if sInt w x < sInt w a then x else a) y.toNat =
      (BitVec.ofInt w ((l.map (fun e => (f e).toInt)).foldl min y.toInt)).toNat
  | [], y => by simp
  | x :: l, y => by
    simp only [List.map_cons, List.foldl_cons, sInt_toNat hw]
    by_cases h : (f x).toInt < y.toInt
    · rw [if_pos h, fold_min hw f l, show min y.toInt (f x).toInt = (f x).toInt by omega]
    · rw [if_neg h, fold_min hw f l, show min y.toInt (f x).toInt = y.toInt by omega]
/-- The greatest of a list of signed codes. -/
theorem fold_max {w : Nat} (hw : 0 < w) (f : Nat → BitVec w) : ∀ (l : List Nat) (y : BitVec w),
    (l.map (fun e => (f e).toNat)).foldl (fun a x => if sInt w a < sInt w x then x else a) y.toNat =
      (BitVec.ofInt w ((l.map (fun e => (f e).toInt)).foldl max y.toInt)).toNat
  | [], y => by simp
  | x :: l, y => by
    simp only [List.map_cons, List.foldl_cons, sInt_toNat hw]
    by_cases h : y.toInt < (f x).toInt
    · rw [if_pos h, fold_max hw f l, show max y.toInt (f x).toInt = (f x).toInt by omega]
    · rw [if_neg h, fold_max hw f l, show max y.toInt (f x).toInt = y.toInt by omega]
/-- A dot product of signed codes. -/
theorem dotGo_eq (w : Nat) (hw : 0 < w) (a b : Nat → BitVec w) : ∀ n, dotGo w (fun j => (a j).toNat) (fun j => (b j).toNat) n = ((List.range n).map (fun j => (a j).toInt * (b j).toInt)).sum
  | 0 => rfl
  | n + 1 => by
    rw [List.range_succ, List.map_append, List.sum_append, ← dotGo_eq w hw a b n]
    simp [dotGo, sInt_toNat hw]
/-- Masking low bits. -/
theorem mask_low {m : Nat} (n : Nat) (x : BitVec m) : x &&& (BitVec.allOnes n).setWidth m = (x.setWidth n).setWidth m := by
  apply BitVec.eq_of_getLsbD_eq
  intro i hi
  rw [BitVec.getLsbD_and, BitVec.getLsbD_setWidth, BitVec.getLsbD_setWidth, BitVec.getLsbD_setWidth, BitVec.getLsbD_allOnes]
  by_cases h1 : i < n <;> simp [h1, hi]
/-- A field of a word. -/
theorem l_fields (l : W64) (lo n : Nat) : ((l >>> lo).setWidth n).toNat = bits l.toNat lo n := by
  simp [bits, BitVec.toNat_setWidth, BitVec.toNat_ushiftRight, Nat.shiftRight_eq_div_pow]
/-- The lanes of a mask are distinct. -/
theorem lanes_nodup (m : W64) : (lanesOn m).Pairwise (· ≠ ·) := by
  unfold lanesOn
  apply List.Pairwise.filter
  exact (by decide : (upto 64).Pairwise (· ≠ ·))
/-- A lane is in the list of a mask when its bit is set. -/
theorem mem_lanes (m : W64) (i : Nat) : i ∈ lanesOn m ↔ i < 64 ∧ m.getLsbD i = true := by
  have : ∀ n i, i ∈ upto n ↔ i < n := by
    intro n; induction n with
    | zero => simp [upto]
    | succ n ih => intro i; simp [upto, ih]; omega
  simp [lanesOn, this]

end Sys2Proof.Machine
end

