-- ==== Sys2Proof/Laws/Bytes.lean ====
section
/-! SUPPORT. Bytes placed in memory by a publication, and what a number read there is (R2, R218). -/
namespace Sys2Proof.Machine

theorem wrPairs_range (a : Nat) : ∀ (bs : List Byte) (k : Nat) (m : Mem),
    m.wrPairs ((bs.zip (List.range' k bs.length)).map (fun x => (a + x.2, x.1))) = m.wrBytes (a + k) bs
  | [], _, _ => rfl
  | b :: r, k, m => by
    simp only [List.length_cons, List.range'_succ, List.zip_cons_cons, List.map_cons, Mem.wrPairs, Mem.wrBytes]
    rw [wrPairs_range a r (k + 1)]; rfl
/-- Bytes placed at an address are written there in order. -/
theorem wrPairs_place (a : Nat) (bs : List Byte) (m : Mem) : m.wrPairs (placeL a bs) = m.wrBytes a bs := by
  unfold placeL
  rw [upto_range, List.range_eq_range', wrPairs_range]; rfl
/-- Every address of placed bytes lies among them. -/
theorem placeL_range (a n : Nat) (bs : List Byte) (hl : bs.length ≤ n) (w : Nat × Byte) (hw : w ∈ placeL a bs) : a ≤ w.1 ∧ w.1 < a + n := by
  unfold placeL at hw
  rw [List.mem_map] at hw
  obtain ⟨x, hm, hx⟩ := hw
  have hi := (List.of_mem_zip (a := x.1) (b := x.2) hm).2
  have hi2 : x.2 < bs.length := by rw [upto_range] at hi; simpa using hi
  subst hx
  exact ⟨Nat.le_add_right _ _, Nat.add_lt_add_left (Nat.lt_of_lt_of_le hi2 hl) _⟩
/-- A number read at an address depends on its bytes alone. -/
theorem rdN_congr (m : Mem) (f : Nat → Byte) : ∀ (n a : Nat), (∀ i, i < n → m.rd (a + i) = f i) →
    m.rdN a n = ofBytes ((List.range n).map f)
  | 0, _, _ => rfl
  | n + 1, a, h => by
    rw [Mem.rdN, List.range_succ_eq_map, List.map_cons, ofBytes, List.map_map]
    have h0 := h 0 (by omega)
    rw [Nat.add_zero] at h0
    rw [h0, rdN_congr m (fun i => f (i + 1)) n (a + 1) (fun i hi => by rw [Nat.add_right_comm]; exact h (i + 1) (by omega))]
    rfl
/-- The number of the bytes of a number. -/
theorem ofBytes_bytesOf : ∀ (n x : Nat), ofBytes (bytesOf n x) = x % 256 ^ n
  | 0, x => by simp [bytesOf, ofBytes, Nat.mod_one]
  | n + 1, x => by
    rw [bytesOf, ofBytes, ofBytes_bytesOf n, BitVec.toNat_ofNat, show 256 ^ (n + 1) = 256 * 256 ^ n by rw [Nat.pow_succ, Nat.mul_comm], Nat.mod_mul]
/-- A number whose bytes stand among written bytes is read back. -/
theorem rdN_place (a n x : Nat) (pre post : List Byte) (m : Mem) :
    (m.wrBytes a (pre ++ bytesOf n x ++ post)).rdN (a + pre.length) n = x % 256 ^ n := by
  rw [rdN_congr _ (fun i => (bytesOf n x).getD i 0), ← ofBytes_bytesOf n x]
  · congr 1
    apply List.ext_getElem
    · simp [bytesOf_len]
    · intro i h1 h2
      simp [List.getD_eq_getElem?_getD, List.getElem?_eq_getElem h2]
  · intro i hi
    have hl := bytesOf_len n x
    rw [Nat.add_assoc, rd_wrBytes_in _ _ _ _ (by simp [hl]; omega), List.append_assoc]
    simp only [List.getD_eq_getElem?_getD]
    rw [List.getElem?_append_right (by omega), Nat.add_sub_cancel_left, List.getElem?_append_left (by omega)]

end Sys2Proof.Machine
end

