-- ==== Sys2Proof/Laws/Dispatch.lean ====
section
/-! SUPPORT. Which meaning each instruction and event has, one lemma for each arm of exec. -/
namespace Sys2Proof.Machine

theorem exec_add (o : AluB) (s : State) : exec (.add o) s = execAdd o s := rfl
theorem exec_sub (o : AluB) (s : State) : exec (.sub o) s = execSub o s := rfl
theorem exec_mul (o : AluB) (s : State) : exec (.mul o) s = execMul o s := rfl
theorem exec_mulh (o : AluB) (s : State) : exec (.mulh o) s = execMulh o s := rfl
theorem exec_mulhu (o : AluB) (s : State) : exec (.mulhu o) s = execMulhu o s := rfl
theorem exec_div (o : AluB) (s : State) : exec (.div o) s = execDiv o s := rfl
theorem exec_divu (o : AluB) (s : State) : exec (.divu o) s = execDivu o s := rfl
theorem exec_rem (o : AluB) (s : State) : exec (.rem o) s = execRem o s := rfl
theorem exec_remu (o : AluB) (s : State) : exec (.remu o) s = execRemu o s := rfl
theorem exec_and (o : AluB) (s : State) : exec (.and o) s = execAnd o s := rfl
theorem exec_or (o : AluB) (s : State) : exec (.or o) s = execOr o s := rfl
theorem exec_xor (o : AluB) (s : State) : exec (.xor o) s = execXor o s := rfl
theorem exec_andn (o : AluB) (s : State) : exec (.andn o) s = execAndn o s := rfl
theorem exec_shl (o : AluB) (s : State) : exec (.shl o) s = execShl o s := rfl
theorem exec_shr (o : AluB) (s : State) : exec (.shr o) s = execShr o s := rfl
theorem exec_sar (o : AluB) (s : State) : exec (.sar o) s = execSar o s := rfl
theorem exec_rol (o : AluB) (s : State) : exec (.rol o) s = execRol o s := rfl
theorem exec_min (o : AluB) (s : State) : exec (.min o) s = execMin o s := rfl
theorem exec_max (o : AluB) (s : State) : exec (.max o) s = execMax o s := rfl
theorem exec_minu (o : AluB) (s : State) : exec (.minu o) s = execMinu o s := rfl
theorem exec_maxu (o : AluB) (s : State) : exec (.maxu o) s = execMaxu o s := rfl
theorem exec_clmull (o : AluB) (s : State) : exec (.clmull o) s = execClmull o s := rfl
theorem exec_clmulh (o : AluB) (s : State) : exec (.clmulh o) s = execClmulh o s := rfl
theorem exec_clz (o : AluU) (s : State) : exec (.clz o) s = execClz o s := rfl
theorem exec_ctz (o : AluU) (s : State) : exec (.ctz o) s = execCtz o s := rfl
theorem exec_popc (o : AluU) (s : State) : exec (.popc o) s = execPopc o s := rfl
theorem exec_mov (o : AluU) (s : State) : exec (.mov o) s = execMov o s := rfl
theorem exec_sextI8 (o : AluU) (s : State) : exec (.sextI8 o) s = execSextI8 o s := rfl
theorem exec_sextI16 (o : AluU) (s : State) : exec (.sextI16 o) s = execSextI16 o s := rfl
theorem exec_sextI32 (o : AluU) (s : State) : exec (.sextI32 o) s = execSextI32 o s := rfl
theorem exec_zextI8 (o : AluU) (s : State) : exec (.zextI8 o) s = execZextI8 o s := rfl
theorem exec_zextI16 (o : AluU) (s : State) : exec (.zextI16 o) s = execZextI16 o s := rfl
theorem exec_zextI32 (o : AluU) (s : State) : exec (.zextI32 o) s = execZextI32 o s := rfl
theorem exec_sel (o : SelF) (s : State) : exec (.sel o) s = execSel o s := rfl
theorem exec_addi (o : AddiF) (s : State) : exec (.addi o) s = execAddi o s := rfl
theorem exec_lea (o : LeaF) (s : State) : exec (.lea o) s = execLea o s := rfl
theorem exec_li (o : LiF) (s : State) : exec (.li o) s = execLi o s := rfl
theorem exec_lih (o : LihF) (s : State) : exec (.lih o) s = execLih o s := rfl
theorem exec_cmp (o : CmpF) (s : State) : exec (.cmp o) s = execCmp o s := rfl
theorem exec_cmpi (o : CmpiF) (s : State) : exec (.cmpi o) s = execCmpi o s := rfl
theorem exec_pand (o : PlogF) (s : State) : exec (.pand o) s = execPand o s := rfl
theorem exec_por (o : PlogF) (s : State) : exec (.por o) s = execPor o s := rfl
theorem exec_pxor (o : PlogF) (s : State) : exec (.pxor o) s = execPxor o s := rfl
theorem exec_pandn (o : PlogF) (s : State) : exec (.pandn o) s = execPandn o s := rfl
theorem exec_prepLabel (o : PrepLF) (s : State) : exec (.prepLabel o) s = execPrepLabel o s := rfl
theorem exec_prepReg (o : PrepRF) (s : State) : exec (.prepReg o) s = execPrepReg o s := rfl
theorem exec_getc (o : GetcF) (s : State) : exec (.getc o) s = execGetc o s := rfl
theorem exec_setc (o : SetcF) (s : State) : exec (.setc o) s = execSetc o s := rfl
theorem exec_ldl (o : LdF12) (s : State) : exec (.ldl o) s = execLdl o s := rfl
theorem exec_stl (o : StF12) (s : State) : exec (.stl o) s = execStl o s := rfl
theorem exec_vldl (o : VldlF) (s : State) : exec (.vldl o) s = execVldl o s := rfl
theorem exec_vldlStream (o : VldlQF) (s : State) : exec (.vldlStream o) s = execVldlStream o s := rfl
theorem exec_vstl (o : VstlF) (s : State) : exec (.vstl o) s = execVstl o s := rfl
theorem exec_vstlStream (o : VstlQF) (s : State) : exec (.vstlStream o) s = execVstlStream o s := rfl
theorem exec_bind (o : BindF) (s : State) : exec (.bind o) s = execBind o s := rfl
theorem exec_unbind (o : UnbindF) (s : State) : exec (.unbind o) s = execUnbind o s := rfl
theorem exec_qskip (o : QskipF) (s : State) : exec (.qskip o) s = execQskip o s := rfl
theorem exec_qstat (o : QstatF) (s : State) : exec (.qstat o) s = execQstat o s := rfl
theorem exec_ldg (o : LdF11) (s : State) : exec (.ldg o) s = execLdg o s := rfl
theorem exec_stg (o : StF11) (s : State) : exec (.stg o) s = execStg o s := rfl
theorem exec_vldg (o : VldgF) (s : State) : exec (.vldg o) s = execVldg o s := rfl
theorem exec_vstg (o : VstgF) (s : State) : exec (.vstg o) s = execVstg o s := rfl
theorem exec_vgath (o : VgathF) (s : State) : exec (.vgath o) s = execVgath o s := rfl
theorem exec_vscat (o : VscatF) (s : State) : exec (.vscat o) s = execVscat o s := rfl
theorem exec_amo (o : AmoF) (s : State) : exec (.amo o) s = execAmo o s := rfl
theorem exec_amoCas (o : CasF) (s : State) : exec (.amoCas o) s = execAmoCas o s := rfl
theorem exec_radd (o : RaddF) (s : State) : exec (.radd o) s = execRadd o s := rfl
theorem exec_rowadd (o : RowaddF) (s : State) : exec (.rowadd o) s = execRowadd o s := rfl
theorem exec_rowld (o : RowldF) (s : State) : exec (.rowld o) s = execRowld o s := rfl
theorem exec_psmpScalar (o : PsmpF) (s : State) : exec (.psmpScalar o) s = execPsmpScalar o s := rfl
theorem exec_psmpVector (o : PsmpF) (s : State) : exec (.psmpVector o) s = execPsmpVector o s := rfl
theorem exec_ptapScalar (o : PtapF) (s : State) : exec (.ptapScalar o) s = execPtapScalar o s := rfl
theorem exec_ptapVector (o : PtapF) (s : State) : exec (.ptapVector o) s = execPtapVector o s := rfl
theorem exec_ptaps (o : PtapsF) (s : State) : exec (.ptaps o) s = execPtaps o s := rfl
theorem exec_rtapScalar (o : RtapF) (s : State) : exec (.rtapScalar o) s = execRtapScalar o s := rfl
theorem exec_rtapVector (o : RtapF) (s : State) : exec (.rtapVector o) s = execRtapVector o s := rfl
theorem exec_phase (o : PhaseF) (s : State) : exec (.phase o) s = execPhase o s := rfl
theorem exec_pref (o : PrefF) (s : State) : exec (.pref o) s = execPref o s := rfl
theorem exec_vadd (o : VaF) (s : State) : exec (.vadd o) s = execVadd o s := rfl
theorem exec_vsub (o : VaF) (s : State) : exec (.vsub o) s = execVsub o s := rfl
theorem exec_vmul (o : VaF) (s : State) : exec (.vmul o) s = execVmul o s := rfl
theorem exec_vmulh (o : VaF) (s : State) : exec (.vmulh o) s = execVmulh o s := rfl
theorem exec_vmad (o : VaAccF) (s : State) : exec (.vmad o) s = execVmad o s := rfl
theorem exec_vand (o : VaF) (s : State) : exec (.vand o) s = execVand o s := rfl
theorem exec_vor (o : VaF) (s : State) : exec (.vor o) s = execVor o s := rfl
theorem exec_vxor (o : VaF) (s : State) : exec (.vxor o) s = execVxor o s := rfl
theorem exec_vshl (o : VaF) (s : State) : exec (.vshl o) s = execVshl o s := rfl
theorem exec_vshr (o : VaF) (s : State) : exec (.vshr o) s = execVshr o s := rfl
theorem exec_vsar (o : VaF) (s : State) : exec (.vsar o) s = execVsar o s := rfl
theorem exec_vmin (o : VaF) (s : State) : exec (.vmin o) s = execVmin o s := rfl
theorem exec_vmax (o : VaF) (s : State) : exec (.vmax o) s = execVmax o s := rfl
theorem exec_vabs (o : VaOneF) (s : State) : exec (.vabs o) s = execVabs o s := rfl
theorem exec_vwacc (o : VaAccF) (s : State) : exec (.vwacc o) s = execVwacc o s := rfl
theorem exec_vclmulLo (o : VaF) (s : State) : exec (.vclmulLo o) s = execVclmulLo o s := rfl
theorem exec_vclmulHi (o : VaF) (s : State) : exec (.vclmulHi o) s = execVclmulHi o s := rfl
theorem exec_vpopc (o : VaOneF) (s : State) : exec (.vpopc o) s = execVpopc o s := rfl
theorem exec_vfadd (o : VaF) (s : State) : exec (.vfadd o) s = execVfadd o s := rfl
theorem exec_vfsub (o : VaF) (s : State) : exec (.vfsub o) s = execVfsub o s := rfl
theorem exec_vfmul (o : VaF) (s : State) : exec (.vfmul o) s = execVfmul o s := rfl
theorem exec_vfma (o : VaAccF) (s : State) : exec (.vfma o) s = execVfma o s := rfl
theorem exec_vfmin (o : VaF) (s : State) : exec (.vfmin o) s = execVfmin o s := rfl
theorem exec_vfmax (o : VaF) (s : State) : exec (.vfmax o) s = execVfmax o s := rfl
theorem exec_vfabs (o : VaOneF) (s : State) : exec (.vfabs o) s = execVfabs o s := rfl
theorem exec_vfneg (o : VaOneF) (s : State) : exec (.vfneg o) s = execVfneg o s := rfl
theorem exec_vfcmp (o : VcF) (s : State) : exec (.vfcmp o) s = execVfcmp o s := rfl
theorem exec_vmcmp (o : VcF) (s : State) : exec (.vmcmp o) s = execVmcmp o s := rfl
theorem exec_mand (o : VmF) (s : State) : exec (.mand o) s = execMand o s := rfl
theorem exec_mor (o : VmF) (s : State) : exec (.mor o) s = execMor o s := rfl
theorem exec_mnot (o : VmOneF) (s : State) : exec (.mnot o) s = execMnot o s := rfl
theorem exec_vexp2 (o : VaOneF) (s : State) : exec (.vexp2 o) s = execVexp2 o s := rfl
theorem exec_vlog2 (o : VaOneF) (s : State) : exec (.vlog2 o) s = execVlog2 o s := rfl
theorem exec_vrcp (o : VaOneF) (s : State) : exec (.vrcp o) s = execVrcp o s := rfl
theorem exec_vrsq (o : VaOneF) (s : State) : exec (.vrsq o) s = execVrsq o s := rfl
theorem exec_vsqrt (o : VaOneF) (s : State) : exec (.vsqrt o) s = execVsqrt o s := rfl
theorem exec_vcvt (o : VaOneF) (s : State) : exec (.vcvt o) s = execVcvt o s := rfl
theorem exec_vscale (o : VaF) (s : State) : exec (.vscale o) s = execVscale o s := rfl
theorem exec_vpack (o : VaF) (s : State) : exec (.vpack o) s = execVpack o s := rfl
theorem exec_vunpack (o : VaOneF) (s : State) : exec (.vunpack o) s = execVunpack o s := rfl
theorem exec_vtag (o : VaOneF) (s : State) : exec (.vtag o) s = execVtag o s := rfl
theorem exec_vred (o : VredF) (s : State) : exec (.vred o) s = execVred o s := rfl
theorem exec_vscan (o : VredF) (s : State) : exec (.vscan o) s = execVscan o s := rfl
theorem exec_vsplat (o : VaOneF) (s : State) : exec (.vsplat o) s = execVsplat o s := rfl
theorem exec_vmovs (o : VmovsF) (s : State) : exec (.vmovs o) s = execVmovs o s := rfl
theorem exec_vsel (o : VaF) (s : State) : exec (.vsel o) s = execVsel o s := rfl
theorem exec_vlane (o : VaF) (s : State) : exec (.vlane o) s = execVlane o s := rfl
theorem exec_vchkf (o : VchkfF) (s : State) : exec (.vchkf o) s = execVchkf o s := rfl
theorem exec_lsupd (s : State) : exec .lsupd s = execLsupd s := rfl
theorem exec_xperm (o : XpermF) (s : State) : exec (.xperm o) s = execXperm o s := rfl
theorem exec_xrot (o : XkF) (s : State) : exec (.xrot o) s = execXrot o s := rfl
theorem exec_xbcast (o : XkF) (s : State) : exec (.xbcast o) s = execXbcast o s := rfl
theorem exec_xshuf (o : XshufF) (s : State) : exec (.xshuf o) s = execXshuf o s := rfl
theorem exec_xrev (o : XgF) (s : State) : exec (.xrev o) s = execXrev o s := rfl
theorem exec_xcmpr (o : XgF) (s : State) : exec (.xcmpr o) s = execXcmpr o s := rfl
theorem exec_wld (o : WldF) (s : State) : exec (.wld o) s = execWld o s := rfl
theorem exec_beat (o : BeatF) (s : State) : exec (.beat o) s = execBeat o s := rfl
theorem exec_drain (o : DrainF) (s : State) : exec (.drain o) s = execDrain o s := rfl
theorem exec_zclr (o : ZF) (s : State) : exec (.zclr o) s = execZclr o s := rfl
theorem exec_zrot (o : ZrotF) (s : State) : exec (.zrot o) s = execZrot o s := rfl
theorem exec_zspill (o : ZqF) (s : State) : exec (.zspill o) s = execZspill o s := rfl
theorem exec_zfill (o : ZqF) (s : State) : exec (.zfill o) s = execZfill o s := rfl
theorem exec_cpy (o : CmdF) (s : State) : exec (.cpy o) s = execCpy o s := rfl
theorem exec_cpyw (o : CmdF) (s : State) : exec (.cpyw o) s = execCpyw o s := rfl
theorem exec_tqpush (o : EaF) (s : State) : exec (.tqpush o) s = execTqpush o s := rfl
theorem exec_tqpop (o : EaF) (s : State) : exec (.tqpop o) s = execTqpop o s := rfl
theorem exec_rkgath (o : CmdF) (s : State) : exec (.rkgath o) s = execRkgath o s := rfl
theorem exec_rkseg (o : CmdF) (s : State) : exec (.rkseg o) s = execRkseg o s := rfl
theorem exec_rill (o : CmdF) (s : State) : exec (.rill o) s = execRill o s := rfl
theorem exec_cflAr (o : CmdF) (s : State) : exec (.cflAr o) s = execCflAr o s := rfl
theorem exec_cflRs (o : CmdF) (s : State) : exec (.cflRs o) s = execCflRs o s := rfl
theorem exec_cflAg (o : CmdF) (s : State) : exec (.cflAg o) s = execCflAg o s := rfl
theorem exec_cflBc (o : CmdF) (s : State) : exec (.cflBc o) s = execCflBc o s := rfl
theorem exec_send (o : CmdF) (s : State) : exec (.send o) s = execSend o s := rfl
theorem exec_recv (o : CmdF) (s : State) : exec (.recv o) s = execRecv o s := rfl
theorem exec_pancfg (o : CmdF) (s : State) : exec (.pancfg o) s = execPancfg o s := rfl
theorem exec_tick (o : CmdF) (s : State) : exec (.tick o) s = execTick o s := rfl
theorem exec_foot (o : FootF) (s : State) : exec (.foot o) s = execFoot o s := rfl
theorem exec_jwait (o : JwaitF) (s : State) : exec (.jwait o) s = execJwait o s := rfl
theorem exec_jpoll (o : JpollF) (s : State) : exec (.jpoll o) s = execJpoll o s := rfl
theorem exec_spawn (o : CmdF) (s : State) : exec (.spawn o) s = execSpawn o s := rfl
theorem exec_join (o : JoinF) (s : State) : exec (.join o) s = execJoin o s := rfl
theorem exec_leave (o : EaF) (s : State) : exec (.leave o) s = execLeave o s := rfl
theorem exec_bar (o : EaF) (s : State) : exec (.bar o) s = execBar o s := rfl
theorem exec_tree (o : TreeF) (s : State) : exec (.tree o) s = execTree o s := rfl
theorem exec_loop (o : LoopF) (s : State) : exec (.loop o) s = execLoop o s := rfl
theorem exec_loopr (o : LooprF) (s : State) : exec (.loopr o) s = execLoopr o s := rfl
theorem exec_call (o : CallF) (s : State) : exec (.call o) s = execCall o s := rfl
theorem exec_ret (o : BtF) (s : State) : exec (.ret o) s = execRet o s := rfl
theorem exec_suspend (o : BtF) (s : State) : exec (.suspend o) s = execSuspend o s := rfl
theorem exec_halt (s : State) : exec .halt s = execHalt s := rfl
theorem exec_trap (o : TrapF) (s : State) : exec (.trap o) s = execTrap o s := rfl
theorem exec_rte (s : State) : exec .rte s = execRte s := rfl
theorem exec_repeat (o : RepF) (s : State) : exec (.repeat o) s = execRepeat o s := rfl
theorem exec_bundleIssue (c : CoreId) (s : State) : exec (.bundleIssue c) s = execBundleIssue c s := rfl
theorem exec_resultLands (c : CoreId) (n : Nat) (s : State) : exec (.resultLands c n) s = execResultLands c n s := rfl
theorem exec_deferredPageTrap (c : CoreId) (s : State) : exec (.deferredPageTrap c) s = execDeferredPageTrap c s := rfl
theorem exec_pageRequestPost (v : VfId) (s : State) : exec (.pageRequestPost v) s = execPageRequestPost v s := rfl
theorem exec_rangeRetire (c : CoreId) (n : Nat) (s : State) : exec (.rangeRetire c n) s = execRangeRetire c n s := rfl
theorem exec_engineCommandComplete (c : CoreId) (id : Nat) (s : State) : exec (.engineCommandComplete c id) s = execEngineCommandComplete c id s := rfl
theorem exec_rillColumnCommand (c : CoreId) (n : Nat) (s : State) : exec (.rillColumnCommand c n) s = execRillColumnCommand c n s := rfl
theorem exec_samplePerformed (c : CoreId) (n : Nat) (s : State) : exec (.samplePerformed c n) s = execSamplePerformed c n s := rfl
theorem exec_tickCloseArrival (r : Nat) (ch : Nat) (s : State) : exec (.tickCloseArrival r ch) s = execTickCloseArrival r ch s := rfl
theorem exec_stackRefreshDue (bank : Nat) (train : Bool) (s : State) : exec (.stackRefreshDue bank train) s = execStackRefreshDue bank train s := rfl
theorem exec_weightDieRefresh (s : State) : exec .weightDieRefresh s = execWeightDieRefresh s := rfl
theorem exec_cflHop (c : CoreId) (id : Nat) (k : CflPkt) (s : State) : exec (.cflHop c id k) s = execCflHop c id k s := rfl
theorem exec_cflLateReplacement (c : CoreId) (id : Nat) (k : CflPkt) (s : State) : exec (.cflLateReplacement c id k) s = execCflLateReplacement c id k s := rfl
theorem exec_recvEntryArrival (peer : BitVec 16) (flow : BitVec 8) (k : MsgEntry) (s : State) : exec (.recvEntryArrival peer flow k) s = execRecvEntryArrival peer flow k s := rfl
theorem exec_recvTimeout (c : CoreId) (id : Nat) (s : State) : exec (.recvTimeout c id) s = execRecvTimeout c id s := rfl
theorem exec_sendAckTimeout (c : CoreId) (id : Nat) (s : State) : exec (.sendAckTimeout c id) s = execSendAckTimeout c id s := rfl
theorem exec_linkTimeout (c : CoreId) (s : State) : exec (.linkTimeout c) s = execLinkTimeout c s := rfl
theorem exec_mirrorWriteArrival (k : MirMsg) (s : State) : exec (.mirrorWriteArrival k) s = execMirrorWriteArrival k s := rfl
theorem exec_taskPickup (c : CoreId) (s : State) : exec (.taskPickup c) s = execTaskPickup c s := rfl
theorem exec_heldSpawnEntry (p : PartId) (s : State) : exec (.heldSpawnEntry p) s = execHeldSpawnEntry p s := rfl
theorem exec_quantumExpiry (p : PartId) (s : State) : exec (.quantumExpiry p) s = execQuantumExpiry p s := rfl
theorem exec_launch (v : VfId) (vec : List (BitVec 32)) (s : State) : exec (.launch v vec) s = execLaunch v vec s := rfl
theorem exec_launchPreamble (v : VfId) (vec : List (BitVec 32)) (s : State) : exec (.launchPreamble v vec) s = execLaunchPreamble v vec s := rfl
theorem exec_imageLoad (v : VfId) (img : Image) (s : State) : exec (.imageLoad v img) s = execImageLoad v img s := rfl
theorem exec_attest (v : VfId) (nonce : BitVec 256) (a : GAddr) (s : State) : exec (.attest v nonce a) s = execAttest v nonce a s := rfl
theorem exec_hostSpawn (v : VfId) (a : GAddr) (s : State) : exec (.hostSpawn v a) s = execHostSpawn v a s := rfl
theorem exec_restore (v : VfId) (a : GAddr) (s : State) : exec (.restore v a) s = execRestore v a s := rfl
theorem exec_queueTeardown (v : VfId) (q : BitVec 6) (s : State) : exec (.queueTeardown v q) s = execQueueTeardown v q s := rfl
theorem exec_prqreply (v : VfId) (x : W64) (s : State) : exec (.prqreply v x) s = execPrqreply v x s := rfl
theorem exec_pcreate (p : PartId) (v : VfId) (mask : W64) (key : BitVec 256) (s : State) : exec (.pcreate p v mask key) s = execPcreate p v mask key s := rfl
theorem exec_pdestroy (p : PartId) (s : State) : exec (.pdestroy p) s = execPdestroy p s := rfl
theorem exec_s2root (p : PartId) (x : W64) (s : State) : exec (.s2root p x) s = execS2root p x s := rfl
theorem exec_ctxallot (p : PartId) (n : Nat) (s : State) : exec (.ctxallot p n) s = execCtxallot p n s := rfl
theorem exec_portw (c : CoreId) (w : BitVec 4) (s : State) : exec (.portw c w) s = execPortw c w s := rfl
theorem exec_inval (v : VfId) (kind : BitVec 2) (lo : GAddr) (hi : GAddr) (s : State) : exec (.inval v kind lo hi) s = execInval v kind lo hi s := rfl
theorem exec_invalComplete (s : State) : exec .invalComplete s = execInvalComplete s := rfl
theorem exec_deadline (k : DeadlineF) (s : State) : exec (.deadline k) s = execDeadline k s := rfl
theorem exec_sluiceEvaluation (p : PartId) (s : State) : exec (.sluiceEvaluation p) s = execSluiceEvaluation p s := rfl
theorem exec_deadlineCut (p : PartId) (s : State) : exec (.deadlineCut p) s = execDeadlineCut p s := rfl
theorem exec_vacancy (p : PartId) (s : State) : exec (.vacancy p) s = execVacancy p s := rfl
theorem exec_sluiceRun (x : W64) (s : State) : exec (.sluiceRun x) s = execSluiceRun x s := rfl
theorem exec_sluiceCheckpoint (x : W64) (s : State) : exec (.sluiceCheckpoint x) s = execSluiceCheckpoint x s := rfl
theorem exec_sluiceDiscard (x : W64) (s : State) : exec (.sluiceDiscard x) s = execSluiceDiscard x s := rfl
theorem exec_sluiceQuery (x : W64) (s : State) : exec (.sluiceQuery x) s = execSluiceQuery x s := rfl
theorem exec_errorWindowExpiry (kind : BitVec 3) (unit : BitVec 16) (s : State) : exec (.errorWindowExpiry kind unit) s = execErrorWindowExpiry kind unit s := rfl
theorem exec_unitRetirement (kind : BitVec 3) (unit : BitVec 16) (s : State) : exec (.unitRetirement kind unit) s = execUnitRetirement kind unit s := rfl
theorem exec_retire (kind : BitVec 3) (unit : BitVec 16) (s : State) : exec (.retire kind unit) s = execRetire kind unit s := rfl
theorem exec_record (x : W64) (s : State) : exec (.record x) s = execRecord x s := rfl
theorem exec_mircfg (p : PartId) (base : GAddr) (len : BitVec 52) (m : BitVec 16) (dpa : BitVec 46) (s : State) : exec (.mircfg p base len m dpa) s = execMircfg p base len m dpa s := rfl
theorem exec_moduleLost (m : BitVec 16) (s : State) : exec (.moduleLost m) s = execModuleLost m s := rfl
theorem exec_promote (p : PartId) (m : BitVec 16) (s : State) : exec (.promote p m) s = execPromote p m s := rfl
theorem exec_fatalError (cause : BitVec 8) (s : State) : exec (.fatalError cause) s = execFatalError cause s := rfl
theorem exec_dumpread (off : Nat) (s : State) : exec (.dumpread off) s = execDumpread off s := rfl
theorem exec_moduleReset (s : State) : exec .moduleReset s = execModuleReset s := rfl
theorem exec_bootRomVerify (s : State) : exec .bootRomVerify s = execBootRomVerify s := rfl
theorem exec_firmwareInit (s : State) : exec .firmwareInit s = execFirmwareInit s := rfl
theorem exec_fwload (f : Firmware) (s : State) : exec (.fwload f) s = execFwload f s := rfl
theorem exec_powerCap (mhz : Nat) (stall : Nat) (s : State) : exec (.powerCap mhz stall) s = execPowerCap mhz stall s := rfl
theorem exec_thermtrip (s : State) : exec .thermtrip s = execThermtrip s := rfl
theorem exec_registerWrite (w : Writer) (r : WinReg) (x : W64) (s : State) : exec (.registerWrite w r x) s = execRegisterWrite w r x s := rfl
theorem exec_flowFlitArrival (f : FlowId) (seq : BitVec 16) (k : FlitBody) (s : State) : exec (.flowFlitArrival f seq k) s = execFlowFlitArrival f seq k s := rfl

end Sys2Proof.Machine
end

