-- ==== Sys2Proof/Laws/Lanes.lean ====
section
/-! SUPPORT. What the lanes of an access to G can do, each operation said once: translation, the bytes of loads, the effects of
stores, and an access put in flight (R199, R206 to R209). -/
namespace Sys2Proof.Machine

/-! Translation changes cached translations and page requests, and nothing else. -/

theorem Mem.after_nil (m : Mem) : m.after [] = m := rfl
theorem Mem.after_append (m : Mem) (l r : List Pub) : m.after (l ++ r) = (m.after l).after r := List.foldl_append
theorem mem_upto : ∀ {n i : Nat}, i ∈ upto n ↔ i < n
  | 0, i => by simp [upto]
  | n + 1, i => by
    rw [upto, List.mem_append, mem_upto]
    simp
    omega
/-- A byte that no further publication writes reads as before. -/
theorem Mem.rd_after (b : Nat) : ∀ (l : List Pub) (m : Mem), (∀ p ∈ l, ∀ w ∈ p.writes, w.1 ≠ b) → (m.after l).rd b = m.rd b
  | [], _, _ => rfl
  | p :: r, m, h => by
    show ((m.wrPairs p.writes).after r).rd b = _
    rw [Mem.rd_after b r _ (fun q hq => h q (by simp [hq])), rd_wrPairs_out b _ m (h p (by simp))]

theorem WalksOnly.refl (s : State) : WalksOnly s s := ⟨[], by rw [List.append_nil, Mem.after_nil], by simp, fun _ => rfl⟩
theorem WalksOnly.trans {s t u : State} (h : WalksOnly s t) (g : WalksOnly t u) : WalksOnly s u := by
  obtain ⟨m, h1, h2, h3⟩ := h
  obtain ⟨n, g1, g2, g3⟩ := g
  refine ⟨m ++ n, ?_, ?_, fun v => ?_⟩
  · rw [← List.append_assoc, Mem.after_append, g1, h1]
  · intro p hp
    rcases List.mem_append.1 hp with hp | hp
    · exact h2 p hp
    · exact g2 p hp
  · rw [g3, h3]
/-- A change of cached translations, counts of errors and events alone. -/
theorem WalksOnly.of {s : State} (t : List Tlb) (e : List Event) (u : List UnitErr) : WalksOnly s { s with tlb := t, events := e, units := u } :=
  ⟨[], by rw [List.append_nil, Mem.after_nil], by simp, fun _ => rfl⟩
theorem tlbAdd_walks (s : State) (p : PartId) (va : Nat) (wr : Bool) (loc : Nat) : WalksOnly s (tlbAdd s p va wr loc) := by
  unfold tlbAdd
  simp only
  split
  · exact WalksOnly.refl s
  · exact WalksOnly.of _ s.events s.units
/-- A change of one VF's page requests. -/
theorem modVf_walks (s : State) (v : VfId) (l : List PageReq) (n : Nat) (x : BitVec 16) (y : BitVec 32) :
    WalksOnly s (modVf s v (fun k => { k with reqs := l, nextTag := n, nextNum := x, prqprod := y })) := by
  refine ⟨[], by rw [List.append_nil, Mem.after_nil]; rfl, by simp, fun w => ?_⟩
  rw [vf_modVf]
  split
  · next h => subst h; rfl
  · rfl
theorem raise_walks (e : Event) (s : State) : WalksOnly s (raise s e) := WalksOnly.of s.tlb _ s.units
theorem postRequest_walks (v : VfId) (s : State) : WalksOnly s (postRequest v s) := by
  unfold postRequest
  simp only
  split
  · exact WalksOnly.refl s
  · split
    · exact WalksOnly.refl s
    · generalize hw : List.map _ (upto 32) = ws
      have h1 : WalksOnly s { addPub s (.host 0) (BitVec.allOnes 64) 0 ws with badG := s.badG } := by
        refine ⟨[⟨.host 0, BitVec.allOnes 64, 0 ||| agentMask (.host 0) s.pubs 1, ws⟩], rfl, fun p hp w h => ?_, fun _ => rfl⟩
        obtain rfl := List.mem_singleton.1 hp
        have h : w ∈ ws := h
        rw [← hw] at h
        obtain ⟨i, _, rfl⟩ := List.mem_map.1 h
        show 2 ^ 63 + 2 ^ 52 * 0 + 0 ≤ 2 ^ 63 + 2 ^ 52 * _ + _ + i
        omega
      generalize { addPub s (.host 0) (BitVec.allOnes 64) 0 ws with badG := s.badG } = t at h1
      refine h1.trans (WalksOnly.trans (t := modVf t v _) ?_ (raise_walks _ _))
      exact ⟨[], by rw [List.append_nil, Mem.after_nil]; rfl, by simp, fun w => by
        rw [vf_modVf]
        split
        · next h => subst h; rfl
        · rfl⟩
theorem pageMiss_walks (s : State) (c : CoreId) (p : PartId) (ipa va : Nat) (tbl : Bool) (lvl : Nat) (wr : Bool) :
    WalksOnly s (pageMiss s c p ipa va tbl lvl wr).1 := by
  unfold pageMiss
  simp only
  split
  · exact WalksOnly.refl s
  · exact (modVf_walks s _ _ _ (vf s (pt s p).vf).nextNum (vf s (pt s p).vf).prqprod).trans (postRequest_walks _ _)
theorem setUnit_walks (x : UnitErr) (s : State) : WalksOnly s (setUnit x s) := WalksOnly.of s.tlb s.events _
theorem foundError_walks (k : BitVec 3) (u : BitVec 16) (s : State) : WalksOnly s (foundError k u s) := by
  unfold foundError bumpUnit
  simp only
  split
  · exact WalksOnly.refl s
  · split
    · exact (setUnit_walks _ s).trans (raise_walks _ _)
    · split
      · exact (setUnit_walks _ s).trans (raise_walks _ _)
      · exact setUnit_walks _ s
theorem foundG_walks (loc : Nat) (s : State) : WalksOnly s (foundG loc s) := by
  unfold foundG; split <;> exact foundError_walks _ _ s

/-- What opening a lane does: its number, address, length and data are those given, and a translated lane of a scalar access is ready. -/
theorem openLane_law (lv wr : Bool) (i n : Nat) (a : Int) (d : Option (List Byte)) (s : State) :
    WalksOnly s (openLane lv wr i n a d s).1 ∧ IsLane (openLane lv wr i n a d s).2 (i, gAddr a, n) ∧
    (openLane lv wr i n a d s).2.lv = lv ∧ (openLane lv wr i n a d s).2.data = d ∧
    (lv = false → ∀ loc, xlMe s (gAddr a) wr = .ok loc → (openLane lv wr i n a d s).2.st = .ready loc ∧ (openLane lv wr i n a d s).1.pubs = s.pubs) := by
  unfold openLane
  simp only
  split
  · next h => exact ⟨WalksOnly.refl s, ⟨rfl, rfl, rfl⟩, rfl, rfl, fun hl => by rw [hl] at h; cases h⟩
  · split
    · next loc h => exact ⟨tlbAdd_walks _ _ _ _ _, ⟨rfl, rfl, rfl⟩, rfl, rfl, fun _ l hl => by
        rw [h] at hl; cases hl
        refine ⟨rfl, ?_⟩
        show (tlbAdd s (myPart s) (gAddr a) wr loc).pubs = s.pubs
        unfold tlbAdd; dsimp only; split <;> rfl⟩
    · next h => exact ⟨pageMiss_walks _ _ _ _ _ _ _ _, ⟨rfl, rfl, rfl⟩, rfl, rfl, fun _ l hl => by rw [h] at hl; cases hl⟩
    · next h => exact ⟨WalksOnly.refl s, ⟨rfl, rfl, rfl⟩, rfl, rfl, fun _ l hl => by rw [h] at hl; cases hl⟩
    · next h => exact ⟨WalksOnly.refl s, ⟨rfl, rfl, rfl⟩, rfl, rfl, fun _ l hl => by rw [h] at hl; cases hl⟩
theorem openLanes_cons (lv wr : Bool) (n i : Nat) (a : Int) (d : Option (List Byte)) (r : List (Nat × Int × Option (List Byte)))
    (s : State) : openLanes lv wr n ((i, a, d) :: r) s =
      ((openLanes lv wr n r (openLane lv wr i n a d s).1).1,
        (openLane lv wr i n a d s).2 :: (openLanes lv wr n r (openLane lv wr i n a d s).1).2) := rfl
/-- What opening several lanes does. -/
theorem openLanes_law (lv wr : Bool) (n : Nat) : ∀ (xs : List (Nat × Int × Option (List Byte))) (s : State),
    WalksOnly s (openLanes lv wr n xs s).1 ∧
    List.Forall₂ (fun l x => IsLane l (x.1, gAddr x.2.1, n) ∧ l.data = x.2.2) (openLanes lv wr n xs s).2 xs
  | [], s => ⟨WalksOnly.refl s, List.Forall₂.nil⟩
  | (i, a, d) :: r, s => by
    obtain ⟨h1, h2, _, h3, _⟩ := openLane_law lv wr i n a d s
    obtain ⟨g1, g2⟩ := openLanes_law lv wr n r (openLane lv wr i n a d s).1
    rw [openLanes_cons]
    exact ⟨h1.trans g1, List.Forall₂.cons ⟨h2, h3⟩ g2⟩
theorem WalksOnly.cores {s t : State} (h : WalksOnly s t) : t.cores = s.cores := by obtain ⟨_, h, _⟩ := h; rw [h]
theorem WalksOnly.iss {s t : State} (h : WalksOnly s t) : t.iss = s.iss := by obtain ⟨_, h, _⟩ := h; rw [h]
theorem WalksOnly.parts {s t : State} (h : WalksOnly s t) : t.parts = s.parts := by obtain ⟨_, h, _⟩ := h; rw [h]
theorem WalksOnly.badG {s t : State} (h : WalksOnly s t) : t.badG = s.badG := by obtain ⟨_, h, _⟩ := h; rw [h]
theorem WalksOnly.cr {s t : State} (h : WalksOnly s t) (c : CoreId) : cr t c = cr s c := by unfold Machine.cr; rw [h.cores]
theorem WalksOnly.me {s t : State} (h : WalksOnly s t) : me t = me s := by unfold Machine.me; rw [h.iss, h.cr]
/-- Every byte that no host node holds reads as before. -/
theorem WalksOnly.rd {s t : State} (h : WalksOnly s t) (a : Nat) (ha : a < locNode 0 0) : t.mem.rd a = s.mem.rd a := by
  obtain ⟨m, h1, h2, _⟩ := h
  rw [h1]
  exact Mem.rd_after a m s.mem (fun p hp w hw => Nat.ne_of_gt (Nat.lt_of_lt_of_le ha (h2 p hp w hw)))
theorem snapByte_append (i loc : Nat) : ∀ (l r : List Pub) (b : Nat) (x : Byte),
    snapByte i loc (l ++ r) b x = snapByte i loc r (2 ^ l.length * b) (snapByte i loc l b x)
  | [], r, b, x => by simp [snapByte]
  | p :: l, r, b, x => by
    simp only [List.cons_append, snapByte, List.length_cons]
    rw [snapByte_append i loc l r, Nat.pow_succ, Nat.mul_assoc]
theorem snapByte_none (i loc : Nat) : ∀ (l : List Pub) (b : Nat) (x : Byte), (∀ p ∈ l, ∀ w ∈ p.writes, w.1 ≠ loc) →
    snapByte i loc l b x = x
  | [], _, _, _ => rfl
  | p :: r, b, x, h => by
    have hp : p.writes.reverse.find? (fun w => w.1 == loc) = none := by
      rw [List.find?_eq_none]
      intro w hw
      simpa using h p (by simp) w (by simpa using hw)
    simp only [snapByte, hp]
    rw [show (if (i / b % 2 == 1) = true then x else x) = x by split <;> rfl]
    exact snapByte_none i loc r _ x (fun q hq => h q (by simp [hq]))
theorem WalksOnly.loadBytes {s t : State} (h : WalksOnly s t) (c : CoreId) (q va loc n : Nat) (hl : loc + n ≤ locNode 0 0) :
    loadBytes t c q va loc n = loadBytes s c q va loc n := by
  have hc := h.cr c
  obtain ⟨m, h1, h2, _⟩ := h
  unfold Machine.loadBytes snapOf
  rw [hc, show t.pubs = s.pubs ++ m by rw [h1]]
  refine List.map_congr_left (fun i hi => ?_)
  have hi : i < n := mem_upto.1 hi
  rw [snapByte_append, snapByte_none _ _ m _ _ (fun p hp w hw => by have := h2 p hp w hw; omega)]
theorem WalksOnly.badColumn {s t : State} (h : WalksOnly s t) (loc n : Nat) : badColumn t loc n = badColumn s loc n := by
  unfold Machine.badColumn; rw [h.badG]
theorem WalksOnly.readColumn {s t : State} (h : WalksOnly s t) (c : CoreId) (ls : List Lane) (loc n : Nat) :
    readColumn t c ls loc n = readColumn s c ls loc n := by
  unfold Machine.readColumn; rw [h.badG, h.cr]
/-- A column that the core would have to read is uncorrectable. -/
theorem readColumn_none {s : State} {c : CoreId} {ls : List Lane} {loc n : Nat} (h : badColumn s loc n = none) : readColumn s c ls loc n = none := by
  unfold badColumn at h
  unfold readColumn
  simp only [Option.map_eq_none_iff, List.find?_eq_none] at h ⊢
  intro g hg hc
  exact h g hg (by simp only [Bool.and_eq_true] at hc; exact hc.1)
theorem WalksOnly.modCr {s t : State} (h : WalksOnly s t) (c : CoreId) (f : Core → Core) : WalksOnly (modCr s c f) (modCr t c f) := by
  have hc := h.cr c
  obtain ⟨m, h1, h2, h3⟩ := h
  refine ⟨m, ?_, h2, h3⟩
  unfold Machine.modCr setCr
  rw [hc, h1]

/-! Translation does not read the cores or the bundle's record. -/

theorem dpaOk_core (s : State) (ks : Vector Core 64) (i : Issue) (x : Nat) : dpaOk { s with cores := ks, iss := i } x = dpaOk s x := by
  simp only [dpaOk, dpaStack]
theorem ent2_core (s : State) (ks : Vector Core 64) (i : Issue) (lvl e : Nat) : ent2 { s with cores := ks, iss := i } lvl e = ent2 s lvl e := by
  simp only [ent2, dpaOk_core]
theorem leafLoc_core (s : State) (ks : Vector Core 64) (i : Issue) (m : Option Nat) (d : Nat) :
    leafLoc { s with cores := ks, iss := i } m d = leafLoc s m d := by
  simp only [leafLoc, dpaOk_core]
theorem walk2_core (s : State) (ks : Vector Core 64) (i : Issue) (x : Nat) (tbl wr : Bool) : ∀ fuel lvl t,
    walk2 { s with cores := ks, iss := i } x tbl wr fuel lvl t = walk2 s x tbl wr fuel lvl t
  | 0, _, _ => by simp only [walk2]
  | fuel + 1, lvl, t => by simp only [walk2, walk2_core s ks i x tbl wr fuel, ent2_core, leafLoc_core]
theorem stage2_core (s : State) (ks : Vector Core 64) (i : Issue) (p : Part) (x : Nat) (tbl wr : Bool) :
    stage2 { s with cores := ks, iss := i } p x tbl wr = stage2 s p x tbl wr := by
  simp only [stage2, walk2_core, dpaOk_core]
theorem walk1_core (s : State) (ks : Vector Core 64) (i : Issue) (p : Part) (va : Nat) (wr : Bool) : ∀ fuel lvl t,
    walk1 { s with cores := ks, iss := i } p va wr fuel lvl t = walk1 s p va wr fuel lvl t
  | 0, _, _ => by simp only [walk1]
  | fuel + 1, lvl, t => by simp only [walk1, walk1_core s ks i p va wr fuel, stage2_core]
theorem xlate_core (s : State) (ks : Vector Core 64) (i : Issue) (p : PartId) (va : Nat) (wr : Bool) :
    xlate { s with cores := ks, iss := i } p va wr = xlate s p va wr := by
  simp only [xlate, walkVa, walk1_core, stage2_core, pt, vf]
  rfl
theorem OnlyCore.xlMe {s x : State} (h : OnlyCore s x) (hc : x.iss.core = s.iss.core) (va : Nat) (wr : Bool) :
    xlMe x va wr = xlMe s va wr := by
  have hp : partOf x x.iss.core = partOf s s.iss.core := by rw [hc, h]; rfl
  unfold Machine.xlMe
  rw [hp]
  split
  · rw [h, xlate_core]
  · rfl

/-! The bytes of load lanes. -/

/-- A core with more failed lanes. -/
def moreFailed (f : List TrapInfo) (k : Core) : Core := { k with failed := k.failed ++ f }
theorem moreFailed_nil (s : State) (c : CoreId) : modCr s c (moreFailed []) = s := by
  have : moreFailed [] = fun k => k := by funext k; simp [moreFailed]
  rw [this]
  show { s with cores := s.cores.set c (cr s c) } = s
  simp [cr]
theorem moreFailed_more (s : State) (c : CoreId) (f g : List TrapInfo) :
    modCr (modCr s c (moreFailed f)) c (moreFailed g) = modCr s c (moreFailed (f ++ g)) := by
  rw [modCr_modCr]
  congr 1
  funext k
  simp [moreFailed]
theorem loadBytes_failed (s : State) (c : CoreId) (f : List TrapInfo) (q va loc n : Nat) :
    loadBytes (modCr s c (moreFailed f)) c q va loc n = loadBytes s c q va loc n := by
  unfold loadBytes snapOf
  rw [cr_modCr_same]
  rfl
/-- What taking the bytes of a load lane does: what it finds uncorrectable is counted and recorded; a lane that is translated afterwards
was so before, and holds its bytes where it waits for nothing; and one whose columns are correct stays translated. -/
theorem captureLane_law (c : CoreId) (q : Nat) (l : Lane) (s : State) : ∃ u f, WalksOnly s u ∧ (captureLane c q l s).1 = modCr u c (moreFailed f) ∧
    IsLane (captureLane c q l s).2 (l.i, l.va, l.len) ∧
    (l.data = none → ∀ loc, (captureLane c q l s).2.st = .ready loc → loadWaits (cr s c) q (captureLane c q l s).2 = false →
      l.st = .ready loc ∧ (captureLane c q l s).2.data = some (loadBytes s c q l.va loc l.len)) ∧
    (∀ loc, l.st = .ready loc → badColumn s loc l.len = none → (captureLane c q l s).2.st = .ready loc ∧ f = [] ∧ u = s) := by
  unfold captureLane
  split
  · next loc h1 h2 =>
    split
    · next hw =>
      refine ⟨s, [], WalksOnly.refl s, (moreFailed_nil s c).symm, ⟨rfl, rfl, rfl⟩, fun _ x _ h => ?_, fun x hx _ => ⟨hx, rfl, rfl⟩⟩
      rw [h] at hw; cases hw
    · split
      · next g hg =>
        refine ⟨foundG g s, [⟨cEcc, 0, some (false, l.va - (loc - g)), 0, l.shown, none⟩], foundG_walks g s, rfl, ⟨rfl, rfl, rfl⟩, fun _ x hx => ?_, fun x hx hb => ?_⟩
        · cases hx
        · rw [h1] at hx; cases hx; rw [readColumn_none hb] at hg; cases hg
      · next hg =>
        refine ⟨s, [], WalksOnly.refl s, (moreFailed_nil s c).symm, ⟨rfl, rfl, rfl⟩, fun _ x hx _ => ?_, fun x hx _ => ⟨hx, rfl, rfl⟩⟩
        have hx' : l.st = .ready x := hx
        rw [h1] at hx'; cases hx'
        exact ⟨h1, rfl⟩
  · next h =>
    refine ⟨s, [], WalksOnly.refl s, (moreFailed_nil s c).symm, ⟨rfl, rfl, rfl⟩, fun hd x hx _ => ?_, fun x hx _ => ⟨hx, rfl, rfl⟩⟩
    exact absurd hd (fun hd => h x hx hd)
theorem captureLanes_cons (c : CoreId) (q : Nat) (l : Lane) (r : List Lane) (s : State) : captureLanes c q (l :: r) s =
    ((captureLanes c q r (captureLane c q l s).1).1, (captureLane c q l s).2 :: (captureLanes c q r (captureLane c q l s).1).2) := rfl
theorem loadWaits_failed (f : List TrapInfo) (k : Core) (q : Nat) (l : Lane) : loadWaits (moreFailed f k) q l = loadWaits k q l := rfl
/-- Taking the bytes of several load lanes: only failed lanes are recorded and counted, and each translated lane that waits for nothing
holds its bytes. -/
theorem captureLanes_law (c : CoreId) (q : Nat) : ∀ (ls : List Lane) (s : State), (∀ l ∈ ls, l.data = none) →
    ∃ u f, WalksOnly s u ∧ (captureLanes c q ls s).1 = modCr u c (moreFailed f) ∧
    List.Forall₂ (fun l k => IsLane l (k.i, k.va, k.len) ∧
      ∀ loc, l.st = .ready loc → loadWaits (cr s c) q l = false → loc + l.len ≤ locNode 0 0 → l.data = some (loadBytes s c q l.va loc l.len))
      (captureLanes c q ls s).2 ls
  | [], s, _ => ⟨s, [], WalksOnly.refl s, (moreFailed_nil s c).symm, List.Forall₂.nil⟩
  | l :: r, s, h => by
    obtain ⟨u, f, w, h1, h2, h3, _⟩ := captureLane_law c q l s
    obtain ⟨v, g, y, g1, g2⟩ := captureLanes_law c q r (captureLane c q l s).1 (fun x hx => h x (by simp [hx]))
    rw [captureLanes_cons]
    rw [h1] at y
    obtain ⟨v', y', e⟩ : ∃ v', WalksOnly u v' ∧ v = modCr v' c (moreFailed f) := by
      obtain ⟨m, y1, y2, y3⟩ := y
      refine ⟨{ v with cores := u.cores }, ⟨m, ?_, y2, y3⟩, ?_⟩
      · rw [y1]; rfl
      · rw [y1]; rfl
    refine ⟨v', f ++ g, w.trans y', ?_, List.Forall₂.cons ⟨h2, fun loc hl hw _ => ?_⟩ ?_⟩
    · rw [g1, e, moreFailed_more]
    · rw [h2.2.1, h2.2.2]; exact (h3 (h l (by simp)) loc hl hw).2
    · refine g2.imp (fun x y hxy => ⟨hxy.1, fun loc hl hw hb => ?_⟩)
      have hk : cr (captureLane c q l s).1 c = moreFailed f (cr s c) := by rw [h1, cr_modCr_same, w.cr]
      rw [hxy.2 loc hl (by rw [hk, loadWaits_failed]; exact hw) hb, h1, loadBytes_failed, w.loadBytes _ _ _ _ _ hb]

/-! Putting changes of the committing core and translations together. -/

theorem OnlyCore.modMe (s : State) (f : Core → Core) : OnlyCore s (modMe s f) := by
  unfold OnlyCore; rw [me_modMe]; rfl
theorem set_set_core (v : Vector Core 64) {a b : CoreId} (h : b = a) (l k : Core) : (v.set a l).set b k = v.set a k := by
  subst h
  apply Vector.ext
  intro i hi
  simp only [Vector.getElem_set]
  split <;> rfl
theorem OnlyCore.trans {s t u : State} (h : OnlyCore s t) (hc : t.iss.core = s.iss.core) (g : OnlyCore t u) : OnlyCore s u := by
  unfold OnlyCore at h g ⊢
  generalize me u = k at g ⊢
  generalize u.iss = j at g ⊢
  have hcs : t.cores.set t.iss.core k = s.cores.set s.iss.core k := by
    have : t.cores = s.cores.set s.iss.core (me t) := congrArg State.cores h
    rw [this]
    exact set_set_core _ hc _ _
  rw [g, hcs, h]
/-- Translations after a change of the committing core alone. -/
theorem onlyWalks_of {s x u : State} (h : OnlyCore s x) (w : WalksOnly x u) : OnlyCoreAndWalks s u := by
  have hm := w.me
  obtain ⟨m, w1, w2, w3⟩ := w
  refine ⟨{ s with tlb := u.tlb, vfs := u.vfs, pubs := s.pubs ++ m, mem := s.mem.after m, events := u.events, units := u.units }, ⟨m, rfl, w2, fun v => ?_⟩, ?_⟩
  · have := w3 v
    have e : vf x v = vf s v := by rw [h]; rfl
    rw [e] at this
    exact this
  · unfold OnlyCore at h ⊢
    rw [hm]
    generalize me x = k at h ⊢
    rw [w1, h]
/-- A change of the committing core alone after translations. -/
theorem OnlyCoreAndWalks.then {s u t : State} (h : OnlyCoreAndWalks s u) (hc : u.iss.core = s.iss.core) (g : OnlyCore u t) :
    OnlyCoreAndWalks s t := by
  obtain ⟨v, h1, h2⟩ := h
  exact ⟨v, h1, h2.trans (by rw [hc, h1.iss]) g⟩

/-! Loads put in flight. -/

/-- A core with an access put in flight. -/
def launched (kind : PKind) (dst : List RegId) (due : Nat) (val : BitVec 4096) (ls : List Lane) (k : Core) : Core :=
  { k with pend := k.pend ++ [⟨k.seq, kind, dst, due, val, 0, ls⟩], seq := k.seq + 1 }
/-- What issuing the lanes of a load does. -/
theorem issueLoad_law (lv : Bool) (kind : PKind) (dst : List RegId) (val : BitVec 4096) (n : Nat) (lanes : List (Nat × Int)) (s : State) :
    ∃ u f ls, WalksOnly s u ∧
      issueLoad lv kind dst val n lanes s = modMe u (fun k => launched kind dst (s.iss.t + 1) val ls (moreFailed f k)) ∧
      List.Forall₂ IsLane ls (lanes.map (fun l => (l.1, gAddr l.2, n))) ∧ (∀ l ∈ ls, Loaded s l) ∧
      (lv = false → ∀ i a, lanes = [(i, a)] → ∀ loc, xlMe s (gAddr a) false = .ok loc → badColumn s loc n = none → ∀ l ∈ ls, l.st = .ready loc) := by
  obtain ⟨h1, h2⟩ := openLanes_law lv false n (lanes.map (fun l => (l.1, l.2, none))) s
  generalize ho : openLanes lv false n (lanes.map (fun l => (l.1, l.2, none))) s = o at h1 h2
  have hd : ∀ l ∈ o.2, l.data = none := by
    intro l hl
    obtain ⟨i, hi, rfl⟩ := List.getElem_of_mem hl
    have hlen := h2.length_eq
    have := h2.get hi (by rw [← hlen]; exact hi)
    simp at this
    exact this.2
  have hq : mySeq o.1 = (me s).seq := by unfold mySeq; rw [h1.me]
  have hc : o.1.iss.core = s.iss.core := by rw [h1.iss]
  obtain ⟨u, f, w, g1, g2⟩ := captureLanes_law s.iss.core (me s).seq o.2 o.1 hd
  refine ⟨u, f, (captureLanes s.iss.core (me s).seq o.2 o.1).2, h1.trans w, ?_, ?_, ?_, ?_⟩
  · have hu : u.iss.core = s.iss.core := by rw [w.iss, hc]
    unfold issueLoad
    simp only [ho, hq, hc]
    rw [g1, ← hu]
    exact (congrArg (fun x => launchPend kind dst (x + 1) val 0 _ _) (by rw [modCr_iss, w.iss, h1.iss])).trans (modCr_modCr u u.iss.core (moreFailed f)
      (launched kind dst (s.iss.t + 1) val (captureLanes u.iss.core (me s).seq o.2 o.1).2))
  · have h3 : List.Forall₂ IsLane o.2 (lanes.map (fun l => (l.1, gAddr l.2, n))) := by
      rw [List.forall₂_map_right_iff] at h2 ⊢
      exact h2.imp (fun _ _ h => h.1)
    have g3 : List.Forall₂ (fun (l k : Lane) => IsLane l (k.i, k.va, k.len)) (captureLanes s.iss.core (me s).seq o.2 o.1).2 o.2 :=
      g2.imp (fun _ _ h => h.1)
    clear g2 g1 h2 hd ho
    generalize (captureLanes s.iss.core (me s).seq o.2 o.1).2 = ls at g3
    generalize lanes.map (fun l => (l.1, gAddr l.2, n)) = xs at h3
    generalize o.2 = ms at g3 h3
    induction g3 generalizing xs with
    | nil => cases h3; exact .nil
    | cons ha _ ih =>
      cases h3 with
      | cons hb hr => exact .cons ⟨ha.1.trans hb.1, ha.2.1.trans hb.2.1, ha.2.2.trans hb.2.2⟩ (ih _ hr)
  · intro l hl loc hs hw hb
    obtain ⟨i, hi, rfl⟩ := List.getElem_of_mem hl
    have := (g2.get hi (by rw [← g2.length_eq]; exact hi)).2 loc hs (by rw [h1.cr]; exact hw) hb
    simp only [List.get_eq_getElem] at this
    rw [this, h1.loadBytes _ _ _ _ _ hb]
  · intro hlv i a hl loc hx hb l hm
    subst hlv
    obtain ⟨k1, k2, _, _, k3⟩ := openLane_law false false i n a none s
    have e : o = ((openLane false false i n a none s).1, [(openLane false false i n a none s).2]) := by rw [← ho, hl]; rfl
    have hb' : badColumn (openLane false false i n a none s).1 loc (openLane false false i n a none s).2.len = none := by
      rw [k1.badColumn, k2.2.2]; exact hb
    obtain ⟨_, _, _, _, _, _, c4⟩ := captureLane_law s.iss.core (me s).seq (openLane false false i n a none s).2 (openLane false false i n a none s).1
    rw [e, captureLanes_cons] at hm
    simp only [captureLanes, List.mem_singleton] at hm
    rw [hm]
    exact (c4 loc (k3 rfl loc hx).1 hb').1

/-- A change of the committing core after a change of it, translations between. -/
theorem walks_then {s x u : State} (h : s.iss.act = true) (ho : OnlyCore s x) (r : List RegId) (hi : x.iss = { s.iss with wrote := r })
    (w : WalksOnly x u) (g : Core → Core) :
    OnlyCoreAndWalks s (nextSlot (modMe u g)) ∧ SlotDone s (nextSlot (modMe u g)) ∧ me (nextSlot (modMe u g)) = g (me x) := by
  have hu : u.iss = { s.iss with wrote := r } := w.iss.trans hi
  have hx : nextSlot (modMe u g) =
      { u with cores := u.cores.set u.iss.core (g (me u)), iss := { u.iss with slot := u.iss.slot + 1 } } := by
    rw [nextSlot_act (by show u.iss.act = true; rw [hu]; exact h)]
    rfl
  have hk := onlyCore_of u (g (me u)) { u.iss with slot := u.iss.slot + 1 } rfl
  refine ⟨?_, ?_, ?_⟩
  · rw [hx]; exact (onlyWalks_of ho w).then (by rw [hu]) hk.1
  · have hj : (nextSlot (modMe u g)).iss = { u.iss with slot := u.iss.slot + 1 } := by rw [hx]
    unfold SlotDone
    rw [hj, hu]
  · rw [hx, hk.2, w.me]
/-- A note on a change of the committing core. -/
theorem note_only (r : RegId) (f : Core → Core) (s : State) :
    OnlyCore s (note r (modMe s f)) ∧ (note r (modMe s f)).iss = { s.iss with wrote := r :: s.iss.wrote } ∧
    me (note r (modMe s f)) = noted s r (f (me s)) := by
  have he := note_modMe r f s
  have e : note r (modMe s f) = { s with
      cores := s.cores.set s.iss.core (noted s r (f (me s))), iss := { s.iss with wrote := r :: s.iss.wrote } } := by rw [he]; rfl
  have ho := onlyCore_of s (noted s r (f (me s))) { s.iss with wrote := r :: s.iss.wrote } rfl
  rw [e]
  exact ⟨ho.1, rfl, ho.2⟩

/-! Stores. -/

/-- A store in the core's own view changes that view and what is not published of it. -/
theorem storeOwn_eq (s : State) (c : CoreId) (q i loc ipa : Nat) (bs : List Byte) : ∃ own unpub,
    storeOwn s c q i loc ipa bs = modCr s c (fun k => { k with own := own, unpub := unpub }) :=
  ⟨ownPut (ownBytes q i loc ipa bs) q i (cr s c).own,
    ownPut ((ownBytes q i loc ipa bs).filter (fun w => !(cr s c).own.any (fun y => before q i y.seq y.lane && y.loc == w.loc))) q i (cr s c).unpub, rfl⟩
/-- What performing a store lane does: its bytes enter the core's own view, or the lane stays, is recorded as failed and counted. -/
theorem performStore_law (c : CoreId) (q : Nat) (ls : List Lane) (l : Lane) (s : State) : ∃ u own unpub f, WalksOnly s u ∧
    (performStore c q ls l s).1 = modCr u c (fun k => { k with own := own, unpub := unpub, failed := k.failed ++ f }) := by
  unfold performStore
  have h0 : modCr s c (fun k => { k with own := (cr s c).own, unpub := (cr s c).unpub, failed := k.failed ++ [] }) = s := by
    show setCr s c { cr s c with failed := (cr s c).failed ++ [] } = s
    rw [List.append_nil]
    show { s with cores := s.cores.set c (cr s c) } = s
    simp [cr]
  split
  · split
    · next loc _ _ g _ =>
      refine ⟨foundG g s, (cr s c).own, (cr s c).unpub, [⟨cEcc, 0, some (false, l.va - (loc - g)), 0, l.shown, none⟩], foundG_walks g s, ?_⟩
      rw [← (foundG_walks g s).cr c]
      rfl
    · obtain ⟨o, u, e⟩ := storeOwn_eq s c q l.i _ (((partOf s c).map (fun p => ipaOf s (pt s p) l.va)).getD l.va) (l.data.getD [])
      exact ⟨s, o, u, [], WalksOnly.refl s, by simp only [List.append_nil]; exact e⟩
  · exact ⟨s, _, _, _, WalksOnly.refl s, h0.symm⟩
theorem performGo_cons (c : CoreId) (q : Nat) (ls : List Lane) (l : Lane) (r : List Lane) (s : State) : performGo c q ls (l :: r) s =
    ((performGo c q ls r (performStore c q ls l s).1).1, match (performStore c q ls l s).2 with
      | some x => x :: (performGo c q ls r (performStore c q ls l s).1).2 | none => (performGo c q ls r (performStore c q ls l s).1).2) := rfl
/-- What performing the lanes of a store does. -/
theorem performGo_law (c : CoreId) (q : Nat) (all : List Lane) : ∀ (ls : List Lane) (s : State), ∃ u own unpub f, WalksOnly s u ∧
    (performGo c q all ls s).1 = modCr u c (fun k => { k with own := own, unpub := unpub, failed := k.failed ++ f })
  | [], s => ⟨s, (cr s c).own, (cr s c).unpub, [], WalksOnly.refl s, by
      show s = setCr s c { cr s c with failed := (cr s c).failed ++ [] }
      rw [List.append_nil]
      show s = { s with cores := s.cores.set c (cr s c) }
      simp [cr]⟩
  | l :: r, s => by
    obtain ⟨u, o, p, f, w, h1⟩ := performStore_law c q all l s
    obtain ⟨v, o2, p2, f2, y, h2⟩ := performGo_law c q all r (performStore c q all l s).1
    rw [performGo_cons]
    rw [h1] at y
    obtain ⟨v', y', e⟩ : ∃ v', WalksOnly u v' ∧ v = modCr v' c (fun k => { k with own := o, unpub := p, failed := k.failed ++ f }) := by
      obtain ⟨m, y1, y2, y3⟩ := y
      refine ⟨{ v with cores := u.cores }, ⟨m, ?_, y2, y3⟩, ?_⟩
      · rw [y1]; rfl
      · rw [y1]; rfl
    refine ⟨v', o2, p2, f ++ f2, w.trans y', ?_⟩
    rw [h2, e, modCr_modCr]
    simp only [List.append_assoc]
theorem performStores_law (c : CoreId) (q : Nat) (ls : List Lane) (s : State) : ∃ u own unpub f, WalksOnly s u ∧
    (performStores c q ls s).1 = modCr u c (fun k => { k with own := own, unpub := unpub, failed := k.failed ++ f }) := performGo_law c q ls ls s

/-- What issuing the lanes of a store does (R199, R206 to R209). -/
theorem issueStore_law (lv : Bool) (n : Nat) (lanes : List (Nat × Int × List Byte)) (s : State) :
    ∃ u own unpub f posts, WalksOnly s u ∧ issueStore lv n lanes s =
      modMe u (fun k => { k with own := own, unpub := unpub, failed := k.failed ++ f, posts := k.posts ++ posts, seq := k.seq + 1 }) := by
  obtain ⟨h1, _⟩ := openLanes_law lv true n (lanes.map (fun l => (l.1, l.2.1, some l.2.2))) s
  generalize ho : openLanes lv true n (lanes.map (fun l => (l.1, l.2.1, some l.2.2))) s = o at h1
  obtain ⟨u, own, unpub, f, w, g⟩ := performStores_law o.1.iss.core (mySeq o.1) o.2 o.1
  have hu : o.1.iss.core = u.iss.core := by rw [w.iss]
  rw [hu] at g
  have hc : (performStores u.iss.core (mySeq o.1) o.2 o.1).1.iss.core = u.iss.core := by rw [g]; rfl
  refine ⟨u, own, unpub, f, if (performStores u.iss.core (mySeq o.1) o.2 o.1).2.isEmpty then []
    else [⟨mySeq o.1, .store, (performStores u.iss.core (mySeq o.1) o.2 o.1).2⟩], h1.trans w, ?_⟩
  unfold issueStore
  simp only [ho, hu]
  by_cases he : (performStores u.iss.core (mySeq o.1) o.2 o.1).2.isEmpty = true
  · rw [if_pos he, if_pos he]
    unfold bumpSeq modMe
    rw [hc, g]
    refine (modCr_modCr _ _ _ _).trans ?_
    simp only [List.append_nil]
  · rw [if_neg he, if_neg he]
    unfold bumpSeq modMe
    rw [show (modCr (performStores u.iss.core (mySeq o.1) o.2 o.1).1 (performStores u.iss.core (mySeq o.1) o.2 o.1).1.iss.core _).iss.core
      = u.iss.core from hc, hc]
    refine (congrArg (fun x => modCr (modCr x _ _) _ _) g).trans ?_
    exact (congrArg (fun x => modCr x _ _) (modCr_modCr _ _ _ _)).trans (modCr_modCr _ _ _ _)

/-! Destinations emptied, and the lanes of a pan access. -/

/-- An emptied scalar. -/
theorem emptyS_only (d : BitVec 6) (s : State) :
    OnlyCore s (emptyS d s) ∧ (emptyS d s).iss = { s.iss with wrote := .s d :: s.iss.wrote } ∧
    (d ≠ 0 → fullS (me (emptyS d s)).regs d = false) ∧
    (∀ n, n ≠ d → rdS (me (emptyS d s)).regs n = rdS (me s).regs n ∧ fullS (me (emptyS d s)).regs n = fullS (me s).regs n) ∧
    me (emptyS d s) = { me s with
      regs := { (me s).regs with s := (me (emptyS d s)).regs.s }, latch := (me (emptyS d s)).latch } := by
  obtain ⟨n1, n2, n3⟩ := note_only (.s d) (fun k => k.setS d ⟨rdS k.regs d, false⟩) s
  have hE : note (.s d) (modMe s (fun k => k.setS d ⟨rdS k.regs d, false⟩)) = emptyS d s := rfl
  rw [hE] at n1 n2 n3
  rw [setS_eq] at n3
  refine ⟨n1, n2, ?_⟩
  rw [n3]
  refine ⟨?_, ?_, rfl⟩
  · intro hd
    have hd' : ¬ d = 0#6 := hd
    simp [noted, fullS, hd']
  · intro n hn
    have := Ne.symm (toFin_ne hn)
    by_cases hd : d = 0#6 <;> simp [noted, rdS, fullS, hd, Vector.getElem_set_ne _ _ this]
/-- An emptied v register takes its tag (R126). -/
theorem emptyV_only (d : BitVec 6) (tag : Tag) (s : State) :
    OnlyCore s (emptyV d tag s) ∧ (emptyV d tag s).iss = { s.iss with wrote := .v d :: s.iss.wrote } ∧
    rdV (me (emptyV d tag s)).regs d = ⟨(rdV (me s).regs d).bits, tag, false⟩ ∧
    (∀ n, n ≠ d → rdV (me (emptyV d tag s)).regs n = rdV (me s).regs n) ∧
    me (emptyV d tag s) = { me s with
      regs := { (me s).regs with v := (me (emptyV d tag s)).regs.v }, latch := (me (emptyV d tag s)).latch } := by
  obtain ⟨n1, n2, n3⟩ := note_only (.v d) (fun k => k.setV d ⟨(rdV k.regs d).bits, tag, false⟩) s
  have hE : note (.v d) (modMe s (fun k => k.setV d ⟨(rdV k.regs d).bits, tag, false⟩)) = emptyV d tag s := rfl
  rw [hE] at n1 n2 n3
  unfold Core.setV at n3
  refine ⟨n1, n2, ?_⟩
  rw [n3]
  refine ⟨?_, ?_, rfl⟩
  · simp [noted, rdV]
  · intro n hn
    have := Ne.symm (toFin_ne hn)
    simp [noted, rdV, Vector.getElem_set_ne _ _ this]

/-- What emptying a list of destinations does: each v register of it takes the tag and is empty, each scalar but s0 is empty, and every
other register stays as it was (R33, R126). -/
theorem emptyAll_law (tag : Tag) : ∀ (l : List RegId) (s : State),
    OnlyCore s (emptyAll tag l s) ∧ (∃ r, (emptyAll tag l s).iss = { s.iss with wrote := r }) ∧
    (∀ n, RegId.v n ∈ l → (rdV (me (emptyAll tag l s)).regs n).tag = tag ∧ (rdV (me (emptyAll tag l s)).regs n).full = false) ∧
    (∀ n, RegId.v n ∉ l → rdV (me (emptyAll tag l s)).regs n = rdV (me s).regs n) ∧
    (∀ n, RegId.s n ∈ l → n ≠ 0 → fullS (me (emptyAll tag l s)).regs n = false) ∧
    (∀ n, RegId.s n ∉ l → rdS (me (emptyAll tag l s)).regs n = rdS (me s).regs n ∧
      fullS (me (emptyAll tag l s)).regs n = fullS (me s).regs n) ∧
    me (emptyAll tag l s) = { me s with
      regs := { (me s).regs with s := (me (emptyAll tag l s)).regs.s, v := (me (emptyAll tag l s)).regs.v }, latch := (me (emptyAll tag l s)).latch }
  | [], s => ⟨by unfold OnlyCore; simp [me, cr, emptyAll], ⟨s.iss.wrote, rfl⟩, by simp, fun _ _ => rfl, by simp, fun _ _ => ⟨rfl, rfl⟩, rfl⟩
  | .v d :: r, s => by
    obtain ⟨e1, e2, e3, e4, e5⟩ := emptyV_only d tag s
    obtain ⟨h1, ⟨w, h2⟩, h3, h4, h5, h6, h7⟩ := emptyAll_law tag r (emptyV d tag s)
    have he : emptyAll tag (.v d :: r) s = emptyAll tag r (emptyV d tag s) := rfl
    rw [he]
    generalize emptyAll tag r (emptyV d tag s) = x at *
    refine ⟨e1.trans (by rw [e2]) h1, ⟨w, by rw [h2, e2]⟩, ?_, ?_, ?_, ?_, ?_⟩
    · intro n hm
      by_cases hr : RegId.v n ∈ r
      · exact h3 n hr
      · have : n = d := by simpa [hr] using hm
        subst this
        rw [h4 n hr, e3]; exact ⟨rfl, rfl⟩
    · intro n hm
      simp only [List.mem_cons, RegId.v.injEq, not_or] at hm
      rw [h4 n hm.2, e4 n hm.1]
    · intro n hm hn
      exact h5 n (by simpa using hm) hn
    · intro n hm
      have := h6 n (by simpa using hm)
      rw [this.1, this.2, e5]; exact ⟨rfl, rfl⟩
    · rw [h7, e5]
  | .s d :: r, s => by
    obtain ⟨e1, e2, e3, e4, e5⟩ := emptyS_only d s
    obtain ⟨h1, ⟨w, h2⟩, h3, h4, h5, h6, h7⟩ := emptyAll_law tag r (emptyS d s)
    have he : emptyAll tag (.s d :: r) s = emptyAll tag r (emptyS d s) := rfl
    rw [he]
    generalize emptyAll tag r (emptyS d s) = x at *
    refine ⟨e1.trans (by rw [e2]) h1, ⟨w, by rw [h2, e2]⟩, ?_, ?_, ?_, ?_, ?_⟩
    · intro n hm
      exact h3 n (by simpa using hm)
    · intro n hm
      rw [h4 n (by simpa using hm), e5]; rfl
    · intro n hm hn
      by_cases hr : RegId.s n ∈ r
      · exact h5 n hr hn
      · have : n = d := by simpa [hr] using hm
        subst this
        rw [(h6 n hr).2]; exact e3 hn
    · intro n hm
      simp only [List.mem_cons, RegId.s.injEq, not_or] at hm
      rw [(h6 n hm.2).1, (h6 n hm.2).2]
      exact e4 n hm.1
    · rw [h7, e5]
  | .p d :: r, s => by
    obtain ⟨h1, h2, h3, h4, h5, h6, h7⟩ := emptyAll_law tag r s
    exact ⟨h1, h2, fun n hm => h3 n (by simpa using hm), fun n hm => h4 n (by simpa using hm), fun n hm => h5 n (by simpa using hm),
      fun n hm => h6 n (by simpa using hm), h7⟩
  | .b d :: r, s => by
    obtain ⟨h1, h2, h3, h4, h5, h6, h7⟩ := emptyAll_law tag r s
    exact ⟨h1, h2, fun n hm => h3 n (by simpa using hm), fun n hm => h4 n (by simpa using hm), fun n hm => h5 n (by simpa using hm),
      fun n hm => h6 n (by simpa using hm), h7⟩
  | .m d :: r, s => by
    obtain ⟨h1, h2, h3, h4, h5, h6, h7⟩ := emptyAll_law tag r s
    exact ⟨h1, h2, fun n hm => h3 n (by simpa using hm), fun n hm => h4 n (by simpa using hm), fun n hm => h5 n (by simpa using hm),
      fun n hm => h6 n (by simpa using hm), h7⟩
  | .z d :: r, s => by
    obtain ⟨h1, h2, h3, h4, h5, h6, h7⟩ := emptyAll_law tag r s
    exact ⟨h1, h2, fun n hm => h3 n (by simpa using hm), fun n hm => h4 n (by simpa using hm), fun n hm => h5 n (by simpa using hm),
      fun n hm => h6 n (by simpa using hm), h7⟩
  | .c d :: r, s => by
    obtain ⟨h1, h2, h3, h4, h5, h6, h7⟩ := emptyAll_law tag r s
    exact ⟨h1, h2, fun n hm => h3 n (by simpa using hm), fun n hm => h4 n (by simpa using hm), fun n hm => h5 n (by simpa using hm),
      fun n hm => h6 n (by simpa using hm), h7⟩

/-- What opening the lanes of a pan access does (R239). -/
theorem openPan_law (lv wr : Bool) : ∀ (xs : List (Nat × Nat × Nat)) (s : State),
    WalksOnly s (openPan lv wr xs s).1 ∧ List.Forall₂ IsLane (openPan lv wr xs s).2 (xs.map (fun x => (x.1, gAddr x.2.1, x.2.2)))
  | [], s => ⟨WalksOnly.refl s, List.Forall₂.nil⟩
  | (i, va, n) :: r, s => by
    obtain ⟨h1, h2, _, _, _⟩ := openLane_law false wr i n va none s
    obtain ⟨g1, g2⟩ := openPan_law lv wr r (openLane false wr i n va none s).1
    exact ⟨h1.trans g1, List.Forall₂.cons ⟨h2.1, h2.2.1, h2.2.2⟩ g2⟩

end Sys2Proof.Machine
end

