-- ==== Sys2Proof/Laws/Parts.lean ====
section
/-! SUPPORT. What updates over cores, partitions and VFs leave (R284, R285, R333). -/
namespace Sys2Proof.Machine

/-- Reading a register of sixteen after a write. -/
theorem get_toFin {α : Type} (v : Vector α 16) (n : BitVec 4) (x : α) (m : BitVec 4) : (v.set n.toFin x)[m.toFin] = if m = n then x else v[m.toFin] := by
  by_cases h : m = n
  · subst h; simp
  · have := Ne.symm (toFin_ne h)
    simp [h, Vector.getElem_set_ne _ _ this]
/-- One update of each core of a list. -/
theorem fold_cores (f : CoreId → Core → Core) : ∀ (l : List CoreId) (s : State), l.Nodup →
    let t := l.foldl (fun s c => modCr s c (f c)) s
    t = { s with cores := t.cores } ∧ ∀ c, cr t c = if c ∈ l then f c (cr s c) else cr s c
  | [], s, _ => ⟨rfl, fun c => by simp⟩
  | a :: l, s, hn => by
    rw [List.nodup_cons] at hn
    obtain ⟨h1, h2⟩ := fold_cores f l (modCr s a (f a)) hn.2
    have hg : ∀ c, cr (modCr s a (f a)) c = if c = a then f a (cr s a) else cr s c := by
      intro c
      by_cases hc : c = a
      · subst hc; simp [modCr, setCr, cr]
      · have : ¬ a.val = c.val := fun e => hc (Fin.ext e.symm)
        rw [if_neg hc]
        show (s.cores.set a.val (f a (cr s a)))[c.val] = s.cores[c.val]
        exact Vector.getElem_set_ne _ _ this
    refine ⟨?_, fun c => ?_⟩
    · dsimp only [List.foldl_cons] at h1 ⊢
      rw [h1]; rfl
    · have := h2 c
      dsimp only [List.foldl_cons] at this ⊢
      rw [this, hg c]
      by_cases hc : c = a
      · subst hc; simp [hn.1]
      · simp [hc]
/-- The cores are distinct. -/
theorem coreIds_nodup : coreIds.Nodup := List.nodup_finRange 64
/-- The cores of a partition are distinct. -/
theorem coresOf_nodup (s : State) (p : PartId) : (coresOf s p).Nodup := coreIds_nodup.filter _
/-- A core is of a partition when the set has it. -/
theorem mem_coresOf (s : State) (p : PartId) (c : CoreId) : c ∈ coresOf s p ↔ inMask (pt s p).mask c = true := by
  simp [coresOf, coreIds]
/-- A partition after a write of one. -/
theorem pt_set (s : State) (p : PartId) (k : Part) (x : PartId) : pt (setPt s p k) x = if x = p then k else pt s x := by
  by_cases h : x = p
  · subst h; simp [setPt, pt]
  · rw [if_neg h]
    have : ¬ p.val = x.val := fun e => h (Fin.ext e.symm)
    show (s.parts.set p.val k)[x.val] = s.parts[x.val]
    exact Vector.getElem_set_ne _ _ this
/-- A VF after a write of one. -/
theorem vf_set (s : State) (p : VfId) (k : Vf) (x : VfId) : vf (setVf s p k) x = if x = p then k else vf s x := by
  by_cases h : x = p
  · subst h; simp [setVf, vf]
  · rw [if_neg h]
    have : ¬ p.val = x.val := fun e => h (Fin.ext e.symm)
    show (s.vfs.set p.val k)[x.val] = s.vfs[x.val]
    exact Vector.getElem_set_ne _ _ this
/-- Retiring the cores that are due changes the record of units and the cores' marks and port weights alone (R296, R333). -/
theorem dueCores_law : ∀ (l : List CoreId) (s : State), ∃ cs us, dueCores l s = { s with cores := cs, units := us } ∧
    ∀ c, ∃ r w, cr (dueCores l s) c = { cr s c with retired := r, portw := w } ∧ (c ∉ l → r = (cr s c).retired ∧ w = (cr s c).portw)
  | [], s => ⟨s.cores, s.units, rfl, fun c => ⟨(cr s c).retired, (cr s c).portw, rfl, fun _ => ⟨rfl, rfl⟩⟩⟩
  | a :: l, s => by
    unfold dueCores
    rw [List.foldl_cons]
    split
    · obtain ⟨cs, us, h, h2⟩ := dueCores_law l (goneCore a s)
      unfold dueCores at h h2
      rw [h]
      refine ⟨cs, us, rfl, fun c => ?_⟩
      obtain ⟨r, w, e1, e2⟩ := h2 c
      rw [h] at e1
      have hg : cr (goneCore a s) c = if c = a then { cr s c with retired := true, portw := 0 } else cr s c := by
        by_cases hc : c = a
        · subst hc; simp [goneCore, goneUnit, modCr, setCr, cr]
        · have : ¬ a.val = c.val := fun e => hc (Fin.ext e.symm)
          rw [if_neg hc]
          show (s.cores.set a.val _)[c.val] = s.cores[c.val]
          exact Vector.getElem_set_ne _ _ this
      rw [hg] at e1 e2
      refine ⟨r, w, ?_, ?_⟩
      · rw [e1]; split <;> rfl
      · intro hc
        simp only [List.mem_cons, not_or] at hc
        rw [(e2 hc.2).1, (e2 hc.2).2, if_neg hc.1]
        exact ⟨rfl, rfl⟩
    · obtain ⟨cs, us, h, h2⟩ := dueCores_law l s
      unfold dueCores at h h2
      refine ⟨cs, us, h, fun c => ?_⟩
      obtain ⟨r, w, e1, e2⟩ := h2 c
      exact ⟨r, w, e1, fun hc => e2 (fun hm => hc (List.mem_cons_of_mem _ hm))⟩

end Sys2Proof.Machine
end

