-- ==== Sys2Proof/Laws/Publish.lean ====
section
/-! SUPPORT. What a publication and its forwarding can do (R218, R219, R227, R228). -/
namespace Sys2Proof.Machine

/-- Forwarding writes changes only the packets sent with their sequence numbers, the acknowledgements awaited and the counter that names
them (R225, R227, R228). -/
theorem forward_law (a : Agent) (p : PartId) (ws : List (Nat × Byte)) (s : State) (w : Nat × Byte) :
    ∃ n k o q, (forward a p ws s w).1 = { s with nextId := n, ackWait := k, sent := o, outSeq := q } := by
  unfold forward
  split
  · exact ⟨_, _, _, _, rfl⟩
  · split
    · exact ⟨s.nextId, s.ackWait, s.sent, s.outSeq, rfl⟩
    · exact ⟨_, _, _, _, rfl⟩
theorem forwardGo_law (a : Agent) (p : PartId) (all : List (Nat × Byte)) : ∀ (ws : List (Nat × Byte)) (s : State),
    ∃ n k o q, (forwardGo a p all ws s).1 = { s with nextId := n, ackWait := k, sent := o, outSeq := q }
  | [], s => ⟨s.nextId, s.ackWait, s.sent, s.outSeq, rfl⟩
  | w :: r, s => by
    obtain ⟨n, k, o, q, h⟩ := forward_law a p all s w
    obtain ⟨n2, k2, o2, q2, h2⟩ := forwardGo_law a p all r (forward a p all s w).1
    have e : (forwardGo a p all (w :: r) s).1 = (forwardGo a p all r (forward a p all s w).1).1 := rfl
    refine ⟨n2, k2, o2, q2, ?_⟩
    rw [e, h2, h]
theorem forwardAll_law (a : Agent) (p : PartId) (ws : List (Nat × Byte)) (s : State) :
    ∃ n k o q, (forwardAll a p ws s).1 = { s with nextId := n, ackWait := k, sent := o, outSeq := q } := by
  unfold forwardAll
  split
  · exact forwardGo_law a p ws ws s
  · exact ⟨s.nextId, s.ackWait, s.sent, s.outSeq, rfl⟩

/-- What a publication of an agent that is no core does (R218, R220, R227). -/
theorem pubBy_eq (a : Agent) (s : State) (ws : List (Nat × Byte)) : ∃ n k o q, pubBy a s ws = { s with
    pubs := s.pubs ++ [⟨a, BitVec.allOnes 64, agentMask a s.pubs 1, ws⟩], mem := s.mem.wrPairs ws, badG := healG ws s.badG
    nextId := n, ackWait := k, sent := o, outSeq := q } := by
  unfold pubBy
  obtain ⟨n, k, o, q, h⟩ := forwardAll_law a 0 ws (addPub s a (BitVec.allOnes 64) 0 ws)
  refine ⟨n, k, o, q, ?_⟩
  rw [h, ← Nat.zero_or (agentMask a s.pubs 1)]
  rfl
theorem pubOther_eq (s : State) (ws : List (Nat × Byte)) : ∃ n k o q, pubOther s ws = { s with
    pubs := s.pubs ++ [⟨.host 0, BitVec.allOnes 64, agentMask (.host 0) s.pubs 1, ws⟩], mem := s.mem.wrPairs ws, badG := healG ws s.badG
    nextId := n, ackWait := k, sent := o, outSeq := q } := pubBy_eq _ _ _

/-- The writes that a core has not published, oldest first. -/
def unpublished (k : Core) : List (Nat × Byte) := k.unpub.reverse.map (fun w => (w.loc, w.val))
/-- What a publication of the committing core does (R219, R220). -/
theorem publishFwd_law (s : State) (c : CoreId) (scope : Nat) : ∃ n a o q, (publishFwd s c scope).1 = { s with
    cores := s.cores.set c { cr s c with unpub := [], mine := (cr s c).mine ||| pubBit s }
    mem := s.mem.wrPairs (unpublished (cr s c))
    pubs := s.pubs ++ [⟨.core c, domMask s c scope, (cr s c).incl ||| (cr s c).mine ||| agentMask (.core c) s.pubs 1, unpublished (cr s c)⟩]
    badG := healG (unpublished (cr s c)) s.badG, nextId := n, ackWait := a, sent := o, outSeq := q } := by
  obtain ⟨n, a, o, q, h⟩ := forwardAll_law (.core c) ((partOf s c).getD 0) ((cr s c).unpub.reverse.map (fun w => (w.loc, w.val))) (publish s c scope)
  exact ⟨n, a, o, q, h⟩

/-- The domain of a scope depends on the cores' groups and the partitions alone (R216). -/
theorem domMask_modCr (s : State) (c d : CoreId) (f : Core → Core) (hf : ∀ k, (f k).group = k.group) (scope : Nat) :
    domMask (modCr s d f) c scope = domMask s c scope := by
  have h : ∀ e, (cr (modCr s d f) e).group = (cr s e).group := by
    intro e
    rw [cr_modCr]
    split
    · next h => subst h; exact hf _
    · rfl
  have hp : ∀ e, partOf (modCr s d f) e = partOf s e := fun _ => rfl
  simp only [domMask, gangMask, h, hp]

end Sys2Proof.Machine
end

