-- ==== Sys2Proof/Laws/Traps.lean ====
section
/-! SUPPORT. What taking a trap can do, said once: the entry to the handler, with everything it leaves (R314 to R320). -/
namespace Sys2Proof.Machine

/-- The committing core as a trap entry leaves it, before the status registers are written. -/
def trapped (s : State) (k : Core) : Core :=
  { k with keptStop := s.iss.stop, keptFurther := k.further, keptNext := k.nextUnit }

/-- A trap at the committing core that waits for nothing enters the handler at once (R314). -/
theorem trapCore_enters (s : State) (h : HeldTrap) (ha : s.iss.act = true) (hh : (me s).h = false)
    (he : (me s).trapEntry.isSome = true) (hr : trapReady (me s) = true) :
    trapCore s.iss.core h s =
      enterTrap s.iss.core h { modCr s s.iss.core (trapped s) with iss := Issue.reset } := by
  have h1 : (cr s s.iss.core).h = false := hh
  have h2 : (cr s s.iss.core).trapEntry.isNone = false := by
    have : (cr s s.iss.core).trapEntry.isSome = true := he
    cases h3 : (cr s s.iss.core).trapEntry <;> simp_all
  have h3 : trapReady (cr s s.iss.core) = true := hr
  unfold trapCore
  simp only [ha, h1, h2, h3, Bool.true_and, decide_true, if_true, Bool.or_self, Bool.false_eq_true, if_false]
  congr 1
  have e : ∀ (x : State) (i : Issue), modCr { x with iss := i } s.iss.core (fun k => { k with keptFurther := k.further, keptNext := k.nextUnit })
      = { modCr x s.iss.core (fun k => { k with keptFurther := k.further, keptNext := k.nextUnit }) with iss := i } := fun _ _ => rfl
  rw [e, modCr_modCr]
  rfl

/-- The bytes of the frame and the rest of L after an entry (R318). -/
theorem frame_bytes (m : Mem) (x y : Nat) :
    let l := ((m.wrN 0 8 x).wrN 8 8 y).wrN 16 48 0
    l.rdN 0 8 = x % 2 ^ 64 ∧ l.rdN 8 8 = y % 2 ^ 64 ∧ l.rdN 16 48 = 0 ∧ ∀ a, 64 ≤ a → l.rd a = m.rd a := by
  intro l
  have out : ∀ (m : Mem) (lo n z a k : Nat), (a + k ≤ lo ∨ lo + n ≤ a) → (m.wrN lo n z).rdN a k = m.rdN a k := by
    intro m lo n z a k
    induction k generalizing a with
    | zero => intro _; rfl
    | succ k ih =>
      intro h
      unfold Mem.rdN
      rw [rd_wrN_out _ _ _ _ _ (by omega), ih (a + 1) (by omega)]
  refine ⟨?_, ?_, ?_, ?_⟩
  · rw [out _ _ _ _ _ _ (by omega), out _ _ _ _ _ _ (by omega), rdN_wrN]; rfl
  · rw [out _ _ _ _ _ _ (by omega), rdN_wrN]; rfl
  · rw [rdN_wrN]; rfl
  · intro a ha
    rw [rd_wrN_out _ _ _ _ _ (by omega), rd_wrN_out _ _ _ _ _ (by omega), rd_wrN_out _ _ _ _ _ (by omega)]

/-- A core in its handler (R314 to R318). -/
def handlerCore (h : HeldTrap) (now : Nat) (k : Core) : Core :=
  { k with
    cause := h.info.cause, slot := BitVec.ofNat 4 h.info.slot, leaf := h.leaf, repc := h.repc
    lbase := BitVec.ofNat 3 (activeLoops k), h := true, wskip := false, epc := h.unit, sel := 0x80, latch := h.latch
    l := ((k.l.wrN 0 8 (frameOf h.info).1).wrN 8 8 (frameOf h.info).2).wrN 16 48 0
    badL := healL 0 64 k.badL
    j := match h.info.j with
      | some j => k.j.set j.toFin { k.j[j.toFin] with st := .done }
      | none => k.j
    pendTrap := none, pc := k.trapEntry.getD 0, pfx := none, left := 0, resume := false, further := false
    nextUnit := none, wait := .none, asks := [], last := now + 1, busy := now + 1 }
theorem enterTrap_eq (c : CoreId) (h : HeldTrap) (s : State) : enterTrap c h s = modCr s c (handlerCore h s.now) := rfl

/-- The entry to the handler from the committing bundle: what it writes and what it leaves (R314 to R318). -/
theorem trap_enters (s : State) (h : HeldTrap) (ha : s.iss.act = true) (hh : (me s).h = false)
    (he : (me s).trapEntry.isSome = true) (hr : trapReady (me s) = true) :
    Entered s (trapCore s.iss.core h s) s.iss.core h.info h.unit h.leaf h.repc ∧ TrapFrame s (trapCore s.iss.core h s) s.iss.core := by
  have e : trapCore s.iss.core h s =
      { s with cores := s.cores.set s.iss.core (handlerCore h s.now (trapped s (cr s s.iss.core))), iss := Issue.reset } := by
    rw [trapCore_enters s h ha hh he hr, enterTrap_eq]
    exact congrArg (fun x : State => { x with iss := Issue.reset }) (modCr_modCr s s.iss.core (trapped s) (handlerCore h s.now))
  have hm : cr (trapCore s.iss.core h s) s.iss.core = handlerCore h s.now (trapped s (cr s s.iss.core)) := by
    rw [e]; simp [cr]
  obtain ⟨f1, f2, f3, f4⟩ := frame_bytes (cr s s.iss.core).l (frameOf h.info).1 (frameOf h.info).2
  have he' : (cr s s.iss.core).trapEntry.isSome = true := he
  constructor
  · unfold Entered
    rw [hm]
    have hl : (handlerCore h s.now (trapped s (cr s s.iss.core))).l =
        (((cr s s.iss.core).l.wrN 0 8 (frameOf h.info).1).wrN 8 8 (frameOf h.info).2).wrN 16 48 0 := by simp only [handlerCore, trapped]
    rw [hl]
    refine ⟨rfl, rfl, rfl, rfl, rfl, rfl, rfl, rfl, rfl, ?_, rfl, f1, f2, f3, f4⟩
    show some ((cr s s.iss.core).trapEntry.getD 0) = (cr s s.iss.core).trapEntry
    cases h3 : (cr s s.iss.core).trapEntry <;> simp_all
  · unfold TrapFrame
    rw [hm]
    refine ⟨e, ?_, ?_, ?_, ?_, ?_, ?_, ?_, ?_, ?_, ?_, ?_, ?_, ?_, ?_⟩ <;> simp only [handlerCore, trapped]

end Sys2Proof.Machine
end

