-- ==== Sys2Proof/Laws/SlotsOfLocal.lean ====
section
/-! SUPPORT. What branches and accesses of L do, in the terms of the statements (R79 to R88, R197 to R203). -/
namespace Sys2Proof.Machine

theorem ex_nextSlot {s : State} (h : s.iss.act = true) : nextSlot s = { s with iss := { s.iss with slot := s.iss.slot + 1 } } := nextSlot_act h
theorem branchTo_next (b : BitVec 3) (s : State) (h : s.iss.act = true) :
    BranchesTo s (.next (nextSlot (branchTo b s))) (srcB s b) (bubbleOf s.iss.regs b) := by
  unfold BranchesTo
  rw [nextSlot_act (by exact h)]
  rfl
theorem lCheck_ok {s : State} {a n al : Nat} (h1 : a % al = 0) (h2 : a + n ≤ 8388608) : lCheck s (a : Int) n al = none := by
  unfold lCheck inL lTop
  have : ((a : Int) % (al : Int)) = 0 := by exact_mod_cast h1
  rw [if_neg (by simp [this]), if_neg]
  simp only [Bool.not_eq_true', Bool.and_eq_false_iff, decide_eq_false_iff_not]
  omega
theorem wrL_next (a n x : Nat) (s : State) (h : s.iss.act = true) : StoresL s (.next (nextSlot (wrL a n x s))) a n x := by
  rw [nextSlot_act (by exact h)]
  have ho := onlyCore_of s { me s with l := (me s).l.wrN a n x, badL := healL a n (me s).badL } { s.iss with slot := s.iss.slot + 1 } rfl
  refine ⟨_, rfl, ho.1, rfl, ?_⟩
  have e : me { wrL a n x s with iss := { (wrL a n x s).iss with slot := (wrL a n x s).iss.slot + 1 } } = { me s with l := (me s).l.wrN a n x, badL := healL a n (me s).badL } := ho.2
  rw [e]
  exact ⟨rdN_wrN _ _ _ _, fun b hb => rd_wrN_out _ _ _ _ _ hb, rfl⟩
theorem storeLanes_eq (a : Nat) (v : VBits) : ∀ (l : List Nat) (s : State),
    ∃ m bad, storeLanes a v l s = modMe s (fun k => { k with l := m, badL := bad }) ∧
      (∀ b, (∀ i ∈ l, b < a + 4 * i ∨ a + 4 * i + 4 ≤ b) → m.rd b = (me s).l.rd b) ∧
      (l.Pairwise (· ≠ ·) → ∀ i ∈ l, m.rdN (a + 4 * i) 4 = (laneOf v i).toNat)
  | [], s => ⟨(me s).l, (me s).badL, (by show s = { s with cores := s.cores.set s.iss.core (me s) }; simp [me, cr]), fun _ _ => rfl, fun _ i hi => by simp at hi⟩
  | j :: r, s => by
    obtain ⟨m, bad, h1, h2, h3⟩ := storeLanes_eq a v r (wrL (a + 4 * j) 4 (laneOf v j).toNat s)
    have hm : (me (wrL (a + 4 * j) 4 (laneOf v j).toNat s)).l = (me s).l.wrN (a + 4 * j) 4 (laneOf v j).toNat := by
      rw [wrL, me_modMe]
    refine ⟨m, bad, ?_, ?_, ?_⟩
    · rw [storeLanes, h1, wrL]
      exact modCr_modCr _ _ _ _
    · intro b hb
      rw [h2 b (fun i hi => hb i (by simp [hi])), hm, rd_wrN_out _ _ _ _ _ (hb j (by simp))]
    · intro hp i hi
      rw [List.pairwise_cons] at hp
      rcases List.mem_cons.1 hi with rfl | hi
      · have e : ∀ n k, (∀ c, n ≤ c → c < n + k → m.rd c = (me (wrL (a + 4 * i) 4 (laneOf v i).toNat s)).l.rd c) → m.rdN n k = (me (wrL (a + 4 * i) 4 (laneOf v i).toNat s)).l.rdN n k := by
          intro n k
          induction k generalizing n with
          | zero => intro _; rfl
          | succ k ih => intro h; unfold Mem.rdN; rw [h n (by omega) (by omega), ih (n + 1) (fun c h1 h2 => h c (by omega) (by omega))]
        rw [e, hm, rdN_wrN, Nat.mod_eq_of_lt]
        · exact (laneOf v i).isLt
        · intro c hc1 hc2
          apply h2
          intro k hk
          have := hp.1 k hk
          omega
      · exact h3 hp.2 i hi
theorem becomes (f : Core → Core) (s : State) (h : s.iss.act = true) : Becomes s (.next (nextSlot (modMe s f))) (f (me s)) := by
  rw [nextSlot_act (by exact h)]
  have ho := onlyCore_of s (f (me s)) { s.iss with slot := s.iss.slot + 1 } rfl
  exact ⟨_, rfl, ho.1, rfl, ho.2⟩

end Sys2Proof.Machine
end

