-- ==== Sys2Proof/Laws/Accesses.lean ====
section
/-! SUPPORT. What accesses of G and of pan regions put in flight, in the terms of the statements (R204 to R214, R236 to R252). -/
namespace Sys2Proof.Machine

theorem frameS_of {s t : State} (d : BitVec 6) (kind : PKind) (due : Nat) (val : BitVec 4096) (ls : List Lane) (f : List TrapInfo)
    (hm : me t = launched kind [.s d] due val ls (moreFailed f (noted s (.s d) ((me s).setS d ⟨rdS (me s).regs d, false⟩)))) :
    Noted (.s d) s t ∧ FrameS s t d := by
  rw [setS_eq] at hm
  unfold FrameS Noted
  rw [hm]
  refine ⟨rfl, ?_, ?_, rfl⟩
  · intro hd
    have hd' : ¬ d = 0#6 := hd
    simp [launched, moreFailed, noted, fullS, hd']
  · intro n hn
    have := Ne.symm (toFin_ne hn)
    by_cases hd : d = 0#6 <;> simp [launched, moreFailed, noted, rdS, fullS, hd, Vector.getElem_set_ne _ _ this]
theorem frameV_of {s t : State} (d : BitVec 6) (tag : Tag) (kind : PKind) (due : Nat) (val : BitVec 4096) (ls : List Lane) (f : List TrapInfo)
    (hm : me t = launched kind [.v d] due val ls (moreFailed f (noted s (.v d) ((me s).setV d ⟨(rdV (me s).regs d).bits, tag, false⟩)))) :
    Noted (.v d) s t ∧ FrameV s t d tag := by
  unfold Core.setV at hm
  unfold FrameV Noted
  rw [hm]
  refine ⟨rfl, ?_, ?_, rfl⟩
  · simp [launched, moreFailed, noted, rdV]
  · intro n hn
    have := Ne.symm (toFin_ne hn)
    simp [launched, moreFailed, noted, rdV, Vector.getElem_set_ne _ _ this]
theorem ready_iss {i : Instr} {s : State} (h : Ready i s) : s.iss.act = true := h.1
theorem loadV_law (s : State) (h : s.iss.act = true) (lv : Bool) (d : BitVec 6) (tag : Tag) (lanes : List (Nat × Int)) (hne : lanes ≠ []) :
    ∃ t ls, t = nextSlot (loadV lv d tag lanes s) ∧ OnlyCoreAndWalks s t ∧ SlotDone s t ∧ Noted (.v d) s t ∧ FrameV s t d tag ∧
      InFlight s t (.load false false tag) [.v d] ((rdV (me s).regs d).bits.setWidth 4096) (lanes.map (fun l => (l.1, gAddr l.2, 4))) ls ∧
      (∀ l ∈ ls, Loaded s l) := by
  obtain ⟨n1, n2, n3⟩ := note_only (.v d) (fun k => k.setV d ⟨(rdV k.regs d).bits, tag, false⟩) s
  have hE : note (.v d) (modMe s (fun k => k.setV d ⟨(rdV k.regs d).bits, tag, false⟩)) = emptyV d tag s := rfl
  rw [hE] at n1 n2 n3
  have hlb : ∀ c q va loc n, c = s.iss.core → loadBytes (emptyV d tag s) c q va loc n = loadBytes s c q va loc n := by
    intro c q va loc n hc
    have e1 : (emptyV d tag s).pubs = s.pubs := by rw [n1]
    have e2 : cr (emptyV d tag s) s.iss.core = noted s (.v d) ((me s).setV d ⟨(rdV (me s).regs d).bits, tag, false⟩) := by
      rw [← n3]; show _ = cr _ (emptyV d tag s).iss.core; rw [n2]
    subst hc
    unfold loadBytes snapOf
    rw [e1, e2]; rfl
  have hcore : (emptyV d tag s).iss.core = s.iss.core := by rw [n2]
  have hseq : (me (emptyV d tag s)).seq = (me s).seq := by rw [n3]; rfl
  obtain ⟨u, f, ls, w, e, l1, l2, _⟩ := issueLoad_law lv (.load false false tag) [.v d] ((rdV (me s).regs d).bits.setWidth 4096) 4 lanes (emptyV d tag s)
  obtain ⟨t1, t2, t3⟩ := walks_then h n1 _ n2 w (fun k => launched (.load false false tag) [.v d] ((emptyV d tag s).iss.t + 1) ((rdV (me s).regs d).bits.setWidth 4096) ls (moreFailed f k))
  rw [← e] at t1 t2 t3
  rw [n3] at t3
  have ht : (emptyV d tag s).iss.t = s.iss.t := by rw [n2]
  obtain ⟨f1, f2⟩ := frameV_of d _ _ _ _ _ _ t3
  have hl : loadV lv d tag lanes s = issueLoad lv (.load false false tag) [.v d] ((rdV (me s).regs d).bits.setWidth 4096) 4 lanes (emptyV d tag s) := by
    unfold loadV
    rw [if_neg (by simpa using hne)]
  refine ⟨_, ls, rfl, ?_⟩
  rw [hl]
  refine ⟨t1, t2, f1, f2, ⟨?_, ?_, l1⟩, ?_⟩
  · rw [t3, ht]; rfl
  · rw [t3]; rfl
  · intro l hl loc hs hw hb
    rw [l2 l hl loc hs (by rw [n3]; exact hw) hb, hcore, hseq, hlb _ _ _ _ _ rfl]
theorem frameStore_of {i : Instr} {s : State} (h : Ready i s) (lv : Bool) (n : Nat) (lanes : List (Nat × Int × List Byte)) :
    FrameStore s (nextSlot (issueStore lv n lanes s)) := by
  obtain ⟨u, own, unpub, f, posts, w, e⟩ := issueStore_law lv n lanes s
  have ho : OnlyCore s s := by unfold OnlyCore; simp [me, cr]
  obtain ⟨t1, t2, t3⟩ := walks_then h.1 ho s.iss.wrote rfl w (fun k => { k with own := own, unpub := unpub, failed := k.failed ++ f, posts := k.posts ++ posts, seq := k.seq + 1 })
  rw [e]
  refine ⟨t1, t2, ?_, ?_⟩
  · rw [t3]
  · rw [t3]
theorem store_one (s : State) (n : Nat) (a : Int) (bs : List Byte) (loc : Nat) (hx : xlMe s (gAddr a) true = .ok loc)
    (hb : badColumn s loc n = none) :
    ∃ u ipa, WalksOnly s u ∧ u.pubs = s.pubs ∧ issueStore false n [(0, a, bs)] s = bumpSeq (storeOwn u s.iss.core (me s).seq 0 loc ipa bs) := by
  obtain ⟨k1, k2, _, k4, k3⟩ := openLane_law false true 0 n a (some bs) s
  generalize ho : openLane false true 0 n a (some bs) s = o at k1 k2 k3 k4
  have hc : o.1.iss.core = s.iss.core := by rw [k1.iss]
  have hq : mySeq o.1 = (me s).seq := by unfold mySeq; rw [k1.me]
  have hb' : readColumn o.1 s.iss.core [o.2] loc o.2.len = none := readColumn_none (by rw [k1.badColumn, k2.2.2]; exact hb)
  refine ⟨o.1, ((partOf o.1 s.iss.core).map (fun p => ipaOf o.1 (pt o.1 p) o.2.va)).getD o.2.va, k1, (k3 rfl loc hx).2, ?_⟩
  have hp : performStore s.iss.core (me s).seq [o.2] o.2 o.1 =
      (storeOwn o.1 s.iss.core (me s).seq 0 loc (((partOf o.1 s.iss.core).map (fun p => ipaOf o.1 (pt o.1 p) o.2.va)).getD o.2.va) bs, none) := by
    unfold performStore
    rw [(k3 rfl loc hx).1]
    simp only
    rw [hb', k4, k2.1]
    rfl
  unfold issueStore
  simp only [List.map_cons, List.map_nil, openLanes_cons, openLanes, ho, hc, hq, performStores, performGo_cons, hp, performGo]
  rfl
theorem lanes_law' (lv wr : Bool) (n : Nat) (xs : List (Nat × Int × Option (List Byte))) (s : State) :
    WalksOnly s (openLanes lv wr n xs s).1 ∧ List.Forall₂ IsLane (openLanes lv wr n xs s).2 (xs.map (fun x => (x.1, gAddr x.2.1, n))) := by
  obtain ⟨h1, h2⟩ := openLanes_law lv wr n xs s
  refine ⟨h1, ?_⟩
  rw [List.forall₂_map_right_iff]
  exact h2.imp (fun _ _ h => h.1)
theorem amo_law (s : State) (h : s.iss.act = true) (fn : BitVec 4) (wide : Bool) (d base op : BitVec 6) (ex : W64) :
    ∃ t ls, t = nextSlot (issueAmo fn wide d base op ex s) ∧ OnlyCoreAndWalks s t ∧ SlotDone s t ∧ Noted (.s d) s t ∧ FrameS s t d ∧
      InFlight s t (.amo fn wide (srcS s op) ex) [.s d] 0 [(0, gAddr (srcS s base).toNat, amoBytes wide)] ls := by
  obtain ⟨n1, n2, n3⟩ := note_only (.s d) (fun k => k.setS d ⟨rdS k.regs d, false⟩) s
  have hE : note (.s d) (modMe s (fun k => k.setS d ⟨rdS k.regs d, false⟩)) = emptyS d s := rfl
  rw [hE] at n1 n2 n3
  obtain ⟨w, l⟩ := lanes_law' false true (amoBytes wide) [(0, ((srcS s base).toNat : Int), none)] (emptyS d s)
  have e : issueAmo fn wide d base op ex s = modMe (openLanes false true (amoBytes wide) [(0, ((srcS s base).toNat : Int), none)] (emptyS d s)).1
    (fun k => launched (.amo fn wide (srcS s op) ex) [.s d] ((openLanes false true (amoBytes wide) [(0, ((srcS s base).toNat : Int), none)] (emptyS d s)).1.iss.t + 1) 0
      (openLanes false true (amoBytes wide) [(0, ((srcS s base).toNat : Int), none)] (emptyS d s)).2 k) := rfl
  generalize openLanes false true (amoBytes wide) [(0, ((srcS s base).toNat : Int), none)] (emptyS d s) = o at w l e
  have hit : o.1.iss.t = s.iss.t := by rw [w.iss, n2]
  rw [hit] at e
  obtain ⟨t1, t2, t3⟩ := walks_then h n1 _ n2 w (fun k => launched (.amo fn wide (srcS s op) ex) [.s d] (s.iss.t + 1) 0 o.2 k)
  rw [← e, n3] at *
  have t3' : me (nextSlot (issueAmo fn wide d base op ex s)) = launched (.amo fn wide (srcS s op) ex) [.s d] (s.iss.t + 1) 0 o.2 (moreFailed [] (noted s (.s d) ((me s).setS d ⟨rdS (me s).regs d, false⟩))) := by
    rw [t3]; simp [moreFailed]
  obtain ⟨f1, f2⟩ := frameS_of d _ _ _ _ _ t3'
  refine ⟨_, o.2, rfl, t1, t2, f1, f2, ?_, ?_, l⟩
  · rw [t3, setS_eq]; rfl
  · rw [t3, setS_eq]; rfl
theorem post_law (s : State) (h : s.iss.act = true) (kind : OKind) (n : Nat) (xs : List (Nat × Int × Option (List Byte))) :
    ∃ t ls, t = nextSlot (bumpSeq (modMe (openLanes false true n xs s).1 (fun k => { k with posts := k.posts ++ [⟨mySeq (openLanes false true n xs s).1, kind, (openLanes false true n xs s).2⟩] }))) ∧
      OnlyCoreAndWalks s t ∧ SlotDone s t ∧
      me t = { me s with posts := (me s).posts ++ [⟨(me s).seq, kind, ls⟩], seq := (me s).seq + 1 } ∧
      List.Forall₂ IsLane ls (xs.map (fun x => (x.1, gAddr x.2.1, n))) := by
  obtain ⟨w, l⟩ := lanes_law' false true n xs s
  generalize openLanes false true n xs s = o at w l
  have hq : mySeq o.1 = (me s).seq := by unfold mySeq; rw [w.me]
  have ho : OnlyCore s s := by unfold OnlyCore; simp [me, cr]
  obtain ⟨t1, t2, t3⟩ := walks_then h ho s.iss.wrote rfl w (fun k => { k with posts := k.posts ++ [⟨(me s).seq, kind, o.2⟩], seq := k.seq + 1 })
  have e : bumpSeq (modMe o.1 (fun k => { k with posts := k.posts ++ [⟨mySeq o.1, kind, o.2⟩] })) =
      modMe o.1 (fun k => { k with posts := k.posts ++ [⟨(me s).seq, kind, o.2⟩], seq := k.seq + 1 }) := by
    rw [hq]
    unfold bumpSeq
    exact modCr_modCr o.1 o.1.iss.core (fun k => { k with posts := k.posts ++ [⟨(me s).seq, kind, o.2⟩] }) (fun k => { k with seq := k.seq + 1 })
  rw [e]
  exact ⟨_, o.2, rfl, t1, t2, t3, l⟩
theorem runWith_go {i : Instr} {s : State} (h : Ready i s) (x : List (RegId × Bool)) (hx : x.any (fun r => emptyReg s.iss.regs r.1) = false) (eff : State → State) :
    runWith i x none false eff s = .next (nextSlot (eff s)) := by
  obtain ⟨h1, h2, h3⟩ := h
  have h4 : (srcRegs i ++ x).any (fun r => emptyReg s.iss.regs r.1) = false := by rw [List.any_append, h2, hx]; rfl
  have h5 : (srcRegs i ++ x).any (fun r => emptyReg s.iss.regs r.1 && r.2) = false := by
    rw [List.any_eq_false] at h4 ⊢
    intro r hr
    simp [h4 r hr]
  unfold runWith dueWith
  simp only [h1, h3, h4, h5]
  rfl
theorem panPost_law {n : Nat} (s : State) (h : s.iss.act = true) (k : PanOp) (base : BitVec 6) (o : BitVec n) (x : PanD → BitVec 4096) (r : Region) (off : Nat)
    (hf : panFind s k.sample (srcS s base).toNat = .at_ r off) :
    ∃ t ls, t = nextSlot (panPost k base o x s) ∧ OnlyCoreAndWalks s t ∧ SlotDone s t ∧
      me t = { me s with
        posts := (me s).posts ++ [⟨(me s).seq, .psmp k.vec r.id (panIndex (panDesc r.desc) off o).toNat (x (panDesc r.desc)), ls⟩]
        seq := (me s).seq + 1 } ∧
      List.Forall₂ IsLane ls ((panLanes (panDesc r.desc) k (srcS s base).toNat off (panIndex (panDesc r.desc) off o).toNat).map (fun x => (x.1, gAddr x.2.1, x.2.2))) := by
  obtain ⟨w, l⟩ := openPan_law k.vec true (panLanes (panDesc r.desc) k (srcS s base).toNat off (panIndex (panDesc r.desc) off o).toNat) s
  have ha : panAt s k.sample base = some (r, off) := by unfold panAt; rw [hf]
  unfold panPost
  rw [ha]
  simp only
  generalize openPan k.vec true (panLanes (panDesc r.desc) k (srcS s base).toNat off (panIndex (panDesc r.desc) off o).toNat) s = y at w l
  have hq : mySeq y.1 = (me s).seq := by unfold mySeq; rw [w.me]
  have ho : OnlyCore s s := by unfold OnlyCore; simp [me, cr]
  obtain ⟨t1, t2, t3⟩ := walks_then h ho s.iss.wrote rfl w (fun c => { c with posts := c.posts ++ [⟨(me s).seq, .psmp k.vec r.id (panIndex (panDesc r.desc) off o).toNat (x (panDesc r.desc)), y.2⟩], seq := c.seq + 1 })
  have e : bumpSeq (modMe y.1 (fun c => { c with posts := c.posts ++ [⟨mySeq y.1, .psmp k.vec r.id (panIndex (panDesc r.desc) off o).toNat (x (panDesc r.desc)), y.2⟩] })) =
      modMe y.1 (fun c => { c with posts := c.posts ++ [⟨(me s).seq, .psmp k.vec r.id (panIndex (panDesc r.desc) off o).toNat (x (panDesc r.desc)), y.2⟩], seq := c.seq + 1 }) := by
    rw [hq]
    unfold bumpSeq
    exact modCr_modCr y.1 y.1.iss.core (fun c => { c with posts := c.posts ++ [⟨(me s).seq, .psmp k.vec r.id (panIndex (panDesc r.desc) off o).toNat (x (panDesc r.desc)), y.2⟩] }) (fun c => { c with seq := c.seq + 1 })
  rw [e]
  exact ⟨_, y.2, rfl, t1, t2, t3, l⟩
theorem panTap_law {n : Nat} (s : State) (h : s.iss.act = true) (k : PanOp) (base : BitVec 6) (o : BitVec n) (kind : Nat) (tap : BitVec 2) (dst : PanD → List RegId)
    (tag : PanD → Tag) (r : Region) (off : Nat) (hf : panFind s k.sample (srcS s base).toNat = .at_ r off) :
    Taps s (.next (nextSlot (panTap k base o kind tap dst tag s))) (.tap kind tap k.vec r.id (panIndex (panDesc r.desc) off o).toNat) (dst (panDesc r.desc)) (tag (panDesc r.desc))
      (panLanes (panDesc r.desc) k (srcS s base).toNat off (panIndex (panDesc r.desc) off o).toNat) := by
  unfold panTap
  rw [hf]
  simp only
  obtain ⟨h1, ⟨q, h2⟩, h3, h4, h5, h6, h7⟩ := emptyAll_law (tag (panDesc r.desc)) (dst (panDesc r.desc)) s
  have hs : srcS (emptyAll (tag (panDesc r.desc)) (dst (panDesc r.desc)) s) base = srcS s base := by unfold srcS; rw [h2]
  rw [hs]
  obtain ⟨w, l⟩ := openPan_law false false (panLanes (panDesc r.desc) k (srcS s base).toNat off (panIndex (panDesc r.desc) off o).toNat) (emptyAll (tag (panDesc r.desc)) (dst (panDesc r.desc)) s)
  generalize openPan false false (panLanes (panDesc r.desc) k (srcS s base).toNat off (panIndex (panDesc r.desc) off o).toNat) (emptyAll (tag (panDesc r.desc)) (dst (panDesc r.desc)) s) = y at w l
  have hit : y.1.iss.t = s.iss.t := by rw [w.iss, h2]
  rw [hit]
  obtain ⟨t1, t2, t3⟩ := walks_then h h1 q h2 w (fun c => launched (.tap kind tap k.vec r.id (panIndex (panDesc r.desc) off o).toNat) (dst (panDesc r.desc)) (s.iss.t + 1) 0 y.2 c)
  have e : launchPend (.tap kind tap k.vec r.id (panIndex (panDesc r.desc) off o).toNat) (dst (panDesc r.desc)) (s.iss.t + 1) 0 0 y.2 y.1 =
    modMe y.1 (fun c => launched (.tap kind tap k.vec r.id (panIndex (panDesc r.desc) off o).toNat) (dst (panDesc r.desc)) (s.iss.t + 1) 0 y.2 c) := rfl
  rw [e]
  refine ⟨_, y.2, rfl, t1, t2, ?_, ⟨?_, ?_, l⟩⟩
  · unfold FrameAll
    rw [t3]
    refine ⟨h3, h4, h5, h6, ?_⟩
    show launched _ _ _ _ _ _ = _
    rw [h7]; rfl
  · rw [t3, h7]; rfl
  · rw [t3, h7]; rfl

end Sys2Proof.Machine
end

