-- ==== Sys2Proof/Laws/Coherence.lean ====
section
/-! SUPPORT. Memory is the one order of its publications (R218, R219): what each shared operation on a state keeps of that. Reading and writing state, publications, and the scheduler. -/
namespace Sys2Proof.Machine

/-- The outcome leaves memory the one order of its publications. -/
inductive CohOut : Out → Prop
  | mk {s : State} (h : Coherent s) : CohOut (.next s)
theorem next_coh {s : State} (h : Coherent s) : CohOut (.next s) := .mk h
theorem pair_coh {α : Type} {p : State × α} {s : State} {x : α} (h : Coherent p.1) (e : p = (s, x)) : Coherent s := by
  rw [e] at h; exact h
theorem foldl_coh {α : Type} {f : State → α → State} {l : List α} {s : State} (hf : ∀ s x, Coherent s → Coherent (f s x)) (h : Coherent s) :
    Coherent (l.foldl f s) := by
  induction l generalizing s with
  | nil => exact h
  | cons x l ih => exact ih (hf s x h)
/-- A change of other fields. -/
theorem lit_coh {s t : State} (h : Coherent s) (m : t.mem = s.mem) (p : t.pubs = s.pubs) : Coherent t := by
  unfold Coherent at h ⊢; rw [m, p]; exact h
theorem id_coh {s : State} (h : Coherent s) : Coherent (id s) := h
theorem replay_wf (l : List Pub) : (replay l).wf = true := by
  have : ∀ (l : List Pub) (m : Mem), m.wf = true → (l.foldl (fun m p => m.wrPairs p.writes) m).wf = true := by
    intro l
    induction l with
    | nil => exact fun _ h => h
    | cons p l ih => exact fun m h => ih _ (wf_wrPairs _ _ h)
  exact this l [] rfl
/-- Such a memory is in its canonical form, the memory at reset among them. -/
theorem coherent_wf {s : State} (h : Coherent s) : s.mem.wf = true := by rw [h]; exact replay_wf _
theorem reset_coh : Coherent State.reset := rfl
theorem reset_wf : State.reset.mem.wf = true := coherent_wf reset_coh

theorem setCr_coh (s : State) (c : CoreId) (k : Core) (h0 : Coherent s) : Coherent (setCr s c k) := by
  unfold setCr
  try dsimp only
  repeat' first
      | with_reducible assumption
      | with_reducible exact lit_coh (by with_reducible assumption) (by with_reducible rfl) (by with_reducible rfl)
      | split
theorem modCr_coh (s : State) (c : CoreId) (f : Core → Core) (h0 : Coherent s) : Coherent (modCr s c f) := by
  unfold modCr
  try dsimp only
  repeat' first
      | with_reducible assumption
      | with_reducible apply setCr_coh
      | split
theorem setPt_coh (s : State) (p : PartId) (k : Part) (h0 : Coherent s) : Coherent (setPt s p k) := by
  unfold setPt
  try dsimp only
  repeat' first
      | with_reducible assumption
      | with_reducible exact lit_coh (by with_reducible assumption) (by with_reducible rfl) (by with_reducible rfl)
      | split
theorem modPt_coh (s : State) (p : PartId) (f : Part → Part) (h0 : Coherent s) : Coherent (modPt s p f) := by
  unfold modPt
  try dsimp only
  repeat' first
      | with_reducible assumption
      | with_reducible apply setPt_coh
      | split
theorem setVf_coh (s : State) (v : VfId) (k : Vf) (h0 : Coherent s) : Coherent (setVf s v k) := by
  unfold setVf
  try dsimp only
  repeat' first
      | with_reducible assumption
      | with_reducible exact lit_coh (by with_reducible assumption) (by with_reducible rfl) (by with_reducible rfl)
      | split
theorem modVf_coh (s : State) (v : VfId) (f : Vf → Vf) (h0 : Coherent s) : Coherent (modVf s v f) := by
  unfold modVf
  try dsimp only
  repeat' first
      | with_reducible assumption
      | with_reducible apply setVf_coh
      | split
theorem modMe_coh (s : State) (f : Core → Core) (h0 : Coherent s) : Coherent (modMe s f) := by
  unfold modMe
  try dsimp only
  repeat' first
      | with_reducible assumption
      | with_reducible apply modCr_coh
      | split
theorem modIss_coh (s : State) (f : Issue → Issue) (h0 : Coherent s) : Coherent (modIss s f) := by
  unfold modIss
  try dsimp only
  repeat' first
      | with_reducible assumption
      | with_reducible exact lit_coh (by with_reducible assumption) (by with_reducible rfl) (by with_reducible rfl)
      | split
theorem raise_coh (s : State) (e : Event) (h0 : Coherent s) : Coherent (raise s e) := by
  unfold raise
  try dsimp only
  repeat' first
      | with_reducible assumption
      | with_reducible exact lit_coh (by with_reducible assumption) (by with_reducible rfl) (by with_reducible rfl)
      | split
theorem ackOk_coh (s : State) (d : Nat) (h0 : Coherent s) : Coherent (ackOk s d) := by
  unfold ackOk
  try dsimp only
  repeat' first
      | with_reducible assumption
      | with_reducible exact lit_coh (by with_reducible assumption) (by with_reducible rfl) (by with_reducible rfl)
      | split
theorem nack_coh (s : State) (h0 : Coherent s) : Coherent (nack s) := by
  unfold nack
  try dsimp only
  repeat' first
      | with_reducible assumption
      | with_reducible exact lit_coh (by with_reducible assumption) (by with_reducible rfl) (by with_reducible rfl)
      | split
theorem nackData_coh (s : State) (d : Nat) (h0 : Coherent s) : Coherent (nackData s d) := by
  unfold nackData
  try dsimp only
  repeat' first
      | with_reducible assumption
      | with_reducible exact lit_coh (by with_reducible assumption) (by with_reducible rfl) (by with_reducible rfl)
      | split
theorem note_coh (r : RegId) (s : State) (h0 : Coherent s) : Coherent (note r s) := by
  unfold note
  try dsimp only
  repeat' first
      | with_reducible assumption
      | with_reducible apply modIss_coh
      | with_reducible apply modMe_coh
      | split
theorem wrS_coh (n : BitVec 6) (x : W64) (s : State) (h0 : Coherent s) : Coherent (wrS n x s) := by
  unfold wrS
  try dsimp only
  repeat' first
      | with_reducible assumption
      | with_reducible apply note_coh
      | with_reducible apply modMe_coh
      | split
theorem wrP_coh (n : BitVec 5) (x : Bool) (s : State) (h0 : Coherent s) : Coherent (wrP n x s) := by
  unfold wrP
  try dsimp only
  repeat' first
      | with_reducible assumption
      | with_reducible apply note_coh
      | with_reducible apply modMe_coh
      | split
theorem wrB_coh (n : BitVec 3) (x : CAddr) (s : State) (h0 : Coherent s) : Coherent (wrB n x s) := by
  unfold wrB
  try dsimp only
  repeat' first
      | with_reducible assumption
      | with_reducible apply note_coh
      | with_reducible apply modMe_coh
      | split
theorem wrV_coh (n : BitVec 6) (x : VBits) (t : Tag) (s : State) (h0 : Coherent s) : Coherent (wrV n x t s) := by
  unfold wrV
  try dsimp only
  repeat' first
      | with_reducible assumption
      | with_reducible apply note_coh
      | with_reducible apply modMe_coh
      | split
theorem wrM_coh (n : BitVec 3) (x : W64) (s : State) (h0 : Coherent s) : Coherent (wrM n x s) := by
  unfold wrM
  try dsimp only
  repeat' first
      | with_reducible assumption
      | with_reducible apply note_coh
      | with_reducible apply modMe_coh
      | split
theorem wrZ_coh (n : BitVec 2) (x : Tile) (s : State) (h0 : Coherent s) : Coherent (wrZ n x s) := by
  unfold wrZ
  try dsimp only
  repeat' first
      | with_reducible assumption
      | with_reducible apply note_coh
      | with_reducible apply modMe_coh
      | split
theorem emptyS_coh (n : BitVec 6) (s : State) (h0 : Coherent s) : Coherent (emptyS n s) := by
  unfold emptyS
  try dsimp only
  repeat' first
      | with_reducible assumption
      | with_reducible apply note_coh
      | with_reducible apply modMe_coh
      | split
theorem emptyV_coh (n : BitVec 6) (t : Tag) (s : State) (h0 : Coherent s) : Coherent (emptyV n t s) := by
  unfold emptyV
  try dsimp only
  repeat' first
      | with_reducible assumption
      | with_reducible apply note_coh
      | with_reducible apply modMe_coh
      | split
theorem setFlags_coh (f : BitVec 7) (s : State) (h0 : Coherent s) : Coherent (setFlags f s) := by
  unfold setFlags
  try dsimp only
  repeat' first
      | with_reducible assumption
      | with_reducible apply modMe_coh
      | split
theorem wrL_coh (a n x : Nat) (s : State) (h0 : Coherent s) : Coherent (wrL a n x s) := by
  unfold wrL
  try dsimp only
  repeat' first
      | with_reducible assumption
      | with_reducible apply modMe_coh
      | split
theorem tlbAdd_coh (s : State) (p : PartId) (va : Nat) (wr : Bool) (loc : Nat) (h0 : Coherent s) : Coherent (tlbAdd s p va wr loc) := by
  unfold tlbAdd
  try dsimp only
  repeat' first
      | with_reducible assumption
      | with_reducible exact lit_coh (by with_reducible assumption) (by with_reducible rfl) (by with_reducible rfl)
      | split
theorem addPub_coh (s : State) (a : Agent) (dom : W64) (deps : Nat) (ws : List (Nat × Byte)) (h0 : Coherent s) : Coherent (addPub s a dom deps ws) := by
  unfold Coherent at h0 ⊢
  unfold addPub
  dsimp only
  rw [replay, List.foldl_append, ← replay, ← h0]
  rfl
theorem publish_coh (s : State) (c : CoreId) (scope : Nat) (h0 : Coherent s) : Coherent (publish s c scope) := by
  unfold publish
  try dsimp only
  repeat' first
      | with_reducible assumption
      | with_reducible apply modCr_coh
      | with_reducible apply addPub_coh
      | split
theorem pubDirectAs_coh (a : Agent) (s : State) (c : CoreId) (ws : List (Nat × Byte)) (h0 : Coherent s) : Coherent (pubDirectAs a s c ws) := by
  unfold pubDirectAs
  try dsimp only
  repeat' first
      | with_reducible assumption
      | with_reducible apply modCr_coh
      | with_reducible apply addPub_coh
      | split
theorem pubDirect_coh (s : State) (c : CoreId) (ws : List (Nat × Byte)) (h0 : Coherent s) : Coherent (pubDirect s c ws) := by
  unfold pubDirect
  try dsimp only
  repeat' first
      | with_reducible assumption
      | with_reducible apply pubDirectAs_coh
      | split
theorem refresh_coh (s : State) (c : CoreId) (scope : Nat) (h0 : Coherent s) : Coherent (refresh s c scope) := by
  unfold refresh
  try dsimp only
  repeat' first
      | with_reducible assumption
      | with_reducible apply modCr_coh
      | split
theorem storeOwn_coh (s : State) (c : CoreId) (seq lane loc ipa : Nat) (bs : List Byte) (h0 : Coherent s) : Coherent (storeOwn s c seq lane loc ipa bs) := by
  unfold storeOwn
  try dsimp only
  repeat' first
      | with_reducible assumption
      | with_reducible apply modCr_coh
      | split
theorem memOwn_coh (c : CoreId) (seq : Nat) (ws : List (Nat × Byte)) (s : State) (h0 : Coherent s) : Coherent (memOwn c seq ws s) := by
  unfold memOwn
  try dsimp only
  repeat' first
      | with_reducible assumption
      | with_reducible apply modCr_coh
      | split
theorem sendFlit_coh (f : FlowId) (k : BitVec 16 → Packet) (s : State) (h0 : Coherent s) : Coherent (sendFlit f k s) := by
  unfold sendFlit
  try dsimp only
  repeat' first
      | with_reducible assumption
      | with_reducible exact lit_coh (by with_reducible assumption) (by with_reducible rfl) (by with_reducible rfl)
      | split
theorem awaitAck_coh (m : BitVec 16) (p : PartId) (s : State) (h0 : Coherent s) : Coherent (awaitAck m p s) := by
  unfold awaitAck
  try dsimp only
  repeat' first
      | with_reducible assumption
      | with_reducible exact lit_coh (by with_reducible assumption) (by with_reducible rfl) (by with_reducible rfl)
      | split
theorem sendMirror_coh (m : Mirror) (a : Nat) (k : MirMsg) (s : State) (h0 : Coherent s) : Coherent (sendMirror m a k s) := by
  unfold sendMirror
  try dsimp only
  repeat' first
      | with_reducible assumption
      | with_reducible apply sendFlit_coh
      | with_reducible apply awaitAck_coh
      | split
theorem forward_coh (a : Agent) (p : PartId) (ws : List (Nat × Byte)) (s : State) (w : Nat × Byte) (h0 : Coherent s) : Coherent (forward a p ws s w).1 := by
  unfold forward
  try dsimp only
  repeat' first
      | with_reducible assumption
      | with_reducible apply sendMirror_coh
      | with_reducible apply sendFlit_coh
      | with_reducible apply awaitAck_coh
      | split
theorem forwardGo_coh (a : Agent) (p : PartId) (ws : List (Nat × Byte)) : ∀ (a0 : List (Nat × Byte)) (s : State), Coherent s → Coherent (forwardGo a p ws a0 s).1 := by
  intro a0
  induction a0 with
  | nil =>
    intro s h0
    unfold forwardGo
    try dsimp only
    repeat' first
      | with_reducible assumption
      | with_reducible apply forward_coh
      | with_reducible apply ih
      | with_reducible exact lit_coh (by with_reducible assumption) (by with_reducible rfl) (by with_reducible rfl)
      | with_reducible refine pair_coh ?_ (by with_reducible assumption)
      | with_reducible refine next_coh ?_
      | with_reducible refine foldl_coh ?_ ?_
      | intro _ _ _
      | intro _ _
      | split
      | (show Coherent (id _) ; with_reducible exact id_coh ‹_›)
      | (unfold Coherent; dsimp only; show Coherent _; first | with_reducible assumption | with_reducible apply forward_coh | with_reducible apply ih | split | with_reducible refine foldl_coh ?_ ?_)
  | cons x l ih =>
    intro s h0
    unfold forwardGo
    try dsimp only
    repeat' first
      | with_reducible assumption
      | with_reducible apply forward_coh
      | with_reducible apply ih
      | with_reducible exact lit_coh (by with_reducible assumption) (by with_reducible rfl) (by with_reducible rfl)
      | with_reducible refine pair_coh ?_ (by with_reducible assumption)
      | with_reducible refine next_coh ?_
      | with_reducible refine foldl_coh ?_ ?_
      | intro _ _ _
      | intro _ _
      | split
      | (show Coherent (id _) ; with_reducible exact id_coh ‹_›)
      | (unfold Coherent; dsimp only; show Coherent _; first | with_reducible assumption | with_reducible apply forward_coh | with_reducible apply ih | split | with_reducible refine foldl_coh ?_ ?_)
theorem forwardAll_coh (a : Agent) (p : PartId) (ws : List (Nat × Byte)) (s : State) (h0 : Coherent s) : Coherent (forwardAll a p ws s).1 := by
  unfold forwardAll
  try dsimp only
  repeat' first
      | with_reducible assumption
      | with_reducible apply forwardGo_coh
      | split
theorem publishFwd_coh (s : State) (c : CoreId) (scope : Nat) (h0 : Coherent s) : Coherent (publishFwd s c scope).1 := by
  unfold publishFwd
  try dsimp only
  repeat' first
      | with_reducible assumption
      | with_reducible apply forwardAll_coh
      | with_reducible apply publish_coh
      | split
theorem directFwd_coh (a : Agent) (s : State) (c : CoreId) (ws : List (Nat × Byte)) (h0 : Coherent s) : Coherent (directFwd a s c ws) := by
  unfold directFwd
  try dsimp only
  repeat' first
      | with_reducible assumption
      | with_reducible apply forwardAll_coh
      | with_reducible apply pubDirectAs_coh
      | split
theorem flushOwn_coh (s : State) (c : CoreId) (seq lo n : Nat) (h0 : Coherent s) : Coherent (flushOwn s c seq lo n) := by
  unfold flushOwn
  try dsimp only
  repeat' first
      | with_reducible assumption
      | with_reducible apply directFwd_coh
      | with_reducible apply modCr_coh
      | split
theorem pubBy_coh (a : Agent) (s : State) (ws : List (Nat × Byte)) (h0 : Coherent s) : Coherent (pubBy a s ws) := by
  unfold pubBy
  try dsimp only
  repeat' first
      | with_reducible assumption
      | with_reducible apply forwardAll_coh
      | with_reducible apply addPub_coh
      | split
theorem pubPan_coh (s : State) (ws : List (Nat × Byte)) (h0 : Coherent s) : Coherent (pubPan s ws) := by
  unfold pubPan
  try dsimp only
  repeat' first
      | with_reducible assumption
      | with_reducible apply addPub_coh
      | split
theorem pubOther_coh (s : State) (ws : List (Nat × Byte)) (h0 : Coherent s) : Coherent (pubOther s ws) := by
  unfold pubOther
  try dsimp only
  repeat' first
      | with_reducible assumption
      | with_reducible apply pubBy_coh
      | split
theorem poke_coh (s : State) (loc n x : Nat) (h0 : Coherent s) : Coherent (poke s loc n x) := by
  unfold poke
  try dsimp only
  repeat' first
      | with_reducible assumption
      | with_reducible apply pubOther_coh
      | split
theorem postRequest_coh (v : VfId) (s : State) (h0 : Coherent s) : Coherent (postRequest v s) := by
  unfold postRequest
  try dsimp only
  repeat' first
      | with_reducible assumption
      | with_reducible apply raise_coh
      | with_reducible apply modVf_coh
      | with_reducible apply addPub_coh
      | intro _ _
      | split
      | (unfold Coherent; dsimp only; show Coherent _; first | with_reducible assumption | with_reducible apply raise_coh | with_reducible apply modVf_coh | with_reducible apply addPub_coh | split | with_reducible refine foldl_coh ?_ ?_)
theorem pageMiss_coh (s : State) (c : CoreId) (p : PartId) (ipa va : Nat) (tbl : Bool) (level : Nat) (wr : Bool) (h0 : Coherent s) : Coherent (pageMiss s c p ipa va tbl level wr).1 := by
  unfold pageMiss
  try dsimp only
  repeat' first
      | with_reducible assumption
      | with_reducible apply postRequest_coh
      | with_reducible apply modVf_coh
      | split
theorem engErr_coh (v : VfId) (cause : BitVec 8) (asp : Bool) (addr : Nat) (s : State) (h0 : Coherent s) : Coherent (engErr v cause asp addr s) := by
  unfold engErr
  try dsimp only
  repeat' first
      | with_reducible assumption
      | with_reducible apply modVf_coh
      | split
theorem setUnit_coh (x : UnitErr) (s : State) (h0 : Coherent s) : Coherent (setUnit x s) := by
  unfold setUnit
  try dsimp only
  repeat' first
      | with_reducible assumption
      | with_reducible exact lit_coh (by with_reducible assumption) (by with_reducible rfl) (by with_reducible rfl)
      | split
theorem bumpUnit_coh (kind : BitVec 3) (u : BitVec 16) (s : State) (h0 : Coherent s) : Coherent (bumpUnit kind u s).1 := by
  unfold bumpUnit
  try dsimp only
  repeat' first
      | with_reducible assumption
      | with_reducible apply setUnit_coh
      | split
theorem foundError_coh (kind : BitVec 3) (u : BitVec 16) (s : State) (h0 : Coherent s) : Coherent (foundError kind u s) := by
  unfold foundError
  try dsimp only
  repeat' first
      | with_reducible assumption
      | with_reducible apply bumpUnit_coh
      | with_reducible apply raise_coh
      | split
theorem foundG_coh (loc : Nat) (s : State) (h0 : Coherent s) : Coherent (foundG loc s) := by
  unfold foundG
  try dsimp only
  repeat' first
      | with_reducible assumption
      | with_reducible apply foundError_coh
      | split
theorem foundL_coh (c : CoreId) (s : State) (h0 : Coherent s) : Coherent (foundL c s) := by
  unfold foundL
  try dsimp only
  repeat' first
      | with_reducible assumption
      | with_reducible apply foundError_coh
      | split
theorem foundW_coh (c : CoreId) (col : Nat) (s : State) (h0 : Coherent s) : Coherent (foundW c col s) := by
  unfold foundW
  try dsimp only
  repeat' first
      | with_reducible assumption
      | with_reducible apply foundError_coh
      | split
theorem latePut_coh (p : PartId) (w : LateW) (s : State) (h0 : Coherent s) : Coherent (latePut p w s) := by
  unfold latePut
  try dsimp only
  repeat' first
      | with_reducible assumption
      | with_reducible apply poke_coh
      | with_reducible apply foundG_coh
      | with_reducible apply modPt_coh
      | with_reducible apply pageMiss_coh
      | split
theorem recPut_coh (p : PartId) (rec_ off lo n x : Nat) (s : State) (h0 : Coherent s) : Coherent (recPut p rec_ off lo n x s) := by
  unfold recPut
  try dsimp only
  repeat' first
      | with_reducible assumption
      | with_reducible apply latePut_coh
      | split
theorem lateReply_coh (p : PartId) (tag : Nat) (fail : Bool) (s : State) (h0 : Coherent s) : Coherent (lateReply p tag fail s) := by
  unfold lateReply
  try dsimp only
  repeat' first
      | with_reducible assumption
      | with_reducible apply modPt_coh
      | with_reducible apply latePut_coh
      | with_reducible refine foldl_coh ?_ ?_
      | intro _ _ _
      | split
theorem modTask_coh (p : PartId) (rec_ : Nat) (f : Task → Task) (s : State) (h0 : Coherent s) : Coherent (modTask p rec_ f s) := by
  unfold modTask
  try dsimp only
  repeat' first
      | with_reducible assumption
      | with_reducible apply modPt_coh
      | split
theorem modQueue_coh (p : PartId) (q : BitVec 6) (f : Queue → Queue) (s : State) (h0 : Coherent s) : Coherent (modQueue p q f s) := by
  unfold modQueue
  try dsimp only
  repeat' first
      | with_reducible assumption
      | with_reducible apply modPt_coh
      | split
theorem makeReady_coh (p : PartId) (rec_ : Nat) (s : State) (h0 : Coherent s) : Coherent (makeReady p rec_ s) := by
  unfold makeReady
  try dsimp only
  repeat' first
      | with_reducible assumption
      | with_reducible apply recPut_coh
      | with_reducible apply modQueue_coh
      | with_reducible apply modTask_coh
      | split
theorem writeWord_coh (p : PartId) (rec_ donep exec : Nat) (status : BitVec 4) (s : State) (h0 : Coherent s) : Coherent (writeWord p rec_ donep exec status s).1 := by
  unfold writeWord
  try dsimp only
  repeat' first
      | with_reducible assumption
      | with_reducible apply poke_coh
      | with_reducible apply engErr_coh
      | with_reducible apply foundG_coh
      | with_reducible apply modPt_coh
      | with_reducible apply pageMiss_coh
      | split
theorem endOne_coh (p : PartId) (rec_ : Nat) (status : BitVec 4) (exec : Nat) (s : State) (h0 : Coherent s) : Coherent (endOne p rec_ status exec s).1 := by
  unfold endOne
  try dsimp only
  repeat' first
      | with_reducible assumption
      | with_reducible apply writeWord_coh
      | with_reducible apply recPut_coh
      | with_reducible apply modQueue_coh
      | with_reducible apply modTask_coh
      | split
theorem countOff_coh (p : PartId) (pred : Nat) (s : State) (rec_ : Nat) (h0 : Coherent s) : Coherent (countOff p pred s rec_) := by
  unfold countOff
  try dsimp only
  repeat' first
      | with_reducible assumption
      | with_reducible apply modTask_coh
      | with_reducible apply recPut_coh
      | with_reducible apply makeReady_coh
      | split
theorem noteEnded_coh (p : PartId) (q : BitVec 6) (status : BitVec 4) (root : Bool) (s : State) (h0 : Coherent s) : Coherent (noteEnded p q status root s) := by
  unfold noteEnded
  try dsimp only
  repeat' first
      | with_reducible assumption
      | with_reducible apply modPt_coh
      | split
theorem sluiceNote_coh (p : PartId) (had : Bool) (q : BitVec 6) (s : State) (h0 : Coherent s) : Coherent (sluiceNote p had q s) := by
  unfold sluiceNote
  try dsimp only
  repeat' first
      | with_reducible assumption
      | with_reducible apply raise_coh
      | split
theorem release_coh (p : PartId) : ∀ (a0 : Nat) (a1 : Nat) (a2 : BitVec 4) (a3 : Option (BitVec 6)) (s : State), Coherent s → Coherent (release p a0 a1 a2 a3 s) := by
  intro a0
  induction a0 with
  | zero =>
    intro a1 a2 a3 s h0
    unfold release
    try dsimp only
    repeat' first
      | with_reducible assumption
      | with_reducible apply endOne_coh
      | with_reducible apply countOff_coh
      | with_reducible apply noteEnded_coh
      | with_reducible apply sluiceNote_coh
      | with_reducible apply ih
      | with_reducible exact lit_coh (by with_reducible assumption) (by with_reducible rfl) (by with_reducible rfl)
      | with_reducible refine pair_coh ?_ (by with_reducible assumption)
      | with_reducible refine next_coh ?_
      | with_reducible refine foldl_coh ?_ ?_
      | intro _ _ _
      | intro _ _
      | split
      | (show Coherent (id _) ; with_reducible exact id_coh ‹_›)
      | (unfold Coherent; dsimp only; show Coherent _; first | with_reducible assumption | with_reducible apply endOne_coh | with_reducible apply countOff_coh | with_reducible apply noteEnded_coh | with_reducible apply sluiceNote_coh | with_reducible apply ih | split | with_reducible refine foldl_coh ?_ ?_)
  | succ n ih =>
    intro a1 a2 a3 s h0
    unfold release
    try dsimp only
    repeat' first
      | with_reducible assumption
      | with_reducible apply endOne_coh
      | with_reducible apply countOff_coh
      | with_reducible apply noteEnded_coh
      | with_reducible apply sluiceNote_coh
      | with_reducible apply ih
      | with_reducible exact lit_coh (by with_reducible assumption) (by with_reducible rfl) (by with_reducible rfl)
      | with_reducible refine pair_coh ?_ (by with_reducible assumption)
      | with_reducible refine next_coh ?_
      | with_reducible refine foldl_coh ?_ ?_
      | intro _ _ _
      | intro _ _
      | split
      | (show Coherent (id _) ; with_reducible exact id_coh ‹_›)
      | (unfold Coherent; dsimp only; show Coherent _; first | with_reducible assumption | with_reducible apply endOne_coh | with_reducible apply countOff_coh | with_reducible apply noteEnded_coh | with_reducible apply sluiceNote_coh | with_reducible apply ih | split | with_reducible refine foldl_coh ?_ ?_)
theorem dueCols_coh (c : CoreId) (s : State) (h0 : Coherent s) : Coherent (dueCols c s) := by
  unfold dueCols
  try dsimp only
  repeat' first
      | with_reducible assumption
      | with_reducible apply setUnit_coh
      | with_reducible apply raise_coh
      | with_reducible exact lit_coh (by with_reducible assumption) (by with_reducible rfl) (by with_reducible rfl)
      | split
theorem openGate_coh (p : PartId) (s : State) (h0 : Coherent s) : Coherent (openGate p s) := by
  unfold openGate
  try dsimp only
  repeat' first
      | with_reducible assumption
      | with_reducible apply dueCols_coh
      | with_reducible apply modPt_coh
      | with_reducible refine foldl_coh ?_ ?_
      | intro _ _ _
      | split
theorem kernelCheck_coh (p : PartId) (s : State) (h0 : Coherent s) : Coherent (kernelCheck p s) := by
  unfold kernelCheck
  try dsimp only
  repeat' first
      | with_reducible assumption
      | with_reducible apply raise_coh
      | with_reducible apply openGate_coh
      | with_reducible apply modPt_coh
      | split
theorem teardownCheck_coh (p : PartId) (s : State) (h0 : Coherent s) : Coherent (teardownCheck p s) := by
  unfold teardownCheck
  try dsimp only
  repeat' first
      | with_reducible assumption
      | with_reducible apply raise_coh
      | with_reducible apply modQueue_coh
      | with_reducible refine foldl_coh ?_ ?_
      | intro _ _ _
      | split
theorem askYield_coh (p : PartId) (s : State) (h0 : Coherent s) : Coherent (askYield p s) := by
  unfold askYield
  try dsimp only
  repeat' first
      | with_reducible assumption
      | with_reducible apply modCr_coh
      | split
theorem settle_coh (p : PartId) (s : State) (h0 : Coherent s) : Coherent (settle p s) := by
  unfold settle
  try dsimp only
  repeat' first
      | with_reducible assumption
      | with_reducible apply askYield_coh
      | with_reducible apply kernelCheck_coh
      | with_reducible apply teardownCheck_coh
      | split
theorem endHere_coh (p : PartId) (rec_ : Nat) (status : BitVec 4) (exec : Nat) (s : State) (h0 : Coherent s) : Coherent (endHere p rec_ status exec s) := by
  unfold endHere
  try dsimp only
  repeat' first
      | with_reducible assumption
      | with_reducible apply noteEnded_coh
      | with_reducible apply endOne_coh
      | with_reducible apply release_coh
      | split
theorem endTask_coh (p : PartId) (rec_ : Nat) (status : BitVec 4) (exec : Nat) (s : State) (h0 : Coherent s) : Coherent (endTask p rec_ status exec s) := by
  unfold endTask
  try dsimp only
  repeat' first
      | with_reducible assumption
      | with_reducible apply settle_coh
      | with_reducible apply sluiceNote_coh
      | with_reducible apply endHere_coh
      | split
theorem freshRecord_coh (p : PartId) (sp : Spawn) (preds : Nat) (s : State) (h0 : Coherent s) : Coherent (freshRecord p sp preds s) := by
  unfold freshRecord
  try dsimp only
  repeat' first
      | with_reducible assumption
      | with_reducible apply recPut_coh
      | split
theorem endAtSpawn_coh (p : PartId) (sp : Spawn) (donep : Nat) (q : BitVec 6) (prio : BitVec 3) (status : BitVec 4) (s : State) (h0 : Coherent s) : Coherent (endAtSpawn p sp donep q prio status s) := by
  unfold endAtSpawn
  try dsimp only
  repeat' first
      | with_reducible assumption
      | with_reducible apply settle_coh
      | with_reducible apply endHere_coh
      | with_reducible apply modPt_coh
      | with_reducible apply freshRecord_coh
      | split
theorem appendDep_coh (p : PartId) (rec_ : Nat) (s : State) (u : Task) (h0 : Coherent s) : Coherent (appendDep p rec_ s u) := by
  unfold appendDep
  try dsimp only
  repeat' first
      | with_reducible assumption
      | with_reducible apply modTask_coh
      | with_reducible apply latePut_coh
      | split
theorem enterSpawn_coh (p : PartId) (sp : Spawn) (q : BitVec 6) (pr : BitVec 3) (donep : Nat) (sets : List (Nat × Nat × Bool)) (preds : List Task)
    (depl cap : Nat) (s : State) (h0 : Coherent s) : Coherent (enterSpawn p sp q pr donep sets preds depl cap s) := by
  unfold enterSpawn
  try dsimp only
  repeat' first
      | with_reducible assumption
      | with_reducible apply askYield_coh
      | with_reducible apply sluiceNote_coh
      | with_reducible apply modPt_coh
      | with_reducible apply freshRecord_coh
      | with_reducible apply appendDep_coh
      | with_reducible apply makeReady_coh
      | with_reducible refine foldl_coh ?_ ?_
      | intro _ _ _
      | split
theorem spawnTry_coh (p : PartId) (sp : Spawn) (s : State) (h0 : Coherent s) : Coherent (spawnTry p sp s).1 := by
  unfold spawnTry
  try dsimp only
  repeat' first
      | with_reducible assumption
      | with_reducible apply pageMiss_coh
      | with_reducible apply endAtSpawn_coh
      | with_reducible apply enterSpawn_coh
      | with_reducible apply foundG_coh
      | split
theorem endCmd_coh (id : Nat) (fail : Option (BitVec 8 × Bool × Bool × Nat)) (s : State) (h0 : Coherent s) : Coherent (endCmd id fail s) := by
  unfold endCmd
  try dsimp only
  repeat' first
      | with_reducible assumption
      | with_reducible apply settle_coh
      | with_reducible apply engErr_coh
      | with_reducible apply modPt_coh
      | with_reducible apply modCr_coh
      | with_reducible exact lit_coh (by with_reducible assumption) (by with_reducible rfl) (by with_reducible rfl)
      | with_reducible refine foldl_coh ?_ ?_
      | intro _ _ _
      | split
theorem answerSpawn_coh (p : PartId) (sp : Spawn) (s : State) (h0 : Coherent s) : Coherent (answerSpawn p sp s).1 := by
  unfold answerSpawn
  try dsimp only
  repeat' first
      | with_reducible assumption
      | with_reducible apply ackOk_coh
      | with_reducible apply nack_coh
      | split
theorem drainSpawns_coh (p : PartId) : ∀ (a0 : Nat) (s : State), Coherent s → Coherent (drainSpawns p a0 s) := by
  intro a0
  induction a0 with
  | zero =>
    intro s h0
    unfold drainSpawns
    try dsimp only
    repeat' first
      | with_reducible assumption
      | with_reducible apply modPt_coh
      | with_reducible apply nack_coh
      | with_reducible apply spawnTry_coh
      | with_reducible apply endCmd_coh
      | with_reducible apply answerSpawn_coh
      | with_reducible apply ih
      | with_reducible exact lit_coh (by with_reducible assumption) (by with_reducible rfl) (by with_reducible rfl)
      | with_reducible refine pair_coh ?_ (by with_reducible assumption)
      | with_reducible refine next_coh ?_
      | with_reducible refine foldl_coh ?_ ?_
      | intro _ _ _
      | intro _ _
      | split
      | (show Coherent (id _) ; with_reducible exact id_coh ‹_›)
      | (unfold Coherent; dsimp only; show Coherent _; first | with_reducible assumption | with_reducible apply modPt_coh | with_reducible apply nack_coh | with_reducible apply spawnTry_coh | with_reducible apply endCmd_coh | with_reducible apply answerSpawn_coh | with_reducible apply ih | split | with_reducible refine foldl_coh ?_ ?_)
  | succ n ih =>
    intro s h0
    unfold drainSpawns
    try dsimp only
    repeat' first
      | with_reducible assumption
      | with_reducible apply modPt_coh
      | with_reducible apply nack_coh
      | with_reducible apply spawnTry_coh
      | with_reducible apply endCmd_coh
      | with_reducible apply answerSpawn_coh
      | with_reducible apply ih
      | with_reducible exact lit_coh (by with_reducible assumption) (by with_reducible rfl) (by with_reducible rfl)
      | with_reducible refine pair_coh ?_ (by with_reducible assumption)
      | with_reducible refine next_coh ?_
      | with_reducible refine foldl_coh ?_ ?_
      | intro _ _ _
      | intro _ _
      | split
      | (show Coherent (id _) ; with_reducible exact id_coh ‹_›)
      | (unfold Coherent; dsimp only; show Coherent _; first | with_reducible assumption | with_reducible apply modPt_coh | with_reducible apply nack_coh | with_reducible apply spawnTry_coh | with_reducible apply endCmd_coh | with_reducible apply answerSpawn_coh | with_reducible apply ih | split | with_reducible refine foldl_coh ?_ ?_)
theorem spawnArrive_coh (p : PartId) (sp : Spawn) (s : State) (h0 : Coherent s) : Coherent (spawnArrive p sp s) := by
  unfold spawnArrive
  try dsimp only
  repeat' first
      | with_reducible assumption
      | with_reducible apply drainSpawns_coh
      | with_reducible apply modPt_coh
      | split

end Sys2Proof.Machine
end

