-- ==== Sys2Proof/Laws/CoherenceCore.lean ====
section
/-! SUPPORT. Memory stays the one order of its publications (R218, R219) under traps, results, and what the slots of a bundle do. -/
namespace Sys2Proof.Machine

theorem releaseMember_coh (g : Nat) (enters : Bool) (s : State) (c : CoreId) (h0 : Coherent s) : Coherent (releaseMember g enters s c) := by
  unfold releaseMember
  try dsimp only
  repeat' first
      | with_reducible assumption
      | with_reducible apply modCr_coh
      | with_reducible apply refresh_coh
      | split
theorem barrierCheck_coh (p : PartId) (g loc : Nat) (s : State) (h0 : Coherent s) : Coherent (barrierCheck p g loc s) := by
  unfold barrierCheck
  try dsimp only
  repeat' first
      | with_reducible assumption
      | with_reducible apply releaseMember_coh
      | with_reducible apply poke_coh
      | with_reducible refine foldl_coh ?_ ?_
      | intro _ _ _
      | split
theorem barriersAgain_coh (p : PartId) (s : State) (h0 : Coherent s) : Coherent (barriersAgain p s) := by
  unfold barriersAgain
  try dsimp only
  repeat' first
      | with_reducible assumption
      | with_reducible apply barrierCheck_coh
      | with_reducible refine foldl_coh ?_ ?_
      | intro _ _ _
      | split
theorem leaveGroup_coh (c : CoreId) (s : State) (h0 : Coherent s) : Coherent (leaveGroup c s) := by
  unfold leaveGroup
  try dsimp only
  repeat' first
      | with_reducible assumption
      | with_reducible apply barrierCheck_coh
      | with_reducible apply poke_coh
      | with_reducible apply recPut_coh
      | with_reducible apply modCr_coh
      | with_reducible apply latePut_coh
      | with_reducible refine foldl_coh ?_ ?_
      | intro _ _ _
      | split
theorem idleCore_coh (c : CoreId) (s : State) (h0 : Coherent s) : Coherent (idleCore c s) := by
  unfold idleCore
  try dsimp only
  repeat' first
      | with_reducible assumption
      | with_reducible apply modCr_coh
      | intro _ _
      | split
      | (unfold Coherent; dsimp only; show Coherent _; first | with_reducible assumption | with_reducible apply modCr_coh | split | with_reducible refine foldl_coh ?_ ?_)
theorem stopTask_coh (c : CoreId) (status : BitVec 4) (s : State) (h0 : Coherent s) : Coherent (stopTask c status s) := by
  unfold stopTask
  try dsimp only
  repeat' first
      | with_reducible assumption
      | with_reducible apply idleCore_coh
      | with_reducible apply endTask_coh
      | with_reducible apply leaveGroup_coh
      | with_reducible apply modCr_coh
      | split
theorem trapErr_coh (v : VfId) (dbl : Bool) (cause : BitVec 8) (rank : BitVec 6) (epc : CAddr) (s : State) (h0 : Coherent s) : Coherent (trapErr v dbl cause rank epc s) := by
  unfold trapErr
  try dsimp only
  repeat' first
      | with_reducible assumption
      | with_reducible apply modVf_coh
      | split
theorem doubleTrap_coh (c : CoreId) (cause : BitVec 8) (unit : CAddr) (s : State) (h0 : Coherent s) : Coherent (doubleTrap c cause unit s) := by
  unfold doubleTrap
  try dsimp only
  repeat' first
      | with_reducible assumption
      | with_reducible apply stopTask_coh
      | with_reducible apply trapErr_coh
      | split
theorem enterTrap_coh (c : CoreId) (h : HeldTrap) (s : State) (h0 : Coherent s) : Coherent (enterTrap c h s) := by
  unfold enterTrap
  try dsimp only
  repeat' first
      | with_reducible assumption
      | with_reducible apply modCr_coh
      | split
theorem trapCore_coh (c : CoreId) (h : HeldTrap) (s : State) (h0 : Coherent s) : Coherent (trapCore c h s) := by
  unfold trapCore
  try dsimp only
  repeat' first
      | with_reducible assumption
      | with_reducible apply modCr_coh
      | with_reducible apply enterTrap_coh
      | with_reducible apply doubleTrap_coh
      | intro _ _
      | split
      | (unfold Coherent; dsimp only; show Coherent _; first | with_reducible assumption | with_reducible apply modCr_coh | with_reducible apply enterTrap_coh | with_reducible apply doubleTrap_coh | split | with_reducible refine foldl_coh ?_ ?_)
theorem takeTrap_coh (t : TrapInfo) (s : State) (h0 : Coherent s) : Coherent (takeTrap t s) := by
  unfold takeTrap
  try dsimp only
  repeat' first
      | with_reducible assumption
      | with_reducible apply trapCore_coh
      | split
theorem nextSlot_coh (s : State) (h0 : Coherent s) : Coherent (nextSlot s) := by
  unfold nextSlot
  try dsimp only
  repeat' first
      | with_reducible assumption
      | with_reducible apply modIss_coh
      | split
theorem runWith_coh (i : Instr) (extra : List (RegId × Bool)) (fault : Option TrapInfo) (stall : Bool) (eff : State → State) (s : State) (h0 : Coherent s) (heff : ∀ s, Coherent s → Coherent (eff s)) : CohOut (runWith i extra fault stall eff s) := by
  unfold runWith
  try dsimp only
  repeat' first
    | with_reducible assumption
    | with_reducible apply takeTrap_coh
    | with_reducible apply nextSlot_coh
    | with_reducible apply heff
    | with_reducible exact lit_coh (by with_reducible assumption) (by with_reducible rfl) (by with_reducible rfl)
    | with_reducible refine pair_coh ?_ (by with_reducible assumption)
    | with_reducible refine next_coh ?_
    | with_reducible refine foldl_coh ?_ ?_
    | intro _ _ _
    | intro _ _
    | split
    | (show Coherent (id _) ; with_reducible exact id_coh ‹_›)
    | (unfold Coherent; dsimp only; show Coherent _; first | with_reducible assumption | with_reducible apply takeTrap_coh | with_reducible apply nextSlot_coh | with_reducible apply heff | split | with_reducible refine foldl_coh ?_ ?_)
theorem runSlot_coh (i : Instr) (fault : Option TrapInfo) (stall : Bool) (eff : State → State) (s : State) (h0 : Coherent s) (heff : ∀ s, Coherent s → Coherent (eff s)) : CohOut (runSlot i fault stall eff s) := by
  unfold runSlot
  try dsimp only
  repeat' first
      | with_reducible assumption
      | with_reducible apply runWith_coh
      | with_reducible apply heff
      | split
theorem redirect_coh (a : CAddr) (s : State) (h0 : Coherent s) : Coherent (redirect a s) := by
  unfold redirect
  try dsimp only
  repeat' first
      | with_reducible assumption
      | with_reducible apply modIss_coh
      | split
theorem errLog_coh (v : VfId) (src rank addr : Nat) (s : State) (h0 : Coherent s) : Coherent (errLog v src rank addr s) := by
  unfold errLog
  try dsimp only
  repeat' first
      | with_reducible assumption
      | with_reducible apply modVf_coh
      | split
theorem coreUncorrectable_coh (c : CoreId) (src addr : Nat) (s : State) (h0 : Coherent s) : Coherent (coreUncorrectable c src addr s) := by
  unfold coreUncorrectable
  try dsimp only
  repeat' first
      | with_reducible assumption
      | with_reducible apply stopTask_coh
      | with_reducible apply errLog_coh
      | with_reducible apply foundL_coh
      | with_reducible apply foundW_coh
      | split
theorem launchPend_coh (kind : PKind) (dst : List RegId) (due : Nat) (val : BitVec 4096) (val2 : W64) (lanes : List Lane) (s : State) (h0 : Coherent s) : Coherent (launchPend kind dst due val val2 lanes s) := by
  unfold launchPend
  try dsimp only
  repeat' first
      | with_reducible assumption
      | with_reducible apply modMe_coh
      | split
theorem launchS_coh (d : BitVec 6) (cycles : Nat) (x : W64) (s : State) (h0 : Coherent s) : Coherent (launchS d cycles x s) := by
  unfold launchS
  try dsimp only
  repeat' first
      | with_reducible assumption
      | with_reducible apply launchPend_coh
      | with_reducible apply emptyS_coh
      | with_reducible apply note_coh
      | split
theorem launchV_coh (d : BitVec 6) (t : Tag) (cycles : Nat) (x : VBits) (s : State) (h0 : Coherent s) : Coherent (launchV d t cycles x s) := by
  unfold launchV
  try dsimp only
  repeat' first
      | with_reducible assumption
      | with_reducible apply launchPend_coh
      | with_reducible apply emptyV_coh
      | split
theorem landPend_coh (c : CoreId) (n : Nat) (p : Pend) (s : State) (h0 : Coherent s) : Coherent (landPend c n p s) := by
  unfold landPend
  try dsimp only
  repeat' first
      | with_reducible assumption
      | with_reducible apply modCr_coh
      | split
theorem failLane_coh (c : CoreId) (t : TrapInfo) (s : State) (h0 : Coherent s) : Coherent (failLane c t s) := by
  unfold failLane
  try dsimp only
  repeat' first
      | with_reducible assumption
      | with_reducible apply modCr_coh
      | split
theorem eccLane_coh (c : CoreId) (l : Lane) (loc g : Nat) (s : State) (h0 : Coherent s) : Coherent (eccLane c l loc g s) := by
  unfold eccLane
  try dsimp only
  repeat' first
      | with_reducible assumption
      | with_reducible apply failLane_coh
      | with_reducible apply foundG_coh
      | split
theorem captureLane_coh (c : CoreId) (seq : Nat) (l : Lane) (s : State) (h0 : Coherent s) : Coherent (captureLane c seq l s).1 := by
  unfold captureLane
  try dsimp only
  repeat' first
      | with_reducible assumption
      | with_reducible apply eccLane_coh
      | split
theorem captureLanes_coh (c : CoreId) (seq : Nat) : ∀ (a0 : List Lane) (s : State), Coherent s → Coherent (captureLanes c seq a0 s).1 := by
  intro a0
  induction a0 with
  | nil =>
    intro s h0
    unfold captureLanes
    try dsimp only
    repeat' first
      | with_reducible assumption
      | with_reducible apply captureLane_coh
      | with_reducible apply ih
      | with_reducible exact lit_coh (by with_reducible assumption) (by with_reducible rfl) (by with_reducible rfl)
      | with_reducible refine pair_coh ?_ (by with_reducible assumption)
      | with_reducible refine next_coh ?_
      | with_reducible refine foldl_coh ?_ ?_
      | intro _ _ _
      | intro _ _
      | split
      | (show Coherent (id _) ; with_reducible exact id_coh ‹_›)
      | (unfold Coherent; dsimp only; show Coherent _; first | with_reducible assumption | with_reducible apply captureLane_coh | with_reducible apply ih | split | with_reducible refine foldl_coh ?_ ?_)
  | cons x l ih =>
    intro s h0
    unfold captureLanes
    try dsimp only
    repeat' first
      | with_reducible assumption
      | with_reducible apply captureLane_coh
      | with_reducible apply ih
      | with_reducible exact lit_coh (by with_reducible assumption) (by with_reducible rfl) (by with_reducible rfl)
      | with_reducible refine pair_coh ?_ (by with_reducible assumption)
      | with_reducible refine next_coh ?_
      | with_reducible refine foldl_coh ?_ ?_
      | intro _ _ _
      | intro _ _
      | split
      | (show Coherent (id _) ; with_reducible exact id_coh ‹_›)
      | (unfold Coherent; dsimp only; show Coherent _; first | with_reducible assumption | with_reducible apply captureLane_coh | with_reducible apply ih | split | with_reducible refine foldl_coh ?_ ?_)
theorem performStore_coh (c : CoreId) (seq : Nat) (ls : List Lane) (l : Lane) (s : State) (h0 : Coherent s) : Coherent (performStore c seq ls l s).1 := by
  unfold performStore
  try dsimp only
  repeat' first
      | with_reducible assumption
      | with_reducible apply eccLane_coh
      | with_reducible apply storeOwn_coh
      | split
theorem performGo_coh (c : CoreId) (seq : Nat) (ls : List Lane) : ∀ (a0 : List Lane) (s : State), Coherent s → Coherent (performGo c seq ls a0 s).1 := by
  intro a0
  induction a0 with
  | nil =>
    intro s h0
    unfold performGo
    try dsimp only
    repeat' first
      | with_reducible assumption
      | with_reducible apply performStore_coh
      | with_reducible apply ih
      | with_reducible exact lit_coh (by with_reducible assumption) (by with_reducible rfl) (by with_reducible rfl)
      | with_reducible refine pair_coh ?_ (by with_reducible assumption)
      | with_reducible refine next_coh ?_
      | with_reducible refine foldl_coh ?_ ?_
      | intro _ _ _
      | intro _ _
      | split
      | (show Coherent (id _) ; with_reducible exact id_coh ‹_›)
      | (unfold Coherent; dsimp only; show Coherent _; first | with_reducible assumption | with_reducible apply performStore_coh | with_reducible apply ih | split | with_reducible refine foldl_coh ?_ ?_)
  | cons x l ih =>
    intro s h0
    unfold performGo
    try dsimp only
    repeat' first
      | with_reducible assumption
      | with_reducible apply performStore_coh
      | with_reducible apply ih
      | with_reducible exact lit_coh (by with_reducible assumption) (by with_reducible rfl) (by with_reducible rfl)
      | with_reducible refine pair_coh ?_ (by with_reducible assumption)
      | with_reducible refine next_coh ?_
      | with_reducible refine foldl_coh ?_ ?_
      | intro _ _ _
      | intro _ _
      | split
      | (show Coherent (id _) ; with_reducible exact id_coh ‹_›)
      | (unfold Coherent; dsimp only; show Coherent _; first | with_reducible assumption | with_reducible apply performStore_coh | with_reducible apply ih | split | with_reducible refine foldl_coh ?_ ?_)
theorem performStores_coh (c : CoreId) (seq : Nat) (ls : List Lane) (s : State) (h0 : Coherent s) : Coherent (performStores c seq ls s).1 := by
  unfold performStores
  try dsimp only
  repeat' first
      | with_reducible assumption
      | with_reducible apply performGo_coh
      | split
theorem rewalkLane_coh (c : CoreId) (p : PartId) (wr : Bool) (w : Option Want) (l : Lane) (s : State) (h0 : Coherent s) : Coherent (rewalkLane c p wr w l s).1 := by
  unfold rewalkLane
  try dsimp only
  repeat' first
      | with_reducible assumption
      | with_reducible apply failLane_coh
      | with_reducible apply pageMiss_coh
      | split
theorem rewalkLanes_coh (c : CoreId) (p : PartId) (wr : Bool) (w : Option Want) (pick : LaneSt → Bool) : ∀ (a0 : List Lane) (s : State), Coherent s → Coherent (rewalkLanes c p wr w pick a0 s).1 := by
  intro a0
  induction a0 with
  | nil =>
    intro s h0
    unfold rewalkLanes
    try dsimp only
    repeat' first
      | with_reducible assumption
      | with_reducible apply rewalkLane_coh
      | with_reducible apply ih
      | with_reducible exact lit_coh (by with_reducible assumption) (by with_reducible rfl) (by with_reducible rfl)
      | with_reducible refine pair_coh ?_ (by with_reducible assumption)
      | with_reducible refine next_coh ?_
      | with_reducible refine foldl_coh ?_ ?_
      | intro _ _ _
      | intro _ _
      | split
      | (show Coherent (id _) ; with_reducible exact id_coh ‹_›)
      | (unfold Coherent; dsimp only; show Coherent _; first | with_reducible assumption | with_reducible apply rewalkLane_coh | with_reducible apply ih | split | with_reducible refine foldl_coh ?_ ?_)
  | cons x l ih =>
    intro s h0
    unfold rewalkLanes
    try dsimp only
    repeat' first
      | with_reducible assumption
      | with_reducible apply rewalkLane_coh
      | with_reducible apply ih
      | with_reducible exact lit_coh (by with_reducible assumption) (by with_reducible rfl) (by with_reducible rfl)
      | with_reducible refine pair_coh ?_ (by with_reducible assumption)
      | with_reducible refine next_coh ?_
      | with_reducible refine foldl_coh ?_ ?_
      | intro _ _ _
      | intro _ _
      | split
      | (show Coherent (id _) ; with_reducible exact id_coh ‹_›)
      | (unfold Coherent; dsimp only; show Coherent _; first | with_reducible assumption | with_reducible apply rewalkLane_coh | with_reducible apply ih | split | with_reducible refine foldl_coh ?_ ?_)
theorem rewalkPends_coh (c : CoreId) (p : PartId) (n : Nat) (pick : LaneSt → Bool) : ∀ (a0 : List Pend) (s : State), Coherent s → Coherent (rewalkPends c p n pick a0 s).1 := by
  intro a0
  induction a0 with
  | nil =>
    intro s h0
    unfold rewalkPends
    try dsimp only
    repeat' first
      | with_reducible assumption
      | with_reducible apply captureLanes_coh
      | with_reducible apply rewalkLanes_coh
      | with_reducible apply ih
      | with_reducible exact lit_coh (by with_reducible assumption) (by with_reducible rfl) (by with_reducible rfl)
      | with_reducible refine pair_coh ?_ (by with_reducible assumption)
      | with_reducible refine next_coh ?_
      | with_reducible refine foldl_coh ?_ ?_
      | intro _ _ _
      | intro _ _
      | split
      | (show Coherent (id _) ; with_reducible exact id_coh ‹_›)
      | (unfold Coherent; dsimp only; show Coherent _; first | with_reducible assumption | with_reducible apply captureLanes_coh | with_reducible apply rewalkLanes_coh | with_reducible apply ih | split | with_reducible refine foldl_coh ?_ ?_)
  | cons x l ih =>
    intro s h0
    unfold rewalkPends
    try dsimp only
    repeat' first
      | with_reducible assumption
      | with_reducible apply captureLanes_coh
      | with_reducible apply rewalkLanes_coh
      | with_reducible apply ih
      | with_reducible exact lit_coh (by with_reducible assumption) (by with_reducible rfl) (by with_reducible rfl)
      | with_reducible refine pair_coh ?_ (by with_reducible assumption)
      | with_reducible refine next_coh ?_
      | with_reducible refine foldl_coh ?_ ?_
      | intro _ _ _
      | intro _ _
      | split
      | (show Coherent (id _) ; with_reducible exact id_coh ‹_›)
      | (unfold Coherent; dsimp only; show Coherent _; first | with_reducible assumption | with_reducible apply captureLanes_coh | with_reducible apply rewalkLanes_coh | with_reducible apply ih | split | with_reducible refine foldl_coh ?_ ?_)
theorem rewalkPosts_coh (c : CoreId) (p : PartId) (n : Nat) (pick : LaneSt → Bool) : ∀ (a0 : List Post) (s : State), Coherent s → Coherent (rewalkPosts c p n pick a0 s).1 := by
  intro a0
  induction a0 with
  | nil =>
    intro s h0
    unfold rewalkPosts
    try dsimp only
    repeat' first
      | with_reducible assumption
      | with_reducible apply performStores_coh
      | with_reducible apply rewalkLanes_coh
      | with_reducible apply ih
      | with_reducible exact lit_coh (by with_reducible assumption) (by with_reducible rfl) (by with_reducible rfl)
      | with_reducible refine pair_coh ?_ (by with_reducible assumption)
      | with_reducible refine next_coh ?_
      | with_reducible refine foldl_coh ?_ ?_
      | intro _ _ _
      | intro _ _
      | split
      | (show Coherent (id _) ; with_reducible exact id_coh ‹_›)
      | (unfold Coherent; dsimp only; show Coherent _; first | with_reducible assumption | with_reducible apply performStores_coh | with_reducible apply rewalkLanes_coh | with_reducible apply ih | split | with_reducible refine foldl_coh ?_ ?_)
  | cons x l ih =>
    intro s h0
    unfold rewalkPosts
    try dsimp only
    repeat' first
      | with_reducible assumption
      | with_reducible apply performStores_coh
      | with_reducible apply rewalkLanes_coh
      | with_reducible apply ih
      | with_reducible exact lit_coh (by with_reducible assumption) (by with_reducible rfl) (by with_reducible rfl)
      | with_reducible refine pair_coh ?_ (by with_reducible assumption)
      | with_reducible refine next_coh ?_
      | with_reducible refine foldl_coh ?_ ?_
      | intro _ _ _
      | intro _ _
      | split
      | (show Coherent (id _) ; with_reducible exact id_coh ‹_›)
      | (unfold Coherent; dsimp only; show Coherent _; first | with_reducible assumption | with_reducible apply performStores_coh | with_reducible apply rewalkLanes_coh | with_reducible apply ih | split | with_reducible refine foldl_coh ?_ ?_)
theorem rewalkSeq_coh (c : CoreId) (p : PartId) (pick : LaneSt → Bool) (s : State) (n : Nat) (h0 : Coherent s) : Coherent (rewalkSeq c p pick s n) := by
  unfold rewalkSeq
  try dsimp only
  repeat' first
      | with_reducible assumption
      | with_reducible apply modCr_coh
      | with_reducible apply rewalkPosts_coh
      | with_reducible apply rewalkPends_coh
      | split
theorem rewalkCore_coh (c : CoreId) (p : PartId) (pick : LaneSt → Bool) (s : State) (h0 : Coherent s) : Coherent (rewalkCore c p pick s) := by
  unfold rewalkCore
  try dsimp only
  repeat' first
      | with_reducible assumption
      | with_reducible apply rewalkSeq_coh
      | with_reducible refine foldl_coh ?_ ?_
      | intro _ _ _
      | split
theorem rewalkFailed_coh (c : CoreId) (s : State) (h0 : Coherent s) : Coherent (rewalkFailed c s) := by
  unfold rewalkFailed
  try dsimp only
  repeat' first
      | with_reducible assumption
      | with_reducible apply rewalkCore_coh
      | split
theorem scalarOut_coh (i : Instr) (d : BitVec 6) (x : State → W64) (s : State) (h0 : Coherent s) : CohOut (scalarOut i d x s) := by
  unfold scalarOut
  try dsimp only
  repeat' first
      | with_reducible assumption
      | with_reducible apply runSlot_coh
      | with_reducible apply wrS_coh
      | intro _ _
      | split
theorem divOut_coh (i : Instr) (d : BitVec 6) (x : State → W64) (s : State) (h0 : Coherent s) : CohOut (divOut i d x s) := by
  unfold divOut
  try dsimp only
  repeat' first
      | with_reducible assumption
      | with_reducible apply runSlot_coh
      | with_reducible apply launchS_coh
      | intro _ _
      | split
theorem predOut_coh (i : Instr) (d : BitVec 5) (x : State → Bool) (s : State) (h0 : Coherent s) : CohOut (predOut i d x s) := by
  unfold predOut
  try dsimp only
  repeat' first
      | with_reducible assumption
      | with_reducible apply runSlot_coh
      | with_reducible apply wrP_coh
      | intro _ _
      | split
theorem branchTo_coh (b : BitVec 3) (s : State) (h0 : Coherent s) : Coherent (branchTo b s) := by
  unfold branchTo
  try dsimp only
  repeat' first
      | with_reducible assumption
      | with_reducible apply redirect_coh
      | with_reducible apply modIss_coh
      | split
theorem loopOpen_coh (n : BitVec 12) (c : BitVec 32) (s : State) (h0 : Coherent s) : Coherent (loopOpen n c s) := by
  unfold loopOpen
  try dsimp only
  repeat' first
      | with_reducible assumption
      | with_reducible apply redirect_coh
      | with_reducible apply modMe_coh
      | split
theorem rteReturn_coh (s : State) (h0 : Coherent s) : Coherent (rteReturn s) := by
  unfold rteReturn
  try dsimp only
  repeat' first
      | with_reducible assumption
      | with_reducible apply modCr_coh
      | with_reducible apply trapCore_coh
      | with_reducible apply modMe_coh
      | with_reducible apply redirect_coh
      | with_reducible apply modIss_coh
      | with_reducible apply rewalkFailed_coh
      | split
theorem advQ_coh (q : BitVec 4) (n : Nat) (s : State) (h0 : Coherent s) : Coherent (advQ q n s) := by
  unfold advQ
  try dsimp only
  repeat' first
      | with_reducible assumption
      | with_reducible apply modMe_coh
      | split
theorem healPairs_coh (a : Nat) (on : List Nat) (s : State) (h0 : Coherent s) : Coherent (healPairs a on s) := by
  unfold healPairs
  try dsimp only
  repeat' first
      | with_reducible assumption
      | with_reducible apply modMe_coh
      | split
theorem storeLanes_coh (a : Nat) (v : VBits) : ∀ (a0 : List Nat) (s : State), Coherent s → Coherent (storeLanes a v a0 s) := by
  intro a0
  induction a0 with
  | nil =>
    intro s h0
    unfold storeLanes
    try dsimp only
    repeat' first
      | with_reducible assumption
      | with_reducible apply wrL_coh
      | with_reducible apply ih
      | with_reducible exact lit_coh (by with_reducible assumption) (by with_reducible rfl) (by with_reducible rfl)
      | with_reducible refine pair_coh ?_ (by with_reducible assumption)
      | with_reducible refine next_coh ?_
      | with_reducible refine foldl_coh ?_ ?_
      | intro _ _ _
      | intro _ _
      | split
      | (show Coherent (id _) ; with_reducible exact id_coh ‹_›)
      | (unfold Coherent; dsimp only; show Coherent _; first | with_reducible assumption | with_reducible apply wrL_coh | with_reducible apply ih | split | with_reducible refine foldl_coh ?_ ?_)
  | cons x l ih =>
    intro s h0
    unfold storeLanes
    try dsimp only
    repeat' first
      | with_reducible assumption
      | with_reducible apply wrL_coh
      | with_reducible apply ih
      | with_reducible exact lit_coh (by with_reducible assumption) (by with_reducible rfl) (by with_reducible rfl)
      | with_reducible refine pair_coh ?_ (by with_reducible assumption)
      | with_reducible refine next_coh ?_
      | with_reducible refine foldl_coh ?_ ?_
      | intro _ _ _
      | intro _ _
      | split
      | (show Coherent (id _) ; with_reducible exact id_coh ‹_›)
      | (unfold Coherent; dsimp only; show Coherent _; first | with_reducible assumption | with_reducible apply wrL_coh | with_reducible apply ih | split | with_reducible refine foldl_coh ?_ ?_)
theorem openLane_coh (lv wr : Bool) (i n : Nat) (a : Int) (data : Option (List Byte)) (s : State) (h0 : Coherent s) : Coherent (openLane lv wr i n a data s).1 := by
  unfold openLane
  try dsimp only
  repeat' first
      | with_reducible assumption
      | with_reducible apply tlbAdd_coh
      | with_reducible apply pageMiss_coh
      | split
theorem openLanes_coh (lv wr : Bool) (n : Nat) : ∀ (a0 : List (Nat × Int × Option (List Byte))) (s : State), Coherent s → Coherent (openLanes lv wr n a0 s).1 := by
  intro a0
  induction a0 with
  | nil =>
    intro s h0
    unfold openLanes
    try dsimp only
    repeat' first
      | with_reducible assumption
      | with_reducible apply openLane_coh
      | with_reducible apply ih
      | with_reducible exact lit_coh (by with_reducible assumption) (by with_reducible rfl) (by with_reducible rfl)
      | with_reducible refine pair_coh ?_ (by with_reducible assumption)
      | with_reducible refine next_coh ?_
      | with_reducible refine foldl_coh ?_ ?_
      | intro _ _ _
      | intro _ _
      | split
      | (show Coherent (id _) ; with_reducible exact id_coh ‹_›)
      | (unfold Coherent; dsimp only; show Coherent _; first | with_reducible assumption | with_reducible apply openLane_coh | with_reducible apply ih | split | with_reducible refine foldl_coh ?_ ?_)
  | cons x l ih =>
    intro s h0
    unfold openLanes
    try dsimp only
    repeat' first
      | with_reducible assumption
      | with_reducible apply openLane_coh
      | with_reducible apply ih
      | with_reducible exact lit_coh (by with_reducible assumption) (by with_reducible rfl) (by with_reducible rfl)
      | with_reducible refine pair_coh ?_ (by with_reducible assumption)
      | with_reducible refine next_coh ?_
      | with_reducible refine foldl_coh ?_ ?_
      | intro _ _ _
      | intro _ _
      | split
      | (show Coherent (id _) ; with_reducible exact id_coh ‹_›)
      | (unfold Coherent; dsimp only; show Coherent _; first | with_reducible assumption | with_reducible apply openLane_coh | with_reducible apply ih | split | with_reducible refine foldl_coh ?_ ?_)
theorem bumpSeq_coh (s : State) (h0 : Coherent s) : Coherent (bumpSeq s) := by
  unfold bumpSeq
  try dsimp only
  repeat' first
      | with_reducible assumption
      | with_reducible apply modMe_coh
      | split
theorem issueLoad_coh (lv : Bool) (kind : PKind) (dst : List RegId) (val : BitVec 4096) (n : Nat) (lanes : List (Nat × Int)) (s : State) (h0 : Coherent s) : Coherent (issueLoad lv kind dst val n lanes s) := by
  unfold issueLoad
  try dsimp only
  repeat' first
      | with_reducible assumption
      | with_reducible apply launchPend_coh
      | with_reducible apply captureLanes_coh
      | with_reducible apply openLanes_coh
      | split
theorem issueStore_coh (lv : Bool) (n : Nat) (lanes : List (Nat × Int × List Byte)) (s : State) (h0 : Coherent s) : Coherent (issueStore lv n lanes s) := by
  unfold issueStore
  try dsimp only
  repeat' first
      | with_reducible assumption
      | with_reducible apply bumpSeq_coh
      | with_reducible apply modMe_coh
      | with_reducible apply performStores_coh
      | with_reducible apply openLanes_coh
      | split
theorem loadV_coh (lv : Bool) (d : BitVec 6) (t : Tag) (lanes : List (Nat × Int)) (s : State) (h0 : Coherent s) : Coherent (loadV lv d t lanes s) := by
  unfold loadV
  try dsimp only
  repeat' first
      | with_reducible assumption
      | with_reducible apply issueLoad_coh
      | with_reducible apply emptyV_coh
      | with_reducible apply wrV_coh
      | split
theorem issueAmo_coh (fn : BitVec 4) (wide : Bool) (d base op : BitVec 6) (expect : W64) (s : State) (h0 : Coherent s) : Coherent (issueAmo fn wide d base op expect s) := by
  unfold issueAmo
  try dsimp only
  repeat' first
      | with_reducible assumption
      | with_reducible apply launchPend_coh
      | with_reducible apply openLanes_coh
      | with_reducible apply emptyS_coh
      | split
theorem issuePost_coh (kind : OKind) (n : Nat) (a : Int) (s : State) (h0 : Coherent s) : Coherent (issuePost kind n a s) := by
  unfold issuePost
  try dsimp only
  repeat' first
      | with_reducible assumption
      | with_reducible apply bumpSeq_coh
      | with_reducible apply modMe_coh
      | with_reducible apply openLanes_coh
      | split
theorem emptyAll_coh (t : Tag) : ∀ (l : List RegId) (s : State), Coherent s → Coherent (emptyAll t l s)
  | [], _, h => by unfold emptyAll; exact h
  | .v n :: r, s, h => by unfold emptyAll; exact emptyAll_coh t r _ (emptyV_coh n t s h)
  | .s n :: r, s, h => by unfold emptyAll; exact emptyAll_coh t r _ (emptyS_coh n s h)
  | .p _ :: r, s, h => by unfold emptyAll; exact emptyAll_coh t r s h
  | .b _ :: r, s, h => by unfold emptyAll; exact emptyAll_coh t r s h
  | .m _ :: r, s, h => by unfold emptyAll; exact emptyAll_coh t r s h
  | .z _ :: r, s, h => by unfold emptyAll; exact emptyAll_coh t r s h
  | .c _ :: r, s, h => by unfold emptyAll; exact emptyAll_coh t r s h
theorem vOut_coh (d : BitVec 6) (t : Tag) (m : BitVec 3) (f : Nat → Rounded) (s : State) (h0 : Coherent s) : Coherent (vOut d t m f s) := by
  unfold vOut
  try dsimp only
  repeat' first
      | with_reducible assumption
      | with_reducible apply setFlags_coh
      | with_reducible apply wrV_coh
      | split
theorem vInt_coh (i : Instr) (o : VaF) (f : Nat → Nat → Nat → Nat) (s : State) (h0 : Coherent s) : CohOut (vInt i o f s) := by
  unfold vInt
  try dsimp only
  repeat' first
      | with_reducible assumption
      | with_reducible apply runSlot_coh
      | with_reducible apply vOut_coh
      | intro _ _
      | split
theorem vBit_coh (i : Instr) (o : VaF) (f : Nat → Nat → Nat) (s : State) (h0 : Coherent s) : CohOut (vBit i o f s) := by
  unfold vBit
  try dsimp only
  repeat' first
      | with_reducible assumption
      | with_reducible apply runSlot_coh
      | with_reducible apply vOut_coh
      | intro _ _
      | split
theorem vFp_coh (i : Instr) (o : VaF) (f : FV → FV → FV × Bool) (s : State) (h0 : Coherent s) : CohOut (vFp i o f s) := by
  unfold vFp
  try dsimp only
  repeat' first
      | with_reducible assumption
      | with_reducible apply runSlot_coh
      | with_reducible apply vOut_coh
      | intro _ _
      | split
theorem vPick_coh (i : Instr) (o : VaF) (f : FV → FV → FV) (s : State) (h0 : Coherent s) : CohOut (vPick i o f s) := by
  unfold vPick
  try dsimp only
  repeat' first
      | with_reducible assumption
      | with_reducible apply runSlot_coh
      | with_reducible apply vOut_coh
      | intro _ _
      | split
theorem vSign_coh (i : Instr) (o : VaOneF) (f : FV → FV) (s : State) (h0 : Coherent s) : CohOut (vSign i o f s) := by
  unfold vSign
  try dsimp only
  repeat' first
      | with_reducible assumption
      | with_reducible apply runSlot_coh
      | with_reducible apply vOut_coh
      | intro _ _
      | split
theorem vSpecial_coh (i : Instr) (o : VaOneF) (f : FV → FV × Bool) (s : State) (h0 : Coherent s) : CohOut (vSpecial i o f s) := by
  unfold vSpecial
  try dsimp only
  repeat' first
      | with_reducible assumption
      | with_reducible apply runSlot_coh
      | with_reducible apply setFlags_coh
      | with_reducible apply launchV_coh
      | intro _ _
      | split
theorem moveLanes_coh (d a : BitVec 6) (f : Nat → Nat) (s : State) (h0 : Coherent s) : Coherent (moveLanes d a f s) := by
  unfold moveLanes
  try dsimp only
  repeat' first
      | with_reducible assumption
      | with_reducible apply wrV_coh
      | split
theorem markQ_coh (q : BitVec 4) (s : State) (h0 : Coherent s) : Coherent (markQ q s) := by
  unfold markQ
  try dsimp only
  repeat' first
      | with_reducible assumption
      | with_reducible apply modMe_coh
      | split
theorem spillGo_coh (z : Tile) (q : BitVec 4) : ∀ (a0 : Nat) (a1 : Nat) (s : State), Coherent s → Coherent (spillGo z q a0 a1 s) := by
  intro a0
  induction a0 with
  | zero =>
    intro a1 s h0
    unfold spillGo
    try dsimp only
    repeat' first
      | with_reducible assumption
      | with_reducible apply wrL_coh
      | with_reducible apply ih
      | with_reducible exact lit_coh (by with_reducible assumption) (by with_reducible rfl) (by with_reducible rfl)
      | with_reducible refine pair_coh ?_ (by with_reducible assumption)
      | with_reducible refine next_coh ?_
      | with_reducible refine foldl_coh ?_ ?_
      | intro _ _ _
      | intro _ _
      | split
      | (show Coherent (id _) ; with_reducible exact id_coh ‹_›)
      | (unfold Coherent; dsimp only; show Coherent _; first | with_reducible assumption | with_reducible apply wrL_coh | with_reducible apply ih | split | with_reducible refine foldl_coh ?_ ?_)
  | succ n ih =>
    intro a1 s h0
    unfold spillGo
    try dsimp only
    repeat' first
      | with_reducible assumption
      | with_reducible apply wrL_coh
      | with_reducible apply ih
      | with_reducible exact lit_coh (by with_reducible assumption) (by with_reducible rfl) (by with_reducible rfl)
      | with_reducible refine pair_coh ?_ (by with_reducible assumption)
      | with_reducible refine next_coh ?_
      | with_reducible refine foldl_coh ?_ ?_
      | intro _ _ _
      | intro _ _
      | split
      | (show Coherent (id _) ; with_reducible exact id_coh ‹_›)
      | (unfold Coherent; dsimp only; show Coherent _; first | with_reducible assumption | with_reducible apply wrL_coh | with_reducible apply ih | split | with_reducible refine foldl_coh ?_ ?_)
theorem modRegion_coh (id : Nat) (f : Region → Region) (s : State) (h0 : Coherent s) : Coherent (modRegion id f s) := by
  unfold modRegion
  try dsimp only
  repeat' first
      | with_reducible assumption
      | with_reducible exact lit_coh (by with_reducible assumption) (by with_reducible rfl) (by with_reducible rfl)
      | split
theorem openPan_coh (lv wr : Bool) : ∀ (a0 : List (Nat × Nat × Nat)) (s : State), Coherent s → Coherent (openPan lv wr a0 s).1 := by
  intro a0
  induction a0 with
  | nil =>
    intro s h0
    unfold openPan
    try dsimp only
    repeat' first
      | with_reducible assumption
      | with_reducible apply openLane_coh
      | with_reducible apply ih
      | with_reducible exact lit_coh (by with_reducible assumption) (by with_reducible rfl) (by with_reducible rfl)
      | with_reducible refine pair_coh ?_ (by with_reducible assumption)
      | with_reducible refine next_coh ?_
      | with_reducible refine foldl_coh ?_ ?_
      | intro _ _ _
      | intro _ _
      | split
      | (show Coherent (id _) ; with_reducible exact id_coh ‹_›)
      | (unfold Coherent; dsimp only; show Coherent _; first | with_reducible assumption | with_reducible apply openLane_coh | with_reducible apply ih | split | with_reducible refine foldl_coh ?_ ?_)
  | cons x l ih =>
    intro s h0
    unfold openPan
    try dsimp only
    repeat' first
      | with_reducible assumption
      | with_reducible apply openLane_coh
      | with_reducible apply ih
      | with_reducible exact lit_coh (by with_reducible assumption) (by with_reducible rfl) (by with_reducible rfl)
      | with_reducible refine pair_coh ?_ (by with_reducible assumption)
      | with_reducible refine next_coh ?_
      | with_reducible refine foldl_coh ?_ ?_
      | intro _ _ _
      | intro _ _
      | split
      | (show Coherent (id _) ; with_reducible exact id_coh ‹_›)
      | (unfold Coherent; dsimp only; show Coherent _; first | with_reducible assumption | with_reducible apply openLane_coh | with_reducible apply ih | split | with_reducible refine foldl_coh ?_ ?_)
theorem panPost_coh {n : Nat} (k : PanOp) (base : BitVec 6) (o : BitVec n) (x : PanD → BitVec 4096) (s : State) (h0 : Coherent s) : Coherent (panPost k base o x s) := by
  unfold panPost
  try dsimp only
  repeat' first
      | with_reducible assumption
      | with_reducible apply bumpSeq_coh
      | with_reducible apply modMe_coh
      | with_reducible apply openPan_coh
      | split
theorem panTap_coh {n : Nat} (k : PanOp) (base : BitVec 6) (o : BitVec n) (kind : Nat) (tap : BitVec 2) (dst : PanD → List RegId)
    (tag : PanD → Tag) (s : State) (h0 : Coherent s) : Coherent (panTap k base o kind tap dst tag s) := by
  unfold panTap
  try dsimp only
  repeat' first
      | with_reducible assumption
      | with_reducible apply launchPend_coh
      | with_reducible apply openPan_coh
      | with_reducible apply emptyAll_coh
      | split
theorem countStale_coh (c : CoreId) (r : Region) (ms : List Nat) (s : State) (h0 : Coherent s) : Coherent (countStale c r ms s) := by
  unfold countStale
  try dsimp only
  repeat' first
      | with_reducible assumption
      | with_reducible apply modVf_coh
      | split

end Sys2Proof.Machine
end

