-- ==== Sys2Proof/Laws/CoherenceTasks.lean ====
section
/-! SUPPORT. Memory stays the one order of its publications (R218, R219) under engine commands, contexts, the issue of bundles and the events of the cores. -/
namespace Sys2Proof.Machine

theorem newCmd_coh (op : Nat) (j : BitVec 4) (b : BitVec 512) (cfl : Option CflSt) (s : State) (h0 : Coherent s) : Coherent (newCmd op j b cfl s) := by
  unfold newCmd
  try dsimp only
  repeat' first
      | with_reducible assumption
      | with_reducible apply modMe_coh
      | with_reducible exact lit_coh (by with_reducible assumption) (by with_reducible rfl) (by with_reducible rfl)
      | split
theorem cmdOut_coh (i : Instr) (op : Nat) (o : CmdF) (cfl : State → Option CflSt) (s : State) (h0 : Coherent s) : CohOut (cmdOut i op o cfl s) := by
  unfold cmdOut
  try dsimp only
  repeat' first
      | with_reducible assumption
      | with_reducible apply runSlot_coh
      | with_reducible apply newCmd_coh
      | intro _ _
      | split
theorem cflOut_coh (i : Instr) (op : Nat) (o : CmdF) (s : State) (h0 : Coherent s) : CohOut (cflOut i op o s) := by
  unfold cflOut
  try dsimp only
  repeat' first
      | with_reducible assumption
      | with_reducible apply cmdOut_coh
      | split
theorem dropFlag_coh (r : Region) (s : State) (h0 : Coherent s) : Coherent (dropFlag r s) := by
  unfold dropFlag
  try dsimp only
  repeat' first
      | with_reducible assumption
      | with_reducible apply modVf_coh
      | split
theorem endOld_coh (base : Nat) (s : State) (h0 : Coherent s) : Coherent (endOld base s) := by
  unfold endOld
  try dsimp only
  repeat' first
      | with_reducible assumption
      | with_reducible apply dropFlag_coh
      | split
theorem placeRegion_coh (r : Region) (s : State) (h0 : Coherent s) : Coherent (placeRegion r s) := by
  unfold placeRegion
  try dsimp only
  repeat' first
      | with_reducible assumption
      | with_reducible exact lit_coh (by with_reducible assumption) (by with_reducible rfl) (by with_reducible rfl)
      | split
theorem mirrorConfig_coh (r : Region) (s : State) (h0 : Coherent s) : Coherent (mirrorConfig r s) := by
  unfold mirrorConfig
  try dsimp only
  repeat' first
      | with_reducible assumption
      | with_reducible apply sendFlit_coh
      | split
theorem panConfig_coh (a : Nat) (s : State) (h0 : Coherent s) : Coherent (panConfig a s) := by
  unfold panConfig
  try dsimp only
  repeat' first
      | with_reducible assumption
      | with_reducible apply pubPan_coh
      | with_reducible apply mirrorConfig_coh
      | with_reducible apply placeRegion_coh
      | with_reducible apply endOld_coh
      | split
theorem panRelease_coh (a : Nat) (s : State) (h0 : Coherent s) : Coherent (panRelease a s) := by
  unfold panRelease
  try dsimp only
  repeat' first
      | with_reducible assumption
      | with_reducible apply dropFlag_coh
      | intro _ _
      | split
      | (unfold Coherent; dsimp only; show Coherent _; first | with_reducible assumption | with_reducible apply dropFlag_coh | split | with_reducible refine foldl_coh ?_ ?_)
theorem spanFound_coh (s : State) (p : PartId) (l : List (Nat × Nat)) (h0 : Coherent s) : Coherent (spanFound s p l) := by
  unfold spanFound
  try dsimp only
  repeat' first
      | with_reducible assumption
      | with_reducible apply foundG_coh
      | with_reducible refine foldl_coh ?_ ?_
      | intro _ _ _
      | split
theorem vaPut_coh (p : PartId) (va : Nat) (bs : List Byte) (s : State) (h0 : Coherent s) : Coherent (vaPut p va bs s) := by
  unfold vaPut
  try dsimp only
  repeat' first
      | with_reducible assumption
      | with_reducible apply pubOther_coh
      | split
theorem askPieces_coh (c : CoreId) (p : PartId) (l : List (Nat × Nat)) (s : State) (h0 : Coherent s) : Coherent (askPieces c p l s).1 := by
  unfold askPieces
  try dsimp only
  repeat' first
      | with_reducible assumption
      | with_reducible apply pageMiss_coh
      | split
theorem withdraw_coh (p : PartId) : ∀ (a0 : List Cmd) (s : State), Coherent s → Coherent (withdraw p a0 s).1 := by
  intro a0
  induction a0 with
  | nil =>
    intro s h0
    unfold withdraw
    try dsimp only
    repeat' first
      | with_reducible assumption
      | with_reducible apply modPt_coh
      | with_reducible apply vaPut_coh
      | with_reducible apply ih
      | with_reducible exact lit_coh (by with_reducible assumption) (by with_reducible rfl) (by with_reducible rfl)
      | with_reducible refine pair_coh ?_ (by with_reducible assumption)
      | with_reducible refine next_coh ?_
      | with_reducible refine foldl_coh ?_ ?_
      | intro _ _ _
      | intro _ _
      | split
      | (show Coherent (id _) ; with_reducible exact id_coh ‹_›)
      | (unfold Coherent; dsimp only; show Coherent _; first | with_reducible assumption | with_reducible apply modPt_coh | with_reducible apply vaPut_coh | with_reducible apply ih | split | with_reducible refine foldl_coh ?_ ?_)
  | cons x l ih =>
    intro s h0
    unfold withdraw
    try dsimp only
    repeat' first
      | with_reducible assumption
      | with_reducible apply modPt_coh
      | with_reducible apply vaPut_coh
      | with_reducible apply ih
      | with_reducible exact lit_coh (by with_reducible assumption) (by with_reducible rfl) (by with_reducible rfl)
      | with_reducible refine pair_coh ?_ (by with_reducible assumption)
      | with_reducible refine next_coh ?_
      | with_reducible refine foldl_coh ?_ ?_
      | intro _ _ _
      | intro _ _
      | split
      | (show Coherent (id _) ; with_reducible exact id_coh ‹_›)
      | (unfold Coherent; dsimp only; show Coherent _; first | with_reducible assumption | with_reducible apply modPt_coh | with_reducible apply vaPut_coh | with_reducible apply ih | split | with_reducible refine foldl_coh ?_ ?_)
theorem noteSaved_coh (p : PartId) (q : BitVec 6) (n : Nat) (s : State) (h0 : Coherent s) : Coherent (noteSaved p q n s) := by
  unfold noteSaved
  try dsimp only
  repeat' first
      | with_reducible assumption
      | with_reducible apply modPt_coh
      | split
theorem ckptOne_coh (p : PartId) (s : State) (t : Task) (h0 : Coherent s) : Coherent (ckptOne p s t) := by
  unfold ckptOne
  try dsimp only
  repeat' first
      | with_reducible assumption
      | with_reducible apply askPieces_coh
      | with_reducible apply endTask_coh
      | with_reducible apply noteSaved_coh
      | with_reducible apply recPut_coh
      | with_reducible apply vaPut_coh
      | with_reducible apply withdraw_coh
      | with_reducible refine pair_coh ?_ (by with_reducible assumption)
      | split
theorem ckptRest_coh (p : PartId) (q : BitVec 6) (s : State) (h0 : Coherent s) : Coherent (ckptRest p q s) := by
  unfold ckptRest
  try dsimp only
  repeat' first
      | with_reducible assumption
      | with_reducible apply ckptOne_coh
      | with_reducible refine foldl_coh ?_ ?_
      | intro _ _ _
      | split
theorem putRecord_coh (p : PartId) (rec_ : Nat) (resume : CAddr) (slot leaf repc : Nat) (flags exec : Nat) (s : State) (h0 : Coherent s) : Coherent (putRecord p rec_ resume slot leaf repc flags exec s) := by
  unfold putRecord
  try dsimp only
  repeat' first
      | with_reducible assumption
      | with_reducible apply recPut_coh
      | split
theorem saveWrite_coh (c : CoreId) (p : PartId) (h : LiveHead) (wd : List Cmd) (resume : CAddr) (trapres : Bool) (s : State) (h0 : Coherent s) : Coherent (saveWrite c p h wd resume trapres s) := by
  unfold saveWrite
  try dsimp only
  repeat' first
      | with_reducible assumption
      | with_reducible apply idleCore_coh
      | with_reducible apply modTask_coh
      | with_reducible apply putRecord_coh
      | with_reducible apply vaPut_coh
      | with_reducible apply withdraw_coh
      | split
theorem saveDone_coh (c : CoreId) (unit resume : CAddr) (trapres : Bool) (s : State) (h0 : Coherent s) : Coherent (saveDone c unit resume trapres s) := by
  unfold saveDone
  try dsimp only
  repeat' first
      | with_reducible assumption
      | with_reducible apply idleCore_coh
      | with_reducible apply askPieces_coh
      | with_reducible apply askYield_coh
      | with_reducible apply makeReady_coh
      | with_reducible apply saveWrite_coh
      | with_reducible apply ckptRest_coh
      | with_reducible apply endTask_coh
      | with_reducible apply noteSaved_coh
      | with_reducible refine pair_coh ?_ (by with_reducible assumption)
      | split
theorem saveStep_coh (c : CoreId) (unit resume : CAddr) (trapres yield : Bool) (s : State) (h0 : Coherent s) : Coherent (saveStep c unit resume trapres yield s) := by
  unfold saveStep
  try dsimp only
  repeat' first
      | with_reducible assumption
      | with_reducible apply idleCore_coh
      | with_reducible apply modCr_coh
      | with_reducible apply publishFwd_coh
      | with_reducible apply noteSaved_coh
      | split
theorem saveAckStep_coh (c : CoreId) (unit resume : CAddr) (trapres : Bool) (acks : List Nat) (s : State) (h0 : Coherent s) : Coherent (saveAckStep c unit resume trapres acks s) := by
  unfold saveAckStep
  try dsimp only
  repeat' first
      | with_reducible assumption
      | with_reducible apply saveDone_coh
      | split
theorem haltStep_coh (c : CoreId) (s : State) (h0 : Coherent s) : Coherent (haltStep c s) := by
  unfold haltStep
  try dsimp only
  repeat' first
      | with_reducible assumption
      | with_reducible apply idleCore_coh
      | with_reducible apply askPieces_coh
      | with_reducible apply modCr_coh
      | with_reducible apply publishFwd_coh
      | with_reducible apply leaveGroup_coh
      | with_reducible refine pair_coh ?_ (by with_reducible assumption)
      | split
theorem haltAckStep_coh (c : CoreId) (acks : List Nat) (s : State) (h0 : Coherent s) : Coherent (haltAckStep c acks s) := by
  unfold haltAckStep
  try dsimp only
  repeat' first
      | with_reducible assumption
      | with_reducible apply idleCore_coh
      | with_reducible apply ckptRest_coh
      | with_reducible apply endTask_coh
      | split
theorem asCore_coh (c : CoreId) (s : State) (h0 : Coherent s) : Coherent (asCore c s) := by
  unfold asCore
  try dsimp only
  repeat' first
      | with_reducible assumption
      | with_reducible exact lit_coh (by with_reducible assumption) (by with_reducible rfl) (by with_reducible rfl)
      | split
theorem reissueOne_coh (c : CoreId) (p : PartId) (s : State) (e : Nat × Nat × Nat) (h0 : Coherent s) : Coherent (reissueOne c p s e) := by
  unfold reissueOne
  try dsimp only
  repeat' first
      | with_reducible assumption
      | with_reducible apply modCr_coh
      | with_reducible apply spanFound_coh
      | with_reducible apply newCmd_coh
      | with_reducible apply asCore_coh
      | with_reducible apply modRegion_coh
      | intro _ _
      | split
      | (unfold Coherent; dsimp only; show Coherent _; first | with_reducible assumption | with_reducible apply modCr_coh | with_reducible apply spanFound_coh | with_reducible apply newCmd_coh | with_reducible apply asCore_coh | with_reducible apply modRegion_coh | split | with_reducible refine foldl_coh ?_ ?_)
theorem startTask_coh (c : CoreId) (p : PartId) (t : Task) (r : Restore) (s : State) (h0 : Coherent s) : Coherent (startTask c p t r s) := by
  unfold startTask
  try dsimp only
  repeat' first
      | with_reducible assumption
      | with_reducible apply reissueOne_coh
      | with_reducible apply recPut_coh
      | with_reducible apply setCr_coh
      | with_reducible apply modTask_coh
      | with_reducible apply modQueue_coh
      | with_reducible apply refresh_coh
      | with_reducible refine foldl_coh ?_ ?_
      | intro _ _ _
      | split
theorem startGang_coh (p : PartId) : ∀ (ts : List (Task × Restore)) (cs : List CoreId) (s : State), Coherent s → Coherent (startGang p ts cs s)
  | [], _, _, h => by unfold startGang; exact h
  | _ :: _, [], _, h => by unfold startGang; exact h
  | t :: ts, c :: cs, s, h => by unfold startGang; exact startGang_coh p ts cs _ (startTask_coh c p t.1 t.2 s h)
theorem deferTasks_coh (p : PartId) (tag : Nat) (ts : List Task) (s : State) (h0 : Coherent s) : Coherent (deferTasks p tag ts s) := by
  unfold deferTasks
  try dsimp only
  repeat' first
      | with_reducible assumption
      | with_reducible apply modTask_coh
      | with_reducible refine foldl_coh ?_ ?_
      | intro _ _ _
      | split
theorem takeUp_coh (p : PartId) (ts : List Task) (cs : List CoreId) (served : State → State) (s : State) (h0 : Coherent s) (hserved : ∀ s, Coherent s → Coherent (served s)) : Coherent (takeUp p ts cs served s) := by
  unfold takeUp
  try dsimp only
  repeat' first
      | with_reducible assumption
      | with_reducible apply deferTasks_coh
      | with_reducible apply pageMiss_coh
      | with_reducible apply startGang_coh
      | with_reducible apply endTask_coh
      | with_reducible apply spanFound_coh
      | with_reducible apply hserved
      | with_reducible refine foldl_coh ?_ ?_
      | intro _ _ _
      | split
theorem pickup_coh (c : CoreId) (p : PartId) (s : State) (h0 : Coherent s) : Coherent (pickup c p s) := by
  unfold pickup
  try dsimp only
  repeat' first
      | with_reducible assumption
      | with_reducible apply takeUp_coh
      | with_reducible apply modPt_coh
      | with_reducible apply askYield_coh
      | intro _ _
      | split
theorem trapBefore_coh (c : CoreId) (t : TrapInfo) (keepSlot : Bool) (s : State) (h0 : Coherent s) : Coherent (trapBefore c t keepSlot s) := by
  unfold trapBefore
  try dsimp only
  repeat' first
      | with_reducible assumption
      | with_reducible apply trapCore_coh
      | split
theorem stallAsk_coh (c : CoreId) (t : State) (i : Instr) (s : State) (h0 : Coherent s) : Coherent (stallAsk c t i s) := by
  unfold stallAsk
  try dsimp only
  repeat' first
      | with_reducible assumption
      | with_reducible apply modCr_coh
      | with_reducible apply pageMiss_coh
      | with_reducible apply trapBefore_coh
      | split
theorem openIssue_coh (c : CoreId) (u : CAddr) (b : Bundle) (len : Nat) (s : State) (h0 : Coherent s) : Coherent (openIssue c u b len s) := by
  unfold openIssue
  try dsimp only
  repeat' first
      | with_reducible assumption
      | with_reducible apply setCr_coh
      | intro _ _
      | split
      | (unfold Coherent; dsimp only; show Coherent _; first | with_reducible assumption | with_reducible apply setCr_coh | split | with_reducible refine foldl_coh ?_ ?_)
theorem enterIssue_coh (c : CoreId) (s : State) (h0 : Coherent s) : Coherent (enterIssue c s) := by
  unfold enterIssue
  try dsimp only
  repeat' first
      | with_reducible assumption
      | with_reducible apply modCr_coh
      | split
theorem landDue_coh (c : CoreId) (s : State) (h0 : Coherent s) : Coherent (landDue c s) := by
  unfold landDue
  try dsimp only
  repeat' first
      | with_reducible assumption
      | with_reducible apply modCr_coh
      | split
theorem shiftGangs_coh (s : State) (h0 : Coherent s) : Coherent (shiftGangs s) := by
  unfold shiftGangs
  try dsimp only
  repeat' first
      | with_reducible assumption
      | with_reducible apply modCr_coh
      | with_reducible refine foldl_coh ?_ ?_
      | intro _ _ _
      | split
theorem issueUnit_coh (c : CoreId) (s : State) (h0 : Coherent s) : Coherent (issueUnit c s) := by
  unfold issueUnit
  try dsimp only
  repeat' first
      | with_reducible assumption
      | with_reducible apply trapBefore_coh
      | with_reducible apply enterIssue_coh
      | with_reducible apply openIssue_coh
      | with_reducible apply stallAsk_coh
      | with_reducible apply foundL_coh
      | split
theorem countExec_coh (c : CoreId) (s : State) (h0 : Coherent s) : Coherent (countExec c s) := by
  unfold countExec
  try dsimp only
  repeat' first
      | with_reducible assumption
      | with_reducible apply modCr_coh
      | with_reducible exact lit_coh (by with_reducible assumption) (by with_reducible rfl) (by with_reducible rfl)
      | split
theorem endTurn_coh (c : CoreId) (s : State) (h0 : Coherent s) : Coherent (endTurn c s) := by
  unfold endTurn
  try dsimp only
  repeat' first
      | with_reducible assumption
      | with_reducible exact lit_coh (by with_reducible assumption) (by with_reducible rfl) (by with_reducible rfl)
      | split
theorem handOn_coh (i : Issue) (lead : Core) (left : BitVec 8) (next : CAddr) (save : Bool) (s : State) (h0 : Coherent s) : Coherent (handOn i lead left next save s) := by
  unfold handOn
  try dsimp only
  repeat' first
      | with_reducible assumption
      | with_reducible apply modCr_coh
      | with_reducible refine foldl_coh ?_ ?_
      | intro _ _ _
      | split
theorem shutUnit_coh (s : State) (h0 : Coherent s) : Coherent (shutUnit s) := by
  unfold shutUnit
  try dsimp only
  repeat' first
      | with_reducible assumption
      | with_reducible apply endTurn_coh
      | with_reducible apply modCr_coh
      | with_reducible exact lit_coh (by with_reducible assumption) (by with_reducible rfl) (by with_reducible rfl)
      | split
theorem closeUnit_coh (s : State) (h0 : Coherent s) : Coherent (closeUnit s) := by
  unfold closeUnit
  try dsimp only
  repeat' first
      | with_reducible assumption
      | with_reducible apply countExec_coh
      | with_reducible apply shutUnit_coh
      | split
theorem stayUnit_coh (i : Issue) (fol : Option Follow) (latch9 : List LatchE) (k : Core) (s : State) (h0 : Coherent s) : Coherent (stayUnit i fol latch9 k s) := by
  unfold stayUnit
  try dsimp only
  repeat' first
      | with_reducible assumption
      | with_reducible apply handOn_coh
      | with_reducible apply setCr_coh
      | with_reducible apply handOn_coh
      | split
theorem againUnit_coh (i : Issue) (k : Core) (s : State) (h0 : Coherent s) : Coherent (againUnit i k s) := by
  unfold againUnit
  try dsimp only
  repeat' first
      | with_reducible assumption
      | with_reducible apply handOn_coh
      | with_reducible apply setCr_coh
      | with_reducible apply handOn_coh
      | split
theorem onUnit_coh (i : Issue) (fol : Option Follow) (k : Core) (s : State) (h0 : Coherent s) : Coherent (onUnit i fol k s) := by
  unfold onUnit
  try dsimp only
  repeat' first
      | with_reducible assumption
      | with_reducible apply handOn_coh
      | with_reducible apply setCr_coh
      | with_reducible apply stopTask_coh
      | with_reducible apply handOn_coh
      | split
theorem finishUnit_coh (s : State) (h0 : Coherent s) : Coherent (finishUnit s) := by
  unfold finishUnit
  try dsimp only
  repeat' first
      | with_reducible assumption
      | with_reducible apply onUnit_coh
      | with_reducible apply closeUnit_coh
      | with_reducible apply againUnit_coh
      | with_reducible apply stayUnit_coh
      | with_reducible apply shutUnit_coh
      | split
theorem arriveStep_coh (c : CoreId) (g : Nat) (next : Wait) (s : State) (h0 : Coherent s) : Coherent (arriveStep c g next s) := by
  unfold arriveStep
  try dsimp only
  repeat' first
      | with_reducible assumption
      | with_reducible apply barrierCheck_coh
      | with_reducible apply modCr_coh
      | with_reducible apply poke_coh
      | with_reducible apply publishFwd_coh
      | with_reducible apply pageMiss_coh
      | split
theorem countWait_coh (c : CoreId) (w : Wait) (s : State) (h0 : Coherent s) : Coherent (countWait c w s) := by
  unfold countWait
  try dsimp only
  repeat' first
      | with_reducible assumption
      | with_reducible apply countExec_coh
      | split
theorem linkTimeoutStep_coh (c : CoreId) (s : State) (h0 : Coherent s) : Coherent (linkTimeoutStep c s) := by
  unfold linkTimeoutStep
  try dsimp only
  repeat' first
      | with_reducible assumption
      | with_reducible apply trapBefore_coh
      | with_reducible apply modCr_coh
      | with_reducible apply failLane_coh
      | split
theorem waitStep_coh (c : CoreId) (s : State) (h0 : Coherent s) : Coherent (waitStep c s) := by
  unfold waitStep
  try dsimp only
  repeat' first
      | with_reducible assumption
      | with_reducible apply countWait_coh
      | with_reducible apply haltStep_coh
      | with_reducible apply haltAckStep_coh
      | with_reducible apply saveStep_coh
      | with_reducible apply stopTask_coh
      | with_reducible apply countExec_coh
      | with_reducible apply saveAckStep_coh
      | with_reducible apply arriveStep_coh
      | with_reducible apply linkTimeoutStep_coh
      | with_reducible apply modCr_coh
      | with_reducible apply refresh_coh
      | with_reducible apply haltStep_coh
      | with_reducible apply haltAckStep_coh
      | split
theorem issueStep_coh (c : CoreId) (s : State) (h0 : Coherent s) : Coherent (issueStep c s) := by
  unfold issueStep
  try dsimp only
  repeat' first
      | with_reducible assumption
      | with_reducible apply enterTrap_coh
      | with_reducible apply issueUnit_coh
      | with_reducible apply landDue_coh
      | with_reducible apply waitStep_coh
      | with_reducible apply coreUncorrectable_coh
      | with_reducible apply modCr_coh
      | with_reducible apply finishUnit_coh
      | with_reducible apply takeTrap_coh
      | split
theorem failPend_coh (c : CoreId) (n : Nat) (l : Lane) (cause : BitVec 8) (a : Nat) (s : State) (h0 : Coherent s) : Coherent (failPend c n l cause a s) := by
  unfold failPend
  try dsimp only
  repeat' first
      | with_reducible assumption
      | with_reducible apply modCr_coh
      | with_reducible apply failLane_coh
      | split
theorem eccPend_coh (c : CoreId) (n : Nat) (x : Lane × Nat × Nat) (s : State) (h0 : Coherent s) : Coherent (eccPend c n x s) := by
  unfold eccPend
  try dsimp only
  repeat' first
      | with_reducible assumption
      | with_reducible apply failPend_coh
      | with_reducible apply foundG_coh
      | split
theorem flushLanes_coh (c : CoreId) (seq : Nat) (ls : List Lane) (s : State) (h0 : Coherent s) : Coherent (flushLanes c seq ls s) := by
  unfold flushLanes
  try dsimp only
  repeat' first
      | with_reducible assumption
      | with_reducible apply flushOwn_coh
      | with_reducible refine foldl_coh ?_ ?_
      | intro _ _ _
      | split
theorem landAmo_coh (c : CoreId) (n : Nat) (q : Pend) (fn : BitVec 4) (wide : Bool) (v e : W64) (loc : Nat) (s : State) (h0 : Coherent s) : Coherent (landAmo c n q fn wide v e loc s) := by
  unfold landAmo
  try dsimp only
  repeat' first
      | with_reducible assumption
      | with_reducible apply landPend_coh
      | with_reducible apply memOwn_coh
      | with_reducible apply directFwd_coh
      | split
theorem landRowld_coh (c : CoreId) (n : Nat) (q : Pend) (s : State) (h0 : Coherent s) : Coherent (landRowld c n q s) := by
  unfold landRowld
  try dsimp only
  repeat' first
      | with_reducible assumption
      | with_reducible apply landPend_coh
      | split
theorem freeValue_coh (n : Nat) (s : State) (h0 : Coherent s) : Coherent (freeValue n s).1 := by
  unfold freeValue
  try dsimp only
  repeat' first
      | with_reducible assumption
      | with_reducible exact lit_coh (by with_reducible assumption) (by with_reducible rfl) (by with_reducible rfl)
      | split
theorem tapFind_coh (c : CoreId) (n : Nat) (q : Pend) (kind : Nat) (tap : BitVec 2) (vec : Bool) (i : Int) (l : Lane) (s : State) (h0 : Coherent s) : Coherent (tapFind c n q kind tap vec i l s) := by
  unfold tapFind
  try dsimp only
  repeat' first
      | with_reducible assumption
      | with_reducible apply modCr_coh
      | with_reducible apply rewalkLanes_coh
      | with_reducible apply failPend_coh
      | split
theorem landTap_coh (c : CoreId) (n : Nat) (q : Pend) (kind : Nat) (tap : BitVec 2) (vec : Bool) (region mem : Nat) (s : State) (h0 : Coherent s) : Coherent (landTap c n q kind tap vec region mem s) := by
  unfold landTap
  try dsimp only
  repeat' first
      | with_reducible assumption
      | with_reducible apply landPend_coh
      | with_reducible apply freeValue_coh
      | with_reducible apply failPend_coh
      | with_reducible apply countStale_coh
      | with_reducible apply tapFind_coh
      | split
theorem landJoin_coh (c : CoreId) (n : Nat) (q : Pend) (a loc : Nat) (s : State) (h0 : Coherent s) : Coherent (landJoin c n q a loc s) := by
  unfold landJoin
  try dsimp only
  repeat' first
      | with_reducible assumption
      | with_reducible apply landPend_coh
      | with_reducible apply recPut_coh
      | with_reducible apply modCr_coh
      | with_reducible apply poke_coh
      | split
theorem landLoad_coh (c : CoreId) (n : Nat) (q : Pend) (scalar signed : Bool) (s : State) (h0 : Coherent s) : Coherent (landLoad c n q scalar signed s) := by
  unfold landLoad
  try dsimp only
  repeat' first
      | with_reducible assumption
      | with_reducible apply modCr_coh
      | with_reducible apply captureLanes_coh
      | with_reducible apply landPend_coh
      | split
theorem landStep_coh (c : CoreId) (n : Nat) (s : State) (h0 : Coherent s) : Coherent (landStep c n s) := by
  unfold landStep
  try dsimp only
  repeat' first
      | with_reducible assumption
      | with_reducible apply landPend_coh
      | with_reducible apply landLoad_coh
      | with_reducible apply eccPend_coh
      | with_reducible apply flushLanes_coh
      | with_reducible apply landAmo_coh
      | with_reducible apply landRowld_coh
      | with_reducible apply landTap_coh
      | with_reducible apply landJoin_coh
      | split
theorem rillFlag_coh (c : CoreId) (f : BitVec 5) (s : State) (h0 : Coherent s) : Coherent (rillFlag c f s) := by
  unfold rillFlag
  try dsimp only
  repeat' first
      | with_reducible assumption
      | with_reducible apply modVf_coh
      | split
theorem dropPost_coh (c : CoreId) (n : Nat) (s : State) (h0 : Coherent s) : Coherent (dropPost c n s) := by
  unfold dropPost
  try dsimp only
  repeat' first
      | with_reducible assumption
      | with_reducible apply modCr_coh
      | split
theorem sendRill_coh (c : CoreId) (k : OKind) (ls : List Lane) (s : State) (h0 : Coherent s) : Coherent (sendRill c k ls s) := by
  unfold sendRill
  try dsimp only
  repeat' first
      | with_reducible assumption
      | with_reducible apply sendFlit_coh
      | with_reducible apply awaitAck_coh
      | with_reducible refine foldl_coh ?_ ?_
      | intro _ _ _
      | split
theorem rillGo_coh (c : CoreId) (n : Nat) (o : Post) (s : State) (h0 : Coherent s) : Coherent (rillGo c n o s) := by
  unfold rillGo
  try dsimp only
  repeat' first
      | with_reducible assumption
      | with_reducible apply dropPost_coh
      | with_reducible apply rillFlag_coh
      | with_reducible apply sendRill_coh
      | with_reducible apply forwardAll_coh
      | with_reducible apply memOwn_coh
      | with_reducible apply pubDirectAs_coh
      | split
theorem rillStep_coh (c : CoreId) (n : Nat) (s : State) (h0 : Coherent s) : Coherent (rillStep c n s) := by
  unfold rillStep
  try dsimp only
  repeat' first
      | with_reducible assumption
      | with_reducible apply dropPost_coh
      | with_reducible apply errLog_coh
      | with_reducible apply foundG_coh
      | with_reducible apply flushLanes_coh
      | with_reducible apply rillGo_coh
      | with_reducible apply rillFlag_coh
      | split
theorem forwardSample_coh (r : Region) (m intake : Nat) (d : PanD) (s : State) (x : Nat × Nat) (h0 : Coherent s) : Coherent (forwardSample r m intake d s x) := by
  unfold forwardSample
  try dsimp only
  repeat' first
      | with_reducible assumption
      | with_reducible apply sendMirror_coh
      | split
theorem sampleLane_coh (c : CoreId) (region mem : Nat) (vec : Bool) (v : BitVec 4096) (s : State) (l : Lane) (h0 : Coherent s) : Coherent (sampleLane c region mem vec v s l) := by
  unfold sampleLane
  try dsimp only
  repeat' first
      | with_reducible assumption
      | with_reducible apply rillFlag_coh
      | with_reducible apply errLog_coh
      | with_reducible apply modRegion_coh
      | with_reducible apply foundG_coh
      | with_reducible apply forwardSample_coh
      | with_reducible refine foldl_coh ?_ ?_
      | intro _ _ _
      | split
theorem sampleStep_coh (c : CoreId) (n : Nat) (s : State) (h0 : Coherent s) : Coherent (sampleStep c n s) := by
  unfold sampleStep
  try dsimp only
  repeat' first
      | with_reducible assumption
      | with_reducible apply modCr_coh
      | with_reducible apply sampleLane_coh
      | with_reducible refine foldl_coh ?_ ?_
      | intro _ _ _
      | split
theorem deferredStep_coh (c : CoreId) (s : State) (h0 : Coherent s) : Coherent (deferredStep c s) := by
  unfold deferredStep
  try dsimp only
  repeat' first
      | with_reducible assumption
      | with_reducible apply trapBefore_coh
      | with_reducible apply modCr_coh
      | with_reducible apply trapCore_coh
      | with_reducible apply doubleTrap_coh
      | split
theorem pageIn_coh (p : PartId) (page loc : Nat) (s : State) (h0 : Coherent s) : Coherent (pageIn p page loc s) := by
  unfold pageIn
  try dsimp only
  repeat' first
      | with_reducible assumption
      | with_reducible apply modCr_coh
      | with_reducible refine foldl_coh ?_ ?_
      | intro _ _ _
      | intro _ _
      | split
      | (unfold Coherent; dsimp only; show Coherent _; first | with_reducible assumption | with_reducible apply modCr_coh | split | with_reducible refine foldl_coh ?_ ?_)
theorem failTag_coh (c : CoreId) (tag : Nat) (s : State) (h0 : Coherent s) : Coherent (failTag c tag s) := by
  unfold failTag
  try dsimp only
  repeat' first
      | with_reducible assumption
      | with_reducible apply modCr_coh
      | with_reducible apply failLane_coh
      | with_reducible refine foldl_coh ?_ ?_
      | intro _ _ _
      | split
theorem wordReply_coh (p : PartId) (fail : Bool) (s : State) (t : Task) (h0 : Coherent s) : Coherent (wordReply p fail s t) := by
  unfold wordReply
  try dsimp only
  repeat' first
      | with_reducible assumption
      | with_reducible apply settle_coh
      | with_reducible apply writeWord_coh
      | with_reducible apply release_coh
      | with_reducible apply engErr_coh
      | with_reducible apply endTask_coh
      | split
theorem failSpawn_coh (p : PartId) (sp : Spawn) (s : State) (h0 : Coherent s) : Coherent (failSpawn p sp s) := by
  unfold failSpawn
  try dsimp only
  repeat' first
      | with_reducible assumption
      | with_reducible apply endCmd_coh
      | with_reducible apply nack_coh
      | with_reducible apply endAtSpawn_coh
      | split
theorem spawnReply_coh (p : PartId) (fail : Bool) (s : State) (h0 : Coherent s) : Coherent (spawnReply p fail s) := by
  unfold spawnReply
  try dsimp only
  repeat' first
      | with_reducible assumption
      | with_reducible apply drainSpawns_coh
      | with_reducible apply failSpawn_coh
      | with_reducible apply modPt_coh
      | split
theorem deltaReply_coh (p : PartId) (tag : Nat) (fail : Bool) (s : State) (h0 : Coherent s) : Coherent (deltaReply p tag fail s) := by
  unfold deltaReply
  try dsimp only
  repeat' first
      | with_reducible assumption
      | with_reducible apply spawnReply_coh
      | with_reducible apply modPt_coh
      | with_reducible apply wordReply_coh
      | with_reducible refine foldl_coh ?_ ?_
      | intro _ _ _
      | split
theorem coresReply_coh (p : PartId) (r : PageReq) (fail : Bool) (s : State) (h0 : Coherent s) : Coherent (coresReply p r fail s) := by
  unfold coresReply
  try dsimp only
  repeat' first
      | with_reducible assumption
      | with_reducible apply modCr_coh
      | with_reducible apply rewalkCore_coh
      | with_reducible apply failTag_coh
      | with_reducible refine foldl_coh ?_ ?_
      | intro _ _ _
      | split
theorem cmdsReply_coh (p : PartId) (r : PageReq) (fail : Bool) (s : State) (h0 : Coherent s) : Coherent (cmdsReply p r fail s) := by
  unfold cmdsReply
  try dsimp only
  repeat' first
      | with_reducible assumption
      | with_reducible exact lit_coh (by with_reducible assumption) (by with_reducible rfl) (by with_reducible rfl)
      | split
theorem waitersReply_coh (p : PartId) (r : PageReq) (fail : Bool) (s : State) (h0 : Coherent s) : Coherent (waitersReply p r fail s) := by
  unfold waitersReply
  try dsimp only
  repeat' first
      | with_reducible assumption
      | with_reducible apply deltaReply_coh
      | with_reducible apply barriersAgain_coh
      | with_reducible apply lateReply_coh
      | with_reducible apply cmdsReply_coh
      | with_reducible apply coresReply_coh
      | split
theorem replyStep_coh (v : VfId) (x : W64) (s : State) (h0 : Coherent s) : Coherent (replyStep v x s) := by
  unfold replyStep
  try dsimp only
  repeat' first
      | with_reducible assumption
      | with_reducible apply ackOk_coh
      | with_reducible apply waitersReply_coh
      | with_reducible apply pageIn_coh
      | with_reducible apply modVf_coh
      | with_reducible apply nack_coh
      | intro _ _
      | split
      | (unfold Coherent; dsimp only; show Coherent _; first | with_reducible assumption | with_reducible apply ackOk_coh | with_reducible apply waitersReply_coh | with_reducible apply pageIn_coh | with_reducible apply modVf_coh | with_reducible apply nack_coh | split | with_reducible refine foldl_coh ?_ ?_)
theorem quantumStep_coh (p : PartId) (s : State) (h0 : Coherent s) : Coherent (quantumStep p s) := by
  unfold quantumStep
  try dsimp only
  repeat' first
      | with_reducible assumption
      | with_reducible apply modCr_coh
      | with_reducible refine foldl_coh ?_ ?_
      | intro _ _ _
      | split
theorem refreshDue_coh (bank : Nat) (train : Bool) (s : State) (h0 : Coherent s) : Coherent (refreshDue bank train s) := by
  unfold refreshDue
  try dsimp only
  repeat' first
      | with_reducible assumption
      | with_reducible exact lit_coh (by with_reducible assumption) (by with_reducible rfl) (by with_reducible rfl)
      | split

end Sys2Proof.Machine
end

