-- ==== Sys2Proof/Laws/CoherenceModule.lean ====
section
/-! SUPPORT. Memory stays the one order of its publications (R218, R219) under the engines, the fabric, the host, the Sluice, faults, the boot and the turns of the world. -/
namespace Sys2Proof.Machine

theorem modCmd_coh (id : Nat) (f : Cmd → Cmd) (s : State) (h0 : Coherent s) : Coherent (modCmd id f s) := by
  unfold modCmd
  try dsimp only
  repeat' first
      | with_reducible assumption
      | with_reducible exact lit_coh (by with_reducible assumption) (by with_reducible rfl) (by with_reducible rfl)
      | split
theorem askPages_coh (k : Cmd) : ∀ (a0 : List (Nat × Nat × Bool × Nat × Bool)) (s : State), Coherent s → Coherent (askPages k a0 s) := by
  intro a0
  induction a0 with
  | nil =>
    intro s h0
    unfold askPages
    try dsimp only
    repeat' first
      | with_reducible assumption
      | with_reducible apply pageMiss_coh
      | with_reducible apply modCmd_coh
      | with_reducible apply ih
      | with_reducible exact lit_coh (by with_reducible assumption) (by with_reducible rfl) (by with_reducible rfl)
      | with_reducible refine pair_coh ?_ (by with_reducible assumption)
      | with_reducible refine next_coh ?_
      | with_reducible refine foldl_coh ?_ ?_
      | intro _ _ _
      | intro _ _
      | split
      | (show Coherent (id _) ; with_reducible exact id_coh ‹_›)
      | (unfold Coherent; dsimp only; show Coherent _; first | with_reducible assumption | with_reducible apply pageMiss_coh | with_reducible apply modCmd_coh | with_reducible apply ih | split | with_reducible refine foldl_coh ?_ ?_)
  | cons x l ih =>
    intro s h0
    unfold askPages
    try dsimp only
    repeat' first
      | with_reducible assumption
      | with_reducible apply pageMiss_coh
      | with_reducible apply modCmd_coh
      | with_reducible apply ih
      | with_reducible exact lit_coh (by with_reducible assumption) (by with_reducible rfl) (by with_reducible rfl)
      | with_reducible refine pair_coh ?_ (by with_reducible assumption)
      | with_reducible refine next_coh ?_
      | with_reducible refine foldl_coh ?_ ?_
      | intro _ _ _
      | intro _ _
      | split
      | (show Coherent (id _) ; with_reducible exact id_coh ‹_›)
      | (unfold Coherent; dsimp only; show Coherent _; first | with_reducible assumption | with_reducible apply pageMiss_coh | with_reducible apply modCmd_coh | with_reducible apply ih | split | with_reducible refine foldl_coh ?_ ?_)
theorem retireRanges_coh (k : Cmd) (s : State) (h0 : Coherent s) : Coherent (retireRanges k s) := by
  unfold retireRanges
  try dsimp only
  repeat' first
      | with_reducible assumption
      | with_reducible apply modCr_coh
      | split
theorem landL_coh (c : CoreId) (ws : List (Nat × Byte)) (s : State) (h0 : Coherent s) : Coherent (landL c ws s) := by
  unfold landL
  try dsimp only
  repeat' first
      | with_reducible assumption
      | with_reducible apply modCr_coh
      | split
theorem landW_coh (k : Cmd) (ws : List (Nat × Row)) (s : State) (h0 : Coherent s) : Coherent (landW k ws s) := by
  unfold landW
  try dsimp only
  repeat' first
      | with_reducible assumption
      | with_reducible apply modCr_coh
      | split
theorem countFound_coh (c : CoreId) (l : List (Option Nat)) (s : State) (h0 : Coherent s) : Coherent (countFound c l s) := by
  unfold countFound
  try dsimp only
  repeat' first
      | with_reducible assumption
      | with_reducible apply foundG_coh
      | with_reducible apply foundL_coh
      | with_reducible refine foldl_coh ?_ ?_
      | intro _ _ _
      | split
theorem cmdForward_coh (k : Cmd) (ws : List (Nat × Byte)) (s : State) (h0 : Coherent s) : Coherent (cmdForward k ws s) := by
  unfold cmdForward
  try dsimp only
  repeat' first
      | with_reducible assumption
      | with_reducible apply modCmd_coh
      | with_reducible apply forwardAll_coh
      | split
theorem carryOut_coh (k : Cmd) (r : PartRes) (s : State) (h0 : Coherent s) : Coherent (carryOut k r s) := by
  unfold carryOut
  try dsimp only
  repeat' first
      | with_reducible assumption
      | with_reducible apply modCmd_coh
      | with_reducible apply cmdForward_coh
      | with_reducible apply rillFlag_coh
      | with_reducible apply landW_coh
      | with_reducible apply countFound_coh
      | with_reducible apply retireRanges_coh
      | with_reducible apply landL_coh
      | split
theorem performParts_coh (k : Cmd) (s : State) (h0 : Coherent s) : Coherent (performParts k s) := by
  unfold performParts
  try dsimp only
  repeat' first
      | with_reducible assumption
      | with_reducible apply askPages_coh
      | with_reducible apply carryOut_coh
      | split
theorem rillDirect_coh (k : Cmd) (ws : List (Nat × Byte)) (s : State) (h0 : Coherent s) : Coherent (rillDirect k ws s) := by
  unfold rillDirect
  try dsimp only
  repeat' first
      | with_reducible assumption
      | with_reducible apply cmdForward_coh
      | with_reducible apply addPub_coh
      | split
theorem rillFar_coh (k : Cmd) (t : Nat × Nat) (bs : List Byte) (r : List (Nat × Byte)) (s : State) (loc : Nat) (h0 : Coherent s) : Coherent (rillFar k t bs r s loc) := by
  unfold rillFar
  try dsimp only
  repeat' first
      | with_reducible assumption
      | with_reducible apply modCmd_coh
      | with_reducible apply sendFlit_coh
      | with_reducible apply awaitAck_coh
      | with_reducible apply addPub_coh
      | split
theorem rillMask_coh (k : Cmd) (code mask loc slot : Nat) (s : State) (h0 : Coherent s) : Coherent (rillMask k code mask loc slot s) := by
  unfold rillMask
  try dsimp only
  repeat' first
      | with_reducible assumption
      | with_reducible apply rillFlag_coh
      | with_reducible apply rillDirect_coh
      | with_reducible apply rillFar_coh
      | with_reducible refine foldl_coh ?_ ?_
      | intro _ _ _
      | split
theorem rillFail_coh (k : Cmd) (f : CmdFail) (found : List (Option Nat)) (s : State) (h0 : Coherent s) : Coherent (rillFail k f found s) := by
  unfold rillFail
  try dsimp only
  repeat' first
      | with_reducible assumption
      | with_reducible apply countFound_coh
      | with_reducible apply modCmd_coh
      | split
theorem rillDo_coh (k : Cmd) (s : State) (i : Nat) (h0 : Coherent s) : Coherent (rillDo k s i) := by
  unfold rillDo
  try dsimp only
  repeat' first
      | with_reducible assumption
      | with_reducible apply rillFail_coh
      | with_reducible apply rillMask_coh
      | with_reducible apply landL_coh
      | with_reducible apply rillDirect_coh
      | split
theorem rillGoOn_coh (k : Cmd) : ∀ (a0 : Nat) (a1 : Nat) (s : State), Coherent s → Coherent (rillGoOn k a0 a1 s) := by
  intro a0
  induction a0 with
  | zero =>
    intro a1 s h0
    unfold rillGoOn
    try dsimp only
    repeat' first
      | with_reducible assumption
      | with_reducible apply modCmd_coh
      | with_reducible apply askPages_coh
      | with_reducible apply retireRanges_coh
      | with_reducible apply rillDo_coh
      | with_reducible apply ih
      | with_reducible exact lit_coh (by with_reducible assumption) (by with_reducible rfl) (by with_reducible rfl)
      | with_reducible refine pair_coh ?_ (by with_reducible assumption)
      | with_reducible refine next_coh ?_
      | with_reducible refine foldl_coh ?_ ?_
      | intro _ _ _
      | intro _ _
      | split
      | (show Coherent (id _) ; with_reducible exact id_coh ‹_›)
      | (unfold Coherent; dsimp only; show Coherent _; first | with_reducible assumption | with_reducible apply modCmd_coh | with_reducible apply askPages_coh | with_reducible apply retireRanges_coh | with_reducible apply rillDo_coh | with_reducible apply ih | split | with_reducible refine foldl_coh ?_ ?_)
  | succ n ih =>
    intro a1 s h0
    unfold rillGoOn
    try dsimp only
    repeat' first
      | with_reducible assumption
      | with_reducible apply modCmd_coh
      | with_reducible apply askPages_coh
      | with_reducible apply retireRanges_coh
      | with_reducible apply rillDo_coh
      | with_reducible apply ih
      | with_reducible exact lit_coh (by with_reducible assumption) (by with_reducible rfl) (by with_reducible rfl)
      | with_reducible refine pair_coh ?_ (by with_reducible assumption)
      | with_reducible refine next_coh ?_
      | with_reducible refine foldl_coh ?_ ?_
      | intro _ _ _
      | intro _ _
      | split
      | (show Coherent (id _) ; with_reducible exact id_coh ‹_›)
      | (unfold Coherent; dsimp only; show Coherent _; first | with_reducible assumption | with_reducible apply modCmd_coh | with_reducible apply askPages_coh | with_reducible apply retireRanges_coh | with_reducible apply rillDo_coh | with_reducible apply ih | split | with_reducible refine foldl_coh ?_ ?_)
theorem performRill_coh (k : Cmd) (s : State) (h0 : Coherent s) : Coherent (performRill k s) := by
  unfold performRill
  try dsimp only
  repeat' first
      | with_reducible assumption
      | with_reducible apply rillGoOn_coh
      | split
theorem performSend_coh (k : Cmd) (s : State) (h0 : Coherent s) : Coherent (performSend k s) := by
  unfold performSend
  try dsimp only
  repeat' first
      | with_reducible assumption
      | with_reducible apply modCmd_coh
      | with_reducible apply retireRanges_coh
      | with_reducible apply countFound_coh
      | with_reducible apply awaitAck_coh
      | with_reducible exact lit_coh (by with_reducible assumption) (by with_reducible rfl) (by with_reducible rfl)
      | split
theorem setRx_coh (q : RxQueue) (s : State) (h0 : Coherent s) : Coherent (setRx q s) := by
  unfold setRx
  try dsimp only
  repeat' first
      | with_reducible assumption
      | with_reducible exact lit_coh (by with_reducible assumption) (by with_reducible rfl) (by with_reducible rfl)
      | split
theorem rxTake_coh (q : RxQueue) (e : MsgEntry) (s : State) (h0 : Coherent s) : Coherent (rxTake q e s).2 := by
  unfold rxTake
  dsimp only
  split
  · exact lit_coh h0 rfl rfl
  · exact h0
theorem rxDrain_coh : ∀ (n : Nat) (q : RxQueue) (s : State), Coherent s → Coherent (rxDrain n q s).2
  | 0, _, _, h => h
  | n + 1, q, s, h => by
    unfold rxDrain
    split
    · split
      · exact h
      · exact rxDrain_coh n _ _ (rxTake_coh _ _ _ h)
    · exact h
theorem settleRx_coh (q : RxQueue) (s : State) (h0 : Coherent s) : Coherent (settleRx q s) := setRx_coh _ _ (rxDrain_coh _ _ _ h0)
theorem recvOver_coh (k : Cmd) (q : RxQueue) (msg : Nat) (s : State) (h0 : Coherent s) : Coherent (recvOver k q msg s) := by
  unfold recvOver
  try dsimp only
  repeat' first
      | with_reducible assumption
      | with_reducible apply modCmd_coh
      | with_reducible apply retireRanges_coh
      | with_reducible apply settleRx_coh
      | split
theorem feedRecv_coh (m : BitVec 16) (f : BitVec 8) : ∀ (a0 : Nat) (s : State), Coherent s → Coherent (feedRecv m f a0 s) := by
  intro a0
  induction a0 with
  | zero =>
    intro s h0
    unfold feedRecv
    try dsimp only
    repeat' first
      | with_reducible assumption
      | with_reducible apply modCmd_coh
      | with_reducible apply landL_coh
      | with_reducible apply settleRx_coh
      | with_reducible apply recvOver_coh
      | with_reducible apply ih
      | with_reducible exact lit_coh (by with_reducible assumption) (by with_reducible rfl) (by with_reducible rfl)
      | with_reducible refine pair_coh ?_ (by with_reducible assumption)
      | with_reducible refine next_coh ?_
      | with_reducible refine foldl_coh ?_ ?_
      | intro _ _ _
      | intro _ _
      | split
      | (show Coherent (id _) ; with_reducible exact id_coh ‹_›)
      | (unfold Coherent; dsimp only; show Coherent _; first | with_reducible assumption | with_reducible apply modCmd_coh | with_reducible apply landL_coh | with_reducible apply settleRx_coh | with_reducible apply recvOver_coh | with_reducible apply ih | split | with_reducible refine foldl_coh ?_ ?_)
  | succ n ih =>
    intro s h0
    unfold feedRecv
    try dsimp only
    repeat' first
      | with_reducible assumption
      | with_reducible apply modCmd_coh
      | with_reducible apply landL_coh
      | with_reducible apply settleRx_coh
      | with_reducible apply recvOver_coh
      | with_reducible apply ih
      | with_reducible exact lit_coh (by with_reducible assumption) (by with_reducible rfl) (by with_reducible rfl)
      | with_reducible refine pair_coh ?_ (by with_reducible assumption)
      | with_reducible refine next_coh ?_
      | with_reducible refine foldl_coh ?_ ?_
      | intro _ _ _
      | intro _ _
      | split
      | (show Coherent (id _) ; with_reducible exact id_coh ‹_›)
      | (unfold Coherent; dsimp only; show Coherent _; first | with_reducible assumption | with_reducible apply modCmd_coh | with_reducible apply landL_coh | with_reducible apply settleRx_coh | with_reducible apply recvOver_coh | with_reducible apply ih | split | with_reducible refine foldl_coh ?_ ?_)
theorem feedAll_coh (m : BitVec 16) (f : BitVec 8) (s : State) (h0 : Coherent s) : Coherent (feedAll m f s) := by
  unfold feedAll
  try dsimp only
  repeat' first
      | with_reducible assumption
      | with_reducible apply feedRecv_coh
      | split
theorem recvArrive_coh (m : BitVec 16) (f : BitVec 8) (e : MsgEntry) (s : State) (h0 : Coherent s) : Coherent (recvArrive m f e s) := by
  unfold recvArrive
  try dsimp only
  repeat' first
      | with_reducible assumption
      | with_reducible apply feedAll_coh
      | with_reducible apply settleRx_coh
      | split
theorem sendTimeout_coh (c : CoreId) (id : Nat) (s : State) (h0 : Coherent s) : Coherent (sendTimeout c id s) := by
  unfold sendTimeout
  try dsimp only
  repeat' first
      | with_reducible assumption
      | with_reducible apply endCmd_coh
      | with_reducible exact lit_coh (by with_reducible assumption) (by with_reducible rfl) (by with_reducible rfl)
      | split
theorem recvTimeoutStep_coh (k : Cmd) (s : State) (h0 : Coherent s) : Coherent (recvTimeoutStep k s) := by
  unfold recvTimeoutStep
  try dsimp only
  repeat' first
      | with_reducible assumption
      | with_reducible apply askPages_coh
      | with_reducible apply carryOut_coh
      | with_reducible apply settleRx_coh
      | with_reducible apply modCmd_coh
      | with_reducible apply retireRanges_coh
      | split
theorem freeCtx_coh (k : Cmd) (s : State) (h0 : Coherent s) : Coherent (freeCtx k s) := by
  unfold freeCtx
  try dsimp only
  repeat' first
      | with_reducible assumption
      | with_reducible apply modPt_coh
      | split
theorem completeCmd_coh (k : Cmd) (s : State) (h0 : Coherent s) : Coherent (completeCmd k s) := by
  unfold completeCmd
  try dsimp only
  repeat' first
      | with_reducible assumption
      | with_reducible apply ckptRest_coh
      | with_reducible apply endCmd_coh
      | with_reducible apply freeCtx_coh
      | with_reducible apply addPub_coh
      | with_reducible refine foldl_coh ?_ ?_
      | intro _ _ _
      | split
theorem performSpawn_coh (k : Cmd) (s : State) (h0 : Coherent s) : Coherent (performSpawn k s) := by
  unfold performSpawn
  try dsimp only
  repeat' first
      | with_reducible assumption
      | with_reducible apply spawnArrive_coh
      | with_reducible apply modCmd_coh
      | split
theorem modCfl_coh (id : Nat) (f : CflSt → CflSt) (s : State) (h0 : Coherent s) : Coherent (modCfl id f s) := by
  unfold modCfl
  try dsimp only
  repeat' first
      | with_reducible assumption
      | with_reducible apply modCmd_coh
      | split
theorem cflTo_coh (x : CflSt) (n : Nat) (p : CflPkt) (s : State) (h0 : Coherent s) : Coherent (cflTo x n p s) := by
  unfold cflTo
  try dsimp only
  repeat' first
      | with_reducible assumption
      | with_reducible exact lit_coh (by with_reducible assumption) (by with_reducible rfl) (by with_reducible rfl)
      | split
theorem cflSend_coh (k : Cmd) (x : CflSt) (p : CflPkt) (s : State) (h0 : Coherent s) : Coherent (cflSend k x p s) := by
  unfold cflSend
  try dsimp only
  repeat' first
      | with_reducible assumption
      | with_reducible apply modCfl_coh
      | with_reducible apply cflTo_coh
      | split
theorem cflNote_coh (k : Cmd) (p : CflPkt) (s : State) (h0 : Coherent s) : Coherent (cflNote k p s) := by
  unfold cflNote
  try dsimp only
  repeat' first
      | with_reducible assumption
      | with_reducible apply modCfl_coh
      | split
theorem cflPass_coh (k : Cmd) (x : CflSt) (p : CflPkt) (s : State) (h0 : Coherent s) : Coherent (cflPass k x p s) := by
  unfold cflPass
  try dsimp only
  repeat' first
      | with_reducible assumption
      | with_reducible apply cflSend_coh
      | split
theorem cflDone_coh (k : Cmd) (x : CflSt) (p : CflPkt) (s : State) (h0 : Coherent s) : Coherent (cflDone k x p s) := by
  unfold cflDone
  try dsimp only
  repeat' first
      | with_reducible assumption
      | with_reducible apply cflPass_coh
      | with_reducible apply modCfl_coh
      | split
theorem cflLack_coh (k : Cmd) (cs : List Nat) (r : PartRes) (s : State) (h0 : Coherent s) : Coherent (cflLack k cs r s) := by
  unfold cflLack
  try dsimp only
  repeat' first
      | with_reducible assumption
      | with_reducible apply countFound_coh
      | with_reducible apply modCfl_coh
      | with_reducible apply modCmd_coh
      | split
theorem cflWant_coh (k : Cmd) (cs : List Nat) (r : PartRes) (wait s : State) (h0 : Coherent s) (h1 : Coherent wait) : Coherent (cflWant k cs r wait s) := by
  unfold cflWant
  split
  · with_reducible apply cflLack_coh
    exact h0
  · with_reducible apply askPages_coh
    exact h1
theorem cflStart1_coh (id : Nat) (s : State) (c : Nat) (h0 : Coherent s) : Coherent (cflStart1 id s c) := by
  unfold cflStart1
  try dsimp only
  repeat' first
      | with_reducible assumption
      | with_reducible apply cflWant_coh
      | with_reducible apply cflDone_coh
      | with_reducible apply cflSend_coh
      | split
theorem cflAgree_coh (k : Cmd) (s : State) (h0 : Coherent s) : Coherent (cflAgree k s) := by
  unfold cflAgree
  try dsimp only
  repeat' first
      | with_reducible assumption
      | with_reducible apply modCfl_coh
      | split
theorem cflHello_coh (k : Cmd) (x : CflSt) (s : State) (h0 : Coherent s) : Coherent (cflHello k x s) := by
  unfold cflHello
  try dsimp only
  repeat' first
      | with_reducible assumption
      | with_reducible apply cflWant_coh
      | with_reducible apply cflAgree_coh
      | with_reducible apply cflSend_coh
      | with_reducible apply modCfl_coh
      | split
theorem cflBegin_coh (id : Nat) (s : State) (h0 : Coherent s) : Coherent (cflBegin id s) := by
  unfold cflBegin
  try dsimp only
  repeat' first
      | with_reducible assumption
      | with_reducible apply cflStart1_coh
      | with_reducible apply cflHello_coh
      | with_reducible refine foldl_coh ?_ ?_
      | intro _ _ _
      | split
theorem cflHear_coh (k : Cmd) (x : CflSt) (p : CflPkt) (s : State) (h0 : Coherent s) : Coherent (cflHear k x p s) := by
  unfold cflHear
  try dsimp only
  repeat' first
      | with_reducible assumption
      | with_reducible apply cflAgree_coh
      | with_reducible apply cflSend_coh
      | with_reducible apply cflNote_coh
      | with_reducible apply modCfl_coh
      | split
theorem cflCombine_coh (k : Cmd) (x : CflSt) (p : CflPkt) (s : State) (h0 : Coherent s) : Coherent (cflCombine k x p s) := by
  unfold cflCombine
  try dsimp only
  repeat' first
      | with_reducible assumption
      | with_reducible apply cflWant_coh
      | with_reducible apply cflNote_coh
      | with_reducible apply modCfl_coh
      | with_reducible apply cflSend_coh
      | with_reducible apply cflDone_coh
      | split
theorem cflCodesIn_coh (k : Cmd) (x : CflSt) (p : CflPkt) (s : State) (h0 : Coherent s) : Coherent (cflCodesIn k x p s) := by
  unfold cflCodesIn
  try dsimp only
  repeat' first
      | with_reducible assumption
      | with_reducible apply cflCombine_coh
      | with_reducible apply cflDone_coh
      | with_reducible apply cflNote_coh
      | with_reducible apply modCfl_coh
      | split
theorem cflTake_coh (id : Nat) (s : State) (p : CflPkt) (h0 : Coherent s) : Coherent (cflTake id s p) := by
  unfold cflTake
  try dsimp only
  repeat' first
      | with_reducible assumption
      | with_reducible apply cflCodesIn_coh
      | with_reducible apply cflHear_coh
      | split
theorem cflTurn_coh (id : Nat) (s : State) (h0 : Coherent s) : Coherent (cflTurn id s) := by
  unfold cflTurn
  try dsimp only
  repeat' first
      | with_reducible assumption
      | with_reducible apply cflTake_coh
      | with_reducible apply modCfl_coh
      | with_reducible apply cflBegin_coh
      | with_reducible refine foldl_coh ?_ ?_
      | intro _ _ _
      | split
theorem cflFinish_coh (k : Cmd) (x : CflSt) (fail : Option CmdFail) (s : State) (h0 : Coherent s) : Coherent (cflFinish k x fail s) := by
  unfold cflFinish
  try dsimp only
  repeat' first
      | with_reducible assumption
      | with_reducible apply askPages_coh
      | with_reducible apply carryOut_coh
      | split
theorem takeCtx_coh (k : Cmd) (s : State) (h0 : Coherent s) : Coherent (takeCtx k s).1 := by
  unfold takeCtx
  try dsimp only
  repeat' first
      | with_reducible assumption
      | with_reducible apply modPt_coh
      | split
theorem cflOpen_coh (k : Cmd) (st : CflSt) (s : State) (h0 : Coherent s) : Coherent (cflOpen k st s) := by
  unfold cflOpen
  try dsimp only
  repeat' first
      | with_reducible assumption
      | with_reducible apply askPages_coh
      | with_reducible apply carryOut_coh
      | with_reducible apply cflTurn_coh
      | with_reducible apply modCmd_coh
      | with_reducible apply takeCtx_coh
      | split
theorem cflStep_coh (k : Cmd) (x : CflSt) (s : State) (h0 : Coherent s) : Coherent (cflStep k x s) := by
  unfold cflStep
  try dsimp only
  repeat' first
      | with_reducible assumption
      | with_reducible apply cflTurn_coh
      | with_reducible apply cflFinish_coh
      | with_reducible apply cflOpen_coh
      | split
theorem cflAsk_coh (x : CflSt) (n c h : Nat) (s : State) (h0 : Coherent s) : Coherent (cflAsk x n c h s) := by
  unfold cflAsk
  try dsimp only
  repeat' first
      | with_reducible assumption
      | with_reducible exact lit_coh (by with_reducible assumption) (by with_reducible rfl) (by with_reducible rfl)
      | split
theorem cflTimeout_coh (k : Cmd) (x : CflSt) (s : State) (h0 : Coherent s) : Coherent (cflTimeout k x s) := by
  unfold cflTimeout
  try dsimp only
  repeat' first
      | with_reducible assumption
      | with_reducible apply cflFinish_coh
      | split
theorem cflLate_coh (k : Cmd) (x : CflSt) (s : State) (h0 : Coherent s) : Coherent (cflLate k x s) := by
  unfold cflLate
  try dsimp only
  repeat' first
      | with_reducible assumption
      | with_reducible apply cflTimeout_coh
      | with_reducible apply modCfl_coh
      | with_reducible apply cflAsk_coh
      | with_reducible refine foldl_coh ?_ ?_
      | intro _ _ _
      | split
theorem cflMake_coh (k : Cmd) (x : CflSt) (c h : Nat) (acc : Option CflPkt) (s : State) (h0 : Coherent s) : Coherent (cflMake k x c h acc s) := by
  unfold cflMake
  try dsimp only
  repeat' first
      | with_reducible assumption
      | with_reducible apply askPages_coh
      | with_reducible apply cflTo_coh
      | with_reducible apply modCfl_coh
      | split
theorem cflFinals_coh (k : Cmd) (x : CflSt) (p : CflPkt) (s : State) (h0 : Coherent s) : Coherent (cflFinals k x p s) := by
  unfold cflFinals
  try dsimp only
  repeat' first
      | with_reducible assumption
      | with_reducible apply cflTo_coh
      | with_reducible refine foldl_coh ?_ ?_
      | intro _ _ _
      | split
theorem cflAsked_coh (k : Cmd) (x : CflSt) (p : CflPkt) (s : State) (h0 : Coherent s) : Coherent (cflAsked k x p s) := by
  unfold cflAsked
  try dsimp only
  repeat' first
      | with_reducible assumption
      | with_reducible apply cflTo_coh
      | with_reducible apply cflMake_coh
      | with_reducible apply cflAsk_coh
      | with_reducible apply cflFinals_coh
      | split
theorem cflAnswer_coh (k : Cmd) (x : CflSt) (p : CflPkt) (s : State) (h0 : Coherent s) : Coherent (cflAnswer k x p s) := by
  unfold cflAnswer
  try dsimp only
  repeat' first
      | with_reducible assumption
      | with_reducible apply cflTimeout_coh
      | with_reducible apply cflMake_coh
      | with_reducible apply cflFinals_coh
      | with_reducible apply cflTurn_coh
      | with_reducible apply cflTake_coh
      | with_reducible apply modCfl_coh
      | split
theorem engineStep_coh (k : Cmd) (s : State) (h0 : Coherent s) : Coherent (engineStep k s) := by
  unfold engineStep
  try dsimp only
  repeat' first
      | with_reducible assumption
      | with_reducible apply cflStep_coh
      | with_reducible apply feedAll_coh
      | with_reducible apply performSend_coh
      | with_reducible apply performRill_coh
      | with_reducible apply performParts_coh
      | split
theorem rangeRetire_coh (c : CoreId) (n : Nat) (s : State) (h0 : Coherent s) : Coherent (rangeRetire c n s) := by
  unfold rangeRetire
  try dsimp only
  repeat' first
      | with_reducible assumption
      | with_reducible apply modCr_coh
      | with_reducible apply modCmd_coh
      | with_reducible apply engineStep_coh
      | split
theorem engineComplete_coh (c : CoreId) (id : Nat) (s : State) (h0 : Coherent s) : Coherent (engineComplete c id s) := by
  unfold engineComplete
  try dsimp only
  repeat' first
      | with_reducible assumption
      | with_reducible apply engineStep_coh
      | with_reducible apply completeCmd_coh
      | with_reducible apply endCmd_coh
      | with_reducible apply performSpawn_coh
      | split
theorem closeMemb_coh (id n : Nat) (s : State) (m : Nat) (h0 : Coherent s) : Coherent (closeMemb id n s m) := by
  unfold closeMemb
  try dsimp only
  repeat' first
      | with_reducible assumption
      | with_reducible apply errLog_coh
      | with_reducible apply foundG_coh
      | with_reducible apply modRegion_coh
      | with_reducible apply pubPan_coh
      | split
theorem closeAll_coh (id : Nat) (s : State) (h0 : Coherent s) : Coherent (closeAll id s) := by
  unfold closeAll
  try dsimp only
  repeat' first
      | with_reducible assumption
      | with_reducible apply modRegion_coh
      | with_reducible apply endCmd_coh
      | with_reducible apply awaitAck_coh
      | split
theorem closeArrive_coh (id ch : Nat) (s : State) (h0 : Coherent s) : Coherent (closeArrive id ch s) := by
  unfold closeArrive
  try dsimp only
  repeat' first
      | with_reducible assumption
      | with_reducible apply closeAll_coh
      | with_reducible apply modRegion_coh
      | with_reducible apply closeMemb_coh
      | with_reducible apply sendFlit_coh
      | with_reducible refine foldl_coh ?_ ?_
      | intro _ _ _
      | split
theorem modCopy_coh (m : BitVec 16) (id : Nat) (f : PanCopy → PanCopy) (s : State) (h0 : Coherent s) : Coherent (modCopy m id f s) := by
  unfold modCopy
  try dsimp only
  repeat' first
      | with_reducible assumption
      | with_reducible exact lit_coh (by with_reducible assumption) (by with_reducible rfl) (by with_reducible rfl)
      | split
theorem noteCopy_coh (m : BitVec 16) (lo n : Nat) (s : State) (h0 : Coherent s) : Coherent (noteCopy m lo n s) := by
  unfold noteCopy
  try dsimp only
  repeat' first
      | with_reducible assumption
      | with_reducible exact lit_coh (by with_reducible assumption) (by with_reducible rfl) (by with_reducible rfl)
      | split
theorem copyMemb_coh (r : Region) (n : Nat) (x : State × List Memb) (m : Nat) (h0 : Coherent x.1) : Coherent (copyMemb r n x m).1 := by
  unfold copyMemb
  dsimp only
  split
  · exact foundG_coh _ _ h0
  · exact h0
theorem copyMembs_coh (r : Region) (n : Nat) : ∀ (l : List Nat) (x : State × List Memb), Coherent x.1 → Coherent (l.foldl (copyMemb r n) x).1
  | [], _, h => h
  | m :: l, x, h => copyMembs_coh r n l _ (copyMemb_coh r n x m h)
theorem copyAdvance_coh (m : BitVec 16) (id : Nat) : ∀ (n : Nat) (s : State), Coherent s → Coherent (copyAdvance m id n s)
  | 0, _, h => h
  | n + 1, s, h => by
    unfold copyAdvance
    split
    · exact h
    · dsimp only
      split
      · exact h
      · exact copyAdvance_coh m id n _ (lit_coh (pubPan_coh _ _ (modCopy_coh _ _ _ _ (copyMembs_coh _ _ _ (s, []) h))) rfl rfl)
theorem copyOn_coh (m : BitVec 16) (id : Nat) (s : State) (h0 : Coherent s) : Coherent (copyOn m id s) := by
  unfold copyOn
  try dsimp only
  repeat' first
      | with_reducible assumption
      | with_reducible apply copyAdvance_coh
      | split
theorem copyEarly_coh (m : BitVec 16) (id : Nat) (k : MirMsg) (s : State) (h0 : Coherent s) : Coherent (copyEarly m id k s) := by
  unfold copyEarly
  try dsimp only
  repeat' first
      | with_reducible assumption
      | with_reducible apply modCopy_coh
      | with_reducible exact lit_coh (by with_reducible assumption) (by with_reducible rfl) (by with_reducible rfl)
      | split
theorem copyTake_coh (s : State) (k : MirMsg) (h0 : Coherent s) : Coherent (copyTake s k) := by
  unfold copyTake
  try dsimp only
  repeat' first
      | with_reducible assumption
      | with_reducible apply copyOn_coh
      | with_reducible apply modCopy_coh
      | with_reducible apply copyEarly_coh
      | intro _ _
      | split
      | (unfold Coherent; dsimp only; show Coherent _; first | with_reducible assumption | with_reducible apply copyOn_coh | with_reducible apply modCopy_coh | with_reducible apply copyEarly_coh | split | with_reducible refine foldl_coh ?_ ?_)
theorem farWrite_coh (a : Agent) (ws : List (Nat × Byte)) (s : State) (h0 : Coherent s) : Coherent (farWrite a ws s) := by
  unfold farWrite
  try dsimp only
  repeat' first
      | with_reducible assumption
      | with_reducible apply pubBy_coh
      | with_reducible apply foundG_coh
      | with_reducible refine foldl_coh ?_ ?_
      | intro _ _ _
      | split
theorem mirrorArrive_coh (k : MirMsg) (s : State) (h0 : Coherent s) : Coherent (mirrorArrive k s) := by
  unfold mirrorArrive
  try dsimp only
  repeat' first
      | with_reducible assumption
      | with_reducible apply farWrite_coh
      | with_reducible apply noteCopy_coh
      | with_reducible apply copyTake_coh
      | with_reducible apply pubPan_coh
      | with_reducible exact lit_coh (by with_reducible assumption) (by with_reducible rfl) (by with_reducible rfl)
      | with_reducible refine foldl_coh ?_ ?_
      | intro _ _ _
      | intro _ _
      | split
      | (unfold Coherent; dsimp only; show Coherent _; first | with_reducible assumption | with_reducible apply farWrite_coh | with_reducible apply noteCopy_coh | with_reducible apply copyTake_coh | with_reducible apply pubPan_coh | split | with_reducible refine foldl_coh ?_ ?_)
theorem setFlow_coh (x : Flow) (s : State) (h0 : Coherent s) : Coherent (setFlow x s) := by
  unfold setFlow
  try dsimp only
  repeat' first
      | with_reducible assumption
      | with_reducible exact lit_coh (by with_reducible assumption) (by with_reducible rfl) (by with_reducible rfl)
      | split
theorem ackArrive_coh (id : Nat) (s : State) (h0 : Coherent s) : Coherent (ackArrive id s) := by
  unfold ackArrive
  try dsimp only
  repeat' first
      | with_reducible assumption
      | with_reducible apply endCmd_coh
      | with_reducible exact lit_coh (by with_reducible assumption) (by with_reducible rfl) (by with_reducible rfl)
      | with_reducible refine foldl_coh ?_ ?_
      | intro _ _ _
      | split
theorem flitSample_coh (dpa : Nat) (v : BitVec 32) (s : State) (h0 : Coherent s) : Coherent (flitSample dpa v s) := by
  unfold flitSample
  try dsimp only
  repeat' first
      | with_reducible assumption
      | with_reducible apply errLog_coh
      | with_reducible apply modRegion_coh
      | with_reducible apply foundG_coh
      | with_reducible apply forwardSample_coh
      | split
theorem flitPart_coh (f : FlowId) (seq : BitVec 16) (a : Nat) (data : List Byte) (pub n : Nat) (s : State) (h0 : Coherent s) : Coherent (flitPart f seq a data pub n s) := by
  unfold flitPart
  try dsimp only
  repeat' first
      | with_reducible assumption
      | with_reducible apply farWrite_coh
      | with_reducible exact lit_coh (by with_reducible assumption) (by with_reducible rfl) (by with_reducible rfl)
      | intro _ _
      | split
      | (unfold Coherent; dsimp only; show Coherent _; first | with_reducible assumption | with_reducible apply farWrite_coh | split | with_reducible refine foldl_coh ?_ ?_)
theorem flitRill_coh (src a fmt op : Nat) (data : List Byte) (s : State) (h0 : Coherent s) : Coherent (flitRill src a fmt op data s) := by
  unfold flitRill
  try dsimp only
  repeat' first
      | with_reducible assumption
      | with_reducible apply foundG_coh
      | with_reducible apply pubBy_coh
      | split
theorem flitDo_coh (f : FlowId) (s : State) (x : BitVec 16 × FlitBody) (h0 : Coherent s) : Coherent (flitDo f s x) := by
  unfold flitDo
  try dsimp only
  repeat' first
      | with_reducible assumption
      | with_reducible apply farWrite_coh
      | with_reducible apply flitPart_coh
      | with_reducible apply flitRill_coh
      | with_reducible apply ackArrive_coh
      | with_reducible apply flitSample_coh
      | with_reducible apply mirrorArrive_coh
      | with_reducible exact lit_coh (by with_reducible assumption) (by with_reducible rfl) (by with_reducible rfl)
      | intro _ _
      | split
      | (unfold Coherent; dsimp only; show Coherent _; first | with_reducible assumption | with_reducible apply farWrite_coh | with_reducible apply flitPart_coh | with_reducible apply flitRill_coh | with_reducible apply ackArrive_coh | with_reducible apply flitSample_coh | with_reducible apply mirrorArrive_coh | split | with_reducible refine foldl_coh ?_ ?_)
theorem flitDrain_coh (f : FlowId) : ∀ (a0 : Nat) (s : State), Coherent s → Coherent (flitDrain f a0 s) := by
  intro a0
  induction a0 with
  | zero =>
    intro s h0
    unfold flitDrain
    try dsimp only
    repeat' first
      | with_reducible assumption
      | with_reducible apply setFlow_coh
      | with_reducible apply flitDo_coh
      | with_reducible apply ih
      | with_reducible exact lit_coh (by with_reducible assumption) (by with_reducible rfl) (by with_reducible rfl)
      | with_reducible refine pair_coh ?_ (by with_reducible assumption)
      | with_reducible refine next_coh ?_
      | with_reducible refine foldl_coh ?_ ?_
      | intro _ _ _
      | intro _ _
      | split
      | (show Coherent (id _) ; with_reducible exact id_coh ‹_›)
      | (unfold Coherent; dsimp only; show Coherent _; first | with_reducible assumption | with_reducible apply setFlow_coh | with_reducible apply flitDo_coh | with_reducible apply ih | split | with_reducible refine foldl_coh ?_ ?_)
  | succ n ih =>
    intro s h0
    unfold flitDrain
    try dsimp only
    repeat' first
      | with_reducible assumption
      | with_reducible apply setFlow_coh
      | with_reducible apply flitDo_coh
      | with_reducible apply ih
      | with_reducible exact lit_coh (by with_reducible assumption) (by with_reducible rfl) (by with_reducible rfl)
      | with_reducible refine pair_coh ?_ (by with_reducible assumption)
      | with_reducible refine next_coh ?_
      | with_reducible refine foldl_coh ?_ ?_
      | intro _ _ _
      | intro _ _
      | split
      | (show Coherent (id _) ; with_reducible exact id_coh ‹_›)
      | (unfold Coherent; dsimp only; show Coherent _; first | with_reducible assumption | with_reducible apply setFlow_coh | with_reducible apply flitDo_coh | with_reducible apply ih | split | with_reducible refine foldl_coh ?_ ?_)
theorem flitArrive_coh (f : FlowId) (seq : BitVec 16) (k : FlitBody) (s : State) (h0 : Coherent s) : Coherent (flitArrive f seq k s) := by
  unfold flitArrive
  try dsimp only
  repeat' first
      | with_reducible assumption
      | with_reducible apply flitDrain_coh
      | with_reducible apply setFlow_coh
      | split
theorem goneUnit_coh (kind : BitVec 3) (u : BitVec 16) (s : State) (h0 : Coherent s) : Coherent (goneUnit kind u s) := by
  unfold goneUnit
  try dsimp only
  repeat' first
      | with_reducible assumption
      | with_reducible exact lit_coh (by with_reducible assumption) (by with_reducible rfl) (by with_reducible rfl)
      | split
theorem goneCore_coh (c : CoreId) (s : State) (h0 : Coherent s) : Coherent (goneCore c s) := by
  unfold goneCore
  try dsimp only
  repeat' first
      | with_reducible assumption
      | with_reducible apply modCr_coh
      | with_reducible apply goneUnit_coh
      | split
theorem dueCores_coh (cs : List CoreId) (s : State) (h0 : Coherent s) : Coherent (dueCores cs s) := by
  unfold dueCores
  try dsimp only
  repeat' first
      | with_reducible assumption
      | with_reducible apply goneCore_coh
      | with_reducible refine foldl_coh ?_ ?_
      | intro _ _ _
      | split
theorem scrubCore_coh (c : CoreId) (keepW : Bool) (s : State) (h0 : Coherent s) : Coherent (scrubCore c keepW s) := by
  unfold scrubCore
  try dsimp only
  repeat' first
      | with_reducible assumption
      | with_reducible apply modCr_coh
      | split
theorem putRoot_coh (p : PartId) (a : Nat) (entry : Nat) (s : State) (h0 : Coherent s) : Coherent (putRoot p a entry s) := by
  unfold putRoot
  try dsimp only
  repeat' first
      | with_reducible assumption
      | with_reducible apply recPut_coh
      | split
theorem launchCore_coh (v : VfId) (p : PartId) (vec : List (BitVec 32)) (s : State) (x : CoreId × Nat) (h0 : Coherent s) : Coherent (launchCore v p vec s x) := by
  unfold launchCore
  try dsimp only
  repeat' first
      | with_reducible assumption
      | with_reducible apply modCr_coh
      | with_reducible apply putRoot_coh
      | with_reducible apply modPt_coh
      | with_reducible apply landL_coh
      | split
theorem launchGo_coh (v : VfId) (p : PartId) (vec : List (BitVec 32)) (gate : Bool) (s : State) (h0 : Coherent s) : Coherent (launchGo v p vec gate s) := by
  unfold launchGo
  try dsimp only
  repeat' first
      | with_reducible assumption
      | with_reducible apply kernelCheck_coh
      | with_reducible apply ackOk_coh
      | with_reducible apply refresh_coh
      | with_reducible apply launchCore_coh
      | with_reducible apply modPt_coh
      | with_reducible refine foldl_coh ?_ ?_
      | intro _ _ _
      | split
theorem launchTry_coh (v : VfId) (p : PartId) (vec : List (BitVec 32)) (gate : Bool) (s : State) (h0 : Coherent s) : Coherent (launchTry v p vec gate s) := by
  unfold launchTry
  try dsimp only
  repeat' first
      | with_reducible assumption
      | with_reducible apply nack_coh
      | with_reducible apply modCr_coh
      | with_reducible apply modPt_coh
      | with_reducible apply pageMiss_coh
      | with_reducible apply launchGo_coh
      | split
theorem launchStep_coh (v : VfId) (vec : List (BitVec 32)) (gate : Bool) (s : State) (h0 : Coherent s) : Coherent (launchStep v vec gate s) := by
  unfold launchStep
  try dsimp only
  repeat' first
      | with_reducible assumption
      | with_reducible apply nack_coh
      | with_reducible apply launchTry_coh
      | split
theorem packet_coh (v : VfId) (a : GAddr) (again : Bool) (s : State) (h0 : Coherent s) : Coherent (packet v a again s) := by
  unfold packet
  try dsimp only
  repeat' first
      | with_reducible assumption
      | with_reducible apply nack_coh
      | with_reducible apply spawnArrive_coh
      | with_reducible apply ackOk_coh
      | split
theorem tearDown_coh (p : PartId) (q : BitVec 6) (s : State) (h0 : Coherent s) : Coherent (tearDown p q s) := by
  unfold tearDown
  try dsimp only
  repeat' first
      | with_reducible assumption
      | with_reducible apply settle_coh
      | with_reducible apply stopTask_coh
      | with_reducible apply endTask_coh
      | with_reducible apply modPt_coh
      | with_reducible apply modQueue_coh
      | with_reducible refine foldl_coh ?_ ?_
      | intro _ _ _
      | split
theorem attestTry_coh (v : VfId) (p : PartId) (nonce : BitVec 256) (a : GAddr) (s : State) (h0 : Coherent s) : Coherent (attestTry v p nonce a s) := by
  unfold attestTry
  extract_lets b bs c0
  clear_value bs
  repeat' first
    | with_reducible assumption
    | with_reducible apply nack_coh
    | with_reducible apply ackOk_coh
    | with_reducible apply pubOther_coh
    | with_reducible apply modCr_coh
    | with_reducible apply modPt_coh
    | with_reducible apply pageMiss_coh
    | split
theorem windowAgain_coh (v : VfId) (s : State) (h0 : Coherent s) : Coherent (windowAgain v s) := by
  unfold windowAgain
  try dsimp only
  repeat' first
      | with_reducible assumption
      | with_reducible apply attestTry_coh
      | with_reducible apply modPt_coh
      | with_reducible apply launchTry_coh
      | split
theorem regIf_coh (ok : Bool) (f : State → State) (s : State) (h0 : Coherent s) (hf : ∀ s, Coherent s → Coherent (f s)) : Coherent (regIf ok f s) := by
  unfold regIf
  try dsimp only
  repeat' first
      | with_reducible assumption
      | with_reducible apply nack_coh
      | with_reducible apply ackOk_coh
      | with_reducible apply hf
      | split
theorem writeQcfg_coh (p : PartId) (q : BitVec 6) (x : W64) (s : State) (h0 : Coherent s) : Coherent (writeQcfg p q x s) := by
  unfold writeQcfg
  try dsimp only
  repeat' first
      | with_reducible assumption
      | with_reducible apply ackOk_coh
      | with_reducible apply modQueue_coh
      | with_reducible apply tearDown_coh
      | with_reducible apply nack_coh
      | split
theorem writeVf_coh (w : Writer) (v : VfId) (p : PartId) (r : WinReg) (x : W64) (s : State) (h0 : Coherent s) : Coherent (writeVf w v p r x s) := by
  unfold writeVf
  try dsimp only
  repeat' first
      | with_reducible assumption
      | with_reducible apply regIf_coh
      | with_reducible apply modVf_coh
      | with_reducible apply nack_coh
      | with_reducible apply writeQcfg_coh
      | intro _ _
      | split
theorem writeMgmt_coh (r : WinReg) (x : W64) (s : State) (h0 : Coherent s) : Coherent (writeMgmt r x s) := by
  unfold writeMgmt
  try dsimp only
  repeat' first
      | with_reducible assumption
      | with_reducible apply regIf_coh
      | with_reducible apply modVf_coh
      | with_reducible apply nack_coh
      | with_reducible exact lit_coh (by with_reducible assumption) (by with_reducible rfl) (by with_reducible rfl)
      | intro _ _
      | split
theorem firstRows_coh (k : Cmd) : ∀ (l : List (Nat × Row)) (n : Nat) (s : State), Coherent s → Coherent (firstRows k n l s)
  | [], _, _, h => by unfold firstRows; exact h
  | (key, x) :: l, n, s, h => by
    unfold firstRows
    split
    · exact h
    · split
      · exact firstRows_coh k l _ _ (landW_coh _ _ _ h)
      · split
        · exact h
        · exact modCr_coh _ _ _ h
theorem cutPublish_coh (k : Cmd) (ws : List (Nat × Byte)) (s : State) (h0 : Coherent s) : Coherent (cutPublish k ws s) := by
  unfold cutPublish
  try dsimp only
  repeat' first
      | with_reducible assumption
      | with_reducible apply forwardAll_coh
      | with_reducible apply addPub_coh
      | split
theorem cutShort_coh (k : Cmd) (s : State) (h0 : Coherent s) : Coherent (cutShort k s) := by
  unfold cutShort
  try dsimp only
  repeat' first
      | with_reducible assumption
      | with_reducible apply cutPublish_coh
      | with_reducible apply firstRows_coh
      | with_reducible apply landL_coh
      | with_reducible apply rillDo_coh
      | with_reducible refine foldl_coh ?_ ?_
      | intro _ _ _
      | split
theorem cancelCmd_coh (s : State) (k : Cmd) (h0 : Coherent s) : Coherent (cancelCmd s k) := by
  unfold cancelCmd
  try dsimp only
  repeat' first
      | with_reducible assumption
      | with_reducible apply endCmd_coh
      | with_reducible apply freeCtx_coh
      | with_reducible apply cutShort_coh
      | with_reducible apply addPub_coh
      | with_reducible exact lit_coh (by with_reducible assumption) (by with_reducible rfl) (by with_reducible rfl)
      | split
theorem cancelOf_coh (p : PartId) (f : Option Nat → Bool) (s : State) (h0 : Coherent s) : Coherent (cancelOf p f s) := by
  unfold cancelOf
  try dsimp only
  repeat' first
      | with_reducible assumption
      | with_reducible apply cancelCmd_coh
      | with_reducible refine foldl_coh ?_ ?_
      | intro _ _ _
      | split
theorem discardQueue_coh (p : PartId) (q : BitVec 6) (s : State) (h0 : Coherent s) : Coherent (discardQueue p q s) := by
  unfold discardQueue
  try dsimp only
  repeat' first
      | with_reducible assumption
      | with_reducible apply cancelOf_coh
      | with_reducible apply stopTask_coh
      | with_reducible apply endTask_coh
      | with_reducible refine foldl_coh ?_ ?_
      | intro _ _ _
      | split
theorem actChoice_coh (p : PartId) (s : State) (q : BitVec 6) (h0 : Coherent s) : Coherent (actChoice p s q) := by
  unfold actChoice
  try dsimp only
  repeat' first
      | with_reducible assumption
      | with_reducible apply ckptRest_coh
      | with_reducible apply discardQueue_coh
      | split
theorem evalAll_coh (p : PartId) (held : Bool) (s : State) (h0 : Coherent s) : Coherent (evalAll p held s) := by
  unfold evalAll
  try dsimp only
  repeat' first
      | with_reducible assumption
      | with_reducible apply actChoice_coh
      | with_reducible apply modPt_coh
      | with_reducible refine foldl_coh ?_ ?_
      | intro _ _ _
      | split
theorem cutAll_coh (p : PartId) (s : State) (h0 : Coherent s) : Coherent (cutAll p s) := by
  unfold cutAll
  try dsimp only
  repeat' first
      | with_reducible assumption
      | with_reducible apply cancelOf_coh
      | with_reducible apply endCmd_coh
      | with_reducible apply nack_coh
      | with_reducible apply modPt_coh
      | with_reducible apply drainSpawns_coh
      | with_reducible apply spawnArrive_coh
      | with_reducible apply modCmd_coh
      | with_reducible apply discardQueue_coh
      | with_reducible refine foldl_coh ?_ ?_
      | intro _ _ _
      | split
theorem endAcks_coh (p : PartId) (s : State) (h0 : Coherent s) : Coherent (endAcks p s) := by
  unfold endAcks
  try dsimp only
  repeat' first
      | with_reducible assumption
      | with_reducible apply endCmd_coh
      | with_reducible apply freeCtx_coh
      | with_reducible apply addPub_coh
      | with_reducible refine foldl_coh ?_ ?_
      | intro _ _ _
      | split
theorem hostChoice_coh (code : Nat) (ch : SChoice) (x : W64) (s : State) (h0 : Coherent s) : Coherent (hostChoice code ch x s) := by
  unfold hostChoice
  try dsimp only
  repeat' first
      | with_reducible assumption
      | with_reducible apply nack_coh
      | with_reducible apply ackOk_coh
      | with_reducible apply actChoice_coh
      | with_reducible apply modPt_coh
      | split
theorem lowerAllot_coh  : ∀ (a0 : Nat) (s : State), Coherent s → Coherent (lowerAllot  a0 s) := by
  intro a0
  induction a0 with
  | zero =>
    intro s h0
    unfold lowerAllot
    try dsimp only
    repeat' first
      | with_reducible assumption
      | with_reducible apply modPt_coh
      | with_reducible apply ih
      | with_reducible exact lit_coh (by with_reducible assumption) (by with_reducible rfl) (by with_reducible rfl)
      | with_reducible refine pair_coh ?_ (by with_reducible assumption)
      | with_reducible refine next_coh ?_
      | with_reducible refine foldl_coh ?_ ?_
      | intro _ _ _
      | intro _ _
      | split
      | (show Coherent (id _) ; with_reducible exact id_coh ‹_›)
      | (unfold Coherent; dsimp only; show Coherent _; first | with_reducible assumption | with_reducible apply modPt_coh | with_reducible apply ih | split | with_reducible refine foldl_coh ?_ ?_)
  | succ n ih =>
    intro s h0
    unfold lowerAllot
    try dsimp only
    repeat' first
      | with_reducible assumption
      | with_reducible apply modPt_coh
      | with_reducible apply ih
      | with_reducible exact lit_coh (by with_reducible assumption) (by with_reducible rfl) (by with_reducible rfl)
      | with_reducible refine pair_coh ?_ (by with_reducible assumption)
      | with_reducible refine next_coh ?_
      | with_reducible refine foldl_coh ?_ ?_
      | intro _ _ _
      | intro _ _
      | split
      | (show Coherent (id _) ; with_reducible exact id_coh ‹_›)
      | (unfold Coherent; dsimp only; show Coherent _; first | with_reducible assumption | with_reducible apply modPt_coh | with_reducible apply ih | split | with_reducible refine foldl_coh ?_ ?_)
theorem reportAllot_coh (old s : State) (h0 : Coherent s) : Coherent (reportAllot old s) := by
  unfold reportAllot
  try dsimp only
  repeat' first
      | with_reducible assumption
      | with_reducible apply raise_coh
      | with_reducible refine foldl_coh ?_ ?_
      | intro _ _ _
      | split
theorem makeDue_coh (kind : BitVec 3) (u : BitVec 16) (s : State) (h0 : Coherent s) : Coherent (makeDue kind u s) := by
  unfold makeDue
  try dsimp only
  repeat' first
      | with_reducible assumption
      | with_reducible apply setUnit_coh
      | split
theorem rillChannel_coh (u : BitVec 16) (s : State) (h0 : Coherent s) : Coherent (rillChannel u s) := by
  unfold rillChannel
  try dsimp only
  repeat' first
      | with_reducible assumption
      | with_reducible apply raise_coh
      | with_reducible apply makeDue_coh
      | split
theorem retireUnit_coh (kind : BitVec 3) (u : BitVec 16) (s : State) (h0 : Coherent s) : Coherent (retireUnit kind u s) := by
  unfold retireUnit
  try dsimp only
  repeat' first
      | with_reducible assumption
      | with_reducible apply goneCore_coh
      | with_reducible apply dueCols_coh
      | with_reducible apply dueCores_coh
      | with_reducible apply rillChannel_coh
      | with_reducible apply goneUnit_coh
      | with_reducible apply reportAllot_coh
      | with_reducible apply lowerAllot_coh
      | split
theorem settleUnit_coh (kind : BitVec 3) (u : BitVec 16) (s : State) (h0 : Coherent s) : Coherent (settleUnit kind u s) := by
  unfold settleUnit
  try dsimp only
  repeat' first
      | with_reducible assumption
      | with_reducible apply raise_coh
      | with_reducible apply retireUnit_coh
      | split
theorem countError_coh (kind : BitVec 3) (u : BitVec 16) (s : State) (h0 : Coherent s) : Coherent (countError kind u s) := by
  unfold countError
  try dsimp only
  repeat' first
      | with_reducible assumption
      | with_reducible apply bumpUnit_coh
      | with_reducible apply settleUnit_coh
      | with_reducible apply raise_coh
      | split
theorem windowEnds_coh (kind : BitVec 3) (u : BitVec 16) (s : State) (h0 : Coherent s) : Coherent (windowEnds kind u s) := by
  unfold windowEnds
  try dsimp only
  repeat' first
      | with_reducible assumption
      | with_reducible apply setUnit_coh
      | with_reducible apply settleUnit_coh
      | split
theorem shrinkStack_coh (u : BitVec 16) (s : State) (h0 : Coherent s) : Coherent (shrinkStack u s) := by
  unfold shrinkStack
  try dsimp only
  repeat' first
      | with_reducible assumption
      | with_reducible exact lit_coh (by with_reducible assumption) (by with_reducible rfl) (by with_reducible rfl)
      | split
theorem declareMirror_coh (m : Mirror) (s : State) (h0 : Coherent s) : Coherent (declareMirror m s) := by
  unfold declareMirror
  try dsimp only
  repeat' first
      | with_reducible assumption
      | with_reducible apply sendFlit_coh
      | split
theorem promotePan_coh (p : PartId) (s : State) (k : PanCopy) (h0 : Coherent s) : Coherent (promotePan p s k) := by
  unfold promotePan
  try dsimp only
  repeat' first
      | with_reducible assumption
      | with_reducible exact lit_coh (by with_reducible assumption) (by with_reducible rfl) (by with_reducible rfl)
      | split
theorem scrubStores_coh (s : State) : Coherent (scrubStores s) := by unfold scrubStores; exact addPub_coh _ _ _ _ _ rfl
theorem resetState_coh (s : State) (h0 : Coherent s) : Coherent (resetState s) := lit_coh (scrubStores_coh s) rfl rfl
theorem runFw_coh (f : Firmware) (s : State) (h0 : Coherent s) : Coherent (runFw f s) := by
  unfold runFw
  try dsimp only
  repeat' first
      | with_reducible assumption
      | with_reducible exact lit_coh (by with_reducible assumption) (by with_reducible rfl) (by with_reducible rfl)
      | split
theorem failFw_coh (code : BitVec 8) (s : State) (h0 : Coherent s) : Coherent (failFw code s) := by
  unfold failFw
  try dsimp only
  repeat' first
      | with_reducible assumption
      | with_reducible exact lit_coh (by with_reducible assumption) (by with_reducible rfl) (by with_reducible rfl)
      | split
theorem applyRetirements_coh (s : State) (h0 : Coherent s) : Coherent (applyRetirements s) := by
  unfold applyRetirements
  try dsimp only
  repeat' first
      | with_reducible assumption
      | with_reducible apply retireUnit_coh
      | with_reducible refine foldl_coh ?_ ?_
      | intro _ _ _
      | split
theorem atSlot_coh (n : Nat) (s : State) (h0 : Coherent s) : Coherent (atSlot n s) := by
  unfold atSlot
  try dsimp only
  repeat' first
      | with_reducible assumption
      | with_reducible exact lit_coh (by with_reducible assumption) (by with_reducible rfl) (by with_reducible rfl)
      | split
theorem strike_coh (s : State) (k : Strike) (h0 : Coherent s) : Coherent (strike s k) := by
  unfold strike
  split
  · exact h0
  · exact modCr_coh _ _ _ h0
  · exact modCr_coh _ _ _ h0
  · split
    · exact h0
    · exact pubOther_coh _ _ h0
  · exact modCr_coh _ _ _ h0
  · exact countError_coh _ _ _ h0
theorem elapse_coh (dt dus : Nat) (s : State) (h0 : Coherent s) : Coherent (elapse dt dus s) := by
  unfold elapse
  try dsimp only
  repeat' first
      | with_reducible assumption
      | with_reducible exact lit_coh (by with_reducible assumption) (by with_reducible rfl) (by with_reducible rfl)
      | split
theorem turnState_coh (t : Turn) (rest : List Turn) (s : State) (h0 : Coherent s) : Coherent (turnState t rest s) := by
  unfold turnState
  try dsimp only
  repeat' first
      | with_reducible assumption
      | with_reducible apply strike_coh
      | with_reducible apply elapse_coh
      | with_reducible exact lit_coh (by with_reducible assumption) (by with_reducible rfl) (by with_reducible rfl)
      | with_reducible refine foldl_coh ?_ ?_
      | intro _ _ _
      | split
theorem tick_coh (s : State) (h0 : Coherent s) : Coherent (tick s) := by
  unfold tick
  try dsimp only
  repeat' first
      | with_reducible assumption
      | with_reducible apply shiftGangs_coh
      | intro _ _
      | split
      | (unfold Coherent; dsimp only; show Coherent _; first | with_reducible assumption | with_reducible apply shiftGangs_coh | split | with_reducible refine foldl_coh ?_ ?_)

end Sys2Proof.Machine
end

