-- ==== Sys2Proof/Laws/Commands.lean ====
section
/-! SUPPORT. What engine commands, footprints, groups and pan configurations leave (R232 to R259). -/
namespace Sys2Proof.Machine

theorem inL_ok {a n : Nat} (h : a + n ≤ 8388608) : inL (a : Int) n = true := by
  unfold inL lTop
  simp only [Bool.and_eq_true, decide_eq_true_eq]
  omega
theorem commits {i : Instr} {s : State} (h : Ready i s) : CommitsOnly s (runSlot i none false id s) := by
  rw [runSlot_go h, CommitsOnly, nextSlot_act (by exact h.1)]; rfl
theorem flat2_get (f : Nat → List Byte) (hf : ∀ n, (f n).length = 2) : ∀ N n k, n < N → k < 2 → ((upto N).flatMap f).getD (2 * n + k) 0 = (f n).getD k 0 := by
  have hlen : ∀ N, ((upto N).flatMap f).length = 2 * N := by
    intro N; induction N with
    | zero => rfl
    | succ N ih => simp only [upto, List.flatMap_append, List.length_append, ih]; simp [hf]; omega
  intro N
  induction N with
  | zero => intro n k h; omega
  | succ N ih =>
    intro n k hn hk
    simp only [upto, List.flatMap_append]
    by_cases h : n < N
    · rw [List.getD_append _ _ _ _ (by rw [hlen]; omega)]
      exact ih n k h hk
    · have : n = N := by omega
      subst this
      rw [List.getD_append_right _ _ _ _ (by rw [hlen]; omega), hlen, show 2 * n + k - 2 * n = k by omega]
      simp
theorem flat2_len (f : Nat → List Byte) (hf : ∀ n, (f n).length = 2) : ∀ N, ((upto N).flatMap f).length = 2 * N := by
    intro N; induction N with
    | zero => rfl
    | succ N ih => simp only [upto, List.flatMap_append, List.length_append, ih]; simp [hf]; omega
theorem tileT_len (x : BitVec 16384) : (tileT x).length = 2048 := flat2_len _ (fun _ => bytesOf_len _ _) 1024
theorem tileT_get (x : BitVec 16384) (i j k : Nat) (hi : i < 32) (hj : j < 32) (hk : k < 2) :
    (tileT x).getD (2 * (32 * j + i) + k) 0 = BitVec.ofNat 8 (tileEl x i j / 256 ^ k) := by
  unfold tileT
  rw [flat2_get _ (fun _ => bytesOf_len _ _) 1024 (32 * j + i) k (by omega) hk, bytesOf_get _ _ _ hk]
  rw [show (32 * j + i) % 32 = i by omega, show (32 * j + i) / 32 = j by omega]
theorem fold_unlock (c : CoreId) : ∀ (l : List CoreId) (s : State),
    (l.foldl (fun s d => modCr s d unlock) s).iss = s.iss ∧ (∃ lk fo, cr (l.foldl (fun s d => modCr s d unlock) s) c = { cr s c with lock := lk, follow := fo }) ∧
    (∀ d, partOf (l.foldl (fun s d => modCr s d unlock) s) d = partOf s d)
  | [], s => ⟨rfl, ⟨_, _, rfl⟩, fun _ => rfl⟩
  | d :: r, s => by
    obtain ⟨h1, ⟨lk, fo, h2⟩, h3⟩ := fold_unlock c r (modCr s d unlock)
    refine ⟨h1, ?_, h3⟩
    simp only [List.foldl_cons]
    rw [h2, cr_modCr]
    split
    · next h =>
      subst h
      unfold unlock
      split
      · exact ⟨lk, fo, rfl⟩
      · exact ⟨lk, fo, rfl⟩
    · exact ⟨lk, fo, rfl⟩
/-- Writes of the module's own hardware change no core, no open bundle and no region (R218, R227). -/
theorem pubBy_law (a : Agent) (s : State) (ws : List (Nat × Byte)) :
    (pubBy a s ws).cores = s.cores ∧ (pubBy a s ws).iss = s.iss ∧ (pubBy a s ws).regions = s.regions := by
  unfold pubBy
  obtain ⟨_, _, _, _, h⟩ := forwardAll_law a 0 ws (addPub s a (BitVec.allOnes 64) 0 ws)
  rw [h]
  exact ⟨rfl, rfl, rfl⟩
theorem poke_core (s : State) (loc n x : Nat) : (poke s loc n x).cores = s.cores ∧ (poke s loc n x).iss = s.iss :=
  ⟨(pubBy_law _ _ _).1, (pubBy_law _ _ _).2.1⟩
theorem cr_of_cores {s t : State} (h : t.cores = s.cores) (c : CoreId) : cr t c = cr s c := by unfold cr; rw [h]
/-- A write of Delta, made or waiting, changes no core and no open bundle (R356). -/
theorem latePut_core (p : PartId) (w : LateW) (s : State) : (latePut p w s).cores = s.cores ∧ (latePut p w s).iss = s.iss := by
  unfold latePut
  simp only
  split
  · exact ⟨rfl, rfl⟩
  · split
    · split
      · exact ⟨(foundG_walks _ s).cores, (foundG_walks _ s).iss⟩
      · exact poke_core _ _ _ _
    · next ipa tbl lvl _ => exact ⟨(pageMiss_walks s 0 p ipa w.va tbl lvl true).cores, (pageMiss_walks s 0 p ipa w.va tbl lvl true).iss⟩
    · exact ⟨rfl, rfl⟩
theorem recPut_core (p : PartId) (r off lo n x : Nat) (s : State) : (recPut p r off lo n x s).cores = s.cores ∧ (recPut p r off lo n x s).iss = s.iss :=
  latePut_core _ _ _
theorem grpCores_not (s : State) (p : PartId) (g : Nat) (c : CoreId) (h : (cr s c).group = none) : c ∉ grpCores s p g := by
  unfold grpCores
  simp [h]
theorem releaseAll_core (c : CoreId) (g : Nat) (en : Bool) : ∀ (l : List CoreId) (s : State), c ∉ l →
    cr (l.foldl (releaseMember g en) s) c = cr s c ∧ (l.foldl (releaseMember g en) s).iss = s.iss
  | [], s, _ => ⟨rfl, rfl⟩
  | d :: r, s, hd => by
    simp only [List.mem_cons, not_or] at hd
    obtain ⟨i1, i2⟩ := releaseAll_core c g en r (releaseMember g en s d) hd.2
    simp only [List.foldl_cons]
    refine ⟨i1.trans ?_, i2.trans rfl⟩
    unfold releaseMember
    rw [cr_modCr_ne _ (Ne.symm hd.1)]
    unfold refresh
    exact cr_modCr_ne _ (Ne.symm hd.1) _
theorem poke_cr (s : State) (loc n x : Nat) (c : CoreId) : cr (poke s loc n x) c = cr s c := by unfold cr; rw [(poke_core s loc n x).1]
theorem barrier_core (c : CoreId) (p : PartId) (g loc : Nat) (s : State) (h : (cr s c).group = none) :
    cr (barrierCheck p g loc s) c = cr s c ∧ (barrierCheck p g loc s).iss = s.iss := by
  unfold barrierCheck
  extract_lets w mem arr cs enters
  split
  · have := releaseAll_core c g enters (grpCores s p g) (poke s loc 8 (mem + ((bits w 32 32 + 1) % 2 ^ 32) * 2 ^ 32)) (grpCores_not _ _ _ _ h)
    rw [poke_cr, (poke_core s loc 8 _).2] at this
    exact this
  · exact ⟨rfl, rfl⟩
theorem leave_law (s : State) (c : CoreId) (g : Nat) (hg : (cr s c).group = some g) (hp : (partOf s c).isSome = true) :
    (leaveGroup c s).iss = s.iss ∧ ∃ fo, cr (leaveGroup c s) c = { cr s c with group := none, member := 0, lock := false, follow := fo } := by
  obtain ⟨p, hp⟩ := Option.isSome_iff_exists.1 hp
  unfold leaveGroup
  rw [hg, hp]
  simp only
  generalize hs1 : (if (s.iss.act && decide (s.iss.core = c) && !s.iss.mates.isEmpty) = true then s else (grpCores s p g).foldl (fun s d => modCr s d unlock) s) = s1
  have h1 : s1.iss = s.iss ∧ ∃ lk fo, cr s1 c = { cr s c with lock := lk, follow := fo } := by
    rw [← hs1]
    split
    · exact ⟨rfl, _, _, rfl⟩
    · obtain ⟨a, b, _⟩ := fold_unlock c (grpCores s p g) s
      exact ⟨a, b⟩
  obtain ⟨h1, lk, fo, h2⟩ := h1
  generalize hs2 : recPut p (cr (modCr s1 c (fun k => { k with group := none, member := 0, lock := false })) c).rec_ 0x18 48 16 0xFFFF (recPut p (cr (modCr s1 c (fun k => { k with group := none, member := 0, lock := false })) c).rec_ 0x18 44 4 0 (modCr s1 c (fun k => { k with group := none, member := 0, lock := false }))) = s2
  have h3 : s2.cores = (modCr s1 c (fun k => { k with group := none, member := 0, lock := false })).cores ∧ s2.iss = s1.iss := by
    rw [← hs2]
    exact ⟨(recPut_core _ _ _ _ _ _ _).1.trans (recPut_core _ _ _ _ _ _ _).1, (recPut_core _ _ _ _ _ _ _).2.trans (recPut_core _ _ _ _ _ _ _).2⟩
  have h4 : cr s2 c = { cr s c with group := none, member := 0, lock := false, follow := fo } := by
    have : cr s2 c = cr (modCr s1 c (fun k => { k with group := none, member := 0, lock := false })) c := by unfold cr; rw [h3.1]
    rw [this, cr_modCr_same, h2]
  split
  · next loc hl =>
    refine ⟨(barrier_core c p g loc (poke s2 loc 8 _) (by rw [poke_cr, h4])).2.trans ((poke_core _ _ _ _).2.trans (h3.2.trans h1)), fo,
      (barrier_core c p g loc (poke s2 loc 8 _) (by rw [poke_cr, h4])).1.trans ((poke_cr _ _ _ _ _).trans h4)⟩
  · have l1 := latePut_core p ⟨g, (cr s c).member.toNat, 1, 0, none⟩ s2
    have l2 := latePut_core p ⟨g, 16 + (cr s c).member.toNat, 1, 0, none⟩ (latePut p ⟨g, (cr s c).member.toNat, 1, 0, none⟩ s2)
    refine ⟨l2.2.trans (l1.2.trans (h3.2.trans h1)), fo, ?_⟩
    exact (cr_of_cores (l2.1.trans l1.1) c).trans h4
  · exact ⟨h3.2.trans h1, fo, h4⟩
theorem newCmd_law (s : State) (op : Nat) (j : BitVec 4) (b : BitVec 512) (h : cmdRanges op b = []) :
    (newCmd op j b none s).regions = s.regions ∧ (newCmd op j b none s).iss = s.iss ∧
    me (newCmd op j b none s) = (me s).setJ j ⟨.pending, s.nextId, 0, false, false, 0⟩ := by
  have hk : newCmd op j b none s = modMe { s with cmds := s.cmds ++ [⟨s.nextId, s.iss.core, myPart s, op, some j, b, false, cmdIncl s s.iss.core, some (me s).rec_, 0, s.us, [], none, [], [], [], none⟩], nextId := s.nextId + 1 }
      (fun x => { x.setJ j ⟨.pending, s.nextId, 0, false, false, 0⟩ with ranges := x.ranges ++ [] }) := by
    unfold newCmd
    simp only [h, List.map_nil]
  refine ⟨by rw [hk]; rfl, by rw [hk]; rfl, ?_⟩
  rw [hk, me_modMe]
  simp only [List.append_nil]
  rfl
theorem pend_j (s : State) (k : Core) (j : BitVec 4) (n : Nat) (t : State) (f : Core → Core) (hj : ∀ k : Core, (f k).j = k.j) (hm : me t = f (k.setJ j ⟨.pending, n, 0, false, false, 0⟩)) :
    jOf t j = ⟨.pending, n, 0, false, false, 0⟩ := by
  unfold jOf; rw [hm, hj]; unfold Core.setJ; simp
theorem pan_ok {s : State} {a : Nat} (hf : pancfgFault s a = none) (hs : pancfgStall s a = false) (hr : (panDesc (panBlock s a)).rel = false) :
    ∃ locs, pagesGo s (panPages (panDesc (panBlock s a)).base (panDesc (panBlock s a)).size) [] = .ok locs := by
  unfold pancfgStall at hs
  simp only [Bool.or_eq_false_iff, Bool.and_eq_false_iff, hr, Bool.not_false, Bool.true_eq_false, false_or] at hs
  obtain ⟨_, hs⟩ := hs
  unfold pancfgFault at hf
  simp only [hr] at hf
  cases hp : pagesGo s (panPages (panDesc (panBlock s a)).base (panDesc (panBlock s a)).size) [] with
  | ok l => exact ⟨l, rfl⟩
  | ask _ _ _ _ => rw [hp] at hs; simp at hs
  | bad =>
    rw [hp] at hf
    exfalso
    revert hf
    repeat' split
    all_goals simp_all
theorem dropFlag_law (r : Region) (s : State) : (dropFlag r s).cores = s.cores ∧ (dropFlag r s).iss = s.iss ∧ (dropFlag r s).regions = s.regions := by
  unfold dropFlag; split <;> exact ⟨rfl, rfl, rfl⟩
theorem pubOther_law (s : State) (ws : List (Nat × Byte)) : (pubOther s ws).cores = s.cores ∧ (pubOther s ws).iss = s.iss ∧ (pubOther s ws).regions = s.regions := pubBy_law _ s ws
theorem pubPan_law (s : State) (ws : List (Nat × Byte)) : (pubPan s ws).cores = s.cores ∧ (pubPan s ws).iss = s.iss ∧ (pubPan s ws).regions = s.regions := ⟨rfl, rfl, rfl⟩
theorem panConfig_law (s : State) (a : Nat) (locs : List (Nat × Nat)) (hp : pagesGo s (panPages (panDesc (panBlock s a)).base (panDesc (panBlock s a)).size) [] = .ok locs) :
    ∃ r, (panConfig a s).cores = s.cores ∧ (panConfig a s).iss = s.iss ∧ r ∈ (panConfig a s).regions ∧ (∀ x ∈ (panConfig a s).regions, x = r ∨ x ∈ s.regions) ∧
      r.part = myPart s ∧ r.base = (panDesc (panBlock s a)).base ∧ r.desc = panBlock s a ∧ r.n = 0 ∧ r.ticks = [] ∧
      r.membs = List.replicate (panDesc (panBlock s a)).nmem (newMemb (panDesc (panBlock s a))) := by
  unfold panConfig
  simp only [hp]
  generalize hr : freshRegion s (panBlock s a) locs _ = r
  obtain ⟨p1, p2, p3⟩ := pubPan_law (mirrorConfig r (placeRegion r (endOld (panDesc (panBlock s a)).base s))) (regionWrites r)
  have m : ∀ x : State, (mirrorConfig r x).cores = x.cores ∧ (mirrorConfig r x).iss = x.iss ∧ (mirrorConfig r x).regions = x.regions := by
    intro x; unfold mirrorConfig; split <;> exact ⟨rfl, rfl, rfl⟩
  have e : (endOld (panDesc (panBlock s a)).base s).cores = s.cores ∧ (endOld (panDesc (panBlock s a)).base s).iss = s.iss ∧ (endOld (panDesc (panBlock s a)).base s).regions = s.regions := by
    unfold endOld; split
    · exact dropFlag_law _ s
    · exact ⟨rfl, rfl, rfl⟩
  obtain ⟨m1, m2, m3⟩ := m (placeRegion r (endOld (panDesc (panBlock s a)).base s))
  have q3 : (placeRegion r (endOld (panDesc (panBlock s a)).base s)).regions = s.regions.filter (fun x => x.id ≠ r.id) ++ [r] := by
    unfold placeRegion; rw [e.2.2]
  refine ⟨r, p1.trans (m1.trans e.1), p2.trans (m2.trans e.2.1), ?_, ?_, ?_⟩
  · rw [p3, m3, q3]; simp
  · intro y hy
    rw [p3, m3, q3] at hy
    simp only [List.mem_append, List.mem_filter, List.mem_singleton] at hy
    rcases hy with ⟨hy, _⟩ | hy
    · exact .inr hy
    · exact .inl hy
  · rw [← hr]; exact ⟨rfl, rfl, rfl, rfl, rfl, rfl⟩

end Sys2Proof.Machine
end

