-- ==== Sys2Proof/Laws/Digits.lean ====
section
/-! SUPPORT. Words as pieces: what a field of a packed word reads (R1). The round trips of the encoder cite these. -/
namespace Sys2Proof.Laws

/-- A field is the digit of its place (R1). -/
theorem fld_of {n : Nat} {w lo : Nat} {x : BitVec n} (h : w / 2 ^ lo % 2 ^ n = x.toNat) : fld w lo n = x := by
  apply BitVec.eq_of_toNat_eq
  simp [fld, h]
/-- A flag is the digit of its place (R1). -/
theorem bit_of {w lo : Nat} {b : Bool} (h : w / 2 ^ lo % 2 ^ 1 = b.toNat) : bitAt w lo = b := by
  have h : w / 2 ^ lo % 2 = b.toNat := h
  unfold bitAt; rw [h]; cases b <;> rfl
/-- A word from its pieces of given widths, the lowest first. -/
def pack : List (Nat × Nat) → Nat
  | [] => 0
  | (n, v) :: r => v + 2 ^ n * pack r
/-- Each piece fits its width. -/
def Fits : List (Nat × Nat) → Prop
  | [] => True
  | (n, v) :: r => v < 2 ^ n ∧ Fits r
/-- The lowest bit of piece i. -/
def lowOf : List (Nat × Nat) → Nat → Nat
  | (n, _) :: r, i + 1 => n + lowOf r i
  | _, _ => 0
/-- The width of piece i. -/
def widOf : List (Nat × Nat) → Nat → Nat
  | (_, _) :: r, i + 1 => widOf r i
  | (n, _) :: _, 0 => n
  | [], _ => 0
/-- The value of piece i. -/
def valOf : List (Nat × Nat) → Nat → Nat
  | (_, _) :: r, i + 1 => valOf r i
  | (_, v) :: _, 0 => v
  | [], _ => 0
/-- A piece is read back from the packed word. -/
theorem pack_digit : ∀ (l : List (Nat × Nat)) (i : Nat), Fits l → pack l / 2 ^ lowOf l i % 2 ^ widOf l i = valOf l i
  | [], i, _ => by simp [pack, lowOf, widOf, valOf]
  | (n, v) :: r, 0, h => by
    simp only [pack, lowOf, widOf, valOf, Nat.pow_zero, Nat.div_one, Nat.add_mul_mod_self_left]
    exact Nat.mod_eq_of_lt h.1
  | (n, v) :: r, i + 1, h => by
    simp only [pack, lowOf, widOf, valOf]
    rw [Nat.pow_add, ← Nat.div_div_eq_div_mul, Nat.add_mul_div_left _ _ (Nat.two_pow_pos n), Nat.div_eq_of_lt h.1, Nat.zero_add]
    exact pack_digit r i h.2
/-- A piece is read back from a word that equals the packed one. -/
theorem digit_at {w : Nat} {l : List (Nat × Nat)} (L : w = pack l) (F : Fits l) (i : Nat) :
    w / 2 ^ lowOf l i % 2 ^ widOf l i = valOf l i := L ▸ pack_digit l i F
/-- A flag fits one bit. -/
theorem bool_fits (b : Bool) : b.toNat < 2 ^ 1 := by cases b <;> decide

end Sys2Proof.Laws
end

