-- ==== Sys2Proof/Laws/Elements.lean ====
section
/-! SUPPORT. Elements, tags and scales of vector registers (R117 to R179). -/
namespace Sys2Proof.Machine

theorem getLsbD_toNat (a : W64) (i : Nat) : a.getLsbD i = a.toNat.testBit i := rfl
theorem MergesV.to {s : State} {out : Out} {d : BitVec 6} {t : Tag} {m : BitVec 3} {f g : Nat → Rounded} (h : MergesV s out d t m f) (e : ∀ n, f n = g n) :
    MergesV s out d t m g := (funext e : f = g) ▸ h
theorem tags2 {s : State} {t : Tag} {a b : BitVec 6} (h1 : (srcV s a).tag = t) (h2 : (srcV s b).tag = t) : tagsAre s t [a, b] = none := by
  simp [tagsAre, h1, h2]
theorem tags1 {s : State} {t : Tag} {a : BitVec 6} (h1 : (srcV s a).tag = t) : tagsAre s t [a] = none := by
  simp [tagsAre, h1]
theorem tags3 {s : State} {t : Tag} {a b d : BitVec 6} (h1 : (srcV s a).tag = t) (h2 : (srcV s b).tag = t) (h3 : (srcV s d).tag = t) : tagsAre s t [a, b, d] = none := by
  simp [tagsAre, h1, h2, h3]
theorem scale_eq (f : Fmt) (md : Rnd) (k : BitVec 8) (x : FV) : ({ f.rnd md (scaleVal k.toNat x) with inv := k.toNat == 255 } : Rounded) =
    if k = 255 then { Rounded.exact f.nanCode with inv := true } else f.rnd md (x.scale ((k.toNat : Int) - 127)) := by
  by_cases hk : k = 255
  · subst hk; rfl
  · have : k.toNat ≠ 255 := fun e => hk (BitVec.eq_of_toNat_eq e)
    have hb : (k.toNat == 255) = false := by simp [this]
    rw [if_neg hk, scaleVal, if_neg this, hb]
    cases x <;> simp [FV.scale, Fmt.rnd, Rounded.exact, Fmt.round]
    split <;> rfl
theorem setIss_only {s u : State} {w : List RegId} (h : s.iss.act = true) (ho : OnlyCore s u) (hi : u.iss = { s.iss with wrote := w }) :
    OnlyCore s (nextSlot u) ∧ SlotDone s (nextSlot u) ∧ me (nextSlot u) = me u := by
  have ha : u.iss.act = true := by rw [hi]; exact h
  rw [nextSlot_act ha]
  have hm : me { u with iss := { u.iss with slot := u.iss.slot + 1 } } = me u := rfl
  refine ⟨?_, ?_, rfl⟩
  · unfold OnlyCore at ho ⊢
    rw [hm]
    exact congrArg (fun x : State => { x with iss := { u.iss with slot := u.iss.slot + 1 } }) ho
  · show ({ u.iss with slot := u.iss.slot + 1 } : Issue) = _
    rw [hi]
theorem mk_fields (a b c d : Nat) (ha : a < 2 ^ 8) (hb : b < 2 ^ 24) (hc : c < 2 ^ 16) (hd : d < 2 ^ 16) :
    let y := w64 (a + b * 2 ^ 8 + c * 2 ^ 32 + d * 2 ^ 48)
    (y.setWidth 8).toNat = a ∧ ((y >>> 8).setWidth 24).toNat = b ∧ ((y >>> 32).setWidth 16).toNat = c ∧ ((y >>> 48).setWidth 16).toNat = d := by
  intro y
  have hy : y.toNat = a + b * 2 ^ 8 + c * 2 ^ 32 + d * 2 ^ 48 := by
    simp only [y, w64, BitVec.toNat_ofNat]; omega
  simp only [BitVec.toNat_setWidth, BitVec.toNat_ushiftRight, Nat.shiftRight_eq_div_pow, hy]
  omega
theorem ls_step (c : Bool) (l : W64) (f : BitVec 7) :
    ((lsStep c l f).2 &&& ~~~fCHK).getLsbD 4 = false ∧ ((lsStep c l f).2 &&& ~~~fCHK).getLsbD 6 = c ∧
      (∀ i, i < 4 → ((lsStep c l f).2 &&& ~~~fCHK).getLsbD i = f.getLsbD i) ∧
      let x := l
      let y := (lsStep c l f).1
      let e := (x.setWidth 8).toInt
      let lo := ((x >>> 8).setWidth 8).toInt
      let hi := ((x >>> 16).setWidth 8).toInt
      let n := ((x >>> 24).setWidth 8).toNat
      let clean := ((x >>> 32).setWidth 16).toNat
      let floor := ((x >>> 48).setWidth 16).toNat
      (y >>> 8).setWidth 24 = (x >>> 8).setWidth 24 ∧
      (c = true → (y >>> 32).setWidth 16 = 0 ∧
        (lo < e → y.setWidth 8 = x.setWidth 8 - 1 ∧ (y >>> 48).setWidth 16 = (x >>> 48).setWidth 16 ∧
          ((lsStep c l f).2 &&& ~~~fCHK).getLsbD 5 = f.getLsbD 5) ∧
        (e ≤ lo → y.setWidth 8 = x.setWidth 8 ∧ ((y >>> 48).setWidth 16).toNat = min (floor + 1) 65535 ∧ ((lsStep c l f).2 &&& ~~~fCHK).getLsbD 5 = true)) ∧
      (c = false → (y >>> 48).setWidth 16 = (x >>> 48).setWidth 16 ∧ ((lsStep c l f).2 &&& ~~~fCHK).getLsbD 5 = f.getLsbD 5 ∧
        (n ≠ 0 → n ≤ min (clean + 1) 65535 → e < hi → y.setWidth 8 = x.setWidth 8 + 1 ∧ (y >>> 32).setWidth 16 = 0) ∧
        (n = 0 ∨ min (clean + 1) 65535 < n ∨ hi ≤ e → y.setWidth 8 = x.setWidth 8 ∧
          ((y >>> 32).setWidth 16).toNat = min (clean + 1) 65535)) := by
  have e0 : sInt 8 (bits l.toNat 0 8) = (l.setWidth 8).toInt := by
    rw [← l_fields l 0 8, sInt_toNat (by decide)]; simp
  have e1 : sInt 8 (bits l.toNat 8 8) = ((l >>> 8).setWidth 8).toInt := by rw [← l_fields l 8 8, sInt_toNat (by decide)]
  have e2 : sInt 8 (bits l.toNat 16 8) = ((l >>> 16).setWidth 8).toInt := by rw [← l_fields l 16 8, sInt_toNat (by decide)]
  have e3 : bits l.toNat 24 8 = ((l >>> 24).setWidth 8).toNat := (l_fields l 24 8).symm
  have e4 : bits l.toNat 32 16 = ((l >>> 32).setWidth 16).toNat := (l_fields l 32 16).symm
  have e5 : bits l.toNat 48 16 = ((l >>> 48).setWidth 16).toNat := (l_fields l 48 16).symm
  have e6 : bits l.toNat 8 24 = ((l >>> 8).setWidth 24).toNat := (l_fields l 8 24).symm
  have b24 := ((l >>> 8).setWidth 24).isLt
  have b4 := ((l >>> 32).setWidth 16).isLt
  have b5 := ((l >>> 48).setWidth 16).isLt
  have ub : ∀ x : Int, uInt 8 x < 2 ^ 8 := by
    intro x; rw [uInt_eq]; exact (BitVec.ofInt 8 x).isLt
  have ubv : ∀ (x : Int) (v : BitVec 8) (k : Int), v.toInt + k = x → uInt 8 x = (v + BitVec.ofInt 8 k).toNat := by
    rintro x v k rfl
    rw [uInt_eq, BitVec.ofInt_add, BitVec.ofInt_toInt]
  unfold lsStep
  simp only [e0, e1, e2, e3, e4, e5, e6]
  cases c
  · simp only [Bool.false_eq_true, if_false, false_implies, true_and]
    by_cases hc : (((l >>> 24).setWidth 8).toNat ≠ 0 && decide (((l >>> 24).setWidth 8).toNat ≤ min (((l >>> 32).setWidth 16).toNat + 1) 65535) && decide ((l.setWidth 8).toInt < ((l >>> 16).setWidth 8).toInt)) = true
    · rw [if_pos hc]
      obtain ⟨m1, m2, m3, m4⟩ := mk_fields (uInt 8 ((l.setWidth 8).toInt + 1)) ((l >>> 8).setWidth 24).toNat 0 ((l >>> 48).setWidth 16).toNat (ub _) b24 (by decide) b5
      simp only [Bool.and_eq_true, decide_eq_true_eq] at hc
      refine ⟨?_, ?_, ?_, BitVec.eq_of_toNat_eq m2, fun _ => ⟨BitVec.eq_of_toNat_eq m4, ?_, fun _ _ _ => ⟨?_, BitVec.eq_of_toNat_eq m3⟩, fun hx => ?_⟩⟩
      · revert f; decide
      · revert f; decide
      · revert f; decide
      · revert f; decide
      · apply BitVec.eq_of_toNat_eq; rw [m1, ubv _ (l.setWidth 8) 1 rfl]; rfl
      · rcases hx with h | h | h
        · exact absurd h hc.1.1
        · exact absurd hc.1.2 (Nat.not_le.2 h)
        · exact absurd hc.2 (Int.not_lt.2 h)
    · rw [if_neg hc]
      obtain ⟨m1, m2, m3, m4⟩ := mk_fields (uInt 8 ((l.setWidth 8).toInt)) ((l >>> 8).setWidth 24).toNat (min (((l >>> 32).setWidth 16).toNat + 1) 65535) ((l >>> 48).setWidth 16).toNat (ub _) b24 (Nat.lt_of_le_of_lt (Nat.min_le_right _ _) (by decide)) b5
      simp only [Bool.and_eq_true, decide_eq_true_eq, not_and] at hc
      refine ⟨?_, ?_, ?_, BitVec.eq_of_toNat_eq m2, fun _ => ⟨BitVec.eq_of_toNat_eq m4, ?_, fun h1 h2 h3 => absurd h3 (hc ⟨h1, h2⟩), fun hx => ⟨?_, m3⟩⟩⟩
      · revert f; decide
      · revert f; decide
      · revert f; decide
      · revert f; decide
      · apply BitVec.eq_of_toNat_eq; rw [m1, ubv _ (l.setWidth 8) 0 (by omega)]; simp
  · simp only [if_true, true_implies]
    by_cases hc : ((l >>> 8).setWidth 8).toInt < (l.setWidth 8).toInt
    · rw [if_pos hc]
      obtain ⟨m1, m2, m3, m4⟩ := mk_fields (uInt 8 ((l.setWidth 8).toInt - 1)) ((l >>> 8).setWidth 24).toNat 0 ((l >>> 48).setWidth 16).toNat (ub _) b24 (by decide) b5
      refine ⟨?_, ?_, ?_, BitVec.eq_of_toNat_eq m2, ⟨BitVec.eq_of_toNat_eq m3, fun _ => ⟨?_, BitVec.eq_of_toNat_eq m4, ?_⟩, fun hx => absurd hc (by omega)⟩, fun h => absurd h (by decide)⟩
      · dsimp only; revert f; decide
      · dsimp only; revert f; decide
      · dsimp only; revert f; decide
      · apply BitVec.eq_of_toNat_eq; rw [m1, ubv _ (l.setWidth 8) (-1) (by omega), show (BitVec.ofInt 8 (-1)) = -1 from rfl, BitVec.sub_eq_add_neg]
      · dsimp only; revert f; decide
    · rw [if_neg hc]
      obtain ⟨m1, m2, m3, m4⟩ := mk_fields (uInt 8 ((l.setWidth 8).toInt)) ((l >>> 8).setWidth 24).toNat 0 (min (((l >>> 48).setWidth 16).toNat + 1) 65535) (ub _) b24 (by decide) (Nat.lt_of_le_of_lt (Nat.min_le_right _ _) (by decide))
      refine ⟨?_, ?_, ?_, BitVec.eq_of_toNat_eq m2, ⟨BitVec.eq_of_toNat_eq m3, fun h => absurd h hc, fun hx => ⟨?_, m4, ?_⟩⟩, fun h => absurd h (by decide)⟩
      · dsimp only; revert f; decide
      · dsimp only; revert f; decide
      · dsimp only; revert f; decide
      · apply BitVec.eq_of_toNat_eq; rw [m1, ubv _ (l.setWidth 8) 0 (by omega)]; simp
      · dsimp only; revert f; decide
/-- A mulChain of changes of the committing core. -/
theorem mulChain {s u : State} {w : List RegId} (h : OnlyCore s u ∧ u.iss = { s.iss with wrote := w }) (f : Core → Core) :
    (OnlyCore s (modMe u f) ∧ (modMe u f).iss = { s.iss with wrote := w }) ∧ me (modMe u f) = f (me u) :=
  ⟨⟨h.1.trans (by rw [h.2]) (OnlyCore.modMe u f), h.2⟩, me_modMe u f⟩

end Sys2Proof.Machine
end

