-- ==== Sys2Proof/Laws/Management.lean ====
section
/-! SUPPORT. Boot, retirement, deadlines and mirrors (R284 to R345). -/
namespace Sys2Proof.Machine

theorem bound_exists (s : State) (v : VfId) (p : PartId) (hw : winOpen s = true) (h : (vf s v).bound = some p) : winPart s v = some p := by
  unfold winPart; rw [if_pos hw, h]
theorem registerWrite_vf (w : Writer) (r : WinReg) (x : W64) (s : State) (v : VfId) (p : PartId) (hw : winOpen s = true) (hr : windowOf r = some v)
    (hb : (vf s v).bound = some p) : execRegisterWrite w r x s = .next (writeVf w v p r x s) := by
  unfold execRegisterWrite
  rw [if_neg (by simp [hw]), hr]
  dsimp only
  rw [bound_exists s v p hw hb]
theorem registerWrite_mgmt (r : WinReg) (x : W64) (s : State) (hw : winOpen s = true) (hr : windowOf r = none) :
    execRegisterWrite .hypervisor r x s = .next (writeMgmt r x s) := by
  unfold execRegisterWrite
  rw [if_neg (by simp [hw]), hr]
  dsimp only
  rw [if_pos rfl]
/-- What scrubbing this module's stores does: they read as zero, and what lies beyond the module reads as before (R343). -/
theorem scrubStores_rd (s : State) (a : Nat) : (scrubStores s).mem.rd a = if locIsLocal a = true then 0 else s.mem.rd a := by
  show (Mem.wrPairs [] (s.mem.filter (fun x => !locIsLocal x.1)).reverse).rd a = _
  rw [rd_wrPairs_reverse, rd_filter (fun x => !locIsLocal x)]
  cases locIsLocal a <;> rfl
theorem scrubStores_rest (s : State) :
    scrubStores s = { s with mem := (scrubStores s).mem, pubs := (scrubStores s).pubs, badG := [] } := rfl
theorem rom_all (s : State) (f : Firmware) : verifyFw s f = (if f.malformed then 3 else if (Config.sigOk f.key f.body f.sig &&
      (List.range 4).any (fun i => Config.fuseDigest i == Config.sha256 f.key)) = false then 1 else if f.version.toNat < s.boot.floor.toNat then 2 else 0) := by
  unfold verifyFw
  have e : upto 4 = List.range 4 := by decide
  rw [e]
  generalize (List.range 4).any (fun i => Config.fuseDigest i == Config.sha256 f.key) = b
  cases f.malformed
  · cases Config.sigOk f.key f.body f.sig <;> cases b <;> simp
  · rfl
theorem floor_max (a b : BitVec 16) : (if a.toNat < b.toNat then b else a).toNat = max a.toNat b.toNat := by
  split <;> omega
theorem lowerAllot_law : (n : Nat) → (s : State) → ∃ ps, lowerAllot n s = { s with parts := ps }
  | 0, s => ⟨s.parts, rfl⟩
  | n + 1, s => by
    unfold lowerAllot
    split
    · exact ⟨s.parts, rfl⟩
    · obtain ⟨ps, h⟩ := lowerAllot_law n (modPt s (partIds.foldl (fun (b : PartId) p => if (pt s b).allot < (pt s p).allot then p else b) 0) (fun q => { q with allot := q.allot - 1 }))
      exact ⟨ps, h⟩
theorem reportAllot_law (old s : State) : ∃ ev, reportAllot old s = { s with events := ev } := by
  unfold reportAllot
  generalize partIds = l
  induction l generalizing s with
  | nil => exact ⟨s.events, rfl⟩
  | cons p l ih =>
    rw [List.foldl_cons]
    split
    · exact ih s
    · obtain ⟨ev, h⟩ := ih (raise s (.allot p (pt s p).allot))
      exact ⟨ev, h⟩
/-- What a retirement may change at boot. -/
def RetOnly (s t : State) : Prop := ∃ cs us ps ev, t = { s with cores := cs, units := us, parts := ps, events := ev }
theorem RetOnly.trans {s t u : State} (h1 : RetOnly s t) (h2 : RetOnly t u) : RetOnly s u := by
  obtain ⟨a, b, c, d, rfl⟩ := h1
  obtain ⟨a2, b2, c2, d2, rfl⟩ := h2
  exact ⟨a2, b2, c2, d2, rfl⟩
theorem goneUnit_ret (k : BitVec 3) (u : BitVec 16) (s : State) : RetOnly s (goneUnit k u s) := ⟨_, _, _, _, rfl⟩
theorem goneCore_ret (c : CoreId) (s : State) : RetOnly s (goneCore c s) := ⟨_, _, _, _, rfl⟩
theorem RetOnly.refl (s : State) : RetOnly s s := ⟨_, _, _, _, rfl⟩
theorem dueCols_ret (c : CoreId) (s : State) : RetOnly s (dueCols c s) := by
  unfold dueCols
  dsimp only
  split
  · split <;> exact ⟨_, _, _, _, rfl⟩
  · exact ⟨_, _, _, _, rfl⟩
theorem dueCores_ret (l : List CoreId) (s : State) : RetOnly s (dueCores l s) := by
  obtain ⟨cs, us, h, _⟩ := dueCores_law l s
  rw [h]; exact ⟨_, _, _, _, rfl⟩
theorem retireUnit_ret (k : BitVec 3) (u : BitVec 16) (s : State) : RetOnly s (retireUnit k u s) := by
  unfold retireUnit
  split
  · exact goneCore_ret _ _
  · dsimp only
    split
    · exact (dueCols_ret _ _).trans (dueCores_ret _ _)
    · exact dueCols_ret _ _
  · refine RetOnly.trans (goneUnit_ret 3 u s) ?_
    unfold rillChannel
    dsimp only
    split <;> exact ⟨_, _, _, _, rfl⟩
  · refine RetOnly.trans (goneUnit_ret 5 u s) ?_
    generalize 64 * 256 + 1 = n
    obtain ⟨ps, h⟩ := lowerAllot_law n (goneUnit 5 u s)
    obtain ⟨ev, h2⟩ := reportAllot_law s (lowerAllot n (goneUnit 5 u s))
    rw [h2, h]; exact ⟨_, _, _, _, rfl⟩
  · exact goneUnit_ret _ _ _
theorem applyRet (s : State) : RetOnly s (applyRetirements s) := by
  unfold applyRetirements
  generalize s.units.filter _ = l
  induction l generalizing s with
  | nil => exact RetOnly.refl _
  | cons x l ih =>
    rw [List.foldl_cons]
    refine RetOnly.trans ?_ (ih _)
    split
    · exact retireUnit_ret _ _ _
    · exact RetOnly.refl _
theorem dump_len (s : State) (cause : BitVec 8) : (dumpBytes s cause).length ≤ 2147483648 := by
  unfold dumpBytes
  dsimp only
  exact List.length_take_le _ _
theorem dump_room (s : State) (cause : BitVec 8) (w : Nat × Byte) (hw : w ∈ placeL dumpBase (dumpBytes s cause)) :
    0x2F80000000 ≤ w.1 ∧ w.1 < 0x2F80000000 + 2147483648 := placeL_range _ _ _ (dump_len s cause) w hw
/-- A list within its length keeps its place at the front. -/
theorem fixLen_front (n : Nat) (l : List Byte) (h : l.length ≤ n) : ∃ r, fixLen n l = l ++ r := by
  refine ⟨(fixLen n l).drop l.length, ?_⟩
  conv => lhs; rw [← List.take_append_drop l.length (fixLen n l)]
  congr 1
  unfold fixLen
  rw [upto_range]
  apply List.ext_getElem
  · simp [h]
  · intro i h1 h2
    simp [List.getD_eq_getElem?_getD, List.getElem?_eq_getElem h2]
/-- The dump begins with its header (R338). -/
theorem dump_head (s : State) (cause : BitVec 8) :
    ∃ post, dumpBytes s cause = bytesOf 8 (2 + cause.toNat * 2 ^ 16) ++ bytesOf 8 s.us ++ bytesOf 8 5 ++ post := by
  obtain ⟨r, hr⟩ := fixLen_front 64 (bytesOf 8 (2 + cause.toNat * 2 ^ 16) ++ bytesOf 8 s.us ++ bytesOf 8 5) (by simp [bytesOf_len])
  have hd : (dumpDir (64 + 16 * (dumpSecs s).length) (dumpSecs s)).length = 5 := rfl
  unfold dumpBytes dumpHead
  dsimp only
  rw [hd, hr, List.append_assoc, List.append_assoc, List.append_assoc, List.take_append]
  rw [List.take_of_length_le (by simp [bytesOf_len, dumpRoom])]
  exact ⟨_, rfl⟩
theorem dl_td (s : State) (p : PartId) : tDiscard s p = 1 + max 4 (tSweep s p none) + 7 := rfl
theorem held_none {s : State} {p : PartId} (h : ∀ q, queueHolds s p q = false) : heldQueues s p = [] := by
  unfold heldQueues; rw [List.filter_eq_nil_iff]; intro q _; simp [h]
theorem dl_ok (s : State) (k : DeadlineF) (hm : mgmt s k.part = true) (h1 : 1 ≤ k.d.toNat) (h2 : tDiscard s k.part ≤ k.d.toNat)
    (h3 : k.addr.toNat % 64 = 0) (h4 : k.ckpt.toNat % 64 = 0) (h5 : k.rsv = 0)
    (h6 : ∀ d, (pt s k.part).dl = some d → s.us + k.d.toNat < d.start + d.d) :
    ¬ ((!mgmt s k.part || decide (k.d.toNat < max 1 (tDiscard s k.part)) || decide (k.addr.toNat % 64 ≠ 0) || decide (k.ckpt.toNat % 64 ≠ 0) || decide (k.rsv ≠ 0) || endsBefore s k.part k.d.toNat) = true) := by
  have he : endsBefore s k.part k.d.toNat = false := by
    unfold endsBefore
    cases hd : (pt s k.part).dl with
    | none => rfl
    | some d => have := h6 d hd; simp; omega
  simp [hm, h3, h4, h5, he]; omega
theorem evalQ_choice (s : State) (p : PartId) (d : Deadline) (x : SQueue) (hq : queueHolds s p x.q = true) (hs : x.saving = false) (hm : s.modesel.getLsbD 1 = false) :
    (evalEntry s p d x).choice = x.choice.down (evalQ s p d x.q).1 := by
  unfold evalEntry
  rw [if_neg (by simp [hq])]
  simp only [hs, hm, Bool.or_self, Bool.false_eq_true, if_false]
theorem modPt_id {s : State} {p : PartId} {f : Part → Part} (h : f (pt s p) = pt s p) : modPt s p f = s := by
  unfold modPt setPt; rw [h]; simp [pt]
/-- What the opening of the weight gate may report: units whose retirement is pending. -/
def RetPends (l : List Event) : Prop := ∀ e ∈ l, ∃ k u, e = Event.retpend k u
theorem foldl_ret (f : CoreId → State → State) (hf : ∀ c s, ∃ us ev, RetPends ev ∧ f c s = { s with units := us, events := s.events ++ ev }) :
    ∀ (l : List CoreId) (s : State), ∃ us ev, RetPends ev ∧ l.foldl (fun s c => f c s) s = { s with units := us, events := s.events ++ ev }
  | [], s => ⟨s.units, [], by simp [RetPends], by simp⟩
  | c :: l, s => by
    obtain ⟨us, e1, r1, h⟩ := hf c s
    obtain ⟨us2, e2, r2, h2⟩ := foldl_ret f hf l (f c s)
    refine ⟨us2, e1 ++ e2, fun e he => (List.mem_append.1 he).elim (r1 e) (r2 e), ?_⟩
    rw [List.foldl_cons, h2, h]; simp
theorem dueCols_units (c : CoreId) (s : State) : ∃ us ev, RetPends ev ∧ dueCols c s = { s with units := us, events := s.events ++ ev } := by
  unfold dueCols
  dsimp only
  split
  · split
    · exact ⟨_, [.retpend 0 _], by simp [RetPends], rfl⟩
    · exact ⟨_, [], by simp [RetPends], by rw [List.append_nil]; rfl⟩
  · exact ⟨_, [], by simp [RetPends], by rw [List.append_nil]⟩
theorem openGate_law (p : PartId) (s : State) : ∃ us ev, RetPends ev ∧
    openGate p s = { modPt s p (fun q => { q with gateOpen := true }) with units := us, events := s.events ++ ev } :=
  foldl_ret (fun c s => dueCols c s) dueCols_units (coresOf s p) (modPt s p (fun q => { q with gateOpen := true }))
theorem flat_place (n : Nat) (f : SQueue → List Byte) (hf : ∀ x, (f x).length = n) : ∀ (l : List SQueue) (i : Nat) (x : SQueue), l[i]? = some x →
    ∃ pre post, l.flatMap f = pre ++ f x ++ post ∧ pre.length = n * i
  | [], i, x, h => by simp at h
  | y :: l, 0, x, h => by
    simp at h; subst h
    exact ⟨[], l.flatMap f, by simp, by simp⟩
  | y :: l, i + 1, x, h => by
    simp at h
    obtain ⟨pre, post, h1, h2⟩ := flat_place n f hf l i x h
    exact ⟨f y ++ pre, post, by simp [h1], by simp [h2, hf]; rw [Nat.mul_succ, Nat.add_comm]⟩
theorem flat_len (n : Nat) (f : SQueue → List Byte) (hf : ∀ x, (f x).length = n) (l : List SQueue) : (l.flatMap f).length = n * l.length := by
  induction l with
  | nil => simp
  | cons x l ih => simp [ih, hf, Nat.mul_succ, Nat.add_comm]
theorem rdN_at (a n x off : Nat) (bs pre post : List Byte) (m : Mem) (hb : bs = pre ++ bytesOf n x ++ post) (ho : pre.length = off) :
    (m.wrBytes a bs).rdN (a + off) n = x % 256 ^ n := by
  rw [hb, ← ho]; exact rdN_place a n x pre post m
def goneIn (k : BitVec 3) (u : BitVec 16) (t : State) : Prop := ∃ y ∈ t.units, y.kind = k ∧ y.unit = u ∧ y.retired = true
theorem goneUnit_keep (a : BitVec 3) (b : BitVec 16) (k : BitVec 3) (u : BitVec 16) (s : State) (h : goneIn k u s) : goneIn k u (goneUnit a b s) := by
  obtain ⟨y, h1, h2, h3, h4⟩ := h
  refine ⟨if y.kind = a && y.unit = b then { y with retired := true, due := false } else y, List.mem_map.2 ⟨y, h1, rfl⟩, ?_⟩
  split <;> simp [h2, h3, h4]
theorem goneUnit_gone (k : BitVec 3) (u : BitVec 16) (s : State) (h : ∃ y ∈ s.units, y.kind = k ∧ y.unit = u) : goneIn k u (goneUnit k u s) := by
  obtain ⟨y, h1, h2, h3⟩ := h
  refine ⟨{ y with retired := true, due := false }, List.mem_map.2 ⟨y, h1, by simp [h2, h3]⟩, h2, h3, rfl⟩
theorem goneCore_keep (c : CoreId) (k : BitVec 3) (u : BitVec 16) (s : State) (h : goneIn k u s) : goneIn k u (goneCore c s) :=
  goneUnit_keep 0 (BitVec.ofNat 16 c.val) k u s h
theorem dueCores_keep (k : BitVec 3) (u : BitVec 16) : ∀ (l : List CoreId) (s : State), goneIn k u s → goneIn k u (dueCores l s)
  | [], s, h => h
  | c :: l, s, h => by
    unfold dueCores; rw [List.foldl_cons]
    split
    · exact dueCores_keep k u l _ (goneCore_keep c k u s h)
    · exact dueCores_keep k u l _ h
theorem unitOf_fields (s : State) (k : BitVec 3) (u : BitVec 16) : (unitOfErr s k u).kind = k ∧ (unitOfErr s k u).unit = u := by
  unfold unitOfErr
  cases h : s.units.find? (fun x => x.kind == k && x.unit == u) with
  | none => exact ⟨rfl, rfl⟩
  | some y => have := List.find?_some h; simpa using this
theorem dueCols_gone (k : BitVec 3) (u : BitVec 16) (s : State) (hk : k = 1) (hv : u.toNat < 66 * 64) (h : ∃ y ∈ s.units, y.kind = k ∧ y.unit = u ∧ y.due = true) :
    goneIn k u (dueCols (unitCore k u) s) := by
  obtain ⟨y, h1, h2, h3, h4⟩ := h
  have hc : (unitCore k u).val = u.toNat / 66 := by
    subst hk; unfold unitCore; simp; omega
  have : goneIn k u { s with units := s.units.map (fun x => if (x.kind == 1 && x.unit.toNat / 66 == (unitCore k u).val) && x.due then { x with retired := true, due := false } else x) } := by
    refine ⟨{ y with retired := true, due := false }, List.mem_map.2 ⟨y, h1, ?_⟩, h2, h3, rfl⟩
    rw [if_pos (by rw [h2, h3, h4, hc, hk]; simp)]
  unfold dueCols
  dsimp only
  split
  · next hg =>
    have key : ∀ t : State, t.units = (setUnit { unitOfErr { s with units := s.units.map (fun x => if (x.kind == 1 && x.unit.toNat / 66 == (unitCore k u).val) && x.due then { x with retired := true, due := false } else x) } 0 (BitVec.ofNat 16 (unitCore k u).val) with due := true } { s with units := s.units.map (fun x => if (x.kind == 1 && x.unit.toNat / 66 == (unitCore k u).val) && x.due then { x with retired := true, due := false } else x) }).units → goneIn k u t := by
      intro t ht
      obtain ⟨z, z1, z2, z3, z4⟩ := this
      refine ⟨z, ?_, z2, z3, z4⟩
      rw [ht]
      unfold setUnit
      refine List.mem_cons_of_mem _ (List.mem_filter.2 ⟨z1, ?_⟩)
      dsimp only
      rw [(unitOf_fields _ 0 _).1, z2, hk]; rfl
    split
    · exact key _ rfl
    · exact key _ rfl
  · exact this
theorem lowerAllot_units (n : Nat) (s : State) : (lowerAllot n s).units = s.units := by
  obtain ⟨ps, h⟩ := lowerAllot_law n s; rw [h]
theorem retire_gone (k : BitVec 3) (u : BitVec 16) (s : State) (hv : unitValid k u = true) (hm : mayRetire s k u = true)
    (h : ∃ y ∈ s.units, y.kind = k ∧ y.unit = u ∧ y.due = true) : goneIn k u (retireUnit k u s) := by
  have h' : ∃ y ∈ s.units, y.kind = k ∧ y.unit = u := let ⟨y, a, b, c, _⟩ := h; ⟨y, a, b, c⟩
  have hcases : k = 0 ∨ k = 1 ∨ k = 2 ∨ k = 3 ∨ k = 4 ∨ k = 5 ∨ k = 6 ∨ k = 7 := by
    have hk := k.isLt
    rcases Nat.lt_or_ge k.toNat 8 with _ | _
    · have : k.toNat = 0 ∨ k.toNat = 1 ∨ k.toNat = 2 ∨ k.toNat = 3 ∨ k.toNat = 4 ∨ k.toNat = 5 ∨ k.toNat = 6 ∨ k.toNat = 7 := by omega
      simp only [BitVec.toNat_eq]; simpa using this
    · omega
  rcases hcases with rfl | rfl | rfl | rfl | rfl | rfl | rfl | rfl
  · show goneIn 0 u (goneCore (unitCore 0 u) s)
    have hlt : u.toNat < 64 := by simpa [unitValid, unitCount] using hv
    have e : BitVec.ofNat 16 (unitCore 0 u).val = u := by
      apply BitVec.eq_of_toNat_eq; simp [unitCore]; omega
    unfold goneCore
    show goneIn 0 u (goneUnit 0 _ s)
    rw [e]
    exact goneUnit_gone 0 u s h'
  · have hlt : u.toNat < 66 * 64 := by simpa [unitValid, unitCount] using hv
    have := dueCols_gone 1 u s rfl hlt h
    show goneIn 1 u (if (partOf (dueCols (unitCore 1 u) s) (unitCore 1 u)).isNone then dueCores [unitCore 1 u] (dueCols (unitCore 1 u) s) else dueCols (unitCore 1 u) s)
    split
    · exact dueCores_keep _ _ _ _ this
    · exact this
  · simp [mayRetire] at hm
  · show goneIn 3 u (rillChannel u (goneUnit 3 u s))
    have := goneUnit_gone 3 u s h'
    unfold rillChannel
    dsimp only
    split
    · obtain ⟨y, y1, y2, y3, y4⟩ := this
      refine ⟨y, List.mem_cons_of_mem _ (List.mem_filter.2 ⟨y1, ?_⟩), y2, y3, y4⟩
      rw [(unitOf_fields _ 2 _).1, y2]; rfl
    · exact this
  · exact goneUnit_gone 4 u s h'
  · have key : ∀ n, goneIn 5 u (reportAllot s (lowerAllot n (goneUnit 5 u s))) := by
      intro n
      obtain ⟨ev, h2⟩ := reportAllot_law s (lowerAllot n (goneUnit 5 u s))
      rw [h2]
      show ∃ y ∈ (lowerAllot n (goneUnit 5 u s)).units, _
      rw [lowerAllot_units]
      exact goneUnit_gone 5 u s h'
    exact key _
  · simp [mayRetire] at hm
  · simp [mayRetire] at hm
theorem unitOf_eta (s : State) (k : BitVec 3) (u : BitVec 16) (f : UnitErr → UnitErr) (hf : ∀ y, (f y).kind = y.kind ∧ (f y).unit = y.unit) :
    setUnit (f (unitOfErr s k u)) s = { s with units := { f (unitOfErr s k u) with kind := k, unit := u } :: s.units.filter (fun z => !(z.kind == k && z.unit == u)) } := by
  obtain ⟨h1, h2⟩ := unitOf_fields s k u
  have e1 := (hf (unitOfErr s k u)).1.trans h1
  have e2 := (hf (unitOfErr s k u)).2.trans h2
  have : ({ f (unitOfErr s k u) with kind := k, unit := u } : UnitErr) = f (unitOfErr s k u) := by
    generalize f (unitOfErr s k u) = y at e1 e2; subst e1; subst e2; rfl
  rw [this]; unfold setUnit; rw [e1, e2]
theorem mayRetire_units (s : State) (k : BitVec 3) (u : BitVec 16) (l : List UnitErr) : mayRetire { s with units := l } k u = mayRetire s k u := rfl
theorem unitOf_head (s : State) (k : BitVec 3) (u : BitVec 16) (y : UnitErr) (l : List UnitErr) (h1 : y.kind = k) (h2 : y.unit = u) :
    unitOfErr { s with units := y :: l } k u = y := by
  unfold unitOfErr; simp [h1, h2]
theorem set_twice (s : State) (k : BitVec 3) (u : BitVec 16) (y : UnitErr) :
    ({ s with units := y :: s.units.filter (fun z => !(z.kind == k && z.unit == u)) } : State).units.filter (fun z => !(z.kind == k && z.unit == u)) =
      if (y.kind == k && y.unit == u) = true then s.units.filter (fun z => !(z.kind == k && z.unit == u)) else y :: s.units.filter (fun z => !(z.kind == k && z.unit == u)) := by
  simp only [List.filter_cons, List.filter_filter]
  by_cases h : (y.kind == k && y.unit == u) = true
  · simp [h]
  · simp [h]
theorem count_go (s : State) (kind : BitVec 3) (u : BitVec 16) (hv : unitValid kind u = true) (hr : (unitOfErr s kind u).retired = false) :
    countError kind u s = if s.modesel.getLsbD 2 then raise (bumpUnit kind u s).1 (.errPosted kind u)
      else if (bumpUnit kind u s).2 then settleUnit kind u (bumpUnit kind u s).1 else (bumpUnit kind u s).1 := by
  unfold countError
  rw [if_neg (by simp [hv, hr])]
/-- A count that judges no fault lasting changes only the unit's count and its window (R332). -/
theorem bump_calm (s : State) (kind : BitVec 3) (u : BitVec 16)
    (h : s.modesel.getLsbD 2 = true ∨ countNow s (unitOfErr s kind u) + 1 ≤ threshOf s kind ∨ (unitOfErr s kind u).due = true) :
    bumpUnit kind u s = (setUnit { unitOfErr s kind u with count := countNow s (unitOfErr s kind u) + 1, win := windowNow s kind } s, false) := by
  have hl : (!s.modesel.getLsbD 2 && decide (threshOf s kind < countNow s (unitOfErr s kind u) + 1) && !(unitOfErr s kind u).due) = false := by
    rcases h with h | h | h
    · rw [h]; rfl
    · rw [decide_eq_false (by omega)]; simp
    · rw [h]; simp
  unfold bumpUnit
  dsimp only
  rw [hl, Bool.or_false]
/-- A count above THRESH judges the fault lasting, and the unit is due (R332). -/
theorem bump_lasting (s : State) (kind : BitVec 3) (u : BitVec 16) (h1 : s.modesel.getLsbD 2 = false)
    (h2 : threshOf s kind < countNow s (unitOfErr s kind u) + 1) (h3 : (unitOfErr s kind u).due = false) :
    bumpUnit kind u s = (setUnit { unitOfErr s kind u with count := countNow s (unitOfErr s kind u) + 1, win := windowNow s kind, due := true } s, true) := by
  unfold bumpUnit
  dsimp only
  rw [h1, h3, decide_eq_true h2]; rfl
/-- A unit that has become due and whose core is free to retire is retired at once (R333). -/
theorem settle_gone (s : State) (k : BitVec 3) (u : BitVec 16) (y : UnitErr) (hv : unitValid k u = true) (hm : mayRetire s k u = true)
    (h1 : y.kind = k) (h2 : y.unit = u) (h3 : y.due = true) : goneIn k u (settleUnit k u (setUnit y s)) := by
  have hm2 : mayRetire (setUnit y s) k u = true := hm
  unfold settleUnit
  rw [if_pos hm2]
  exact retire_gone k u _ hv hm2 ⟨y, List.mem_cons_self, h1, h2, h3⟩

end Sys2Proof.Machine
end

