-- ==== Sys2Proof/Laws/Launches.lean ====
section
/-! SUPPORT. Launches, teardowns and page replies over the cores of a partition (R115, R285, R295). -/
namespace Sys2Proof.Machine

theorem win_part (s : State) (v : VfId) (p : PartId) (hw : winOpen s = true) (h : (vf s v).bound = some p) : winPart s v = some p := by
  unfold winPart; rw [if_pos hw, h]
theorem cr_modCr_at (s : State) (a c : CoreId) (f : Core → Core) : cr (modCr s a f) c = if c = a then f (cr s a) else cr s c := by
  by_cases hc : c = a
  · subst hc; simp [modCr, setCr, cr]
  · have : ¬ a.val = c.val := fun e => hc (Fin.ext e.symm)
    rw [if_neg hc]
    show (s.cores.set a.val (f (cr s a)))[c.val] = s.cores[c.val]
    exact Vector.getElem_set_ne _ _ this
/-- The VFs differ only in their page requests. -/
def VfSame (s t : State) : Prop := ∀ v, vf t v = { vf s v with
  reqs := (vf t v).reqs, nextTag := (vf t v).nextTag, nextNum := (vf t v).nextNum, prqprod := (vf t v).prqprod }
theorem VfSame.of_eq {s t : State} (h : t.vfs = s.vfs) : VfSame s t := by
  intro v; have : vf t v = vf s v := by unfold vf; rw [h]
  rw [this]
theorem VfSame.trans {s t u : State} (h1 : VfSame s t) (h2 : VfSame t u) : VfSame s u := by
  intro v; rw [h2 v, h1 v]
theorem VfSame.rootbase {s t : State} (h : VfSame s t) (v : VfId) : (vf t v).rootbase = (vf s v).rootbase := by rw [h v]
/-- Writing a field of a record leaves the cores, the answer and the time alone, the partitions but for the writes that wait, and the VFs
but for their page requests (R356). -/
def DeltaOnly (s t : State) : Prop :=
  t.cores = s.cores ∧ t.ack = s.ack ∧ t.now = s.now ∧ (∀ x, ∃ l, pt t x = { pt s x with late := l }) ∧ VfSame s t
theorem DeltaOnly.trans {s t u : State} (h1 : DeltaOnly s t) (h2 : DeltaOnly t u) : DeltaOnly s u := by
  obtain ⟨a, b, c, d, e⟩ := h1
  obtain ⟨a2, b2, c2, d2, e2⟩ := h2
  refine ⟨a2.trans a, b2.trans b, c2.trans c, fun x => ?_, e.trans e2⟩
  obtain ⟨l, h⟩ := d x
  obtain ⟨l2, h2⟩ := d2 x
  exact ⟨l2, by rw [h2, h]⟩
theorem DeltaOnly.of_eq {s t : State} (h1 : t.cores = s.cores) (h2 : t.ack = s.ack) (h3 : t.now = s.now) (h4 : t.parts = s.parts) (h5 : t.vfs = s.vfs) : DeltaOnly s t :=
  ⟨h1, h2, h3, fun x => ⟨(pt s x).late, by unfold pt; rw [h4]⟩, .of_eq h5⟩
theorem DeltaOnly.of_walks {s t : State} (h : WalksOnly s t) : DeltaOnly s t := by
  obtain ⟨more, h1, _, h2⟩ := h
  refine ⟨by rw [h1], by rw [h1], by rw [h1], fun x => ⟨(pt s x).late, by rw [h1]; rfl⟩, h2⟩
theorem poke_delta (s : State) (a n x : Nat) : DeltaOnly s (poke s a n x) := by
  unfold poke pubOther pubBy
  obtain ⟨_, _, _, _, h⟩ := forwardAll_law (.host 0) 0 ((upto n).map (fun i => (a + i, (bytesOf n x).getD i 0)))
    (addPub s (.host 0) (BitVec.allOnes 64) 0 ((upto n).map (fun i => (a + i, (bytesOf n x).getD i 0))))
  rw [h]
  exact .of_eq rfl rfl rfl rfl rfl
theorem latePut_delta (p : PartId) (w : LateW) (s : State) : DeltaOnly s (latePut p w s) := by
  have wait : ∀ (t : Option Nat) (s : State), DeltaOnly s (modPt s p (fun q => { q with late := q.late ++ [{ w with tag := t }] })) := by
    intro t s
    refine ⟨rfl, rfl, rfl, fun x => ?_, .of_eq rfl⟩
    have := pt_set s p { pt s p with late := (pt s p).late ++ [{ w with tag := t }] } x
    by_cases h : x = p
    · subst h; rw [if_pos rfl] at this; exact ⟨_, this⟩
    · rw [if_neg h] at this; exact ⟨(pt s x).late, this⟩
  unfold latePut
  dsimp only
  split
  · exact wait _ _
  · split
    · split
      · exact .of_walks (foundG_walks _ s)
      · exact poke_delta _ _ _ _
    · next ipa tbl lvl _ => exact (DeltaOnly.of_walks (pageMiss_walks s 0 p ipa w.va tbl lvl true)).trans (wait _ _)
    · exact .of_eq rfl rfl rfl rfl rfl
/-- A field of a record that Delta writes (R356). -/
theorem recPut_delta (p : PartId) (r off lo n x : Nat) (s : State) : DeltaOnly s (recPut p r off lo n x s) := latePut_delta _ _ _
theorem putRoot_delta (p : PartId) (a entry : Nat) (s : State) : DeltaOnly s (putRoot p a entry s) := by
  unfold putRoot
  iterate 12 refine DeltaOnly.trans ?_ (recPut_delta _ _ _ _ _ _ _)
  exact recPut_delta _ _ _ _ _ _ _
/-- What the launch leaves in a core. -/
def Launched (s : State) (v : VfId) (vec : List (BitVec 32)) (k k' : Core) (i : Nat) : Prop :=
  k'.rank = BitVec.ofNat 6 i ∧ k'.h = false ∧ k'.flags = 0 ∧ k'.dict = k.dict ∧ k'.code = k.code ∧ k'.wslice = k.wslice ∧
  (vecRun vec i = false → k'.running = false ∧ k'.regs = Regs.reset) ∧
  (vecRun vec i = true → k'.running = true ∧ k'.pc.toNat = (vec.getD i 0).toNat % 2 ^ 24 ∧
    k'.rec_ = ((vf s v).rootbase.toNat + 64 * i) % 2 ^ 52 ∧ ∃ argp, k'.regs = { Regs.reset with s := Regs.reset.s.set 1 ⟨argp, true⟩ })
/-- Two partitions differ only in their tasks and in the writes that wait for a page. -/
def TasksOnly (k k' : Part) : Prop := ∃ l w, k' = { k with tasks := l, late := w }
theorem launchCore_law (v : VfId) (p : PartId) (vec : List (BitVec 32)) (s : State) (x : CoreId × Nat) :
    let t := launchCore v p vec s x
    Launched s v vec (cr s x.1) (cr t x.1) x.2 ∧ (∀ c, c ≠ x.1 → cr t c = cr s c) ∧ VfSame s t ∧ t.ack = s.ack ∧ t.now = s.now ∧
      TasksOnly (pt s p) (pt t p) := by
  obtain ⟨c, i⟩ := x
  intro t
  have ht : t = launchCore v p vec s (c, i) := rfl
  unfold launchCore at ht
  dsimp only at ht
  obtain ⟨w, hw⟩ : ∃ w, w = landL c (pt (modCr s c (fun k => { freshCore k with
    rank := BitVec.ofNat 6 i, running := false, group := none, member := 0, lock := false, exec := 0, since := 0, pc := 0 })) p).imgData (modCr s c (fun k => { freshCore k with
    rank := BitVec.ofNat 6 i, running := false, group := none, member := 0, lock := false, exec := 0, since := 0, pc := 0 })) := ⟨_, rfl⟩
  rw [← hw] at ht
  have hcw : ∀ d, cr w d = if d = c then { freshCore (cr s c) with
    rank := BitVec.ofNat 6 i, running := false, group := none, member := 0, lock := false, exec := 0, since := 0, pc := 0, l := (cr w c).l, badL := (cr w c).badL } else cr s d := by
    intro d
    rw [hw]
    unfold landL
    by_cases h : d = c
    · subst h; simp only [cr_modCr_at, if_pos]
    · simp only [cr_modCr_at, if_neg h]
  have hrw : w = { s with cores := w.cores } := by rw [hw]; rfl
  by_cases hv : vecRun vec i = true
  · have hn : ¬ ((!vecRun vec i) = true) := by rw [hv]; decide
    rw [if_neg hn] at ht
    generalize hT : (⟨rootAddr w v i, stRunning, 0, 7, [], 0, [], 0, 0, 0, ((recWord w p (rootAddr w v i) 0x28).getD 0) % 2 ^ 52, none, none, [], some c⟩ : Task) = T at ht
    generalize hA : w64 (((recWord w p (rootAddr w v i) 8).getD 0) % 2 ^ 52) = A at ht
    obtain ⟨y, hy⟩ : ∃ y, y = modPt w p (fun q => { q with tasks := q.tasks ++ [T] }) := ⟨_, rfl⟩
    rw [← hy] at ht
    have hm := putRoot_delta p (rootAddr w v i) ((vec.getD i 0).toNat % 2 ^ 24) y
    generalize putRoot p (rootAddr w v i) ((vec.getD i 0).toNat % 2 ^ 24) y = z at ht hm
    obtain ⟨m1, m4, m5, m2, m3⟩ := hm
    have hcz : ∀ d, cr z d = cr w d := by
      intro d; unfold cr; rw [m1, hy]; rfl
    have hra : rootAddr w v i = ((vf s v).rootbase.toNat + 64 * i) % 2 ^ 52 := by
      rw [hrw]; rfl
    refine ⟨?_, fun d hd => ?_, ?_, ?_, ?_, ?_⟩
    · rw [ht, cr_modCr_at, if_pos rfl, hcz, hcw, if_pos rfl]
      refine ⟨rfl, rfl, rfl, rfl, rfl, rfl, ?_, ?_⟩
      · intro h; rw [hv] at h; cases h
      · intro _
        refine ⟨rfl, ?_, hra, A, rfl⟩
        show (BitVec.ofNat 24 ((vec.getD i 0).toNat % 2 ^ 24)).toNat = _
        rw [BitVec.toNat_ofNat, Nat.mod_mod]
    · rw [ht, cr_modCr_at, if_neg hd, hcz, hcw, if_neg hd]
    · rw [ht]
      have e : VfSame s y := .of_eq (by rw [hy]; show w.vfs = _; rw [hrw])
      exact (e.trans m3).trans (.of_eq rfl)
    · rw [ht]; show z.ack = _; rw [m4, hy]; show w.ack = _; rw [hrw]
    · rw [ht]; show z.now = _; rw [m5, hy]; show w.now = _; rw [hrw]
    · rw [ht]
      show TasksOnly _ (pt z p)
      obtain ⟨lw, hl⟩ := m2 p
      have hyp : pt y p = { pt w p with tasks := (pt w p).tasks ++ [T] } := by rw [hy]; exact (pt_set w p _ p).trans (if_pos rfl)
      have : pt w p = pt s p := by rw [hrw]; rfl
      exact ⟨(pt s p).tasks ++ [T], lw, by rw [hl, hyp, this]⟩
  · have hn : (!vecRun vec i) = true := by simpa using hv
    rw [if_pos hn] at ht
    have hv' : vecRun vec i = false := by simpa using hv
    refine ⟨?_, fun d hd => ?_, ?_, ?_, ?_, ?_⟩
    · rw [ht, hcw, if_pos rfl]
      exact ⟨rfl, rfl, rfl, rfl, rfl, rfl, fun _ => ⟨rfl, rfl⟩, fun h => absurd h hv⟩
    · rw [ht, hcw, if_neg hd]
    · rw [ht, hrw]; exact .of_eq rfl
    · rw [ht, hrw]
    · rw [ht, hrw]
    · refine ⟨(pt s p).tasks, (pt s p).late, ?_⟩
      rw [ht, hrw]; rfl
theorem launched_congr {s s' : State} {v : VfId} {vec : List (BitVec 32)} {k k' : Core} {i : Nat} (h : VfSame s s') (hl : Launched s' v vec k k' i) : Launched s v vec k k' i := by
  unfold Launched at hl; rw [h.rootbase] at hl; exact hl
theorem launch_fold (v : VfId) (p : PartId) (vec : List (BitVec 32)) : ∀ (l : List (CoreId × Nat)) (s : State), (l.map Prod.fst).Nodup →
    let t := l.foldl (launchCore v p vec) s
    (∀ x ∈ l, Launched s v vec (cr s x.1) (cr t x.1) x.2) ∧ (∀ c, c ∉ l.map Prod.fst → cr t c = cr s c) ∧ VfSame s t ∧ t.ack = s.ack ∧ t.now = s.now ∧
      TasksOnly (pt s p) (pt t p)
  | [], s, _ => ⟨by simp, fun _ _ => rfl, .of_eq rfl, rfl, rfl, _, _, rfl⟩
  | x :: l, s, hn => by
    rw [List.map_cons, List.nodup_cons] at hn
    obtain ⟨a1, a2, a3, a4, a5, l1, w1, a6⟩ := launchCore_law v p vec s x
    obtain ⟨b1, b2, b3, b4, b5, l2, w2, b6⟩ := launch_fold v p vec l (launchCore v p vec s x) hn.2
    intro t
    have ht : t = l.foldl (launchCore v p vec) (launchCore v p vec s x) := rfl
    rw [← ht] at b1 b2 b3 b4 b5 b6
    refine ⟨?_, ?_, a3.trans b3, b4.trans a4, b5.trans a5, l2, w2, by rw [b6, a6]⟩
    · intro y hy
      rcases List.mem_cons.1 hy with rfl | hy
      · rw [b2 y.1 hn.1]; exact a1
      · have hne : y.1 ≠ x.1 := fun e => hn.1 (e ▸ List.mem_map_of_mem hy)
        have := b1 y hy
        rw [a2 _ hne] at this
        exact launched_congr a3 this
    · intro c hc
      simp only [List.map_cons, List.mem_cons, not_or] at hc
      rw [b2 c hc.2, a2 c hc.1]
theorem refresh_fold : ∀ (l : List CoreId) (s : State),
    let t := l.foldl (fun s c => refresh s c 3) s
    t = { s with cores := t.cores } ∧ ∀ c, (∃ n o, cr t c = { cr s c with incl := n, own := o }) ∧ (c ∉ l → cr t c = cr s c)
  | [], s => ⟨rfl, fun c => ⟨⟨(cr s c).incl, (cr s c).own, rfl⟩, fun _ => rfl⟩⟩
  | a :: l, s => by
    obtain ⟨h1, h2⟩ := refresh_fold l (refresh s a 3)
    refine ⟨?_, fun c => ?_⟩
    · dsimp only [List.foldl_cons] at h1 ⊢
      rw [h1]; rfl
    · obtain ⟨⟨n, o, h⟩, h'⟩ := h2 c
      dsimp only [List.foldl_cons] at h h' ⊢
      have hne : c ≠ a → cr (refresh s a 3) c = cr s c := by
        intro hc; unfold refresh; rw [cr_modCr_at, if_neg hc]
      have hr : ∃ n o, cr (refresh s a 3) c = { cr s c with incl := n, own := o } := by
        unfold refresh; rw [cr_modCr_at]
        by_cases hc : c = a
        · subst hc; rw [if_pos rfl]; exact ⟨_, _, rfl⟩
        · rw [if_neg hc]; exact ⟨(cr s c).incl, (cr s c).own, rfl⟩
      obtain ⟨n2, o2, h2⟩ := hr
      refine ⟨⟨n, o, by rw [h, h2]⟩, fun hc => ?_⟩
      simp only [List.mem_cons, not_or] at hc
      rw [h' hc.2, hne hc.1]
theorem kernelCheck_law (p : PartId) (s : State) : ∃ us ps ev, kernelCheck p s = { s with units := us, parts := ps, events := ev } ∧
    (kernelCheck p s = s ∨ (pt (kernelCheck p s) p).running = false ∧ (pt (kernelCheck p s) p).launchAt = (pt s p).launchAt ∧ (∀ e ∈ s.events, e ∈ ev) ∧
      (∀ x, x ≠ p → pt (kernelCheck p s) x = pt s x) ∧ (pt (kernelCheck p s) p).queues = (pt s p).queues) := by
  unfold kernelCheck
  split
  · obtain ⟨us, ev, _, h⟩ := openGate_law p (modPt s p (fun q => { q with running := false, complete := true }))
    rw [h]
    refine ⟨us, _, s.events ++ ev ++ [.kernelComplete p], rfl, Or.inr ⟨?_, ?_, fun e he => List.mem_append_left _ (List.mem_append_left _ he), ?_, ?_⟩⟩
    · refine (congrArg Part.running (pt_set _ p _ p)).trans ?_
      rw [if_pos rfl]
      refine (congrArg Part.running (pt_set s p _ p)).trans ?_
      rw [if_pos rfl]
    · refine (congrArg Part.launchAt (pt_set _ p _ p)).trans ?_
      rw [if_pos rfl]
      refine (congrArg Part.launchAt (pt_set s p _ p)).trans ?_
      rw [if_pos rfl]
    · intro x hx
      refine (pt_set _ p _ x).trans ?_
      rw [if_neg hx]
      refine (pt_set s p _ x).trans ?_
      rw [if_neg hx]
    · refine (congrArg Part.queues (pt_set _ p _ p)).trans ?_
      rw [if_pos rfl]
      refine (congrArg Part.queues (pt_set s p _ p)).trans ?_
      rw [if_pos rfl]
  · exact ⟨s.units, s.parts, s.events, rfl, Or.inl rfl⟩
theorem fixLen_len (n : Nat) (l : List Byte) : (fixLen n l).length = n := by
  unfold fixLen; rw [List.length_map, upto_range, List.length_range]
/-- One queue of the teardown check. -/
def tdOne (p : PartId) (s : State) (n : Nat) : State :=
  let q : BitVec 6 := BitVec.ofNat 6 n
  if (queueOf s p q).tearing && !((pt s p).tasks.any (fun t => t.queue == q && t.live)) &&
     !(s.cmds.any (fun k => k.part == p && (pt s p).tasks.any (fun t => t.queue == q && some t.rec_ == k.task)))
  then raise (modQueue p q (fun k => { k with tearing := false }) s) (.teardown p q) else s
theorem queueOf_modQueue (p : PartId) (q x : BitVec 6) (f : Queue → Queue) (s : State) :
    queueOf (modQueue p q f s) p x = if x = q then f (queueOf s p q) else queueOf s p x := by
  have : pt (modQueue p q f s) p = { pt s p with queues := (pt s p).queues.set q.toFin (f (pt s p).queues[q.toFin]) } :=
    (pt_set s p _ p).trans (if_pos rfl)
  unfold queueOf
  rw [this]
  by_cases h : x = q
  · subst h; simp
  · have hne := Ne.symm (toFin_ne h)
    simp [h, Vector.getElem_set_ne _ _ hne]
theorem pt_modQueue (p : PartId) (q : BitVec 6) (f : Queue → Queue) (s : State) : ∃ qs, pt (modQueue p q f s) p = { pt s p with queues := qs } :=
  ⟨_, (pt_set s p _ p).trans (if_pos rfl)⟩
theorem tdOne_law (p : PartId) (s : State) (n : Nat) : (∃ ps ev, tdOne p s n = { s with parts := ps, events := ev } ∧ (∀ e ∈ s.events, e ∈ ev)) ∧
    (pt (tdOne p s n) p).tasks = (pt s p).tasks ∧
    ∀ q, (queueOf (tdOne p s n) p q).valid = (queueOf s p q).valid ∧ ((queueOf s p q).tearing = false → (queueOf (tdOne p s n) p q).tearing = false) ∧
      (q = BitVec.ofNat 6 n → (∀ x ∈ (pt s p).tasks, x.queue ≠ q) → (queueOf s p q).tearing = true →
        Event.teardown p q ∈ (tdOne p s n).events ∧ (queueOf (tdOne p s n) p q).tearing = false) := by
  unfold tdOne
  dsimp only
  split
  · rename_i hc
    refine ⟨⟨_, s.events ++ [.teardown p (BitVec.ofNat 6 n)], rfl, fun e he => List.mem_append_left _ he⟩, ?_, fun q => ?_⟩
    · obtain ⟨qs, h⟩ := pt_modQueue p (BitVec.ofNat 6 n) (fun k => { k with tearing := false }) s
      show (pt (modQueue p (BitVec.ofNat 6 n) (fun k => { k with tearing := false }) s) p).tasks = _
      rw [h]
    · have hq : queueOf (raise (modQueue p (BitVec.ofNat 6 n) (fun k => { k with tearing := false }) s) (.teardown p (BitVec.ofNat 6 n))) p q = _ :=
        queueOf_modQueue p (BitVec.ofNat 6 n) q (fun k => { k with tearing := false }) s
      rw [hq]
      by_cases h : q = BitVec.ofNat 6 n
      · rw [if_pos h, h]
        exact ⟨rfl, fun _ => rfl, fun _ _ _ => ⟨List.mem_append_right _ (List.mem_singleton.2 rfl), rfl⟩⟩
      · rw [if_neg h]
        exact ⟨rfl, fun h => h, fun h2 => absurd h2 h⟩
  · rename_i hc
    refine ⟨⟨s.parts, s.events, rfl, fun e he => he⟩, rfl, fun q => ⟨rfl, fun h => h, fun h1 h2 h3 => ?_⟩⟩
    exfalso
    apply hc
    have a1 : (pt s p).tasks.any (fun t => t.queue == BitVec.ofNat 6 n && t.live) = false := by
      rw [List.any_eq_false]; intro x hx; have := h2 x hx; rw [h1] at this; simp [this]
    have a2 : s.cmds.any (fun k => k.part == p && (pt s p).tasks.any (fun t => t.queue == BitVec.ofNat 6 n && some t.rec_ == k.task)) = false := by
      rw [List.any_eq_false]; intro k _
      have : (pt s p).tasks.any (fun t => t.queue == BitVec.ofNat 6 n && some t.rec_ == k.task) = false := by
        rw [List.any_eq_false]; intro x hx; have := h2 x hx; rw [h1] at this; simp [this]
      simp [this]
    rw [a1, a2, ← h1, h3]; rfl
theorem td_fold (p : PartId) : ∀ (l : List Nat) (s : State),
    let t := l.foldl (tdOne p) s
    (∃ ps ev, t = { s with parts := ps, events := ev } ∧ (∀ e ∈ s.events, e ∈ ev)) ∧ (pt t p).tasks = (pt s p).tasks ∧
    ∀ q, (queueOf t p q).valid = (queueOf s p q).valid ∧ ((queueOf s p q).tearing = false → (queueOf t p q).tearing = false) ∧
      (q.toNat ∈ l → (∀ x ∈ (pt s p).tasks, x.queue ≠ q) → (queueOf s p q).tearing = true → Event.teardown p q ∈ t.events ∧ (queueOf t p q).tearing = false)
  | [], s => ⟨⟨s.parts, s.events, rfl, fun _ h => h⟩, rfl, fun q => ⟨rfl, fun h => h, fun h => absurd h (by simp)⟩⟩
  | n :: l, s => by
    obtain ⟨⟨p1, e1, a1, a2⟩, a3, a4⟩ := tdOne_law p s n
    obtain ⟨⟨p2, e2, b1, b2⟩, b3, b4⟩ := td_fold p l (tdOne p s n)
    intro t
    have ht : t = l.foldl (tdOne p) (tdOne p s n) := rfl
    rw [← ht] at b1 b3 b4
    refine ⟨⟨p2, e2, by rw [b1, a1], fun e he => b2 e (by rw [a1]; exact a2 e he)⟩, b3.trans a3, fun q => ?_⟩
    obtain ⟨c1, c2, c3⟩ := a4 q
    obtain ⟨d1, d2, d3⟩ := b4 q
    refine ⟨d1.trans c1, fun h => d2 (c2 h), fun hm h1 h2 => ?_⟩
    by_cases hq : q = BitVec.ofNat 6 n
    · obtain ⟨f1, f2⟩ := c3 hq h1 h2
      exact ⟨by rw [b1]; exact b2 _ f1, d2 f2⟩
    · have hm2 : q.toNat ∈ l := by
        rcases List.mem_cons.1 hm with h | h
        · exfalso; apply hq; rw [← h]; simp
        · exact h
      cases hh : (queueOf (tdOne p s n) p q).tearing with
      | true => exact d3 hm2 (by rw [a3]; exact h1) hh
      | false =>
        exfalso
        have : queueOf (tdOne p s n) p q = queueOf s p q := by
          unfold tdOne; dsimp only
          split
          · refine Eq.trans (b := queueOf (modQueue p (BitVec.ofNat 6 n) (fun k => { k with tearing := false }) s) p q) rfl ?_
            refine (queueOf_modQueue p (BitVec.ofNat 6 n) q _ s).trans ?_
            rw [if_neg hq]
          · rfl
        rw [this, h2] at hh; cases hh
theorem askYield_law (p : PartId) (s : State) : ∃ cs, askYield p s = { s with cores := cs } := by
  unfold askYield
  split
  · exact ⟨s.cores, rfl⟩
  · split
    · exact ⟨s.cores, rfl⟩
    · split
      · exact ⟨s.cores, rfl⟩
      · exact ⟨_, rfl⟩
theorem foldl_none {α : Type} (f : State → α → State) (l : List α) (s : State) (h : ∀ a ∈ l, f s a = s) : l.foldl f s = s := by
  induction l with
  | nil => rfl
  | cons a l ih => rw [List.foldl_cons, h a (by simp), ih (fun b hb => h b (by simp [hb]))]
theorem failLane_fold (c : CoreId) (cause : BitVec 8) : ∀ (l : List Lane) (s : State),
    ∃ f, l.foldl (fun s l => failLane c ⟨cause, 0, some (false, l.va), 0, l.shown, none⟩ s) s = modCr s c (fun k => { k with failed := k.failed ++ f })
  | [], s => ⟨[], by
      have : ∀ k : Core, ({ k with failed := k.failed ++ [] } : Core) = k := by intro k; rw [List.append_nil]
      show s = modCr s c (fun k => { k with failed := k.failed ++ [] })
      unfold modCr setCr; dsimp only; rw [this]; simp [cr]⟩
  | x :: l, s => by
    obtain ⟨f, h⟩ := failLane_fold c cause l (failLane c ⟨cause, 0, some (false, x.va), 0, x.shown, none⟩ s)
    refine ⟨⟨cause, 0, some (false, x.va), 0, x.shown, none⟩ :: f, ?_⟩
    rw [List.foldl_cons, h]
    unfold failLane modCr setCr
    simp [cr]
/-- One core's part of a failed reply. -/
def failOne (tag page : Nat) (s : State) (c : CoreId) : State :=
  modCr (failTag c tag s) c (fun k => { k with asks := k.asks.map (fun a => if a.1 = page then (page, true) else a) })
theorem failOne_law (tag page : Nat) (s : State) (c : CoreId) : ∃ f, failOne tag page s c = modCr s c (fun k => { k with
    failed := k.failed ++ f
    pend := k.pend.map (fun q => { q with lanes := q.lanes.map (fun l => if l.st.waitsTag tag then { l with st := .failed cXlateS2 } else l) })
    posts := k.posts.map (fun o => { o with lanes := o.lanes.map (fun l => if l.st.waitsTag tag then { l with st := .failed cXlateS2 } else l) })
    asks := k.asks.map (fun a => if a.1 = page then (page, true) else a) }) := by
  unfold failOne failTag
  dsimp only
  generalize (opSeqs (cr s c)).flatMap _ = hit
  obtain ⟨f, h⟩ := failLane_fold c cXlateS2 hit s
  refine ⟨f, ?_⟩
  rw [h]
  unfold modCr setCr
  simp [cr]
theorem fail_fold (p : PartId) (tag page : Nat) : ∀ (l : List CoreId) (s : State), l.Nodup →
    let t := l.foldl (failOne tag page) s
    t = { s with cores := t.cores } ∧ (∀ c ∈ l,
      (∀ x ∈ ((cr t c).pend.flatMap (fun q => q.lanes)) ++ ((cr t c).posts.flatMap (fun o => o.lanes)), x.st.waitsTag tag = false) ∧
      (∀ a ∈ (cr t c).asks, a.1 = page → a.2 = true)) ∧ (∀ c, c ∉ l → cr t c = cr s c)
  | [], s, _ => ⟨rfl, by simp, fun _ _ => rfl⟩
  | a :: l, s, hn => by
    rw [List.nodup_cons] at hn
    obtain ⟨f, h⟩ := failOne_law tag page s a
    obtain ⟨b1, b2, b3⟩ := fail_fold p tag page l (failOne tag page s a) hn.2
    intro t
    have ht : t = l.foldl (failOne tag page) (failOne tag page s a) := rfl
    rw [← ht] at b1 b2 b3
    refine ⟨by rw [b1, h]; rfl, fun c hc => ?_, fun c hc => ?_⟩
    · rcases List.mem_cons.1 hc with rfl | hc
      · rw [b3 c hn.1, h, cr_modCr_at, if_pos rfl]
        constructor
        · intro x hx
          have key : ∀ y : Lane, (if y.st.waitsTag tag = true then { y with st := LaneSt.failed cXlateS2 } else y).st.waitsTag tag = false := by
            intro y; split
            · rfl
            · rename_i h; simpa using h
          simp only [List.mem_append, List.mem_flatMap, List.mem_map] at hx
          rcases hx with ⟨q, ⟨q', _, rfl⟩, hx⟩ | ⟨q, ⟨q', _, rfl⟩, hx⟩
          · obtain ⟨y, _, rfl⟩ := List.mem_map.1 hx; exact key y
          · obtain ⟨y, _, rfl⟩ := List.mem_map.1 hx; exact key y
        · intro x hx h1
          obtain ⟨y, _, rfl⟩ := List.mem_map.1 hx
          split
          · rfl
          · rename_i h2; rw [if_neg h2] at h1; exact absurd h1 h2
      · exact b2 c hc
    · simp only [List.mem_cons, not_or] at hc
      rw [b3 c hc.2, h, cr_modCr_at, if_neg hc.1]

end Sys2Proof.Machine
end

