-- ==== Sys2Proof/Laws/Landings.lean ====
section
/-! SUPPORT. Results that land and posted operations (R33, R199 to R214, R252). -/
namespace Sys2Proof.Machine

theorem setElem_bit {n w : Nat} (x : BitVec n) (e : Nat) (y : BitVec w) (i : Nat) (hi : i < n) :
    (setElem x w e y).getLsbD i = if w * e ≤ i ∧ i < w * e + w then y.getLsbD (i - w * e) else x.getLsbD i := by
  unfold setElem
  rw [BitVec.getLsbD_or, BitVec.getLsbD_and, BitVec.getLsbD_not, BitVec.getLsbD_shiftLeft, BitVec.getLsbD_shiftLeft, BitVec.getLsbD_setWidth, BitVec.getLsbD_setWidth, BitVec.getLsbD_allOnes]
  by_cases h1 : i < w * e
  · have h3 : ¬ (w * e ≤ i ∧ i < w * e + w) := by omega
    simp [h1, h3, hi]
  · by_cases h2 : i < w * e + w
    · have h3 : w * e ≤ i ∧ i < w * e + w := by omega
      have h4 : i - w * e < w := by omega
      have h5 : i - w * e < n := by omega
      simp [h1, h3, hi, h4, h5]
    · have h3 : ¬ (w * e ≤ i ∧ i < w * e + w) := by omega
      have h4 : ¬ i - w * e < w := by omega
      have h5 : y.getLsbD (i - w * e) = false := BitVec.getLsbD_of_ge _ _ (by omega)
      simp [h1, h3, hi, h4, h5]
theorem elem_setElem {n w : Nat} (x : BitVec n) (e e' : Nat) (y : BitVec w) (he : w * (e' + 1) ≤ n) :
    elem (setElem x w e y) w e' = if e' = e then y else elem x w e' := by
  apply BitVec.eq_of_getLsbD_eq
  intro j hj
  rw [Nat.mul_succ] at he
  unfold elem
  rw [BitVec.getLsbD_extractLsb', setElem_bit x e y _ (by omega)]
  by_cases h : e' = e
  · subst h
    rw [if_pos rfl, if_pos (by omega)]
    simp [hj]
  · rw [if_neg h, if_neg, BitVec.getLsbD_extractLsb']
    intro ⟨h1, h2⟩
    apply h
    have a1 : w * e < w * (e' + 1) := by rw [Nat.mul_succ]; omega
    have a2 : w * e' < w * (e + 1) := by rw [Nat.mul_succ]; omega
    have := Nat.lt_of_mul_lt_mul_left a1
    have := Nat.lt_of_mul_lt_mul_left a2
    omega
theorem bytes_place (a : Nat) (bs : List Byte) (n : Nat) (h : bs.length = n) : (upto n).map (fun i => (a + i, bs.getD i 0)) = placeL a bs := by
  unfold placeL
  subst h
  rw [upto_range]
  apply List.ext_getElem
  · simp
  · intro i h1 h2
    simp at h1
    simp [List.getD_eq_getElem?_getD, h1]
theorem sgn_eq {w : Nat} (hw : 0 < w) (x : Nat) : sgn w x = (BitVec.ofNat w x).toInt := by
  have := sInt_toNat hw (BitVec.ofNat w x)
  rw [← this]
  unfold sgn sInt
  simp
theorem low_setWidth {n m : Nat} (h : n ≤ m) (x : BitVec n) : (x.setWidth m).extractLsb' 0 n = x := by
  apply BitVec.eq_of_getLsbD_eq
  intro i hi
  rw [BitVec.getLsbD_extractLsb', BitVec.getLsbD_setWidth]
  simp [hi, show i < m by omega]
theorem low_ofNat {n m : Nat} (h : n ≤ m) (x : Nat) : (BitVec.ofNat m x).extractLsb' 0 n = BitVec.ofNat n x := by
  apply BitVec.eq_of_toNat_eq
  rw [BitVec.extractLsb'_toNat]
  simp only [BitVec.toNat_ofNat, Nat.shiftRight_zero]
  exact Nat.mod_mod_of_dvd _ (Nat.pow_dvd_pow 2 h)
theorem extend_eq (n : Nat) (sg : Bool) (x : Nat) (h1 : 1 ≤ n) : extend n (!sg) x =
    if sg then (BitVec.ofNat (8 * n) x).signExtend 64 else (BitVec.ofNat (8 * n) x).zeroExtend 64 := by
  cases sg
  · apply BitVec.eq_of_toNat_eq
    simp [extend, w64]
  · show BitVec.ofInt 64 (sgn (8 * n) x) = (BitVec.ofNat (8 * n) x).signExtend 64
    rw [sgn_eq (by omega)]; rfl
theorem pubDirectAs_law (a : Agent) (s : State) (c : CoreId) (ws : List (Nat × Byte)) : pubDirectAs a s c ws = { s with
    cores := s.cores.set c { cr s c with mine := (cr s c).mine ||| pubBit s }, mem := s.mem.wrPairs ws
    pubs := s.pubs ++ [⟨a, BitVec.allOnes 64, ((cr s c).incl ||| (cr s c).mine) ||| agentMask a s.pubs 1, ws⟩], badG := healG ws s.badG } := rfl
/-- What a write performed directly on memory does (R219, R227). -/
theorem directFwd_law (a : Agent) (s : State) (c : CoreId) (ws : List (Nat × Byte)) : ∃ n k o q, directFwd a s c ws = { s with
    cores := s.cores.set c { cr s c with mine := (cr s c).mine ||| pubBit s }, mem := s.mem.wrPairs ws
    pubs := s.pubs ++ [⟨a, BitVec.allOnes 64, ((cr s c).incl ||| (cr s c).mine) ||| agentMask a s.pubs 1, ws⟩], badG := healG ws s.badG
    nextId := n, ackWait := k, sent := o, outSeq := q } := by
  unfold directFwd
  obtain ⟨n, k, o, q, h⟩ := forwardAll_law a ((partOf s c).getD 0) ws (pubDirectAs a s c ws)
  exact ⟨n, k, o, q, by rw [h, pubDirectAs_law]⟩
theorem cr_set (s : State) (c : CoreId) (k : Core) (t : State) (h : t.cores = s.cores.set c k) (b : CoreId) : cr t b = if b = c then k else cr s b := by
  have h2 : cr t b = cr (setCr s c k) b := by unfold cr; rw [h]; rfl
  rw [h2]
  by_cases hb : b = c
  · subst hb; simp [setCr, cr]
  · have : ¬ c.val = b.val := fun e => hb (Fin.ext e.symm)
    rw [if_neg hb]
    exact Vector.getElem_set_ne c.isLt b.isLt this
theorem directFwd_mod (s : State) (c : CoreId) (f : Core → Core) (ws : List (Nat × Byte)) : ∃ n k o q, directFwd (.core c) (modCr s c f) c ws = { s with
    cores := s.cores.set c { f (cr s c) with mine := (f (cr s c)).mine ||| pubBit s }, mem := s.mem.wrPairs ws
    pubs := s.pubs ++ [⟨.core c, BitVec.allOnes 64, ((f (cr s c)).incl ||| (f (cr s c)).mine) ||| agentMask (.core c) s.pubs 1, ws⟩], badG := healG ws s.badG
    nextId := n, ackWait := k, sent := o, outSeq := q } := by
  obtain ⟨n, k, o, q, h⟩ := directFwd_law (.core c) (modCr s c f) c ws
  have e : cr (modCr s c f) c = f (cr s c) := by simp [modCr, setCr, cr]
  have e2 : ∀ k, (modCr s c f).cores.set c k = s.cores.set c k := by intro k; unfold modCr setCr; simp
  exact ⟨n, k, o, q, by rw [h, e, e2]; rfl⟩
/-- What a core's earlier stores leave when an operation on their bytes performs them (R210, R212). -/
theorem flushOwn_law (s : State) (c : CoreId) (seq lo n : Nat) : ∃ u m mem pubs b i k o q, flushOwn s c seq lo n = { s with
    cores := s.cores.set c { cr s c with unpub := u, mine := m }, mem := mem, pubs := pubs, badG := b
    nextId := i, ackWait := k, sent := o, outSeq := q } := by
  unfold flushOwn
  dsimp only
  split
  · refine ⟨(cr s c).unpub, (cr s c).mine, s.mem, s.pubs, s.badG, s.nextId, s.ackWait, s.sent, s.outSeq, ?_⟩
    have : s.cores.set c.val { cr s c with unpub := (cr s c).unpub, mine := (cr s c).mine } = s.cores := by
      show s.cores.set c.val (cr s c) = s.cores
      simp [cr]
    rw [this]
  · obtain ⟨i, k, o, q, h⟩ := directFwd_mod s c (fun k => { k with unpub := k.unpub.filter (fun w => !(decide (lo ≤ w.loc) && decide (w.loc < lo + n) && decide (w.seq < seq))) })
      (((cr s c).unpub.filter (fun w => decide (lo ≤ w.loc) && decide (w.loc < lo + n) && decide (w.seq < seq))).reverse.map (fun w => (w.loc, w.val)))
    rw [h]; exact ⟨_, _, _, _, _, _, _, _, _, rfl⟩
theorem landPend_eq (s : State) (c : CoreId) (n : Nat) (q : Pend) : landPend c n q s = { s with cores := s.cores.set c (fillRegs { cr s c with pend := (cr s c).pend.eraseIdx n } q q.dst true) } := rfl
theorem landPend_cr (s : State) (c : CoreId) (n : Nat) (q : Pend) (b : CoreId) :
    cr (landPend c n q s) b = if b = c then fillRegs { cr s c with pend := (cr s c).pend.eraseIdx n } q q.dst true else cr s b := cr_set s c _ _ (landPend_eq s c n q ▸ rfl) b
theorem landPend_scalar (s : State) (c : CoreId) (n : Nat) (q : Pend) (d : BitVec 6) (hd : q.dst = [.s d]) (x : W64) (hx : q.val.extractLsb' 0 64 = x) :
    (cr (landPend c n q s) c).pend = (cr s c).pend.eraseIdx n ∧ (cr (landPend c n q s) c).regs = ((cr s c).setS d ⟨x, true⟩).regs ∧
    (cr (landPend c n q s) c).group = (cr s c).group ∧ (cr (landPend c n q s) c).member = (cr s c).member := by
  rw [landPend_cr, if_pos rfl, hd]
  show (({ cr s c with pend := (cr s c).pend.eraseIdx n } : Core).setS d ⟨q.val.extractLsb' 0 64, true⟩).pend = _ ∧ (({ cr s c with pend := (cr s c).pend.eraseIdx n } : Core).setS d ⟨q.val.extractLsb' 0 64, true⟩).regs = _ ∧
    (({ cr s c with pend := (cr s c).pend.eraseIdx n } : Core).setS d ⟨q.val.extractLsb' 0 64, true⟩).group = _ ∧ (({ cr s c with pend := (cr s c).pend.eraseIdx n } : Core).setS d ⟨q.val.extractLsb' 0 64, true⟩).member = _
  rw [hx]
  unfold Core.setS
  split <;> exact ⟨rfl, rfl, rfl, rfl⟩
theorem landPend_mem (s : State) (c : CoreId) (n : Nat) (q : Pend) : (landPend c n q s).mem = s.mem ∧ (landPend c n q s).pubs = s.pubs := ⟨rfl, rfl⟩
theorem low_elem (v : BitVec 4096) (i : Nat) (hi : i < 64) : laneOf (v.extractLsb' 0 2048) i = elem v 32 i := by
  apply BitVec.eq_of_getLsbD_eq
  intro j hj
  unfold laneOf elem
  rw [BitVec.getLsbD_extractLsb', BitVec.getLsbD_extractLsb', BitVec.getLsbD_extractLsb']
  simp [hj, show 32 * i + j < 2048 by omega]
theorem lanes_fold (f : Lane → BitVec 32) : ∀ (ls : List Lane) (v : BitVec 4096), (ls.map (fun l => l.i)).Nodup → (∀ l ∈ ls, l.i < 64) →
    (∀ l ∈ ls, elem (ls.foldl (fun v l => setElem v 32 l.i (f l)) v) 32 l.i = f l) ∧
    (∀ i, i < 64 → (∀ l ∈ ls, l.i ≠ i) → elem (ls.foldl (fun v l => setElem v 32 l.i (f l)) v) 32 i = elem v 32 i)
  | [], v, _, _ => ⟨by simp, fun _ _ _ => rfl⟩
  | x :: ls, v, hn, hl => by
    rw [List.map_cons, List.nodup_cons] at hn
    obtain ⟨h1, h2⟩ := lanes_fold f ls (setElem v 32 x.i (f x)) hn.2 (fun l h => hl l (by simp [h]))
    refine ⟨fun l h => ?_, fun i hi h => ?_⟩
    · rw [List.foldl_cons]
      rcases List.mem_cons.1 h with rfl | h
      · have hx := hl l (by simp)
        rw [h2 l.i hx (fun y hy e => hn.1 (by rw [← e]; exact List.mem_map_of_mem hy)), elem_setElem _ _ _ _ (by omega), if_pos rfl]
      · exact h1 l h
    · rw [List.foldl_cons, h2 i hi (fun l hl => h l (by simp [hl])), elem_setElem _ _ _ _ (by omega), if_neg]
      exact fun e => h x (by simp) e.symm
theorem bitAt_test (w i : Nat) : bitAt w i = w.testBit i := by
  rw [Nat.testBit_eq_decide_div_mod_eq]; unfold bitAt
  cases h : decide (w / 2 ^ i % 2 = 1) <;> simp_all
theorem trapCore_idle (s : State) (c : CoreId) (h : HeldTrap) (ha : s.iss.act = false) (hh : (cr s c).h = false) (he : (cr s c).trapEntry.isSome = true) (hr : trapReady (cr s c) = true) :
    trapCore c h s = modCr s c (fun k => handlerCore h s.now { k with keptFurther := k.further, keptNext := k.nextUnit }) := by
  have h2 : (cr s c).trapEntry.isNone = false := by
    cases h3 : (cr s c).trapEntry <;> simp_all
  unfold trapCore
  simp only [ha, hh, h2, hr, Bool.false_and, Bool.or_self, Bool.false_eq_true, if_false, if_true]
  rw [enterTrap_eq]
  exact modCr_modCr s c _ _
theorem trap_idle (s : State) (c : CoreId) (h : HeldTrap) (ha : s.iss.act = false) (hh : (cr s c).h = false) (he : (cr s c).trapEntry.isSome = true) (hr : trapReady (cr s c) = true) :
    Entered s (trapCore c h s) c h.info h.unit h.leaf h.repc ∧ trapCore c h s = { s with cores := s.cores.set c (cr (trapCore c h s) c) } ∧
    (cr (trapCore c h s) c).failed = (cr s c).failed ∧ (cr (trapCore c h s) c).kept = (cr s c).kept := by
  have e := trapCore_idle s c h ha hh he hr
  have hm : cr (trapCore c h s) c = handlerCore h s.now { cr s c with keptFurther := (cr s c).further, keptNext := (cr s c).nextUnit } := by
    rw [e, cr_modCr_at, if_pos rfl]
  obtain ⟨f1, f2, f3, f4⟩ := frame_bytes (cr s c).l (frameOf h.info).1 (frameOf h.info).2
  refine ⟨?_, ?_, ?_, ?_⟩
  · unfold Entered
    rw [hm]
    have hl : (handlerCore h s.now { cr s c with keptFurther := (cr s c).further, keptNext := (cr s c).nextUnit }).l =
        (((cr s c).l.wrN 0 8 (frameOf h.info).1).wrN 8 8 (frameOf h.info).2).wrN 16 48 0 := by simp only [handlerCore]
    rw [hl]
    refine ⟨rfl, rfl, rfl, rfl, rfl, rfl, rfl, rfl, rfl, ?_, rfl, f1, f2, f3, f4⟩
    show some ((cr s c).trapEntry.getD 0) = (cr s c).trapEntry
    cases h3 : (cr s c).trapEntry <;> simp_all
  · rw [hm]; exact e
  · rw [hm]; rfl
  · rw [hm]; rfl
theorem entered_congr {s s' t : State} {c : CoreId} {i : TrapInfo} {u : CAddr} {l : BitVec 3} {r : BitVec 8} (h : Entered s' t c i u l r)
    (h1 : activeLoops (cr s' c) = activeLoops (cr s c)) (h2 : (cr s' c).trapEntry = (cr s c).trapEntry) (h3 : (cr s' c).l = (cr s c).l) : Entered s t c i u l r := by
  unfold Entered at h ⊢
  rw [← h1, ← h2, ← h3]; exact h
theorem vfOf_congr {s t : State} (h : t.parts = s.parts) (c : CoreId) : vfOf t c = vfOf s c := by
  unfold vfOf partOf vfOfPart pt; rw [h]
theorem markPosted_law (n : BitVec 16) : ∀ (l : List PageReq) (r : PageReq), l.find? (fun r => !r.posted) = some r → ∃ i : Nat, l[i]? = some r ∧ (markPosted n l)[i]? = some { r with posted := true, num := n }
  | [], r, h => by simp at h
  | x :: l, r, h => by
    unfold markPosted
    by_cases hx : x.posted = true
    · rw [if_pos hx]
      rw [List.find?_cons_of_neg (by simp [hx])] at h
      obtain ⟨i, h1, h2⟩ := markPosted_law n l r h
      exact ⟨i + 1, h1, h2⟩
    · rw [if_neg hx]
      rw [List.find?_cons_of_pos (by simp [hx])] at h
      cases h
      exact ⟨0, rfl, rfl⟩

end Sys2Proof.Machine
end

