-- ==== Sys2Proof/Laws/Links.lean ====
section
/-! SUPPORT. Engine commands at their end, and closes of pan regions (R236, R237, R255). -/
namespace Sys2Proof.Machine

theorem findMap (g : Cmd → Cmd) (p : Cmd → Bool) (h : ∀ x, p (g x) = p x) : ∀ l : List Cmd, (l.map g).find? p = (l.find? p).map g
  | [] => rfl
  | x :: l => by
    rw [List.map_cons]
    by_cases hx : p x = true
    · rw [List.find?_cons_of_pos (by rw [h]; exact hx), List.find?_cons_of_pos hx]; rfl
    · rw [List.find?_cons_of_neg (by rw [h]; exact hx), List.find?_cons_of_neg hx]; exact findMap g p h l
theorem cmdOf_mod (s : State) (c : CoreId) (id : Nat) (i : Nat) (f : Cmd → Cmd) (hi : ∀ k, (f k).id = k.id ∧ (f k).core = k.core) :
    cmdOf (modCmd i f s) c id = (cmdOf s c id).map (fun k => if k.id = i then f k else k) := by
  unfold cmdOf modCmd
  refine findMap _ _ ?_ _
  intro x
  split
  · rw [(hi x).1, (hi x).2]
  · rfl
theorem cmdOf_cfl {s : State} {c : CoreId} {id : Nat} {k : Cmd} {x : CflSt} (h : cmdOf s c id = some k) (hx : k.cfl = some x) (f : CflSt → CflSt) (i : Nat) (hi : i = k.id) :
    cmdOf (modCfl i f s) c id = some { k with cfl := some (f x), since := s.us } := by
  unfold modCfl
  have := cmdOf_mod s c id i (fun k => { k with cfl := k.cfl.map f, since := s.us }) (fun _ => ⟨rfl, rfl⟩)
  refine this.trans ?_
  rw [h, Option.map_some, if_pos hi.symm, hx]; rfl
theorem span_get : ∀ (lo n i : Nat), i < n → (span lo n)[i]? = some (lo + i)
  | _, 0, _, h => absurd h (Nat.not_lt_zero _)
  | lo, n + 1, 0, _ => rfl
  | lo, n + 1, i + 1, h => by
    show (span (lo + 1) n)[i]? = _
    rw [span_get (lo + 1) n i (by omega)]; congr 1; omega
theorem healG_sub (ws : List (Nat × Byte)) (bad : List Nat) (g : Nat) (h : g ∈ healG ws bad) : g ∈ bad := (List.mem_filter.1 h).1
theorem badColumn_sub {s t : State} (h : ∀ g ∈ t.badG, g ∈ s.badG) (loc n : Nat) (hb : (badColumn s loc n).isSome = false) : (badColumn t loc n).isSome = false := by
  unfold badColumn at hb ⊢
  simp only [Option.isSome_map, List.find?_isSome, Bool.eq_false_iff, ne_eq, not_exists, not_and] at hb ⊢
  exact fun g hg => hb g (h g hg)
theorem membBad_sub {s t : State} (h : ∀ g ∈ t.badG, g ∈ s.badG) (r : Region) (m : Nat) (hb : membBadAt s r m = none) : membBadAt t r m = none := by
  unfold membBadAt at hb ⊢
  simp only [List.findSome?_eq_none_iff, Option.map_eq_none_iff] at hb ⊢
  exact fun i hi => Option.isNone_iff_eq_none.1 (by
    have := badColumn_sub h _ _ (by rw [hb i hi]; rfl : (badColumn s (locOfOff r.locs (m * (panDesc r.desc).msize + 32 * i)) (min 32 (panDesc r.desc).msize)).isSome = false)
    simpa using this)
theorem membBad_congr {r r' : Region} (s : State) (m : Nat) (h1 : r'.desc = r.desc) (h2 : r'.locs = r.locs) (h3 : r'.base = r.base) : membBadAt s r' m = membBadAt s r m := by
  unfold membBadAt; rw [h1, h2, h3]
theorem regionOf_mod (s : State) (id : Nat) (f : Region → Region) (hf : ∀ r, (f r).id = r.id) : regionOf (modRegion id f s) id = (regionOf s id).map f := by
  unfold regionOf modRegion
  dsimp only
  generalize s.regions = l
  induction l with
  | nil => rfl
  | cons x l ih =>
    rw [List.map_cons]
    by_cases hx : x.id = id
    · rw [if_pos hx, List.find?_cons_of_pos (by simp [hf, hx]), List.find?_cons_of_pos (by simp [hx])]; rfl
    · rw [if_neg hx, List.find?_cons_of_neg (by simp [hx]), List.find?_cons_of_neg (by simp [hx]), ih]
/-- What a close leaves of a state: only regions and what a publication touches. -/
def CloseOnly (s t : State) : Prop := t = { s with regions := t.regions, badG := t.badG, mem := t.mem, pubs := t.pubs } ∧ ∀ g ∈ t.badG, g ∈ s.badG
def memberAfterClose (r : Region) (n m : Nat) : Memb :=
  if (membOf r m).bad = true ∨ dueOn (panDesc r.desc) n m (membOf r m) = false then { membOf r m with n := n } else advMemb (panDesc r.desc) r.table n m (membOf r m)
theorem closeMemb_law (id n : Nat) (s : State) (m : Nat) (r : Region) (h : regionOf s id = some r) (hb : membBadAt s r m = none) :
    CloseOnly s (closeMemb id n s m) ∧ regionOf (closeMemb id n s m) id = some { r with membs := r.membs.set m (memberAfterClose r n m) } := by
  unfold closeMemb
  rw [h]
  dsimp only
  have hset : ∀ k, regionOf (modRegion id (fun r => { r with membs := r.membs.set m k }) s) id = some { r with membs := r.membs.set m k } := by
    intro k; exact (regionOf_mod s id (fun r => { r with membs := r.membs.set m k }) (fun _ => rfl)).trans (by rw [h]; rfl)
  by_cases hc : ((membOf r m).bad || !dueOn (panDesc r.desc) n m (membOf r m)) = true
  · rw [if_pos hc]
    refine ⟨⟨rfl, fun g hg => hg⟩, ?_⟩
    rw [hset]; unfold memberAfterClose
    rw [if_pos (by simpa using hc)]
  · rw [if_neg hc, hb]
    dsimp only
    refine ⟨⟨rfl, fun g hg => healG_sub _ _ g hg⟩, ?_⟩
    have := hset (advMemb (panDesc r.desc) r.table n m (membOf r m))
    unfold memberAfterClose
    rw [if_neg (by simpa using hc)]
    exact this
theorem closes_law (id n : Nat) : ∀ (ms : List Nat) (s : State) (r : Region), ms.Nodup → regionOf s id = some r → (∀ m ∈ ms, membBadAt s r m = none) → (∀ m ∈ ms, m < r.membs.length) →
    ∃ l, CloseOnly s (ms.foldl (closeMemb id n) s) ∧ regionOf (ms.foldl (closeMemb id n) s) id = some { r with membs := l } ∧ l.length = r.membs.length ∧
      ∀ m, l.getD m ⟨[], 0, 0, 0, false⟩ = if m ∈ ms then memberAfterClose r n m else membOf r m
  | [], s, r, _, h, _, _ => ⟨r.membs, ⟨rfl, fun g hg => hg⟩, h, rfl, fun m => by simp [membOf]⟩
  | a :: ms, s, r, hn, h, hb, hl => by
    rw [List.nodup_cons] at hn
    obtain ⟨c1, c2⟩ := closeMemb_law id n s a r h (hb a (by simp))
    obtain ⟨l, d1, d2, d3, d4⟩ := closes_law id n ms (closeMemb id n s a) { r with membs := r.membs.set a (memberAfterClose r n a) } hn.2 c2
      (fun m hm => by
        exact (membBad_congr (r := r) (r' := { r with membs := r.membs.set a (memberAfterClose r n a) }) _ m rfl rfl rfl).trans (membBad_sub c1.2 r m (hb m (by simp [hm]))))
      (fun m hm => by rw [List.length_set]; exact hl m (by simp [hm]))
    refine ⟨l, ⟨?_, fun g hg => c1.2 g (d1.2 g hg)⟩, d2, by rw [d3, List.length_set], fun m => ?_⟩
    · rw [List.foldl_cons]
      rw [d1.1, c1.1]
    · rw [d4]
      have hg : ∀ j, membOf { r with membs := r.membs.set a (memberAfterClose r n a) } j = if j = a then memberAfterClose r n a else membOf r j := by
        intro j
        unfold membOf
        rw [List.getD_eq_getElem?_getD, List.getElem?_set]
        by_cases hj : a = j
        · subst hj; rw [if_pos rfl, if_pos rfl, if_pos (hl a (by simp))]; rfl
        · rw [if_neg hj, if_neg (fun e => hj e.symm), List.getD_eq_getElem?_getD]
      by_cases hm : m ∈ ms
      · have hma : m ≠ a := fun e => hn.1 (e ▸ hm)
        rw [if_pos hm, if_pos (by simp [hm])]
        have e := hg m
        rw [if_neg hma] at e
        have : memberAfterClose { r with membs := r.membs.set a (memberAfterClose r n a) } n m = memberAfterClose r n m := by
          show (if (membOf { r with membs := r.membs.set a (memberAfterClose r n a) } m).bad = true ∨ _ then _ else _) = _
          generalize hmm : membOf { r with membs := r.membs.set a (memberAfterClose r n a) } m = M at e ⊢
          rw [e]; rfl
        exact this
      · rw [if_neg hm, hg]
        by_cases hma : m = a
        · subst hma; simp
        · simp [hm, hma]

end Sys2Proof.Machine
end

