-- ==== Sys2Proof/Laws/PerInstr.lean ====
section
/-! SUPPORT. The round trip of the encoder and the decoder, one lemma for each constructor of Instr: the word of a well-formed
instruction decodes, in the slot class of the instruction, to that instruction with every operand (R38 to R52). -/
namespace Sys2Proof.Laws

/-- The word of a well-formed instruction decodes to it; an event has no word, and nothing is said of it. -/
def RoundTrip.Statement (i : Instr) : Prop :=
  i.wf = true → match slotOf i, encode i with
    | some k, some w => decodeClass k w = some i
    | _, _ => True

theorem RoundTrip.add (o : AluB) : RoundTrip.Statement (.add o) := by
  intro h
  have L : encAdd o = pack [(6, 0), (1, o.wb.toNat), (6, o.b.toNat), (1, o.wa.toNat), (6, o.a.toNat), (6, o.d.toNat), (6, 1)] := by
    simp only [encAdd, put, putB, pack]; omega
  have F : Fits [(6, 0), (1, o.wb.toNat), (6, o.b.toNat), (1, o.wa.toNat), (6, o.a.toNat), (6, o.d.toNat), (6, 1)] := ⟨by decide, bool_fits o.wb, o.b.isLt, bool_fits o.wa, o.a.isLt, o.d.isLt, by decide, trivial⟩
  show decodeClass .a (encAdd o) = some (.add o)
  generalize encAdd o = w at L ⊢
  have c0 : w / 2 ^ 26 % 2 ^ 6 = 1 := digit_at L F 6
  have c1 : w / 2 ^ 0 % 2 ^ 6 = 0 := digit_at L F 0
  have e2 : fld w 20 6 = o.d := fld_of (digit_at L F 5)
  have e3 : fld w 14 6 = o.a := fld_of (digit_at L F 4)
  have e4 : bitAt w 13 = o.wa := bit_of (digit_at L F 3)
  have e5 : fld w 7 6 = o.b := fld_of (digit_at L F 2)
  have e6 : bitAt w 6 = o.wb := bit_of (digit_at L F 1)
  simp only [decodeClass, decA, rdAdd, keep, c0, c1, e2, e3, e4, e5, e6, h]
  rfl
theorem RoundTrip.sub (o : AluB) : RoundTrip.Statement (.sub o) := by
  intro h
  have L : encSub o = pack [(6, 1), (1, o.wb.toNat), (6, o.b.toNat), (1, o.wa.toNat), (6, o.a.toNat), (6, o.d.toNat), (6, 1)] := by
    simp only [encSub, put, putB, pack]; omega
  have F : Fits [(6, 1), (1, o.wb.toNat), (6, o.b.toNat), (1, o.wa.toNat), (6, o.a.toNat), (6, o.d.toNat), (6, 1)] := ⟨by decide, bool_fits o.wb, o.b.isLt, bool_fits o.wa, o.a.isLt, o.d.isLt, by decide, trivial⟩
  show decodeClass .a (encSub o) = some (.sub o)
  generalize encSub o = w at L ⊢
  have c0 : w / 2 ^ 26 % 2 ^ 6 = 1 := digit_at L F 6
  have c1 : w / 2 ^ 0 % 2 ^ 6 = 1 := digit_at L F 0
  have e2 : fld w 20 6 = o.d := fld_of (digit_at L F 5)
  have e3 : fld w 14 6 = o.a := fld_of (digit_at L F 4)
  have e4 : bitAt w 13 = o.wa := bit_of (digit_at L F 3)
  have e5 : fld w 7 6 = o.b := fld_of (digit_at L F 2)
  have e6 : bitAt w 6 = o.wb := bit_of (digit_at L F 1)
  simp only [decodeClass, decA, rdSub, keep, c0, c1, e2, e3, e4, e5, e6, h]
  rfl
theorem RoundTrip.mul (o : AluB) : RoundTrip.Statement (.mul o) := by
  intro h
  have L : encMul o = pack [(6, 2), (1, o.wb.toNat), (6, o.b.toNat), (1, o.wa.toNat), (6, o.a.toNat), (6, o.d.toNat), (6, 1)] := by
    simp only [encMul, put, putB, pack]; omega
  have F : Fits [(6, 2), (1, o.wb.toNat), (6, o.b.toNat), (1, o.wa.toNat), (6, o.a.toNat), (6, o.d.toNat), (6, 1)] := ⟨by decide, bool_fits o.wb, o.b.isLt, bool_fits o.wa, o.a.isLt, o.d.isLt, by decide, trivial⟩
  show decodeClass .a (encMul o) = some (.mul o)
  generalize encMul o = w at L ⊢
  have c0 : w / 2 ^ 26 % 2 ^ 6 = 1 := digit_at L F 6
  have c1 : w / 2 ^ 0 % 2 ^ 6 = 2 := digit_at L F 0
  have e2 : fld w 20 6 = o.d := fld_of (digit_at L F 5)
  have e3 : fld w 14 6 = o.a := fld_of (digit_at L F 4)
  have e4 : bitAt w 13 = o.wa := bit_of (digit_at L F 3)
  have e5 : fld w 7 6 = o.b := fld_of (digit_at L F 2)
  have e6 : bitAt w 6 = o.wb := bit_of (digit_at L F 1)
  simp only [decodeClass, decA, rdMul, keep, c0, c1, e2, e3, e4, e5, e6, h]
  rfl
theorem RoundTrip.mulh (o : AluB) : RoundTrip.Statement (.mulh o) := by
  intro h
  have L : encMulh o = pack [(6, 3), (1, o.wb.toNat), (6, o.b.toNat), (1, o.wa.toNat), (6, o.a.toNat), (6, o.d.toNat), (6, 1)] := by
    simp only [encMulh, put, putB, pack]; omega
  have F : Fits [(6, 3), (1, o.wb.toNat), (6, o.b.toNat), (1, o.wa.toNat), (6, o.a.toNat), (6, o.d.toNat), (6, 1)] := ⟨by decide, bool_fits o.wb, o.b.isLt, bool_fits o.wa, o.a.isLt, o.d.isLt, by decide, trivial⟩
  show decodeClass .a (encMulh o) = some (.mulh o)
  generalize encMulh o = w at L ⊢
  have c0 : w / 2 ^ 26 % 2 ^ 6 = 1 := digit_at L F 6
  have c1 : w / 2 ^ 0 % 2 ^ 6 = 3 := digit_at L F 0
  have e2 : fld w 20 6 = o.d := fld_of (digit_at L F 5)
  have e3 : fld w 14 6 = o.a := fld_of (digit_at L F 4)
  have e4 : bitAt w 13 = o.wa := bit_of (digit_at L F 3)
  have e5 : fld w 7 6 = o.b := fld_of (digit_at L F 2)
  have e6 : bitAt w 6 = o.wb := bit_of (digit_at L F 1)
  simp only [decodeClass, decA, rdMulh, keep, c0, c1, e2, e3, e4, e5, e6, h]
  rfl
theorem RoundTrip.mulhu (o : AluB) : RoundTrip.Statement (.mulhu o) := by
  intro h
  have L : encMulhu o = pack [(6, 4), (1, o.wb.toNat), (6, o.b.toNat), (1, o.wa.toNat), (6, o.a.toNat), (6, o.d.toNat), (6, 1)] := by
    simp only [encMulhu, put, putB, pack]; omega
  have F : Fits [(6, 4), (1, o.wb.toNat), (6, o.b.toNat), (1, o.wa.toNat), (6, o.a.toNat), (6, o.d.toNat), (6, 1)] := ⟨by decide, bool_fits o.wb, o.b.isLt, bool_fits o.wa, o.a.isLt, o.d.isLt, by decide, trivial⟩
  show decodeClass .a (encMulhu o) = some (.mulhu o)
  generalize encMulhu o = w at L ⊢
  have c0 : w / 2 ^ 26 % 2 ^ 6 = 1 := digit_at L F 6
  have c1 : w / 2 ^ 0 % 2 ^ 6 = 4 := digit_at L F 0
  have e2 : fld w 20 6 = o.d := fld_of (digit_at L F 5)
  have e3 : fld w 14 6 = o.a := fld_of (digit_at L F 4)
  have e4 : bitAt w 13 = o.wa := bit_of (digit_at L F 3)
  have e5 : fld w 7 6 = o.b := fld_of (digit_at L F 2)
  have e6 : bitAt w 6 = o.wb := bit_of (digit_at L F 1)
  simp only [decodeClass, decA, rdMulhu, keep, c0, c1, e2, e3, e4, e5, e6, h]
  rfl
theorem RoundTrip.div (o : AluB) : RoundTrip.Statement (.div o) := by
  intro h
  have L : encDiv o = pack [(6, 5), (1, o.wb.toNat), (6, o.b.toNat), (1, o.wa.toNat), (6, o.a.toNat), (6, o.d.toNat), (6, 1)] := by
    simp only [encDiv, put, putB, pack]; omega
  have F : Fits [(6, 5), (1, o.wb.toNat), (6, o.b.toNat), (1, o.wa.toNat), (6, o.a.toNat), (6, o.d.toNat), (6, 1)] := ⟨by decide, bool_fits o.wb, o.b.isLt, bool_fits o.wa, o.a.isLt, o.d.isLt, by decide, trivial⟩
  show decodeClass .a (encDiv o) = some (.div o)
  generalize encDiv o = w at L ⊢
  have c0 : w / 2 ^ 26 % 2 ^ 6 = 1 := digit_at L F 6
  have c1 : w / 2 ^ 0 % 2 ^ 6 = 5 := digit_at L F 0
  have e2 : fld w 20 6 = o.d := fld_of (digit_at L F 5)
  have e3 : fld w 14 6 = o.a := fld_of (digit_at L F 4)
  have e4 : bitAt w 13 = o.wa := bit_of (digit_at L F 3)
  have e5 : fld w 7 6 = o.b := fld_of (digit_at L F 2)
  have e6 : bitAt w 6 = o.wb := bit_of (digit_at L F 1)
  simp only [decodeClass, decA, rdDiv, keep, c0, c1, e2, e3, e4, e5, e6, h]
  rfl
theorem RoundTrip.divu (o : AluB) : RoundTrip.Statement (.divu o) := by
  intro h
  have L : encDivu o = pack [(6, 6), (1, o.wb.toNat), (6, o.b.toNat), (1, o.wa.toNat), (6, o.a.toNat), (6, o.d.toNat), (6, 1)] := by
    simp only [encDivu, put, putB, pack]; omega
  have F : Fits [(6, 6), (1, o.wb.toNat), (6, o.b.toNat), (1, o.wa.toNat), (6, o.a.toNat), (6, o.d.toNat), (6, 1)] := ⟨by decide, bool_fits o.wb, o.b.isLt, bool_fits o.wa, o.a.isLt, o.d.isLt, by decide, trivial⟩
  show decodeClass .a (encDivu o) = some (.divu o)
  generalize encDivu o = w at L ⊢
  have c0 : w / 2 ^ 26 % 2 ^ 6 = 1 := digit_at L F 6
  have c1 : w / 2 ^ 0 % 2 ^ 6 = 6 := digit_at L F 0
  have e2 : fld w 20 6 = o.d := fld_of (digit_at L F 5)
  have e3 : fld w 14 6 = o.a := fld_of (digit_at L F 4)
  have e4 : bitAt w 13 = o.wa := bit_of (digit_at L F 3)
  have e5 : fld w 7 6 = o.b := fld_of (digit_at L F 2)
  have e6 : bitAt w 6 = o.wb := bit_of (digit_at L F 1)
  simp only [decodeClass, decA, rdDivu, keep, c0, c1, e2, e3, e4, e5, e6, h]
  rfl
theorem RoundTrip.rem (o : AluB) : RoundTrip.Statement (.rem o) := by
  intro h
  have L : encRem o = pack [(6, 7), (1, o.wb.toNat), (6, o.b.toNat), (1, o.wa.toNat), (6, o.a.toNat), (6, o.d.toNat), (6, 1)] := by
    simp only [encRem, put, putB, pack]; omega
  have F : Fits [(6, 7), (1, o.wb.toNat), (6, o.b.toNat), (1, o.wa.toNat), (6, o.a.toNat), (6, o.d.toNat), (6, 1)] := ⟨by decide, bool_fits o.wb, o.b.isLt, bool_fits o.wa, o.a.isLt, o.d.isLt, by decide, trivial⟩
  show decodeClass .a (encRem o) = some (.rem o)
  generalize encRem o = w at L ⊢
  have c0 : w / 2 ^ 26 % 2 ^ 6 = 1 := digit_at L F 6
  have c1 : w / 2 ^ 0 % 2 ^ 6 = 7 := digit_at L F 0
  have e2 : fld w 20 6 = o.d := fld_of (digit_at L F 5)
  have e3 : fld w 14 6 = o.a := fld_of (digit_at L F 4)
  have e4 : bitAt w 13 = o.wa := bit_of (digit_at L F 3)
  have e5 : fld w 7 6 = o.b := fld_of (digit_at L F 2)
  have e6 : bitAt w 6 = o.wb := bit_of (digit_at L F 1)
  simp only [decodeClass, decA, rdRem, keep, c0, c1, e2, e3, e4, e5, e6, h]
  rfl
theorem RoundTrip.remu (o : AluB) : RoundTrip.Statement (.remu o) := by
  intro h
  have L : encRemu o = pack [(6, 8), (1, o.wb.toNat), (6, o.b.toNat), (1, o.wa.toNat), (6, o.a.toNat), (6, o.d.toNat), (6, 1)] := by
    simp only [encRemu, put, putB, pack]; omega
  have F : Fits [(6, 8), (1, o.wb.toNat), (6, o.b.toNat), (1, o.wa.toNat), (6, o.a.toNat), (6, o.d.toNat), (6, 1)] := ⟨by decide, bool_fits o.wb, o.b.isLt, bool_fits o.wa, o.a.isLt, o.d.isLt, by decide, trivial⟩
  show decodeClass .a (encRemu o) = some (.remu o)
  generalize encRemu o = w at L ⊢
  have c0 : w / 2 ^ 26 % 2 ^ 6 = 1 := digit_at L F 6
  have c1 : w / 2 ^ 0 % 2 ^ 6 = 8 := digit_at L F 0
  have e2 : fld w 20 6 = o.d := fld_of (digit_at L F 5)
  have e3 : fld w 14 6 = o.a := fld_of (digit_at L F 4)
  have e4 : bitAt w 13 = o.wa := bit_of (digit_at L F 3)
  have e5 : fld w 7 6 = o.b := fld_of (digit_at L F 2)
  have e6 : bitAt w 6 = o.wb := bit_of (digit_at L F 1)
  simp only [decodeClass, decA, rdRemu, keep, c0, c1, e2, e3, e4, e5, e6, h]
  rfl
theorem RoundTrip.and (o : AluB) : RoundTrip.Statement (.and o) := by
  intro h
  have L : encAnd o = pack [(6, 9), (1, o.wb.toNat), (6, o.b.toNat), (1, o.wa.toNat), (6, o.a.toNat), (6, o.d.toNat), (6, 1)] := by
    simp only [encAnd, put, putB, pack]; omega
  have F : Fits [(6, 9), (1, o.wb.toNat), (6, o.b.toNat), (1, o.wa.toNat), (6, o.a.toNat), (6, o.d.toNat), (6, 1)] := ⟨by decide, bool_fits o.wb, o.b.isLt, bool_fits o.wa, o.a.isLt, o.d.isLt, by decide, trivial⟩
  show decodeClass .a (encAnd o) = some (.and o)
  generalize encAnd o = w at L ⊢
  have c0 : w / 2 ^ 26 % 2 ^ 6 = 1 := digit_at L F 6
  have c1 : w / 2 ^ 0 % 2 ^ 6 = 9 := digit_at L F 0
  have e2 : fld w 20 6 = o.d := fld_of (digit_at L F 5)
  have e3 : fld w 14 6 = o.a := fld_of (digit_at L F 4)
  have e4 : bitAt w 13 = o.wa := bit_of (digit_at L F 3)
  have e5 : fld w 7 6 = o.b := fld_of (digit_at L F 2)
  have e6 : bitAt w 6 = o.wb := bit_of (digit_at L F 1)
  simp only [decodeClass, decA, rdAnd, keep, c0, c1, e2, e3, e4, e5, e6, h]
  rfl
theorem RoundTrip.or (o : AluB) : RoundTrip.Statement (.or o) := by
  intro h
  have L : encOr o = pack [(6, 10), (1, o.wb.toNat), (6, o.b.toNat), (1, o.wa.toNat), (6, o.a.toNat), (6, o.d.toNat), (6, 1)] := by
    simp only [encOr, put, putB, pack]; omega
  have F : Fits [(6, 10), (1, o.wb.toNat), (6, o.b.toNat), (1, o.wa.toNat), (6, o.a.toNat), (6, o.d.toNat), (6, 1)] := ⟨by decide, bool_fits o.wb, o.b.isLt, bool_fits o.wa, o.a.isLt, o.d.isLt, by decide, trivial⟩
  show decodeClass .a (encOr o) = some (.or o)
  generalize encOr o = w at L ⊢
  have c0 : w / 2 ^ 26 % 2 ^ 6 = 1 := digit_at L F 6
  have c1 : w / 2 ^ 0 % 2 ^ 6 = 10 := digit_at L F 0
  have e2 : fld w 20 6 = o.d := fld_of (digit_at L F 5)
  have e3 : fld w 14 6 = o.a := fld_of (digit_at L F 4)
  have e4 : bitAt w 13 = o.wa := bit_of (digit_at L F 3)
  have e5 : fld w 7 6 = o.b := fld_of (digit_at L F 2)
  have e6 : bitAt w 6 = o.wb := bit_of (digit_at L F 1)
  simp only [decodeClass, decA, rdOr, keep, c0, c1, e2, e3, e4, e5, e6, h]
  rfl
theorem RoundTrip.xor (o : AluB) : RoundTrip.Statement (.xor o) := by
  intro h
  have L : encXor o = pack [(6, 11), (1, o.wb.toNat), (6, o.b.toNat), (1, o.wa.toNat), (6, o.a.toNat), (6, o.d.toNat), (6, 1)] := by
    simp only [encXor, put, putB, pack]; omega
  have F : Fits [(6, 11), (1, o.wb.toNat), (6, o.b.toNat), (1, o.wa.toNat), (6, o.a.toNat), (6, o.d.toNat), (6, 1)] := ⟨by decide, bool_fits o.wb, o.b.isLt, bool_fits o.wa, o.a.isLt, o.d.isLt, by decide, trivial⟩
  show decodeClass .a (encXor o) = some (.xor o)
  generalize encXor o = w at L ⊢
  have c0 : w / 2 ^ 26 % 2 ^ 6 = 1 := digit_at L F 6
  have c1 : w / 2 ^ 0 % 2 ^ 6 = 11 := digit_at L F 0
  have e2 : fld w 20 6 = o.d := fld_of (digit_at L F 5)
  have e3 : fld w 14 6 = o.a := fld_of (digit_at L F 4)
  have e4 : bitAt w 13 = o.wa := bit_of (digit_at L F 3)
  have e5 : fld w 7 6 = o.b := fld_of (digit_at L F 2)
  have e6 : bitAt w 6 = o.wb := bit_of (digit_at L F 1)
  simp only [decodeClass, decA, rdXor, keep, c0, c1, e2, e3, e4, e5, e6, h]
  rfl
theorem RoundTrip.andn (o : AluB) : RoundTrip.Statement (.andn o) := by
  intro h
  have L : encAndn o = pack [(6, 12), (1, o.wb.toNat), (6, o.b.toNat), (1, o.wa.toNat), (6, o.a.toNat), (6, o.d.toNat), (6, 1)] := by
    simp only [encAndn, put, putB, pack]; omega
  have F : Fits [(6, 12), (1, o.wb.toNat), (6, o.b.toNat), (1, o.wa.toNat), (6, o.a.toNat), (6, o.d.toNat), (6, 1)] := ⟨by decide, bool_fits o.wb, o.b.isLt, bool_fits o.wa, o.a.isLt, o.d.isLt, by decide, trivial⟩
  show decodeClass .a (encAndn o) = some (.andn o)
  generalize encAndn o = w at L ⊢
  have c0 : w / 2 ^ 26 % 2 ^ 6 = 1 := digit_at L F 6
  have c1 : w / 2 ^ 0 % 2 ^ 6 = 12 := digit_at L F 0
  have e2 : fld w 20 6 = o.d := fld_of (digit_at L F 5)
  have e3 : fld w 14 6 = o.a := fld_of (digit_at L F 4)
  have e4 : bitAt w 13 = o.wa := bit_of (digit_at L F 3)
  have e5 : fld w 7 6 = o.b := fld_of (digit_at L F 2)
  have e6 : bitAt w 6 = o.wb := bit_of (digit_at L F 1)
  simp only [decodeClass, decA, rdAndn, keep, c0, c1, e2, e3, e4, e5, e6, h]
  rfl
theorem RoundTrip.shl (o : AluB) : RoundTrip.Statement (.shl o) := by
  intro h
  have L : encShl o = pack [(6, 13), (1, o.wb.toNat), (6, o.b.toNat), (1, o.wa.toNat), (6, o.a.toNat), (6, o.d.toNat), (6, 1)] := by
    simp only [encShl, put, putB, pack]; omega
  have F : Fits [(6, 13), (1, o.wb.toNat), (6, o.b.toNat), (1, o.wa.toNat), (6, o.a.toNat), (6, o.d.toNat), (6, 1)] := ⟨by decide, bool_fits o.wb, o.b.isLt, bool_fits o.wa, o.a.isLt, o.d.isLt, by decide, trivial⟩
  show decodeClass .a (encShl o) = some (.shl o)
  generalize encShl o = w at L ⊢
  have c0 : w / 2 ^ 26 % 2 ^ 6 = 1 := digit_at L F 6
  have c1 : w / 2 ^ 0 % 2 ^ 6 = 13 := digit_at L F 0
  have e2 : fld w 20 6 = o.d := fld_of (digit_at L F 5)
  have e3 : fld w 14 6 = o.a := fld_of (digit_at L F 4)
  have e4 : bitAt w 13 = o.wa := bit_of (digit_at L F 3)
  have e5 : fld w 7 6 = o.b := fld_of (digit_at L F 2)
  have e6 : bitAt w 6 = o.wb := bit_of (digit_at L F 1)
  simp only [decodeClass, decA, rdShl, keep, c0, c1, e2, e3, e4, e5, e6, h]
  rfl
theorem RoundTrip.shr (o : AluB) : RoundTrip.Statement (.shr o) := by
  intro h
  have L : encShr o = pack [(6, 14), (1, o.wb.toNat), (6, o.b.toNat), (1, o.wa.toNat), (6, o.a.toNat), (6, o.d.toNat), (6, 1)] := by
    simp only [encShr, put, putB, pack]; omega
  have F : Fits [(6, 14), (1, o.wb.toNat), (6, o.b.toNat), (1, o.wa.toNat), (6, o.a.toNat), (6, o.d.toNat), (6, 1)] := ⟨by decide, bool_fits o.wb, o.b.isLt, bool_fits o.wa, o.a.isLt, o.d.isLt, by decide, trivial⟩
  show decodeClass .a (encShr o) = some (.shr o)
  generalize encShr o = w at L ⊢
  have c0 : w / 2 ^ 26 % 2 ^ 6 = 1 := digit_at L F 6
  have c1 : w / 2 ^ 0 % 2 ^ 6 = 14 := digit_at L F 0
  have e2 : fld w 20 6 = o.d := fld_of (digit_at L F 5)
  have e3 : fld w 14 6 = o.a := fld_of (digit_at L F 4)
  have e4 : bitAt w 13 = o.wa := bit_of (digit_at L F 3)
  have e5 : fld w 7 6 = o.b := fld_of (digit_at L F 2)
  have e6 : bitAt w 6 = o.wb := bit_of (digit_at L F 1)
  simp only [decodeClass, decA, rdShr, keep, c0, c1, e2, e3, e4, e5, e6, h]
  rfl
theorem RoundTrip.sar (o : AluB) : RoundTrip.Statement (.sar o) := by
  intro h
  have L : encSar o = pack [(6, 15), (1, o.wb.toNat), (6, o.b.toNat), (1, o.wa.toNat), (6, o.a.toNat), (6, o.d.toNat), (6, 1)] := by
    simp only [encSar, put, putB, pack]; omega
  have F : Fits [(6, 15), (1, o.wb.toNat), (6, o.b.toNat), (1, o.wa.toNat), (6, o.a.toNat), (6, o.d.toNat), (6, 1)] := ⟨by decide, bool_fits o.wb, o.b.isLt, bool_fits o.wa, o.a.isLt, o.d.isLt, by decide, trivial⟩
  show decodeClass .a (encSar o) = some (.sar o)
  generalize encSar o = w at L ⊢
  have c0 : w / 2 ^ 26 % 2 ^ 6 = 1 := digit_at L F 6
  have c1 : w / 2 ^ 0 % 2 ^ 6 = 15 := digit_at L F 0
  have e2 : fld w 20 6 = o.d := fld_of (digit_at L F 5)
  have e3 : fld w 14 6 = o.a := fld_of (digit_at L F 4)
  have e4 : bitAt w 13 = o.wa := bit_of (digit_at L F 3)
  have e5 : fld w 7 6 = o.b := fld_of (digit_at L F 2)
  have e6 : bitAt w 6 = o.wb := bit_of (digit_at L F 1)
  simp only [decodeClass, decA, rdSar, keep, c0, c1, e2, e3, e4, e5, e6, h]
  rfl
theorem RoundTrip.rol (o : AluB) : RoundTrip.Statement (.rol o) := by
  intro h
  have L : encRol o = pack [(6, 16), (1, o.wb.toNat), (6, o.b.toNat), (1, o.wa.toNat), (6, o.a.toNat), (6, o.d.toNat), (6, 1)] := by
    simp only [encRol, put, putB, pack]; omega
  have F : Fits [(6, 16), (1, o.wb.toNat), (6, o.b.toNat), (1, o.wa.toNat), (6, o.a.toNat), (6, o.d.toNat), (6, 1)] := ⟨by decide, bool_fits o.wb, o.b.isLt, bool_fits o.wa, o.a.isLt, o.d.isLt, by decide, trivial⟩
  show decodeClass .a (encRol o) = some (.rol o)
  generalize encRol o = w at L ⊢
  have c0 : w / 2 ^ 26 % 2 ^ 6 = 1 := digit_at L F 6
  have c1 : w / 2 ^ 0 % 2 ^ 6 = 16 := digit_at L F 0
  have e2 : fld w 20 6 = o.d := fld_of (digit_at L F 5)
  have e3 : fld w 14 6 = o.a := fld_of (digit_at L F 4)
  have e4 : bitAt w 13 = o.wa := bit_of (digit_at L F 3)
  have e5 : fld w 7 6 = o.b := fld_of (digit_at L F 2)
  have e6 : bitAt w 6 = o.wb := bit_of (digit_at L F 1)
  simp only [decodeClass, decA, rdRol, keep, c0, c1, e2, e3, e4, e5, e6, h]
  rfl
theorem RoundTrip.min (o : AluB) : RoundTrip.Statement (.min o) := by
  intro h
  have L : encMin o = pack [(6, 17), (1, o.wb.toNat), (6, o.b.toNat), (1, o.wa.toNat), (6, o.a.toNat), (6, o.d.toNat), (6, 1)] := by
    simp only [encMin, put, putB, pack]; omega
  have F : Fits [(6, 17), (1, o.wb.toNat), (6, o.b.toNat), (1, o.wa.toNat), (6, o.a.toNat), (6, o.d.toNat), (6, 1)] := ⟨by decide, bool_fits o.wb, o.b.isLt, bool_fits o.wa, o.a.isLt, o.d.isLt, by decide, trivial⟩
  show decodeClass .a (encMin o) = some (.min o)
  generalize encMin o = w at L ⊢
  have c0 : w / 2 ^ 26 % 2 ^ 6 = 1 := digit_at L F 6
  have c1 : w / 2 ^ 0 % 2 ^ 6 = 17 := digit_at L F 0
  have e2 : fld w 20 6 = o.d := fld_of (digit_at L F 5)
  have e3 : fld w 14 6 = o.a := fld_of (digit_at L F 4)
  have e4 : bitAt w 13 = o.wa := bit_of (digit_at L F 3)
  have e5 : fld w 7 6 = o.b := fld_of (digit_at L F 2)
  have e6 : bitAt w 6 = o.wb := bit_of (digit_at L F 1)
  simp only [decodeClass, decA, rdMin, keep, c0, c1, e2, e3, e4, e5, e6, h]
  rfl
theorem RoundTrip.max (o : AluB) : RoundTrip.Statement (.max o) := by
  intro h
  have L : encMax o = pack [(6, 18), (1, o.wb.toNat), (6, o.b.toNat), (1, o.wa.toNat), (6, o.a.toNat), (6, o.d.toNat), (6, 1)] := by
    simp only [encMax, put, putB, pack]; omega
  have F : Fits [(6, 18), (1, o.wb.toNat), (6, o.b.toNat), (1, o.wa.toNat), (6, o.a.toNat), (6, o.d.toNat), (6, 1)] := ⟨by decide, bool_fits o.wb, o.b.isLt, bool_fits o.wa, o.a.isLt, o.d.isLt, by decide, trivial⟩
  show decodeClass .a (encMax o) = some (.max o)
  generalize encMax o = w at L ⊢
  have c0 : w / 2 ^ 26 % 2 ^ 6 = 1 := digit_at L F 6
  have c1 : w / 2 ^ 0 % 2 ^ 6 = 18 := digit_at L F 0
  have e2 : fld w 20 6 = o.d := fld_of (digit_at L F 5)
  have e3 : fld w 14 6 = o.a := fld_of (digit_at L F 4)
  have e4 : bitAt w 13 = o.wa := bit_of (digit_at L F 3)
  have e5 : fld w 7 6 = o.b := fld_of (digit_at L F 2)
  have e6 : bitAt w 6 = o.wb := bit_of (digit_at L F 1)
  simp only [decodeClass, decA, rdMax, keep, c0, c1, e2, e3, e4, e5, e6, h]
  rfl
theorem RoundTrip.minu (o : AluB) : RoundTrip.Statement (.minu o) := by
  intro h
  have L : encMinu o = pack [(6, 19), (1, o.wb.toNat), (6, o.b.toNat), (1, o.wa.toNat), (6, o.a.toNat), (6, o.d.toNat), (6, 1)] := by
    simp only [encMinu, put, putB, pack]; omega
  have F : Fits [(6, 19), (1, o.wb.toNat), (6, o.b.toNat), (1, o.wa.toNat), (6, o.a.toNat), (6, o.d.toNat), (6, 1)] := ⟨by decide, bool_fits o.wb, o.b.isLt, bool_fits o.wa, o.a.isLt, o.d.isLt, by decide, trivial⟩
  show decodeClass .a (encMinu o) = some (.minu o)
  generalize encMinu o = w at L ⊢
  have c0 : w / 2 ^ 26 % 2 ^ 6 = 1 := digit_at L F 6
  have c1 : w / 2 ^ 0 % 2 ^ 6 = 19 := digit_at L F 0
  have e2 : fld w 20 6 = o.d := fld_of (digit_at L F 5)
  have e3 : fld w 14 6 = o.a := fld_of (digit_at L F 4)
  have e4 : bitAt w 13 = o.wa := bit_of (digit_at L F 3)
  have e5 : fld w 7 6 = o.b := fld_of (digit_at L F 2)
  have e6 : bitAt w 6 = o.wb := bit_of (digit_at L F 1)
  simp only [decodeClass, decA, rdMinu, keep, c0, c1, e2, e3, e4, e5, e6, h]
  rfl
theorem RoundTrip.maxu (o : AluB) : RoundTrip.Statement (.maxu o) := by
  intro h
  have L : encMaxu o = pack [(6, 20), (1, o.wb.toNat), (6, o.b.toNat), (1, o.wa.toNat), (6, o.a.toNat), (6, o.d.toNat), (6, 1)] := by
    simp only [encMaxu, put, putB, pack]; omega
  have F : Fits [(6, 20), (1, o.wb.toNat), (6, o.b.toNat), (1, o.wa.toNat), (6, o.a.toNat), (6, o.d.toNat), (6, 1)] := ⟨by decide, bool_fits o.wb, o.b.isLt, bool_fits o.wa, o.a.isLt, o.d.isLt, by decide, trivial⟩
  show decodeClass .a (encMaxu o) = some (.maxu o)
  generalize encMaxu o = w at L ⊢
  have c0 : w / 2 ^ 26 % 2 ^ 6 = 1 := digit_at L F 6
  have c1 : w / 2 ^ 0 % 2 ^ 6 = 20 := digit_at L F 0
  have e2 : fld w 20 6 = o.d := fld_of (digit_at L F 5)
  have e3 : fld w 14 6 = o.a := fld_of (digit_at L F 4)
  have e4 : bitAt w 13 = o.wa := bit_of (digit_at L F 3)
  have e5 : fld w 7 6 = o.b := fld_of (digit_at L F 2)
  have e6 : bitAt w 6 = o.wb := bit_of (digit_at L F 1)
  simp only [decodeClass, decA, rdMaxu, keep, c0, c1, e2, e3, e4, e5, e6, h]
  rfl
theorem RoundTrip.clmull (o : AluB) : RoundTrip.Statement (.clmull o) := by
  intro h
  have L : encClmull o = pack [(6, 21), (1, o.wb.toNat), (6, o.b.toNat), (1, o.wa.toNat), (6, o.a.toNat), (6, o.d.toNat), (6, 1)] := by
    simp only [encClmull, put, putB, pack]; omega
  have F : Fits [(6, 21), (1, o.wb.toNat), (6, o.b.toNat), (1, o.wa.toNat), (6, o.a.toNat), (6, o.d.toNat), (6, 1)] := ⟨by decide, bool_fits o.wb, o.b.isLt, bool_fits o.wa, o.a.isLt, o.d.isLt, by decide, trivial⟩
  show decodeClass .a (encClmull o) = some (.clmull o)
  generalize encClmull o = w at L ⊢
  have c0 : w / 2 ^ 26 % 2 ^ 6 = 1 := digit_at L F 6
  have c1 : w / 2 ^ 0 % 2 ^ 6 = 21 := digit_at L F 0
  have e2 : fld w 20 6 = o.d := fld_of (digit_at L F 5)
  have e3 : fld w 14 6 = o.a := fld_of (digit_at L F 4)
  have e4 : bitAt w 13 = o.wa := bit_of (digit_at L F 3)
  have e5 : fld w 7 6 = o.b := fld_of (digit_at L F 2)
  have e6 : bitAt w 6 = o.wb := bit_of (digit_at L F 1)
  simp only [decodeClass, decA, rdClmull, keep, c0, c1, e2, e3, e4, e5, e6, h]
  rfl
theorem RoundTrip.clmulh (o : AluB) : RoundTrip.Statement (.clmulh o) := by
  intro h
  have L : encClmulh o = pack [(6, 22), (1, o.wb.toNat), (6, o.b.toNat), (1, o.wa.toNat), (6, o.a.toNat), (6, o.d.toNat), (6, 1)] := by
    simp only [encClmulh, put, putB, pack]; omega
  have F : Fits [(6, 22), (1, o.wb.toNat), (6, o.b.toNat), (1, o.wa.toNat), (6, o.a.toNat), (6, o.d.toNat), (6, 1)] := ⟨by decide, bool_fits o.wb, o.b.isLt, bool_fits o.wa, o.a.isLt, o.d.isLt, by decide, trivial⟩
  show decodeClass .a (encClmulh o) = some (.clmulh o)
  generalize encClmulh o = w at L ⊢
  have c0 : w / 2 ^ 26 % 2 ^ 6 = 1 := digit_at L F 6
  have c1 : w / 2 ^ 0 % 2 ^ 6 = 22 := digit_at L F 0
  have e2 : fld w 20 6 = o.d := fld_of (digit_at L F 5)
  have e3 : fld w 14 6 = o.a := fld_of (digit_at L F 4)
  have e4 : bitAt w 13 = o.wa := bit_of (digit_at L F 3)
  have e5 : fld w 7 6 = o.b := fld_of (digit_at L F 2)
  have e6 : bitAt w 6 = o.wb := bit_of (digit_at L F 1)
  simp only [decodeClass, decA, rdClmulh, keep, c0, c1, e2, e3, e4, e5, e6, h]
  rfl
theorem RoundTrip.clz (o : AluU) : RoundTrip.Statement (.clz o) := by
  intro h
  have L : encClz o = pack [(6, 23), (7, 0), (1, o.wa.toNat), (6, o.a.toNat), (6, o.d.toNat), (6, 1)] := by
    simp only [encClz, put, putB, pack]; omega
  have F : Fits [(6, 23), (7, 0), (1, o.wa.toNat), (6, o.a.toNat), (6, o.d.toNat), (6, 1)] := ⟨by decide, by decide, bool_fits o.wa, o.a.isLt, o.d.isLt, by decide, trivial⟩
  show decodeClass .a (encClz o) = some (.clz o)
  generalize encClz o = w at L ⊢
  have c0 : w / 2 ^ 26 % 2 ^ 6 = 1 := digit_at L F 5
  have c1 : w / 2 ^ 6 % 2 ^ 7 = 0 := digit_at L F 1
  have c2 : w / 2 ^ 0 % 2 ^ 6 = 23 := digit_at L F 0
  have e3 : fld w 20 6 = o.d := fld_of (digit_at L F 4)
  have e4 : fld w 14 6 = o.a := fld_of (digit_at L F 3)
  have e5 : bitAt w 13 = o.wa := bit_of (digit_at L F 2)
  simp only [decodeClass, decA, rdClz, keep, c0, c1, c2, e3, e4, e5, h]
  rfl
theorem RoundTrip.ctz (o : AluU) : RoundTrip.Statement (.ctz o) := by
  intro h
  have L : encCtz o = pack [(6, 24), (7, 0), (1, o.wa.toNat), (6, o.a.toNat), (6, o.d.toNat), (6, 1)] := by
    simp only [encCtz, put, putB, pack]; omega
  have F : Fits [(6, 24), (7, 0), (1, o.wa.toNat), (6, o.a.toNat), (6, o.d.toNat), (6, 1)] := ⟨by decide, by decide, bool_fits o.wa, o.a.isLt, o.d.isLt, by decide, trivial⟩
  show decodeClass .a (encCtz o) = some (.ctz o)
  generalize encCtz o = w at L ⊢
  have c0 : w / 2 ^ 26 % 2 ^ 6 = 1 := digit_at L F 5
  have c1 : w / 2 ^ 6 % 2 ^ 7 = 0 := digit_at L F 1
  have c2 : w / 2 ^ 0 % 2 ^ 6 = 24 := digit_at L F 0
  have e3 : fld w 20 6 = o.d := fld_of (digit_at L F 4)
  have e4 : fld w 14 6 = o.a := fld_of (digit_at L F 3)
  have e5 : bitAt w 13 = o.wa := bit_of (digit_at L F 2)
  simp only [decodeClass, decA, rdCtz, keep, c0, c1, c2, e3, e4, e5, h]
  rfl
theorem RoundTrip.popc (o : AluU) : RoundTrip.Statement (.popc o) := by
  intro h
  have L : encPopc o = pack [(6, 25), (7, 0), (1, o.wa.toNat), (6, o.a.toNat), (6, o.d.toNat), (6, 1)] := by
    simp only [encPopc, put, putB, pack]; omega
  have F : Fits [(6, 25), (7, 0), (1, o.wa.toNat), (6, o.a.toNat), (6, o.d.toNat), (6, 1)] := ⟨by decide, by decide, bool_fits o.wa, o.a.isLt, o.d.isLt, by decide, trivial⟩
  show decodeClass .a (encPopc o) = some (.popc o)
  generalize encPopc o = w at L ⊢
  have c0 : w / 2 ^ 26 % 2 ^ 6 = 1 := digit_at L F 5
  have c1 : w / 2 ^ 6 % 2 ^ 7 = 0 := digit_at L F 1
  have c2 : w / 2 ^ 0 % 2 ^ 6 = 25 := digit_at L F 0
  have e3 : fld w 20 6 = o.d := fld_of (digit_at L F 4)
  have e4 : fld w 14 6 = o.a := fld_of (digit_at L F 3)
  have e5 : bitAt w 13 = o.wa := bit_of (digit_at L F 2)
  simp only [decodeClass, decA, rdPopc, keep, c0, c1, c2, e3, e4, e5, h]
  rfl
theorem RoundTrip.mov (o : AluU) : RoundTrip.Statement (.mov o) := by
  intro h
  have L : encMov o = pack [(6, 26), (7, 0), (1, o.wa.toNat), (6, o.a.toNat), (6, o.d.toNat), (6, 1)] := by
    simp only [encMov, put, putB, pack]; omega
  have F : Fits [(6, 26), (7, 0), (1, o.wa.toNat), (6, o.a.toNat), (6, o.d.toNat), (6, 1)] := ⟨by decide, by decide, bool_fits o.wa, o.a.isLt, o.d.isLt, by decide, trivial⟩
  show decodeClass .a (encMov o) = some (.mov o)
  generalize encMov o = w at L ⊢
  have c0 : w / 2 ^ 26 % 2 ^ 6 = 1 := digit_at L F 5
  have c1 : w / 2 ^ 6 % 2 ^ 7 = 0 := digit_at L F 1
  have c2 : w / 2 ^ 0 % 2 ^ 6 = 26 := digit_at L F 0
  have e3 : fld w 20 6 = o.d := fld_of (digit_at L F 4)
  have e4 : fld w 14 6 = o.a := fld_of (digit_at L F 3)
  have e5 : bitAt w 13 = o.wa := bit_of (digit_at L F 2)
  simp only [decodeClass, decA, rdMov, keep, c0, c1, c2, e3, e4, e5, h]
  rfl
theorem RoundTrip.sextI8 (o : AluU) : RoundTrip.Statement (.sextI8 o) := by
  intro h
  have L : encSextI8 o = pack [(6, 27), (7, 0), (1, o.wa.toNat), (6, o.a.toNat), (6, o.d.toNat), (6, 1)] := by
    simp only [encSextI8, put, putB, pack]; omega
  have F : Fits [(6, 27), (7, 0), (1, o.wa.toNat), (6, o.a.toNat), (6, o.d.toNat), (6, 1)] := ⟨by decide, by decide, bool_fits o.wa, o.a.isLt, o.d.isLt, by decide, trivial⟩
  show decodeClass .a (encSextI8 o) = some (.sextI8 o)
  generalize encSextI8 o = w at L ⊢
  have c0 : w / 2 ^ 26 % 2 ^ 6 = 1 := digit_at L F 5
  have c1 : w / 2 ^ 6 % 2 ^ 7 = 0 := digit_at L F 1
  have c2 : w / 2 ^ 0 % 2 ^ 6 = 27 := digit_at L F 0
  have e3 : fld w 20 6 = o.d := fld_of (digit_at L F 4)
  have e4 : fld w 14 6 = o.a := fld_of (digit_at L F 3)
  have e5 : bitAt w 13 = o.wa := bit_of (digit_at L F 2)
  simp only [decodeClass, decA, rdSextI8, keep, c0, c1, c2, e3, e4, e5, h]
  rfl
theorem RoundTrip.sextI16 (o : AluU) : RoundTrip.Statement (.sextI16 o) := by
  intro h
  have L : encSextI16 o = pack [(6, 28), (7, 0), (1, o.wa.toNat), (6, o.a.toNat), (6, o.d.toNat), (6, 1)] := by
    simp only [encSextI16, put, putB, pack]; omega
  have F : Fits [(6, 28), (7, 0), (1, o.wa.toNat), (6, o.a.toNat), (6, o.d.toNat), (6, 1)] := ⟨by decide, by decide, bool_fits o.wa, o.a.isLt, o.d.isLt, by decide, trivial⟩
  show decodeClass .a (encSextI16 o) = some (.sextI16 o)
  generalize encSextI16 o = w at L ⊢
  have c0 : w / 2 ^ 26 % 2 ^ 6 = 1 := digit_at L F 5
  have c1 : w / 2 ^ 6 % 2 ^ 7 = 0 := digit_at L F 1
  have c2 : w / 2 ^ 0 % 2 ^ 6 = 28 := digit_at L F 0
  have e3 : fld w 20 6 = o.d := fld_of (digit_at L F 4)
  have e4 : fld w 14 6 = o.a := fld_of (digit_at L F 3)
  have e5 : bitAt w 13 = o.wa := bit_of (digit_at L F 2)
  simp only [decodeClass, decA, rdSextI16, keep, c0, c1, c2, e3, e4, e5, h]
  rfl
theorem RoundTrip.sextI32 (o : AluU) : RoundTrip.Statement (.sextI32 o) := by
  intro h
  have L : encSextI32 o = pack [(6, 29), (7, 0), (1, o.wa.toNat), (6, o.a.toNat), (6, o.d.toNat), (6, 1)] := by
    simp only [encSextI32, put, putB, pack]; omega
  have F : Fits [(6, 29), (7, 0), (1, o.wa.toNat), (6, o.a.toNat), (6, o.d.toNat), (6, 1)] := ⟨by decide, by decide, bool_fits o.wa, o.a.isLt, o.d.isLt, by decide, trivial⟩
  show decodeClass .a (encSextI32 o) = some (.sextI32 o)
  generalize encSextI32 o = w at L ⊢
  have c0 : w / 2 ^ 26 % 2 ^ 6 = 1 := digit_at L F 5
  have c1 : w / 2 ^ 6 % 2 ^ 7 = 0 := digit_at L F 1
  have c2 : w / 2 ^ 0 % 2 ^ 6 = 29 := digit_at L F 0
  have e3 : fld w 20 6 = o.d := fld_of (digit_at L F 4)
  have e4 : fld w 14 6 = o.a := fld_of (digit_at L F 3)
  have e5 : bitAt w 13 = o.wa := bit_of (digit_at L F 2)
  simp only [decodeClass, decA, rdSextI32, keep, c0, c1, c2, e3, e4, e5, h]
  rfl
theorem RoundTrip.zextI8 (o : AluU) : RoundTrip.Statement (.zextI8 o) := by
  intro h
  have L : encZextI8 o = pack [(6, 30), (7, 0), (1, o.wa.toNat), (6, o.a.toNat), (6, o.d.toNat), (6, 1)] := by
    simp only [encZextI8, put, putB, pack]; omega
  have F : Fits [(6, 30), (7, 0), (1, o.wa.toNat), (6, o.a.toNat), (6, o.d.toNat), (6, 1)] := ⟨by decide, by decide, bool_fits o.wa, o.a.isLt, o.d.isLt, by decide, trivial⟩
  show decodeClass .a (encZextI8 o) = some (.zextI8 o)
  generalize encZextI8 o = w at L ⊢
  have c0 : w / 2 ^ 26 % 2 ^ 6 = 1 := digit_at L F 5
  have c1 : w / 2 ^ 6 % 2 ^ 7 = 0 := digit_at L F 1
  have c2 : w / 2 ^ 0 % 2 ^ 6 = 30 := digit_at L F 0
  have e3 : fld w 20 6 = o.d := fld_of (digit_at L F 4)
  have e4 : fld w 14 6 = o.a := fld_of (digit_at L F 3)
  have e5 : bitAt w 13 = o.wa := bit_of (digit_at L F 2)
  simp only [decodeClass, decA, rdZextI8, keep, c0, c1, c2, e3, e4, e5, h]
  rfl
theorem RoundTrip.zextI16 (o : AluU) : RoundTrip.Statement (.zextI16 o) := by
  intro h
  have L : encZextI16 o = pack [(6, 31), (7, 0), (1, o.wa.toNat), (6, o.a.toNat), (6, o.d.toNat), (6, 1)] := by
    simp only [encZextI16, put, putB, pack]; omega
  have F : Fits [(6, 31), (7, 0), (1, o.wa.toNat), (6, o.a.toNat), (6, o.d.toNat), (6, 1)] := ⟨by decide, by decide, bool_fits o.wa, o.a.isLt, o.d.isLt, by decide, trivial⟩
  show decodeClass .a (encZextI16 o) = some (.zextI16 o)
  generalize encZextI16 o = w at L ⊢
  have c0 : w / 2 ^ 26 % 2 ^ 6 = 1 := digit_at L F 5
  have c1 : w / 2 ^ 6 % 2 ^ 7 = 0 := digit_at L F 1
  have c2 : w / 2 ^ 0 % 2 ^ 6 = 31 := digit_at L F 0
  have e3 : fld w 20 6 = o.d := fld_of (digit_at L F 4)
  have e4 : fld w 14 6 = o.a := fld_of (digit_at L F 3)
  have e5 : bitAt w 13 = o.wa := bit_of (digit_at L F 2)
  simp only [decodeClass, decA, rdZextI16, keep, c0, c1, c2, e3, e4, e5, h]
  rfl
theorem RoundTrip.zextI32 (o : AluU) : RoundTrip.Statement (.zextI32 o) := by
  intro h
  have L : encZextI32 o = pack [(6, 32), (7, 0), (1, o.wa.toNat), (6, o.a.toNat), (6, o.d.toNat), (6, 1)] := by
    simp only [encZextI32, put, putB, pack]; omega
  have F : Fits [(6, 32), (7, 0), (1, o.wa.toNat), (6, o.a.toNat), (6, o.d.toNat), (6, 1)] := ⟨by decide, by decide, bool_fits o.wa, o.a.isLt, o.d.isLt, by decide, trivial⟩
  show decodeClass .a (encZextI32 o) = some (.zextI32 o)
  generalize encZextI32 o = w at L ⊢
  have c0 : w / 2 ^ 26 % 2 ^ 6 = 1 := digit_at L F 5
  have c1 : w / 2 ^ 6 % 2 ^ 7 = 0 := digit_at L F 1
  have c2 : w / 2 ^ 0 % 2 ^ 6 = 32 := digit_at L F 0
  have e3 : fld w 20 6 = o.d := fld_of (digit_at L F 4)
  have e4 : fld w 14 6 = o.a := fld_of (digit_at L F 3)
  have e5 : bitAt w 13 = o.wa := bit_of (digit_at L F 2)
  simp only [decodeClass, decA, rdZextI32, keep, c0, c1, c2, e3, e4, e5, h]
  rfl
theorem RoundTrip.sel (o : SelF) : RoundTrip.Statement (.sel o) := by
  intro h
  have L : encSel o = pack [(1, 0), (5, o.p.toNat), (1, o.wb.toNat), (6, o.b.toNat), (1, o.wa.toNat), (6, o.a.toNat), (6, o.d.toNat), (6, 2)] := by
    simp only [encSel, put, putB, pack]; omega
  have F : Fits [(1, 0), (5, o.p.toNat), (1, o.wb.toNat), (6, o.b.toNat), (1, o.wa.toNat), (6, o.a.toNat), (6, o.d.toNat), (6, 2)] := ⟨by decide, o.p.isLt, bool_fits o.wb, o.b.isLt, bool_fits o.wa, o.a.isLt, o.d.isLt, by decide, trivial⟩
  show decodeClass .a (encSel o) = some (.sel o)
  generalize encSel o = w at L ⊢
  have c0 : w / 2 ^ 26 % 2 ^ 6 = 2 := digit_at L F 7
  have c1 : w / 2 ^ 0 % 2 ^ 1 = 0 := digit_at L F 0
  have e2 : fld w 20 6 = o.d := fld_of (digit_at L F 6)
  have e3 : fld w 14 6 = o.a := fld_of (digit_at L F 5)
  have e4 : bitAt w 13 = o.wa := bit_of (digit_at L F 4)
  have e5 : fld w 7 6 = o.b := fld_of (digit_at L F 3)
  have e6 : bitAt w 6 = o.wb := bit_of (digit_at L F 2)
  have e7 : fld w 1 5 = o.p := fld_of (digit_at L F 1)
  simp only [decodeClass, decA, rdSel, keep, c0, c1, e2, e3, e4, e5, e6, e7, h]
  rfl
theorem RoundTrip.addi (o : AddiF) : RoundTrip.Statement (.addi o) := by
  intro h
  have L : encAddi o = pack [(13, o.imm.toNat), (1, o.wa.toNat), (6, o.a.toNat), (6, o.d.toNat), (6, 3)] := by
    simp only [encAddi, put, putB, pack]; omega
  have F : Fits [(13, o.imm.toNat), (1, o.wa.toNat), (6, o.a.toNat), (6, o.d.toNat), (6, 3)] := ⟨o.imm.isLt, bool_fits o.wa, o.a.isLt, o.d.isLt, by decide, trivial⟩
  show decodeClass .a (encAddi o) = some (.addi o)
  generalize encAddi o = w at L ⊢
  have c0 : w / 2 ^ 26 % 2 ^ 6 = 3 := digit_at L F 4
  have e1 : fld w 20 6 = o.d := fld_of (digit_at L F 3)
  have e2 : fld w 14 6 = o.a := fld_of (digit_at L F 2)
  have e3 : bitAt w 13 = o.wa := bit_of (digit_at L F 1)
  have e4 : fld w 0 13 = o.imm := fld_of (digit_at L F 0)
  simp only [decodeClass, decA, rdAddi, keep, c0, e1, e2, e3, e4, h]
  rfl
theorem RoundTrip.lea (o : LeaF) : RoundTrip.Statement (.lea o) := by
  intro h
  have L : encLea o = pack [(3, 0), (3, o.k.toNat), (1, o.wb.toNat), (6, o.b.toNat), (1, o.wa.toNat), (6, o.a.toNat), (6, o.d.toNat), (6, 4)] := by
    simp only [encLea, put, putB, pack]; omega
  have F : Fits [(3, 0), (3, o.k.toNat), (1, o.wb.toNat), (6, o.b.toNat), (1, o.wa.toNat), (6, o.a.toNat), (6, o.d.toNat), (6, 4)] := ⟨by decide, o.k.isLt, bool_fits o.wb, o.b.isLt, bool_fits o.wa, o.a.isLt, o.d.isLt, by decide, trivial⟩
  show decodeClass .a (encLea o) = some (.lea o)
  generalize encLea o = w at L ⊢
  have c0 : w / 2 ^ 26 % 2 ^ 6 = 4 := digit_at L F 7
  have c1 : w / 2 ^ 0 % 2 ^ 3 = 0 := digit_at L F 0
  have e2 : fld w 20 6 = o.d := fld_of (digit_at L F 6)
  have e3 : fld w 14 6 = o.a := fld_of (digit_at L F 5)
  have e4 : bitAt w 13 = o.wa := bit_of (digit_at L F 4)
  have e5 : fld w 7 6 = o.b := fld_of (digit_at L F 3)
  have e6 : bitAt w 6 = o.wb := bit_of (digit_at L F 2)
  have e7 : fld w 3 3 = o.k := fld_of (digit_at L F 1)
  simp only [decodeClass, decA, rdLea, keep, c0, c1, e2, e3, e4, e5, e6, e7, h]
  rfl
theorem RoundTrip.li (o : LiF) : RoundTrip.Statement (.li o) := by
  intro h
  have L : encLi o = pack [(20, o.imm.toNat), (6, o.d.toNat), (6, 5)] := by
    simp only [encLi, put, pack]; omega
  have F : Fits [(20, o.imm.toNat), (6, o.d.toNat), (6, 5)] := ⟨o.imm.isLt, o.d.isLt, by decide, trivial⟩
  show decodeClass .a (encLi o) = some (.li o)
  generalize encLi o = w at L ⊢
  have c0 : w / 2 ^ 26 % 2 ^ 6 = 5 := digit_at L F 2
  have e1 : fld w 20 6 = o.d := fld_of (digit_at L F 1)
  have e2 : fld w 0 20 = o.imm := fld_of (digit_at L F 0)
  simp only [decodeClass, decA, rdLi, keep, c0, e1, e2, h]
  rfl
theorem RoundTrip.lih (o : LihF) : RoundTrip.Statement (.lih o) := by
  intro h
  have L : encLih o = pack [(1, 0), (1, o.wd.toNat), (16, o.imm.toNat), (2, o.h.toNat), (6, o.d.toNat), (6, 6)] := by
    simp only [encLih, put, putB, pack]; omega
  have F : Fits [(1, 0), (1, o.wd.toNat), (16, o.imm.toNat), (2, o.h.toNat), (6, o.d.toNat), (6, 6)] := ⟨by decide, bool_fits o.wd, o.imm.isLt, o.h.isLt, o.d.isLt, by decide, trivial⟩
  show decodeClass .a (encLih o) = some (.lih o)
  generalize encLih o = w at L ⊢
  have c0 : w / 2 ^ 26 % 2 ^ 6 = 6 := digit_at L F 5
  have c1 : w / 2 ^ 0 % 2 ^ 1 = 0 := digit_at L F 0
  have e2 : fld w 20 6 = o.d := fld_of (digit_at L F 4)
  have e3 : fld w 18 2 = o.h := fld_of (digit_at L F 3)
  have e4 : fld w 2 16 = o.imm := fld_of (digit_at L F 2)
  have e5 : bitAt w 1 = o.wd := bit_of (digit_at L F 1)
  simp only [decodeClass, decA, rdLih, keep, c0, c1, e2, e3, e4, e5, h]
  rfl
theorem RoundTrip.cmp (o : CmpF) : RoundTrip.Statement (.cmp o) := by
  intro h
  have L : encCmp o = pack [(3, 0), (4, o.cc.toNat), (1, o.wb.toNat), (6, o.b.toNat), (1, o.wa.toNat), (6, o.a.toNat), (5, o.p.toNat), (6, 7)] := by
    simp only [encCmp, put, putB, pack]; omega
  have F : Fits [(3, 0), (4, o.cc.toNat), (1, o.wb.toNat), (6, o.b.toNat), (1, o.wa.toNat), (6, o.a.toNat), (5, o.p.toNat), (6, 7)] := ⟨by decide, o.cc.isLt, bool_fits o.wb, o.b.isLt, bool_fits o.wa, o.a.isLt, o.p.isLt, by decide, trivial⟩
  show decodeClass .a (encCmp o) = some (.cmp o)
  generalize encCmp o = w at L ⊢
  have c0 : w / 2 ^ 26 % 2 ^ 6 = 7 := digit_at L F 7
  have c1 : w / 2 ^ 0 % 2 ^ 3 = 0 := digit_at L F 0
  have e2 : fld w 21 5 = o.p := fld_of (digit_at L F 6)
  have e3 : fld w 15 6 = o.a := fld_of (digit_at L F 5)
  have e4 : bitAt w 14 = o.wa := bit_of (digit_at L F 4)
  have e5 : fld w 8 6 = o.b := fld_of (digit_at L F 3)
  have e6 : bitAt w 7 = o.wb := bit_of (digit_at L F 2)
  have e7 : fld w 3 4 = o.cc := fld_of (digit_at L F 1)
  simp only [decodeClass, decA, rdCmp, keep, c0, c1, e2, e3, e4, e5, e6, e7, h]
  rfl
theorem RoundTrip.cmpi (o : CmpiF) : RoundTrip.Statement (.cmpi o) := by
  intro h
  have L : encCmpi o = pack [(10, o.imm.toNat), (4, o.cc.toNat), (1, o.wa.toNat), (6, o.a.toNat), (5, o.p.toNat), (6, 8)] := by
    simp only [encCmpi, put, putB, pack]; omega
  have F : Fits [(10, o.imm.toNat), (4, o.cc.toNat), (1, o.wa.toNat), (6, o.a.toNat), (5, o.p.toNat), (6, 8)] := ⟨o.imm.isLt, o.cc.isLt, bool_fits o.wa, o.a.isLt, o.p.isLt, by decide, trivial⟩
  show decodeClass .a (encCmpi o) = some (.cmpi o)
  generalize encCmpi o = w at L ⊢
  have c0 : w / 2 ^ 26 % 2 ^ 6 = 8 := digit_at L F 5
  have e1 : fld w 21 5 = o.p := fld_of (digit_at L F 4)
  have e2 : fld w 15 6 = o.a := fld_of (digit_at L F 3)
  have e3 : bitAt w 14 = o.wa := bit_of (digit_at L F 2)
  have e4 : fld w 10 4 = o.cc := fld_of (digit_at L F 1)
  have e5 : fld w 0 10 = o.imm := fld_of (digit_at L F 0)
  simp only [decodeClass, decA, rdCmpi, keep, c0, e1, e2, e3, e4, e5, h]
  rfl
theorem RoundTrip.pand (o : PlogF) : RoundTrip.Statement (.pand o) := by
  intro h
  have L : encPand o = pack [(7, 0), (2, 0), (1, o.nb.toNat), (5, o.b.toNat), (1, o.na.toNat), (5, o.a.toNat), (5, o.d.toNat), (6, 9)] := by
    simp only [encPand, put, putB, pack]; omega
  have F : Fits [(7, 0), (2, 0), (1, o.nb.toNat), (5, o.b.toNat), (1, o.na.toNat), (5, o.a.toNat), (5, o.d.toNat), (6, 9)] := ⟨by decide, by decide, bool_fits o.nb, o.b.isLt, bool_fits o.na, o.a.isLt, o.d.isLt, by decide, trivial⟩
  show decodeClass .a (encPand o) = some (.pand o)
  generalize encPand o = w at L ⊢
  have c0 : w / 2 ^ 26 % 2 ^ 6 = 9 := digit_at L F 7
  have c1 : w / 2 ^ 7 % 2 ^ 2 = 0 := digit_at L F 1
  have c2 : w / 2 ^ 0 % 2 ^ 7 = 0 := digit_at L F 0
  have e3 : fld w 21 5 = o.d := fld_of (digit_at L F 6)
  have e4 : fld w 16 5 = o.a := fld_of (digit_at L F 5)
  have e5 : bitAt w 15 = o.na := bit_of (digit_at L F 4)
  have e6 : fld w 10 5 = o.b := fld_of (digit_at L F 3)
  have e7 : bitAt w 9 = o.nb := bit_of (digit_at L F 2)
  simp only [decodeClass, decA, rdPand, keep, c0, c1, c2, e3, e4, e5, e6, e7, h]
  rfl
theorem RoundTrip.por (o : PlogF) : RoundTrip.Statement (.por o) := by
  intro h
  have L : encPor o = pack [(7, 0), (2, 1), (1, o.nb.toNat), (5, o.b.toNat), (1, o.na.toNat), (5, o.a.toNat), (5, o.d.toNat), (6, 9)] := by
    simp only [encPor, put, putB, pack]; omega
  have F : Fits [(7, 0), (2, 1), (1, o.nb.toNat), (5, o.b.toNat), (1, o.na.toNat), (5, o.a.toNat), (5, o.d.toNat), (6, 9)] := ⟨by decide, by decide, bool_fits o.nb, o.b.isLt, bool_fits o.na, o.a.isLt, o.d.isLt, by decide, trivial⟩
  show decodeClass .a (encPor o) = some (.por o)
  generalize encPor o = w at L ⊢
  have c0 : w / 2 ^ 26 % 2 ^ 6 = 9 := digit_at L F 7
  have c1 : w / 2 ^ 7 % 2 ^ 2 = 1 := digit_at L F 1
  have c2 : w / 2 ^ 0 % 2 ^ 7 = 0 := digit_at L F 0
  have e3 : fld w 21 5 = o.d := fld_of (digit_at L F 6)
  have e4 : fld w 16 5 = o.a := fld_of (digit_at L F 5)
  have e5 : bitAt w 15 = o.na := bit_of (digit_at L F 4)
  have e6 : fld w 10 5 = o.b := fld_of (digit_at L F 3)
  have e7 : bitAt w 9 = o.nb := bit_of (digit_at L F 2)
  simp only [decodeClass, decA, rdPor, keep, c0, c1, c2, e3, e4, e5, e6, e7, h]
  rfl
theorem RoundTrip.pxor (o : PlogF) : RoundTrip.Statement (.pxor o) := by
  intro h
  have L : encPxor o = pack [(7, 0), (2, 2), (1, o.nb.toNat), (5, o.b.toNat), (1, o.na.toNat), (5, o.a.toNat), (5, o.d.toNat), (6, 9)] := by
    simp only [encPxor, put, putB, pack]; omega
  have F : Fits [(7, 0), (2, 2), (1, o.nb.toNat), (5, o.b.toNat), (1, o.na.toNat), (5, o.a.toNat), (5, o.d.toNat), (6, 9)] := ⟨by decide, by decide, bool_fits o.nb, o.b.isLt, bool_fits o.na, o.a.isLt, o.d.isLt, by decide, trivial⟩
  show decodeClass .a (encPxor o) = some (.pxor o)
  generalize encPxor o = w at L ⊢
  have c0 : w / 2 ^ 26 % 2 ^ 6 = 9 := digit_at L F 7
  have c1 : w / 2 ^ 7 % 2 ^ 2 = 2 := digit_at L F 1
  have c2 : w / 2 ^ 0 % 2 ^ 7 = 0 := digit_at L F 0
  have e3 : fld w 21 5 = o.d := fld_of (digit_at L F 6)
  have e4 : fld w 16 5 = o.a := fld_of (digit_at L F 5)
  have e5 : bitAt w 15 = o.na := bit_of (digit_at L F 4)
  have e6 : fld w 10 5 = o.b := fld_of (digit_at L F 3)
  have e7 : bitAt w 9 = o.nb := bit_of (digit_at L F 2)
  simp only [decodeClass, decA, rdPxor, keep, c0, c1, c2, e3, e4, e5, e6, e7, h]
  rfl
theorem RoundTrip.pandn (o : PlogF) : RoundTrip.Statement (.pandn o) := by
  intro h
  have L : encPandn o = pack [(7, 0), (2, 3), (1, o.nb.toNat), (5, o.b.toNat), (1, o.na.toNat), (5, o.a.toNat), (5, o.d.toNat), (6, 9)] := by
    simp only [encPandn, put, putB, pack]; omega
  have F : Fits [(7, 0), (2, 3), (1, o.nb.toNat), (5, o.b.toNat), (1, o.na.toNat), (5, o.a.toNat), (5, o.d.toNat), (6, 9)] := ⟨by decide, by decide, bool_fits o.nb, o.b.isLt, bool_fits o.na, o.a.isLt, o.d.isLt, by decide, trivial⟩
  show decodeClass .a (encPandn o) = some (.pandn o)
  generalize encPandn o = w at L ⊢
  have c0 : w / 2 ^ 26 % 2 ^ 6 = 9 := digit_at L F 7
  have c1 : w / 2 ^ 7 % 2 ^ 2 = 3 := digit_at L F 1
  have c2 : w / 2 ^ 0 % 2 ^ 7 = 0 := digit_at L F 0
  have e3 : fld w 21 5 = o.d := fld_of (digit_at L F 6)
  have e4 : fld w 16 5 = o.a := fld_of (digit_at L F 5)
  have e5 : bitAt w 15 = o.na := bit_of (digit_at L F 4)
  have e6 : fld w 10 5 = o.b := fld_of (digit_at L F 3)
  have e7 : bitAt w 9 = o.nb := bit_of (digit_at L F 2)
  simp only [decodeClass, decA, rdPandn, keep, c0, c1, c2, e3, e4, e5, e6, e7, h]
  rfl
theorem RoundTrip.prepLabel (o : PrepLF) : RoundTrip.Statement (.prepLabel o) := by
  intro h
  have L : encPrepLabel o = pack [(22, o.off.toNat), (1, 0), (3, o.b.toNat), (6, 10)] := by
    simp only [encPrepLabel, put, pack]; omega
  have F : Fits [(22, o.off.toNat), (1, 0), (3, o.b.toNat), (6, 10)] := ⟨o.off.isLt, by decide, o.b.isLt, by decide, trivial⟩
  show decodeClass .a (encPrepLabel o) = some (.prepLabel o)
  generalize encPrepLabel o = w at L ⊢
  have c0 : w / 2 ^ 26 % 2 ^ 6 = 10 := digit_at L F 3
  have c1 : w / 2 ^ 22 % 2 ^ 1 = 0 := digit_at L F 1
  have e2 : fld w 23 3 = o.b := fld_of (digit_at L F 2)
  have e3 : fld w 0 22 = o.off := fld_of (digit_at L F 0)
  simp only [decodeClass, decA, rdPrepLabel, keep, c0, c1, e2, e3, h]
  rfl
theorem RoundTrip.prepReg (o : PrepRF) : RoundTrip.Statement (.prepReg o) := by
  intro h
  have L : encPrepReg o = pack [(15, 0), (1, o.wa.toNat), (6, o.a.toNat), (1, 1), (3, o.b.toNat), (6, 10)] := by
    simp only [encPrepReg, put, putB, pack]; omega
  have F : Fits [(15, 0), (1, o.wa.toNat), (6, o.a.toNat), (1, 1), (3, o.b.toNat), (6, 10)] := ⟨by decide, bool_fits o.wa, o.a.isLt, by decide, o.b.isLt, by decide, trivial⟩
  show decodeClass .a (encPrepReg o) = some (.prepReg o)
  generalize encPrepReg o = w at L ⊢
  have c0 : w / 2 ^ 26 % 2 ^ 6 = 10 := digit_at L F 5
  have c1 : w / 2 ^ 22 % 2 ^ 1 = 1 := digit_at L F 3
  have c2 : w / 2 ^ 0 % 2 ^ 15 = 0 := digit_at L F 0
  have e3 : fld w 23 3 = o.b := fld_of (digit_at L F 4)
  have e4 : fld w 16 6 = o.a := fld_of (digit_at L F 2)
  have e5 : bitAt w 15 = o.wa := bit_of (digit_at L F 1)
  simp only [decodeClass, decA, rdPrepReg, keep, c0, c1, c2, e3, e4, e5, h]
  rfl
theorem RoundTrip.getc (o : GetcF) : RoundTrip.Statement (.getc o) := by
  intro h
  have L : encGetc o = pack [(8, 0), (10, o.c.toNat), (2, 0), (6, o.d.toNat), (6, 11)] := by
    simp only [encGetc, put, pack]; omega
  have F : Fits [(8, 0), (10, o.c.toNat), (2, 0), (6, o.d.toNat), (6, 11)] := ⟨by decide, o.c.isLt, by decide, o.d.isLt, by decide, trivial⟩
  show decodeClass .a (encGetc o) = some (.getc o)
  generalize encGetc o = w at L ⊢
  have c0 : w / 2 ^ 26 % 2 ^ 6 = 11 := digit_at L F 4
  have c1 : w / 2 ^ 18 % 2 ^ 2 = 0 := digit_at L F 2
  have c2 : w / 2 ^ 0 % 2 ^ 8 = 0 := digit_at L F 0
  have e3 : fld w 20 6 = o.d := fld_of (digit_at L F 3)
  have e4 : fld w 8 10 = o.c := fld_of (digit_at L F 1)
  have d : w / 2 ^ 19 % 2 ^ 1 = 0 := by omega
  simp only [decodeClass, decA, rdGetc, keep, d, c0, c1, c2, e3, e4, h]
  rfl
theorem RoundTrip.setc (o : SetcF) : RoundTrip.Statement (.setc o) := by
  intro h
  have L : encSetc o = pack [(8, 0), (10, o.c.toNat), (1, o.wa.toNat), (1, 1), (6, o.a.toNat), (6, 11)] := by
    simp only [encSetc, put, putB, pack]; omega
  have F : Fits [(8, 0), (10, o.c.toNat), (1, o.wa.toNat), (1, 1), (6, o.a.toNat), (6, 11)] := ⟨by decide, o.c.isLt, bool_fits o.wa, by decide, o.a.isLt, by decide, trivial⟩
  show decodeClass .a (encSetc o) = some (.setc o)
  generalize encSetc o = w at L ⊢
  have c0 : w / 2 ^ 26 % 2 ^ 6 = 11 := digit_at L F 5
  have c1 : w / 2 ^ 19 % 2 ^ 1 = 1 := digit_at L F 3
  have c2 : w / 2 ^ 0 % 2 ^ 8 = 0 := digit_at L F 0
  have e3 : fld w 20 6 = o.a := fld_of (digit_at L F 4)
  have e4 : bitAt w 18 = o.wa := bit_of (digit_at L F 2)
  have e5 : fld w 8 10 = o.c := fld_of (digit_at L F 1)
  simp only [decodeClass, decA, rdSetc, keep, c0, c1, c2, e3, e4, e5, h]
  rfl
theorem RoundTrip.ldl (o : LdF12) : RoundTrip.Statement (.ldl o) := by
  intro h
  have L : encLdl o = pack [(12, o.off.toNat), (1, o.wb.toNat), (6, o.base.toNat), (1, o.u.toNat), (6, o.d.toNat), (2, o.z.toNat), (4, 1)] := by
    simp only [encLdl, put, putB, pack]; omega
  have F : Fits [(12, o.off.toNat), (1, o.wb.toNat), (6, o.base.toNat), (1, o.u.toNat), (6, o.d.toNat), (2, o.z.toNat), (4, 1)] := ⟨o.off.isLt, bool_fits o.wb, o.base.isLt, bool_fits o.u, o.d.isLt, o.z.isLt, by decide, trivial⟩
  show decodeClass .l (encLdl o) = some (.ldl o)
  generalize encLdl o = w at L ⊢
  have c0 : w / 2 ^ 28 % 2 ^ 4 = 1 := digit_at L F 6
  have e1 : fld w 26 2 = o.z := fld_of (digit_at L F 5)
  have e2 : fld w 20 6 = o.d := fld_of (digit_at L F 4)
  have e3 : bitAt w 19 = o.u := bit_of (digit_at L F 3)
  have e4 : fld w 13 6 = o.base := fld_of (digit_at L F 2)
  have e5 : bitAt w 12 = o.wb := bit_of (digit_at L F 1)
  have e6 : fld w 0 12 = o.off := fld_of (digit_at L F 0)
  simp only [decodeClass, decL, rdLdl, keep, c0, e1, e2, e3, e4, e5, e6, h]
  rfl
theorem RoundTrip.stl (o : StF12) : RoundTrip.Statement (.stl o) := by
  intro h
  have L : encStl o = pack [(12, o.off.toNat), (1, o.wb.toNat), (6, o.base.toNat), (1, o.wv.toNat), (6, o.v.toNat), (2, o.z.toNat), (4, 2)] := by
    simp only [encStl, put, putB, pack]; omega
  have F : Fits [(12, o.off.toNat), (1, o.wb.toNat), (6, o.base.toNat), (1, o.wv.toNat), (6, o.v.toNat), (2, o.z.toNat), (4, 2)] := ⟨o.off.isLt, bool_fits o.wb, o.base.isLt, bool_fits o.wv, o.v.isLt, o.z.isLt, by decide, trivial⟩
  show decodeClass .l (encStl o) = some (.stl o)
  generalize encStl o = w at L ⊢
  have c0 : w / 2 ^ 28 % 2 ^ 4 = 2 := digit_at L F 6
  have e1 : fld w 26 2 = o.z := fld_of (digit_at L F 5)
  have e2 : fld w 20 6 = o.v := fld_of (digit_at L F 4)
  have e3 : bitAt w 19 = o.wv := bit_of (digit_at L F 3)
  have e4 : fld w 13 6 = o.base := fld_of (digit_at L F 2)
  have e5 : bitAt w 12 = o.wb := bit_of (digit_at L F 1)
  have e6 : fld w 0 12 = o.off := fld_of (digit_at L F 0)
  simp only [decodeClass, decL, rdStl, keep, c0, e1, e2, e3, e4, e5, e6, h]
  rfl
theorem RoundTrip.vldl (o : VldlF) : RoundTrip.Statement (.vldl o) := by
  intro h
  have L : encVldl o = pack [(10, o.off.toNat), (1, o.wb.toNat), (6, o.base.toNat), (1, 0), (6, o.d.toNat), (4, o.t.toNat), (4, 3)] := by
    simp only [encVldl, put, putB, pack]; omega
  have F : Fits [(10, o.off.toNat), (1, o.wb.toNat), (6, o.base.toNat), (1, 0), (6, o.d.toNat), (4, o.t.toNat), (4, 3)] := ⟨o.off.isLt, bool_fits o.wb, o.base.isLt, by decide, o.d.isLt, o.t.isLt, by decide, trivial⟩
  show decodeClass .l (encVldl o) = some (.vldl o)
  generalize encVldl o = w at L ⊢
  have c0 : w / 2 ^ 28 % 2 ^ 4 = 3 := digit_at L F 6
  have c1 : w / 2 ^ 17 % 2 ^ 1 = 0 := digit_at L F 3
  have e2 : fld w 24 4 = o.t := fld_of (digit_at L F 5)
  have e3 : fld w 18 6 = o.d := fld_of (digit_at L F 4)
  have e4 : fld w 11 6 = o.base := fld_of (digit_at L F 2)
  have e5 : bitAt w 10 = o.wb := bit_of (digit_at L F 1)
  have e6 : fld w 0 10 = o.off := fld_of (digit_at L F 0)
  simp only [decodeClass, decL, rdVldl, keep, c0, c1, e2, e3, e4, e5, e6, h]
  rfl
theorem RoundTrip.vldlStream (o : VldlQF) : RoundTrip.Statement (.vldlStream o) := by
  intro h
  have L : encVldlStream o = pack [(11, 0), (4, o.q.toNat), (2, 0), (1, 1), (6, o.d.toNat), (4, o.t.toNat), (4, 3)] := by
    simp only [encVldlStream, put, pack]; omega
  have F : Fits [(11, 0), (4, o.q.toNat), (2, 0), (1, 1), (6, o.d.toNat), (4, o.t.toNat), (4, 3)] := ⟨by decide, o.q.isLt, by decide, by decide, o.d.isLt, o.t.isLt, by decide, trivial⟩
  show decodeClass .l (encVldlStream o) = some (.vldlStream o)
  generalize encVldlStream o = w at L ⊢
  have c0 : w / 2 ^ 28 % 2 ^ 4 = 3 := digit_at L F 6
  have c1 : w / 2 ^ 17 % 2 ^ 1 = 1 := digit_at L F 3
  have c2 : w / 2 ^ 15 % 2 ^ 2 = 0 := digit_at L F 2
  have c3 : w / 2 ^ 0 % 2 ^ 11 = 0 := digit_at L F 0
  have e4 : fld w 24 4 = o.t := fld_of (digit_at L F 5)
  have e5 : fld w 18 6 = o.d := fld_of (digit_at L F 4)
  have e6 : fld w 11 4 = o.q := fld_of (digit_at L F 1)
  simp only [decodeClass, decL, rdVldlStream, keep, c0, c1, c2, c3, e4, e5, e6, h]
  rfl
theorem RoundTrip.vstl (o : VstlF) : RoundTrip.Statement (.vstl o) := by
  intro h
  have L : encVstl o = pack [(10, o.off.toNat), (1, o.wb.toNat), (6, o.base.toNat), (1, 0), (6, o.v.toNat), (1, o.wv.toNat), (3, o.m.toNat), (4, 4)] := by
    simp only [encVstl, put, putB, pack]; omega
  have F : Fits [(10, o.off.toNat), (1, o.wb.toNat), (6, o.base.toNat), (1, 0), (6, o.v.toNat), (1, o.wv.toNat), (3, o.m.toNat), (4, 4)] := ⟨o.off.isLt, bool_fits o.wb, o.base.isLt, by decide, o.v.isLt, bool_fits o.wv, o.m.isLt, by decide, trivial⟩
  show decodeClass .l (encVstl o) = some (.vstl o)
  generalize encVstl o = w at L ⊢
  have c0 : w / 2 ^ 28 % 2 ^ 4 = 4 := digit_at L F 7
  have c1 : w / 2 ^ 17 % 2 ^ 1 = 0 := digit_at L F 3
  have e2 : fld w 25 3 = o.m := fld_of (digit_at L F 6)
  have e3 : bitAt w 24 = o.wv := bit_of (digit_at L F 5)
  have e4 : fld w 18 6 = o.v := fld_of (digit_at L F 4)
  have e5 : fld w 11 6 = o.base := fld_of (digit_at L F 2)
  have e6 : bitAt w 10 = o.wb := bit_of (digit_at L F 1)
  have e7 : fld w 0 10 = o.off := fld_of (digit_at L F 0)
  simp only [decodeClass, decL, rdVstl, keep, c0, c1, e2, e3, e4, e5, e6, e7, h]
  rfl
theorem RoundTrip.vstlStream (o : VstlQF) : RoundTrip.Statement (.vstlStream o) := by
  intro h
  have L : encVstlStream o = pack [(11, 0), (4, o.q.toNat), (2, 0), (1, 1), (6, o.v.toNat), (1, o.wv.toNat), (3, o.m.toNat), (4, 4)] := by
    simp only [encVstlStream, put, putB, pack]; omega
  have F : Fits [(11, 0), (4, o.q.toNat), (2, 0), (1, 1), (6, o.v.toNat), (1, o.wv.toNat), (3, o.m.toNat), (4, 4)] := ⟨by decide, o.q.isLt, by decide, by decide, o.v.isLt, bool_fits o.wv, o.m.isLt, by decide, trivial⟩
  show decodeClass .l (encVstlStream o) = some (.vstlStream o)
  generalize encVstlStream o = w at L ⊢
  have c0 : w / 2 ^ 28 % 2 ^ 4 = 4 := digit_at L F 7
  have c1 : w / 2 ^ 17 % 2 ^ 1 = 1 := digit_at L F 3
  have c2 : w / 2 ^ 15 % 2 ^ 2 = 0 := digit_at L F 2
  have c3 : w / 2 ^ 0 % 2 ^ 11 = 0 := digit_at L F 0
  have e4 : fld w 25 3 = o.m := fld_of (digit_at L F 6)
  have e5 : bitAt w 24 = o.wv := bit_of (digit_at L F 5)
  have e6 : fld w 18 6 = o.v := fld_of (digit_at L F 4)
  have e7 : fld w 11 4 = o.q := fld_of (digit_at L F 1)
  simp only [decodeClass, decL, rdVstlStream, keep, c0, c1, c2, c3, e4, e5, e6, e7, h]
  rfl
theorem RoundTrip.bind (o : BindF) : RoundTrip.Statement (.bind o) := by
  intro h
  have L : encBind o = pack [(16, 0), (1, o.wr.toNat), (1, o.wa.toNat), (6, o.a.toNat), (4, o.q.toNat), (4, 5)] := by
    simp only [encBind, put, putB, pack]; omega
  have F : Fits [(16, 0), (1, o.wr.toNat), (1, o.wa.toNat), (6, o.a.toNat), (4, o.q.toNat), (4, 5)] := ⟨by decide, bool_fits o.wr, bool_fits o.wa, o.a.isLt, o.q.isLt, by decide, trivial⟩
  show decodeClass .l (encBind o) = some (.bind o)
  generalize encBind o = w at L ⊢
  have c0 : w / 2 ^ 28 % 2 ^ 4 = 5 := digit_at L F 5
  have c1 : w / 2 ^ 0 % 2 ^ 16 = 0 := digit_at L F 0
  have e2 : fld w 24 4 = o.q := fld_of (digit_at L F 4)
  have e3 : fld w 18 6 = o.a := fld_of (digit_at L F 3)
  have e4 : bitAt w 17 = o.wa := bit_of (digit_at L F 2)
  have e5 : bitAt w 16 = o.wr := bit_of (digit_at L F 1)
  simp only [decodeClass, decL, rdBind, keep, c0, c1, e2, e3, e4, e5, h]
  rfl
theorem RoundTrip.unbind (o : UnbindF) : RoundTrip.Statement (.unbind o) := by
  intro h
  have L : encUnbind o = pack [(24, 0), (4, o.q.toNat), (4, 6)] := by
    simp only [encUnbind, put, pack]; omega
  have F : Fits [(24, 0), (4, o.q.toNat), (4, 6)] := ⟨by decide, o.q.isLt, by decide, trivial⟩
  show decodeClass .l (encUnbind o) = some (.unbind o)
  generalize encUnbind o = w at L ⊢
  have c0 : w / 2 ^ 28 % 2 ^ 4 = 6 := digit_at L F 2
  have c1 : w / 2 ^ 0 % 2 ^ 24 = 0 := digit_at L F 0
  have e2 : fld w 24 4 = o.q := fld_of (digit_at L F 1)
  simp only [decodeClass, decL, rdUnbind, keep, c0, c1, e2, h]
  rfl
theorem RoundTrip.qskip (o : QskipF) : RoundTrip.Statement (.qskip o) := by
  intro h
  have L : encQskip o = pack [(17, 0), (1, o.wa.toNat), (6, o.a.toNat), (4, o.q.toNat), (4, 7)] := by
    simp only [encQskip, put, putB, pack]; omega
  have F : Fits [(17, 0), (1, o.wa.toNat), (6, o.a.toNat), (4, o.q.toNat), (4, 7)] := ⟨by decide, bool_fits o.wa, o.a.isLt, o.q.isLt, by decide, trivial⟩
  show decodeClass .l (encQskip o) = some (.qskip o)
  generalize encQskip o = w at L ⊢
  have c0 : w / 2 ^ 28 % 2 ^ 4 = 7 := digit_at L F 4
  have c1 : w / 2 ^ 0 % 2 ^ 17 = 0 := digit_at L F 0
  have e2 : fld w 24 4 = o.q := fld_of (digit_at L F 3)
  have e3 : fld w 18 6 = o.a := fld_of (digit_at L F 2)
  have e4 : bitAt w 17 = o.wa := bit_of (digit_at L F 1)
  simp only [decodeClass, decL, rdQskip, keep, c0, c1, e2, e3, e4, h]
  rfl
theorem RoundTrip.qstat (o : QstatF) : RoundTrip.Statement (.qstat o) := by
  intro h
  have L : encQstat o = pack [(18, 0), (6, o.d.toNat), (4, o.q.toNat), (4, 8)] := by
    simp only [encQstat, put, pack]; omega
  have F : Fits [(18, 0), (6, o.d.toNat), (4, o.q.toNat), (4, 8)] := ⟨by decide, o.d.isLt, o.q.isLt, by decide, trivial⟩
  show decodeClass .l (encQstat o) = some (.qstat o)
  generalize encQstat o = w at L ⊢
  have c0 : w / 2 ^ 28 % 2 ^ 4 = 8 := digit_at L F 3
  have c1 : w / 2 ^ 0 % 2 ^ 18 = 0 := digit_at L F 0
  have e2 : fld w 24 4 = o.q := fld_of (digit_at L F 2)
  have e3 : fld w 18 6 = o.d := fld_of (digit_at L F 1)
  simp only [decodeClass, decL, rdQstat, keep, c0, c1, e2, e3, h]
  rfl
theorem RoundTrip.ldg (o : LdF11) : RoundTrip.Statement (.ldg o) := by
  intro h
  have L : encLdg o = pack [(11, o.off.toNat), (1, o.wb.toNat), (6, o.base.toNat), (6, o.d.toNat), (1, o.u.toNat), (2, o.z.toNat), (5, 1)] := by
    simp only [encLdg, put, putB, pack]; omega
  have F : Fits [(11, o.off.toNat), (1, o.wb.toNat), (6, o.base.toNat), (6, o.d.toNat), (1, o.u.toNat), (2, o.z.toNat), (5, 1)] := ⟨o.off.isLt, bool_fits o.wb, o.base.isLt, o.d.isLt, bool_fits o.u, o.z.isLt, by decide, trivial⟩
  show decodeClass .g (encLdg o) = some (.ldg o)
  generalize encLdg o = w at L ⊢
  have c0 : w / 2 ^ 27 % 2 ^ 5 = 1 := digit_at L F 6
  have e1 : fld w 25 2 = o.z := fld_of (digit_at L F 5)
  have e2 : bitAt w 24 = o.u := bit_of (digit_at L F 4)
  have e3 : fld w 18 6 = o.d := fld_of (digit_at L F 3)
  have e4 : fld w 12 6 = o.base := fld_of (digit_at L F 2)
  have e5 : bitAt w 11 = o.wb := bit_of (digit_at L F 1)
  have e6 : fld w 0 11 = o.off := fld_of (digit_at L F 0)
  simp only [decodeClass, decG, rdLdg, keep, c0, e1, e2, e3, e4, e5, e6, h]
  rfl
theorem RoundTrip.stg (o : StF11) : RoundTrip.Statement (.stg o) := by
  intro h
  have L : encStg o = pack [(11, o.off.toNat), (1, o.wb.toNat), (6, o.base.toNat), (6, o.v.toNat), (1, o.wv.toNat), (2, o.z.toNat), (5, 2)] := by
    simp only [encStg, put, putB, pack]; omega
  have F : Fits [(11, o.off.toNat), (1, o.wb.toNat), (6, o.base.toNat), (6, o.v.toNat), (1, o.wv.toNat), (2, o.z.toNat), (5, 2)] := ⟨o.off.isLt, bool_fits o.wb, o.base.isLt, o.v.isLt, bool_fits o.wv, o.z.isLt, by decide, trivial⟩
  show decodeClass .g (encStg o) = some (.stg o)
  generalize encStg o = w at L ⊢
  have c0 : w / 2 ^ 27 % 2 ^ 5 = 2 := digit_at L F 6
  have e1 : fld w 25 2 = o.z := fld_of (digit_at L F 5)
  have e2 : bitAt w 24 = o.wv := bit_of (digit_at L F 4)
  have e3 : fld w 18 6 = o.v := fld_of (digit_at L F 3)
  have e4 : fld w 12 6 = o.base := fld_of (digit_at L F 2)
  have e5 : bitAt w 11 = o.wb := bit_of (digit_at L F 1)
  have e6 : fld w 0 11 = o.off := fld_of (digit_at L F 0)
  simp only [decodeClass, decG, rdStg, keep, c0, e1, e2, e3, e4, e5, e6, h]
  rfl
theorem RoundTrip.vldg (o : VldgF) : RoundTrip.Statement (.vldg o) := by
  intro h
  have L : encVldg o = pack [(7, o.off.toNat), (3, o.m.toNat), (1, o.wb.toNat), (6, o.base.toNat), (6, o.d.toNat), (4, o.t.toNat), (5, 3)] := by
    simp only [encVldg, put, putB, pack]; omega
  have F : Fits [(7, o.off.toNat), (3, o.m.toNat), (1, o.wb.toNat), (6, o.base.toNat), (6, o.d.toNat), (4, o.t.toNat), (5, 3)] := ⟨o.off.isLt, o.m.isLt, bool_fits o.wb, o.base.isLt, o.d.isLt, o.t.isLt, by decide, trivial⟩
  show decodeClass .g (encVldg o) = some (.vldg o)
  generalize encVldg o = w at L ⊢
  have c0 : w / 2 ^ 27 % 2 ^ 5 = 3 := digit_at L F 6
  have e1 : fld w 23 4 = o.t := fld_of (digit_at L F 5)
  have e2 : fld w 17 6 = o.d := fld_of (digit_at L F 4)
  have e3 : fld w 11 6 = o.base := fld_of (digit_at L F 3)
  have e4 : bitAt w 10 = o.wb := bit_of (digit_at L F 2)
  have e5 : fld w 7 3 = o.m := fld_of (digit_at L F 1)
  have e6 : fld w 0 7 = o.off := fld_of (digit_at L F 0)
  simp only [decodeClass, decG, rdVldg, keep, c0, e1, e2, e3, e4, e5, e6, h]
  rfl
theorem RoundTrip.vstg (o : VstgF) : RoundTrip.Statement (.vstg o) := by
  intro h
  have L : encVstg o = pack [(10, o.off.toNat), (1, o.wb.toNat), (6, o.base.toNat), (6, o.v.toNat), (1, o.wv.toNat), (3, o.m.toNat), (5, 4)] := by
    simp only [encVstg, put, putB, pack]; omega
  have F : Fits [(10, o.off.toNat), (1, o.wb.toNat), (6, o.base.toNat), (6, o.v.toNat), (1, o.wv.toNat), (3, o.m.toNat), (5, 4)] := ⟨o.off.isLt, bool_fits o.wb, o.base.isLt, o.v.isLt, bool_fits o.wv, o.m.isLt, by decide, trivial⟩
  show decodeClass .g (encVstg o) = some (.vstg o)
  generalize encVstg o = w at L ⊢
  have c0 : w / 2 ^ 27 % 2 ^ 5 = 4 := digit_at L F 6
  have e1 : fld w 24 3 = o.m := fld_of (digit_at L F 5)
  have e2 : bitAt w 23 = o.wv := bit_of (digit_at L F 4)
  have e3 : fld w 17 6 = o.v := fld_of (digit_at L F 3)
  have e4 : fld w 11 6 = o.base := fld_of (digit_at L F 2)
  have e5 : bitAt w 10 = o.wb := bit_of (digit_at L F 1)
  have e6 : fld w 0 10 = o.off := fld_of (digit_at L F 0)
  simp only [decodeClass, decG, rdVstg, keep, c0, e1, e2, e3, e4, e5, e6, h]
  rfl
theorem RoundTrip.vgath (o : VgathF) : RoundTrip.Statement (.vgath o) := by
  intro h
  have L : encVgath o = pack [(3, o.m.toNat), (1, o.wi.toNat), (6, o.i.toNat), (1, o.wb.toNat), (6, o.base.toNat), (6, o.d.toNat), (4, o.t.toNat), (5, 5)] := by
    simp only [encVgath, put, putB, pack]; omega
  have F : Fits [(3, o.m.toNat), (1, o.wi.toNat), (6, o.i.toNat), (1, o.wb.toNat), (6, o.base.toNat), (6, o.d.toNat), (4, o.t.toNat), (5, 5)] := ⟨o.m.isLt, bool_fits o.wi, o.i.isLt, bool_fits o.wb, o.base.isLt, o.d.isLt, o.t.isLt, by decide, trivial⟩
  show decodeClass .g (encVgath o) = some (.vgath o)
  generalize encVgath o = w at L ⊢
  have c0 : w / 2 ^ 27 % 2 ^ 5 = 5 := digit_at L F 7
  have e1 : fld w 23 4 = o.t := fld_of (digit_at L F 6)
  have e2 : fld w 17 6 = o.d := fld_of (digit_at L F 5)
  have e3 : fld w 11 6 = o.base := fld_of (digit_at L F 4)
  have e4 : bitAt w 10 = o.wb := bit_of (digit_at L F 3)
  have e5 : fld w 4 6 = o.i := fld_of (digit_at L F 2)
  have e6 : bitAt w 3 = o.wi := bit_of (digit_at L F 1)
  have e7 : fld w 0 3 = o.m := fld_of (digit_at L F 0)
  simp only [decodeClass, decG, rdVgath, keep, c0, e1, e2, e3, e4, e5, e6, e7, h]
  rfl
theorem RoundTrip.vscat (o : VscatF) : RoundTrip.Statement (.vscat o) := by
  intro h
  have L : encVscat o = pack [(3, 0), (1, o.wi.toNat), (6, o.i.toNat), (1, o.wb.toNat), (6, o.base.toNat), (6, o.v.toNat), (1, o.wv.toNat), (3, o.m.toNat), (5, 6)] := by
    simp only [encVscat, put, putB, pack]; omega
  have F : Fits [(3, 0), (1, o.wi.toNat), (6, o.i.toNat), (1, o.wb.toNat), (6, o.base.toNat), (6, o.v.toNat), (1, o.wv.toNat), (3, o.m.toNat), (5, 6)] := ⟨by decide, bool_fits o.wi, o.i.isLt, bool_fits o.wb, o.base.isLt, o.v.isLt, bool_fits o.wv, o.m.isLt, by decide, trivial⟩
  show decodeClass .g (encVscat o) = some (.vscat o)
  generalize encVscat o = w at L ⊢
  have c0 : w / 2 ^ 27 % 2 ^ 5 = 6 := digit_at L F 8
  have c1 : w / 2 ^ 0 % 2 ^ 3 = 0 := digit_at L F 0
  have e2 : fld w 24 3 = o.m := fld_of (digit_at L F 7)
  have e3 : bitAt w 23 = o.wv := bit_of (digit_at L F 6)
  have e4 : fld w 17 6 = o.v := fld_of (digit_at L F 5)
  have e5 : fld w 11 6 = o.base := fld_of (digit_at L F 4)
  have e6 : bitAt w 10 = o.wb := bit_of (digit_at L F 3)
  have e7 : fld w 4 6 = o.i := fld_of (digit_at L F 2)
  have e8 : bitAt w 3 = o.wi := bit_of (digit_at L F 1)
  simp only [decodeClass, decG, rdVscat, keep, c0, c1, e2, e3, e4, e5, e6, e7, e8, h]
  rfl
theorem RoundTrip.amo (o : AmoF) : RoundTrip.Statement (.amo o) := by
  intro h
  have L : encAmo o = pack [(2, 0), (1, o.wo.toNat), (6, o.o.toNat), (1, o.wb.toNat), (6, o.base.toNat), (6, o.d.toNat), (1, o.wide.toNat), (4, o.fn.toNat), (5, 7)] := by
    simp only [encAmo, put, putB, pack]; omega
  have F : Fits [(2, 0), (1, o.wo.toNat), (6, o.o.toNat), (1, o.wb.toNat), (6, o.base.toNat), (6, o.d.toNat), (1, o.wide.toNat), (4, o.fn.toNat), (5, 7)] := ⟨by decide, bool_fits o.wo, o.o.isLt, bool_fits o.wb, o.base.isLt, o.d.isLt, bool_fits o.wide, o.fn.isLt, by decide, trivial⟩
  show decodeClass .g (encAmo o) = some (.amo o)
  generalize encAmo o = w at L ⊢
  have c0 : w / 2 ^ 27 % 2 ^ 5 = 7 := digit_at L F 8
  have c1 : w / 2 ^ 0 % 2 ^ 2 = 0 := digit_at L F 0
  have e2 : fld w 23 4 = o.fn := fld_of (digit_at L F 7)
  have e3 : bitAt w 22 = o.wide := bit_of (digit_at L F 6)
  have e4 : fld w 16 6 = o.d := fld_of (digit_at L F 5)
  have e5 : fld w 10 6 = o.base := fld_of (digit_at L F 4)
  have e6 : bitAt w 9 = o.wb := bit_of (digit_at L F 3)
  have e7 : fld w 3 6 = o.o := fld_of (digit_at L F 2)
  have e8 : bitAt w 2 = o.wo := bit_of (digit_at L F 1)
  have g : o.fn.toNat < 9 := by simpa [Instr.wf] using h
  have d : w / 2 ^ 23 % 2 ^ 4 = o.fn.toNat := digit_at L F 7
  have r : decG w = rdAmo w := by
    simp only [decG, c0, d]
    split
    · next e => omega
    · rfl
  simp only [decodeClass, r, rdAmo, keep, c0, c1, e2, e3, e4, e5, e6, e7, e8, h]
  rfl
theorem RoundTrip.amoCas (o : CasF) : RoundTrip.Statement (.amoCas o) := by
  intro h
  have L : encAmoCas o = pack [(1, 0), (1, o.wd.toNat), (1, o.wo.toNat), (6, o.o.toNat), (1, o.wb.toNat), (6, o.base.toNat), (6, o.d.toNat), (1, o.wide.toNat), (4, 9), (5, 7)] := by
    simp only [encAmoCas, put, putB, pack]; omega
  have F : Fits [(1, 0), (1, o.wd.toNat), (1, o.wo.toNat), (6, o.o.toNat), (1, o.wb.toNat), (6, o.base.toNat), (6, o.d.toNat), (1, o.wide.toNat), (4, 9), (5, 7)] := ⟨by decide, bool_fits o.wd, bool_fits o.wo, o.o.isLt, bool_fits o.wb, o.base.isLt, o.d.isLt, bool_fits o.wide, by decide, by decide, trivial⟩
  show decodeClass .g (encAmoCas o) = some (.amoCas o)
  generalize encAmoCas o = w at L ⊢
  have c0 : w / 2 ^ 27 % 2 ^ 5 = 7 := digit_at L F 9
  have c1 : w / 2 ^ 23 % 2 ^ 4 = 9 := digit_at L F 8
  have c2 : w / 2 ^ 0 % 2 ^ 1 = 0 := digit_at L F 0
  have e3 : bitAt w 22 = o.wide := bit_of (digit_at L F 7)
  have e4 : fld w 16 6 = o.d := fld_of (digit_at L F 6)
  have e5 : fld w 10 6 = o.base := fld_of (digit_at L F 5)
  have e6 : bitAt w 9 = o.wb := bit_of (digit_at L F 4)
  have e7 : fld w 3 6 = o.o := fld_of (digit_at L F 3)
  have e8 : bitAt w 2 = o.wo := bit_of (digit_at L F 2)
  have e9 : bitAt w 1 = o.wd := bit_of (digit_at L F 1)
  simp only [decodeClass, decG, rdAmoCas, keep, c0, c1, c2, e3, e4, e5, e6, e7, e8, e9, h]
  rfl
theorem RoundTrip.radd (o : RaddF) : RoundTrip.Statement (.radd o) := by
  intro h
  have L : encRadd o = pack [(6, 0), (1, o.wb.toNat), (6, o.base.toNat), (1, o.wv.toNat), (6, o.v.toNat), (3, o.op.toNat), (4, o.fmt.toNat), (5, 8)] := by
    simp only [encRadd, put, putB, pack]; omega
  have F : Fits [(6, 0), (1, o.wb.toNat), (6, o.base.toNat), (1, o.wv.toNat), (6, o.v.toNat), (3, o.op.toNat), (4, o.fmt.toNat), (5, 8)] := ⟨by decide, bool_fits o.wb, o.base.isLt, bool_fits o.wv, o.v.isLt, o.op.isLt, o.fmt.isLt, by decide, trivial⟩
  show decodeClass .g (encRadd o) = some (.radd o)
  generalize encRadd o = w at L ⊢
  have c0 : w / 2 ^ 27 % 2 ^ 5 = 8 := digit_at L F 7
  have c1 : w / 2 ^ 0 % 2 ^ 6 = 0 := digit_at L F 0
  have e2 : fld w 23 4 = o.fmt := fld_of (digit_at L F 6)
  have e3 : fld w 20 3 = o.op := fld_of (digit_at L F 5)
  have e4 : fld w 14 6 = o.v := fld_of (digit_at L F 4)
  have e5 : bitAt w 13 = o.wv := bit_of (digit_at L F 3)
  have e6 : fld w 7 6 = o.base := fld_of (digit_at L F 2)
  have e7 : bitAt w 6 = o.wb := bit_of (digit_at L F 1)
  simp only [decodeClass, decG, rdRadd, keep, c0, c1, e2, e3, e4, e5, e6, e7, h]
  rfl
theorem RoundTrip.rowadd (o : RowaddF) : RoundTrip.Statement (.rowadd o) := by
  intro h
  have L : encRowadd o = pack [(9, 0), (4, o.n.toNat), (1, o.wb.toNat), (6, o.base.toNat), (1, o.wv.toNat), (6, o.v.toNat), (5, 9)] := by
    simp only [encRowadd, put, putB, pack]; omega
  have F : Fits [(9, 0), (4, o.n.toNat), (1, o.wb.toNat), (6, o.base.toNat), (1, o.wv.toNat), (6, o.v.toNat), (5, 9)] := ⟨by decide, o.n.isLt, bool_fits o.wb, o.base.isLt, bool_fits o.wv, o.v.isLt, by decide, trivial⟩
  show decodeClass .g (encRowadd o) = some (.rowadd o)
  generalize encRowadd o = w at L ⊢
  have c0 : w / 2 ^ 27 % 2 ^ 5 = 9 := digit_at L F 6
  have c1 : w / 2 ^ 0 % 2 ^ 9 = 0 := digit_at L F 0
  have e2 : fld w 21 6 = o.v := fld_of (digit_at L F 5)
  have e3 : bitAt w 20 = o.wv := bit_of (digit_at L F 4)
  have e4 : fld w 14 6 = o.base := fld_of (digit_at L F 3)
  have e5 : bitAt w 13 = o.wb := bit_of (digit_at L F 2)
  have e6 : fld w 9 4 = o.n := fld_of (digit_at L F 1)
  simp only [decodeClass, decG, rdRowadd, keep, c0, c1, e2, e3, e4, e5, e6, h]
  rfl
theorem RoundTrip.rowld (o : RowldF) : RoundTrip.Statement (.rowld o) := by
  intro h
  have L : encRowld o = pack [(9, 0), (4, o.n.toNat), (1, o.wb.toNat), (6, o.base.toNat), (1, 0), (6, o.d.toNat), (5, 10)] := by
    simp only [encRowld, put, putB, pack]; omega
  have F : Fits [(9, 0), (4, o.n.toNat), (1, o.wb.toNat), (6, o.base.toNat), (1, 0), (6, o.d.toNat), (5, 10)] := ⟨by decide, o.n.isLt, bool_fits o.wb, o.base.isLt, by decide, o.d.isLt, by decide, trivial⟩
  show decodeClass .g (encRowld o) = some (.rowld o)
  generalize encRowld o = w at L ⊢
  have c0 : w / 2 ^ 27 % 2 ^ 5 = 10 := digit_at L F 6
  have c1 : w / 2 ^ 20 % 2 ^ 1 = 0 := digit_at L F 4
  have c2 : w / 2 ^ 0 % 2 ^ 9 = 0 := digit_at L F 0
  have e3 : fld w 21 6 = o.d := fld_of (digit_at L F 5)
  have e4 : fld w 14 6 = o.base := fld_of (digit_at L F 3)
  have e5 : bitAt w 13 = o.wb := bit_of (digit_at L F 2)
  have e6 : fld w 9 4 = o.n := fld_of (digit_at L F 1)
  simp only [decodeClass, decG, rdRowld, keep, c0, c1, c2, e3, e4, e5, e6, h]
  rfl
theorem RoundTrip.psmpScalar (o : PsmpF) : RoundTrip.Statement (.psmpScalar o) := by
  intro h
  have L : encPsmpScalar o = pack [(12, o.off.toNat), (1, o.wb.toNat), (6, o.base.toNat), (1, o.wv.toNat), (6, o.v.toNat), (1, 0), (5, 11)] := by
    simp only [encPsmpScalar, put, putB, pack]; omega
  have F : Fits [(12, o.off.toNat), (1, o.wb.toNat), (6, o.base.toNat), (1, o.wv.toNat), (6, o.v.toNat), (1, 0), (5, 11)] := ⟨o.off.isLt, bool_fits o.wb, o.base.isLt, bool_fits o.wv, o.v.isLt, by decide, by decide, trivial⟩
  show decodeClass .g (encPsmpScalar o) = some (.psmpScalar o)
  generalize encPsmpScalar o = w at L ⊢
  have c0 : w / 2 ^ 27 % 2 ^ 5 = 11 := digit_at L F 6
  have c1 : w / 2 ^ 26 % 2 ^ 1 = 0 := digit_at L F 5
  have e2 : fld w 20 6 = o.v := fld_of (digit_at L F 4)
  have e3 : bitAt w 19 = o.wv := bit_of (digit_at L F 3)
  have e4 : fld w 13 6 = o.base := fld_of (digit_at L F 2)
  have e5 : bitAt w 12 = o.wb := bit_of (digit_at L F 1)
  have e6 : fld w 0 12 = o.off := fld_of (digit_at L F 0)
  simp only [decodeClass, decG, rdPsmpScalar, keep, c0, c1, e2, e3, e4, e5, e6, h]
  rfl
theorem RoundTrip.psmpVector (o : PsmpF) : RoundTrip.Statement (.psmpVector o) := by
  intro h
  have L : encPsmpVector o = pack [(12, o.off.toNat), (1, o.wb.toNat), (6, o.base.toNat), (1, o.wv.toNat), (6, o.v.toNat), (1, 1), (5, 11)] := by
    simp only [encPsmpVector, put, putB, pack]; omega
  have F : Fits [(12, o.off.toNat), (1, o.wb.toNat), (6, o.base.toNat), (1, o.wv.toNat), (6, o.v.toNat), (1, 1), (5, 11)] := ⟨o.off.isLt, bool_fits o.wb, o.base.isLt, bool_fits o.wv, o.v.isLt, by decide, by decide, trivial⟩
  show decodeClass .g (encPsmpVector o) = some (.psmpVector o)
  generalize encPsmpVector o = w at L ⊢
  have c0 : w / 2 ^ 27 % 2 ^ 5 = 11 := digit_at L F 6
  have c1 : w / 2 ^ 26 % 2 ^ 1 = 1 := digit_at L F 5
  have e2 : fld w 20 6 = o.v := fld_of (digit_at L F 4)
  have e3 : bitAt w 19 = o.wv := bit_of (digit_at L F 3)
  have e4 : fld w 13 6 = o.base := fld_of (digit_at L F 2)
  have e5 : bitAt w 12 = o.wb := bit_of (digit_at L F 1)
  have e6 : fld w 0 12 = o.off := fld_of (digit_at L F 0)
  simp only [decodeClass, decG, rdPsmpVector, keep, c0, c1, e2, e3, e4, e5, e6, h]
  rfl
theorem RoundTrip.ptapScalar (o : PtapF) : RoundTrip.Statement (.ptapScalar o) := by
  intro h
  have L : encPtapScalar o = pack [(11, o.off.toNat), (1, o.wb.toNat), (6, o.base.toNat), (2, o.tap.toNat), (6, o.d.toNat), (1, 0), (5, 12)] := by
    simp only [encPtapScalar, put, putB, pack]; omega
  have F : Fits [(11, o.off.toNat), (1, o.wb.toNat), (6, o.base.toNat), (2, o.tap.toNat), (6, o.d.toNat), (1, 0), (5, 12)] := ⟨o.off.isLt, bool_fits o.wb, o.base.isLt, o.tap.isLt, o.d.isLt, by decide, by decide, trivial⟩
  show decodeClass .g (encPtapScalar o) = some (.ptapScalar o)
  generalize encPtapScalar o = w at L ⊢
  have c0 : w / 2 ^ 27 % 2 ^ 5 = 12 := digit_at L F 6
  have c1 : w / 2 ^ 26 % 2 ^ 1 = 0 := digit_at L F 5
  have e2 : fld w 20 6 = o.d := fld_of (digit_at L F 4)
  have e3 : fld w 18 2 = o.tap := fld_of (digit_at L F 3)
  have e4 : fld w 12 6 = o.base := fld_of (digit_at L F 2)
  have e5 : bitAt w 11 = o.wb := bit_of (digit_at L F 1)
  have e6 : fld w 0 11 = o.off := fld_of (digit_at L F 0)
  simp only [decodeClass, decG, rdPtapScalar, keep, c0, c1, e2, e3, e4, e5, e6, h]
  rfl
theorem RoundTrip.ptapVector (o : PtapF) : RoundTrip.Statement (.ptapVector o) := by
  intro h
  have L : encPtapVector o = pack [(11, o.off.toNat), (1, o.wb.toNat), (6, o.base.toNat), (2, o.tap.toNat), (6, o.d.toNat), (1, 1), (5, 12)] := by
    simp only [encPtapVector, put, putB, pack]; omega
  have F : Fits [(11, o.off.toNat), (1, o.wb.toNat), (6, o.base.toNat), (2, o.tap.toNat), (6, o.d.toNat), (1, 1), (5, 12)] := ⟨o.off.isLt, bool_fits o.wb, o.base.isLt, o.tap.isLt, o.d.isLt, by decide, by decide, trivial⟩
  show decodeClass .g (encPtapVector o) = some (.ptapVector o)
  generalize encPtapVector o = w at L ⊢
  have c0 : w / 2 ^ 27 % 2 ^ 5 = 12 := digit_at L F 6
  have c1 : w / 2 ^ 26 % 2 ^ 1 = 1 := digit_at L F 5
  have e2 : fld w 20 6 = o.d := fld_of (digit_at L F 4)
  have e3 : fld w 18 2 = o.tap := fld_of (digit_at L F 3)
  have e4 : fld w 12 6 = o.base := fld_of (digit_at L F 2)
  have e5 : bitAt w 11 = o.wb := bit_of (digit_at L F 1)
  have e6 : fld w 0 11 = o.off := fld_of (digit_at L F 0)
  simp only [decodeClass, decG, rdPtapVector, keep, c0, c1, e2, e3, e4, e5, e6, h]
  rfl
theorem RoundTrip.ptaps (o : PtapsF) : RoundTrip.Statement (.ptaps o) := by
  intro h
  have L : encPtaps o = pack [(11, o.off.toNat), (1, o.wb.toNat), (6, o.base.toNat), (2, 0), (6, o.d.toNat), (1, 0), (5, 13)] := by
    simp only [encPtaps, put, putB, pack]; omega
  have F : Fits [(11, o.off.toNat), (1, o.wb.toNat), (6, o.base.toNat), (2, 0), (6, o.d.toNat), (1, 0), (5, 13)] := ⟨o.off.isLt, bool_fits o.wb, o.base.isLt, by decide, o.d.isLt, by decide, by decide, trivial⟩
  show decodeClass .g (encPtaps o) = some (.ptaps o)
  generalize encPtaps o = w at L ⊢
  have c0 : w / 2 ^ 27 % 2 ^ 5 = 13 := digit_at L F 6
  have c1 : w / 2 ^ 26 % 2 ^ 1 = 0 := digit_at L F 5
  have c2 : w / 2 ^ 18 % 2 ^ 2 = 0 := digit_at L F 3
  have e3 : fld w 20 6 = o.d := fld_of (digit_at L F 4)
  have e4 : fld w 12 6 = o.base := fld_of (digit_at L F 2)
  have e5 : bitAt w 11 = o.wb := bit_of (digit_at L F 1)
  have e6 : fld w 0 11 = o.off := fld_of (digit_at L F 0)
  simp only [decodeClass, decG, rdPtaps, keep, c0, c1, c2, e3, e4, e5, e6, h]
  rfl
theorem RoundTrip.rtapScalar (o : RtapF) : RoundTrip.Statement (.rtapScalar o) := by
  intro h
  have L : encRtapScalar o = pack [(7, o.off.toNat), (1, o.wb.toNat), (6, o.base.toNat), (6, o.age.toNat), (6, o.d.toNat), (1, 0), (5, 14)] := by
    simp only [encRtapScalar, put, putB, pack]; omega
  have F : Fits [(7, o.off.toNat), (1, o.wb.toNat), (6, o.base.toNat), (6, o.age.toNat), (6, o.d.toNat), (1, 0), (5, 14)] := ⟨o.off.isLt, bool_fits o.wb, o.base.isLt, o.age.isLt, o.d.isLt, by decide, by decide, trivial⟩
  show decodeClass .g (encRtapScalar o) = some (.rtapScalar o)
  generalize encRtapScalar o = w at L ⊢
  have c0 : w / 2 ^ 27 % 2 ^ 5 = 14 := digit_at L F 6
  have c1 : w / 2 ^ 26 % 2 ^ 1 = 0 := digit_at L F 5
  have e2 : fld w 20 6 = o.d := fld_of (digit_at L F 4)
  have e3 : fld w 14 6 = o.age := fld_of (digit_at L F 3)
  have e4 : fld w 8 6 = o.base := fld_of (digit_at L F 2)
  have e5 : bitAt w 7 = o.wb := bit_of (digit_at L F 1)
  have e6 : fld w 0 7 = o.off := fld_of (digit_at L F 0)
  simp only [decodeClass, decG, rdRtapScalar, keep, c0, c1, e2, e3, e4, e5, e6, h]
  rfl
theorem RoundTrip.rtapVector (o : RtapF) : RoundTrip.Statement (.rtapVector o) := by
  intro h
  have L : encRtapVector o = pack [(7, o.off.toNat), (1, o.wb.toNat), (6, o.base.toNat), (6, o.age.toNat), (6, o.d.toNat), (1, 1), (5, 14)] := by
    simp only [encRtapVector, put, putB, pack]; omega
  have F : Fits [(7, o.off.toNat), (1, o.wb.toNat), (6, o.base.toNat), (6, o.age.toNat), (6, o.d.toNat), (1, 1), (5, 14)] := ⟨o.off.isLt, bool_fits o.wb, o.base.isLt, o.age.isLt, o.d.isLt, by decide, by decide, trivial⟩
  show decodeClass .g (encRtapVector o) = some (.rtapVector o)
  generalize encRtapVector o = w at L ⊢
  have c0 : w / 2 ^ 27 % 2 ^ 5 = 14 := digit_at L F 6
  have c1 : w / 2 ^ 26 % 2 ^ 1 = 1 := digit_at L F 5
  have e2 : fld w 20 6 = o.d := fld_of (digit_at L F 4)
  have e3 : fld w 14 6 = o.age := fld_of (digit_at L F 3)
  have e4 : fld w 8 6 = o.base := fld_of (digit_at L F 2)
  have e5 : bitAt w 7 = o.wb := bit_of (digit_at L F 1)
  have e6 : fld w 0 7 = o.off := fld_of (digit_at L F 0)
  simp only [decodeClass, decG, rdRtapVector, keep, c0, c1, e2, e3, e4, e5, e6, h]
  rfl
theorem RoundTrip.phase (o : PhaseF) : RoundTrip.Statement (.phase o) := by
  intro h
  have L : encPhase o = pack [(24, 0), (3, o.scope.toNat), (5, 15)] := by
    simp only [encPhase, put, pack]; omega
  have F : Fits [(24, 0), (3, o.scope.toNat), (5, 15)] := ⟨by decide, o.scope.isLt, by decide, trivial⟩
  show decodeClass .g (encPhase o) = some (.phase o)
  generalize encPhase o = w at L ⊢
  have c0 : w / 2 ^ 27 % 2 ^ 5 = 15 := digit_at L F 2
  have c1 : w / 2 ^ 0 % 2 ^ 24 = 0 := digit_at L F 0
  have e2 : fld w 24 3 = o.scope := fld_of (digit_at L F 1)
  simp only [decodeClass, decG, rdPhase, keep, c0, c1, e2, h]
  rfl
theorem RoundTrip.pref (o : PrefF) : RoundTrip.Statement (.pref o) := by
  intro h
  have L : encPref o = pack [(20, o.off.toNat), (1, o.wb.toNat), (6, o.base.toNat), (5, 16)] := by
    simp only [encPref, put, putB, pack]; omega
  have F : Fits [(20, o.off.toNat), (1, o.wb.toNat), (6, o.base.toNat), (5, 16)] := ⟨o.off.isLt, bool_fits o.wb, o.base.isLt, by decide, trivial⟩
  show decodeClass .g (encPref o) = some (.pref o)
  generalize encPref o = w at L ⊢
  have c0 : w / 2 ^ 27 % 2 ^ 5 = 16 := digit_at L F 3
  have e1 : fld w 21 6 = o.base := fld_of (digit_at L F 2)
  have e2 : bitAt w 20 = o.wb := bit_of (digit_at L F 1)
  have e3 : fld w 0 20 = o.off := fld_of (digit_at L F 0)
  simp only [decodeClass, decG, rdPref, keep, c0, e1, e2, e3, h]
  rfl
theorem RoundTrip.vadd (o : VaF) : RoundTrip.Statement (.vadd o) := by
  intro h
  have L : encVadd o = pack [(1, 0), (3, o.m.toNat), (1, o.wb.toNat), (6, o.b.toNat), (1, o.wa.toNat), (6, o.a.toNat), (6, o.d.toNat), (2, o.rnd.toNat), (4, o.fmt.toNat), (6, 1)] := by
    simp only [encVadd, put, putB, pack]; omega
  have F : Fits [(1, 0), (3, o.m.toNat), (1, o.wb.toNat), (6, o.b.toNat), (1, o.wa.toNat), (6, o.a.toNat), (6, o.d.toNat), (2, o.rnd.toNat), (4, o.fmt.toNat), (6, 1)] := ⟨by decide, o.m.isLt, bool_fits o.wb, o.b.isLt, bool_fits o.wa, o.a.isLt, o.d.isLt, o.rnd.isLt, o.fmt.isLt, by decide, trivial⟩
  show decodeClass .v (encVadd o) = some (.vadd o)
  generalize encVadd o = w at L ⊢
  have c0 : w / 2 ^ 30 % 2 ^ 6 = 1 := digit_at L F 9
  have c1 : w / 2 ^ 0 % 2 ^ 1 = 0 := digit_at L F 0
  have e2 : fld w 26 4 = o.fmt := fld_of (digit_at L F 8)
  have e3 : fld w 24 2 = o.rnd := fld_of (digit_at L F 7)
  have e4 : fld w 18 6 = o.d := fld_of (digit_at L F 6)
  have e5 : fld w 12 6 = o.a := fld_of (digit_at L F 5)
  have e6 : bitAt w 11 = o.wa := bit_of (digit_at L F 4)
  have e7 : fld w 5 6 = o.b := fld_of (digit_at L F 3)
  have e8 : bitAt w 4 = o.wb := bit_of (digit_at L F 2)
  have e9 : fld w 1 3 = o.m := fld_of (digit_at L F 1)
  simp only [decodeClass, decV, rdVadd, keep, c0, c1, e2, e3, e4, e5, e6, e7, e8, e9, h]
  rfl
theorem RoundTrip.vsub (o : VaF) : RoundTrip.Statement (.vsub o) := by
  intro h
  have L : encVsub o = pack [(1, 0), (3, o.m.toNat), (1, o.wb.toNat), (6, o.b.toNat), (1, o.wa.toNat), (6, o.a.toNat), (6, o.d.toNat), (2, o.rnd.toNat), (4, o.fmt.toNat), (6, 2)] := by
    simp only [encVsub, put, putB, pack]; omega
  have F : Fits [(1, 0), (3, o.m.toNat), (1, o.wb.toNat), (6, o.b.toNat), (1, o.wa.toNat), (6, o.a.toNat), (6, o.d.toNat), (2, o.rnd.toNat), (4, o.fmt.toNat), (6, 2)] := ⟨by decide, o.m.isLt, bool_fits o.wb, o.b.isLt, bool_fits o.wa, o.a.isLt, o.d.isLt, o.rnd.isLt, o.fmt.isLt, by decide, trivial⟩
  show decodeClass .v (encVsub o) = some (.vsub o)
  generalize encVsub o = w at L ⊢
  have c0 : w / 2 ^ 30 % 2 ^ 6 = 2 := digit_at L F 9
  have c1 : w / 2 ^ 0 % 2 ^ 1 = 0 := digit_at L F 0
  have e2 : fld w 26 4 = o.fmt := fld_of (digit_at L F 8)
  have e3 : fld w 24 2 = o.rnd := fld_of (digit_at L F 7)
  have e4 : fld w 18 6 = o.d := fld_of (digit_at L F 6)
  have e5 : fld w 12 6 = o.a := fld_of (digit_at L F 5)
  have e6 : bitAt w 11 = o.wa := bit_of (digit_at L F 4)
  have e7 : fld w 5 6 = o.b := fld_of (digit_at L F 3)
  have e8 : bitAt w 4 = o.wb := bit_of (digit_at L F 2)
  have e9 : fld w 1 3 = o.m := fld_of (digit_at L F 1)
  simp only [decodeClass, decV, rdVsub, keep, c0, c1, e2, e3, e4, e5, e6, e7, e8, e9, h]
  rfl
theorem RoundTrip.vmul (o : VaF) : RoundTrip.Statement (.vmul o) := by
  intro h
  have L : encVmul o = pack [(1, 0), (3, o.m.toNat), (1, o.wb.toNat), (6, o.b.toNat), (1, o.wa.toNat), (6, o.a.toNat), (6, o.d.toNat), (2, o.rnd.toNat), (4, o.fmt.toNat), (6, 3)] := by
    simp only [encVmul, put, putB, pack]; omega
  have F : Fits [(1, 0), (3, o.m.toNat), (1, o.wb.toNat), (6, o.b.toNat), (1, o.wa.toNat), (6, o.a.toNat), (6, o.d.toNat), (2, o.rnd.toNat), (4, o.fmt.toNat), (6, 3)] := ⟨by decide, o.m.isLt, bool_fits o.wb, o.b.isLt, bool_fits o.wa, o.a.isLt, o.d.isLt, o.rnd.isLt, o.fmt.isLt, by decide, trivial⟩
  show decodeClass .v (encVmul o) = some (.vmul o)
  generalize encVmul o = w at L ⊢
  have c0 : w / 2 ^ 30 % 2 ^ 6 = 3 := digit_at L F 9
  have c1 : w / 2 ^ 0 % 2 ^ 1 = 0 := digit_at L F 0
  have e2 : fld w 26 4 = o.fmt := fld_of (digit_at L F 8)
  have e3 : fld w 24 2 = o.rnd := fld_of (digit_at L F 7)
  have e4 : fld w 18 6 = o.d := fld_of (digit_at L F 6)
  have e5 : fld w 12 6 = o.a := fld_of (digit_at L F 5)
  have e6 : bitAt w 11 = o.wa := bit_of (digit_at L F 4)
  have e7 : fld w 5 6 = o.b := fld_of (digit_at L F 3)
  have e8 : bitAt w 4 = o.wb := bit_of (digit_at L F 2)
  have e9 : fld w 1 3 = o.m := fld_of (digit_at L F 1)
  simp only [decodeClass, decV, rdVmul, keep, c0, c1, e2, e3, e4, e5, e6, e7, e8, e9, h]
  rfl
theorem RoundTrip.vmulh (o : VaF) : RoundTrip.Statement (.vmulh o) := by
  intro h
  have L : encVmulh o = pack [(1, 0), (3, o.m.toNat), (1, o.wb.toNat), (6, o.b.toNat), (1, o.wa.toNat), (6, o.a.toNat), (6, o.d.toNat), (2, o.rnd.toNat), (4, o.fmt.toNat), (6, 4)] := by
    simp only [encVmulh, put, putB, pack]; omega
  have F : Fits [(1, 0), (3, o.m.toNat), (1, o.wb.toNat), (6, o.b.toNat), (1, o.wa.toNat), (6, o.a.toNat), (6, o.d.toNat), (2, o.rnd.toNat), (4, o.fmt.toNat), (6, 4)] := ⟨by decide, o.m.isLt, bool_fits o.wb, o.b.isLt, bool_fits o.wa, o.a.isLt, o.d.isLt, o.rnd.isLt, o.fmt.isLt, by decide, trivial⟩
  show decodeClass .v (encVmulh o) = some (.vmulh o)
  generalize encVmulh o = w at L ⊢
  have c0 : w / 2 ^ 30 % 2 ^ 6 = 4 := digit_at L F 9
  have c1 : w / 2 ^ 0 % 2 ^ 1 = 0 := digit_at L F 0
  have e2 : fld w 26 4 = o.fmt := fld_of (digit_at L F 8)
  have e3 : fld w 24 2 = o.rnd := fld_of (digit_at L F 7)
  have e4 : fld w 18 6 = o.d := fld_of (digit_at L F 6)
  have e5 : fld w 12 6 = o.a := fld_of (digit_at L F 5)
  have e6 : bitAt w 11 = o.wa := bit_of (digit_at L F 4)
  have e7 : fld w 5 6 = o.b := fld_of (digit_at L F 3)
  have e8 : bitAt w 4 = o.wb := bit_of (digit_at L F 2)
  have e9 : fld w 1 3 = o.m := fld_of (digit_at L F 1)
  simp only [decodeClass, decV, rdVmulh, keep, c0, c1, e2, e3, e4, e5, e6, e7, e8, e9, h]
  rfl
theorem RoundTrip.vmad (o : VaAccF) : RoundTrip.Statement (.vmad o) := by
  intro h
  have L : encVmad o = pack [(1, o.wd.toNat), (3, o.m.toNat), (1, o.wb.toNat), (6, o.b.toNat), (1, o.wa.toNat), (6, o.a.toNat), (6, o.d.toNat), (2, o.rnd.toNat), (4, o.fmt.toNat), (6, 5)] := by
    simp only [encVmad, put, putB, pack]; omega
  have F : Fits [(1, o.wd.toNat), (3, o.m.toNat), (1, o.wb.toNat), (6, o.b.toNat), (1, o.wa.toNat), (6, o.a.toNat), (6, o.d.toNat), (2, o.rnd.toNat), (4, o.fmt.toNat), (6, 5)] := ⟨bool_fits o.wd, o.m.isLt, bool_fits o.wb, o.b.isLt, bool_fits o.wa, o.a.isLt, o.d.isLt, o.rnd.isLt, o.fmt.isLt, by decide, trivial⟩
  show decodeClass .v (encVmad o) = some (.vmad o)
  generalize encVmad o = w at L ⊢
  have c0 : w / 2 ^ 30 % 2 ^ 6 = 5 := digit_at L F 9
  have e1 : fld w 26 4 = o.fmt := fld_of (digit_at L F 8)
  have e2 : fld w 24 2 = o.rnd := fld_of (digit_at L F 7)
  have e3 : fld w 18 6 = o.d := fld_of (digit_at L F 6)
  have e4 : fld w 12 6 = o.a := fld_of (digit_at L F 5)
  have e5 : bitAt w 11 = o.wa := bit_of (digit_at L F 4)
  have e6 : fld w 5 6 = o.b := fld_of (digit_at L F 3)
  have e7 : bitAt w 4 = o.wb := bit_of (digit_at L F 2)
  have e8 : fld w 1 3 = o.m := fld_of (digit_at L F 1)
  have e9 : bitAt w 0 = o.wd := bit_of (digit_at L F 0)
  simp only [decodeClass, decV, rdVmad, keep, c0, e1, e2, e3, e4, e5, e6, e7, e8, e9, h]
  rfl
theorem RoundTrip.vand (o : VaF) : RoundTrip.Statement (.vand o) := by
  intro h
  have L : encVand o = pack [(1, 0), (3, o.m.toNat), (1, o.wb.toNat), (6, o.b.toNat), (1, o.wa.toNat), (6, o.a.toNat), (6, o.d.toNat), (2, o.rnd.toNat), (4, o.fmt.toNat), (6, 6)] := by
    simp only [encVand, put, putB, pack]; omega
  have F : Fits [(1, 0), (3, o.m.toNat), (1, o.wb.toNat), (6, o.b.toNat), (1, o.wa.toNat), (6, o.a.toNat), (6, o.d.toNat), (2, o.rnd.toNat), (4, o.fmt.toNat), (6, 6)] := ⟨by decide, o.m.isLt, bool_fits o.wb, o.b.isLt, bool_fits o.wa, o.a.isLt, o.d.isLt, o.rnd.isLt, o.fmt.isLt, by decide, trivial⟩
  show decodeClass .v (encVand o) = some (.vand o)
  generalize encVand o = w at L ⊢
  have c0 : w / 2 ^ 30 % 2 ^ 6 = 6 := digit_at L F 9
  have c1 : w / 2 ^ 0 % 2 ^ 1 = 0 := digit_at L F 0
  have e2 : fld w 26 4 = o.fmt := fld_of (digit_at L F 8)
  have e3 : fld w 24 2 = o.rnd := fld_of (digit_at L F 7)
  have e4 : fld w 18 6 = o.d := fld_of (digit_at L F 6)
  have e5 : fld w 12 6 = o.a := fld_of (digit_at L F 5)
  have e6 : bitAt w 11 = o.wa := bit_of (digit_at L F 4)
  have e7 : fld w 5 6 = o.b := fld_of (digit_at L F 3)
  have e8 : bitAt w 4 = o.wb := bit_of (digit_at L F 2)
  have e9 : fld w 1 3 = o.m := fld_of (digit_at L F 1)
  simp only [decodeClass, decV, rdVand, keep, c0, c1, e2, e3, e4, e5, e6, e7, e8, e9, h]
  rfl
theorem RoundTrip.vor (o : VaF) : RoundTrip.Statement (.vor o) := by
  intro h
  have L : encVor o = pack [(1, 0), (3, o.m.toNat), (1, o.wb.toNat), (6, o.b.toNat), (1, o.wa.toNat), (6, o.a.toNat), (6, o.d.toNat), (2, o.rnd.toNat), (4, o.fmt.toNat), (6, 7)] := by
    simp only [encVor, put, putB, pack]; omega
  have F : Fits [(1, 0), (3, o.m.toNat), (1, o.wb.toNat), (6, o.b.toNat), (1, o.wa.toNat), (6, o.a.toNat), (6, o.d.toNat), (2, o.rnd.toNat), (4, o.fmt.toNat), (6, 7)] := ⟨by decide, o.m.isLt, bool_fits o.wb, o.b.isLt, bool_fits o.wa, o.a.isLt, o.d.isLt, o.rnd.isLt, o.fmt.isLt, by decide, trivial⟩
  show decodeClass .v (encVor o) = some (.vor o)
  generalize encVor o = w at L ⊢
  have c0 : w / 2 ^ 30 % 2 ^ 6 = 7 := digit_at L F 9
  have c1 : w / 2 ^ 0 % 2 ^ 1 = 0 := digit_at L F 0
  have e2 : fld w 26 4 = o.fmt := fld_of (digit_at L F 8)
  have e3 : fld w 24 2 = o.rnd := fld_of (digit_at L F 7)
  have e4 : fld w 18 6 = o.d := fld_of (digit_at L F 6)
  have e5 : fld w 12 6 = o.a := fld_of (digit_at L F 5)
  have e6 : bitAt w 11 = o.wa := bit_of (digit_at L F 4)
  have e7 : fld w 5 6 = o.b := fld_of (digit_at L F 3)
  have e8 : bitAt w 4 = o.wb := bit_of (digit_at L F 2)
  have e9 : fld w 1 3 = o.m := fld_of (digit_at L F 1)
  simp only [decodeClass, decV, rdVor, keep, c0, c1, e2, e3, e4, e5, e6, e7, e8, e9, h]
  rfl
theorem RoundTrip.vxor (o : VaF) : RoundTrip.Statement (.vxor o) := by
  intro h
  have L : encVxor o = pack [(1, 0), (3, o.m.toNat), (1, o.wb.toNat), (6, o.b.toNat), (1, o.wa.toNat), (6, o.a.toNat), (6, o.d.toNat), (2, o.rnd.toNat), (4, o.fmt.toNat), (6, 8)] := by
    simp only [encVxor, put, putB, pack]; omega
  have F : Fits [(1, 0), (3, o.m.toNat), (1, o.wb.toNat), (6, o.b.toNat), (1, o.wa.toNat), (6, o.a.toNat), (6, o.d.toNat), (2, o.rnd.toNat), (4, o.fmt.toNat), (6, 8)] := ⟨by decide, o.m.isLt, bool_fits o.wb, o.b.isLt, bool_fits o.wa, o.a.isLt, o.d.isLt, o.rnd.isLt, o.fmt.isLt, by decide, trivial⟩
  show decodeClass .v (encVxor o) = some (.vxor o)
  generalize encVxor o = w at L ⊢
  have c0 : w / 2 ^ 30 % 2 ^ 6 = 8 := digit_at L F 9
  have c1 : w / 2 ^ 0 % 2 ^ 1 = 0 := digit_at L F 0
  have e2 : fld w 26 4 = o.fmt := fld_of (digit_at L F 8)
  have e3 : fld w 24 2 = o.rnd := fld_of (digit_at L F 7)
  have e4 : fld w 18 6 = o.d := fld_of (digit_at L F 6)
  have e5 : fld w 12 6 = o.a := fld_of (digit_at L F 5)
  have e6 : bitAt w 11 = o.wa := bit_of (digit_at L F 4)
  have e7 : fld w 5 6 = o.b := fld_of (digit_at L F 3)
  have e8 : bitAt w 4 = o.wb := bit_of (digit_at L F 2)
  have e9 : fld w 1 3 = o.m := fld_of (digit_at L F 1)
  simp only [decodeClass, decV, rdVxor, keep, c0, c1, e2, e3, e4, e5, e6, e7, e8, e9, h]
  rfl
theorem RoundTrip.vshl (o : VaF) : RoundTrip.Statement (.vshl o) := by
  intro h
  have L : encVshl o = pack [(1, 0), (3, o.m.toNat), (1, o.wb.toNat), (6, o.b.toNat), (1, o.wa.toNat), (6, o.a.toNat), (6, o.d.toNat), (2, o.rnd.toNat), (4, o.fmt.toNat), (6, 9)] := by
    simp only [encVshl, put, putB, pack]; omega
  have F : Fits [(1, 0), (3, o.m.toNat), (1, o.wb.toNat), (6, o.b.toNat), (1, o.wa.toNat), (6, o.a.toNat), (6, o.d.toNat), (2, o.rnd.toNat), (4, o.fmt.toNat), (6, 9)] := ⟨by decide, o.m.isLt, bool_fits o.wb, o.b.isLt, bool_fits o.wa, o.a.isLt, o.d.isLt, o.rnd.isLt, o.fmt.isLt, by decide, trivial⟩
  show decodeClass .v (encVshl o) = some (.vshl o)
  generalize encVshl o = w at L ⊢
  have c0 : w / 2 ^ 30 % 2 ^ 6 = 9 := digit_at L F 9
  have c1 : w / 2 ^ 0 % 2 ^ 1 = 0 := digit_at L F 0
  have e2 : fld w 26 4 = o.fmt := fld_of (digit_at L F 8)
  have e3 : fld w 24 2 = o.rnd := fld_of (digit_at L F 7)
  have e4 : fld w 18 6 = o.d := fld_of (digit_at L F 6)
  have e5 : fld w 12 6 = o.a := fld_of (digit_at L F 5)
  have e6 : bitAt w 11 = o.wa := bit_of (digit_at L F 4)
  have e7 : fld w 5 6 = o.b := fld_of (digit_at L F 3)
  have e8 : bitAt w 4 = o.wb := bit_of (digit_at L F 2)
  have e9 : fld w 1 3 = o.m := fld_of (digit_at L F 1)
  simp only [decodeClass, decV, rdVshl, keep, c0, c1, e2, e3, e4, e5, e6, e7, e8, e9, h]
  rfl
theorem RoundTrip.vshr (o : VaF) : RoundTrip.Statement (.vshr o) := by
  intro h
  have L : encVshr o = pack [(1, 0), (3, o.m.toNat), (1, o.wb.toNat), (6, o.b.toNat), (1, o.wa.toNat), (6, o.a.toNat), (6, o.d.toNat), (2, o.rnd.toNat), (4, o.fmt.toNat), (6, 10)] := by
    simp only [encVshr, put, putB, pack]; omega
  have F : Fits [(1, 0), (3, o.m.toNat), (1, o.wb.toNat), (6, o.b.toNat), (1, o.wa.toNat), (6, o.a.toNat), (6, o.d.toNat), (2, o.rnd.toNat), (4, o.fmt.toNat), (6, 10)] := ⟨by decide, o.m.isLt, bool_fits o.wb, o.b.isLt, bool_fits o.wa, o.a.isLt, o.d.isLt, o.rnd.isLt, o.fmt.isLt, by decide, trivial⟩
  show decodeClass .v (encVshr o) = some (.vshr o)
  generalize encVshr o = w at L ⊢
  have c0 : w / 2 ^ 30 % 2 ^ 6 = 10 := digit_at L F 9
  have c1 : w / 2 ^ 0 % 2 ^ 1 = 0 := digit_at L F 0
  have e2 : fld w 26 4 = o.fmt := fld_of (digit_at L F 8)
  have e3 : fld w 24 2 = o.rnd := fld_of (digit_at L F 7)
  have e4 : fld w 18 6 = o.d := fld_of (digit_at L F 6)
  have e5 : fld w 12 6 = o.a := fld_of (digit_at L F 5)
  have e6 : bitAt w 11 = o.wa := bit_of (digit_at L F 4)
  have e7 : fld w 5 6 = o.b := fld_of (digit_at L F 3)
  have e8 : bitAt w 4 = o.wb := bit_of (digit_at L F 2)
  have e9 : fld w 1 3 = o.m := fld_of (digit_at L F 1)
  simp only [decodeClass, decV, rdVshr, keep, c0, c1, e2, e3, e4, e5, e6, e7, e8, e9, h]
  rfl
theorem RoundTrip.vsar (o : VaF) : RoundTrip.Statement (.vsar o) := by
  intro h
  have L : encVsar o = pack [(1, 0), (3, o.m.toNat), (1, o.wb.toNat), (6, o.b.toNat), (1, o.wa.toNat), (6, o.a.toNat), (6, o.d.toNat), (2, o.rnd.toNat), (4, o.fmt.toNat), (6, 11)] := by
    simp only [encVsar, put, putB, pack]; omega
  have F : Fits [(1, 0), (3, o.m.toNat), (1, o.wb.toNat), (6, o.b.toNat), (1, o.wa.toNat), (6, o.a.toNat), (6, o.d.toNat), (2, o.rnd.toNat), (4, o.fmt.toNat), (6, 11)] := ⟨by decide, o.m.isLt, bool_fits o.wb, o.b.isLt, bool_fits o.wa, o.a.isLt, o.d.isLt, o.rnd.isLt, o.fmt.isLt, by decide, trivial⟩
  show decodeClass .v (encVsar o) = some (.vsar o)
  generalize encVsar o = w at L ⊢
  have c0 : w / 2 ^ 30 % 2 ^ 6 = 11 := digit_at L F 9
  have c1 : w / 2 ^ 0 % 2 ^ 1 = 0 := digit_at L F 0
  have e2 : fld w 26 4 = o.fmt := fld_of (digit_at L F 8)
  have e3 : fld w 24 2 = o.rnd := fld_of (digit_at L F 7)
  have e4 : fld w 18 6 = o.d := fld_of (digit_at L F 6)
  have e5 : fld w 12 6 = o.a := fld_of (digit_at L F 5)
  have e6 : bitAt w 11 = o.wa := bit_of (digit_at L F 4)
  have e7 : fld w 5 6 = o.b := fld_of (digit_at L F 3)
  have e8 : bitAt w 4 = o.wb := bit_of (digit_at L F 2)
  have e9 : fld w 1 3 = o.m := fld_of (digit_at L F 1)
  simp only [decodeClass, decV, rdVsar, keep, c0, c1, e2, e3, e4, e5, e6, e7, e8, e9, h]
  rfl
theorem RoundTrip.vmin (o : VaF) : RoundTrip.Statement (.vmin o) := by
  intro h
  have L : encVmin o = pack [(1, 0), (3, o.m.toNat), (1, o.wb.toNat), (6, o.b.toNat), (1, o.wa.toNat), (6, o.a.toNat), (6, o.d.toNat), (2, o.rnd.toNat), (4, o.fmt.toNat), (6, 12)] := by
    simp only [encVmin, put, putB, pack]; omega
  have F : Fits [(1, 0), (3, o.m.toNat), (1, o.wb.toNat), (6, o.b.toNat), (1, o.wa.toNat), (6, o.a.toNat), (6, o.d.toNat), (2, o.rnd.toNat), (4, o.fmt.toNat), (6, 12)] := ⟨by decide, o.m.isLt, bool_fits o.wb, o.b.isLt, bool_fits o.wa, o.a.isLt, o.d.isLt, o.rnd.isLt, o.fmt.isLt, by decide, trivial⟩
  show decodeClass .v (encVmin o) = some (.vmin o)
  generalize encVmin o = w at L ⊢
  have c0 : w / 2 ^ 30 % 2 ^ 6 = 12 := digit_at L F 9
  have c1 : w / 2 ^ 0 % 2 ^ 1 = 0 := digit_at L F 0
  have e2 : fld w 26 4 = o.fmt := fld_of (digit_at L F 8)
  have e3 : fld w 24 2 = o.rnd := fld_of (digit_at L F 7)
  have e4 : fld w 18 6 = o.d := fld_of (digit_at L F 6)
  have e5 : fld w 12 6 = o.a := fld_of (digit_at L F 5)
  have e6 : bitAt w 11 = o.wa := bit_of (digit_at L F 4)
  have e7 : fld w 5 6 = o.b := fld_of (digit_at L F 3)
  have e8 : bitAt w 4 = o.wb := bit_of (digit_at L F 2)
  have e9 : fld w 1 3 = o.m := fld_of (digit_at L F 1)
  simp only [decodeClass, decV, rdVmin, keep, c0, c1, e2, e3, e4, e5, e6, e7, e8, e9, h]
  rfl
theorem RoundTrip.vmax (o : VaF) : RoundTrip.Statement (.vmax o) := by
  intro h
  have L : encVmax o = pack [(1, 0), (3, o.m.toNat), (1, o.wb.toNat), (6, o.b.toNat), (1, o.wa.toNat), (6, o.a.toNat), (6, o.d.toNat), (2, o.rnd.toNat), (4, o.fmt.toNat), (6, 13)] := by
    simp only [encVmax, put, putB, pack]; omega
  have F : Fits [(1, 0), (3, o.m.toNat), (1, o.wb.toNat), (6, o.b.toNat), (1, o.wa.toNat), (6, o.a.toNat), (6, o.d.toNat), (2, o.rnd.toNat), (4, o.fmt.toNat), (6, 13)] := ⟨by decide, o.m.isLt, bool_fits o.wb, o.b.isLt, bool_fits o.wa, o.a.isLt, o.d.isLt, o.rnd.isLt, o.fmt.isLt, by decide, trivial⟩
  show decodeClass .v (encVmax o) = some (.vmax o)
  generalize encVmax o = w at L ⊢
  have c0 : w / 2 ^ 30 % 2 ^ 6 = 13 := digit_at L F 9
  have c1 : w / 2 ^ 0 % 2 ^ 1 = 0 := digit_at L F 0
  have e2 : fld w 26 4 = o.fmt := fld_of (digit_at L F 8)
  have e3 : fld w 24 2 = o.rnd := fld_of (digit_at L F 7)
  have e4 : fld w 18 6 = o.d := fld_of (digit_at L F 6)
  have e5 : fld w 12 6 = o.a := fld_of (digit_at L F 5)
  have e6 : bitAt w 11 = o.wa := bit_of (digit_at L F 4)
  have e7 : fld w 5 6 = o.b := fld_of (digit_at L F 3)
  have e8 : bitAt w 4 = o.wb := bit_of (digit_at L F 2)
  have e9 : fld w 1 3 = o.m := fld_of (digit_at L F 1)
  simp only [decodeClass, decV, rdVmax, keep, c0, c1, e2, e3, e4, e5, e6, e7, e8, e9, h]
  rfl
theorem RoundTrip.vabs (o : VaOneF) : RoundTrip.Statement (.vabs o) := by
  intro h
  have L : encVabs o = pack [(1, 0), (3, o.m.toNat), (7, 0), (1, o.wa.toNat), (6, o.a.toNat), (6, o.d.toNat), (2, o.rnd.toNat), (4, o.fmt.toNat), (6, 14)] := by
    simp only [encVabs, put, putB, pack]; omega
  have F : Fits [(1, 0), (3, o.m.toNat), (7, 0), (1, o.wa.toNat), (6, o.a.toNat), (6, o.d.toNat), (2, o.rnd.toNat), (4, o.fmt.toNat), (6, 14)] := ⟨by decide, o.m.isLt, by decide, bool_fits o.wa, o.a.isLt, o.d.isLt, o.rnd.isLt, o.fmt.isLt, by decide, trivial⟩
  show decodeClass .v (encVabs o) = some (.vabs o)
  generalize encVabs o = w at L ⊢
  have c0 : w / 2 ^ 30 % 2 ^ 6 = 14 := digit_at L F 8
  have c1 : w / 2 ^ 4 % 2 ^ 7 = 0 := digit_at L F 2
  have c2 : w / 2 ^ 0 % 2 ^ 1 = 0 := digit_at L F 0
  have e3 : fld w 26 4 = o.fmt := fld_of (digit_at L F 7)
  have e4 : fld w 24 2 = o.rnd := fld_of (digit_at L F 6)
  have e5 : fld w 18 6 = o.d := fld_of (digit_at L F 5)
  have e6 : fld w 12 6 = o.a := fld_of (digit_at L F 4)
  have e7 : bitAt w 11 = o.wa := bit_of (digit_at L F 3)
  have e8 : fld w 1 3 = o.m := fld_of (digit_at L F 1)
  simp only [decodeClass, decV, rdVabs, keep, c0, c1, c2, e3, e4, e5, e6, e7, e8, h]
  rfl
theorem RoundTrip.vwacc (o : VaAccF) : RoundTrip.Statement (.vwacc o) := by
  intro h
  have L : encVwacc o = pack [(1, o.wd.toNat), (3, o.m.toNat), (1, o.wb.toNat), (6, o.b.toNat), (1, o.wa.toNat), (6, o.a.toNat), (6, o.d.toNat), (2, o.rnd.toNat), (4, o.fmt.toNat), (6, 15)] := by
    simp only [encVwacc, put, putB, pack]; omega
  have F : Fits [(1, o.wd.toNat), (3, o.m.toNat), (1, o.wb.toNat), (6, o.b.toNat), (1, o.wa.toNat), (6, o.a.toNat), (6, o.d.toNat), (2, o.rnd.toNat), (4, o.fmt.toNat), (6, 15)] := ⟨bool_fits o.wd, o.m.isLt, bool_fits o.wb, o.b.isLt, bool_fits o.wa, o.a.isLt, o.d.isLt, o.rnd.isLt, o.fmt.isLt, by decide, trivial⟩
  show decodeClass .v (encVwacc o) = some (.vwacc o)
  generalize encVwacc o = w at L ⊢
  have c0 : w / 2 ^ 30 % 2 ^ 6 = 15 := digit_at L F 9
  have e1 : fld w 26 4 = o.fmt := fld_of (digit_at L F 8)
  have e2 : fld w 24 2 = o.rnd := fld_of (digit_at L F 7)
  have e3 : fld w 18 6 = o.d := fld_of (digit_at L F 6)
  have e4 : fld w 12 6 = o.a := fld_of (digit_at L F 5)
  have e5 : bitAt w 11 = o.wa := bit_of (digit_at L F 4)
  have e6 : fld w 5 6 = o.b := fld_of (digit_at L F 3)
  have e7 : bitAt w 4 = o.wb := bit_of (digit_at L F 2)
  have e8 : fld w 1 3 = o.m := fld_of (digit_at L F 1)
  have e9 : bitAt w 0 = o.wd := bit_of (digit_at L F 0)
  simp only [decodeClass, decV, rdVwacc, keep, c0, e1, e2, e3, e4, e5, e6, e7, e8, e9, h]
  rfl
theorem RoundTrip.vclmulLo (o : VaF) : RoundTrip.Statement (.vclmulLo o) := by
  intro h
  have L : encVclmulLo o = pack [(1, 0), (3, o.m.toNat), (1, o.wb.toNat), (6, o.b.toNat), (1, o.wa.toNat), (6, o.a.toNat), (6, o.d.toNat), (2, o.rnd.toNat), (4, o.fmt.toNat), (6, 16)] := by
    simp only [encVclmulLo, put, putB, pack]; omega
  have F : Fits [(1, 0), (3, o.m.toNat), (1, o.wb.toNat), (6, o.b.toNat), (1, o.wa.toNat), (6, o.a.toNat), (6, o.d.toNat), (2, o.rnd.toNat), (4, o.fmt.toNat), (6, 16)] := ⟨by decide, o.m.isLt, bool_fits o.wb, o.b.isLt, bool_fits o.wa, o.a.isLt, o.d.isLt, o.rnd.isLt, o.fmt.isLt, by decide, trivial⟩
  show decodeClass .v (encVclmulLo o) = some (.vclmulLo o)
  generalize encVclmulLo o = w at L ⊢
  have c0 : w / 2 ^ 30 % 2 ^ 6 = 16 := digit_at L F 9
  have c1 : w / 2 ^ 0 % 2 ^ 1 = 0 := digit_at L F 0
  have e2 : fld w 26 4 = o.fmt := fld_of (digit_at L F 8)
  have e3 : fld w 24 2 = o.rnd := fld_of (digit_at L F 7)
  have e4 : fld w 18 6 = o.d := fld_of (digit_at L F 6)
  have e5 : fld w 12 6 = o.a := fld_of (digit_at L F 5)
  have e6 : bitAt w 11 = o.wa := bit_of (digit_at L F 4)
  have e7 : fld w 5 6 = o.b := fld_of (digit_at L F 3)
  have e8 : bitAt w 4 = o.wb := bit_of (digit_at L F 2)
  have e9 : fld w 1 3 = o.m := fld_of (digit_at L F 1)
  simp only [decodeClass, decV, rdVclmulLo, keep, c0, c1, e2, e3, e4, e5, e6, e7, e8, e9, h]
  rfl
theorem RoundTrip.vclmulHi (o : VaF) : RoundTrip.Statement (.vclmulHi o) := by
  intro h
  have L : encVclmulHi o = pack [(1, 0), (3, o.m.toNat), (1, o.wb.toNat), (6, o.b.toNat), (1, o.wa.toNat), (6, o.a.toNat), (6, o.d.toNat), (2, o.rnd.toNat), (4, o.fmt.toNat), (6, 17)] := by
    simp only [encVclmulHi, put, putB, pack]; omega
  have F : Fits [(1, 0), (3, o.m.toNat), (1, o.wb.toNat), (6, o.b.toNat), (1, o.wa.toNat), (6, o.a.toNat), (6, o.d.toNat), (2, o.rnd.toNat), (4, o.fmt.toNat), (6, 17)] := ⟨by decide, o.m.isLt, bool_fits o.wb, o.b.isLt, bool_fits o.wa, o.a.isLt, o.d.isLt, o.rnd.isLt, o.fmt.isLt, by decide, trivial⟩
  show decodeClass .v (encVclmulHi o) = some (.vclmulHi o)
  generalize encVclmulHi o = w at L ⊢
  have c0 : w / 2 ^ 30 % 2 ^ 6 = 17 := digit_at L F 9
  have c1 : w / 2 ^ 0 % 2 ^ 1 = 0 := digit_at L F 0
  have e2 : fld w 26 4 = o.fmt := fld_of (digit_at L F 8)
  have e3 : fld w 24 2 = o.rnd := fld_of (digit_at L F 7)
  have e4 : fld w 18 6 = o.d := fld_of (digit_at L F 6)
  have e5 : fld w 12 6 = o.a := fld_of (digit_at L F 5)
  have e6 : bitAt w 11 = o.wa := bit_of (digit_at L F 4)
  have e7 : fld w 5 6 = o.b := fld_of (digit_at L F 3)
  have e8 : bitAt w 4 = o.wb := bit_of (digit_at L F 2)
  have e9 : fld w 1 3 = o.m := fld_of (digit_at L F 1)
  simp only [decodeClass, decV, rdVclmulHi, keep, c0, c1, e2, e3, e4, e5, e6, e7, e8, e9, h]
  rfl
theorem RoundTrip.vpopc (o : VaOneF) : RoundTrip.Statement (.vpopc o) := by
  intro h
  have L : encVpopc o = pack [(1, 0), (3, o.m.toNat), (7, 0), (1, o.wa.toNat), (6, o.a.toNat), (6, o.d.toNat), (2, o.rnd.toNat), (4, o.fmt.toNat), (6, 18)] := by
    simp only [encVpopc, put, putB, pack]; omega
  have F : Fits [(1, 0), (3, o.m.toNat), (7, 0), (1, o.wa.toNat), (6, o.a.toNat), (6, o.d.toNat), (2, o.rnd.toNat), (4, o.fmt.toNat), (6, 18)] := ⟨by decide, o.m.isLt, by decide, bool_fits o.wa, o.a.isLt, o.d.isLt, o.rnd.isLt, o.fmt.isLt, by decide, trivial⟩
  show decodeClass .v (encVpopc o) = some (.vpopc o)
  generalize encVpopc o = w at L ⊢
  have c0 : w / 2 ^ 30 % 2 ^ 6 = 18 := digit_at L F 8
  have c1 : w / 2 ^ 4 % 2 ^ 7 = 0 := digit_at L F 2
  have c2 : w / 2 ^ 0 % 2 ^ 1 = 0 := digit_at L F 0
  have e3 : fld w 26 4 = o.fmt := fld_of (digit_at L F 7)
  have e4 : fld w 24 2 = o.rnd := fld_of (digit_at L F 6)
  have e5 : fld w 18 6 = o.d := fld_of (digit_at L F 5)
  have e6 : fld w 12 6 = o.a := fld_of (digit_at L F 4)
  have e7 : bitAt w 11 = o.wa := bit_of (digit_at L F 3)
  have e8 : fld w 1 3 = o.m := fld_of (digit_at L F 1)
  simp only [decodeClass, decV, rdVpopc, keep, c0, c1, c2, e3, e4, e5, e6, e7, e8, h]
  rfl
theorem RoundTrip.vfadd (o : VaF) : RoundTrip.Statement (.vfadd o) := by
  intro h
  have L : encVfadd o = pack [(1, 0), (3, o.m.toNat), (1, o.wb.toNat), (6, o.b.toNat), (1, o.wa.toNat), (6, o.a.toNat), (6, o.d.toNat), (2, o.rnd.toNat), (4, o.fmt.toNat), (6, 19)] := by
    simp only [encVfadd, put, putB, pack]; omega
  have F : Fits [(1, 0), (3, o.m.toNat), (1, o.wb.toNat), (6, o.b.toNat), (1, o.wa.toNat), (6, o.a.toNat), (6, o.d.toNat), (2, o.rnd.toNat), (4, o.fmt.toNat), (6, 19)] := ⟨by decide, o.m.isLt, bool_fits o.wb, o.b.isLt, bool_fits o.wa, o.a.isLt, o.d.isLt, o.rnd.isLt, o.fmt.isLt, by decide, trivial⟩
  show decodeClass .v (encVfadd o) = some (.vfadd o)
  generalize encVfadd o = w at L ⊢
  have c0 : w / 2 ^ 30 % 2 ^ 6 = 19 := digit_at L F 9
  have c1 : w / 2 ^ 0 % 2 ^ 1 = 0 := digit_at L F 0
  have e2 : fld w 26 4 = o.fmt := fld_of (digit_at L F 8)
  have e3 : fld w 24 2 = o.rnd := fld_of (digit_at L F 7)
  have e4 : fld w 18 6 = o.d := fld_of (digit_at L F 6)
  have e5 : fld w 12 6 = o.a := fld_of (digit_at L F 5)
  have e6 : bitAt w 11 = o.wa := bit_of (digit_at L F 4)
  have e7 : fld w 5 6 = o.b := fld_of (digit_at L F 3)
  have e8 : bitAt w 4 = o.wb := bit_of (digit_at L F 2)
  have e9 : fld w 1 3 = o.m := fld_of (digit_at L F 1)
  simp only [decodeClass, decV, rdVfadd, keep, c0, c1, e2, e3, e4, e5, e6, e7, e8, e9, h]
  rfl
theorem RoundTrip.vfsub (o : VaF) : RoundTrip.Statement (.vfsub o) := by
  intro h
  have L : encVfsub o = pack [(1, 0), (3, o.m.toNat), (1, o.wb.toNat), (6, o.b.toNat), (1, o.wa.toNat), (6, o.a.toNat), (6, o.d.toNat), (2, o.rnd.toNat), (4, o.fmt.toNat), (6, 20)] := by
    simp only [encVfsub, put, putB, pack]; omega
  have F : Fits [(1, 0), (3, o.m.toNat), (1, o.wb.toNat), (6, o.b.toNat), (1, o.wa.toNat), (6, o.a.toNat), (6, o.d.toNat), (2, o.rnd.toNat), (4, o.fmt.toNat), (6, 20)] := ⟨by decide, o.m.isLt, bool_fits o.wb, o.b.isLt, bool_fits o.wa, o.a.isLt, o.d.isLt, o.rnd.isLt, o.fmt.isLt, by decide, trivial⟩
  show decodeClass .v (encVfsub o) = some (.vfsub o)
  generalize encVfsub o = w at L ⊢
  have c0 : w / 2 ^ 30 % 2 ^ 6 = 20 := digit_at L F 9
  have c1 : w / 2 ^ 0 % 2 ^ 1 = 0 := digit_at L F 0
  have e2 : fld w 26 4 = o.fmt := fld_of (digit_at L F 8)
  have e3 : fld w 24 2 = o.rnd := fld_of (digit_at L F 7)
  have e4 : fld w 18 6 = o.d := fld_of (digit_at L F 6)
  have e5 : fld w 12 6 = o.a := fld_of (digit_at L F 5)
  have e6 : bitAt w 11 = o.wa := bit_of (digit_at L F 4)
  have e7 : fld w 5 6 = o.b := fld_of (digit_at L F 3)
  have e8 : bitAt w 4 = o.wb := bit_of (digit_at L F 2)
  have e9 : fld w 1 3 = o.m := fld_of (digit_at L F 1)
  simp only [decodeClass, decV, rdVfsub, keep, c0, c1, e2, e3, e4, e5, e6, e7, e8, e9, h]
  rfl
theorem RoundTrip.vfmul (o : VaF) : RoundTrip.Statement (.vfmul o) := by
  intro h
  have L : encVfmul o = pack [(1, 0), (3, o.m.toNat), (1, o.wb.toNat), (6, o.b.toNat), (1, o.wa.toNat), (6, o.a.toNat), (6, o.d.toNat), (2, o.rnd.toNat), (4, o.fmt.toNat), (6, 21)] := by
    simp only [encVfmul, put, putB, pack]; omega
  have F : Fits [(1, 0), (3, o.m.toNat), (1, o.wb.toNat), (6, o.b.toNat), (1, o.wa.toNat), (6, o.a.toNat), (6, o.d.toNat), (2, o.rnd.toNat), (4, o.fmt.toNat), (6, 21)] := ⟨by decide, o.m.isLt, bool_fits o.wb, o.b.isLt, bool_fits o.wa, o.a.isLt, o.d.isLt, o.rnd.isLt, o.fmt.isLt, by decide, trivial⟩
  show decodeClass .v (encVfmul o) = some (.vfmul o)
  generalize encVfmul o = w at L ⊢
  have c0 : w / 2 ^ 30 % 2 ^ 6 = 21 := digit_at L F 9
  have c1 : w / 2 ^ 0 % 2 ^ 1 = 0 := digit_at L F 0
  have e2 : fld w 26 4 = o.fmt := fld_of (digit_at L F 8)
  have e3 : fld w 24 2 = o.rnd := fld_of (digit_at L F 7)
  have e4 : fld w 18 6 = o.d := fld_of (digit_at L F 6)
  have e5 : fld w 12 6 = o.a := fld_of (digit_at L F 5)
  have e6 : bitAt w 11 = o.wa := bit_of (digit_at L F 4)
  have e7 : fld w 5 6 = o.b := fld_of (digit_at L F 3)
  have e8 : bitAt w 4 = o.wb := bit_of (digit_at L F 2)
  have e9 : fld w 1 3 = o.m := fld_of (digit_at L F 1)
  simp only [decodeClass, decV, rdVfmul, keep, c0, c1, e2, e3, e4, e5, e6, e7, e8, e9, h]
  rfl
theorem RoundTrip.vfma (o : VaAccF) : RoundTrip.Statement (.vfma o) := by
  intro h
  have L : encVfma o = pack [(1, o.wd.toNat), (3, o.m.toNat), (1, o.wb.toNat), (6, o.b.toNat), (1, o.wa.toNat), (6, o.a.toNat), (6, o.d.toNat), (2, o.rnd.toNat), (4, o.fmt.toNat), (6, 22)] := by
    simp only [encVfma, put, putB, pack]; omega
  have F : Fits [(1, o.wd.toNat), (3, o.m.toNat), (1, o.wb.toNat), (6, o.b.toNat), (1, o.wa.toNat), (6, o.a.toNat), (6, o.d.toNat), (2, o.rnd.toNat), (4, o.fmt.toNat), (6, 22)] := ⟨bool_fits o.wd, o.m.isLt, bool_fits o.wb, o.b.isLt, bool_fits o.wa, o.a.isLt, o.d.isLt, o.rnd.isLt, o.fmt.isLt, by decide, trivial⟩
  show decodeClass .v (encVfma o) = some (.vfma o)
  generalize encVfma o = w at L ⊢
  have c0 : w / 2 ^ 30 % 2 ^ 6 = 22 := digit_at L F 9
  have e1 : fld w 26 4 = o.fmt := fld_of (digit_at L F 8)
  have e2 : fld w 24 2 = o.rnd := fld_of (digit_at L F 7)
  have e3 : fld w 18 6 = o.d := fld_of (digit_at L F 6)
  have e4 : fld w 12 6 = o.a := fld_of (digit_at L F 5)
  have e5 : bitAt w 11 = o.wa := bit_of (digit_at L F 4)
  have e6 : fld w 5 6 = o.b := fld_of (digit_at L F 3)
  have e7 : bitAt w 4 = o.wb := bit_of (digit_at L F 2)
  have e8 : fld w 1 3 = o.m := fld_of (digit_at L F 1)
  have e9 : bitAt w 0 = o.wd := bit_of (digit_at L F 0)
  simp only [decodeClass, decV, rdVfma, keep, c0, e1, e2, e3, e4, e5, e6, e7, e8, e9, h]
  rfl
theorem RoundTrip.vfmin (o : VaF) : RoundTrip.Statement (.vfmin o) := by
  intro h
  have L : encVfmin o = pack [(1, 0), (3, o.m.toNat), (1, o.wb.toNat), (6, o.b.toNat), (1, o.wa.toNat), (6, o.a.toNat), (6, o.d.toNat), (2, o.rnd.toNat), (4, o.fmt.toNat), (6, 23)] := by
    simp only [encVfmin, put, putB, pack]; omega
  have F : Fits [(1, 0), (3, o.m.toNat), (1, o.wb.toNat), (6, o.b.toNat), (1, o.wa.toNat), (6, o.a.toNat), (6, o.d.toNat), (2, o.rnd.toNat), (4, o.fmt.toNat), (6, 23)] := ⟨by decide, o.m.isLt, bool_fits o.wb, o.b.isLt, bool_fits o.wa, o.a.isLt, o.d.isLt, o.rnd.isLt, o.fmt.isLt, by decide, trivial⟩
  show decodeClass .v (encVfmin o) = some (.vfmin o)
  generalize encVfmin o = w at L ⊢
  have c0 : w / 2 ^ 30 % 2 ^ 6 = 23 := digit_at L F 9
  have c1 : w / 2 ^ 0 % 2 ^ 1 = 0 := digit_at L F 0
  have e2 : fld w 26 4 = o.fmt := fld_of (digit_at L F 8)
  have e3 : fld w 24 2 = o.rnd := fld_of (digit_at L F 7)
  have e4 : fld w 18 6 = o.d := fld_of (digit_at L F 6)
  have e5 : fld w 12 6 = o.a := fld_of (digit_at L F 5)
  have e6 : bitAt w 11 = o.wa := bit_of (digit_at L F 4)
  have e7 : fld w 5 6 = o.b := fld_of (digit_at L F 3)
  have e8 : bitAt w 4 = o.wb := bit_of (digit_at L F 2)
  have e9 : fld w 1 3 = o.m := fld_of (digit_at L F 1)
  simp only [decodeClass, decV, rdVfmin, keep, c0, c1, e2, e3, e4, e5, e6, e7, e8, e9, h]
  rfl
theorem RoundTrip.vfmax (o : VaF) : RoundTrip.Statement (.vfmax o) := by
  intro h
  have L : encVfmax o = pack [(1, 0), (3, o.m.toNat), (1, o.wb.toNat), (6, o.b.toNat), (1, o.wa.toNat), (6, o.a.toNat), (6, o.d.toNat), (2, o.rnd.toNat), (4, o.fmt.toNat), (6, 24)] := by
    simp only [encVfmax, put, putB, pack]; omega
  have F : Fits [(1, 0), (3, o.m.toNat), (1, o.wb.toNat), (6, o.b.toNat), (1, o.wa.toNat), (6, o.a.toNat), (6, o.d.toNat), (2, o.rnd.toNat), (4, o.fmt.toNat), (6, 24)] := ⟨by decide, o.m.isLt, bool_fits o.wb, o.b.isLt, bool_fits o.wa, o.a.isLt, o.d.isLt, o.rnd.isLt, o.fmt.isLt, by decide, trivial⟩
  show decodeClass .v (encVfmax o) = some (.vfmax o)
  generalize encVfmax o = w at L ⊢
  have c0 : w / 2 ^ 30 % 2 ^ 6 = 24 := digit_at L F 9
  have c1 : w / 2 ^ 0 % 2 ^ 1 = 0 := digit_at L F 0
  have e2 : fld w 26 4 = o.fmt := fld_of (digit_at L F 8)
  have e3 : fld w 24 2 = o.rnd := fld_of (digit_at L F 7)
  have e4 : fld w 18 6 = o.d := fld_of (digit_at L F 6)
  have e5 : fld w 12 6 = o.a := fld_of (digit_at L F 5)
  have e6 : bitAt w 11 = o.wa := bit_of (digit_at L F 4)
  have e7 : fld w 5 6 = o.b := fld_of (digit_at L F 3)
  have e8 : bitAt w 4 = o.wb := bit_of (digit_at L F 2)
  have e9 : fld w 1 3 = o.m := fld_of (digit_at L F 1)
  simp only [decodeClass, decV, rdVfmax, keep, c0, c1, e2, e3, e4, e5, e6, e7, e8, e9, h]
  rfl
theorem RoundTrip.vfabs (o : VaOneF) : RoundTrip.Statement (.vfabs o) := by
  intro h
  have L : encVfabs o = pack [(1, 0), (3, o.m.toNat), (7, 0), (1, o.wa.toNat), (6, o.a.toNat), (6, o.d.toNat), (2, o.rnd.toNat), (4, o.fmt.toNat), (6, 25)] := by
    simp only [encVfabs, put, putB, pack]; omega
  have F : Fits [(1, 0), (3, o.m.toNat), (7, 0), (1, o.wa.toNat), (6, o.a.toNat), (6, o.d.toNat), (2, o.rnd.toNat), (4, o.fmt.toNat), (6, 25)] := ⟨by decide, o.m.isLt, by decide, bool_fits o.wa, o.a.isLt, o.d.isLt, o.rnd.isLt, o.fmt.isLt, by decide, trivial⟩
  show decodeClass .v (encVfabs o) = some (.vfabs o)
  generalize encVfabs o = w at L ⊢
  have c0 : w / 2 ^ 30 % 2 ^ 6 = 25 := digit_at L F 8
  have c1 : w / 2 ^ 4 % 2 ^ 7 = 0 := digit_at L F 2
  have c2 : w / 2 ^ 0 % 2 ^ 1 = 0 := digit_at L F 0
  have e3 : fld w 26 4 = o.fmt := fld_of (digit_at L F 7)
  have e4 : fld w 24 2 = o.rnd := fld_of (digit_at L F 6)
  have e5 : fld w 18 6 = o.d := fld_of (digit_at L F 5)
  have e6 : fld w 12 6 = o.a := fld_of (digit_at L F 4)
  have e7 : bitAt w 11 = o.wa := bit_of (digit_at L F 3)
  have e8 : fld w 1 3 = o.m := fld_of (digit_at L F 1)
  simp only [decodeClass, decV, rdVfabs, keep, c0, c1, c2, e3, e4, e5, e6, e7, e8, h]
  rfl
theorem RoundTrip.vfneg (o : VaOneF) : RoundTrip.Statement (.vfneg o) := by
  intro h
  have L : encVfneg o = pack [(1, 0), (3, o.m.toNat), (7, 0), (1, o.wa.toNat), (6, o.a.toNat), (6, o.d.toNat), (2, o.rnd.toNat), (4, o.fmt.toNat), (6, 26)] := by
    simp only [encVfneg, put, putB, pack]; omega
  have F : Fits [(1, 0), (3, o.m.toNat), (7, 0), (1, o.wa.toNat), (6, o.a.toNat), (6, o.d.toNat), (2, o.rnd.toNat), (4, o.fmt.toNat), (6, 26)] := ⟨by decide, o.m.isLt, by decide, bool_fits o.wa, o.a.isLt, o.d.isLt, o.rnd.isLt, o.fmt.isLt, by decide, trivial⟩
  show decodeClass .v (encVfneg o) = some (.vfneg o)
  generalize encVfneg o = w at L ⊢
  have c0 : w / 2 ^ 30 % 2 ^ 6 = 26 := digit_at L F 8
  have c1 : w / 2 ^ 4 % 2 ^ 7 = 0 := digit_at L F 2
  have c2 : w / 2 ^ 0 % 2 ^ 1 = 0 := digit_at L F 0
  have e3 : fld w 26 4 = o.fmt := fld_of (digit_at L F 7)
  have e4 : fld w 24 2 = o.rnd := fld_of (digit_at L F 6)
  have e5 : fld w 18 6 = o.d := fld_of (digit_at L F 5)
  have e6 : fld w 12 6 = o.a := fld_of (digit_at L F 4)
  have e7 : bitAt w 11 = o.wa := bit_of (digit_at L F 3)
  have e8 : fld w 1 3 = o.m := fld_of (digit_at L F 1)
  simp only [decodeClass, decV, rdVfneg, keep, c0, c1, c2, e3, e4, e5, e6, e7, e8, h]
  rfl
theorem RoundTrip.vfcmp (o : VcF) : RoundTrip.Statement (.vfcmp o) := by
  intro h
  have L : encVfcmp o = pack [(1, 0), (3, o.m.toNat), (1, o.wb.toNat), (6, o.b.toNat), (1, o.wa.toNat), (6, o.a.toNat), (3, o.d.toNat), (1, 0), (4, o.cc.toNat), (4, o.fmt.toNat), (6, 27)] := by
    simp only [encVfcmp, put, putB, pack]; omega
  have F : Fits [(1, 0), (3, o.m.toNat), (1, o.wb.toNat), (6, o.b.toNat), (1, o.wa.toNat), (6, o.a.toNat), (3, o.d.toNat), (1, 0), (4, o.cc.toNat), (4, o.fmt.toNat), (6, 27)] := ⟨by decide, o.m.isLt, bool_fits o.wb, o.b.isLt, bool_fits o.wa, o.a.isLt, o.d.isLt, by decide, o.cc.isLt, o.fmt.isLt, by decide, trivial⟩
  show decodeClass .v (encVfcmp o) = some (.vfcmp o)
  generalize encVfcmp o = w at L ⊢
  have c0 : w / 2 ^ 30 % 2 ^ 6 = 27 := digit_at L F 10
  have c1 : w / 2 ^ 21 % 2 ^ 1 = 0 := digit_at L F 7
  have c2 : w / 2 ^ 0 % 2 ^ 1 = 0 := digit_at L F 0
  have e3 : fld w 26 4 = o.fmt := fld_of (digit_at L F 9)
  have e4 : fld w 22 4 = o.cc := fld_of (digit_at L F 8)
  have e5 : fld w 18 3 = o.d := fld_of (digit_at L F 6)
  have e6 : fld w 12 6 = o.a := fld_of (digit_at L F 5)
  have e7 : bitAt w 11 = o.wa := bit_of (digit_at L F 4)
  have e8 : fld w 5 6 = o.b := fld_of (digit_at L F 3)
  have e9 : bitAt w 4 = o.wb := bit_of (digit_at L F 2)
  have e10 : fld w 1 3 = o.m := fld_of (digit_at L F 1)
  simp only [decodeClass, decV, rdVfcmp, keep, c0, c1, c2, e3, e4, e5, e6, e7, e8, e9, e10, h]
  rfl
theorem RoundTrip.vmcmp (o : VcF) : RoundTrip.Statement (.vmcmp o) := by
  intro h
  have L : encVmcmp o = pack [(1, 0), (3, o.m.toNat), (1, o.wb.toNat), (6, o.b.toNat), (1, o.wa.toNat), (6, o.a.toNat), (3, o.d.toNat), (1, 0), (4, o.cc.toNat), (4, o.fmt.toNat), (6, 28)] := by
    simp only [encVmcmp, put, putB, pack]; omega
  have F : Fits [(1, 0), (3, o.m.toNat), (1, o.wb.toNat), (6, o.b.toNat), (1, o.wa.toNat), (6, o.a.toNat), (3, o.d.toNat), (1, 0), (4, o.cc.toNat), (4, o.fmt.toNat), (6, 28)] := ⟨by decide, o.m.isLt, bool_fits o.wb, o.b.isLt, bool_fits o.wa, o.a.isLt, o.d.isLt, by decide, o.cc.isLt, o.fmt.isLt, by decide, trivial⟩
  show decodeClass .v (encVmcmp o) = some (.vmcmp o)
  generalize encVmcmp o = w at L ⊢
  have c0 : w / 2 ^ 30 % 2 ^ 6 = 28 := digit_at L F 10
  have c1 : w / 2 ^ 21 % 2 ^ 1 = 0 := digit_at L F 7
  have c2 : w / 2 ^ 0 % 2 ^ 1 = 0 := digit_at L F 0
  have e3 : fld w 26 4 = o.fmt := fld_of (digit_at L F 9)
  have e4 : fld w 22 4 = o.cc := fld_of (digit_at L F 8)
  have e5 : fld w 18 3 = o.d := fld_of (digit_at L F 6)
  have e6 : fld w 12 6 = o.a := fld_of (digit_at L F 5)
  have e7 : bitAt w 11 = o.wa := bit_of (digit_at L F 4)
  have e8 : fld w 5 6 = o.b := fld_of (digit_at L F 3)
  have e9 : bitAt w 4 = o.wb := bit_of (digit_at L F 2)
  have e10 : fld w 1 3 = o.m := fld_of (digit_at L F 1)
  simp only [decodeClass, decV, rdVmcmp, keep, c0, c1, c2, e3, e4, e5, e6, e7, e8, e9, e10, h]
  rfl
theorem RoundTrip.mand (o : VmF) : RoundTrip.Statement (.mand o) := by
  intro h
  have L : encMand o = pack [(12, 0), (3, o.b.toNat), (3, o.a.toNat), (3, o.d.toNat), (9, 0), (6, 29)] := by
    simp only [encMand, put, pack]; omega
  have F : Fits [(12, 0), (3, o.b.toNat), (3, o.a.toNat), (3, o.d.toNat), (9, 0), (6, 29)] := ⟨by decide, o.b.isLt, o.a.isLt, o.d.isLt, by decide, by decide, trivial⟩
  show decodeClass .v (encMand o) = some (.mand o)
  generalize encMand o = w at L ⊢
  have c0 : w / 2 ^ 30 % 2 ^ 6 = 29 := digit_at L F 5
  have c1 : w / 2 ^ 21 % 2 ^ 9 = 0 := digit_at L F 4
  have c2 : w / 2 ^ 0 % 2 ^ 12 = 0 := digit_at L F 0
  have e3 : fld w 18 3 = o.d := fld_of (digit_at L F 3)
  have e4 : fld w 15 3 = o.a := fld_of (digit_at L F 2)
  have e5 : fld w 12 3 = o.b := fld_of (digit_at L F 1)
  simp only [decodeClass, decV, rdMand, keep, c0, c1, c2, e3, e4, e5, h]
  rfl
theorem RoundTrip.mor (o : VmF) : RoundTrip.Statement (.mor o) := by
  intro h
  have L : encMor o = pack [(12, 0), (3, o.b.toNat), (3, o.a.toNat), (3, o.d.toNat), (9, 0), (6, 30)] := by
    simp only [encMor, put, pack]; omega
  have F : Fits [(12, 0), (3, o.b.toNat), (3, o.a.toNat), (3, o.d.toNat), (9, 0), (6, 30)] := ⟨by decide, o.b.isLt, o.a.isLt, o.d.isLt, by decide, by decide, trivial⟩
  show decodeClass .v (encMor o) = some (.mor o)
  generalize encMor o = w at L ⊢
  have c0 : w / 2 ^ 30 % 2 ^ 6 = 30 := digit_at L F 5
  have c1 : w / 2 ^ 21 % 2 ^ 9 = 0 := digit_at L F 4
  have c2 : w / 2 ^ 0 % 2 ^ 12 = 0 := digit_at L F 0
  have e3 : fld w 18 3 = o.d := fld_of (digit_at L F 3)
  have e4 : fld w 15 3 = o.a := fld_of (digit_at L F 2)
  have e5 : fld w 12 3 = o.b := fld_of (digit_at L F 1)
  simp only [decodeClass, decV, rdMor, keep, c0, c1, c2, e3, e4, e5, h]
  rfl
theorem RoundTrip.mnot (o : VmOneF) : RoundTrip.Statement (.mnot o) := by
  intro h
  have L : encMnot o = pack [(12, 0), (3, 0), (3, o.a.toNat), (3, o.d.toNat), (9, 0), (6, 31)] := by
    simp only [encMnot, put, pack]; omega
  have F : Fits [(12, 0), (3, 0), (3, o.a.toNat), (3, o.d.toNat), (9, 0), (6, 31)] := ⟨by decide, by decide, o.a.isLt, o.d.isLt, by decide, by decide, trivial⟩
  show decodeClass .v (encMnot o) = some (.mnot o)
  generalize encMnot o = w at L ⊢
  have c0 : w / 2 ^ 30 % 2 ^ 6 = 31 := digit_at L F 5
  have c1 : w / 2 ^ 21 % 2 ^ 9 = 0 := digit_at L F 4
  have c2 : w / 2 ^ 12 % 2 ^ 3 = 0 := digit_at L F 1
  have c3 : w / 2 ^ 0 % 2 ^ 12 = 0 := digit_at L F 0
  have e4 : fld w 18 3 = o.d := fld_of (digit_at L F 3)
  have e5 : fld w 15 3 = o.a := fld_of (digit_at L F 2)
  simp only [decodeClass, decV, rdMnot, keep, c0, c1, c2, c3, e4, e5, h]
  rfl
theorem RoundTrip.vexp2 (o : VaOneF) : RoundTrip.Statement (.vexp2 o) := by
  intro h
  have L : encVexp2 o = pack [(1, 0), (3, o.m.toNat), (7, 0), (1, o.wa.toNat), (6, o.a.toNat), (6, o.d.toNat), (2, o.rnd.toNat), (4, o.fmt.toNat), (6, 32)] := by
    simp only [encVexp2, put, putB, pack]; omega
  have F : Fits [(1, 0), (3, o.m.toNat), (7, 0), (1, o.wa.toNat), (6, o.a.toNat), (6, o.d.toNat), (2, o.rnd.toNat), (4, o.fmt.toNat), (6, 32)] := ⟨by decide, o.m.isLt, by decide, bool_fits o.wa, o.a.isLt, o.d.isLt, o.rnd.isLt, o.fmt.isLt, by decide, trivial⟩
  show decodeClass .v (encVexp2 o) = some (.vexp2 o)
  generalize encVexp2 o = w at L ⊢
  have c0 : w / 2 ^ 30 % 2 ^ 6 = 32 := digit_at L F 8
  have c1 : w / 2 ^ 4 % 2 ^ 7 = 0 := digit_at L F 2
  have c2 : w / 2 ^ 0 % 2 ^ 1 = 0 := digit_at L F 0
  have e3 : fld w 26 4 = o.fmt := fld_of (digit_at L F 7)
  have e4 : fld w 24 2 = o.rnd := fld_of (digit_at L F 6)
  have e5 : fld w 18 6 = o.d := fld_of (digit_at L F 5)
  have e6 : fld w 12 6 = o.a := fld_of (digit_at L F 4)
  have e7 : bitAt w 11 = o.wa := bit_of (digit_at L F 3)
  have e8 : fld w 1 3 = o.m := fld_of (digit_at L F 1)
  simp only [decodeClass, decV, rdVexp2, keep, c0, c1, c2, e3, e4, e5, e6, e7, e8, h]
  rfl
theorem RoundTrip.vlog2 (o : VaOneF) : RoundTrip.Statement (.vlog2 o) := by
  intro h
  have L : encVlog2 o = pack [(1, 0), (3, o.m.toNat), (7, 0), (1, o.wa.toNat), (6, o.a.toNat), (6, o.d.toNat), (2, o.rnd.toNat), (4, o.fmt.toNat), (6, 33)] := by
    simp only [encVlog2, put, putB, pack]; omega
  have F : Fits [(1, 0), (3, o.m.toNat), (7, 0), (1, o.wa.toNat), (6, o.a.toNat), (6, o.d.toNat), (2, o.rnd.toNat), (4, o.fmt.toNat), (6, 33)] := ⟨by decide, o.m.isLt, by decide, bool_fits o.wa, o.a.isLt, o.d.isLt, o.rnd.isLt, o.fmt.isLt, by decide, trivial⟩
  show decodeClass .v (encVlog2 o) = some (.vlog2 o)
  generalize encVlog2 o = w at L ⊢
  have c0 : w / 2 ^ 30 % 2 ^ 6 = 33 := digit_at L F 8
  have c1 : w / 2 ^ 4 % 2 ^ 7 = 0 := digit_at L F 2
  have c2 : w / 2 ^ 0 % 2 ^ 1 = 0 := digit_at L F 0
  have e3 : fld w 26 4 = o.fmt := fld_of (digit_at L F 7)
  have e4 : fld w 24 2 = o.rnd := fld_of (digit_at L F 6)
  have e5 : fld w 18 6 = o.d := fld_of (digit_at L F 5)
  have e6 : fld w 12 6 = o.a := fld_of (digit_at L F 4)
  have e7 : bitAt w 11 = o.wa := bit_of (digit_at L F 3)
  have e8 : fld w 1 3 = o.m := fld_of (digit_at L F 1)
  simp only [decodeClass, decV, rdVlog2, keep, c0, c1, c2, e3, e4, e5, e6, e7, e8, h]
  rfl
theorem RoundTrip.vrcp (o : VaOneF) : RoundTrip.Statement (.vrcp o) := by
  intro h
  have L : encVrcp o = pack [(1, 0), (3, o.m.toNat), (7, 0), (1, o.wa.toNat), (6, o.a.toNat), (6, o.d.toNat), (2, o.rnd.toNat), (4, o.fmt.toNat), (6, 34)] := by
    simp only [encVrcp, put, putB, pack]; omega
  have F : Fits [(1, 0), (3, o.m.toNat), (7, 0), (1, o.wa.toNat), (6, o.a.toNat), (6, o.d.toNat), (2, o.rnd.toNat), (4, o.fmt.toNat), (6, 34)] := ⟨by decide, o.m.isLt, by decide, bool_fits o.wa, o.a.isLt, o.d.isLt, o.rnd.isLt, o.fmt.isLt, by decide, trivial⟩
  show decodeClass .v (encVrcp o) = some (.vrcp o)
  generalize encVrcp o = w at L ⊢
  have c0 : w / 2 ^ 30 % 2 ^ 6 = 34 := digit_at L F 8
  have c1 : w / 2 ^ 4 % 2 ^ 7 = 0 := digit_at L F 2
  have c2 : w / 2 ^ 0 % 2 ^ 1 = 0 := digit_at L F 0
  have e3 : fld w 26 4 = o.fmt := fld_of (digit_at L F 7)
  have e4 : fld w 24 2 = o.rnd := fld_of (digit_at L F 6)
  have e5 : fld w 18 6 = o.d := fld_of (digit_at L F 5)
  have e6 : fld w 12 6 = o.a := fld_of (digit_at L F 4)
  have e7 : bitAt w 11 = o.wa := bit_of (digit_at L F 3)
  have e8 : fld w 1 3 = o.m := fld_of (digit_at L F 1)
  simp only [decodeClass, decV, rdVrcp, keep, c0, c1, c2, e3, e4, e5, e6, e7, e8, h]
  rfl
theorem RoundTrip.vrsq (o : VaOneF) : RoundTrip.Statement (.vrsq o) := by
  intro h
  have L : encVrsq o = pack [(1, 0), (3, o.m.toNat), (7, 0), (1, o.wa.toNat), (6, o.a.toNat), (6, o.d.toNat), (2, o.rnd.toNat), (4, o.fmt.toNat), (6, 35)] := by
    simp only [encVrsq, put, putB, pack]; omega
  have F : Fits [(1, 0), (3, o.m.toNat), (7, 0), (1, o.wa.toNat), (6, o.a.toNat), (6, o.d.toNat), (2, o.rnd.toNat), (4, o.fmt.toNat), (6, 35)] := ⟨by decide, o.m.isLt, by decide, bool_fits o.wa, o.a.isLt, o.d.isLt, o.rnd.isLt, o.fmt.isLt, by decide, trivial⟩
  show decodeClass .v (encVrsq o) = some (.vrsq o)
  generalize encVrsq o = w at L ⊢
  have c0 : w / 2 ^ 30 % 2 ^ 6 = 35 := digit_at L F 8
  have c1 : w / 2 ^ 4 % 2 ^ 7 = 0 := digit_at L F 2
  have c2 : w / 2 ^ 0 % 2 ^ 1 = 0 := digit_at L F 0
  have e3 : fld w 26 4 = o.fmt := fld_of (digit_at L F 7)
  have e4 : fld w 24 2 = o.rnd := fld_of (digit_at L F 6)
  have e5 : fld w 18 6 = o.d := fld_of (digit_at L F 5)
  have e6 : fld w 12 6 = o.a := fld_of (digit_at L F 4)
  have e7 : bitAt w 11 = o.wa := bit_of (digit_at L F 3)
  have e8 : fld w 1 3 = o.m := fld_of (digit_at L F 1)
  simp only [decodeClass, decV, rdVrsq, keep, c0, c1, c2, e3, e4, e5, e6, e7, e8, h]
  rfl
theorem RoundTrip.vsqrt (o : VaOneF) : RoundTrip.Statement (.vsqrt o) := by
  intro h
  have L : encVsqrt o = pack [(1, 0), (3, o.m.toNat), (7, 0), (1, o.wa.toNat), (6, o.a.toNat), (6, o.d.toNat), (2, o.rnd.toNat), (4, o.fmt.toNat), (6, 36)] := by
    simp only [encVsqrt, put, putB, pack]; omega
  have F : Fits [(1, 0), (3, o.m.toNat), (7, 0), (1, o.wa.toNat), (6, o.a.toNat), (6, o.d.toNat), (2, o.rnd.toNat), (4, o.fmt.toNat), (6, 36)] := ⟨by decide, o.m.isLt, by decide, bool_fits o.wa, o.a.isLt, o.d.isLt, o.rnd.isLt, o.fmt.isLt, by decide, trivial⟩
  show decodeClass .v (encVsqrt o) = some (.vsqrt o)
  generalize encVsqrt o = w at L ⊢
  have c0 : w / 2 ^ 30 % 2 ^ 6 = 36 := digit_at L F 8
  have c1 : w / 2 ^ 4 % 2 ^ 7 = 0 := digit_at L F 2
  have c2 : w / 2 ^ 0 % 2 ^ 1 = 0 := digit_at L F 0
  have e3 : fld w 26 4 = o.fmt := fld_of (digit_at L F 7)
  have e4 : fld w 24 2 = o.rnd := fld_of (digit_at L F 6)
  have e5 : fld w 18 6 = o.d := fld_of (digit_at L F 5)
  have e6 : fld w 12 6 = o.a := fld_of (digit_at L F 4)
  have e7 : bitAt w 11 = o.wa := bit_of (digit_at L F 3)
  have e8 : fld w 1 3 = o.m := fld_of (digit_at L F 1)
  simp only [decodeClass, decV, rdVsqrt, keep, c0, c1, c2, e3, e4, e5, e6, e7, e8, h]
  rfl
theorem RoundTrip.vcvt (o : VaOneF) : RoundTrip.Statement (.vcvt o) := by
  intro h
  have L : encVcvt o = pack [(1, 0), (3, o.m.toNat), (7, 0), (1, o.wa.toNat), (6, o.a.toNat), (6, o.d.toNat), (2, o.rnd.toNat), (4, o.fmt.toNat), (6, 37)] := by
    simp only [encVcvt, put, putB, pack]; omega
  have F : Fits [(1, 0), (3, o.m.toNat), (7, 0), (1, o.wa.toNat), (6, o.a.toNat), (6, o.d.toNat), (2, o.rnd.toNat), (4, o.fmt.toNat), (6, 37)] := ⟨by decide, o.m.isLt, by decide, bool_fits o.wa, o.a.isLt, o.d.isLt, o.rnd.isLt, o.fmt.isLt, by decide, trivial⟩
  show decodeClass .v (encVcvt o) = some (.vcvt o)
  generalize encVcvt o = w at L ⊢
  have c0 : w / 2 ^ 30 % 2 ^ 6 = 37 := digit_at L F 8
  have c1 : w / 2 ^ 4 % 2 ^ 7 = 0 := digit_at L F 2
  have c2 : w / 2 ^ 0 % 2 ^ 1 = 0 := digit_at L F 0
  have e3 : fld w 26 4 = o.fmt := fld_of (digit_at L F 7)
  have e4 : fld w 24 2 = o.rnd := fld_of (digit_at L F 6)
  have e5 : fld w 18 6 = o.d := fld_of (digit_at L F 5)
  have e6 : fld w 12 6 = o.a := fld_of (digit_at L F 4)
  have e7 : bitAt w 11 = o.wa := bit_of (digit_at L F 3)
  have e8 : fld w 1 3 = o.m := fld_of (digit_at L F 1)
  simp only [decodeClass, decV, rdVcvt, keep, c0, c1, c2, e3, e4, e5, e6, e7, e8, h]
  rfl
theorem RoundTrip.vscale (o : VaF) : RoundTrip.Statement (.vscale o) := by
  intro h
  have L : encVscale o = pack [(1, 0), (3, o.m.toNat), (1, o.wb.toNat), (6, o.b.toNat), (1, o.wa.toNat), (6, o.a.toNat), (6, o.d.toNat), (2, o.rnd.toNat), (4, o.fmt.toNat), (6, 38)] := by
    simp only [encVscale, put, putB, pack]; omega
  have F : Fits [(1, 0), (3, o.m.toNat), (1, o.wb.toNat), (6, o.b.toNat), (1, o.wa.toNat), (6, o.a.toNat), (6, o.d.toNat), (2, o.rnd.toNat), (4, o.fmt.toNat), (6, 38)] := ⟨by decide, o.m.isLt, bool_fits o.wb, o.b.isLt, bool_fits o.wa, o.a.isLt, o.d.isLt, o.rnd.isLt, o.fmt.isLt, by decide, trivial⟩
  show decodeClass .v (encVscale o) = some (.vscale o)
  generalize encVscale o = w at L ⊢
  have c0 : w / 2 ^ 30 % 2 ^ 6 = 38 := digit_at L F 9
  have c1 : w / 2 ^ 0 % 2 ^ 1 = 0 := digit_at L F 0
  have e2 : fld w 26 4 = o.fmt := fld_of (digit_at L F 8)
  have e3 : fld w 24 2 = o.rnd := fld_of (digit_at L F 7)
  have e4 : fld w 18 6 = o.d := fld_of (digit_at L F 6)
  have e5 : fld w 12 6 = o.a := fld_of (digit_at L F 5)
  have e6 : bitAt w 11 = o.wa := bit_of (digit_at L F 4)
  have e7 : fld w 5 6 = o.b := fld_of (digit_at L F 3)
  have e8 : bitAt w 4 = o.wb := bit_of (digit_at L F 2)
  have e9 : fld w 1 3 = o.m := fld_of (digit_at L F 1)
  simp only [decodeClass, decV, rdVscale, keep, c0, c1, e2, e3, e4, e5, e6, e7, e8, e9, h]
  rfl
theorem RoundTrip.vpack (o : VaF) : RoundTrip.Statement (.vpack o) := by
  intro h
  have L : encVpack o = pack [(1, 0), (3, o.m.toNat), (1, o.wb.toNat), (6, o.b.toNat), (1, o.wa.toNat), (6, o.a.toNat), (6, o.d.toNat), (2, o.rnd.toNat), (4, o.fmt.toNat), (6, 39)] := by
    simp only [encVpack, put, putB, pack]; omega
  have F : Fits [(1, 0), (3, o.m.toNat), (1, o.wb.toNat), (6, o.b.toNat), (1, o.wa.toNat), (6, o.a.toNat), (6, o.d.toNat), (2, o.rnd.toNat), (4, o.fmt.toNat), (6, 39)] := ⟨by decide, o.m.isLt, bool_fits o.wb, o.b.isLt, bool_fits o.wa, o.a.isLt, o.d.isLt, o.rnd.isLt, o.fmt.isLt, by decide, trivial⟩
  show decodeClass .v (encVpack o) = some (.vpack o)
  generalize encVpack o = w at L ⊢
  have c0 : w / 2 ^ 30 % 2 ^ 6 = 39 := digit_at L F 9
  have c1 : w / 2 ^ 0 % 2 ^ 1 = 0 := digit_at L F 0
  have e2 : fld w 26 4 = o.fmt := fld_of (digit_at L F 8)
  have e3 : fld w 24 2 = o.rnd := fld_of (digit_at L F 7)
  have e4 : fld w 18 6 = o.d := fld_of (digit_at L F 6)
  have e5 : fld w 12 6 = o.a := fld_of (digit_at L F 5)
  have e6 : bitAt w 11 = o.wa := bit_of (digit_at L F 4)
  have e7 : fld w 5 6 = o.b := fld_of (digit_at L F 3)
  have e8 : bitAt w 4 = o.wb := bit_of (digit_at L F 2)
  have e9 : fld w 1 3 = o.m := fld_of (digit_at L F 1)
  simp only [decodeClass, decV, rdVpack, keep, c0, c1, e2, e3, e4, e5, e6, e7, e8, e9, h]
  rfl
theorem RoundTrip.vunpack (o : VaOneF) : RoundTrip.Statement (.vunpack o) := by
  intro h
  have L : encVunpack o = pack [(1, 0), (3, o.m.toNat), (7, 0), (1, o.wa.toNat), (6, o.a.toNat), (6, o.d.toNat), (2, o.rnd.toNat), (4, o.fmt.toNat), (6, 40)] := by
    simp only [encVunpack, put, putB, pack]; omega
  have F : Fits [(1, 0), (3, o.m.toNat), (7, 0), (1, o.wa.toNat), (6, o.a.toNat), (6, o.d.toNat), (2, o.rnd.toNat), (4, o.fmt.toNat), (6, 40)] := ⟨by decide, o.m.isLt, by decide, bool_fits o.wa, o.a.isLt, o.d.isLt, o.rnd.isLt, o.fmt.isLt, by decide, trivial⟩
  show decodeClass .v (encVunpack o) = some (.vunpack o)
  generalize encVunpack o = w at L ⊢
  have c0 : w / 2 ^ 30 % 2 ^ 6 = 40 := digit_at L F 8
  have c1 : w / 2 ^ 4 % 2 ^ 7 = 0 := digit_at L F 2
  have c2 : w / 2 ^ 0 % 2 ^ 1 = 0 := digit_at L F 0
  have e3 : fld w 26 4 = o.fmt := fld_of (digit_at L F 7)
  have e4 : fld w 24 2 = o.rnd := fld_of (digit_at L F 6)
  have e5 : fld w 18 6 = o.d := fld_of (digit_at L F 5)
  have e6 : fld w 12 6 = o.a := fld_of (digit_at L F 4)
  have e7 : bitAt w 11 = o.wa := bit_of (digit_at L F 3)
  have e8 : fld w 1 3 = o.m := fld_of (digit_at L F 1)
  simp only [decodeClass, decV, rdVunpack, keep, c0, c1, c2, e3, e4, e5, e6, e7, e8, h]
  rfl
theorem RoundTrip.vtag (o : VaOneF) : RoundTrip.Statement (.vtag o) := by
  intro h
  have L : encVtag o = pack [(1, 0), (3, o.m.toNat), (7, 0), (1, o.wa.toNat), (6, o.a.toNat), (6, o.d.toNat), (2, o.rnd.toNat), (4, o.fmt.toNat), (6, 41)] := by
    simp only [encVtag, put, putB, pack]; omega
  have F : Fits [(1, 0), (3, o.m.toNat), (7, 0), (1, o.wa.toNat), (6, o.a.toNat), (6, o.d.toNat), (2, o.rnd.toNat), (4, o.fmt.toNat), (6, 41)] := ⟨by decide, o.m.isLt, by decide, bool_fits o.wa, o.a.isLt, o.d.isLt, o.rnd.isLt, o.fmt.isLt, by decide, trivial⟩
  show decodeClass .v (encVtag o) = some (.vtag o)
  generalize encVtag o = w at L ⊢
  have c0 : w / 2 ^ 30 % 2 ^ 6 = 41 := digit_at L F 8
  have c1 : w / 2 ^ 4 % 2 ^ 7 = 0 := digit_at L F 2
  have c2 : w / 2 ^ 0 % 2 ^ 1 = 0 := digit_at L F 0
  have e3 : fld w 26 4 = o.fmt := fld_of (digit_at L F 7)
  have e4 : fld w 24 2 = o.rnd := fld_of (digit_at L F 6)
  have e5 : fld w 18 6 = o.d := fld_of (digit_at L F 5)
  have e6 : fld w 12 6 = o.a := fld_of (digit_at L F 4)
  have e7 : bitAt w 11 = o.wa := bit_of (digit_at L F 3)
  have e8 : fld w 1 3 = o.m := fld_of (digit_at L F 1)
  simp only [decodeClass, decV, rdVtag, keep, c0, c1, c2, e3, e4, e5, e6, e7, e8, h]
  rfl
theorem RoundTrip.vred (o : VredF) : RoundTrip.Statement (.vred o) := by
  intro h
  have L : encVred o = pack [(1, 0), (3, o.m.toNat), (4, 0), (3, o.op.toNat), (1, o.wa.toNat), (6, o.a.toNat), (6, o.d.toNat), (2, o.rnd.toNat), (4, o.fmt.toNat), (6, 42)] := by
    simp only [encVred, put, putB, pack]; omega
  have F : Fits [(1, 0), (3, o.m.toNat), (4, 0), (3, o.op.toNat), (1, o.wa.toNat), (6, o.a.toNat), (6, o.d.toNat), (2, o.rnd.toNat), (4, o.fmt.toNat), (6, 42)] := ⟨by decide, o.m.isLt, by decide, o.op.isLt, bool_fits o.wa, o.a.isLt, o.d.isLt, o.rnd.isLt, o.fmt.isLt, by decide, trivial⟩
  show decodeClass .v (encVred o) = some (.vred o)
  generalize encVred o = w at L ⊢
  have c0 : w / 2 ^ 30 % 2 ^ 6 = 42 := digit_at L F 9
  have c1 : w / 2 ^ 4 % 2 ^ 4 = 0 := digit_at L F 2
  have c2 : w / 2 ^ 0 % 2 ^ 1 = 0 := digit_at L F 0
  have e3 : fld w 26 4 = o.fmt := fld_of (digit_at L F 8)
  have e4 : fld w 24 2 = o.rnd := fld_of (digit_at L F 7)
  have e5 : fld w 18 6 = o.d := fld_of (digit_at L F 6)
  have e6 : fld w 12 6 = o.a := fld_of (digit_at L F 5)
  have e7 : bitAt w 11 = o.wa := bit_of (digit_at L F 4)
  have e8 : fld w 8 3 = o.op := fld_of (digit_at L F 3)
  have e9 : fld w 1 3 = o.m := fld_of (digit_at L F 1)
  simp only [decodeClass, decV, rdVred, keep, c0, c1, c2, e3, e4, e5, e6, e7, e8, e9, h]
  rfl
theorem RoundTrip.vscan (o : VredF) : RoundTrip.Statement (.vscan o) := by
  intro h
  have L : encVscan o = pack [(1, 0), (3, o.m.toNat), (4, 0), (3, o.op.toNat), (1, o.wa.toNat), (6, o.a.toNat), (6, o.d.toNat), (2, o.rnd.toNat), (4, o.fmt.toNat), (6, 43)] := by
    simp only [encVscan, put, putB, pack]; omega
  have F : Fits [(1, 0), (3, o.m.toNat), (4, 0), (3, o.op.toNat), (1, o.wa.toNat), (6, o.a.toNat), (6, o.d.toNat), (2, o.rnd.toNat), (4, o.fmt.toNat), (6, 43)] := ⟨by decide, o.m.isLt, by decide, o.op.isLt, bool_fits o.wa, o.a.isLt, o.d.isLt, o.rnd.isLt, o.fmt.isLt, by decide, trivial⟩
  show decodeClass .v (encVscan o) = some (.vscan o)
  generalize encVscan o = w at L ⊢
  have c0 : w / 2 ^ 30 % 2 ^ 6 = 43 := digit_at L F 9
  have c1 : w / 2 ^ 4 % 2 ^ 4 = 0 := digit_at L F 2
  have c2 : w / 2 ^ 0 % 2 ^ 1 = 0 := digit_at L F 0
  have e3 : fld w 26 4 = o.fmt := fld_of (digit_at L F 8)
  have e4 : fld w 24 2 = o.rnd := fld_of (digit_at L F 7)
  have e5 : fld w 18 6 = o.d := fld_of (digit_at L F 6)
  have e6 : fld w 12 6 = o.a := fld_of (digit_at L F 5)
  have e7 : bitAt w 11 = o.wa := bit_of (digit_at L F 4)
  have e8 : fld w 8 3 = o.op := fld_of (digit_at L F 3)
  have e9 : fld w 1 3 = o.m := fld_of (digit_at L F 1)
  simp only [decodeClass, decV, rdVscan, keep, c0, c1, c2, e3, e4, e5, e6, e7, e8, e9, h]
  rfl
theorem RoundTrip.vsplat (o : VaOneF) : RoundTrip.Statement (.vsplat o) := by
  intro h
  have L : encVsplat o = pack [(1, 0), (3, o.m.toNat), (7, 0), (1, o.wa.toNat), (6, o.a.toNat), (6, o.d.toNat), (2, o.rnd.toNat), (4, o.fmt.toNat), (6, 44)] := by
    simp only [encVsplat, put, putB, pack]; omega
  have F : Fits [(1, 0), (3, o.m.toNat), (7, 0), (1, o.wa.toNat), (6, o.a.toNat), (6, o.d.toNat), (2, o.rnd.toNat), (4, o.fmt.toNat), (6, 44)] := ⟨by decide, o.m.isLt, by decide, bool_fits o.wa, o.a.isLt, o.d.isLt, o.rnd.isLt, o.fmt.isLt, by decide, trivial⟩
  show decodeClass .v (encVsplat o) = some (.vsplat o)
  generalize encVsplat o = w at L ⊢
  have c0 : w / 2 ^ 30 % 2 ^ 6 = 44 := digit_at L F 8
  have c1 : w / 2 ^ 4 % 2 ^ 7 = 0 := digit_at L F 2
  have c2 : w / 2 ^ 0 % 2 ^ 1 = 0 := digit_at L F 0
  have e3 : fld w 26 4 = o.fmt := fld_of (digit_at L F 7)
  have e4 : fld w 24 2 = o.rnd := fld_of (digit_at L F 6)
  have e5 : fld w 18 6 = o.d := fld_of (digit_at L F 5)
  have e6 : fld w 12 6 = o.a := fld_of (digit_at L F 4)
  have e7 : bitAt w 11 = o.wa := bit_of (digit_at L F 3)
  have e8 : fld w 1 3 = o.m := fld_of (digit_at L F 1)
  simp only [decodeClass, decV, rdVsplat, keep, c0, c1, c2, e3, e4, e5, e6, e7, e8, h]
  rfl
theorem RoundTrip.vmovs (o : VmovsF) : RoundTrip.Statement (.vmovs o) := by
  intro h
  have L : encVmovs o = pack [(1, 0), (3, o.m.toNat), (1, 0), (6, o.lane.toNat), (1, o.wa.toNat), (6, o.a.toNat), (6, o.d.toNat), (6, 0), (6, 45)] := by
    simp only [encVmovs, put, putB, pack]; omega
  have F : Fits [(1, 0), (3, o.m.toNat), (1, 0), (6, o.lane.toNat), (1, o.wa.toNat), (6, o.a.toNat), (6, o.d.toNat), (6, 0), (6, 45)] := ⟨by decide, o.m.isLt, by decide, o.lane.isLt, bool_fits o.wa, o.a.isLt, o.d.isLt, by decide, by decide, trivial⟩
  show decodeClass .v (encVmovs o) = some (.vmovs o)
  generalize encVmovs o = w at L ⊢
  have c0 : w / 2 ^ 30 % 2 ^ 6 = 45 := digit_at L F 8
  have c1 : w / 2 ^ 24 % 2 ^ 6 = 0 := digit_at L F 7
  have c2 : w / 2 ^ 4 % 2 ^ 1 = 0 := digit_at L F 2
  have c3 : w / 2 ^ 0 % 2 ^ 1 = 0 := digit_at L F 0
  have e4 : fld w 18 6 = o.d := fld_of (digit_at L F 6)
  have e5 : fld w 12 6 = o.a := fld_of (digit_at L F 5)
  have e6 : bitAt w 11 = o.wa := bit_of (digit_at L F 4)
  have e7 : fld w 5 6 = o.lane := fld_of (digit_at L F 3)
  have e8 : fld w 1 3 = o.m := fld_of (digit_at L F 1)
  simp only [decodeClass, decV, rdVmovs, keep, c0, c1, c2, c3, e4, e5, e6, e7, e8, h]
  rfl
theorem RoundTrip.vsel (o : VaF) : RoundTrip.Statement (.vsel o) := by
  intro h
  have L : encVsel o = pack [(1, 0), (3, o.m.toNat), (1, o.wb.toNat), (6, o.b.toNat), (1, o.wa.toNat), (6, o.a.toNat), (6, o.d.toNat), (2, o.rnd.toNat), (4, o.fmt.toNat), (6, 46)] := by
    simp only [encVsel, put, putB, pack]; omega
  have F : Fits [(1, 0), (3, o.m.toNat), (1, o.wb.toNat), (6, o.b.toNat), (1, o.wa.toNat), (6, o.a.toNat), (6, o.d.toNat), (2, o.rnd.toNat), (4, o.fmt.toNat), (6, 46)] := ⟨by decide, o.m.isLt, bool_fits o.wb, o.b.isLt, bool_fits o.wa, o.a.isLt, o.d.isLt, o.rnd.isLt, o.fmt.isLt, by decide, trivial⟩
  show decodeClass .v (encVsel o) = some (.vsel o)
  generalize encVsel o = w at L ⊢
  have c0 : w / 2 ^ 30 % 2 ^ 6 = 46 := digit_at L F 9
  have c1 : w / 2 ^ 0 % 2 ^ 1 = 0 := digit_at L F 0
  have e2 : fld w 26 4 = o.fmt := fld_of (digit_at L F 8)
  have e3 : fld w 24 2 = o.rnd := fld_of (digit_at L F 7)
  have e4 : fld w 18 6 = o.d := fld_of (digit_at L F 6)
  have e5 : fld w 12 6 = o.a := fld_of (digit_at L F 5)
  have e6 : bitAt w 11 = o.wa := bit_of (digit_at L F 4)
  have e7 : fld w 5 6 = o.b := fld_of (digit_at L F 3)
  have e8 : bitAt w 4 = o.wb := bit_of (digit_at L F 2)
  have e9 : fld w 1 3 = o.m := fld_of (digit_at L F 1)
  simp only [decodeClass, decV, rdVsel, keep, c0, c1, e2, e3, e4, e5, e6, e7, e8, e9, h]
  rfl
theorem RoundTrip.vlane (o : VaF) : RoundTrip.Statement (.vlane o) := by
  intro h
  have L : encVlane o = pack [(1, 0), (3, o.m.toNat), (1, o.wb.toNat), (6, o.b.toNat), (1, o.wa.toNat), (6, o.a.toNat), (6, o.d.toNat), (2, o.rnd.toNat), (4, o.fmt.toNat), (6, 47)] := by
    simp only [encVlane, put, putB, pack]; omega
  have F : Fits [(1, 0), (3, o.m.toNat), (1, o.wb.toNat), (6, o.b.toNat), (1, o.wa.toNat), (6, o.a.toNat), (6, o.d.toNat), (2, o.rnd.toNat), (4, o.fmt.toNat), (6, 47)] := ⟨by decide, o.m.isLt, bool_fits o.wb, o.b.isLt, bool_fits o.wa, o.a.isLt, o.d.isLt, o.rnd.isLt, o.fmt.isLt, by decide, trivial⟩
  show decodeClass .v (encVlane o) = some (.vlane o)
  generalize encVlane o = w at L ⊢
  have c0 : w / 2 ^ 30 % 2 ^ 6 = 47 := digit_at L F 9
  have c1 : w / 2 ^ 0 % 2 ^ 1 = 0 := digit_at L F 0
  have e2 : fld w 26 4 = o.fmt := fld_of (digit_at L F 8)
  have e3 : fld w 24 2 = o.rnd := fld_of (digit_at L F 7)
  have e4 : fld w 18 6 = o.d := fld_of (digit_at L F 6)
  have e5 : fld w 12 6 = o.a := fld_of (digit_at L F 5)
  have e6 : bitAt w 11 = o.wa := bit_of (digit_at L F 4)
  have e7 : fld w 5 6 = o.b := fld_of (digit_at L F 3)
  have e8 : bitAt w 4 = o.wb := bit_of (digit_at L F 2)
  have e9 : fld w 1 3 = o.m := fld_of (digit_at L F 1)
  simp only [decodeClass, decV, rdVlane, keep, c0, c1, e2, e3, e4, e5, e6, e7, e8, e9, h]
  rfl
theorem RoundTrip.vchkf (o : VchkfF) : RoundTrip.Statement (.vchkf o) := by
  intro h
  have L : encVchkf o = pack [(1, 0), (3, o.m.toNat), (7, 0), (1, o.wa.toNat), (6, o.a.toNat), (8, 0), (4, o.fmt.toNat), (6, 48)] := by
    simp only [encVchkf, put, putB, pack]; omega
  have F : Fits [(1, 0), (3, o.m.toNat), (7, 0), (1, o.wa.toNat), (6, o.a.toNat), (8, 0), (4, o.fmt.toNat), (6, 48)] := ⟨by decide, o.m.isLt, by decide, bool_fits o.wa, o.a.isLt, by decide, o.fmt.isLt, by decide, trivial⟩
  show decodeClass .v (encVchkf o) = some (.vchkf o)
  generalize encVchkf o = w at L ⊢
  have c0 : w / 2 ^ 30 % 2 ^ 6 = 48 := digit_at L F 7
  have c1 : w / 2 ^ 18 % 2 ^ 8 = 0 := digit_at L F 5
  have c2 : w / 2 ^ 4 % 2 ^ 7 = 0 := digit_at L F 2
  have c3 : w / 2 ^ 0 % 2 ^ 1 = 0 := digit_at L F 0
  have e4 : fld w 26 4 = o.fmt := fld_of (digit_at L F 6)
  have e5 : fld w 12 6 = o.a := fld_of (digit_at L F 4)
  have e6 : bitAt w 11 = o.wa := bit_of (digit_at L F 3)
  have e7 : fld w 1 3 = o.m := fld_of (digit_at L F 1)
  simp only [decodeClass, decV, rdVchkf, keep, c0, c1, c2, c3, e4, e5, e6, e7, h]
  rfl
theorem RoundTrip.lsupd : RoundTrip.Statement (.lsupd) := by
  intro h
  have L : encLsupd = pack [(30, 0), (6, 49)] := by decide
  have F : Fits [(30, 0), (6, 49)] := ⟨by decide, by decide, trivial⟩
  show decodeClass .v (encLsupd) = some (.lsupd)
  generalize encLsupd = w at L ⊢
  have c0 : w / 2 ^ 30 % 2 ^ 6 = 49 := digit_at L F 1
  have c1 : w / 2 ^ 0 % 2 ^ 30 = 0 := digit_at L F 0
  simp only [decodeClass, decV, rdLsupd, keep, c0, c1, h]
  rfl
theorem RoundTrip.xperm (o : XpermF) : RoundTrip.Statement (.xperm o) := by
  intro h
  have L : encXperm o = pack [(1, 0), (1, o.wp.toNat), (6, o.p.toNat), (1, o.wa.toNat), (6, o.a.toNat), (6, o.d.toNat), (3, 1)] := by
    simp only [encXperm, put, putB, pack]; omega
  have F : Fits [(1, 0), (1, o.wp.toNat), (6, o.p.toNat), (1, o.wa.toNat), (6, o.a.toNat), (6, o.d.toNat), (3, 1)] := ⟨by decide, bool_fits o.wp, o.p.isLt, bool_fits o.wa, o.a.isLt, o.d.isLt, by decide, trivial⟩
  show decodeClass .x (encXperm o) = some (.xperm o)
  generalize encXperm o = w at L ⊢
  have c0 : w / 2 ^ 21 % 2 ^ 3 = 1 := digit_at L F 6
  have c1 : w / 2 ^ 0 % 2 ^ 1 = 0 := digit_at L F 0
  have e2 : fld w 15 6 = o.d := fld_of (digit_at L F 5)
  have e3 : fld w 9 6 = o.a := fld_of (digit_at L F 4)
  have e4 : bitAt w 8 = o.wa := bit_of (digit_at L F 3)
  have e5 : fld w 2 6 = o.p := fld_of (digit_at L F 2)
  have e6 : bitAt w 1 = o.wp := bit_of (digit_at L F 1)
  simp only [decodeClass, decX, rdXperm, keep, c0, c1, e2, e3, e4, e5, e6, h]
  rfl
theorem RoundTrip.xrot (o : XkF) : RoundTrip.Statement (.xrot o) := by
  intro h
  have L : encXrot o = pack [(2, 0), (6, o.k.toNat), (1, o.wa.toNat), (6, o.a.toNat), (6, o.d.toNat), (3, 2)] := by
    simp only [encXrot, put, putB, pack]; omega
  have F : Fits [(2, 0), (6, o.k.toNat), (1, o.wa.toNat), (6, o.a.toNat), (6, o.d.toNat), (3, 2)] := ⟨by decide, o.k.isLt, bool_fits o.wa, o.a.isLt, o.d.isLt, by decide, trivial⟩
  show decodeClass .x (encXrot o) = some (.xrot o)
  generalize encXrot o = w at L ⊢
  have c0 : w / 2 ^ 21 % 2 ^ 3 = 2 := digit_at L F 5
  have c1 : w / 2 ^ 0 % 2 ^ 2 = 0 := digit_at L F 0
  have e2 : fld w 15 6 = o.d := fld_of (digit_at L F 4)
  have e3 : fld w 9 6 = o.a := fld_of (digit_at L F 3)
  have e4 : bitAt w 8 = o.wa := bit_of (digit_at L F 2)
  have e5 : fld w 2 6 = o.k := fld_of (digit_at L F 1)
  simp only [decodeClass, decX, rdXrot, keep, c0, c1, e2, e3, e4, e5, h]
  rfl
theorem RoundTrip.xbcast (o : XkF) : RoundTrip.Statement (.xbcast o) := by
  intro h
  have L : encXbcast o = pack [(2, 0), (6, o.k.toNat), (1, o.wa.toNat), (6, o.a.toNat), (6, o.d.toNat), (3, 3)] := by
    simp only [encXbcast, put, putB, pack]; omega
  have F : Fits [(2, 0), (6, o.k.toNat), (1, o.wa.toNat), (6, o.a.toNat), (6, o.d.toNat), (3, 3)] := ⟨by decide, o.k.isLt, bool_fits o.wa, o.a.isLt, o.d.isLt, by decide, trivial⟩
  show decodeClass .x (encXbcast o) = some (.xbcast o)
  generalize encXbcast o = w at L ⊢
  have c0 : w / 2 ^ 21 % 2 ^ 3 = 3 := digit_at L F 5
  have c1 : w / 2 ^ 0 % 2 ^ 2 = 0 := digit_at L F 0
  have e2 : fld w 15 6 = o.d := fld_of (digit_at L F 4)
  have e3 : fld w 9 6 = o.a := fld_of (digit_at L F 3)
  have e4 : bitAt w 8 = o.wa := bit_of (digit_at L F 2)
  have e5 : fld w 2 6 = o.k := fld_of (digit_at L F 1)
  simp only [decodeClass, decX, rdXbcast, keep, c0, c1, e2, e3, e4, e5, h]
  rfl
theorem RoundTrip.xshuf (o : XshufF) : RoundTrip.Statement (.xshuf o) := by
  intro h
  have L : encXshuf o = pack [(4, 0), (4, o.c.toNat), (1, o.wa.toNat), (6, o.a.toNat), (6, o.d.toNat), (3, 4)] := by
    simp only [encXshuf, put, putB, pack]; omega
  have F : Fits [(4, 0), (4, o.c.toNat), (1, o.wa.toNat), (6, o.a.toNat), (6, o.d.toNat), (3, 4)] := ⟨by decide, o.c.isLt, bool_fits o.wa, o.a.isLt, o.d.isLt, by decide, trivial⟩
  show decodeClass .x (encXshuf o) = some (.xshuf o)
  generalize encXshuf o = w at L ⊢
  have c0 : w / 2 ^ 21 % 2 ^ 3 = 4 := digit_at L F 5
  have c1 : w / 2 ^ 0 % 2 ^ 4 = 0 := digit_at L F 0
  have e2 : fld w 15 6 = o.d := fld_of (digit_at L F 4)
  have e3 : fld w 9 6 = o.a := fld_of (digit_at L F 3)
  have e4 : bitAt w 8 = o.wa := bit_of (digit_at L F 2)
  have e5 : fld w 4 4 = o.c := fld_of (digit_at L F 1)
  simp only [decodeClass, decX, rdXshuf, keep, c0, c1, e2, e3, e4, e5, h]
  rfl
theorem RoundTrip.xrev (o : XgF) : RoundTrip.Statement (.xrev o) := by
  intro h
  have L : encXrev o = pack [(5, 0), (3, o.g.toNat), (1, o.wa.toNat), (6, o.a.toNat), (6, o.d.toNat), (3, 5)] := by
    simp only [encXrev, put, putB, pack]; omega
  have F : Fits [(5, 0), (3, o.g.toNat), (1, o.wa.toNat), (6, o.a.toNat), (6, o.d.toNat), (3, 5)] := ⟨by decide, o.g.isLt, bool_fits o.wa, o.a.isLt, o.d.isLt, by decide, trivial⟩
  show decodeClass .x (encXrev o) = some (.xrev o)
  generalize encXrev o = w at L ⊢
  have c0 : w / 2 ^ 21 % 2 ^ 3 = 5 := digit_at L F 5
  have c1 : w / 2 ^ 0 % 2 ^ 5 = 0 := digit_at L F 0
  have e2 : fld w 15 6 = o.d := fld_of (digit_at L F 4)
  have e3 : fld w 9 6 = o.a := fld_of (digit_at L F 3)
  have e4 : bitAt w 8 = o.wa := bit_of (digit_at L F 2)
  have e5 : fld w 5 3 = o.g := fld_of (digit_at L F 1)
  simp only [decodeClass, decX, rdXrev, keep, c0, c1, e2, e3, e4, e5, h]
  rfl
theorem RoundTrip.xcmpr (o : XgF) : RoundTrip.Statement (.xcmpr o) := by
  intro h
  have L : encXcmpr o = pack [(5, 0), (3, o.g.toNat), (1, o.wa.toNat), (6, o.a.toNat), (6, o.d.toNat), (3, 6)] := by
    simp only [encXcmpr, put, putB, pack]; omega
  have F : Fits [(5, 0), (3, o.g.toNat), (1, o.wa.toNat), (6, o.a.toNat), (6, o.d.toNat), (3, 6)] := ⟨by decide, o.g.isLt, bool_fits o.wa, o.a.isLt, o.d.isLt, by decide, trivial⟩
  show decodeClass .x (encXcmpr o) = some (.xcmpr o)
  generalize encXcmpr o = w at L ⊢
  have c0 : w / 2 ^ 21 % 2 ^ 3 = 6 := digit_at L F 5
  have c1 : w / 2 ^ 0 % 2 ^ 5 = 0 := digit_at L F 0
  have e2 : fld w 15 6 = o.d := fld_of (digit_at L F 4)
  have e3 : fld w 9 6 = o.a := fld_of (digit_at L F 3)
  have e4 : bitAt w 8 = o.wa := bit_of (digit_at L F 2)
  have e5 : fld w 5 3 = o.g := fld_of (digit_at L F 1)
  simp only [decodeClass, decX, rdXcmpr, keep, c0, c1, e2, e3, e4, e5, h]
  rfl
theorem RoundTrip.wld (o : WldF) : RoundTrip.Statement (.wld o) := by
  intro h
  have L : encWld o = pack [(7, 0), (4, o.fmt.toNat), (1, o.wa.toNat), (6, o.a.toNat), (10, o.imm.toNat), (4, 1)] := by
    simp only [encWld, put, putB, pack]; omega
  have F : Fits [(7, 0), (4, o.fmt.toNat), (1, o.wa.toNat), (6, o.a.toNat), (10, o.imm.toNat), (4, 1)] := ⟨by decide, o.fmt.isLt, bool_fits o.wa, o.a.isLt, o.imm.isLt, by decide, trivial⟩
  show decodeClass .t (encWld o) = some (.wld o)
  generalize encWld o = w at L ⊢
  have c0 : w / 2 ^ 28 % 2 ^ 4 = 1 := digit_at L F 5
  have c1 : w / 2 ^ 0 % 2 ^ 7 = 0 := digit_at L F 0
  have e2 : fld w 18 10 = o.imm := fld_of (digit_at L F 4)
  have e3 : fld w 12 6 = o.a := fld_of (digit_at L F 3)
  have e4 : bitAt w 11 = o.wa := bit_of (digit_at L F 2)
  have e5 : fld w 7 4 = o.fmt := fld_of (digit_at L F 1)
  simp only [decodeClass, decT, rdWld, keep, c0, c1, e2, e3, e4, e5, h]
  rfl
theorem RoundTrip.beat (o : BeatF) : RoundTrip.Statement (.beat o) := by
  intro h
  have L : encBeat o = pack [(9, 0), (4, o.sq.toNat), (1, o.sc.toNat), (1, o.zero.toNat), (1, o.int.toNat), (4, o.fmt.toNat), (4, o.q.toNat), (2, o.cell.toNat), (2, o.z.toNat), (4, 2)] := by
    simp only [encBeat, put, putB, pack]; omega
  have F : Fits [(9, 0), (4, o.sq.toNat), (1, o.sc.toNat), (1, o.zero.toNat), (1, o.int.toNat), (4, o.fmt.toNat), (4, o.q.toNat), (2, o.cell.toNat), (2, o.z.toNat), (4, 2)] := ⟨by decide, o.sq.isLt, bool_fits o.sc, bool_fits o.zero, bool_fits o.int, o.fmt.isLt, o.q.isLt, o.cell.isLt, o.z.isLt, by decide, trivial⟩
  show decodeClass .t (encBeat o) = some (.beat o)
  generalize encBeat o = w at L ⊢
  have c0 : w / 2 ^ 28 % 2 ^ 4 = 2 := digit_at L F 9
  have c1 : w / 2 ^ 0 % 2 ^ 9 = 0 := digit_at L F 0
  have e2 : fld w 26 2 = o.z := fld_of (digit_at L F 8)
  have e3 : fld w 24 2 = o.cell := fld_of (digit_at L F 7)
  have e4 : fld w 20 4 = o.q := fld_of (digit_at L F 6)
  have e5 : fld w 16 4 = o.fmt := fld_of (digit_at L F 5)
  have e6 : bitAt w 15 = o.int := bit_of (digit_at L F 4)
  have e7 : bitAt w 14 = o.zero := bit_of (digit_at L F 3)
  have e8 : bitAt w 13 = o.sc := bit_of (digit_at L F 2)
  have e9 : fld w 9 4 = o.sq := fld_of (digit_at L F 1)
  simp only [decodeClass, decT, rdBeat, keep, c0, c1, e2, e3, e4, e5, e6, e7, e8, e9, h]
  rfl
theorem RoundTrip.drain (o : DrainF) : RoundTrip.Statement (.drain o) := by
  intro h
  have L : encDrain o = pack [(10, 0), (4, o.fmt.toNat), (6, o.row.toNat), (6, o.d.toNat), (2, o.z.toNat), (4, 3)] := by
    simp only [encDrain, put, pack]; omega
  have F : Fits [(10, 0), (4, o.fmt.toNat), (6, o.row.toNat), (6, o.d.toNat), (2, o.z.toNat), (4, 3)] := ⟨by decide, o.fmt.isLt, o.row.isLt, o.d.isLt, o.z.isLt, by decide, trivial⟩
  show decodeClass .t (encDrain o) = some (.drain o)
  generalize encDrain o = w at L ⊢
  have c0 : w / 2 ^ 28 % 2 ^ 4 = 3 := digit_at L F 5
  have c1 : w / 2 ^ 0 % 2 ^ 10 = 0 := digit_at L F 0
  have e2 : fld w 26 2 = o.z := fld_of (digit_at L F 4)
  have e3 : fld w 20 6 = o.d := fld_of (digit_at L F 3)
  have e4 : fld w 14 6 = o.row := fld_of (digit_at L F 2)
  have e5 : fld w 10 4 = o.fmt := fld_of (digit_at L F 1)
  simp only [decodeClass, decT, rdDrain, keep, c0, c1, e2, e3, e4, e5, h]
  rfl
theorem RoundTrip.zclr (o : ZF) : RoundTrip.Statement (.zclr o) := by
  intro h
  have L : encZclr o = pack [(26, 0), (2, o.z.toNat), (4, 4)] := by
    simp only [encZclr, put, pack]; omega
  have F : Fits [(26, 0), (2, o.z.toNat), (4, 4)] := ⟨by decide, o.z.isLt, by decide, trivial⟩
  show decodeClass .t (encZclr o) = some (.zclr o)
  generalize encZclr o = w at L ⊢
  have c0 : w / 2 ^ 28 % 2 ^ 4 = 4 := digit_at L F 2
  have c1 : w / 2 ^ 0 % 2 ^ 26 = 0 := digit_at L F 0
  have e2 : fld w 26 2 = o.z := fld_of (digit_at L F 1)
  simp only [decodeClass, decT, rdZclr, keep, c0, c1, e2, h]
  rfl
theorem RoundTrip.zrot (o : ZrotF) : RoundTrip.Statement (.zrot o) := by
  intro h
  have L : encZrot o = pack [(20, 0), (6, o.k.toNat), (2, o.z.toNat), (4, 5)] := by
    simp only [encZrot, put, pack]; omega
  have F : Fits [(20, 0), (6, o.k.toNat), (2, o.z.toNat), (4, 5)] := ⟨by decide, o.k.isLt, o.z.isLt, by decide, trivial⟩
  show decodeClass .t (encZrot o) = some (.zrot o)
  generalize encZrot o = w at L ⊢
  have c0 : w / 2 ^ 28 % 2 ^ 4 = 5 := digit_at L F 3
  have c1 : w / 2 ^ 0 % 2 ^ 20 = 0 := digit_at L F 0
  have e2 : fld w 26 2 = o.z := fld_of (digit_at L F 2)
  have e3 : fld w 20 6 = o.k := fld_of (digit_at L F 1)
  simp only [decodeClass, decT, rdZrot, keep, c0, c1, e2, e3, h]
  rfl
theorem RoundTrip.zspill (o : ZqF) : RoundTrip.Statement (.zspill o) := by
  intro h
  have L : encZspill o = pack [(22, 0), (4, o.q.toNat), (2, o.z.toNat), (4, 6)] := by
    simp only [encZspill, put, pack]; omega
  have F : Fits [(22, 0), (4, o.q.toNat), (2, o.z.toNat), (4, 6)] := ⟨by decide, o.q.isLt, o.z.isLt, by decide, trivial⟩
  show decodeClass .t (encZspill o) = some (.zspill o)
  generalize encZspill o = w at L ⊢
  have c0 : w / 2 ^ 28 % 2 ^ 4 = 6 := digit_at L F 3
  have c1 : w / 2 ^ 0 % 2 ^ 22 = 0 := digit_at L F 0
  have e2 : fld w 26 2 = o.z := fld_of (digit_at L F 2)
  have e3 : fld w 22 4 = o.q := fld_of (digit_at L F 1)
  simp only [decodeClass, decT, rdZspill, keep, c0, c1, e2, e3, h]
  rfl
theorem RoundTrip.zfill (o : ZqF) : RoundTrip.Statement (.zfill o) := by
  intro h
  have L : encZfill o = pack [(22, 0), (4, o.q.toNat), (2, o.z.toNat), (4, 7)] := by
    simp only [encZfill, put, pack]; omega
  have F : Fits [(22, 0), (4, o.q.toNat), (2, o.z.toNat), (4, 7)] := ⟨by decide, o.q.isLt, o.z.isLt, by decide, trivial⟩
  show decodeClass .t (encZfill o) = some (.zfill o)
  generalize encZfill o = w at L ⊢
  have c0 : w / 2 ^ 28 % 2 ^ 4 = 7 := digit_at L F 3
  have c1 : w / 2 ^ 0 % 2 ^ 22 = 0 := digit_at L F 0
  have e2 : fld w 26 2 = o.z := fld_of (digit_at L F 2)
  have e3 : fld w 22 4 = o.q := fld_of (digit_at L F 1)
  simp only [decodeClass, decT, rdZfill, keep, c0, c1, e2, e3, h]
  rfl
theorem RoundTrip.cpy (o : CmdF) : RoundTrip.Statement (.cpy o) := by
  intro h
  have L : encCpy o = pack [(16, 0), (1, o.wa.toNat), (6, o.a.toNat), (4, o.j.toNat), (5, 1)] := by
    simp only [encCpy, put, putB, pack]; omega
  have F : Fits [(16, 0), (1, o.wa.toNat), (6, o.a.toNat), (4, o.j.toNat), (5, 1)] := ⟨by decide, bool_fits o.wa, o.a.isLt, o.j.isLt, by decide, trivial⟩
  show decodeClass .e (encCpy o) = some (.cpy o)
  generalize encCpy o = w at L ⊢
  have c0 : w / 2 ^ 27 % 2 ^ 5 = 1 := digit_at L F 4
  have c1 : w / 2 ^ 0 % 2 ^ 16 = 0 := digit_at L F 0
  have e2 : fld w 23 4 = o.j := fld_of (digit_at L F 3)
  have e3 : fld w 17 6 = o.a := fld_of (digit_at L F 2)
  have e4 : bitAt w 16 = o.wa := bit_of (digit_at L F 1)
  simp only [decodeClass, decE, rdCpy, keep, c0, c1, e2, e3, e4, h]
  rfl
theorem RoundTrip.cpyw (o : CmdF) : RoundTrip.Statement (.cpyw o) := by
  intro h
  have L : encCpyw o = pack [(16, 0), (1, o.wa.toNat), (6, o.a.toNat), (4, o.j.toNat), (5, 2)] := by
    simp only [encCpyw, put, putB, pack]; omega
  have F : Fits [(16, 0), (1, o.wa.toNat), (6, o.a.toNat), (4, o.j.toNat), (5, 2)] := ⟨by decide, bool_fits o.wa, o.a.isLt, o.j.isLt, by decide, trivial⟩
  show decodeClass .e (encCpyw o) = some (.cpyw o)
  generalize encCpyw o = w at L ⊢
  have c0 : w / 2 ^ 27 % 2 ^ 5 = 2 := digit_at L F 4
  have c1 : w / 2 ^ 0 % 2 ^ 16 = 0 := digit_at L F 0
  have e2 : fld w 23 4 = o.j := fld_of (digit_at L F 3)
  have e3 : fld w 17 6 = o.a := fld_of (digit_at L F 2)
  have e4 : bitAt w 16 = o.wa := bit_of (digit_at L F 1)
  simp only [decodeClass, decE, rdCpyw, keep, c0, c1, e2, e3, e4, h]
  rfl
theorem RoundTrip.tqpush (o : EaF) : RoundTrip.Statement (.tqpush o) := by
  intro h
  have L : encTqpush o = pack [(16, 0), (1, o.wa.toNat), (6, o.a.toNat), (4, 0), (5, 3)] := by
    simp only [encTqpush, put, putB, pack]; omega
  have F : Fits [(16, 0), (1, o.wa.toNat), (6, o.a.toNat), (4, 0), (5, 3)] := ⟨by decide, bool_fits o.wa, o.a.isLt, by decide, by decide, trivial⟩
  show decodeClass .e (encTqpush o) = some (.tqpush o)
  generalize encTqpush o = w at L ⊢
  have c0 : w / 2 ^ 27 % 2 ^ 5 = 3 := digit_at L F 4
  have c1 : w / 2 ^ 23 % 2 ^ 4 = 0 := digit_at L F 3
  have c2 : w / 2 ^ 0 % 2 ^ 16 = 0 := digit_at L F 0
  have e3 : fld w 17 6 = o.a := fld_of (digit_at L F 2)
  have e4 : bitAt w 16 = o.wa := bit_of (digit_at L F 1)
  simp only [decodeClass, decE, rdTqpush, keep, c0, c1, c2, e3, e4, h]
  rfl
theorem RoundTrip.tqpop (o : EaF) : RoundTrip.Statement (.tqpop o) := by
  intro h
  have L : encTqpop o = pack [(16, 0), (1, o.wa.toNat), (6, o.a.toNat), (4, 0), (5, 4)] := by
    simp only [encTqpop, put, putB, pack]; omega
  have F : Fits [(16, 0), (1, o.wa.toNat), (6, o.a.toNat), (4, 0), (5, 4)] := ⟨by decide, bool_fits o.wa, o.a.isLt, by decide, by decide, trivial⟩
  show decodeClass .e (encTqpop o) = some (.tqpop o)
  generalize encTqpop o = w at L ⊢
  have c0 : w / 2 ^ 27 % 2 ^ 5 = 4 := digit_at L F 4
  have c1 : w / 2 ^ 23 % 2 ^ 4 = 0 := digit_at L F 3
  have c2 : w / 2 ^ 0 % 2 ^ 16 = 0 := digit_at L F 0
  have e3 : fld w 17 6 = o.a := fld_of (digit_at L F 2)
  have e4 : bitAt w 16 = o.wa := bit_of (digit_at L F 1)
  simp only [decodeClass, decE, rdTqpop, keep, c0, c1, c2, e3, e4, h]
  rfl
theorem RoundTrip.rkgath (o : CmdF) : RoundTrip.Statement (.rkgath o) := by
  intro h
  have L : encRkgath o = pack [(16, 0), (1, o.wa.toNat), (6, o.a.toNat), (4, o.j.toNat), (5, 5)] := by
    simp only [encRkgath, put, putB, pack]; omega
  have F : Fits [(16, 0), (1, o.wa.toNat), (6, o.a.toNat), (4, o.j.toNat), (5, 5)] := ⟨by decide, bool_fits o.wa, o.a.isLt, o.j.isLt, by decide, trivial⟩
  show decodeClass .e (encRkgath o) = some (.rkgath o)
  generalize encRkgath o = w at L ⊢
  have c0 : w / 2 ^ 27 % 2 ^ 5 = 5 := digit_at L F 4
  have c1 : w / 2 ^ 0 % 2 ^ 16 = 0 := digit_at L F 0
  have e2 : fld w 23 4 = o.j := fld_of (digit_at L F 3)
  have e3 : fld w 17 6 = o.a := fld_of (digit_at L F 2)
  have e4 : bitAt w 16 = o.wa := bit_of (digit_at L F 1)
  simp only [decodeClass, decE, rdRkgath, keep, c0, c1, e2, e3, e4, h]
  rfl
theorem RoundTrip.rkseg (o : CmdF) : RoundTrip.Statement (.rkseg o) := by
  intro h
  have L : encRkseg o = pack [(16, 0), (1, o.wa.toNat), (6, o.a.toNat), (4, o.j.toNat), (5, 6)] := by
    simp only [encRkseg, put, putB, pack]; omega
  have F : Fits [(16, 0), (1, o.wa.toNat), (6, o.a.toNat), (4, o.j.toNat), (5, 6)] := ⟨by decide, bool_fits o.wa, o.a.isLt, o.j.isLt, by decide, trivial⟩
  show decodeClass .e (encRkseg o) = some (.rkseg o)
  generalize encRkseg o = w at L ⊢
  have c0 : w / 2 ^ 27 % 2 ^ 5 = 6 := digit_at L F 4
  have c1 : w / 2 ^ 0 % 2 ^ 16 = 0 := digit_at L F 0
  have e2 : fld w 23 4 = o.j := fld_of (digit_at L F 3)
  have e3 : fld w 17 6 = o.a := fld_of (digit_at L F 2)
  have e4 : bitAt w 16 = o.wa := bit_of (digit_at L F 1)
  simp only [decodeClass, decE, rdRkseg, keep, c0, c1, e2, e3, e4, h]
  rfl
theorem RoundTrip.rill (o : CmdF) : RoundTrip.Statement (.rill o) := by
  intro h
  have L : encRill o = pack [(16, 0), (1, o.wa.toNat), (6, o.a.toNat), (4, o.j.toNat), (5, 7)] := by
    simp only [encRill, put, putB, pack]; omega
  have F : Fits [(16, 0), (1, o.wa.toNat), (6, o.a.toNat), (4, o.j.toNat), (5, 7)] := ⟨by decide, bool_fits o.wa, o.a.isLt, o.j.isLt, by decide, trivial⟩
  show decodeClass .e (encRill o) = some (.rill o)
  generalize encRill o = w at L ⊢
  have c0 : w / 2 ^ 27 % 2 ^ 5 = 7 := digit_at L F 4
  have c1 : w / 2 ^ 0 % 2 ^ 16 = 0 := digit_at L F 0
  have e2 : fld w 23 4 = o.j := fld_of (digit_at L F 3)
  have e3 : fld w 17 6 = o.a := fld_of (digit_at L F 2)
  have e4 : bitAt w 16 = o.wa := bit_of (digit_at L F 1)
  simp only [decodeClass, decE, rdRill, keep, c0, c1, e2, e3, e4, h]
  rfl
theorem RoundTrip.cflAr (o : CmdF) : RoundTrip.Statement (.cflAr o) := by
  intro h
  have L : encCflAr o = pack [(16, 0), (1, o.wa.toNat), (6, o.a.toNat), (4, o.j.toNat), (5, 8)] := by
    simp only [encCflAr, put, putB, pack]; omega
  have F : Fits [(16, 0), (1, o.wa.toNat), (6, o.a.toNat), (4, o.j.toNat), (5, 8)] := ⟨by decide, bool_fits o.wa, o.a.isLt, o.j.isLt, by decide, trivial⟩
  show decodeClass .e (encCflAr o) = some (.cflAr o)
  generalize encCflAr o = w at L ⊢
  have c0 : w / 2 ^ 27 % 2 ^ 5 = 8 := digit_at L F 4
  have c1 : w / 2 ^ 0 % 2 ^ 16 = 0 := digit_at L F 0
  have e2 : fld w 23 4 = o.j := fld_of (digit_at L F 3)
  have e3 : fld w 17 6 = o.a := fld_of (digit_at L F 2)
  have e4 : bitAt w 16 = o.wa := bit_of (digit_at L F 1)
  simp only [decodeClass, decE, rdCflAr, keep, c0, c1, e2, e3, e4, h]
  rfl
theorem RoundTrip.cflRs (o : CmdF) : RoundTrip.Statement (.cflRs o) := by
  intro h
  have L : encCflRs o = pack [(16, 0), (1, o.wa.toNat), (6, o.a.toNat), (4, o.j.toNat), (5, 9)] := by
    simp only [encCflRs, put, putB, pack]; omega
  have F : Fits [(16, 0), (1, o.wa.toNat), (6, o.a.toNat), (4, o.j.toNat), (5, 9)] := ⟨by decide, bool_fits o.wa, o.a.isLt, o.j.isLt, by decide, trivial⟩
  show decodeClass .e (encCflRs o) = some (.cflRs o)
  generalize encCflRs o = w at L ⊢
  have c0 : w / 2 ^ 27 % 2 ^ 5 = 9 := digit_at L F 4
  have c1 : w / 2 ^ 0 % 2 ^ 16 = 0 := digit_at L F 0
  have e2 : fld w 23 4 = o.j := fld_of (digit_at L F 3)
  have e3 : fld w 17 6 = o.a := fld_of (digit_at L F 2)
  have e4 : bitAt w 16 = o.wa := bit_of (digit_at L F 1)
  simp only [decodeClass, decE, rdCflRs, keep, c0, c1, e2, e3, e4, h]
  rfl
theorem RoundTrip.cflAg (o : CmdF) : RoundTrip.Statement (.cflAg o) := by
  intro h
  have L : encCflAg o = pack [(16, 0), (1, o.wa.toNat), (6, o.a.toNat), (4, o.j.toNat), (5, 10)] := by
    simp only [encCflAg, put, putB, pack]; omega
  have F : Fits [(16, 0), (1, o.wa.toNat), (6, o.a.toNat), (4, o.j.toNat), (5, 10)] := ⟨by decide, bool_fits o.wa, o.a.isLt, o.j.isLt, by decide, trivial⟩
  show decodeClass .e (encCflAg o) = some (.cflAg o)
  generalize encCflAg o = w at L ⊢
  have c0 : w / 2 ^ 27 % 2 ^ 5 = 10 := digit_at L F 4
  have c1 : w / 2 ^ 0 % 2 ^ 16 = 0 := digit_at L F 0
  have e2 : fld w 23 4 = o.j := fld_of (digit_at L F 3)
  have e3 : fld w 17 6 = o.a := fld_of (digit_at L F 2)
  have e4 : bitAt w 16 = o.wa := bit_of (digit_at L F 1)
  simp only [decodeClass, decE, rdCflAg, keep, c0, c1, e2, e3, e4, h]
  rfl
theorem RoundTrip.cflBc (o : CmdF) : RoundTrip.Statement (.cflBc o) := by
  intro h
  have L : encCflBc o = pack [(16, 0), (1, o.wa.toNat), (6, o.a.toNat), (4, o.j.toNat), (5, 11)] := by
    simp only [encCflBc, put, putB, pack]; omega
  have F : Fits [(16, 0), (1, o.wa.toNat), (6, o.a.toNat), (4, o.j.toNat), (5, 11)] := ⟨by decide, bool_fits o.wa, o.a.isLt, o.j.isLt, by decide, trivial⟩
  show decodeClass .e (encCflBc o) = some (.cflBc o)
  generalize encCflBc o = w at L ⊢
  have c0 : w / 2 ^ 27 % 2 ^ 5 = 11 := digit_at L F 4
  have c1 : w / 2 ^ 0 % 2 ^ 16 = 0 := digit_at L F 0
  have e2 : fld w 23 4 = o.j := fld_of (digit_at L F 3)
  have e3 : fld w 17 6 = o.a := fld_of (digit_at L F 2)
  have e4 : bitAt w 16 = o.wa := bit_of (digit_at L F 1)
  simp only [decodeClass, decE, rdCflBc, keep, c0, c1, e2, e3, e4, h]
  rfl
theorem RoundTrip.send (o : CmdF) : RoundTrip.Statement (.send o) := by
  intro h
  have L : encSend o = pack [(16, 0), (1, o.wa.toNat), (6, o.a.toNat), (4, o.j.toNat), (5, 12)] := by
    simp only [encSend, put, putB, pack]; omega
  have F : Fits [(16, 0), (1, o.wa.toNat), (6, o.a.toNat), (4, o.j.toNat), (5, 12)] := ⟨by decide, bool_fits o.wa, o.a.isLt, o.j.isLt, by decide, trivial⟩
  show decodeClass .e (encSend o) = some (.send o)
  generalize encSend o = w at L ⊢
  have c0 : w / 2 ^ 27 % 2 ^ 5 = 12 := digit_at L F 4
  have c1 : w / 2 ^ 0 % 2 ^ 16 = 0 := digit_at L F 0
  have e2 : fld w 23 4 = o.j := fld_of (digit_at L F 3)
  have e3 : fld w 17 6 = o.a := fld_of (digit_at L F 2)
  have e4 : bitAt w 16 = o.wa := bit_of (digit_at L F 1)
  simp only [decodeClass, decE, rdSend, keep, c0, c1, e2, e3, e4, h]
  rfl
theorem RoundTrip.recv (o : CmdF) : RoundTrip.Statement (.recv o) := by
  intro h
  have L : encRecv o = pack [(16, 0), (1, o.wa.toNat), (6, o.a.toNat), (4, o.j.toNat), (5, 13)] := by
    simp only [encRecv, put, putB, pack]; omega
  have F : Fits [(16, 0), (1, o.wa.toNat), (6, o.a.toNat), (4, o.j.toNat), (5, 13)] := ⟨by decide, bool_fits o.wa, o.a.isLt, o.j.isLt, by decide, trivial⟩
  show decodeClass .e (encRecv o) = some (.recv o)
  generalize encRecv o = w at L ⊢
  have c0 : w / 2 ^ 27 % 2 ^ 5 = 13 := digit_at L F 4
  have c1 : w / 2 ^ 0 % 2 ^ 16 = 0 := digit_at L F 0
  have e2 : fld w 23 4 = o.j := fld_of (digit_at L F 3)
  have e3 : fld w 17 6 = o.a := fld_of (digit_at L F 2)
  have e4 : bitAt w 16 = o.wa := bit_of (digit_at L F 1)
  simp only [decodeClass, decE, rdRecv, keep, c0, c1, e2, e3, e4, h]
  rfl
theorem RoundTrip.pancfg (o : CmdF) : RoundTrip.Statement (.pancfg o) := by
  intro h
  have L : encPancfg o = pack [(16, 0), (1, o.wa.toNat), (6, o.a.toNat), (4, o.j.toNat), (5, 14)] := by
    simp only [encPancfg, put, putB, pack]; omega
  have F : Fits [(16, 0), (1, o.wa.toNat), (6, o.a.toNat), (4, o.j.toNat), (5, 14)] := ⟨by decide, bool_fits o.wa, o.a.isLt, o.j.isLt, by decide, trivial⟩
  show decodeClass .e (encPancfg o) = some (.pancfg o)
  generalize encPancfg o = w at L ⊢
  have c0 : w / 2 ^ 27 % 2 ^ 5 = 14 := digit_at L F 4
  have c1 : w / 2 ^ 0 % 2 ^ 16 = 0 := digit_at L F 0
  have e2 : fld w 23 4 = o.j := fld_of (digit_at L F 3)
  have e3 : fld w 17 6 = o.a := fld_of (digit_at L F 2)
  have e4 : bitAt w 16 = o.wa := bit_of (digit_at L F 1)
  simp only [decodeClass, decE, rdPancfg, keep, c0, c1, e2, e3, e4, h]
  rfl
theorem RoundTrip.tick (o : CmdF) : RoundTrip.Statement (.tick o) := by
  intro h
  have L : encTick o = pack [(16, 0), (1, o.wa.toNat), (6, o.a.toNat), (4, o.j.toNat), (5, 15)] := by
    simp only [encTick, put, putB, pack]; omega
  have F : Fits [(16, 0), (1, o.wa.toNat), (6, o.a.toNat), (4, o.j.toNat), (5, 15)] := ⟨by decide, bool_fits o.wa, o.a.isLt, o.j.isLt, by decide, trivial⟩
  show decodeClass .e (encTick o) = some (.tick o)
  generalize encTick o = w at L ⊢
  have c0 : w / 2 ^ 27 % 2 ^ 5 = 15 := digit_at L F 4
  have c1 : w / 2 ^ 0 % 2 ^ 16 = 0 := digit_at L F 0
  have e2 : fld w 23 4 = o.j := fld_of (digit_at L F 3)
  have e3 : fld w 17 6 = o.a := fld_of (digit_at L F 2)
  have e4 : bitAt w 16 = o.wa := bit_of (digit_at L F 1)
  simp only [decodeClass, decE, rdTick, keep, c0, c1, e2, e3, e4, h]
  rfl
theorem RoundTrip.foot (o : FootF) : RoundTrip.Statement (.foot o) := by
  intro h
  have L : encFoot o = pack [(5, 0), (1, o.wr.toNat), (3, o.eng.toNat), (1, o.wb.toNat), (6, o.b.toNat), (1, o.wa.toNat), (6, o.a.toNat), (4, 0), (5, 16)] := by
    simp only [encFoot, put, putB, pack]; omega
  have F : Fits [(5, 0), (1, o.wr.toNat), (3, o.eng.toNat), (1, o.wb.toNat), (6, o.b.toNat), (1, o.wa.toNat), (6, o.a.toNat), (4, 0), (5, 16)] := ⟨by decide, bool_fits o.wr, o.eng.isLt, bool_fits o.wb, o.b.isLt, bool_fits o.wa, o.a.isLt, by decide, by decide, trivial⟩
  show decodeClass .e (encFoot o) = some (.foot o)
  generalize encFoot o = w at L ⊢
  have c0 : w / 2 ^ 27 % 2 ^ 5 = 16 := digit_at L F 8
  have c1 : w / 2 ^ 23 % 2 ^ 4 = 0 := digit_at L F 7
  have c2 : w / 2 ^ 0 % 2 ^ 5 = 0 := digit_at L F 0
  have e3 : fld w 17 6 = o.a := fld_of (digit_at L F 6)
  have e4 : bitAt w 16 = o.wa := bit_of (digit_at L F 5)
  have e5 : fld w 10 6 = o.b := fld_of (digit_at L F 4)
  have e6 : bitAt w 9 = o.wb := bit_of (digit_at L F 3)
  have e7 : fld w 6 3 = o.eng := fld_of (digit_at L F 2)
  have e8 : bitAt w 5 = o.wr := bit_of (digit_at L F 1)
  simp only [decodeClass, decE, rdFoot, keep, c0, c1, c2, e3, e4, e5, e6, e7, e8, h]
  rfl
theorem RoundTrip.jwait (o : JwaitF) : RoundTrip.Statement (.jwait o) := by
  intro h
  have L : encJwait o = pack [(23, 0), (4, o.j.toNat), (5, 17)] := by
    simp only [encJwait, put, pack]; omega
  have F : Fits [(23, 0), (4, o.j.toNat), (5, 17)] := ⟨by decide, o.j.isLt, by decide, trivial⟩
  show decodeClass .e (encJwait o) = some (.jwait o)
  generalize encJwait o = w at L ⊢
  have c0 : w / 2 ^ 27 % 2 ^ 5 = 17 := digit_at L F 2
  have c1 : w / 2 ^ 0 % 2 ^ 23 = 0 := digit_at L F 0
  have e2 : fld w 23 4 = o.j := fld_of (digit_at L F 1)
  simp only [decodeClass, decE, rdJwait, keep, c0, c1, e2, h]
  rfl
theorem RoundTrip.jpoll (o : JpollF) : RoundTrip.Statement (.jpoll o) := by
  intro h
  have L : encJpoll o = pack [(4, 0), (5, o.p.toNat), (14, 0), (4, o.j.toNat), (5, 18)] := by
    simp only [encJpoll, put, pack]; omega
  have F : Fits [(4, 0), (5, o.p.toNat), (14, 0), (4, o.j.toNat), (5, 18)] := ⟨by decide, o.p.isLt, by decide, o.j.isLt, by decide, trivial⟩
  show decodeClass .e (encJpoll o) = some (.jpoll o)
  generalize encJpoll o = w at L ⊢
  have c0 : w / 2 ^ 27 % 2 ^ 5 = 18 := digit_at L F 4
  have c1 : w / 2 ^ 9 % 2 ^ 14 = 0 := digit_at L F 2
  have c2 : w / 2 ^ 0 % 2 ^ 4 = 0 := digit_at L F 0
  have e3 : fld w 23 4 = o.j := fld_of (digit_at L F 3)
  have e4 : fld w 4 5 = o.p := fld_of (digit_at L F 1)
  simp only [decodeClass, decE, rdJpoll, keep, c0, c1, c2, e3, e4, h]
  rfl
theorem RoundTrip.spawn (o : CmdF) : RoundTrip.Statement (.spawn o) := by
  intro h
  have L : encSpawn o = pack [(16, 0), (1, o.wa.toNat), (6, o.a.toNat), (4, o.j.toNat), (5, 19)] := by
    simp only [encSpawn, put, putB, pack]; omega
  have F : Fits [(16, 0), (1, o.wa.toNat), (6, o.a.toNat), (4, o.j.toNat), (5, 19)] := ⟨by decide, bool_fits o.wa, o.a.isLt, o.j.isLt, by decide, trivial⟩
  show decodeClass .e (encSpawn o) = some (.spawn o)
  generalize encSpawn o = w at L ⊢
  have c0 : w / 2 ^ 27 % 2 ^ 5 = 19 := digit_at L F 4
  have c1 : w / 2 ^ 0 % 2 ^ 16 = 0 := digit_at L F 0
  have e2 : fld w 23 4 = o.j := fld_of (digit_at L F 3)
  have e3 : fld w 17 6 = o.a := fld_of (digit_at L F 2)
  have e4 : bitAt w 16 = o.wa := bit_of (digit_at L F 1)
  simp only [decodeClass, decE, rdSpawn, keep, c0, c1, e2, e3, e4, h]
  rfl
theorem RoundTrip.join (o : JoinF) : RoundTrip.Statement (.join o) := by
  intro h
  have L : encJoin o = pack [(10, 0), (6, o.d.toNat), (1, o.wa.toNat), (6, o.a.toNat), (4, 0), (5, 20)] := by
    simp only [encJoin, put, putB, pack]; omega
  have F : Fits [(10, 0), (6, o.d.toNat), (1, o.wa.toNat), (6, o.a.toNat), (4, 0), (5, 20)] := ⟨by decide, o.d.isLt, bool_fits o.wa, o.a.isLt, by decide, by decide, trivial⟩
  show decodeClass .e (encJoin o) = some (.join o)
  generalize encJoin o = w at L ⊢
  have c0 : w / 2 ^ 27 % 2 ^ 5 = 20 := digit_at L F 5
  have c1 : w / 2 ^ 23 % 2 ^ 4 = 0 := digit_at L F 4
  have c2 : w / 2 ^ 0 % 2 ^ 10 = 0 := digit_at L F 0
  have e3 : fld w 17 6 = o.a := fld_of (digit_at L F 3)
  have e4 : bitAt w 16 = o.wa := bit_of (digit_at L F 2)
  have e5 : fld w 10 6 = o.d := fld_of (digit_at L F 1)
  simp only [decodeClass, decE, rdJoin, keep, c0, c1, c2, e3, e4, e5, h]
  rfl
theorem RoundTrip.leave (o : EaF) : RoundTrip.Statement (.leave o) := by
  intro h
  have L : encLeave o = pack [(16, 0), (1, o.wa.toNat), (6, o.a.toNat), (4, 0), (5, 21)] := by
    simp only [encLeave, put, putB, pack]; omega
  have F : Fits [(16, 0), (1, o.wa.toNat), (6, o.a.toNat), (4, 0), (5, 21)] := ⟨by decide, bool_fits o.wa, o.a.isLt, by decide, by decide, trivial⟩
  show decodeClass .e (encLeave o) = some (.leave o)
  generalize encLeave o = w at L ⊢
  have c0 : w / 2 ^ 27 % 2 ^ 5 = 21 := digit_at L F 4
  have c1 : w / 2 ^ 23 % 2 ^ 4 = 0 := digit_at L F 3
  have c2 : w / 2 ^ 0 % 2 ^ 16 = 0 := digit_at L F 0
  have e3 : fld w 17 6 = o.a := fld_of (digit_at L F 2)
  have e4 : bitAt w 16 = o.wa := bit_of (digit_at L F 1)
  simp only [decodeClass, decE, rdLeave, keep, c0, c1, c2, e3, e4, h]
  rfl
theorem RoundTrip.bar (o : EaF) : RoundTrip.Statement (.bar o) := by
  intro h
  have L : encBar o = pack [(16, 0), (1, o.wa.toNat), (6, o.a.toNat), (4, 0), (5, 22)] := by
    simp only [encBar, put, putB, pack]; omega
  have F : Fits [(16, 0), (1, o.wa.toNat), (6, o.a.toNat), (4, 0), (5, 22)] := ⟨by decide, bool_fits o.wa, o.a.isLt, by decide, by decide, trivial⟩
  show decodeClass .e (encBar o) = some (.bar o)
  generalize encBar o = w at L ⊢
  have c0 : w / 2 ^ 27 % 2 ^ 5 = 22 := digit_at L F 4
  have c1 : w / 2 ^ 23 % 2 ^ 4 = 0 := digit_at L F 3
  have c2 : w / 2 ^ 0 % 2 ^ 16 = 0 := digit_at L F 0
  have e3 : fld w 17 6 = o.a := fld_of (digit_at L F 2)
  have e4 : bitAt w 16 = o.wa := bit_of (digit_at L F 1)
  simp only [decodeClass, decE, rdBar, keep, c0, c1, c2, e3, e4, h]
  rfl
theorem RoundTrip.tree (o : TreeF) : RoundTrip.Statement (.tree o) := by
  intro h
  have L : encTree o = pack [(2, 0), (3, o.l4.toNat), (3, o.l3.toNat), (3, o.l2.toNat), (3, o.l1.toNat), (3, o.l0.toNat), (6, o.t3.toNat), (6, o.t2.toNat), (6, o.t1.toNat), (6, o.t0.toNat), (4, o.shape.toNat), (3, 1)] := by
    simp only [encTree, put, pack]; omega
  have F : Fits [(2, 0), (3, o.l4.toNat), (3, o.l3.toNat), (3, o.l2.toNat), (3, o.l1.toNat), (3, o.l0.toNat), (6, o.t3.toNat), (6, o.t2.toNat), (6, o.t1.toNat), (6, o.t0.toNat), (4, o.shape.toNat), (3, 1)] := ⟨by decide, o.l4.isLt, o.l3.isLt, o.l2.isLt, o.l1.isLt, o.l0.isLt, o.t3.isLt, o.t2.isLt, o.t1.isLt, o.t0.isLt, o.shape.isLt, by decide, trivial⟩
  show decodeClass .b (encTree o) = some (.tree o)
  generalize encTree o = w at L ⊢
  have c0 : w / 2 ^ 45 % 2 ^ 3 = 1 := digit_at L F 11
  have c1 : w / 2 ^ 0 % 2 ^ 2 = 0 := digit_at L F 0
  have e2 : fld w 41 4 = o.shape := fld_of (digit_at L F 10)
  have e3 : fld w 35 6 = o.t0 := fld_of (digit_at L F 9)
  have e4 : fld w 29 6 = o.t1 := fld_of (digit_at L F 8)
  have e5 : fld w 23 6 = o.t2 := fld_of (digit_at L F 7)
  have e6 : fld w 17 6 = o.t3 := fld_of (digit_at L F 6)
  have e7 : fld w 14 3 = o.l0 := fld_of (digit_at L F 5)
  have e8 : fld w 11 3 = o.l1 := fld_of (digit_at L F 4)
  have e9 : fld w 8 3 = o.l2 := fld_of (digit_at L F 3)
  have e10 : fld w 5 3 = o.l3 := fld_of (digit_at L F 2)
  have e11 : fld w 2 3 = o.l4 := fld_of (digit_at L F 1)
  simp only [decodeClass, decB, rdTree, keep, c0, c1, e2, e3, e4, e5, e6, e7, e8, e9, e10, e11, h]
  rfl
theorem RoundTrip.loop (o : LoopF) : RoundTrip.Statement (.loop o) := by
  intro h
  have L : encLoop o = pack [(1, 0), (32, o.c.toNat), (12, o.n.toNat), (3, 2)] := by
    simp only [encLoop, put, pack]; omega
  have F : Fits [(1, 0), (32, o.c.toNat), (12, o.n.toNat), (3, 2)] := ⟨by decide, o.c.isLt, o.n.isLt, by decide, trivial⟩
  show decodeClass .b (encLoop o) = some (.loop o)
  generalize encLoop o = w at L ⊢
  have c0 : w / 2 ^ 45 % 2 ^ 3 = 2 := digit_at L F 3
  have c1 : w / 2 ^ 0 % 2 ^ 1 = 0 := digit_at L F 0
  have e2 : fld w 33 12 = o.n := fld_of (digit_at L F 2)
  have e3 : fld w 1 32 = o.c := fld_of (digit_at L F 1)
  simp only [decodeClass, decB, rdLoop, keep, c0, c1, e2, e3, h]
  rfl
theorem RoundTrip.loopr (o : LooprF) : RoundTrip.Statement (.loopr o) := by
  intro h
  have L : encLoopr o = pack [(26, 0), (1, o.wa.toNat), (6, o.a.toNat), (12, o.n.toNat), (3, 3)] := by
    simp only [encLoopr, put, putB, pack]; omega
  have F : Fits [(26, 0), (1, o.wa.toNat), (6, o.a.toNat), (12, o.n.toNat), (3, 3)] := ⟨by decide, bool_fits o.wa, o.a.isLt, o.n.isLt, by decide, trivial⟩
  show decodeClass .b (encLoopr o) = some (.loopr o)
  generalize encLoopr o = w at L ⊢
  have c0 : w / 2 ^ 45 % 2 ^ 3 = 3 := digit_at L F 4
  have c1 : w / 2 ^ 0 % 2 ^ 26 = 0 := digit_at L F 0
  have e2 : fld w 33 12 = o.n := fld_of (digit_at L F 3)
  have e3 : fld w 27 6 = o.a := fld_of (digit_at L F 2)
  have e4 : bitAt w 26 = o.wa := bit_of (digit_at L F 1)
  simp only [decodeClass, decB, rdLoopr, keep, c0, c1, e2, e3, e4, h]
  rfl
theorem RoundTrip.call (o : CallF) : RoundTrip.Statement (.call o) := by
  intro h
  have L : encCall o = pack [(35, 0), (3, o.l.toNat), (3, o.t.toNat), (4, 1), (3, 0)] := by
    simp only [encCall, put, pack]; omega
  have F : Fits [(35, 0), (3, o.l.toNat), (3, o.t.toNat), (4, 1), (3, 0)] := ⟨by decide, o.l.isLt, o.t.isLt, by decide, by decide, trivial⟩
  show decodeClass .b (encCall o) = some (.call o)
  generalize encCall o = w at L ⊢
  have c0 : w / 2 ^ 45 % 2 ^ 3 = 0 := digit_at L F 4
  have c1 : w / 2 ^ 41 % 2 ^ 4 = 1 := digit_at L F 3
  have c2 : w / 2 ^ 0 % 2 ^ 35 = 0 := digit_at L F 0
  have e3 : fld w 38 3 = o.t := fld_of (digit_at L F 2)
  have e4 : fld w 35 3 = o.l := fld_of (digit_at L F 1)
  simp only [decodeClass, decB, rdCall, keep, c0, c1, c2, e3, e4, h]
  rfl
theorem RoundTrip.ret (o : BtF) : RoundTrip.Statement (.ret o) := by
  intro h
  have L : encRet o = pack [(38, 0), (3, o.b.toNat), (4, 2), (3, 0)] := by
    simp only [encRet, put, pack]; omega
  have F : Fits [(38, 0), (3, o.b.toNat), (4, 2), (3, 0)] := ⟨by decide, o.b.isLt, by decide, by decide, trivial⟩
  show decodeClass .b (encRet o) = some (.ret o)
  generalize encRet o = w at L ⊢
  have c0 : w / 2 ^ 45 % 2 ^ 3 = 0 := digit_at L F 3
  have c1 : w / 2 ^ 41 % 2 ^ 4 = 2 := digit_at L F 2
  have c2 : w / 2 ^ 0 % 2 ^ 38 = 0 := digit_at L F 0
  have e3 : fld w 38 3 = o.b := fld_of (digit_at L F 1)
  simp only [decodeClass, decB, rdRet, keep, c0, c1, c2, e3, h]
  rfl
theorem RoundTrip.suspend (o : BtF) : RoundTrip.Statement (.suspend o) := by
  intro h
  have L : encSuspend o = pack [(38, 0), (3, o.b.toNat), (4, 3), (3, 0)] := by
    simp only [encSuspend, put, pack]; omega
  have F : Fits [(38, 0), (3, o.b.toNat), (4, 3), (3, 0)] := ⟨by decide, o.b.isLt, by decide, by decide, trivial⟩
  show decodeClass .b (encSuspend o) = some (.suspend o)
  generalize encSuspend o = w at L ⊢
  have c0 : w / 2 ^ 45 % 2 ^ 3 = 0 := digit_at L F 3
  have c1 : w / 2 ^ 41 % 2 ^ 4 = 3 := digit_at L F 2
  have c2 : w / 2 ^ 0 % 2 ^ 38 = 0 := digit_at L F 0
  have e3 : fld w 38 3 = o.b := fld_of (digit_at L F 1)
  simp only [decodeClass, decB, rdSuspend, keep, c0, c1, c2, e3, h]
  rfl
theorem RoundTrip.halt : RoundTrip.Statement (.halt) := by
  intro h
  have L : encHalt = pack [(41, 0), (4, 4), (3, 0)] := by decide
  have F : Fits [(41, 0), (4, 4), (3, 0)] := ⟨by decide, by decide, by decide, trivial⟩
  show decodeClass .b (encHalt) = some (.halt)
  generalize encHalt = w at L ⊢
  have c0 : w / 2 ^ 45 % 2 ^ 3 = 0 := digit_at L F 2
  have c1 : w / 2 ^ 41 % 2 ^ 4 = 4 := digit_at L F 1
  have c2 : w / 2 ^ 0 % 2 ^ 41 = 0 := digit_at L F 0
  simp only [decodeClass, decB, rdHalt, keep, c0, c1, c2, h]
  rfl
theorem RoundTrip.trap (o : TrapF) : RoundTrip.Statement (.trap o) := by
  intro h
  have L : encTrap o = pack [(33, 0), (8, o.code.toNat), (4, 5), (3, 0)] := by
    simp only [encTrap, put, pack]; omega
  have F : Fits [(33, 0), (8, o.code.toNat), (4, 5), (3, 0)] := ⟨by decide, o.code.isLt, by decide, by decide, trivial⟩
  show decodeClass .b (encTrap o) = some (.trap o)
  generalize encTrap o = w at L ⊢
  have c0 : w / 2 ^ 45 % 2 ^ 3 = 0 := digit_at L F 3
  have c1 : w / 2 ^ 41 % 2 ^ 4 = 5 := digit_at L F 2
  have c2 : w / 2 ^ 0 % 2 ^ 33 = 0 := digit_at L F 0
  have e3 : fld w 33 8 = o.code := fld_of (digit_at L F 1)
  simp only [decodeClass, decB, rdTrap, keep, c0, c1, c2, e3, h]
  rfl
theorem RoundTrip.rte : RoundTrip.Statement (.rte) := by
  intro h
  have L : encRte = pack [(41, 0), (4, 6), (3, 0)] := by decide
  have F : Fits [(41, 0), (4, 6), (3, 0)] := ⟨by decide, by decide, by decide, trivial⟩
  show decodeClass .b (encRte) = some (.rte)
  generalize encRte = w at L ⊢
  have c0 : w / 2 ^ 45 % 2 ^ 3 = 0 := digit_at L F 2
  have c1 : w / 2 ^ 41 % 2 ^ 4 = 6 := digit_at L F 1
  have c2 : w / 2 ^ 0 % 2 ^ 41 = 0 := digit_at L F 0
  simp only [decodeClass, decB, rdRte, keep, c0, c1, c2, h]
  rfl
theorem RoundTrip.repeat (o : RepF) : RoundTrip.Statement (.repeat o) := by
  intro h
  have L : encRepeat o = pack [(8, o.n.toNat), (8, 240)] := by
    simp only [encRepeat, put, pack]; omega
  have F : Fits [(8, o.n.toNat), (8, 240)] := ⟨o.n.isLt, by decide, trivial⟩
  show decodeClass .c (encRepeat o) = some (.repeat o)
  generalize encRepeat o = w at L ⊢
  have c0 : w / 2 ^ 8 % 2 ^ 8 = 240 := digit_at L F 1
  have e1 : fld w 0 8 = o.n := fld_of (digit_at L F 0)
  simp only [decodeClass, decC, rdRepeat, keep, c0, e1, h]
  rfl
theorem RoundTrip.bundleIssue (c : CoreId) : RoundTrip.Statement (.bundleIssue c) := fun _ => trivial
theorem RoundTrip.resultLands (c : CoreId) (n : Nat) : RoundTrip.Statement (.resultLands c n) := fun _ => trivial
theorem RoundTrip.deferredPageTrap (c : CoreId) : RoundTrip.Statement (.deferredPageTrap c) := fun _ => trivial
theorem RoundTrip.pageRequestPost (v : VfId) : RoundTrip.Statement (.pageRequestPost v) := fun _ => trivial
theorem RoundTrip.rangeRetire (c : CoreId) (n : Nat) : RoundTrip.Statement (.rangeRetire c n) := fun _ => trivial
theorem RoundTrip.engineCommandComplete (c : CoreId) (id : Nat) : RoundTrip.Statement (.engineCommandComplete c id) := fun _ => trivial
theorem RoundTrip.rillColumnCommand (c : CoreId) (n : Nat) : RoundTrip.Statement (.rillColumnCommand c n) := fun _ => trivial
theorem RoundTrip.samplePerformed (c : CoreId) (n : Nat) : RoundTrip.Statement (.samplePerformed c n) := fun _ => trivial
theorem RoundTrip.tickCloseArrival (r : Nat) (ch : Nat) : RoundTrip.Statement (.tickCloseArrival r ch) := fun _ => trivial
theorem RoundTrip.stackRefreshDue (bank : Nat) (train : Bool) : RoundTrip.Statement (.stackRefreshDue bank train) := fun _ => trivial
theorem RoundTrip.weightDieRefresh : RoundTrip.Statement (.weightDieRefresh) := fun _ => trivial
theorem RoundTrip.cflHop (c : CoreId) (id : Nat) (k : CflPkt) : RoundTrip.Statement (.cflHop c id k) := fun _ => trivial
theorem RoundTrip.cflLateReplacement (c : CoreId) (id : Nat) (k : CflPkt) : RoundTrip.Statement (.cflLateReplacement c id k) := fun _ => trivial
theorem RoundTrip.recvEntryArrival (peer : BitVec 16) (flow : BitVec 8) (k : MsgEntry) : RoundTrip.Statement (.recvEntryArrival peer flow k) := fun _ => trivial
theorem RoundTrip.recvTimeout (c : CoreId) (id : Nat) : RoundTrip.Statement (.recvTimeout c id) := fun _ => trivial
theorem RoundTrip.sendAckTimeout (c : CoreId) (id : Nat) : RoundTrip.Statement (.sendAckTimeout c id) := fun _ => trivial
theorem RoundTrip.linkTimeout (c : CoreId) : RoundTrip.Statement (.linkTimeout c) := fun _ => trivial
theorem RoundTrip.mirrorWriteArrival (k : MirMsg) : RoundTrip.Statement (.mirrorWriteArrival k) := fun _ => trivial
theorem RoundTrip.taskPickup (c : CoreId) : RoundTrip.Statement (.taskPickup c) := fun _ => trivial
theorem RoundTrip.heldSpawnEntry (p : PartId) : RoundTrip.Statement (.heldSpawnEntry p) := fun _ => trivial
theorem RoundTrip.quantumExpiry (p : PartId) : RoundTrip.Statement (.quantumExpiry p) := fun _ => trivial
theorem RoundTrip.launch (v : VfId) (vec : List (BitVec 32)) : RoundTrip.Statement (.launch v vec) := fun _ => trivial
theorem RoundTrip.launchPreamble (v : VfId) (vec : List (BitVec 32)) : RoundTrip.Statement (.launchPreamble v vec) := fun _ => trivial
theorem RoundTrip.imageLoad (v : VfId) (img : Image) : RoundTrip.Statement (.imageLoad v img) := fun _ => trivial
theorem RoundTrip.attest (v : VfId) (nonce : BitVec 256) (a : GAddr) : RoundTrip.Statement (.attest v nonce a) := fun _ => trivial
theorem RoundTrip.hostSpawn (v : VfId) (a : GAddr) : RoundTrip.Statement (.hostSpawn v a) := fun _ => trivial
theorem RoundTrip.restore (v : VfId) (a : GAddr) : RoundTrip.Statement (.restore v a) := fun _ => trivial
theorem RoundTrip.queueTeardown (v : VfId) (q : BitVec 6) : RoundTrip.Statement (.queueTeardown v q) := fun _ => trivial
theorem RoundTrip.prqreply (v : VfId) (x : W64) : RoundTrip.Statement (.prqreply v x) := fun _ => trivial
theorem RoundTrip.pcreate (p : PartId) (v : VfId) (mask : W64) (key : BitVec 256) : RoundTrip.Statement (.pcreate p v mask key) := fun _ => trivial
theorem RoundTrip.pdestroy (p : PartId) : RoundTrip.Statement (.pdestroy p) := fun _ => trivial
theorem RoundTrip.s2root (p : PartId) (x : W64) : RoundTrip.Statement (.s2root p x) := fun _ => trivial
theorem RoundTrip.ctxallot (p : PartId) (n : Nat) : RoundTrip.Statement (.ctxallot p n) := fun _ => trivial
theorem RoundTrip.portw (c : CoreId) (w : BitVec 4) : RoundTrip.Statement (.portw c w) := fun _ => trivial
theorem RoundTrip.inval (v : VfId) (kind : BitVec 2) (lo : GAddr) (hi : GAddr) : RoundTrip.Statement (.inval v kind lo hi) := fun _ => trivial
theorem RoundTrip.invalComplete : RoundTrip.Statement (.invalComplete) := fun _ => trivial
theorem RoundTrip.deadline (k : DeadlineF) : RoundTrip.Statement (.deadline k) := fun _ => trivial
theorem RoundTrip.sluiceEvaluation (p : PartId) : RoundTrip.Statement (.sluiceEvaluation p) := fun _ => trivial
theorem RoundTrip.deadlineCut (p : PartId) : RoundTrip.Statement (.deadlineCut p) := fun _ => trivial
theorem RoundTrip.vacancy (p : PartId) : RoundTrip.Statement (.vacancy p) := fun _ => trivial
theorem RoundTrip.sluiceRun (x : W64) : RoundTrip.Statement (.sluiceRun x) := fun _ => trivial
theorem RoundTrip.sluiceCheckpoint (x : W64) : RoundTrip.Statement (.sluiceCheckpoint x) := fun _ => trivial
theorem RoundTrip.sluiceDiscard (x : W64) : RoundTrip.Statement (.sluiceDiscard x) := fun _ => trivial
theorem RoundTrip.sluiceQuery (x : W64) : RoundTrip.Statement (.sluiceQuery x) := fun _ => trivial
theorem RoundTrip.errorWindowExpiry (kind : BitVec 3) (unit : BitVec 16) : RoundTrip.Statement (.errorWindowExpiry kind unit) := fun _ => trivial
theorem RoundTrip.unitRetirement (kind : BitVec 3) (unit : BitVec 16) : RoundTrip.Statement (.unitRetirement kind unit) := fun _ => trivial
theorem RoundTrip.retire (kind : BitVec 3) (unit : BitVec 16) : RoundTrip.Statement (.retire kind unit) := fun _ => trivial
theorem RoundTrip.record (x : W64) : RoundTrip.Statement (.record x) := fun _ => trivial
theorem RoundTrip.mircfg (p : PartId) (base : GAddr) (len : BitVec 52) (m : BitVec 16) (dpa : BitVec 46) : RoundTrip.Statement (.mircfg p base len m dpa) := fun _ => trivial
theorem RoundTrip.moduleLost (m : BitVec 16) : RoundTrip.Statement (.moduleLost m) := fun _ => trivial
theorem RoundTrip.promote (p : PartId) (m : BitVec 16) : RoundTrip.Statement (.promote p m) := fun _ => trivial
theorem RoundTrip.fatalError (cause : BitVec 8) : RoundTrip.Statement (.fatalError cause) := fun _ => trivial
theorem RoundTrip.dumpread (off : Nat) : RoundTrip.Statement (.dumpread off) := fun _ => trivial
theorem RoundTrip.moduleReset : RoundTrip.Statement (.moduleReset) := fun _ => trivial
theorem RoundTrip.bootRomVerify : RoundTrip.Statement (.bootRomVerify) := fun _ => trivial
theorem RoundTrip.firmwareInit : RoundTrip.Statement (.firmwareInit) := fun _ => trivial
theorem RoundTrip.fwload (f : Firmware) : RoundTrip.Statement (.fwload f) := fun _ => trivial
theorem RoundTrip.powerCap (mhz : Nat) (stall : Nat) : RoundTrip.Statement (.powerCap mhz stall) := fun _ => trivial
theorem RoundTrip.thermtrip : RoundTrip.Statement (.thermtrip) := fun _ => trivial
theorem RoundTrip.registerWrite (w : Writer) (r : WinReg) (x : W64) : RoundTrip.Statement (.registerWrite w r x) := fun _ => trivial
theorem RoundTrip.flowFlitArrival (f : FlowId) (seq : BitVec 16) (k : FlitBody) : RoundTrip.Statement (.flowFlitArrival f seq k) := fun _ => trivial

end Sys2Proof.Laws
end

