-- ==== Sys2Proof/Laws/Rewalks.lean ====
section
/-! SUPPORT. Lanes that walk again write no memory but the entries of page requests at host nodes: what they may change is the core's
lists of operations, its own view and the page requests (R199, R200, R209, R294). -/
namespace Sys2Proof.Machine

/-- Two states agree on the open bundle and the mode of a core, and on memory and the publications but for entries of page requests. -/
def Walked (c : CoreId) (s t : State) : Prop :=
  (∃ more, t.mem = s.mem.after more ∧ t.pubs = s.pubs ++ more ∧ ∀ p ∈ more, ∀ w ∈ p.writes, locNode 0 0 ≤ w.1) ∧ t.iss = s.iss ∧
    (cr t c).h = (cr s c).h

theorem WalksOnly.walked {s t : State} (h : WalksOnly s t) (c : CoreId) : Walked c s t := by
  refine ⟨?_, h.iss, by rw [h.cr]⟩
  obtain ⟨m, h1, h2, _⟩ := h
  exact ⟨m, by rw [h1], by rw [h1], h2⟩
theorem Walked.refl (c : CoreId) (s : State) : Walked c s s := (WalksOnly.refl s).walked c
theorem Walked.trans {c : CoreId} {s t u : State} (h : Walked c s t) (g : Walked c t u) : Walked c s u := by
  obtain ⟨⟨m, a1, a2, a3⟩, a4, a5⟩ := h
  obtain ⟨⟨n, b1, b2, b3⟩, b4, b5⟩ := g
  refine ⟨⟨m ++ n, ?_, ?_, fun p hp => ?_⟩, b4.trans a4, b5.trans a5⟩
  · rw [b1, a1, Mem.after_append]
  · rw [b2, a2, List.append_assoc]
  · rcases List.mem_append.1 hp with hp | hp
    · exact a3 p hp
    · exact b3 p hp
/-- A change of the core that keeps its mode. -/
theorem Walked.modCr (c : CoreId) (s : State) (f : Core → Core) (h : (f (cr s c)).h = (cr s c).h) : Walked c s (modCr s c f) :=
  ⟨⟨[], by rw [Mem.after_nil]; rfl, by rw [List.append_nil]; rfl, by simp⟩, rfl, by rw [cr_modCr_same]; exact h⟩

theorem failLane_walked (c : CoreId) (t : TrapInfo) (s : State) : Walked c s (failLane c t s) := Walked.modCr c s _ rfl
theorem pageMiss_walked (s : State) (c : CoreId) (p : PartId) (ipa va : Nat) (tbl : Bool) (level : Nat) (wr : Bool) :
    Walked c s (pageMiss s c p ipa va tbl level wr).1 := (pageMiss_walks s c p ipa va tbl level wr).walked c

theorem captureLane_walked (c : CoreId) (n : Nat) (l : Lane) (s : State) : Walked c s (captureLane c n l s).1 := by
  obtain ⟨u, f, w, e, _⟩ := captureLane_law c n l s
  rw [e]
  exact (w.walked c).trans (Walked.modCr c u _ rfl)

theorem captureLanes_walked (c : CoreId) (n : Nat) (ls : List Lane) (s : State) : Walked c s (captureLanes c n ls s).1 := by
  induction ls generalizing s with
  | nil => exact .refl c s
  | cons l r ih => exact (captureLane_walked c n l s).trans (ih _)

theorem performStores_walked (c : CoreId) (n : Nat) (ls : List Lane) (s : State) : Walked c s (performStores c n ls s).1 := by
  obtain ⟨u, _, _, _, w, e⟩ := performStores_law c n ls s
  rw [e]
  exact (w.walked c).trans (Walked.modCr c u _ rfl)

theorem rewalkLane_walked (c : CoreId) (p : PartId) (wr : Bool) (w : Option Want) (l : Lane) (s : State) :
    Walked c s (rewalkLane c p wr w l s).1 := by
  unfold rewalkLane
  dsimp only
  split
  · split
    · exact failLane_walked _ _ _
    · exact .refl c s
  · exact pageMiss_walked _ _ _ _ _ _ _ _
  · exact failLane_walked _ _ _
  · exact failLane_walked _ _ _

theorem rewalkLanes_walked (c : CoreId) (p : PartId) (wr : Bool) (w : Option Want) (pick : LaneSt → Bool) (ls : List Lane) (s : State) :
    Walked c s (rewalkLanes c p wr w pick ls s).1 := by
  induction ls generalizing s with
  | nil => exact .refl c s
  | cons l r ih =>
    unfold rewalkLanes
    dsimp only
    refine Walked.trans ?_ (ih _)
    split
    · exact rewalkLane_walked _ _ _ _ _ _
    · exact .refl c s

theorem rewalkPends_walked (c : CoreId) (p : PartId) (n : Nat) (pick : LaneSt → Bool) (qs : List Pend) (s : State) :
    Walked c s (rewalkPends c p n pick qs s).1 := by
  induction qs generalizing s with
  | nil => exact .refl c s
  | cons q r ih =>
    unfold rewalkPends
    dsimp only
    refine Walked.trans ?_ (ih _)
    split
    · split
      · exact (rewalkLanes_walked _ _ _ _ _ _ _).trans (captureLanes_walked _ _ _ _)
      · exact rewalkLanes_walked _ _ _ _ _ _ _
    · exact .refl c s

theorem rewalkPosts_walked (c : CoreId) (p : PartId) (n : Nat) (pick : LaneSt → Bool) (os : List Post) (s : State) :
    Walked c s (rewalkPosts c p n pick os s).1 := by
  induction os generalizing s with
  | nil => exact .refl c s
  | cons o r ih =>
    unfold rewalkPosts
    dsimp only
    refine Walked.trans ?_ (ih _)
    have h : Walked c s (if o.seq = n then rewalkLanes c p true o.kind.want pick o.lanes s else (s, o.lanes)).1 := by
      split
      · exact rewalkLanes_walked _ _ _ _ _ _ _
      · exact .refl c s
    split
    · exact h.trans (performStores_walked _ _ _ _)
    · exact h

theorem rewalkSeq_walked (c : CoreId) (p : PartId) (pick : LaneSt → Bool) (s : State) (n : Nat) : Walked c s (rewalkSeq c p pick s n) := by
  unfold rewalkSeq
  dsimp only
  have hv : Walked c s (modCr (rewalkPends c p n pick (cr s c).pend s).1 c
      (fun k => { k with pend := (rewalkPends c p n pick (cr s c).pend s).2 })) :=
    (rewalkPends_walked c p n pick _ s).trans (Walked.modCr c _ _ rfl)
  generalize modCr (rewalkPends c p n pick (cr s c).pend s).1 c
      (fun k => { k with pend := (rewalkPends c p n pick (cr s c).pend s).2 }) = v at hv
  exact (hv.trans (rewalkPosts_walked c p n pick (cr v c).posts v)).trans (Walked.modCr c _ _ rfl)

theorem rewalkCore_walked (c : CoreId) (p : PartId) (pick : LaneSt → Bool) (s : State) : Walked c s (rewalkCore c p pick s) := by
  have h : ∀ (ns : List Nat) (s : State), Walked c s (ns.foldl (rewalkSeq c p pick) s) := by
    intro ns
    induction ns with
    | nil => exact fun s => .refl c s
    | cons n r ih => exact fun s => (rewalkSeq_walked c p pick s n).trans (ih _)
  exact h _ _

/-- The failed lanes of a core walk again without a write to memory. -/
theorem rewalkFailed_walked (c : CoreId) (s : State) : Walked c s (rewalkFailed c s) := by
  unfold rewalkFailed
  split
  · exact rewalkCore_walked _ _ _ _
  · exact .refl c s

/-- A core with no operation in flight walks nothing again. -/
theorem rewalkFailed_none (c : CoreId) (s : State) (hp : (cr s c).pend = []) (ho : (cr s c).posts = []) : rewalkFailed c s = s := by
  unfold rewalkFailed
  split
  · unfold rewalkCore opSeqs; rw [hp, ho]; rfl
  · rfl

end Sys2Proof.Machine
end

