-- ==== Sys2Proof/Laws/Units.lean ====
section
/-! SUPPORT. The issue of bundles, the scheduler, and the slot whose turn it is (R26 to R36, R104 to R111). -/
namespace Sys2Proof.Machine

theorem cr_setCr_at (s : State) (a c : CoreId) (k : Core) : cr (setCr s a k) c = if c = a then k else cr s c := cr_modCr_at s a c (fun _ => k)
/-- The entry from a state in which no bundle commits. -/
theorem idle_enters (s : State) (c : CoreId) (h : HeldTrap) (ha : s.iss.act = false) (hh : (cr s c).h = false)
    (he : (cr s c).trapEntry.isSome = true) (hr : trapReady (cr s c) = true) :
    Entered s (trapCore c h s) c h.info h.unit h.leaf h.repc := by
  have h2 : (cr s c).trapEntry.isNone = false := by
    cases h3 : (cr s c).trapEntry <;> simp_all
  have e : trapCore c h s = enterTrap c h (modCr s c (fun k => { k with keptFurther := k.further, keptNext := k.nextUnit })) := by
    unfold trapCore
    simp only [ha, hh, h2, hr, Bool.false_and, Bool.false_eq_true, if_false, Bool.or_self, if_true]
  have hm : cr (trapCore c h s) c = handlerCore h s.now { cr s c with keptFurther := (cr s c).further, keptNext := (cr s c).nextUnit } := by
    rw [e, enterTrap_eq, cr_modCr_at, if_pos rfl, cr_modCr_at, if_pos rfl]; rfl
  obtain ⟨f1, f2, f3, f4⟩ := frame_bytes (cr s c).l (frameOf h.info).1 (frameOf h.info).2
  unfold Entered
  rw [hm]
  have hl : (handlerCore h s.now { cr s c with keptFurther := (cr s c).further, keptNext := (cr s c).nextUnit }).l =
      (((cr s c).l.wrN 0 8 (frameOf h.info).1).wrN 8 8 (frameOf h.info).2).wrN 16 48 0 := by simp only [handlerCore]
  rw [hl]
  refine ⟨rfl, rfl, rfl, rfl, rfl, rfl, rfl, rfl, rfl, ?_, rfl, f1, f2, f3, f4⟩
  show some ((cr s c).trapEntry.getD 0) = (cr s c).trapEntry
  cases h3 : (cr s c).trapEntry <;> simp_all
theorem queue_set (s : State) (p : PartId) (q : BitVec 6) (f : Queue → Queue) : queueOf (modQueue p q f s) p q = f (queueOf s p q) := by
  unfold queueOf modQueue modPt
  rw [pt_set, if_pos rfl]
  simp
theorem pt_modPt_at (s : State) (p : PartId) (f : Part → Part) : pt (modPt s p f) p = f (pt s p) := by
  unfold modPt; rw [pt_set, if_pos rfl]
theorem askYield_asks (p : PartId) (s : State) : askYield p s = { s with cores := (askYield p s).cores } ∧ ∀ c, cr (askYield p s) c = { cr s c with yieldReq := (cr (askYield p s) c).yieldReq } := by
  unfold askYield
  split
  · exact ⟨rfl, fun _ => rfl⟩
  · split
    · exact ⟨rfl, fun _ => rfl⟩
    · split
      · exact ⟨rfl, fun _ => rfl⟩
      · next d _ =>
        refine ⟨rfl, fun c => ?_⟩
        rw [cr_modCr_at]
        split
        · next h => subst h; rfl
        · rfl
theorem slotFrom_law (b : Bundle) (leaf : Nat) : ∀ fuel n, (∃ k, n ≤ k ∧ k ≤ n + fuel ∧ slotFrom b leaf fuel n = k ∧ (∀ m, n ≤ m → m < k → slotHolds b m = .noop ∨ slotLive b m leaf = false) ∧
    (k < n + fuel → ¬ (slotHolds b k = .noop ∨ slotLive b k leaf = false)))
  | 0, n => ⟨n, Nat.le_refl _, Nat.le_refl _, rfl, fun m h1 h2 => by omega, fun h => by omega⟩
  | fuel + 1, n => by
    unfold slotFrom
    by_cases h : (decide (slotHolds b n = .noop) || !slotLive b n leaf) = true
    · rw [if_pos h]
      obtain ⟨k, h1, h2, h3, h4, h5⟩ := slotFrom_law b leaf fuel (n + 1)
      refine ⟨k, by omega, by omega, h3, fun m a c => ?_, fun hh => h5 (by omega)⟩
      by_cases hm : m = n
      · subst hm; simpa using h
      · exact h4 m (by omega) c
    · rw [if_neg h]
      exact ⟨n, Nat.le_refl _, by omega, rfl, fun m a c => by omega, fun _ => by simpa using h⟩
theorem holds_noop (b : Bundle) (n : Nat) : slotHolds b n = .noop ↔ slotWord b n = 0 := by
  unfold slotHolds
  dsimp only
  split
  · simp_all
  · constructor
    · intro h; split at h <;> cases h
    · intro h; contradiction
theorem firstDue_none (s : State) : ∀ l : List Instr, (∀ i ∈ l, exec i s = .next s) → firstDue s l = none
  | [], _ => rfl
  | i :: l, h => by
    unfold firstDue
    rw [h i (by simp)]
    simp only [if_true]
    exact firstDue_none s l (fun j hj => h j (by simp [hj]))

end Sys2Proof.Machine
end

