-- ==== Sys2Proof/Tests/Slice0.lean ====
section
/-! SUPPORT. Tests of the well-formedness checks, of decoding by words written out from the encoding tables (spec/08_encodings.md), and
of single steps; and for every obligation with hypotheses a state and operands that meet them. SlotFormsCommitWhenReady and
EventsActWhenDue take their hypotheses from the statements about the same forms, so the states of those meet them. -/
namespace Sys2Proof.Tests
open Sys2Proof Sys2Proof.Machine
set_option Elab.async false

/-- The fields at the last values that R41 to R52 list are well formed. -/
theorem test_wf_accepts_1 : [
    .cmp ⟨0, 0, false, 0, false, 11⟩,
    .cmpi ⟨0, 0, false, 11, 0⟩,
    .getc ⟨0, 23⟩,
    .setc ⟨0, false, 23⟩,
    .vldl ⟨10, 0, 0, false, 0⟩,
    .vldlStream ⟨10, 0, 0⟩,
    .vldg ⟨10, 0, 0, false, 0, 0⟩,
    .vgath ⟨10, 0, 0, false, 0, false, 0⟩,
    .amo ⟨8, false, 0, 0, false, 0, false⟩,
    .radd ⟨3, 2, 0, false, 0, false⟩,
    .rowadd ⟨1, false, 0, false, 7⟩,
    .rowld ⟨1, 0, false, 7⟩,
    .phase ⟨4⟩,
    .vadd ⟨4, 0, 0, 0, false, 0, false, 0⟩,
    .vsub ⟨4, 0, 0, 0, false, 0, false, 0⟩,
    .vmul ⟨4, 0, 0, 0, false, 0, false, 0⟩,
    .vmulh ⟨4, 0, 0, 0, false, 0, false, 0⟩,
    .vmad ⟨4, 0, 0, 0, false, 0, false, 0, false⟩,
    .vand ⟨0, 0, 0, 0, false, 0, false, 0⟩,
    .vor ⟨0, 0, 0, 0, false, 0, false, 0⟩].all Instr.wf = true := by decide

/-- The fields at the last values that R41 to R52 list are well formed. -/
theorem test_wf_accepts_2 : [
    .vxor ⟨0, 0, 0, 0, false, 0, false, 0⟩,
    .vshl ⟨4, 0, 0, 0, false, 0, false, 0⟩,
    .vshr ⟨4, 0, 0, 0, false, 0, false, 0⟩,
    .vsar ⟨4, 0, 0, 0, false, 0, false, 0⟩,
    .vmin ⟨4, 0, 0, 0, false, 0, false, 0⟩,
    .vmax ⟨4, 0, 0, 0, false, 0, false, 0⟩,
    .vabs ⟨4, 0, 0, 0, false, 0⟩,
    .vwacc ⟨2, 0, 0, 0, false, 0, false, 0, false⟩,
    .vclmulLo ⟨0, 0, 0, 0, false, 0, false, 0⟩,
    .vclmulHi ⟨0, 0, 0, 0, false, 0, false, 0⟩,
    .vpopc ⟨0, 0, 0, 0, false, 0⟩,
    .vfadd ⟨6, 2, 0, 0, false, 0, false, 0⟩,
    .vfsub ⟨6, 2, 0, 0, false, 0, false, 0⟩,
    .vfmul ⟨6, 2, 0, 0, false, 0, false, 0⟩,
    .vfma ⟨6, 2, 0, 0, false, 0, false, 0, false⟩,
    .vfmin ⟨6, 0, 0, 0, false, 0, false, 0⟩,
    .vfmax ⟨6, 0, 0, 0, false, 0, false, 0⟩,
    .vfabs ⟨6, 0, 0, 0, false, 0⟩,
    .vfneg ⟨6, 0, 0, 0, false, 0⟩,
    .vfcmp ⟨6, 7, 0, 0, false, 0, false, 0⟩].all Instr.wf = true := by decide

/-- The fields at the last values that R41 to R52 list are well formed. -/
theorem test_wf_accepts_3 : [
    .vmcmp ⟨4, 9, 0, 0, false, 0, false, 0⟩,
    .vexp2 ⟨6, 0, 0, 0, false, 0⟩,
    .vlog2 ⟨6, 0, 0, 0, false, 0⟩,
    .vrcp ⟨6, 0, 0, 0, false, 0⟩,
    .vrsq ⟨6, 0, 0, 0, false, 0⟩,
    .vsqrt ⟨6, 0, 0, 0, false, 0⟩,
    .vcvt ⟨9, 2, 0, 0, false, 0⟩,
    .vscale ⟨6, 2, 0, 0, false, 0, false, 0⟩,
    .vpack ⟨9, 2, 0, 0, false, 0, false, 0⟩,
    .vunpack ⟨6, 0, 0, 0, false, 0⟩,
    .vtag ⟨10, 0, 0, 0, false, 0⟩,
    .vred ⟨1, 0, 0, 0, false, 5, 0⟩,
    .vscan ⟨1, 0, 0, 0, false, 2, 0⟩,
    .vsplat ⟨6, 0, 0, 0, false, 0⟩,
    .vsel ⟨0, 0, 0, 0, false, 0, false, 0⟩,
    .vlane ⟨0, 0, 0, 0, false, 0, false, 0⟩,
    .vchkf ⟨6, 0, false, 0⟩,
    .xshuf ⟨0, 0, false, 3⟩,
    .xrev ⟨0, 0, false, 6⟩,
    .wld ⟨0, 0, false, 9⟩].all Instr.wf = true := by decide

/-- The fields at the last values that R41 to R52 list are well formed. -/
theorem test_wf_accepts_4 : [
    .beat ⟨0, 0, 0, 5, false, false, false, 0⟩,
    .drain ⟨0, 0, 0, 6⟩,
    .foot ⟨0, false, 0, false, 3, false⟩,
    .tree ⟨13, 0, 0, 0, 0, 0, 0, 0, 0, 0⟩,
    .loop ⟨1, 0⟩,
    .loopr ⟨1, 0, false⟩,
    .call ⟨0, 1⟩].all Instr.wf = true := by decide

/-- A field at a value that R41 to R52 do not list is ill formed (R39). -/
theorem test_wf_refuses_1 : [
    .cmp ⟨0, 0, false, 0, false, 12⟩,
    .cmpi ⟨0, 0, false, 12, 0⟩,
    .getc ⟨0, 24⟩,
    .setc ⟨0, false, 24⟩,
    .vldl ⟨7, 0, 0, false, 0⟩,
    .vldl ⟨11, 0, 0, false, 0⟩,
    .vldlStream ⟨7, 0, 0⟩,
    .vldlStream ⟨11, 0, 0⟩,
    .vldg ⟨7, 0, 0, false, 0, 0⟩,
    .vldg ⟨11, 0, 0, false, 0, 0⟩,
    .vgath ⟨7, 0, 0, false, 0, false, 0⟩,
    .vgath ⟨11, 0, 0, false, 0, false, 0⟩,
    .amo ⟨9, false, 0, 0, false, 0, false⟩,
    .radd ⟨2, 2, 0, false, 0, false⟩,
    .radd ⟨7, 2, 0, false, 0, false⟩,
    .radd ⟨3, 3, 0, false, 0, false⟩,
    .rowadd ⟨1, false, 0, false, 8⟩,
    .rowld ⟨1, 0, false, 8⟩,
    .phase ⟨5⟩,
    .vadd ⟨0, 0, 0, 0, false, 0, false, 0⟩].any Instr.wf = false := by decide

/-- A field at a value that R41 to R52 do not list is ill formed (R39). -/
theorem test_wf_refuses_2 : [
    .vadd ⟨5, 0, 0, 0, false, 0, false, 0⟩,
    .vadd ⟨4, 1, 0, 0, false, 0, false, 0⟩,
    .vsub ⟨0, 0, 0, 0, false, 0, false, 0⟩,
    .vsub ⟨5, 0, 0, 0, false, 0, false, 0⟩,
    .vsub ⟨4, 1, 0, 0, false, 0, false, 0⟩,
    .vmul ⟨0, 0, 0, 0, false, 0, false, 0⟩,
    .vmul ⟨5, 0, 0, 0, false, 0, false, 0⟩,
    .vmul ⟨4, 1, 0, 0, false, 0, false, 0⟩,
    .vmulh ⟨0, 0, 0, 0, false, 0, false, 0⟩,
    .vmulh ⟨5, 0, 0, 0, false, 0, false, 0⟩,
    .vmulh ⟨4, 1, 0, 0, false, 0, false, 0⟩,
    .vmad ⟨0, 0, 0, 0, false, 0, false, 0, false⟩,
    .vmad ⟨5, 0, 0, 0, false, 0, false, 0, false⟩,
    .vmad ⟨4, 1, 0, 0, false, 0, false, 0, false⟩,
    .vand ⟨5, 0, 0, 0, false, 0, false, 0⟩,
    .vand ⟨0, 1, 0, 0, false, 0, false, 0⟩,
    .vor ⟨5, 0, 0, 0, false, 0, false, 0⟩,
    .vor ⟨0, 1, 0, 0, false, 0, false, 0⟩,
    .vxor ⟨5, 0, 0, 0, false, 0, false, 0⟩,
    .vxor ⟨0, 1, 0, 0, false, 0, false, 0⟩].any Instr.wf = false := by decide

/-- A field at a value that R41 to R52 do not list is ill formed (R39). -/
theorem test_wf_refuses_3 : [
    .vshl ⟨0, 0, 0, 0, false, 0, false, 0⟩,
    .vshl ⟨5, 0, 0, 0, false, 0, false, 0⟩,
    .vshl ⟨4, 1, 0, 0, false, 0, false, 0⟩,
    .vshr ⟨0, 0, 0, 0, false, 0, false, 0⟩,
    .vshr ⟨5, 0, 0, 0, false, 0, false, 0⟩,
    .vshr ⟨4, 1, 0, 0, false, 0, false, 0⟩,
    .vsar ⟨0, 0, 0, 0, false, 0, false, 0⟩,
    .vsar ⟨5, 0, 0, 0, false, 0, false, 0⟩,
    .vsar ⟨4, 1, 0, 0, false, 0, false, 0⟩,
    .vmin ⟨0, 0, 0, 0, false, 0, false, 0⟩,
    .vmin ⟨5, 0, 0, 0, false, 0, false, 0⟩,
    .vmin ⟨4, 1, 0, 0, false, 0, false, 0⟩,
    .vmax ⟨0, 0, 0, 0, false, 0, false, 0⟩,
    .vmax ⟨5, 0, 0, 0, false, 0, false, 0⟩,
    .vmax ⟨4, 1, 0, 0, false, 0, false, 0⟩,
    .vabs ⟨0, 0, 0, 0, false, 0⟩,
    .vabs ⟨5, 0, 0, 0, false, 0⟩,
    .vabs ⟨4, 1, 0, 0, false, 0⟩,
    .vwacc ⟨3, 0, 0, 0, false, 0, false, 0, false⟩,
    .vwacc ⟨2, 1, 0, 0, false, 0, false, 0, false⟩].any Instr.wf = false := by decide

/-- A field at a value that R41 to R52 do not list is ill formed (R39). -/
theorem test_wf_refuses_4 : [
    .vclmulLo ⟨1, 0, 0, 0, false, 0, false, 0⟩,
    .vclmulLo ⟨0, 1, 0, 0, false, 0, false, 0⟩,
    .vclmulHi ⟨1, 0, 0, 0, false, 0, false, 0⟩,
    .vclmulHi ⟨0, 1, 0, 0, false, 0, false, 0⟩,
    .vpopc ⟨1, 0, 0, 0, false, 0⟩,
    .vpopc ⟨0, 1, 0, 0, false, 0⟩,
    .vfadd ⟨4, 2, 0, 0, false, 0, false, 0⟩,
    .vfadd ⟨6, 3, 0, 0, false, 0, false, 0⟩,
    .vfsub ⟨4, 2, 0, 0, false, 0, false, 0⟩,
    .vfsub ⟨6, 3, 0, 0, false, 0, false, 0⟩,
    .vfmul ⟨4, 2, 0, 0, false, 0, false, 0⟩,
    .vfmul ⟨6, 3, 0, 0, false, 0, false, 0⟩,
    .vfma ⟨4, 2, 0, 0, false, 0, false, 0, false⟩,
    .vfma ⟨6, 3, 0, 0, false, 0, false, 0, false⟩,
    .vfmin ⟨4, 0, 0, 0, false, 0, false, 0⟩,
    .vfmin ⟨6, 1, 0, 0, false, 0, false, 0⟩,
    .vfmax ⟨4, 0, 0, 0, false, 0, false, 0⟩,
    .vfmax ⟨6, 1, 0, 0, false, 0, false, 0⟩,
    .vfabs ⟨4, 0, 0, 0, false, 0⟩,
    .vfabs ⟨6, 1, 0, 0, false, 0⟩].any Instr.wf = false := by decide

/-- A field at a value that R41 to R52 do not list is ill formed (R39). -/
theorem test_wf_refuses_5 : [
    .vfneg ⟨4, 0, 0, 0, false, 0⟩,
    .vfneg ⟨6, 1, 0, 0, false, 0⟩,
    .vfcmp ⟨4, 7, 0, 0, false, 0, false, 0⟩,
    .vfcmp ⟨6, 8, 0, 0, false, 0, false, 0⟩,
    .vmcmp ⟨0, 9, 0, 0, false, 0, false, 0⟩,
    .vmcmp ⟨5, 9, 0, 0, false, 0, false, 0⟩,
    .vmcmp ⟨4, 10, 0, 0, false, 0, false, 0⟩,
    .vexp2 ⟨4, 0, 0, 0, false, 0⟩,
    .vexp2 ⟨6, 1, 0, 0, false, 0⟩,
    .vlog2 ⟨4, 0, 0, 0, false, 0⟩,
    .vlog2 ⟨6, 1, 0, 0, false, 0⟩,
    .vrcp ⟨4, 0, 0, 0, false, 0⟩,
    .vrcp ⟨6, 1, 0, 0, false, 0⟩,
    .vrsq ⟨4, 0, 0, 0, false, 0⟩,
    .vrsq ⟨6, 1, 0, 0, false, 0⟩,
    .vsqrt ⟨4, 0, 0, 0, false, 0⟩,
    .vsqrt ⟨6, 1, 0, 0, false, 0⟩,
    .vcvt ⟨10, 2, 0, 0, false, 0⟩,
    .vcvt ⟨9, 3, 0, 0, false, 0⟩,
    .vscale ⟨4, 2, 0, 0, false, 0, false, 0⟩].any Instr.wf = false := by decide

/-- A field at a value that R41 to R52 do not list is ill formed (R39). -/
theorem test_wf_refuses_6 : [
    .vscale ⟨6, 3, 0, 0, false, 0, false, 0⟩,
    .vpack ⟨2, 2, 0, 0, false, 0, false, 0⟩,
    .vpack ⟨9, 3, 0, 0, false, 0, false, 0⟩,
    .vunpack ⟨1, 0, 0, 0, false, 0⟩,
    .vunpack ⟨6, 1, 0, 0, false, 0⟩,
    .vtag ⟨11, 0, 0, 0, false, 0⟩,
    .vtag ⟨10, 1, 0, 0, false, 0⟩,
    .vred ⟨0, 0, 0, 0, false, 5, 0⟩,
    .vred ⟨8, 0, 0, 0, false, 5, 0⟩,
    .vred ⟨1, 1, 0, 0, false, 5, 0⟩,
    .vred ⟨1, 0, 0, 0, false, 6, 0⟩,
    .vred ⟨5, 3, 0, 0, false, 5, 0⟩,
    .vred ⟨5, 0, 0, 0, false, 3, 0⟩,
    .vscan ⟨0, 0, 0, 0, false, 2, 0⟩,
    .vscan ⟨8, 0, 0, 0, false, 2, 0⟩,
    .vscan ⟨1, 1, 0, 0, false, 2, 0⟩,
    .vscan ⟨1, 0, 0, 0, false, 3, 0⟩,
    .vscan ⟨5, 3, 0, 0, false, 2, 0⟩,
    .vsplat ⟨7, 0, 0, 0, false, 0⟩,
    .vsplat ⟨6, 1, 0, 0, false, 0⟩].any Instr.wf = false := by decide

/-- A field at a value that R41 to R52 do not list is ill formed (R39). -/
theorem test_wf_refuses_7 : [
    .vsel ⟨1, 0, 0, 0, false, 0, false, 0⟩,
    .vsel ⟨0, 1, 0, 0, false, 0, false, 0⟩,
    .vlane ⟨1, 0, 0, 0, false, 0, false, 0⟩,
    .vlane ⟨0, 1, 0, 0, false, 0, false, 0⟩,
    .vchkf ⟨4, 0, false, 0⟩,
    .xshuf ⟨0, 0, false, 4⟩,
    .xrev ⟨0, 0, false, 0⟩,
    .xrev ⟨0, 0, false, 7⟩,
    .wld ⟨0, 0, false, 6⟩,
    .beat ⟨0, 0, 0, 0, false, false, false, 0⟩,
    .beat ⟨0, 0, 0, 5, true, false, false, 0⟩,
    .beat ⟨0, 0, 0, 5, false, false, false, 1⟩,
    .drain ⟨0, 0, 0, 2⟩,
    .foot ⟨0, false, 0, false, 4, false⟩,
    .tree ⟨14, 0, 0, 0, 0, 0, 0, 0, 0, 0⟩,
    .loop ⟨0, 0⟩,
    .loopr ⟨0, 0, false⟩,
    .call ⟨0, 0⟩].any Instr.wf = false := by decide


/-- R41, R78: PREP b1 to the unit 6 halfwords on, its word written out from the encoding tables. -/
theorem test_decode_prep_label : decodeClass .a 0x28800006 = some (.prepLabel ⟨1, 6⟩) ∧ encode (.prepLabel ⟨1, 6⟩) = some 0x28800006 := by decide
/-- R41: ADDI s6, s6, 1, its word written out from the encoding tables. -/
theorem test_decode_addi : decodeClass .a 0x0C61A001 = some (.addi ⟨6, 6, true, 1⟩) ∧ encode (.addi ⟨6, 6, true, 1⟩) = some 0x0C61A001 := by decide
/-- R44: LDL.i32 s5, [s8+12], its word written out from the encoding tables. -/
theorem test_decode_ldl : decodeClass .l 0x18511003 = some (.ldl ⟨2, 5, false, 8, true, 3⟩) ∧ encode (.ldl ⟨2, 5, false, 8, true, 3⟩) = some 0x18511003 := by decide
/-- R44: STL.i64 s6, [s9-16], its word written out from the encoding tables. -/
theorem test_decode_stl : decodeClass .l 0x2C693FFE = some (.stl ⟨3, 6, true, 9, true, 0xFFE⟩) ∧ encode (.stl ⟨3, 6, true, 9, true, 0xFFE⟩) = some 0x2C693FFE := by decide
/-- R44: VLDL.f32 v4, q3, its word written out from the encoding tables. -/
theorem test_decode_vldl : decodeClass .l 0x36121800 = some (.vldlStream ⟨6, 4, 3⟩) ∧ encode (.vldlStream ⟨6, 4, 3⟩) = some 0x36121800 := by decide
/-- R44: VSTL v7, [s8+0], m0, its word written out from the encoding tables. -/
theorem test_decode_vstl : decodeClass .l 0x411C4400 = some (.vstl ⟨0, true, 7, 8, true, 0⟩) ∧ encode (.vstl ⟨0, true, 7, 8, true, 0⟩) = some 0x411C4400 := by decide
/-- R45: LDG.i64 s10, [s12+64], its word written out from the encoding tables. -/
theorem test_decode_ldg : decodeClass .g 0x0E28C808 = some (.ldg ⟨3, false, 10, 12, true, 8⟩) ∧ encode (.ldg ⟨3, false, 10, 12, true, 8⟩) = some 0x0E28C808 := by decide
/-- R45: VGATH.f32 v20, [s12], v21, m2, its word written out from the encoding tables. -/
theorem test_decode_vgath : decodeClass .g 0x2B28655A = some (.vgath ⟨6, 20, 12, true, 21, true, 2⟩) ∧ encode (.vgath ⟨6, 20, 12, true, 21, true, 2⟩) = some 0x2B28655A := by decide
/-- R45: AMO.add.i64 s5, [s12], s6, its word written out from the encoding tables. -/
theorem test_decode_amo : decodeClass .g 0x38C53234 = some (.amo ⟨1, true, 5, 12, true, 6, true⟩) ∧ encode (.amo ⟨1, true, 5, 12, true, 6, true⟩) = some 0x38C53234 := by decide
/-- R45, R222: PHASE.core, its word written out from the encoding tables. -/
theorem test_decode_phase : decodeClass .g 0x78000000 = some (.phase ⟨0⟩) ∧ encode (.phase ⟨0⟩) = some 0x78000000 := by decide
/-- R46, R47: VSCALE.bf16.rne v5, v4, v6, its word written out from the encoding tables. -/
theorem test_decode_vscale : decodeClass .v 0x9941448D0 = some (.vscale ⟨5, 0, 5, 4, true, 6, true, 0⟩) ∧ encode (.vscale ⟨5, 0, 5, 4, true, 6, true, 0⟩) = some 0x9941448D0 := by decide
/-- R46, R47: VPACK.pw8 v7, v5, v5, its word written out from the encoding tables. -/
theorem test_decode_vpack : decodeClass .v 0x9E01C58B0 = some (.vpack ⟨8, 0, 7, 5, true, 5, true, 0⟩) ∧ encode (.vpack ⟨8, 0, 7, 5, true, 5, true, 0⟩) = some 0x9E01C58B0 := by decide
/-- R47, R156: VSPLAT.i8 v6, s5, its word written out from the encoding tables. -/
theorem test_decode_vsplat : decodeClass .v 0xB04185800 = some (.vsplat ⟨1, 0, 6, 5, true, 0⟩) ∧ encode (.vsplat ⟨1, 0, 6, 5, true, 0⟩) = some 0xB04185800 := by decide
/-- R47: VTAG.e8 v6, v6, its word written out from the encoding tables. -/
theorem test_decode_vtag : decodeClass .v 0xA68186800 = some (.vtag ⟨10, 0, 6, 6, true, 0⟩) ∧ encode (.vtag ⟨10, 0, 6, 6, true, 0⟩) = some 0xA68186800 := by decide
/-- R47: VWACC.i8 v12, v4, v5, its word written out from the encoding tables. -/
theorem test_decode_vwacc : decodeClass .v 0x3C43048B1 = some (.vwacc ⟨1, 0, 12, 4, true, 5, true, 0, true⟩) ∧ encode (.vwacc ⟨1, 0, 12, 4, true, 5, true, 0, true⟩) = some 0x3C43048B1 := by decide
/-- R47, R48: VMCMP.lt.i32 m3, v4, v5, m2, its word written out from the encoding tables. -/
theorem test_decode_vmcmp : decodeClass .v 0x70C8C48B4 = some (.vmcmp ⟨3, 2, 3, 4, true, 5, true, 2⟩) ∧ encode (.vmcmp ⟨3, 2, 3, 4, true, 5, true, 2⟩) = some 0x70C8C48B4 := by decide
/-- R49: XROT v9, v3, 5, its word written out from the encoding tables. -/
theorem test_decode_xrot : decodeClass .x 0x448714 = some (.xrot ⟨9, 3, true, 5⟩) ∧ encode (.xrot ⟨9, 3, true, 5⟩) = some 0x448714 := by decide
/-- R49: XPERM v10, v3, v7, its word written out from the encoding tables. -/
theorem test_decode_xperm : decodeClass .x 0x25071E = some (.xperm ⟨10, 3, true, 7, true⟩) ∧ encode (.xperm ⟨10, 3, true, 7, true⟩) = some 0x25071E := by decide
/-- R50, R169: WLD.pw8 s4, 256, its word written out from the encoding tables. -/
theorem test_decode_wld : decodeClass .t 0x14004C00 = some (.wld ⟨256, 4, true, 8⟩) ∧ encode (.wld ⟨256, 4, true, 8⟩) = some 0x14004C00 := by decide
/-- R50, R170: BEAT.MULADD.i8 z0, q2, q3, its word written out from the encoding tables. -/
theorem test_decode_beat_scaled : decodeClass .t 0x20212600 = some (.beat ⟨0, 0, 2, 1, false, false, true, 3⟩) ∧ encode (.beat ⟨0, 0, 2, 1, false, false, true, 3⟩) = some 0x20212600 := by decide
/-- R50, R170: BEAT.ABSDIFFADD.i8.int.zero z0, q4, its word written out from the encoding tables. -/
theorem test_decode_beat_int : decodeClass .t 0x2141C000 = some (.beat ⟨0, 1, 4, 1, true, true, false, 0⟩) ∧ encode (.beat ⟨0, 1, 4, 1, true, true, false, 0⟩) = some 0x2141C000 := by decide
/-- R50, R176: DRAIN.f32 v9, z1, 12, its word written out from the encoding tables. -/
theorem test_decode_drain : decodeClass .t 0x34931800 = some (.drain ⟨1, 9, 12, 6⟩) ∧ encode (.drain ⟨1, 9, 12, 6⟩) = some 0x34931800 := by decide
/-- R50: ZCLR z2, its word written out from the encoding tables. -/
theorem test_decode_zclr : decodeClass .t 0x48000000 = some (.zclr ⟨2⟩) ∧ encode (.zclr ⟨2⟩) = some 0x48000000 := by decide
/-- R50: ZROT z0, 48, its word written out from the encoding tables. -/
theorem test_decode_zrot : decodeClass .t 0x53000000 = some (.zrot ⟨0, 48⟩) ∧ encode (.zrot ⟨0, 48⟩) = some 0x53000000 := by decide
/-- R50: ZSPILL z3, q5, its word written out from the encoding tables. -/
theorem test_decode_zspill : decodeClass .t 0x6D400000 = some (.zspill ⟨3, 5⟩) ∧ encode (.zspill ⟨3, 5⟩) = some 0x6D400000 := by decide
/-- R50: ZFILL z3, q5, its word written out from the encoding tables. -/
theorem test_decode_zfill : decodeClass .t 0x7D400000 = some (.zfill ⟨3, 5⟩) ∧ encode (.zfill ⟨3, 5⟩) = some 0x7D400000 := by decide
/-- R51: TQPUSH s6, its word written out from the encoding tables. -/
theorem test_decode_tqpush : decodeClass .e 0x180D0000 = some (.tqpush ⟨6, true⟩) ∧ encode (.tqpush ⟨6, true⟩) = some 0x180D0000 := by decide
/-- R51: TQPOP s7, its word written out from the encoding tables. -/
theorem test_decode_tqpop : decodeClass .e 0x200F0000 = some (.tqpop ⟨7, true⟩) ∧ encode (.tqpop ⟨7, true⟩) = some 0x200F0000 := by decide
/-- R51: PANCFG j2, s4, its word written out from the encoding tables. -/
theorem test_decode_pancfg : decodeClass .e 0x71090000 = some (.pancfg ⟨2, 4, true⟩) ∧ encode (.pancfg ⟨2, 4, true⟩) = some 0x71090000 := by decide
/-- R52, R80: a TREE of shape 0, its word written out from the encoding tables. -/
theorem test_decode_tree : decodeClass .b 0x202040828800 = some (.tree ⟨0, 4, 2, 1, 1, 2, 1, 0, 0, 0⟩) ∧ encode (.tree ⟨0, 4, 2, 1, 1, 2, 1, 0, 0, 0⟩) = some 0x202040828800 := by decide
/-- R52: LOOPR 2, s9, its word written out from the encoding tables. -/
theorem test_decode_loopr : decodeClass .b 0x60044C000000 = some (.loopr ⟨2, 9, true⟩) ∧ encode (.loopr ⟨2, 9, true⟩) = some 0x60044C000000 := by decide
/-- R52, R323: TRAP 7, its word written out from the encoding tables. -/
theorem test_decode_trap : decodeClass .b 0x0A0E00000000 = some (.trap ⟨7⟩) ∧ encode (.trap ⟨7⟩) = some 0x0A0E00000000 := by decide
/-- R321: RTE, its word written out from the encoding tables. -/
theorem test_decode_rte : decodeClass .b 0x0C0000000000 = some (.rte) ∧ encode (.rte) = some 0x0C0000000000 := by decide
/-- R25: REPEAT with the count field 5, its word written out from the encoding tables. -/
theorem test_decode_repeat : decodeClass .c 0xF005 = some (.repeat ⟨5⟩) ∧ encode (.repeat ⟨5⟩) = some 0xF005 := by decide
/-- Reserved words are refused (R39). -/
theorem test_decode_refuses : decodeClass .a 0x0403FFFF = none ∧ decodeClass .l 0xF0000000 = none ∧ decodeClass .b 0x0C0000000001 = none ∧ decodeClass .e 0x180D0001 = none ∧ decodeClass .c 0xF100 = none ∧ decodeClass .b 0x3C0000000000 = none := by decide

/-! Small states for the tests and the witnesses. -/

/-- Core 0 has a bundle open, with its registers and L as they stand; the module is otherwise as after reset. -/
def tst (f : Core → Core) (g : State → State) : State :=
  g { State.reset with
    cores := State.reset.cores.set 0 (f Core.reset), boot := { State.reset.boot with st := 2 }
    iss := { Issue.reset with act := true, regs := (f Core.reset).regs, l := (f Core.reset).l } }
/-- A scalar holds a value. -/
def sv (n : BitVec 6) (x : W64) (k : Core) : Core := k.setS n ⟨x, true⟩
/-- A v register holds bits under a tag. -/
def vv (n : BitVec 6) (x : VBits) (t : Tag) (k : Core) : Core := k.setV n ⟨x, t, true⟩
/-- Partition 0 holds core 0 and uses VF 0; the root table of its second stage, at 0x10000, leads by the table at 0x20000 to a leaf that
maps the lowest intermediate addresses to themselves. -/
def parted (s : State) : State :=
  { s with
    parts := s.parts.set 0 { Part.reset with exist := true, mask := 1, s2root := 0x10001 }
    vfs := s.vfs.set 0 { Vf.reset with bound := some 0 }
    mem := [⟨0x10000, 0x07⟩, ⟨0x10002, 0x02⟩, ⟨0x20000, 0x05⟩]
    pubs := [⟨.host 0, BitVec.allOnes 64, 0, [(0x10000, 0x07), (0x10002, 0x02), (0x20000, 0x05)]⟩] }
/-- Every word of L is declared to each class of engine. -/
def footAll : List FootE := [⟨0, true, 0, 8388607⟩, ⟨1, true, 0, 8388607⟩, ⟨2, true, 0, 8388607⟩, ⟨3, true, 0, 8388607⟩]


/-- A slot of any instruction is ready in a state whose registers are full and that has nothing in flight. -/
theorem ready_of (i : Instr) (s : State) (ha : s.iss.act = true) (hs : ∀ n, fullS s.iss.regs n = true) (hv : ∀ n, (rdV s.iss.regs n).full = true)
    (hp : (me s).pend = []) : Ready i s := by
  refine ⟨ha, ?_, ?_⟩
  · rw [List.any_eq_false]
    rintro ⟨r, w⟩ _
    cases r <;> simp [emptyReg, hs, hv]
  · rw [List.any_eq_false]
    intro r _
    simp [pendingDst, hp]
/-- Every instruction of a slot, whatever its operands, is ready somewhere: the hypothesis that a slot is ready is met. -/
theorem witness_every_slot_is_ready (i : Instr) : Ready i (tst id id) :=
  ready_of i _ rfl (by decide) (by decide) rfl
/-- The last listed conditions of compares, and the last listed numbers of the other fields that a statement bounds. -/
theorem witness_listed_fields : (11 : BitVec 4).toNat < 12 ∧ (9 : BitVec 4).toNat < 10 ∧ (7 : BitVec 4).toNat < 8 ∧ (3 : BitVec 4).toNat < 4 := by decide
/-- A TREE whose taken leaf names b0, and one whose last leaf names b7. -/
theorem witness_tree_leaves : treeTarget ⟨0, 0, 0, 0, 0, 0, 1, 1, 1, 1⟩ (tst id id).iss.leaf.toNat = 0 ∧
    treeTarget ⟨0, 0, 0, 0, 0, 1, 0, 0, 0, 0⟩ (tst id id).iss.leaf.toNat ≠ 0 ∧
    treeTarget ⟨13, 0, 0, 0, 0, 0, 0, 0, 0, 7⟩ (tst id (fun s => { s with iss := { s.iss with leaf := 4 } })).iss.leaf.toNat ≠ 0 := by decide
/-- A core whose code segment has two units, with some loop levels active. -/
def looping (n : Nat) : State :=
  tst (fun k => { k with code := [0, 0], loops := Vector.ofFn (fun i => if i.val < n then ⟨2, true, 0⟩ else Loop.reset) }) id
/-- A body of one unit and of two is found and one of three is not; three levels leave room and four do not. -/
theorem witness_loops : nthUnit (me (looping 3)).code 1 (fallOf (looping 3)).toNat = some 0 ∧
    nthUnit (me (looping 3)).code 2 (fallOf (looping 3)).toNat = some 1 ∧ nthUnit (me (looping 3)).code 3 (fallOf (looping 3)).toNat = none ∧
    activeLoops (me (looping 3)) < 4 ∧ 4 ≤ activeLoops (me (looping 4)) ∧ Ready (.loop ⟨1, 0⟩) (looping 4) ∧ Ready (.loopr ⟨1, 2, true⟩) (looping 3) :=
  ⟨by decide, by decide, by decide, by decide, by decide, ready_of _ _ rfl (by decide) (by decide) rfl, ready_of _ _ rfl (by decide) (by decide) rfl⟩
/-- A bundle under SAFE and one without, outside a handler. -/
theorem witness_suspends : bundleSafe (tst id (fun s => { s with iss := { s.iss with bundle := BitVec.ofNat 384 0x200000000000 } })).iss.bundle = true ∧
    bundleSafe (tst id id).iss.bundle = false ∧ (me (tst id id)).h = false := by decide
/-- A core with a trap entry that waits for nothing. -/
theorem witness_trap : (me (tst (fun k => { k with trapEntry := some 5 }) id)).h = false ∧
    (me (tst (fun k => { k with trapEntry := some 5 }) id)).trapEntry.isSome = true ∧
    trapReady (me (tst (fun k => { k with trapEntry := some 5 }) id)) = true := by decide
/-- A core outside a handler, and one in a handler with the loops of its entry and nothing held. -/
theorem witness_rte : (me (tst id id)).h = false ∧ (me (tst (fun k => { k with h := true }) id)).h = true ∧
    activeLoops (me (tst (fun k => { k with h := true }) id)) = (me (tst (fun k => { k with h := true }) id)).lbase.toNat ∧
    (me (tst (fun k => { k with h := true }) id)).failed = [] ∧ (me (tst (fun k => { k with h := true }) id)).pend = [] ∧
    (me (tst (fun k => { k with h := true }) id)).posts = [] := by decide

/-- Scalars at the ends of L and of G. -/
def ends : State := tst (fun k => sv 2 8388607 (sv 3 8388600 (sv 4 8388352 (sv 5 8388608 (sv 6 0x10000000000000 (sv 7 1 k)))))) id
/-- The last byte of L, its last 8 bytes and its last 256 bytes. -/
theorem witness_local_accesses : eaddr ends 2 (0 : BitVec 12) (szBytes 0) = 8388607 ∧ 8388607 % szBytes 0 = 0 ∧ 8388607 + szBytes 0 ≤ 8388608 ∧
    rangeHit (me ends) false 8388607 (szBytes 0) = false ∧ eaddr ends 3 (0 : BitVec 12) (szBytes 3) = 8388600 ∧ 8388600 % szBytes 3 = 0 ∧
    8388600 + szBytes 3 ≤ 8388608 ∧ rangeHit (me ends) true 8388600 (szBytes 3) = false ∧ eaddr ends 4 (0 : BitVec 10) 256 = 8388352 ∧
    8388352 % 32 = 0 ∧ 8388352 + 256 ≤ 8388608 ∧ rangeHit (me ends) false 8388352 256 = false ∧ rangeHit (me ends) true 8388352 256 = false := by decide
/-- An odd address of two bytes; the first address past L, and the one before its first byte; the first address past G. -/
theorem witness_access_traps : ¬ eaddr ends 7 (0 : BitVec 12) (szBytes 1) % (szBytes 1 : Nat) = 0 ∧
    eaddr ends 5 (0 : BitVec 12) (szBytes 0) % (szBytes 0 : Nat) = 0 ∧ 8388608 < eaddr ends 5 (0 : BitVec 12) (szBytes 0) + (szBytes 0 : Nat) ∧
    eaddr ends 8 (0xFFF : BitVec 12) (szBytes 3) % (szBytes 3 : Nat) = 0 ∧ eaddr ends 8 (0xFFF : BitVec 12) (szBytes 3) < 0 ∧
    ¬ eaddr ends 7 (0 : BitVec 11) (szBytes 3) % (szBytes 3 : Nat) = 0 ∧ eaddr ends 6 (0 : BitVec 11) (szBytes 3) % (szBytes 3 : Nat) = 0 ∧
    4503599627370496 ≤ gAddr (eaddr ends 6 (0 : BitVec 11) (szBytes 3)) := by decide

/-- Stream register q1 reads a pattern and q2 writes it, at a position; q3 is unbound. -/
def streamed (desc : BitVec 256) (pos : BitVec 49) (f : Core → Core) : State :=
  tst (fun k => f ((k.setQ 1 ⟨true, false, desc, pos, false⟩).setQ 2 ⟨true, true, desc, pos, false⟩)) id
/-- One element of 256 bytes at 0 under the tag NONE; the same with WRAP. -/
def oneElem : BitVec 256 := 0x3800000
def oneWrap : BitVec 256 := 0x103800000
/-- A valid descriptor in the last 32 bytes of L. -/
theorem witness_bind : (srcS (tst (sv 2 8388576) id) 2).toNat % 32 = 0 ∧ (srcS (tst (sv 2 8388576) id) 2).toNat + 32 ≤ 8388608 ∧
    (descOf (BitVec.ofNat 256 ((tst (sv 2 8388576) id).iss.l.rdN (srcS (tst (sv 2 8388576) id) 2).toNat 32))).valid = true ∧
    rangeHit (me (tst (sv 2 8388576) id)) false (srcS (tst (sv 2 8388576) id) 2).toNat 32 = false := by decide
/-- A skip to the very end of a pattern, one of a wrapping pattern, an unbound register, and a count of what is left. -/
theorem witness_skips : (qOf (streamed oneElem 0 (sv 2 1)) 1).bound = true ∧
    (qOf (streamed oneElem 0 (sv 2 1)) 1).pos.toNat + 1 ≤ (descOf (qOf (streamed oneElem 0 (sv 2 1)) 1).desc).total ∧
    1 = (srcS (streamed oneElem 0 (sv 2 1)) 2).toNat % 281474976710656 ∧ (descOf (qOf (streamed oneWrap 0 id) 1).desc).wrap = true ∧
    (qOf (streamed oneElem 0 id) 3).bound = false ∧
    (qOf (streamed oneElem 1 id) 1).pos.toNat ≤ (descOf (qOf (streamed oneElem 1 id) 1).desc).total ∧
    (descOf (qOf (streamed oneElem 1 id) 1).desc).total < 281474976710656 + (qOf (streamed oneElem 1 id) 1).pos.toNat := by decide
/-- The one element of a stream, for a load and for a store, and the end of the pattern. -/
theorem witness_stream_vectors : (qOf (streamed oneElem 0 id) 1).bound = true ∧ (descOf oneElem).len = 256 ∧ (descOf oneElem).wrap = false ∧
    (qOf (streamed oneElem 0 id) 1).desc = oneElem ∧ (qOf (streamed oneElem 0 id) 2).desc = oneElem ∧
    (qOf (streamed oneElem 0 id) 1).wr = false ∧ (qOf (streamed oneElem 0 id) 2).wr = true ∧ (descOf oneElem).tag = (0 : BitVec 4).toNat ∧
    (descOf oneElem).tag = (srcV (streamed oneElem 0 id) 3).tag.toNat ∧ (qOf (streamed oneElem 0 id) 1).pos.toNat + 1 ≤ (descOf oneElem).total ∧
    rangeHit (me (streamed oneElem 0 id)) false 0 256 = false ∧ rangeHit (me (streamed oneElem 0 id)) true 0 256 = false ∧
    (descOf oneElem).total < (qOf (streamed oneElem 1 id) 1).pos.toNat + 1 := by decide


/-- Scalars, and v registers of addresses, for accesses to a page that translates to itself. -/
def mapped : State := tst (fun k => sv 2 0x1000 (sv 3 0x7FE0 (vv 4 0 3 (vv 5 0 5 (vv 6 0 5 k))))) parted
/-- A load, a store and an atomic of an aligned word have no fault, the page translates, and its columns are correct. -/
theorem witness_global_scalars : lanesFault mapped wLoad (szBytes 3) (szBytes 3) false [(0, eaddr mapped 2 (0 : BitVec 11) (szBytes 3))] = none ∧
    lanesFault mapped wStore (szBytes 0) (szBytes 0) false [(0, eaddr mapped 2 (1 : BitVec 11) (szBytes 0))] = none ∧
    lanesFault mapped wAmo (amoBytes true) (amoBytes true) false [(0, ((srcS mapped 2).toNat : Int))] = none ∧
    lanesFault mapped wAmo (amoBytes false) (amoBytes false) false [(0, ((srcS mapped 2).toNat : Int))] = none ∧
    xlMe mapped (gAddr (eaddr mapped 2 (0 : BitVec 11) (szBytes 3))) false = .ok 0x1000 ∧
    xlMe mapped (gAddr (eaddr mapped 2 (0 : BitVec 11) (szBytes 3))) true = .ok 0x1000 ∧ badColumn mapped 0x1000 (szBytes 3) = none ∧
    (∀ w ∈ (me mapped).own, w.seq < (me mapped).seq) ∧ Ready (.ldg ⟨3, false, 9, 2, true, 0⟩) mapped :=
  ⟨by decide, by decide, by decide, by decide, by decide, by decide, by decide, by decide, ready_of _ _ rfl (by decide) (by decide) rfl⟩
/-- All lanes, and no lane, of vector accesses to that page. -/
theorem witness_global_vectors : lanesOn (srcM mapped 0) ≠ [] ∧ lanesOn (srcM mapped 1) = [] ∧ (srcV mapped 4).tag = 3 ∧
    vecFault mapped wLoad (eaddr mapped 2 (0 : BitVec 7) 256) (lanesOn (srcM mapped 0)) = none ∧
    gathFault mapped wLoad 2 4 (lanesOn (srcM mapped 0)) = none ∧
    vecFault mapped wStore (eaddr mapped 2 (0 : BitVec 10) 256) (lanesOn (srcM mapped 0)) = none ∧
    gathFault mapped wStore 2 4 (lanesOn (srcM mapped 0)) = none := by decide +kernel
/-- A RADD, and rows of one column and of sixteen, of registers that hold BF16; and a register of another tag. -/
theorem witness_reductions : lanesFault mapped wRadd (raddBytes 4) (raddBytes 4) false [(0, ((srcS mapped 2).toNat : Int))] = none ∧
    rowTagFault mapped 5 0 = false ∧ rowFault mapped wRowadd 3 0 = none ∧ rowTagFault mapped 6 8 = true ∧
    rowTagFault mapped 4 0 = true ∧ rowFault mapped wRowld 2 15 = none := by decide

/-- Partition 0 has a region of one member word of Q15.16 at virtual address 0x10000, on the page that translates to itself. -/
def aRegion : Region := ⟨7, 0, 0x10000, [(0x10000, 4)], BitVec.ofNat 512 0x10000, [], 0, [], [], [], [⟨[⟨0, 0, 0, [], 0, 0⟩], 0, 0, 0, false⟩], false⟩
/-- The same with a row of 512 bytes of BF16. -/
def rowRegion : Region := { aRegion with
  desc := BitVec.ofNat 512 (0x10000 + 2 ^ 64 * (2 ^ 24 + 15 * 2 ^ 25 + 2 * 2 ^ 29)), locs := [(0x10000, 512)],
  membs := [⟨List.replicate 256 ⟨0, 0, 0, [], 0, 0⟩, 0, 0, 0, false⟩] }
def panned (r : Region) : State := tst (fun k => sv 2 0x10000 (sv 3 0x1000 (vv 4 0 3 (vv 8 0 5 (vv 9 0 5 k))))) (fun s => { parted s with regions := [r] })
/-- The first member of a region for a scalar sample and for each tap; a row's pair of registers; and a base outside every region. -/
theorem witness_pans : panFind (panned aRegion) true (srcS (panned aRegion) 2).toNat = .at_ aRegion 0 ∧ panFind (panned aRegion) false (srcS (panned aRegion) 2).toNat = .at_ aRegion 0 ∧
    panFault (panned aRegion) (psmpS ⟨5, true, 2, true, 0⟩) 2 (0 : BitVec 12) = none ∧ panStall (panned aRegion) (psmpS ⟨5, true, 2, true, 0⟩) 2 = false ∧
    panFault (panned rowRegion) (psmpV ⟨8, true, 2, true, 0⟩) 2 (0 : BitVec 12) = none ∧
    panStall (panned rowRegion) (psmpV ⟨8, true, 2, true, 0⟩) 2 = false ∧ (panDesc rowRegion.desc).long = true ∧
    panFind (panned rowRegion) true (srcS (panned rowRegion) 2).toNat = .at_ rowRegion 0 ∧ panFind (panned rowRegion) false (srcS (panned rowRegion) 2).toNat = .at_ rowRegion 0 ∧
    (rdV (panned rowRegion).iss.regs (vNext 8)).full = true ∧
    panFault (panned aRegion) (ptapS ⟨5, 0, 2, true, 0⟩) 2 (0 : BitVec 11) = none ∧ panStall (panned aRegion) (ptapS ⟨5, 0, 2, true, 0⟩) 2 = false ∧
    panFault (panned rowRegion) (ptapV ⟨8, 0, 2, true, 0⟩) 2 (0 : BitVec 11) = none ∧ panStall (panned rowRegion) (ptapV ⟨8, 0, 2, true, 0⟩) 2 = false ∧
    panFind (panned aRegion) true (srcS (panned aRegion) 3).toNat = .none ∧ panFind (panned aRegion) false (srcS (panned aRegion) 3).toNat = .none := by decide +kernel
/-- PTAPS and RTAP of the same member. -/
theorem witness_tap_forms : panFault (panned aRegion) (ptapsOp ⟨5, 2, true, 0⟩) 2 (0 : BitVec 11) = none ∧
    panStall (panned aRegion) (ptapsOp ⟨5, 2, true, 0⟩) 2 = false ∧ panFault (panned aRegion) (rtapS ⟨5, 6, 2, true, 0⟩) 2 (0 : BitVec 7) = none ∧
    panStall (panned aRegion) (rtapS ⟨5, 6, 2, true, 0⟩) 2 = false ∧ panFault (panned rowRegion) (rtapV ⟨8, 6, 2, true, 0⟩) 2 (0 : BitVec 7) = none ∧
    panStall (panned rowRegion) (rtapV ⟨8, 6, 2, true, 0⟩) 2 = false := by decide +kernel
/-- A PHASE with nothing to wait for. -/
theorem witness_phase : phaseStall mapped = false := by decide

/-- L declared whole to every engine, with a block of zeros, or one of a collective on F32, at address 0. -/
def blocked (l : Mem) : State := tst (fun k => { sv 2 0 (sv 3 0x20 k) with foot := footAll, l := l }) parted
def cflL : Mem := [⟨28, 6⟩]
/-- The blocks of all commands pass their checks and have room. -/
theorem witness_commands : (∀ op ∈ [0x01, 0x02, 0x05, 0x06, 0x07, 0x0C, 0x0D], cmdFault (blocked []) op (srcS (blocked []) 2).toNat = none ∧
      cmdStall (blocked []) op (srcS (blocked []) 2).toNat = false) ∧
    (∀ op ∈ [0x08, 0x09, 0x0A, 0x0B], cmdFault (blocked cflL) op (srcS (blocked cflL) 2).toNat = none ∧
      cmdStall (blocked cflL) op (srcS (blocked cflL) 2).toNat = false) ∧
    (srcS (tst (sv 2 31) id) 2).toNat % 32 ≠ 0 ∧ (srcS (blocked []) 3).toNat % 64 ≠ 0 := by decide +kernel
/-- The transpose queue with room and full, four cycles after the last push, and with a tile that is 40 cycles old. -/
def queued (n : Nat) : State := tst (fun k => { sv 2 8386560 k with
  foot := footAll, tq := List.replicate n ⟨0, 0⟩, tqAt := some 36 }) (fun s => { s with iss := { s.iss with t := 40 } })
theorem witness_transposes : (srcS (queued 7) 2).toNat % 64 = 0 ∧ (srcS (queued 7) 2).toNat + 2048 ≤ 8388608 ∧
    footCovers (me (queued 7)).foot 2 false 8386560 (8386560 + 2047) = true ∧ footCovers (me (queued 7)).foot 2 true 8386560 (8386560 + 2047) = true ∧
    (me (queued 7)).tq.length < 8 ∧ (∀ c ∈ (me (queued 7)).tqAt, c + 4 ≤ (queued 7).iss.t) ∧ 8 ≤ (me (queued 8)).tq.length ∧
    (me (queued 1)).tq = [⟨0, 0⟩] ∧ (⟨0, 0⟩ : TqE).at_ + 40 ≤ (queued 1).iss.t ∧ (me (queued 1)).ranges.length < 64 ∧
    rangeHit (me (queued 7)) false 8386560 2048 = false ∧ rangeHit (me (queued 1)) true 8386560 2048 = false := by decide +kernel
/-- A footprint entry at the end of L beside one of another engine, an empty one, and tickets of each state. -/
def ticketed : State := tst (fun k => { sv 2 8388600 (sv 3 8 (sv 4 0 k)) with
  foot := [⟨1, true, 0, 8388599⟩], j := ((k.j.set 1 ⟨.pending, 1, 0, false, false, 0⟩).set 2 ⟨.failed, 0, 0x20, false, true, 64⟩).set 3 ⟨.done, 0, 0, false, false, 0⟩ }) id
theorem witness_foot_and_tickets : (srcS ticketed 3).toNat ≠ 0 ∧ (srcS ticketed 2).toNat + (srcS ticketed 3).toNat ≤ 8388608 ∧
    (me ticketed).foot.length < 32 ∧ (∀ e ∈ (me ticketed).foot, e.eng ≠ 0 → (srcS ticketed 2).toNat + (srcS ticketed 3).toNat ≤ e.lo ∨
      e.hi < (srcS ticketed 2).toNat ∨ (true = false ∧ e.wr = false)) ∧ (srcS ticketed 4).toNat = 0 ∧ (jOf ticketed 0).st ≠ .pending ∧
    (jOf ticketed 0).st ≠ .failed ∧ (jOf ticketed 1).st = .pending ∧ (jOf ticketed 2).st = .failed ∧ (jOf ticketed 3).st ≠ .pending := by decide
/-- A group record on the page that translates, for a task of that group and for one of another. -/
def grouped (g : Option Nat) : State := tst (fun k => { sv 2 0x1000 k with group := g }) parted
theorem witness_groups : (srcS (grouped none) 2).toNat % 64 = 0 ∧ (srcS (grouped none) 2).toNat < 4503599627370496 ∧ phaseStall (grouped none) = false ∧
    (grouped none).cmds.countP (fun k => k.core == (grouped none).iss.core) < 64 ∧ grpFault (grouped none) (srcS (grouped none) 2).toNat = none ∧
    grpMiss (grouped none) (srcS (grouped none) 2).toNat = false ∧ joinPending (me (grouped none)) = false ∧
    (me (grouped none)).group ≠ some (srcS (grouped none) 2).toNat ∧ (me (grouped (some 0x1000))).group = some (srcS (grouped (some 0x1000)) 2).toNat ∧
    (partOf (grouped none) (grouped none).iss.core).isSome = true ∧ grpXlate (grouped (some 0x1000)) (srcS (grouped (some 0x1000)) 2).toNat = none ∧
    grpMiss (grouped (some 0x1000)) (srcS (grouped (some 0x1000)) 2).toNat = false ∧ joinPending (me (grouped (some 0x1000))) = false ∧ barFault (grouped (some 0x1000)) (srcS (grouped (some 0x1000)) 2).toNat = none ∧
    (me (tst (fun k => { k with h := true }) id)).h = true := by decide
/-- A descriptor of a region of one word at 0, one that releases a region, one at a misaligned address, and a region with room for a TICK. -/
def configured (l : Mem) (rs : List Region) : State := tst (fun k => { sv 2 0 (sv 3 0x20 (sv 4 0x10000 k)) with l := l }) (fun s => { parted s with regions := rs })
theorem witness_regions : pancfgFault (configured [] []) (srcS (configured [] []) 2).toNat = none ∧
    pancfgStall (configured [] []) (srcS (configured [] []) 2).toNat = false ∧ (panDesc (0 : BitVec 512)).rel = false ∧
    pancfgFault (configured [⟨2, 1⟩, ⟨56, 1⟩] [aRegion]) 0 = none ∧ pancfgStall (configured [⟨2, 1⟩, ⟨56, 1⟩] [aRegion]) 0 = false ∧
    (panDesc (BitVec.ofNat 512 ((me (configured [⟨2, 1⟩, ⟨56, 1⟩] [aRegion])).l.rdN 0 64))).rel = true ∧
    (srcS (configured [] []) 3).toNat % 64 ≠ 0 ∧ regionBase (configured [] [aRegion]) (srcS (configured [] [aRegion]) 4).toNat = some aRegion ∧
    (configured [] [aRegion]).cmds.countP (fun k => k.core == (configured [] [aRegion]).iss.core) < 64 ∧
    aRegion.ticks.length + aRegion.late.length < 4 := by decide +kernel


/-- Vector registers v1 to v10 hold elements under the tag of their number; v11 holds the lane numbers, v12 zeros, and m1 is empty. -/
def vecs : State := tst (fun k => vv 1 1 1 (vv 2 2 2 (vv 3 3 3 (vv 4 4 4 (vv 5 0x3F80 5 (vv 6 0x3F800000 6 (vv 8 8 8 (vv 9 9 9 (vv 10 127 10
  (vv 11 (BitVec.ofNat 2048 ((List.range 64).foldr (fun i x => i + 2 ^ 32 * x) 0)) 3 (vv 12 0 3 k))))))))))) parted
/-- Sources of every tag for the sums, the wide sum, the bitwise forms, the floats, the special functions, the reductions and the
conversions, and sources of other tags than their forms require. -/
theorem witness_vector_tags : (∀ t ∈ ([1, 2, 3, 4, 5, 6, 8, 9, 10] : List (BitVec 6)), (srcV vecs t).tag.toNat = t.toNat) ∧ (srcV vecs 0).tag = 0 ∧
    (srcV vecs 3).tag ≠ 4 ∧ (srcV vecs 3).tag ≠ 10 ∧ (srcV vecs 3).tag ≠ 0 ∧ (srcV vecs 0).tag ≠ 10 ∧ (srcV vecs 4).tag ≠ 3 := by decide +kernel
/-- The listed formats and conditions at the ends of their ranges. -/
theorem witness_vector_fields : (1 : BitVec 4).toNat ∈ [1, 2, 3, 4] ∧ (4 : BitVec 4).toNat ∈ [1, 2, 3, 4] ∧ (6 : BitVec 4).toNat ∈ [5, 6] ∧
    (0 : BitVec 4).toNat < 8 ∧ (7 : BitVec 4) ≠ 8 ∧ (9 : BitVec 4) ≠ 7 ∧ ((8 : BitVec 4).toNat, (9 : BitVec 4).toNat) ∈ [(2, 1), (6, 5), (5, 8), (8, 9)] ∧
    ((9 : BitVec 4).toNat, (6 : BitVec 4).toNat) ∈ [(1, 2), (1, 3), (2, 3), (1, 5), (8, 5), (9, 5), (1, 6), (2, 6), (5, 6), (8, 6), (9, 6)] ∧
    ((3 : BitVec 4).toNat, (6 : BitVec 4).toNat) ∉ [(1, 2), (1, 3), (2, 3), (1, 5), (8, 5), (9, 5), (1, 6), (2, 6), (5, 6), (8, 6), (9, 6)] := by decide
/-- No element is enabled under the empty mask m1, and the lowest one is under m0. -/
theorem witness_masks : (List.range 64).filter (fun e => enabled (srcM vecs 1) (tagWidth 6) e) = [] ∧ enabled (srcM vecs 0) (tagWidth 5) 0 = true ∧
    (srcM vecs 0).getLsbD 63 = true ∧ (srcM vecs 1).getLsbD 0 = false := by decide
/-- CHK is clear before the slot, and FLAGS as issued holds it or not. -/
theorem witness_loss_scale : vecs.iss.chkSet = false ∧ (srcC vecs 7).getLsbD 4 = false ∧
    (srcC (tst (fun k => { k with flags := fCHK }) (fun s => { s with iss := { s.iss with ctl := [(7, 16)] } })) 7).getLsbD 4 = true := by decide
/-- The lane numbers as a pattern name each lane once; a pattern of zeros names one lane twice. -/
theorem witness_patterns : (∀ i, i < 64 → (laneOf (srcV vecs 11).bits i).toNat % 64 = i) ∧
    (laneOf (srcV vecs 12).bits 0).toNat % 64 = (laneOf (srcV vecs 12).bits 63).toNat % 64 := by decide +kernel

/-- A core of a partition with its weight gate closed, or open; and a row of the index registers at the end of the range. -/
def gated (o : Bool) : State := tst (fun k => sv 2 1023 (sv 3 1024 (sv 4 2047 k))) (fun s =>
  let t := parted s
  { t with parts := t.parts.set 0 { t.parts[0] with gateOpen := o } })
theorem witness_weights : gateOf (gated false) = false ∧ gateOf (gated true) = true ∧ gateOf (tst id id) = true ∧
    (0 : BitVec 10).toNat + (srcS (gated false) 2).toNat = 1023 ∧ (0 : BitVec 10).toNat + (srcS (gated false) 3).toNat = 1024 ∧
    (if (9 : Tag) = 9 then (srcS (gated false) 4).toNat / 2 else 0) = 1023 ∧
    refreshing (cycleAt (gated false) (gated false).iss.core (gated false).iss.t) 1023 = false ∧ (me (gated false)).badW = [] := by decide
/-- A tile under F32 is drained, and an empty one traps. -/
theorem witness_tiles : (srcZ (tst (fun k => k.setZ 1 ⟨Vector.replicate 64 0, 6, 0⟩) id) 1).tag ≠ 0 ∧ (srcZ (tst id id) 1).tag = 0 := by decide

/-- Streams for a beat and for a spill: a pattern of 65 elements of 384 bytes in L, that q1 reads and q2 writes, 4 cycles after a WLD. -/
def tiled (tag : Nat) (fs : List FootE) : State := tst (fun k => { (k.setQ 1 ⟨true, false, BitVec.ofNat 256 (tag * 2 ^ 28 + 11 * 2 ^ 23 + 2 ^ 64 * (64 + 384 * 2 ^ 16)), 0, false⟩).setQ 2
    ⟨true, true, BitVec.ofNat 256 (tag * 2 ^ 28 + 11 * 2 ^ 23 + 2 ^ 64 * (64 + 384 * 2 ^ 16)), 0, false⟩ with
  wfmt := 1, foot := fs }) (fun s => { s with iss := { s.iss with t := 4 } })
/-- A BEAT in integer mode, a ZSPILL and a ZFILL pass their checks with the whole span in the table, and a BEAT waits just after a WLD. -/
theorem witness_beats : beatFault (tiled 1 footAll) ⟨1, 0, 1, 1, true, false, false, 0⟩ = none ∧
    beatStall (tiled 1 footAll) ⟨1, 0, 1, 1, true, false, false, 0⟩ = false ∧ beatMode 1 (me (tiled 1 footAll)).wfmt true = 2 ∧
    zqFault (tiled 0 footAll) 2 true = none ∧ streamStall (tiled 0 footAll) 2 true 65 = false ∧ zqFault (tiled 0 footAll) 1 false = none ∧
    streamStall (tiled 0 footAll) 1 false 65 = false ∧ (beatFault (tiled 1 []) ⟨1, 0, 1, 1, true, false, false, 0⟩).isSome = true := by decide +kernel


/-- The module with its windows open. -/
def upTo (g : State → State) : State := tst id g
/-- In a state with no partition PCREATE may take VF 0 and core 0; a partition that does not run and holds nothing may be destroyed and
have its registers set, one core's weight is nonzero, and an invalidation waits with a translation cached that it drops. -/
theorem witness_partition_commands : winOpen (upTo id) = true ∧ (pt (upTo id) 63).exist = false ∧ (vf (upTo id) 127).bound = none ∧ (1 : W64) ≠ 0 ∧
    (∀ c, inMask 1 c = true → (cr (upTo id) c).retired = false ∧ partOf (upTo id) c = none) ∧ winOpen (upTo parted) = true ∧
    (pt (upTo parted) 0).exist = true ∧ (pt (upTo parted) 0).running = false ∧ partBusy (upTo parted) 0 = false ∧
    (0x10001 : W64).toNat / 2 ^ 46 = 0 ∧ (0x10001 : W64).toNat / 2 % 2 ^ 15 = 0 ∧
    (partIds.map (fun q => if q ≠ 0 ∧ (pt (upTo parted) q).exist = true then (pt (upTo parted) q).allot else 0)).sum + 256 ≤ 256 ∧
    (∀ p, partOf (upTo parted) 0 = some p → (pt (upTo parted) p).running = false) ∧ (cr (upTo parted) 0).retired = false ∧ (upTo parted).fatal = false ∧ (upTo parted).dead = false ∧
    inFlight (upTo (fun s => { parted s with invals := [⟨0, 0, 0, 0⟩] })) 0 = false := by decide +kernel

/-- A partition that runs. -/
def runs (s : State) : State := let t := parted s
  { t with parts := t.parts.set 0 { t.parts[0] with running := true } }
/-- Registers with their values at the ends of their ranges, for a partition that runs and for one that does not. -/
theorem witness_register_writes : (vf (upTo parted) 0).bound = some 0 ∧ (pt (upTo runs) 0).running = true ∧ (pt (upTo runs) 0).exist = true ∧
    (0x000FFFFFFFFFFFC0 : W64) &&& 0xFFF000000000003F#64 = 0 ∧ (0x000FFFFFFFFF0001 : W64) &&& 0xFFF000000000FFFE#64 = 0 ∧
    1024 ≤ (1024 : W64).toNat ∧ (16777216 : W64).toNat ≤ 2 ^ 24 ∧ (1023 : W64).toNat < 1024 ∧ 2 ^ 24 < (16777217 : W64).toNat ∧
    256 ≤ (256 : W64).toNat ∧ (65536 : W64).toNat ≤ 65536 ∧ (255 : W64).toNat < 256 ∧ 65536 < (65537 : W64).toNat ∧
    (0xC000000000000000 : W64) &&& 0x3FFFFFFFFFFFFFFF#64 = 0 ∧ windowOf (.quant 1) = some 1 ∧ (vf (upTo parted) 1).bound = none ∧
    windowOf .modesel = none ∧ Writer.host ≠ .hypervisor ∧ (0xFFFFFFFF : W64) &&& 0xFFFFFFFF00000000#64 = 0 ∧
    (31 : W64) &&& 0xFFFFFFFFFFFFFFE0#64 = 0 ∧ (∀ p, (pt (upTo parted) p).exist = true → (pt (upTo parted) p).running = false) := by decide +kernel

/-- The boot states, a dump's ends, and the causes of a fatal error. -/
def booted (n : BitVec 3) (f : Bool) : State := { State.reset with boot := { State.reset.boot with st := n }, fatal := f }
theorem witness_boot : State.reset.boot.st = 0 ∧ State.reset.dead = false ∧ (booted 1 false).boot.st = 1 ∧ (booted 3 false).boot.st = 3 ∧
    (booted 3 false).fatal = false ∧ (booted 2 true).fatal = true ∧ (booted 2 false).boot.st ≠ 3 ∧ 0 + 8 ≤ 2 ^ 31 ∧ 2147483640 + 8 ≤ 2 ^ 31 ∧
    (1 : BitVec 3) ≠ 0 ∧ (3 : BitVec 3).toNat ≤ 3 := by decide

/-- Partition 0 holds one READY task of queue 0, of which Delta knows the remaining bundles, and a deadline pends for it at cut 100. -/
def aTask : Task := ⟨0x1000, stReady, 0, 7, [], 0, [], 0, 0, 0, 0, none, none, [], none⟩
def aDeadline (done : Bool) (choice : SChoice) : Deadline := ⟨200, 100, 100, 0, 0, 0, 0, 0, 4, 0, [⟨0, choice, false, true, 0, 0, false, 0, 0, 0, 0, false⟩], done, 0⟩
def dated (ts : List Task) (d : Option Deadline) (m : BitVec 5) (us : Nat) : State := upTo (fun s => let t := runs s
  { t with parts := t.parts.set 0 { t.parts[0] with tasks := ts, dl := d }, modesel := m, us := us })
/-- A DEADLINE that fits at its least D, one that is too short, and one that replaces another. -/
theorem witness_deadlines : mgmt (dated [] none 0 0) 0 = true ∧ 1 + max 4 (tSweep (dated [] none 0 0) 0 none) + 7 ≤ (1000 : BitVec 32).toNat ∧
    (∀ q, queueHolds (dated [] none 0 0) 0 q = false) ∧ (dated [] none 0 0).modesel.getLsbD 1 = false ∧ (pt (dated [] none 0 0) 0).dl = none ∧
    (0 : BitVec 32).toNat < 1 ∧ (pt (dated [aTask] (some (aDeadline false .run)) 2 0) 0).dl = some (aDeadline false .run) ∧
    (dated [aTask] (some (aDeadline false .run)) 2 0).us + (150 : BitVec 32).toNat < (aDeadline false .run).start + (aDeadline false .run).d := by decide +kernel
/-- Before the cut a queue with a task is evaluated and chosen for; at the cut with nothing left only the cut is noted. -/
theorem witness_evaluations : (pt (dated [aTask] (some (aDeadline false .run)) 0 99) 0).dl = some (aDeadline false .run) ∧
    (aDeadline false .run).cutDone = false ∧ (aDeadline false .run).evalAt < (dated [aTask] (some (aDeadline false .run)) 0 99).us ∧
    (dated [aTask] (some (aDeadline false .run)) 0 0).us ≤ (aDeadline false .run).evalAt ∧ (dated [aTask] (some (aDeadline false .run)) 0 99).us < (aDeadline false .run).cut ∧
    queueHolds (dated [aTask] (some (aDeadline false .run)) 0 99) 0 0 = true ∧ sluiceChoice (dated [aTask] (some (aDeadline false .run)) 0 99) 0 0 = .run ∧
    withdrawQ (dated [aTask] (some (aDeadline false .run)) 2 99) 0 0 ≤ (aDeadline false .run).ckptn - (aDeadline false .run).used ∧
    (dated [aTask] (some (aDeadline false .run)) 2 99).modesel.getLsbD 1 = true ∧
    (aDeadline false .run).qs.find? (fun y => y.q == 0) = some ⟨0, .run, false, true, 0, 0, false, 0, 0, 0, 0, false⟩ ∧
    (aDeadline false .discard).qs.find? (fun y => y.q == 0) = some ⟨0, .discard, false, true, 0, 0, false, 0, 0, 0, 0, false⟩ ∧
    (0x3000 : W64).toNat % 64 = 0 ∧ (0x3000 : W64).toNat / 64 % 64 = 0 ∧ (0x3000 : W64).toNat / 2 ^ 14 = 0 ∧ (0x3000 : W64).toNat / 4096 % 4 = 3 ∧
    (0x2000 : W64).toNat / 4096 % 4 = 2 ∧ (0x1000 : W64).toNat / 4096 % 4 = 1 ∧ (aDeadline false .run).cut ≤ (dated [] (some (aDeadline false .run)) 0 100).us ∧
    (∀ q, queueHolds (dated [] (some (aDeadline false .run)) 0 100) 0 q = false) ∧ (dated [] (some (aDeadline false .run)) 0 100).cmds = [] := by decide +kernel
/-- Queues with a task: one of which nothing remains runs on, one without a budget only a checkpoint fits, and one whose task runs at no rate
neither fits. -/
def spent : State := let s := dated [aTask] (some (aDeadline false .run)) 0 0
  { s with mem := s.mem.wr 0x1038 1 |>.wr 0x103C 1 }
def unpaced : State := let s := dated [{ aTask with st := stRunning, core := some 0 }] (some (aDeadline false .run)) 0 0
  { s with cores := s.cores.set 0 { cr s 0 with running := true, rec_ := 0x1000 } }
theorem witness_choices : queueHolds spent 0 0 = true ∧ queueHolds unpaced 0 0 = true ∧ spent.modesel.getLsbD 1 = false ∧
    remQ spent 0 0 = some 0 ∧ remQ (dated [aTask] (some (aDeadline false .run)) 0 0) 0 0 = none ∧
    safeQ (dated [aTask] (some (aDeadline false .run)) 0 0) 0 0 = some (0, 1) ∧ dirtyQ (dated [aTask] (some (aDeadline false .run)) 0 0) 0 0 = 0 ∧
    withdrawQ (dated [aTask] (some (aDeadline false .run)) 0 0) 0 0 ≤ 4 ∧ tackQ (dated [aTask] (some (aDeadline false .run)) 0 0) 0 0 = 0 ∧
    remQ unpaced 0 0 = none ∧ safeQ unpaced 0 0 = none := by decide +kernel
/-- After its deadline nothing is left of the partition's work. -/
theorem witness_vacancy : (pt (dated [] (some (aDeadline true .run)) 0 200) 0).dl = some (aDeadline true .run) ∧
    mayVacate (dated [] (some (aDeadline true .run)) 0 200) 0 = true ∧ (dated [] (some (aDeadline true .run)) 0 200).fatal = false ∧
    (dated [] (some (aDeadline true .run)) 0 200).cmds = [] := by decide +kernel

/-- A core with an error count below and at THRESH in the window that runs and in the one before, one that is due and one that has retired. -/
def counted (x : UnitErr) (m : BitVec 5) (us : Nat) : State := upTo (fun s => { s with units := [x], modesel := m, us := us })
theorem witness_errors : unitValid 0 63 = true ∧ unitValid 2 255 = true ∧ (0x3F00 : W64).toNat / 2 ^ 24 = 0 ∧ (0x3F00 : W64).toNat / 2 ^ 3 % 2 ^ 5 = 0 ∧
    (0x3F00 : W64).toNat % 2 ^ 3 = 0 ∧ (0x3F00 : W64).toNat / 2 ^ 8 % 2 ^ 16 = 63 ∧ winOpen (counted ⟨0, 63, 15, 0, false, false⟩ 0 0) = true ∧
    (unitOfErr (counted ⟨0, 63, 15, 0, false, false⟩ 0 0) 0 63).count + 1 ≤ ((counted ⟨0, 63, 15, 0, false, false⟩ 0 0).errthr.getD 0 0).toNat % 2 ^ 16 ∧
    ((counted ⟨0, 63, 16, 0, false, false⟩ 0 0).errthr.getD 0 0).toNat % 2 ^ 16 < (unitOfErr (counted ⟨0, 63, 16, 0, false, false⟩ 0 0) 0 63).count + 1 ∧
    mayRetire (counted ⟨0, 63, 16, 0, false, false⟩ 0 0) 0 63 = true ∧ (counted ⟨0, 63, 16, 0, false, false⟩ 4 0).modesel.getLsbD 2 = true ∧
    (unitOfErr (counted ⟨0, 63, 17, 0, true, false⟩ 0 0) 0 63).due = true ∧ (unitOfErr (counted ⟨0, 63, 17, 0, false, true⟩ 0 0) 0 63).retired = true ∧
    ((counted ⟨0, 63, 16, 0, false, false⟩ 0 0).errthr.getD 0 0).toNat / 2 ^ 16 % 2 ^ 32 = 1000000 ∧
    (unitOfErr (counted ⟨0, 63, 16, 0, false, false⟩ 0 1000000) 0 63).win ≠ (counted ⟨0, 63, 16, 0, false, false⟩ 0 1000000).us / 1000000 ∧
    (unitOfErr (counted ⟨0, 63, 16, 0, false, false⟩ 0 999999) 0 63).win = (counted ⟨0, 63, 16, 0, false, false⟩ 0 999999).us / 1000000 ∧
    ((counted ⟨0, 63, 17, 0, false, false⟩ 0 1000000).errthr.getD 0 0).toNat % 2 ^ 16 < (unitOfErr (counted ⟨0, 63, 17, 0, false, false⟩ 0 1000000) 0 63).count ∧
    (partOf (upTo parted) (Fin.ofNat 64 (0 : BitVec 16).toNat)).isSome = true ∧ (∀ p, (pt (upTo parted) p).exist = true → (pt (upTo parted) p).running = false) := by decide +kernel
/-- A mirrored region at its alignment, and beside it. -/
theorem witness_mirrors : mgmt (upTo parted) 0 = true ∧ (pt (upTo parted) 0).running = false ∧ (0x10000 : GAddr).toNat % 65536 = 0 ∧
    (0 : BitVec 52).toNat % 65536 = 0 ∧ (0x10000 : BitVec 52) ≠ 0 ∧ (0x10000 : BitVec 52).toNat % 65536 = 0 ∧ (0x10040 : GAddr).toNat % 65536 ≠ 0 ∧ (pt (upTo runs) 0).running = true ∧
    (upTo (fun s => { s with debt := [(3, 7)] })).debt.find? (fun x => x.1 == 3) = some (3, 7) ∧
    (upTo (fun s => { s with debt := [(3, 8)] })).debt.find? (fun x => x.1 == 3) = some (3, 8) := by decide +kernel

/-- A loaded partition whose root records lie on the page that translates, and a start vector that starts rank 0 at unit 5. -/
def loadable : State := upTo (fun s => let t := parted s
  { t with parts := t.parts.set 0 { t.parts[0] with image := some 1 }, vfs := t.vfs.set 0 { t.vfs[0] with rootbase := 0x1000 } })
def startVec : List (BitVec 32) := 0x80000005 :: List.replicate 63 0
/-- An image of nothing fits; whether its signature verifies is the hardware's (Config.sigOk has no body), so that one is assumed. -/
theorem witness_images (img : Image) (h : Config.sigOk img.key (Config.imageBytes img) img.sig = true)
    (hi : img = ⟨[], [], [], [], [], none, [], 0, img.key, img.sig⟩) : (pt loadable 0).running = false ∧
    Config.sigOk img.key (Config.imageBytes img) img.sig = true ∧ (pt loadable 0).keydig = 0 ∧ img.dict.length ≤ 8192 ∧ img.code.length ≤ 2 ^ 24 ∧
    dataFits img = true ∧ img.safemax ≤ (vf loadable 0).safemax ∧ pathsFit img = true ∧ relocAll loadable 0 img.relocs (img.dict, img.code) = some ([], []) := by
  refine ⟨by decide, h, by decide, ?_, ?_, ?_, ?_, ?_, ?_⟩ <;> rw [hi] <;> first | rfl | simp
theorem witness_launch : winOpen loadable = true ∧ (vf loadable 0).bound = some 0 ∧ (pt loadable 0).image ≠ none ∧ (pt loadable 0).dl = none ∧ (pt loadable 0).launch = none ∧ (pt loadable 0).attest = none ∧
    coresOf loadable 0 = [0] ∧ vecFits (coresOf loadable 0).length startVec = true ∧ vecRun startVec 0 = true ∧
    rootsOk loadable 0 0 ((coresOf loadable 0).head?.getD 0) ((upto (coresOf loadable 0).length).filter (vecRun startVec)) = .ok ∧
    (0x8001 : GAddr).toNat % 64 ≠ 0 ∧ (0x4000 : GAddr).toNat % 64 = 0 := by decide +kernel
theorem length_bytesOf (n x : Nat) : (bytesOf n x).length = n := by
  induction n generalizing x with
  | zero => rfl
  | succ n ih => simp [bytesOf, ih]
theorem length_upto (n : Nat) : (upto n).length = n := by
  induction n with
  | zero => rfl
  | succ n ih => simp [upto, ih]
theorem length_fixLen (n : Nat) (l : List Byte) : (fixLen n l).length = n := by simp [fixLen, length_upto]
/-- The report of an attestation at 0x4000 lies on the page that translates. -/
theorem witness_attest (nonce : BitVec 256) : (attestBody loadable 0 0 nonce).length + 7856 = 15920 ∧
    vaMap loadable 0 true 0x4000 15920 = .ok [(0x4000, 15920)] := by
  constructor
  · simp only [attestBody, List.length_append, length_bytesOf, length_fixLen]
  · decide +kernel

/-- A partition that runs takes a packet of an aligned record; a queue that is valid holds no task; and a page request that is posted has its
reply. -/
def asked : State := upTo (fun s => let t := runs s
  { t with vfs := t.vfs.set 0 { t.vfs[0] with reqs := [⟨9, 9, 0x20000, false, false, 3, 0, 0x20000, true⟩] } })
theorem witness_spawns : (pt asked 0).running = true ∧ (0x1040 : GAddr).toNat % 64 = 0 ∧ packetTorn asked 0 0x1040 = false ∧ (0x1001 : GAddr).toNat % 64 ≠ 0 ∧
    (queueOf asked 0 1).valid = false ∧ (queueOf asked 0 0).valid = true ∧ (pt asked 0).tasks = [] ∧ (pt asked 0).spawns = [] ∧
    (pt asked 0).late = [] ∧ (pt asked 0).launch = none ∧ (pt asked 0).attest = none ∧ (∀ c, inMask (pt asked 0).mask c = true → (cr asked c).wait = .none) ∧
    (recWord asked 0 0x1040 0x18).isSome = true ∧
    (∀ c, inMask (pt asked 0).mask c = true → (cr asked c).running = true → queueOfCore asked 0 c ≠ 0) ∧
    (vf asked 0).reqs.find? (fun r => r.posted && r.num == BitVec.ofNat 16 (8 : W64).toNat) = none ∧
    ((vf asked 0).reqs.find? (fun r => r.posted && r.num == BitVec.ofNat 16 (0x10009 : W64).toNat)).isSome = true ∧
    (0x10009 : W64).toNat / 2 ^ 17 = 0 ∧ (0x10009 : W64).getLsbD 16 = true ∧ (9 : W64).getLsbD 16 = false := by decide +kernel


/-- Core 0 stands as given with no bundle open, beside partition 0. -/
def still (f : Core → Core) (g : State → State) : State := g (parted { State.reset with cores := State.reset.cores.set 0 (f Core.reset), boot := { State.reset.boot with st := 2 } })
def aLane (n : Nat) (bs : Option (List Byte)) : Lane := ⟨0, false, 0x1000, n, .ready 0x1000, bs⟩
def pended (k : PKind) (d : List RegId) (ls : List Lane) : State := still (fun c => { c with pend := [⟨1, k, d, 0, 0, 0, ls⟩] }) id
/-- A result of each kind is due with its bytes, or without them, and no earlier operation meets it. -/
theorem witness_results : ((cr (pended .calc [.s 3] []) 0).pend[0]?).isSome = true ∧ (pended .calc [.v 3] []).now = 0 ∧
    (aLane 1 (some [5])).data = some [5] ∧ 1 ≤ (aLane 1 none).len ∧ (aLane 8 none).len ≤ 8 ∧ (aLane 4 none).data = none ∧
    ([aLane 4 (some [1, 2, 3, 4])].map (fun l => l.i)).Nodup ∧ (aLane 4 none).i < 64 ∧
    earlierHit (cr (pended (.amo 0 true 1 0) [.s 3] [aLane 8 none]) 0) 1 [aLane 8 none] = false ∧
    badColumn (pended (.amo 0 true 1 0) [.s 3] [aLane 8 none]) 0x1000 8 = none ∧ (aLane 8 none).st = .ready 0x1000 ∧
    earlierHit (cr (pended (.rowld 256) [.v 3] [aLane 256 none]) 0) 1 [aLane 256 none] = false ∧
    [aLane 4 none].all Lane.isReady = true ∧
    loadWaits (cr (pended (.load true false 0) [.s 3] [aLane 8 none]) 0) 1 (aLane 8 none) = false ∧
    badColumn (pended (.load true false 0) [.s 3] [aLane 8 none]) 0x1000 8 = none ∧
    ((⟨0, false, 0x1000, 8, .wait (some 9) 0x1000 0x20000, none⟩ : Lane).data = none ∧ (⟨0, false, 0x1000, 8, .wait (some 9) 0x1000 0x20000, none⟩ : Lane).isReady = false) := by decide
/-- A tap of a member that is not bad, of a region that is configured. -/
theorem witness_taps : regionOf (still id (fun s => { s with regions := [aRegion] })) 7 = some aRegion ∧
    7 ≠ 0 ∧ badLane (still id (fun s => { s with regions := [aRegion] })) [⟨0, false, 0x10000, 4, .ready 0x10000, none⟩] = none ∧
    strayLane aRegion [⟨0, false, 0x10000, 4, .ready 0x10000, none⟩] = none ∧ stoppedLane aRegion [⟨0, false, 0x10000, 4, .ready 0x10000, none⟩] = none ∧
    lanesMembs aRegion [⟨0, false, 0x10000, 4, .ready 0x10000, none⟩] = [0] := by decide +kernel
/-- A group record of capacity two with no member, with both, and reserved; a task of a group and one of none. -/
def groupWord (w0 w1 : Nat) : State := still id (fun s => { s with mem := [⟨0x1000, BitVec.ofNat 8 w0⟩, ⟨0x1008, BitVec.ofNat 8 w1⟩].filter (fun c => c.2 ≠ 0) ++ s.mem })
theorem witness_joins : (cr (groupWord 1 2) 0).group = none ∧ grpReserved (groupWord 1 2) 0x1000 = false ∧
    ((upto 16).filter (fun i => ((groupWord 1 2).mem.rdN 0x1000 8).testBit i)).length < (groupWord 1 2).mem.rdN (0x1000 + 8) 8 / 2 % 16 + 1 ∧
    (groupWord 3 2).mem.rdN (0x1000 + 8) 8 / 2 % 16 + 1 ≤ ((upto 16).filter (fun i => ((groupWord 3 2).mem.rdN 0x1000 8).testBit i)).length ∧
    grpReserved (groupWord 1 0x20) 0x1000 = true ∧ (cr (still (fun c => { c with group := some 0x2000 }) id) 0).group ≠ none := by decide +kernel
/-- A posted RADD and a posted sample of member 0 whose lanes translate. -/
def posted (o : OKind) (n : Nat) (rs : List Region) : State := still (fun c => { c with posts := [⟨1, o, [aLane n none]⟩] }) (fun s => { s with regions := rs })
theorem witness_posts : ((cr (posted (.radd 3 0 5) 4 []) 0).posts[0]?).isSome = true ∧ earlierHit (cr (posted (.radd 3 0 5) 4 []) 0) 1 [aLane 4 none] = false ∧
    badColumn (posted (.radd 3 0 5) 4 []) 0x1000 4 = none ∧ vfOf (posted (.radd 3 0 5) 4 []) 0 = some 0 ∧
    regionOf (posted (.psmp false 7 0 5) 4 [aRegion]) 7 = some aRegion ∧ (panDesc aRegion.desc).row = false ∧ aRegion.mirror = false ∧ (aLane 4 none).i = 0 ∧
    badColumn (posted (.psmp false 7 0 5) 4 [aRegion]) 0x1000 4 = none ∧ regionOf (posted (.psmp false 7 0 5) 4 []) 7 = none := by decide +kernel
/-- A running core with a failed lane, one that waits for an acknowledgement, each in a handler and outside one, and a page request to be posted
with one slot of the ring left. -/
def failing (h : Bool) : State := still (fun c => { c with running := true, h := h, trapEntry := some 5, failed := [⟨cLinkTimeout, 0, none, 0, none, none⟩] }) id
def awaiting (h : Bool) : State := still (fun c => { c with running := true, h := h, trapEntry := some 5, wait := .phase 2 [4] .none }) (fun s => { s with ackWait := [⟨4, 9, 0⟩] })
theorem witness_failures : (cr (failing false) 0).failed = [⟨cLinkTimeout, 0, none, 0, none, none⟩] ∧ (cr (failing true) 0).h = true ∧ (failing true).iss.act = false ∧
    trapReady (cr (failing false) 0) = true ∧ follows (cr (failing false) 0) = none ∧ (cr (awaiting false) 0).wait = .phase 2 [4] .none ∧
    acked (awaiting false) [4] = false ∧ (∀ x ∈ (cr (awaiting true) 0).failed, x.cause ≠ cLinkTimeout) ∧ trapReady (cr (awaiting false) 0) = true ∧
    (cr (failing false) 0).resume = false ∧ (cr (failing true) 0).pendTrap = none ∧ (cr (failing true) 0).wait = .none ∧
    ({ awaiting true with us := 1000 } : State).us = (cr (awaiting true) 0).phaseAt + linkAck (awaiting true) ((partOf (awaiting true) 0).getD 0) ∧
    (awaiting true).us < (cr (awaiting true) 0).phaseAt + linkAck (awaiting true) ((partOf (awaiting true) 0).getD 0) := by decide
theorem witness_page_posts : let s := still id (fun s => { s with vfs := s.vfs.set 0 { s.vfs[0] with prqprod := 15, reqs := [⟨9, 0, 0x20000, false, false, 3, 0, 0x20000, false⟩] } })
    (vf s 0).reqs.find? (fun r => !r.posted) = some ⟨9, 0, 0x20000, false, false, 3, 0, 0x20000, false⟩ ∧ (vf s 0).reqs.countP (fun r => r.posted) < 4096 ∧
    ((vf s 0).prqprod - (vf s 0).prqcons).toNat < 2 ^ ((vf s 0).prqbase.toNat % 16 + 4) := by decide

/-- One command of core 0. -/
def aCmd (op : Nat) (done : Bool) (prog : Nat) (block : BitVec 512) (out : List (Nat × Byte)) (acks : List Nat) (x : Option CflSt) : Cmd :=
  ⟨5, 0, 0, op, some 1, block, done, 0, none, prog, 0, [], none, [], out, acks, x⟩
def commanded (k : Cmd) (us : Nat) : State := still (fun c => { c with ranges := [⟨5, false, 0, 31⟩, ⟨0, true, 64, 2111⟩], j := c.j.set 1 ⟨.pending, 5, 0, false, false, 0⟩ })
  (fun s => { s with cmds := [k], us := us, ackWait := [⟨4, 9, 0⟩] })
/-- A command with a read range that a ticket names, one whose work is done without writes and with a write, a SEND whose acknowledgement is late,
and a RECV of two entries that the first entry reaches, or that has waited too long. -/
theorem witness_engines : cmdOf (commanded (aCmd opCpy false 0 0 [] [] none) 0) 0 5 = some (aCmd opCpy false 0 0 [] [] none) ∧
    ticketNames (commanded (aCmd opCpy false 0 0 [] [] none) 0) 0 5 = true ∧ (cr (commanded (aCmd opCpy false 0 0 [] [] none) 0) 0).ranges[0]? = some ⟨5, false, 0, 31⟩ ∧
    (cr (commanded (aCmd opCpy false 0 0 [] [] none) 0) 0).ranges[1]? = some ⟨0, true, 64, 2111⟩ ∧
    earlierRange (commanded (aCmd opCpy false 0 0 [] [] none) 0) (aCmd opCpy false 0 0 [] [] none) = false ∧
    (badL (cr (commanded (aCmd opCpy false 0 0 [] [] none) 0) 0) 0 32).isSome = false ∧
    acked (commanded (aCmd opCpy true 0 0 [(0x1000, 1)] [] none) 0) (aCmd opCpy true 0 0 [(0x1000, 1)] [] none).acks = true ∧ opCpy ≠ opTick ∧ opCpy ≠ opSpawn ∧ opCpy ≠ opPancfg ∧
    acked (commanded (aCmd opSend true 0 0 [] [4] none) 1000) [4] = false ∧ 0 + linkAck (commanded (aCmd opSend true 0 0 [] [4] none) 1000) 0 ≤ 1000 ∧
    headRecv (commanded (aCmd opRecv false 0 (BitVec.ofNat 512 (2 ^ 33)) [] [] none) 0) 0 0 = some (aCmd opRecv false 0 (BitVec.ofNat 512 (2 ^ 33)) [] [] none) ∧
    (0 + 1 < min 3 (msgN (BitVec.ofNat 512 (2 ^ 33)))) ∧ msgBk (BitVec.ofNat 512 (2 ^ 33)) = 0 ∧ msgPeer (BitVec.ofNat 512 (2 ^ 33)) = 0 ∧
    linkRecv (commanded (aCmd opRecv false 0 (BitVec.ofNat 512 (2 ^ 33)) [] [] none) 100001) 0 ≠ 0 ∧
    0 + linkRecv (commanded (aCmd opRecv false 0 (BitVec.ofNat 512 (2 ^ 33)) [] [] none) 100001) 0 < 100001 ∧
    earlierRange (commanded (aCmd opRecv false 0 (BitVec.ofNat 512 (2 ^ 33)) [] [] none) 100001) (aCmd opRecv false 0 (BitVec.ofNat 512 (2 ^ 33)) [] [] none) = false ∧
    (rxOf (commanded (aCmd opRecv false 0 (BitVec.ofNat 512 (2 ^ 33)) [] [] none) 100001) 0 0).entries = [] ∧
    (rxOf (commanded (aCmd opRecv false 0 (BitVec.ofNat 512 (2 ^ 33)) [] [] none) 0) 0 0).early = [] ∧
    (rxOf (commanded (aCmd opRecv false 0 (BitVec.ofNat 512 (2 ^ 33)) [] [] none) 0) 0 0).nextMsg = 0 ∧
    (rxOf (commanded (aCmd opRecv false 0 (BitVec.ofNat 512 (2 ^ 33)) [] [] none) 0) 0 0).nextIdx = 0 ∧
    (rxOf (commanded (aCmd opRecv false 0 (BitVec.ofNat 512 (2 ^ 33)) [] [] none) 0) 0 0).dropUpTo = 0 := by decide +kernel
/-- A collective of four participants, 128 elements of F32, at place 1, which has begun chunk 0: hop 0 of chunk 3 reaches it, and the final
packet of chunk 2, which it has asked for; and it is asked for chunk 1 in the place of the participant that it backs up. -/
def aRing : CflSt := ⟨[(0, 0, false, 0), (0, 0, false, 0), (0, 0, true, 1), (0, 0, false, 0)], 1, [], none, [], [], [], [], [], [(2, 4)],
  [(0, 1, [])], [], 0, 0, 0, false, none⟩
def cflBlock : BitVec 512 := BitVec.ofNat 512 (2 ^ 192 * (127 + 6 * 2 ^ 32) + 2 ^ 384 * 0x1000)
theorem witness_collectives : isCfl opAr = true ∧ cflFmt cflBlock ≠ 1 ∧ aRing.size = 4 ∧ chunkN cflBlock 4 0 = 32 ∧ 0 + 2 < aRing.size ∧
    0 + 1 = aRing.hopOf 3 ∧ 3 < aRing.size ∧ chunkN cflBlock 4 3 = 32 ∧ aRing.got 3 0 = false ∧
    aRing.isDone 2 = false ∧ chunkN cflBlock 4 2 = 32 ∧ (aCmd opAr false 1 cflBlock [] [] (some aRing)).prog = 1 ∧ opAr ≠ opRs ∧ (2, aRing.size) ∈ aRing.asked ∧
    aRing.inbox = [] ∧ cflStarts (aCmd opAr false 1 cflBlock [] [] (some aRing)) aRing = [] ∧
    (cflOwn (commanded (aCmd opAr false 1 cflBlock [] [] (some aRing)) 0) (aCmd opAr false 1 cflBlock [] [] (some aRing)) aRing 3).toOption = some (List.replicate 32 0) ∧
    cflBacks (aCmd opAr false 1 cflBlock [] [] (some aRing)) aRing (cflFrom aRing 1 0) = true ∧
    (cflCopy (commanded (aCmd opAr false 1 cflBlock [] [] (some aRing)) 0) (aCmd opAr false 1 cflBlock [] [] (some aRing)) aRing 1).toOption = some (List.replicate 32 0) ∧
    earlierRange (commanded (aCmd opAr false 1 cflBlock [] [] (some aRing)) 0) (aCmd opAr false 1 cflBlock [] [] (some aRing)) = false := by decide +kernel

/-- A flow from 0 whose next number is 0, and numbers in turn, early and past. -/
theorem witness_flows : (flowOf (still id id) ⟨0, 0, 0⟩).next = 0 ∧ (flowOf (still id id) ⟨0, 0, 0⟩).early = [] ∧ dpaOk (still id id) 0x1000 = true ∧
    regionAt (still id id) 0x1000 = none ∧ ((0x7FFF : BitVec 16) - 0).toNat < 0x8000 ∧ 0x8000 ≤ ((0x8000 : BitVec 16) - 0).toNat ∧
    laneHash (0x1000 : BitVec 46).toNat = 4 ∧ (flowOf (still id id) ⟨0, 0, 4⟩).early = [] ∧ (still id id).badG = [] := by decide
/-- The close of a region of one member reaches its only channel, whichever it is, and completes a TICK; of two channels one may be left. -/
theorem witness_close : let r := { aRegion with ticks := [(0, 5)] }
    chansOf r = [chanOf r 0] ∧ membBadAt (still id (fun s => { s with regions := [r] })) r 0 = none ∧ r.passed = [] ∧
    regionOf (still id (fun s => { s with regions := [r] })) r.id = some r := ⟨by simp [chansOf, upto, aRegion, List.eraseDups, List.eraseDupsBy, List.eraseDupsBy.loop], by decide +kernel, rfl, by decide +kernel⟩

/-- A running core of partition 0 whose code is given, outside a handler and with a trap entry. -/
def ready0 (d : List Bundle) (h : List (BitVec 16)) : State := still (fun c => { c with running := true, dict := d, code := h, trapEntry := some 0 }) runs
/-- A bundle of no-ops issues; a halfword past the code or a reserved unit does not decode; a prefix stands before a unit. -/
theorem witness_issues : mayIssue (ready0 [0] [0]) 0 = true ∧ needsPrefix (cr (ready0 [0] [0]) 0) = false ∧ asksPage (cr (ready0 [0] [0]) 0) = false ∧
    nextUnitOf (cr (ready0 [0] [0]) 0) = some (0, 0, 1) ∧ collides 0 = false ∧ waitsSource (openIssue 0 0 0 1 (ready0 [0] [0])) = false ∧
    tryE 11 (openIssue 0 0 0 1 (ready0 [0] [0])) = .go ∧ requestsFull (openIssue 0 0 0 1 (ready0 [0] [0])) = false ∧ (cr (ready0 [0] [0]) 0).pend = [] ∧
    (cr (ready0 [0] [0]) 0).resume = false ∧ (cr (ready0 [0] [0]) 0).badCore = false ∧ follows (cr (ready0 [0] []) 0) = none ∧ trapReady (cr (ready0 [0] []) 0) = true ∧
    nextUnitOf (cr (ready0 [0] []) 0) = none ∧ prefixCore (ready0 [0] [0xF005, 0]) 5 = some 0 ∧ (nextUnitOf (cr (ready0 [0] [0xF005, 0]) 0)).isSome = true := by decide +kernel
/-- ADDI s6 in both A slots of one path collides. -/
theorem witness_collision : collides (BitVec.ofNat 384 (1 + 2 ^ 5 + 2 ^ 48 * 0x0C61A001 + 2 ^ 80 * 0x0C61A001)) = true := by decide +kernel
/-- Code of a LOOP of one unit at 0, its body at 1 and a unit after it. -/
def loopCode (k : Core) : Core :=
  { k with code := [1, 0, 0], dict := [0, BitVec.ofNat 384 (2 ^ 336 * (encode (.loop ⟨1, 2⟩)).getD 0)], loops := k.loops.set 0 ⟨2, true, 0⟩ }
/-- An open bundle with a reserved word in slot 0; one whose slots have committed; the last unit of a loop body with two iterations left. -/
theorem witness_closes : slotHolds (BitVec.ofNat 384 (1 + 2 ^ 48 * 0xFFFFFFFF)) 0 = .reserved ∧ slotLive (BitVec.ofNat 384 (1 + 2 ^ 48 * 0xFFFFFFFF)) 0 0 = true ∧
    10 ≤ (tst id (fun s => { s with iss := { s.iss with slot := 10 } })).iss.slot ∧ bundleSafe (tst id id).iss.bundle = false ∧ (tst id id).iss.resumed = false ∧ (tst id id).iss.mates = [] ∧
    activeLoops (loopCode Core.reset) = 1 ∧ activeLoops Core.reset = 0 ∧ loopLast (loopCode Core.reset) 0 = some 1 ∧ loopLast (loopCode Core.reset) 0 ≠ some 2 := by decide +kernel

/-- A partition that runs with an idle core and a READY task whose record starts afresh; a packet of a record that enters; and a quantum that
has passed, or not. -/
def serving (f : Core → Core) (k : Part → Part) (now : Nat) : State := still f (fun s => let t := runs s
  { t with parts := t.parts.set 0 (k t.parts[0]), now := now, mem := [⟨0x1003, 0xF0⟩, ⟨0x101C, 0x38⟩] ++ t.mem })
theorem witness_pickup : (idleCores (serving id (fun p => { p with tasks := [aTask], queues := p.queues.set 0 ⟨true, false, 7, [(0x1000, 0)]⟩ }) 0) 0).head? = some 0 ∧
    nextChoice (serving id (fun p => { p with tasks := [aTask], queues := p.queues.set 0 ⟨true, false, 7, [(0x1000, 0)]⟩ }) 0) 0 = some (0, aTask) ∧
    readTask (serving id (fun p => { p with tasks := [aTask], queues := p.queues.set 0 ⟨true, false, 7, [(0x1000, 0)]⟩ }) 0) 0 0x1000 = .start 0 := by decide +kernel
theorem witness_entry : let s := serving id (fun p => { p with spawns := [⟨0x1000, none, false, false, none⟩] }) 0
    dloc s 0 0x1000 false = .ok 0x1000 ∧ badColumn s 0x1000 64 = none ∧ (pt s 0).dl = none ∧ BitVec.ofNat 6 (s.mem.rdN (0x1000 + 0x18) 8 / 2 ^ 38) = 0 ∧
    BitVec.ofNat 3 (s.mem.rdN (0x1000 + 0x18) 8 / 2 ^ 35) = 7 ∧ (queueOf s 0 0).valid = true ∧ (queueOf s 0 0).tearing = false ∧ (queueOf s 0 0).prio = 7 ∧
    s.mem.rdN (0x1000 + 0x20) 8 % 2 ^ 52 = 0 ∧ s.mem.rdN (0x1000 + 0x30) 8 % 2 ^ 52 = 0 := by decide +kernel
theorem witness_quantum : let s := serving (fun c => { c with running := true }) (fun p => { p with tasks := [aTask], queues := p.queues.set 0 ⟨true, false, 7, [(0x1000, 0)]⟩ }) 262144
    (0x1000, 0) ∈ (queueOf s 0 0).ready ∧ 0 + (vf s (pt s 0).vf).quant.toNat % 2 ^ 32 = s.now ∧ inMask (pt s 0).mask 0 = true ∧ (cr s 0).running = true ∧
    runPrio s 0 0 ≤ (queueOf s 0 0).prio.toNat ∧ (cr s 0).pickedAt + 262144 ≤ s.now ∧ (coresOf s 0).any (fun d => (cr s d).yieldReq) = false := by decide +kernel

/-- An instruction that is well formed, its slot class and its word, and a word that decodes. -/
theorem witness_encoded : (Instr.addi ⟨6, 6, true, 1⟩).wf = true ∧ slotOf (.addi ⟨6, 6, true, 1⟩) = some .a ∧ encode (.addi ⟨6, 6, true, 1⟩) = some 0x0C61A001 ∧
    0x0C61A001 < 2 ^ slotWidth 0 ∧ decodeClass (slotClass 0) 0x0C61A001 = some (.addi ⟨6, 6, true, 1⟩) := by decide
/-- A bundle with one ADDI in slot 1, whose step runs it; and one whose slots are done. -/
theorem witness_steps : let s := tst id (fun s => { s with iss := { s.iss with bundle := BitVec.ofNat 384 (2 ^ 5 + 2 ^ 80 * 0x0C61A001) } })
    s.iss.act = true ∧ slotLive s.iss.bundle 1 s.iss.leaf.toNat = true ∧ slotWord s.iss.bundle 1 = 0x0C61A001 ∧ slotWord s.iss.bundle 0 = 0 ∧
    decodeClass (slotClass 1) (slotWord s.iss.bundle 1) = some (.addi ⟨6, 6, true, 1⟩) ∧
    (∀ m, 10 ≤ m → m < 10 → slotLive s.iss.bundle m s.iss.leaf.toNat = true → slotWord s.iss.bundle m = 0) := by
  refine ⟨rfl, by decide, by decide, by decide, by decide, fun m h1 h2 => by omega⟩
/-- A turn that is no window's command; a teardown behind a launch that waits; one whose node's writes are not all there; and one with
neither. -/
theorem witness_windows :
    let t : Turn := ⟨1, 0, .queueTeardown 0 0, Choice.reset, []⟩
    let s := { parted State.reset with agenda := [t], boot := { State.reset.boot with st := 2 } }
    let w := { s with parts := s.parts.set 0 { pt s 0 with launch := some ([0], false) } }
    let f := { s with partials := [⟨0, 0, 1, []⟩] }
    s.iss.act = false ∧ isWindow (.tickCloseArrival 0 0) = false ∧ isWindow t.ev = true ∧
    windowWaits (turnState t [] w) t.ev = true ∧ nodeWaits (turnState t [] f) (turnState t [] f).ch.node = true ∧
    nodeWaits (turnState t [] s) (turnState t [] s).ch.node = false ∧ windowWaits (turnState t [] s) t.ev = false := by decide +kernel
/-- The reset state's memory is that of its publications, and a core of a code segment has its unit. -/
theorem witness_memory : Coherent State.reset ∧ (ready0 [0] [0]).iss.act = false ∧ (ready0 [0] [0]).agenda = [] ∧
    (cr (ready0 [0] [0]) 0).code[(cr (ready0 [0] [0]) 0).pc.toNat]? = some 0 ∧ (0 : Bundle).toNat / 2 ^ 46 % 4 = 0 := by
  exact ⟨rfl, by decide, by decide, by decide, by decide +kernel⟩


/-! One step of an instruction on small operands; the expected values are worked out by hand from the rules named. -/

/-- The state that an outcome goes on in. -/
def after (o : Out) : State := match o with | .next t => t | _ => State.reset
/-- A scalar after a step. -/
def sAt (o : Out) (n : BitVec 6) : W64 := rdS (me (after o)).regs n
/-- A v register after a step. -/
def vAt (o : Out) (n : BitVec 6) : VReg := rdV (me (after o)).regs n
/-- Scalars for the tests: s2 is all ones, s3 is 3, s4 is 5, s5 is the most negative number. -/
def scalars : State := tst (fun k => sv 2 0xFFFFFFFFFFFFFFFF (sv 3 3 (sv 4 5 (sv 5 0x8000000000000000 k)))) id
/-- R71: ADD wraps. -/
theorem test_add_wraps : sAt (exec (.add ⟨2, 2, true, 3, true⟩) scalars) 2 = 2 := by decide +kernel
/-- R71: SAR fills with the sign, and SHR does not. -/
theorem test_sar_fills : sAt (exec (.sar ⟨9, 5, true, 3, true⟩) scalars) 9 = 0xF000000000000000 ∧
    sAt (exec (.shr ⟨9, 5, true, 3, true⟩) scalars) 9 = 0x1000000000000000 := by decide +kernel
/-- R71: MULH of -1 and 3 is -1, and MULHU of the same codes is 2. -/
theorem test_mulh_sign : sAt (exec (.mulh ⟨9, 2, true, 3, true⟩) scalars) 9 = 0xFFFFFFFFFFFFFFFF ∧
    sAt (exec (.mulhu ⟨9, 2, true, 3, true⟩) scalars) 9 = 2 := by decide +kernel
/-- R73: the carry-less product of 5 and 3 is 15, the manual's example. -/
theorem test_clmull_example : sAt (exec (.clmull ⟨9, 4, true, 3, true⟩) scalars) 9 = 15 := by decide +kernel
/-- R33, R72: DIV empties its destination and puts the quotient in flight for 24 cycles. -/
theorem test_div_flies : fullS (me (after (exec (.div ⟨9, 4, true, 3, true⟩) scalars))).regs 9 = false ∧
    ((me (after (exec (.div ⟨9, 4, true, 3, true⟩) scalars))).pend.map (fun q => (q.due, q.val))) = [(24, 1)] := by decide +kernel
/-- R202: STL stores its low bytes, the lowest first, and leaves the byte after them. -/
theorem test_stl_order : ((me (after (exec (.stl ⟨1, 9, true, 0, true, 8⟩) (tst (sv 9 0x123456) id)))).l) = [⟨16, 0x56⟩, ⟨17, 0x34⟩] := by decide +kernel
/-- R202: LDL of a signed byte extends its sign. -/
theorem test_ldl_sign : sAt (exec (.ldl ⟨0, 9, false, 0, true, 3⟩) (tst (fun k => { k with l := [⟨3, 0x80⟩] }) id)) 9 = 0xFFFFFFFFFFFFFF80 ∧
    sAt (exec (.ldl ⟨0, 9, true, 0, true, 3⟩) (tst (fun k => { k with l := [⟨3, 0x80⟩] }) id)) 9 = 0x80 := by decide +kernel
/-- R139: VADD of I8 wraps within its element. -/
theorem test_vadd_wraps : vAt (exec (.vadd ⟨1, 0, 3, 1, true, 2, true, 0⟩) (tst (fun k => vv 1 0xFF 1 (vv 2 0x02 1 k)) id)) 3 = ⟨1, 1, true⟩ := by decide +kernel
/-- R139: VABS of -128 clamps to 127 and sets SAT. -/
theorem test_vabs_clamps : vAt (exec (.vabs ⟨1, 0, 3, 1, true, 0⟩) (tst (fun k => vv 1 0x80 1 k) id)) 3 = ⟨0x7F, 1, true⟩ ∧
    (me (after (exec (.vabs ⟨1, 0, 3, 1, true, 0⟩) (tst (fun k => vv 1 0x80 1 k) id)))).flags &&& fSAT = fSAT := by decide +kernel
/-- R143: 1.5 + 2.25 = 3.75 in F32. -/
theorem test_vfadd : (vAt (exec (.vfadd ⟨6, 0, 3, 1, true, 2, true, 0⟩) (tst (fun k => vv 1 0x3FC00000 6 (vv 2 0x40100000 6 k)) id)) 3).bits = 0x40700000 := by decide +kernel
/-- R159: XROT by 1 brings lane 1 to lane 0. -/
theorem test_xrot : laneOf (vAt (exec (.xrot ⟨3, 1, true, 1⟩) (tst (fun k => vv 1 (7 * 2 ^ 32) 3 k) id)) 3).bits 0 = 7 := by decide +kernel
/-- R154: VRED adds the elements of all lanes into element 0. -/
theorem test_vred : (vAt (exec (.vred ⟨3, 0, 3, 1, true, 0, 0⟩) (tst (fun k => vv 1 (7 * 2 ^ 32 + 5) 3 k) id)) 3).bits = 12 := by decide +kernel
/-- R314, R318: TRAP enters the handler at the trap entry in handler mode, with its code in the frame. -/
theorem test_trap_enters : (let s := tst (fun k => { k with trapEntry := some 5, running := true }) id
    (me (after (exec (.trap ⟨7⟩) s))).h = true ∧ (me (after (exec (.trap ⟨7⟩) s))).pc = 5) := by decide +kernel


/-- The manual's example of R68 (04_progress_model.md): the entry, a safe ADD, ADD under REPEAT 8, LOOP 2 with its body, a safe ADD and HALT;
the body's second bundle may be safe too. -/
def pathCode (count : BitVec 32) (inner : BitVec 16) : Image :=
  ⟨[0, BitVec.ofNat 384 (2 ^ 45), BitVec.ofNat 384 (2 ^ 336 * (encode (.loop ⟨2, count⟩)).getD 0), BitVec.ofNat 384 (2 ^ 336 * (encode .halt).getD 0)],
    [0, 1, 0xF007, 0, 2, 0, inner, 1, 3], [], [], [0], none, [], 4096, [], []⟩
/-- R68: with the count 10 the longest path is 8 + 1 + 10 * 2 + 1 = 30 (the manual's sum with another count), so the image fits in that bound
and in no smaller one; with the inner safe bundle it is 11 whatever the count. -/
theorem test_paths_of_the_example : pathsFit { pathCode 10 0 with safemax := 30 } = true ∧ pathsFit { pathCode 10 0 with safemax := 29 } = false ∧
    pathsFit { pathCode 3000 1 with safemax := 11 } = true ∧ pathsFit { pathCode 3000 1 with safemax := 10 } = false := by
  decide +kernel
end Sys2Proof.Tests
end

section
/-! PROOFS. Reset, boot, firmware loads, power caps and fatal errors (R8, R338, R343, R344, R346). -/
namespace Sys2Proof.Machine

/-! MODULE_RESET and FIRMWARE_INIT (R343). -/

theorem resetState_rd (s : State) (a : Nat) : (resetState s).mem.rd a = if locIsLocal a = true then 0 else s.mem.rd a := scrubStores_rd s a
theorem pt_resetState (s : State) (p : PartId) : pt (resetState s) p = Part.reset := by simp [pt, resetState, State.reset]
theorem vf_resetState (s : State) (v : VfId) : vf (resetState s) v = Vf.reset := by simp [vf, resetState, State.reset]
theorem cr_resetState (s : State) (c : CoreId) : cr (resetState s) c = bareCore (cr s c) := by simp [cr, resetState]
/-- Cores that are all left as reset leaves them. -/
theorem cr_map_bareCore (s : State) (c : CoreId) : cr { s with cores := s.cores.map bareCore } c = bareCore (cr s c) := by simp [cr]
theorem execFirmwareInit_boots {s : State} (hst : s.boot.st = 1) (hd : s.dead = false) :
    execFirmwareInit s = .next
      (let t := applyRetirements { scrubStores s with boot := { s.boot with st := bootReady } }
       { t with cores := t.cores.map bareCore }) :=
  if_neg (by simp [hst, hd, bootFw])
/-- The retirements at boot leave the stores as the scrub left them, and the boot state. -/
theorem applyRetirements_keeps (s : State) :
    (applyRetirements s).mem = s.mem ∧ (applyRetirements s).badG = s.badG ∧ (applyRetirements s).boot = s.boot := by
  obtain ⟨cs, us, ps, ev, h⟩ := applyRet s
  rw [h]; exact ⟨rfl, rfl, rfl⟩

/-! The verification of firmware (R343, R344). -/

theorem execBootRomVerify_rom {s : State} (hst : s.boot.st = 0) (hd : s.dead = false) :
    execBootRomVerify s = .next (if verifyFw s romImage = 0 then runFw romImage s else failFw (verifyFw s romImage) s) :=
  if_neg (by simp [hst, hd, bootRom])
theorem execFwload_halted {s : State} (f : Firmware) (hst : s.boot.st = 3) (hf : s.fatal = false) (hd : s.dead = false) :
    execFwload f s = .next (if verifyFw s f = 0 then ackOk (runFw f s) 0 else nack (failFw (verifyFw s f) s)) :=
  if_neg (by simp [hst, hf, hd, bootHalted])
theorem execFwload_refused {s : State} (f : Firmware) (hst : s.boot.st ≠ 3) : execFwload f s = .next (nack s) := by
  have h : s.boot.st ≠ bootHalted := hst
  exact if_pos (by simp [h])
/-- The floor of versions is raised to the image's and never lowered. -/
theorem runFw_floor (f : Firmware) (s : State) : (runFw f s).boot.floor.toNat = max s.boot.floor.toNat f.floor.toNat :=
  floor_max s.boot.floor f.floor

/-! POWER_CAP and THERMTRIP (R8, R346). -/

theorem execPowerCap_on {s : State} (mhz stall : Nat) (hd : s.dead = false) :
    execPowerCap mhz stall s = .next { s with mhz := max (clockFloor s) (min 3600 mhz), stallFor := s.now + stall } :=
  if_neg (by simp [hd])
theorem clockFloor_bounds (s : State) : 1100 ≤ clockFloor s ∧ clockFloor s ≤ 3600 := by unfold clockFloor; split <;> omega
theorem execThermtrip_on {s : State} (hd : s.dead = false) :
    execThermtrip s = .next { s with dead := true, events := s.events ++ [.thermtrip] } :=
  if_neg (by simp [hd])

/-! FATAL_ERROR and DUMPREAD (R338). -/

theorem execFatalError_due {s : State} {cause : BitVec 8} (hf : s.fatal = false) (hd : s.dead = false) (h0 : cause ≠ 0) (h3 : cause.toNat ≤ 3) :
    execFatalError cause s = .next (raise { pubOther s (placeL dumpBase (dumpBytes s cause)) with fatal := true } .fatal) :=
  if_neg (by simpa [hf, hd, h3] using h0)
theorem execDumpread_fatal {s : State} {off : Nat} (hf : s.fatal = true) (hd : s.dead = false) (ho : off + 8 ≤ 2 ^ 31) :
    execDumpread off s = .next (ackOk s (s.mem.rdN (dumpBase + off) 8)) := by
  have h : ¬ dumpRoom < off + 8 := Nat.not_lt.2 ho
  exact if_neg (by simp [hf, hd, h])
/-- The three words of the header, read from the memory that holds the dump (log entry 29). -/
theorem dumpHeader_rdN (s : State) (cause : BitVec 8) (m : Mem) :
    (m.wrBytes dumpBase (dumpBytes s cause)).rdN dumpBase 8 = 2 + cause.toNat * 2 ^ 16 ∧
    (m.wrBytes dumpBase (dumpBytes s cause)).rdN (dumpBase + 8) 8 = s.us % 2 ^ 64 ∧
    (m.wrBytes dumpBase (dumpBytes s cause)).rdN (dumpBase + 16) 8 = 5 := by
  obtain ⟨post, h⟩ := dump_head s cause
  have hc := cause.isLt
  refine ⟨?_, ?_, ?_⟩
  · have := rdN_at dumpBase 8 (2 + cause.toNat * 2 ^ 16) 0 (dumpBytes s cause) [] (bytesOf 8 s.us ++ bytesOf 8 5 ++ post) m (by simp [h]) rfl
    rw [Nat.add_zero] at this
    rw [this]; omega
  · exact rdN_at dumpBase 8 s.us 8 _ (bytesOf 8 (2 + cause.toNat * 2 ^ 16)) (bytesOf 8 5 ++ post) m (by simp [h]) (bytesOf_len _ _)
  · exact rdN_at dumpBase 8 5 16 _ (bytesOf 8 (2 + cause.toNat * 2 ^ 16) ++ bytesOf 8 s.us) post m (by simp [h]) (by simp [bytesOf_len])

/-! The clauses, event by event. -/

/-- A verified image of the ROM runs, and another leaves the module HALTED with its FAILCODE (R343). -/
theorem bootRomVerify_boots {s : State} (hst : s.boot.st = 0) (hd : s.dead = false) :
    ∃ t, exec .bootRomVerify s = .next t ∧ t = { s with boot := t.boot } ∧
      (verifyFw s romImage = 0 → t.boot.st = 1 ∧ t.boot.fwver = romImage.version ∧ t.boot.failcode = 0 ∧
        t.boot.floor.toNat = max s.boot.floor.toNat romImage.floor.toNat) ∧
      (verifyFw s romImage ≠ 0 → t.boot = { s.boot with st := 3, failcode := verifyFw s romImage }) := by
  refine ⟨_, execBootRomVerify_rom hst hd, ?_, fun hv => ?_, fun hv => ?_⟩
  · split <;> rfl
  · rw [if_pos hv]; exact ⟨rfl, rfl, rfl, runFw_floor romImage s⟩
  · rw [if_neg hv]; rfl
/-- FWLOAD in HALTED does with its image as the ROM does (R343). -/
theorem fwload_boots {s : State} (f : Firmware) (hst : s.boot.st = 3) (hf : s.fatal = false) (hd : s.dead = false) :
    ∃ t, exec (.fwload f) s = .next t ∧ t = { s with boot := t.boot, ack := t.ack } ∧
      (verifyFw s f = 0 → t.ack = ⟨true, 0⟩ ∧ t.boot.st = 1 ∧ t.boot.fwver = f.version ∧ t.boot.fw = f.body ∧
        t.boot.floor.toNat = max s.boot.floor.toNat f.floor.toNat) ∧
      (verifyFw s f ≠ 0 → t.ack = ⟨false, 0⟩ ∧ t.boot = { s.boot with st := 3, failcode := verifyFw s f }) := by
  refine ⟨_, execFwload_halted f hst hf hd, ?_, fun hv => ?_, fun hv => ?_⟩
  · split <;> rfl
  · rw [if_pos hv]; exact ⟨rfl, rfl, rfl, rfl, runFw_floor f s⟩
  · rw [if_neg hv]; exact ⟨rfl, rfl⟩
/-- Firmware leaves this module's stores zero and every core as reset leaves it, and the module is ready (R343, log entry 79). -/
theorem firmwareInit_readies {s : State} (hst : s.boot.st = 1) (hd : s.dead = false) :
    ∃ t, exec .firmwareInit s = .next t ∧ t.boot = { s.boot with st := 2 } ∧
      (∀ a, t.mem.rd a = if locIsLocal a = true then 0 else s.mem.rd a) ∧ t.badG = [] ∧
      (∀ c, ∃ r : Bool, cr t c = { Core.reset with retired := r, portw := if r then 0 else 1 }) := by
  obtain ⟨hmem, hbad, hboot⟩ := applyRetirements_keeps { scrubStores s with boot := { s.boot with st := bootReady } }
  refine ⟨_, execFirmwareInit_boots hst hd, hboot, fun a => ?_, hbad, fun c => ⟨_, cr_map_bareCore _ c⟩⟩
  exact (congrArg (Mem.rd · a) hmem).trans (scrubStores_rd s a)
/-- A fatal error writes the dump in its place by one publication, and what else changes is what the publication sends (R338). -/
theorem fatalError_dumps {s : State} {cause : BitVec 8} (hf : s.fatal = false) (hd : s.dead = false) (h0 : cause ≠ 0) (h3 : cause.toNat ≤ 3) :
    ∃ t ws, exec (.fatalError cause) s = .next t ∧
      t.fatal = true ∧ t.events = s.events ++ [.fatal] ∧ t.pubs = s.pubs ++ [⟨.host 0, BitVec.allOnes 64, agentMask (.host 0) s.pubs 1, ws⟩] ∧
      (∀ w, w ∈ ws → 0x2F80000000 ≤ w.1 ∧ w.1 < 0x2F80000000 + 2147483648) ∧
      t.mem.rdN 0x2F80000000 8 = 2 + cause.toNat * 2 ^ 16 ∧ t.mem.rdN 0x2F80000008 8 = s.us % 2 ^ 64 ∧ t.mem.rdN 0x2F80000010 8 = 5 ∧
      t.mem = s.mem.wrPairs ws ∧ t = { s with
        fatal := true, events := t.events, pubs := t.pubs, mem := t.mem, badG := t.badG, nextId := t.nextId, ackWait := t.ackWait
        sent := t.sent, outSeq := t.outSeq } := by
  have hexec := execFatalError_due hf hd h0 h3
  have hroom := dump_room s cause
  obtain ⟨hword, hus, hsecs⟩ := dumpHeader_rdN s cause s.mem
  rw [← wrPairs_place] at hword hus hsecs
  generalize placeL dumpBase (dumpBytes s cause) = ws at *
  obtain ⟨n, k, o, q, hpub⟩ := pubOther_eq s ws
  rw [hpub] at hexec
  exact ⟨_, ws, hexec, rfl, rfl, rfl, hroom, hword, hus, hsecs, rfl, rfl⟩

end Sys2Proof.Machine
end

section
open Sys2Proof Sys2Proof.Machine

/-- Settles O41, clause by clause: each event's equation in the state that enables it, the scrub's law for the stores, and the dump's
header read back from the bytes written. -/
theorem bootPowerAndFatalErrors : Obligations.BootPowerAndFatalErrors := by
  intro s
  refine ⟨⟨resetState s, rfl, rfl, rfl, resetState_rd s, rfl, rfl, pt_resetState s, vf_resetState s, cr_resetState s⟩, rom_all s,
    bootRomVerify_boots, firmwareInit_readies, fwload_boots, fun f => execFwload_refused f, fun mhz stall hd => ?_, execThermtrip_on,
    fun cause => fatalError_dumps, fun off => execDumpread_fatal⟩
  have hfloor := clockFloor_bounds s
  exact ⟨_, execPowerCap_on mhz stall hd, rfl, by dsimp only; omega, by dsimp only; omega⟩

end

section
/-! PROOFS. Loads of global memory and atomics put in flight (R33, R199, R206 to R208, R211, R212, R217). -/
namespace Sys2Proof.Machine

/-- The bytes that the core's view gives do not depend on which of its scalars are full. -/
theorem loadBytes_emptyS (d : BitVec 6) (s : State) (q va loc n : Nat) :
    loadBytes (emptyS d s) s.iss.core q va loc n = loadBytes s s.iss.core q va loc n := by
  obtain ⟨hcore, hiss, _, _, hme⟩ := emptyS_only d s
  have hpubs : (emptyS d s).pubs = s.pubs := by rw [hcore]
  have hcr : cr (emptyS d s) s.iss.core = me (emptyS d s) := by
    show _ = cr _ (emptyS d s).iss.core
    rw [hiss]
  unfold loadBytes snapOf
  rw [hpubs, hcr, hme]
  rfl
/-- A scalar load puts its one lane in flight with the bytes of the core's view (R33, R206, R217). -/
theorem loadS_law (s : State) (h : s.iss.act = true) (kind : PKind) (d : BitVec 6) (n : Nat) (a : Int) :
    ∃ t ls, t = nextSlot (issueLoad false kind [.s d] 0 n [(0, a)] (emptyS d s)) ∧ OnlyCoreAndWalks s t ∧ SlotDone s t ∧ Noted (.s d) s t ∧
      FrameS s t d ∧ InFlight s t kind [.s d] 0 [(0, gAddr a, n)] ls ∧ (∀ l ∈ ls, Loaded s l) ∧
      (∀ loc, xlMe s (gAddr a) false = .ok loc → badColumn s loc n = none → ∀ l ∈ ls, l.st = .ready loc) := by
  obtain ⟨hcore, hiss, hme⟩ := note_only (.s d) (fun k => k.setS d ⟨rdS k.regs d, false⟩) s
  change OnlyCore s (emptyS d s) at hcore
  change (emptyS d s).iss = _ at hiss
  change me (emptyS d s) = _ at hme
  obtain ⟨u, f, ls, hwalk, heq, hlanes, hloaded, hready⟩ := issueLoad_law false kind [.s d] 0 n [(0, a)] (emptyS d s)
  have ht : (emptyS d s).iss.t = s.iss.t := by rw [hiss]
  have hc : (emptyS d s).iss.core = s.iss.core := by rw [hiss]
  have hseq : (me (emptyS d s)).seq = (me s).seq := by rw [hme, setS_eq]; rfl
  obtain ⟨honly, hdone, hme'⟩ := walks_then h hcore _ hiss hwalk (fun k => launched kind [.s d] ((emptyS d s).iss.t + 1) 0 ls (moreFailed f k))
  rw [← heq] at honly hdone hme'
  rw [hme] at hme'
  obtain ⟨hnoted, hframe⟩ := frameS_of d _ _ _ _ _ hme'
  refine ⟨_, ls, rfl, honly, hdone, hnoted, hframe, ⟨?_, ?_, hlanes⟩, fun l hl loc hst hw hloc => ?_, fun loc hx hb => ?_⟩
  · rw [hme', ht, setS_eq]; rfl
  · rw [hme', setS_eq]; rfl
  · have hw' : loadWaits (me (emptyS d s)) (me (emptyS d s)).seq l = false := by rw [hme, setS_eq]; exact hw
    rw [hloaded l hl loc hst hw' hloc, hc, hseq, loadBytes_emptyS]
  · refine hready rfl 0 a rfl loc ?_ ?_
    · rw [hcore.xlMe hc]; exact hx
    · rw [hcore]; exact hb

/-- A ready slot in which no fault is found commits its effect. -/
theorem runSlot_unfaulted {i : Instr} {s : State} {f : Option TrapInfo} (h : Ready i s) (hf : f = none) (eff : State → State) :
    runSlot i f false eff s = .next (nextSlot (eff s)) := hf ▸ runSlot_go h eff
/-- A vector load with an enabled lane commits with its lanes in flight (R207, R208). -/
theorem loadV_commits {i : Instr} {s : State} {f : Option TrapInfo} (h : Ready i s) (hf : f = none) (lv : Bool) (d : BitVec 6) (tag : Tag)
    (lanes : List (Nat × Int)) (hne : lanes ≠ []) :
    ∃ t ls, runSlot i f false (loadV lv d tag lanes) s = .next t ∧ OnlyCoreAndWalks s t ∧ SlotDone s t ∧ Noted (.v d) s t ∧ FrameV s t d tag ∧
      InFlight s t (.load false false tag) [.v d] ((rdV (me s).regs d).bits.setWidth 4096) (lanes.map (fun l => (l.1, gAddr l.2, 4))) ls ∧
      (∀ l ∈ ls, Loaded s l) := by
  obtain ⟨t, ls, rfl, hrest⟩ := loadV_law s (ready_iss h) lv d tag lanes hne
  exact ⟨_, ls, runSlot_unfaulted h hf _, hrest⟩
/-- With no lane enabled a vector load keeps the register's bits under its tag (R207). -/
theorem loadV_none {i : Instr} {s : State} {f : Option TrapInfo} (h : Ready i s) (hf : f = none) (lv : Bool) (d : BitVec 6) (tag : Tag)
    {lanes : List (Nat × Int)} (hl : lanes = []) :
    WritesV s (runSlot i f false (loadV lv d tag lanes) s) d (rdV (me s).regs d).bits tag := by
  rw [runSlot_unfaulted h hf, hl]
  exact writesV d _ tag s (ready_iss h)

end Sys2Proof.Machine
end

section
open Sys2Proof Sys2Proof.Machine

/-- Settles O16, by the law of a scalar load's one lane. -/
theorem scalarLoadsOfGlobalMemory : Obligations.ScalarLoadsOfGlobalMemory := by
  intro s o hr hf
  obtain ⟨t, ls, rfl, hrest⟩ := loadS_law s (ready_iss hr) (.load true (!o.u) 0) o.d (szBytes o.z) (eaddr s o.base o.off (szBytes o.z))
  exact ⟨_, ls, (exec_ldg o s).trans (runSlot_unfaulted hr hf _), hrest⟩

/-- Settles O17, by the law of a vector load's lanes, and by a plain write of the register where no lane is enabled. -/
theorem vectorLoadsOfGlobalMemory : Obligations.VectorLoadsOfGlobalMemory := by
  intro s
  refine ⟨fun o hr hon hf => ?_, fun o hr hon => ?_, fun o hr hon hf => ?_, fun o hr hon htag => ?_⟩
  · have hf' : (if (lanesOn (srcM s o.m)).isEmpty then none else vecFault s wLoad (eaddr s o.base o.off 256) (lanesOn (srcM s o.m))) = none := by
      rw [hf, ite_self]
    obtain ⟨t, ls, hexec, hrest⟩ := loadV_commits hr hf' false o.d o.t
      (vecLanes (eaddr s o.base o.off 256) (lanesOn (srcM s o.m))) (by simpa [vecLanes] using hon)
    exact ⟨t, ls, (exec_vldg o s).trans hexec, by simpa [vecLanes, Function.comp_def] using hrest⟩
  · rw [exec_vldg]
    exact loadV_none hr (if_pos (by rw [hon]; rfl)) false o.d o.t (by rw [hon]; rfl)
  · obtain ⟨t, ls, hexec, hrest⟩ := loadV_commits hr hf true o.d o.t (gathLanes s o.base o.i (lanesOn (srcM s o.m))) (by simpa [gathLanes] using hon)
    exact ⟨t, ls, (exec_vgath o s).trans hexec, by simpa [gathLanes, Function.comp_def] using hrest⟩
  · have hf : gathFault s wLoad o.base o.i (lanesOn (srcM s o.m)) = none := by simp [gathFault, htag, hon, wLoad]
    rw [exec_vgath]
    exact loadV_none hr hf true o.d o.t (by rw [hon]; rfl)

/-- Settles O19, by the law of an atomic's one lane. -/
theorem atomicsGoInFlight : Obligations.AtomicsGoInFlight := by
  intro s
  refine ⟨fun o hr hf => ?_, fun o hr hf => ?_⟩
  · obtain ⟨t, ls, rfl, hrest⟩ := amo_law s (ready_iss hr) o.fn o.wide o.d o.base o.o 0
    exact ⟨_, ls, (exec_amo o s).trans (runSlot_unfaulted hr hf _), hrest⟩
  · obtain ⟨t, ls, rfl, hrest⟩ := amo_law s (ready_iss hr) 9 o.wide o.d o.base o.o (srcS s o.d)
    exact ⟨_, ls, (exec_amoCas o s).trans (runSlot_unfaulted hr hf _), hrest⟩

end

section
/-! PROOFS. The order of the slots, the turns of the agenda, the words of the encoding tables and the state after reset (R19, R26,
R29, R30, R39 to R52, log entries 1 to 3 and 106). -/
namespace Sys2Proof.Machine

/-! The slot whose turn it is. -/

theorem step_commits {s : State} (h : s.iss.act = true) : step s = commitStep s := if_pos h
/-- The slot whose turn it is, where a live slot that is no no-op is the first from the bundle's slot on. -/
theorem nextSlotNo_first {s : State} {n : Nat} (hlo : s.iss.slot ≤ n) (hn : n < 10) (hlive : slotLive s.iss.bundle n s.iss.leaf.toNat = true)
    (hword : slotWord s.iss.bundle n ≠ 0)
    (hbefore : ∀ m, s.iss.slot ≤ m → m < n → slotLive s.iss.bundle m s.iss.leaf.toNat = true → slotWord s.iss.bundle m = 0) :
    nextSlotNo s = n := by
  obtain ⟨k, hk, _, heq, hskip, hstop⟩ := slotFrom_law s.iss.bundle s.iss.leaf.toNat (10 - s.iss.slot) s.iss.slot
  simp only [holds_noop] at hskip hstop
  rw [nextSlotNo, heq]
  rcases Nat.lt_trichotomy k n with hlt | rfl | hgt
  · refine absurd ?_ (hstop (by omega))
    cases hl : slotLive s.iss.bundle k s.iss.leaf.toNat
    · exact .inr rfl
    · exact .inl (hbefore k hk hlt hl)
  · rfl
  · rcases hskip n hlo hgt with h | h
    · exact absurd h hword
    · rw [hlive] at h; cases h
/-- After the last live slot the turn is past the slots. -/
theorem nextSlotNo_last {s : State} (hs : s.iss.slot ≤ 10)
    (hrest : ∀ m, s.iss.slot ≤ m → m < 10 → slotLive s.iss.bundle m s.iss.leaf.toNat = true → slotWord s.iss.bundle m = 0) :
    nextSlotNo s = 10 := by
  obtain ⟨k, hk, hle, heq, _, hstop⟩ := slotFrom_law s.iss.bundle s.iss.leaf.toNat (10 - s.iss.slot) s.iss.slot
  simp only [holds_noop] at hstop
  rw [nextSlotNo, heq]
  refine Nat.le_antisymm (by omega) (Nat.le_of_not_lt fun hlt => hstop (by omega) ?_)
  cases hl : slotLive s.iss.bundle k s.iss.leaf.toNat
  · exact .inr rfl
  · exact .inl (hrest k hk hlt hl)
theorem slotHolds_ins {b : Bundle} {n : Nat} {i : Instr} (hw : slotWord b n ≠ 0) (hd : decodeClass (slotClass n) (slotWord b n) = some i) :
    slotHolds b n = .ins i := by
  simp [slotHolds, hw, hd]
theorem step_instr {s : State} {n : Nat} {i : Instr} (h : s.iss.act = true) (hn : n < 10) (hnext : nextSlotNo s = n)
    (hi : slotHolds s.iss.bundle n = .ins i) : step s = exec i (atSlot n s) := by
  rw [step_commits h, commitStep, hnext]
  simp only [if_pos hn, hi]
theorem step_close {s : State} (h : s.iss.act = true) (hnext : nextSlotNo s = 10) : step s = exec (.bundleIssue s.iss.core) (atSlot 10 s) := by
  rw [step_commits h, commitStep, hnext]
  rfl

/-! The unit of a dictionary index. -/

/-- A halfword below 0x2000 is the unit of that index, one halfword long (R19, R24). -/
theorem unitOf_index {d : List Bundle} {h : BitVec 16} {r : List (BitVec 16)} {b : Bundle} (hh : h.toNat < 0x2000) (hd : d[h.toNat]? = some b)
    (hz : b.toNat / 2 ^ 46 % 4 = 0) : unitOf d (h :: r) = some ⟨b, none, 1⟩ := by
  have hrep : (decide (0xF000 ≤ h.toNat) && decide (h.toNat ≤ 0xF0FF)) = false := by
    rw [decide_eq_false (by omega), Bool.false_and]
  simp only [unitOf, hrep, unitBody, if_pos hh, hd, Option.map_some, headerOk, hz]
  rfl
theorem nextUnitOf_alone {k : Core} (hf : k.follow = []) :
    nextUnitOf k = (unitAt k.dict k.code k.pc).map (fun u => (k.pc, u.bundle, u.len)) := by
  simp [nextUnitOf, follows, hf]

/-! Turns of the agenda. -/

theorem isWindow_of_commandVf {i : Instr} {v : VfId} (h : commandVf i = some v) : isWindow i = true := by
  unfold commandVf at h
  split at h
  case h_9 => cases h
  all_goals rfl
/-- A window's command waits behind a launch or a report of its VF window that waits (log entry 106). -/
theorem windowWaits_iff (s : State) (i : Instr) : windowWaits s i = true ↔ ∃ v p, commandVf i = some v ∧ winOpen s = true ∧
    (vf s v).bound = some p ∧ ((pt s p).launch ≠ none ∨ (pt s p).attest ≠ none) := by
  unfold windowWaits winPart
  cases commandVf i with
  | none => simp
  | some v =>
    cases hw : winOpen s with
    | false => simp
    | true => cases hb : (vf s v).bound <;> simp [hb, Option.isSome_iff_ne_none]
theorem windowWaits_other {s : State} {i : Instr} (h : isWindow i = false) : windowWaits s i = false := by
  rw [Bool.eq_false_iff]
  intro hw
  obtain ⟨v, _, hv, _⟩ := (windowWaits_iff s i).1 hw
  rw [isWindow_of_commandVf hv] at h
  cases h
theorem step_turn {s : State} {t : Turn} {r : List Turn} (h : s.iss.act = false) (ha : s.agenda = t :: r) : step s = turnStep t r s := by
  simp [step, h, ha]
theorem turnStep_exec {s : State} {t : Turn} {r : List Turn} (h : isWindow t.ev = false ∨
    nodeWaits (turnState t r s) (turnState t r s).ch.node = false ∧ windowWaits (turnState t r s) t.ev = false) :
    turnStep t r s = exec t.ev (turnState t r s) := by
  refine if_neg ?_
  rcases h with h | ⟨hn, hw⟩
  · simp [h, windowWaits_other h]
  · simp [hn, hw]
theorem turnStep_waits {s : State} {t : Turn} {r : List Turn} (hi : isWindow t.ev = true)
    (h : nodeWaits (turnState t r s) (turnState t r s).ch.node = true ∨ windowWaits (turnState t r s) t.ev = true) :
    turnStep t r s = .next (turnState t r s) := by
  refine if_pos ?_
  rcases h with h | h <;> simp [hi, h]
/-- With an empty agenda and no event due a cycle passes (log entry 3). -/
theorem step_idle {s : State} (h : s.iss.act = false) (ha : s.agenda = [])
    (hdue : ∀ i ∈ dueEvents { s with ch := Choice.reset }, exec i { s with ch := Choice.reset } = .next { s with ch := Choice.reset }) :
    step s = .next (tick { s with ch := Choice.reset }) := by
  have hidle : step s = idleStep s := by simp [step, h, ha]
  rw [hidle, idleStep, firstDue_none _ _ hdue]
  rfl

/-! Right after reset. -/

theorem pt_reset (p : PartId) : pt State.reset p = Part.reset := Vector.getElem_replicate _
theorem cr_reset (c : CoreId) : cr State.reset c = Core.reset := Vector.getElem_replicate _
theorem vf_reset (v : VfId) : vf State.reset v = Vf.reset := Vector.getElem_replicate _
theorem rdM_reset (m : BitVec 3) : rdM Regs.reset m = if m = 0 then BitVec.allOnes 64 else 0 := by
  simp [rdM, Regs.reset]

end Sys2Proof.Machine
end

section
open Sys2Proof Sys2Proof.Machine

/-- Settles O56, by the slot whose turn it is, the unit of an index, and the turn or the idle cycle between bundles. -/
theorem stepsRunTheDecodedInstruction : Obligations.StepsRunTheDecodedInstruction := by
  intro s
  refine ⟨fun hact => ⟨fun n i hlo hn hlive hword hdec hbefore => ?_, fun hs hrest => ?_⟩, fun k h b hfol hcode hh hdict hz => ?_,
    fun t r hact hag => ⟨fun h => ?_, fun hi h => ?_⟩, windowWaits_iff s, fun hact hag hdue => step_idle hact hag hdue⟩
  · exact step_instr hact hn (nextSlotNo_first hlo hn hlive hword hbefore) (slotHolds_ins hword hdec)
  · exact step_close hact (nextSlotNo_last hs hrest)
  · obtain ⟨hlt, hget⟩ := List.getElem?_eq_some_iff.1 hcode
    rw [nextUnitOf_alone hfol, unitAt, List.drop_eq_getElem_cons hlt, hget, unitOf_index hh hdict hz]
    rfl
  · exact (step_turn hact hag).trans (turnStep_exec h)
  · exact (step_turn hact hag).trans (turnStep_waits hi h)

/-- Settles O55: each word of the list is decoded. -/
theorem wordsOfTheTablesDecode : Obligations.WordsOfTheTablesDecode :=
  ⟨by decide, by decide, by decide, by decide, by decide, by decide, by decide, by decide, by decide, by decide, by decide, by decide,
    by decide, by decide, by decide, by decide, by decide, by decide, by decide⟩

/-- Settles O57, by the reset value of each core, partition and VF. -/
theorem resetHoldsItsValues : Obligations.ResetHoldsItsValues := by
  refine ⟨rfl, rfl, rfl, rfl, rfl, rfl, rfl, rfl, fun p => ?_, fun c => ?_, fun v => ?_, reset_coh⟩
  · rw [queueOf, pt_reset]; exact ⟨rfl, rfl, rfl, rfl⟩
  · rw [cr_reset]; exact ⟨rfl, rfl, rfl, rfl, rfl, rfl, rfl, rfl, rdM_reset, rfl⟩
  · rw [vf_reset]; exact ⟨rfl, rfl, rfl, rfl⟩

end

section
/-! PROOFS. Results in flight that land (R33, R199 to R212, R240 to R250, R91). -/
namespace Sys2Proof.Machine

/-! The meaning of a landing, by the kind of its result. -/

section
variable {s : State} {c : CoreId} {n : Nat} {q : Pend} (hq : (cr s c).pend[n]? = some q) (hdue : q.due ≤ s.now) (hf : s.fatal = false)
  (hd : s.dead = false)
include hq hdue hf hd

omit hq in
theorem notHeld : (decide (s.now < q.due) || s.fatal || s.dead) = false := by simp [hf, hd, hdue]
theorem landStep_calc (hk : q.kind = .calc) : landStep c n s = landPend c n q s := by
  simp only [landStep, hq, notHeld hdue hf hd, hk, Bool.false_eq_true, if_false]
theorem landStep_load {sc sg : Bool} {tag : Tag} (hk : q.kind = .load sc sg tag) : landStep c n s = landLoad c n q sc sg s := by
  simp only [landStep, hq, notHeld hdue hf hd, hk, Bool.false_eq_true, if_false]
/-- An operation on memory whose lanes are ready and free of earlier accesses performs the core's earlier stores and lands (R212). -/
theorem landStep_amo {fn : BitVec 4} {wide : Bool} {v e : W64} {l : Lane} {loc : Nat} (hk : q.kind = .amo fn wide v e) (hl : q.lanes = [l])
    (hr : l.st = .ready loc) (he : earlierHit (cr s c) q.seq [l] = false) (hb : badColumn (flushOwn s c q.seq loc l.len) loc l.len = none) :
    landStep c n s = landAmo c n q fn wide v e loc (flushOwn s c q.seq loc l.len) := by
  simp [landStep, hq, hf, hd, Nat.not_lt.2 hdue, hk, hl, he, flushLanes, badLane, Lane.isReady, Lane.loc, hr, hb]
theorem landStep_rowld {len : Nat} {l : Lane} {loc : Nat} (hk : q.kind = .rowld len) (hl : q.lanes = [l])
    (hr : l.st = .ready loc) (he : earlierHit (cr s c) q.seq [l] = false) (hb : badColumn (flushOwn s c q.seq loc l.len) loc l.len = none) :
    landStep c n s = landRowld c n q (flushOwn s c q.seq loc l.len) := by
  simp [landStep, hq, hf, hd, Nat.not_lt.2 hdue, hk, hl, he, flushLanes, badLane, Lane.isReady, Lane.loc, hr, hb]
theorem landStep_tap {kind : Nat} {tap : BitVec 2} {vec : Bool} {region mem : Nat} (hk : q.kind = .tap kind tap vec region mem)
    (hr : q.lanes.all Lane.isReady = true) (he : earlierHit (cr s c) q.seq q.lanes = false) (hb : badLane s q.lanes = none) :
    landStep c n s = landTap c n q kind tap vec region mem s := by
  simp only [landStep, hq, notHeld hdue hf hd, hk, hr, he, hb, Bool.not_true, Bool.or_self, Bool.false_eq_true, if_false]
theorem landStep_join {a : Nat} {l : Lane} {loc : Nat} (hk : q.kind = .join a) (hl : q.lanes = [l]) (hr : l.st = .ready loc)
    (he : earlierHit (cr s c) q.seq [l] = false) (hb : badColumn s loc l.len = none) :
    landStep c n s = landJoin c n q a loc s := by
  simp [landStep, hq, hf, hd, Nat.not_lt.2 hdue, hk, hl, he, badLane, Lane.isReady, Lane.loc, hr, hb]
end

/-! What a landing leaves in its registers. -/

/-- A core whose pending result n has left the list. -/
def landed (n : Nat) (k : Core) : Core := { k with pend := k.pend.eraseIdx n }
theorem landPend_toS {s : State} {c : CoreId} {n : Nat} {q : Pend} {d : BitVec 6} (hd : q.dst = [.s d]) (x : W64)
    (hx : q.val.extractLsb' 0 64 = x) :
    landPend c n q s = { s with cores := s.cores.set c ((landed n (cr s c)).setS d ⟨x, true⟩) } := by
  rw [landPend_eq, hd, ← hx]
  rfl
theorem landPend_toV {s : State} {c : CoreId} {n : Nat} {q : Pend} {d : BitVec 6} (hd : q.dst = [.v d]) (x : VBits)
    (hx : q.val.extractLsb' 0 2048 = x) :
    landPend c n q s = { s with cores := s.cores.set c ((landed n (cr s c)).setV d ⟨x, (rdV (cr s c).regs d).tag, true⟩) } := by
  rw [landPend_eq, hd, ← hx]
  rfl

/-! Lanes that take their bytes. -/

theorem captureLane_done {c : CoreId} {q : Nat} {l : Lane} {s : State} (h : l.data.isSome = true) : captureLane c q l s = (s, l) := by
  obtain ⟨bs, hbs⟩ := Option.isSome_iff_exists.1 h
  unfold captureLane
  split
  case h_1 hn => rw [hbs] at hn; cases hn
  case h_2 => rfl
/-- A lane that is not translated takes nothing. -/
theorem captureLane_waits {c : CoreId} {q : Nat} {l : Lane} {s : State} (h : l.isReady = false) : captureLane c q l s = (s, l) := by
  unfold captureLane
  split
  case h_1 hr _ => simp [Lane.isReady, Lane.loc, hr] at h
  case h_2 => rfl
theorem captureLane_takes {c : CoreId} {q : Nat} {l : Lane} {s : State} {loc : Nat} (hr : l.st = .ready loc) (hn : l.data = none)
    (hw : loadWaits (cr s c) q l = false) (hb : badColumn s loc l.len = none) :
    captureLane c q l s = (s, { l with data := some (loadBytes s c q l.va loc l.len) }) := by
  simp [captureLane, hr, hn, hw, readColumn_none hb]
theorem captureLanes_done {c : CoreId} {q : Nat} {s : State} : ∀ {ls : List Lane}, (∀ l ∈ ls, l.data.isSome = true) → captureLanes c q ls s = (s, ls)
  | [], _ => rfl
  | l :: ls, h => by
    rw [captureLanes_cons, captureLane_done (h l (by simp)), captureLanes_done (fun x hx => h x (by simp [hx]))]
/-- What taking the bytes of any lanes leaves: as many lanes, and of the core all but the record of failed ones. -/
theorem captureLanes_keeps (c : CoreId) (q : Nat) : ∀ (ls : List Lane) (s : State),
    (captureLanes c q ls s).2.length = ls.length ∧ (∃ u f, WalksOnly s u ∧ (captureLanes c q ls s).1 = modCr u c (moreFailed f)) ∧
    ∀ l ∈ ls, l.isReady = false → l ∈ (captureLanes c q ls s).2
  | [], s => ⟨rfl, ⟨s, [], WalksOnly.refl s, (moreFailed_nil s c).symm⟩, fun _ h => absurd h List.not_mem_nil⟩
  | l :: ls, s => by
    obtain ⟨u, f, hwalk, heq, _⟩ := captureLane_law c q l s
    obtain ⟨hlen, ⟨v, g, hwalk', heq'⟩, hmem⟩ := captureLanes_keeps c q ls (captureLane c q l s).1
    rw [captureLanes_cons]
    refine ⟨by simp [hlen], ?_, fun x hx hr => ?_⟩
    · rw [heq] at hwalk'
      obtain ⟨m, h1, h2, h3⟩ := hwalk'
      refine ⟨{ v with cores := u.cores }, f ++ g, hwalk.trans ⟨m, ?_, h2, h3⟩, ?_⟩
      · rw [h1]; rfl
      · rw [← moreFailed_more, heq', h1]
        rfl
    · rcases List.mem_cons.1 hx with rfl | hx
      · rw [captureLane_waits hr]; exact List.mem_cons_self
      · exact List.mem_cons_of_mem _ (hmem x hx hr)

theorem landLoad_full {s u : State} {c : CoreId} {n : Nat} {q : Pend} {sc sg : Bool} {ls : List Lane} (hc : captureLanes c q.seq q.lanes s = (u, ls))
    (hall : ∀ l ∈ ls, l.data.isSome = true) :
    landLoad c n q sc sg s = landPend c n { q with val := loadValue { q with lanes := ls } sc sg } u := by
  have h : ls.all (fun l => l.data.isSome) = true := by simpa using hall
  simp only [landLoad, hc, h, if_true]
/-- The value of a scalar load is its lane's bytes, extended (R202). -/
theorem loadValue_scalar {q : Pend} (sg : Bool) {l : Lane} {bs : List Byte} (hl : q.lanes = [l]) (hd : l.data = some bs) (hlen : 1 ≤ l.len) :
    (loadValue q true sg).extractLsb' 0 64 =
      if sg then (BitVec.ofNat (8 * l.len) (ofBytes bs)).signExtend 64 else (BitVec.ofNat (8 * l.len) (ofBytes bs)).zeroExtend 64 := by
  have hv : loadValue q true sg = (extend l.len (!sg) (ofBytes bs)).setWidth 4096 := by simp [loadValue, hl, hd]
  rw [hv, low_setWidth (by omega), extend_eq _ _ _ hlen]
/-- The value of a vector load, lane by lane (R207). -/
theorem loadValue_lanes (q : Pend) (sg : Bool) (hn : (q.lanes.map (fun l => l.i)).Nodup) (hi : ∀ l ∈ q.lanes, l.i < 64) :
    let x := (loadValue q false sg).extractLsb' 0 2048
    (∀ l bs, l ∈ q.lanes → l.data = some bs → laneOf x l.i = BitVec.ofNat 32 (ofBytes bs)) ∧
    (∀ i, i < 64 → (∀ l ∈ q.lanes, l.i ≠ i) → laneOf x i = laneOf (q.val.extractLsb' 0 2048) i) := by
  obtain ⟨hin, hout⟩ := lanes_fold (fun l => BitVec.ofNat 32 (ofBytes (l.data.getD []))) q.lanes q.val hn hi
  refine ⟨fun l bs hl hbs => ?_, fun i hi' hne => ?_⟩
  · rw [low_elem _ _ (hi l hl)]
    exact (hin l hl).trans (by rw [hbs]; rfl)
  · rw [low_elem _ _ hi', low_elem _ _ hi']
    exact hout i hi' hne

/-- A load with a lane that is not translated stays in flight (R199). -/
theorem landLoad_stays {s : State} {c : CoreId} {n : Nat} {q : Pend} (sc sg : Bool) (hq : (cr s c).pend[n]? = some q)
    (hw : ∃ l ∈ q.lanes, l.data = none ∧ l.isReady = false) : ∃ ls, (cr (landLoad c n q sc sg s) c).pend[n]? = some { q with lanes := ls } ∧
      ls.length = q.lanes.length ∧ (cr (landLoad c n q sc sg s) c).regs = (cr s c).regs ∧ (∀ b, b ≠ c → cr (landLoad c n q sc sg s) b = cr s b) := by
  obtain ⟨l, hl, hnone, hwait⟩ := hw
  obtain ⟨hlen, ⟨u, f, hwalk, heq⟩, hmem⟩ := captureLanes_keeps c q.seq q.lanes s
  have hnot : (captureLanes c q.seq q.lanes s).2.all (fun l => l.data.isSome) = false :=
    List.all_eq_false.2 ⟨l, hmem l hl hwait, by simp [hnone]⟩
  have hland : landLoad c n q sc sg s = modCr (modCr u c (moreFailed f)) c (fun k => { k with
      pend := k.pend.modify n (fun p => { p with lanes := (captureLanes c q.seq q.lanes s).2 }) }) := by
    rw [← heq]
    simp only [landLoad, hnot, Bool.false_eq_true, if_false]
  have hcr : cr (landLoad c n q sc sg s) c = { moreFailed f (cr s c) with
      pend := (cr s c).pend.modify n (fun p => { p with lanes := (captureLanes c q.seq q.lanes s).2 }) } := by
    rw [hland, cr_modCr_same, cr_modCr_same, hwalk.cr]
    rfl
  refine ⟨_, ?_, hlen, ?_, fun b hb => ?_⟩
  · rw [hcr]
    simp [hq]
  · rw [hcr]; rfl
  · rw [hland, cr_modCr_ne _ (Ne.symm hb), cr_modCr_ne _ (Ne.symm hb), hwalk.cr]

/-! Operations on memory. -/

theorem cr_flushOwn (s : State) (c : CoreId) (seq lo n : Nat) : (∃ u m, cr (flushOwn s c seq lo n) c = { cr s c with unpub := u, mine := m }) ∧
    (∀ b, b ≠ c → cr (flushOwn s c seq lo n) b = cr s b) ∧ (flushOwn s c seq lo n).parts = s.parts ∧ (flushOwn s c seq lo n).vfs = s.vfs := by
  obtain ⟨u, m, mem, pubs, b, i, k, o, q, h⟩ := flushOwn_law s c seq lo n
  have hcr := cr_set s c { cr s c with unpub := u, mine := m } (flushOwn s c seq lo n) (by rw [h])
  exact ⟨⟨u, m, by rw [hcr, if_pos rfl]⟩, fun b hb => by rw [hcr, if_neg hb], by rw [h], by rw [h]⟩
/-- Bytes written at their place by one number's little-endian order. -/
theorem wrPairs_bytes (m : Mem) (loc w y : Nat) : let t := m.wrPairs ((upto w).map (fun i => (loc + i, (bytesOf w y).getD i 0)))
    t.rdN loc w = y % 256 ^ w ∧ ∀ b, b < loc ∨ loc + w ≤ b → t.rd b = m.rd b := by
  dsimp only
  rw [bytes_place loc (bytesOf w y) w (bytesOf_len w y), wrPairs_place]
  refine ⟨?_, fun b hb => rd_wrBytes_out b _ loc m (by rw [bytesOf_len]; exact hb)⟩
  simpa using rdN_place loc w y [] [] m
/-- An AMO lands with the old word after it has stored the new one (R211). -/
theorem landAmo_law (s : State) (c : CoreId) (n : Nat) (q : Pend) (fn : BitVec 4) (wide : Bool) (v e : W64) (loc : Nat) {d : BitVec 6}
    (hd : q.dst = [.s d]) :
    let w := if wide then 8 else 4
    let x := s.mem.rdN loc w
    let y := amoNew fn.toNat (8 * w) x (v.toNat % 2 ^ (8 * w)) (e.toNat % 2 ^ (8 * w))
    let t := landAmo c n q fn wide v e loc s
    t.mem.rdN loc w = y % 256 ^ w ∧ (∀ b, b < loc ∨ loc + w ≤ b → t.mem.rd b = s.mem.rd b) ∧
    (∃ p, t.pubs = s.pubs ++ [p] ∧ p.agent = .core c) ∧ (cr t c).pend = (cr s c).pend.eraseIdx n ∧
    (cr t c).regs = ((cr s c).setS d ⟨BitVec.ofNat 64 x, true⟩).regs ∧ (∀ b, b ≠ c → cr t b = cr s b) := by
  intro w x y t
  obtain ⟨hin, hout⟩ := wrPairs_bytes s.mem loc w y
  generalize hws : (upto w).map (fun i => (loc + i, (bytesOf w y).getD i 0)) = ws at hin hout
  have ht : t = landPend c n { q with val := BitVec.ofNat 4096 x } (memOwn c q.seq ws (directFwd (.core c) s c ws)) := by rw [← hws]; rfl
  obtain ⟨i, k, o, r, hfwd⟩ := directFwd_law (.core c) s c ws
  have hcr : ∀ b, cr (directFwd (.core c) s c ws) b = if b = c then { cr s c with mine := (cr s c).mine ||| pubBit s } else cr s b :=
    cr_set s c _ _ (by rw [hfwd])
  have hmem : t.mem = s.mem.wrPairs ws := by
    rw [ht]; show (directFwd (.core c) s c ws).mem = _; rw [hfwd]
  have hpubs : t.pubs = (directFwd (.core c) s c ws).pubs := by rw [ht]; rfl
  rw [hmem, hpubs, hfwd]
  refine ⟨hin, hout, ⟨_, rfl, rfl⟩, ?_⟩
  obtain ⟨hpend, hregs, _, _⟩ := landPend_scalar (memOwn c q.seq ws (directFwd (.core c) s c ws)) c n { q with val := BitVec.ofNat 4096 x } d hd
    (BitVec.ofNat 64 x) (low_ofNat (by omega) x)
  have hme : cr (memOwn c q.seq ws (directFwd (.core c) s c ws)) c = { cr s c with
      mine := (cr s c).mine ||| pubBit s, own := ownPut (ws.reverse.map (fun w => ⟨w.1, 2 ^ 64, w.2, q.seq, 0⟩)) q.seq 0 (cr s c).own } := by
    rw [memOwn, cr_modCr_same, hcr, if_pos rfl]
  rw [ht, hpend, hregs, hme, setS_eq, setS_eq]
  refine ⟨rfl, rfl, fun b hb => ?_⟩
  rw [landPend_cr, if_neg hb, memOwn, cr_modCr_ne _ (Ne.symm hb), hcr, if_neg hb]

/-! JOIN (R91). -/

theorem mem_onBits (n x i : Nat) : i ∈ onBits n x ↔ i < n ∧ x.testBit i = true := by
  rw [onBits, List.mem_filter, mem_upto, bitAt_test]
/-- Where a member index is free, the lowest one is taken. -/
theorem freeMember_law {w : Nat} (h : (onBits 16 w).length < 16) :
    freeMember w < 16 ∧ w.testBit (freeMember w) = false ∧ ∀ j, j < freeMember w → w.testBit j = true := by
  have hsome : ((List.range 16).find? (fun i => !bitAt w i)).isSome = true := by
    by_contra hnone
    rw [List.find?_isSome] at hnone
    refine absurd h (Nat.not_lt.2 ?_)
    have hall : onBits 16 w = upto 16 := by
      refine List.filter_eq_self.2 fun i hi => ?_
      by_contra hb
      exact hnone ⟨i, by simpa using mem_upto.1 hi, by simpa using hb⟩
    rw [hall]; rfl
  obtain ⟨i, hi⟩ := Option.isSome_iff_exists.1 hsome
  have hfree : freeMember w = i := by
    rw [freeMember, upto_range, hi]; rfl
  rw [List.find?_range_eq_some] at hi
  obtain ⟨hbit, hlt, hmin⟩ := hi
  rw [hfree]
  simp only [bitAt_test] at hbit hmin
  exact ⟨by simpa using hlt, by simpa using hbit, fun j hj => by simpa using hmin j hj⟩

theorem landJoin_taken {s : State} {c : CoreId} {n a loc : Nat} {q : Pend} (hg : (cr s c).group ≠ none) :
    landJoin c n q a loc s = landPend c n { q with val := (BitVec.ofInt 64 (-2)).setWidth 4096 } s := by
  simp [landJoin, Option.isSome_iff_ne_none, hg]
theorem landJoin_reserved {s : State} {c : CoreId} {n a loc : Nat} {q : Pend} (hg : (cr s c).group = none) (hr : grpReserved s loc = true) :
    landJoin c n q a loc s = landPend c n { q with val := (BitVec.ofInt 64 (-3)).setWidth 4096 } s := by
  simp [landJoin, hg, hr]
/-- The capacity of a group record, and its members (R61). -/
def groupCap (s : State) (loc : Nat) : Nat := s.mem.rdN (loc + 8) 8 / 2 % 16 + 1
def groupMembers (s : State) (loc : Nat) : List Nat := (upto 16).filter (fun i => (s.mem.rdN loc 8).testBit i)
theorem groupMembers_eq (s : State) (loc : Nat) : onBits 16 (grpWord s loc) = groupMembers s loc := by
  simp [onBits, groupMembers, grpWord, bitAt_test]
theorem landJoin_full {s : State} {c : CoreId} {n a loc : Nat} {q : Pend} (hg : (cr s c).group = none) (hr : grpReserved s loc = false)
    (hfull : groupCap s loc ≤ (groupMembers s loc).length) :
    landJoin c n q a loc s = landPend c n { q with val := (BitVec.ofInt 64 (-1)).setWidth 4096 } s := by
  have hcap : bits (s.mem.rdN (loc + 8) 8) 1 4 + 1 ≤ (onBits 16 (grpWord s loc)).length := by rw [groupMembers_eq]; exact hfull
  simp [landJoin, hg, hr, hcap]
/-- The core joins as the lowest free member. -/
theorem landJoin_joins {s : State} {c : CoreId} {n a loc : Nat} {q : Pend} {d : BitVec 6} (hg : (cr s c).group = none)
    (hr : grpReserved s loc = false) (hroom : (groupMembers s loc).length < groupCap s loc) (hd : q.dst = [.s d]) :
    ∃ i, i < 16 ∧ (s.mem.rdN loc 8).testBit i = false ∧ (∀ j, j < i → (s.mem.rdN loc 8).testBit j = true) ∧
      (cr (landJoin c n q a loc s) c).group = some a ∧ (cr (landJoin c n q a loc s) c).member.toNat = i ∧
      (cr (landJoin c n q a loc s) c).regs = ((cr s c).setS d ⟨BitVec.ofNat 64 i, true⟩).regs ∧
      (cr (landJoin c n q a loc s) c).pend = (cr s c).pend.eraseIdx n ∧ (∀ b, b ≠ c → cr (landJoin c n q a loc s) b = cr s b) := by
  rw [← groupMembers_eq] at hroom
  have h16 : groupCap s loc ≤ 16 := by unfold groupCap; omega
  obtain ⟨hi, hfree, hlow⟩ := freeMember_law (Nat.lt_of_lt_of_le hroom h16)
  refine ⟨freeMember (grpWord s loc), hi, hfree, hlow, ?_⟩
  have hcap : ¬ bits (s.mem.rdN (loc + 8) 8) 1 4 + 1 ≤ (onBits 16 (grpWord s loc)).length := Nat.not_le.2 hroom
  obtain ⟨u, hland, hcores⟩ : ∃ u, landJoin c n q a loc s =
      landPend c n { q with val := (BitVec.ofInt 64 (freeMember (grpWord s loc))).setWidth 4096 } u ∧
      u.cores = s.cores.set c { cr s c with group := some a, member := BitVec.ofNat 4 (freeMember (grpWord s loc)) } := by
    simp only [landJoin, hg, Option.isSome_none, hr, hcap, Bool.false_eq_true, if_false]
    refine ⟨_, rfl, ?_⟩
    have hpoke : ∀ w, (modCr (poke s loc 8 w) c (fun k => { k with group := some a, member := BitVec.ofNat 4 (freeMember (grpWord s loc)) })).cores =
        s.cores.set c { cr s c with group := some a, member := BitVec.ofNat 4 (freeMember (grpWord s loc)) } := fun w => by
      rw [← cr_of_cores (poke_core s loc 8 w).1 c, ← (poke_core s loc 8 w).1]; rfl
    split
    · rw [(recPut_core _ _ _ _ _ _ _).1, (recPut_core _ _ _ _ _ _ _).1, hpoke]
    · exact hpoke _
  generalize freeMember (grpWord s loc) = i at *
  have hcr := cr_set s c _ u hcores
  obtain ⟨hpend, hregs, hgroup, hmember⟩ := landPend_scalar u c n { q with val := (BitVec.ofInt 64 i).setWidth 4096 } d hd (BitVec.ofNat 64 i)
    (by rw [low_setWidth (by omega)]; rfl)
  rw [hland, hpend, hregs, hgroup, hmember, hcr, if_pos rfl, setS_eq, setS_eq]
  refine ⟨rfl, ?_, rfl, rfl, fun b hb => ?_⟩
  · simp only [BitVec.toNat_ofNat]; omega
  · rw [landPend_cr, if_neg hb, hcr, if_neg hb]

end Sys2Proof.Machine
end

section
/-! PROOFS. Posted operations and samples that are performed (R213, R214, R236, R252). -/
namespace Sys2Proof.Machine

/-- Nothing has changed but what is sent, the acknowledgements awaited and the counter that names them. -/
def SendsOnly (s t : State) : Prop := ∃ n k o q, t = { s with nextId := n, ackWait := k, sent := o, outSeq := q }
theorem SendsOnly.refl (s : State) : SendsOnly s s := ⟨_, _, _, _, rfl⟩
theorem SendsOnly.trans {s t u : State} : SendsOnly s t → SendsOnly t u → SendsOnly s u
  | ⟨_, _, _, _, h⟩, ⟨n, k, o, q, g⟩ => ⟨n, k, o, q, by rw [g, h]⟩
theorem forwardAll_sends (a : Agent) (p : PartId) (ws : List (Nat × Byte)) (s : State) : SendsOnly s (forwardAll a p ws s).1 := forwardAll_law a p ws s
theorem SendsOnly.foldl {α : Type} (f : State → α → State) (hf : ∀ s a, SendsOnly s (f s a)) : ∀ (l : List α) (s : State), SendsOnly s (l.foldl f s)
  | [], s => .refl s
  | a :: l, s => (hf s a).trans (SendsOnly.foldl f hf l (f s a))
/-- An operation handed to the Rill units of other modules (R213). -/
theorem sendRill_sends (c : CoreId) (k : OKind) (ls : List Lane) (s : State) : SendsOnly s (sendRill c k ls s) :=
  SendsOnly.foldl _ (fun _ _ => ⟨_, _, _, _, rfl⟩) _ s

/-- A core's flags joined to the Rill flags of its VF change nothing else (R252). -/
theorem rillFlag_law (c : CoreId) (f : BitVec 5) (s : State) : ∃ vs, rillFlag c f s = { s with vfs := vs } ∧
    ∀ v, vfOf s c = some v → (vf (rillFlag c f s) v).rillflags = (vf s v).rillflags ||| f := by
  unfold rillFlag
  cases hv : vfOf s c with
  | none => exact ⟨s.vfs, rfl, fun v h => nomatch h⟩
  | some v =>
    refine ⟨_, rfl, fun w h => ?_⟩
    cases h
    show (vf (modVf s v _) v).rillflags = _
    rw [vf_modVf_same]

/-- A posted operation on one element, performed on the memory that the core's earlier stores have left (R213). -/
theorem rillGo_radd {s : State} {c : CoreId} {n loc : Nat} {o : Post} {fmt : Tag} {op : BitVec 3} {x : W64} {l : Lane}
    (hk : o.kind = .radd fmt op x) (hl : o.lanes = [l]) (hr : l.st = .ready loc) :
    let w := tagWidth fmt.toNat / 8
    let r := rillElem fmt.toNat op.toNat (s.mem.rdN loc w) (x.toNat % 2 ^ (8 * w))
    let t := rillGo c n o s
    t.mem.rdN loc w = r.code % 256 ^ w ∧ (∀ b, b < loc ∨ loc + w ≤ b → t.mem.rd b = s.mem.rd b) ∧
    (∃ p, t.pubs = s.pubs ++ [p] ∧ p.agent = .core c) ∧ (cr t c).posts = (cr s c).posts.eraseIdx n ∧ (cr t c).regs = (cr s c).regs ∧
    (∀ b, b ≠ c → cr t b = cr s b) ∧ ∀ v, vfOf s c = some v → (vf t v).rillflags = (vf s v).rillflags ||| rillBits r := by
  intro w r t
  obtain ⟨hin, hout⟩ := wrPairs_bytes s.mem loc w r.code
  have hwrites : rillWrites s o.kind o.lanes = ((upto w).map (fun i => (loc + i, (bytesOf w r.code).getD i 0)), rillBits r) := by
    rw [hk, hl]
    simp only [rillWrites, List.head?_cons, Option.bind_some, Lane.loc, hr, Option.getD_some]
    rfl
  generalize (upto w).map (fun i => (loc + i, (bytesOf w r.code).getD i 0)) = ws at hin hout hwrites
  obtain ⟨u, ht, hu⟩ : ∃ u, t = dropPost c n (rillFlag c (rillBits r) u) ∧ SendsOnly (memOwn c o.seq ws (pubDirectAs (.core c) s c ws)) u := by
    refine ⟨_, ?_, (forwardAll_sends (.core c) ((partOf s c).getD 0) (ws.filter (fun w => locIsLocal w.1)) _).trans (sendRill_sends c o.kind o.lanes _)⟩
    show rillGo c n o s = _
    simp only [rillGo, hwrites]
    rw [hk]
    rfl
  obtain ⟨i, k, snt, oq, hsend⟩ := hu
  obtain ⟨vs, hflag, hflags⟩ := rillFlag_law c (rillBits r) u
  have hcr : ∀ b, cr u b = if b = c then { cr s c with
      mine := (cr s c).mine ||| pubBit s, own := ownPut (ws.reverse.map (fun w => ⟨w.1, 2 ^ 64, w.2, o.seq, 0⟩)) o.seq 0 (cr s c).own } else cr s b := by
    have hpub := cr_set s c { cr s c with mine := (cr s c).mine ||| pubBit s } (pubDirectAs (.core c) s c ws) rfl
    intro b
    have : cr u b = cr (memOwn c o.seq ws (pubDirectAs (.core c) s c ws)) b := by rw [hsend]; rfl
    rw [this, memOwn, cr_modCr_at, hpub, hpub, if_pos rfl]
    split <;> rfl
  have hcrt : ∀ b, cr t b = if b = c then { cr u c with posts := (cr u c).posts.eraseIdx n } else cr u b := by
    intro b
    rw [ht, dropPost, cr_modCr_at, hflag]
    rfl
  have hmem : t.mem = s.mem.wrPairs ws := by rw [ht, hflag, hsend]; rfl
  have hpubs : t.pubs = s.pubs ++ [⟨.core c, BitVec.allOnes 64, ((cr s c).incl ||| (cr s c).mine) ||| agentMask (.core c) s.pubs 1, ws⟩] := by
    rw [ht, hflag, hsend]; rfl
  rw [hmem, hpubs, hcrt, if_pos rfl, hcr, if_pos rfl]
  refine ⟨hin, hout, ⟨_, rfl, rfl⟩, rfl, rfl, fun b hb => ?_, fun v hv => ?_⟩
  · rw [hcrt, if_neg hb, hcr, if_neg hb]
  · have hv' : vfOf u c = some v := by rw [← hv]; exact vfOf_congr (by rw [hsend]; rfl) c
    rw [ht]
    exact (hflags v hv').trans (by rw [hsend]; rfl)
theorem rillStep_radd {s : State} {c : CoreId} {n loc : Nat} {o : Post} {fmt : Tag} {op : BitVec 3} {x : W64} {l : Lane} (hf : s.fatal = false)
    (hd : s.dead = false) (ho : (cr s c).posts[n]? = some o) (hk : o.kind = .radd fmt op x) (hl : o.lanes = [l]) (hr : l.st = .ready loc)
    (he : earlierHit (cr s c) o.seq [l] = false) (hb : badColumn (flushOwn s c o.seq loc l.len) loc l.len = none) :
    rillStep c n s = rillGo c n o (let s1 := flushOwn s c o.seq loc l.len; if mixedOp s1 c n fmt op loc then rillFlag c 8 s1 else s1) := by
  simp only [rillStep, ho, hk, hl, hf, hd, he, List.all_cons, List.all_nil, Lane.isReady, Lane.loc, hr, flushLanes, List.foldl_cons, List.foldl_nil,
    badLane, Option.bind_some, hb, Option.isSome_some, Bool.not_true, Bool.or_self, Bool.and_self, Bool.false_eq_true, if_false,
    Option.map_none, List.head?_cons, Option.getD_some]
/-- A posted RADD changes its element in memory in one act (R213, R214, R252). -/
theorem rillStep_law {s : State} {c : CoreId} {n loc : Nat} {o : Post} {fmt : Tag} {op : BitVec 3} {x : W64} {l : Lane} {s1 : State} (hf : s.fatal = false)
    (hd : s.dead = false) (ho : (cr s c).posts[n]? = some o) (hk : o.kind = .radd fmt op x) (hl : o.lanes = [l]) (hr : l.st = .ready loc)
    (he : earlierHit (cr s c) o.seq [l] = false) (hs1 : s1 = flushOwn s c o.seq loc l.len) (hb : badColumn s1 loc l.len = none) :
    let w := tagWidth fmt.toNat / 8
    let r := rillElem fmt.toNat op.toNat (s1.mem.rdN loc w) (x.toNat % 2 ^ (8 * w))
    let t := rillStep c n s
    t.mem.rdN loc w = r.code % 256 ^ w ∧ (∀ b, b < loc ∨ loc + w ≤ b → t.mem.rd b = s1.mem.rd b) ∧
    (∃ p, t.pubs = s1.pubs ++ [p] ∧ p.agent = .core c) ∧ (cr t c).posts = (cr s c).posts.eraseIdx n ∧ (cr t c).regs = (cr s c).regs ∧
    (∀ b, b ≠ c → cr t b = cr s b) ∧
    ∀ v, vfOf s c = some v → (vf t v).rillflags = (vf s v).rillflags ||| rillBits r ||| (if mixedOp s1 c n fmt op loc then 8 else 0) := by
  intro w r t
  obtain ⟨⟨un, mi, hme⟩, hother, hparts, hvfs⟩ := cr_flushOwn s c o.seq loc l.len
  have ht : t = _ := rillStep_radd hf hd ho hk hl hr he (hs1 ▸ hb)
  rw [← hs1] at hme hother hparts hvfs ht
  dsimp only at ht
  obtain ⟨vs, hu, huflags⟩ : ∃ vs, (if mixedOp s1 c n fmt op loc then rillFlag c 8 s1 else s1) = { s1 with vfs := vs } ∧ ∀ v, vfOf s1 c = some v →
      (vf { s1 with vfs := vs } v).rillflags = (vf s1 v).rillflags ||| (if mixedOp s1 c n fmt op loc then 8 else 0) := by
    split
    · obtain ⟨vs, hflag, hflags⟩ := rillFlag_law c 8 s1
      exact ⟨vs, hflag, hflag ▸ hflags⟩
    · exact ⟨s1.vfs, rfl, fun v _ => (BitVec.or_zero).symm⟩
  rw [hu] at ht
  have hgo := rillGo_radd (s := { s1 with vfs := vs }) (c := c) (n := n) hk hl hr
  dsimp only at hgo
  rw [← ht] at hgo
  obtain ⟨hin, hout, hpub, hposts, hregs, hcr, hflags⟩ := hgo
  refine ⟨hin, hout, hpub, hposts.trans ?_, hregs.trans ?_, fun b hb => (hcr b hb).trans (hother b hb), fun v hv => ?_⟩
  · show (cr s1 c).posts.eraseIdx n = _; rw [hme]
  · show (cr s1 c).regs = _; rw [hme]
  · have hv1 : vfOf s1 c = some v := (vfOf_congr hparts c).trans hv
    have hvf : vf s1 v = vf s v := by unfold vf; rw [hvfs]
    rw [hflags v hv1, huflags v hv1, hvf, BitVec.or_assoc, BitVec.or_assoc, BitVec.or_comm (rillBits r)]

/-! Samples (R236, R252). -/

/-- A post of one ready sample lane is performed and leaves the list. -/
theorem sampleStep_one {s : State} {c : CoreId} {n region mem loc : Nat} {o : Post} {x : BitVec 4096} {l : Lane} (hf : s.fatal = false)
    (hd : s.dead = false) (ho : (cr s c).posts[n]? = some o) (hk : o.kind = .psmp false region mem x) (hl : o.lanes = [l]) (hr : l.st = .ready loc)
    (he : earlierHit (cr s c) o.seq [l] = false) : sampleStep c n s = dropPost c n (sampleLane c region mem false x s l) := by
  have hready : l.isReady = true := by simp [Lane.isReady, Lane.loc, hr]
  simp [sampleStep, ho, hk, hl, hf, hd, he, hready, dropPost]
/-- A sample of a word joins the intake that is open at its member's channel. -/
theorem sampleLane_joins {s : State} {c : CoreId} {region mem loc : Nat} {x : BitVec 4096} {l : Lane} {r : Region} (hr : l.st = .ready loc)
    (hi : l.i = 0) (hb : badColumn s loc l.len = none) (hreg : regionOf s region = some r) (hrow : (panDesc r.desc).row = false)
    (hm : r.mirror = false) : sampleLane c region mem false x s l = modRegion region (fun r' => { r' with membs := r'.membs.modify mem (fun k =>
      sampleElem (panDesc r.desc) (openIntake r (chanOf r mem)) k (0, x.toNat % 2 ^ 32)) }) s := by
  simp [sampleLane, hreg, hrow, badLane, Lane.loc, hr, hb, hm, hi, laneCodes]
theorem sampleLane_released {s : State} {c : CoreId} {region mem : Nat} {x : BitVec 4096} {l : Lane} (hreg : regionOf s region = none) :
    sampleLane c region mem false x s l = rillFlag c 16 s := by
  simp [sampleLane, hreg]

end Sys2Proof.Machine
end

section
/-! PROOFS. Page requests that are posted (R294). -/
namespace Sys2Proof.Machine

/-- With fewer than 4096 requests posted, a tag that none of them carries is found (R294). -/
theorem freeTag_unused {v : Vf} (h : v.reqs.countP (fun r => r.posted) < 4096) : ∀ q ∈ v.reqs, q.posted = true → q.num ≠ freeTag v := by
  let tags := (upto 4097).map (fun i => v.nextNum + BitVec.ofNat 16 i)
  let used := (v.reqs.filter (fun r => r.posted)).map (fun r => r.num)
  have hnodup : tags.Nodup := by
    show ((upto 4097).map _).Nodup
    rw [upto_range]
    refine List.nodup_range.map_on fun i hi j hj hij => ?_
    rw [List.mem_range] at hi hj
    have := congrArg BitVec.toNat (add_left_cancel hij)
    simp only [BitVec.toNat_ofNat] at this
    omega
  have hfree : ∃ n ∈ tags, n ∉ used := by
    by_contra hall
    simp only [not_exists, not_and, not_not] at hall
    have hle := (hnodup.subperm hall).length_le
    have hused : used.length = v.reqs.countP (fun r => r.posted) := by simp [used, List.countP_eq_length_filter]
    have htags : tags.length = 4097 := by simp [tags, upto_range]
    omega
  obtain ⟨n, hn, hun⟩ := hfree
  have hcheck : ∀ m : BitVec 16, (!v.reqs.any (fun r => r.posted && r.num == m)) = true ↔ ∀ q ∈ v.reqs, q.posted = true → q.num ≠ m := by
    intro m; simp
  have hfound : (tags.find? (fun n => !v.reqs.any (fun r => r.posted && r.num == n))).isSome = true := by
    rw [List.find?_isSome]
    refine ⟨n, hn, (hcheck n).2 fun q hq hp hqn => hun ?_⟩
    exact List.mem_map.2 ⟨q, List.mem_filter.2 ⟨hq, hp⟩, hqn⟩
  obtain ⟨m, hm⟩ := Option.isSome_iff_exists.1 hfound
  have hmm : freeTag v = m := congrArg (fun o => Option.getD o 0) hm
  rw [hmm]
  exact (hcheck m).1 (List.find?_some (p := fun n => !v.reqs.any (fun r => r.posted && r.num == n)) hm)

/-- Where the next entry of a VF's queue stands (R294). -/
def prqPlace (k : Vf) : Nat :=
  2 ^ 63 + 2 ^ 52 * (k.prqbase.toNat / 2 ^ 48) +
    (k.prqbase.toNat / 2 ^ 12 % 2 ^ 36 * 4096 + 32 * (k.prqprod.toNat % 2 ^ (k.prqbase.toNat % 16 + 4)))
theorem prqSize_eq (k : Vf) : prqSize k = 2 ^ (k.prqbase.toNat % 16 + 4) := by simp [prqSize, bits]
theorem prqPlace_eq (k : Vf) : locNode (bits k.prqbase.toNat 48 16) (bits k.prqbase.toNat 12 36 * 4096 + 32 * (k.prqprod.toNat % prqSize k)) = prqPlace k := by
  have h := k.prqbase.isLt
  have hhi : k.prqbase.toNat / 2 ^ 48 % 2 ^ 16 = k.prqbase.toNat / 2 ^ 48 := Nat.mod_eq_of_lt (by omega)
  rw [prqSize_eq, prqPlace, locNode, bits, bits, hhi]
/-- The writes of the entry of a request. -/
def prqWrites (v : VfId) (k : Vf) (r : PageReq) : List (Nat × Byte) :=
  (upto 32).map (fun i => (prqPlace k + i, (prqEntry v { r with num := freeTag k }).getD i 0))
/-- The four words of an entry, read from the memory that holds it (R294). -/
theorem prqWrites_rdN (m : Mem) (v : VfId) (k : Vf) (r : PageReq) (hlvl : r.level < 4) :
    let t := m.wrPairs (prqWrites v k r)
    let a := prqPlace k
    t.rdN a 8 = (freeTag k).toNat + r.wr.toNat * 2 ^ 16 + r.tbl.toNat * 2 ^ 17 + r.level * 2 ^ 18 + v.val * 2 ^ 20 + r.core.val * 2 ^ 32 ∧
    t.rdN (a + 8) 8 = r.ipa % 2 ^ 64 ∧ t.rdN (a + 16) 8 = r.va % 2 ^ 64 ∧ t.rdN (a + 24) 8 = 0 := by
  obtain ⟨w, hw, hentry⟩ : ∃ w, w = (freeTag k).toNat + r.wr.toNat * 2 ^ 16 + r.tbl.toNat * 2 ^ 17 + r.level * 2 ^ 18 + v.val * 2 ^ 20 + r.core.val * 2 ^ 32 ∧
      prqEntry v { r with num := freeTag k } = bytesOf 8 w ++ bytesOf 8 r.ipa ++ bytesOf 8 r.va ++ bytesOf 8 0 :=
    ⟨_, rfl, by simp only [prqEntry]⟩
  have hword : w < 2 ^ 64 := by
    have hn := (freeTag k).isLt
    have hwr := Bool.toNat_le r.wr
    have htbl := Bool.toNat_le r.tbl
    have hv := v.isLt
    have hc := r.core.isLt
    omega
  dsimp only
  rw [← hw, prqWrites, bytes_place _ _ 32 (by rw [hentry]; simp [bytesOf_len]), wrPairs_place, hentry]
  refine ⟨?_, ?_, ?_, ?_⟩
  · exact (rdN_at _ 8 w 0 _ [] (bytesOf 8 r.ipa ++ bytesOf 8 r.va ++ bytesOf 8 0) m (by simp) rfl).trans (Nat.mod_eq_of_lt hword)
  · exact rdN_at _ 8 r.ipa 8 _ (bytesOf 8 w) (bytesOf 8 r.va ++ bytesOf 8 0) m (by simp) (bytesOf_len _ _)
  · exact rdN_at _ 8 r.va 16 _ (bytesOf 8 w ++ bytesOf 8 r.ipa) (bytesOf 8 0) m (by simp) (by simp [bytesOf_len])
  · exact rdN_at _ 8 0 24 _ (bytesOf 8 w ++ bytesOf 8 r.ipa ++ bytesOf 8 r.va) [] m (by simp) (by simp [bytesOf_len])
theorem postRequest_posts {v : VfId} {s : State} {r : PageReq} (hr : (vf s v).reqs.find? (fun r => !r.posted) = some r)
    (hcount : (vf s v).reqs.countP (fun r => r.posted) < 4096)
    (hroom : ((vf s v).prqprod - (vf s v).prqcons).toNat < 2 ^ ((vf s v).prqbase.toNat % 16 + 4)) :
    postRequest v s = raise (modVf { addPub s (.host 0) (BitVec.allOnes 64) 0 (prqWrites v (vf s v) r) with badG := s.badG } v
      (fun k => { k with prqprod := k.prqprod + 1, nextNum := freeTag (vf s v) + 1, reqs := markPosted (freeTag (vf s v)) k.reqs })) (.prq v) := by
  have hgo : (decide (prqSize (vf s v) ≤ ((vf s v).prqprod - (vf s v).prqcons).toNat) || decide (4096 ≤ (vf s v).reqs.countP (fun r => r.posted))) = false := by
    rw [prqSize_eq, decide_eq_false (Nat.not_le.2 hroom), decide_eq_false (Nat.not_le.2 hcount)]
    rfl
  simp only [postRequest, hr, hgo, Bool.false_eq_true, if_false, prqPlace_eq]
  rfl
/-- A page miss is posted as one entry under a tag that no outstanding request carries (R294). -/
theorem postRequest_law {v : VfId} {s : State} {r : PageReq} (hlvl : r.level < 4) (hr : (vf s v).reqs.find? (fun r => !r.posted) = some r)
    (hcount : (vf s v).reqs.countP (fun r => r.posted) < 4096)
    (hroom : ((vf s v).prqprod - (vf s v).prqcons).toNat < 2 ^ ((vf s v).prqbase.toNat % 16 + 4)) :
    let a := prqPlace (vf s v)
    ∃ (t : State) (n : BitVec 16), postRequest v s = t ∧ t.events = s.events ++ [.prq v] ∧ (vf t v).prqprod = (vf s v).prqprod + 1 ∧
      (∃ p, t.pubs = s.pubs ++ [p]) ∧ (∀ q ∈ (vf s v).reqs, q.posted = true → q.num ≠ n) ∧
      t.mem.rdN a 8 = n.toNat + r.wr.toNat * 2 ^ 16 + r.tbl.toNat * 2 ^ 17 + r.level * 2 ^ 18 + v.val * 2 ^ 20 + r.core.val * 2 ^ 32 ∧
      t.mem.rdN (a + 8) 8 = r.ipa % 2 ^ 64 ∧ t.mem.rdN (a + 16) 8 = r.va % 2 ^ 64 ∧ t.mem.rdN (a + 24) 8 = 0 ∧
      (∃ i : Nat, (vf s v).reqs[i]? = some r ∧ (vf t v).reqs[i]? = some { r with posted := true, num := n }) ∧
      t = { s with vfs := s.vfs.set v (vf t v), mem := t.mem, pubs := t.pubs, events := t.events } := by
  obtain ⟨hnum, hipa, hva, hzero⟩ := prqWrites_rdN s.mem v (vf s v) r hlvl
  obtain ⟨i, hi, hmark⟩ := markPosted_law (freeTag (vf s v)) (vf s v).reqs r hr
  have hvf := fun t => vf_modVf_same t v (fun k => { k with
    prqprod := k.prqprod + 1, nextNum := freeTag (vf s v) + 1, reqs := markPosted (freeTag (vf s v)) k.reqs })
  have hpost := postRequest_posts hr hcount hroom
  generalize prqWrites v (vf s v) r = ws at *
  generalize prqPlace (vf s v) = a at *
  refine ⟨_, freeTag (vf s v), rfl, ?_⟩
  rw [hpost]
  refine ⟨rfl, ?_, ⟨_, rfl⟩, freeTag_unused hcount, hnum, hipa, hva, hzero, ⟨i, hi, ?_⟩, ?_⟩
  · exact congrArg Vf.prqprod (hvf _)
  · exact (congrArg (fun k => k.reqs[i]?) (hvf _)).trans hmark
  · refine Eq.trans ?_ (congrArg (fun k => ({ s with vfs := s.vfs.set v k, mem := _, pubs := _, events := _ } : State)) (hvf _).symm)
    rfl

end Sys2Proof.Machine
end

section
/-! PROOFS. Traps before the next unit, of failed lanes and of acknowledgements that do not come (R200, R223, R314, R322). -/
namespace Sys2Proof.Machine

/-- A core that resumes nothing and follows no lead traps at its own next unit (R24, R200). -/
theorem trapBefore_plain {s : State} {c : CoreId} {t : TrapInfo} {keep : Bool} (hres : (cr s c).resume = false) (hfol : follows (cr s c) = none) :
    trapBefore c t keep s = trapCore c ⟨t, (cr s c).pc, 0, leftAt (cr s c), []⟩ s := by
  simp [trapBefore, hres, hfol]
/-- The entry of a core whose record has changed in no field that the entry reads. -/
theorem trapBefore_enters {s : State} {c : CoreId} {t : TrapInfo} {keep : Bool} {f : Core → Core} (ha : s.iss.act = false) (hh : (cr s c).h = false)
    (he : (cr s c).trapEntry.isSome = true) (hr : trapReady (cr s c) = true) (hres : (cr s c).resume = false) (hfol : follows (cr s c) = none)
    (hf : f (cr s c) = { cr s c with failed := (f (cr s c)).failed, wait := (f (cr s c)).wait, kept := (f (cr s c)).kept }) :
    let u := trapBefore c t keep (modCr s c f)
    Entered s u c t (cr s c).pc 0 (leftAt (cr s c)) ∧ u = { s with cores := s.cores.set c (cr u c) } ∧
      (cr u c).failed = (f (cr s c)).failed ∧ (cr u c).kept = (f (cr s c)).kept := by
  have hcr : cr (modCr s c f) c = { cr s c with failed := (f (cr s c)).failed, wait := (f (cr s c)).wait, kept := (f (cr s c)).kept } :=
    (cr_modCr_same s c f).trans hf
  have hplain : trapBefore c t keep (modCr s c f) = trapCore c ⟨t, (cr s c).pc, 0, leftAt (cr s c), []⟩ (modCr s c f) := by
    rw [trapBefore_plain (by rw [hcr]; exact hres) (by rw [hcr]; exact hfol), hcr]
    rfl
  obtain ⟨hent, heq, hfailed, hkept⟩ := trap_idle (modCr s c f) c ⟨t, (cr s c).pc, 0, leftAt (cr s c), []⟩ ha (by rw [hcr]; exact hh) (by rw [hcr]; exact he)
    (by rw [hcr]; exact hr)
  dsimp only
  rw [hplain]
  refine ⟨entered_congr hent (by rw [hcr]; rfl) (by rw [hcr]) (by rw [hcr]), ?_, hfailed.trans (by rw [cr_modCr_same]), hkept.trans (by rw [cr_modCr_same])⟩
  generalize cr (trapCore c ⟨t, (cr s c).pc, 0, leftAt (cr s c), []⟩ (modCr s c f)) c = k at heq
  rw [heq]
  exact setCr_setCr s c _ k

section
variable {s : State} {c : CoreId} {f : TrapInfo} {fs : List TrapInfo} (hfail : (cr s c).failed = f :: fs) (hrun : (cr s c).running = true)
  (ha : s.iss.act = false) (hp : (cr s c).pendTrap = none) (hw : (cr s c).wait = .none) (hf : s.fatal = false) (hd : s.dead = false)
include hfail hrun ha hp hw hf hd
theorem deferredStep_held (hh : (cr s c).h = true) : deferredStep c s = s := by
  simp [deferredStep, hfail, hrun, ha, hp, hw, hf, hd, hh]
theorem deferredStep_traps (hh : (cr s c).h = false) :
    deferredStep c s = trapBefore c f true (modCr s c (fun k => { k with failed := heldRest fs })) := by
  simp [deferredStep, hfail, hrun, ha, hp, hw, hf, hd, hh]
end

section
variable {s : State} {c : CoreId} {a : BitVec 3} {ids : List Nat} {b : Wait} (hw : (cr s c).wait = .phase a ids b) (hrun : (cr s c).running = true)
  (hack : acked s ids = false) (hno : ∀ x ∈ (cr s c).failed, x.cause ≠ cLinkTimeout) (hf : s.fatal = false) (hd : s.dead = false)
include hw
theorem linkTimeoutStep_early (h : s.us < (cr s c).phaseAt + linkAck s ((partOf s c).getD 0)) : linkTimeoutStep c s = s := by
  simp [linkTimeoutStep, hw, h]
include hrun hack hno hf hd
/-- The time is over and no trap of it is held yet. -/
theorem linkTimeoutStep_late (h : (cr s c).phaseAt + linkAck s ((partOf s c).getD 0) ≤ s.us) : linkTimeoutStep c s =
    if (cr s c).h then failLane c ⟨cLinkTimeout, 0, none, 0, none, none⟩ s
    else trapBefore c ⟨cLinkTimeout, 0, none, 0, none, none⟩ true (modCr s c (fun k => { k with kept := k.wait, wait := .none })) := by
  have hnot : (cr s c).failed.contains ⟨cLinkTimeout, 0, none, 0, none, none⟩ = false := by
    rw [Bool.eq_false_iff]
    exact fun hm => hno _ (List.contains_iff_mem.1 hm) rfl
  have hgo : ¬ ((!(cr s c).running || acked s ids || (cr s c).failed.contains ⟨cLinkTimeout, 0, none, 0, none, none⟩ ||
      decide (s.us < (cr s c).phaseAt + linkAck s ((partOf s c).getD 0)) || s.fatal || s.dead) = true) := by
    simp only [hrun, hack, hnot, hf, hd, decide_eq_false (Nat.not_lt.2 h)]
    decide
  simp only [linkTimeoutStep, hw]
  exact if_neg hgo
end

end Sys2Proof.Machine
end

section
open Sys2Proof Sys2Proof.Machine

/-- Settles O48, clause by clause: a landing by the kind of its result, a posted operation, a sample, the traps before the next unit, and
the entry of a page request. -/
theorem resultsLandAndPostsAct : Obligations.ResultsLandAndPostsAct := by
  refine ⟨fun s c n q hq hdue hf hd => ?_, fun s c hf hd => ?_⟩
  · intro off lands
    have hexec : ∀ t, landStep c n s = t → exec (.resultLands c n) s = .next t := fun t h => congrArg Host.Outcome.next h
    have toS : ∀ v v2 d x, q.dst = [.s d] → v.extractLsb' 0 64 = x → landStep c n s = landPend c n { q with val := v, val2 := v2 } s →
        lands (fun k => k.setS d ⟨x, true⟩) := fun v v2 _ x hdst hx h => hexec _ (h.trans (landPend_toS (q := { q with val := v, val2 := v2 }) hdst x hx))
    have toV : ∀ v v2 d x, q.dst = [.v d] → v.extractLsb' 0 2048 = x → landStep c n s = landPend c n { q with val := v, val2 := v2 } s →
        lands (fun k => k.setV d ⟨x, (rdV (cr s c).regs d).tag, true⟩) := fun v v2 _ x hdst hx h => hexec _ (h.trans (landPend_toV (q := { q with val := v, val2 := v2 }) hdst x hx))
    refine ⟨fun d hk hdst => toS q.val q.val2 d _ hdst rfl (landStep_calc hq hdue hf hd hk), fun d hk hdst => toV q.val q.val2 d _ hdst rfl (landStep_calc hq hdue hf hd hk),
      fun d sg tag l bs hk hdst hl hbs hlen _ => ?_, fun d tag hk hdst hall hnd hi => ?_, fun d sg tag l loc hk hdst hl hnone hr hw hb hlen _ => ?_,
      fun sc sg tag hk hwait => ?_, fun fn wide v e d l loc s1 x hk hdst hl hr he hs1 hb => ?_, fun len d l loc s1 hk hdst hl hr he hs1 hb => ?_,
      fun tap vec region mem r hk hreg hr he hb hfound hstray hstop => ?_, fun a d l loc hk hdst hl hr he hb => ?_⟩
    · have hall : ∀ l ∈ q.lanes, l.data.isSome = true := by simp [hl, hbs]
      exact toS _ q.val2 d _ hdst (loadValue_scalar sg hl hbs hlen)
        ((landStep_load hq hdue hf hd hk).trans (landLoad_full (captureLanes_done hall) hall))
    · obtain ⟨hin, hout⟩ := loadValue_lanes q false hnd hi
      exact ⟨_, toV _ q.val2 d _ hdst rfl ((landStep_load hq hdue hf hd hk).trans (landLoad_full (captureLanes_done hall) hall)), hin, hout⟩
    · obtain ⟨l', htake, hbs, hlen'⟩ : ∃ l', captureLanes c q.seq q.lanes s = (s, [l']) ∧
          l'.data = some (loadBytes s c q.seq l.va loc l.len) ∧ l'.len = l.len := by
        refine ⟨{ l with data := some (loadBytes s c q.seq l.va loc l.len) }, ?_, rfl, rfl⟩
        rw [hl, captureLanes_cons, captureLane_takes hr hnone hw hb]
        rfl
      have hvalue := loadValue_scalar (q := { q with lanes := [l'] }) sg rfl hbs (hlen' ▸ hlen)
      rw [hlen'] at hvalue
      exact toS _ q.val2 d _ hdst hvalue ((landStep_load hq hdue hf hd hk).trans (landLoad_full htake (by simp [hbs])))
    · obtain ⟨ls, hstays⟩ := landLoad_stays sc sg hq hwait
      exact ⟨_, ls, hexec _ (landStep_load hq hdue hf hd hk), hstays⟩
    · intro w hx y
      subst hs1 hx
      obtain ⟨⟨un, mi, hme⟩, hother, _⟩ := cr_flushOwn s c q.seq loc l.len
      obtain ⟨hin, hout, hpub, hpend, hregs, hcr⟩ := landAmo_law (flushOwn s c q.seq loc l.len) c n q fn wide v e loc hdst
      refine ⟨_, hexec _ (landStep_amo hq hdue hf hd hk hl hr he hb), hin, hout, hpub, hpend.trans (by rw [hme]), hregs.trans ?_,
        fun b hb => (hcr b hb).trans (hother b hb)⟩
      rw [hme, setS_eq, setS_eq]
    · subst hs1
      refine hexec _ ((landStep_rowld hq hdue hf hd hk hl hr he hb).trans ?_)
      refine landPend_toV (q := { q with val := BitVec.ofNat 4096 _ }) hdst _ ((low_ofNat (by omega) _).trans ?_)
      rw [hl]
      simp [Lane.loc, hr]
    · intro x
      have hland : landStep c n s = landPend c n { q with val := BitVec.ofNat 4096 x, val2 := w64 (tapOf r 0 tap vec (lanesMembs r q.lanes)).2 } s := by
        rw [landStep_tap hq hdue hf hd hk hr he hb]
        simp only [landTap, if_neg hreg, hfound, hstray, hstop]
        rfl
      exact ⟨fun d hdst => toS _ _ d _ hdst (low_ofNat (by omega) x) hland, fun d hdst => toV _ _ d _ hdst (low_ofNat (by omega) x) hland⟩
    · intro w members cap answers
      have hstep := landStep_join hq hdue hf hd hk hl hr he hb
      have hanswer : ∀ x : Int, landJoin c n q a loc s = landPend c n { q with val := (BitVec.ofInt 64 x).setWidth 4096 } s → answers x :=
        fun x h => toS _ q.val2 d _ hdst (low_setWidth (by omega) (BitVec.ofInt 64 x)) (hstep.trans h)
      refine ⟨fun hg => hanswer _ (landJoin_taken hg), fun hg hrsv => hanswer _ (landJoin_reserved hg hrsv),
        fun hg hrsv hfull => hanswer _ (landJoin_full hg hrsv hfull), fun hg hrsv hroom => ?_⟩
      obtain ⟨i, hjoin⟩ := landJoin_joins hg hrsv hroom hdst
      exact ⟨_, i, hexec _ hstep, hjoin⟩
  · refine ⟨fun n o fmt op x l loc s1 ho hk hl hr he hs1 hb => ?_, fun n o region mem x l loc r ho hk hl hr hi he hb hreg hrow hm => ?_,
      fun n o region mem x l loc ho hk hl hr he hreg => ?_, fun f fs hfail hrun ha hp hw => ⟨fun hh => ?_, fun hh hent hready hres hfol => ?_⟩,
      fun a ids b hw hrun hack ha hno => ⟨fun hearly => ?_, fun hlate => ⟨fun hh => ?_, fun hh hent hready hres hfol => ?_⟩⟩,
      fun v r hlvl hr hcount hroom => ?_⟩
    · exact ⟨_, rfl, rillStep_law hf hd ho hk hl hr he hs1 hb⟩
    · refine congrArg Host.Outcome.next ((sampleStep_one hf hd ho hk hl hr he).trans ?_)
      rw [sampleLane_joins hr hi hb hreg hrow hm]
      rfl
    · obtain ⟨vs, hflag, hflags⟩ := rillFlag_law c 16 s
      have hstep : sampleStep c n s = dropPost c n (rillFlag c 16 s) := (sampleStep_one hf hd ho hk hl hr he).trans (by rw [sampleLane_released hreg])
      refine ⟨_, congrArg Host.Outcome.next hstep, ?_, hflags⟩
      rw [hflag]
      rfl
    · exact congrArg Host.Outcome.next (deferredStep_held hfail hrun ha hp hw hf hd hh)
    · obtain ⟨henter, heq, hfailed, _⟩ := trapBefore_enters (t := f) (keep := true) (f := fun k => { k with failed := heldRest fs }) ha hh hent hready hres hfol rfl
      exact ⟨_, congrArg Host.Outcome.next (deferredStep_traps hfail hrun ha hp hw hf hd hh), henter, hfailed, heq⟩
    · exact congrArg Host.Outcome.next (linkTimeoutStep_early hw hearly)
    · exact congrArg Host.Outcome.next ((linkTimeoutStep_late hw hrun hack hno hf hd hlate).trans (if_pos hh))
    · obtain ⟨henter, heq, _, hkept⟩ := trapBefore_enters (t := ⟨cLinkTimeout, 0, none, 0, none, none⟩) (keep := true)
        (f := fun k => { k with kept := k.wait, wait := .none }) ha hh hent hready hres hfol rfl
      exact ⟨_, congrArg Host.Outcome.next ((linkTimeoutStep_late hw hrun hack hno hf hd hlate).trans (if_neg (by simp [hh]))), henter, hkept.trans hw, heq⟩
    · obtain ⟨t, m, ht, hrest⟩ := postRequest_law hlvl hr hcount hroom
      exact ⟨t, m, congrArg Host.Outcome.next ht, hrest⟩

end

section
/-! PROOFS. A bundle that issues, traps before its slots, or ends (R24, R25, R29, R36, R54, R72, R79, R88). -/
namespace Sys2Proof.Machine

/-! The computed results that are due at an issue (R72, log entry 105). -/

/-- Filling registers changes the register files alone. -/
theorem fillRegs_keeps (p : Pend) : ∀ (l : List RegId) (k : Core) (first : Bool), ∃ g, fillRegs k p l first = { k with regs := g }
  | [], k, _ => ⟨k.regs, rfl⟩
  | .v _ :: l, k, _ => by
    obtain ⟨g, h⟩ := fillRegs_keeps p l (k.setV _ _) false
    exact ⟨g, h⟩
  | .s d :: l, k, first => by
    obtain ⟨g, h⟩ := fillRegs_keeps p l (k.setS d ⟨if first then p.val.extractLsb' 0 64 else p.val2, true⟩) false
    exact ⟨g, h.trans (by rw [setS_eq])⟩
  | .p _ :: l, k, first => fillRegs_keeps p l k first
  | .b _ :: l, k, first => fillRegs_keeps p l k first
  | .m _ :: l, k, first => fillRegs_keeps p l k first
  | .z _ :: l, k, first => fillRegs_keeps p l k first
  | .c _ :: l, k, first => fillRegs_keeps p l k first
theorem fillAll_keeps : ∀ (ps : List Pend) (k : Core), ∃ g, ps.foldl (fun k p => fillRegs k p p.dst true) k = { k with regs := g }
  | [], k => ⟨k.regs, rfl⟩
  | p :: ps, k => by
    obtain ⟨g, h⟩ := fillRegs_keeps p p.dst k true
    obtain ⟨g', h'⟩ := fillAll_keeps ps (fillRegs k p p.dst true)
    exact ⟨g', h'.trans (by rw [h])⟩
theorem modCr_id (s : State) (c : CoreId) {f : Core → Core} (h : f (cr s c) = cr s c) : modCr s c f = s := by
  unfold modCr setCr
  rw [h]
  simp [cr]
theorem landDue_keeps (c : CoreId) (s : State) : (∃ g p, cr (landDue c s) c = { cr s c with regs := g, pend := p }) ∧
    (∀ d, d ≠ c → cr (landDue c s) d = cr s d) ∧ landDue c s = { s with cores := (landDue c s).cores } := by
  refine ⟨?_, fun d hd => cr_modCr_ne s (Ne.symm hd) _, rfl⟩
  rw [landDue, cr_modCr_same]
  obtain ⟨g, h⟩ := fillAll_keeps ((cr s c).pend.filter (fun p => decide (p.kind = .calc) && decide (p.due ≤ s.now)))
    { cr s c with pend := (cr s c).pend.filter (fun p => !(decide (p.kind = .calc) && decide (p.due ≤ s.now))) }
  exact ⟨g, _, h⟩
theorem landDue_none {c : CoreId} {s : State} (h : ∀ q ∈ (cr s c).pend, q.kind = .calc → s.now < q.due) : landDue c s = s := by
  have hdue : ∀ q ∈ (cr s c).pend, (decide (q.kind = .calc) && decide (q.due ≤ s.now)) = false := fun q hq => by
    by_cases hk : q.kind = .calc
    · simp [h q hq hk]
    · simp [hk]
  have hnone : (cr s c).pend.filter (fun p => decide (p.kind = .calc) && decide (p.due ≤ s.now)) = [] :=
    List.filter_eq_nil_iff.2 fun q hq => by rw [hdue q hq]; decide
  have hall : (cr s c).pend.filter (fun p => !(decide (p.kind = .calc) && decide (p.due ≤ s.now))) = (cr s c).pend :=
    List.filter_eq_self.2 fun q hq => by rw [hdue q hq]; rfl
  unfold landDue
  refine modCr_id s c ?_
  dsimp only
  rw [hnone, hall]
  rfl

/-! The issue of the next unit. -/

/-- A core that may issue takes its due results and tries its next unit (R34). -/
theorem issueStep_unit {s : State} {c : CoreId} (ha : s.iss.act = false) (hrun : (cr s c).running = true) (hbad : (cr s c).badCore = false)
    (hp : (cr s c).pendTrap = none) (hw : (cr s c).wait = .none) (hmay : mayIssue s c = true) (hpre : needsPrefix (cr s c) = false) :
    issueStep c s = issueUnit c (landDue c s) := by
  obtain ⟨hcut, hf, hd⟩ : cutOff s c = false ∧ s.fatal = false ∧ s.dead = false := by
    simp only [mayIssue, Bool.and_eq_true, Bool.not_eq_true'] at hmay
    exact ⟨hmay.1.1.1.1.2, hmay.1.2, hmay.2⟩
  simp [issueStep, ha, hrun, hbad, hp, hw, hmay, hpre, hcut, hf, hd]

section
variable {s : State} {c : CoreId} (hasks : asksPage (cr s c) = false) (hres : (cr s c).resume = false)
include hasks hres
theorem issueUnit_illegal (hu : nextUnitOf (cr s c) = none) :
    issueUnit c s = trapBefore c ⟨cIllegalCode, 0, none, 0, none, none⟩ false s := by
  simp [issueUnit, hasks, hres, hu]
theorem issueUnit_collides {u : CAddr} {b : Bundle} {len : Nat} (hu : nextUnitOf (cr s c) = some (u, b, len)) (hc : collides b = true) :
    issueUnit c s = trapBefore c ⟨cIllegalSchedule, 0, none, 0, none, none⟩ false s := by
  simp [issueUnit, hasks, hres, hu, hc]
theorem issueUnit_opens {u : CAddr} {b : Bundle} {len : Nat} (hu : nextUnitOf (cr s c) = some (u, b, len)) (hc : collides b = false)
    (hwait : waitsSource (openIssue c u b len s) = false) (hfull : requestsFull (openIssue c u b len s) = false)
    (htry : tryE 11 (openIssue c u b len s) = .go) : issueUnit c s = enterIssue c (openIssue c u b len s) := by
  simp [issueUnit, hasks, hres, hu, hc, hwait, hfull, htry]
end
/-- A trap before the slots of a core that follows no lead (R24, R36). -/
theorem trapBefore_issue {s : State} {c : CoreId} {t : TrapInfo} (ha : s.iss.act = false) (hh : (cr s c).h = false)
    (hent : (cr s c).trapEntry.isSome = true) (hready : trapReady (cr s c) = true) (hres : (cr s c).resume = false) (hfol : follows (cr s c) = none) :
    Entered s (trapBefore c t false s) c t (cr s c).pc 0 (leftAt (cr s c)) := by
  rw [trapBefore_plain hres hfol]
  exact idle_enters s c _ ha hh hent hready
/-- The bundle that an issue opens, and the core as it then stands (R29, R30). -/
theorem enterIssue_opens {s : State} {c : CoreId} {u : CAddr} {b : Bundle} {len : Nat} (hres : (cr s c).resume = false) :
    let w := enterIssue c (openIssue c u b len s)
    w.iss.act = true ∧ w.iss.core = c ∧ w.iss.unit = u ∧ w.iss.len = len ∧ w.iss.slot = 0 ∧ w.iss.t = s.now ∧ w.iss.regs = (cr s c).regs ∧
    w.iss.l = (cr s c).l ∧ (follows (cr s c) = none → (cr s c).further = false → w.iss.bundle = b ∧ w.iss.leaf = leafOf (cr s c).regs b) ∧
    cr w c = { cr s c with left := leftAt (cr s c) } ∧ (∀ d, d ≠ c → cr w d = cr s d) ∧ w = { s with cores := w.cores, iss := w.iss } := by
  intro w
  have hslot : w.iss.slot = 0 := by
    show (if (cr s c).resume then _ else 0) = 0
    rw [hres]; rfl
  have hregs : w.iss.regs = (cr s c).regs := by
    show (if (cr s c).resume then latched (cr s c).latch (cr s c) else cr s c).regs = _
    rw [hres]; rfl
  have hcr : ∀ d, cr w d = if d = c then { cr s c with left := leftAt (cr s c) } else cr s d := by
    intro d
    have hopen := cr_set s c { cr s c with
        left := leftAt (cr s c), slot := if (cr s c).resume then 15 else (cr s c).slot, leaf := if (cr s c).resume then 0 else (cr s c).leaf }
      (openIssue c u b len s) rfl
    refine (cr_modCr_at _ c d _).trans ?_
    rw [hopen, hopen, if_pos rfl]
    split
    · simp [hres]
    · rfl
  refine ⟨rfl, rfl, rfl, rfl, hslot, rfl, hregs, rfl, fun hfol hfur => ?_, (hcr c).trans (if_pos rfl), fun d hd => (hcr d).trans (if_neg hd), rfl⟩
  have hbundle : w.iss.bundle = b := by
    show (if (cr s c).further then withoutB b else if (follows (cr s c)).isSome then memberB b else b) = b
    rw [hfur, hfol]; rfl
  refine ⟨hbundle, ?_⟩
  rw [← hregs, ← hbundle]
  show (if (cr s c).resume then (cr s c).leaf else match follows (cr s c) with | some f => f.leaf | none => leafOf w.iss.regs w.iss.bundle) = _
  rw [hres, hfol]
  rfl

/-! The end of a bundle (R25, R54, R79, R88). -/

/-- The end test changes the loops alone. -/
theorem endTest_keeps (u fall : CAddr) : ∀ (fuel : Nat) (k : Core), ∃ l, (endTest u fall fuel k).2 = { k with loops := l }
  | 0, k => ⟨k.loops, rfl⟩
  | fuel + 1, k => by
    unfold endTest
    dsimp only
    split
    · exact ⟨k.loops, rfl⟩
    · split
      · exact ⟨k.loops, rfl⟩
      · split
        · obtain ⟨l, h⟩ := endTest_keeps u fall fuel { k with loops := k.loops.setIfInBounds (activeLoops k - 1) Loop.reset }
          exact ⟨l, h⟩
        · exact ⟨_, rfl⟩
theorem endTest_none {u fall : CAddr} {fuel : Nat} {k : Core} (h : activeLoops k = 0) : endTest u fall (fuel + 1) k = (fall, k) := by
  simp [endTest, h]
theorem endTest_inside {u fall : CAddr} {fuel : Nat} {k : Core} (h : activeLoops k ≠ 0)
    (hl : loopLast k (k.loops.getD (activeLoops k - 1) Loop.reset).end_ ≠ some u.toNat) : endTest u fall (fuel + 1) k = (fall, k) := by
  simp only [endTest, if_neg h, if_pos hl]
theorem endTest_again {u fall : CAddr} {fuel : Nat} {k : Core} {l : Loop} (h : activeLoops k ≠ 0)
    (hl : l = k.loops.getD (activeLoops k - 1) Loop.reset) (hlast : loopLast k l.end_ = some u.toNat) (hcount : 1 < l.count.toNat) :
    endTest u fall (fuel + 1) k = (BitVec.ofNat 24 (loopStart k.code l.end_),
      { k with loops := k.loops.setIfInBounds (activeLoops k - 1) { l with count := l.count - 1 } }) := by
  subst hl
  simp only [endTest, if_neg h, if_neg (not_not.2 hlast), if_neg (Nat.not_le.2 hcount)]

/-- A core whose bundle has committed its slots: it has issued, its execution counts, and its b registers are older (R54, R79). -/
def ended (i : Issue) (us : Nat) (k : Core) : Core := (issuedAt i.t i.bubble us (olderB { k with asks := [] })).counted
theorem closeUnit_eq (s : State) : closeUnit s = { s with
    cores := s.cores.set s.iss.core (ended s.iss s.us (cr s s.iss.core)), iss := Issue.reset, rr := s.iss.core.val + 1
    runs := countRun s.us s.iss.core (queueOfCore s ((partOf s s.iss.core).getD 0) s.iss.core) s.runs } := by
  have hshut : shutUnit s = { s with
      cores := s.cores.set s.iss.core (issuedAt s.iss.t s.iss.bubble s.us (olderB { cr s s.iss.core with asks := [] }))
      iss := Issue.reset, rr := s.iss.core.val + 1 } := rfl
  have hcr := cr_set s s.iss.core _ (shutUnit s) (by rw [hshut])
  have hme : cr (shutUnit s) s.iss.core = issuedAt s.iss.t s.iss.bubble s.us (olderB { cr s s.iss.core with asks := [] }) := by rw [hcr, if_pos rfl]
  have hqueue : queueOfCore (shutUnit s) ((partOf (shutUnit s) s.iss.core).getD 0) s.iss.core = queueOfCore s ((partOf s s.iss.core).getD 0) s.iss.core := by
    have hrec : (cr (shutUnit s) s.iss.core).rec_ = (cr s s.iss.core).rec_ := by rw [hme]; rfl
    have hpart : partOf (shutUnit s) s.iss.core = partOf s s.iss.core := rfl
    rw [hpart, queueOfCore, hrec]
    rfl
  unfold closeUnit countExec
  rw [hqueue]
  have hcores : (shutUnit s).cores.set s.iss.core (cr (shutUnit s) s.iss.core).counted = s.cores.set s.iss.core (ended s.iss s.us (cr s s.iss.core)) := by
    rw [hme, hshut]
    exact set_set_core _ rfl _ _
  show ({ shutUnit s with
    cores := (shutUnit s).cores.set s.iss.core (cr (shutUnit s) s.iss.core).counted
    runs := countRun s.us s.iss.core (queueOfCore s ((partOf s s.iss.core).getD 0) s.iss.core) s.runs } : State) = _
  rw [hcores]
  rfl

/-- The core after a plain bundle: its own next execution, or the unit that the bundle or the end test has chosen (R25, R31, R88). -/
def afterUnit (i : Issue) (k : Core) : Core :=
  if k.left ≠ 0 then { k with
    left := k.left - 1, further := true, pc := i.unit, wait := i.stop, nextUnit := if i.redirected then i.redirect else k.nextUnit }
  else goneOn i k (goesTo i none k) false
theorem cr_closeUnit (s : State) : cr (closeUnit s) s.iss.core = ended s.iss s.us (cr s s.iss.core) := by
  have h := cr_set s s.iss.core (ended s.iss s.us (cr s s.iss.core)) (closeUnit s) (by rw [closeUnit_eq])
  rw [h, if_pos rfl]
theorem finishUnit_plain {s : State} (hstop : s.iss.stop = .none) (hfol : s.iss.fol = false) (hresd : s.iss.resumed = false)
    (hmates : s.iss.mates = []) (hsafe : bundleSafe s.iss.bundle = false) :
    finishUnit s = setCr (closeUnit s) s.iss.core (afterUnit s.iss (ended s.iss s.us (cr s s.iss.core))) := by
  have hset : ∀ k, settledUnit s.iss k = k := fun k => by simp [settledUnit, hresd, hfol]
  have hhand : ∀ k l a b u, handOn s.iss k l a b u = u := fun k l a b u => by simp [handOn, hmates]
  have hsave : ∀ k u, savesHere s.iss none k u = false := fun k u => by simp [savesHere, safePoint, hsafe]
  simp only [finishUnit, hstop, hfol, Wait.leaves, hset, Bool.false_eq_true, if_false, Option.isNone_none, Bool.and_true, cr_closeUnit, afterUnit]
  by_cases hleft : (ended s.iss s.us (cr s s.iss.core)).left = 0
  · simp only [hleft, onUnit, hhand, hsave, Bool.false_and, Bool.false_eq_true, if_false, ne_eq, not_true, decide_false]
  · simp only [againUnit, hhand, ne_eq, hleft, not_false_eq_true, if_true, decide_true, hstop]
theorem finishUnit_frame {s : State} {k : Core} (h : finishUnit s = setCr (closeUnit s) s.iss.core k) :
    (finishUnit s).iss = Issue.reset ∧ cr (finishUnit s) s.iss.core = k ∧ (∀ d, d ≠ s.iss.core → cr (finishUnit s) d = cr s d) ∧
    finishUnit s = { s with cores := (finishUnit s).cores, iss := (finishUnit s).iss, rr := (finishUnit s).rr, runs := (finishUnit s).runs } ∧
    (finishUnit s).runs = countRun s.us s.iss.core (queueOfCore s ((partOf s s.iss.core).getD 0) s.iss.core) s.runs := by
  have hcr := fun d => cr_setCr_at (closeUnit s) s.iss.core d k
  have hclose := cr_set s s.iss.core (ended s.iss s.us (cr s s.iss.core)) (closeUnit s) (by rw [closeUnit_eq])
  rw [h]
  refine ⟨by rw [closeUnit_eq]; rfl, (hcr _).trans (if_pos rfl), fun d hd => (hcr d).trans ((if_neg hd).trans ((hclose d).trans (if_neg hd))), ?_, ?_⟩
  · rw [closeUnit_eq]; rfl
  · rw [closeUnit_eq]; rfl
/-- What a plain bundle leaves of its core, wherever it goes on. -/
theorem afterUnit_keeps {i : Issue} {us : Nat} {k : Core} (hstop : i.stop = .none) :
    let n := afterUnit i (ended i us k)
    n.exec = min (k.exec + 1) (2 ^ 32 - 1) ∧ n.wait = .none ∧ n.busy = i.t + 1 + i.bubble ∧ n.regs = { k.regs with age := n.regs.age } ∧ n.l = k.l := by
  dsimp only
  unfold afterUnit
  split
  · exact ⟨rfl, hstop, rfl, rfl, rfl⟩
  · obtain ⟨l, h⟩ : ∃ l, (goesTo i none (ended i us k)).2 = { ended i us k with loops := l } := by
      simp only [goesTo]
      split
      · exact ⟨_, rfl⟩
      · exact endTest_keeps _ _ _ _
    have hregs := congrArg Core.regs h
    have hl := congrArg Core.l h
    refine ⟨congrArg Core.exec h, hstop, congrArg Core.busy h, ?_, hl⟩
    have hgone : (goneOn i (ended i us k) (goesTo i none (ended i us k)) false).regs = (ended i us k).regs := hregs
    rw [hgone]; rfl
/-- A plain bundle with executions left is its own next execution. -/
theorem afterUnit_again {i : Issue} {us : Nat} {k : Core} (h : k.left ≠ 0) :
    (afterUnit i (ended i us k)).pc = i.unit ∧ (afterUnit i (ended i us k)).left = k.left - 1 ∧ (afterUnit i (ended i us k)).further = true := by
  have hagain : (ended i us k).left ≠ 0 := h
  rw [afterUnit, if_pos hagain]
  exact ⟨rfl, rfl, rfl⟩
/-- A plain bundle with no execution left goes where `goesTo` says. -/
theorem afterUnit_on {i : Issue} {us : Nat} {k : Core} (h : k.left = 0) (hres : k.resume = false) :
    let n := afterUnit i (ended i us k)
    let e := goesTo i none (ended i us k)
    n.left = 0 ∧ n.further = false ∧ n.pc = e.1 ∧ n.loops = e.2.loops := by
  have hon : ¬ (ended i us k).left ≠ 0 := not_not.2 h
  dsimp only
  rw [afterUnit, if_neg hon]
  refine ⟨rfl, ?_, rfl, rfl⟩
  show (k.resume && k.further) = false
  rw [hres]; rfl
theorem goesTo_redirected {i : Issue} {k : Core} {a : CAddr} (h : i.redirected = true) (ha : i.redirect = some a) : goesTo i none k = (a, k) := by
  simp [goesTo, h, ha]
theorem goesTo_endTest {i : Issue} {k : Core} (h : i.redirected = false) (hn : k.nextUnit = none) :
    goesTo i none k = endTest i.unit (i.unit + BitVec.ofNat 24 i.len) 5 k := by
  simp [goesTo, h, hn]
/-- Where a plain bundle's core goes that has no branch and no chosen unit: its end test (R88). -/
theorem goesTo_loops {i : Issue} {us : Nat} {k : Core} (h : i.redirected = false) (hn : k.nextUnit = none) :
    let e := goesTo i none (ended i us k)
    (activeLoops k = 0 → e.1 = i.unit + BitVec.ofNat 24 i.len) ∧
    (∀ l, activeLoops k ≠ 0 → l = k.loops.getD (activeLoops k - 1) Loop.reset →
      (loopLast k l.end_ ≠ some i.unit.toNat → e.1 = i.unit + BitVec.ofNat 24 i.len ∧ e.2.loops = k.loops) ∧
      (loopLast k l.end_ = some i.unit.toNat → 1 < l.count.toNat → e.1 = BitVec.ofNat 24 (loopStart k.code l.end_) ∧
        e.2.loops = k.loops.setIfInBounds (activeLoops k - 1) { l with count := l.count - 1 })) := by
  have hend : goesTo i none (ended i us k) = endTest i.unit (i.unit + BitVec.ofNat 24 i.len) 5 (ended i us k) := goesTo_endTest h hn
  dsimp only
  rw [hend]
  refine ⟨fun hact => congrArg Prod.fst (endTest_none (k := ended i us k) hact), fun l hact hl => ⟨fun hlast => ?_, fun hlast hcount => ?_⟩⟩
  · subst hl
    have hin := endTest_inside (u := i.unit) (fall := i.unit + BitVec.ofNat 24 i.len) (fuel := 4) (k := ended i us k) hact hlast
    exact ⟨congrArg Prod.fst hin, congrArg (fun e => e.2.loops) hin⟩
  · have ha := endTest_again (u := i.unit) (fall := i.unit + BitVec.ofNat 24 i.len) (fuel := 4) (k := ended i us k) hact hl hlast hcount
    exact ⟨congrArg Prod.fst ha, congrArg (fun e => e.2.loops) ha⟩

end Sys2Proof.Machine
end

section
open Sys2Proof Sys2Proof.Machine
/-- Settles O51: what the landing of due results keeps, what an issue opens or traps, and the end of a plain bundle taken apart by `goesTo`. -/
theorem bundlesIssueAndEnd : Obligations.BundlesIssueAndEnd := by
  unfold Obligations.BundlesIssueAndEnd
  intro s c _ _
  refine ⟨?_, ?_, ?_, ?_⟩
  · intro hact hrun hbad hp hw hmay hpre hasks hres r
    obtain ⟨⟨g, p, hk⟩, hcores, hframe⟩ : (∃ g p, cr r c = { cr s c with regs := g, pend := p }) ∧
      (∀ d, d ≠ c → cr r d = cr s d) ∧ r = { s with cores := r.cores } := landDue_keeps c s
    have hunit : exec (.bundleIssue c) s = .next (issueUnit c r) :=
      congrArg Host.Outcome.next (issueStep_unit hact hrun hbad hp hw hmay hpre)
    have hnow : r.now = s.now := by rw [hframe]
    have hact' : r.iss.act = false := by rw [hframe]; exact hact
    have hasks' : asksPage (cr r c) = false := by rw [hk]; exact hasks
    have hres' : (cr r c).resume = false := by rw [hk]; exact hres
    have hnext : nextUnitOf (cr r c) = nextUnitOf (cr s c) := by rw [hk]; rfl
    have hfol : follows (cr r c) = follows (cr s c) := by rw [hk]; rfl
    have hleft : leftAt (cr r c) = leftAt (cr s c) := by rw [hk]; rfl
    have hpc : (cr r c).pc = (cr s c).pc := by rw [hk]
    refine ⟨⟨⟨g, p, hk⟩, hcores, hframe⟩, landDue_none, ?_, ?_⟩
    · intro u b len hu hc hwait hfull htry
      obtain ⟨ha, hcore, hun, hlen, hslot, ht, hregs, hl, hb, hme, hother, hw⟩ :=
        enterIssue_opens (s := r) (c := c) (u := u) (b := b) (len := len) hres'
      refine ⟨_, hunit.trans (congrArg Host.Outcome.next (issueUnit_opens hasks' hres' (hnext.trans hu) hc hwait hfull htry)),
        ha, hcore, hun, hlen, hslot, ht.trans hnow, hregs, hl.trans (by rw [hk]), fun hf hfur => hb (hfol.trans hf) (by rw [hk]; exact hfur),
        by rw [hme, hleft], fun d hd => (hother d hd).trans (hcores d hd), hw.trans ?_⟩
      rw [hframe]
    · intro hf hh hent hready
      have enters : ∀ t, Entered r (trapBefore c t false r) c t (cr s c).pc 0 (leftAt (cr s c)) := fun t => by
        rw [← hpc, ← hleft]
        exact trapBefore_issue hact' (by rw [hk]; exact hh) (by rw [hk]; exact hent) hready hres' (hfol.trans hf)
      exact ⟨fun hu => ⟨_, hunit.trans (congrArg Host.Outcome.next (issueUnit_illegal hasks' hres' (hnext.trans hu))), enters _⟩,
        fun u b len hu hc => ⟨_, hunit.trans (congrArg Host.Outcome.next (issueUnit_collides hasks' hres' (hnext.trans hu) hc)), enters _⟩⟩
  · intro hact hcore hslot hres hlive
    refine congrArg Host.Outcome.next ?_
    simp [issueStep, hact, hcore, hslot, hres, hlive]
  · intro hact hcore hslot hstop hfol hresd hmates hsafe hres
    subst hcore
    have hfin : exec (.bundleIssue s.iss.core) s = .next (finishUnit s) := by
      refine congrArg Host.Outcome.next ?_
      simp [issueStep, hact, Nat.not_lt.2 hslot]
    obtain ⟨hiss, hme, hother, hw, hruns⟩ := finishUnit_frame (finishUnit_plain hstop hfol hresd hmates hsafe)
    obtain ⟨hexec, hwait, hbusy, hregs, hl⟩ := afterUnit_keeps (us := s.us) (k := cr s s.iss.core) hstop
    refine ⟨_, hfin, hiss, hother, hw, hruns, ?_⟩
    rw [hme]
    refine ⟨hexec, hwait, hbusy, hregs, hl, afterUnit_again, fun hleft => ?_⟩
    obtain ⟨hl0, hfur, hpc, hloops⟩ := afterUnit_on (i := s.iss) (us := s.us) hleft hres
    rw [hpc, hloops]
    exact ⟨hl0, hfur, fun a hr ha => congrArg Prod.fst (goesTo_redirected hr ha), goesTo_loops⟩
  · intro n hact hpfx hu
    have hsome : (nextUnitOf (cr s c)).isNone = false := by
      cases h : nextUnitOf (cr s c) with
      | none => rw [h] at hu; cases hu
      | some u => rfl
    show execRepeat ⟨n⟩ s = _
    simp only [execRepeat, hact, hpfx, hsome, Bool.false_eq_true, if_false]
    rfl
end

section
/-! PROOFS. Engine commands at their end: tickets, publications, messages and the packets of collectives (R205, R255, R257, R270 to R277, R359). -/
namespace Sys2Proof.Machine

/-! The end of a command (R255). -/

/-- A command that succeeds, or whose failure a ticket keeps, leaves the list, its ranges retire and its tickets end; what follows is
settled for the whole partition. -/
theorem endCmd_settles {s : State} {id : Nat} {m : Cmd} (f : Option (BitVec 8 × Bool × Bool × Nat)) (hm : s.cmds.find? (fun x => x.id == id) = some m)
    (hf : f = none ∨ ticketNames s m.part id = true) :
    ∃ u, endCmd id f s = settle m.part u ∧ u.cmds = s.cmds.filter (fun x => x.id ≠ id) ∧ u.mem = s.mem ∧ u.pubs = s.pubs ∧
      (∀ d, (cr u d).j = if inMask (pt s m.part).mask d = true then (cr s d).j.map (Ticket.ended id f) else (cr s d).j) ∧
      ∀ d, (cr u d).ranges = if d = m.core then (cr s d).ranges.filter (fun r => r.id ≠ id) else (cr s d).ranges := by
  let s1 : State := { s with cmds := s.cmds.filter (fun x => x.id ≠ id) }
  let s2 := modCr s1 m.core (fun x => { x with ranges := x.ranges.filter (fun r => r.id ≠ id) })
  let s3 := (coresOf s2 m.part).foldl (fun s c => modCr s c (fun x => { x with j := x.j.map (Ticket.ended id f) })) s2
  obtain ⟨h3, hcr3⟩ : s3 = { s2 with cores := s3.cores } ∧ ∀ d, cr s3 d = if d ∈ coresOf s2 m.part then
      { cr s2 d with j := (cr s2 d).j.map (Ticket.ended id f) } else cr s2 d :=
    fold_cores (fun _ x => { x with j := x.j.map (Ticket.ended id f) }) (coresOf s2 m.part) s2 (coresOf_nodup s2 m.part)
  have hcr2 : ∀ d, cr s2 d = if d = m.core then { cr s d with ranges := (cr s d).ranges.filter (fun r => r.id ≠ id) } else cr s d := fun d => by
    refine (cr_modCr_at s1 m.core d _).trans ?_
    split
    · next h => rw [h]; rfl
    · rfl
  have hin : ∀ d, d ∈ coresOf s2 m.part ↔ inMask (pt s m.part).mask d = true := mem_coresOf s2 m.part
  have hmem : s3.mem = s.mem := (congrArg State.mem h3).trans rfl
  have hpubs : s3.pubs = s.pubs := (congrArg State.pubs h3).trans rfl
  refine ⟨modPt s3 m.part (fun q => { q with tasks := q.tasks.map (fun t => { t with tix := t.tix.map (Ticket.ended id f) }) }),
    ?_, congrArg State.cmds h3, hmem, hpubs, fun d => ?_, fun d => ?_⟩
  · unfold endCmd
    rw [hm]
    dsimp only
    rcases hf with rfl | hnamed
    · rfl
    · rw [hnamed]
      cases f <;> rfl
  · show (cr s3 d).j = _
    rw [hcr3, hcr2]
    simp only [hin]
    split <;> split <;> rfl
  · show (cr s3 d).ranges = _
    rw [hcr3, hcr2]
    split <;> split <;> rfl

theorem cmdOf_names {s : State} {c : CoreId} {id : Nat} {k : Cmd} (h : cmdOf s c id = some k) : k.id = id ∧ k.core = c := by
  have := List.find?_some h
  simpa using this

/-! Ranges that retire (R205). -/

theorem rangeRetire_queue {s : State} {c : CoreId} {n : Nat} {r : Range} (hr : (cr s c).ranges[n]? = some r) (h0 : r.id = 0) :
    rangeRetire c n s = modCr s c (fun x => { x with ranges := x.ranges.eraseIdx n }) := by
  simp [rangeRetire, hr, h0]
theorem rangeRetire_read {s : State} {c : CoreId} {n : Nat} {r : Range} {k : Cmd} (hf : s.fatal = false) (hd : s.dead = false)
    (hk : cmdOf s c r.id = some k) (hr : (cr s c).ranges[n]? = some r) (h0 : r.id ≠ 0) (hw : r.wr = false) (he : earlierRange s k = false)
    (hbad : (badL (cr s c) r.lo (r.hi + 1 - r.lo)).isSome = false) :
    rangeRetire c n s = { s with
      cores := s.cores.set c { cr s c with ranges := (cr s c).ranges.eraseIdx n }
      cmds := s.cmds.map (fun x => if x.id = k.id then
        { x with cap := x.cap ++ (span r.lo (r.hi + 1 - r.lo)).map (fun a => (a, (cr s c).l.rd a)) } else x) } := by
  have hgo : (s.fatal || s.dead || earlierRange s k) = false := by simp [hf, hd, he]
  simp only [rangeRetire, hr, if_neg h0, hk, hgo, hw, hbad, Bool.false_eq_true, if_false]
  rfl

/-! Completion (R255, R259). -/

/-- A command that has been carried out, whose acknowledgements are there, completes. -/
theorem engineComplete_done {s : State} {c : CoreId} {id : Nat} {k : Cmd} (hk : cmdOf s c id = some k) (hf : s.fatal = false) (hd : s.dead = false)
    (hdone : k.done = true) (htick : k.op ≠ opTick) (hspawn : k.op ≠ opSpawn) (hpan : k.op ≠ opPancfg) :
    engineComplete c id s = completeCmd k s := by
  have hstep : engineStep k s = s := by simp [engineStep, hdone]
  simp [engineComplete, hk, hf, hd, htick, hspawn, hpan, hstep, hdone]
theorem completeCmd_ends {s : State} {k : Cmd} (hack : acked s k.acks = true) (hcfl : k.cfl = none) :
    completeCmd k s = ((upto 64).map (BitVec.ofNat 6)).foldl (fun s q => ckptRest k.part q s) (endCmd k.id (k.fail.map Prod.snd)
      (if k.out.isEmpty then s else addPub s (.engine k.core k.id) (BitVec.allOnes 64) k.incl k.out)) := by
  have hfree : ∀ u, freeCtx k u = u := fun u => by simp [freeCtx, hcfl]
  simp [completeCmd, hack, hfree]

/-! Messages that arrive, and messages that do not (R276, R277). -/

theorem rxOf_names (s : State) (m : BitVec 16) (f : BitVec 8) : (rxOf s m f).peer = m ∧ (rxOf s m f).flow = f := by
  unfold rxOf
  cases h : s.rx.find? (fun q => q.peer == m && q.flow == f) with
  | none => exact ⟨rfl, rfl⟩
  | some q =>
    have := List.find?_some h
    simpa using this
theorem rxOf_setRx {q : RxQueue} {s : State} {m : BitVec 16} {f : BitVec 8} (hm : q.peer = m) (hf : q.flow = f) : rxOf (setRx q s) m f = q := by
  subst hm hf
  simp [rxOf, setRx]
theorem settleRx_idle {q : RxQueue} {s : State} (h : q.early = []) : settleRx q s = setRx q s := by
  simp [settleRx, h, rxDrain]
/-- An entry in its turn that is not its message's last stands alone in a queue that was empty. -/
theorem settleRx_due {q : RxQueue} {e : MsgEntry} {s : State} (hmsg : e.msg = q.nextMsg) (hidx : e.idx = q.nextIdx) (hempty : q.entries = [])
    (hdrop : q.dropUpTo ≤ e.msg) (hlast : e.idx + 1 < e.total) :
    settleRx { q with early := [e] } s = setRx { q with early := [], entries := [e], nextMsg := e.msg, nextIdx := e.idx + 1 } s := by
  have hmid : e.idx + 1 ≠ e.total := by omega
  have hlate : ¬ e.msg < q.dropUpTo := Nat.not_lt.2 hdrop
  rw [hmsg] at hlate
  rw [hidx] at hmid
  simp [settleRx, rxDrain, rxTake, hmid, hmsg, hidx, hempty, hlate, rxRoom]
/-- What the arrivals that follow leave of a queue and of the machine. -/
theorem rxDrain_law : ∀ (fuel : Nat) (q : RxQueue) (s : State), ∃ o, (rxDrain fuel q s).2 = { s with sent := o } ∧
    (rxDrain fuel q s).1.peer = q.peer ∧ (rxDrain fuel q s).1.flow = q.flow ∧ (rxDrain fuel q s).1.dropUpTo = q.dropUpTo
  | 0, _, s => ⟨s.sent, rfl, rfl, rfl, rfl⟩
  | fuel + 1, q, s => by
    unfold rxDrain
    split
    · next e _ =>
      split
      · exact ⟨s.sent, rfl, rfl, rfl, rfl⟩
      · have htake : ∀ q : RxQueue, ∃ o, (rxTake q e s).2 = { s with sent := o } ∧ (rxTake q e s).1.peer = q.peer ∧
            (rxTake q e s).1.flow = q.flow ∧ (rxTake q e s).1.dropUpTo = q.dropUpTo := fun q => by
          unfold rxTake
          dsimp only
          split <;> split <;> exact ⟨_, rfl, rfl, rfl, rfl⟩
        obtain ⟨o1, h1, hp1, hf1, hd1⟩ := htake { q with early := q.early.filter (fun x => x ≠ e) }
        obtain ⟨o2, h2, hp2, hf2, hd2⟩ := rxDrain_law fuel (rxTake { q with early := q.early.filter (fun x => x ≠ e) } e s).1
          (rxTake { q with early := q.early.filter (fun x => x ≠ e) } e s).2
        exact ⟨o2, h2.trans (by rw [h1]), hp2.trans hp1, hf2.trans hf1, hd2.trans hd1⟩
    · exact ⟨s.sent, rfl, rfl, rfl, rfl⟩
theorem settleRx_law {q : RxQueue} {m : BitVec 16} {f : BitVec 8} (s : State) (hm : q.peer = m) (hf : q.flow = f) :
    ∃ o x, settleRx q s = { s with sent := o, rx := x } ∧ (rxOf (settleRx q s) m f).dropUpTo = q.dropUpTo := by
  obtain ⟨o, h, hp, hfl, hd⟩ := rxDrain_law q.early.length q s
  refine ⟨o, (settleRx q s).rx, ?_, ?_⟩
  · unfold settleRx
    dsimp only
    rw [h]; rfl
  · exact (congrArg RxQueue.dropUpTo (rxOf_setRx (hp.trans hm) (hfl.trans hf))).trans hd

/-- An entry in its turn, not its message's last nor the RECV's, lands at its place in L (R276). -/
theorem recvArrive_lands {s : State} {m : BitVec 16} {f : BitVec 8} {e : MsgEntry} {k : Cmd} (hf : s.fatal = false) (hd : s.dead = false)
    (hhead : headRecv s m f = some k) (hearlier : earlierRange s k = false) (hempty : (rxOf s m f).entries = []) (hearly : (rxOf s m f).early = [])
    (hmsg : e.msg = (rxOf s m f).nextMsg) (hidx : e.idx = (rxOf s m f).nextIdx) (hdrop : (rxOf s m f).dropUpTo ≤ e.msg)
    (hlast : e.idx + 1 < min e.total (msgN k.block)) :
    ∃ x, recvArrive m f e s = { modCmd k.id (fun k => { k with prog := e.idx + 1, since := s.us })
      (landL k.core (placeL (msgL k.block + 384 * e.idx) (bytesOf 384 e.data.toNat)) s) with rx := x } := by
  obtain ⟨hpeer, hflow⟩ := rxOf_names s m f
  let q : RxQueue := { rxOf s m f with early := [], entries := [e], nextMsg := e.msg, nextIdx := e.idx + 1 }
  have hpast : (decide (e.msg < (rxOf s m f).nextMsg) || (e.msg == (rxOf s m f).nextMsg && decide (e.idx < (rxOf s m f).nextIdx))) = false := by
    simp [hmsg, hidx]
  have htot : e.idx + 1 < e.total := lt_of_lt_of_le hlast (Nat.min_le_left _ _)
  have harr : recvArrive m f e s = feedAll m f (settleRx { rxOf s m f with early := [e] } s) := by
    have h0 : e.total ≠ 0 := by omega
    have hle : ¬ e.total ≤ e.idx := by omega
    simp only [recvArrive, hpast, hearly, h0, hle, hf, hd, List.any_nil, List.nil_append, decide_false, Bool.or_self, Bool.false_eq_true, if_false]
  have hq : rxOf (setRx q s) m f = q := rxOf_setRx hpeer hflow
  have hmid : e.idx + 1 ≠ min e.total (msgN k.block) := Nat.ne_of_lt hlast
  have hhead' : headRecv (setRx q s) m f = some k := hhead
  have hearlier' : earlierRange (setRx q s) k = false := hearlier
  rw [harr, settleRx_due hmsg hidx hempty hdrop htot]
  refine ⟨(setRx { q with entries := [] } (setRx q s)).rx, ?_⟩
  show feedAll m f (setRx q s) = _
  unfold feedAll
  rw [hq]
  show feedRecv m f 1 (setRx q s) = _
  have hone : q.entries = [e] := rfl
  rw [feedRecv, hq, hhead', hone]
  dsimp only
  rw [if_neg (by rw [hearlier']; decide), if_neg hmid, settleRx_idle rfl]
  rfl

/-- A RECV without a backup copy that waits too long fails where it stands, and its message's late entries are discarded (R277). -/
theorem recvTimeoutStep_fails {s : State} {k : Cmd} (hhead : (headRecv s (msgPeer k.block) (msgFlow k.block)).map Cmd.id = some k.id)
    (hearlier : earlierRange s k = false) (hempty : (rxOf s (msgPeer k.block) (msgFlow k.block)).entries = []) (hbk : msgBk k.block = 0) :
    let t := recvTimeoutStep k s
    t.cmds = s.cmds.map (fun x => if x.id = k.id then { x with done := true, fail := some (x.prog, cLinkTimeout, false, false, 0) } else x) ∧
    (∀ d, cr t d = if d = k.core then { cr s d with ranges := (cr s d).ranges.filter (fun r => r.id ≠ k.id) } else cr s d) ∧
    (rxOf t (msgPeer k.block) (msgFlow k.block)).dropUpTo = (rxOf s (msgPeer k.block) (msgFlow k.block)).dropUpTo + 1 ∧
    t = { s with cores := t.cores, cmds := t.cmds, rx := t.rx, sent := t.sent } := by
  let q := rxOf s (msgPeer k.block) (msgFlow k.block)
  obtain ⟨hpeer, hflow⟩ := rxOf_names s (msgPeer k.block) (msgFlow k.block)
  obtain ⟨o, x, hset, hdrop⟩ := settleRx_law (q := { q with dropUpTo := q.dropUpTo + 1 }) s hpeer hflow
  have hstep : recvTimeoutStep k s = modCmd k.id (fun k => { k with done := true, fail := some (k.prog, cLinkTimeout, false, false, 0) })
      (retireRanges k (settleRx { q with dropUpTo := q.dropUpTo + 1 } s)) := by
    simp [recvTimeoutStep, hhead, hearlier, hempty, hbk, failLate, q]
  generalize settleRx { q with dropUpTo := q.dropUpTo + 1 } s = w at hset hdrop hstep
  rw [hstep]
  refine ⟨by rw [hset]; rfl, fun d => ?_, hdrop, by rw [hset]; rfl⟩
  have hcr : cr (retireRanges k w) d = if d = k.core then { cr w k.core with ranges := (cr w k.core).ranges.filter (fun r => r.id ≠ k.id) } else cr w d :=
    cr_modCr_at w k.core d _
  refine hcr.trans ?_
  rw [hset]
  split
  · next he => subst he; rfl
  · rfl
theorem recvTimeout_acts {s : State} {c : CoreId} {id : Nat} {k : Cmd} (hk : cmdOf s c id = some k) (hf : s.fatal = false) (hd : s.dead = false)
    (hop : k.op = opRecv) (hdone : k.done = false) (h0 : linkRecv s k.part ≠ 0) (hlate : k.since + linkRecv s k.part < s.us) :
    exec (.recvTimeout c id) s = .next (recvTimeoutStep k s) := by
  show execRecvTimeout c id s = _
  simp [execRecvTimeout, hk, hf, hd, hop, hdone, recvLate, h0, hlate]
/-- The peer of a SEND has been silent for LINKTMO.ACK (R276). -/
theorem sendTimeout_fails {s : State} {c : CoreId} {id : Nat} {k : Cmd} (hk : cmdOf s c id = some k) (hf : s.fatal = false) (hd : s.dead = false)
    (hop : k.op = opSend) (hdone : k.done = true) (hack : acked s k.acks = false) (hlate : k.since + linkAck s k.part ≤ s.us) :
    sendTimeout c id s = endCmd id ((firstOf k.fail (some (msgN k.block, cLinkTimeout, false, false, 0))).map Prod.snd)
      { s with ackWait := s.ackWait.filter (fun a => !k.acks.contains a.id) } := by
  have hus : ¬ s.us < k.since + linkAck s k.part := Nat.not_lt.2 hlate
  simp [sendTimeout, hk, hf, hd, hop, hdone, hack, hus, failLate]

end Sys2Proof.Machine
end
section
/-! PROOFS. The packets of collectives (R270, R275). -/
namespace Sys2Proof.Machine

/-! The collective of a command, after its participant's state has changed. -/

/-- A step of a collective touches the commands and what is in the fabric alone. -/
def FabricOnly (s t : State) : Prop := t = { s with sent := t.sent, cmds := t.cmds }
theorem FabricOnly.trans {s t u : State} (h : FabricOnly s t) (h' : FabricOnly t u) : FabricOnly s u := by
  unfold FabricOnly at *
  rw [h', h]
theorem fabricOnly_modCfl (id : Nat) (f : CflSt → CflSt) (s : State) : FabricOnly s (modCfl id f s) := rfl
theorem fabricOnly_cflSend (k : Cmd) (x : CflSt) (p : CflPkt) (s : State) : FabricOnly s (cflSend k x p s) := rfl
theorem fabricOnly_cflNote (k : Cmd) (p : CflPkt) (s : State) : FabricOnly s (cflNote k p s) := rfl

theorem cflOf_some {s : State} {id : Nat} {k : Cmd} {x : CflSt} (hf : s.fatal = false) (hd : s.dead = false)
    (hfind : s.cmds.find? (fun k => k.id == id) = some k) (hop : isCfl k.op = true) (hdone : k.done = false) (hprog : k.prog = 1)
    (hx : k.cfl = some x) : cflOf s id = some (k, x) := by
  simp [cflOf, hfind, hop, hdone, hprog, hf, hd, hx]
theorem cflOf_modCfl {s : State} {id : Nat} {k : Cmd} {x : CflSt} (h : cflOf s id = some (k, x)) (f : CflSt → CflSt) :
    cflOf (modCfl id f s) id = some ({ k with cfl := some (f x), since := s.us }, f x) := by
  have hfind : (modCfl id f s).cmds.find? (fun k => k.id == id) =
      (s.cmds.find? (fun k => k.id == id)).map (fun k => if k.id = id then { k with cfl := k.cfl.map f, since := s.us } else k) :=
    findMap _ _ (fun y => by split <;> rfl) s.cmds
  unfold cflOf at h ⊢
  rw [hfind]
  cases hk : s.cmds.find? (fun k => k.id == id) with
  | none => rw [hk] at h; cases h
  | some y =>
    rw [hk] at h
    have hid : y.id = id := by simpa using List.find?_some hk
    dsimp only at h
    split at h
    · next hgo =>
      obtain ⟨z, hz, hzk⟩ := Option.map_eq_some_iff.1 h
      cases hzk
      have hgo' : (isCfl k.op && !k.done && k.prog == 1 && !(modCfl id f s).fatal && !(modCfl id f s).dead) = true := hgo
      simp only [Option.map_some, if_pos hid, hz, if_pos hgo']
    · cases h
/-- A participant after a packet of its own has left. -/
def CflSt.sends (x : CflSt) (k : Cmd) (p : CflPkt) : CflSt :=
  { x with sentP := x.sentP ++ [(p.chunk, pktKey p, pktBytes k.block p)], held := x.held ++ [p] }
theorem cflOf_cflSend {s : State} {k k' : Cmd} {x x' : CflSt} (h : cflOf s k.id = some (k', x')) (p : CflPkt) :
    cflOf (cflSend k x p s) k.id = some ({ k' with cfl := some (x'.sends k p), since := s.us }, x'.sends k p) :=
  cflOf_modCfl (s := cflTo x (x.pos + 1) p s) h (fun x => x.sends k p)

/-- A participant with nothing of its own to send, and no packet that waits, is at rest. -/
theorem cflTurn_rests {s : State} {id : Nat} {k : Cmd} {x : CflSt} (h : cflOf s id = some (k, x)) (hfmt : cflFmt k.block ≠ 1)
    (hinbox : x.inbox = []) (hstarts : cflStarts k x = []) : cflTurn id s = s := by
  have hi8 : cflI8 k.block = false := by simp [cflI8, hfmt]
  have hbegin : cflBegin id s = s := by simp [cflBegin, h, hi8, hstarts]
  simp [cflTurn, h, hbegin, hinbox]
/-- What a participant has started, or has, it does not start again. -/
theorem cflStarts_none {k k' : Cmd} {x x' : CflSt} (hop : k'.op = k.op) (hblock : k'.block = k.block) (hring : x'.ring = x.ring)
    (hpos : x'.pos = x.pos) (hlacks : x'.lacks = x.lacks) (hsent : ∃ l, x'.sentP = x.sentP ++ l) (hdone : ∃ l, x'.done = x.done ++ l)
    (h : cflStarts k x = []) : cflStarts k' x' = [] := by
  obtain ⟨ls, hs⟩ := hsent
  obtain ⟨ld, hd⟩ := hdone
  have hsize : x'.size = x.size := by simp [CflSt.size, hring]
  have hhop : ∀ c, x'.hopOf c = x.hopOf c := fun c => by simp [CflSt.hopOf, hsize, hpos]
  have hgave : ∀ c, x.gave c 0 = true → x'.gave c 0 = true := fun c hg => by
    unfold CflSt.gave at hg ⊢
    rw [hs, List.any_append, hg, Bool.true_or]
  have his : ∀ c, x.isDone c = true → x'.isDone c = true := fun c hg => by
    unfold CflSt.isDone at hg ⊢
    rw [hd, List.any_append, hg, Bool.true_or]
  unfold cflStarts at h ⊢
  rw [List.filter_eq_nil_iff] at h ⊢
  intro c hc
  rw [hblock, hsize] at hc
  have hold := h c hc
  rw [hop, hlacks, hhop, hpos]
  simp only [Bool.and_eq_true, Bool.not_eq_true', not_and] at hold ⊢
  intro hl hgo
  refine hold hl ?_
  split
  · next hr =>
    rw [if_pos hr] at hgo
    simp only [Bool.and_eq_true, beq_iff_eq, Bool.not_eq_true'] at hgo ⊢
    exact ⟨hgo.1, by cases hg : x.gave c 0 with | false => rfl | true => rw [hgave c hg] at hgo; exact absurd hgo.2 (by decide)⟩
  · next hr =>
    rw [if_neg hr] at hgo
    simp only [Bool.and_eq_true, beq_iff_eq, Bool.not_eq_true'] at hgo ⊢
    exact ⟨hgo.1, by cases hg : x.isDone c with | false => rfl | true => rw [his c hg] at hgo; exact absurd hgo.2 (by decide)⟩

/-! A hop (R270, R272). -/

theorem hopChunk_float {k : Cmd} {x : CflSt} {c h : Nat} {acc own : List (BitVec 32)} {scales : List Byte} (hfmt : cflFmt k.block ≠ 1) :
    (hopChunk k x c h acc scales own).scales = [] ∧ (hopChunk k x c h acc scales own).resc = 0 ∧
    ∀ (i : Nat) (a o : BitVec 32), acc[i]? = some a → own[i]? = some o → (hopChunk k x c h acc scales own).acc[i]? =
      some (BitVec.ofNat 32 (cflElem k.block h (chunkLo k.block x.size c + i) a.toNat o.toNat).1) := by
  have hi8 : cflI8 k.block = false := by simp [cflI8, hfmt]
  unfold hopChunk
  simp only [hi8, Bool.false_eq_true, if_false]
  refine ⟨trivial, trivial, fun i a o ha ho => ?_⟩
  have hlen : i < acc.length := (List.getElem?_eq_some_iff.1 ha).1
  have hpair : (acc.zip own)[i]? = some (a, o) := List.getElem?_zip_eq_some.2 ⟨ha, ho⟩
  have htriple : ((acc.zip own).zip (span (chunkLo k.block x.size c) acc.length))[i]? = some ((a, o), chunkLo k.block x.size c + i) :=
    List.getElem?_zip_eq_some.2 ⟨hpair, span_get _ _ i hlen⟩
  simp only [List.getElem?_map, htriple]
  rfl
/-- The packet that a participant makes of the hop before its own. -/
def hopPacket (k : Cmd) (x : CflSt) (p : CflPkt) (own : List (BitVec 32)) : CflPkt :=
  let r := hopChunk k x p.chunk (p.hop + 1) p.acc p.scales own
  ⟨p.chunk, p.hop + 1, false, r.acc, r.scales, p.rescaled || decide (r.resc ≠ 0)⟩
theorem cflCombine_sends {s : State} {k : Cmd} {x : CflSt} {p : CflPkt} {own : List (BitVec 32)} (hown : cflOwn s k x p.chunk = .ok own)
    (hhop : p.hop + 2 < x.size) : ∃ f, cflCombine k x p s = cflSend k x (hopPacket k x p own) (modCfl k.id f (cflNote k p s)) ∧
      ∀ y, ∃ a b c, f y = { y with rescale := a, satblk := b, inv := c } := by
  have hmod : p.hop % x.size = p.hop := Nat.mod_eq_of_lt (by omega)
  have hin : ¬ x.size ≤ p.hop := by omega
  have hlast : ¬ p.hop + 1 + 1 = x.size := by omega
  simp only [cflCombine, hown, hmod, if_neg hin, if_neg hlast]
  exact ⟨_, rfl, fun y => ⟨_, _, _, rfl⟩⟩

theorem cflActive_some {s : State} {c : CoreId} {id : Nat} {k : Cmd} {x : CflSt} (h : cflOf s id = some (k, x)) (hc : k.core = c) :
    cflActive s c id = some (k, x) := by
  simp [cflActive, h, hc]
theorem cflReduces_of {op : Nat} (h : op = opAr ∨ op = opRs) : cflReduces op = true := by
  rcases h with rfl | rfl <;> rfl
/-- The accumulator of the hop before this participant's is combined here. -/
theorem cflTake_combines {s : State} {id : Nat} {k : Cmd} {x : CflSt} {p : CflPkt} (h : cflOf s id = some (k, x)) (hfmt : cflFmt k.block ≠ 1)
    (hchunk : p.chunk < x.size) (hop : k.op = opAr ∨ k.op = opRs) (hfinal : p.final = false) (hacc : p.acc ≠ [])
    (hlen : p.acc.length = chunkN k.block x.size p.chunk) (hhop : p.hop + 2 < x.size) (hmine : p.hop + 1 = x.hopOf p.chunk)
    (hgot : x.got p.chunk p.hop = false) : cflTake id s p = cflCombine k x p s := by
  have hi8 : cflI8 k.block = false := by simp [cflI8, hfmt]
  have hmod : p.hop % x.size = p.hop := Nat.mod_eq_of_lt (by omega)
  have h1 : ¬ x.size ≤ p.chunk := Nat.not_le.2 hchunk
  have h2 : ¬ 2 * x.size ≤ p.hop := by omega
  have h3 : ¬ x.size ≤ p.hop := by omega
  simp [cflTake, h, hacc, cflCodesIn, h1, hlen, h2, hi8, h3, hfinal, cflReduces_of hop, hmod, hmine, hgot]
theorem cflHop_sends {s : State} {c : CoreId} {k : Cmd} {x : CflSt} {p : CflPkt} {own : List (BitVec 32)} (hc : k.core = c)
    (h : cflOf s k.id = some (k, x)) (hfmt : cflFmt k.block ≠ 1) (hchunk : p.chunk < x.size) (hinbox : x.inbox = []) (hstarts : cflStarts k x = [])
    (hop : k.op = opAr ∨ k.op = opRs) (hfinal : p.final = false) (hacc : p.acc ≠ []) (hlen : p.acc.length = chunkN k.block x.size p.chunk)
    (hhop : p.hop + 2 < x.size) (hmine : p.hop + 1 = x.hopOf p.chunk) (hgot : x.got p.chunk p.hop = false) (hown : cflOwn s k x p.chunk = .ok own) :
    ∃ t q, exec (.cflHop c k.id p) s = .next t ∧ t.sent = s.sent ++ [.cfl (BitVec.ofNat 16 (x.entry (x.pos + 1)).1) (x.entry (x.pos + 1)).2.1 q] ∧
      q.chunk = p.chunk ∧ q.hop = p.hop + 1 ∧ q.final = false ∧ q.scales = [] ∧ q.rescaled = p.rescaled ∧
      (∀ (i : Nat) (a o : BitVec 32), p.acc[i]? = some a → own[i]? = some o →
        q.acc[i]? = some (BitVec.ofNat 32 (cflElem k.block (p.hop + 1) (chunkLo k.block x.size p.chunk + i) a.toNat o.toNat).1)) ∧
      t = { s with sent := t.sent, cmds := t.cmds } := by
  obtain ⟨f, hcomb, hf⟩ := cflCombine_sends hown hhop
  obtain ⟨hscales, hresc, helem⟩ := hopChunk_float (x := x) (c := p.chunk) (h := p.hop + 1) (acc := p.acc) (own := own) (scales := p.scales) hfmt
  have htake := (cflTake_combines h hfmt hchunk hop hfinal hacc hlen hhop hmine hgot).trans hcomb
  have hrest : cflTurn k.id (cflTake k.id s p) = cflTake k.id s p := by
    rw [htake]
    have hnote := cflOf_modCfl h (fun x => { x with recvP := x.recvP ++ [(p.chunk, pktKey p, pktBytes k.block p)] })
    have hcount := cflOf_modCfl hnote f
    obtain ⟨a, b, d, hfx⟩ := hf { x with recvP := x.recvP ++ [(p.chunk, pktKey p, pktBytes k.block p)] }
    rw [hfx] at hcount
    exact cflTurn_rests (cflOf_cflSend hcount _) hfmt hinbox (cflStarts_none (k := k) (x := x) rfl rfl rfl rfl rfl ⟨_, rfl⟩ ⟨[], (List.append_nil _).symm⟩ hstarts)
  refine ⟨cflTake k.id s p, hopPacket k x p own, ?_, ?_⟩
  · show execCflHop c k.id p s = _
    simp only [execCflHop, cflActive_some h hc, hrest]
  · rw [htake]
    exact ⟨rfl, rfl, rfl, rfl, hscales, by simp [hopPacket, hresc], helem, rfl⟩
/-! Replacements (R275). -/

/-- A participant after the final bytes of a chunk have come. -/
def CflSt.finished (x : CflSt) (k : Cmd) (p : CflPkt) : CflSt :=
  { x with recvP := x.recvP ++ [(p.chunk, pktKey p, pktBytes k.block p)], done := x.done ++ [(p.chunk, p.acc, p.scales)] }
/-- Final bytes that a participant does not have yet are taken, and passed on where another awaits them. -/
theorem cflTake_final {s : State} {id : Nat} {k : Cmd} {x : CflSt} {p : CflPkt} (h : cflOf s id = some (k, x)) (hfmt : cflFmt k.block ≠ 1)
    (hchunk : p.chunk < x.size) (hfinal : p.final = true) (hop : k.op ≠ opRs) (hacc : p.acc ≠ [])
    (hlen : p.acc.length = chunkN k.block x.size p.chunk) (hhop : p.hop < x.size) (hdone : x.isDone p.chunk = false) :
    cflTake id s p = cflDone k x p (cflNote k p s) := by
  have hi8 : cflI8 k.block = false := by simp [cflI8, hfmt]
  have h1 : ¬ x.size ≤ p.chunk := Nat.not_le.2 hchunk
  have h2 : ¬ 2 * x.size ≤ p.hop := by omega
  have h3 : ¬ x.size ≤ p.hop := Nat.not_le.2 hhop
  simp [cflTake, h, hacc, cflCodesIn, h1, hlen, h2, hi8, h3, hfinal, hop, hhop, hdone]
theorem cflPass_law (k : Cmd) (x : CflSt) (p : CflPkt) (s : State) : cflPass k x p s = s ∨ cflPass k x p s = cflSend k x { p with final := true } s := by
  unfold cflPass
  split
  · exact Or.inl rfl
  · exact Or.inr rfl
theorem cflDone_passes {s : State} {k : Cmd} {x : CflSt} {p : CflPkt} (hhop : p.hop < x.size) :
    cflDone k x p s = cflPass k x p (modCfl k.id (fun y => { y with done := y.done ++ [(p.chunk, p.acc, p.scales)] }) s) := by
  simp only [cflDone, if_pos hhop]
/-- What final bytes leave of the participant and its command, whether they are passed on or not. -/
theorem cflDone_law {s : State} {k : Cmd} {x : CflSt} {p : CflPkt} (h : cflOf s k.id = some (k, x)) (hhop : p.hop < x.size) :
    let u := cflDone k x p (cflNote k p s)
    FabricOnly s u ∧ ∃ m y, cflOf u k.id = some (m, y) ∧ m = { k with cfl := some y, since := s.us } ∧
      ∃ o l, y = { x.finished k p with sentP := x.sentP ++ o, held := x.held ++ l } := by
  intro u
  have hnote := cflOf_modCfl h (fun x => { x with recvP := x.recvP ++ [(p.chunk, pktKey p, pktBytes k.block p)] })
  have hfin := cflOf_modCfl hnote (fun y => { y with done := y.done ++ [(p.chunk, p.acc, p.scales)] })
  have hu : u = cflPass k x p (modCfl k.id (fun y => { y with done := y.done ++ [(p.chunk, p.acc, p.scales)] }) (cflNote k p s)) :=
    cflDone_passes hhop
  rcases cflPass_law k x p (modCfl k.id (fun y => { y with done := y.done ++ [(p.chunk, p.acc, p.scales)] }) (cflNote k p s)) with hpass | hpass
  · rw [hu, hpass]
    refine ⟨rfl, _, _, hfin, rfl, [], [], ?_⟩
    simp [CflSt.finished]
  · rw [hu, hpass]
    exact ⟨rfl, _, _, cflOf_cflSend hfin _, rfl, _, _, rfl⟩
theorem cmdOf_of_cflOf {s : State} {c : CoreId} {id : Nat} {k : Cmd} {x : CflSt} (h : cflOf s id = some (k, x)) (hc : k.core = c) :
    cmdOf s c id = some k := by
  have hfind : s.cmds.find? (fun k => k.id == id) = some k := by
    unfold cflOf at h
    cases hk : s.cmds.find? (fun k => k.id == id) with
    | none => rw [hk] at h; cases h
    | some y =>
      rw [hk] at h
      dsimp only at h
      split at h
      · obtain ⟨z, _, hzk⟩ := Option.map_eq_some_iff.1 h
        cases hzk; rfl
      · cases h
  obtain ⟨hid, pre, post, hcmds, hpre⟩ := List.find?_eq_some_iff_append.1 hfind
  refine List.find?_eq_some_iff_append.2 ⟨by rw [hid, hc]; simp, pre, post, hcmds, fun a ha => ?_⟩
  have := hpre a ha
  simp_all
/-- A replacement that was asked for is taken, counted, and asked for no more (R275). -/
theorem cflLate_replaces {s : State} {c : CoreId} {k : Cmd} {x : CflSt} {p : CflPkt} (hc : k.core = c) (h : cflOf s k.id = some (k, x))
    (hfmt : cflFmt k.block ≠ 1) (hchunk : p.chunk < x.size) (hinbox : x.inbox = []) (hstarts : cflStarts k x = []) (hfinal : p.final = true)
    (hop : k.op ≠ opRs) (hacc : p.acc ≠ []) (hlen : p.acc.length = chunkN k.block x.size p.chunk) (hhop : p.hop < x.size)
    (hdone : x.isDone p.chunk = false) (hasked : (p.chunk, x.size) ∈ x.asked) (hearlier : earlierRange s k = false) :
    ∃ t m y, exec (.cflLateReplacement c k.id p) s = .next t ∧ cmdOf t c k.id = some m ∧ m.cfl = some y ∧ y.late = x.late + 1 ∧
      y.done = x.done ++ [(p.chunk, p.acc, p.scales)] ∧ y.asked = x.asked.filter (fun a => a.1 ≠ p.chunk) ∧
      t = { s with sent := t.sent, cmds := t.cmds } := by
  let x1 : CflSt := { x with late := x.late + 1, asked := x.asked.filter (fun a => a.1 ≠ p.chunk) }
  let k1 : Cmd := { k with cfl := some x1, since := s.us }
  let s1 := modCfl k.id (fun x => { x with late := x.late + 1, asked := x.asked.filter (fun a => a.1 ≠ p.chunk) }) s
  have h1 : cflOf s1 k.id = some (k1, x1) := cflOf_modCfl h _
  have htake := cflTake_final h1 hfmt hchunk hfinal hop hacc hlen hhop hdone
  obtain ⟨hfab, m, y, hm, hmk, o, l, hy⟩ := cflDone_law (s := s1) (k := k1) (x := x1) (p := p) h1 hhop
  rw [← htake] at hfab hm
  have hrest : cflTurn k.id (cflTake k.id s1 p) = cflTake k.id s1 p := by
    refine cflTurn_rests hm (by rw [hmk]; exact hfmt) (by rw [hy]; exact hinbox) ?_
    subst hmk hy
    exact cflStarts_none (k := k) (x := x) rfl rfl rfl rfl rfl ⟨o, rfl⟩ ⟨_, rfl⟩ hstarts
  refine ⟨cflTake k.id s1 p, m, y, ?_, cmdOf_of_cflOf hm (by rw [hmk]; exact hc), by rw [hmk], by rw [hy]; rfl, by rw [hy]; rfl, by rw [hy]; rfl,
    FabricOnly.trans (fabricOnly_modCfl _ _ _) hfab⟩
  have hsize : ¬ x.size ≤ p.chunk := Nat.not_le.2 hchunk
  have hi8 : cflI8 k.block = false := by simp [cflI8, hfmt]
  have hans : cflAnswer k x p s = cflTurn k.id (cflTake k.id s1 p) := by
    unfold cflAnswer
    rw [if_pos (by simp [hfinal, hasked])]
  show execCflLateReplacement c k.id p s = _
  rw [← hrest, ← hans]
  simp [execCflLateReplacement, cflActive_some h hc, hsize, hi8, hearlier, hacc, hlen]
/-- The late participant's backup, when it is asked for the packet of hop 0, makes it from its copy (R275). -/
theorem cflLate_makes {s : State} {c : CoreId} {k : Cmd} {x : CflSt} {p : CflPkt} {copy : List (BitVec 32)} (hc : k.core = c)
    (h : cflOf s k.id = some (k, x)) (hfmt : cflFmt k.block ≠ 1) (hchunk : p.chunk < x.size) (hacc : p.acc = []) (hhop : p.hop = 0)
    (hop : k.op = opAr ∨ k.op = opRs) (hback : cflBacks k x (cflFrom x p.chunk 0) = true) (hcopy : cflCopy s k x p.chunk = .ok copy)
    (hearlier : earlierRange s k = false) :
    let d := x.entry (cflFrom x p.chunk 0 + 1)
    exec (.cflLateReplacement c k.id p) s = .next { s with sent := s.sent ++ [.cfl (BitVec.ofNat 16 d.1) d.2.1 ⟨p.chunk, 0, false, copy, [], false⟩] } := by
  have hsize : ¬ x.size ≤ p.chunk := Nat.not_le.2 hchunk
  have hpos : ¬ x.size = 0 := by omega
  have hi8 : cflI8 k.block = false := by simp [cflI8, hfmt]
  have hred := cflReduces_of hop
  show execCflLateReplacement c k.id p s = _
  simp [execCflLateReplacement, cflActive_some h hc, hsize, hi8, hearlier, hacc, cflAsked, hhop, hpos, hred, hback, cflMake, hcopy, cflAgreed, cflTo,
    CflSt.entry]
end Sys2Proof.Machine
end

section
open Sys2Proof Sys2Proof.Machine
/-- Settles O49: each event's step taken apart by the lemmas on completion, messages and packets above. -/
theorem engineCommandsComplete : Obligations.EngineCommandsComplete := by
  unfold Obligations.EngineCommandsComplete
  intro s c id k hk hf hd
  obtain ⟨hid, hcore⟩ := cmdOf_names hk
  refine ⟨fun f m hm hend => endCmd_settles f hm hend, fun n r hr h0 => congrArg Host.Outcome.next (rangeRetire_queue hr h0), ?_, ?_, ?_, ?_, ?_, ?_⟩
  · intro n r hr hrid h0 hw hearlier hbad
    exact congrArg Host.Outcome.next (rangeRetire_read hf hd (by rw [hrid]; exact hk) hr h0 hw hearlier hbad)
  · intro hdone htick hspawn hpan hack hcfl goesOn
    have hends := (engineComplete_done hk hf hd hdone htick hspawn hpan).trans (completeCmd_ends hack hcfl)
    refine ⟨fun hout => ?_, fun hout => ?_⟩
    · rw [hout] at hends
      exact congrArg Host.Outcome.next hends
    · rw [List.isEmpty_eq_false_iff.2 hout] at hends
      exact congrArg Host.Outcome.next hends
  · intro e hhead hop hearlier ⟨hempty, hearly, hmsg, hidx, hdrop, hlast⟩
    obtain ⟨x, hx⟩ := recvArrive_lands hf hd hhead hearlier hempty hearly hmsg hidx hdrop hlast
    have hcr : ∀ d, cr (recvArrive (msgPeer k.block) (msgFlow k.block) e s) d =
        cr (landL k.core (placeL (msgL k.block + 384 * e.idx) (bytesOf 384 e.data.toNat)) s) d := fun d => by rw [hx]; rfl
    have hl : (cr (recvArrive (msgPeer k.block) (msgFlow k.block) e s) k.core).l =
        (cr s k.core).l.wrBytes (msgL k.block + 384 * e.idx) (bytesOf 384 e.data.toNat) := by
      rw [hcr, landL, cr_modCr_same, ← wrPairs_place]
    refine ⟨_, rfl, ?_, fun b hb => ?_, fun d hne => ?_, by rw [hx]; rfl, by rw [hx]; rfl⟩
    · have hplace := rdN_place (msgL k.block + 384 * e.idx) 384 e.data.toNat [] [] (cr s k.core).l
      rw [List.nil_append, List.append_nil] at hplace
      rw [hl]
      exact hplace.trans (Nat.mod_eq_of_lt (lt_of_lt_of_eq e.data.isLt (Nat.pow_mul 2 8 384)))
    · rw [hl]
      exact rd_wrBytes_out b _ _ _ (by rw [bytesOf_len]; exact hb)
    · rw [hcr]
      exact cr_modCr_ne s (Ne.symm hne) _
  · intro hop hdone h0 hlate hhead hearlier hempty hbk
    exact ⟨_, recvTimeout_acts hk hf hd hop hdone h0 hlate, recvTimeoutStep_fails hhead hearlier hempty hbk⟩
  · exact fun hop hdone hack hlate => congrArg Host.Outcome.next (sendTimeout_fails hk hf hd hop hdone hack hlate)
  · intro x p hfind hcflop hdone hprog hx hfmt hchunk hinbox hstarts
    have hcfl : cflOf s k.id = some (k, x) := cflOf_some hf hd (by rw [hid]; exact hfind) hcflop hdone hprog hx
    subst hid
    exact ⟨fun own hop hfinal hacc hlen hhop hmine hgot hown =>
        cflHop_sends hcore hcfl hfmt hchunk hinbox hstarts hop hfinal hacc hlen hhop hmine hgot hown,
      fun hfinal hop hacc hlen hhop hnew hasked hearlier =>
        cflLate_replaces hcore hcfl hfmt hchunk hinbox hstarts hfinal hop hacc hlen hhop hnew hasked hearlier,
      fun copy hacc hhop hop hback hcopy hearlier => cflLate_makes hcore hcfl hfmt hchunk hacc hhop hop hback hcopy hearlier⟩
end

section
/-! PROOFS. Image loads, launches and attestation (R22, R59, R60, R68, R166, R344, R345). -/
namespace Sys2Proof.Machine

/-! Image loads (R344). -/

section
variable {s : State} {v : VfId} {p : PartId} {img : Image} (hwin : winPart s v = some p)
include hwin
/-- An image that passes every test stands in every core of its partition. -/
theorem imageLoad_stands {d : List Bundle} {code : List (BitVec 16)} (hrun : (pt s p).running = false)
    (hsig : Config.sigOk img.key (Config.imageBytes img) img.sig = true) (hkey : (pt s p).keydig = 0 ∨ Config.sha256 img.key = (pt s p).keydig)
    (hdict : img.dict.length ≤ 8192) (hcode : img.code.length ≤ 2 ^ 24) (hdata : dataFits img = true) (hsafe : img.safemax ≤ (vf s v).safemax)
    (hpaths : pathsFit img = true) (hreloc : relocAll s p img.relocs (img.dict, img.code) = some (d, code)) :
    ∃ t, exec (.imageLoad v img) s = .next t ∧ t.ack = ⟨true, 0⟩ ∧
      pt t p = { pt s p with image := some (Config.sha256 (Config.imageBytes img)), imgData := img.data } ∧
      (∀ c, inMask (pt s p).mask c = true → cr t c = { cr s c with dict := d, code := code, trapEntry := img.trap, safe := img.safe }) ∧
      (∀ c, inMask (pt s p).mask c = false → cr t c = cr s c) ∧
      t = { s with cores := t.cores, parts := s.parts.set p (pt t p), ack := t.ack } := by
  let s1 := modPt s p (fun q => { q with image := some (Config.sha256 (Config.imageBytes img)), imgData := img.data })
  let s2 := (coresOf s1 p).foldl (fun s c => modCr s c (fun k => { k with dict := d, code := code, trapEntry := img.trap, safe := img.safe })) s1
  have hpt : pt s1 p = { pt s p with image := some (Config.sha256 (Config.imageBytes img)), imgData := img.data } := pt_modPt_same s p _
  obtain ⟨h2, hcr⟩ : s2 = { s1 with cores := s2.cores } ∧ ∀ c, cr s2 c = if c ∈ coresOf s1 p then
      { cr s1 c with dict := d, code := code, trapEntry := img.trap, safe := img.safe } else cr s1 c :=
    fold_cores (fun _ k => { k with dict := d, code := code, trapEntry := img.trap, safe := img.safe }) (coresOf s1 p) s1 (coresOf_nodup s1 p)
  have hin : ∀ c, c ∈ coresOf s1 p ↔ inMask (pt s p).mask c = true := fun c => by rw [mem_coresOf, hpt]
  have hpt2 : pt (ackOk s2 0) p = pt s1 p := by
    show pt s2 p = _
    rw [h2]; rfl
  have hkeyok : ((pt s p).keydig == 0 || Config.sha256 img.key == (pt s p).keydig) = true := by simpa using hkey
  refine ⟨ackOk s2 0, ?_, rfl, hpt2.trans hpt, fun c hc => ?_, fun c hc => ?_, ?_⟩
  · show execImageLoad v img s = _
    unfold execImageLoad
    rw [hwin]
    simp only [hrun, hsig, hkeyok, hdict, hcode, hdata, hsafe, hpaths, hreloc, decide_true, Bool.not_false, Bool.and_self, if_true]
    rfl
  · exact (hcr c).trans (if_pos ((hin c).2 hc))
  · exact (hcr c).trans (if_neg fun h => by rw [(hin c).1 h] at hc; cases hc)
  · rw [hpt2]
    show ({ s2 with ack := ⟨true, 0⟩ } : State) = { s with cores := s2.cores, parts := s.parts.set p (pt s1 p), ack := ⟨true, 0⟩ }
    rw [h2, hpt]
    rfl
theorem imageLoad_refused (h : (pt s p).running = true ∨ Config.sigOk img.key (Config.imageBytes img) img.sig = false ∨
    (vf s v).safemax < img.safemax ∨ pathsFit img = false) : exec (.imageLoad v img) s = .next (nack s) := by
  show execImageLoad v img s = _
  unfold execImageLoad
  rw [hwin]
  dsimp only
  rw [if_neg]
  intro hok
  simp only [Bool.and_eq_true, Bool.not_eq_true', decide_eq_true_eq] at hok
  obtain ⟨⟨⟨⟨⟨⟨⟨hrun, hsig⟩, -⟩, -⟩, -⟩, -⟩, hsafe⟩, hpaths⟩ := hok
  rcases h with h | h | h | h
  · rw [hrun] at h; cases h
  · rw [hsig] at h; cases h
  · omega
  · rw [hpaths] at h; cases h

/-! Launches (R59, R60, R166). -/

/-- LAUNCH and LAUNCH_PREAMBLE are one step, but for the weight gate. -/
theorem exec_launches (vec : List (BitVec 32)) (pre : Bool) :
    exec (if pre then .launchPreamble v vec else .launch v vec) s = .next (if (pt s p).launch.isSome then s else launchTry v p vec pre s) := by
  have hstep : ∀ gate, launchStep v vec gate s = if (pt s p).launch.isSome then s else launchTry v p vec gate s := fun gate => by
    unfold launchStep
    rw [hwin]
  cases pre with
  | false => exact congrArg Host.Outcome.next (hstep false)
  | true => exact congrArg Host.Outcome.next (hstep true)
end
theorem launchTry_refused {s : State} {v : VfId} {p : PartId} {vec : List (BitVec 32)} (gate : Bool)
    (h : (pt s p).running = true ∨ (pt s p).image = none ∨ (pt s p).dl.isSome = true ∨ vec.length ≠ 64) : launchTry v p vec gate s = nack s := by
  unfold launchTry
  dsimp only
  rw [if_pos]
  rcases h with h | h | h | h <;> simp [h, vecFits]
theorem launchTry_goes {s : State} {v : VfId} {p : PartId} {vec : List (BitVec 32)} (gate : Bool) (hrun : (pt s p).running = false)
    (himg : (pt s p).image ≠ none) (hdl : (pt s p).dl = none) (hvec : vecFits (coresOf s p).length vec = true)
    (hroots : rootsOk s v p ((coresOf s p).head?.getD 0) ((upto (coresOf s p).length).filter (vecRun vec)) = .ok) :
    launchTry v p vec gate s = launchGo v p vec gate s := by
  have himg' : (pt s p).image.isNone = false := by
    cases h : (pt s p).image with
    | none => exact absurd h himg
    | some _ => rfl
  unfold launchTry
  dsimp only
  rw [if_neg (by simp [hrun, himg', hvec, hdl]), hroots]

/-- The partition of a launch as cycle 0 finds it (R59). -/
def launchPart (s : State) (p : PartId) (gate : Bool) : Part :=
  let q := pt s p
  { q with
    running := true, complete := false, vacant := false, launchAt := s.now, gateOpen := gate, spawns := [], lastq := Vector.replicate 8 63
    tasks := q.tasks.filter (fun t => t.st == stCheckpointed || t.word.isSome)
    queues := (q.queues.map (fun k => { k with ready := [] })).set 0 ⟨true, false, 7, []⟩ }
/-- A launch that is accepted (R59, R60): its answer, the gate, and every core of the partition and outside it. -/
theorem launchGo_law (s : State) (v : VfId) (p : PartId) (vec : List (BitVec 32)) (gate : Bool) :
    let t := launchGo v p vec gate s
    t.ack = ⟨true, 0⟩ ∧ (pt t p).launchAt = s.now ∧ ((pt t p).running = true → (pt t p).gateOpen = gate) ∧
      (∀ (c : CoreId) (i : Nat), (coresOf s p)[i]? = some c → Launched s v vec (cr s c) (cr t c) i) ∧
      (∀ c, inMask (pt s p).mask c = false → cr t c = cr s c) := by
  let cs := coresOf s p
  let s1 := setPt s p (launchPart s p gate)
  let s2 := (cs.zip (upto cs.length)).foldl (launchCore v p vec) s1
  let s3 := cs.foldl (fun s c => refresh s c 3) s2
  intro t
  have hgo : t = kernelCheck p (ackOk s3 0) := rfl
  have hfst : (cs.zip (upto cs.length)).map Prod.fst = cs := List.map_fst_zip (by rw [upto_range, List.length_range])
  obtain ⟨hlaunched, hother, hvf, hack2, hnow2, tasks, late, hpt2⟩ := launch_fold v p vec (cs.zip (upto cs.length)) s1 (by rw [hfst]; exact coresOf_nodup s p)
  obtain ⟨h3, hcr3⟩ := refresh_fold cs s2
  have hpt1 : pt s1 p = launchPart s p gate := (pt_set s p _ p).trans (if_pos rfl)
  have hpt3 : pt (ackOk s3 0) p = { launchPart s p gate with tasks := tasks, late := late } := by
    rw [← hpt1, ← hpt2]
    show pt s3 p = pt s2 p
    rw [show s3 = _ from h3]
    rfl
  obtain ⟨us, ps, ev, hframe, hkernel⟩ := kernelCheck_law p (ackOk s3 0)
  have hcr : ∀ c, cr t c = cr s3 c := fun c => by rw [hgo, hframe]; rfl
  refine ⟨by rw [hgo, hframe]; rfl, ?_, fun hrun => ?_, fun c i hi => ?_, fun c hc => ?_⟩
  · rcases hkernel with h | ⟨-, h, -⟩
    · rw [hgo, h, hpt3]; rfl
    · rw [hgo, h, hpt3]; rfl
  · rcases hkernel with h | ⟨h, -⟩
    · rw [hgo, h, hpt3]; rfl
    · rw [hgo, h] at hrun; cases hrun
  · have hmem : (c, i) ∈ cs.zip (upto cs.length) := by
      have hlt : i < cs.length := (List.getElem?_eq_some_iff.1 hi).1
      refine List.mem_iff_getElem?.2 ⟨i, List.getElem?_zip_eq_some.2 ⟨hi, ?_⟩⟩
      rw [upto_range, List.getElem?_range hlt]
    have hl : Launched s v vec (cr s c) (cr s2 c) i := launched_congr (VfSame.of_eq rfl) (hlaunched (c, i) hmem)
    obtain ⟨⟨n, o, hme⟩, -⟩ := hcr3 c
    rw [hcr]
    show Launched s v vec (cr s c) (cr s3 c) i
    rw [show cr s3 c = { cr s2 c with incl := n, own := o } from hme]
    exact hl
  · have hnot : c ∉ cs := fun h => by rw [(mem_coresOf s p c).1 h] at hc; cases hc
    exact (hcr c).trans (((hcr3 c).2 hnot).trans (hother c (by rw [hfst]; exact hnot)))

/-! Attestation (R345). -/

theorem attestTry_misaligned {s : State} {v : VfId} {p : PartId} {nonce : BitVec 256} {a : GAddr} (h : a.toNat % 64 ≠ 0) :
    attestTry v p nonce a s = nack s := by
  simp [attestTry, h]
theorem attestTry_answers {s : State} {v : VfId} {p : PartId} {nonce : BitVec 256} {a : GAddr} {l : List (Nat × Nat)} (ha : a.toNat % 64 = 0)
    (hl : vaMap s p true a.toNat ((attestBody s v p nonce).length + 7856) = .ok l) :
    attestTry v p nonce a s = ackOk (pubOther s (spanWrites l (attestReport s v p nonce))) 0 := by
  have hlen : (attestReport s v p nonce).length = (attestBody s v p nonce).length + 7856 := by
    rw [attestReport, List.length_append, fixLen_len]
  rw [← hlen] at hl
  simp only [attestTry, ha, ne_eq, not_true_eq_false, if_false, hl]
/-- What the host publishes is one publication, whatever it sends on; the answer comes after it. -/
theorem ackOk_pubOther (s : State) (ws : List (Nat × Byte)) :
    let t := ackOk (pubOther s ws) 0
    t = { s with
      pubs := s.pubs ++ [⟨.host 0, BitVec.allOnes 64, agentMask (.host 0) s.pubs 1, ws⟩], mem := s.mem.wrPairs ws, badG := healG ws s.badG
      nextId := t.nextId, ackWait := t.ackWait, sent := t.sent, outSeq := t.outSeq, ack := ⟨true, 0⟩ } := by
  obtain ⟨n, k, o, q, hpub⟩ := pubOther_eq s ws
  dsimp only
  rw [hpub]
  rfl

end Sys2Proof.Machine
end

section
open Sys2Proof Sys2Proof.Machine
/-- Settles O46: the answers of an image load, a launch and an attestation, each with what it leaves of the machine. -/
theorem imagesLaunchesAndAttestation : Obligations.ImagesLaunchesAndAttestation := by
  unfold Obligations.ImagesLaunchesAndAttestation
  intro s v p hw hb
  have hwin := win_part s v p hw hb
  refine ⟨fun img d code hrun hsig hkey hdict hcode hdata hsafe hpaths hreloc =>
      imageLoad_stands hwin hrun hsig hkey hdict hcode hdata hsafe hpaths hreloc,
    fun img h => imageLoad_refused hwin h, fun vec hwait => ?_, fun vec hfree h => ?_, ?_, ?_, ?_⟩
  · have hsome : (pt s p).launch.isSome = true := Option.isSome_iff_ne_none.2 hwait
    have waits : ∀ pre : Bool, exec (if pre then .launchPreamble v vec else .launch v vec) s = .next s := fun pre => by
      rw [exec_launches hwin, if_pos hsome]
    exact ⟨waits false, waits true⟩
  · have refused : ∀ pre : Bool, exec (if pre then .launchPreamble v vec else .launch v vec) s = .next (nack s) := fun pre => by
      rw [exec_launches hwin, hfree, launchTry_refused pre h]; rfl
    exact ⟨refused false, refused true⟩
  · intro vec hfree hrun himg hdl hvec hroots pre
    obtain ⟨hack, hat, hgate, hin, hout⟩ := launchGo_law s v p vec pre
    refine ⟨_, ?_, hack, hat, hgate, hin, hout⟩
    rw [exec_launches hwin, hfree, launchTry_goes pre hrun himg hdl hvec hroots]; rfl
  · intro nonce a hfree ha
    show execAttest v nonce a s = _
    simp only [execAttest, hwin, hfree, Option.isSome_none, Bool.false_eq_true, if_false, attestTry_misaligned ha]
    rfl
  · intro nonce a b l hfree ha hbody hl
    subst hbody
    refine ⟨_, _, ?_, by rw [attestReport], ackOk_pubOther s (spanWrites l (attestReport s v p nonce))⟩
    show execAttest v nonce a s = _
    simp only [execAttest, hwin, hfree, Option.isSome_none, Bool.false_eq_true, if_false, attestTry_answers ha hl]
end

section
/-! PROOFS. Arrivals over the links and closes of pan regions (R225, R227, R236, R237). -/
namespace Sys2Proof.Machine

theorem upto_nodup (n : Nat) : (upto n).Nodup := by
  rw [upto_range]
  exact List.nodup_range
/-- A close that reaches a channel is noted at the region while another channel still awaits it (R237). -/
theorem closeArrive_passes {s : State} {r : Region} {ch o : Nat} (hf : s.fatal = false) (hd : s.dead = false) (hr : regionOf s r.id = some r)
    (hmir : r.mirror = false) (hticks : r.ticks ≠ []) (hnew : ch ∉ r.passed) (hch : ch ∈ chansOf r)
    (hclean : ∀ m, m < r.membs.length → membBadAt s r m = none) (ho : o ∈ chansOf r) (hoch : o ≠ ch) (hopen : o ∉ r.passed) :
    ∃ y, regionOf (closeArrive r.id ch s) r.id = some y ∧ y.passed = r.passed ++ [ch] := by
  have hlt : ∀ m ∈ membsOn r ch, m < r.membs.length := fun m hm =>
    mem_upto.1 (List.mem_of_mem_filter hm)
  obtain ⟨l, -, hreg, hlen, -⟩ := closes_law r.id (r.n + 1) (membsOn r ch) s r ((upto_nodup _).filter _) hr (fun m hm => hclean m (hlt m hm)) hlt
  have hpass := regionOf_mod ((membsOn r ch).foldl (closeMemb r.id (r.n + 1)) s) r.id (fun r => { r with passed := r.passed ++ [ch] }) (fun _ => rfl)
  rw [hreg, Option.map_some] at hpass
  have hstep : closeArrive r.id ch s = closeAll r.id
      (modRegion r.id (fun r => { r with passed := r.passed ++ [ch] }) ((membsOn r ch).foldl (closeMemb r.id (r.n + 1)) s)) := by
    simp [closeArrive, hr, hmir, hticks, hnew, hch, hf, hd]
  have hchans : chansOf { r with membs := l, passed := r.passed ++ [ch] } = chansOf r := by
    show ((upto l.length).map (chanOf r)).eraseDups = chansOf r
    rw [hlen]; rfl
  have hwait : (chansOf r).all (fun c => (r.passed ++ [ch]).contains c) = false := by
    rw [List.all_eq_false]
    exact ⟨o, ho, by simp [hoch, hopen]⟩
  refine ⟨{ r with membs := l, passed := r.passed ++ [ch] }, ?_, rfl⟩
  rw [hstep, closeAll, hpass]
  dsimp only
  rw [hchans, hwait]
  exact hpass

/-! Writes from beyond the module (R227, R329). -/

/-- Bytes that come from beyond the module on columns that can all be corrected are one publication. -/
theorem farWrite_clean {a : Agent} {ws : List (Nat × Byte)} {s : State} (h : ∀ w ∈ ws, w.1 / 32 ∉ s.badG) : farWrite a ws s = pubBy a s ws := by
  have hnone : ∀ w ∈ ws, (s.badG.contains (w.1 / 32) && !(span (w.1 / 32 * 32) 32).all (fun i => ws.any (fun v => v.1 == i))) = false := fun w hw => by
    simp [h w hw]
  have hlost : ws.filter (fun w => s.badG.contains (w.1 / 32) && !(span (w.1 / 32 * 32) 32).all (fun i => ws.any (fun v => v.1 == i))) = [] :=
    List.filter_eq_nil_iff.2 fun w hw => by rw [hnone w hw]; decide
  have hkept : ws.filter (fun w => !(s.badG.contains (w.1 / 32) && !(span (w.1 / 32 * 32) 32).all (fun i => ws.any (fun v => v.1 == i)))) = ws :=
    List.filter_eq_self.2 fun w hw => by rw [hnone w hw]; rfl
  unfold farWrite
  dsimp only
  rw [hlost, hkept]
  rfl
theorem noteCopy_law (m : BitVec 16) (lo n : Nat) (s : State) : ∃ c, noteCopy m lo n s = { s with copies := c } := by
  unfold noteCopy
  dsimp only
  split
  · exact ⟨s.copies, rfl⟩
  · exact ⟨_, rfl⟩
theorem mirrorArrive_write {m : BitVec 16} {dpa : BitVec 46} {data : List Byte} {s : State}
    (h : ∀ b, dpa.toNat ≤ b → b < dpa.toNat + data.length → b / 32 ∉ s.badG) :
    (mirrorArrive (.write m dpa data) s).mem = s.mem.wrPairs (placeL dpa.toNat data) := by
  obtain ⟨c, hnote⟩ := noteCopy_law m dpa.toNat data.length s
  have hclean : ∀ w ∈ placeL dpa.toNat data, w.1 / 32 ∉ ({ s with copies := c } : State).badG := fun w hw => by
    obtain ⟨hlo, hhi⟩ := placeL_range _ _ _ (Nat.le_refl _) w hw
    exact h w.1 hlo hhi
  obtain ⟨n, k, o, q, hpub⟩ := pubBy_eq (.host 0) { s with copies := c } (placeL dpa.toNat data)
  show (farWrite (.host 0) (placeL dpa.toNat data) (noteCopy m dpa.toNat data.length s)).mem = _
  rw [hnote, farWrite_clean hclean, hpub]

/-! A flit of a flow in its turn (R225). -/

theorem flowOf_id (s : State) (f : FlowId) : (flowOf s f).id = f := by
  unfold flowOf
  cases h : s.flows.find? (fun x => x.id == f) with
  | none => rfl
  | some x => simpa using List.find?_some h
theorem flowOf_setFlow {x : Flow} {s : State} {f : FlowId} (h : x.id = f) : flowOf (setFlow x s) f = x := by
  subst h
  simp [flowOf, setFlow]
theorem flitArrive_write {f : FlowId} {dpa : BitVec 46} {data : List Byte} {s : State} (hf : s.fatal = false) (hd : s.dead = false)
    (hlane : laneHash dpa.toNat = f.lane) (hearly : (flowOf s f).early = [])
    (h : ∀ b, dpa.toNat ≤ b → b < dpa.toNat + data.length → dpaOk s b = true ∧ regionAt s b = none ∧ b / 32 ∉ s.badG) :
    (flitArrive f (flowOf s f).next (.write dpa data) s).mem = s.mem.wrPairs (placeL dpa.toNat data) ∧
      (flowOf (flitArrive f (flowOf s f).next (.write dpa data) s) f).next = (flowOf s f).next + 1 := by
  let x := flowOf s f
  let s1 := setFlow { x with early := [(x.next, .write dpa data)] } s
  let s2 := setFlow { x with next := x.next + 1, early := [] } s1
  have hx : flowOf s1 f = { x with early := [(x.next, .write dpa data)] } := flowOf_setFlow (flowOf_id s f)
  have harr : flitArrive f x.next (.write dpa data) s = flitDo f s2 (x.next, .write dpa data) := by
    have hin : flitArrive f x.next (.write dpa data) s = flitDrain f 1 s1 := by
      simp [flitArrive, hf, hd, flitAddr, hlane, x, hearly, s1]
    rw [hin]
    simp [flitDrain, hx, s2]
  have hfits : farFits s2 dpa.toNat data.length = true := by
    refine List.all_eq_true.2 fun b hb => ?_
    obtain ⟨hlo, hhi⟩ := (span_mem b _ _).1 hb
    obtain ⟨hok, hreg, -⟩ := h b hlo hhi
    have hok' : dpaOk s2 b = true := hok
    have hreg' : regionAt s2 b = none := hreg
    rw [hok', hreg']; rfl
  have hclean : ∀ w ∈ placeL dpa.toNat data, w.1 / 32 ∉ s2.badG := fun w hw => by
    obtain ⟨hlo, hhi⟩ := placeL_range _ _ _ (Nat.le_refl _) w hw
    exact (h w.1 hlo hhi).2.2
  obtain ⟨n, k, o, q, hpub⟩ := pubBy_eq (.host (1 + f.src)) s2 (placeL dpa.toNat data)
  have hdo : flitDo f s2 (x.next, .write dpa data) =
      { pubBy (.host (1 + f.src)) s2 (placeL dpa.toNat data) with
        sent := (pubBy (.host (1 + f.src)) s2 (placeL dpa.toNat data)).sent ++ [.ackWrite f x.next] } := by
    simp only [flitDo, hfits, if_true, farWrite_clean hclean]
  rw [harr, hdo, hpub]
  refine ⟨rfl, ?_⟩
  have hflow : flowOf s2 f = { x with next := x.next + 1, early := [] } := flowOf_setFlow (flowOf_id s f)
  exact congrArg Flow.next hflow

end Sys2Proof.Machine
end

section
/-! PROOFS. Delta's events and the Sluice's, and what a window's spawns and replies do (R105 to R115, R295, R303 to R311). -/
namespace Sys2Proof.Machine

/-- A machine whose windows are open is neither dead nor fatal. -/
theorem winOpen_alive {s : State} (hw : winOpen s = true) : s.fatal = false ∧ s.dead = false := by
  simp only [winOpen, Bool.and_eq_true, Bool.not_eq_true'] at hw
  obtain ⟨⟨-, hf⟩, hd⟩ := hw
  exact ⟨hf, hd⟩

/-! Spawns (R105, R108). -/

/-- A packet that waits alone is dropped once the kernel is over. -/
theorem drainSpawns_dropped {s : State} {p : PartId} {sp : Spawn} (hsp : (pt s p).spawns = [sp]) (hwait : sp.wait = none) (hcmd : sp.cmd = none)
    (hrun : (pt s p).running = false) : (pt (drainSpawns p ((pt s p).spawns.length + 1) s) p).spawns = [] := by
  have hanswer : answerSpawn p sp s = (if sp.owed then nack s else s, none) := by simp [answerSpawn, hcmd, hrun]
  have hempty : ∀ u : State, (pt (modPt u p (fun k => { k with spawns := [] })) p).spawns = [] := fun u => by rw [pt_modPt_same]
  rw [hsp]
  show (pt (drainSpawns p (1 + 1) s) p).spawns = []
  rw [drainSpawns, hsp]
  dsimp only
  rw [hwait]
  dsimp only
  rw [hanswer]
  dsimp only
  rw [drainSpawns, hempty]
  exact hempty _
/-- Behind a spawn that waits on a page, a new one joins the end. -/
theorem spawnArrive_waits {s : State} {p : PartId} {sp new : Spawn} {r : List Spawn} {x : Nat} {y : Nat × Bool} (hsp : (pt s p).spawns = sp :: r)
    (hwait : sp.wait = some (some x, y)) : spawnArrive p new s = modPt s p (fun k => { k with spawns := k.spawns ++ [new] }) := by
  have hlist : (pt (modPt s p (fun k => { k with spawns := k.spawns ++ [new] })) p).spawns = sp :: (r ++ [new]) := by
    rw [pt_modPt_same, hsp]; rfl
  unfold spawnArrive
  dsimp only
  rw [hlist]
  show drainSpawns p ((r ++ [new]).length + 1) _ = _
  rw [drainSpawns, hlist]
  dsimp only
  rw [hwait]
theorem exec_spawns {s : State} {v : VfId} {p : PartId} {a : GAddr} (again : Bool) (hwin : winPart s v = some p) (hrun : (pt s p).running = true)
    (ha : a.toNat % 64 = 0) (htorn : packetTorn s p a.toNat = false) (hrec : (recWord s p a.toNat 0x18).isSome = true) :
    exec (if again then .restore v a else .hostSpawn v a) s = .next (spawnArrive p ⟨a.toNat, none, again, false, none⟩ (ackOk s 0)) := by
  have hpacket : packet v a again s = spawnArrive p ⟨a.toNat, none, again, false, none⟩ (ackOk s 0) := by
    simp [packet, hwin, hrun, ha, htorn, hrec]
  cases again with
  | false => exact congrArg Host.Outcome.next hpacket
  | true => exact congrArg Host.Outcome.next hpacket

/-! Delta's own events (R110, R111). -/

theorem quantumStep_cores (p : PartId) (s : State) : quantumStep p s = { s with cores := (quantumStep p s).cores } :=
  (fold_cores (fun _ k => { k with yieldReq := true }) _ s ((coresOf_nodup s p).filter _)).1
/-- A task that is taken up for the first time starts on its core, with its argument in s1. -/
theorem startTask_starts (c : CoreId) (p : PartId) (t : Task) (argp : Nat) (s : State) :
    ∃ u, startTask c p t (.start argp) s = recPut p t.rec_ 0x18 24 4 2 u ∧ (cr u c).running = true ∧ (cr u c).rec_ = t.rec_ ∧
      rdS (cr u c).regs 1 = w64 argp := by
  have hs1 : ∀ k : Core, rdS (k.setS 1 ⟨w64 argp, true⟩).regs 1 = w64 argp := fun k => by simp [Core.setS, rdS]
  refine ⟨_, rfl, ?_, ?_, ?_⟩
  · rw [cr_setCr_at, if_pos rfl]
  · rw [cr_setCr_at, if_pos rfl]
  · rw [cr_setCr_at, if_pos rfl]
    exact hs1 _
theorem pickup_starts {c : CoreId} {p : PartId} {s : State} {q : BitVec 6} {t : Task} {argp : Nat} (hnext : nextChoice s p = some (q, t))
    (hgang : t.gang = none) (hread : readTask s p t.rec_ = .start argp) : ∃ w, pickup c p s = askYield p (startTask c p t (.start argp) w) := by
  refine ⟨modPt s p (fun k => { k with lastq := k.lastq.setIfInBounds (queueOf s p q).prio.toNat q }), ?_⟩
  simp [pickup, hnext, hgang, takeUp, hread, Restore.waits, startGang]

/-! The Sluice (R303 to R311). -/

theorem evalAll_idle {p : PartId} {held : Bool} {s : State} {d : Deadline} (hdl : (pt s p).dl = some d) (h : heldQueues s p = []) :
    ∃ e, evalAll p held s = modPt s p (fun k => { k with dl := some e }) ∧ e.evalAt = s.us := by
  simp only [evalAll, hdl, h, List.foldl_nil]
  exact ⟨_, rfl, rfl⟩
/-- A partition that has been vacated (R311). -/
def vacated (q : Part) : Part := { q with running := false, image := none, imgData := [], vacant := true, dl := none }
/-- A partition that may be vacated is: its deadline is over and no kernel runs in it (R311). -/
theorem vacancy_vacates {s : State} {p : PartId} {d : Deadline} (hf : s.fatal = false) (hd : s.dead = false) (hdl : (pt s p).dl = some d)
    (hmay : mayVacate s p = true) : ∃ t, execVacancy p s = .next t ∧ (pt t p).vacant = true ∧ (pt t p).dl = none ∧ (pt t p).running = false := by
  have gate : ∀ u : State, pt (raise (openGate p (modPt u p vacated)) (.vacancy p)) p = { vacated (pt u p) with gateOpen := true } := fun u => by
    obtain ⟨us, ev, -, hgate⟩ := openGate_law p (modPt u p vacated)
    have hopen := pt_modPt_same (modPt u p vacated) p (fun q => { q with gateOpen := true })
    rw [hgate]
    exact hopen.trans (by rw [pt_modPt_same])
  obtain ⟨u, hu⟩ : ∃ u, execVacancy p s = .next (raise (openGate p (modPt u p vacated)) (.vacancy p)) := by
    unfold execVacancy
    rw [hdl]
    dsimp only
    rw [if_neg (by simp [hmay, hf, hd])]
    exact ⟨_, rfl⟩
  refine ⟨_, hu, ?_⟩
  rw [gate]
  exact ⟨rfl, rfl, rfl⟩

/-! A page reply that fails (R295). -/

theorem failOne_wait (tag page : Nat) (s : State) (c d : CoreId) : (cr (failOne tag page s c) d).wait = (cr s d).wait := by
  obtain ⟨f, h⟩ := failOne_law tag page s c
  rw [h, cr_modCr_at]
  split
  · next e => subst e; rfl
  · rfl
theorem failAll_wait (tag page : Nat) (d : CoreId) : ∀ (l : List CoreId) (s : State), (cr (l.foldl (failOne tag page) s) d).wait = (cr s d).wait
  | [], _ => rfl
  | c :: l, s => (failAll_wait tag page d l (failOne tag page s c)).trans (failOne_wait tag page s c d)
/-- A failed reply at the cores touches the cores alone, and keeps what each of them waits for. -/
theorem coresReply_fails (p : PartId) (r : PageReq) (s : State) :
    coresReply p r true s = { s with cores := (coresReply p r true s).cores } ∧ ∀ c, (cr (coresReply p r true s) c).wait = (cr s c).wait :=
  ⟨(fail_fold p r.tag (r.ipa / 65536) (coresOf s p) s (coresOf_nodup s p)).1, fun c => failAll_wait r.tag (r.ipa / 65536) c (coresOf s p) s⟩
theorem lateReply_none {p : PartId} {tag : Nat} {fail : Bool} {s : State} (h : (pt s p).late = []) :
    lateReply p tag fail s = modPt s p (fun q => { q with late := [] }) := by
  rw [lateReply, h]
  rfl
theorem barriersAgain_none {p : PartId} {s : State} (h : ∀ c g n, inMask (pt s p).mask c = true → (cr s c).wait ≠ .bar g n) : barriersAgain p s = s := by
  refine foldl_none _ _ s fun c hc => ?_
  split
  · next g n hw => exact absurd hw (h c g n ((mem_coresOf s p c).1 hc))
  · rfl
theorem modPt_modPt (s : State) (p : PartId) (f g : Part → Part) : modPt (modPt s p f) p g = modPt s p (fun q => g (f q)) := by
  simp [modPt, setPt, pt]
theorem spawnReply_none {p : PartId} {fail : Bool} {s : State} (h : (pt s p).spawns = []) : spawnReply p fail s = s := by
  unfold spawnReply
  rw [h]
/-- A partition whose tasks and spawns no longer wait on a tag. -/
def answered (tag : Nat) (q : Part) : Part :=
  let waits := fun (sp : Spawn) => match sp.wait with | some (some t, _, _) => t == tag | _ => false
  { q with
    tasks := q.tasks.map (fun t => if t.word = some tag then { t with word := none } else t)
    spawns := q.spawns.map (fun sp => if waits sp then { sp with wait := sp.wait.map (fun x => (none, x.2)) } else sp) }
theorem deltaReply_none {p : PartId} {tag : Nat} {fail : Bool} {s : State} (hspawns : (pt s p).spawns = [])
    (hwords : ∀ y ∈ (pt s p).tasks, y.word ≠ some tag) :
    deltaReply p tag fail s = modPt s p (answered tag) := by
  have hnone : (pt s p).tasks.filter (fun t => t.word == some tag) = [] := List.filter_eq_nil_iff.2 fun y hy => by simpa using hwords y hy
  have hempty : (pt (modPt s p (answered tag)) p).spawns = [] := by
    rw [pt_modPt_same]
    show (pt s p).spawns.map _ = []
    rw [hspawns]; rfl
  have hdelta : deltaReply p tag fail s = spawnReply p fail (modPt s p (answered tag)) := by
    unfold deltaReply
    rw [hnone]
    dsimp only [List.foldl_nil]
    rw [modPt_modPt]
    rfl
  rw [hdelta, spawnReply_none hempty]
/-- What a failed reply leaves of the machine where no task, spawn, barrier or write of Delta waits on it. -/
theorem waitersReply_fails {p : PartId} {r : PageReq} {s : State} (hspawns : (pt s p).spawns = []) (hlate : (pt s p).late = [])
    (hwords : ∀ y ∈ (pt s p).tasks, y.word ≠ some r.tag) (hbar : ∀ c g n, inMask (pt s p).mask c = true → (cr s c).wait ≠ .bar g n) :
    let t := waitersReply p r true s
    (∃ cs ks ps, t = { s with cores := cs, cmds := ks, parts := ps }) ∧ (pt t p).launch = (pt s p).launch ∧ (pt t p).attest = (pt s p).attest := by
  obtain ⟨hcores, hwait⟩ := coresReply_fails p r s
  let s2 := cmdsReply p r true (coresReply p r true s)
  let s3 := modPt s2 p (fun q => { q with late := [] })
  obtain ⟨cs, ks, hs2⟩ : ∃ cs ks, s2 = { s with cores := cs, cmds := ks } := by
    refine ⟨(coresReply p r true s).cores, (cmdsReply p r true s).cmds, ?_⟩
    show cmdsReply p r true (coresReply p r true s) = _
    rw [hcores]
    rfl
  have hpt2 : pt s2 p = pt s p := by rw [hs2]; rfl
  have hpt3 : pt s3 p = { pt s p with late := [] } := (pt_modPt_same s2 p _).trans (by rw [hpt2])
  have hlate2 : lateReply p r.tag true s2 = s3 := lateReply_none (by rw [hpt2]; exact hlate)
  have hbar3 : barriersAgain p s3 = s3 := barriersAgain_none fun c g n hc => by
    have hw : (cr s3 c).wait = (cr s c).wait := hwait c
    rw [hw]
    exact hbar c g n (by rw [hpt3] at hc; exact hc)
  have hdelta := deltaReply_none (p := p) (tag := r.tag) (fail := true) (s := s3) (by rw [hpt3]; exact hspawns) (by rw [hpt3]; exact hwords)
  have ht : waitersReply p r true s = modPt s3 p (answered r.tag) := by
    show deltaReply p r.tag true (barriersAgain p (lateReply p r.tag true s2)) = _
    rw [hlate2, hbar3, hdelta]
  have hpt : pt (modPt s3 p (answered r.tag)) p = answered r.tag { pt s p with late := [] } := (pt_modPt_same s3 p _).trans (by rw [hpt3])
  dsimp only
  rw [ht, hpt]
  refine ⟨⟨cs, ks, (modPt s3 p (answered r.tag)).parts, ?_⟩, rfl, rfl⟩
  have hframe : ∀ u, u = s2 → modPt (modPt u p (fun q => { q with late := [] })) p (answered r.tag) =
      { u with parts := (modPt s3 p (answered r.tag)).parts } := fun u hu => by rw [hu]; rfl
  exact (hframe s2 rfl).trans (by rw [hs2])
/-- A reply that fails a request on which nothing but lanes and commands waits takes the request off (R295). -/
theorem prqreply_fails {s : State} {v : VfId} {p : PartId} {x : W64} {r : PageReq} (hw : winOpen s = true) (hb : (vf s v).bound = some p)
    (hr : (vf s v).reqs.find? (fun r => r.posted && r.num == BitVec.ofNat 16 x.toNat) = some r) (hx : x.toNat / 2 ^ 17 = 0)
    (hspawns : (pt s p).spawns = []) (hwords : ∀ y ∈ (pt s p).tasks, y.word ≠ some r.tag) (hlate : (pt s p).late = [])
    (hlaunch : (pt s p).launch = none) (hattest : (pt s p).attest = none)
    (hbar : ∀ c g n, inMask (pt s p).mask c = true → (cr s c).wait ≠ .bar g n) (hfail : x.getLsbD 16 = true) :
    ∃ t, exec (.prqreply v x) s = .next t ∧ t.ack = ⟨true, 0⟩ ∧ (vf t v).reqs = (vf s v).reqs.filter (fun q => q.tag ≠ r.tag) := by
  obtain ⟨hf, hd⟩ := winOpen_alive hw
  let s1 := modVf s v (fun k => { k with reqs := k.reqs.filter (fun q => q.tag ≠ r.tag) })
  have hvf1 : vf s1 v = { vf s v with reqs := (vf s v).reqs.filter (fun q => q.tag ≠ r.tag) } := vf_modVf_same s v _
  obtain ⟨⟨cs, ks, ps, hframe⟩, hl, ha⟩ := waitersReply_fails (p := p) (r := r) (s := s1) hspawns hlate hwords hbar
  have hstep : replyStep v x s = ackOk (waitersReply p r true s1) 0 := by
    unfold replyStep
    rw [hr, hb]
    dsimp only
    rw [if_neg (not_not.2 hx)]
    simp only [hfail, Bool.not_true, Bool.and_false, Bool.false_eq_true, if_false, if_true]
    rfl
  generalize waitersReply p r true s1 = w at hframe hl ha hstep
  have hvf : vf (ackOk w 0) v = vf s1 v := by rw [hframe]; rfl
  have hwin : winPart (ackOk w 0) v = some p := by
    have hopen : winOpen (ackOk w 0) = true := by rw [hframe]; exact hw
    exact win_part _ v p hopen (by rw [hvf, hvf1]; exact hb)
  have hagain : windowAgain v (ackOk w 0) = ackOk w 0 := by
    have hl' : (pt (ackOk w 0) p).launch = none := hl.trans hlaunch
    have ha' : (pt (ackOk w 0) p).attest = none := ha.trans hattest
    simp only [windowAgain, hwin, hl', ha']
  refine ⟨ackOk w 0, ?_, rfl, by rw [hvf, hvf1]⟩
  show execPrqreply v x s = _
  simp only [execPrqreply, hf, hd, Bool.or_self, Bool.false_eq_true, if_false, hstep]
  have hpos : (ackOk w 0).ack.pos = true := rfl
  rw [if_pos hpos, hagain]

end Sys2Proof.Machine
end

section
/-! PROOFS. Partitions, retirements, deadlines and counts of errors (R284, R285, R299 to R306, R332 to R334). -/
namespace Sys2Proof.Machine

theorem mgmt_of {s : State} {p : PartId} (hw : winOpen s = true) (he : (pt s p).exist = true) : mgmt s p = true := by simp [mgmt, hw, he]

/-! Partitions (R285). -/

theorem pcreate_creates {s : State} {p : PartId} {v : VfId} {mask : W64} {key : BitVec 256} (hw : winOpen s = true) (he : (pt s p).exist = false)
    (hb : (vf s v).bound = none) (hm : mask ≠ 0) (hc : ∀ c, inMask mask c = true → (cr s c).retired = false ∧ partOf s c = none) :
    ∃ t, exec (.pcreate p v mask key) s = .next t ∧ t.ack = ⟨true, 0⟩ ∧ (pt t p).exist = true ∧ (vf t v).bound = some p := by
  let s1 := setPt s p { Part.reset with exist := true, vf := v, mask := mask, keydig := key }
  let s2 := modVf s1 v (fun k => { k with bound := some p })
  have hbusy : coreIds.any (fun c => inMask mask c && ((cr s c).retired || (partOf s c).isSome)) = false := by
    rw [List.any_eq_false]
    intro c _
    cases hin : inMask mask c with
    | false => simp
    | true => simp [(hc c hin).1, (hc c hin).2]
  obtain ⟨hframe, -⟩ := fold_cores (fun _ k => { k with portw := 1 }) (coresOf s2 p) s2 (coresOf_nodup s2 p)
  refine ⟨ackOk ((coresOf s2 p).foldl (fun s c => modCr s c (fun k => { k with portw := 1 })) s2) 0, ?_, rfl, ?_, ?_⟩
  · have hm' : ¬ mask = 0#64 := hm
    refine if_neg ?_
    simp [hw, he, hb, hm', hbusy]
  · have hpt : pt s1 p = { Part.reset with exist := true, vf := v, mask := mask, keydig := key } := (pt_set s p _ p).trans (if_pos rfl)
    refine (congrArg (fun u => (pt u p).exist) hframe).trans ?_
    exact congrArg Part.exist hpt
  · have hvf : vf s2 v = { vf s1 v with bound := some p } := vf_modVf_same s1 v _
    refine (congrArg (fun u => (vf u v).bound) hframe).trans ?_
    exact congrArg Vf.bound hvf
/-- The retirements that are due at a set of cores leave the partitions alone. -/
theorem dueCores_parts : ∀ (l : List CoreId) (s : State), (dueCores l s).parts = s.parts ∧ (dueCores l s).ack = s.ack
  | [], _ => ⟨rfl, rfl⟩
  | c :: l, s => by
    have hrest := dueCores_parts l (if s.units.any (fun x => x.kind == 0 && x.unit.toNat == c.val && x.due) then goneCore c s else s)
    have hone : (if s.units.any (fun x => x.kind == 0 && x.unit.toNat == c.val && x.due) then goneCore c s else s).parts = s.parts := by
      split <;> rfl
    exact ⟨hrest.1.trans hone, by rw [dueCores, List.foldl_cons]; exact hrest.2.trans (by split <;> rfl)⟩
theorem pdestroy_destroys {s : State} {p : PartId} (hw : winOpen s = true) (he : (pt s p).exist = true) (hrun : (pt s p).running = false)
    (hbusy : partBusy s p = false) : ∃ t, exec (.pdestroy p) s = .next t ∧ t.ack = ⟨true, 0⟩ ∧ pt t p = Part.reset := by
  show ∃ t, execPdestroy p s = .next t ∧ _
  unfold execPdestroy
  dsimp only
  rw [if_neg (by simp [mgmt_of hw he, hrun, hbusy])]
  refine ⟨_, rfl, rfl, ?_⟩
  refine (congrArg (fun x : Vector Part 64 => x[p]) (dueCores_parts _ _).1).trans ?_
  exact (pt_set _ p Part.reset p).trans (if_pos rfl)

/-! Retirements (R333, R334). -/

/-- RETIRE takes a valid unit whose core is free out of use at once. -/
theorem retire_retires {s : State} {kind : BitVec 3} {u : BitVec 16} (hw : winOpen s = true) (hv : unitValid kind u = true)
    (hr : (unitOfErr s kind u).retired = false) (hm : mayRetire s kind u = true) :
    ∃ t, exec (.retire kind u) s = .next t ∧ t.ack = ⟨true, 0⟩ ∧ ∃ y ∈ t.units, y.kind = kind ∧ y.unit = u ∧ y.retired = true := by
  have hkinds : kind ≠ 7 ∧ kind ≠ 2 ∧ kind ≠ 6 := by
    refine ⟨?_, ?_, ?_⟩ <;> (rintro rfl; simp [mayRetire] at hm)
  obtain ⟨h7, h2, h6⟩ := hkinds
  obtain ⟨hk, hu⟩ := unitOf_fields s kind u
  refine ⟨ackOk (settleUnit kind u (makeDue kind u s)) 0, ?_, rfl,
    settle_gone s kind u { unitOfErr s kind u with due := true } hv hm hk hu rfl⟩
  have h7' : ¬ kind = 7#3 := h7
  have h2' : ¬ kind = 2#3 := h2
  have h6' : ¬ kind = 6#3 := h6
  show execRetire kind u s = _
  simp [execRetire, hw, h7', hv, hr, h2', h6']
theorem unitRetirement_retires {s : State} {kind : BitVec 3} {u : BitVec 16} (hw : winOpen s = true) (hv : unitValid kind u = true)
    (hr : (unitOfErr s kind u).retired = false) (hm : mayRetire s kind u = true) (hdue : (unitOfErr s kind u).due = true) :
    ∃ t, exec (.unitRetirement kind u) s = .next t ∧ ∃ y ∈ t.units, y.kind = kind ∧ y.unit = u ∧ y.retired = true := by
  obtain ⟨hf, hd⟩ := winOpen_alive hw
  have hlisted : ∃ y ∈ s.units, y.kind = kind ∧ y.unit = u ∧ y.due = true := by
    obtain ⟨hk, hu⟩ := unitOf_fields s kind u
    cases h : s.units.find? (fun x => x.kind == kind && x.unit == u) with
    | none => rw [unitOfErr, h] at hdue; cases hdue
    | some y =>
      rw [unitOfErr, h] at hdue hk hu
      exact ⟨y, List.mem_of_find?_eq_some h, hk, hu, hdue⟩
  refine ⟨retireUnit kind u s, ?_, retire_gone kind u s hv hm hlisted⟩
  show execUnitRetirement kind u s = _
  simp [execUnitRetirement, hdue, hr, hm, hf, hd]

/-! Deadlines (R299). -/

/-- An evaluation of a partition in which nothing is held leaves its deadline standing. -/
theorem evalAll_stands {p : PartId} {held : Bool} {s : State} {d : Deadline} (hdl : (pt s p).dl = some d) (hq : ∀ q, queueHolds s p q = false) :
    (pt (evalAll p held s) p).dl.isSome = true := by
  obtain ⟨e, heval, -⟩ := evalAll_idle (held := held) hdl (held_none hq)
  rw [heval, pt_modPt_same]
  rfl
/-- The deadline that a command sets, with the queues of the one that it replaces (R299). -/
def deadlineSet (k : DeadlineF) (s : State) : Deadline :=
  let old := match (pt s k.part).dl with | some d => d.qs | none => []
  ⟨k.d.toNat, tDiscard s k.part, s.us + k.d.toNat - tDiscard s k.part, s.us, k.margin, k.node, k.addr, k.ckpt, k.ckptn.toNat, 0,
    old.map (fun x => { x with held := queueHolds s k.part x.q }), false, s.us⟩
/-- The machine as the first evaluation of a deadline finds it. -/
def deadlineTaken (s : State) (p : PartId) (d : Deadline) : State := { modPt s p (fun q => { q with dl := some d }) with mhz := max s.mhz 1800 }
/-- The machine after that evaluation, with its notice where the mode asks for one. -/
def deadlineStands (k : DeadlineF) (s : State) : State :=
  let u := evalAll k.part true (deadlineTaken s k.part (deadlineSet k s))
  if u.modesel.getLsbD 1 then raise u (.sluiceq k.part) else u
theorem pt_deadlineTaken (s : State) (p : PartId) (d : Deadline) : pt (deadlineTaken s p d) p = { pt s p with dl := some d } :=
  pt_modPt_same s p (fun q => { q with dl := some d })
theorem execDeadline_taken {s : State} {k : DeadlineF} (hok : ¬ ((!mgmt s k.part || decide (k.d.toNat < max 1 (tDiscard s k.part)) ||
      decide (k.addr.toNat % 64 ≠ 0) || decide (k.ckpt.toNat % 64 ≠ 0) || decide (k.rsv ≠ 0) || endsBefore s k.part k.d.toNat) = true)) :
    execDeadline k s = .next (ackOk (deadlineStands k s) (tDiscard s k.part)) := if_neg hok
theorem deadlineStands_dl {s : State} {k : DeadlineF} (hq : ∀ q, queueHolds s k.part q = false) : (pt (deadlineStands k s) k.part).dl.isSome = true := by
  have hpt := pt_deadlineTaken s k.part (deadlineSet k s)
  have hnone : ∀ q, queueHolds (deadlineTaken s k.part (deadlineSet k s)) k.part q = false := fun q => by
    show (pt (deadlineTaken s k.part (deadlineSet k s)) k.part).tasks.any _ = false
    rw [hpt]
    exact hq q
  have hstands := evalAll_stands (held := true) (congrArg Part.dl hpt) hnone
  unfold deadlineStands
  dsimp only
  split
  · exact hstands
  · exact hstands
theorem deadline_stands {s : State} {k : DeadlineF} (hdl : (pt s k.part).dl = none) (hq : ∀ q, queueHolds s k.part q = false)
    (hm : mgmt s k.part = true) (h1 : 1 ≤ k.d.toNat) (hd : 1 + max 4 (tSweep s k.part none) + 7 ≤ k.d.toNat)
    (ha : k.addr.toNat % 64 = 0) (hc : k.ckpt.toNat % 64 = 0) (hr : k.rsv = 0) :
    ∃ t, exec (.deadline k) s = .next t ∧ t.ack = ⟨true, 1 + max 4 (tSweep s k.part none) + 7⟩ ∧ (pt t k.part).dl.isSome = true :=
  ⟨_, execDeadline_taken (dl_ok s k hm h1 hd ha hc hr (fun d h => by rw [hdl] at h; cases h)), rfl, deadlineStands_dl hq⟩

/-! Counts of errors (R332). -/

theorem record_posts {s : State} {kind : BitVec 3} {u : BitVec 16} {w : W64} (hw : winOpen s = true) (hv : unitValid kind u = true)
    (h24 : w.toNat / 2 ^ 24 = 0) (h3 : w.toNat / 2 ^ 3 % 2 ^ 5 = 0) (hk : w.toNat % 2 ^ 3 = kind.toNat) (hu : w.toNat / 2 ^ 8 % 2 ^ 16 = u.toNat)
    (hr : (unitOfErr s kind u).retired = false) (hmode : s.modesel.getLsbD 2 = true) :
    ∃ t, exec (.record w) s = .next t ∧ t.ack = ⟨true, 0⟩ ∧ t.events = s.events ++ [.errPosted kind u] := by
  have hkind : (BitVec.ofNat 3 w.toNat) = kind := BitVec.eq_of_toNat_eq (by rw [BitVec.toNat_ofNat]; exact hk)
  have hunit : (BitVec.ofNat 16 (w.toNat / 2 ^ 8)) = u := BitVec.eq_of_toNat_eq (by rw [BitVec.toNat_ofNat]; exact hu)
  have h7 : kind ≠ 7 := by rintro rfl; simp [unitValid, unitCount] at hv
  have h7' : ¬ kind = 7#3 := h7
  have hb24 : bits w.toNat 24 40 = 0 := by rw [bits, h24]; rfl
  have hb3 : bits w.toNat 3 5 = 0 := h3
  have hcount : countError kind u s = raise (bumpUnit kind u s).1 (.errPosted kind u) := by rw [count_go s kind u hv hr, if_pos hmode]
  refine ⟨ackOk (countError kind u s) 0, ?_, rfl, by rw [hcount]; rfl⟩
  show execRecord w s = _
  simp only [execRecord, hkind, hunit]
  refine if_neg ?_
  simp [hw, hb24, hb3, h7', hv, hr]
theorem windowEnds_clears {s : State} {kind : BitVec 3} {u : BitVec 16} (hw : winOpen s = true) (hc : (unitOfErr s kind u).count ≠ 0)
    (hwin : (unitOfErr s kind u).win ≠ windowNow s kind)
    (hmode : s.modesel.getLsbD 2 = true) : (unitOfErr (windowEnds kind u s) kind u).count = 0 := by
  obtain ⟨hf, hd⟩ := winOpen_alive hw
  obtain ⟨hk, hu⟩ := unitOf_fields s kind u
  have hstep : windowEnds kind u s = setUnit { unitOfErr s kind u with count := 0, win := windowNow s kind } s := by
    unfold windowEnds
    dsimp only
    rw [if_neg (by simp [hc, hwin, hf, hd]), hmode]
    simp only [Bool.not_true, Bool.false_and, Bool.or_false, Bool.false_eq_true, if_false]
  rw [hstep]
  exact congrArg UnitErr.count (unitOf_head s kind u { unitOfErr s kind u with count := 0, win := windowNow s kind } _ hk hu)

end Sys2Proof.Machine
end

section
/-! PROOFS. What an event does where it is due, in the words of O60: what lands, retires, completes and arrives, what Delta, the Sluice,
the boot and the windows do. -/
namespace Sys2Proof.Machine

theorem cr_of_set {s t : State} {c : CoreId} {k : Core} (h : t.cores = s.cores.set c k) : cr t c = k := (cr_set s c k t h c).trans (if_pos rfl)
/-- An event that changes one core's state alone has the effect that the new state of that core shows. -/
theorem acts_core {s u : State} {i : Instr} {c : CoreId} {k : Core} {effect : Core → Prop} (h : exec i s = .next u)
    (hc : u.cores = s.cores.set c k) (he : effect k) : Acts s i (fun t => effect (cr t c)) := by
  refine ⟨u, h, ?_⟩
  show effect (cr u c)
  rw [cr_of_set hc]
  exact he

theorem setS_of_pend (k : Core) (l : List Pend) (d : BitVec 6) (x : SReg) :
    ({ k with pend := l }.setS d x).pend = l ∧ ({ k with pend := l }.setS d x).regs = (k.setS d x).regs := by
  rw [setS_eq, setS_eq]
  exact ⟨rfl, rfl⟩

/-! Results, posts and traps: the parts of O48. -/

section
variable {s : State} {c : CoreId}
theorem acts_resultLands {n : Nat} {q : Pend} {d : BitVec 6} (hf : s.fatal = false) (hd : s.dead = false) (hq : (cr s c).pend[n]? = some q)
    (hdue : q.due ≤ s.now) (hkind : q.kind = .calc) (hdst : q.dst = [.s d]) :
    Acts s (.resultLands c n) (fun t => (cr t c).pend = (cr s c).pend.eraseIdx n ∧ (cr t c).regs = ((cr s c).setS d ⟨q.val.extractLsb' 0 64, true⟩).regs) := by
  obtain ⟨hland, -⟩ := resultsLandAndPostsAct
  obtain ⟨hcalc, -⟩ := hland s c n q hq hdue hf hd
  exact acts_core (effect := fun k => k.pend = (cr s c).pend.eraseIdx n ∧ k.regs = ((cr s c).setS d ⟨q.val.extractLsb' 0 64, true⟩).regs)
    (hcalc d hkind hdst) rfl (setS_of_pend (cr s c) _ d _)
variable (hf : s.fatal = false) (hd : s.dead = false)
include hf hd
theorem acts_deferredPageTrap {f : TrapInfo} {fs : List TrapInfo} (hfail : (cr s c).failed = f :: fs) (hrun : (cr s c).running = true) (hact : s.iss.act = false)
    (htrap : (cr s c).pendTrap = none) (hwait : (cr s c).wait = .none) (hh : (cr s c).h = false) (hentry : (cr s c).trapEntry.isSome = true)
    (hready : trapReady (cr s c) = true) (hres : (cr s c).resume = false) (hfol : follows (cr s c) = none) :
    Acts s (.deferredPageTrap c) (fun t => Entered s t c f (cr s c).pc 0 (leftAt (cr s c))) := by
  obtain ⟨-, hevents⟩ := resultsLandAndPostsAct
  obtain ⟨-, -, -, htraps, -⟩ := hevents s c hf hd
  obtain ⟨-, henter⟩ := htraps f fs hfail hrun hact htrap hwait
  obtain ⟨t, ht, hin, -⟩ := henter hh hentry hready hres hfol
  exact ⟨t, ht, hin⟩
theorem acts_pageRequestPost {v : VfId} {r : PageReq} (hlev : r.level < 4) (hr : (vf s v).reqs.find? (fun r => !r.posted) = some r)
    (hcount : (vf s v).reqs.countP (fun r => r.posted) < 4096)
    (hroom : ((vf s v).prqprod - (vf s v).prqcons).toNat < 2 ^ ((vf s v).prqbase.toNat % 16 + 4)) :
    Acts s (.pageRequestPost v) (fun t => t.events = s.events ++ [.prq v] ∧ (vf t v).prqprod = (vf s v).prqprod + 1) := by
  obtain ⟨-, hevents⟩ := resultsLandAndPostsAct
  obtain ⟨-, -, -, -, -, hpost⟩ := hevents s 0 hf hd
  obtain ⟨t, -, ht, hev, hprod, -⟩ := hpost v r hlev hr hcount hroom
  exact ⟨t, ht, hev, hprod⟩
theorem acts_rillColumnCommand {n : Nat} {o : Post} {fmt : Tag} {op : BitVec 3} {x : W64} {l : Lane} {loc : Nat} {s1 : State}
    (ho : (cr s c).posts[n]? = some o) (hkind : o.kind = .radd fmt op x) (hl : o.lanes = [l]) (hst : l.st = .ready loc)
    (hearly : earlierHit (cr s c) o.seq [l] = false) (hs1 : s1 = flushOwn s c o.seq loc l.len) (hbad : badColumn s1 loc l.len = none) :
    Acts s (.rillColumnCommand c n) (fun t => (cr t c).posts = (cr s c).posts.eraseIdx n ∧ t.mem.rdN loc (tagWidth fmt.toNat / 8) =
      (rillElem fmt.toNat op.toNat (s1.mem.rdN loc (tagWidth fmt.toNat / 8)) (x.toNat % 2 ^ (8 * (tagWidth fmt.toNat / 8)))).code %
        256 ^ (tagWidth fmt.toNat / 8)) := by
  obtain ⟨-, hevents⟩ := resultsLandAndPostsAct
  obtain ⟨hradd, -⟩ := hevents s c hf hd
  obtain ⟨t, ht, hmem, -, -, hposts, -⟩ := hradd n o fmt op x l loc s1 ho hkind hl hst hearly hs1 hbad
  exact ⟨t, ht, hposts, hmem⟩
theorem acts_samplePerformed {n : Nat} {o : Post} {region mem : Nat} {x : BitVec 4096} {l : Lane} {loc : Nat} (ho : (cr s c).posts[n]? = some o)
    (hkind : o.kind = .psmp false region mem x) (hl : o.lanes = [l]) (hst : l.st = .ready loc) (hearly : earlierHit (cr s c) o.seq [l] = false)
    (hreg : regionOf s region = none) : Acts s (.samplePerformed c n) (fun t => (cr t c).posts = (cr s c).posts.eraseIdx n) := by
  obtain ⟨-, hevents⟩ := resultsLandAndPostsAct
  obtain ⟨-, -, hreleased, -⟩ := hevents s c hf hd
  obtain ⟨t, ht, heq, -⟩ := hreleased n o region mem x l loc ho hkind hl hst hearly hreg
  exact ⟨t, ht, congrArg Core.posts (cr_of_set (congrArg State.cores heq))⟩
theorem acts_linkTimeout {a : BitVec 3} {ids : List Nat} {b : Wait} (hwait : (cr s c).wait = .phase a ids b) (hrun : (cr s c).running = true)
    (hack : acked s ids = false) (hact : s.iss.act = false) (hnot : ∀ x ∈ (cr s c).failed, x.cause ≠ cLinkTimeout)
    (hlate : (cr s c).phaseAt + linkAck s ((partOf s c).getD 0) ≤ s.us) (hh : (cr s c).h = true) :
    Acts s (.linkTimeout c) (fun t => (cr t c).failed = (cr s c).failed ++ [⟨cLinkTimeout, 0, none, 0, none, none⟩]) := by
  obtain ⟨-, hevents⟩ := resultsLandAndPostsAct
  obtain ⟨-, -, -, -, htimeout, -⟩ := hevents s c hf hd
  obtain ⟨-, hover⟩ := htimeout a ids b hwait hrun hack hact hnot
  obtain ⟨hheld, -⟩ := hover hlate
  exact acts_core (effect := fun k => k.failed = (cr s c).failed ++ [⟨cLinkTimeout, 0, none, 0, none, none⟩]) (hheld hh) rfl rfl
end

/-! Engine commands: the parts of O49. -/

section
variable {s : State} {c : CoreId} {id : Nat} {k : Cmd} (hk : cmdOf s c id = some k) (hf : s.fatal = false) (hd : s.dead = false)
include hk hf hd
theorem acts_rangeRetire {n : Nat} {r : Range} (hr : (cr s c).ranges[n]? = some r) (hid : r.id = id) (h0 : r.id ≠ 0) (hwr : r.wr = false)
    (hearly : earlierRange s k = false) (hbad : (badL (cr s c) r.lo (r.hi + 1 - r.lo)).isSome = false) :
    Acts s (.rangeRetire c n) (fun t => (cr t c).ranges = (cr s c).ranges.eraseIdx n) := by
  obtain ⟨-, -, hread, -⟩ := engineCommandsComplete s c id k hk hf hd
  exact acts_core (effect := fun k => k.ranges = (cr s c).ranges.eraseIdx n) (hread n r hr hid h0 hwr hearly hbad) rfl rfl
theorem acts_engineCommandComplete (hdone : k.done = true) (htick : k.op ≠ opTick) (hspawn : k.op ≠ opSpawn) (hpan : k.op ≠ opPancfg)
    (hack : acked s k.acks = true) (hcfl : k.cfl = none) (hout : k.out = []) :
    Acts s (.engineCommandComplete c id)
      (fun t => t = ((upto 64).map (BitVec.ofNat 6)).foldl (fun s q => ckptRest k.part q s) (endCmd k.id (k.fail.map Prod.snd) s)) := by
  obtain ⟨-, -, -, hcomplete, -⟩ := engineCommandsComplete s c id k hk hf hd
  obtain ⟨hsilent, -⟩ := hcomplete hdone htick hspawn hpan hack hcfl
  exact ⟨_, hsilent hout, rfl⟩
theorem acts_recvEntryArrival {e : MsgEntry} (hhead : headRecv s (msgPeer k.block) (msgFlow k.block) = some k) (hop : k.op = opRecv)
    (hearly : earlierRange s k = false) (hin : let q := rxOf s (msgPeer k.block) (msgFlow k.block)
      q.entries = [] ∧ q.early = [] ∧ e.msg = q.nextMsg ∧ e.idx = q.nextIdx ∧ q.dropUpTo ≤ e.msg ∧ e.idx + 1 < min e.total (msgN k.block)) :
    Acts s (.recvEntryArrival (msgPeer k.block) (msgFlow k.block) e) (fun t => (cr t k.core).l.rdN (msgL k.block + 384 * e.idx) 384 = e.data.toNat) := by
  obtain ⟨-, -, -, -, hentry, -⟩ := engineCommandsComplete s c id k hk hf hd
  obtain ⟨t, ht, hdata, -⟩ := hentry e hhead hop hearly hin
  exact ⟨t, ht, hdata⟩
theorem acts_recvTimeout (hop : k.op = opRecv) (hdone : k.done = false) (hon : linkRecv s k.part ≠ 0) (hlate : k.since + linkRecv s k.part < s.us)
    (hhead : (headRecv s (msgPeer k.block) (msgFlow k.block)).map Cmd.id = some k.id) (hearly : earlierRange s k = false)
    (hnone : (rxOf s (msgPeer k.block) (msgFlow k.block)).entries = []) (hbk : msgBk k.block = 0) :
    Acts s (.recvTimeout c id) (fun t =>
      t.cmds = s.cmds.map (fun x => if x.id = k.id then { x with done := true, fail := some (x.prog, cLinkTimeout, false, false, 0) } else x)) := by
  obtain ⟨-, -, -, -, -, hrecv, -⟩ := engineCommandsComplete s c id k hk hf hd
  obtain ⟨t, ht, hcmds, -⟩ := hrecv hop hdone hon hlate hhead hearly hnone hbk
  exact ⟨t, ht, hcmds⟩
theorem acts_sendAckTimeout (hop : k.op = opSend) (hdone : k.done = true) (hack : acked s k.acks = false) (hlate : k.since + linkAck s k.part ≤ s.us) :
    Acts s (.sendAckTimeout c id) (fun t => t = endCmd id ((firstOf k.fail (some (msgN k.block, cLinkTimeout, false, false, 0))).map Prod.snd)
      { s with ackWait := s.ackWait.filter (fun a => !k.acks.contains a.id) }) := by
  obtain ⟨-, -, -, -, -, -, hsend, -⟩ := engineCommandsComplete s c id k hk hf hd
  exact ⟨_, hsend hop hdone hack hlate, rfl⟩
variable {x : CflSt} {p : CflPkt} (hfind : s.cmds.find? (fun x => x.id == id) = some k) (hcfl : isCfl k.op = true) (hdone : k.done = false)
  (hprog : k.prog = 1) (hx : k.cfl = some x) (hfmt : cflFmt k.block ≠ 1) (hchunk : p.chunk < x.size) (hinbox : x.inbox = []) (hstarts : cflStarts k x = [])
include hfind hcfl hdone hprog hx hfmt hchunk hinbox hstarts
theorem acts_cflHop {own : List (BitVec 32)} (hop : k.op = opAr ∨ k.op = opRs) (hfin : p.final = false) (hacc : p.acc ≠ [])
    (hlen : p.acc.length = chunkN k.block x.size p.chunk) (hroom : p.hop + 2 < x.size) (hturn : p.hop + 1 = x.hopOf p.chunk)
    (hnew : x.got p.chunk p.hop = false) (hown : cflOwn s k x p.chunk = .ok own) :
    Acts s (.cflHop c id p) (fun t => ∃ m f q, t.sent = s.sent ++ [.cfl m f q] ∧ q.chunk = p.chunk ∧ q.hop = p.hop + 1) := by
  obtain ⟨-, -, -, -, -, -, -, hflows⟩ := engineCommandsComplete s c id k hk hf hd
  obtain ⟨hhop, -⟩ := hflows x p hfind hcfl hdone hprog hx hfmt hchunk hinbox hstarts
  obtain ⟨t, q, ht, hsent, hq, hnext, -⟩ := hhop own hop hfin hacc hlen hroom hturn hnew hown
  exact ⟨t, ht, _, _, q, hsent, hq, hnext⟩
theorem acts_cflLateReplacement (hfin : p.final = true) (hop : k.op ≠ opRs) (hacc : p.acc ≠ []) (hlen : p.acc.length = chunkN k.block x.size p.chunk)
    (hroom : p.hop < x.size) (hopen : x.isDone p.chunk = false) (hasked : (p.chunk, x.size) ∈ x.asked) (hearly : earlierRange s k = false) :
    Acts s (.cflLateReplacement c id p) (fun t => ∃ m y, cmdOf t c id = some m ∧ m.cfl = some y ∧ y.late = x.late + 1) := by
  obtain ⟨-, -, -, -, -, -, -, hflows⟩ := engineCommandsComplete s c id k hk hf hd
  obtain ⟨-, hlate, -⟩ := hflows x p hfind hcfl hdone hprog hx hfmt hchunk hinbox hstarts
  obtain ⟨t, m, y, ht, hm, hy, hcount, -⟩ := hlate hfin hop hacc hlen hroom hopen hasked hearly
  exact ⟨t, ht, m, y, hm, hy, hcount⟩
end

/-! Bundles: the parts of O51. -/

theorem acts_bundleIssue {s : State} {c : CoreId} {u : BitVec 24} {b : Bundle} {len : Nat} (hf : s.fatal = false) (hd : s.dead = false)
    (hact : s.iss.act = false) (hrun : (cr s c).running = true) (hbad : (cr s c).badCore = false) (htrap : (cr s c).pendTrap = none)
    (hwait : (cr s c).wait = .none) (hmay : mayIssue s c = true) (hpfx : needsPrefix (cr s c) = false) (hpage : asksPage (cr s c) = false)
    (hres : (cr s c).resume = false) (hunit : nextUnitOf (cr s c) = some (u, b, len)) (hcol : collides b = false)
    (hsrc : waitsSource (openIssue c u b len (landDue c s)) = false) (hfull : requestsFull (openIssue c u b len (landDue c s)) = false)
    (htry : tryE 11 (openIssue c u b len (landDue c s)) = .go) :
    Acts s (.bundleIssue c) (fun w => w.iss.act = true ∧ w.iss.core = c ∧ w.iss.unit = u ∧ w.iss.slot = 0) := by
  obtain ⟨hissue, -⟩ := bundlesIssueAndEnd s c hf hd
  obtain ⟨-, -, hopens, -⟩ := hissue hact hrun hbad htrap hwait hmay hpfx hpage hres
  obtain ⟨w, hw, ha, hc, hu, -, hslot, -⟩ := hopens u b len hunit hcol hsrc hfull htry
  exact ⟨w, hw, ha, hc, hu, hslot⟩
theorem acts_repeat {s : State} {c : CoreId} {n : BitVec 8} (hf : s.fatal = false) (hd : s.dead = false) (hact : s.iss.act = false)
    (hpfx : prefixCore s n = some c) (hunit : (nextUnitOf (cr s c)).isSome = true) :
    Acts s (.repeat ⟨n⟩) (fun t => t = { s with cores := s.cores.set c { cr s c with pfx := some n, left := n } }) := by
  obtain ⟨-, -, -, hprefix⟩ := bundlesIssueAndEnd s c hf hd
  exact ⟨_, hprefix n hact hpfx hunit, rfl⟩

/-! Launches, images and reports: the parts of O46. -/

section
variable {s : State} {v : VfId} {p : PartId} (hw : winOpen s = true) (hb : (vf s v).bound = some p)
include hw hb
theorem acts_launch {vec : List (BitVec 32)} {pre : Bool} (hwait : (pt s p).launch = none) (hrun : (pt s p).running = false) (himg : (pt s p).image ≠ none)
    (hdl : (pt s p).dl = none) (hfits : vecFits (coresOf s p).length vec = true)
    (hroots : rootsOk s v p ((coresOf s p).head?.getD 0) ((upto (coresOf s p).length).filter (vecRun vec)) = .ok) :
    Acts s (if pre then .launchPreamble v vec else .launch v vec) (fun t => t.ack = ⟨true, 0⟩ ∧ (pt t p).launchAt = s.now) := by
  obtain ⟨-, -, -, -, hlaunch, -⟩ := imagesLaunchesAndAttestation s v p hw hb
  obtain ⟨t, ht, hack, hat, -⟩ := hlaunch vec hwait hrun himg hdl hfits hroots pre
  exact ⟨t, ht, hack, hat⟩
theorem acts_imageLoad {img : Image} {d : List Bundle} {code : List (BitVec 16)} (hrun : (pt s p).running = false)
    (hsig : Config.sigOk img.key (Config.imageBytes img) img.sig = true) (hkey : (pt s p).keydig = 0 ∨ Config.sha256 img.key = (pt s p).keydig)
    (hdict : img.dict.length ≤ 8192) (hcode : img.code.length ≤ 2 ^ 24) (hdata : dataFits img = true) (hsafe : img.safemax ≤ (vf s v).safemax)
    (hpaths : pathsFit img = true) (hreloc : relocAll s p img.relocs (img.dict, img.code) = some (d, code)) :
    Acts s (.imageLoad v img) (fun t => t.ack = ⟨true, 0⟩ ∧ (pt t p).image = some (Config.sha256 (Config.imageBytes img))) := by
  obtain ⟨hload, -⟩ := imagesLaunchesAndAttestation s v p hw hb
  obtain ⟨t, ht, hack, hpt, -⟩ := hload img d code hrun hsig hkey hdict hcode hdata hsafe hpaths hreloc
  exact ⟨t, ht, hack, congrArg Part.image hpt⟩
theorem acts_attest {nonce : BitVec 256} {a : GAddr} {l : List (Nat × Nat)} (hwait : (pt s p).attest = none) (ha : a.toNat % 64 = 0)
    (hmap : vaMap s p true a.toNat ((attestBody s v p nonce).length + 7856) = .ok l) : Acts s (.attest v nonce a) (fun t => t.ack = ⟨true, 0⟩) := by
  obtain ⟨-, -, -, -, -, -, hreport⟩ := imagesLaunchesAndAttestation s v p hw hb
  obtain ⟨t, ws, ht, -, heq⟩ := hreport nonce a _ l hwait ha rfl hmap
  exact ⟨t, ht, congrArg State.ack heq⟩

/-! What else a VF's window does. -/

theorem acts_packet {a : GAddr} {again : Bool} {sp : Spawn} {r : List Spawn} {x : Nat} {y : Nat × Bool} (hrun : (pt s p).running = true)
    (ha : a.toNat % 64 = 0) (htorn : packetTorn s p a.toNat = false) (hsp : (pt s p).spawns = sp :: r) (hwait : sp.wait = some (some x, y))
    (hrec : (recWord s p a.toNat 0x18).isSome = true) :
    Acts s (if again then .restore v a else .hostSpawn v a)
      (fun t => t.ack = ⟨true, 0⟩ ∧ (pt t p).spawns = (pt s p).spawns ++ [⟨a.toNat, none, again, false, none⟩]) := by
  refine ⟨_, exec_spawns again (win_part s v p hw hb) hrun ha htorn hrec, ?_⟩
  have hq : (pt (ackOk s 0) p).spawns = sp :: r := hsp
  rw [spawnArrive_waits hq hwait]
  exact ⟨rfl, congrArg Part.spawns (pt_modPt_same (ackOk s 0) p _)⟩
theorem acts_queueTeardown {q : BitVec 6} (hq : (queueOf s p q).valid = false) : Acts s (.queueTeardown v q) (fun t => t.ack = ⟨true, 0⟩) := by
  refine ⟨ackOk s 0, ?_, rfl⟩
  show execQueueTeardown v q s = _
  simp [execQueueTeardown, win_part s v p hw hb, hq]
end

/-! Delta's own events, the Sluice's, and the machine's. -/

section
variable {s : State} (hf : s.fatal = false) (hd : s.dead = false)
include hf hd
theorem acts_mirrorWriteArrival {m : BitVec 16} {dpa : BitVec 46} {data : List Byte}
    (h : ∀ b, dpa.toNat ≤ b → b < dpa.toNat + data.length → b / 32 ∉ s.badG) :
    Acts s (.mirrorWriteArrival (.write m dpa data)) (fun t => t.mem = s.mem.wrPairs (placeL dpa.toNat data)) := by
  refine ⟨mirrorArrive (.write m dpa data) s, ?_, mirrorArrive_write h⟩
  show execMirrorWriteArrival _ s = _
  simp [execMirrorWriteArrival, hf, hd]
theorem acts_sluiceEvaluation {p : PartId} {d : Deadline} (hdl : (pt s p).dl = some d) (hopen : d.cutDone = false) (hcut : s.us < d.cut)
    (hat : d.evalAt < s.us) (hheld : heldQueues s p = []) :
    Acts s (.sluiceEvaluation p) (fun t => ∃ e, (pt t p).dl = some e ∧ e.evalAt = s.us) := by
  obtain ⟨e, heval, he⟩ := evalAll_idle (held := false) hdl hheld
  refine ⟨evalAll p false s, ?_, e, ?_, he⟩
  · have hpast : pastCut s d = false := by simp [pastCut, hopen, hcut]
    show execSluiceEvaluation p s = _
    simp [execSluiceEvaluation, hdl, hpast, hf, hd, Nat.not_le.2 hat]
  · rw [heval, pt_modPt_same]
theorem acts_deadlineCut {p : PartId} {d : Deadline} (hdl : (pt s p).dl = some d) (hopen : d.cutDone = false) (hcut : d.cut ≤ s.us) :
    Acts s (.deadlineCut p) (fun t => t = cutAll p s) := by
  refine ⟨cutAll p s, ?_, rfl⟩
  show execDeadlineCut p s = _
  simp [execDeadlineCut, hdl, hopen, hf, hd, Nat.not_lt.2 hcut]
theorem acts_invalComplete {i : Inval} {r : List Inval} (hi : s.invals = i :: r) (hidle : inFlight s i.vf = false) :
    Acts s .invalComplete (fun t => t.events = s.events ++ [.invalDone i.vf] ∧ t.invals = r) := by
  refine ⟨raise { s with invals := r, tlb := s.tlb.filter (fun e => !invalDrops i e) } (.invalDone i.vf), ?_, rfl, rfl⟩
  show execInvalComplete s = _
  simp [execInvalComplete, hi, hidle, hf, hd]
theorem acts_fatalError {cause : BitVec 8} (h0 : cause ≠ 0) (h3 : cause.toNat ≤ 3) :
    Acts s (.fatalError cause) (fun t => t.fatal = true ∧ t.events = s.events ++ [.fatal]) := by
  obtain ⟨t, -, ht, hfatal, hev, -⟩ := fatalError_dumps hf hd h0 h3
  exact ⟨t, ht, hfatal, hev⟩
theorem acts_taskPickup {p : PartId} {c : CoreId} {q : BitVec 6} {t : Task} {argp : Nat} (hpart : partOf s c = some p) (hrun : (pt s p).running = true)
    (hidle : (idleCores s p).head? = some c) (hnext : nextChoice s p = some (q, t)) (hgang : t.gang = none) (hread : readTask s p t.rec_ = .start argp) :
    Acts s (.taskPickup c) (fun v => ∃ u, v = askYield p (recPut p t.rec_ 0x18 24 4 2 u) ∧ (cr u c).running = true ∧ (cr u c).rec_ = t.rec_ ∧
      rdS (cr u c).regs 1 = w64 argp) := by
  obtain ⟨w, hpick⟩ := pickup_starts (c := c) hnext hgang hread
  obtain ⟨u, hstart, hon, hrec, harg⟩ := startTask_starts c p t argp w
  refine ⟨pickup c p s, ?_, u, by rw [hpick, hstart], hon, hrec, harg⟩
  show execTaskPickup c s = _
  simp [execTaskPickup, hpart, hf, hd, hrun, hidle]
theorem acts_fwload {f : Firmware} (hst : s.boot.st = 3) (hv : verifyFw s f = 0) : Acts s (.fwload f) (fun t => t.ack = ⟨true, 0⟩ ∧ t.boot.st = 1) := by
  obtain ⟨t, ht, -, hboots, -⟩ := fwload_boots f hst hf hd
  obtain ⟨hack, hboot, -⟩ := hboots hv
  exact ⟨t, ht, hack, hboot⟩
omit hf in
theorem acts_bootRomVerify (hst : s.boot.st = 0) (hv : verifyFw s romImage = 0) : Acts s .bootRomVerify (fun t => t.boot.st = 1) := by
  obtain ⟨t, ht, -, hboots, -⟩ := bootRomVerify_boots hst hd
  obtain ⟨hboot, -⟩ := hboots hv
  exact ⟨t, ht, hboot⟩
omit hf in
theorem acts_firmwareInit (hst : s.boot.st = 1) : Acts s .firmwareInit (fun t => t.boot.st = 2) := by
  obtain ⟨t, ht, hboot, -⟩ := firmwareInit_readies hst hd
  exact ⟨t, ht, congrArg Boot.st hboot⟩
end

end Sys2Proof.Machine
end

section
open Sys2Proof Sys2Proof.Machine

/-- Settles O60, event by event: first those of a machine that runs, then those of a window that is open. -/
theorem eventsActWhenDue : Obligations.EventsActWhenDue := by
  refine ⟨fun s hf hd => ?_, fun s hw => ?_⟩
  · refine ⟨fun c n q d => acts_resultLands hf hd, fun c f fs => acts_deferredPageTrap hf hd, fun v r => acts_pageRequestPost hf hd,
      fun c n r k hr hk => acts_rangeRetire hk hf hd hr rfl, fun c id k hk => acts_engineCommandComplete hk hf hd,
      fun c n o fmt op x l loc s1 => acts_rillColumnCommand hf hd, fun c n o region mem x l loc => acts_samplePerformed hf hd,
      fun r ch o hr hmir hticks hnew hch hclean ho hoch hopen => ⟨_, rfl, closeArrive_passes hf hd hr hmir hticks hnew hch hclean ho hoch hopen⟩,
      fun c id k x p hk hfind hcfl hdone hprog hx hfmt hchunk hinbox hstarts => ⟨
        fun own => acts_cflHop hk hf hd hfind hcfl hdone hprog hx hfmt hchunk hinbox hstarts,
        acts_cflLateReplacement hk hf hd hfind hcfl hdone hprog hx hfmt hchunk hinbox hstarts⟩,
      fun c id k e hk hhead hop hearly h1 h2 h3 h4 h5 h6 => acts_recvEntryArrival hk hf hd hhead hop hearly ⟨h1, h2, h3, h4, h5, h6⟩,
      fun c id k hk => ⟨acts_recvTimeout hk hf hd, acts_sendAckTimeout hk hf hd⟩,
      fun c a ids b => acts_linkTimeout hf hd, fun m dpa data => acts_mirrorWriteArrival hf hd,
      fun f dpa data hlane hearly h => ⟨_, rfl, flitArrive_write hf hd hlane hearly h⟩,
      fun p sp r hsp hwait hcmd hrun hr => ⟨_, rfl, drainSpawns_dropped (by rw [hsp, hr]) hwait hcmd hrun⟩,
      fun p => ⟨_, rfl, quantumStep_cores p s⟩,
      fun p d hdl hopen => ⟨acts_sluiceEvaluation hf hd hdl hopen, acts_deadlineCut hf hd hdl hopen⟩,
      fun p d hdl hmay _ => vacancy_vacates hf hd hdl hmay, fun i r => acts_invalComplete hf hd, fun cause => acts_fatalError hf hd,
      fun p c q t argp => acts_taskPickup hf hd,
      fun c hact hrun hbad htrap hwait hmay hpfx hpage hres u b len => acts_bundleIssue hf hd hact hrun hbad htrap hwait hmay hpfx hpage hres,
      fun c n => acts_repeat hf hd, ⟨_, rfl, rfl, resetState_rd s⟩, acts_bootRomVerify hd, acts_firmwareInit hd, fun f => acts_fwload hf hd⟩
  · refine ⟨fun v p hb => ⟨fun vec pre => acts_launch hw hb, fun img d code => acts_imageLoad hw hb, fun nonce a l => acts_attest hw hb,
        fun a again sp r x y => acts_packet hw hb, fun q => acts_queueTeardown hw hb, fun x r => prqreply_fails hw hb⟩,
      fun p v mask key => pcreate_creates hw, fun p => pdestroy_destroys hw,
      fun kind u hv hr hm => ⟨retire_retires hw hv hr hm, unitRetirement_retires hw hv hr hm⟩,
      fun k _ hdl _ => deadline_stands hdl,
      fun kind u w hv h24 h3 hk hu hr hmode => ⟨record_posts hw hv h24 h3 hk hu hr hmode,
        fun hc hwin => ⟨_, rfl, windowEnds_clears hw hc hwin hmode⟩⟩⟩
end

section
/-! PROOFS. The round trip of every instruction: the word of a well-formed instruction decodes to it (R38 to R52). -/
namespace Sys2Proof.Laws

/-- Every instruction keeps its round trip; the events, which have no word, stand last. -/
theorem roundTrip : ∀ i : Instr, RoundTrip.Statement i
  | .add o => RoundTrip.add o
  | .sub o => RoundTrip.sub o
  | .mul o => RoundTrip.mul o
  | .mulh o => RoundTrip.mulh o
  | .mulhu o => RoundTrip.mulhu o
  | .div o => RoundTrip.div o
  | .divu o => RoundTrip.divu o
  | .rem o => RoundTrip.rem o
  | .remu o => RoundTrip.remu o
  | .and o => RoundTrip.and o
  | .or o => RoundTrip.or o
  | .xor o => RoundTrip.xor o
  | .andn o => RoundTrip.andn o
  | .shl o => RoundTrip.shl o
  | .shr o => RoundTrip.shr o
  | .sar o => RoundTrip.sar o
  | .rol o => RoundTrip.rol o
  | .min o => RoundTrip.min o
  | .max o => RoundTrip.max o
  | .minu o => RoundTrip.minu o
  | .maxu o => RoundTrip.maxu o
  | .clmull o => RoundTrip.clmull o
  | .clmulh o => RoundTrip.clmulh o
  | .clz o => RoundTrip.clz o
  | .ctz o => RoundTrip.ctz o
  | .popc o => RoundTrip.popc o
  | .mov o => RoundTrip.mov o
  | .sextI8 o => RoundTrip.sextI8 o
  | .sextI16 o => RoundTrip.sextI16 o
  | .sextI32 o => RoundTrip.sextI32 o
  | .zextI8 o => RoundTrip.zextI8 o
  | .zextI16 o => RoundTrip.zextI16 o
  | .zextI32 o => RoundTrip.zextI32 o
  | .sel o => RoundTrip.sel o
  | .addi o => RoundTrip.addi o
  | .lea o => RoundTrip.lea o
  | .li o => RoundTrip.li o
  | .lih o => RoundTrip.lih o
  | .cmp o => RoundTrip.cmp o
  | .cmpi o => RoundTrip.cmpi o
  | .pand o => RoundTrip.pand o
  | .por o => RoundTrip.por o
  | .pxor o => RoundTrip.pxor o
  | .pandn o => RoundTrip.pandn o
  | .prepLabel o => RoundTrip.prepLabel o
  | .prepReg o => RoundTrip.prepReg o
  | .getc o => RoundTrip.getc o
  | .setc o => RoundTrip.setc o
  | .ldl o => RoundTrip.ldl o
  | .stl o => RoundTrip.stl o
  | .vldl o => RoundTrip.vldl o
  | .vldlStream o => RoundTrip.vldlStream o
  | .vstl o => RoundTrip.vstl o
  | .vstlStream o => RoundTrip.vstlStream o
  | .bind o => RoundTrip.bind o
  | .unbind o => RoundTrip.unbind o
  | .qskip o => RoundTrip.qskip o
  | .qstat o => RoundTrip.qstat o
  | .ldg o => RoundTrip.ldg o
  | .stg o => RoundTrip.stg o
  | .vldg o => RoundTrip.vldg o
  | .vstg o => RoundTrip.vstg o
  | .vgath o => RoundTrip.vgath o
  | .vscat o => RoundTrip.vscat o
  | .amo o => RoundTrip.amo o
  | .amoCas o => RoundTrip.amoCas o
  | .radd o => RoundTrip.radd o
  | .rowadd o => RoundTrip.rowadd o
  | .rowld o => RoundTrip.rowld o
  | .psmpScalar o => RoundTrip.psmpScalar o
  | .psmpVector o => RoundTrip.psmpVector o
  | .ptapScalar o => RoundTrip.ptapScalar o
  | .ptapVector o => RoundTrip.ptapVector o
  | .ptaps o => RoundTrip.ptaps o
  | .rtapScalar o => RoundTrip.rtapScalar o
  | .rtapVector o => RoundTrip.rtapVector o
  | .phase o => RoundTrip.phase o
  | .pref o => RoundTrip.pref o
  | .vadd o => RoundTrip.vadd o
  | .vsub o => RoundTrip.vsub o
  | .vmul o => RoundTrip.vmul o
  | .vmulh o => RoundTrip.vmulh o
  | .vmad o => RoundTrip.vmad o
  | .vand o => RoundTrip.vand o
  | .vor o => RoundTrip.vor o
  | .vxor o => RoundTrip.vxor o
  | .vshl o => RoundTrip.vshl o
  | .vshr o => RoundTrip.vshr o
  | .vsar o => RoundTrip.vsar o
  | .vmin o => RoundTrip.vmin o
  | .vmax o => RoundTrip.vmax o
  | .vabs o => RoundTrip.vabs o
  | .vwacc o => RoundTrip.vwacc o
  | .vclmulLo o => RoundTrip.vclmulLo o
  | .vclmulHi o => RoundTrip.vclmulHi o
  | .vpopc o => RoundTrip.vpopc o
  | .vfadd o => RoundTrip.vfadd o
  | .vfsub o => RoundTrip.vfsub o
  | .vfmul o => RoundTrip.vfmul o
  | .vfma o => RoundTrip.vfma o
  | .vfmin o => RoundTrip.vfmin o
  | .vfmax o => RoundTrip.vfmax o
  | .vfabs o => RoundTrip.vfabs o
  | .vfneg o => RoundTrip.vfneg o
  | .vfcmp o => RoundTrip.vfcmp o
  | .vmcmp o => RoundTrip.vmcmp o
  | .mand o => RoundTrip.mand o
  | .mor o => RoundTrip.mor o
  | .mnot o => RoundTrip.mnot o
  | .vexp2 o => RoundTrip.vexp2 o
  | .vlog2 o => RoundTrip.vlog2 o
  | .vrcp o => RoundTrip.vrcp o
  | .vrsq o => RoundTrip.vrsq o
  | .vsqrt o => RoundTrip.vsqrt o
  | .vcvt o => RoundTrip.vcvt o
  | .vscale o => RoundTrip.vscale o
  | .vpack o => RoundTrip.vpack o
  | .vunpack o => RoundTrip.vunpack o
  | .vtag o => RoundTrip.vtag o
  | .vred o => RoundTrip.vred o
  | .vscan o => RoundTrip.vscan o
  | .vsplat o => RoundTrip.vsplat o
  | .vmovs o => RoundTrip.vmovs o
  | .vsel o => RoundTrip.vsel o
  | .vlane o => RoundTrip.vlane o
  | .vchkf o => RoundTrip.vchkf o
  | .lsupd => RoundTrip.lsupd
  | .xperm o => RoundTrip.xperm o
  | .xrot o => RoundTrip.xrot o
  | .xbcast o => RoundTrip.xbcast o
  | .xshuf o => RoundTrip.xshuf o
  | .xrev o => RoundTrip.xrev o
  | .xcmpr o => RoundTrip.xcmpr o
  | .wld o => RoundTrip.wld o
  | .beat o => RoundTrip.beat o
  | .drain o => RoundTrip.drain o
  | .zclr o => RoundTrip.zclr o
  | .zrot o => RoundTrip.zrot o
  | .zspill o => RoundTrip.zspill o
  | .zfill o => RoundTrip.zfill o
  | .cpy o => RoundTrip.cpy o
  | .cpyw o => RoundTrip.cpyw o
  | .tqpush o => RoundTrip.tqpush o
  | .tqpop o => RoundTrip.tqpop o
  | .rkgath o => RoundTrip.rkgath o
  | .rkseg o => RoundTrip.rkseg o
  | .rill o => RoundTrip.rill o
  | .cflAr o => RoundTrip.cflAr o
  | .cflRs o => RoundTrip.cflRs o
  | .cflAg o => RoundTrip.cflAg o
  | .cflBc o => RoundTrip.cflBc o
  | .send o => RoundTrip.send o
  | .recv o => RoundTrip.recv o
  | .pancfg o => RoundTrip.pancfg o
  | .tick o => RoundTrip.tick o
  | .foot o => RoundTrip.foot o
  | .jwait o => RoundTrip.jwait o
  | .jpoll o => RoundTrip.jpoll o
  | .spawn o => RoundTrip.spawn o
  | .join o => RoundTrip.join o
  | .leave o => RoundTrip.leave o
  | .bar o => RoundTrip.bar o
  | .tree o => RoundTrip.tree o
  | .loop o => RoundTrip.loop o
  | .loopr o => RoundTrip.loopr o
  | .call o => RoundTrip.call o
  | .ret o => RoundTrip.ret o
  | .suspend o => RoundTrip.suspend o
  | .halt => RoundTrip.halt
  | .trap o => RoundTrip.trap o
  | .rte => RoundTrip.rte
  | .repeat o => RoundTrip.repeat o
  | .bundleIssue _ => RoundTrip.bundleIssue _
  | .resultLands _ _ => RoundTrip.resultLands _ _
  | .deferredPageTrap _ => RoundTrip.deferredPageTrap _
  | .pageRequestPost _ => RoundTrip.pageRequestPost _
  | .rangeRetire _ _ => RoundTrip.rangeRetire _ _
  | .engineCommandComplete _ _ => RoundTrip.engineCommandComplete _ _
  | .rillColumnCommand _ _ => RoundTrip.rillColumnCommand _ _
  | .samplePerformed _ _ => RoundTrip.samplePerformed _ _
  | .tickCloseArrival _ _ => RoundTrip.tickCloseArrival _ _
  | .stackRefreshDue _ _ => RoundTrip.stackRefreshDue _ _
  | .weightDieRefresh => RoundTrip.weightDieRefresh
  | .cflHop _ _ _ => RoundTrip.cflHop _ _ _
  | .cflLateReplacement _ _ _ => RoundTrip.cflLateReplacement _ _ _
  | .recvEntryArrival _ _ _ => RoundTrip.recvEntryArrival _ _ _
  | .recvTimeout _ _ => RoundTrip.recvTimeout _ _
  | .sendAckTimeout _ _ => RoundTrip.sendAckTimeout _ _
  | .linkTimeout _ => RoundTrip.linkTimeout _
  | .mirrorWriteArrival _ => RoundTrip.mirrorWriteArrival _
  | .taskPickup _ => RoundTrip.taskPickup _
  | .heldSpawnEntry _ => RoundTrip.heldSpawnEntry _
  | .quantumExpiry _ => RoundTrip.quantumExpiry _
  | .launch _ _ => RoundTrip.launch _ _
  | .launchPreamble _ _ => RoundTrip.launchPreamble _ _
  | .imageLoad _ _ => RoundTrip.imageLoad _ _
  | .attest _ _ _ => RoundTrip.attest _ _ _
  | .hostSpawn _ _ => RoundTrip.hostSpawn _ _
  | .restore _ _ => RoundTrip.restore _ _
  | .queueTeardown _ _ => RoundTrip.queueTeardown _ _
  | .prqreply _ _ => RoundTrip.prqreply _ _
  | .pcreate _ _ _ _ => RoundTrip.pcreate _ _ _ _
  | .pdestroy _ => RoundTrip.pdestroy _
  | .s2root _ _ => RoundTrip.s2root _ _
  | .ctxallot _ _ => RoundTrip.ctxallot _ _
  | .portw _ _ => RoundTrip.portw _ _
  | .inval _ _ _ _ => RoundTrip.inval _ _ _ _
  | .invalComplete => RoundTrip.invalComplete
  | .deadline _ => RoundTrip.deadline _
  | .sluiceEvaluation _ => RoundTrip.sluiceEvaluation _
  | .deadlineCut _ => RoundTrip.deadlineCut _
  | .vacancy _ => RoundTrip.vacancy _
  | .sluiceRun _ => RoundTrip.sluiceRun _
  | .sluiceCheckpoint _ => RoundTrip.sluiceCheckpoint _
  | .sluiceDiscard _ => RoundTrip.sluiceDiscard _
  | .sluiceQuery _ => RoundTrip.sluiceQuery _
  | .errorWindowExpiry _ _ => RoundTrip.errorWindowExpiry _ _
  | .unitRetirement _ _ => RoundTrip.unitRetirement _ _
  | .retire _ _ => RoundTrip.retire _ _
  | .record _ => RoundTrip.record _
  | .mircfg _ _ _ _ _ => RoundTrip.mircfg _ _ _ _ _
  | .moduleLost _ => RoundTrip.moduleLost _
  | .promote _ _ => RoundTrip.promote _ _
  | .fatalError _ => RoundTrip.fatalError _
  | .dumpread _ => RoundTrip.dumpread _
  | .moduleReset => RoundTrip.moduleReset
  | .bootRomVerify => RoundTrip.bootRomVerify
  | .firmwareInit => RoundTrip.firmwareInit
  | .fwload _ => RoundTrip.fwload _
  | .powerCap _ _ => RoundTrip.powerCap _ _
  | .thermtrip => RoundTrip.thermtrip
  | .registerWrite _ _ _ => RoundTrip.registerWrite _ _ _
  | .flowFlitArrival _ _ _ => RoundTrip.flowFlitArrival _ _ _

theorem decodeClass_of_encode {i : Instr} {k : SlotClass} {w : Nat} (hwf : i.wf = true) (hk : slotOf i = some k) (he : encode i = some w) :
    decodeClass k w = some i := by
  have h := roundTrip i hwf
  rw [hk, he] at h
  exact h

end Sys2Proof.Laws
end

section
open Sys2Proof Sys2Proof.Laws

/-- Settles O53, by the round trip of each instruction. -/
theorem encodedInstructionsDecode : Obligations.EncodedInstructionsDecode := fun _ _ _ => decodeClass_of_encode

end

section
/-! PROOFS. A word that decodes is the word that the encoder lays out from the fields read in it, because the fields and the fixed
bits leave out no bit of the word (R39 to R52). -/
namespace Sys2Proof.Laws

/-! The bits of a word from a place up, laid out piece by piece from the highest. -/

/-- e is the word w with its bits below lo cleared. -/
def HoldsFrom (w lo e : Nat) : Prop := e = w / 2 ^ lo * 2 ^ lo

section
variable {w lo n c e : Nat}

theorem div_mul_pow_split (w lo n : Nat) :
    w / 2 ^ (lo + n) * 2 ^ (lo + n) + w / 2 ^ lo % 2 ^ n * 2 ^ lo = w / 2 ^ lo * 2 ^ lo := by
  rw [Nat.pow_add, ← Nat.div_div_eq_div_mul, Nat.mul_comm (2 ^ lo), ← Nat.mul_assoc, ← Nat.add_mul, Nat.mul_comm _ (2 ^ n), Nat.div_add_mod]

/-- Bits that are checked to be a constant are laid out by the constant. -/
theorem HoldsFrom.const (hc : (w / 2 ^ lo % 2 ^ n == c) = true) (he : HoldsFrom w (lo + n) e) : HoldsFrom w lo (e + c * 2 ^ lo) := by
  rw [HoldsFrom, he, ← div_mul_pow_split w lo n, beq_iff_eq.1 hc]
/-- Bits that are checked to be zero need no piece. -/
theorem HoldsFrom.zeros (hz : (w / 2 ^ lo % 2 ^ n == 0) = true) (he : HoldsFrom w (lo + n) e) : HoldsFrom w lo e := by
  have h := he.const hz
  rwa [Nat.zero_mul] at h
/-- The opcode holds the highest bits. -/
theorem HoldsFrom.top (hc : (w / 2 ^ lo % 2 ^ n == c) = true) (hw : w < 2 ^ (lo + n)) : HoldsFrom w lo (c * 2 ^ lo) := by
  have hnone : HoldsFrom w (lo + n) 0 := by rw [HoldsFrom, Nat.div_eq_of_lt hw, Nat.zero_mul]
  have h := hnone.const hc
  rwa [Nat.zero_add] at h
theorem HoldsFrom.field (he : HoldsFrom w (lo + n) e) : HoldsFrom w lo (e + put lo (fld w lo n)) := by
  rw [put, fld, BitVec.toNat_ofNat]
  exact he.const (beq_self_eq_true _)
theorem HoldsFrom.flag (he : HoldsFrom w (lo + 1) e) : HoldsFrom w lo (e + putB lo (bitAt w lo)) := by
  have hbit : (bitAt w lo).toNat = w / 2 ^ lo % 2 ^ 1 := by
    rcases Nat.mod_two_eq_zero_or_one (w / 2 ^ lo) with h | h <;> simp [bitAt, h]
  rw [putB, hbit]
  exact he.const (beq_self_eq_true _)
/-- Laid out down to bit 0, the pieces are the word. -/
theorem HoldsFrom.word (he : HoldsFrom w 0 e) : e = w := by
  rwa [HoldsFrom, Nat.pow_zero, Nat.div_one, Nat.mul_one] at he
theorem lt_of_high_zeros (hz : (w / 2 ^ lo % 2 ^ n == 0) = true) (hw : w < 2 ^ (lo + n)) : w < 2 ^ lo := by
  have h := div_mul_pow_split w lo n
  rw [Nat.div_eq_of_lt hw, beq_iff_eq.1 hz] at h
  simpa [Nat.div_eq_zero_iff] using h
end

/-! The readers of the decoder: fixed bits checked and fields read. -/

/-- What is read from the word, if anything, is well formed, of the class, and has the word as its encoding. -/
def Reads (k : SlotClass) (w : Nat) (r : Option Instr) : Prop :=
  ∀ i, r = some i → i.wf = true ∧ slotOf i = some k ∧ encode i = some w

theorem none_reads (k : SlotClass) (w : Nat) : Reads k w none := fun i h => absurd h.symm (Option.some_ne_none i)
theorem keep_reads {k : SlotClass} {w e : Nat} {fixed : Bool} {i : Instr} (hk : slotOf i = some k) (he : encode i = some e)
    (hw : fixed = true → e = w) : Reads k w (keep fixed i) := by
  intro j hj
  obtain ⟨⟨hfixed, hwf⟩, rfl⟩ : (fixed = true ∧ i.wf = true) ∧ i = j := by simpa [keep] using hj
  exact ⟨hwf, hk, he.trans (congrArg some (hw hfixed))⟩
/-- Each check of a conjunction of fixed bits, as a hypothesis of its own. -/
theorem both {a b : Bool} {p : Prop} (h : a = true → b = true → p) (hab : (a && b) = true) : p :=
  (Bool.and_eq_true_iff.1 hab).elim h

/-! The maps of the slots. Each line names the pieces of a layout from the lowest bits up to the opcode, so that none is left out:
op, fn and major are the checks of the constants, z those of the reserved zeros. -/

section
open HoldsFrom
variable {w : Nat}

theorem decA_reads (hw : w < 2 ^ 32) : Reads .a w (decA w) := by
  unfold decA
  split
  -- The ALU group, by its function.
  case h_1 =>
    split
    -- ADD
    case h_1 =>
      exact keep_reads rfl rfl <| both fun op z => word <| zeros z <| flag <| field <| flag <| field <| field <| top op hw
    -- SUB, MUL, MULH, MULHU, DIV, DIVU, REM, REMU, AND, OR, XOR, ANDN, SHL, SHR, SAR, ROL, MIN, MAX, MINU, MAXU, CLMULL, CLMULH
    case h_2 | h_3 | h_4 | h_5 | h_6 | h_7 | h_8 | h_9 | h_10 | h_11 | h_12 | h_13 | h_14 | h_15 | h_16 | h_17 | h_18 | h_19 | h_20 |
      h_21 | h_22 | h_23 =>
      exact keep_reads rfl rfl <| both fun op fn => word <| const fn <| flag <| field <| flag <| field <| field <| top op hw
    -- CLZ, CTZ, POPC, MOV, SEXT_I8, SEXT_I16, SEXT_I32, ZEXT_I8, ZEXT_I16, ZEXT_I32
    case h_24 | h_25 | h_26 | h_27 | h_28 | h_29 | h_30 | h_31 | h_32 | h_33 =>
      exact keep_reads rfl rfl <| both <| both fun op z fn => word <| const fn <| zeros z <| flag <| field <| field <| top op hw
    case h_34 => exact none_reads _ _ -- reserved
  -- SEL, LEA, CMP
  case h_2 | h_4 | h_7 =>
    exact keep_reads rfl rfl <| both fun op z => word <| zeros z <| field <| flag <| field <| flag <| field <| field <| top op hw
  -- ADDI
  case h_3 =>
    exact keep_reads rfl rfl fun op => word <| field <| flag <| field <| field <| top op hw
  -- LI
  case h_5 =>
    exact keep_reads rfl rfl fun op => word <| field <| field <| top op hw
  -- LIH
  case h_6 =>
    exact keep_reads rfl rfl <| both fun op z => word <| zeros z <| flag <| field <| field <| field <| top op hw
  -- CMPI
  case h_8 =>
    exact keep_reads rfl rfl fun op => word <| field <| field <| flag <| field <| field <| top op hw
  -- The logic of predicates, by its function.
  case h_9 =>
    split
    -- PAND
    case h_1 =>
      exact keep_reads rfl rfl <| both <| both fun op z z' =>
        word <| zeros z' <| zeros z <| flag <| field <| flag <| field <| field <| top op hw
    -- POR, PXOR, PANDN
    case h_2 | h_3 | h_4 =>
      exact keep_reads rfl rfl <| both <| both fun op fn z =>
        word <| zeros z <| const fn <| flag <| field <| flag <| field <| field <| top op hw
    case h_5 => exact none_reads _ _ -- reserved
  -- The two forms of PREP.
  case h_10 =>
    split
    -- PREP_LABEL
    case h_1 =>
      exact keep_reads rfl rfl <| both fun op z => word <| field <| zeros z <| field <| top op hw
    -- PREP_REG
    case h_2 =>
      exact keep_reads rfl rfl <| both <| both fun op fn z => word <| zeros z <| flag <| field <| const fn <| field <| top op hw
    case h_3 => exact none_reads _ _ -- reserved
  -- SETC and GETC, by the write bit.
  case h_11 =>
    split
    -- SETC
    case h_1 =>
      exact keep_reads rfl rfl <| both <| both fun op fn z => word <| zeros z <| field <| flag <| const fn <| field <| top op hw
    -- GETC
    case h_2 =>
      exact keep_reads rfl rfl <| both <| both fun op z z' => word <| zeros z' <| field <| zeros z <| field <| top op hw
  case h_12 => exact none_reads _ _ -- reserved
theorem decL_reads (hw : w < 2 ^ 32) : Reads .l w (decL w) := by
  unfold decL
  split
  -- LDL, STL
  case h_1 | h_2 =>
    exact keep_reads rfl rfl fun op => word <| field <| flag <| field <| flag <| field <| field <| top op hw
  -- The two forms of VLDL.
  case h_3 =>
    split
    -- VLDL
    case h_1 =>
      exact keep_reads rfl rfl <| both fun op z => word <| field <| flag <| field <| zeros z <| field <| field <| top op hw
    -- VLDL_STREAM
    case h_2 =>
      exact keep_reads rfl rfl <| both <| both <| both fun op fn z z' =>
        word <| zeros z' <| field <| zeros z <| const fn <| field <| field <| top op hw
    case h_3 => exact none_reads _ _ -- reserved
  -- The two forms of VSTL.
  case h_4 =>
    split
    -- VSTL
    case h_1 =>
      exact keep_reads rfl rfl <| both fun op z => word <| field <| flag <| field <| zeros z <| field <| flag <| field <| top op hw
    -- VSTL_STREAM
    case h_2 =>
      exact keep_reads rfl rfl <| both <| both <| both fun op fn z z' =>
        word <| zeros z' <| field <| zeros z <| const fn <| field <| flag <| field <| top op hw
    case h_3 => exact none_reads _ _ -- reserved
  -- BIND
  case h_5 =>
    exact keep_reads rfl rfl <| both fun op z => word <| zeros z <| flag <| flag <| field <| field <| top op hw
  -- UNBIND
  case h_6 =>
    exact keep_reads rfl rfl <| both fun op z => word <| zeros z <| field <| top op hw
  -- QSKIP
  case h_7 =>
    exact keep_reads rfl rfl <| both fun op z => word <| zeros z <| flag <| field <| field <| top op hw
  -- QSTAT
  case h_8 =>
    exact keep_reads rfl rfl <| both fun op z => word <| zeros z <| field <| field <| top op hw
  case h_9 => exact none_reads _ _ -- reserved
theorem decG_reads (hw : w < 2 ^ 32) : Reads .g w (decG w) := by
  unfold decG
  split
  -- LDG, STG, VSTG
  case h_1 | h_2 | h_4 =>
    exact keep_reads rfl rfl fun op => word <| field <| flag <| field <| field <| flag <| field <| top op hw
  -- VLDG
  case h_3 =>
    exact keep_reads rfl rfl fun op => word <| field <| field <| flag <| field <| field <| field <| top op hw
  -- VGATH
  case h_5 =>
    exact keep_reads rfl rfl fun op => word <| field <| flag <| field <| flag <| field <| field <| field <| top op hw
  -- VSCAT
  case h_6 =>
    exact keep_reads rfl rfl <| both fun op z =>
      word <| zeros z <| flag <| field <| flag <| field <| field <| flag <| field <| top op hw
  -- AMO, whose function 9 is the compare and swap.
  case h_7 =>
    split
    -- AMO_CAS
    case h_1 =>
      exact keep_reads rfl rfl <| both <| both fun op fn z =>
        word <| zeros z <| flag <| flag <| field <| flag <| field <| field <| flag <| const fn <| top op hw
    -- AMO
    case h_2 =>
      exact keep_reads rfl rfl <| both fun op z =>
        word <| zeros z <| flag <| field <| flag <| field <| field <| flag <| field <| top op hw
  -- RADD
  case h_8 =>
    exact keep_reads rfl rfl <| both fun op z => word <| zeros z <| flag <| field <| flag <| field <| field <| field <| top op hw
  -- ROWADD
  case h_9 =>
    exact keep_reads rfl rfl <| both fun op z => word <| zeros z <| field <| flag <| field <| flag <| field <| top op hw
  -- ROWLD
  case h_10 =>
    exact keep_reads rfl rfl <| both <| both fun op z z' =>
      word <| zeros z' <| field <| flag <| field <| zeros z <| field <| top op hw
  -- The two forms of PSMP.
  case h_11 =>
    split
    -- PSMP_SCALAR
    case h_1 =>
      exact keep_reads rfl rfl <| both fun op z => word <| field <| flag <| field <| flag <| field <| zeros z <| top op hw
    -- PSMP_VECTOR
    case h_2 =>
      exact keep_reads rfl rfl <| both fun op fn => word <| field <| flag <| field <| flag <| field <| const fn <| top op hw
    case h_3 => exact none_reads _ _ -- reserved
  -- The two forms of PTAP.
  case h_12 =>
    split
    -- PTAP_SCALAR
    case h_1 =>
      exact keep_reads rfl rfl <| both fun op z => word <| field <| flag <| field <| field <| field <| zeros z <| top op hw
    -- PTAP_VECTOR
    case h_2 =>
      exact keep_reads rfl rfl <| both fun op fn => word <| field <| flag <| field <| field <| field <| const fn <| top op hw
    case h_3 => exact none_reads _ _ -- reserved
  -- PTAPS
  case h_13 =>
    exact keep_reads rfl rfl <| both <| both fun op z z' =>
      word <| field <| flag <| field <| zeros z' <| field <| zeros z <| top op hw
  -- The two forms of RTAP.
  case h_14 =>
    split
    -- RTAP_SCALAR
    case h_1 =>
      exact keep_reads rfl rfl <| both fun op z => word <| field <| flag <| field <| field <| field <| zeros z <| top op hw
    -- RTAP_VECTOR
    case h_2 =>
      exact keep_reads rfl rfl <| both fun op fn => word <| field <| flag <| field <| field <| field <| const fn <| top op hw
    case h_3 => exact none_reads _ _ -- reserved
  -- PHASE
  case h_15 =>
    exact keep_reads rfl rfl <| both fun op z => word <| zeros z <| field <| top op hw
  -- PREF
  case h_16 =>
    exact keep_reads rfl rfl fun op => word <| field <| flag <| field <| top op hw
  case h_17 => exact none_reads _ _ -- reserved
theorem decV_reads (hw : w < 2 ^ 36) : Reads .v w (decV w) := by
  unfold decV
  split
  -- VADD, VSUB, VMUL, VMULH, VAND, VOR, VXOR, VSHL, VSHR, VSAR, VMIN, VMAX, VCLMUL_LO, VCLMUL_HI, VFADD, VFSUB, VFMUL, VFMIN, VFMAX,
  -- VSCALE, VPACK, VSEL, VLANE
  case h_1 | h_2 | h_3 | h_4 | h_6 | h_7 | h_8 | h_9 | h_10 | h_11 | h_12 | h_13 | h_16 | h_17 | h_19 | h_20 | h_21 | h_23 | h_24 | h_38
    | h_39 | h_46 | h_47 =>
    exact keep_reads rfl rfl <| both fun op z =>
      word <| zeros z <| field <| flag <| field <| flag <| field <| field <| field <| field <| top op hw
  -- VMAD, VWACC, VFMA
  case h_5 | h_15 | h_22 =>
    exact keep_reads rfl rfl fun op =>
      word <| flag <| field <| flag <| field <| flag <| field <| field <| field <| field <| top op hw
  -- VABS, VPOPC, VFABS, VFNEG, VEXP2, VLOG2, VRCP, VRSQ, VSQRT, VCVT, VUNPACK, VTAG, VSPLAT
  case h_14 | h_18 | h_25 | h_26 | h_32 | h_33 | h_34 | h_35 | h_36 | h_37 | h_40 | h_41 | h_44 =>
    exact keep_reads rfl rfl <| both <| both fun op z z' =>
      word <| zeros z' <| field <| zeros z <| flag <| field <| field <| field <| field <| top op hw
  -- VFCMP, VMCMP
  case h_27 | h_28 =>
    exact keep_reads rfl rfl <| both <| both fun op z z' =>
      word <| zeros z' <| field <| flag <| field <| flag <| field <| field <| zeros z <| field <| field <| top op hw
  -- MAND, MOR
  case h_29 | h_30 =>
    exact keep_reads rfl rfl <| both <| both fun op z z' => word <| zeros z' <| field <| field <| field <| zeros z <| top op hw
  -- MNOT
  case h_31 =>
    exact keep_reads rfl rfl <| both <| both <| both fun op z z' z'' =>
      word <| zeros z'' <| zeros z' <| field <| field <| zeros z <| top op hw
  -- VRED, VSCAN
  case h_42 | h_43 =>
    exact keep_reads rfl rfl <| both <| both fun op z z' =>
      word <| zeros z' <| field <| zeros z <| field <| flag <| field <| field <| field <| field <| top op hw
  -- VMOVS
  case h_45 =>
    exact keep_reads rfl rfl <| both <| both <| both fun op z z' z'' =>
      word <| zeros z'' <| field <| zeros z' <| field <| flag <| field <| field <| zeros z <| top op hw
  -- VCHKF
  case h_48 =>
    exact keep_reads rfl rfl <| both <| both <| both fun op z z' z'' =>
      word <| zeros z'' <| field <| zeros z' <| flag <| field <| zeros z <| field <| top op hw
  -- LSUPD
  case h_49 =>
    exact keep_reads rfl rfl <| both fun op z => word <| zeros z <| top op hw
  case h_50 => exact none_reads _ _ -- reserved
theorem decX_reads (hw : w < 2 ^ 24) : Reads .x w (decX w) := by
  unfold decX
  split
  -- XPERM
  case h_1 =>
    exact keep_reads rfl rfl <| both fun op z => word <| zeros z <| flag <| field <| flag <| field <| field <| top op hw
  -- XROT, XBCAST, XSHUF, XREV, XCMPR
  case h_2 | h_3 | h_4 | h_5 | h_6 =>
    exact keep_reads rfl rfl <| both fun op z => word <| zeros z <| field <| flag <| field <| field <| top op hw
  case h_7 => exact none_reads _ _ -- reserved
theorem decT_reads (hw : w < 2 ^ 32) : Reads .t w (decT w) := by
  unfold decT
  split
  -- WLD
  case h_1 =>
    exact keep_reads rfl rfl <| both fun op z => word <| zeros z <| field <| flag <| field <| field <| top op hw
  -- BEAT
  case h_2 =>
    exact keep_reads rfl rfl <| both fun op z =>
      word <| zeros z <| field <| flag <| flag <| flag <| field <| field <| field <| field <| top op hw
  -- DRAIN
  case h_3 =>
    exact keep_reads rfl rfl <| both fun op z => word <| zeros z <| field <| field <| field <| field <| top op hw
  -- ZCLR
  case h_4 =>
    exact keep_reads rfl rfl <| both fun op z => word <| zeros z <| field <| top op hw
  -- ZROT, ZSPILL, ZFILL
  case h_5 | h_6 | h_7 =>
    exact keep_reads rfl rfl <| both fun op z => word <| zeros z <| field <| field <| top op hw
  case h_8 => exact none_reads _ _ -- reserved
theorem decE_reads (hw : w < 2 ^ 32) : Reads .e w (decE w) := by
  unfold decE
  split
  -- CPY, CPYW, RKGATH, RKSEG, RILL, CFL_AR, CFL_RS, CFL_AG, CFL_BC, SEND, RECV, PANCFG, TICK, SPAWN
  case h_1 | h_2 | h_5 | h_6 | h_7 | h_8 | h_9 | h_10 | h_11 | h_12 | h_13 | h_14 | h_15 | h_19 =>
    exact keep_reads rfl rfl <| both fun op z => word <| zeros z <| flag <| field <| field <| top op hw
  -- TQPUSH, TQPOP, LEAVE, BAR
  case h_3 | h_4 | h_21 | h_22 =>
    exact keep_reads rfl rfl <| both <| both fun op z z' => word <| zeros z' <| flag <| field <| zeros z <| top op hw
  -- FOOT
  case h_16 =>
    exact keep_reads rfl rfl <| both <| both fun op z z' =>
      word <| zeros z' <| flag <| field <| flag <| field <| flag <| field <| zeros z <| top op hw
  -- JWAIT
  case h_17 =>
    exact keep_reads rfl rfl <| both fun op z => word <| zeros z <| field <| top op hw
  -- JPOLL
  case h_18 =>
    exact keep_reads rfl rfl <| both <| both fun op z z' => word <| zeros z' <| field <| zeros z <| field <| top op hw
  -- JOIN
  case h_20 =>
    exact keep_reads rfl rfl <| both <| both fun op z z' => word <| zeros z' <| field <| flag <| field <| zeros z <| top op hw
  case h_23 => exact none_reads _ _ -- reserved
theorem decB_reads (hw : w < 2 ^ 48) : Reads .b w (decB w) := by
  unfold decB
  split
  -- The opcodes of major 0.
  case h_1 =>
    split
    -- CALL
    case h_1 =>
      exact keep_reads rfl rfl <| both <| both fun major op z => word <| zeros z <| field <| field <| top op (lt_of_high_zeros major hw)
    -- RET, SUSPEND, TRAP
    case h_2 | h_3 | h_5 =>
      exact keep_reads rfl rfl <| both <| both fun major op z => word <| zeros z <| field <| top op (lt_of_high_zeros major hw)
    -- HALT, RTE
    case h_4 | h_6 =>
      exact keep_reads rfl rfl <| both <| both fun major op z => word <| zeros z <| top op (lt_of_high_zeros major hw)
    case h_7 => exact none_reads _ _ -- reserved
  -- TREE
  case h_2 =>
    exact keep_reads rfl rfl <| both fun op z =>
      word <| zeros z <| field <| field <| field <| field <| field <| field <| field <| field <| field <| field <| top op hw
  -- LOOP
  case h_3 =>
    exact keep_reads rfl rfl <| both fun op z => word <| zeros z <| field <| field <| top op hw
  -- LOOPR
  case h_4 =>
    exact keep_reads rfl rfl <| both fun op z => word <| zeros z <| flag <| field <| field <| top op hw
  case h_5 => exact none_reads _ _ -- reserved
end

theorem slot_reads {w : Nat} : ∀ n, n < 10 → w < 2 ^ slotWidth n → Reads (slotClass n) w (decodeClass (slotClass n) w)
  | 0, _, hw | 1, _, hw => decA_reads hw
  | 2, _, hw => decL_reads hw
  | 3, _, hw => decG_reads hw
  | 4, _, hw | 5, _, hw => decV_reads hw
  | 6, _, hw => decX_reads hw
  | 7, _, hw => decT_reads hw
  | 8, _, hw => decE_reads hw
  | 9, _, hw => decB_reads hw
  | n + 10, hn, _ => absurd hn (by omega)

end Sys2Proof.Laws
end

section
open Sys2Proof Sys2Proof.Laws

/-- Settles O54, slot by slot: what the slot's map reads in a word is encoded by that word. -/
theorem reservedWordsAreRefused : Obligations.ReservedWordsAreRefused := fun n _ i hn hw => slot_reads n hn hw i

end

section
/-! PROOFS. The numbers of the scalar operations: what each operation of the A slots computes, as arithmetic (R71 to R75). -/
namespace Sys2Proof.Machine

/-! Minima and maxima (R71). -/

theorem minS_toInt (a b : W64) : (if a.slt b then a else b).toInt = min a.toInt b.toInt := by
  rw [BitVec.slt_eq_decide]
  by_cases h : a.toInt < b.toInt
  · rw [if_pos (decide_eq_true h)]; omega
  · rw [if_neg (by simpa using h)]; omega
theorem maxS_toInt (a b : W64) : (if a.slt b then b else a).toInt = max a.toInt b.toInt := by
  rw [BitVec.slt_eq_decide]
  by_cases h : a.toInt < b.toInt
  · rw [if_pos (decide_eq_true h)]; omega
  · rw [if_neg (by simpa using h)]; omega
theorem minU_toNat (a b : W64) : (if a.ult b then a else b).toNat = min a.toNat b.toNat := by
  rw [BitVec.ult_eq_decide]
  by_cases h : a.toNat < b.toNat
  · rw [if_pos (decide_eq_true h)]; omega
  · rw [if_neg (by simpa using h)]; omega
theorem maxU_toNat (a b : W64) : (if a.ult b then b else a).toNat = max a.toNat b.toNat := by
  rw [BitVec.ult_eq_decide]
  by_cases h : a.toNat < b.toNat
  · rw [if_pos (decide_eq_true h)]; omega
  · rw [if_neg (by simpa using h)]; omega

/-! Counts of bits (R71). -/

/-- The length of a number in bits: no bit from it on is set, and the one below it is. -/
theorem bitLen_spec (x : Nat) : x < 2 ^ bitLen x ∧ (x ≠ 0 → bitLen x ≠ 0 ∧ x.testBit (bitLen x - 1) = true) := by
  unfold bitLen
  by_cases h : x = 0
  · simp [h]
  · rw [if_neg h]
    exact ⟨Nat.lt_log2_self, fun _ => ⟨Nat.succ_ne_zero _, Nat.testBit_log2 h⟩⟩
/-- The leading zeros of a word (R71). -/
theorem clz_spec (x : W64) : (∀ i, i < 64 - bitLen x.toNat → x.getLsbD (63 - i) = false) ∧
    (64 - bitLen x.toNat < 64 → x.getLsbD (63 - (64 - bitLen x.toNat)) = true) := by
  obtain ⟨hlt, htop⟩ := bitLen_spec x.toNat
  have hlen : bitLen x.toNat ≤ 64 := by
    by_contra hgt
    have h0 : x.toNat ≠ 0 := by intro h; simp [h, bitLen] at hgt
    have := Nat.ge_two_pow_of_testBit (htop h0).2
    have : 2 ^ 64 ≤ 2 ^ (bitLen x.toNat - 1) := Nat.pow_le_pow_right (by decide) (by omega)
    have := x.isLt
    omega
  refine ⟨fun i hi => ?_, fun h => ?_⟩
  · exact Nat.testBit_lt_two_pow (Nat.lt_of_lt_of_le hlt (Nat.pow_le_pow_right (by decide) (by omega)))
  · have h0 : x.toNat ≠ 0 := by intro h0; simp [h0, bitLen] at h
    have := htop h0
    rw [show 63 - (64 - bitLen x.toNat) = bitLen x.toNat - 1 by omega]
    exact this.2
/-- The one bits of a word, counted over its bits. -/
theorem popN_eq (x : W64) : w64 (popN 64 x.toNat) = BitVec.ofNat 64 ((List.range 64).countP (fun i => x.getLsbD i)) :=
  congrArg w64 (pop_spec 64 x.toNat)

/-! Products without carries (R73). -/

/-- A bit of the carry-less product of two words, as the low or the high half has it. -/
theorem clmul_bit (a b : W64) (n k : Nat) (hk : k < 64) : (w64 (clmul a.toNat b.toNat 64 / 2 ^ n)).getLsbD k =
    ((List.range 64).countP (fun i => decide (i ≤ k + n) && a.getLsbD (k + n - i) && b.getLsbD i) % 2 == 1) := by
  rw [w64, BitVec.getLsbD_ofNat, Nat.testBit_div_two_pow, clmul_spec, decide_eq_true hk, Bool.true_and]
  rfl

/-! Quotients and remainders (R72). -/

/-- The integer of a word that an integer within the signed range gives. -/
theorem toInt_ofInt_of_range {x : Int} (hlo : -9223372036854775808 ≤ x) (hhi : x < 9223372036854775808) : (BitVec.ofInt 64 x).toInt = x := by
  rw [BitVec.toInt_ofInt]
  exact Int.bmod_eq_of_le (by omega) (by omega)
theorem toInt_range (x : W64) : -9223372036854775808 ≤ x.toInt ∧ x.toInt < 9223372036854775808 :=
  ⟨BitVec.le_toInt x, BitVec.toInt_lt⟩
theorem toInt_ne_zero {b : W64} (h : b ≠ 0) : b.toInt ≠ 0 := fun e => h (BitVec.eq_of_toInt_eq e)
/-- A quotient other than the one that overflows lies within the signed range. -/
theorem tdiv_range {a b : Int} (ha : -9223372036854775808 ≤ a ∧ a < 9223372036854775808)
    (h : ¬ (a = -9223372036854775808 ∧ b = -1)) : -9223372036854775808 ≤ a.tdiv b ∧ a.tdiv b < 9223372036854775808 := by
  by_cases hb : 2 ≤ b.natAbs
  · have habs : (a.tdiv b).natAbs ≤ a.natAbs / 2 := by
      rw [Int.natAbs_tdiv]
      exact Nat.div_le_div_left hb (by decide)
    omega
  · rcases (by omega : b = 0 ∨ b = 1 ∨ b = -1) with rfl | rfl | rfl
    · rw [Int.tdiv_zero]; omega
    · rw [Int.tdiv_one]; omega
    · rw [Int.tdiv_neg, Int.tdiv_one]; omega
/-- A remainder lies within the signed range. -/
theorem tmod_range {a b : Int} (ha : -9223372036854775808 ≤ a ∧ a < 9223372036854775808) :
    -9223372036854775808 ≤ a.tmod b ∧ a.tmod b < 9223372036854775808 := by
  have habs : (a.tmod b).natAbs ≤ a.natAbs := by
    rw [Int.natAbs_tmod]
    exact Nat.mod_le _ _
  have hneg : 0 ≤ -a → 0 ≤ -a.tmod b := fun h => Int.neg_tmod a b ▸ Int.tmod_nonneg b h
  omega
theorem divS_toInt (a b : W64) : (divS a b).toInt = if b = 0 then -1
    else if a.toInt = -9223372036854775808 ∧ b.toInt = -1 then -9223372036854775808 else a.toInt.tdiv b.toInt := by
  unfold divS
  split
  · decide
  · split
    · next h => rw [h.1, h.2]; decide
    · next h => exact toInt_ofInt_of_range (tdiv_range (toInt_range a) h).1 (tdiv_range (toInt_range a) h).2
theorem remS_toInt (a b : W64) : (remS a b).toInt = if b = 0 then a.toInt
    else if a.toInt = -9223372036854775808 ∧ b.toInt = -1 then 0 else a.toInt - b.toInt * a.toInt.tdiv b.toInt := by
  unfold remS
  split
  · rfl
  · split
    · next h => rw [h.1, h.2]; decide
    · rw [toInt_ofInt_of_range (tmod_range (toInt_range a)).1 (tmod_range (toInt_range a)).2, Int.tmod_def]
theorem divU_toNat (a b : W64) : (divU a b).toNat = if b = 0 then 18446744073709551615 else a.toNat / b.toNat := by
  unfold divU
  split
  · decide
  · exact Nat.mod_eq_of_lt (Nat.lt_of_le_of_lt (Nat.div_le_self _ _) a.isLt)
theorem remU_toNat (a b : W64) : (remU a b).toNat = if b = 0 then a.toNat else a.toNat - b.toNat * (a.toNat / b.toNat) := by
  unfold remU
  split
  · rfl
  · rw [← Nat.mod_eq_sub_mul_div]
    exact Nat.mod_eq_of_lt (Nat.lt_of_le_of_lt (Nat.mod_le _ _) a.isLt)

/-! Conditions (R42, R75). -/

theorem condS_holds (cc : BitVec 4) (a b : W64) : Holds cc.toNat a b (condS cc a b) := by
  unfold condS Holds
  split <;> simp [BitVec.slt_eq_decide, BitVec.ult_eq_decide]

/-! Placing a quarter (R74). -/

/-- A bit of LIH's result: of the immediate in the quarter that h names, of the old scalar elsewhere. -/
theorem lih_bit (x : W64) (imm : BitVec 16) (h : BitVec 2) (k : Nat) (hk : k < 64) :
    ((x &&& ~~~((0xFFFF : W64) <<< (16 * h.toNat))) ||| (imm.setWidth 64 <<< (16 * h.toNat))).getLsbD k =
      if k / 16 = h.toNat then imm.getLsbD (k % 16) else x.getLsbD k := by
  have hmask : ∀ i, (0xFFFF : W64).getLsbD i = decide (i < 16) := by
    intro i
    have : (0xFFFF : W64) = (BitVec.allOnes 16).setWidth 64 := by decide
    rw [this, BitVec.getLsbD_setWidth, BitVec.getLsbD_allOnes]
    by_cases hi : i < 16 <;> simp [hi]; omega
  simp only [BitVec.getLsbD_or, BitVec.getLsbD_and, BitVec.getLsbD_not, BitVec.getLsbD_shiftLeft, BitVec.getLsbD_setWidth, hmask]
  by_cases hq : k / 16 = h.toNat
  · have hm : k - 16 * h.toNat = k % 16 := by omega
    have hlo : ¬ k < 16 * h.toNat := by omega
    simp [hq, hk, hm, hlo, Nat.mod_lt, show k % 16 < 64 by omega]
  · by_cases hlo : k < 16 * h.toNat
    · simp [hq, hk, hlo]
    · have hhi : ¬ k - 16 * h.toNat < 16 := by omega
      have himm : imm.getLsbD (k - 16 * h.toNat) = false := BitVec.getLsbD_of_ge _ _ (by omega)
      simp [hq, hk, hlo, hhi, himm]

/-! The shared forms of the A slots, for an instruction whose meaning is one of them. -/

theorem exec_writesS {i : Instr} {s : State} {d : BitVec 6} {x : State → W64} (he : exec i s = scalarOut i d x s) (h : Ready i s) :
    WritesS s (exec i s) d (x s) := he ▸ scalarOut_writes h d x
theorem exec_flightS {i : Instr} {s : State} {d : BitVec 6} {x : State → W64} (he : exec i s = divOut i d x s) (h : Ready i s) :
    FlightS s (exec i s) d (s.iss.t + 24) (x s) := he ▸ divOut_flight h d x
theorem exec_writesP {i : Instr} {s : State} {d : BitVec 5} {x : State → Bool} (he : exec i s = predOut i d x s) (h : Ready i s) :
    WritesP s (exec i s) d (x s) := he ▸ predOut_writes h d x

end Sys2Proof.Machine
end

section
open Sys2Proof Sys2Proof.Machine

/-- Settles O3: bit k of each half is bit k or k + 64 of the product, which is the parity of its partial products. -/
theorem carrylessProducts : Obligations.CarrylessProducts := by
  intro s
  refine ⟨fun o h => ⟨_, exec_writesS (exec_clmull o s) h, fun k hk => ?_⟩, fun o h => ⟨_, exec_writesS (exec_clmulh o s) h, fun k hk => ?_⟩⟩
  · have := clmul_bit (srcS s o.a) (srcS s o.b) 0 k hk
    rwa [Nat.pow_zero, Nat.div_one] at this
  · refine (clmul_bit (srcS s o.a) (srcS s o.b) 64 k hk).trans ?_
    refine congrArg (fun n => n % 2 == 1) (List.countP_congr fun i hi => ?_)
    have : i ≤ k + 64 := by have := List.mem_range.1 hi; omega
    simp [this]

/-- Settles O4: each result in flight is the model's quotient or remainder, which is the integer that the rule names. -/
theorem divisionsLandAfter24Cycles : Obligations.DivisionsLandAfter24Cycles := by
  intro s
  exact ⟨fun o h => ⟨_, exec_flightS (exec_div o s) h, divS_toInt _ _⟩, fun o h => ⟨_, exec_flightS (exec_rem o s) h, remS_toInt _ _⟩,
    fun o h => ⟨_, exec_flightS (exec_divu o s) h, divU_toNat _ _⟩, fun o h => ⟨_, exec_flightS (exec_remu o s) h, remU_toNat _ _⟩⟩

/-- Settles O5, by the truth of each condition. -/
theorem comparesAndPredicateLogic : Obligations.ComparesAndPredicateLogic := by
  intro s
  exact ⟨fun o h _ => ⟨_, exec_writesP (exec_cmp o s) h, condS_holds _ _ _⟩, fun o h _ => ⟨_, exec_writesP (exec_cmpi o s) h, condS_holds _ _ _⟩,
    fun o => exec_writesP (exec_pand o s), fun o => exec_writesP (exec_por o s), fun o => exec_writesP (exec_pxor o s),
    fun o => exec_writesP (exec_pandn o s)⟩

/-- Settles O1: each operation writes its value, and the minima, the maxima and the counts have the properties that define them. -/
theorem scalarAluOperations : Obligations.ScalarAluOperations := by
  intro s
  have hmin := fun o h => exec_writesS (exec_min o s) h
  have hmax := fun o h => exec_writesS (exec_max o s) h
  have hminu := fun o h => exec_writesS (exec_minu o s) h
  have hmaxu := fun o h => exec_writesS (exec_maxu o s) h
  have hclz := fun o h => exec_writesS (exec_clz o s) h
  have hctz := fun o h => exec_writesS (exec_ctz o s) h
  have hpopc := fun o h => exec_writesS (exec_popc o s) h
  exact ⟨fun o => exec_writesS (exec_add o s), fun o => exec_writesS (exec_sub o s), fun o => exec_writesS (exec_mul o s),
    fun o => exec_writesS (exec_mulh o s), fun o => exec_writesS (exec_mulhu o s), fun o => exec_writesS (exec_and o s),
    fun o => exec_writesS (exec_or o s), fun o => exec_writesS (exec_xor o s), fun o => exec_writesS (exec_andn o s),
    fun o => exec_writesS (exec_shl o s), fun o => exec_writesS (exec_shr o s), fun o => exec_writesS (exec_sar o s),
    fun o => exec_writesS (exec_rol o s),
    fun o h => ⟨_, hmin o h, minS_toInt _ _⟩, fun o h => ⟨_, hmax o h, maxS_toInt _ _⟩,
    fun o h => ⟨_, hminu o h, minU_toNat _ _⟩, fun o h => ⟨_, hmaxu o h, maxU_toNat _ _⟩,
    fun o h => ⟨_, Nat.sub_le _ _, hclz o h, clz_spec _⟩, fun o h => ⟨_, (ctz_spec 64 _).1, hctz o h, (ctz_spec 64 _).2⟩,
    fun o h => popN_eq (srcS s o.a) ▸ hpopc o h,
    fun o => exec_writesS (exec_mov o s), fun o => exec_writesS (exec_sextI8 o s), fun o => exec_writesS (exec_sextI16 o s),
    fun o => exec_writesS (exec_sextI32 o s), fun o => exec_writesS (exec_zextI8 o s), fun o => exec_writesS (exec_zextI16 o s),
    fun o => exec_writesS (exec_zextI32 o s)⟩

/-- Settles O2, by the write of one scalar, and for LIH by the bits of its result. -/
theorem scalarImmediatesAndSelection : Obligations.ScalarImmediatesAndSelection := by
  intro s
  exact ⟨fun o => exec_writesS (exec_addi o s), fun o => exec_writesS (exec_li o s),
    fun o h => ⟨_, exec_writesS (exec_lih o s) h, lih_bit _ _ _⟩, fun o => exec_writesS (exec_lea o s), fun o => exec_writesS (exec_sel o s)⟩

end

section
/-! PROOFS. Branch targets and control registers (R77 to R79, R87, R134, R315). -/
namespace Sys2Proof.Machine

/-- A field of a word, as a number and as bits. -/
theorem bits_extract (x : W64) (lo n : Nat) : bits x.toNat lo n = (x.extractLsb' lo n).toNat := by
  rw [bits, BitVec.extractLsb'_toNat, Nat.shiftRight_eq_div_pow]
/-- LSCALE takes the written word with E clamped to its bounds, where LO is not above HI (R134). -/
theorem lscaleWrite_eq (x old : W64) : lscaleWrite x old = if (x.extractLsb' 8 8).toInt ≤ (x.extractLsb' 16 8).toInt
    then x.extractLsb' 8 56 ++ BitVec.ofInt 8 (max (x.extractLsb' 8 8).toInt (min (x.extractLsb' 16 8).toInt (x.extractLsb' 0 8).toInt))
    else old := by
  unfold lscaleWrite
  simp only [bits_extract, sInt_toNat (by decide : 0 < 8), uInt_eq]
  generalize (x.extractLsb' 8 8).toInt = lo
  generalize (x.extractLsb' 16 8).toInt = hi
  generalize (x.extractLsb' 0 8).toInt = e
  by_cases h : hi < lo
  · rw [if_pos h, if_neg (by omega)]
  · have hclamp : (if e < lo then lo else if hi < e then hi else e) = max lo (min hi e) := by
      by_cases h1 : e < lo
      · rw [if_pos h1]; omega
      · by_cases h2 : hi < e
        · rw [if_neg h1, if_pos h2]; omega
        · rw [if_neg h1, if_neg h2]; omega
    rw [if_neg h, hclamp, if_pos (by omega)]
    apply BitVec.eq_of_toNat_eq
    have hlow := (BitVec.ofInt 8 (max lo (min hi e))).isLt
    have hx := x.isLt
    rw [BitVec.toNat_append, BitVec.extractLsb'_toNat, ← Nat.shiftLeft_add_eq_or_of_lt hlow, Nat.shiftLeft_eq, Nat.shiftRight_eq_div_pow, w64, BitVec.toNat_ofNat]
    omega
/-- SKEW is written where a bit of the field is set (R77). -/
theorem skew_bits (x : W64) : (x.getLsbD 0 || x.getLsbD 1 || x.getLsbD 2 || x.getLsbD 3) = decide (x.setWidth 4 ≠ 0#4) := by
  have hbit : ∀ i, i < 4 → (x.setWidth 4).getLsbD i = x.getLsbD i := fun i hi => by rw [BitVec.getLsbD_setWidth]; simp [hi]
  rw [← hbit 0 (by decide), ← hbit 1 (by decide), ← hbit 2 (by decide), ← hbit 3 (by decide)]
  generalize x.setWidth 4 = y
  revert y
  decide
/-- STATUS is written in handler mode, each field with its bounds (R315). -/
theorem statusWrite_eq (x : W64) (k : Core) : statusWrite x k = if k.h = true then { k with
    wskip := x.getLsbD 27
    leaf := if (x.extractLsb' 20 3).toNat < 5 then x.extractLsb' 20 3 else k.leaf
    repc := x.extractLsb' 12 8
    slot := if (x.extractLsb' 8 4).toNat < 10 ∨ x.extractLsb' 8 4 = 15#4 then x.extractLsb' 8 4 else k.slot } else k := by
  have hslot : (bits x.toNat 8 4 < 10 || bits x.toNat 8 4 = 15) = decide ((x.extractLsb' 8 4).toNat < 10 ∨ x.extractLsb' 8 4 = 15#4) := by
    rw [bits_extract, Bool.decide_or]
    exact congrArg _ (decide_eq_decide.2 ⟨fun h => BitVec.eq_of_toNat_eq h, fun h => congrArg BitVec.toNat h⟩)
  unfold statusWrite
  cases k.h
  · rfl
  · rw [if_neg (by decide), if_pos rfl, hslot]
    simp only [decide_eq_true_eq, bits_extract, BitVec.ofNat_toNat, BitVec.setWidth_eq]
/-- What a SETC does to every field but LOOPS and the marks of a trap's return (R77, R134, R315). -/
theorem setCtl_eq (n : Nat) (x : W64) (k : Core) : setCtl n x k = { k with
    srkey := if n = 5 then x else k.srkey
    flags := if n = 7 then x.setWidth 7 else k.flags
    sel := if n = 8 then x.setWidth 8 else k.sel
    skew := if n = 4 ∧ x.setWidth 4 ≠ 0#4 ∧ k.lock = false then x.setWidth 4 else k.skew
    lscale := if n = 6 then lscaleWrite x k.lscale else k.lscale
    epc := if n = 1 ∧ k.h = true then x.setWidth 24 else k.epc
    wskip := if n = 0 ∧ k.h = true then x.getLsbD 27 else k.wskip
    repc := if n = 0 ∧ k.h = true then x.extractLsb' 12 8 else k.repc
    leaf := if n = 0 ∧ k.h = true ∧ (x.extractLsb' 20 3).toNat < 5 then x.extractLsb' 20 3 else k.leaf
    slot := if n = 0 ∧ k.h = true ∧ ((x.extractLsb' 8 4).toNat < 10 ∨ x.extractLsb' 8 4 = 15#4) then x.extractLsb' 8 4 else k.slot
    loops := (setCtl n x k).loops, latch := (setCtl n x k).latch
    keptFurther := (setCtl n x k).keptFurther, keptNext := (setCtl n x k).keptNext } := by
  unfold setCtl
  split
  case h_1 =>
    rw [statusWrite_eq]
    by_cases hh : k.h = true
    · rw [if_pos hh]; simp only [eq_true hh, true_and]; rfl
    · rw [if_neg hh]; simp only [eq_false hh, and_false, false_and]; rfl
  case h_2 =>
    by_cases hh : k.h = true
    · rw [if_pos hh]; simp only [eq_true hh, and_true]; rfl
    · rw [if_neg hh]; simp only [eq_false hh, and_false, false_and]; rfl
  case h_3 =>
    rw [skew_bits]
    by_cases hx : x.setWidth 4 = 0#4
    · rw [if_neg (by simp [hx])]; simp only [hx, ne_eq, not_true, false_and, and_false]; rfl
    · rw [if_pos (by simp [hx])]
      by_cases hl : k.lock = true
      · have hfree : (k.lock = false) = False := by rw [hl]; decide
        rw [if_pos hl]; simp only [hfree, and_false]; rfl
      · have hfree : (k.lock = false) = True := by simpa using hl
        rw [if_neg hl]; simp only [hx, hfree, ne_eq, not_false_eq_true, and_true]; rfl
  case h_4 | h_5 | h_6 | h_7 => rfl
  case h_8 | h_9 | h_10 | h_11 => unfold lcntWrite; split <;> rfl
  case h_12 h0 h1 h4 h5 h6 h7 h8 _ _ _ _ =>
    simp only [eq_false h0, eq_false h1, eq_false h4, eq_false h5, eq_false h6, eq_false h7, eq_false h8, if_false, false_and]
/-- What a SETC of LCNT does to a level: the count of the one it names, where that is active (R87). -/
theorem lcntWrite_loops (m n : Fin 4) (x : W64) (k : Core) : (lcntWrite m x k).loops[n] =
    if m = n ∧ (k.loops[n]).active = true then { k.loops[n] with count := x.setWidth 32 } else k.loops[n] := by
  unfold lcntWrite
  by_cases ha : (k.loops[m]).active = true
  · rw [if_pos ha]
    by_cases hmn : m = n
    · subst hmn
      rw [if_pos ⟨rfl, ha⟩]
      exact Vector.getElem_set_self m.isLt
    · rw [if_neg (fun h => hmn h.1)]
      exact Vector.getElem_set_ne m.isLt n.isLt (fun e => hmn (Fin.ext e))
  · rw [if_neg ha, if_neg]
    rintro ⟨rfl, h⟩
    exact ha h
/-- What a SETC does to the loop levels (R87). -/
theorem setCtl_loops (c : Nat) (x : W64) (k : Core) (n : Fin 4) : (setCtl c x k).loops[n] =
    if c = 16 + n.val ∧ (k.loops[n]).active = true then { k.loops[n] with count := x.setWidth 32 } else k.loops[n] := by
  have hn := n.isLt
  have hlevel : ∀ m : Fin 4, (lcntWrite m x k).loops[n] =
      if 16 + m.val = 16 + n.val ∧ (k.loops[n]).active = true then { k.loops[n] with count := x.setWidth 32 } else k.loops[n] := by
    intro m
    rw [lcntWrite_loops]
    simp only [Fin.ext_iff, Nat.add_left_cancel_iff]
  have hother : ∀ j : Core, j.loops = k.loops → (∀ i, i < 4 → c ≠ 16 + i) → j.loops[n] =
      if c = 16 + n.val ∧ (k.loops[n]).active = true then { k.loops[n] with count := x.setWidth 32 } else k.loops[n] := by
    intro j hj hc
    rw [if_neg (fun h => hc n hn h.1), hj]
  unfold setCtl
  split
  case h_8 => exact hlevel 0
  case h_9 => exact hlevel 1
  case h_10 => exact hlevel 2
  case h_11 => exact hlevel 3
  case h_1 => exact hother _ (by unfold statusWrite; split <;> rfl) (by omega)
  case h_2 => exact hother _ (by split <;> rfl) (by omega)
  case h_3 => exact hother _ (by split <;> [split; skip] <;> rfl) (by omega)
  case h_4 | h_5 | h_6 | h_7 => exact hother _ rfl (by omega)
  case h_12 h16 h17 h18 h19 =>
    exact hother _ rfl fun i hi hc => by
      rcases (by omega : c = 16 ∨ c = 17 ∨ c = 18 ∨ c = 19) with h | h | h | h
      · exact h16 h
      · exact h17 h
      · exact h18 h
      · exact h19 h
/-- The number of a control register and the register itself. -/
theorem toNat_eq_iff (c : BitVec 10) {n : Nat} (hn : n < 1024) : c.toNat = n ↔ c = BitVec.ofNat 10 n := by
  rw [← BitVec.toNat_inj, BitVec.toNat_ofNat, Nat.mod_eq_of_lt hn]

/-- SETC commits the write of one control register, with its note (R77, R320). -/
theorem setc_commits {s : State} {o : SetcF} (h : Ready (.setc o) s) : ∃ t, exec (.setc o) s = .next t ∧ OnlyCore s t ∧ SlotDone s t ∧
    me t = noted s (.c o.c) (setCtl o.c.toNat (srcS s o.a) (me s)) := by
  obtain ⟨honly, hdone, hme⟩ := next_note_modMe (.c o.c) (setCtl o.c.toNat (srcS s o.a)) s h.1
  exact ⟨_, (exec_setc o s).trans (runSlot_go h _), honly, hdone, hme⟩

end Sys2Proof.Machine
end

section
open Sys2Proof Sys2Proof.Machine

/-- Settles O6: PREP and GETC by the write of one register, SETC by what it does to the loop levels and to each other field. -/
theorem targetsAndControlRegisters : Obligations.TargetsAndControlRegisters := by
  intro s
  refine ⟨fun o h => (exec_prepLabel o s).symm ▸ runSlot_writesB h o.b _, fun o h => (exec_prepReg o s).symm ▸ runSlot_writesB h o.b _,
    fun o h => (exec_getc o s).symm ▸ runSlot_writesS h o.d _, fun o x h hx => ?_⟩
  obtain ⟨t, hexec, honly, hdone, hme⟩ := setc_commits h
  refine ⟨t, hexec, honly, hdone, fun n => ?_, ?_⟩
  · rw [hme, hx]
    exact setCtl_loops _ _ _ n
  · have hnum : ∀ n, n < 1024 → (o.c.toNat = n) = (o.c = BitVec.ofNat 10 n) := fun n hn => propext (toNat_eq_iff o.c hn)
    have hfields := setCtl_eq o.c.toNat x (me s)
    simp only [hnum 0 (by decide), hnum 1 (by decide), hnum 4 (by decide), hnum 5 (by decide), hnum 6 (by decide), hnum 7 (by decide),
      hnum 8 (by decide), lscaleWrite_eq, ← ite_and] at hfields
    rw [hme, ← hx, noted]
    dsimp only
    generalize setCtl o.c.toNat x (me s) = k at hfields ⊢
    rw [hfields]
    rfl

end

section
/-! PROOFS. The B slot: branches, calls and returns, loops, HALT and SUSPEND (R79 to R88). -/
namespace Sys2Proof.Machine

/-! Branches (R79 to R83). -/

/-- A taken leaf whose target is b0 falls through: nothing but the slot number changes (R81). -/
theorem tree_falls {s : State} {o : TreeF} (h : Ready (.tree o) s) (h0 : treeTarget o s.iss.leaf.toNat = 0) :
    exec (.tree o) s = .next { s with iss := { s.iss with slot := s.iss.slot + 1 } } := by
  rw [exec_tree, execTree, runSlot_go h, if_pos h0, nextSlot_act h.1]
/-- A taken leaf with a target branches to it (R80, R81). -/
theorem tree_branches {s : State} {o : TreeF} (h : Ready (.tree o) s) (h0 : treeTarget o s.iss.leaf.toNat ≠ 0) :
    BranchesTo s (exec (.tree o) s) (srcB s (treeTarget o s.iss.leaf.toNat)) (bubbleOf s.iss.regs (treeTarget o s.iss.leaf.toNat)) := by
  rw [exec_tree, execTree, runSlot_go h, if_neg h0]
  exact branchTo_next _ s h.1
/-- What a branch changes of the bundle's record (R31, R79). -/
theorem branchTo_eq (b : BitVec 3) (s : State) : branchTo b s = { s with
    iss := { s.iss with redirect := some (srcB s b), redirected := true, bubble := bubbleOf s.iss.regs b } } := rfl
/-- A change of the bundle's record after a change of the committing core alone. -/
theorem OnlyCore.withIss {s u : State} (h : OnlyCore s u) (hc : u.iss.core = s.iss.core) (i : Issue) (hi : i.core = s.iss.core) :
    OnlyCore s { u with iss := i } ∧ me { u with iss := i } = me u := by
  have hme : me { u with iss := i } = me u := by
    show cr u i.core = cr u u.iss.core
    rw [hi, hc]
  refine ⟨?_, hme⟩
  rw [OnlyCore, hme]
  rw [OnlyCore] at h
  generalize me u = k at h
  rw [h]
/-- CALL writes its link as any target is written, and branches by the targets that stood at issue (R83). -/
theorem call_links {s : State} {o : CallF} (h : Ready (.call o) s) : ∃ t, exec (.call o) s = .next t ∧ OnlyCore s t ∧
    t.iss = { s.iss with
      slot := s.iss.slot + 1, wrote := t.iss.wrote, redirect := some (srcB s o.t), redirected := true, bubble := bubbleOf s.iss.regs o.t } ∧
    me t = noted s (.b o.l) (((me s).setB o.l (fallOf s)).young o.l) := by
  obtain ⟨honly, hiss, hme⟩ := note_only (.b o.l) (fun k => (k.setB o.l (fallOf s)).young o.l) s
  change OnlyCore s (wrB o.l (fallOf s) s) at honly
  change (wrB o.l (fallOf s) s).iss = _ at hiss
  change me (wrB o.l (fallOf s) s) = _ at hme
  generalize hu : wrB o.l (fallOf s) s = u at honly hiss hme
  have hact : u.iss.act = true := by rw [hiss]; exact h.1
  have htarget : srcB u o.t = srcB s o.t := by rw [srcB, fallOf, hiss]; rfl
  have hexec : exec (.call o) s = .next { u with iss := { u.iss with
      slot := u.iss.slot + 1, redirect := some (srcB u o.t), redirected := true, bubble := bubbleOf u.iss.regs o.t } } := by
    rw [exec_call, execCall, runSlot_go h, hu, branchTo_eq, nextSlot_act (by exact hact)]
  obtain ⟨honly', hme'⟩ := honly.withIss (by rw [hiss]) { u.iss with
      slot := u.iss.slot + 1, redirect := some (srcB u o.t), redirected := true, bubble := bubbleOf u.iss.regs o.t } (by rw [hiss])
  refine ⟨_, hexec, honly', ?_, hme'.trans hme⟩
  dsimp only
  rw [htarget, hiss]

/-! Loops (R86). -/

/-- A LOOP or LOOPR is a slot with the checks and the effect of its count. -/
theorem loop_slot {s : State} {i : Instr} {n : BitVec 12} {count : BitVec 32}
    (hi : (∃ o, i = .loop o ∧ o.n = n ∧ o.c = count) ∨ (∃ o, i = .loopr o ∧ o.n = n ∧ (srcS s o.a).setWidth 32 = count)) :
    exec i s = runSlot i (loopFault n count s) false (loopOpen n count) s := by
  rcases hi with ⟨o, rfl, rfl, rfl⟩ | ⟨o, rfl, rfl, rfl⟩
  · exact exec_loop o s
  · exact exec_loopr o s

section
variable {s : State} {n : BitVec 12} {last : Nat} (hlast : nthUnit (me s).code n.toNat (fallOf s).toNat = some last)
include hlast

/-- A body within the segment faults only where a fifth level would open. -/
theorem loopFault_inside (count : BitVec 32) : loopFault n count s =
    if count ≠ 0 ∧ 4 ≤ activeLoops (me s) then some (trapPlain s cIllegalSchedule) else none := by
  unfold loopFault
  rw [hlast]
  simp
/-- With the count 0 the body is skipped: the unit after its last one is next. -/
theorem loopOpen_skips : loopOpen n 0 s = redirect (BitVec.ofNat 24 (last + unitLen (me s).code last)) s := by
  unfold loopOpen
  rw [if_pos rfl, hlast]

end

/-- With a count a level opens and the next unit follows. -/
theorem loopOpen_opens {s : State} {count : BitVec 32} (n : BitVec 12) (h : count ≠ 0) : loopOpen n count s =
    redirect (fallOf s) (modMe s (fun k => { k with loops := k.loops.setIfInBounds (activeLoops k) ⟨count, true, s.iss.unit⟩ })) := if_neg h

end Sys2Proof.Machine
end

section
open Sys2Proof Sys2Proof.Machine

/-- Settles O7, form by form. -/
theorem branchesCallsAndReturns : Obligations.BranchesCallsAndReturns := by
  intro s
  refine ⟨fun o => tree_falls, fun o h h0 => ?_, fun o h => ?_, fun o h => ?_⟩
  · have := tree_branches h h0
    rwa [srcB, rdB, if_neg h0, bubbleOf, if_neg h0] at this
  · rw [exec_ret, execRet, runSlot_go h]
    exact branchTo_next _ s h.1
  · obtain ⟨t, hexec, honly, hiss, hme⟩ := call_links h
    rw [setB_eq] at hme
    refine ⟨t, hexec, honly, hiss, fun f => ?_, fun n hn f => ?_, ?_⟩
    · rw [hme]
      by_cases hl : o.l = 0#3 <;> simp [noted, Core.young, rdB, hl, fallOf]
    · have := Ne.symm (toFin_ne hn)
      rw [hme]
      by_cases hl : o.l = 0#3 <;> simp [noted, Core.young, rdB, hl, Vector.getElem_set_ne _ _ this]
    · rw [hme]
      exact ⟨rfl, rfl, rfl, rfl⟩

/-- Settles O8: the fault of each count, and the effect where there is none. -/
theorem loopsOpenSkipAndTrap : Obligations.LoopsOpenSkipAndTrap := by
  intro s i n count h hi
  rw [loop_slot hi]
  refine ⟨fun last hlast => ⟨?_, fun h0 hroom => ?_, fun h0 hfull => ?_⟩, fun hnone => ?_⟩
  · rintro rfl
    rw [loopFault_inside hlast, if_neg (by simp), runSlot_go h, loopOpen_skips hlast, nextSlot_act (by exact h.1)]
    rfl
  · rw [loopFault_inside hlast, if_neg (by omega), runSlot_go h, loopOpen_opens n h0, nextSlot_act (by exact h.1)]
    have := onlyCore_of s { me s with loops := (me s).loops.setIfInBounds (activeLoops (me s)) ⟨count, true, s.iss.unit⟩ }
      { s.iss with slot := s.iss.slot + 1, redirected := true, redirect := some (fallOf s) } rfl
    exact ⟨_, rfl, this.1, rfl, this.2⟩
  · rw [loopFault_inside hlast, if_pos ⟨h0, hfull⟩]
    exact runSlot_trap h _ _ _
  · have hfault : loopFault n count s = some (trapPlain s cIllegalCode) := by unfold loopFault; rw [hnone]
    rw [hfault]
    exact runSlot_trap h _ _ _

/-- Settles O9: HALT commits by what follows its bundle, and so does a SAFE SUSPEND; without SAFE it is a slot with a fault. -/
theorem haltsAndSuspends : Obligations.HaltsAndSuspends := by
  intro s
  refine ⟨fun h => ?_, fun o h hsafe hh => ?_, fun o h hsafe => ?_⟩
  · rw [exec_halt, execHalt, runSlot_go h, nextSlot_act (by exact h.1)]
    rfl
  · have hok : (bundleSafe s.iss.bundle && !((me s).h && suspendDouble s)) = true := by rw [hsafe, hh]; rfl
    rw [exec_suspend, execSuspend, if_pos hok, runSlot_go h, nextSlot_act (by exact h.1)]
    rw [hh]
    rfl
  · rw [exec_suspend, execSuspend, hsafe, if_neg (by simp)]
    exact runSlot_trap h _ _ _

end

section
/-! PROOFS. Commands given to their engines, spawns, groups, pan configurations and TICKs (R90 to R93, R228, R233, R235, R237, R253). -/
namespace Sys2Proof.Machine

/-! A command in flight (R253, R254, R256). -/

/-- A core that has given a command with a number: its ticket is PENDING, and its ranges stand in the scoreboard. -/
def ticketed (id op : Nat) (j : BitVec 4) (b : BitVec 512) (k : Core) : Core :=
  { k.setJ j ⟨.pending, id, 0, false, false, 0⟩ with
    ranges := k.ranges ++ (cmdRanges op b).map (fun r => (⟨id, r.1, r.2.1, r.2.1 + r.2.2 - 1⟩ : Range)) }
/-- What a fresh command holds. -/
def FreshCmd (s : State) (op : Nat) (j : BitVec 4) (b : BitVec 512) (k : Cmd) : Prop :=
  k.id = s.nextId ∧ k.core = s.iss.core ∧ k.op = op ∧ k.j = some j ∧ k.block = b ∧ k.done = false ∧ k.fail = none
/-- A new command stands last in the list, and changes the core that gives it and the counter besides. -/
theorem newCmd_eq (op : Nat) (j : BitVec 4) (b : BitVec 512) (cfl : Option CflSt) (s : State) : ∃ k, FreshCmd s op j b k ∧
    newCmd op j b cfl s = modMe { s with cmds := s.cmds ++ [k], nextId := s.nextId + 1 } (ticketed s.nextId op j b) :=
  ⟨_, ⟨rfl, rfl, rfl, rfl, rfl, rfl, rfl⟩, rfl⟩
@[simp] theorem newCmd_iss (op : Nat) (j : BitVec 4) (b : BitVec 512) (cfl : Option CflSt) (s : State) : (newCmd op j b cfl s).iss = s.iss := rfl
@[simp] theorem newCmd_regions (op : Nat) (j : BitVec 4) (b : BitVec 512) (cfl : Option CflSt) (s : State) :
    (newCmd op j b cfl s).regions = s.regions := rfl
@[simp] theorem me_newCmd (op : Nat) (j : BitVec 4) (b : BitVec 512) (cfl : Option CflSt) (s : State) :
    me (newCmd op j b cfl s) = ticketed s.nextId op j b (me s) := me_modMe _ _
/-- A command without ranges of L leaves the scoreboard as it was. -/
theorem ticketed_none {op : Nat} {b : BitVec 512} (h : cmdRanges op b = []) (id : Nat) (j : BitVec 4) (k : Core) :
    ticketed id op j b k = k.setJ j ⟨.pending, id, 0, false, false, 0⟩ := by
  unfold ticketed
  rw [h, List.map_nil, List.append_nil]
  rfl
/-- The core's ticket after a command. -/
theorem jOf_ticketed {t : State} {id op : Nat} {j : BitVec 4} {b : BitVec 512} {k : Core} (h : (me t).j = (ticketed id op j b k).j) :
    jOf t j = ⟨.pending, id, 0, false, false, 0⟩ := by
  unfold jOf
  rw [h]
  exact Vector.getElem_set_self j.toFin.isLt

/-- The last slot of a change: the core is as the change leaves it. -/
theorem me_nextSlot (s : State) : me (nextSlot s) = me s := rfl
theorem slotDone_of {s t : State} (hact : s.iss.act = true) (h : t.iss = s.iss) : SlotDone s (nextSlot t) := by
  rw [nextSlot_act (by rw [h]; exact hact), SlotDone, h]

/-! SPAWN (R90, R228). -/

theorem eFault_none {s : State} {a n : Nat} (ha : a % n = 0) (hroom : a < 4503599627370496) : eFault s a n = none := by
  rw [eFault, if_neg (by simp [ha]), if_neg (by omega)]
/-- A publication of the committing core leaves it without unpublished writes, and everything but memory and what is sent as it was. -/
theorem publishFwd_me (s : State) (scope : Nat) : let x := (publishFwd s s.iss.core scope).1
    x.iss = s.iss ∧ x.cmds = s.cmds ∧ me x = { me s with unpub := [], mine := (me s).mine ||| 2 ^ s.pubs.length } ∧
    x.mem = s.mem.wrPairs (unpublished (me s)) ∧
    x.pubs = s.pubs ++ [⟨.core s.iss.core, domMask s s.iss.core scope, (me s).incl ||| (me s).mine ||| agentMask (.core s.iss.core) s.pubs 1,
      unpublished (me s)⟩] := by
  obtain ⟨n, a, o, q, h⟩ := publishFwd_law s s.iss.core scope
  dsimp only
  rw [h]
  exact ⟨rfl, rfl, Vector.getElem_set_self s.iss.core.isLt, rfl, rfl⟩
/-- SPAWN gives a command that hands over its record, behind the acknowledgements of what it has published (R90, R228). -/
def spawned (o : CmdF) (s : State) : State :=
  let x := publishFwd s s.iss.core 3
  let u := newCmd opSpawn o.j (BitVec.ofNat 512 (srcS s o.a).toNat) none x.1
  { u with cmds := u.cmds.map (fun k => if k.id + 1 = u.nextId then { k with acks := x.2 } else k) }
theorem spawn_commits {s : State} {o : CmdF} (h : Ready (.spawn o) s) (ha : (srcS s o.a).toNat % 64 = 0)
    (hroom : (srcS s o.a).toNat < 4503599627370496) (hphase : phaseStall s = false) (hcmds : s.cmds.countP (fun k => k.core == s.iss.core) < 64) :
    exec (.spawn o) s = .next (nextSlot (spawned o s)) := by
  rw [exec_spawn, execSpawn, eFault_none ha hroom, hphase, decide_eq_false (by omega)]
  exact runSlot_go h _
theorem spawned_law (o : CmdF) (s : State) : let t := spawned o s
    t.iss = s.iss ∧
    (∃ k, t.cmds = s.cmds.map (fun c => if c.id = k.id then { c with acks := k.acks } else c) ++ [k] ∧
      k.op = opSpawn ∧ k.j = some o.j ∧ k.core = s.iss.core ∧ k.block = BitVec.ofNat 512 (srcS s o.a).toNat ∧ k.done = false ∧
      me t = { (me s).setJ o.j ⟨.pending, k.id, 0, false, false, 0⟩ with unpub := [], mine := (me s).mine ||| 2 ^ s.pubs.length }) ∧
    t.pubs = s.pubs ++ [⟨.core s.iss.core, domMask s s.iss.core 3, (me s).incl ||| (me s).mine ||| agentMask (.core s.iss.core) s.pubs 1,
      unpublished (me s)⟩] ∧
    t.mem = s.mem.wrPairs (unpublished (me s)) := by
  obtain ⟨hiss, hcmds, hme, hmem, hpubs⟩ := publishFwd_me s 3
  unfold spawned
  dsimp only
  generalize publishFwd s s.iss.core 3 = x at *
  obtain ⟨k, ⟨hid, hcore, hop, hj, hblock, hdone, _⟩, hnew⟩ := newCmd_eq opSpawn o.j (BitVec.ofNat 512 (srcS s o.a).toNat) none x.1
  refine ⟨hiss, ⟨{ k with acks := x.2 }, ?_, hop, hj, by rw [← hiss]; exact hcore, hblock, hdone, ?_⟩, hpubs, hmem⟩
  · rw [hnew]
    show (x.1.cmds ++ [k]).map (fun k => if k.id + 1 = x.1.nextId + 1 then { k with acks := x.2 } else k) = _
    rw [List.map_append, hcmds, List.map_singleton, if_pos (by rw [hid])]
    simp only [Nat.add_right_cancel_iff, hid]
  · show me (newCmd opSpawn o.j (BitVec.ofNat 512 (srcS s o.a).toNat) none x.1) = _
    rw [me_newCmd, ticketed_none rfl, hme, ← hid]
    rfl

/-! Groups (R91 to R93). -/

/-- JOIN puts its record's lane in flight with its scalar empty (R91). -/
def joining (o : JoinF) (s : State) : State :=
  let x := openLane false true 0 64 (srcS s o.a).toNat none (emptyS o.d s)
  launchPend (.join (srcS s o.a).toNat) [.s o.d] (x.1.iss.t + 1) 0 0 [x.2] x.1
theorem join_commits {s : State} {o : JoinF} (h : Ready (.join o) s) (hf : grpFault s (srcS s o.a).toNat = none) :
    exec (.join o) s = .next (nextSlot (joining o s)) := (exec_join o s).trans (runSlot_unfaulted h hf _)
theorem joining_law (o : JoinF) {s : State} (hact : s.iss.act = true) :
    ∃ ls, OnlyCoreAndWalks s (nextSlot (joining o s)) ∧ SlotDone s (nextSlot (joining o s)) ∧ Noted (.s o.d) s (nextSlot (joining o s)) ∧
      FrameS s (nextSlot (joining o s)) o.d ∧
      InFlight s (nextSlot (joining o s)) (.join (srcS s o.a).toNat) [.s o.d] 0 [(0, gAddr (srcS s o.a).toNat, 64)] ls := by
  obtain ⟨hcore, hiss, hme⟩ := note_only (.s o.d) (fun k => k.setS o.d ⟨rdS k.regs o.d, false⟩) s
  change OnlyCore s (emptyS o.d s) at hcore
  change (emptyS o.d s).iss = _ at hiss
  change me (emptyS o.d s) = _ at hme
  obtain ⟨hwalk, hlane, _⟩ := openLane_law false true 0 64 ((srcS s o.a).toNat : Int) none (emptyS o.d s)
  unfold joining
  dsimp only
  generalize openLane false true 0 64 ((srcS s o.a).toNat : Int) none (emptyS o.d s) = x at hwalk hlane
  have ht : x.1.iss.t = s.iss.t := by rw [hwalk.iss, hiss]
  rw [ht]
  obtain ⟨honly, hdone, hme'⟩ := walks_then hact hcore _ hiss hwalk
    (fun k => launched (.join (srcS s o.a).toNat) [.s o.d] (s.iss.t + 1) 0 [x.2] k)
  change OnlyCoreAndWalks s (nextSlot (launchPend _ _ _ _ _ _ _)) at honly
  change SlotDone s (nextSlot (launchPend _ _ _ _ _ _ _)) at hdone
  change me (nextSlot (launchPend _ _ _ _ _ _ _)) = _ at hme'
  rw [hme] at hme'
  have hfailed : ∀ k : Core, moreFailed [] k = k := fun k => by rw [moreFailed, List.append_nil]
  obtain ⟨hnoted, hframe⟩ := frameS_of o.d _ _ _ _ [] (hme'.trans (by rw [hfailed]))
  refine ⟨[x.2], honly, hdone, hnoted, hframe, ?_, ?_, .cons hlane .nil⟩
  · rw [hme', setS_eq]; rfl
  · rw [hme', setS_eq]; rfl

/-- LEAVE of a group that is not the task's own does nothing (R92). -/
theorem leave_other {s : State} {o : EaF} (h : Ready (.leave o) s) (hjoin : joinPending (me s) = false)
    (hg : (me s).group ≠ some (srcS s o.a).toNat) :
    CommitsOnly s (exec (.leave o) s) := by
  rw [exec_leave, execLeave, decide_eq_false hg, hjoin, CommitsOnly]
  refine (runSlot_go h _).trans ?_
  rw [if_neg hg, nextSlot_act h.1]
/-- LEAVE of the task's own group ends its membership and its lock-step (R92). -/
theorem leave_own {s : State} {o : EaF} (h : Ready (.leave o) s) (hjoin : joinPending (me s) = false)
    (hg : (me s).group = some (srcS s o.a).toNat) (hx : grpXlate s (srcS s o.a).toNat = none) (hmiss : grpMiss s (srcS s o.a).toNat = false)
    (hpart : (partOf s s.iss.core).isSome = true) :
    ∃ t, exec (.leave o) s = .next t ∧ SlotDone s t ∧ ∃ fo, me t = { me s with group := none, member := 0, lock := false, follow := fo } := by
  obtain ⟨hiss, fo, hcr⟩ := leave_law s s.iss.core _ hg hpart
  refine ⟨nextSlot (leaveGroup s.iss.core s), ?_, slotDone_of h.1 hiss, fo, ?_⟩
  · rw [exec_leave, execLeave, decide_eq_true hg, hjoin, hx, hmiss, if_pos rfl]
    exact (runSlot_go h _).trans (by rw [if_pos hg])
  · show cr _ (leaveGroup s.iss.core s).iss.core = _
    rw [hiss]
    exact hcr

/-- BAR clears the footprint table, and the arrival follows the bundle (R93). -/
theorem bar_commits {s : State} {o : EaF} (h : Ready (.bar o) s) (hf : barFault s (srcS s o.a).toNat = none) (hphase : phaseStall s = false)
    (hjoin : joinPending (me s) = false) (hmiss : grpMiss s (srcS s o.a).toNat = false) :
    ∃ t, exec (.bar o) s = .next t ∧ OnlyCore s t ∧
      t.iss = { s.iss with slot := s.iss.slot + 1, stop := s.iss.stop.andThen (.arrive (srcS s o.a).toNat .none) } ∧ me t = clearFoot (me s) := by
  have hexec : exec (.bar o) s = .next (nextSlot (modIss (modMe s clearFoot) (fun i => { i with
      stop := i.stop.andThen (.arrive (srcS s o.a).toNat .none) }))) := by
    rw [exec_bar, execBar, hf, hphase, hjoin, hmiss]
    exact runSlot_go h _
  rw [nextSlot_act (by exact h.1)] at hexec
  have hcore := onlyCore_of s (clearFoot (me s))
    { s.iss with stop := s.iss.stop.andThen (.arrive (srcS s o.a).toNat .none), slot := s.iss.slot + 1 } rfl
  exact ⟨_, hexec, hcore.1, rfl, hcore.2⟩
/-- BAR traps in handler mode (R319). -/
theorem bar_traps {s : State} {o : EaF} (h : Ready (.bar o) s) (hh : (me s).h = true) :
    exec (.bar o) s = .next (takeTrap (trapPlain s cIllegalSchedule) s) := by
  rw [exec_bar, execBar, barFault, if_pos hh]
  exact runSlot_trap h _ _ _

/-! Pan configurations (R235). -/

/-- The module with a region configured or released, before the command's ticket. -/
def regionsSet (s : State) (a : Nat) : State := if (panDesc (panBlock s a)).rel then panRelease a s else panConfig a s
/-- The effect of a PANCFG. -/
def configured (o : CmdF) (s : State) : State :=
  newCmd opPancfg o.j (panBlock s (srcS s o.a).toNat) none (modMe (regionsSet s (srcS s o.a).toNat) (fun k => { k with asks := [] }))
theorem pancfg_commits {s : State} {o : CmdF} (h : Ready (.pancfg o) s) (hf : pancfgFault s (srcS s o.a).toNat = none)
    (hs : pancfgStall s (srcS s o.a).toNat = false) : exec (.pancfg o) s = .next (nextSlot (configured o s)) := by
  rw [exec_pancfg, execPancfg, hf, hs]
  exact runSlot_go h _
/-- A configuration or a release changes no core and nothing of the bundle. -/
theorem configured_law (o : CmdF) {s : State} (hcores : (regionsSet s (srcS s o.a).toNat).cores = s.cores)
    (hiss : (regionsSet s (srcS s o.a).toNat).iss = s.iss) : (configured o s).iss = s.iss ∧
    (configured o s).regions = (regionsSet s (srcS s o.a).toNat).regions ∧ (jOf (configured o s) o.j).st = .pending ∧
    me (configured o s) = { (me s).setJ o.j (jOf (configured o s) o.j) with asks := [] } := by
  have hme : me (regionsSet s (srcS s o.a).toNat) = me s := by unfold me; rw [hiss]; exact cr_of_cores hcores _
  have hcore : me (configured o s) = ticketed (regionsSet s (srcS s o.a).toNat).nextId opPancfg o.j (panBlock s (srcS s o.a).toNat)
      { me s with asks := [] } := by
    rw [configured, me_newCmd, me_modMe, hme]
    rfl
  have hj := jOf_ticketed (t := configured o s) (congrArg Core.j hcore)
  refine ⟨hiss, rfl, by rw [hj], ?_⟩
  rw [hj, hcore, ticketed_none rfl]
  rfl
/-- A release that passes the checks has its region (R235). -/
theorem release_region {s : State} {a : Nat} (hf : pancfgFault s a = none) (hs : pancfgStall s a = false)
    (hr : (panDesc (panBlock s a)).rel = true) : ∃ r, regionBase s (panDesc (panBlock s a)).base = some r := by
  have hrange : panRange s a = false := by
    simp only [pancfgStall, Bool.or_eq_false_iff] at hs
    exact hs.1.1.1
  rw [← Option.isSome_iff_exists]
  by_contra hno
  simp only [pancfgFault, hrange, hr, hno, Bool.false_eq_true, if_false, if_true] at hf
  split at hf
  · cases hf
  · split at hf
    · cases hf
    · split at hf <;> cases hf
theorem regionsSet_releases {s : State} {a : Nat} {r : Region} (hr : (panDesc (panBlock s a)).rel = true)
    (hreg : regionBase s (panDesc (panBlock s a)).base = some r) : (regionsSet s a).cores = s.cores ∧ (regionsSet s a).iss = s.iss ∧
    (regionsSet s a).regions = s.regions.filter (fun x => x.id ≠ r.id) := by
  obtain ⟨hcores, hiss, _⟩ := dropFlag_law r s
  rw [regionsSet, if_pos hr, panRelease, hreg]
  exact ⟨hcores, hiss, rfl⟩
theorem regionsSet_configures {s : State} {a : Nat} (hf : pancfgFault s a = none) (hs : pancfgStall s a = false)
    (hr : (panDesc (panBlock s a)).rel = false) : (regionsSet s a).cores = s.cores ∧ (regionsSet s a).iss = s.iss ∧
    ∃ r ∈ (regionsSet s a).regions, (∀ x ∈ (regionsSet s a).regions, x = r ∨ x ∈ s.regions) ∧
      r.part = myPart s ∧ r.base = (panDesc (panBlock s a)).base ∧ r.desc = panBlock s a ∧ r.n = 0 ∧ r.ticks = [] ∧
      r.membs = List.replicate (panDesc (panBlock s a)).nmem (newMemb (panDesc (panBlock s a))) := by
  obtain ⟨locs, hpages⟩ := pan_ok hf hs hr
  obtain ⟨r, hcores, hiss, hmem, hold, hrest⟩ := panConfig_law s a locs hpages
  rw [regionsSet, if_neg (by rw [hr]; decide)]
  exact ⟨hcores, hiss, r, hmem, hold, hrest⟩
/-- Either way no core and nothing of the bundle changes. -/
theorem regionsSet_keeps {s : State} {a : Nat} (hf : pancfgFault s a = none) (hs : pancfgStall s a = false) :
    (regionsSet s a).cores = s.cores ∧ (regionsSet s a).iss = s.iss := by
  cases hr : (panDesc (panBlock s a)).rel
  · obtain ⟨hcores, hiss, _⟩ := regionsSet_configures hf hs hr
    exact ⟨hcores, hiss⟩
  · obtain ⟨r, hreg⟩ := release_region hf hs hr
    obtain ⟨hcores, hiss, _⟩ := regionsSet_releases hr hreg
    exact ⟨hcores, hiss⟩

/-! TICKs (R237). -/

/-- A TICK waits last at its region, under its ticket. -/
def ticked (o : CmdF) (r : Region) (s : State) : State :=
  modRegion r.id (fun x => { x with ticks := x.ticks ++ [(s.iss.core, s.nextId)] })
    (newCmd opTick o.j (BitVec.ofNat 512 (srcS s o.a).toNat) none s)
theorem tick_commits {s : State} {o : CmdF} {r : Region} (h : Ready (.tick o) s) (hr : regionBase s (srcS s o.a).toNat = some r)
    (hcmds : s.cmds.countP (fun k => k.core == s.iss.core) < 64) (hroom : r.ticks.length + r.late.length < 4) :
    exec (.tick o) s = .next (nextSlot (ticked o r s)) := by
  have hfault : tickFault s (srcS s o.a).toNat = none := by rw [tickFault, hr]; rfl
  have hstall : tickStall s (srcS s o.a).toNat = false := by
    rw [tickStall, hr, decide_eq_false (by omega)]
    simpa using hroom
  rw [exec_tick, execTick, hfault, hstall]
  refine (runSlot_go h _).trans ?_
  dsimp only
  rw [hr]
  rfl
theorem ticked_law (o : CmdF) (r : Region) (s : State) : (ticked o r s).iss = s.iss ∧ (jOf (ticked o r s) o.j).st = .pending ∧
    me (ticked o r s) = (me s).setJ o.j (jOf (ticked o r s) o.j) := by
  have hcore : me (ticked o r s) = ticketed s.nextId opTick o.j (BitVec.ofNat 512 (srcS s o.a).toNat) (me s) := me_newCmd _ _ _ _ s
  have hj := jOf_ticketed (t := ticked o r s) (congrArg Core.j hcore)
  refine ⟨rfl, by rw [hj], ?_⟩
  rw [hj, hcore, ticketed_none rfl]

end Sys2Proof.Machine
end

section
open Sys2Proof Sys2Proof.Machine

/-- Settles O26, form by form: what a SPAWN publishes and gives, the lane of a JOIN, LEAVE and BAR, the regions after a PANCFG, and the
TICK at its region. -/
theorem groupsRegionsAndTicks : Obligations.GroupsRegionsAndTicks := by
  refine ⟨fun s => ⟨fun o h ha hroom hphase hcmds => ?_, fun o h hf => ?_, fun o h hjoin => ⟨leave_other h hjoin, fun hg hx hmiss hpart => ?_⟩,
    fun o => bar_commits, fun o => bar_traps⟩, fun s o b hb => ?_⟩
  · obtain ⟨hiss, ⟨k, hlist, hop, hj, hcore, hblock, hdone, hme⟩, hpubs, hmem⟩ := spawned_law o s
    exact ⟨_, k, k.id, spawn_commits h ha hroom hphase hcmds, slotDone_of h.1 hiss, hlist, rfl, hop, hj, hcore, hblock, hdone, hme, hpubs, hmem⟩
  · obtain ⟨ls, honly, hdone, hnoted, hframe, hflight⟩ := joining_law o h.1
    exact ⟨_, ls, join_commits h hf, honly, hdone, hnoted, hframe, hflight⟩
  · obtain ⟨t, hexec, hdone, fo, hme⟩ := leave_own h hjoin hg hx hmiss hpart
    exact ⟨t, hexec, hdone, by rw [hme], by rw [hme], by rw [hme], by rw [hme]⟩
  · obtain rfl : b = panBlock s (srcS s o.a).toNat := hb
    refine ⟨fun h hf hs hr => ?_, fun h hf hs hr => ?_, fun h ha => ?_, fun r h hr hcmds hroom => ?_⟩
    · obtain ⟨hcores, hiss, r, hmem, hold, hpart, hbase, hdesc, hn, hticks, hmembs⟩ := regionsSet_configures hf hs hr
      obtain ⟨hiss', hregs, hj, hme⟩ := configured_law o hcores hiss
      rw [← hregs] at hmem hold
      exact ⟨_, r, pancfg_commits h hf hs, slotDone_of h.1 hiss', hmem, hpart, hbase, hdesc, hn, hticks, hmembs, hold, hj, hme⟩
    · obtain ⟨r, hreg⟩ := release_region hf hs hr
      obtain ⟨hcores, hiss, hgone⟩ := regionsSet_releases hr hreg
      obtain ⟨hiss', hregs, hj, hme⟩ := configured_law o hcores hiss
      exact ⟨_, r, pancfg_commits h hf hs, slotDone_of h.1 hiss', hreg, hregs.trans hgone, hj, hme⟩
    · rw [exec_pancfg, execPancfg, pancfgFault, if_pos ha]
      exact runSlot_trap h _ _ _
    · obtain ⟨hiss, hj, hme⟩ := ticked_law o r s
      exact ⟨_, tick_commits h hr hcmds hroom, slotDone_of h.1 hiss, hj, rfl, hme⟩

end

section
/-! PROOFS. Slots that commit when they are ready, each with its own effect (R90 to R93, R147, R163 to R183, R228 to R233, R253). -/
namespace Sys2Proof.Machine

/-! A slot that commits. -/

/-- A slot that changes nothing of the bundle but its list of written registers commits, and the next one follows. -/
theorem commits_next {i : Instr} {s u : State} {effect : State → Prop} (hact : s.iss.act = true) (hexec : exec i s = .next (nextSlot u))
    (hiss : ∃ r, u.iss = { s.iss with wrote := r }) (heff : effect (nextSlot u)) : Commits s i effect := by
  obtain ⟨r, hr⟩ := hiss
  refine ⟨_, hexec, ?_, heff⟩
  rw [nextSlot_act (by rw [hr]; exact hact), hr]
theorem commits_done {i : Instr} {s t : State} {effect : State → Prop} (hexec : exec i s = .next t) (hdone : SlotDone s t) (heff : effect t) :
    Commits s i effect := ⟨t, hexec, congrArg Issue.slot hdone, heff⟩
theorem commits_becomes {i : Instr} {s : State} {k : Core} {effect : Core → Prop} (h : Becomes s (exec i s) k) (heff : effect k) :
    Commits s i (fun t => effect (me t)) := by
  obtain ⟨t, hexec, _, hdone, hme⟩ := h
  exact commits_done hexec hdone (by rw [hme]; exact heff)
theorem commits_writesS {i : Instr} {s : State} {d : BitVec 6} {x : W64} (h : WritesS s (exec i s) d x) :
    Commits s i (fun t => rdS (me t).regs d = if d = 0 then 0 else x) := by
  obtain ⟨t, hexec, _, hdone, _, hval, _⟩ := h
  exact commits_done hexec hdone hval
theorem commits_writesP {i : Instr} {s : State} {d : BitVec 5} {x : Bool} (h : WritesP s (exec i s) d x) :
    Commits s i (fun t => rdP (me t).regs d = if d = 0 then true else x) := by
  obtain ⟨t, hexec, _, hdone, _, hval, _⟩ := h
  exact commits_done hexec hdone hval
theorem commits_writesB {i : Instr} {s : State} {d : BitVec 3} {x : CAddr} (h : WritesB s (exec i s) d x) :
    Commits s i (fun t => ∀ f, rdB (me t).regs f d = if d = 0 then f else x) := by
  obtain ⟨t, hexec, _, hdone, _, hval, _⟩ := h
  exact commits_done hexec hdone hval
theorem commits_writesZ {i : Instr} {s : State} {d : BitVec 2} {x : Tile} (h : WritesZ s (exec i s) d x) :
    Commits s i (fun t => rdZ (me t).regs d = x) := by
  obtain ⟨t, hexec, _, hdone, _, hval, _⟩ := h
  exact commits_done hexec hdone hval
theorem commits_flightV {i : Instr} {s : State} {d : BitVec 6} {tag : Tag} {due : Nat} {x : VBits} {f : BitVec 7}
    (h : FlightV s (exec i s) d tag due x f) :
    Commits s i (fun t => ∃ x, (me t).pend = (me s).pend ++ [⟨(me s).seq, .calc, [.v d], due, x, 0, []⟩]) := by
  obtain ⟨t, hexec, _, hdone, _, _, hpend, _⟩ := h
  exact commits_done hexec hdone ⟨_, hpend⟩

/-! Special functions and DRAIN (R147, R176). -/

/-- Each special function is the shared form with a function of its own. -/
theorem special_form {o : VaOneF} {i : Instr} (hi : i ∈ [.vexp2 o, .vlog2 o, .vrcp o, .vrsq o, .vsqrt o]) (s : State) :
    ∃ f, exec i s = vSpecial i o f s := by
  simp only [List.mem_cons, List.not_mem_nil, or_false] at hi
  rcases hi with rfl | rfl | rfl | rfl | rfl
  · exact ⟨_, exec_vexp2 o s⟩
  · exact ⟨_, exec_vlog2 o s⟩
  · exact ⟨_, exec_vrcp o s⟩
  · exact ⟨_, exec_vrsq o s⟩
  · exact ⟨_, exec_vsqrt o s⟩
theorem special_commits {o : VaOneF} {i : Instr} {s : State} (hi : i ∈ [.vexp2 o, .vlog2 o, .vrcp o, .vrsq o, .vsqrt o]) (h : Ready i s)
    (htag : (srcV s o.a).tag = o.fmt) :
    Commits s i (fun t => ∃ x, (me t).pend = (me s).pend ++ [⟨(me s).seq, .calc, [.v o.d], s.iss.t + 16, x, 0, []⟩]) := by
  obtain ⟨f, hf⟩ := special_form hi s
  have hok : tagsAre s o.fmt [o.a] = none := by simp [tagsAre, htag]
  rw [vSpecial, hok] at hf
  exact commits_flightV (hf ▸ runSlot_flightV h o.d o.fmt 16 _ _)
theorem drain_commits {o : DrainF} {s : State} (h : Ready (.drain o) s) (htag : (srcZ s o.z).tag ≠ 0) :
    Commits s (.drain o) (fun t => ∃ x, (me t).pend = (me s).pend ++ [⟨(me s).seq, .calc, [.v o.d], s.iss.t + 10, x, 0, []⟩]) := by
  have hexec := exec_drain o s
  rw [execDrain, if_neg htag] at hexec
  exact commits_flightV (hexec ▸ runSlot_flightV h o.d o.fmt 10 _ _)

/-! The weight latch (R165 to R169). -/

theorem wld_commits {o : WldF} {s : State} (h : Ready (.wld o) s) (hgate : gateOf s = false)
    (hrow : wldIndex s o < (if o.fmt = 9 then 2048 else 1024)) (hfresh : refreshing (cycleAt s s.iss.core s.iss.t) (wldRow s o) = false)
    (hgood : ∀ c i, c < 64 → i < 12 → (me s).badW.contains (granuleKey c (wldRow s o) i) = false) :
    Commits s (.wld o) (fun t => (me t).wfmt = o.fmt ∧ (me t).wat = s.iss.t) := by
  have hfault : wldFault s o = none := by rw [wldFault, hgate, if_neg (by simpa using hrow)]
  have hgran : ∀ i ∈ wldGranules s o, i < 12 := by
    intro i hi
    unfold wldGranules at hi
    split at hi
    · obtain ⟨j, hj, rfl⟩ := List.mem_map.1 hi
      have := mem_upto.1 hj
      omega
    · exact mem_upto.1 hi
  have hfind : (upto 64).find? (fun c => (wldGranules s o).any (fun i => (me s).badW.contains (granuleKey c (wldRow s o) i))) = none := by
    rw [List.find?_eq_none]
    intro c hc
    rw [Bool.not_eq_true, List.any_eq_false]
    intro i hi
    rw [hgood c i (mem_upto.1 hc) (hgran i hi)]
    decide
  have hexec := exec_wld o s
  rw [execWld, hfault, hfresh, runSlot_go h, hfind] at hexec
  exact commits_becomes (effect := fun k => k.wfmt = o.fmt ∧ k.wat = s.iss.t) (k := { me s with
    wlatch := Vector.ofFn (fun c => latchRow o.fmt (wldIndex s o) (sliceRow (me s) c.val (wldRow s o))), wfmt := o.fmt, wat := s.iss.t })
    (hexec ▸ becomes _ s h.1) ⟨rfl, rfl⟩

/-! Tiles and their streams (R163 to R179). -/

/-- A written tile reads as it was written. -/
theorem rdZ_wrZ (d : BitVec 2) (x : Tile) (s : State) : rdZ (me (wrZ d x s)).regs d = x := by
  rw [wrZ, (note_only (.z d) (fun k => k.setZ d x) s).2.2]
  exact Vector.getElem_set_self d.toFin.isLt
theorem wrZ_iss (d : BitVec 2) (x : Tile) (s : State) : (wrZ d x s).iss = { s.iss with wrote := .z d :: s.iss.wrote } :=
  (note_only (.z d) (fun k => k.setZ d x) s).2.1
@[simp] theorem me_setFlags_regs (f : BitVec 7) (s : State) : (me (setFlags f s)).regs = (me s).regs := by
  rw [setFlags, me_modMe]
@[simp] theorem me_advQ_regs (q : BitVec 4) (n : Nat) (s : State) : (me (advQ q n s)).regs = (me s).regs := by
  rw [advQ, me_modMe]; rfl
@[simp] theorem me_markQ_regs (q : BitVec 4) (s : State) : (me (markQ q s)).regs = (me s).regs := by
  rw [markQ, me_modMe]; rfl
@[simp] theorem setFlags_iss (f : BitVec 7) (s : State) : (setFlags f s).iss = s.iss := rfl
@[simp] theorem advQ_iss (q : BitVec 4) (n : Nat) (s : State) : (advQ q n s).iss = s.iss := rfl
@[simp] theorem markQ_iss (q : BitVec 4) (s : State) : (markQ q s).iss = s.iss := rfl
/-- A stream moved on and marked as checked. -/
theorem qOf_markQ_advQ (q : BitVec 4) (n : Nat) (s : State) : qOf (markQ q (advQ q n s)) q = { advance n (qOf s q) with checked := true } := by
  unfold qOf markQ advQ Core.setQ
  rw [me_modMe, me_modMe]
  simp
/-- A spill writes L and nothing else of the core. -/
theorem spillGo_keeps (z : Tile) (q : BitVec 4) : ∀ (k n : Nat) (s : State), (spillGo z q k n s).iss = s.iss ∧ (me (spillGo z q k n s)).q = (me s).q
  | 0, _, _ => ⟨rfl, rfl⟩
  | k + 1, n, s => by
    obtain ⟨hiss, hq⟩ := spillGo_keeps z q k (n + 1) (wrL (elAddr (qOf s q) n) 384 (spillElem z n).toNat s)
    exact ⟨hiss, hq.trans (by rw [wrL, me_modMe])⟩

theorem zclr_commits {o : ZF} {s : State} (h : Ready (.zclr o) s) :
    Commits s (.zclr o) (fun t => rdZ (me t).regs o.z = ⟨Vector.replicate 64 0, 0, 0⟩) :=
  commits_writesZ (exec_zclr o s ▸ runSlot_writesZ h o.z (fun _ => Tile.reset))
theorem zrot_commits {o : ZrotF} {s : State} (h : Ready (.zrot o) s) :
    Commits s (.zrot o) (fun t => (rdZ (me t).regs o.z).cur = BitVec.ofNat 6 (((srcZ s o.z).cur.toNat + o.k.toNat) % 64)) := by
  have hexec := exec_zrot o s
  rw [execZrot] at hexec
  obtain ⟨t, hexec, hslot, hz⟩ := commits_writesZ (hexec ▸ runSlot_writesZ h o.z _)
  refine ⟨t, hexec, hslot, ?_⟩
  dsimp only
  rw [hz]
  apply BitVec.eq_of_toNat_eq
  simp
theorem beat_commits {o : BeatF} {s : State} (h : Ready (.beat o) s) (hf : beatFault s o = none) (hs : beatStall s o = false) :
    Commits s (.beat o) (fun t => rdZ (me t).regs o.z = beatTile o (beatMode o.fmt (me s).wfmt o.int) (srcZ s o.z)
      ((upto 64).map (beatCol s o (beatMode o.fmt (me s).wfmt o.int) (if beatMode o.fmt (me s).wfmt o.int = 2 then [] else beatOps s o)))) := by
  have hexec := exec_beat o s
  rw [execBeat, hf, hs, runSlot_go h] at hexec
  refine commits_next h.1 hexec ?_ ?_
  · dsimp only
    split <;> exact ⟨_, wrZ_iss _ _ _⟩
  · rw [me_nextSlot]
    dsimp only
    split <;> simp only [me_markQ_regs, me_advQ_regs, me_setFlags_regs, rdZ_wrZ]
/-- A slot that spills k elements and moves its stream on by n. -/
theorem spills_commits {i : Instr} {s : State} {z : Tile} {q : BitVec 4} {n k : Nat} (hact : s.iss.act = true)
    (hexec : exec i s = .next (nextSlot (markQ q (advQ q n (spillGo z q k 0 s))))) :
    Commits s i (fun t => qOf t q = { advance n (qOf s q) with checked := true }) := by
  obtain ⟨hiss, hq⟩ := spillGo_keeps z q k 0 s
  refine commits_next hact hexec ⟨_, hiss⟩ ?_
  rw [qOf, me_nextSlot, ← qOf, qOf_markQ_advQ, qOf, hq, ← qOf]
theorem zspill_commits {o : ZqF} {s : State} (h : Ready (.zspill o) s) (hf : zqFault s o.q true = none) (hs : streamStall s o.q true 65 = false) :
    Commits s (.zspill o) (fun t => qOf t o.q = { advance 65 (qOf s o.q) with checked := true }) := by
  have hexec := exec_zspill o s
  rw [execZspill, hf, hs] at hexec
  exact spills_commits h.1 (hexec.trans (runSlot_go h _))
theorem zfill_commits {o : ZqF} {s : State} (h : Ready (.zfill o) s) (hf : zqFault s o.q false = none) (hs : streamStall s o.q false 65 = false) :
    Commits s (.zfill o) (fun t => rdZ (me t).regs o.z = (fillTile (fun n => BitVec.ofNat 3072 (streamElem s o.q n))).1) := by
  have hexec := exec_zfill o s
  rw [execZfill, hf, hs, runSlot_go h] at hexec
  refine commits_next h.1 hexec ⟨_, wrZ_iss _ _ _⟩ ?_
  rw [me_nextSlot]
  simp only [me_markQ_regs, me_advQ_regs, me_setFlags_regs, rdZ_wrZ]

/-! Commands given to their engines (R253). -/

/-- A command with its engine: its ticket is PENDING, and it stands last in the list of commands. -/
def Given (s : State) (op : Nat) (j : BitVec 4) (t : State) : Prop :=
  (jOf t j).st = .pending ∧ ∃ k, t.cmds = s.cmds ++ [k] ∧ k.op = op ∧ k.core = s.iss.core ∧ k.done = false
/-- Each command is the shared form with its number and what its collective begins with. -/
theorem command_form {o : CmdF} {x : Instr × Nat} (hx : x ∈ [(.cpy o, 0x01), (.cpyw o, 0x02), (.rkgath o, 0x05), (.rkseg o, 0x06), (.rill o, 0x07),
    (.cflAr o, 0x08), (.cflRs o, 0x09), (.cflAg o, 0x0A), (.cflBc o, 0x0B), (.send o, 0x0C), (.recv o, 0x0D)]) (s : State) :
    ∃ cfl, exec x.1 s = cmdOut x.1 x.2 o (fun _ => cfl) s := by
  simp only [List.mem_cons, List.not_mem_nil, or_false] at hx
  rcases hx with rfl | rfl | rfl | rfl | rfl | rfl | rfl | rfl | rfl | rfl | rfl
  · exact ⟨none, exec_cpy o s⟩
  · exact ⟨none, exec_cpyw o s⟩
  · exact ⟨none, exec_rkgath o s⟩
  · exact ⟨none, exec_rkseg o s⟩
  · exact ⟨none, exec_rill o s⟩
  · exact ⟨some cflStart, exec_cflAr o s⟩
  · exact ⟨some cflStart, exec_cflRs o s⟩
  · exact ⟨some cflStart, exec_cflAg o s⟩
  · exact ⟨some cflStart, exec_cflBc o s⟩
  · exact ⟨none, exec_send o s⟩
  · exact ⟨none, exec_recv o s⟩
theorem newCmd_given (op : Nat) (j : BitVec 4) (b : BitVec 512) (cfl : Option CflSt) (s : State) : Given s op j (nextSlot (newCmd op j b cfl s)) := by
  obtain ⟨k, ⟨_, hcore, hop, _, _, hdone, _⟩, hnew⟩ := newCmd_eq op j b cfl s
  refine ⟨?_, k, by rw [hnew]; rfl, hop, hcore, hdone⟩
  rw [jOf_ticketed (congrArg Core.j ((me_nextSlot _).trans (me_newCmd op j b cfl s)))]
theorem command_commits {o : CmdF} {s : State} {i : Instr} {op : Nat} {cfl : Option CflSt} (hexec : exec i s = cmdOut i op o (fun _ => cfl) s)
    (h : Ready i s) (hf : cmdFault s op (srcS s o.a).toNat = none) (hs : cmdStall s op (srcS s o.a).toNat = false) :
    Commits s i (Given s op o.j) := by
  rw [cmdOut, hf, hs, runSlot_go h] at hexec
  exact commits_done hexec (slotDone_of h.1 rfl) (newCmd_given _ _ _ _ _)

/-! The transpose queue (R180). -/

theorem tileFault_none {s : State} {a : Nat} {wr : Bool} (ha : a % 64 = 0) (hroom : a + 2048 ≤ 8388608)
    (hfoot : footCovers (me s).foot 2 wr a (a + 2047) = true) : tileFault s a wr = none := by
  rw [tileFault, if_neg (by simpa using ha), inL_ok hroom, if_neg (by decide), if_pos hfoot]
theorem rangesFull_false {k : Core} (h : k.ranges.length < 64) : rangesFull k = false := decide_eq_false (by omega)
theorem tqSoon_false {s : State} (h : ∀ c, (me s).tqAt = some c → c + 4 ≤ s.iss.t) : tqSoon s = false := by
  unfold tqSoon
  split
  · rfl
  · next c hc =>
    have := h c hc
    exact decide_eq_false (by omega)
theorem tqpush_commits {o : EaF} {s : State} {a : Nat} (h : Ready (.tqpush o) s) (ha : a = (srcS s o.a).toNat) (halign : a % 64 = 0)
    (hroom : a + 2048 ≤ 8388608) (hranges : (me s).ranges.length < 64) (hfoot : footCovers (me s).foot 2 false a (a + 2047) = true)
    (hlen : (me s).tq.length < 8) (hsoon : ∀ c, (me s).tqAt = some c → c + 4 ≤ s.iss.t) (hhit : rangeHit (me s) false a 2048 = false) :
    Commits s (.tqpush o) (fun t => (me t).tq = (me s).tq ++ [⟨BitVec.ofNat 16384 ((me s).l.rdN a 2048), s.iss.t⟩]) := by
  subst ha
  have hexec := exec_tqpush o s
  rw [execTqpush, tileFault_none halign hroom hfoot, if_pos hlen, tqSoon_false hsoon, rangesFull_false hranges, hhit] at hexec
  exact commits_becomes (effect := fun k => k.tq = (me s).tq ++ [⟨BitVec.ofNat 16384 ((me s).l.rdN (srcS s o.a).toNat 2048), s.iss.t⟩])
    (hexec.trans (runSlot_go h _) ▸ becomes _ s h.1) rfl
theorem tqpop_commits {o : EaF} {s : State} {a : Nat} {e : TqE} {r : List TqE} (h : Ready (.tqpop o) s) (ha : a = (srcS s o.a).toNat)
    (halign : a % 64 = 0) (hroom : a + 2048 ≤ 8388608) (hranges : (me s).ranges.length < 64)
    (hfoot : footCovers (me s).foot 2 true a (a + 2047) = true) (htq : (me s).tq = e :: r) (hold : e.at_ + 40 ≤ s.iss.t)
    (hhit : rangeHit (me s) true a 2048 = false) : Commits s (.tqpop o) (fun t => (me t).tq = r) := by
  subst ha
  have hready : tqReady s = true := by rw [tqReady, htq]; exact decide_eq_true hold
  have hexec := exec_tqpop o s
  rw [execTqpop, tileFault_none halign hroom hfoot, if_pos hready, rangesFull_false hranges, hhit] at hexec
  replace hexec := hexec.trans (runSlot_go h _)
  simp only [htq] at hexec
  exact commits_becomes (effect := fun k => k.tq = r) (hexec ▸ becomes _ s h.1) rfl

/-! Footprints and tickets (R230, R256). -/

theorem foot_commits {o : FootF} {s : State} (h : Ready (.foot o) s) (hn : (srcS s o.b).toNat ≠ 0)
    (hroom : (srcS s o.a).toNat + (srcS s o.b).toNat ≤ 8388608) (hlen : (me s).foot.length < 32)
    (hapart : ∀ e ∈ (me s).foot, e.eng ≠ o.eng →
      (srcS s o.a).toNat + (srcS s o.b).toNat ≤ e.lo ∨ e.hi < (srcS s o.a).toNat ∨ (o.wr = false ∧ e.wr = false)) :
    Commits s (.foot o) (fun t => (me t).foot.length = (me s).foot.length + 1) := by
  have hany : (me s).foot.any (fun e => e.eng != o.eng &&
      overlap (srcS s o.a).toNat ((srcS s o.a).toNat + (srcS s o.b).toNat - 1) e.lo e.hi && (o.wr || e.wr)) = false := by
    rw [List.any_eq_false]
    intro e he hclash
    simp only [Bool.and_eq_true, bne_iff_ne, ne_eq, overlap, decide_eq_true_eq, Bool.or_eq_true] at hclash
    obtain ⟨⟨heng, hlo, hhi⟩, hwr⟩ := hclash
    rcases hapart e he heng with hbelow | habove | ⟨ho, he'⟩
    · omega
    · omega
    · simp [ho, he'] at hwr
  have hfault : footFault s o = none := by
    simp only [footFault]
    rw [if_neg hn, inL_ok hroom, if_neg (by decide), hany, if_neg (by decide), if_neg (by omega)]
  have hexec := exec_foot o s
  rw [execFoot, hfault, runSlot_go h] at hexec
  simp only [if_neg hn] at hexec
  exact commits_becomes (effect := fun k => k.foot.length = (me s).foot.length + 1) (hexec ▸ becomes _ s h.1) List.length_append
theorem jwait_commits {o : JwaitF} {s : State} (h : Ready (.jwait o) s) (hpending : (jOf s o.j).st ≠ .pending) (hfailed : (jOf s o.j).st ≠ .failed) :
    Commits s (.jwait o) (fun t => me t = me s) := by
  have hfault : jwaitFault s o.j = none := if_neg hfailed
  have hexec := exec_jwait o s
  rw [execJwait, hfault, beq_eq_false_iff_ne.2 hpending, runSlot_go h] at hexec
  exact commits_done hexec (slotDone_of h.1 rfl) rfl
theorem jpoll_commits {o : JpollF} {s : State} (h : Ready (.jpoll o) s) :
    Commits s (.jpoll o) (fun t => rdP (me t).regs o.p = if o.p = 0 then true else decide ((jOf s o.j).st ≠ .pending)) := by
  have hne : decide ((jOf s o.j).st ≠ .pending) = ((jOf s o.j).st != .pending) := by
    cases (jOf s o.j).st <;> decide
  rw [hne]
  exact commits_writesP (exec_jpoll o s ▸ runSlot_writesP h o.p _)

/-! SETC (R77). -/

theorem setc_effect {o : SetcF} {s : State} (h : Ready (.setc o) s) : Commits s (.setc o) (fun t =>
    (o.c = 5 → (me t).srkey = srcS s o.a) ∧ (o.c = 7 → (me t).flags = (srcS s o.a).setWidth 7) ∧ (o.c = 8 → (me t).sel = (srcS s o.a).setWidth 8)) := by
  obtain ⟨t, hexec, _, hdone, hme⟩ := setc_commits h
  refine commits_done hexec hdone ⟨fun hc => ?_, fun hc => ?_, fun hc => ?_⟩ <;> rw [hme, hc] <;> rfl

end Sys2Proof.Machine
end

section
open Sys2Proof Sys2Proof.Machine

/-- Settles O59, form by form. -/
theorem slotFormsCommitWhenReady : Obligations.SlotFormsCommitWhenReady := by
  intro s
  refine ⟨fun o h => commits_writesB (exec_prepLabel o s ▸ runSlot_writesB h o.b _), fun o h => commits_writesB (exec_prepReg o s ▸ runSlot_writesB h o.b _),
    fun o h => commits_writesS (exec_getc o s ▸ runSlot_writesS h o.d _), fun o => setc_effect, fun o i => special_commits,
    fun o n h hgate hn hrow hfresh hgood => ?_, fun o => drain_commits, fun o => zclr_commits, fun o => zrot_commits, fun o => beat_commits,
    fun o => zspill_commits, fun o => zfill_commits, fun o x hx h hf hs => ?_, fun o a ha halign hroom hranges =>
      ⟨fun h => tqpush_commits h ha halign hroom hranges, fun e r h => tqpop_commits h ha halign hroom hranges⟩,
    fun o => foot_commits, fun o => jwait_commits, fun o => jpoll_commits, fun o h ha hroom hphase hcmds => ?_, fun o h hf => ?_,
    fun o h hjoin hg hx hmiss hpart => ?_, fun o h hf hphase hjoin hmiss => ?_, fun o h hf hs => ?_, fun o r h hr hcmds hroom => ?_⟩
  · subst hn
    exact wld_commits h hgate hrow hfresh hgood
  · obtain ⟨cfl, hexec⟩ := command_form hx s
    exact command_commits hexec h hf hs
  · obtain ⟨hiss, ⟨k, _, _, _, _, _, _, hme⟩, _⟩ := spawned_law o s
    refine commits_done (spawn_commits h ha hroom hphase hcmds) (slotDone_of h.1 hiss) ⟨?_, by rw [me_nextSlot, hme]⟩
    rw [jOf, me_nextSlot, hme]
    exact congrArg Ticket.st (Vector.getElem_set_self o.j.toFin.isLt)
  · obtain ⟨ls, _, hdone, _, _, hpend, _⟩ := joining_law o h.1
    exact commits_done (join_commits h hf) hdone ⟨_, hpend, rfl, rfl⟩
  · obtain ⟨t, hexec, hdone, fo, hme⟩ := leave_own h hjoin hg hx hmiss hpart
    exact commits_done hexec hdone (by rw [hme]; exact ⟨rfl, rfl⟩)
  · obtain ⟨t, hexec, _, hiss, hme⟩ := bar_commits h hf hphase hjoin hmiss
    exact ⟨t, hexec, congrArg Issue.slot hiss, congrArg Core.foot hme, congrArg Issue.stop hiss⟩
  · obtain ⟨hcores, hiss⟩ := regionsSet_keeps hf hs
    obtain ⟨hiss', _, hj, _⟩ := configured_law o hcores hiss
    exact commits_done (pancfg_commits h hf hs) (slotDone_of h.1 hiss') hj
  · obtain ⟨hiss, hj, _⟩ := ticked_law o r s
    exact commits_done (tick_commits h hr hcmds hroom) (slotDone_of h.1 hiss) hj

end

section
/-! PROOFS. Stream registers: BIND, UNBIND, QSKIP and QSTAT, and vectors through streams (R96 to R102, R203). -/
namespace Sys2Proof.Machine

/-! The slot instructions of a stream register (R97 to R100). -/

/-- A valid descriptor in L binds the register at position 0 (R97). -/
theorem bind_becomes {o : BindF} {s : State} (h : Ready (.bind o) s) (halign : (srcS s o.a).toNat % 32 = 0)
    (hroom : (srcS s o.a).toNat + 32 ≤ 8388608) (hvalid : (descOf (bindDesc s (srcS s o.a).toNat)).valid = true)
    (hranges : rangeHit (me s) false (srcS s o.a).toNat 32 = false) :
    Becomes s (exec (.bind o) s) ((me s).setQ o.q ⟨true, o.wr, bindDesc s (srcS s o.a).toNat, 0, false⟩) := by
  have hfault : bindFault s (srcS s o.a).toNat = none := by simp [bindFault, lCheck_ok halign hroom, hvalid]
  rw [exec_bind, execBind, hfault, hranges, runSlot_go h]
  exact becomes (fun k => k.setQ o.q ⟨true, o.wr, bindDesc s (srcS s o.a).toNat, 0, false⟩) s h.1
theorem unbind_becomes {o : UnbindF} {s : State} (h : Ready (.unbind o) s) : Becomes s (exec (.unbind o) s) ((me s).setQ o.q Stream.reset) := by
  rw [exec_unbind, execUnbind, runSlot_go h]
  exact becomes (fun k => k.setQ o.q Stream.reset) s h.1
/-- A skip within the pattern, or around one that wraps, advances the stream (R99). -/
theorem qskip_becomes {o : QskipF} {s : State} (h : Ready (.qskip o) s) (hbound : (qOf s o.q).bound = true)
    (hroom : (descOf (qOf s o.q).desc).wrap = true ∨
      (qOf s o.q).pos.toNat + (srcS s o.a).toNat % 2 ^ 48 ≤ (descOf (qOf s o.q).desc).total) :
    Becomes s (exec (.qskip o) s) ((me s).setQ o.q (advance ((srcS s o.a).toNat % 2 ^ 48) (qOf s o.q))) := by
  have hfault : qskipFault s o.q ((srcS s o.a).toNat % 2 ^ 48) = none := by
    rcases hroom with hwrap | hle
    · simp [qskipFault, hbound, hwrap]
    · simp only [qskipFault, hbound, Bool.not_true, Bool.false_eq_true, if_false, decide_eq_false (Nat.not_lt.2 hle), Bool.and_false]
  rw [exec_qskip, execQskip, hfault, runSlot_go h]
  exact becomes (fun k => k.setQ o.q (advance ((srcS s o.a).toNat % 2 ^ 48) k.q[o.q.toFin])) s h.1
theorem qskip_unbound {o : QskipF} {s : State} (h : Ready (.qskip o) s) (hbound : (qOf s o.q).bound = false) :
    exec (.qskip o) s = .next (takeTrap (trapPlain s cStreamFault) s) := by
  have hfault : qskipFault s o.q ((srcS s o.a).toNat % 2 ^ 48) = some (trapPlain s cStreamFault) := by simp [qskipFault, hbound]
  rw [exec_qskip, execQskip, hfault]
  exact runSlot_trap h _ _ _

/-! QSTAT's value (R100). -/

theorem qstatVal_unbound {s : State} {q : BitVec 4} (h : (qOf s q).bound = false) : qstatVal s q = 0 := by simp [qstatVal, h]
/-- A count of 48 bits with flags above it: the count and the first three flags. -/
theorem count_with_flags {n : Nat} (hn : n < 2 ^ 48) (a b c : Bool) :
    let x := w64 (n + 2 ^ 48 + a.toNat * 2 ^ 49 + b.toNat * 2 ^ 50 + c.toNat * 2 ^ 51)
    x.toNat % 2 ^ 48 = n ∧ x.getLsbD 48 = true ∧ x.getLsbD 49 = a ∧ x.getLsbD 50 = b := by
  have ha := Bool.toNat_le a
  have hb := Bool.toNat_le b
  have hc := Bool.toNat_le c
  have hx : (w64 (n + 2 ^ 48 + a.toNat * 2 ^ 49 + b.toNat * 2 ^ 50 + c.toNat * 2 ^ 51)).toNat =
      n + 2 ^ 48 + a.toNat * 2 ^ 49 + b.toNat * 2 ^ 50 + c.toNat * 2 ^ 51 := by
    rw [w64, BitVec.toNat_ofNat, Nat.mod_eq_of_lt (by omega)]
  simp only [BitVec.getLsbD, hx, Nat.testBit_eq_decide_div_mod_eq]
  refine ⟨by omega, decide_eq_true (by omega), ?_, ?_⟩
  · cases a <;> simp only [Bool.toNat_true, Bool.toNat_false, decide_eq_true_eq, decide_eq_false_iff_not] at ha ⊢ <;> omega
  · cases b <;> simp only [Bool.toNat_true, Bool.toNat_false, decide_eq_true_eq, decide_eq_false_iff_not] at hb ⊢ <;> omega
/-- A bound register's elements left, its direction and its wrapping. -/
theorem qstatVal_bound {s : State} {q : BitVec 4} (hbound : (qOf s q).bound = true)
    (hleft : (descOf (qOf s q).desc).total - (qOf s q).pos.toNat < 2 ^ 48) :
    (qstatVal s q).toNat % 2 ^ 48 = (descOf (qOf s q).desc).total - (qOf s q).pos.toNat ∧ (qstatVal s q).getLsbD 48 = true ∧
      (qstatVal s q).getLsbD 49 = (qOf s q).wr ∧ (qstatVal s q).getLsbD 50 = (descOf (qOf s q).desc).wrap := by
  unfold qstatVal
  dsimp only
  rw [if_neg (by simp [hbound]), if_pos hleft]
  exact count_with_flags hleft _ _ _

/-! A vector element of a stream (R101, R102). -/

/-- The next element of a bound stream, which is there in its direction under its tag. -/
theorem streamFault_none {s : State} {q : BitVec 4} {wr : Bool} {tag len : Nat} (hbound : (qOf s q).bound = true) (hdir : (qOf s q).wr = wr)
    (htag : (descOf (qOf s q).desc).tag = tag) (hlen : (descOf (qOf s q).desc).len = len)
    (hroom : (descOf (qOf s q).desc).wrap = true ∨ (qOf s q).pos.toNat + 1 ≤ (descOf (qOf s q).desc).total) :
    streamFault s q wr tag len 1 = none := by
  rcases hroom with hwrap | hle
  · simp [streamFault, streamCause, hbound, hdir, htag, hlen, hwrap]
  · simp [streamFault, streamCause, hbound, hdir, htag, hlen, Nat.lt_of_succ_le hle]
/-- No element is left of a pattern that does not wrap. -/
theorem streamFault_end {s : State} {q : BitVec 4} {wr : Bool} {tag len : Nat} (hbound : (qOf s q).bound = true) (hdir : (qOf s q).wr = wr)
    (htag : (descOf (qOf s q).desc).tag = tag) (hlen : (descOf (qOf s q).desc).len = len) (hwrap : (descOf (qOf s q).desc).wrap = false)
    (hend : (descOf (qOf s q).desc).total < (qOf s q).pos.toNat + 1) :
    streamFault s q wr tag len 1 = some (trapPlain s cStreamFault) := by
  simp [streamFault, streamCause, hbound, hdir, htag, hlen, hwrap, hend]
/-- One element waits for the ranges over its bytes (R103). -/
theorem streamStall_one (s : State) (q : BitVec 4) (wr : Bool) :
    streamStall s q wr 1 = rangeHit (me s) wr (elAddr (qOf s q) 0) (descOf (qOf s q).desc).len := by simp [streamStall, upto]

/-- A core whose stream q has gone on by n elements. -/
def advanced (q : BitVec 4) (n : Nat) (k : Core) : Core := k.setQ q (advance n k.q[q.toFin])
theorem advQ_eq (q : BitVec 4) (n : Nat) (s : State) : advQ q n s = modMe s (advanced q n) := rfl
/-- A write of a v register while a stream goes on is one change of the core, and its note. -/
theorem advQ_wrV (q : BitVec 4) (n : Nat) (d : BitVec 6) (x : VBits) (t : Tag) (s : State) :
    advQ q n (wrV d x t s) = note (.v d) (modMe s (fun k => advanced q n (k.setV d ⟨x, t, true⟩))) :=
  noted_then (.v d) (fun k => k.setV d ⟨x, t, true⟩) (advanced q n) s (fun _ => rfl)
/-- A vector load through a stream takes the next element and moves the stream on. -/
theorem vldlStream_takes {o : VldlQF} {s : State} (h : Ready (.vldlStream o) s) (hfault : streamFault s o.q false o.t.toNat 256 1 = none)
    (hstall : streamStall s o.q false 1 = false) :
    ∃ t, exec (.vldlStream o) s = .next t ∧ OnlyCore s t ∧ SlotDone s t ∧ Noted (.v o.d) s t ∧
      rdV (me t).regs o.d = ⟨BitVec.ofNat 2048 ((me s).l.rdN (elAddr (qOf s o.q) 0) 256), o.t, true⟩ ∧
      (∀ n, n ≠ o.d → rdV (me t).regs n = rdV (me s).regs n) ∧
      me t = { (me s).setQ o.q (advance 1 (qOf s o.q)) with regs := { (me s).regs with v := (me t).regs.v }, latch := (me t).latch } := by
  obtain ⟨honly, hdone, hme⟩ := next_note_modMe (.v o.d)
    (fun k => advanced o.q 1 (k.setV o.d ⟨BitVec.ofNat 2048 ((me s).l.rdN (elAddr (qOf s o.q) 0) 256), o.t, true⟩)) s h.1
  refine ⟨_, ?_, honly, hdone, ?_⟩
  · rw [exec_vldlStream, execVldlStream, hfault, hstall, runSlot_go h, advQ_wrV]
  · rw [Noted, hme]
    refine ⟨rfl, Vector.getElem_set_self o.d.toFin.isLt, fun n hn => ?_, rfl⟩
    exact Vector.getElem_set_ne o.d.toFin.isLt n.toFin.isLt (Ne.symm (toFin_ne hn))

/-- The granules of L that are uncorrectable still when the lanes of a vector at an address have been stored (R329). -/
def unhealed (a : Nat) (on bad : List Nat) : List Nat :=
  bad.filter (fun g => !(decide (a ≤ 8 * g) && on.contains ((8 * g - a) / 4) && on.contains ((8 * g - a) / 4 + 1)))
theorem healPairs_eq (a : Nat) (on : List Nat) (s : State) : healPairs a on s = modMe s (fun k => { k with badL := unhealed a on k.badL }) := rfl
/-- The lanes of a vector in L, the granules that they heal, and a stream that goes on: one change of the core. -/
theorem storeLanes_advances (a : Nat) (v : VBits) (on : List Nat) (q : BitVec 4) (s : State) :
    ∃ (m : Mem) (bad : List Nat), advQ q 1 (healPairs a on (storeLanes a v on s)) = modMe s (fun k => { advanced q 1 k with l := m, badL := bad }) ∧
      (∀ b, (∀ i ∈ on, b < a + 4 * i ∨ a + 4 * i + 4 ≤ b) → m.rd b = (me s).l.rd b) ∧
      (on.Pairwise (· ≠ ·) → ∀ i ∈ on, m.rdN (a + 4 * i) 4 = (laneOf v i).toNat) := by
  obtain ⟨m, bad, hstore, hout, hin⟩ := storeLanes_eq a v on s
  refine ⟨m, unhealed a on bad, ?_, hout, hin⟩
  rw [hstore, advQ_eq, healPairs_eq]
  exact (congrArg (fun t => modCr t s.iss.core (advanced q 1)) (modCr_modCr s s.iss.core _ _)).trans (modCr_modCr s s.iss.core _ _)
/-- A vector store through a stream puts its enabled lanes into the next element and moves the stream on. -/
theorem vstlStream_puts {o : VstlQF} {s : State} (h : Ready (.vstlStream o) s)
    (hfault : streamFault s o.q true (srcV s o.v).tag.toNat 256 1 = none) (hstall : streamStall s o.q true 1 = false) :
    ∃ t, exec (.vstlStream o) s = .next t ∧ OnlyCore s t ∧ SlotDone s t ∧
      me t = { (me s).setQ o.q (advance 1 (qOf s o.q)) with l := (me t).l, badL := (me t).badL } ∧
      (∀ i, i < 64 → (srcM s o.m).getLsbD i = true →
        (me t).l.rdN (elAddr (qOf s o.q) 0 + 4 * i) 4 = (laneOf (srcV s o.v).bits i).toNat) ∧
      (∀ b, (∀ i, i < 64 → (srcM s o.m).getLsbD i = true → b < elAddr (qOf s o.q) 0 + 4 * i ∨ elAddr (qOf s o.q) 0 + 4 * i + 4 ≤ b) →
        (me t).l.rd b = (me s).l.rd b) := by
  obtain ⟨m, bad, hstore, hout, hin⟩ := storeLanes_advances (elAddr (qOf s o.q) 0) (srcV s o.v).bits (lanesOn (srcM s o.m)) o.q s
  obtain ⟨t, ht, honly, hdone, hme⟩ := becomes (fun k => { advanced o.q 1 k with l := m, badL := bad }) s h.1
  refine ⟨t, ?_, honly, hdone, ?_⟩
  · rw [exec_vstlStream, execVstlStream, hfault, hstall, runSlot_go h, hstore]
    exact ht
  · rw [hme]
    exact ⟨rfl, fun i hi hon => hin (lanes_nodup _) i ((mem_lanes _ i).2 ⟨hi, hon⟩),
      fun b hb => hout b fun i hi => let ⟨hlt, hon⟩ := (mem_lanes _ i).1 hi; hb i hlt hon⟩

end Sys2Proof.Machine
end

section
open Sys2Proof Sys2Proof.Machine

/-- Settles O14, instruction by instruction. -/
theorem streamsBindSkipAndCount : Obligations.StreamsBindSkipAndCount := by
  intro s
  refine ⟨fun o => bind_becomes, fun o => unbind_becomes, fun o n h hn hbound hroom => ?_, fun o => qskip_unbound, fun o h => ?_⟩
  · subst hn
    exact qskip_becomes h hbound hroom
  · refine ⟨qstatVal s o.q, exec_qstat o s ▸ runSlot_writesS h o.d _, qstatVal_unbound, fun hbound _ hfits => qstatVal_bound hbound ?_⟩
    omega

/-- Settles O15: an element that is there is taken or put, and past the end of the pattern both trap. -/
theorem streamsCarryVectors : Obligations.StreamsCarryVectors := by
  rintro s q d a hbound rfl hlen rfl
  have hstall : ∀ wr, streamStall s q wr 1 = rangeHit (me s) wr (elAddr (qOf s q) 0) 256 := fun wr => hlen ▸ streamStall_one s q wr
  refine ⟨?_, ?_, ?_, ?_⟩
  · rintro o rfl h hdir htag hroom hranges
    exact vldlStream_takes h (streamFault_none hbound hdir htag hlen hroom) ((hstall false).trans hranges)
  · rintro o rfl h hdir htag hroom hranges
    exact vstlStream_puts h (streamFault_none hbound hdir htag hlen hroom) ((hstall true).trans hranges)
  · rintro o rfl h hdir htag hwrap hend
    rw [exec_vldlStream, execVldlStream, streamFault_end hbound hdir htag hlen hwrap hend]
    exact runSlot_trap h _ _ _
  · rintro o rfl h hdir htag hwrap hend
    rw [exec_vstlStream, execVstlStream, streamFault_end hbound hdir htag hlen hwrap hend]
    exact runSlot_trap h _ _ _

end

section
/-! PROOFS. Delta takes up tasks, enters spawns, and asks for yields (R106 to R111). -/
namespace Sys2Proof.Machine

/-! Pickup (R110). -/

theorem rdS_setS {d : BitVec 6} (hd : d ≠ 0) (k : Core) (x : W64) (n : BitVec 6) :
    rdS (k.setS d ⟨x, true⟩).regs n = if n = d then x else rdS k.regs n := by
  rw [setS_eq, if_neg hd]
  by_cases h : n = d
  · subst h
    simp only [rdS, if_neg hd, if_true]
    exact congrArg SReg.val (Vector.getElem_set_self n.toFin.isLt)
  · rw [if_neg h, rdS, rdS]
    exact congrArg (fun r : SReg => if n = 0 then 0 else r.val) (Vector.getElem_set_ne d.toFin.isLt n.toFin.isLt (Ne.symm (toFin_ne h)))
theorem queueOf_modTask (p : PartId) (rec_ : Nat) (f : Task → Task) (q : BitVec 6) (s : State) :
    queueOf (modTask p rec_ f s) p q = queueOf s p q := by
  unfold queueOf modTask
  rw [pt_modPt_same]
/-- A core takes up a task for the first time: from k it becomes k', with the argument in s1 and all other registers reset (R54, R57). -/
def TakesUp (t : Task) (argp now : Nat) (k k' : Core) : Prop :=
  k'.running = true ∧ k'.rec_ = t.rec_ ∧ k'.pickedAt = now ∧ k'.wait = .none ∧ k'.h = false ∧
  k'.regs = { Regs.reset with s := k'.regs.s } ∧ (∀ n, rdS k'.regs n = if n = 1 then w64 argp else rdS Regs.reset n) ∧ k'.l = k.l
/-- From s, core c of partition p has taken up the task, which has left its queue; nothing but cores and partitions has changed. -/
def Places (c : CoreId) (p : PartId) (t : Task) (argp : Nat) (s u : State) : Prop :=
  TakesUp t argp s.now (cr s c) (cr u c) ∧ (∀ d, d ≠ c → cr u d = cr s d) ∧
  (queueOf u p t.queue).ready = (queueOf s p t.queue).ready.filter (fun x => x.1 ≠ t.rec_) ∧
  u = { s with cores := u.cores, parts := u.parts }
/-- The start of a task: its core takes it up, and its record is written last. -/
theorem startTask_places (c : CoreId) (p : PartId) (t : Task) (argp : Nat) (s : State) :
    ∃ u, startTask c p t (.start argp) s = recPut p t.rec_ 0x18 24 4 2 u ∧ Places c p t argp s u := by
  refine ⟨_, rfl, ?_, fun d hd => ?_, ?_, rfl⟩
  · rw [cr_setCr_at, if_pos rfl]
    refine ⟨rfl, rfl, rfl, rfl, rfl, rfl, rdS_setS (by decide) (freshCore _) (w64 argp), ?_⟩
    show (cr (refresh s c 3) c).l = _
    rw [refresh, cr_modCr_at, if_pos rfl]
  · rw [cr_setCr_at, if_neg hd]
    show cr (refresh s c 3) d = _
    rw [refresh, cr_modCr_at, if_neg hd]
  · show (queueOf (modTask p t.rec_ _ (modQueue p t.queue _ (refresh s c 3))) p t.queue).ready = _
    rw [queueOf_modTask, queue_set]
    rfl
/-- The queue q of a priority has been served last (R110). -/
def servedLast (prio : Nat) (q : BitVec 6) (k : Part) : Part := { k with lastq := k.lastq.setIfInBounds prio q }
/-- Delta's next choice, a task of no gang whose record starts afresh, is started. -/
theorem pickup_places {c : CoreId} {p : PartId} {s : State} {q : BitVec 6} {t : Task} {argp : Nat} (hnext : nextChoice s p = some (q, t))
    (hgang : t.gang = none) (hread : readTask s p t.rec_ = .start argp) :
    ∃ u, pickup c p s = askYield p (recPut p t.rec_ 0x18 24 4 2 u) ∧ Places c p t argp s u := by
  let w := modPt s p (servedLast (queueOf s p q).prio.toNat q)
  have hpick : pickup c p s = askYield p (startTask c p t (.start argp) w) := by
    simp only [pickup, hnext, hgang, takeUp, hread, List.map_cons, List.map_nil]
    rfl
  have hqueue : queueOf w p t.queue = queueOf s p t.queue := by
    rw [queueOf, queueOf, pt_modPt_same]
    rfl
  obtain ⟨u, hstart, htakes, hrest, hready, hframe⟩ := startTask_places c p t argp w
  exact ⟨u, by rw [hpick, hstart], htakes, hrest, by rw [hready, hqueue], hframe⟩

/-! Spawns that wait (R106 to R108). -/

theorem drainSpawns_waits {s : State} {p : PartId} {sp : Spawn} {r : List Spawn} {x : Nat} {y : Nat × Bool} (n : Nat)
    (hsp : (pt s p).spawns = sp :: r) (hwait : sp.wait = some (some x, y)) : drainSpawns p (n + 1) s = s := by
  rw [drainSpawns, hsp]
  dsimp only
  rw [hwait]
theorem drainSpawns_none {s : State} {p : PartId} (n : Nat) (h : (pt s p).spawns = []) : drainSpawns p n s = s := by
  cases n with
  | zero => rfl
  | succ n => rw [drainSpawns, h]
/-- A packet that waits alone leaves nothing behind once the kernel is over, but the negative answer that it is owed. -/
theorem drainSpawns_refuses {s : State} {p : PartId} {sp : Spawn} (hsp : (pt s p).spawns = [sp]) (hwait : sp.wait = none)
    (hcmd : sp.cmd = none) (hrun : (pt s p).running = false) :
    drainSpawns p 2 s = modPt (if sp.owed then nack s else s) p (fun k => { k with spawns := [] }) := by
  have hanswer : answerSpawn p sp s = (if sp.owed then nack s else s, none) := by simp [answerSpawn, hcmd, hrun]
  rw [drainSpawns, hsp]
  dsimp only
  rw [hwait]
  dsimp only
  rw [hanswer]
  dsimp only
  exact drainSpawns_none 1 (by rw [pt_modPt_same])
/-- A packet that waits alone and can enter does. -/
theorem drainSpawns_enters {s e : State} {p : PartId} {sp : Spawn} (hsp : (pt s p).spawns = [sp]) (hwait : sp.wait = none)
    (hcmd : sp.cmd = none) (howed : sp.owed = false) (hrun : (pt s p).running = true) (htry : spawnTry p sp s = (e, .entered)) :
    drainSpawns p 2 s = modPt e p (fun k => { k with spawns := [] }) := by
  have hanswer : answerSpawn p sp s = (s, some sp) := by simp [answerSpawn, hcmd, hrun, howed]
  have hsame : modPt s p (fun k => { k with spawns := [sp] }) = s := modPt_id (by rw [← hsp])
  rw [drainSpawns, hsp]
  dsimp only
  rw [hwait]
  dsimp only
  rw [hanswer]
  dsimp only
  rw [hsame, htry]
  dsimp only
  rw [hcmd]
  exact drainSpawns_none 1 (by rw [pt_modPt_same])

theorem bits_low (x n : Nat) : bits x 0 n = x % 2 ^ n := by simp [bits]
theorem ofNat_bits (x lo n : Nat) : BitVec.ofNat n (bits x lo n) = BitVec.ofNat n (x / 2 ^ lo) := by
  apply BitVec.eq_of_toNat_eq
  simp [bits]
/-- A record of a valid queue of its priority, with no footprint and no list of dependants, enters with no predecessor. -/
theorem spawnTry_enters {s : State} {p : PartId} {sp : Spawn} {loc : Nat} {q : BitVec 6} {pr : BitVec 3}
    (hloc : dloc s p sp.rec_ false = .ok loc) (hclean : badColumn s loc 64 = none) (hdl : (pt s p).dl = none)
    (hq : q = BitVec.ofNat 6 (s.mem.rdN (loc + 0x18) 8 / 2 ^ 38)) (hpr : pr = BitVec.ofNat 3 (s.mem.rdN (loc + 0x18) 8 / 2 ^ 35))
    (hvalid : (queueOf s p q).valid = true) (htearing : (queueOf s p q).tearing = false) (hprio : (queueOf s p q).prio = pr)
    (hfoot : s.mem.rdN (loc + 0x20) 8 % 2 ^ 52 = 0) (hdepl : s.mem.rdN (loc + 0x30) 8 % 2 ^ 52 = 0) :
    spawnTry p sp s = (enterSpawn p sp q pr (s.mem.rdN (loc + 0x28) 8 % 2 ^ 52) [] [] 0 0 s, .entered) := by
  have hchoice : sluiceChoice s p q = .run := by simp [sluiceChoice, hdl]
  have hpreds : predsOf s p [] = [] := by simp [predsOf]
  have hmiss : depMiss s p [] = none := rfl
  unfold spawnTry
  dsimp only
  rw [hloc]
  dsimp only
  simp only [hclean, ofNat_bits, bits_low, ← hq, ← hpr, hvalid, htearing, hprio, hchoice, hfoot, hdepl]
  simp [hpreds, hmiss]

theorem freshRecord_delta (p : PartId) (sp : Spawn) (n : Nat) (s : State) : DeltaOnly s (freshRecord p sp n s) := by
  have hput : ∀ {u : State} (off lo k x : Nat), DeltaOnly s u → DeltaOnly s (recPut p sp.rec_ off lo k x u) :=
    fun off lo k x h => h.trans (recPut_delta p sp.rec_ off lo k x _)
  have hpart := recPut_delta p sp.rec_ 0x18 28 7 p.val s
  unfold freshRecord
  cases sp.restore
  · simp only [Bool.false_eq_true, if_false]
    iterate 9 refine hput _ _ _ _ ?_
    exact hpart
  · simp only [if_true]
    exact hput _ _ _ _ (hput _ _ _ _ hpart)
theorem sluiceNote_none {s : State} {p : PartId} (had : Bool) (q : BitVec 6) (h : (pt s p).dl = none) : sluiceNote p had q s = s := by
  simp [sluiceNote, h]
/-- A task that becomes READY stands at the tail of its queue; its record is written last (R109). -/
theorem makeReady_delta {s : State} {p : PartId} {rec_ : Nat} {t : Task} (h : taskOf s p rec_ = some t) :
    DeltaOnly (modQueue p t.queue (fun q => { q with ready := q.ready ++ [(rec_, s.now)] })
      (modTask p rec_ (fun t => { t with st := stReady, core := none }) s)) (makeReady p rec_ s) := by
  unfold makeReady
  rw [h]
  exact recPut_delta _ _ _ _ _ _ _
/-- The last task, whose record no earlier one has, becomes READY. -/
theorem makeReady_last {s : State} {p : PartId} {old : List Task} {t : Task} (htasks : (pt s p).tasks = old ++ [t]) (hlive : t.live = true)
    (hnew : ∀ u ∈ old, u.rec_ ≠ t.rec_) :
    let m := makeReady p t.rec_ s
    m.cores = s.cores ∧ (pt m p).tasks = old ++ [{ t with st := stReady, core := none }] ∧
      (queueOf m p t.queue).ready = (queueOf s p t.queue).ready ++ [(t.rec_, s.now)] := by
  have hst : t.st.toNat < 3 := of_decide_eq_true hlive
  have hfind : taskOf s p t.rec_ = some t := by
    have hold : old.find? (fun u => u.rec_ == t.rec_ && decide (u.st.toNat < 3)) = none :=
      List.find?_eq_none.2 fun u hu => by simp [hnew u hu]
    rw [taskOf, htasks, List.find?_append, hold, Option.none_or]
    simp [hst]
  obtain ⟨hcores, -, -, hparts, -⟩ := makeReady_delta hfind
  obtain ⟨late, hpt⟩ := hparts p
  refine ⟨hcores, ?_, ?_⟩
  · have hmap : old.map (fun u => if u.rec_ = t.rec_ && decide (u.st.toNat < 3) then { u with st := stReady, core := none } else u) = old :=
      (List.map_congr_left fun u hu => if_neg (by simp [hnew u hu])).trans (List.map_id _)
    obtain ⟨qs, hqs⟩ := pt_modQueue p t.queue (fun q => { q with ready := q.ready ++ [(t.rec_, s.now)] })
      (modTask p t.rec_ (fun t => { t with st := stReady, core := none }) s)
    rw [hpt, hqs]
    show (pt (modTask p t.rec_ _ s) p).tasks = _
    rw [modTask, pt_modPt_same, htasks]
    show (old ++ [t]).map _ = _
    rw [List.map_append, hmap]
    exact congrArg (fun u => old ++ [u]) (if_pos (by simpa using hst))
  · rw [queueOf, hpt]
    refine (congrArg Queue.ready (queue_set _ p t.queue _)).trans ?_
    rw [queueOf_modTask]
/-- A task that has just entered behind no predecessor, in a state. -/
def newTask (sp : Spawn) (q : BitVec 6) (pr : BitVec 3) (donep : Nat) (st : BitVec 4) : Task :=
  ⟨sp.rec_, st, q, pr, [], 0, [], 0, 0, 0, donep, none, none, [], none⟩
/-- A task has been added last. -/
def addTask (t : Task) (k : Part) : Part := { k with tasks := k.tasks ++ [t] }
/-- A first spawn with no predecessor is the last task, and becomes READY. -/
theorem enterSpawn_alone (p : PartId) {sp : Spawn} (q : BitVec 6) (pr : BitVec 3) (donep : Nat) (s : State) (hrestore : sp.restore = false) :
    enterSpawn p sp q pr donep [] [] 0 0 s = askYield p (makeReady p sp.rec_ (sluiceNote p (queueHolds (freshRecord p sp 0 s) p q) q
      (modPt (freshRecord p sp 0 s) p (addTask (newTask sp q pr donep stWaiting))))) := by
  have hfresh : (pt s p).tasks.find? (fun _ => false) = none := List.find?_eq_none.2 (by simp)
  simp [enterSpawn, hrestore, hfresh]
  rfl
theorem pt_askYield (p x : PartId) (s : State) : pt (askYield p s) x = pt s x := by
  obtain ⟨cs, h⟩ := askYield_law p s
  rw [h]
  rfl
/-- A task is added after its record has been written, becomes READY, and yields are asked for. -/
theorem addTask_ready {s f : State} {p : PartId} {t : Task} (hfresh : DeltaOnly s f) (hlive : t.live = true)
    (hnew : ∀ u ∈ (pt s p).tasks, u.rec_ ≠ t.rec_) :
    let e := askYield p (makeReady p t.rec_ (modPt f p (addTask t)))
    (pt e p).tasks = (pt s p).tasks ++ [{ t with st := stReady, core := none }] ∧
      (queueOf e p t.queue).ready = (queueOf s p t.queue).ready ++ [(t.rec_, s.now)] ∧
      ∀ c, cr e c = { cr s c with yieldReq := (cr e c).yieldReq } := by
  obtain ⟨hcores, -, hnow, hparts, -⟩ := hfresh
  obtain ⟨late, hpt⟩ := hparts p
  have hptw : pt (modPt f p (addTask t)) p = addTask t { pt s p with late := late } := (pt_modPt_same f p _).trans (congrArg (addTask t) hpt)
  have hqueue : queueOf (modPt f p (addTask t)) p t.queue = queueOf s p t.queue := by
    rw [queueOf, hptw]
    rfl
  obtain ⟨hcores', htasks, hready⟩ := makeReady_last (congrArg Part.tasks hptw) hlive hnew
  have hask := (askYield_asks p (makeReady p t.rec_ (modPt f p (addTask t)))).2
  refine ⟨?_, ?_, fun c => ?_⟩
  · rw [pt_askYield, htasks]
  · rw [queueOf, pt_askYield, ← queueOf, hready, hqueue, modPt_now, hnow]
  · have hcr : cr (makeReady p t.rec_ (modPt f p (addTask t))) c = cr s c := by
      rw [cr, hcores', modPt_cores, hcores, cr]
    rw [← hcr]
    exact hask c
/-- A first spawn with no predecessor enters at once as READY: it is the last task, and the last of its queue (R107, R109). -/
theorem enterSpawn_ready {s : State} {p : PartId} {sp : Spawn} (q : BitVec 6) (pr : BitVec 3) (donep : Nat) (hrestore : sp.restore = false)
    (hdl : (pt s p).dl = none) (hnew : ∀ t ∈ (pt s p).tasks, t.rec_ ≠ sp.rec_) :
    let e := enterSpawn p sp q pr donep [] [] 0 0 s
    (pt e p).tasks = (pt s p).tasks ++ [newTask sp q pr donep stReady] ∧
      (queueOf e p q).ready = (queueOf s p q).ready ++ [(sp.rec_, s.now)] ∧ ∀ c, cr e c = { cr s c with yieldReq := (cr e c).yieldReq } := by
  have hfresh := freshRecord_delta p sp 0 s
  have hcalm : (pt (modPt (freshRecord p sp 0 s) p (addTask (newTask sp q pr donep stWaiting))) p).dl = none := by
    obtain ⟨-, -, -, hparts, -⟩ := hfresh
    obtain ⟨late, hpt⟩ := hparts p
    rw [pt_modPt_same, hpt]
    exact hdl
  rw [enterSpawn_alone p q pr donep s hrestore, sluiceNote_none _ q hcalm]
  exact addTask_ready (t := newTask sp q pr donep stWaiting) hfresh rfl hnew

/-! Quanta (R111). -/

theorem le_foldl_max (x : Nat) : ∀ (l : List Nat) (y : Nat), x ≤ l.foldl max y ↔ x ≤ y ∨ ∃ z ∈ l, x ≤ z
  | [], y => by simp
  | z :: l, y => by
    rw [List.foldl_cons, le_foldl_max x l, le_max_iff, List.exists_mem_cons_iff, or_assoc]
/-- A READY task of a queue has waited a quantum. -/
def waitedIn (s : State) (p : PartId) (quant : Nat) (q : BitVec 6) : Prop := ∃ r ∈ (queueOf s p q).ready, r.2 + quant ≤ s.now
/-- A core is asked to yield: it has run for a quantum, at no higher priority than a queue in which a task has waited as long. -/
def mustYield (s : State) (p : PartId) (quant : Nat) (c : CoreId) : Prop :=
  inMask (pt s p).mask c = true ∧ (cr s c).running = true ∧ (cr s c).pickedAt + quant ≤ s.now ∧
    ∃ q, runPrio s p c ≤ (queueOf s p q).prio.toNat ∧ waitedIn s p quant q
/-- The priorities of the queues in which a READY task has waited a quantum. -/
def waitedPrios (s : State) (p : PartId) (quant : Nat) : List Nat :=
  ((upto 64).filter (fun n => (queueOf s p (BitVec.ofNat 6 n)).ready.any (fun r => decide (r.2 + quant ≤ s.now)))).map
    (fun n => (queueOf s p (BitVec.ofNat 6 n)).prio.toNat)
theorem mem_waitedPrios {s : State} {p : PartId} {quant z : Nat} :
    z ∈ waitedPrios s p quant ↔ ∃ q, z = (queueOf s p q).prio.toNat ∧ waitedIn s p quant q := by
  simp only [waitedPrios, upto_range, List.mem_map, List.mem_filter, List.mem_range, List.any_eq_true, decide_eq_true_eq]
  constructor
  · rintro ⟨n, ⟨-, hn⟩, rfl⟩
    exact ⟨BitVec.ofNat 6 n, rfl, hn⟩
  · rintro ⟨q, rfl, hq⟩
    refine ⟨q.toNat, ⟨q.isLt, ?_⟩, ?_⟩ <;> rw [BitVec.ofNat_toNat, BitVec.setWidth_eq]
    exact hq
/-- The step's own test of a core. -/
def yieldTest (s : State) (p : PartId) (quant : Nat) (c : CoreId) : Bool :=
  (cr s c).running && !(waitedPrios s p quant).isEmpty && decide (runPrio s p c ≤ (waitedPrios s p quant).foldl max 0) &&
    decide ((cr s c).pickedAt + quant ≤ s.now)
theorem yieldTest_iff {s : State} {p : PartId} {quant : Nat} {c : CoreId} :
    c ∈ (coresOf s p).filter (yieldTest s p quant) ↔ mustYield s p quant c := by
  have hprio : ((waitedPrios s p quant).isEmpty = false ∧ runPrio s p c ≤ (waitedPrios s p quant).foldl max 0) ↔
      ∃ z ∈ waitedPrios s p quant, runPrio s p c ≤ z := by
    rw [le_foldl_max]
    constructor
    · rintro ⟨hne, hzero | h⟩
      · obtain ⟨z, hz⟩ := List.exists_mem_of_ne_nil _ (by simpa using hne)
        exact ⟨z, hz, hzero.trans (Nat.zero_le z)⟩
      · exact h
    · rintro ⟨z, hz, hle⟩
      refine ⟨?_, Or.inr ⟨z, hz, hle⟩⟩
      cases h : waitedPrios s p quant with
      | nil => rw [h] at hz; cases hz
      | cons a l => rfl
  have hqueue : (∃ z ∈ waitedPrios s p quant, runPrio s p c ≤ z) ↔
      ∃ q, runPrio s p c ≤ (queueOf s p q).prio.toNat ∧ waitedIn s p quant q := by
    constructor
    · rintro ⟨z, hz, hle⟩
      obtain ⟨q, rfl, hq⟩ := mem_waitedPrios.1 hz
      exact ⟨q, hle, hq⟩
    · rintro ⟨q, hle, hq⟩
      exact ⟨_, mem_waitedPrios.2 ⟨q, rfl, hq⟩, hle⟩
  rw [List.mem_filter, mem_coresOf, mustYield, ← hqueue, ← hprio]
  simp only [yieldTest, Bool.and_eq_true, Bool.not_eq_true', decide_eq_true_eq]
  tauto
/-- A quantum's expiry asks the cores that must yield, and no other. -/
theorem quantumStep_asks (p : PartId) (s : State) (c : CoreId) :
    (mustYield s p ((vf s (pt s p).vf).quant.toNat % 2 ^ 32) c → cr (quantumStep p s) c = { cr s c with yieldReq := true }) ∧
      (¬ mustYield s p ((vf s (pt s p).vf).quant.toNat % 2 ^ 32) c → cr (quantumStep p s) c = cr s c) := by
  have hstep : quantumStep p s = ((coresOf s p).filter (yieldTest s p ((vf s (pt s p).vf).quant.toNat % 2 ^ 32))).foldl
      (fun s c => modCr s c (fun k => { k with yieldReq := true })) s := by
    rw [← bits_low]
    rfl
  have hcr := (fold_cores (fun _ k => { k with yieldReq := true }) _ s
    ((coresOf_nodup s p).filter (yieldTest s p ((vf s (pt s p).vf).quant.toNat % 2 ^ 32)))).2 c
  rw [← hstep] at hcr
  exact ⟨fun h => hcr.trans (if_pos (yieldTest_iff.2 h)), fun h => hcr.trans (if_neg fun hin => h (yieldTest_iff.1 hin))⟩

end Sys2Proof.Machine
end

section
open Sys2Proof Sys2Proof.Machine

/-- Settles O52: a pickup, a spawn that waits, and a quantum that is over. -/
theorem deltaServesQueues : Obligations.DeltaServesQueues := by
  intro s p hf hd
  refine ⟨fun c q t argp hpart hrun hidle hnext hgang hread => ?_, fun sp r hsp => ⟨fun x y hwait => ?_, fun hwait hcmd hrun hr => ?_,
    fun loc hwait hcmd howed hrun hrestore hr hloc hclean hdl hnew => ?_⟩, quantumStep p s, rfl, quantumStep_cores p s, fun c => quantumStep_asks p s c⟩
  · obtain ⟨u, hpick, ⟨hon, hrec, hat, hwait, hh, hregs, hs, hl⟩, hrest, hready, hframe⟩ := pickup_places (c := c) hnext hgang hread
    refine ⟨u, ?_, hon, hrec, hat, hwait, hh, hregs, hs, hl, hrest, hready, hframe⟩
    rw [exec_taskPickup, ← hpick]
    simp [execTaskPickup, hpart, hf, hd, hrun, hidle]
  · exact congrArg Host.Outcome.next (drainSpawns_waits _ hsp hwait)
  · subst hr
    rw [exec_heldSpawnEntry, execHeldSpawnEntry, hsp]
    refine congrArg Host.Outcome.next ((drainSpawns_refuses hsp hwait hcmd hrun).trans ?_)
    cases sp.owed <;> rfl
  · intro q pr hvalid htearing hprio hfoot hdepl
    subst hr
    obtain ⟨htasks, hready, hcr⟩ := enterSpawn_ready q pr (s.mem.rdN (loc + 0x28) 8 % 2 ^ 52) hrestore hdl hnew
    have htry := spawnTry_enters (q := q) (pr := pr) hloc hclean hdl rfl rfl hvalid htearing hprio hfoot hdepl
    have hdrain := drainSpawns_enters hsp hwait hcmd howed hrun htry
    refine ⟨modPt _ p (fun k => { k with spawns := [] }), ?_, ?_, ?_, ?_, hcr⟩
    · rw [exec_heldSpawnEntry, execHeldSpawnEntry, hsp]
      exact congrArg Host.Outcome.next hdrain
    · rw [pt_modPt_same]
    · rw [pt_modPt_same]; exact htasks
    · rw [queueOf, pt_modPt_same]; exact hready

end

section
/-! PROOFS. Host spawns and restores, teardowns of queues, and page replies (R105, R108, R113, R114, R295, R308). -/
namespace Sys2Proof.Machine

/-! Host spawns and restores (R105, R114, R308). -/

theorem exec_packet (v : VfId) (a : GAddr) (again : Bool) (s : State) :
    exec (if again then .restore v a else .hostSpawn v a) s = .next (packet v a again s) := by cases again <;> rfl
/-- A spawn joins the end of the partition's spawns. -/
def joinSpawns (sp : Spawn) (k : Part) : Part := { k with spawns := k.spawns ++ [sp] }
theorem spawnArrive_drains (p : PartId) (sp : Spawn) (s : State) :
    spawnArrive p sp s = drainSpawns p ((pt s p).spawns.length + 1) (modPt s p (joinSpawns sp)) := by
  have hlen : (pt (modPt s p (joinSpawns sp)) p).spawns.length = (pt s p).spawns.length + 1 := by
    rw [pt_modPt_same, joinSpawns, List.length_append, List.length_singleton]
  exact congrArg (fun n => drainSpawns p n (modPt s p (joinSpawns sp))) hlen
/-- A packet of the host has joined the spawns of a partition: it is answered where its record can be read, and is owed its answer
otherwise. -/
def packetJoined (p : PartId) (a : GAddr) (again : Bool) (s : State) : State :=
  if (recWord s p a.toNat 0x18).isSome then modPt (ackOk s 0) p (joinSpawns ⟨a.toNat, none, again, false, none⟩)
  else modPt s p (joinSpawns ⟨a.toNat, none, again, true, none⟩)
theorem packetJoined_spawns (p : PartId) (a : GAddr) (again : Bool) (s : State) :
    ∃ new, (pt (packetJoined p a again s) p).spawns = (pt s p).spawns ++ [new] := by
  unfold packetJoined
  split
  · exact ⟨_, congrArg Part.spawns (pt_modPt_same (ackOk s 0) p _)⟩
  · exact ⟨_, congrArg Part.spawns (pt_modPt_same s p _)⟩
/-- A running partition takes a packet and then its spawns in their order. -/
theorem packet_joins {s : State} {v : VfId} {p : PartId} {a : GAddr} (again : Bool) (hwin : winPart s v = some p)
    (hrun : (pt s p).running = true) (halign : a.toNat % 64 = 0) (htorn : packetTorn s p a.toNat = false) :
    packet v a again s = drainSpawns p ((pt s p).spawns.length + 1) (packetJoined p a again s) := by
  simp only [packet, hwin, spawnArrive_drains, packetJoined]
  rw [if_neg (by simp [hrun, halign, htorn])]
  split <;> rfl
theorem packet_refused {s : State} {v : VfId} {p : PartId} {a : GAddr} (again : Bool) (hwin : winPart s v = some p)
    (h : (pt s p).running = false ∨ a.toNat % 64 ≠ 0 ∨ packetTorn s p a.toNat = true) : packet v a again s = nack s := by
  have hrefuse : (!(pt s p).running || decide (a.toNat % 64 ≠ 0) || packetTorn s p a.toNat) = true := by
    rcases h with h | h | h <;> simp [h]
  simp only [packet, hwin]
  rw [if_pos hrefuse]

/-! Teardown (R113). -/

/-- A queue that is being torn down. -/
def tearing (k : Queue) : Queue := { k with valid := false, tearing := true }
/-- The report of a deadline will say that a queue was torn down (R305). -/
def reportTorn (q : BitVec 6) (k : Part) : Part :=
  { k with dl := k.dl.map (fun d => { d with qs := d.qs.map (fun x => if x.q = q then { x with torn := true } else x) }) }
/-- A queue that no task is in and no core runs is torn down at once. -/
theorem tearDown_idle {s : State} {p : PartId} {q : BitVec 6} (htasks : ∀ x ∈ (pt s p).tasks, x.queue ≠ q)
    (hcores : ∀ c, inMask (pt s p).mask c = true → (cr s c).running = true → queueOfCore s p c ≠ q) :
    tearDown p q s = settle p (modPt (modQueue p q tearing s) p (reportTorn q)) := by
  let w := modPt (modQueue p q tearing s) p (reportTorn q)
  obtain ⟨dl, qs, hpt⟩ : ∃ dl qs, pt w p = { pt s p with dl := dl, queues := qs } := by
    obtain ⟨qs, hqs⟩ := pt_modQueue p q tearing s
    exact ⟨_, qs, (pt_modPt_same _ p _).trans (by rw [hqs]; rfl)⟩
  have hnone : (pt w p).tasks.filter (fun t => t.queue == q && t.live && t.st != stRunning) = [] :=
    List.filter_eq_nil_iff.2 fun x hx => by
      rw [hpt] at hx
      simp [htasks x hx]
  have hstay : ∀ c ∈ coresOf w p, ((cr w c).running && queueOfCore w p c == q) = false := fun c hc => by
    have hmask : inMask (pt s p).mask c = true := by
      have h := (mem_coresOf w p c).1 hc
      rw [hpt] at h
      exact h
    have hqueue : queueOfCore w p c = queueOfCore s p c := by
      simp only [queueOfCore, taskOf, hpt]
      rfl
    have hcr : cr w c = cr s c := rfl
    rw [hqueue, hcr]
    cases hrun : (cr s c).running
    · rfl
    · simp [hcores c hmask hrun]
  show settle p ((coresOf (((pt w p).tasks.filter _).reverse.foldl _ w) p).foldl _ (((pt w p).tasks.filter _).reverse.foldl _ w)) = _
  rw [hnone]
  exact congrArg (settle p) (foldl_none _ _ w fun c hc => by rw [hstay c hc]; rfl)
/-- Settling a partition keeps the answer, memory and the events; a queue that is being torn down, with no task in it, has its event
raised. -/
theorem settle_tears {s : State} {p : PartId} {q : BitVec 6} (htasks : ∀ x ∈ (pt s p).tasks, x.queue ≠ q)
    (htear : (queueOf s p q).tearing = true) :
    let t := settle p s
    (∃ cs us ps ev, t = { s with cores := cs, units := us, parts := ps, events := ev }) ∧ Event.teardown p q ∈ t.events ∧
      (queueOf t p q).valid = (queueOf s p q).valid ∧ (queueOf t p q).tearing = false := by
  have hq : q.toNat ∈ upto 64 := by rw [upto_range]; exact List.mem_range.2 q.isLt
  have htd := td_fold p (upto 64) s
  have hsettle : settle p s = askYield p (kernelCheck p ((upto 64).foldl (tdOne p) s)) := rfl
  generalize (upto 64).foldl (tdOne p) s = w at htd hsettle
  obtain ⟨⟨ps, ev, hw, -⟩, -, hqs⟩ := htd
  obtain ⟨hvalid, -, htorn⟩ := hqs q
  obtain ⟨hevent, hend⟩ := htorn hq htasks htear
  obtain ⟨us, ps', ev', hk, hkeep⟩ := kernelCheck_law p w
  obtain ⟨cs, hask⟩ := askYield_law p (kernelCheck p w)
  have hqueue : queueOf (kernelCheck p w) p q = queueOf w p q := by
    rcases hkeep with h | ⟨-, -, -, -, h⟩
    · rw [h]
    · rw [queueOf, queueOf, h]
  have hmem : Event.teardown p q ∈ (kernelCheck p w).events := by
    rcases hkeep with h | ⟨-, -, hmore, -⟩
    · rw [h]
      exact hevent
    · rw [hk]
      exact hmore _ hevent
  dsimp only
  rw [hsettle, hask]
  refine ⟨⟨cs, us, ps', ev', ?_⟩, hmem, (congrArg Queue.valid hqueue).trans hvalid, (congrArg Queue.tearing hqueue).trans hend⟩
  rw [hk, hw]
theorem queueTeardown_ends {s : State} {v : VfId} {p : PartId} {q : BitVec 6} (hwin : winPart s v = some p)
    (hvalid : (queueOf s p q).valid = true) (htasks : ∀ x ∈ (pt s p).tasks, x.queue ≠ q)
    (hcores : ∀ c, inMask (pt s p).mask c = true → (cr s c).running = true → queueOfCore s p c ≠ q) :
    ∃ t, exec (.queueTeardown v q) s = .next t ∧ t.ack = ⟨true, 0⟩ ∧ Event.teardown p q ∈ t.events ∧ (queueOf t p q).valid = false ∧
      (queueOf t p q).tearing = false ∧ t.mem = s.mem ∧ t.pubs = s.pubs := by
  let w := modPt (modQueue p q tearing (ackOk s 0)) p (reportTorn q)
  have hqueue : queueOf w p q = tearing (queueOf s p q) := by
    rw [queueOf, pt_modPt_same]
    exact queue_set (ackOk s 0) p q tearing
  have hwtasks : (pt w p).tasks = (pt s p).tasks := by
    obtain ⟨qs, hqs⟩ := pt_modQueue p q tearing (ackOk s 0)
    rw [pt_modPt_same, hqs]
    rfl
  obtain ⟨⟨cs, us, ps, ev, hframe⟩, hevent, hv, ht⟩ := settle_tears (p := p) (q := q) (s := w) (by rw [hwtasks]; exact htasks) (by rw [hqueue]; rfl)
  refine ⟨settle p w, ?_, ?_, hevent, hv.trans (by rw [hqueue]; rfl), ht, ?_, ?_⟩
  · rw [exec_queueTeardown]
    simp only [execQueueTeardown, hwin, hvalid, if_true]
    exact congrArg Host.Outcome.next (tearDown_idle (s := ackOk s 0) htasks hcores)
  · rw [hframe]; rfl
  · rw [hframe]; rfl
  · rw [hframe]; rfl

/-! Page replies (R295). -/

theorem lateReply_idle {p : PartId} {tag : Nat} {fail : Bool} {s : State} (h : (pt s p).late = []) : lateReply p tag fail s = s :=
  (lateReply_none h).trans (modPt_id (by rw [← h]))
theorem answered_idle {tag : Nat} {k : Part} (hspawns : k.spawns = []) (hwords : ∀ y ∈ k.tasks, y.word ≠ some tag) : answered tag k = k := by
  have htasks : k.tasks.map (fun t => if t.word = some tag then { t with word := none } else t) = k.tasks :=
    (List.map_congr_left fun y hy => if_neg (hwords y hy)).trans (List.map_id _)
  unfold answered
  dsimp only
  rw [htasks, hspawns, List.map_nil, ← hspawns]
/-- Where no task, spawn, barrier or write of Delta waits, a failed reply concerns lanes and commands alone. -/
theorem waitersReply_idle {p : PartId} {r : PageReq} {s : State} (hspawns : (pt s p).spawns = []) (hlate : (pt s p).late = [])
    (hwords : ∀ y ∈ (pt s p).tasks, y.word ≠ some r.tag) (hbar : ∀ c g n, inMask (pt s p).mask c = true → (cr s c).wait ≠ .bar g n) :
    waitersReply p r true s = cmdsReply p r true (coresReply p r true s) := by
  obtain ⟨hcores, hwait⟩ := coresReply_fails p r s
  let w := cmdsReply p r true (coresReply p r true s)
  have hpt : pt w p = pt s p := by
    show pt (coresReply p r true s) p = _
    rw [hcores]
    rfl
  have hbarw : barriersAgain p w = w := barriersAgain_none fun c g n hc => by
    have hw : (cr w c).wait = (cr s c).wait := hwait c
    rw [hpt] at hc
    rw [hw]
    exact hbar c g n hc
  have hdelta : deltaReply p r.tag true w = w :=
    (deltaReply_none (by rw [hpt]; exact hspawns) (by rw [hpt]; exact hwords)).trans
      (modPt_id (answered_idle (by rw [hpt]; exact hspawns) (by rw [hpt]; exact hwords)))
  show deltaReply p r.tag true (barriersAgain p (lateReply p r.tag true w)) = w
  rw [lateReply_idle (by rw [hpt]; exact hlate), hbarw, hdelta]
/-- The requests of a VF without the one of a tag. -/
def dropReq (tag : Nat) (k : Vf) : Vf := { k with reqs := k.reqs.filter (fun q => q.tag ≠ tag) }

section
variable {s : State} {v : VfId} {p : PartId} {x : W64} {r : PageReq}

theorem replyStep_fails (hb : (vf s v).bound = some p)
    (hr : (vf s v).reqs.find? (fun r => r.posted && r.num == BitVec.ofNat 16 x.toNat) = some r) (hx : x.toNat / 2 ^ 17 = 0)
    (hfail : x.getLsbD 16 = true) : replyStep v x s = ackOk (waitersReply p r true (modVf s v (dropReq r.tag))) 0 := by
  unfold replyStep
  rw [hr, hb]
  dsimp only
  rw [if_neg (not_not.2 hx)]
  simp only [hfail, Bool.not_true, Bool.and_false, Bool.false_eq_true, if_false, if_true]
  rfl
theorem replyStep_acks (hb : (vf s v).bound = some p)
    (hr : (vf s v).reqs.find? (fun r => r.posted && r.num == BitVec.ofNat 16 x.toNat) = some r) (hx : x.toNat / 2 ^ 17 = 0) :
    (replyStep v x s).ack = ⟨true, 0⟩ := by
  unfold replyStep
  rw [hr, hb]
  dsimp only
  rw [if_neg (not_not.2 hx)]
  rfl
theorem replyStep_unknown (hr : (vf s v).reqs.find? (fun r => r.posted && r.num == BitVec.ofNat 16 x.toNat) = none) :
    replyStep v x s = nack s := by
  unfold replyStep
  rw [hr]
theorem windowAgain_none (hwin : winPart s v = some p) (hlaunch : (pt s p).launch = none) (hattest : (pt s p).attest = none) :
    windowAgain v s = s := by
  simp only [windowAgain, hwin, hlaunch, hattest]
theorem exec_prqreply_alive (hw : winOpen s = true) :
    exec (.prqreply v x) s = .next (if (replyStep v x s).ack.pos then windowAgain v (replyStep v x s) else replyStep v x s) := by
  obtain ⟨hf, hd⟩ := winOpen_alive hw
  simp only [exec_prqreply, execPrqreply, hf, hd, Bool.or_self, Bool.false_eq_true, if_false]
/-- A reply that fails a request on which lanes and commands alone wait: the request goes, no lane of the partition waits on it any more,
and the page asked for has failed. -/
theorem prqreply_failed (hw : winOpen s = true) (hb : (vf s v).bound = some p)
    (hr : (vf s v).reqs.find? (fun r => r.posted && r.num == BitVec.ofNat 16 x.toNat) = some r) (hx : x.toNat / 2 ^ 17 = 0)
    (hspawns : (pt s p).spawns = []) (hwords : ∀ y ∈ (pt s p).tasks, y.word ≠ some r.tag) (hlate : (pt s p).late = [])
    (hlaunch : (pt s p).launch = none) (hattest : (pt s p).attest = none)
    (hbar : ∀ c g n, inMask (pt s p).mask c = true → (cr s c).wait ≠ .bar g n) (hfail : x.getLsbD 16 = true) :
    ∃ t, exec (.prqreply v x) s = .next t ∧ t.ack = ⟨true, 0⟩ ∧ t = { s with cores := t.cores, vfs := t.vfs, cmds := t.cmds, ack := t.ack } ∧
      vf t v = dropReq r.tag (vf s v) ∧
      (∀ c, inMask (pt s p).mask c = true →
        (∀ l ∈ ((cr t c).pend.flatMap (fun q => q.lanes)) ++ ((cr t c).posts.flatMap (fun o => o.lanes)), l.st.waitsTag r.tag = false) ∧
        (∀ a ∈ (cr t c).asks, a.1 = r.ipa / 65536 → a.2 = true)) ∧
      (∀ c, inMask (pt s p).mask c = false → cr t c = cr s c) := by
  let s1 := modVf s v (dropReq r.tag)
  obtain ⟨hcores, hlanes, hothers⟩ := fail_fold p r.tag (r.ipa / 65536) (coresOf s1 p) s1 (coresOf_nodup s1 p)
  have hin : ∀ c, c ∈ coresOf s1 p ↔ inMask (pt s p).mask c = true := mem_coresOf s1 p
  have hstep : replyStep v x s = ackOk (cmdsReply p r true (coresReply p r true s1)) 0 := by
    rw [replyStep_fails hb hr hx hfail, waitersReply_idle (s := s1) hspawns hlate hwords hbar]
  obtain ⟨cs, hcs⟩ : ∃ cs, coresReply p r true s1 = { s1 with cores := cs } := ⟨_, hcores⟩
  have hagain : windowAgain v (replyStep v x s) = replyStep v x s := by
    rw [hstep, hcs]
    have hbound : (vf s1 v).bound = some p := by rw [vf_modVf_same]; exact hb
    exact windowAgain_none (win_part _ v p hw hbound) hlaunch hattest
  refine ⟨replyStep v x s, ?_, replyStep_acks hb hr hx, ?_, ?_, fun c hc => ?_, fun c hc => ?_⟩
  · rw [exec_prqreply_alive hw, replyStep_acks hb hr hx, if_pos rfl, hagain]
  · rw [hstep, hcs]; rfl
  · rw [hstep, hcs]; exact vf_modVf_same s v _
  · rw [hstep]; exact hlanes c ((hin c).2 hc)
  · rw [hstep]; exact hothers c fun h => by rw [(hin c).1 h] at hc; cases hc
end

end Sys2Proof.Machine
end

section
open Sys2Proof Sys2Proof.Machine

/-- Settles O47, command by command. -/
theorem spawnsTeardownsAndPageReplies : Obligations.SpawnsTeardownsAndPageReplies := by
  intro s v p hw hb
  have hwin := win_part s v p hw hb
  refine ⟨fun a again => ⟨fun u hrun halign htorn hu => ?_, fun h => ?_⟩, fun q hq => ?_, fun q => queueTeardown_ends hwin,
    fun x hr => ?_, fun x r => prqreply_failed hw hb, fun x r hr hx => ?_, windowAgain_none hwin⟩
  · have hjoined : u = packetJoined p a again s := hu
    have hexec : exec (if again then .restore v a else .hostSpawn v a) s = .next (drainSpawns p ((pt s p).spawns.length + 1) u) := by
      rw [exec_packet, packet_joins again hwin hrun halign htorn, hjoined]
    refine ⟨hexec, fun sp r y z hsp hwait => hexec.trans (congrArg Host.Outcome.next ?_)⟩
    obtain ⟨new, hnew⟩ := packetJoined_spawns p a again s
    rw [hsp, List.cons_append] at hnew
    exact drainSpawns_waits _ (hjoined ▸ hnew) hwait
  · rw [exec_packet, packet_refused again hwin h]; rfl
  · rw [exec_queueTeardown]
    simp only [execQueueTeardown, hwin, hq]
    rfl
  · rw [exec_prqreply_alive hw, replyStep_unknown hr]; rfl
  · have hack := replyStep_acks hb hr hx
    exact ⟨replyStep v x s, by rw [exec_prqreply_alive hw, hack, if_pos rfl], hack⟩

end

section
/-! PROOFS. The tags that the V slots require, VCHKF's CHK, and LSUPD's step of the loss scale (R127, R135, R137, R149 to R153, R157). -/
namespace Sys2Proof.Machine
variable {s : State} {i : Instr}

/-! Sources under another tag than their form requires (R127, R137). -/

/-- One source under another tag is a mismatch of them all (R127). -/
theorem tagsAre_mismatch {t : Tag} {l : List (BitVec 6)} (h : ∃ v ∈ l, (srcV s v).tag ≠ t) : tagsAre s t l = some (trapPlain s cTagMismatch) := by
  obtain ⟨v, hv, hne⟩ := h
  rw [tagsAre, if_neg fun hall => hne (eq_of_beq (List.all_eq_true.1 hall v hv))]
/-- Of two checks in a row, the one of the later sources is a mismatch whatever the earlier gives: both faults are the same. -/
theorem tagsAre_or_mismatch (t : Tag) (l : List (BitVec 6)) {u : Tag} {m : List (BitVec 6)} (h : ∃ v ∈ m, (srcV s v).tag ≠ u) :
    (tagsAre s t l).or (tagsAre s u m) = some (trapPlain s cTagMismatch) := by
  rw [tagsAre_mismatch h, tagsAre]
  split <;> rfl

/-- An instruction whose slot has this fault of its own, and no stall (R34). -/
def HasFault (i : Instr) (s : State) (fault : Option TrapInfo) : Prop := ∃ eff, exec i s = runSlot i fault false eff s
/-- A ready slot with a tag mismatch traps at its slot (R314). -/
theorem HasFault.traps {fault : Option TrapInfo} (hform : HasFault i s fault) (h : Ready i s) (hf : fault = some (trapPlain s cTagMismatch)) :
    exec i s = .next (takeTrap (trapPlain s cTagMismatch) s) := by
  obtain ⟨eff, he⟩ := hform
  rw [he, hf, runSlot_trap h]

/-! The check of each form. -/

/-- The shared forms check their sources. -/
theorem vInt_fault {o : VaF} {f : Nat → Nat → Nat → Nat} (he : exec i s = vInt i o f s) : HasFault i s (tagsAre s o.fmt [o.a, o.b]) := ⟨_, he⟩
theorem vFp_fault {o : VaF} {f : FV → FV → FV × Bool} (he : exec i s = vFp i o f s) : HasFault i s (tagsAre s o.fmt [o.a, o.b]) := ⟨_, he⟩
theorem vPick_fault {o : VaF} {f : FV → FV → FV} (he : exec i s = vPick i o f s) : HasFault i s (tagsAre s o.fmt [o.a, o.b]) := ⟨_, he⟩
theorem vSign_fault {o : VaOneF} {f : FV → FV} (he : exec i s = vSign i o f s) : HasFault i s (tagsAre s o.fmt [o.a]) := ⟨_, he⟩
theorem vSpecial_fault {o : VaOneF} {f : FV → FV × Bool} (he : exec i s = vSpecial i o f s) : HasFault i s (tagsAre s o.fmt [o.a]) := ⟨_, he⟩
theorem vBit_fault {o : VaF} {f : Nat → Nat → Nat} (he : exec i s = vBit i o f s) (hfmt : o.fmt ≠ 0) :
    HasFault i s (tagsAre s o.fmt [o.a, o.b]) := by
  rw [vBit, if_neg hfmt] at he
  exact ⟨_, he⟩
/-- The two-source arithmetic checks both sources (R139, R143, R144). -/
theorem arith_fault {o : VaF} (hi : i ∈ [.vadd o, .vsub o, .vmul o, .vmulh o, .vshl o, .vshr o, .vsar o, .vmin o, .vmax o,
    .vfadd o, .vfsub o, .vfmul o, .vfmin o, .vfmax o]) : HasFault i s (tagsAre s o.fmt [o.a, o.b]) := by
  simp only [List.mem_cons, List.not_mem_nil, or_false] at hi
  rcases hi with rfl | rfl | rfl | rfl | rfl | rfl | rfl | rfl | rfl | rfl | rfl | rfl | rfl | rfl
  exacts [vInt_fault (exec_vadd o s), vInt_fault (exec_vsub o s), vInt_fault (exec_vmul o s), vInt_fault (exec_vmulh o s),
    vInt_fault (exec_vshl o s), vInt_fault (exec_vshr o s), vInt_fault (exec_vsar o s), vInt_fault (exec_vmin o s), vInt_fault (exec_vmax o s),
    vFp_fault (exec_vfadd o s), vFp_fault (exec_vfsub o s), vFp_fault (exec_vfmul o s), vPick_fault (exec_vfmin o s), vPick_fault (exec_vfmax o s)]
/-- The bitwise forms check their sources under any format but NONE (R139). -/
theorem bitwise_fault {o : VaF} (hfmt : o.fmt ≠ 0) (hi : i ∈ [.vand o, .vor o, .vxor o]) : HasFault i s (tagsAre s o.fmt [o.a, o.b]) := by
  simp only [List.mem_cons, List.not_mem_nil, or_false] at hi
  rcases hi with rfl | rfl | rfl
  exacts [vBit_fault (exec_vand o s) hfmt, vBit_fault (exec_vor o s) hfmt, vBit_fault (exec_vxor o s) hfmt]
/-- VMAD and VFMA check the accumulator too (R139, R143). -/
theorem accumulating_fault {o : VaAccF} (hi : i ∈ [.vmad o, .vfma o]) : HasFault i s (tagsAre s o.fmt [o.a, o.b, o.d]) := by
  simp only [List.mem_cons, List.not_mem_nil, or_false] at hi
  rcases hi with rfl | rfl
  exacts [⟨_, exec_vmad o s⟩, ⟨_, exec_vfma o s⟩]
/-- VWACC checks its factors, then its sum (R140). -/
theorem vwacc_fault (o : VaAccF) : HasFault (.vwacc o) s ((tagsAre s o.fmt [o.a, o.b]).or (tagsAre s 3 [o.d])) := by
  have he := exec_vwacc o s
  rw [execVwacc] at he
  cases hfirst : tagsAre s o.fmt [o.a, o.b] <;> rw [hfirst] at he <;> exact ⟨_, he⟩
/-- The one-source forms on elements of one format (R141, R144, R147, R148). -/
theorem oneSource_fault {o : VaOneF} (hi : i ∈ [.vabs o, .vfabs o, .vfneg o, .vexp2 o, .vlog2 o, .vrcp o, .vrsq o, .vsqrt o]) :
    HasFault i s (tagsAre s o.fmt [o.a]) := by
  rcases List.mem_append.1 (show i ∈ [.vabs o, .vfabs o, .vfneg o] ++ [.vexp2 o, .vlog2 o, .vrcp o, .vrsq o, .vsqrt o] from hi) with hi | hi
  · simp only [List.mem_cons, List.not_mem_nil, or_false] at hi
    rcases hi with rfl | rfl | rfl
    exacts [⟨_, exec_vabs o s⟩, vSign_fault (exec_vfabs o s), vSign_fault (exec_vfneg o s)]
  · obtain ⟨f, he⟩ := special_form hi s
    exact vSpecial_fault he
/-- The comparisons (R145). -/
theorem comparison_fault {o : VcF} (hi : i ∈ [.vmcmp o, .vfcmp o]) : HasFault i s (tagsAre s o.fmt [o.a, o.b]) := by
  simp only [List.mem_cons, List.not_mem_nil, or_false] at hi
  rcases hi with rfl | rfl
  exacts [⟨_, exec_vmcmp o s⟩, ⟨_, exec_vfcmp o s⟩]
/-- The reductions (R154, R155). -/
theorem reduction_fault {o : VredF} (hi : i ∈ [.vred o, .vscan o]) : HasFault i s (tagsAre s o.fmt [o.a]) := by
  simp only [List.mem_cons, List.not_mem_nil, or_false] at hi
  rcases hi with rfl | rfl
  exacts [⟨_, exec_vred o s⟩, ⟨_, exec_vscan o s⟩]
theorem vchkf_fault (o : VchkfF) : HasFault (.vchkf o) s (tagsAre s o.fmt [o.a]) := ⟨_, exec_vchkf o s⟩
/-- VSCALE checks its elements, then its scales (R152). -/
theorem vscale_fault (o : VaF) : HasFault (.vscale o) s ((tagsAre s o.fmt [o.a]).or (tagsAre s 10 [o.b])) := by
  have he := exec_vscale o s
  rw [execVscale] at he
  cases hfirst : tagsAre s o.fmt [o.a] <;> rw [hfirst] at he <;> exact ⟨_, he⟩
/-- The source format that R151 lists for each format of VPACK. -/
theorem packSrc_listed : ∀ fmt t : Tag, (fmt.toNat, t.toNat) ∈ [(1, 2), (5, 6), (8, 5), (9, 8)] → packSrc fmt = t := by decide
theorem vpack_fault (o : VaF) : HasFault (.vpack o) s (tagsAre s (packSrc o.fmt) [o.a, o.b]) := ⟨_, exec_vpack o s⟩
/-- VCVT converts from no format NONE and no E8 (R149). -/
theorem vcvt_fault {o : VaOneF} (ht : (srcV s o.a).tag = 0 ∨ (srcV s o.a).tag = 10) :
    HasFault (.vcvt o) s (some (trapPlain s cTagMismatch)) := by
  have hc : ((srcV s o.a).tag = 0 || (srcV s o.a).tag = 10) = true := by simpa using ht
  have he := exec_vcvt o s
  simp only [execVcvt, if_pos hc] at he
  exact ⟨_, he⟩
/-- A pair of formats that R150 does not list is refused by VUNPACK. -/
theorem unpackOk_unlisted : ∀ fmt t : Tag, fmt.toNat ∈ [2, 3, 5, 6] → (t.toNat, fmt.toNat) ∉
    [(1, 2), (1, 3), (2, 3), (1, 5), (8, 5), (9, 5), (1, 6), (2, 6), (5, 6), (8, 6), (9, 6)] → ¬ unpackOk fmt t = true := by decide
theorem vunpack_fault {o : VaOneF} (hrefused : ¬ unpackOk o.fmt (srcV s o.a).tag = true) :
    HasFault (.vunpack o) s (some (trapPlain s cTagMismatch)) := by
  have he := exec_vunpack o s
  simp only [execVunpack, if_neg hrefused] at he
  exact ⟨_, he⟩
/-- VTAG gives no register the tag X40 (R153). -/
theorem vtag_fault {o : VaOneF} (hfmt : o.fmt = 7) : HasFault (.vtag o) s (some (trapPlain s cTagMismatch)) := by
  have he := exec_vtag o s
  rw [execVtag, if_pos hfmt] at he
  exact ⟨_, he⟩

/-! VCHKF (R157). -/

/-- Some enabled element has a property. -/
theorem any_enabledBelow (m : W64) (w n : Nat) (p : Nat → Bool) :
    (enabledBelow m w n).any p = (List.range n).any (fun e => enabled m w e && p e) := by
  rw [enabledBelow, upto_range, List.any_filter]
/-- CHK set at commit, in FLAGS and in the bundle's record, which keeps it from an LSUPD of the same bundle (R135, R157). -/
def checks (hit : Bool) (s : State) : State := if hit then modIss (setFlags fCHK s) (fun i => { i with chkSet := true }) else s
theorem vchkf_commits {o : VchkfF} (h : Ready (.vchkf o) s) (htag : (srcV s o.a).tag = o.fmt) :
    exec (.vchkf o) s = .next (nextSlot (checks ((List.range (2048 / tagWidth o.fmt.toNat)).any (fun e =>
      enabled (srcM s o.m) (tagWidth o.fmt.toNat) e && ((fel s o.fmt o.a e).isNan || (fel s o.fmt o.a e).isInf))) s)) := by
  rw [exec_vchkf, execVchkf, tags1 htag, runSlot_go h, any_enabledBelow]
  rfl
theorem modMe_id (s : State) : modMe s (fun k => k) = s := by simp [modMe, modCr, setCr, cr]
/-- Setting CHK as one change of the core and of the bundle's record, whether an element was met or not. -/
theorem checks_eq (hit : Bool) (s : State) : checks hit s =
    modIss (modMe s (fun k => { k with flags := if hit then k.flags ||| fCHK else k.flags })) (fun i => { i with chkSet := i.chkSet || hit }) := by
  cases hit
  case false => simp [checks, modMe_id, modIss]
  case true => simp [checks, setFlags]
/-- What VCHKF's slot changes: CHK and the bundle's mark of it where an element was met, and nothing else. -/
theorem checks_law (hit : Bool) (h : s.iss.act = true) : OnlyCore s (nextSlot (checks hit s)) ∧
    (nextSlot (checks hit s)).iss = { s.iss with slot := s.iss.slot + 1, chkSet := s.iss.chkSet || hit } ∧
    me (nextSlot (checks hit s)) = { me s with flags := if hit then (me s).flags ||| fCHK else (me s).flags } := by
  rw [checks_eq, nextSlot_act (by exact h)]
  obtain ⟨honly, hme⟩ := (OnlyCore.modMe s (fun k => { k with flags := if hit then k.flags ||| fCHK else k.flags })).withIss rfl
    { s.iss with slot := s.iss.slot + 1, chkSet := s.iss.chkSet || hit } rfl
  exact ⟨honly, rfl, hme.trans (me_modMe s _)⟩

/-! LSUPD (R135). -/

/-- A note without a write: the latch entry of the register goes in a handler, and nothing else but the list of written registers changes. -/
theorem note_keeps (r : RegId) (s : State) : OnlyCore s (note r s) ∧ (note r s).iss = { s.iss with wrote := r :: s.iss.wrote } ∧
    me (note r s) = noted s r (me s) := by
  have h := note_only r (fun k => k) s
  rwa [modMe_id] at h
/-- A core whose loss scale has moved by a step, with CHK cleared (R135). -/
def lossStepped (chk : Bool) (k : Core) : Core :=
  { k with lscale := (lsStep chk k.lscale k.flags).1, flags := (lsStep chk k.lscale k.flags).2 &&& ~~~fCHK }
/-- The state that LSUPD leaves where no VCHKF of its bundle has set CHK: two notes, and a step by CHK as it stood at issue. -/
theorem lsupd_exec (h : Ready .lsupd s) (hchk : s.iss.chkSet = false) :
    exec .lsupd s = .next (nextSlot (modMe (note (.c 7) (note (.c 6) s)) (lossStepped ((srcC s 7).getLsbD 4)))) := by
  obtain ⟨-, hiss6, -⟩ := note_keeps (.c 6) s
  obtain ⟨-, hiss7, -⟩ := note_keeps (.c 7) (note (.c 6) s)
  have hkeep : (note (.c 7) (note (.c 6) s)).iss.chkSet = false := by rw [hiss7, hiss6]; exact hchk
  have hsrc : srcC (note (.c 7) (note (.c 6) s)) 7 = srcC s 7 := by rw [srcC, hiss7, hiss6]; rfl
  rw [exec_lsupd, execLsupd, runSlot_go h]
  simp only [hkeep, hsrc, Bool.false_eq_true, if_false]
  rfl
/-- LSUPD changes its core's loss scale and flags by that step, and its latch by the notes. -/
theorem lsupd_commits (h : Ready .lsupd s) (hchk : s.iss.chkSet = false) : ∃ t, exec .lsupd s = .next t ∧ OnlyCore s t ∧ SlotDone s t ∧
    ∃ latch, me t = { lossStepped ((srcC s 7).getLsbD 4) (me s) with latch := latch } := by
  obtain ⟨honly6, hiss6, hme6⟩ := note_keeps (.c 6) s
  obtain ⟨honly7, hiss7, hme7⟩ := note_keeps (.c 7) (note (.c 6) s)
  obtain ⟨⟨honly, hiss⟩, hme⟩ := mulChain ⟨honly6.trans (by rw [hiss6]) honly7, by rw [hiss7, hiss6]⟩ (lossStepped ((srcC s 7).getLsbD 4))
  obtain ⟨honly, hdone, hnext⟩ := setIss_only h.1 honly hiss
  exact ⟨_, lsupd_exec h hchk, honly, hdone, _, by rw [hnext, hme, hme7, hme6]; rfl⟩

end Sys2Proof.Machine
end

section
open Sys2Proof Sys2Proof.Machine

/-- Settles O35: VCHKF and LSUPD by what their commits change, and a wrong tag by the check of its form. -/
theorem tagsAndLossScale : Obligations.TagsAndLossScale := by
  refine ⟨fun s => ⟨fun o hit h htag hhit => ?_, fun h hchk => ?_⟩, fun s i h hbad => ?_⟩
  · subst hhit
    exact ⟨_, vchkf_commits h htag, checks_law _ h.1⟩
  · obtain ⟨t, hexec, honly, hdone, latch, hme⟩ := lsupd_commits h hchk
    refine ⟨t, hexec, honly, hdone, ?_⟩
    rw [hme]
    exact ⟨rfl, ls_step _ _ _⟩
  · rcases hbad with ⟨t, l, hne, hform⟩ | ⟨o, rfl, ht⟩ | ⟨o, rfl, hfmt, hpair⟩ | ⟨o, rfl, hfmt⟩
    · rcases hform with ⟨o, rfl, rfl, hi | ⟨hfmt, hi⟩⟩ | ⟨o, rfl, rfl, hi⟩ | ⟨o, rfl, ⟨rfl, rfl⟩ | ⟨rfl, rfl⟩⟩ | ⟨o, rfl, rfl, hi⟩ |
        ⟨o, rfl, rfl, hi⟩ | ⟨o, rfl, rfl, hi⟩ | ⟨o, rfl, rfl, rfl⟩ | ⟨o, rfl, ⟨rfl, rfl⟩ | ⟨rfl, rfl⟩⟩ | ⟨o, rfl, hpair, rfl⟩
      · exact (arith_fault hi).traps h (tagsAre_mismatch hne)
      · exact (bitwise_fault hfmt hi).traps h (tagsAre_mismatch hne)
      · exact (accumulating_fault hi).traps h (tagsAre_mismatch hne)
      · exact (vwacc_fault o).traps h (by rw [tagsAre_mismatch hne]; rfl)
      · exact (vwacc_fault o).traps h (tagsAre_or_mismatch _ _ hne)
      · exact (oneSource_fault hi).traps h (tagsAre_mismatch hne)
      · exact (comparison_fault hi).traps h (tagsAre_mismatch hne)
      · exact (reduction_fault hi).traps h (tagsAre_mismatch hne)
      · exact (vchkf_fault o).traps h (tagsAre_mismatch hne)
      · exact (vscale_fault o).traps h (by rw [tagsAre_mismatch hne]; rfl)
      · exact (vscale_fault o).traps h (tagsAre_or_mismatch _ _ hne)
      · exact (vpack_fault o).traps h (packSrc_listed _ _ hpair ▸ tagsAre_mismatch hne)
    · exact (vcvt_fault ht).traps h rfl
    · exact (vunpack_fault (unpackOk_unlisted _ _ hfmt hpair)).traps h rfl
    · exact (vtag_fault hfmt).traps h rfl

end

section
/-! PROOFS. What the integer V slots merge into their destinations (R136, R139 to R142). -/
namespace Sys2Proof.Machine
variable {s : State} {i : Instr}

/-! A V slot whose sources carry their tags. -/

/-- A ready slot with no fault of its own merges its results (R136). -/
theorem exec_merges {fault : Option TrapInfo} {d : BitVec 6} {t : Tag} {m : BitVec 3} {f : State → Nat → Rounded}
    (he : exec i s = runSlot i fault false (fun s => vOut d t m (f s) s) s) (hf : fault = none) (h : Ready i s) :
    MergesV s (exec i s) d t m (f s) := by
  rw [he, hf]
  exact runSlot_merges h d t m f
/-- The bitwise forms take any tags under fmt 0x0 (R139). -/
theorem bitTags_none {o : VaF} (h : o.fmt = 0 ∨ ((srcV s o.a).tag = o.fmt ∧ (srcV s o.b).tag = o.fmt)) :
    (if o.fmt = 0 then none else tagsAre s o.fmt [o.a, o.b]) = none := by
  rcases h with h | ⟨ha, hb⟩
  · exact if_pos h
  · rw [tags2 ha hb, ite_self]
/-- Of two checks in a row, both pass (R140, R152). -/
theorem tags_or {t u : Tag} {l m : List (BitVec 6)} (hl : tagsAre s t l = none) (hm : tagsAre s u m = none) :
    (match tagsAre s t l with | some x => some x | none => tagsAre s u m) = none := by rw [hl]; exact hm

/-! The shared forms, each by the element that its results are the codes of. -/

/-- An element of a format, as bits (R118). -/
abbrev Element (t : Tag) := BitVec (tagWidth t.toNat)
/-- A two-source integer form (R139). -/
theorem vInt_merges {o : VaF} {f : Nat → Nat → Nat → Nat} (g : Element o.fmt → Element o.fmt → Element o.fmt)
    (he : exec i s = vInt i o f s) (ha : (srcV s o.a).tag = o.fmt) (hb : (srcV s o.b).tag = o.fmt)
    (hval : ∀ a b : Element o.fmt, f (tagWidth o.fmt.toNat) a.toNat b.toNat = (g a b).toNat) (h : Ready i s) :
    MergesV s (exec i s) o.d o.fmt o.m (fun e => .exact (g (elemOf s o.fmt o.a e) (elemOf s o.fmt o.b e)).toNat) :=
  (exec_merges he (tags2 ha hb) h).to fun _ => congrArg Rounded.exact (hval _ _)
/-- A bitwise form (R139). -/
theorem vBit_merges {o : VaF} {f : Nat → Nat → Nat} (g : Element o.fmt → Element o.fmt → Element o.fmt)
    (he : exec i s = vBit i o f s) (ht : o.fmt = 0 ∨ ((srcV s o.a).tag = o.fmt ∧ (srcV s o.b).tag = o.fmt))
    (hval : ∀ a b : Element o.fmt, f a.toNat b.toNat = (g a b).toNat) (h : Ready i s) :
    MergesV s (exec i s) o.d o.fmt o.m (fun e => .exact (g (elemOf s o.fmt o.a e) (elemOf s o.fmt o.b e)).toNat) :=
  (exec_merges he (bitTags_none ht) h).to fun _ => congrArg Rounded.exact (hval _ _)

/-! Codes of elements, and the elements themselves (R118, R139). -/

section
variable {w : Nat}
theorem sub_code (a b : BitVec w) : (a.toNat + 2 ^ w - b.toNat) % 2 ^ w = (a - b).toNat := by
  have := b.isLt
  rw [BitVec.toNat_sub, show 2 ^ w - b.toNat + a.toNat = a.toNat + 2 ^ w - b.toNat by omega]
theorem mulAdd_code (d a b : BitVec w) : (d.toNat + a.toNat * b.toNat) % 2 ^ w = (d + a * b).toNat := by
  rw [BitVec.toNat_add, BitVec.toNat_mul, Nat.add_mod_mod]
theorem shiftLeft_code (a : BitVec w) (k : Nat) : a.toNat * 2 ^ k % 2 ^ w = (a <<< k).toNat := by
  rw [BitVec.toNat_shiftLeft, Nat.shiftLeft_eq]
theorem shiftRight_code (a : BitVec w) (k : Nat) : a.toNat / 2 ^ k = (a >>> k).toNat := by
  rw [BitVec.toNat_ushiftRight, Nat.shiftRight_eq_div_pow]

variable (hw : 0 < w)
include hw
/-- The high half of a signed product, floored (R139). -/
theorem mulHigh_code (a b : BitVec w) :
    uInt w (sInt w a.toNat * sInt w b.toNat / (2 ^ w : Nat)) = (BitVec.ofInt w (a.toInt * b.toInt / 2 ^ w)).toNat := by
  rw [uInt_eq, sInt_toNat hw, sInt_toNat hw, Nat.cast_pow]
  rfl
theorem signedShiftRight_code (a : BitVec w) (k : Nat) : uInt w (sInt w a.toNat / (2 ^ k : Nat)) = (a.sshiftRight k).toNat := by
  rw [uInt_eq, sInt_toNat hw, BitVec.sshiftRight, Int.shiftRight_eq_div_pow]
theorem signedMin_code (a b : BitVec w) :
    (if sInt w b.toNat < sInt w a.toNat then b.toNat else a.toNat) = (BitVec.ofInt w (min a.toInt b.toInt)).toNat := by
  rw [sInt_toNat hw, sInt_toNat hw]
  split
  case isTrue h => rw [min_eq_right h.le, BitVec.ofInt_toInt]
  case isFalse h => rw [min_eq_left (not_lt.1 h), BitVec.ofInt_toInt]
theorem signedMax_code (a b : BitVec w) :
    (if sInt w a.toNat < sInt w b.toNat then b.toNat else a.toNat) = (BitVec.ofInt w (max a.toInt b.toInt)).toNat := by
  rw [sInt_toNat hw, sInt_toNat hw]
  split
  case isTrue h => rw [max_eq_right h.le, BitVec.ofInt_toInt]
  case isFalse h => rw [max_eq_left (not_lt.1 h), BitVec.ofInt_toInt]
/-- VABS clamps the one magnitude that the format does not hold (R139). -/
theorem abs_clamped (a : BitVec w) : satCode w (sInt w a.toNat).natAbs = clamped w |a.toInt| := by
  rw [satCode_eq hw, sInt_toNat hw, Int.natCast_natAbs]
/-- The sum of one lane of VWACC, clamped once (R140). -/
theorem dot_clamped (d : BitVec 32) (a b : Nat → BitVec w) (n : Nat) :
    satCode 32 (sInt 32 d.toNat + dotGo w (fun j => (a j).toNat) (fun j => (b j).toNat) n) =
      clamped 32 (d.toInt + ((List.range n).map (fun j => (a j).toInt * (b j).toInt)).sum) := by
  rw [satCode_eq (by decide), sInt_toNat (by decide), dotGo_eq w hw]
end

end Sys2Proof.Machine
end

section
open Sys2Proof Sys2Proof.Machine

/-- Settles O27: each sum or product of codes is the code of the sum or product of the elements, and VWACC clamps the exact sum. -/
theorem vectorSumsAndProducts : Obligations.VectorSumsAndProducts := by
  refine fun s => ⟨fun o ha hb => ?_, fun o ha hb => ?_⟩
  · have hw := tagWidth_pos o.fmt.toNat
    exact ⟨vInt_merges (fun a b => a + b) (exec_vadd o s) ha hb fun _ _ => (BitVec.toNat_add _ _).symm,
      vInt_merges (fun a b => a - b) (exec_vsub o s) ha hb sub_code,
      vInt_merges (fun a b => a * b) (exec_vmul o s) ha hb fun _ _ => (BitVec.toNat_mul _ _).symm,
      vInt_merges (fun a b => .ofInt _ (a.toInt * b.toInt / 2 ^ tagWidth o.fmt.toNat)) (exec_vmulh o s) ha hb (mulHigh_code hw)⟩
  · have hw := tagWidth_pos o.fmt.toNat
    exact ⟨fun h hd => (exec_merges (exec_vmad o s) (tags3 ha hb hd) h).to fun e =>
        congrArg Rounded.exact (mulAdd_code (elemOf s o.fmt o.d e) (elemOf s o.fmt o.a e) (elemOf s o.fmt o.b e)),
      fun h hd => (exec_merges (exec_vwacc o s) (tags_or (tags2 ha hb) (tags1 hd)) h).to fun i =>
        dot_clamped hw (elem (srcV s o.d).bits 32 i) _ _ _⟩

/-- Settles O28: each form's code is that of the element its rule names; the products without carries and the counts are codes already. -/
theorem vectorBitsShiftsAndLimits : Obligations.VectorBitsShiftsAndLimits := by
  refine fun s => ⟨fun o ht => ?_, fun o ha hb => ?_, fun o h ha => ?_, fun o h => ?_, fun o h => ?_, fun o h => ?_⟩
  · exact ⟨vBit_merges (fun a b => a &&& b) (exec_vand o s) ht fun _ _ => (BitVec.toNat_and _ _).symm,
      vBit_merges (fun a b => a ||| b) (exec_vor o s) ht fun _ _ => (BitVec.toNat_or _ _).symm,
      vBit_merges (fun a b => a ^^^ b) (exec_vxor o s) ht fun _ _ => (BitVec.toNat_xor _ _).symm⟩
  · have hw := tagWidth_pos o.fmt.toNat
    exact ⟨vInt_merges (fun a b => a <<< (b.toNat % tagWidth o.fmt.toNat)) (exec_vshl o s) ha hb fun _ _ => shiftLeft_code _ _,
      vInt_merges (fun a b => a >>> (b.toNat % tagWidth o.fmt.toNat)) (exec_vshr o s) ha hb fun _ _ => shiftRight_code _ _,
      vInt_merges (fun a b => a.sshiftRight (b.toNat % tagWidth o.fmt.toNat)) (exec_vsar o s) ha hb fun _ _ => signedShiftRight_code hw _ _,
      vInt_merges (fun a b => .ofInt _ (min a.toInt b.toInt)) (exec_vmin o s) ha hb (signedMin_code hw),
      vInt_merges (fun a b => .ofInt _ (max a.toInt b.toInt)) (exec_vmax o s) ha hb (signedMax_code hw)⟩
  · exact (exec_merges (exec_vabs o s) (tags1 ha) h).to fun _ => abs_clamped (tagWidth_pos _) (elemOf s o.fmt o.a _)
  · exact exec_merges (exec_vclmulLo o s) rfl h
  · exact exec_merges (exec_vclmulHi o s) rfl h
  · exact (exec_merges (exec_vpopc o s) rfl h).to fun _ => congrArg Rounded.exact (pop_spec 32 _)

end

section
/-! PROOFS. The floating-point V slots, the comparisons and the special functions (R143 to R148). -/
namespace Sys2Proof.Machine
variable {s : State} {i : Instr}

/-! The shared forms. -/

/-- A two-source form that rounds its exact result once (R143). -/
theorem vFp_merges {o : VaF} {f : FV → FV → FV × Bool} (he : exec i s = vFp i o f s) (ha : (srcV s o.a).tag = o.fmt)
    (hb : (srcV s o.b).tag = o.fmt) (h : Ready i s) : MergesV s (exec i s) o.d o.fmt o.m (fun e =>
      { (fmtOf o.fmt.toNat).rnd (vRnd s o.rnd e) (f (fel s o.fmt o.a e) (fel s o.fmt o.b e)).1 with
        inv := (f (fel s o.fmt o.a e) (fel s o.fmt o.b e)).2 }) :=
  exec_merges he (tags2 ha hb) h
/-- A form that picks one of two values (R144). -/
theorem vPick_merges {o : VaF} {f : FV → FV → FV} (he : exec i s = vPick i o f s) (ha : (srcV s o.a).tag = o.fmt)
    (hb : (srcV s o.b).tag = o.fmt) (h : Ready i s) : MergesV s (exec i s) o.d o.fmt o.m (fun e =>
      .exact ((fmtOf o.fmt.toNat).rnd .rne (f (fel s o.fmt o.a e) (fel s o.fmt o.b e))).code) :=
  exec_merges he (tags2 ha hb) h
/-- A form on the sign of one value (R144). -/
theorem vSign_merges {o : VaOneF} {f : FV → FV} (he : exec i s = vSign i o f s) (ha : (srcV s o.a).tag = o.fmt) (h : Ready i s) :
    MergesV s (exec i s) o.d o.fmt o.m (fun e => .exact ((fmtOf o.fmt.toNat).rnd .rne (f (fel s o.fmt o.a e))).code) :=
  exec_merges he (tags1 ha) h

/-! Comparisons and masks (R145, R146). -/

/-- A ready slot with no fault of its own writes its mask. -/
theorem exec_writesM {fault : Option TrapInfo} {d : BitVec 3} {x : State → W64}
    (he : exec i s = runSlot i fault false (fun s => wrM d (x s) s) s) (hf : fault = none) (h : Ready i s) :
    WritesM s (exec i s) d (x s) := by
  rw [he, hf]
  exact runSlot_writesM h d x
/-- The formats that a comparison takes have elements that fill lanes, or share one. -/
theorem compared_width : ∀ t : Tag, t.toNat ∈ [1, 2, 3, 4] ∨ t.toNat ∈ [5, 6] →
    tagWidth t.toNat = 8 ∨ tagWidth t.toNat = 16 ∨ tagWidth t.toNat = 32 ∨ tagWidth t.toNat = 64 := by decide
/-- A comparison writes, for each lane, whether the lane is enabled and every element on it meets the condition (R145). -/
theorem compares {o : VcF} {f : Nat → Bool} {p : Nat → Prop} (hcomp : WritesM s (exec i s) o.d (laneMask (srcM s o.m) (tagWidth o.fmt.toNat) f))
    (hfmt : o.fmt.toNat ∈ [1, 2, 3, 4] ∨ o.fmt.toNat ∈ [5, 6]) (hp : ∀ e, f e = true ↔ p e) :
    ∃ x, WritesM s (exec i s) o.d x ∧ ∀ i, i < 64 → (x.getLsbD i = true ↔ (srcM s o.m).getLsbD i = true ∧
      ∀ e, e < 2048 / tagWidth o.fmt.toNat →
        32 * i < tagWidth o.fmt.toNat * (e + 1) → tagWidth o.fmt.toNat * e < 32 * (i + 1) → p e) :=
  ⟨_, hcomp, fun _ hi => by simp only [mask_iff (compared_width o.fmt hfmt) hi, hp]⟩
/-- The conditions on integers: signed from .lt to .gt, unsigned after them (R145). -/
theorem condV_iff {w : Nat} (hw : 0 < w) (cc : BitVec 4) (a b : BitVec w) : condV cc w a.toNat b.toNat = true ↔
    match cc.toNat with
    | 0 => a = b
    | 1 => a ≠ b
    | 2 => a.toInt < b.toInt
    | 3 => b.toInt ≤ a.toInt
    | 4 => a.toInt ≤ b.toInt
    | 5 => b.toInt < a.toInt
    | 6 => a.toNat < b.toNat
    | 7 => b.toNat ≤ a.toNat
    | 8 => a.toNat ≤ b.toNat
    | _ => b.toNat < a.toNat := by
  unfold condV
  rcases cc.toNat with _ | _ | _ | _ | _ | _ | _ | _ | _ | n <;> simp [sInt_toNat hw, BitVec.toNat_inj]
/-- The conditions on values: a NaN on either side makes .ne and .un true and the others false (R145). -/
theorem condF_iff (cc : BitVec 4) (a b : FV) : condF cc a b = true ↔
    if a.isNan ∨ b.isNan then cc.toNat = 1 ∨ cc.toNat = 6
    else match cc.toNat with
      | 0 => FV.eqNum a b
      | 1 => ¬ FV.eqNum a b
      | 2 => FV.ltNum a b
      | 3 => ¬ FV.ltNum a b
      | 4 => ¬ FV.ltNum b a
      | 5 => FV.ltNum b a
      | 6 => False
      | _ => True := by
  unfold condF
  by_cases hnan : a.isNan ∨ b.isNan
  · simp [hnan]
  · rw [if_neg hnan, if_neg (by simpa using hnan)]
    rcases cc.toNat with _ | _ | _ | _ | _ | _ | _ | n <;> simp

/-! Special functions (R147, R148). -/

/-- A special function in flight: its merge lands 16 cycles after issue, and its flags are those of the enabled elements. -/
theorem vSpecial_lands {o : VaOneF} {f : FV → FV × Bool} (he : exec i s = vSpecial i o f s) (ha : (srcV s o.a).tag = o.fmt) (h : Ready i s) :
    ∃ x fl, FlightV s (exec i s) o.d o.fmt (s.iss.t + 16) x fl ∧
      (∀ e, e < 2048 / tagWidth o.fmt.toNat → elem x (tagWidth o.fmt.toNat) e =
        if enabled (srcM s o.m) (tagWidth o.fmt.toNat) e
        then BitVec.ofNat _ ((fmtOf o.fmt.toNat).rnd .rne (f (fel s o.fmt o.a e)).1).code
        else elem (rdV (me s).regs o.d).bits (tagWidth o.fmt.toNat) e) ∧
      ∀ b, fl.getLsbD b = (upto (2048 / tagWidth o.fmt.toNat)).any (fun e => enabled (srcM s o.m) (tagWidth o.fmt.toNat) e &&
        (flagsOf { (fmtOf o.fmt.toNat).rnd .rne (f (fel s o.fmt o.a e)).1 with inv := (f (fel s o.fmt o.a e)).2 }).getLsbD b) := by
  rw [vSpecial, tags1 ha] at he
  refine ⟨_, _, he ▸ runSlot_flightV h o.d o.fmt 16 _ _, fun e hlt => ?_, fun b => ?_⟩
  · exact elem_mergeGo _ (tagWidth_pos _) _ _ hlt (width_fits _)
  · exact mergeGo_flag _ _ _ _ b _

end Sys2Proof.Machine
end

section
open Sys2Proof Sys2Proof.Machine

/-- Settles O29: each form is a merge of values rounded once, or of values that no rounding changes. -/
theorem vectorFloatsRoundOnce : Obligations.VectorFloatsRoundOnce := by
  intro s
  exact ⟨fun o ha hb => ⟨vFp_merges (exec_vfadd o s) ha hb, vFp_merges (exec_vfsub o s) ha hb, vFp_merges (exec_vfmul o s) ha hb,
      vPick_merges (exec_vfmin o s) ha hb, vPick_merges (exec_vfmax o s) ha hb⟩,
    fun o ha hb hd h => exec_merges (exec_vfma o s) (tags3 ha hb hd) h,
    fun o ha => ⟨vSign_merges (exec_vfabs o s) ha, vSign_merges (exec_vfneg o s) ha⟩⟩

/-- Settles O30: a comparison by the bits of its lane mask, and mask logic by the write of one mask. -/
theorem vectorComparisonsAndMasks : Obligations.VectorComparisonsAndMasks := by
  refine fun s => ⟨fun o h ha hb hfmt _ => ?_, fun o h ha hb hfmt _ => ?_, fun o h => ?_, fun o h => ?_, fun o h => ?_⟩
  · have hmask := exec_writesM (exec_vmcmp o s) (tags2 ha hb) h
    exact compares hmask (.inl hfmt) fun e =>
      condV_iff (tagWidth_pos _) o.cc (elemOf s o.fmt o.a e) (elemOf s o.fmt o.b e)
  · have hmask := exec_writesM (exec_vfcmp o s) (tags2 ha hb) h
    exact compares hmask (.inr hfmt) fun e => condF_iff o.cc (fel s o.fmt o.a e) (fel s o.fmt o.b e)
  · exact exec_writesM (exec_mand o s) rfl h
  · exact exec_writesM (exec_mor o s) rfl h
  · exact exec_writesM (exec_mnot o s) rfl h

/-- Settles O31: the five are one form, each with its own function. -/
theorem specialFunctionsLandAfter16Cycles : Obligations.SpecialFunctionsLandAfter16Cycles := by
  intro s o ha
  exact ⟨vSpecial_lands (exec_vexp2 o s) ha, vSpecial_lands (exec_vlog2 o s) ha, vSpecial_lands (exec_vrcp o s) ha,
    vSpecial_lands (exec_vrsq o s) ha, vSpecial_lands (exec_vsqrt o s) ha⟩

end

section
/-! PROOFS. Conversions, reductions and moves of the V slots (R149 to R156). -/
namespace Sys2Proof.Machine
variable {s : State} {i : Instr}

/-! Conversions (R149 to R153). -/

theorem zeroCode_match (n : Nat) : zeroCode n = match n with | 8 => 119 | 9 => 7 | _ => 0 := by
  by_cases h8 : n = 8
  · subst h8; rfl
  · by_cases h9 : n = 9
    · subst h9; rfl
    · simp [zeroCode, h8, h9]
/-- VCVT takes every tag but NONE and E8 (R149). -/
theorem cvtTag_none {t : Tag} (h0 : t ≠ 0) (h10 : t ≠ 10) :
    (if t = 0 || t = 10 then some (trapPlain s cTagMismatch) else none) = none :=
  if_neg (by simpa using ⟨h0, h10⟩)
/-- The pairs of formats that R150 lists are those that VUNPACK takes. -/
theorem unpackOk_listed : ∀ fmt t : Tag, (t.toNat, fmt.toNat) ∈
    [(1, 2), (1, 3), (2, 3), (1, 5), (8, 5), (9, 5), (1, 6), (2, 6), (5, 6), (8, 6), (9, 6)] → unpackOk fmt t = true := by decide
/-- The source format of VPACK is the one that R151 pairs with its format. -/
theorem packSrc_paired : ∀ fmt t : Tag, (t.toNat, fmt.toNat) ∈ [(2, 1), (6, 5), (5, 8), (8, 9)] → packSrc fmt = t := by decide
theorem vcvt_merges {o : VaOneF} (h : Ready (.vcvt o) s) (h0 : (srcV s o.a).tag ≠ 0) (h10 : (srcV s o.a).tag ≠ 10) :
    MergesV s (exec (.vcvt o) s) o.d o.fmt o.m (fun e =>
      if e < 2048 / tagWidth (srcV s o.a).tag.toNat
      then convert (srcV s o.a).tag.toNat o.fmt.toNat (vRnd s o.rnd e) (elemOf s (srcV s o.a).tag o.a e).toNat
      else .exact (zeroCode o.fmt.toNat)) :=
  exec_merges (exec_vcvt o s) (cvtTag_none h0 h10) h
/-- VPACK's results, by the pair of formats that R151 lists. -/
theorem vpack_merges {o : VaF} {t : Tag} (h : Ready (.vpack o) s) (hpair : packSrc o.fmt = t) (ha : (srcV s o.a).tag = t)
    (hb : (srcV s o.b).tag = t) : MergesV s (exec (.vpack o) s) o.d o.fmt o.m (fun e => convert t.toNat o.fmt.toNat (vRnd s o.rnd e)
      (if e < 2048 / tagWidth t.toNat then (elemOf s t o.a e).toNat else (elemOf s t o.b (e - 2048 / tagWidth t.toNat)).toNat)) := by
  subst hpair
  exact exec_merges (exec_vpack o s) (tags2 ha hb) h

/-! Reductions (R154, R155). -/

/-- A v register written whole with flags, as VRED writes it. -/
theorem writesFlags_law (d : BitVec 6) (x : VBits) (t : Tag) (f : BitVec 7) (h : s.iss.act = true) :
    let u := nextSlot (setFlags f (wrV d x t s))
    OnlyCore s u ∧ SlotDone s u ∧ Noted (.v d) s u ∧ rdV (me u).regs d = ⟨x, t, true⟩ ∧ (me u).flags = (me s).flags ||| f ∧
      (∀ n, n ≠ d → rdV (me u).regs n = rdV (me s).regs n) ∧
      me u = { me s with regs := { (me s).regs with v := (me u).regs.v }, flags := (me u).flags, latch := (me u).latch } := by
  have hone : setFlags f (wrV d x t s) = note (.v d) (modMe s (fun k => { k.setV d ⟨x, t, true⟩ with flags := k.flags ||| f })) :=
    noted_then (.v d) (fun k => k.setV d ⟨x, t, true⟩) (fun k => { k with flags := k.flags ||| f }) s fun _ => rfl
  obtain ⟨honly, hdone, hme⟩ := next_note_modMe (.v d) (fun k => { k.setV d ⟨x, t, true⟩ with flags := k.flags ||| f }) s h
  rw [Core.setV] at hme
  intro u
  rw [show u = _ from congrArg nextSlot hone, Noted, hme]
  refine ⟨honly, hdone, rfl, ?_, rfl, fun n hn => ?_, rfl⟩
  · simp [noted, rdV]
  · simp [noted, rdV, Vector.getElem_set_ne _ _ (Ne.symm (toFin_ne hn))]

/-- The enabled elements below n that VRED and VSCAN reduce, as the library filters a range. -/
theorem enabledBelow_filter (m : W64) (w n : Nat) : enabledBelow m w n = (List.range n).filter (fun e => enabled m w e) := by
  rw [enabledBelow, upto_range]
theorem isInt_listed {n : Nat} (h : n ∈ [1, 2, 3, 4]) : isInt n = true := by revert n; decide
theorem isInt_float {n : Nat} (h : n ∈ [5, 6]) : isInt n = false := by revert n; decide
/-- An integer reduction, over the codes of the enabled elements (R154). -/
theorem redVal_int {o : VredF} (n : Nat) (mode : Rnd) (hfmt : o.fmt.toNat ∈ [1, 2, 3, 4]) :
    redVal s o n mode = .exact (redInt o.op.toNat (tagWidth o.fmt.toNat)
      (((List.range n).filter (fun e => enabled (srcM s o.m) (tagWidth o.fmt.toNat) e)).map (fun e => (elemOf s o.fmt o.a e).toNat))) := by
  rw [redVal, if_pos (isInt_listed hfmt), enabledBelow_filter]
  rfl
/-- A floating-point reduction of no element: its neutral value, rounded (R154). -/
theorem redVal_noFloat {o : VredF} {n : Nat} (mode : Rnd) (hfmt : o.fmt.toNat ∈ [5, 6])
    (hnone : (List.range n).filter (fun e => enabled (srcM s o.m) (tagWidth o.fmt.toNat) e) = []) :
    redVal s o n mode =
      { (fmtOf o.fmt.toNat).rnd (if o.op = 0 then mode else .rne) (redFp o.op.toNat []).1 with inv := (redFp o.op.toNat []).2 } := by
  rw [redVal, if_neg (by rw [isInt_float hfmt]; decide), enabledBelow_filter, hnone]
  rfl
/-- The neutral values: +0 for a sum, and for a minimum and a maximum the infinity that gives way to every value (R154). -/
theorem redFp_noSum (f : Fmt) (mode : Rnd) : ({ f.rnd mode (redFp 0 []).1 with inv := (redFp 0 []).2 } : Rounded) = .exact 0 := by
  simp [redFp, Fmt.rnd, Fmt.round, Rounded.exact]
theorem redFp_noMin (f : Fmt) (mode : Rnd) : ({ f.rnd mode (redFp 1 []).1 with inv := (redFp 1 []).2 } : Rounded) = .exact f.infCode := by
  simp [redFp, Fmt.rnd, Rounded.exact]
theorem redFp_noMax (f : Fmt) (mode : Rnd) : ({ f.rnd mode (redFp 2 []).1 with inv := (redFp 2 []).2 } : Rounded) = .exact (f.infCode + f.sign) := by
  simp [redFp, Fmt.rnd, Rounded.exact]

section
variable {w : Nat} (f : Nat → BitVec w)
theorem fold_add : ∀ (l : List Nat) (y : BitVec w), (l.map (fun e => (f e).toNat)).foldl (fun a x => (a + x) % 2 ^ w) y.toNat =
    (BitVec.ofInt w (y.toInt + (l.map (fun e => (f e).toInt)).sum)).toNat
  | [], y => by simp
  | x :: l, y => by
    simp only [List.map_cons, List.foldl_cons, List.sum_cons, ← BitVec.toNat_add, fold_add l, BitVec.ofInt_add, BitVec.ofInt_toInt, add_assoc]
/-- The sum of codes modulo 2^w is the code of the sum of the signed elements (R154). -/
theorem redInt_sum (l : List Nat) :
    redInt 0 w (l.map (fun e => (f e).toNat)) = (BitVec.ofInt w (l.map (fun e => (f e).toInt)).sum).toNat := by
  have h := fold_add f l 0#w
  rwa [BitVec.toInt_zero, zero_add] at h
variable (hw : 0 < w)
include hw
/-- The minimum starts from the greatest element, which is the minimum of none (R154). -/
theorem redInt_min (l : List Nat) : redInt 1 w (l.map (fun e => (f e).toNat)) =
    (BitVec.ofInt w ((l.map (fun e => (f e).toInt)).foldl min (2 ^ (w - 1) - 1))).toNat := by
  have h := fold_min hw f l (BitVec.intMax w)
  rwa [BitVec.toInt_intMax, BitVec.toNat_intMax] at h
/-- The maximum starts from the least element (R154). -/
theorem redInt_max (l : List Nat) : redInt 2 w (l.map (fun e => (f e).toNat)) =
    (BitVec.ofInt w ((l.map (fun e => (f e).toInt)).foldl max (-2 ^ (w - 1)))).toNat := by
  have h := fold_max hw f l (BitVec.intMin w)
  rwa [BitVec.toInt_intMin_of_pos hw, BitVec.toNat_intMin, Nat.mod_eq_of_lt (Nat.pow_lt_pow_right (by decide) (by omega))] at h
end

/-! Registers written whole (R156). -/

/-- A ready slot with no fault of its own writes its v register. -/
theorem exec_writesV {fault : Option TrapInfo} {d : BitVec 6} {x : State → VBits} {t : State → Tag}
    (he : exec i s = runSlot i fault false (fun s => wrV d (x s) (t s) s) s) (hf : fault = none) (h : Ready i s) :
    WritesV s (exec i s) d (x s) (t s) := by
  rw [he, hf]
  exact runSlot_writesV h d t x
theorem vsel_writes {o : VaF} (h : Ready (.vsel o) s) : ∃ x, WritesV s (exec (.vsel o) s) o.d x
    (if (srcV s o.a).tag = (srcV s o.b).tag then (srcV s o.a).tag else 0) ∧
    ∀ i, i < 64 → laneOf x i = if (srcM s o.m).getLsbD i then laneOf (srcV s o.a).bits i else laneOf (srcV s o.b).bits i := by
  have hwrites := exec_writesV (exec_vsel o s) rfl h
  refine ⟨_, hwrites, fun i hi => ?_⟩
  rw [lane_build _ i hi]
  split <;> rfl
theorem enabled_lane (m : W64) (i : Nat) : enabled m 32 i = m.getLsbD i := by
  rw [enabled, show 32 * i / 32 = i by omega, show (32 * i + 32 - 1) / 32 = i by omega, Bool.and_self]
/-- VLANE merges one lane into the enabled lanes, whatever the formats of its registers (R156). -/
theorem vlane_writes {o : VaF} (h : Ready (.vlane o) s) : ∃ x, WritesV s (exec (.vlane o) s) o.d x (srcV s o.a).tag ∧
    ∀ i, i < 64 → laneOf x i = if (srcM s o.m).getLsbD i then laneOf (srcV s o.a).bits ((srcS s o.b).toNat % 64)
      else laneOf (rdV (me s).regs o.d).bits i := by
  have hwrites := exec_writesV (exec_vlane o s) rfl h
  refine ⟨_, hwrites, fun i hi => ?_⟩
  refine (elem_mergeGo (w := 32) (n := 64) _ (by decide) _ _ hi (by decide)).trans ?_
  rw [mergeVal, enabled_lane, Rounded.exact, el, BitVec.ofNat_toNat, BitVec.setWidth_eq]
  rfl

end Sys2Proof.Machine
end

section
open Sys2Proof Sys2Proof.Machine

/-- Settles O32: each form merges its conversions, once its check lets the tags of its sources pass. -/
theorem vectorConversions : Obligations.VectorConversions := by
  refine fun s => ⟨fun o h h0 h10 => ?_, fun o h hpair => ?_, fun o t h hpair ha hb => ?_, fun o h ha hb => ?_, fun o h hfmt => ?_⟩
  · exact (vcvt_merges h h0 h10).to fun e => if_congr Iff.rfl rfl (congrArg Rounded.exact (zeroCode_match _))
  · exact exec_merges (exec_vunpack o s) (if_pos (unpackOk_listed _ _ hpair)) h
  · exact vpack_merges h (packSrc_paired _ _ hpair) ha hb
  · exact (exec_merges (exec_vscale o s) (tags_or (tags1 ha) (tags1 hb)) h).to fun e => scale_eq _ _ _ _
  · exact exec_merges (exec_vtag o s) (if_neg hfmt) h

/-- Settles O33: VRED by the register and the flags it writes, VSCAN by its merge, and the values by the folds that compute them. -/
theorem reductionsAndScans : Obligations.ReductionsAndScans := by
  refine fun s o ha => ⟨fun h => ?_, fun h => ?_, fun n mode hfmt => ?_, fun n mode hfmt hnone => ?_⟩
  · obtain ⟨honly, hdone, hnoted, hd, hflags, hframe⟩ := writesFlags_law o.d
      (BitVec.ofNat 2048 (redVal s o (nElems o.fmt) (vRnd s o.rnd 0)).code) o.fmt (flagsOf (redVal s o (nElems o.fmt) (vRnd s o.rnd 0))) h.1
    refine ⟨_, _, ?_, honly, hdone, hnoted, rfl, hd, hflags, hframe⟩
    rw [exec_vred, execVred, tags1 ha, runSlot_go h]
  · exact exec_merges (exec_vscan o s) (tags1 ha) h
  · have hw := tagWidth_pos o.fmt.toNat
    rw [redVal_int n mode hfmt]
    refine ⟨fun hop => ?_, fun hop => ?_, fun hop => ?_⟩ <;> rw [hop]
    · exact congrArg Rounded.exact (redInt_sum _ _)
    · exact congrArg Rounded.exact (redInt_min _ hw _)
    · exact congrArg Rounded.exact (redInt_max _ hw _)
  · rw [redVal_noFloat mode hfmt hnone]
    refine ⟨fun hop => ?_, fun hop => ?_, fun hop => ?_⟩ <;> rw [hop]
    · exact redFp_noSum _ _
    · exact redFp_noMin _ _
    · exact redFp_noMax _ _

/-- Settles O34: the writes and merges of the four forms. -/
theorem vectorMoves : Obligations.VectorMoves := by
  intro s
  exact ⟨fun o => exec_merges (exec_vsplat o s) rfl, fun o h => exec_vmovs o s ▸ runSlot_writesS h o.d _,
    fun o => vsel_writes, fun o => vlane_writes⟩

end

section
/-! PROOFS. The crossbar (R158 to R162). -/
namespace Sys2Proof.Machine
variable {s : State} {i : Instr}

/-- A crossbar form that gives each lane of vd one lane of va (R158). -/
theorem moveLanes_moves {fault : Option TrapInfo} {d a : BitVec 6} {f : State → Nat → Nat}
    (he : exec i s = runSlot i fault false (fun s => moveLanes d a (f s) s) s) (hf : fault = none) (h : Ready i s) :
    ∃ x, WritesV s (exec i s) d x (srcV s a).tag ∧ ∀ i, i < 64 → laneOf x i = laneOf (srcV s a).bits (f s i) :=
  ⟨_, exec_writesV he hf h, fun i hi => lane_build _ i hi⟩
theorem shufLane_match (c i : Nat) : shufLane c i = match c with
    | 0 => if i % 2 = 0 then i / 2 else 32 + i / 2
    | 1 => if i % 2 = 0 then 32 + i / 2 else i / 2
    | 2 => if i < 32 then 2 * i else 2 * (i - 32) + 1
    | _ => if i < 32 then 2 * i + 1 else 2 * (i - 32) := by
  rcases c with _ | _ | _ | c <;> rfl

/-! The permutation rule (R160). -/

/-- A pattern passes exactly when no two of its lanes name one lane. -/
theorem permClash_false_iff (p : BitVec 6) :
    permClash s p = false ↔ ∀ i j, i < j → j < 64 → permLane s p i ≠ permLane s p j := by
  rw [permClash, Bool.not_eq_false', decide_eq_true_iff, List.nodup_map_iff_inj_on (upto_range 64 ▸ List.nodup_range)]
  simp only [mem_upto]
  constructor
  · exact fun hinj i j hij hj heq => hij.ne (hinj i (hij.trans hj) j hj heq)
  · intro hne i hi j hj heq
    rcases lt_trichotomy i j with hlt | rfl | hgt
    · exact absurd heq (hne i j hlt hj)
    · rfl
    · exact absurd heq.symm (hne j i hgt hi)

/-! The lanes that XCMPR packs (R162). -/

/-- Of the numbers below n with a property, one has as many before it as there are below it. -/
theorem filter_range_position (p : Nat → Bool) {n i : Nat} (hi : i < n) (hp : p i = true) :
    ((List.range n).filter p)[(List.range i).countP p]? = some i := by
  obtain ⟨k, rfl⟩ := Nat.exists_eq_add_of_lt hi
  rw [show i + k + 1 = i + (k + 1) by omega, List.range_add, List.range_succ_eq_map, List.map_cons, List.filter_append, Nat.add_zero,
    List.filter_cons_of_pos hp, List.countP_eq_length_filter, List.getElem?_append_right le_rfl, Nat.sub_self]
  rfl
theorem lanesOn_filter (m : W64) : lanesOn m = (List.range 64).filter (fun i => m.getLsbD i) := by rw [lanesOn, upto_range]
theorem xcmpr_packs {o : XgF} (h : Ready (.xcmpr o) s) : ∃ x, WritesV s (exec (.xcmpr o) s) o.d x (srcV s o.a).tag ∧
    (∀ i, i < 64 → (srcM s o.g).getLsbD i = true →
      laneOf x ((List.range i).countP (fun j => (srcM s o.g).getLsbD j)) = laneOf (srcV s o.a).bits i) ∧
    (∀ k, k < 64 → (List.range 64).countP (fun j => (srcM s o.g).getLsbD j) ≤ k → laneOf x k = 0) := by
  have hwrites := exec_writesV (exec_xcmpr o s) rfl h
  refine ⟨_, hwrites, fun i hi hon => ?_, fun k hk hle => ?_⟩
  · have hplace : (List.range i).countP (fun j => (srcM s o.g).getLsbD j) < 64 :=
      (List.countP_le_length.trans_eq List.length_range).trans_lt hi
    rw [lane_build _ _ hplace, lanesOn_filter, filter_range_position _ hi hon]
  · rw [lane_build _ k hk, lanesOn_filter, List.getElem?_eq_none (List.countP_eq_length_filter ▸ hle)]

end Sys2Proof.Machine
end

section
open Sys2Proof Sys2Proof.Machine

/-- Settles O36: each form moves the lanes its rule names, XPERM once its pattern passes the check. -/
theorem crossbarMovesLanes : Obligations.CrossbarMovesLanes := by
  refine fun s => ⟨fun o h hperm => ?_, fun o i j h hij hj heq => ?_, fun o => moveLanes_moves (exec_xrot o s) rfl,
    fun o => moveLanes_moves (exec_xbcast o s) rfl, fun o => moveLanes_moves (exec_xrev o s) rfl, fun o h _ => ?_, fun o => xcmpr_packs⟩
  · have hpass : permClash s o.p = false := (permClash_false_iff o.p).2 hperm
    exact moveLanes_moves (exec_xperm o s) (if_neg (by rw [hpass]; decide)) h
  · have hclash : permClash s o.p = true := by
      by_contra hpass
      exact (permClash_false_iff o.p).1 (Bool.eq_false_of_not_eq_true hpass) i j hij hj heq
    rw [exec_xperm, execXperm, if_pos hclash, runSlot_trap h]
  · obtain ⟨x, hwrites, hlanes⟩ := moveLanes_moves (exec_xshuf o s) rfl h
    exact ⟨x, hwrites, fun i hi => (hlanes i hi).trans (congrArg _ (shufLane_match _ _))⟩

end

section
/-! PROOFS. The weight latch, tiles and their streams: WLD, ZCLR, ZROT, DRAIN, BEAT, ZSPILL and ZFILL (R163 to R179). -/
namespace Sys2Proof.Machine

/-! The weight latch (R165 to R169). -/

/-- WLD passes its checks with the gate closed and a row within the slice, counted in half rows for PW4 (R166, R169). -/
theorem wldFault_none {s : State} {o : WldF} (hgate : gateOf s = false) (hrow : wldRow s o < 1024) : wldFault s o = none := by
  rw [wldFault, hgate, Bool.false_or]
  refine if_neg (mt of_decide_eq_true ?_)
  by_cases hfmt : o.fmt = 9
  · rw [wldRow, if_pos hfmt] at hrow
    rw [if_pos hfmt]
    omega
  · rw [wldRow, if_neg hfmt] at hrow
    rw [if_neg hfmt]
    omega
theorem wldFault_some {s : State} {o : WldF} (h : gateOf s = true ∨ (if o.fmt = 9 then 2048 else 1024) ≤ wldIndex s o) :
    wldFault s o = some (trapPlain s cAccess) := if_pos (by simpa using h)
theorem wldGranules_lt {s : State} {o : WldF} {i : Nat} (hi : i ∈ wldGranules s o) : i < 12 := by
  unfold wldGranules at hi
  split at hi
  · obtain ⟨j, hj, rfl⟩ := List.mem_map.1 hi
    have := mem_upto.1 hj
    omega
  · exact mem_upto.1 hi
/-- No column stops a WLD of a row all of whose granules are correct (R329). -/
theorem no_bad_column {s : State} {o : WldF}
    (hgood : ∀ c i, c < 64 → i < 12 → (me s).badW.contains (granuleKey c (wldRow s o) i) = false) :
    (upto 64).find? (fun c => (wldGranules s o).any (fun i => (me s).badW.contains (granuleKey c (wldRow s o) i))) = none := by
  refine List.find?_eq_none.2 fun c hc => ?_
  rw [Bool.not_eq_true, List.any_eq_false]
  exact fun i hi => Bool.not_eq_true _ ▸ hgood c i (mem_upto.1 hc) (wldGranules_lt hi)
/-- A WLD loads every column's row into the latch, with the format and the cycle (R169). -/
theorem wld_becomes {o : WldF} {s : State} (h : Ready (.wld o) s) (hgate : gateOf s = false) (hrow : wldRow s o < 1024)
    (hfresh : refreshing (cycleAt s s.iss.core s.iss.t) (wldRow s o) = false)
    (hgood : ∀ c i, c < 64 → i < 12 → (me s).badW.contains (granuleKey c (wldRow s o) i) = false) :
    Becomes s (exec (.wld o) s) { me s with
      wlatch := Vector.ofFn (fun c => latchRow o.fmt (wldIndex s o) (sliceRow (me s) c.val (wldRow s o))), wfmt := o.fmt, wat := s.iss.t } := by
  rw [exec_wld, execWld, wldFault_none hgate hrow, hfresh, runSlot_go h, no_bad_column hgood]
  exact becomes (fun k => { k with
    wlatch := Vector.ofFn (fun c => latchRow o.fmt (wldIndex s o) (sliceRow k c.val (wldRow s o))), wfmt := o.fmt, wat := s.iss.t }) s h.1
theorem getD_ofFn {α : Type} {n c : Nat} (f : Fin n → α) (x : α) (hc : c < n) : (Vector.ofFn f).getD c x = f ⟨c, hc⟩ := by simp [Vector.getD, hc]
/-- The latched row of a column: half a row for PW4 (R169). -/
theorem latchRow_eq (fmt : Tag) (h : Nat) (x : Row) :
    latchRow fmt h x = if fmt = 9 then ((x >>> (1536 * (h % 2))).setWidth 1536).setWidth 3072 else x := by
  rw [latchRow, mask_low]

/-! Draining (R176). -/

/-- An element of a vector built from elements that has room in it: beyond the last one built it is zero. -/
theorem elem_build_room {n w : Nat} (hw : 0 < w) (f : Nat → BitVec w) (k : Nat) {e : Nat} (hroom : w * (e + 1) ≤ n) :
    elem (buildElems n w k f) w e = if e < k then f e else 0 := by
  apply BitVec.eq_of_getLsbD_eq
  intro j hj
  have hdiv : (w * e + j) / w = e := by rw [Nat.mul_add_div hw, Nat.div_eq_of_lt hj]; rfl
  have hmod : (w * e + j) % w = j := by rw [Nat.mul_add_mod]; exact Nat.mod_eq_of_lt hj
  have hfit : w * e + j < n := by rw [Nat.mul_succ] at hroom; omega
  have hbuilt : w * e + j < w * k ↔ e < k := by rw [Nat.mul_comm w k, ← Nat.div_lt_iff_lt_mul hw, hdiv]
  rw [elem, BitVec.getLsbD_extractLsb', build_bit hw, hdiv, hmod]
  split
  · next he => simp [hj, hfit, hbuilt.2 he]
  · next he => simp [hj, mt hbuilt.1 he]
/-- Element e of a drained row, rounded (R176). -/
def drained (z : Tile) (row : Nat) (fmt : Tag) (e : Nat) : Rounded := drainElem z.tag fmt (tileCode z row e) (tileIx z row e)
/-- The drained row is built from its elements. -/
theorem drainGo_build (z : Tile) (row : Nat) (fmt : Tag) : ∀ n,
    (drainGo z row fmt n).1 = buildElems 2048 (tagWidth fmt.toNat) n (fun e => BitVec.ofNat _ (drained z row fmt e).code)
  | 0 => rfl
  | n + 1 => by rw [drainGo, buildElems, ← drainGo_build z row fmt n]; rfl
/-- The flags of a drained row are those of its elements (R132). -/
theorem drainGo_flag (z : Tile) (row : Nat) (fmt : Tag) (b : Nat) : ∀ n,
    (drainGo z row fmt n).2.getLsbD b = (upto n).any (fun e => (flagsOf (drained z row fmt e)).getLsbD b)
  | 0 => BitVec.getLsbD_zero
  | n + 1 => by
    rw [drainGo, BitVec.getLsbD_or, drainGo_flag z row fmt b n, upto, List.any_append, List.any_cons, List.any_nil, Bool.or_false]
    rfl
theorem drain_flight {o : DrainF} {s : State} (h : Ready (.drain o) s) (htag : (srcZ s o.z).tag ≠ 0) :
    FlightV s (exec (.drain o) s) o.d o.fmt (s.iss.t + 10) (drainGo (srcZ s o.z) o.row.toNat o.fmt 64).1
      (drainGo (srcZ s o.z) o.row.toNat o.fmt 64).2 := by
  rw [exec_drain, execDrain, if_neg htag]
  exact runSlot_flightV h o.d o.fmt 10 _ _

end Sys2Proof.Machine
end

section
open Sys2Proof Sys2Proof.Machine

/-- Settles O37: each form goes through its checks to one change of the core. -/
theorem weightLatchAndTiles : Obligations.WeightLatchAndTiles := by
  intro s
  refine ⟨fun o h row hready hgate hindex hrow hlt hfresh hgood => ?_, fun o h hfault => ?_, fun o h => exec_zclr o s ▸ runSlot_writesZ h o.z _,
    fun o h => ?_, fun o h htag => ?_, fun o h htag => ?_⟩
  · obtain rfl : wldIndex s o = h := hindex.symm
    obtain rfl : wldRow s o = row := hrow.symm
    obtain ⟨t, hexec, honly, hdone, hme⟩ := wld_becomes hready hgate hlt hfresh hgood
    refine ⟨t, hexec, honly, hdone, by rw [hme], fun c hc => ?_⟩
    rw [hme, ← latchRow_eq]
    exact getD_ofFn _ _ hc
  · rw [exec_wld, execWld, wldFault_some hfault]
    exact runSlot_trap h _ _ _
  · have hcur : (srcZ s o.z).cur + o.k = BitVec.ofNat 6 (((srcZ s o.z).cur.toNat + o.k.toNat) % 64) := BitVec.eq_of_toNat_eq (by simp)
    rw [exec_zrot, execZrot, ← hcur]
    exact runSlot_writesZ h o.z _
  · refine ⟨_, _, drain_flight h htag, fun e he => ?_, fun b => drainGo_flag _ _ _ b 64⟩
    have hroom : tagWidth o.fmt.toNat * (e + 1) ≤ 2048 := (Nat.mul_le_mul_left _ he).trans (width_fits _)
    rw [drainGo_build, elem_build_room (tagWidth_pos _) _ _ hroom]
    rfl
  · rw [exec_drain, execDrain, if_pos htag]
    exact runSlot_trap h _ _ _

end

section
/-! PROOFS. Beats through the tree, and tiles spilled to and filled from streams (R170 to R175, R178, R179). -/
namespace Sys2Proof.Machine

/-- Two changes of the committing core are one change. -/
theorem modMe_modMe (f g : Core → Core) (s : State) : modMe (modMe s f) g = modMe s (fun k => g (f k)) := modCr_modCr s s.iss.core f g

/-! Streams that go on. -/

/-- The stream registers once q has gone on by n elements, its span checked (R101, R232). -/
def taken (q : BitVec 4) (n : Nat) (qs : Vector Stream 16) : Vector Stream 16 := qs.set q.toFin { advance n qs[q.toFin] with checked := true }
theorem taken_get (q : BitVec 4) (n : Nat) (qs : Vector Stream 16) (m : BitVec 4) :
    (taken q n qs)[m.toFin] = if m = q then { advance n qs[m.toFin] with checked := true } else qs[m.toFin] := by
  split
  · next h => subst h; exact Vector.getElem_set_self m.toFin.isLt
  · next h => exact Vector.getElem_set_ne q.toFin.isLt m.toFin.isLt (Ne.symm (toFin_ne h))
theorem taken_taken_get {q r : BitVec 4} (hne : r ≠ q) (n : Nat) (qs : Vector Stream 16) (m : BitVec 4) :
    (taken r n (taken q n qs))[m.toFin] = if m = q ∨ m = r then { advance n qs[m.toFin] with checked := true } else qs[m.toFin] := by
  rw [taken_get, taken_get]
  by_cases hr : m = r
  · subst hr
    rw [if_pos rfl, if_neg hne, if_pos (Or.inr rfl)]
  · rw [if_neg hr]
    simp only [hr, or_false]
/-- A change of a core's stream registers alone. -/
def withStreams (g : Vector Stream 16 → Vector Stream 16) (k : Core) : Core := { k with q := g k.q }
theorem markQ_advQ (q : BitVec 4) (n : Nat) (s : State) : markQ q (advQ q n s) = modMe s (withStreams (taken q n)) :=
  (modMe_modMe (advanced q n) (fun k => k.setQ q { k.q[q.toFin] with checked := true }) s).trans
    (congrArg (modMe s) (funext fun k => by simp [advanced, Core.setQ, withStreams, taken]))
theorem modMe_streams (g h : Vector Stream 16 → Vector Stream 16) (s : State) :
    modMe (modMe s (withStreams g)) (withStreams h) = modMe s (withStreams (fun qs => h (g qs))) := modMe_modMe _ _ s

/-! A tile with its flags, written while streams go on. -/

/-- A core with tile d written and flags raised. -/
def withTile (d : BitVec 2) (x : Tile) (f : BitVec 7) (k : Core) : Core := { k.setZ d x with flags := k.flags ||| f }
theorem setFlags_wrZ (f : BitVec 7) (d : BitVec 2) (x : Tile) (s : State) : setFlags f (wrZ d x s) = note (.z d) (modMe s (withTile d x f)) :=
  noted_then (.z d) (fun k => k.setZ d x) (fun k => { k with flags := k.flags ||| f }) s fun _ => rfl
/-- The next state has tile d written, flags raised and its streams moved, and nothing else changed. -/
def TilePut (s t : State) (d : BitVec 2) (x : Tile) (f : BitVec 7) (g : Vector Stream 16 → Vector Stream 16) : Prop :=
  OnlyCore s t ∧ SlotDone s t ∧ Noted (.z d) s t ∧ rdZ (me t).regs d = x ∧ (me t).flags = (me s).flags ||| f ∧
    (∀ n, n ≠ d → rdZ (me t).regs n = rdZ (me s).regs n) ∧ (me t).q = g (me s).q ∧
    me t = { me s with regs := { (me s).regs with z := (me t).regs.z }, flags := (me t).flags, q := (me t).q, latch := (me t).latch }
theorem tilePut {s : State} (hact : s.iss.act = true) (d : BitVec 2) (x : Tile) (f : BitVec 7) (g : Vector Stream 16 → Vector Stream 16) :
    TilePut s (nextSlot (modMe (setFlags f (wrZ d x s)) (withStreams g))) d x f g := by
  rw [setFlags_wrZ, noted_then (.z d) (withTile d x f) (withStreams g) s fun _ => rfl]
  obtain ⟨honly, hdone, hme⟩ := next_note_modMe (.z d) (fun k => withStreams g (withTile d x f k)) s hact
  refine ⟨honly, hdone, ?_⟩
  rw [Noted, hme]
  exact ⟨rfl, Vector.getElem_set_self d.toFin.isLt, rfl,
    fun n hn => Vector.getElem_set_ne d.toFin.isLt n.toFin.isLt (Ne.symm (toFin_ne hn)), rfl, rfl⟩

/-! Beats (R170 to R175). -/

/-- What a beat does to its streams (R171, R172). -/
def beatTakes (o : BeatF) (qs : Vector Stream 16) : Vector Stream 16 := if o.sc then taken o.sq 1 (taken o.q 1 qs) else taken o.q 1 qs
/-- No rows have the tag of scales (R170). -/
theorem beatMode_scales (latch : Tag) (int : Bool) : beatMode 10 latch int = 0 := rfl
theorem beatStreams_tags {s : State} {o : BeatF} (h : beatStreams s o = none) (hsc : o.sc = true) :
    (descOf (qOf s o.q).desc).tag = o.fmt.toNat ∧ (descOf (qOf s o.sq).desc).tag = 10 := by
  unfold beatStreams at h
  simp only [hsc, if_true] at h
  split at h
  · simp at h
  · split at h
    · simp at h
    · next htags => simpa using htags
theorem beatFault_checks {s : State} {o : BeatF} (h : beatFault s o = none) :
    beatMode o.fmt (me s).wfmt o.int ≠ 0 ∧ beatStreams s o = none := by
  unfold beatFault at h
  simp only at h
  split at h
  · simp at h
  · next hmode =>
    split at h
    · simp at h
    · next hstreams => exact ⟨fun hzero => hmode (by simp [hzero]), hstreams⟩
/-- The scales of a beat that passes its checks come through a stream of their own, under a tag of their own (R171). -/
theorem beatFault_apart {s : State} {o : BeatF} (h : beatFault s o = none) (hsc : o.sc = true) : o.sq ≠ o.q := by
  intro heq
  obtain ⟨hmode, hstreams⟩ := beatFault_checks h
  obtain ⟨hrows, hscales⟩ := beatStreams_tags hstreams hsc
  have hfmt : o.fmt = 10 := BitVec.eq_of_toNat_eq (by rw [← hrows, ← heq, hscales]; rfl)
  exact hmode (hfmt ▸ beatMode_scales _ _)
theorem beatTakes_get {s : State} {o : BeatF} (h : beatFault s o = none) (qs : Vector Stream 16) (n : BitVec 4) :
    (beatTakes o qs)[n.toFin] = if n = o.q ∨ (o.sc = true ∧ n = o.sq) then { advance 1 qs[n.toFin] with checked := true } else qs[n.toFin] := by
  unfold beatTakes
  split
  · next hsc => simp only [taken_taken_get (beatFault_apart h hsc), hsc, true_and]
  · next hsc => simp only [taken_get, hsc, false_and, or_false, Bool.false_eq_true]
theorem beat_streams (o : BeatF) (s : State) :
    (if o.sc then markQ o.sq (advQ o.sq 1 (markQ o.q (advQ o.q 1 s))) else markQ o.q (advQ o.q 1 s)) = modMe s (withStreams (beatTakes o)) := by
  simp only [markQ_advQ, modMe_streams]
  cases hsc : o.sc
  · exact congrArg (fun g => modMe s (withStreams g)) (funext fun qs => (if_neg (by simp [hsc])).symm)
  · exact congrArg (fun g => modMe s (withStreams g)) (funext fun qs => (if_pos hsc).symm)
/-- The columns of a beat (R172 to R175). -/
def beatCols (s : State) (o : BeatF) : List Col :=
  (upto 64).map (beatCol s o (beatMode o.fmt (me s).wfmt o.int) (if beatMode o.fmt (me s).wfmt o.int = 2 then [] else beatOps s o))
theorem beat_puts {o : BeatF} {s : State} (h : Ready (.beat o) s) (hfault : beatFault s o = none) (hstall : beatStall s o = false) :
    ∃ t, exec (.beat o) s = .next t ∧ TilePut s t o.z (beatTile o (beatMode o.fmt (me s).wfmt o.int) (srcZ s o.z) (beatCols s o))
      ((beatCols s o).foldl (fun a x => a ||| x.flags) 0) (beatTakes o) := by
  refine ⟨_, ?_, tilePut h.1 _ _ _ _⟩
  rw [exec_beat, execBeat, hfault, hstall, runSlot_go h]
  exact congrArg (fun t => Host.Outcome.next (nextSlot t)) (beat_streams o _)

/-! Integer columns (R175). -/

theorem sInt_ofNat {w : Nat} (hw : 0 < w) (x : Nat) : sInt w x = (BitVec.ofNat w x).toInt := by
  rw [← sInt_toNat hw, BitVec.toNat_ofNat, sInt, sInt, Nat.mod_mod]
/-- A sum from a start. -/
theorem foldl_add (l : List Int) : ∀ c : Int, l.foldl (fun a x => a + x) c = l.sum + c := by
  induction l with
  | nil => exact fun c => (zero_add c).symm
  | cons x l ih => exact fun c => by rw [List.foldl_cons, ih, List.sum_cons]; omega
theorem intCol_mulAdd (a w : Nat → Int) (n : Nat) (c : Int) :
    intCol 0 ((upto n).map a) ((upto n).map w) c =
      let r := clamped 40 (((List.range n).map (fun k => a k * w k)).sum + c)
      ⟨r.code, false, if r.sat then fSAT else 0⟩ := by
  have hleaves : (((upto n).map a).zip ((upto n).map w)).map (fun p => intLeaf 0 p.1 p.2) = (List.range n).map (fun k => a k * w k) := by
    rw [List.zip_map', List.map_map, upto_range]; rfl
  rw [← satCode_eq (by decide), ← foldl_add, ← hleaves]
  rfl

/-! Tiles through streams (R178, R179). -/

/-- A core whose L and uncorrectable granules of L are as given. -/
def withL (m : Mem) (bad : List Nat) (k : Core) : Core := { k with l := m, badL := bad }
theorem wrL_eq (a n x : Nat) (s : State) : wrL a n x s = modMe s (withL ((me s).l.wrN a n x) (healL a n (me s).badL)) := rfl
theorem modMe_withL (m l : Mem) (bad b : List Nat) (s : State) : modMe (modMe s (withL m bad)) (withL l b) = modMe s (withL l b) :=
  modMe_modMe _ _ s
theorem qOf_withL (m : Mem) (bad : List Nat) (q : BitVec 4) (s : State) : qOf (modMe s (withL m bad)) q = qOf s q := by
  rw [qOf, me_modMe]; rfl
theorem modMe_withL_same (s : State) : modMe s (withL (me s).l (me s).badL) = s := by
  show { s with cores := s.cores.set s.iss.core (me s) } = s
  simp [me, cr]
/-- L with the elements from n on of the spill format written where a stream places them, in order. -/
def spilled (z : Tile) (st : Stream) (k n : Nat) (m : Mem) : Mem :=
  (List.range' n k).foldl (fun l i => l.wrN (elAddr st i) 384 (spillElem z i).toNat) m
/-- A spill writes its elements to L in order, and changes nothing else but the record of uncorrectable granules. -/
theorem spillGo_writes (z : Tile) (q : BitVec 4) : ∀ (k n : Nat) (s : State),
    ∃ bad, spillGo z q k n s = modMe s (withL (spilled z (qOf s q) k n (me s).l) bad)
  | 0, _, s => ⟨(me s).badL, (modMe_withL_same s).symm⟩
  | k + 1, n, s => by
    obtain ⟨bad, hspill⟩ := spillGo_writes z q k (n + 1) (wrL (elAddr (qOf s q) n) 384 (spillElem z n).toNat s)
    refine ⟨bad, hspill.trans ?_⟩
    rw [wrL_eq, modMe_withL, qOf_withL, me_modMe, spilled, spilled, List.range'_succ, List.foldl_cons, withL]
theorem toNat_ofNat_narrow {w k x : Nat} (hk : k < w) (hx : x < 2 ^ k) : (BitVec.ofNat w x).toNat = x := by
  rw [BitVec.toNat_ofNat, Nat.mod_eq_of_lt (hx.trans (Nat.pow_lt_pow_right (by decide) hk))]
/-- The spill format: a tile's rows, then its tag and cursor (R178). -/
theorem spillElem_toNat (z : Tile) (n : Nat) :
    (spillElem z n).toNat = if n < 64 then (z.rows.getD n 0).toNat else z.tag.toNat + z.cur.toNat * 2 ^ 4 := by
  unfold spillElem
  split
  · rfl
  · have htag := z.tag.isLt
    have hcur := z.cur.isLt
    have hsmall : z.tag.toNat + z.cur.toNat * 2 ^ 4 < 2 ^ 10 := by omega
    exact toNat_ofNat_narrow (by decide) hsmall
theorem zspill_becomes {o : ZqF} {s : State} (h : Ready (.zspill o) s) (hfault : zqFault s o.q true = none)
    (hstall : streamStall s o.q true 65 = false) : ∃ m bad, m = spilled (srcZ s o.z) (qOf s o.q) 65 0 (me s).l ∧
      Becomes s (exec (.zspill o) s) { me s with l := m, badL := bad, q := taken o.q 65 (me s).q } := by
  obtain ⟨bad, hspill⟩ := spillGo_writes (srcZ s o.z) o.q 65 0 s
  generalize hm : spilled (srcZ s o.z) (qOf s o.q) 65 0 (me s).l = m at hspill
  refine ⟨m, bad, rfl, ?_⟩
  rw [exec_zspill, execZspill, hfault, hstall, runSlot_go h, markQ_advQ, hspill, modMe_modMe]
  exact becomes (fun k => withStreams (taken o.q 65) (withL m bad k)) s h.1
theorem zfill_puts {o : ZqF} {s : State} (h : Ready (.zfill o) s) (hfault : zqFault s o.q false = none)
    (hstall : streamStall s o.q false 65 = false) :
    ∃ t, exec (.zfill o) s = .next t ∧ TilePut s t o.z (fillTile (fun n => BitVec.ofNat 3072 (streamElem s o.q n))).1
      (if (fillTile (fun n => BitVec.ofNat 3072 (streamElem s o.q n))).2 then fINV else 0) (taken o.q 65) := by
  refine ⟨_, ?_, tilePut h.1 _ _ _ _⟩
  rw [exec_zfill, execZfill, hfault, hstall, runSlot_go h, ← markQ_advQ]

end Sys2Proof.Machine
end

section
open Sys2Proof Sys2Proof.Machine

/-- Settles O38: a beat and a fill put their tile and move their streams, an integer column is summed exactly, and a spill writes L. -/
theorem beatsAndTileTransfers : Obligations.BeatsAndTileTransfers := by
  intro s
  refine ⟨fun o h hfault hstall => ?_, fun o c v _ hcell hv => ?_, fun o h hfault hstall => ?_, fun o h hfault hstall => ?_⟩
  · obtain ⟨t, hexec, honly, hdone, hnoted, htile, hflags, hothers, hq, hme⟩ := beat_puts h hfault hstall
    exact ⟨t, _, hexec, honly, hdone, hnoted, rfl, htile, hflags, hothers,
      fun n => (congrArg (·[n.toFin]) hq).trans (beatTakes_get hfault _ n), hme⟩
  · subst hv
    simp only [beatCol, if_true, hcell]
    refine (intCol_mulAdd _ _ 384 _).trans ?_
    simp only [sInt_ofNat (by decide : 0 < 8), sInt_ofNat (by decide : 0 < 40), ofNat_bits, Bool.or_eq_true, beq_iff_eq]
  · obtain ⟨m, bad, hm, t, hexec, honly, hdone, hme⟩ := zspill_becomes h hfault hstall
    refine ⟨t, hexec, honly, hdone, by rw [hme], by rw [hme], ?_, fun n => ?_⟩
    · rw [hme, hm]
      simp only [spilled, spillElem_toNat, List.range_eq_range']
    · rw [qOf, hme]
      exact taken_get o.q 65 (me s).q n
  · obtain ⟨t, hexec, honly, hdone, hnoted, htile, hflags, hothers, hq, hme⟩ := zfill_puts h hfault hstall
    exact ⟨t, hexec, honly, hdone, hnoted, htile, hflags, hothers,
      fun n => (congrArg (·[n.toFin]) hq).trans (taken_get o.q 65 _ n), hme⟩

end

section
/-! PROOFS. The transpose queue, footprints and tickets (R180 to R182, R205, R230, R232, R255, R256). -/
namespace Sys2Proof.Machine

/-! The transpose queue (R180 to R182). -/

theorem tqpush_becomes {o : EaF} {s : State} (h : Ready (.tqpush o) s) (hfault : tileFault s (srcS s o.a).toNat false = none)
    (hlen : (me s).tq.length < 8) (hsoon : tqSoon s = false) (hfull : rangesFull (me s) = false)
    (hhit : rangeHit (me s) false (srcS s o.a).toNat 2048 = false) :
    Becomes s (exec (.tqpush o) s) { me s with
      tq := (me s).tq ++ [⟨BitVec.ofNat 16384 ((me s).l.rdN (srcS s o.a).toNat 2048), s.iss.t⟩], tqAt := some s.iss.t
      ranges := (me s).ranges ++ [⟨0, false, (srcS s o.a).toNat, (srcS s o.a).toNat + 2047⟩] } := by
  rw [exec_tqpush, execTqpush, hfault, if_pos hlen, hsoon, hfull, hhit]
  exact runSlot_go h _ ▸ becomes (fun k => tileRange false (srcS s o.a).toNat { k with
    tq := k.tq ++ [⟨BitVec.ofNat 16384 (k.l.rdN (srcS s o.a).toNat 2048), s.iss.t⟩], tqAt := some s.iss.t }) s h.1
theorem tqpush_overflows {o : EaF} {s : State} (h : Ready (.tqpush o) s) (hfault : tileFault s (srcS s o.a).toNat false = none)
    (hlen : 8 ≤ (me s).tq.length) : exec (.tqpush o) s = .next (takeTrap (trapPlain s cTqOverflow) s) := by
  rw [exec_tqpush, execTqpush, hfault, if_neg (Nat.not_lt.2 hlen)]
  exact runSlot_trap h _ _ _
/-- A pop stores the head of the queue transposed (R180). -/
theorem tqpop_becomes {o : EaF} {s : State} {e : TqE} {r : List TqE} (h : Ready (.tqpop o) s)
    (hfault : tileFault s (srcS s o.a).toNat true = none) (htq : (me s).tq = e :: r) (hold : e.at_ + 40 ≤ s.iss.t)
    (hfull : rangesFull (me s) = false) (hhit : rangeHit (me s) true (srcS s o.a).toNat 2048 = false) :
    ∃ m bad, m = (me s).l.wrBytes (srcS s o.a).toNat (tileT e.tile) ∧ Becomes s (exec (.tqpop o) s) { me s with
      tq := r, l := m, badL := bad, ranges := (me s).ranges ++ [⟨0, true, (srcS s o.a).toNat, (srcS s o.a).toNat + 2047⟩] } := by
  have hready : tqReady s = true := by rw [tqReady, htq]; exact decide_eq_true hold
  refine ⟨_, healL (srcS s o.a).toNat 2048 (me s).badL, rfl, ?_⟩
  rw [exec_tqpop, execTqpop, hfault, if_pos hready, hfull, hhit]
  refine runSlot_go h _ ▸ ?_
  simp only [htq]
  generalize tileT e.tile = bytes
  exact becomes (fun k => tileRange true (srcS s o.a).toNat { k with
    tq := r, l := k.l.wrBytes (srcS s o.a).toNat bytes, badL := healL (srcS s o.a).toNat 2048 k.badL }) s h.1
/-- A transposed tile in L: element (i, j) stands at place (j, i) (R180). -/
theorem rdN_tileT (m : Mem) (a : Nat) (x : BitVec 16384) {i j : Nat} (hi : i < 32) (hj : j < 32) :
    (m.wrBytes a (tileT x)).rdN (a + 2 * (32 * j + i)) 2 = (elem x 16 (32 * i + j)).toNat := by
  rw [rdN_congr _ (fun k => (bytesOf 2 (tileEl x i j)).getD k 0)]
  · exact (ofBytes_bytesOf 2 _).trans (Nat.mod_eq_of_lt (elem x 16 (32 * i + j)).isLt)
  · intro k hk
    have hroom : 2 * (32 * j + i) + k < (tileT x).length := by rw [tileT_len]; omega
    rw [Nat.add_assoc, rd_wrBytes_in _ _ _ _ hroom, tileT_get x i j k hi hj hk, bytesOf_get _ _ _ hk]

/-! Footprints (R230). -/

/-- A footprint that lies in L clashes with no entry of another engine and has room in the table (R230). -/
theorem footFault_none {s : State} {o : FootF} (hn : (srcS s o.b).toNat ≠ 0) (hroom : (srcS s o.a).toNat + (srcS s o.b).toNat ≤ 8388608)
    (hlen : (me s).foot.length < 32) (hapart : ∀ e ∈ (me s).foot, e.eng ≠ o.eng →
      (srcS s o.a).toNat + (srcS s o.b).toNat ≤ e.lo ∨ e.hi < (srcS s o.a).toNat ∨ (o.wr = false ∧ e.wr = false)) : footFault s o = none := by
  have hclash : (me s).foot.any (fun e => e.eng != o.eng &&
      overlap (srcS s o.a).toNat ((srcS s o.a).toNat + (srcS s o.b).toNat - 1) e.lo e.hi && (o.wr || e.wr)) = false := by
    refine List.any_eq_false.2 fun e he hclash => ?_
    simp only [Bool.and_eq_true, bne_iff_ne, overlap, decide_eq_true_eq, Bool.or_eq_true] at hclash
    obtain ⟨⟨heng, hlo, hhi⟩, hwr⟩ := hclash
    rcases hapart e he heng with hbelow | habove | ⟨hread, hread'⟩
    · omega
    · omega
    · simp [hread, hread'] at hwr
  unfold footFault
  simp only [hn, inL_ok hroom, hclash, Nat.not_le.2 hlen, if_false, Bool.not_true, Bool.false_eq_true]
theorem foot_becomes {o : FootF} {s : State} (h : Ready (.foot o) s) (hn : (srcS s o.b).toNat ≠ 0) (hfault : footFault s o = none) :
    Becomes s (exec (.foot o) s) { me s with
      foot := (me s).foot ++ [⟨o.eng, o.wr, (srcS s o.a).toNat, (srcS s o.a).toNat + (srcS s o.b).toNat - 1⟩] } := by
  rw [exec_foot, execFoot, hfault, runSlot_go h]
  simp only [if_neg hn]
  exact becomes (fun k => { k with
    foot := k.foot ++ [⟨o.eng, o.wr, (srcS s o.a).toNat, (srcS s o.a).toNat + (srcS s o.b).toNat - 1⟩] }) s h.1
/-- FOOT of no bytes does nothing (R230). -/
theorem foot_empty {o : FootF} {s : State} (h : Ready (.foot o) s) (hn : (srcS s o.b).toNat = 0) : CommitsOnly s (exec (.foot o) s) := by
  have hfault : footFault s o = none := if_pos hn
  rw [exec_foot, execFoot, hfault, runSlot_go h]
  simp only [if_pos hn]
  exact congrArg _ (nextSlot_act h.1)

/-! Tickets (R256). -/

theorem jwait_goes {o : JwaitF} {s : State} (h : Ready (.jwait o) s) (hpending : (jOf s o.j).st ≠ .pending) (hfailed : (jOf s o.j).st ≠ .failed) :
    CommitsOnly s (exec (.jwait o) s) := by
  have hfault : jwaitFault s o.j = none := if_neg hfailed
  rw [exec_jwait, execJwait, hfault, beq_eq_false_iff_ne.2 hpending]
  exact commits h
theorem jwait_waits {o : JwaitF} {s : State} (h : Ready (.jwait o) s) (hpending : (jOf s o.j).st = .pending) :
    exec (.jwait o) s = .next s := by
  have hfault : jwaitFault s o.j = none := if_neg (by rw [hpending]; decide)
  rw [exec_jwait, execJwait, hfault, beq_iff_eq.2 hpending]
  exact runSlot_stall h _
theorem jwait_traps {o : JwaitF} {s : State} (h : Ready (.jwait o) s) (hfailed : (jOf s o.j).st = .failed) :
    exec (.jwait o) s = .next (takeTrap ⟨(jOf s o.j).cause, s.iss.slot,
      if (jOf s o.j).av then some ((jOf s o.j).asp, (jOf s o.j).addr.toNat) else none, 0, none, some o.j⟩ s) := by
  rw [exec_jwait, execJwait, show jwaitFault s o.j = some _ from if_pos hfailed]
  exact runSlot_trap h _ _ _

end Sys2Proof.Machine
end

section
open Sys2Proof Sys2Proof.Machine

/-- Settles O25, instruction by instruction; the transposition is read back from the bytes that a pop writes. -/
theorem transposesFootprintsAndTickets : Obligations.TransposesFootprintsAndTickets := by
  refine ⟨fun s o a ha halign hroom => ?_, fun s => ⟨fun o h hn hroom hlen hapart => foot_becomes h hn (footFault_none hn hroom hlen hapart),
    fun o => foot_empty, fun o => jwait_goes, fun o => jwait_waits, fun o => jwait_traps, fun o h => ?_⟩⟩
  · subst ha
    refine ⟨fun h hfoot hlen hsoon hranges hhit => ?_, fun h hfoot hlen => ?_, fun e r h hfoot htq hold hranges hhit => ?_⟩
    · exact tqpush_becomes h (tileFault_none halign hroom hfoot) hlen (tqSoon_false hsoon) (rangesFull_false hranges) hhit
    · exact tqpush_overflows h (tileFault_none halign hroom hfoot) hlen
    · obtain ⟨m, bad, hm, t, hexec, honly, hdone, hme⟩ := tqpop_becomes h (tileFault_none halign hroom hfoot) htq hold (rangesFull_false hranges) hhit
      have hl : (me t).l = (me s).l.wrBytes (srcS s o.a).toNat (tileT e.tile) := (congrArg Core.l hme).trans hm
      refine ⟨t, hexec, honly, hdone, by rw [hme], fun i j hi hj => ?_, fun b hb => ?_⟩
      · rw [hl]
        exact rdN_tileT _ _ _ hi hj
      · rw [hl]
        exact rd_wrBytes_out b _ _ _ (tileT_len e.tile ▸ hb)
  · have hne : decide ((jOf s o.j).st ≠ .pending) = ((jOf s o.j).st != .pending) := by rw [decide_not]; rfl
    rw [hne]
    exact exec_jpoll o s ▸ runSlot_writesP h o.p _

end

section
/-! PROOFS. Loads and stores of L, and the ALIGN and ACCESS traps of scalar accesses (R197, R202, R203, R205, R206, R314). -/
namespace Sys2Proof.Machine
variable {s : State}

/-! Accesses of L (R202, R203). -/

/-- The lanes of a vector in L and the granules that they heal: one change of the core. -/
theorem storeLanes_heals (a : Nat) (v : VBits) (on : List Nat) (s : State) :
    ∃ (m : Mem) (bad : List Nat), healPairs a on (storeLanes a v on s) = modMe s (fun k => { k with l := m, badL := bad }) ∧
      (∀ b, (∀ i ∈ on, b < a + 4 * i ∨ a + 4 * i + 4 ≤ b) → m.rd b = (me s).l.rd b) ∧
      (on.Pairwise (· ≠ ·) → ∀ i ∈ on, m.rdN (a + 4 * i) 4 = (laneOf v i).toNat) := by
  obtain ⟨m, bad, hstore, hout, hin⟩ := storeLanes_eq a v on s
  refine ⟨m, unhealed a on bad, ?_, hout, hin⟩
  rw [hstore, healPairs_eq]
  exact modCr_modCr s s.iss.core _ _
theorem ldl_writes {o : LdF12} {a : Nat} (h : Ready (.ldl o) s) (ha : eaddr s o.base o.off (szBytes o.z) = a) (halign : a % szBytes o.z = 0)
    (hroom : a + szBytes o.z ≤ 8388608) (hranges : rangeHit (me s) false a (szBytes o.z) = false) :
    WritesS s (exec (.ldl o) s) o.d (extend (szBytes o.z) o.u ((me s).l.rdN a (szBytes o.z))) := by
  rw [exec_ldl, execLdl]
  simp only [ha, Int.toNat_natCast, lCheck_ok halign hroom, hranges]
  exact runSlot_writesS h o.d (fun s => extend (szBytes o.z) o.u ((me s).l.rdN a (szBytes o.z)))
theorem stl_stores {o : StF12} {a : Nat} (h : Ready (.stl o) s) (ha : eaddr s o.base o.off (szBytes o.z) = a) (halign : a % szBytes o.z = 0)
    (hroom : a + szBytes o.z ≤ 8388608) (hranges : rangeHit (me s) true a (szBytes o.z) = false) :
    StoresL s (exec (.stl o) s) a (szBytes o.z) (srcS s o.v).toNat := by
  rw [exec_stl, execStl]
  simp only [ha, Int.toNat_natCast, lCheck_ok halign hroom, hranges, runSlot_go h]
  exact wrL_next a (szBytes o.z) (srcS s o.v).toNat s h.1
theorem vldl_writes {o : VldlF} {a : Nat} (h : Ready (.vldl o) s) (ha : eaddr s o.base o.off 256 = a) (halign : a % 32 = 0)
    (hroom : a + 256 ≤ 8388608) (hranges : rangeHit (me s) false a 256 = false) :
    WritesV s (exec (.vldl o) s) o.d (BitVec.ofNat 2048 ((me s).l.rdN a 256)) o.t := by
  rw [exec_vldl, execVldl]
  simp only [ha, Int.toNat_natCast, lCheck_ok halign hroom, hranges]
  exact runSlot_writesV h o.d (fun _ => o.t) (fun s => BitVec.ofNat 2048 ((me s).l.rdN a 256))
theorem vstl_puts {o : VstlF} {a : Nat} (h : Ready (.vstl o) s) (ha : eaddr s o.base o.off 256 = a) (halign : a % 32 = 0)
    (hroom : a + 256 ≤ 8388608) (hranges : rangeHit (me s) true a 256 = false) :
    ∃ t, exec (.vstl o) s = .next t ∧ OnlyCore s t ∧ SlotDone s t ∧ me t = { me s with l := (me t).l, badL := (me t).badL } ∧
      (∀ i, i < 64 → (srcM s o.m).getLsbD i = true → (me t).l.rdN (a + 4 * i) 4 = (laneOf (srcV s o.v).bits i).toNat) ∧
      (∀ b, (∀ i, i < 64 → (srcM s o.m).getLsbD i = true → b < a + 4 * i ∨ a + 4 * i + 4 ≤ b) → (me t).l.rd b = (me s).l.rd b) := by
  obtain ⟨m, bad, hstore, hout, hin⟩ := storeLanes_heals a (srcV s o.v).bits (lanesOn (srcM s o.m)) s
  obtain ⟨t, ht, honly, hdone, hme⟩ := becomes (fun k => { k with l := m, badL := bad }) s h.1
  refine ⟨t, ?_, honly, hdone, ?_⟩
  · rw [exec_vstl, execVstl]
    simp only [ha, Int.toNat_natCast, lCheck_ok halign hroom, hranges, runSlot_go h, hstore]
    exact ht
  · rw [hme]
    exact ⟨rfl, fun i hi hon => hin (lanes_nodup _) i ((mem_lanes _ i).2 ⟨hi, hon⟩),
      fun b hb => hout b fun i hi => let ⟨hlt, hon⟩ := (mem_lanes _ i).1 hi; hb i hlt hon⟩

/-! Addresses that trap (R197). -/

theorem lCheck_align {a : Int} {n al : Nat} (h : ¬ a % (al : Int) = 0) : lCheck s a n al = some (lFault s cAlign a) := if_pos h
theorem inL_outside {a : Int} {n : Nat} (h : a < 0 ∨ 8388608 < a + (n : Int)) : inL a n = false := by
  have htop : (lTop : Int) + 1 = 8388608 := rfl
  rw [inL, htop, Bool.and_eq_false_iff, decide_eq_false_iff_not, decide_eq_false_iff_not]
  omega
theorem lCheck_access {a : Int} {n al : Nat} (halign : a % (al : Int) = 0) (h : a < 0 ∨ 8388608 < a + (n : Int)) :
    lCheck s a n al = some (lFault s cAccess a) := by
  rw [lCheck, if_neg (not_not.2 halign), inL_outside h]
  rfl
/-- A misaligned address of G is the first fault of its lane. -/
theorem laneFault_align {w : Want} {al n : Nat} {lane : Option Nat} {a : Int} (h : ¬ a % (al : Int) = 0) :
    laneFault s w al lane a n = some (gFault s cAlign (gAddr a) lane) := if_pos h
/-- An aligned address at or above 2^52 faults before it is watched or translated. -/
theorem laneFault_access {w : Want} {al n : Nat} {lane : Option Nat} {a : Int} (halign : a % (al : Int) = 0)
    (h : 4503599627370496 ≤ gAddr a) : laneFault s w al lane a n = some (gFault s cAccess (gAddr a) lane) :=
  (if_neg (not_not.2 halign)).trans (if_pos h)
/-- The fault of a lane is that of an access whose first lane it is. -/
theorem lanesFault_first {w : Want} {al n i : Nat} {a : Int} {r : List (Nat × Int)} {t : TrapInfo} (h : laneFault s w al none a n = some t) :
    lanesFault s w al n false ((i, a) :: r) = some t := by
  rw [lanesFault, if_neg Bool.false_ne_true, h]
theorem ldl_traps {o : LdF12} {t : TrapInfo} (h : Ready (.ldl o) s)
    (ht : lCheck s (eaddr s o.base o.off (szBytes o.z)) (szBytes o.z) (szBytes o.z) = some t) : exec (.ldl o) s = .next (takeTrap t s) := by
  rw [exec_ldl, execLdl, ht]
  exact runSlot_trap h t _ _
theorem stl_traps {o : StF12} {t : TrapInfo} (h : Ready (.stl o) s)
    (ht : lCheck s (eaddr s o.base o.off (szBytes o.z)) (szBytes o.z) (szBytes o.z) = some t) : exec (.stl o) s = .next (takeTrap t s) := by
  rw [exec_stl, execStl, ht]
  exact runSlot_trap h t _ _
theorem ldg_traps {o : LdF11} {t : TrapInfo} (h : Ready (.ldg o) s)
    (ht : laneFault s wLoad (szBytes o.z) none (eaddr s o.base o.off (szBytes o.z)) (szBytes o.z) = some t) :
    exec (.ldg o) s = .next (takeTrap t s) := by
  rw [exec_ldg, execLdg, lanesFault_first ht]
  exact runSlot_trap h t _ _
theorem stg_traps {o : StF11} {t : TrapInfo} (h : Ready (.stg o) s)
    (ht : laneFault s wStore (szBytes o.z) none (eaddr s o.base o.off (szBytes o.z)) (szBytes o.z) = some t) :
    exec (.stg o) s = .next (takeTrap t s) := by
  rw [exec_stg, execStg, lanesFault_first ht]
  exact runSlot_trap h t _ _

end Sys2Proof.Machine
end

section
open Sys2Proof Sys2Proof.Machine

/-- Settles O12, form by form. -/
theorem localLoadsAndStores : Obligations.LocalLoadsAndStores :=
  fun _ _ => ⟨fun _ => ldl_writes, fun _ => stl_stores, fun _ => vldl_writes, fun _ => vstl_puts⟩

/-- Settles O13: each form traps with the first fault of its address. -/
theorem accessesTrapAlignAndAccess : Obligations.AccessesTrapAlignAndAccess := by
  refine ⟨fun s => ⟨fun o h hmis => ?_, fun o h hmis => ?_, fun o h halign hout => ?_, fun o h halign hout => ?_⟩,
    fun s => ⟨fun o h hmis => ?_, fun o h hmis => ?_, fun o h halign hhigh => ?_, fun o h halign hhigh => ?_⟩⟩
  · exact ldl_traps h (lCheck_align hmis)
  · exact stl_traps h (lCheck_align hmis)
  · exact ldl_traps h (lCheck_access halign hout)
  · exact stl_traps h (lCheck_access halign hout)
  · exact ldg_traps h (laneFault_align hmis)
  · exact stg_traps h (laneFault_align hmis)
  · exact ldg_traps h (laneFault_access halign hhigh)
  · exact stg_traps h (laneFault_access halign hhigh)

end

section
/-! PROOFS. Stores to G in the core's own view (R199, R206 to R209, R219). -/
namespace Sys2Proof.Machine
variable {s : State}

/-! The core's own view (R209, R217). -/

/-- Bytes written after every own write of a core stand above them all. -/
theorem ownPut_latest {ws own : List OwnW} {q : Nat} (h : ∀ w ∈ own, w.seq < q) : ownPut ws q 0 own = ws ++ own := by
  have hold : ∀ w ∈ own, before q 0 w.seq w.lane = false := by
    intro w hw
    have := h w hw
    rw [before, decide_eq_false (by omega), beq_eq_false_iff_ne.2 (by omega)]
    rfl
  cases own with
  | nil => simp [ownPut]
  | cons w r => simp [ownPut, hold w (by simp)]
/-- The own writes of some bytes give each of these bytes. -/
theorem ownBytes_inside {q loc i : Nat} (ipa : Nat) {bs : List Byte} (hi : i < bs.length) :
    (ownBytes q 0 loc ipa bs).find? (fun w => w.loc == loc + i && decide (w.seq < q + 1)) = some ⟨loc + i, ipa + i, bs.getD i 0, q, 0⟩ := by
  have hmem : ⟨loc + i, ipa + i, bs.getD i 0, q, 0⟩ ∈ ownBytes q 0 loc ipa bs :=
    List.mem_map.2 ⟨i, List.mem_reverse.2 (mem_upto.2 hi), rfl⟩
  cases hfind : (ownBytes q 0 loc ipa bs).find? (fun w => w.loc == loc + i && decide (w.seq < q + 1)) with
  | none => exact absurd (List.find?_eq_none.1 hfind _ hmem) (by simp)
  | some w =>
    obtain ⟨j, _, rfl⟩ := List.mem_map.1 (List.mem_of_find?_eq_some hfind)
    have hloc := List.find?_some hfind
    simp only [Bool.and_eq_true, beq_iff_eq, Nat.add_left_cancel_iff] at hloc
    rw [hloc.1]
/-- They give no byte besides. -/
theorem ownBytes_outside {q loc a : Nat} (ipa limit : Nat) {bs : List Byte} (ha : a < loc ∨ loc + bs.length ≤ a) :
    (ownBytes q 0 loc ipa bs).find? (fun w => w.loc == a && decide (w.seq < limit)) = none := by
  rw [List.find?_eq_none]
  intro w hw
  obtain ⟨i, hi, rfl⟩ := List.mem_map.1 hw
  have hi' : i < bs.length := mem_upto.1 (List.mem_reverse.1 hi)
  simp only [Bool.and_eq_true, beq_iff_eq]
  omega

/-- A store's bytes enter the own view of the core that commits it, and what is not published of it. -/
theorem me_storeOwn (s : State) (q lane loc ipa : Nat) (bs : List Byte) : ∃ unpub, me (storeOwn s s.iss.core q lane loc ipa bs) =
    { me s with own := ownPut (ownBytes q lane loc ipa bs) q lane (me s).own, unpub := unpub } := ⟨_, cr_modCr_same _ _ _⟩
/-- t is as s after a store of some bytes at a location, at the core's next place in program order. -/
def StoredAt (s t : State) (loc : Nat) (bs : List Byte) : Prop :=
  t.pubs = s.pubs ∧ ∃ ipa unpub, me t = { me s with
    own := ownPut (ownBytes (me s).seq 0 loc ipa bs) (me s).seq 0 (me s).own, unpub := unpub, seq := (me s).seq + 1 }
/-- A store of one lane that translates to correct columns is stored at its location. -/
theorem issueStore_stored {n : Nat} {a : Int} {bs : List Byte} {loc : Nat} (hx : xlMe s (gAddr a) true = .ok loc) (hb : badColumn s loc n = none) :
    StoredAt s (nextSlot (issueStore false n [(0, a, bs)] s)) loc bs := by
  obtain ⟨u, ipa, hwalk, hpubs, hstore⟩ := store_one s n a bs loc hx hb
  obtain ⟨unpub, hown⟩ := me_storeOwn u (me s).seq 0 loc ipa bs
  rw [hwalk.iss, hwalk.me] at hown
  refine ⟨(congrArg State.pubs hstore).trans hpubs, ipa, unpub, ?_⟩
  rw [me_nextSlot, hstore, bumpSeq, me_modMe, hown]
/-- The core's view after a store: the bytes stored, and every other byte as before. -/
theorem viewByte_stored {t : State} {loc : Nat} {bs : List Byte} (hst : StoredAt s t loc bs) (hold : ∀ w ∈ (me s).own, w.seq < (me s).seq) :
    (∀ i, i < bs.length → viewByte t (loc + i) = bs.getD i 0) ∧
    (∀ a, a < loc ∨ loc + bs.length ≤ a → viewByte t a = viewByte s a) := by
  obtain ⟨hpubs, ipa, unpub, hme⟩ := hst
  rw [ownPut_latest hold] at hme
  refine ⟨fun i hi => ?_, fun a ha => ?_⟩
  · rw [viewByte, hme, ownByte, List.find?_append, ownBytes_inside ipa hi]
    rfl
  · have hfind : (me s).own.find? (fun w => w.loc == a && decide (w.seq < (me s).seq + 1)) =
        (me s).own.find? (fun w => w.loc == a && decide (w.seq < (me s).seq)) :=
      List.find?_congr fun w hw => by
        have := hold w hw
        rw [decide_eq_true this, decide_eq_true (Nat.lt_succ_of_lt this)]
    have hsnap : snapOf t t.iss.core a = snapOf s s.iss.core a := by
      show snapByte (me t).incl a t.pubs 1 0 = _
      rw [hme, hpubs]
      rfl
    rw [viewByte, viewByte, hsnap, hme, ownByte, List.find?_append, ownBytes_outside ipa _ ha, Option.none_or, hfind]
    rfl

/-! The three stores. -/

theorem stg_commits {o : StF11} (h : Ready (.stg o) s)
    (hf : lanesFault s wStore (szBytes o.z) (szBytes o.z) false [(0, eaddr s o.base o.off (szBytes o.z))] = none) :
    exec (.stg o) s = .next (nextSlot (issueStore false (szBytes o.z)
      [(0, eaddr s o.base o.off (szBytes o.z), bytesOf (szBytes o.z) (srcS s o.v).toNat)] s)) :=
  (exec_stg o s).trans (runSlot_unfaulted h hf _)
/-- A ready slot whose effect is a store without a fault has the frame of a store. -/
theorem storeSlot_frame {i : Instr} {f : Option TrapInfo} (h : Ready i s) (hf : f = none) (lv : Bool) (n : Nat)
    (lanes : State → List (Nat × Int × List Byte)) :
    ∃ t, runSlot i f false (fun s => issueStore lv n (lanes s) s) s = .next t ∧ FrameStore s t :=
  ⟨_, runSlot_unfaulted h hf _, frameStore_of h lv n (lanes s)⟩

end Sys2Proof.Machine
end

section
open Sys2Proof Sys2Proof.Machine

/-- Settles O18: the frame of a store, and for STG the view that its one lane leaves. -/
theorem storesToGlobalMemory : Obligations.StoresToGlobalMemory := by
  refine fun s => ⟨fun o h hf => ?_, fun o h hf => ?_, fun o h hf => ?_⟩
  · refine ⟨_, stg_commits h hf, frameStore_of h _ _ _, fun loc hx hb hold => ?_⟩
    have hstored := issueStore_stored (bs := bytesOf (szBytes o.z) (srcS s o.v).toNat) hx hb
    obtain ⟨hin, hout⟩ := viewByte_stored hstored hold
    rw [bytesOf_len] at hin hout
    obtain ⟨_, _, _, hme⟩ := hstored
    exact ⟨by rw [hme], fun i hi => (hin i hi).trans (bytesOf_get _ _ i hi), hout⟩
  · rw [exec_vstg, execVstg]
    exact storeSlot_frame h hf false 4 _
  · rw [exec_vscat, execVscat]
    exact storeSlot_frame h hf true 4 _

end

section
/-! PROOFS. Posted reductions, rows and row loads in flight (R213, R249, R250). -/
namespace Sys2Proof.Machine
variable {s : State}

/-- The columns of a row: 32 bytes each (R249). -/
def rowColumns (s : State) (base : BitVec 6) (n : BitVec 4) : List (Nat × Int × Option (List Byte)) :=
  (upto (n.toNat + 1)).map (fun i => (i, ((srcS s base).toNat : Int) + 32 * i, none))
theorem rowColumns_lanes (s : State) (base : BitVec 6) (n : BitVec 4) :
    (rowColumns s base n).map (fun x => (x.1, gAddr x.2.1, 32)) =
      (upto (n.toNat + 1)).map (fun i : Nat => (i, gAddr ((srcS s base).toNat + 32 * i), 32)) := by
  rw [rowColumns, List.map_map]
  rfl
/-- An access in flight with several destinations and lanes of one length (R33, R250). -/
theorem launchLanes_law (h : s.iss.act = true) (kind : PKind) (tag : Tag) (dst : List RegId) (n : Nat)
    (xs : List (Nat × Int × Option (List Byte))) : let x := openLanes false false n xs (emptyAll tag dst s)
    let t := nextSlot (launchPend kind dst (x.1.iss.t + 1) 0 0 x.2 x.1)
    OnlyCoreAndWalks s t ∧ SlotDone s t ∧ InFlight s t kind dst 0 (xs.map (fun x => (x.1, gAddr x.2.1, n))) x.2 ∧ FrameAll s t tag dst := by
  obtain ⟨honly, ⟨r, hiss⟩, htag, hv, hfull, hs, hme⟩ := emptyAll_law tag dst s
  obtain ⟨hwalk, hlanes⟩ := lanes_law' false false n xs (emptyAll tag dst s)
  dsimp only
  generalize openLanes false false n xs (emptyAll tag dst s) = x at hwalk hlanes
  have ht : x.1.iss.t = s.iss.t := by rw [hwalk.iss, hiss]
  rw [ht]
  obtain ⟨honly', hdone, hme'⟩ := walks_then h honly r hiss hwalk (launched kind dst (s.iss.t + 1) 0 x.2)
  change me (nextSlot (launchPend kind dst (s.iss.t + 1) 0 0 x.2 x.1)) = _ at hme'
  refine ⟨honly', hdone, ⟨?_, ?_, hlanes⟩, ?_⟩
  · rw [hme', hme]; rfl
  · rw [hme', hme]; rfl
  · unfold FrameAll
    rw [hme']
    refine ⟨htag, hv, hfull, hs, ?_⟩
    rw [launched, hme]
theorem radd_posts {o : RaddF} (h : Ready (.radd o) s)
    (hf : lanesFault s wRadd (raddBytes o.fmt) (raddBytes o.fmt) false [(0, ((srcS s o.base).toNat : Int))] = none) :
    ∃ t ls, exec (.radd o) s = .next t ∧ OnlyCoreAndWalks s t ∧ SlotDone s t ∧
      me t = { me s with posts := (me s).posts ++ [⟨(me s).seq, .radd o.fmt o.op (srcS s o.v), ls⟩], seq := (me s).seq + 1 } ∧
      List.Forall₂ IsLane ls [(0, gAddr (srcS s o.base).toNat, raddBytes o.fmt)] := by
  obtain ⟨t, ls, rfl, hrest⟩ := post_law s h.1 (.radd o.fmt o.op (srcS s o.v)) (raddBytes o.fmt) [(0, ((srcS s o.base).toNat : Int), none)]
  exact ⟨_, ls, (exec_radd o s).trans (runSlot_unfaulted h hf _), hrest⟩
theorem rowadd_posts {o : RowaddF} (h : Ready (.rowadd o) s) (htag : rowTagFault s o.v o.n = false) (hf : rowFault s wRowadd o.base o.n = none) :
    ∃ t ls, exec (.rowadd o) s = .next t ∧ OnlyCoreAndWalks s t ∧ SlotDone s t ∧
      me t = { me s with posts := (me s).posts ++ [⟨(me s).seq, .rowadd (rowBytes o.n) (pairBits s o.v), ls⟩], seq := (me s).seq + 1 } ∧
      List.Forall₂ IsLane ls ((upto (o.n.toNat + 1)).map (fun i : Nat => (i, gAddr ((srcS s o.base).toNat + 32 * i), 32))) := by
  obtain ⟨t, ls, rfl, honly, hdone, hme, hlanes⟩ := post_law s h.1 (.rowadd (rowBytes o.n) (pairBits s o.v)) 32 (rowColumns s o.base o.n)
  rw [rowColumns_lanes] at hlanes
  refine ⟨_, ls, ?_, honly, hdone, hme, hlanes⟩
  rw [exec_rowadd, execRowadd, htag]
  exact runSlot_unfaulted h hf _
theorem rowld_launches {o : RowldF} (h : Ready (.rowld o) s) (hf : rowFault s wRowld o.base o.n = none) :
    ∃ t ls, exec (.rowld o) s = .next t ∧ OnlyCoreAndWalks s t ∧ SlotDone s t ∧
      InFlight s t (.rowld (rowBytes o.n)) (rowDst o.d o.n) 0
        ((upto (o.n.toNat + 1)).map (fun i : Nat => (i, gAddr ((srcS s o.base).toNat + 32 * i), 32))) ls ∧
      FrameAll s t 5 (rowDst o.d o.n) := by
  have hsrc : srcS (emptyAll 5 (rowDst o.d o.n) s) o.base = srcS s o.base := by
    obtain ⟨_, ⟨_, hiss⟩, _⟩ := emptyAll_law 5 (rowDst o.d o.n) s
    rw [srcS, hiss]
    rfl
  obtain ⟨honly, hdone, hflight, hframe⟩ := launchLanes_law h.1 (.rowld (rowBytes o.n)) 5 (rowDst o.d o.n) 32 (rowColumns s o.base o.n)
  rw [rowColumns_lanes] at hflight
  refine ⟨_, _, ?_, honly, hdone, hflight, hframe⟩
  rw [exec_rowld, execRowld, runSlot_unfaulted h hf]
  simp only [hsrc]
  rfl

end Sys2Proof.Machine
end

section
open Sys2Proof Sys2Proof.Machine

/-- Settles O20, form by form. -/
theorem reductionsAndRows : Obligations.ReductionsAndRows := by
  refine fun s => ⟨fun o => radd_posts, fun o => rowadd_posts, fun o h htag => ?_, fun o => rowld_launches⟩
  rw [exec_rowadd, execRowadd, htag]
  exact runSlot_trap h _ _ _

end

section
/-! PROOFS. PHASE publishes at its scope, and PREF does nothing (R215, R219, R222, R232, R233). -/
namespace Sys2Proof.Machine
variable {s : State}

/-- A core after a PHASE: its footprint table and its streams' checks are cleared, and its writes are published as the next publication. -/
def phased (s : State) (k : Core) : Core := { clearFoot k with unpub := [], mine := k.mine ||| pubBit s }
/-- A publication right after the footprint table is cleared: one change of the core, memory and what is sent (R219, R222, R233). -/
theorem publishCleared_law (s : State) (scope : Nat) :
    ∃ n a o q, (publishFwd (modMe s clearFoot) s.iss.core scope).1 = { s with
      cores := s.cores.set s.iss.core (phased s (me s)), mem := s.mem.wrPairs (unpublished (me s))
      pubs := s.pubs ++ [⟨.core s.iss.core, domMask s s.iss.core scope, (me s).incl ||| (me s).mine ||| agentMask (.core s.iss.core) s.pubs 1,
        unpublished (me s)⟩]
      badG := healG (unpublished (me s)) s.badG, nextId := n, ackWait := a, sent := o, outSeq := q } := by
  obtain ⟨n, a, o, q, hpub⟩ := publishFwd_law (modMe s clearFoot) s.iss.core scope
  have hcr : cr (modMe s clearFoot) s.iss.core = clearFoot (me s) := me_modMe s clearFoot
  have hdom : domMask (modMe s clearFoot) s.iss.core scope = domMask s s.iss.core scope := domMask_modCr s _ _ clearFoot (fun _ => rfl) _
  refine ⟨n, a, o, q, ?_⟩
  rw [hpub, hcr, hdom, ← set_set_core s.cores rfl (clearFoot (me s))]
  rfl
/-- The committing core, where the cores are those of another state with its own core set. -/
theorem me_of_cores {x : State} {k : Core} (hcore : x.iss.core = s.iss.core) (hcores : x.cores = s.cores.set s.iss.core k) : me x = k := by
  unfold me cr
  rw [hcore, hcores]
  exact Vector.getElem_set_self s.iss.core.isLt
/-- A PHASE that waits for nothing (R222, R233). -/
theorem phase_publishes {o : PhaseF} (h : Ready (.phase o) s) (hst : phaseStall s = false) :
    ∃ t ids, exec (.phase o) s = .next t ∧
      me t = phased s (me s) ∧
      t.iss = { s.iss with slot := s.iss.slot + 1, stop := s.iss.stop.andThen (.phase o.scope ids .none) } ∧
      t.pubs = s.pubs ++ [⟨.core s.iss.core, domMask s s.iss.core o.scope.toNat,
        (me s).incl ||| (me s).mine ||| agentMask (.core s.iss.core) s.pubs 1, unpublished (me s)⟩] ∧
      t.mem = s.mem.wrPairs (unpublished (me s)) ∧
      t = { s with
        cores := s.cores.set s.iss.core (me t), iss := t.iss, pubs := t.pubs, mem := t.mem, badG := t.badG, nextId := t.nextId
        ackWait := t.ackWait, sent := t.sent, outSeq := t.outSeq } := by
  obtain ⟨n, a, out, q, hpub⟩ := publishCleared_law s o.scope.toNat
  rw [exec_phase, execPhase, hst, runSlot_go h]
  dsimp only
  rw [hpub]
  generalize (if 2 < o.scope.toNat then _ else _ : List Nat) = ids
  generalize ht : nextSlot _ = t
  have hme : me t = phased s (me s) := me_of_cores (s := s) (by rw [← ht]; rfl) (by rw [← ht]; rfl)
  refine ⟨t, ids, rfl, hme, ?_, by rw [← ht]; rfl, by rw [← ht]; rfl, ?_⟩
  · rw [← ht, nextSlot_act (by exact h.1)]
    rfl
  · rw [hme, ← ht]
    rfl

end Sys2Proof.Machine
end

section
open Sys2Proof Sys2Proof.Machine

/-- Settles O23, by the one publication of a PHASE and the empty effect of PREF. -/
theorem phasePublishesAndPrefDoesNothing : Obligations.PhasePublishesAndPrefDoesNothing :=
  fun _ => ⟨fun _ => phase_publishes, fun o h => exec_pref o _ ▸ commits h⟩

end

section
/-! PROOFS. Commands in flight with their blocks, and misaligned blocks (R205, R253 to R255, R314). -/
namespace Sys2Proof.Machine
variable {s : State}

/-- A block is 64 bytes long for the collectives and 32 bytes for every other command (R253). -/
theorem blockLen_eq (op : Nat) : blockLen op = if 0x08 ≤ op ∧ op ≤ 0x0B then 64 else 32 := by
  have hcfl : isCfl op = true ↔ 0x08 ≤ op ∧ op ≤ 0x0B := by
    simp only [isCfl, opAr, opRs, opAg, opBc, Bool.or_eq_true, beq_iff_eq]
    omega
  exact if_congr hcfl rfl rfl
/-- A new command is queued, with its ticket and its ranges. -/
theorem newCmd_queues (hact : s.iss.act = true) (op : Nat) (j : BitVec 4) (b : BitVec 512) (cfl : Option CflSt) :
    Queues s (.next (nextSlot (newCmd op j b cfl s))) op j b := by
  obtain ⟨k, ⟨hid, hcore, hop, hj, hblock, hdone, hfail⟩, hnew⟩ := newCmd_eq op j b cfl s
  refine ⟨_, k, rfl, slotDone_of hact rfl, hid, hcore, hop, hj, hblock, hdone, hfail, ?_, me_newCmd op j b cfl s⟩
  rw [me_nextSlot, me_newCmd, hnew]
  rfl
theorem command_queues {o : CmdF} {i : Instr} {op : Nat} {cfl : Option CflSt} (hexec : exec i s = cmdOut i op o (fun _ => cfl) s)
    (h : Ready i s) (hf : cmdFault s op (srcS s o.a).toNat = none) (hs : cmdStall s op (srcS s o.a).toNat = false) :
    Queues s (exec i s) op o.j (cmdBlock s op (srcS s o.a).toNat) := by
  rw [hexec, cmdOut, hf, hs, runSlot_go h]
  exact newCmd_queues h.1 op o.j _ cfl
/-- A block whose address is no multiple of its length faults before every other check (R253). -/
theorem cmdFault_align {op a : Nat} (h : a % blockLen op ≠ 0) : cmdFault s op a = some (lFault s cAlign a) := if_pos h
/-- The commands whose blocks are 32 bytes long. -/
theorem shortCommand_form {o : CmdF} {i : Instr} (hi : i ∈ [.cpy o, .cpyw o, .rkgath o, .rkseg o, .rill o, .send o, .recv o]) (s : State) :
    ∃ op cfl, exec i s = cmdOut i op o (fun _ => cfl) s ∧ blockLen op = 32 := by
  simp only [List.mem_cons, List.not_mem_nil, or_false] at hi
  rcases hi with rfl | rfl | rfl | rfl | rfl | rfl | rfl
  · exact ⟨opCpy, none, exec_cpy o s, rfl⟩
  · exact ⟨opCpyw, none, exec_cpyw o s, rfl⟩
  · exact ⟨opRkgath, none, exec_rkgath o s, rfl⟩
  · exact ⟨opRkseg, none, exec_rkseg o s, rfl⟩
  · exact ⟨opRill, none, exec_rill o s, rfl⟩
  · exact ⟨opSend, none, exec_send o s, rfl⟩
  · exact ⟨opRecv, none, exec_recv o s, rfl⟩
/-- The collectives, whose blocks are 64 bytes long. -/
theorem collective_form {o : CmdF} {i : Instr} (hi : i ∈ [.cflAr o, .cflRs o, .cflAg o, .cflBc o]) (s : State) :
    ∃ op cfl, exec i s = cmdOut i op o (fun _ => cfl) s ∧ blockLen op = 64 := by
  simp only [List.mem_cons, List.not_mem_nil, or_false] at hi
  rcases hi with rfl | rfl | rfl | rfl
  · exact ⟨opAr, some cflStart, exec_cflAr o s, rfl⟩
  · exact ⟨opRs, some cflStart, exec_cflRs o s, rfl⟩
  · exact ⟨opAg, some cflStart, exec_cflAg o s, rfl⟩
  · exact ⟨opBc, some cflStart, exec_cflBc o s, rfl⟩
theorem command_misaligned {o : CmdF} {i : Instr} {op : Nat} {cfl : Option CflSt} (hexec : exec i s = cmdOut i op o (fun _ => cfl) s)
    (h : Ready i s) (hmis : (srcS s o.a).toNat % blockLen op ≠ 0) :
    exec i s = .next (takeTrap (lFault s cAlign (srcS s o.a).toNat) s) := by
  rw [hexec, cmdOut, cmdFault_align hmis]
  exact runSlot_trap h _ _ _

end Sys2Proof.Machine
end

section
open Sys2Proof Sys2Proof.Machine

/-- Settles O24: every command is the shared form, which queues its block or traps at its address. -/
theorem engineCommandsAreGiven : Obligations.EngineCommandsAreGiven := by
  refine ⟨fun s o i op hform h hf hs => ?_, fun s o i h hmis => ?_⟩
  · obtain ⟨cfl, hexec⟩ := command_form (o := o) (x := (i, op)) (by simpa using hform) s
    have hqueues := command_queues hexec h hf hs
    rwa [cmdBlock, blockLen_eq] at hqueues
  · rcases hmis with ⟨hi, hmis⟩ | ⟨hi, hmis⟩
    · obtain ⟨op, cfl, hexec, hlen⟩ := shortCommand_form hi s
      exact command_misaligned hexec h (by rwa [hlen])
    · obtain ⟨op, cfl, hexec, hlen⟩ := collective_form hi s
      exact command_misaligned hexec h (by rwa [hlen])

end

section
/-! PROOFS. Memory stays the one order of its publications under the meaning of every instruction and event, and under every step
(R218, R219). -/
namespace Sys2Proof.Machine

/-- A choice between two states that are the order of their publications. -/
theorem ite_coh {p : Prop} [Decidable p] {s t : State} (hs : Coherent s) (ht : Coherent t) : Coherent (if p then s else t) := by
  split
  · exact hs
  · exact ht
theorem ite_cohOut {p : Prop} [Decidable p] {a b : Out} (ha : CohOut a) (hb : CohOut b) : CohOut (if p then a else b) := by
  split
  · exact ha
  · exact hb

/-! Slots whose effect is made of several operations. -/

theorem execPhase_coh (o : PhaseF) {s : State} (h : Coherent s) : CohOut (execPhase o s) :=
  runSlot_coh _ _ _ _ s h fun _ h => modIss_coh _ _ (publishFwd_coh _ _ _ (modMe_coh _ _ h))
theorem execRowadd_coh (o : RowaddF) {s : State} (h : Coherent s) : CohOut (execRowadd o s) :=
  runSlot_coh _ _ _ _ s h fun s h => bumpSeq_coh _ (modMe_coh _ _ (openLanes_coh _ _ _ _ s h))
theorem execRowld_coh (o : RowldF) {s : State} (h : Coherent s) : CohOut (execRowld o s) :=
  runSlot_coh _ _ _ _ s h fun s h => launchPend_coh _ _ _ _ _ _ _ (openLanes_coh _ _ _ _ _ (emptyAll_coh _ _ s h))
theorem execSuspend_coh (o : BtF) {s : State} (h : Coherent s) : CohOut (execSuspend o s) :=
  runSlot_coh _ _ _ _ s h fun _ h => modIss_coh _ _ h
theorem execRte_coh {s : State} (h : Coherent s) : CohOut (execRte s) :=
  runSlot_coh _ _ _ _ s h fun s h => ite_coh (doubleTrap_coh _ _ _ s h) (rteReturn_coh s h)
theorem execWld_coh (o : WldF) {s : State} (h : Coherent s) : CohOut (execWld o s) :=
  runSlot_coh _ _ _ _ s h fun s h => by
    split
    · exact coreUncorrectable_coh _ _ _ s h
    · exact modMe_coh s _ h
theorem execBeat_coh (o : BeatF) {s : State} (h : Coherent s) : CohOut (execBeat o s) :=
  runSlot_coh _ _ _ _ s h fun s h =>
    have hz := markQ_coh o.q _ (advQ_coh o.q 1 _ (setFlags_coh _ _ (wrZ_coh _ _ s h)))
    ite_coh (markQ_coh _ _ (advQ_coh _ _ _ hz)) hz
theorem execSpawn_coh (o : CmdF) {s : State} (h : Coherent s) : CohOut (execSpawn o s) :=
  runSlot_coh _ _ _ _ s h fun s h => by
    unfold Coherent
    dsimp only
    exact newCmd_coh _ _ _ _ _ (publishFwd_coh s _ _ h)
theorem execTqpop_coh (o : EaF) {s : State} (h : Coherent s) : CohOut (execTqpop o s) :=
  runSlot_coh _ _ _ _ s h fun s h => by
    split
    · exact h
    · exact modMe_coh s _ h
theorem execPancfg_coh (o : CmdF) {s : State} (h : Coherent s) : CohOut (execPancfg o s) :=
  runSlot_coh _ _ _ _ s h fun s h => newCmd_coh _ _ _ _ _ (modMe_coh _ _ (ite_coh (panRelease_coh _ s h) (panConfig_coh _ s h)))
theorem execTick_coh (o : CmdF) {s : State} (h : Coherent s) : CohOut (execTick o s) :=
  runSlot_coh _ _ _ _ s h fun s h => by
    dsimp only
    split
    · exact h
    · exact modRegion_coh _ _ _ (newCmd_coh _ _ _ _ s h)

/-! Events of the cores and of the engines. -/

theorem execRepeat_coh (o : RepF) {s : State} (h : Coherent s) : CohOut (execRepeat o s) := by
  unfold execRepeat
  split
  · exact .mk h
  · split
    · exact .mk h
    · exact ite_cohOut (.mk (trapBefore_coh _ _ _ s h)) (.mk (modCr_coh s _ _ h))
theorem execTaskPickup_coh (c : CoreId) {s : State} (h : Coherent s) : CohOut (execTaskPickup c s) := by
  unfold execTaskPickup
  split
  · exact .mk h
  · exact ite_cohOut (.mk h) (.mk (pickup_coh _ _ s h))
theorem execCflHop_coh (c : CoreId) (id : Nat) (k : CflPkt) {s : State} (h : Coherent s) : CohOut (execCflHop c id k s) := by
  unfold execCflHop
  split
  · exact .mk h
  · exact .mk (cflTurn_coh _ _ (cflTake_coh _ s _ h))
theorem execCflLateReplacement_coh (c : CoreId) (id : Nat) (k : CflPkt) {s : State} (h : Coherent s) :
    CohOut (execCflLateReplacement c id k s) := by
  unfold execCflLateReplacement
  split
  · exact .mk h
  · exact ite_cohOut (.mk h) (ite_cohOut (.mk (cflAsked_coh _ _ _ s h)) (ite_cohOut (.mk h) (.mk (cflAnswer_coh _ _ _ s h))))
theorem execRecvTimeout_coh (c : CoreId) (id : Nat) {s : State} (h : Coherent s) : CohOut (execRecvTimeout c id s) := by
  unfold execRecvTimeout
  split
  · exact .mk h
  · refine ite_cohOut (.mk h) (ite_cohOut (.mk (recvTimeoutStep_coh _ s h)) ?_)
    split
    · exact ite_cohOut (.mk h) (.mk (cflLate_coh _ _ s h))
    · exact .mk h

/-! Commands of the windows, and what they begin. -/

theorem execPcreate_coh (p : PartId) (v : VfId) (mask : W64) (key : BitVec 256) {s : State} (h : Coherent s) :
    CohOut (execPcreate p v mask key s) :=
  ite_cohOut (.mk (nack_coh s h))
    (.mk (ackOk_coh _ _ (foldl_coh (fun _ _ h => modCr_coh _ _ _ h) (modVf_coh _ _ _ (setPt_coh s _ _ h)))))
theorem execPdestroy_coh (p : PartId) {s : State} (h : Coherent s) : CohOut (execPdestroy p s) := by
  refine ite_cohOut (.mk (nack_coh s h)) (.mk (ackOk_coh _ _ (dueCores_coh _ _ ?_)))
  unfold Coherent
  dsimp only
  exact setPt_coh _ _ _ (setVf_coh _ _ _ (foldl_coh (fun _ _ h => scrubCore_coh _ _ _ h) h))
theorem execInvalComplete_coh {s : State} (h : Coherent s) : CohOut (execInvalComplete s) := by
  unfold execInvalComplete
  split
  · exact .mk h
  · exact ite_cohOut (.mk h) (.mk (raise_coh _ _ (lit_coh h rfl rfl)))
theorem execImageLoad_coh (v : VfId) (img : Image) {s : State} (h : Coherent s) : CohOut (execImageLoad v img s) := by
  unfold execImageLoad
  split
  · exact .mk (nack_coh s h)
  · dsimp only
    split
    · exact .mk (nack_coh s h)
    · exact .mk (ackOk_coh _ _ (foldl_coh (fun _ _ h => modCr_coh _ _ _ h) (modPt_coh s _ _ h)))
theorem execQueueTeardown_coh (v : VfId) (q : BitVec 6) {s : State} (h : Coherent s) : CohOut (execQueueTeardown v q s) := by
  unfold execQueueTeardown
  split
  · exact .mk (nack_coh s h)
  · exact ite_cohOut (.mk (tearDown_coh _ _ _ (ackOk_coh s _ h))) (.mk (ackOk_coh s _ h))
theorem execAttest_coh (v : VfId) (nonce : BitVec 256) (a : GAddr) {s : State} (h : Coherent s) : CohOut (execAttest v nonce a s) := by
  unfold execAttest
  split
  · exact .mk (nack_coh s h)
  · exact .mk (ite_coh h (attestTry_coh _ _ _ _ s h))
theorem execPrqreply_coh (v : VfId) (x : W64) {s : State} (h : Coherent s) : CohOut (execPrqreply v x s) :=
  have ht := ite_coh (nack_coh s h) (replyStep_coh v x s h)
  .mk (ite_coh (windowAgain_coh _ _ ht) ht)
theorem execRegisterWrite_coh (w : Writer) (r : WinReg) (x : W64) {s : State} (h : Coherent s) : CohOut (execRegisterWrite w r x s) := by
  refine ite_cohOut (.mk (nack_coh s h)) ?_
  split
  · split
    · exact .mk (writeVf_coh _ _ _ _ _ s h)
    · exact .mk (nack_coh s h)
  · exact ite_cohOut (.mk (writeMgmt_coh _ _ s h)) (.mk (nack_coh s h))

/-! The Sluice, faults, and boot. -/

theorem execSluiceEvaluation_coh (p : PartId) {s : State} (h : Coherent s) : CohOut (execSluiceEvaluation p s) := by
  unfold execSluiceEvaluation
  split
  · exact .mk h
  · exact ite_cohOut (.mk h) (.mk (evalAll_coh _ _ s h))
theorem execDeadline_coh (k : DeadlineF) {s : State} (h : Coherent s) : CohOut (execDeadline k s) := by
  refine ite_cohOut (.mk (nackData_coh s _ h)) (.mk (ackOk_coh _ _ ?_))
  have hd := fun d => evalAll_coh k.part true { modPt s k.part (fun q => { q with dl := some d }) with mhz := max s.mhz 1800 }
    (modPt_coh s k.part (fun q => { q with dl := some d }) h)
  exact ite_coh (raise_coh _ _ (hd _)) (hd _)
theorem execDeadlineCut_coh (p : PartId) {s : State} (h : Coherent s) : CohOut (execDeadlineCut p s) := by
  unfold execDeadlineCut
  split
  · exact .mk h
  · exact ite_cohOut (.mk h) (.mk (cutAll_coh _ s h))
theorem execVacancy_coh (p : PartId) {s : State} (h : Coherent s) : CohOut (execVacancy p s) := by
  unfold execVacancy
  split
  · exact .mk h
  · refine ite_cohOut (.mk h) (.mk (raise_coh _ _ (openGate_coh _ _ (modPt_coh _ _ _ ?_))))
    have hcores := foldl_coh (l := coresOf (endAcks p s) p) (fun _ c h => scrubCore_coh c true _ h) (endAcks_coh p s h)
    split
    · exact pubOther_coh _ _ hcores
    · exact hcores
theorem execSluiceQuery_coh (x : W64) {s : State} (h : Coherent s) : CohOut (execSluiceQuery x s) := by
  unfold execSluiceQuery
  split
  · exact .mk (nack_coh s h)
  · exact .mk (ackOk_coh _ _ (lit_coh h rfl rfl))
theorem execRetire_coh (kind : BitVec 3) (u : BitVec 16) {s : State} (h : Coherent s) : CohOut (execRetire kind u s) := by
  have hdue := makeDue_coh kind u s h
  refine ite_cohOut (.mk (nack_coh s h)) (ite_cohOut (ite_cohOut (.mk (nack_coh s h)) (.mk (ackOk_coh _ _ ?_))) ?_)
  · exact ite_coh (shrinkStack_coh _ _ (goneUnit_coh _ _ _ hdue)) (goneUnit_coh _ _ _ hdue)
  · exact .mk (ackOk_coh _ _ (settleUnit_coh _ _ _ hdue))
theorem execMircfg_coh (p : PartId) (base : GAddr) (len : BitVec 52) (m : BitVec 16) (dpa : BitVec 46) {s : State} (h : Coherent s) :
    CohOut (execMircfg p base len m dpa s) :=
  ite_cohOut (.mk (nack_coh s h)) (.mk (ackOk_coh _ _ (ite_coh (lit_coh h rfl rfl) (declareMirror_coh _ _ (lit_coh h rfl rfl)))))
theorem execPromote_coh (p : PartId) (m : BitVec 16) {s : State} (h : Coherent s) : CohOut (execPromote p m s) :=
  ite_cohOut (.mk (nack_coh s h)) (.mk (ackOk_coh _ _ (lit_coh (foldl_coh (promotePan_coh p) h) rfl rfl)))
theorem execBootRomVerify_coh {s : State} (h : Coherent s) : CohOut (execBootRomVerify s) :=
  ite_cohOut (.mk h) (.mk (ite_coh (runFw_coh _ s h) (failFw_coh _ s h)))
/-- Firmware clears this module's stores with the publications that had filled them (R343). -/
theorem execFirmwareInit_coh {s : State} (h : Coherent s) : CohOut (execFirmwareInit s) :=
  have hs : Coherent { scrubStores s with boot := { s.boot with st := bootReady } } := scrubStores_coh s
  have ha := applyRetirements_coh _ hs
  ite_cohOut (.mk h) (.mk ha)
theorem execFwload_coh (f : Firmware) {s : State} (h : Coherent s) : CohOut (execFwload f s) :=
  ite_cohOut (.mk (nack_coh s h)) (.mk (ite_coh (ackOk_coh _ _ (runFw_coh f s h)) (nack_coh _ (failFw_coh _ s h))))

/-! Every instruction and event, by the form that gives its meaning. -/

/-- The meaning of every instruction and event is a next state, and its memory is the order of its publications (R218, R219). -/
theorem exec_coh (i : Instr) {s : State} (h : Coherent s) : CohOut (exec i s) := by
  cases i with unfold exec
  -- Results of the scalar, predicate and branch-target forms.
  | add _ | sub _ | mul _ | mulh _ | mulhu _ | and _ | or _ | xor _ | andn _ | shl _ | shr _ | sar _ | rol _ | min _ | max _ | minu _
  | maxu _ | clmull _ | clmulh _ | clz _ | ctz _ | popc _ | mov _ | sextI8 _ | sextI16 _ | sextI32 _ | zextI8 _ | zextI16 _ | zextI32 _
  | sel _ | addi _ | lea _ | li _ | lih _ => exact scalarOut_coh _ _ _ s h
  | div _ | divu _ | rem _ | remu _ => exact divOut_coh _ _ _ s h
  | cmp _ | cmpi _ | pand _ | por _ | pxor _ | pandn _ => exact predOut_coh _ _ _ s h
  | prepLabel _ | prepReg _ => exact runSlot_coh _ _ _ _ s h fun s h => wrB_coh _ _ s h
  | getc _ => exact runSlot_coh _ _ _ _ s h fun s h => wrS_coh _ _ s h
  | setc _ => exact runSlot_coh _ _ _ _ s h fun s h => note_coh _ _ (modMe_coh s _ h)
  -- The local store and its streams.
  | ldl _ | qstat _ => exact runSlot_coh _ _ _ _ s h fun s h => wrS_coh _ _ s h
  | stl _ => exact runSlot_coh _ _ _ _ s h fun s h => wrL_coh _ _ _ s h
  | vldl _ => exact runSlot_coh _ _ _ _ s h fun s h => wrV_coh _ _ _ s h
  | vldlStream _ => exact runSlot_coh _ _ _ _ s h fun s h => advQ_coh _ _ _ (wrV_coh _ _ _ s h)
  | vstl _ => exact runSlot_coh _ _ _ _ s h fun s h => healPairs_coh _ _ _ (storeLanes_coh _ _ _ s h)
  | vstlStream _ => exact runSlot_coh _ _ _ _ s h fun s h => advQ_coh _ _ _ (healPairs_coh _ _ _ (storeLanes_coh _ _ _ s h))
  | bind _ | unbind _ => exact runSlot_coh _ _ _ _ s h fun s h => modMe_coh s _ h
  | qskip _ => exact runSlot_coh _ _ _ _ s h (advQ_coh _ _)
  -- Accesses of global memory and of pan regions.
  | ldg _ => exact runSlot_coh _ _ _ _ s h fun s h => issueLoad_coh _ _ _ _ _ _ _ (emptyS_coh _ s h)
  | vldg _ | vgath _ => exact runSlot_coh _ _ _ _ s h (loadV_coh _ _ _ _)
  | stg _ | vstg _ | vscat _ => exact runSlot_coh _ _ _ _ s h fun s h => issueStore_coh _ _ _ s h
  | amo _ | amoCas _ => exact runSlot_coh _ _ _ _ s h fun s h => issueAmo_coh _ _ _ _ _ _ s h
  | radd _ => exact runSlot_coh _ _ _ _ s h fun s h => issuePost_coh _ _ _ s h
  | rowadd o => exact execRowadd_coh o h
  | rowld o => exact execRowld_coh o h
  | psmpScalar _ | psmpVector _ => exact runWith_coh _ _ _ _ _ s h (panPost_coh _ _ _ _)
  | ptapScalar _ | ptapVector _ | ptaps _ | rtapScalar _ | rtapVector _ => exact runWith_coh _ _ _ _ _ s h (panTap_coh _ _ _ _ _ _ _)
  | phase o => exact execPhase_coh o h
  | pref _ | jwait _ => exact runSlot_coh _ _ _ _ s h fun s h => h
  -- Vectors, masks and the crossbar.
  | vadd _ | vsub _ | vmul _ | vmulh _ | vshl _ | vshr _ | vsar _ | vmin _ | vmax _ => exact vInt_coh _ _ _ s h
  | vand _ | vor _ | vxor _ => exact vBit_coh _ _ _ s h
  | vfadd _ | vfsub _ | vfmul _ => exact vFp_coh _ _ _ s h
  | vfmin _ | vfmax _ => exact vPick_coh _ _ _ s h
  | vfabs _ | vfneg _ => exact vSign_coh _ _ _ s h
  | vexp2 _ | vlog2 _ | vrcp _ | vrsq _ | vsqrt _ => exact vSpecial_coh _ _ _ s h
  | vmad _ | vabs _ | vwacc _ | vclmulLo _ | vclmulHi _ | vpopc _ | vfma _ | vcvt _ | vscale _ | vpack _ | vunpack _ | vtag _ | vscan _
  | vsplat _ => exact runSlot_coh _ _ _ _ s h fun s h => vOut_coh _ _ _ _ s h
  | vfcmp _ | vmcmp _ | mand _ | mor _ | mnot _ => exact runSlot_coh _ _ _ _ s h fun s h => wrM_coh _ _ s h
  | vred _ => exact runSlot_coh _ _ _ _ s h fun s h => setFlags_coh _ _ (wrV_coh _ _ _ s h)
  | vmovs _ => exact runSlot_coh _ _ _ _ s h fun s h => wrS_coh _ _ s h
  | vsel _ | vlane _ | xcmpr _ => exact runSlot_coh _ _ _ _ s h fun s h => wrV_coh _ _ _ s h
  | vchkf _ => exact runSlot_coh _ _ _ _ s h fun s h => ite_coh (modIss_coh _ _ (setFlags_coh _ s h)) h
  | lsupd => exact runSlot_coh _ _ _ _ s h fun s h => modMe_coh _ _ (note_coh _ _ (note_coh _ s h))
  | xperm _ | xrot _ | xbcast _ | xshuf _ | xrev _ => exact runSlot_coh _ _ _ _ s h fun s h => moveLanes_coh _ _ _ s h
  -- Weights, tiles and transposes.
  | wld o => exact execWld_coh o h
  | beat o => exact execBeat_coh o h
  | drain _ => exact runSlot_coh _ _ _ _ s h fun s h => setFlags_coh _ _ (launchV_coh _ _ _ _ s h)
  | zclr _ | zrot _ => exact runSlot_coh _ _ _ _ s h fun s h => wrZ_coh _ _ s h
  | zspill _ => exact runSlot_coh _ _ _ _ s h fun s h => markQ_coh _ _ (advQ_coh _ _ _ (spillGo_coh _ _ _ _ s h))
  | zfill _ => exact runSlot_coh _ _ _ _ s h fun s h => markQ_coh _ _ (advQ_coh _ _ _ (setFlags_coh _ _ (wrZ_coh _ _ s h)))
  | tqpush _ => exact runSlot_coh _ _ _ _ s h fun s h => modMe_coh s _ h
  | tqpop o => exact execTqpop_coh o h
  -- Commands given to the engines, tasks and groups.
  | cpy _ | cpyw _ | rkgath _ | rkseg _ | rill _ | send _ | recv _ => exact cmdOut_coh _ _ _ _ s h
  | cflAr _ | cflRs _ | cflAg _ | cflBc _ => exact cflOut_coh _ _ _ s h
  | pancfg o => exact execPancfg_coh o h
  | tick o => exact execTick_coh o h
  | foot _ => exact runSlot_coh _ _ _ _ s h fun s h => ite_coh h (modMe_coh s _ h)
  | jpoll _ => exact runSlot_coh _ _ _ _ s h fun s h => wrP_coh _ _ s h
  | spawn o => exact execSpawn_coh o h
  | join _ => exact runSlot_coh _ _ _ _ s h fun s h => launchPend_coh _ _ _ _ _ _ _ (openLane_coh _ _ _ _ _ _ _ (emptyS_coh _ s h))
  | leave _ => exact runSlot_coh _ _ _ _ s h fun s h => ite_coh (leaveGroup_coh _ s h) h
  | bar _ => exact runSlot_coh _ _ _ _ s h fun s h => modIss_coh _ _ (modMe_coh s _ h)
  -- Branches, loops, traps and the end of a task.
  | tree _ => exact runSlot_coh _ _ _ _ s h fun s h => ite_coh h (branchTo_coh _ s h)
  | loop _ | loopr _ => exact runSlot_coh _ _ _ _ s h (loopOpen_coh _ _)
  | call _ => exact runSlot_coh _ _ _ _ s h fun s h => branchTo_coh _ _ (wrB_coh _ _ s h)
  | ret _ => exact runSlot_coh _ _ _ _ s h (branchTo_coh _)
  | suspend o => exact execSuspend_coh o h
  | halt => exact runSlot_coh _ _ _ _ s h fun s h => modIss_coh s _ h
  | trap _ => exact runSlot_coh _ _ _ _ s h fun s h => trapCore_coh _ _ s h
  | rte => exact execRte_coh h
  -- Events of the cores, of memory and of the scheduler.
  | bundleIssue c => exact .mk (issueStep_coh c s h)
  | resultLands c n => exact .mk (landStep_coh c n s h)
  | deferredPageTrap c => exact .mk (deferredStep_coh c s h)
  | pageRequestPost v => exact .mk (postRequest_coh v s h)
  | rillColumnCommand c n => exact .mk (rillStep_coh c n s h)
  | samplePerformed c n => exact .mk (sampleStep_coh c n s h)
  | stackRefreshDue bank train => exact .mk (refreshDue_coh bank train s h)
  | weightDieRefresh => exact .mk (lit_coh h rfl rfl)
  | linkTimeout c => exact .mk (linkTimeoutStep_coh c s h)
  | taskPickup c => exact execTaskPickup_coh c h
  | heldSpawnEntry p => exact .mk (drainSpawns_coh p _ s h)
  | quantumExpiry p => exact .mk (quantumStep_coh p s h)
  -- Events of the engines and of the links.
  | rangeRetire c n => exact .mk (rangeRetire_coh c n s h)
  | engineCommandComplete c id => exact .mk (engineComplete_coh c id s h)
  | tickCloseArrival r ch => exact .mk (closeArrive_coh r ch s h)
  | cflHop c id k => exact execCflHop_coh c id k h
  | cflLateReplacement c id k => exact execCflLateReplacement_coh c id k h
  | recvEntryArrival peer flow k => exact .mk (recvArrive_coh peer flow k s h)
  | recvTimeout c id => exact execRecvTimeout_coh c id h
  | sendAckTimeout c id => exact .mk (sendTimeout_coh c id s h)
  | mirrorWriteArrival k => exact .mk (ite_coh h (mirrorArrive_coh k s h))
  | flowFlitArrival f seq k => exact .mk (flitArrive_coh f seq k s h)
  -- Commands of a VF's window.
  | launch _ _ | launchPreamble _ _ => exact .mk (launchStep_coh _ _ _ s h)
  | imageLoad v img => exact execImageLoad_coh v img h
  | attest v nonce a => exact execAttest_coh v nonce a h
  | hostSpawn _ _ | restore _ _ => exact .mk (packet_coh _ _ _ s h)
  | queueTeardown v q => exact execQueueTeardown_coh v q h
  | prqreply v x => exact execPrqreply_coh v x h
  | registerWrite w r x => exact execRegisterWrite_coh w r x h
  -- Commands of the management window.
  | pcreate p v mask key => exact execPcreate_coh p v mask key h
  | pdestroy p => exact execPdestroy_coh p h
  | s2root _ _ => exact ite_cohOut (.mk (nack_coh s h)) (.mk (ackOk_coh _ _ (modPt_coh s _ _ h)))
  | ctxallot _ _ => exact ite_cohOut (.mk (nack_coh s h)) (.mk (ackOk_coh _ _ (modPt_coh s _ _ h)))
  | portw _ _ => exact ite_cohOut (.mk (nack_coh s h)) (.mk (ackOk_coh _ _ (modCr_coh s _ _ h)))
  | inval _ _ _ _ => exact ite_cohOut (.mk (nack_coh s h)) (.mk (ackOk_coh _ _ (lit_coh h rfl rfl)))
  | invalComplete => exact execInvalComplete_coh h
  -- The Sluice.
  | deadline k => exact execDeadline_coh k h
  | sluiceEvaluation p => exact execSluiceEvaluation_coh p h
  | deadlineCut p => exact execDeadlineCut_coh p h
  | vacancy p => exact execVacancy_coh p h
  | sluiceRun _ | sluiceCheckpoint _ | sluiceDiscard _ => exact .mk (hostChoice_coh _ _ _ s h)
  | sluiceQuery x => exact execSluiceQuery_coh x h
  -- Faults, retirement and mirrors.
  | errorWindowExpiry kind unit => exact .mk (windowEnds_coh kind unit s h)
  | unitRetirement _ _ => exact ite_cohOut (.mk h) (.mk (retireUnit_coh _ _ s h))
  | retire kind unit => exact execRetire_coh kind unit h
  | record _ => exact ite_cohOut (.mk (nack_coh s h)) (.mk (ackOk_coh _ _ (countError_coh _ _ s h)))
  | mircfg p base len m dpa => exact execMircfg_coh p base len m dpa h
  | moduleLost _ => exact ite_cohOut (.mk h) (.mk (raise_coh s _ h))
  | promote p m => exact execPromote_coh p m h
  | fatalError _ => exact ite_cohOut (.mk h) (.mk (raise_coh _ _ (lit_coh (pubOther_coh s _ h) rfl rfl)))
  | dumpread _ => exact ite_cohOut (.mk (nack_coh s h)) (.mk (ackOk_coh s _ h))
  -- Reset, boot and power.
  | moduleReset => exact .mk (resetState_coh s h)
  | bootRomVerify => exact execBootRomVerify_coh h
  | firmwareInit => exact execFirmwareInit_coh h
  | fwload f => exact execFwload_coh f h
  | powerCap _ _ => exact ite_cohOut (.mk h) (.mk (lit_coh h rfl rfl))
  | thermtrip => exact ite_cohOut (.mk h) (.mk (raise_coh _ _ (lit_coh h rfl rfl)))
  -- REPEAT, the one constructor left: its name is a word of Lean.
  | _ => exact execRepeat_coh _ h

/-! Every step. -/

theorem commitStep_coh {s : State} (h : Coherent s) : CohOut (commitStep s) := by
  unfold commitStep
  dsimp only
  split <;> exact exec_coh _ (atSlot_coh _ s h)
theorem turnStep_coh (t : Turn) (rest : List Turn) {s : State} (h : Coherent s) : CohOut (turnStep t rest s) :=
  have ht := turnState_coh t rest s h
  ite_cohOut (.mk ht) (exec_coh _ ht)
/-- Of events that are due, only one happens. -/
theorem firstDue_coh {s : State} (h : Coherent s) (l : List Instr) : ∀ o ∈ firstDue s l, CohOut o := by
  induction l with
  | nil => exact fun _ ho => nomatch ho
  | cons i r ih =>
    have hi := exec_coh i h
    unfold firstDue
    generalize exec i s = x at hi
    cases hi with
    | mk ht =>
      dsimp only
      split
      · exact ih
      · rintro _ ⟨⟩
        exact .mk ht
theorem idleStep_coh {s : State} (h : Coherent s) : CohOut (idleStep s) := by
  have hs : Coherent { s with ch := Choice.reset } := lit_coh h rfl rfl
  have hdue := firstDue_coh hs (dueEvents { s with ch := Choice.reset })
  unfold idleStep
  dsimp only
  cases hf : firstDue { s with ch := Choice.reset } (dueEvents { s with ch := Choice.reset }) with
  | none => exact .mk (tick_coh _ hs)
  | some o => exact hdue o hf
theorem step_coh {s : State} (h : Coherent s) : CohOut (step s) := by
  refine ite_cohOut (commitStep_coh h) ?_
  split
  · exact turnStep_coh _ _ h
  · exact idleStep_coh h
theorem CohOut.coherent {s : State} (h : CohOut (.next s)) : Coherent s := by
  cases h with
  | mk hs => exact hs

end Sys2Proof.Machine
end

section
open Sys2Proof Sys2Proof.Machine

/-- Settles O58: the meaning of every instruction and event is made of operations that write memory by publications alone, or clears
it with them, and a step is such a meaning, the time before a turn, or a cycle that passes. -/
theorem memoryIsTheOrderOfPublications : Obligations.MemoryIsTheOrderOfPublications := by
  intro s t h hstep
  have hout := step_coh h
  rw [hstep] at hout
  exact hout.coherent

end

section
/-! PROOFS. What other modules send: bytes published and acknowledged, flits in the order of their flow, and closes that advance the
members of a region (R225, R227, R236, R237). -/
namespace Sys2Proof.Machine

/-! Forwarding sends packets after those already sent (R225, R227). -/

theorem forward_sends (a : Agent) (p : PartId) (ws : List (Nat × Byte)) (s : State) (w : Nat × Byte) :
    s.sent <+: (forward a p ws s w).1.sent := by
  unfold forward
  split
  · exact ⟨_, rfl⟩
  · split
    · exact ⟨[], List.append_nil _⟩
    · exact ⟨_, rfl⟩
theorem forwardGo_sends (a : Agent) (p : PartId) (ws rest : List (Nat × Byte)) (s : State) :
    s.sent <+: (forwardGo a p ws rest s).1.sent := by
  induction rest generalizing s with
  | nil => exact ⟨[], List.append_nil _⟩
  | cons w r ih => exact (forward_sends a p ws s w).trans (ih _)
theorem pubBy_sends (a : Agent) (s : State) (ws : List (Nat × Byte)) : s.sent <+: (pubBy a s ws).sent := by
  unfold pubBy forwardAll
  split
  · exact forwardGo_sends a 0 ws ws (addPub s a (BitVec.allOnes 64) 0 ws)
  · exact ⟨[], List.append_nil _⟩
/-- Bytes from beyond the module on columns that can all be corrected are one publication, and what it sends on follows what has been
sent (R218, R227, R329). -/
theorem farWrite_publishes {a : Agent} {lo : Nat} {data : List Byte} {s : State}
    (h : ∀ b, lo ≤ b → b < lo + data.length → b / 32 ∉ s.badG) :
    ∃ n k q more, farWrite a (placeL lo data) s = { s with
      pubs := s.pubs ++ [⟨a, BitVec.allOnes 64, agentMask a s.pubs 1, placeL lo data⟩], mem := s.mem.wrPairs (placeL lo data)
      badG := healG (placeL lo data) s.badG, nextId := n, ackWait := k, sent := s.sent ++ more, outSeq := q } := by
  have hclean : ∀ w ∈ placeL lo data, w.1 / 32 ∉ s.badG := fun w hw => by
    obtain ⟨hlo, hhi⟩ := placeL_range _ _ _ (Nat.le_refl _) w hw
    exact h w.1 hlo hhi
  obtain ⟨n, k, o, q, hpub⟩ := pubBy_eq a s (placeL lo data)
  have hsends := pubBy_sends a s (placeL lo data)
  rw [hpub] at hsends
  obtain ⟨more, hmore⟩ := hsends
  exact ⟨n, k, q, more, by rw [farWrite_clean hclean, hpub, hmore]⟩
/-- The buddy publishes a forwarded write at module scope and acknowledges it after what the publication sends (R227). -/
theorem mirrorArrive_publishes (m : BitVec 16) {dpa : BitVec 46} {data : List Byte} {s : State}
    (h : ∀ b, dpa.toNat ≤ b → b < dpa.toNat + data.length → b / 32 ∉ s.badG) :
    ∃ c n k q more, mirrorArrive (.write m dpa data) s = { s with
      copies := c, pubs := s.pubs ++ [⟨.host 0, BitVec.allOnes 64, agentMask (.host 0) s.pubs 1, placeL dpa.toNat data⟩]
      mem := s.mem.wrPairs (placeL dpa.toNat data), badG := healG (placeL dpa.toNat data) s.badG, nextId := n, ackWait := k
      sent := s.sent ++ more ++ [.ackMirror m (.write m dpa data)], outSeq := q } := by
  obtain ⟨c, hnote⟩ := noteCopy_law m dpa.toNat data.length s
  obtain ⟨n, k, q, more, hwrite⟩ := farWrite_publishes (a := .host 0) (s := { s with copies := c }) h
  refine ⟨c, n, k, q, more, ?_⟩
  unfold mirrorArrive
  dsimp only
  rw [hnote, hwrite]

theorem execMirrorWriteArrival_on (k : MirMsg) {s : State} (hf : s.fatal = false) (hd : s.dead = false) :
    exec (.mirrorWriteArrival k) s = .next (mirrorArrive k s) :=
  congrArg Host.Outcome.next (if_neg (by simp [hf, hd]))

/-! Flits of a flow (R225). -/

section
variable {f : FlowId} {seq : BitVec 16} {dpa : BitVec 46} {data : List Byte} {s : State}

/-- The flow that holds one early flit and awaits another holds it still. -/
theorem flitDrain_early {e : BitVec 16 × FlitBody} {next : BitVec 16} (n : Nat) (h : e.1 ≠ next) :
    flitDrain f n (setFlow ⟨f, next, [e]⟩ s) = setFlow ⟨f, next, [e]⟩ s := by
  cases n with
  | zero => rfl
  | succ n => simp [flitDrain, flowOf_setFlow, h]
/-- A flow that holds only the flit that is next does what that flit asks. -/
theorem flitDrain_next (b : FlitBody) (next : BitVec 16) :
    flitDrain f 1 (setFlow ⟨f, next, [(next, b)]⟩ s) =
      flitDo f (setFlow ⟨f, next + 1, []⟩ (setFlow ⟨f, next, [(next, b)]⟩ s)) (next, b) := by
  simp [flitDrain, flowOf_setFlow]
/-- A flit within the window joins the flits that its flow holds, and those that have become due are applied. -/
theorem flitArrive_joins {b : FlitBody} (hf : s.fatal = false) (hd : s.dead = false) (hlane : ∀ a ∈ flitAddr b, laneHash a = f.lane)
    (hearly : (flowOf s f).early = []) (hwin : (seq - (flowOf s f).next).toNat < 0x8000) :
    flitArrive f seq b s = flitDrain f 1 (setFlow ⟨f, (flowOf s f).next, [(seq, b)]⟩ s) := by
  have hmine : (flitAddr b).any (fun a => laneHash a != f.lane) = false := by
    cases ha : flitAddr b with
    | none => rfl
    | some a => simp [hlane a ha]
  have hlow : ¬ 0x8000 ≤ (seq - (flowOf s f).next).toNat := Nat.not_le.2 hwin
  simp [flitArrive, hf, hd, hmine, hearly, hlow, flowOf_id, -BitVec.toNat_sub]
theorem flitAddr_write_lane (hlane : laneHash dpa.toNat = f.lane) : ∀ a ∈ flitAddr (.write dpa data), laneHash a = f.lane := by
  rintro _ ⟨⟩
  exact hlane
/-- A write in its turn is published for the node that sent it, and acknowledged after what the publication sends. -/
theorem flitDo_publishes (h : ∀ b, dpa.toNat ≤ b → b < dpa.toNat + data.length → dpaOk s b = true ∧ regionAt s b = none ∧ b / 32 ∉ s.badG) :
    ∃ n k q more, flitDo f s (seq, .write dpa data) = { s with
      pubs := s.pubs ++ [⟨.host (1 + f.src), BitVec.allOnes 64, agentMask (.host (1 + f.src)) s.pubs 1, placeL dpa.toNat data⟩]
      mem := s.mem.wrPairs (placeL dpa.toNat data), badG := healG (placeL dpa.toNat data) s.badG, nextId := n, ackWait := k
      sent := s.sent ++ more ++ [.ackWrite f seq], outSeq := q } := by
  have hfits : farFits s dpa.toNat data.length = true := by
    refine List.all_eq_true.2 fun b hb => ?_
    obtain ⟨hlo, hhi⟩ := (span_mem b _ _).1 hb
    obtain ⟨hok, hreg, -⟩ := h b hlo hhi
    rw [hok, hreg]; rfl
  obtain ⟨n, k, q, more, hwrite⟩ := farWrite_publishes (a := .host (1 + f.src)) fun b hlo hhi => (h b hlo hhi).2.2
  refine ⟨n, k, q, more, ?_⟩
  unfold flitDo
  dsimp only
  rw [if_pos hfits, hwrite]
/-- The write that is next in its flow is applied, and the flow awaits the one after it. -/
theorem flitArrive_applies (hf : s.fatal = false) (hd : s.dead = false) (hlane : laneHash dpa.toNat = f.lane)
    (hearly : (flowOf s f).early = [])
    (h : ∀ b, dpa.toNat ≤ b → b < dpa.toNat + data.length → dpaOk s b = true ∧ regionAt s b = none ∧ b / 32 ∉ s.badG) :
    ∃ t more, exec (.flowFlitArrival f (flowOf s f).next (.write dpa data)) s = .next t ∧
      t.mem = s.mem.wrPairs (placeL dpa.toNat data) ∧ (flowOf t f).next = (flowOf s f).next + 1 ∧ (flowOf t f).early = [] ∧
      t.sent = s.sent ++ more ++ [.ackWrite f (flowOf s f).next] ∧
      (∃ d, t.pubs = s.pubs ++ [⟨.host (1 + f.src), d, agentMask (.host (1 + f.src)) s.pubs 1, placeL dpa.toNat data⟩]) ∧
      t = { s with flows := t.flows, badG := t.badG, mem := t.mem, pubs := t.pubs, sent := t.sent, nextId := t.nextId
                   ackWait := t.ackWait, outSeq := t.outSeq } := by
  have harrive := flitArrive_joins hf hd (flitAddr_write_lane (data := data) hlane) hearly (seq := (flowOf s f).next) (by simp)
  rw [flitDrain_next] at harrive
  obtain ⟨n, k, q, more, hdo⟩ := flitDo_publishes (f := f) (seq := (flowOf s f).next)
    (s := setFlow ⟨f, (flowOf s f).next + 1, []⟩ (setFlow ⟨f, (flowOf s f).next, [((flowOf s f).next, .write dpa data)]⟩ s)) h
  rw [hdo] at harrive
  have hflow : ∀ u : State, flowOf (setFlow ⟨f, (flowOf s f).next + 1, []⟩ u) f = ⟨f, (flowOf s f).next + 1, []⟩ :=
    fun _ => flowOf_setFlow rfl
  exact ⟨_, more, congrArg Host.Outcome.next harrive, rfl, congrArg Flow.next (hflow _), congrArg Flow.early (hflow _), rfl,
    ⟨_, rfl⟩, rfl⟩
/-- A write that comes early is held. -/
theorem flitArrive_holds (hf : s.fatal = false) (hd : s.dead = false) (hlane : laneHash dpa.toNat = f.lane)
    (hseq : seq ≠ (flowOf s f).next) (hwin : (seq - (flowOf s f).next).toNat < 0x8000) (hearly : (flowOf s f).early = []) :
    ∃ t, exec (.flowFlitArrival f seq (.write dpa data)) s = .next t ∧ t = { s with flows := t.flows } ∧
      flowOf t f = ⟨f, (flowOf s f).next, [(seq, .write dpa data)]⟩ := by
  have harrive := flitArrive_joins hf hd (flitAddr_write_lane (data := data) hlane) hearly hwin
  rw [flitDrain_early 1 hseq] at harrive
  exact ⟨_, congrArg Host.Outcome.next harrive, rfl, flowOf_setFlow rfl⟩
/-- A flit that its flow has applied, by a number in the half of the window behind the next one, is discarded. -/
theorem flitArrive_applied (b : FlitBody) (h : 0x8000 ≤ (seq - (flowOf s f).next).toNat) : exec (.flowFlitArrival f seq b) s = .next s :=
  congrArg Host.Outcome.next (if_pos (by simp [h, -BitVec.toNat_sub]))
/-- A write whose lane is not its address's is discarded. -/
theorem flitArrive_strays (h : laneHash dpa.toNat ≠ f.lane) : exec (.flowFlitArrival f seq (.write dpa data)) s = .next s :=
  congrArg Host.Outcome.next (if_pos (by simp [flitAddr, h]))

end

/-! Closes of a region (R236, R237). -/

theorem mem_membsOn {r : Region} {ch m : Nat} : m ∈ membsOn r ch ↔ m < r.membs.length ∧ chanOf r m = ch := by
  simp [membsOn, mem_upto]
/-- A region of as many members at the same places lies on the same channels. -/
theorem chansOf_membs {r : Region} {l : List Memb} {p : List Nat} (h : l.length = r.membs.length) :
    chansOf { r with membs := l, passed := p } = chansOf r := by
  show ((upto l.length).map (chanOf r)).eraseDups = chansOf r
  rw [h]; rfl
/-- A close at a channel of a region that no buddy mirrors: each member there meets it, the others stay, and the region notes the
channel before it sees whether that was the last. -/
theorem closeArrive_reaches {s : State} {r : Region} {ch : Nat} (hf : s.fatal = false) (hd : s.dead = false) (hr : regionOf s r.id = some r)
    (hmir : r.mirror = false) (hticks : r.ticks ≠ []) (hnew : ch ∉ r.passed) (hch : ch ∈ chansOf r)
    (hclean : ∀ m, m < r.membs.length → membBadAt s r m = none) :
    ∃ v l, closeArrive r.id ch s = closeAll r.id v ∧ v = { s with regions := v.regions, badG := v.badG, mem := v.mem, pubs := v.pubs } ∧
      regionOf v r.id = some { r with membs := l, passed := r.passed ++ [ch] } ∧ l.length = r.membs.length ∧
      ∀ m, m < r.membs.length → l.getD m ⟨[], 0, 0, 0, false⟩ =
        if chanOf r m = ch then memberAfterClose r (r.n + 1) m else membOf r m := by
  have hlt : ∀ m ∈ membsOn r ch, m < r.membs.length := fun m hm => (mem_membsOn.1 hm).1
  obtain ⟨l, ⟨honly, -⟩, hreg, hlen, hmembs⟩ :=
    closes_law r.id (r.n + 1) (membsOn r ch) s r ((upto_nodup _).filter _) hr (fun m hm => hclean m (hlt m hm)) hlt
  have hpass := regionOf_mod ((membsOn r ch).foldl (closeMemb r.id (r.n + 1)) s) r.id
    (fun r => { r with passed := r.passed ++ [ch] }) (fun _ => rfl)
  rw [hreg, Option.map_some] at hpass
  refine ⟨_, l, ?_, ?_, hpass, hlen, fun m hm => ?_⟩
  · simp [closeArrive, hr, hmir, hticks, hnew, hch, hf, hd]
  · unfold modRegion
    rw [honly]
  · rw [hmembs]
    exact if_congr (by simp [mem_membsOn, hm]) rfl rfl
/-- While a channel still awaits the close, nothing more happens. -/
theorem closeAll_waits {s : State} {id o : Nat} {y : Region} (hy : regionOf s id = some y) (ho : o ∈ chansOf y) (hopen : o ∉ y.passed) :
    closeAll id s = s := by
  have hwait : (chansOf y).all (fun c => y.passed.contains c) = false := List.all_eq_false.2 ⟨o, ho, by simp [hopen]⟩
  unfold closeAll
  rw [hy]
  dsimp only
  rw [hwait]; rfl
/-- A region whose channels have all been passed is at its next intake. -/
def nextIntake (r : Region) : Region := { r with n := r.n + 1, passed := [], ticks := r.ticks.tail }
/-- With the last channel the intake ends, and the TICK that ran completes. -/
theorem closeAll_completes {s : State} {id : Nat} {y : Region} {k : CoreId × Nat} {ks : List (CoreId × Nat)} (hy : regionOf s id = some y)
    (hall : ∀ o ∈ chansOf y, o ∈ y.passed) (hmir : y.mirror = false) (hticks : y.ticks = k :: ks) :
    closeAll id s = endCmd k.2 none (modRegion id nextIntake s) := by
  have hdone : (chansOf y).all (fun c => y.passed.contains c) = true := List.all_eq_true.2 fun o ho => by simp [hall o ho]
  unfold closeAll
  rw [hy]
  dsimp only
  rw [hdone, hmir, hticks]
  rfl

end Sys2Proof.Machine
end

section
open Sys2Proof Sys2Proof.Machine

/-- Settles O50: a write from beyond is one publication with what it sends on, a flow that holds no early flit applies or holds the one
that comes, and a close is met member by member before the region sees whether it has passed every channel. -/
theorem linkArrivalsAndCloses : Obligations.LinkArrivalsAndCloses := by
  intro s hf hd
  refine ⟨fun m dpa data h => ?_, fun f seq dpa data => ?_, fun f seq dpa data hlane => flitArrive_strays hlane,
    fun r ch hr hmir hticks hnew hch hclean => ?_⟩
  · obtain ⟨c, n, k, q, more, harrive⟩ := mirrorArrive_publishes m h
    exact ⟨_, more, (execMirrorWriteArrival_on _ hf hd).trans (congrArg Host.Outcome.next harrive), rfl, ⟨_, rfl⟩, rfl, rfl⟩
  · intro x hlane
    refine ⟨fun hseq hearly h => ?_, fun hseq hwin hearly => flitArrive_holds hf hd hlane hseq hwin hearly, flitArrive_applied _⟩
    subst hseq
    exact flitArrive_applies hf hd hlane hearly h
  · obtain ⟨v, l, hstep, honly, hreg, hlen, hmembs⟩ := closeArrive_reaches hf hd hr hmir hticks hnew hch hclean
    have hchans : chansOf { r with membs := l, passed := r.passed ++ [ch] } = chansOf r := chansOf_membs hlen
    refine ⟨fun o ho hoch hopen => ?_, fun k ks hk hlast => ?_⟩
    · rw [closeAll_waits hreg (hchans ▸ ho) (by simp [hopen, hoch])] at hstep
      exact ⟨v, _, congrArg Host.Outcome.next hstep, hreg, rfl, rfl, hlen, hmembs, honly⟩
    · have hall : ∀ o ∈ chansOf r, o ∈ r.passed ++ [ch] := fun o ho => by
        by_cases ho' : o = ch
        · simp [ho']
        · simp [hlast o ho ho']
      rw [closeAll_completes hreg (hchans ▸ hall) hmir hk] at hstep
      refine ⟨modRegion r.id nextIntake v, _, congrArg Host.Outcome.next hstep,
        (regionOf_mod v r.id nextIntake (fun _ => rfl)).trans (congrArg (Option.map nextIntake) hreg), rfl, rfl, congrArg List.tail hk, ?_⟩
      unfold modRegion
      rw [honly]

end

section
/-! PROOFS. Samples and tap reads of pan regions, and pan instructions outside every region (R236, R238 to R245, R355). -/
namespace Sys2Proof.Machine

section
variable {s : State} {i : Instr} {k : PanOp} {base : BitVec 6} {n : Nat} (o : BitVec n)

/-! A base that lies in a region (R239). -/

section
variable {r : Region} {off : Nat} (hi : Ready i s) (hfind : panFind s k.sample (srcS s base).toNat = .at_ r off)

section
include hfind
theorem panSrc_found : panSrc s base k = if k.sample && panPair (panDesc r.desc) k then [(.v (vNext k.v), k.wv)] else [] := by
  simp only [panSrc, panAt, hfind]
/-- The pair register, where the region makes it a source, is all that a PSMP reads beyond its instruction's own sources (R355). -/
theorem panSrc_full (hpair : panPair (panDesc r.desc) k = true → (rdV s.iss.regs (vNext k.v)).full = true) :
    (panSrc s base k).any (fun x => emptyReg s.iss.regs x.1) = false := by
  rw [panSrc_found hfind]
  split
  next h =>
    obtain ⟨-, hp⟩ := Bool.and_eq_true_iff.1 h
    simp [emptyReg, hpair hp]
  next => rfl
end

variable (hfault : panFault s k base o = none) (hstall : panStall s k base = false)
include hi hfind hfault hstall
/-- A PSMP whose registers are full and that has no fault commits with its sample posted (R238). -/
theorem panPost_commits {extra : List (RegId × Bool)} (hfull : extra.any (fun x => emptyReg s.iss.regs x.1) = false)
    (data : PanD → BitVec 4096) :
    ∃ t ls, runWith i extra (panFault s k base o) (panStall s k base) (panPost k base o data) s = .next t ∧
      OnlyCoreAndWalks s t ∧ SlotDone s t ∧
      me t = { me s with
        posts := (me s).posts ++
          [⟨(me s).seq, .psmp k.vec r.id (panIndex (panDesc r.desc) off o).toNat (data (panDesc r.desc)), ls⟩]
        seq := (me s).seq + 1 } ∧
      List.Forall₂ IsLane ls ((panLanes (panDesc r.desc) k (srcS s base).toNat off
        (panIndex (panDesc r.desc) off o).toNat).map (fun x => (x.1, gAddr x.2.1, x.2.2))) := by
  obtain ⟨t, ls, rfl, hposted⟩ := panPost_law s (ready_iss hi) k base o data r off hfind
  rw [hfault, hstall]
  exact ⟨_, ls, runWith_go hi extra hfull _, hposted⟩
/-- A tap read that has no fault commits in flight (R243). -/
theorem panTap_commits (kind : Nat) (tap : BitVec 2) (dst : PanD → List RegId) (tag : PanD → Tag) :
    Taps s (runWith i [] (panFault s k base o) (panStall s k base) (panTap k base o kind tap dst tag) s)
      (.tap kind tap k.vec r.id (panIndex (panDesc r.desc) off o).toNat) (dst (panDesc r.desc)) (tag (panDesc r.desc))
      (panLanes (panDesc r.desc) k (srcS s base).toNat off (panIndex (panDesc r.desc) off o).toNat) := by
  rw [hfault, hstall, runWith_go hi [] rfl]
  exact panTap_law s (ready_iss hi) k base o kind tap dst tag r off hfind
end

/-! A base outside every region (R239). -/

section
variable (hfind : panFind s k.sample (srcS s base).toNat = .none)
include hfind
theorem panFault_outside : panFault s k base o = some (gFault s cAccess (srcS s base).toNat none) := by
  simp only [panFault, hfind]
theorem panSrc_outside : panSrc s base k = [] := by
  simp only [panSrc, panAt, hfind]
/-- A ready slot whose fault is that of a pan instruction outside every region traps ACCESS. -/
theorem pan_traps (hi : Ready i s) (stall : Bool) (eff : State → State) :
    runWith i [] (panFault s k base o) stall eff s = .next (takeTrap (gFault s cAccess (srcS s base).toNat none) s) := by
  rw [panFault_outside o hfind]
  exact runSlot_trap hi _ _ _
end

end

end Sys2Proof.Machine
end

section
open Sys2Proof Sys2Proof.Machine

/-- Settles O21, form by form: a PSMP by the one law of posted samples, with its pair register as a further source, and a tap by the
one law of reads in flight. -/
theorem samplesAndTaps : Obligations.SamplesAndTaps := by
  refine ⟨fun s r off => ⟨fun o hi hfind hfault hstall => ?_, fun o hi hfind hpair hfault hstall => ?_⟩,
    fun s r off => ⟨fun o hi hfind hfault hstall => ?_, fun o hi hfind hfault hstall => ?_, fun o hi hfind hfault hstall => ?_,
      fun o hi hfind hfault hstall => ?_, fun o hi hfind hfault hstall => ?_⟩⟩
  · exact panPost_commits (k := psmpS o) o.off hi hfind hfault hstall rfl _
  · exact panPost_commits (k := psmpV o) o.off hi hfind hfault hstall (panSrc_full (k := psmpV o) hfind hpair) _
  · exact panTap_commits (k := ptapS o) o.off hi hfind hfault hstall 0 o.tap _ _
  · exact panTap_commits (k := ptapV o) o.off hi hfind hfault hstall 0 o.tap _ _
  · exact panTap_commits (k := ptapsOp o) o.off hi hfind hfault hstall 1 0 _ _
  · exact panTap_commits (k := rtapS o) o.off hi hfind hfault hstall 2 0 _ _
  · exact panTap_commits (k := rtapV o) o.off hi hfind hfault hstall 2 0 _ _

/-- Settles O22, form by form: outside every region the first fault of a pan instruction is ACCESS, and a PSMP has no pair register
to read. -/
theorem pansOutsideRegionsTrap : Obligations.PansOutsideRegionsTrap := by
  rintro s i base hi (⟨hfind, o, rfl, rfl | rfl⟩ |
    ⟨hfind, ⟨o, rfl, rfl | rfl⟩ | ⟨o, rfl, rfl⟩ | ⟨o, rfl, rfl | rfl⟩⟩)
  · exact pan_traps (k := psmpS o) o.off hfind hi _ _
  · rw [exec_psmpVector, execPsmpVector, panSrc_outside (k := psmpV o) hfind]
    exact pan_traps (k := psmpV o) o.off hfind hi _ _
  · exact pan_traps (k := ptapS o) o.off hfind hi _ _
  · exact pan_traps (k := ptapV o) o.off hfind hi _ _
  · exact pan_traps (k := ptapsOp o) o.off hfind hi _ _
  · exact pan_traps (k := rtapS o) o.off hfind hi _ _
  · exact pan_traps (k := rtapV o) o.off hfind hi _ _

end

section
/-! PROOFS. TRAP enters the handler (R314 to R318, R323). -/
namespace Sys2Proof.Machine

/-- What a TRAP enters its handler with. -/
def syscallTrap (s : State) (o : TrapF) : HeldTrap := ⟨⟨cSyscall, 15, none, o.code, none, none⟩, s.iss.unit, 0, 0, []⟩
theorem execTrap_enters {s : State} {o : TrapF} (h : Ready (.trap o) s) (hh : (me s).h = false) (he : (me s).trapEntry.isSome = true)
    (hr : trapReady (me s) = true) :
    exec (.trap o) s = .next (trapCore s.iss.core (syscallTrap s o) s) := by
  obtain ⟨-, hframe, -⟩ := trap_enters s (syscallTrap s o) h.1 hh he hr
  have hidle : (trapCore s.iss.core (syscallTrap s o) s).iss.act = false := by
    rw [hframe]; rfl
  exact (runSlot_go h _).trans (congrArg _ (nextSlot_idle hidle))

end Sys2Proof.Machine
end

section
open Sys2Proof Sys2Proof.Machine

/-- Settles O10, by the law of a trap's entry for the handler's state and its frame. -/
theorem trapEntersTheHandlerWithItsCode : Obligations.TrapEntersTheHandlerWithItsCode := by
  intro s o h hh he hr
  obtain ⟨hentered, hframe⟩ := trap_enters s (syscallTrap s o) (ready_iss h) hh he hr
  refine ⟨_, execTrap_enters h hh he hr, hentered, hframe, ?_⟩
  obtain ⟨-, -, -, -, -, -, -, -, -, -, -, haddr, hdata, -⟩ := hentered
  have hcode := o.code.isLt
  exact ⟨hdata.trans (by simp only [frameOf, syscallTrap]; omega), haddr⟩

end

section
/-! PROOFS. Register writes and their refusals (R358). -/
namespace Sys2Proof.Machine

/-- A value that meets the complement of a mask in no bit sets no bit outside the mask. -/
theorem within_of {x y : W64} {m : Nat} (hy : ~~~(w64 m) = y) (hx : x &&& y = 0) : within x m = true := by
  rw [within, hy, beq_iff_eq, hx]
/-- A value beyond either bound of a register's range is not in it. -/
theorem inRange_false {n lo hi : Nat} (h : n < lo ∨ hi < n) : (decide (lo ≤ n) && decide (n ≤ hi)) = false := by
  rw [← Bool.decide_and, decide_eq_false_iff_not]
  omega
theorem regIf_taken {ok : Bool} (h : ok = true) (f : State → State) (s : State) : regIf ok f s = ackOk (f s) 0 := if_pos h
theorem regIf_refused {ok : Bool} (h : ok = false) (f : State → State) (s : State) : regIf ok f s = nack s := if_neg (by simp [h])

section
variable {s : State} {v : VfId} {p : PartId} {w : Writer} {r : WinReg} {x : W64} {f : Vf → Vf} {ok : Bool}
  (hw : winOpen s = true) (hb : (vf s v).bound = some p) (hr : windowOf r = some v) (hwrite : writeVf w v p r x s = regIf ok (fun s => modVf s v f) s)
include hw hb hr hwrite
/-- A register of a VF's window takes a value that its condition allows. -/
theorem vfRegister_taken {k : Vf} (hk : f (vf s v) = k) (hok : ok = true) :
    exec (.registerWrite w r x) s = .next { s with vfs := s.vfs.set v k, ack := ⟨true, 0⟩ } := by
  rw [exec_registerWrite, registerWrite_vf w r x s v p hw hr hb, hwrite, regIf_taken hok, ← hk]
  rfl
/-- A register of a VF's window refuses a value that its condition does not allow. -/
theorem vfRegister_refused (hok : ok = false) : exec (.registerWrite w r x) s = .next { s with ack := ⟨false, 0⟩ } := by
  rw [exec_registerWrite, registerWrite_vf w r x s v p hw hr hb, hwrite, regIf_refused hok]
  rfl
end

theorem anyRuns_false {s : State} (h : ∀ p, (pt s p).exist = true → (pt s p).running = false) : anyRuns s = false := by
  rw [anyRuns, List.any_eq_false]
  intro p _ hp
  rw [Bool.and_eq_true] at hp
  simp [h p hp.1] at hp
theorem anyRuns_true {s : State} {p : PartId} (he : (pt s p).exist = true) (hr : (pt s p).running = true) : anyRuns s = true := by
  rw [anyRuns, List.any_eq_true]
  exact ⟨p, List.mem_finRange p, by rw [he, hr]; rfl⟩

/-- A window whose VF serves no partition refuses every write. -/
theorem registerWrite_unbound {s : State} {v : VfId} {w : Writer} {r : WinReg} {x : W64} (hr : windowOf r = some v) (hb : (vf s v).bound = none) :
    execRegisterWrite w r x s = .next (nack s) := by
  have hp : winPart s v = none := by rw [winPart, hb, ite_self]
  unfold execRegisterWrite
  rw [hr]
  dsimp only
  rw [hp, ite_self]
/-- A register of the management window is the hypervisor's. -/
theorem registerWrite_notHypervisor {s : State} {w : Writer} {r : WinReg} {x : W64} (hr : windowOf r = none) (hw : w ≠ .hypervisor) :
    execRegisterWrite w r x s = .next (nack s) := by
  unfold execRegisterWrite
  rw [hr]
  dsimp only
  rw [if_neg hw, ite_self]

end Sys2Proof.Machine
end

section
open Sys2Proof Sys2Proof.Machine

/-- Settles O40, register by register: each write is one of `regIf`, taken or refused by its own condition. -/
theorem registerWritesAndRefusals : Obligations.RegisterWritesAndRefusals := by
  intro s hw
  refine ⟨fun v p x hb => ?_, fun v w r x hr hb => registerWrite_unbound hr hb, fun w r x hr hne => registerWrite_notHypervisor hr hne,
    fun v x hx => ?_, fun x hx hstill => ?_, fun x p he hrun => ?_⟩
  · dsimp only
    refine ⟨fun hrun hx => vfRegister_taken hw hb rfl rfl rfl ?_, fun hrun => vfRegister_refused hw hb rfl rfl ?_, vfRegister_refused hw hb rfl rfl rfl,
      fun hrun hx => vfRegister_taken hw hb rfl rfl rfl ?_, vfRegister_refused hw hb rfl rfl rfl,
      fun hlo hhi => vfRegister_taken hw hb rfl rfl rfl ?_, fun hout => vfRegister_refused hw hb rfl rfl ?_,
      fun hlo hhi => vfRegister_taken hw hb rfl rfl rfl ?_, fun hout => vfRegister_refused hw hb rfl rfl ?_,
      fun n => vfRegister_taken hw hb rfl rfl rfl rfl, fun hx => vfRegister_taken hw hb rfl rfl rfl ?_, fun hx => vfRegister_taken hw hb rfl rfl rfl ?_,
      fun hx => vfRegister_taken hw hb rfl rfl rfl ?_⟩
    · show (!(pt s p).running && within x (2 ^ 52 - 64)) = true
      rw [hrun, within_of (by decide) hx]; rfl
    · show (!(pt s p).running && within x (2 ^ 52 - 64)) = false
      rw [hrun]; rfl
    · show (!(pt s p).running && within x (2 ^ 52 - 2 ^ 16 + 1)) = true
      rw [hrun, within_of (by decide) hx]; rfl
    · exact Bool.and_eq_true_iff.2 ⟨decide_eq_true hlo, decide_eq_true hhi⟩
    · exact inRange_false hout
    · exact Bool.and_eq_true_iff.2 ⟨decide_eq_true hlo, decide_eq_true hhi⟩
    · exact inRange_false hout
    · exact within_of (m := mVO) (by decide) hx
    · exact within_of (m := mVO) (by decide) hx
    · exact within_of (m := mVO) (by decide) hx
  · rw [exec_registerWrite, registerWrite_mgmt _ x s hw rfl, writeMgmt, regIf_taken (within_of (by decide) hx)]
    rfl
  · rw [exec_registerWrite, registerWrite_mgmt _ x s hw rfl, writeMgmt,
      regIf_taken (by rw [within_of (by decide) hx, anyRuns_false hstill]; rfl)]
    rfl
  · rw [exec_registerWrite, registerWrite_mgmt _ x s hw rfl, writeMgmt, regIf_refused (by rw [anyRuns_true he hrun, Bool.not_true, Bool.and_false])]
    rfl

end

section
/-! PROOFS. Partition commands of the management window, and invalidation (R284, R285, R288, R291, R292, R296, R298). -/
namespace Sys2Proof.Machine

theorem pt_of_parts {s t : State} (h : t.parts = s.parts) (p : PartId) : pt t p = pt s p := by unfold pt; rw [h]
theorem vf_of_vfs {s t : State} (h : t.vfs = s.vfs) (v : VfId) : vf t v = vf s v := by unfold vf; rw [h]

/-! Partitions made and destroyed (R285). -/

/-- The partition that PCREATE makes. -/
def createdPart (v : VfId) (mask : W64) (key : BitVec 256) : Part := { Part.reset with exist := true, vf := v, mask := mask, keydig := key }
/-- The state in which PCREATE has made the partition and bound the VF, before the ports. -/
def createdIn (p : PartId) (v : VfId) (mask : W64) (key : BitVec 256) (s : State) : State :=
  modVf (setPt s p (createdPart v mask key)) v (fun k => { k with bound := some p })
theorem execPcreate_free {s : State} {p : PartId} {v : VfId} {mask : W64} {key : BitVec 256} (hw : winOpen s = true) (he : (pt s p).exist = false)
    (hb : (vf s v).bound = none) (hm : mask ≠ 0) (hc : ∀ c, inMask mask c = true → (cr s c).retired = false ∧ partOf s c = none) :
    execPcreate p v mask key s = .next (ackOk ((coresOf (createdIn p v mask key s) p).foldl (fun s c => modCr s c (fun k => { k with portw := 1 }))
      (createdIn p v mask key s)) 0) := by
  have hbusy : coreIds.any (fun c => inMask mask c && ((cr s c).retired || (partOf s c).isSome)) = false := by
    rw [List.any_eq_false]
    intro c _
    cases hin : inMask mask c with
    | false => simp
    | true => simp [(hc c hin).1, (hc c hin).2]
  have hm' : ¬ mask = 0#64 := hm
  exact if_neg (by simp [hw, he, hb, hm', hbusy])
/-- PCREATE gives the partition its VF and its cores, whose ports have weight 1, and nothing else changes. -/
theorem pcreate_gives {s : State} {p : PartId} {v : VfId} {mask : W64} {key : BitVec 256} (hw : winOpen s = true) (he : (pt s p).exist = false)
    (hb : (vf s v).bound = none) (hm : mask ≠ 0) (hc : ∀ c, inMask mask c = true → (cr s c).retired = false ∧ partOf s c = none) :
    ∃ t, exec (.pcreate p v mask key) s = .next t ∧ t.ack = ⟨true, 0⟩ ∧
      pt t p = { Part.reset with exist := true, vf := v, mask := mask, keydig := key } ∧
      vf t v = { vf s v with bound := some p } ∧
      (∀ c, cr t c = if inMask mask c then { cr s c with portw := 1 } else cr s c) ∧
      (∀ x, x ≠ p → pt t x = pt s x) ∧ (∀ x, x ≠ v → vf t x = vf s x) ∧
      t = { s with cores := t.cores, parts := t.parts, vfs := t.vfs, ack := t.ack } := by
  obtain ⟨hframe, hcr⟩ := fold_cores (fun _ k => { k with portw := 1 }) (coresOf (createdIn p v mask key s) p) (createdIn p v mask key s)
    (coresOf_nodup _ p)
  have hexec := execPcreate_free (key := key) hw he hb hm hc
  have hpt : ∀ x, pt (createdIn p v mask key s) x = if x = p then createdPart v mask key else pt s x := pt_set s p _
  have hvf : ∀ x, vf (createdIn p v mask key s) x = if x = v then { vf s v with bound := some p } else vf s x := vf_set _ v _
  generalize (coresOf (createdIn p v mask key s) p).foldl (fun s c => modCr s c (fun k => { k with portw := 1 })) (createdIn p v mask key s) = t
    at hframe hcr hexec
  have hptt : ∀ x, pt t x = pt (createdIn p v mask key s) x := pt_of_parts ((congrArg State.parts hframe).trans rfl)
  have hvft : ∀ x, vf t x = vf (createdIn p v mask key s) x := vf_of_vfs ((congrArg State.vfs hframe).trans rfl)
  refine ⟨ackOk t 0, hexec, rfl, (hptt p).trans ((hpt p).trans (if_pos rfl)), (hvft v).trans ((hvf v).trans (if_pos rfl)), fun c => ?_,
    fun x hx => (hptt x).trans ((hpt x).trans (if_neg hx)), fun x hx => (hvft x).trans ((hvf x).trans (if_neg hx)), ?_⟩
  · have hin : c ∈ coresOf (createdIn p v mask key s) p ↔ inMask mask c = true := by
      rw [mem_coresOf, hpt, if_pos rfl]; rfl
    refine (hcr c).trans ?_
    simp only [hin]
    rfl
  · rw [hframe]; rfl

/-- A core of which a scrub leaves what outlives a tenant (R285, R311). -/
def scrubbed (keepW : Bool) (k : Core) : Core :=
  { Core.reset with
    retired := k.retired, wslice := if keepW then k.wslice else [], badW := if keepW then k.badW else [], rank := k.rank
    portw := if keepW || k.retired then k.portw else 1 }
/-- The partition's cores scrubbed. -/
def scrubAll (p : PartId) (keepW : Bool) (s : State) : State := (coresOf s p).foldl (fun s c => scrubCore c keepW s) s
theorem scrubAll_cores (p : PartId) (keepW : Bool) (s : State) : scrubAll p keepW s = { s with cores := (scrubAll p keepW s).cores } :=
  (fold_cores (fun _ => scrubbed keepW) (coresOf s p) s (coresOf_nodup s p)).1
theorem cr_scrubAll (p : PartId) (keepW : Bool) (s : State) (c : CoreId) :
    cr (scrubAll p keepW s) c = if inMask (pt s p).mask c = true then scrubbed keepW (cr s c) else cr s c := by
  simp only [← mem_coresOf s p c]
  exact (fold_cores (fun _ => scrubbed keepW) (coresOf s p) s (coresOf_nodup s p)).2 c

/-- What PDESTROY leaves before the retirements that were due take effect. -/
def destroyedIn (p : PartId) (s : State) : State :=
  let t := scrubAll p false s
  let u := setVf t (pt s p).vf { Vf.reset with nextTag := (vf t (pt s p).vf).nextTag }
  { setPt u p Part.reset with
    regions := u.regions.filter (fun r => r.part ≠ p), mirrors := u.mirrors.filter (fun m => m.part ≠ p)
    tlb := u.tlb.filter (fun e => e.vf ≠ (pt s p).vf), cmds := u.cmds.filter (fun k => k.part ≠ p)
    ackWait := u.ackWait.filter (fun a => a.part ≠ p) }
theorem pt_destroyedIn (p : PartId) (s : State) (x : PartId) : pt (destroyedIn p s) x = if x = p then Part.reset else pt s x := by
  have hpt : pt (scrubAll p false s) x = pt s x := pt_of_parts ((congrArg State.parts (scrubAll_cores p false s)).trans rfl) x
  rw [← hpt]
  exact pt_set _ p Part.reset x
theorem vf_destroyedIn (p : PartId) (s : State) (x : VfId) :
    vf (destroyedIn p s) x = if x = (pt s p).vf then { Vf.reset with nextTag := (vf s (pt s p).vf).nextTag } else vf s x := by
  have hvf : ∀ x, vf (scrubAll p false s) x = vf s x := vf_of_vfs ((congrArg State.vfs (scrubAll_cores p false s)).trans rfl)
  rw [← hvf, ← hvf]
  exact vf_set _ (pt s p).vf _ x
theorem execPdestroy_free {s : State} {p : PartId} (hw : winOpen s = true) (he : (pt s p).exist = true)
    (hfree : (pt s p).vacant = true ∨ ((pt s p).running = false ∧ partBusy s p = false)) :
    execPdestroy p s = .next (ackOk (dueCores (coresOf s p) (destroyedIn p s)) 0) := by
  refine if_neg ?_
  rcases hfree with hv | ⟨hr, hb⟩
  · simp [mgmt_of hw he, hv]
  · simp [mgmt_of hw he, hr, hb]
/-- PDESTROY frees the partition and its VF and scrubs its cores; memory and the others stay. -/
theorem pdestroy_frees {s : State} {p : PartId} (hw : winOpen s = true) (he : (pt s p).exist = true)
    (hfree : (pt s p).vacant = true ∨ ((pt s p).running = false ∧ partBusy s p = false)) :
    ∃ t, exec (.pdestroy p) s = .next t ∧ t.ack = ⟨true, 0⟩ ∧ pt t p = Part.reset ∧
      vf t (pt s p).vf = { Vf.reset with nextTag := (vf s (pt s p).vf).nextTag } ∧
      (∀ c, inMask (pt s p).mask c = true → ∃ r w, cr t c = { Core.reset with retired := r, rank := (cr s c).rank, portw := w }) ∧
      (∀ c, inMask (pt s p).mask c = false → cr t c = cr s c) ∧
      (∀ x, x ≠ p → pt t x = pt s x) ∧ (∀ x, x ≠ (pt s p).vf → vf t x = vf s x) ∧ t.mem = s.mem ∧ t.pubs = s.pubs := by
  obtain ⟨cs, us, hdue, hcr⟩ := dueCores_law (coresOf s p) (destroyedIn p s)
  have hpt : ∀ x, pt (dueCores (coresOf s p) (destroyedIn p s)) x = pt (destroyedIn p s) x := pt_of_parts (by rw [hdue])
  have hvf : ∀ x, vf (dueCores (coresOf s p) (destroyedIn p s)) x = vf (destroyedIn p s) x := vf_of_vfs (by rw [hdue])
  have hscrub : ∀ c, cr (destroyedIn p s) c = if inMask (pt s p).mask c = true then scrubbed false (cr s c) else cr s c := cr_scrubAll p false s
  refine ⟨_, execPdestroy_free hw he hfree, rfl, (hpt p).trans (by rw [pt_destroyedIn, if_pos rfl]),
    (hvf _).trans (by rw [vf_destroyedIn, if_pos rfl]), fun c hin => ?_, fun c hout => ?_,
    fun x hx => (hpt x).trans (by rw [pt_destroyedIn, if_neg hx]), fun x hx => (hvf x).trans (by rw [vf_destroyedIn, if_neg hx]), ?_, ?_⟩
  · obtain ⟨r, w, heq, -⟩ := hcr c
    rw [hscrub c, if_pos hin] at heq
    exact ⟨r, w, heq⟩
  · obtain ⟨r, w, heq, hkeep⟩ := hcr c
    obtain ⟨rfl, rfl⟩ := hkeep (by rw [mem_coresOf, hout]; decide)
    rw [hscrub c, if_neg (by rw [hout]; decide)] at heq
    exact heq
  · rw [hdue]
    exact (congrArg State.mem (scrubAll_cores p false s)).trans rfl
  · rw [hdue]
    exact (congrArg State.pubs (scrubAll_cores p false s)).trans rfl

/-! The registers of a partition that does not run (R288, R296, R298). -/

theorem s2root_sets {s : State} {p : PartId} {x : W64} (hw : winOpen s = true) (he : (pt s p).exist = true) (hrun : (pt s p).running = false)
    (htop : x.toNat / 2 ^ 46 = 0) (hlow : x.toNat / 2 % 2 ^ 15 = 0) :
    exec (.s2root p x) s = .next { s with parts := s.parts.set p { pt s p with s2root := x }, ack := ⟨true, 0⟩ } := by
  have hb1 : bits x.toNat 46 18 = 0 := by rw [bits, htop]; rfl
  have hb2 : bits x.toNat 1 15 = 0 := hlow
  exact if_neg (by simp [mgmt_of hw he, hrun, hb1, hb2])
theorem ctxallot_sets {s : State} {p : PartId} {n : Nat} (hw : winOpen s = true) (he : (pt s p).exist = true) (hrun : (pt s p).running = false)
    (hroom : (partIds.map (fun q => if q ≠ p ∧ (pt s q).exist = true then (pt s q).allot else 0)).sum + n ≤ 256) :
    exec (.ctxallot p n) s = .next { s with parts := s.parts.set p { pt s p with allot := n }, ack := ⟨true, 0⟩ } := by
  have hothers : ¬ 256 < sumNat (partIds.map (fun q => if q ≠ p && (pt s q).exist then (pt s q).allot else 0)) + n := by
    rw [sumNat_eq]
    simpa using hroom
  exact if_neg (by simpa [mgmt_of hw he, hrun] using hothers)
theorem portw_sets {s : State} {c : CoreId} {w : BitVec 4} (hw : winOpen s = true) (h0 : w ≠ 0) (hret : (cr s c).retired = false)
    (hrun : ∀ p, partOf s c = some p → (pt s p).running = false) :
    exec (.portw c w) s = .next { s with cores := s.cores.set c { cr s c with portw := w }, ack := ⟨true, 0⟩ } := by
  have h0' : ¬ w = 0#4 := h0
  show execPortw c w s = _
  unfold execPortw
  cases hp : partOf s c with
  | none => exact if_neg (by simp [hw, h0', hret])
  | some p => exact if_neg (by simp [hw, h0', hret, hrun p hp])

/-! Invalidation (R291, R292). -/

/-- What an INVAL names: all of its VF, the first-stage walks that share a level-0 entry with its range, or the walks that touched it. -/
theorem invalDrops_iff (i : Inval) (e : Tlb) : invalDrops i e = true ↔ e.vf = i.vf ∧ (i.kind = 0 ∨
    (i.kind = 1 ∧ e.s2 = false ∧ e.s1 = true ∧ i.lo / 2 ^ 39 ≤ 65536 * e.page / 2 ^ 39 ∧ 65536 * e.page / 2 ^ 39 ≤ i.hi / 2 ^ 39) ∨
    (i.kind = 2 ∧ ∃ n ∈ e.ipas, 65536 * n ≤ i.hi ∧ i.lo ≤ 65536 * n + 65535)) := by
  have hkinds : i.kind = 0 ∨ i.kind = 1 ∨ i.kind = 2 ∨ i.kind = 3 := by
    generalize i.kind = k
    revert k
    decide
  unfold invalDrops
  rw [Bool.and_eq_true, beq_iff_eq]
  refine and_congr_right fun _ => ?_
  rcases hkinds with h | h | h | h
  · simp [h]
  · simp [h, overlap]
    tauto
  · simp [h, overlap]
  · simp [h]
theorem invalComplete_drops {s : State} {i : Inval} {r : List Inval} (hi : s.invals = i :: r) (hidle : inFlight s i.vf = false)
    (hf : s.fatal = false) (hd : s.dead = false) :
    exec .invalComplete s = .next { s with invals := r, tlb := s.tlb.filter (fun e => !invalDrops i e), events := s.events ++ [.invalDone i.vf] } := by
  show execInvalComplete s = _
  simp only [execInvalComplete, hi, hidle, hf, hd, Bool.or_self, Bool.false_eq_true, if_false]
  rfl

end Sys2Proof.Machine
end

section
open Sys2Proof Sys2Proof.Machine

/-- Settles O39, command by command: the guard's equation in the state that enables it, and the law of the update over the cores. -/
theorem partitionCommands : Obligations.PartitionCommands := by
  intro s
  refine ⟨fun p v mask key => pcreate_gives, fun p => pdestroy_frees, fun p x => s2root_sets, fun p n => ctxallot_sets, fun c w => portw_sets,
    fun v kind lo hi hw => ?_, fun i r hi hidle hf hd => ?_⟩
  · exact if_neg (by simp [hw])
  · refine ⟨_, invalComplete_drops hi hidle hf hd, rfl, fun e => ?_⟩
    rw [List.mem_filter, Bool.not_eq_true', ← Bool.not_eq_true, invalDrops_iff]

end

section
/-! PROOFS. RTE walks failed lanes again, and a page that is still missing is asked for by a write to the request queue (R200, R293, R294,
R321). -/
namespace Sys2Proof.Machine

/-- The publications of an outcome's state. -/
def Out.pubs : Out → List Pub
  | .next t => t.pubs
  | _ => []
/-- A core in its handler with one load whose lane has failed, in a partition whose second stage maps no page. -/
def handlerCoreFailed : Core :=
  { Core.reset with h := true, pend := [⟨0, .load true false 0, [.s 1], 0, 0, 0, [⟨0, false, 0, 8, .failed cXlateS2, none⟩]⟩] }
/-- Core 0 about to commit the RTE of that handler. -/
def rteOverMiss : State :=
  { State.reset with
    cores := State.reset.cores.set 0 handlerCoreFailed, parts := State.reset.parts.set 0 { Part.reset with exist := true, mask := 1, s2root := 1 }
    iss := { Issue.reset with act := true } }
theorem me_rteOverMiss : me rteOverMiss = handlerCoreFailed := rfl
theorem ready_rteOverMiss : Ready .rte rteOverMiss := ⟨rfl, rfl, rfl⟩
/-- The RTE asks for the missing page: one entry is written to the request queue. -/
theorem rteOverMiss_asks : (Out.pubs (exec .rte rteOverMiss)).length = 1 := by
  decide

end Sys2Proof.Machine
end

section
open Sys2Proof Sys2Proof.Machine

/-- Refutes O11: with no event held in the handler, RTE still walks the failed lanes again, and a page that the walk misses is requested by a
publication, so memory and the publications do not stay. -/
theorem not_rteReturnsToEpc : ¬ Obligations.RteReturnsToEpc := by
  intro h
  obtain ⟨-, hreturns⟩ := h rteOverMiss ready_rteOverMiss
  obtain ⟨t, hexec, -, -, -, -, -, -, -, -, hpubs, -⟩ := hreturns rfl rfl rfl
  have hasks := rteOverMiss_asks
  rw [hexec] at hasks
  change t.pubs.length = 1 at hasks
  rw [hpubs] at hasks
  exact absurd hasks (by decide)

end

section
/-! PROOFS. Errors counted per unit and window, and the retirement of units (R332, R333, R336, R337). -/
namespace Sys2Proof.Machine

/-! Counts (R332). -/

/-- A unit's record put in place of the one that stood. -/
def unitPut (kind : BitVec 3) (u : BitVec 16) (y : UnitErr) (s : State) : List UnitErr :=
  y :: s.units.filter (fun z => !(z.kind == kind && z.unit == u))
/-- A unit's record with one more error in the window that stands. -/
def countedUnit (kind : BitVec 3) (u : BitVec 16) (s : State) : UnitErr :=
  { unitOfErr s kind u with
    kind := kind, unit := u, win := windowNow s kind
    count := (if (unitOfErr s kind u).win = windowNow s kind then (unitOfErr s kind u).count else 0) + 1 }
theorem countNow_of (s : State) (kind : BitVec 3) (u : BitVec 16) :
    countNow s (unitOfErr s kind u) = if (unitOfErr s kind u).win = windowNow s kind then (unitOfErr s kind u).count else 0 := by
  rw [countNow, (unitOf_fields s kind u).1]

section
variable {s : State} {kind : BitVec 3} {u : BitVec 16} (hv : unitValid kind u = true) (hr : (unitOfErr s kind u).retired = false)
include hv hr
/-- An error that judges no fault lasting is counted and, with MODESEL.ERR, posted. -/
theorem countError_calm (h : s.modesel.getLsbD 2 = true ∨ (countedUnit kind u s).count ≤ threshOf s kind ∨ (unitOfErr s kind u).due = true) :
    countError kind u s =
      if s.modesel.getLsbD 2 then raise { s with units := unitPut kind u (countedUnit kind u s) s } (.errPosted kind u)
      else { s with units := unitPut kind u (countedUnit kind u s) s } := by
  have hput : bumpUnit kind u s = ({ s with units := unitPut kind u (countedUnit kind u s) s }, false) := by
    rw [bump_calm s kind u (by rw [countNow_of]; exact h), countNow_of]
    exact congrArg (·, false) (unitOf_eta s kind u (fun y => { y with
      count := (if (unitOfErr s kind u).win = windowNow s kind then (unitOfErr s kind u).count else 0) + 1, win := windowNow s kind })
      fun _ => ⟨rfl, rfl⟩)
  rw [count_go s kind u hv hr, hput]
  rfl
/-- An error above THRESH retires the unit where it can retire now. -/
theorem countError_lasting (hm : s.modesel.getLsbD 2 = false) (hn : threshOf s kind < (countedUnit kind u s).count)
    (hd : (unitOfErr s kind u).due = false) (hret : mayRetire s kind u = true) : goneIn kind u (countError kind u s) := by
  obtain ⟨hkind, hunit⟩ := unitOf_fields s kind u
  have hn' : threshOf s kind < countNow s (unitOfErr s kind u) + 1 := by rw [countNow_of]; exact hn
  rw [count_go s kind u hv hr, bump_lasting s kind u hm hn' hd, if_neg (by rw [hm]; decide), if_pos rfl]
  exact settle_gone s kind u _ hv hret hkind hunit rfl
end

/-! RECORD (R336). -/

section
variable {s : State} {kind : BitVec 3} {u : BitVec 16} {w : W64} (hw : winOpen s = true) (hv : unitValid kind u = true)
  (h24 : w.toNat / 2 ^ 24 = 0) (h3 : w.toNat / 2 ^ 3 % 2 ^ 5 = 0) (hk : w.toNat % 2 ^ 3 = kind.toNat) (hu : w.toNat / 2 ^ 8 % 2 ^ 16 = u.toNat)
include hw hv h24 h3 hk hu
theorem execRecord_of : execRecord w s = if (unitOfErr s kind u).retired = true then .next (nack s) else .next (ackOk (countError kind u s) 0) := by
  have hkind : (BitVec.ofNat 3 w.toNat) = kind := BitVec.eq_of_toNat_eq (by rw [BitVec.toNat_ofNat]; exact hk)
  have hunit : (BitVec.ofNat 16 (w.toNat / 2 ^ 8)) = u := BitVec.eq_of_toNat_eq (by rw [BitVec.toNat_ofNat]; exact hu)
  have h7 : ¬ kind = 7#3 := by rintro rfl; simp [unitValid, unitCount] at hv
  have hb24 : bits w.toNat 24 40 = 0 := by rw [bits, h24]; rfl
  have hb3 : bits w.toNat 3 5 = 0 := h3
  simp only [execRecord, hkind, hunit]
  simp [hw, hb24, hb3, h7, hv]
theorem record_retired (hr : (unitOfErr s kind u).retired = true) : exec (.record w) s = .next { s with ack := ⟨false, 0⟩ } := by
  rw [exec_record, execRecord_of hw hv h24 h3 hk hu, if_pos hr]; rfl
theorem record_counts (hr : (unitOfErr s kind u).retired = false) : exec (.record w) s = .next (ackOk (countError kind u s) 0) := by
  rw [exec_record, execRecord_of hw hv h24 h3 hk hu, if_neg (by rw [hr]; decide)]
end

/-! The end of a window (R332). -/

theorem windowEnds_stands {s : State} {kind : BitVec 3} {u : BitVec 16}
    (h : (unitOfErr s kind u).count = 0 ∨ (unitOfErr s kind u).win = windowNow s kind) : windowEnds kind u s = s :=
  if_pos (by rcases h with h | h <;> simp [h])

section
variable {s : State} {kind : BitVec 3} {u : BitVec 16} (hf : s.fatal = false) (hd : s.dead = false) (hc : (unitOfErr s kind u).count ≠ 0)
  (hwin : (unitOfErr s kind u).win ≠ windowNow s kind)
include hf hd hc hwin
/-- A count that has judged no fault lasting starts again. -/
theorem windowEnds_calm (h : s.modesel.getLsbD 2 = true ∨ (unitOfErr s kind u).count ≤ threshOf s kind ∨ (unitOfErr s kind u).retired = true ∨
      (unitOfErr s kind u).due = true) :
    windowEnds kind u s = { s with
      units := unitPut kind u { unitOfErr s kind u with kind := kind, unit := u, count := 0, win := windowNow s kind } s } := by
  have hcalm : (!s.modesel.getLsbD 2 && decide (threshOf s kind < (unitOfErr s kind u).count) && !(unitOfErr s kind u).retired &&
      !(unitOfErr s kind u).due) = false := by
    rcases h with h | h | h | h
    · simp [h]
    · simp [Nat.not_lt.2 h]
    · simp [h]
    · simp [h]
  unfold windowEnds
  dsimp only
  rw [if_neg (by simp [hc, hwin, hf, hd]), hcalm, Bool.or_false, if_neg (by decide)]
  exact unitOf_eta s kind u (fun y => { y with count := 0, win := windowNow s kind }) fun _ => ⟨rfl, rfl⟩
/-- A count above THRESH at the end of its window retires the unit where it can retire now. -/
theorem windowEnds_lasting (hv : unitValid kind u = true) (hm : s.modesel.getLsbD 2 = false) (hn : threshOf s kind < (unitOfErr s kind u).count)
    (hr : (unitOfErr s kind u).retired = false) (hdue : (unitOfErr s kind u).due = false) (hret : mayRetire s kind u = true) :
    goneIn kind u (windowEnds kind u s) := by
  obtain ⟨hkind, hunit⟩ := unitOf_fields s kind u
  unfold windowEnds
  dsimp only
  rw [if_neg (by simp [hc, hwin, hf, hd]), hm, hr, hdue, decide_eq_true hn]
  exact settle_gone s kind u _ hv hret hkind hunit rfl
end

/-! Retirements (R333, R337). -/

/-- A unit whose record is due stands in the list of units. -/
theorem unitOfErr_listed {s : State} {kind : BitVec 3} {u : BitVec 16} (hdue : (unitOfErr s kind u).due = true) :
    ∃ y ∈ s.units, y.kind = kind ∧ y.unit = u ∧ y.due = true := by
  obtain ⟨hk, hu⟩ := unitOf_fields s kind u
  cases h : s.units.find? (fun x => x.kind == kind && x.unit == u) with
  | none => rw [unitOfErr, h] at hdue; cases hdue
  | some y =>
    rw [unitOfErr, h] at hdue hk hu
    exact ⟨y, List.mem_of_find?_eq_some h, hk, hu, hdue⟩
theorem execUnitRetirement_due {s : State} {kind : BitVec 3} {u : BitVec 16} (hf : s.fatal = false) (hd : s.dead = false)
    (hdue : (unitOfErr s kind u).due = true) (hr : (unitOfErr s kind u).retired = false) (hret : mayRetire s kind u = true) :
    execUnitRetirement kind u s = .next (retireUnit kind u s) :=
  if_neg (by simp [hdue, hr, hret, hf, hd])
/-- A unit that is due retires at its point, and only retirements change the machine. -/
theorem unitRetirement_gone {s : State} {kind : BitVec 3} {u : BitVec 16} (hw : winOpen s = true) (hv : unitValid kind u = true)
    (hdue : (unitOfErr s kind u).due = true) (hr : (unitOfErr s kind u).retired = false) (hret : mayRetire s kind u = true) :
    ∃ t, exec (.unitRetirement kind u) s = .next t ∧ goneIn kind u t ∧
      t = { s with cores := t.cores, units := t.units, parts := t.parts, events := t.events } ∧
      (kind = 0 → (cr t (Fin.ofNat 64 u.toNat)).retired = true) := by
  obtain ⟨hf, hd⟩ := winOpen_alive hw
  refine ⟨retireUnit kind u s, execUnitRetirement_due hf hd hdue hr hret, retire_gone kind u s hv hret (unitOfErr_listed hdue), ?_, ?_⟩
  · obtain ⟨cs, us, ps, ev, h⟩ := retireUnit_ret kind u s
    rw [h]
  · rintro rfl
    exact congrArg Core.retired (cr_modCr_same (goneUnit 0 (BitVec.ofNat 16 (unitCore 0 u).val) s) (unitCore 0 u) _)

/-- RETIRE of a channel is refused while a partition runs. -/
theorem retire_channel_refused {s : State} {kind : BitVec 3} {u : BitVec 16} {p : PartId} (hk : kind = 2 ∨ kind = 6)
    (he : (pt s p).exist = true) (hrun : (pt s p).running = true) : exec (.retire kind u) s = .next { s with ack := ⟨false, 0⟩ } := by
  have hchannel : (decide (kind = 2) || decide (kind = 6)) = true := by simpa using hk
  show execRetire kind u s = .next (nack s)
  unfold execRetire
  dsimp only
  rw [hchannel, anyRuns_true he hrun, if_pos rfl, if_pos rfl, ite_self]

section
variable {s : State} {kind : BitVec 3} {u : BitVec 16} (hw : winOpen s = true) (hv : unitValid kind u = true)
include hw hv
/-- RETIRE of a unit that is in use, by its kind. -/
theorem execRetire_inUse (hr : (unitOfErr s kind u).retired = false) : execRetire kind u s =
    if kind = 2 || kind = 6 then
      (if anyRuns s then .next (nack s)
       else .next (ackOk (if kind = 2 then shrinkStack u (goneUnit kind u (makeDue kind u s)) else goneUnit kind u (makeDue kind u s)) 0))
    else .next (ackOk (settleUnit kind u (makeDue kind u s)) 0) := by
  have h7 : ¬ kind = 7 := by rintro rfl; simp [unitValid, unitCount] at hv
  exact if_neg (by simp only [hw, h7, hv, hr]; decide)
/-- RETIRE of a core that a partition holds is reported, and the core is due. -/
theorem retire_pends (hr : (unitOfErr s kind u).retired = false) (hk : kind = 0) (hp : (partOf s (Fin.ofNat 64 u.toNat)).isSome = true) :
    exec (.retire kind u) s = .next { s with
      units := unitPut kind u { unitOfErr s kind u with kind := kind, unit := u, due := true } s
      events := s.events ++ [.retpend kind u], ack := ⟨true, 0⟩ } := by
  have hdue : makeDue kind u s = { s with units := unitPut kind u { unitOfErr s kind u with kind := kind, unit := u, due := true } s } :=
    unitOf_eta s kind u (fun y => { y with due := true }) fun _ => ⟨rfl, rfl⟩
  subst hk
  have hstay : mayRetire (makeDue 0 u s) 0 u = false := by
    show (partOf s (Fin.ofNat 64 u.toNat)).isNone = false
    rw [Option.isNone_eq_false_iff]
    exact hp
  rw [exec_retire, execRetire_inUse hw hv hr, if_neg (by decide), settleUnit, hstay, if_neg (by decide), hdue]
  rfl
/-- A channel retires where no partition runs, and one of a die shrinks the die's stack by 768 MiB. -/
theorem retire_channel (hr : (unitOfErr s kind u).retired = false) (hk : kind = 2 ∨ kind = 6)
    (hp : ∀ p, (pt s p).exist = true → (pt s p).running = false) :
    ∃ t, exec (.retire kind u) s = .next t ∧ goneIn kind u t ∧ t.ack = ⟨true, 0⟩ ∧ t = { s with units := t.units, stackTop := t.stackTop, ack := t.ack } ∧
      t.stackTop = if kind = 2 then s.stackTop.setIfInBounds (u.toNat / 64 % 4) (s.stackTop.getD (u.toNat / 64 % 4) 0 - 805306368) else s.stackTop := by
  obtain ⟨hkind, hunit⟩ := unitOf_fields s kind u
  have hgone : goneIn kind u (goneUnit kind u (makeDue kind u s)) :=
    goneUnit_gone kind u (makeDue kind u s) ⟨{ unitOfErr s kind u with due := true }, List.mem_cons_self, hkind, hunit⟩
  have hstill : ¬ anyRuns s = true := by rw [anyRuns_false hp]; decide
  rw [exec_retire, execRetire_inUse hw hv hr, if_pos (by simpa using hk), if_neg hstill]
  refine ⟨_, rfl, ?_, rfl, ?_, ?_⟩
  · split
    · exact hgone
    · exact hgone
  · split <;> rfl
  · split <;> rfl
end

end Sys2Proof.Machine
end

section
open Sys2Proof Sys2Proof.Machine

/-- Settles O44: counts by `record_counts` and `countError_*`, windows by `windowEnds_*`, retirement by `goneUnit_gone` for the unit
that is due. -/
theorem errorsAreCountedAndUnitsRetire : Obligations.ErrorsAreCountedAndUnitsRetire := by
  intro s kind u hw hv x thresh window n counted set gone
  obtain ⟨hf, hd⟩ := winOpen_alive hw
  refine ⟨fun w h24 h3 hk hu => ⟨fun hr hm hn => ?_, fun hr hm => ?_, fun hr hm hn hdue hret => ?_, record_retired hw hv h24 h3 hk hu⟩,
    fun h => congrArg _ (windowEnds_stands h), fun hc hwin h => congrArg _ (windowEnds_calm hf hd hc hwin h),
    fun hc hwin hm hn hr hdue hret => ⟨_, rfl, windowEnds_lasting hf hd hc hwin hv hm hn hr hdue hret⟩,
    unitRetirement_gone hw hv, retire_pends hw hv, fun hr hret => ?_,
    retire_channel hw hv, fun p => retire_channel_refused⟩
  · rw [record_counts hw hv h24 h3 hk hu hr, countError_calm hv hr (.inr hn), if_neg (by rw [hm]; decide)]
    rfl
  · rw [record_counts hw hv h24 h3 hk hu hr, countError_calm hv hr (.inl hm), if_pos hm]
    rfl
  · exact ⟨_, record_counts hw hv h24 h3 hk hu hr, countError_lasting hv hr hm hn hdue hret, rfl⟩
  · obtain ⟨t, hexec, hack, hgone⟩ := retire_retires hw hv hr hret
    exact ⟨t, hexec, hgone, hack⟩

end

section
/-! PROOFS. Vacancy: the report read back, the cores scrubbed, the gate and the event (R311, R312). -/
namespace Sys2Proof.Machine

/-! The report (R312). -/

/-- A list of 64-bit words is read back word by word from where its bytes were written. -/
theorem words_read {ws : List Nat} {i w : Nat} (h : ws[i]? = some w) (m : Mem) (a : Nat) :
    (m.wrBytes a (ws.flatMap (bytesOf 8))).rdN (a + 8 * i) 8 = w % 2 ^ 64 := by
  obtain ⟨hlt, rfl⟩ := List.getElem?_eq_some_iff.1 h
  have hsplit : ws.flatMap (bytesOf 8) = (ws.take i).flatMap (bytesOf 8) ++ bytesOf 8 ws[i] ++ (ws.drop (i + 1)).flatMap (bytesOf 8) := by
    conv => lhs; rw [← List.take_append_drop i ws, List.drop_eq_getElem_cons hlt]
    rw [List.flatMap_append, List.flatMap_cons, List.append_assoc]
  have hlen : ((ws.take i).flatMap (bytesOf 8)).length = 8 * i := by
    simp [List.length_flatMap, bytesOf_len, Nat.le_of_lt hlt, Nat.mul_comm]
  exact rdN_at a 8 ws[i] (8 * i) _ _ _ m hsplit hlen
/-- The queues that a report lists. -/
def repQueues (d : Deadline) : List SQueue := d.qs.filter (fun x => x.held)
/-- The first word of a queue's entry. -/
def repWord (x : SQueue) : Nat := x.q.toNat + x.choice.rank * 2 ^ 6 + x.outcome.toNat * 2 ^ 8 + (if x.cut then 2 ^ 11 else 0) + x.ended % 2 ^ 32 * 2 ^ 32
/-- The words of a queue's entry. -/
def entryWords (x : SQueue) : List Nat := [repWord x, x.saved % 2 ^ 40]
/-- The time that a deadline has run, with the mark that no acknowledgement is awaited. -/
def repTime (s : State) (p : PartId) (d : Deadline) : Nat := (s.us - d.start) % 2 ^ 32 + (if s.ackWait.any (fun k => k.part == p) then 0 else 2 ^ 32)
/-- The words of the report. -/
def repWords (s : State) (p : PartId) (d : Deadline) : List Nat :=
  [d.d % 2 ^ 32 + d.td % 2 ^ 32 * 2 ^ 32, repTime s p d, (repQueues d).length, 0] ++ (repQueues d).flatMap entryWords
theorem putB_ite (n : Nat) (b : Bool) : putB n b = if b then 2 ^ n else 0 := by
  cases b <;> simp [putB]
theorem repEntry_words (x : SQueue) : repEntry x = (entryWords x).flatMap (bytesOf 8) := by
  simp [repEntry, putB_ite, entryWords, repWord]
theorem repBytes_words (s : State) (p : PartId) (d : Deadline) : repBytes s p d = (repWords s p d).flatMap (bytesOf 8) := by
  have htime : (s.us - d.start) % 2 ^ 32 + putB 32 (!s.ackWait.any (fun a => a.part == p)) = repTime s p d := by
    rw [repTime, putB_ite]
    cases s.ackWait.any (fun a => a.part == p) <;> rfl
  have hentries : (repQueues d).flatMap repEntry = ((repQueues d).flatMap entryWords).flatMap (bytesOf 8) := by
    rw [List.flatMap_assoc, funext repEntry_words]
  rw [repWords, List.flatMap_append, ← hentries, ← htime]
  simp [repBytes, repQueues]
theorem entryWords_len : ∀ l : List SQueue, (l.flatMap entryWords).length = 2 * l.length
  | [] => rfl
  | x :: l => by simp [entryWords, entryWords_len l]; omega
theorem repBytes_len (s : State) (p : PartId) (d : Deadline) : (repBytes s p d).length = 32 + 16 * (repQueues d).length := by
  simp [repBytes_words, List.length_flatMap, bytesOf_len, repWords, entryWords]
  omega
/-- The two words of the entry at a place stand at twice that place. -/
theorem entryWords_get : ∀ (l : List SQueue) (i : Nat) (x : SQueue), l[i]? = some x →
    (l.flatMap entryWords)[2 * i]? = some (repWord x) ∧ (l.flatMap entryWords)[2 * i + 1]? = some (x.saved % 2 ^ 40)
  | [], _, _, h => by simp at h
  | y :: l, 0, x, h => by
    obtain rfl : y = x := by simpa using h
    exact ⟨rfl, rfl⟩
  | y :: l, i + 1, x, h => entryWords_get l i x (by simpa using h)
theorem repWord_lt (x : SQueue) : repWord x < 2 ^ 64 := by
  have hq := x.q.isLt
  have ho := x.outcome.isLt
  have hc : x.choice.rank ≤ 2 := by cases x.choice <;> decide
  unfold repWord
  split <;> omega
theorem repTime_lt (s : State) (p : PartId) (d : Deadline) : repTime s p d < 2 ^ 64 := by unfold repTime; split <;> omega
/-- The words of a report are read back from where it was written. -/
theorem report_read (s : State) (p : PartId) (d : Deadline) (m : Mem) (a : Nat) :
    let t := m.wrBytes a (repBytes s p d)
    t.rdN a 8 = d.d % 2 ^ 32 + d.td % 2 ^ 32 * 2 ^ 32 ∧ t.rdN (a + 8) 8 = repTime s p d ∧
    t.rdN (a + 16) 8 = (repQueues d).length % 2 ^ 64 ∧ t.rdN (a + 24) 8 = 0 ∧
    (∀ i x, (repQueues d)[i]? = some x → t.rdN (a + 32 + 16 * i) 8 = repWord x ∧ t.rdN (a + 40 + 16 * i) 8 = x.saved % 2 ^ 40) ∧
    (∀ b, b < a ∨ a + 32 + 16 * (repQueues d).length ≤ b → t.rd b = m.rd b) := by
  have hout := rd_wrBytes_out (a := a) (l := repBytes s p d) (m := m)
  rw [repBytes_len] at hout
  rw [repBytes_words] at hout ⊢
  have hword : ∀ {i w}, (repWords s p d)[i]? = some w → w < 2 ^ 64 →
      (m.wrBytes a ((repWords s p d).flatMap (bytesOf 8))).rdN (a + 8 * i) 8 = w :=
    fun h hlt => (words_read h m a).trans (Nat.mod_eq_of_lt hlt)
  refine ⟨hword (i := 0) rfl (by omega), hword (i := 1) rfl (repTime_lt s p d), words_read (i := 2) rfl m a, hword (i := 3) rfl (by omega),
    fun i x hx => ?_, fun b hb => hout b (by omega)⟩
  obtain ⟨hfirst, hsecond⟩ := entryWords_get (repQueues d) i x hx
  constructor
  · rw [show a + 32 + 16 * i = a + 8 * (2 * i + 4) by omega]
    exact hword hfirst (repWord_lt x)
  · rw [show a + 40 + 16 * i = a + 8 * (2 * i + 1 + 4) by omega]
    exact hword hsecond (by omega)

/-! The event (R311). -/

/-- A partition without commands has none to end. -/
theorem endAcks_none {s : State} {p : PartId} (h : ∀ k ∈ s.cmds, k.part ≠ p) : endAcks p s = s := by
  have hnone : s.cmds.filter (fun k => k.part == p) = [] := List.filter_eq_nil_iff.2 fun k hk => by simpa using h k hk
  rw [endAcks, hnone]
  rfl
/-- Where a deadline's report is written. -/
def repAt (d : Deadline) : Nat := locNode d.node.toNat d.addr.toNat
/-- The machine with the cores scrubbed and the report published. -/
def reported (p : PartId) (d : Deadline) (u : State) : State := pubOther (scrubAll p true u) (placeL (repAt d) (repBytes u p d))
theorem reported_law (p : PartId) (d : Deadline) (u : State) : ∃ w n k o q b, reported p d u = { u with
    cores := (scrubAll p true u).cores, pubs := u.pubs ++ [w], mem := u.mem.wrBytes (repAt d) (repBytes u p d), badG := b
    nextId := n, ackWait := k, sent := o, outSeq := q } := by
  have hmem : u.mem.wrPairs (placeL (repAt d) (repBytes u p d)) = u.mem.wrBytes (repAt d) (repBytes u p d) := wrPairs_place _ _ _
  unfold reported
  rw [← hmem]
  generalize placeL (repAt d) (repBytes u p d) = ws
  obtain ⟨n, k, o, q, h⟩ := pubOther_eq { u with cores := (scrubAll p true u).cores } ws
  exact ⟨_, n, k, o, q, _, (congrArg (fun v => pubOther v ws) (scrubAll_cores p true u)).trans h⟩
theorem execVacancy_reports {s u : State} {p : PartId} {e d : Deadline} (hdl : (pt s p).dl = some e) (hf : s.fatal = false) (hd : s.dead = false)
    (hmay : mayVacate s p = true) (hu : u = endAcks p s) (hud : (pt u p).dl = some d) :
    execVacancy p s = .next (raise (openGate p (modPt (reported p d u) p vacated)) (.vacancy p)) := by
  have hscrub : (pt (scrubAll p true u) p).dl = some d := by
    rw [pt_of_parts ((congrArg State.parts (scrubAll_cores p true u)).trans rfl : (scrubAll p true u).parts = u.parts) p, hud]
  subst hu
  unfold execVacancy
  rw [hdl]
  dsimp only
  rw [if_neg (by simp [hmay, hf, hd])]
  unfold scrubAll at hscrub
  rw [hud]
  dsimp only
  rw [hscrub]
  rfl

end Sys2Proof.Machine
end

section
open Sys2Proof Sys2Proof.Machine

/-- Settles O43: the report is read back word by word from the bytes that publish it, the scrub is a map over the cores of the
partition, and opening the gate adds only the events of what falls due at it. -/
theorem vacancyScrubsAndReports : Obligations.VacancyScrubsAndReports := by
  intro s p e d u hdl hf hd hmay hu
  refine ⟨fun hnone => hu.trans (endAcks_none hnone), fun hud => ?_⟩
  obtain ⟨w, n, k, o, q, b, hrep⟩ := reported_law p d u
  have hread := report_read u p d u.mem (repAt d)
  have hexec := execVacancy_reports hdl hf hd hmay hu hud
  generalize u.mem.wrBytes (repAt d) (repBytes u p d) = m at hrep hread
  generalize reported p d u = v at hrep hexec
  obtain ⟨us, more, hmore, hgate⟩ := openGate_law p (modPt v p vacated)
  have hpt : ∀ x, pt (modPt (modPt v p vacated) p (fun q => { q with gateOpen := true })) x =
      if p = x then { vacated (pt u p) with gateOpen := true } else pt u x := fun x => by
    rw [modPt_modPt, pt_modPt, hrep]
    rfl
  subst hrep
  rw [hgate] at hexec
  refine ⟨_, more, hexec, rfl, hmore, ?_, fun x hx => ?_, rfl, rfl, fun c hin => ?_, fun c hout => ?_, hread, w, rfl⟩
  · exact (hpt p).trans (if_pos rfl)
  · exact (hpt x).trans (if_neg (Ne.symm hx))
  · exact (cr_scrubAll p true u c).trans (if_pos hin)
  · exact (cr_scrubAll p true u c).trans (if_neg (by rw [hout]; decide))

end

section
/-! PROOFS. Deadlines and the Sluice's choices until the cut (R299, R303 to R306, R310). -/
namespace Sys2Proof.Machine

/-! The DEADLINE command (R299). -/

/-- What a DEADLINE must meet to be accepted. -/
def DeadlineFits (s : State) (k : DeadlineF) : Prop :=
  mgmt s k.part = true ∧ 1 ≤ k.d.toNat ∧ tDiscard s k.part ≤ k.d.toNat ∧ k.addr.toNat % 64 = 0 ∧ k.ckpt.toNat % 64 = 0 ∧ k.rsv = 0 ∧
    (∀ d, (pt s k.part).dl = some d → s.us + k.d.toNat < d.start + d.d)
theorem endsBefore_false {s : State} {p : PartId} {n : Nat} (h : endsBefore s p n = false) {d : Deadline} (hdl : (pt s p).dl = some d) :
    s.us + n < d.start + d.d := by
  rw [endsBefore, hdl] at h
  exact Nat.lt_of_not_le (of_decide_eq_false h)
theorem deadline_refused {s : State} {k : DeadlineF} (h : ¬ DeadlineFits s k) :
    exec (.deadline k) s = .next { s with ack := ⟨false, tDiscard s k.part⟩ } := by
  refine if_pos (Classical.byContradiction fun hguard => h ?_)
  simp only [Bool.or_eq_true, Bool.not_eq_true', decide_eq_true_eq, not_or, Bool.not_eq_false, Bool.not_eq_true, Decidable.not_not] at hguard
  obtain ⟨⟨⟨⟨⟨hm, hd⟩, ha⟩, hc⟩, hr⟩, he⟩ := hguard
  exact ⟨hm, by omega, by omega, ha, hc, hr, fun d => endsBefore_false he⟩
theorem deadline_taken {s : State} {k : DeadlineF} (h : DeadlineFits s k) :
    exec (.deadline k) s = .next (ackOk (deadlineStands k s) (tDiscard s k.part)) := by
  obtain ⟨hm, h1, hd, ha, hc, hr, hends⟩ := h
  exact execDeadline_taken (dl_ok s k hm h1 hd ha hc hr hends)
/-- An evaluation that has just been made and finds no queue leaves the machine as it is. -/
theorem evalAll_fresh {p : PartId} {held : Bool} {s : State} {d : Deadline} (hdl : (pt s p).dl = some d) (hqs : d.qs = []) (hat : d.evalAt = s.us)
    (hheld : heldQueues s p = []) : evalAll p held s = s := by
  have hsame : ({ d with qs := [], evalAt := s.us } : Deadline) = d := by rw [← hqs, ← hat]
  simp only [evalAll, hdl, hheld, hqs, List.filter_nil, List.map_nil, List.append_nil, List.foldl_nil, hsame]
  exact modPt_id (by rw [← hdl])
/-- The first deadline of a partition without tasks stands with no queue, and only the clock may rise (R301). -/
theorem deadlineStands_alone {s : State} {k : DeadlineF} (hdl : (pt s k.part).dl = none) (hmode : s.modesel.getLsbD 1 = false)
    (hq : ∀ q, queueHolds s k.part q = false) : deadlineStands k s = deadlineTaken s k.part (deadlineSet k s) := by
  have hpt := pt_deadlineTaken s k.part (deadlineSet k s)
  have hnone : ∀ q, queueHolds (deadlineTaken s k.part (deadlineSet k s)) k.part q = false := fun q => by
    rw [queueHolds, hpt]
    exact hq q
  have hqs : (deadlineSet k s).qs = [] := by rw [deadlineSet, hdl]; rfl
  unfold deadlineStands
  rw [evalAll_fresh (congrArg Part.dl hpt) hqs rfl (held_none hnone)]
  exact if_neg (by rw [show (deadlineTaken s k.part (deadlineSet k s)).modesel = s.modesel from rfl, hmode]; decide)

/-! Evaluations (R303, R304). -/

/-- The remaining time of a queue fits before the cut. -/
def RunFits (s : State) (p : PartId) (d : Deadline) (q : BitVec 6) : Prop :=
  ∃ n, remQ s p q = some n ∧ n * (rateQ s p q).2 * (8 + d.margin.toNat) ≤ (d.cut - s.us) * 8 * (rateQ s p q).1
/-- A checkpoint of a queue fits before the cut and in the room for withdrawn commands. -/
def CheckpointFits (s : State) (p : PartId) (d : Deadline) (q : BitVec 6) : Prop :=
  ∃ a b, safeQ s p q = some (a, b) ∧ withdrawQ s p q ≤ d.ckptn - d.used ∧
    (a * max 1 s.ch.bw + (dirtyQ s p q + tackQ s p q * max 1 s.ch.bw) * b) * (8 + d.margin.toNat) ≤ (d.cut - s.us) * 8 * (b * max 1 s.ch.bw)
section
variable {s : State} {p : PartId} {d : Deadline} {q : BitVec 6}

theorem evalQ_runs (h : RunFits s p d q) : (evalQ s p d q).1 = .run := by
  obtain ⟨n, hrem, hfit⟩ := h
  simp only [evalQ, hrem]
  exact if_pos (decide_eq_true hfit)
theorem not_runs_false (h : ¬ RunFits s p d q) :
    (match remQ s p q with
      | some n => decide (n * (rateQ s p q).2 * (8 + d.margin.toNat) ≤ (d.cut - s.us) * 8 * (rateQ s p q).1)
      | none => false) = false := by
  cases hrem : remQ s p q with
  | none => rfl
  | some n => exact decide_eq_false fun hfit => h ⟨n, hrem, hfit⟩
theorem evalQ_checkpoints (hr : ¬ RunFits s p d q) (h : CheckpointFits s p d q) : (evalQ s p d q).1 = .checkpoint := by
  obtain ⟨a, b, hsafe, hroom, hfit⟩ := h
  refine (if_neg (Bool.eq_false_iff.1 (not_runs_false hr))).trans (if_pos ?_)
  simp only [ckTime, hsafe, Option.map_some, Bool.and_eq_true, decide_eq_true_eq]
  exact ⟨hfit, hroom⟩
theorem evalQ_discards (hr : ¬ RunFits s p d q) (h : ¬ CheckpointFits s p d q) : (evalQ s p d q).1 = .discard := by
  refine (if_neg (Bool.eq_false_iff.1 (not_runs_false hr))).trans (if_neg ?_)
  cases hsafe : safeQ s p q with
  | none => simp [ckTime, hsafe]
  | some ab =>
    simp only [ckTime, hsafe, Option.map_some, Bool.and_eq_true, decide_eq_true_eq]
    exact fun ⟨hfit, hroom⟩ => h ⟨ab.1, ab.2, hsafe, hroom, hfit⟩
end

/-! Choices only move down (R304). -/

@[simp] theorem SChoice.down_run (c : SChoice) : c.down .run = c := by cases c <;> rfl
theorem SChoice.down_checkpoint (c : SChoice) : c.down .checkpoint = if c = .discard then .discard else .checkpoint := by cases c <;> rfl
@[simp] theorem SChoice.down_discard (c : SChoice) : c.down .discard = .discard := by cases c <;> rfl
theorem SChoice.rank_pos : ∀ {c : SChoice}, c ≠ .run → SChoice.run.rank < c.rank
  | .run, h => absurd rfl h
  | .checkpoint, _ => Nat.zero_lt_one
  | .discard, _ => Nat.zero_lt_two
theorem SChoice.rank_le_checkpoint : ∀ {c : SChoice}, c ≠ .discard → c.rank ≤ SChoice.checkpoint.rank
  | .run, _ => Nat.zero_le 1
  | .checkpoint, _ => Nat.le_refl 1
  | .discard, h => absurd rfl h
theorem SChoice.rank_le_discard (c : SChoice) : c.rank ≤ SChoice.discard.rank := by cases c <;> decide

section
variable {s : State} {p : PartId} {d : Deadline} (hdl : (pt s p).dl = some d)
include hdl

theorem sluiceEvaluation_early (h : s.us ≤ d.evalAt) : exec (.sluiceEvaluation p) s = .next s := by
  rw [exec_sluiceEvaluation, execSluiceEvaluation, hdl]
  exact if_pos (by simp [h])
theorem sluiceEvaluation_evaluates (hf : s.fatal = false) (hd : s.dead = false) (hopen : d.cutDone = false) (hcut : s.us < d.cut)
    (hat : d.evalAt < s.us) : exec (.sluiceEvaluation p) s = .next (evalAll p false s) := by
  rw [exec_sluiceEvaluation, execSluiceEvaluation, hdl]
  exact if_neg (by simp [pastCut, hopen, hcut, hat, hf, hd])

/-! The cut (R304, R310). -/

theorem deadlineCut_cuts (hf : s.fatal = false) (hd : s.dead = false) (hopen : d.cutDone = false) (hcut : d.cut ≤ s.us) :
    exec (.deadlineCut p) s = .next (cutAll p s) := by
  rw [exec_deadlineCut, execDeadlineCut, hdl]
  exact if_neg (by simp [hopen, hcut, hf, hd])
/-- What the cut notes in the partition's deadline. -/
def cutNoted (s : State) (p : PartId) (d : Deadline) : State := modPt s p (fun k => { k with dl := some { d with cutDone := true } })
/-- At the cut of a partition without tasks, spawns and commands only the cut is noted. -/
theorem cutAll_idle (hq : ∀ q, queueHolds s p q = false) (hsp : (pt s p).spawns = []) (hc : ∀ k ∈ s.cmds, k.part ≠ p) :
    cutAll p s = cutNoted s p d := by
  have hcmds : ∀ f : Cmd → Bool, s.cmds.filter (fun k => k.part == p && f k) = [] := fun f => by
    rw [List.filter_eq_nil_iff]
    intro k hk
    simp [hc k hk]
  have hnote : modPt s p (fun k => { k with dl := k.dl.map (fun d => { d with
      cutDone := true, qs := d.qs.map (fun x => if ([] : List (BitVec 6)).contains x.q then { x with cut := true } else x) }) }) = cutNoted s p d := by
    unfold cutNoted modPt
    simp [hdl]
  have hspawns : (pt (cutNoted s p d) p).spawns = [] := by rw [cutNoted, pt_modPt_same]; exact hsp
  have hnocmd : ∀ f : Cmd → Bool, (cutNoted s p d).cmds.filter (fun k => k.part == p && f k) = [] := hcmds
  have hclear : modPt (cutNoted s p d) p (fun k => { k with spawns := [] }) = cutNoted s p d := modPt_id (by rw [← hspawns])
  unfold cutAll
  simp only [held_none hq, hnote, List.foldl_nil, Bool.and_assoc, hnocmd, drainSpawns_none _ hspawns, hspawns, hclear, cancelOf]
end

/-! Commands that stop (R310). -/

theorem cancelCmd_spawn {s : State} {k : Cmd} (h : k.op = opSpawn) : cancelCmd s k = s := if_pos h
theorem cancelCmd_tick_closed {s : State} {k : Cmd} (h : k.op = opTick) (hc : closeSent s k = true) : cancelCmd s k = s := by
  have hspawn : ¬ k.op = opSpawn := by rw [h]; decide
  exact ((if_neg hspawn).trans (if_pos h)).trans (if_pos hc)
theorem cancelCmd_done {s : State} {k : Cmd} (hs : k.op ≠ opSpawn) (ht : k.op ≠ opTick) (hd : k.done = true) :
    cancelCmd s k = endCmd k.id none (freeCtx k (if k.out = [] then s else addPub s (.engine k.core k.id) (BitVec.allOnes 64) k.incl k.out)) := by
  rw [cancelCmd, if_neg hs, if_neg ht, if_pos hd]
  simp only [List.isEmpty_iff]

/-! The host's choices (R306). -/

/-- A deadline with a queue's choice replaced. -/
def Deadline.chosen (d : Deadline) (q : BitVec 6) (ch : SChoice) : Deadline :=
  { d with qs := d.qs.map (fun y => if y.q = q then { y with choice := ch } else y) }
/-- The machine with a queue's choice replaced in the partition's deadline. -/
def hostChosen (s : State) (p : PartId) (d : Deadline) (q : BitVec 6) (ch : SChoice) : State :=
  modPt s p (fun k => { k with dl := some (d.chosen q ch) })
theorem Deadline.chosen_find {d : Deadline} {q : BitVec 6} {e : SQueue} (he : d.qs.find? (fun y => y.q == q) = some e) (ch : SChoice) :
    (d.chosen q ch).qs.find? (fun y => y.q == q) = some { e with choice := ch } := by
  have hq : e.q = q := by simpa using List.find?_some he
  have hsame : ((fun y : SQueue => y.q == q) ∘ fun y => if y.q = q then { y with choice := ch } else y) = fun y => y.q == q := by
    funext y
    dsimp only [Function.comp]
    split <;> rfl
  rw [Deadline.chosen, List.find?_map, hsame, he, Option.map_some, if_pos hq]
theorem pt_hostChosen (s : State) (p : PartId) (d : Deadline) (q : BitVec 6) (ch : SChoice) :
    pt (hostChosen s p d q ch) p = { pt s p with dl := some (d.chosen q ch) } := pt_modPt_same s p _

section
variable {s : State} {p : PartId} {d : Deadline} {q : BitVec 6} {e : SQueue}

/-- A write of SLUICECH that the partition, the deadline and the queue take. -/
theorem sluiceCh_taken {x : W64} {code : Nat} (hdl : (pt s p).dl = some d) (hopen : d.cutDone = false) (hcut : s.us < d.cut)
    (hq : queueHolds s p q = true) (hp : x.toNat % 64 = p.val) (hxq : x.toNat / 64 % 64 = q.toNat) (h14 : x.toNat / 2 ^ 14 = 0)
    (hm : mgmt s p = true) (hcode : x.toNat / 4096 % 4 = code) : sluiceCh s code x = some (p, q) := by
  have hpart : (Fin.ofNat 64 (bits x.toNat 0 6) : PartId) = p := Fin.ext (by simp [Fin.ofNat, bits, hp])
  have hqueue : BitVec.ofNat 6 (bits x.toNat 6 6) = q := BitVec.eq_of_toNat_eq (by simp [bits, hxq])
  have hhigh : bits x.toNat 14 50 = 0 := (congrArg (· % 2 ^ 50) h14).trans rfl
  have hkind : bits x.toNat 12 2 = code := by simpa [bits] using hcode
  rw [sluiceCh, hpart, hqueue, hdl]
  exact if_neg (by simp [hm, hhigh, hkind, pastCut, hopen, hcut, hq])
/-- The Sluice acts at once on the choice that the host has made. -/
theorem actChoice_hostChosen (hopen : d.cutDone = false) (hcut : s.us < d.cut) (hq : queueHolds s p q = true)
    (he : d.qs.find? (fun y => y.q == q) = some e) (ch : SChoice) :
    actChoice p (hostChosen s p d q ch) q = match ch with
      | .run => hostChosen s p d q .run
      | .checkpoint => ckptRest p q (hostChosen s p d q .checkpoint)
      | .discard => discardQueue p q (hostChosen s p d q .discard) := by
  have hchoice : sluiceChoice (hostChosen s p d q ch) p q = ch := by
    have hpast : ¬ pastCut (hostChosen s p d q ch) (d.chosen q ch) = true := by
      simp [pastCut, Deadline.chosen, hopen, show (hostChosen s p d q ch).us = s.us from rfl, hcut]
    rw [sluiceChoice, pt_hostChosen]
    dsimp only
    rw [if_neg hpast, Deadline.chosen_find he]
  have hholds : queueHolds (hostChosen s p d q ch) p q = true := by rw [queueHolds, pt_hostChosen]; exact hq
  rw [actChoice, hchoice]
  cases ch with
  | run => rfl
  | checkpoint => rfl
  | discard => exact if_pos hholds
theorem hostChoice_taken {x : W64} {code : Nat} {ch : SChoice} (hdl : (pt s p).dl = some d) (hmode : s.modesel.getLsbD 1 = true)
    (he : d.qs.find? (fun y => y.q == q) = some e) (hsave : e.saving = false) (hx : sluiceCh s code x = some (p, q)) (hrank : e.choice.rank ≤ ch.rank)
    (hroom : ch = .checkpoint → withdrawQ s p q ≤ d.ckptn - d.used) :
    hostChoice code ch x s = ackOk (actChoice p (hostChosen s p d q ch) q) 0 := by
  have hany : d.qs.any (fun y => y.q == q) = true := by
    rw [List.any_eq_true]
    exact ⟨e, List.mem_of_find?_eq_some he, List.find?_some (p := fun y : SQueue => y.q == q) he⟩
  have hck : (ch == .checkpoint && decide (d.ckptn - d.used < withdrawQ s p q)) = false := by
    cases ch with
    | checkpoint => simpa using hroom rfl
    | run => rfl
    | discard => rfl
  simp only [hostChoice, hx, hdl, he, Option.getD_some]
  rw [if_neg (by simp [hmode, hsave, hck, hrank]), if_pos hany]
  rfl
theorem hostChoice_refused {x : W64} {code : Nat} {ch : SChoice} (hdl : (pt s p).dl = some d)
    (he : d.qs.find? (fun y => y.q == q) = some e) (hx : sluiceCh s code x = some (p, q))
    (h : ch.rank < e.choice.rank ∨ ch = .checkpoint ∧ d.ckptn - d.used < withdrawQ s p q) : hostChoice code ch x s = nack s := by
  simp only [hostChoice, hx, hdl, he, Option.getD_some]
  refine if_pos ?_
  obtain hrank | ⟨rfl, hroom⟩ := h
  · simp [hrank]
  · simp [hroom]
end

end Sys2Proof.Machine
end

section
open Sys2Proof Sys2Proof.Machine

/-- Settles O42: the evaluations by `evalQ_runs`, `evalQ_checkpoints` and `evalQ_discards`, whose choice `SChoice.down` takes, the host's
choices by `sluiceCh_taken` and `hostChoice_taken`, the cut of an idle partition by `cutAll_idle`. -/
theorem sluiceRunsDeadlines : Obligations.SluiceRunsDeadlines := by
  unfold Obligations.SluiceRunsDeadlines
  refine ⟨fun s k => ?_, fun s p d hdl hf hd => ?_⟩
  · intro td fits
    refine ⟨fun x hdl hmode hx hq hfits => ?_, fun x w hfits hx hw => ?_, deadline_refused⟩
    · have hset : deadlineSet k s = x := by rw [hx, deadlineSet, hdl]; rfl
      rw [deadline_taken hfits, deadlineStands_alone hdl hmode hq, hset]
      rfl
    · have hset : deadlineSet k s = x := hx.symm
      rw [deadline_taken hfits, deadlineStands, hset, show evalAll k.part true (deadlineTaken s k.part x) = w from hw.symm]
      split <;> rfl
  refine ⟨sluiceEvaluation_early hdl, fun hopen hcut hat => ?_, fun x hq hsave hmode => ?_, fun q h => ?_,
    fun x q _ hp hxq h14 hm hopen hcut hq => ⟨fun hcode => ?_, fun e hmode he hsave => ?_⟩,
    fun hopen hcut => ⟨fun hq hsp hc => ?_, deadlineCut_cuts hdl hf hd hopen hcut⟩,
    fun k => ⟨cancelCmd_spawn, cancelCmd_tick_closed, cancelCmd_done⟩⟩
  · rw [sluiceEvaluation_evaluates hdl hf hd hopen hcut hat, evalAll, hdl]
    rfl
  · rw [evalQ_choice s p d x hq hsave hmode]
    refine ⟨fun hr => ?_, fun hr hc => ?_, fun hr hc => ?_⟩
    · rw [evalQ_runs hr, SChoice.down_run]
    · rw [evalQ_checkpoints hr hc, SChoice.down_checkpoint]
    · rw [evalQ_discards hr hc, SChoice.down_discard]
  · rw [actChoice, h]
  · rw [exec_sluiceQuery, execSluiceQuery, sluiceCh_taken hdl hopen hcut hq hp hxq h14 hm hcode]
    rfl
  · have hwrite := fun {code : Nat} => sluiceCh_taken (code := code) hdl hopen hcut hq hp hxq h14 hm
    have hacts := actChoice_hostChosen hopen hcut hq he
    have htaken := fun {code : Nat} (ch : SChoice) hcode => hostChoice_taken (code := code) (ch := ch) hdl hmode he hsave (hwrite hcode)
    have hrefused := fun {code : Nat} {ch : SChoice} hcode => hostChoice_refused (code := code) (ch := ch) hdl he (hwrite hcode)
    refine ⟨fun hcode hrun => ?_, fun hcode hrun => ?_, fun hcode hkeep hroom => ?_, fun hcode hno => ?_, fun hcode => ?_⟩
    · rw [exec_sluiceRun, execSluiceRun, htaken .run hcode (by rw [hrun]) nofun, hacts]
      rfl
    · rw [exec_sluiceRun, execSluiceRun, hrefused hcode (.inl (SChoice.rank_pos hrun))]
      rfl
    · rw [exec_sluiceCheckpoint, execSluiceCheckpoint, htaken .checkpoint hcode (SChoice.rank_le_checkpoint hkeep) fun _ => hroom, hacts]
      rfl
    · rw [exec_sluiceCheckpoint, execSluiceCheckpoint, hrefused hcode (hno.imp (fun h => by rw [h]; decide) fun h => ⟨rfl, h⟩)]
      rfl
    · rw [exec_sluiceDiscard, execSluiceDiscard, htaken .discard hcode (SChoice.rank_le_discard e.choice) nofun, hacts]
      rfl
  · rw [deadlineCut_cuts hdl hf hd hopen hcut, cutAll_idle hdl hq hsp hc]
    rfl

end
